-- ==== Sys2Proof/Word.lean ====
section
/-! DEFINITION. The word types of the machine (R28, R31, R47). Plain names only: every helper that a rule
could show wrong stands in Machine/Bits.lean. -/

namespace Sys2Proof

/-- A byte of memory. -/
abbrev Byte := BitVec 8
/-- A 32-bit vector lane, flag, accumulator element or scalar instruction (R31, R38, R75). -/
abbrev W32 := BitVec 32
/-- A 64-bit scalar register or address (R28, R316). -/
abbrev Word := BitVec 64
/-- A 256-bit command word (R85). -/
abbrev CmdWord := BitVec 256
/-- The 4 KiB image of a vector register: 16 rows of 64 lanes of 32 bits (R28, R31). -/
abbrev VReg := BitVec 32768
/-- A predicate register: 16 rows of 256 bits (R28, R32). -/
abbrev PReg := BitVec 4096
/-- A number of an x register. -/
abbrev XReg := Fin 32

end Sys2Proof
end

