-- ==== Sys2Proof/Machine/Bits.lean ====
section
/-! DEFINITION. Bit-field, sign-extension and byte-order helpers (R9, R31, R47), and packed element views of a
register image (R31, R32). -/

namespace Sys2Proof.Machine

/-- Bits [lo + len − 1 : lo] of a word, as a number. -/
def bitsN {n : Nat} (x : BitVec n) (lo len : Nat) : Nat := x.toNat / 2 ^ lo % 2 ^ len

/-- Bits [lo + len − 1 : lo] of a word. -/
def field {n : Nat} (x : BitVec n) (lo len : Nat) : BitVec len := x.extractLsb' lo len

/-- The word with bits [lo + len − 1 : lo] replaced. -/
def putN {n : Nat} (x : BitVec n) (lo len v : Nat) : BitVec n :=
  BitVec.ofNat n (x.toNat - bitsN x lo len * 2 ^ lo + v % 2 ^ len * 2 ^ lo)

/-- One bit of a word. -/
def bit {n : Nat} (x : BitVec n) (i : Nat) : Bool := x.getLsbD i

/-- The little-endian number of a list of bytes (R47). -/
def leNat : List Byte → Nat
  | [] => 0
  | b :: bs => b.toNat + 256 * leNat bs

/-- The `n` little-endian bytes of a number (R47). -/
def leBytes : Nat → Nat → List Byte
  | 0, _ => []
  | n + 1, v => BitVec.ofNat 8 v :: leBytes n (v / 256)

/-- Two's complement reading of the low `w` bits of a number (R47). -/
def toSigned (w v : Nat) : Int :=
  let u := v % 2 ^ w
  if 2 * u < 2 ^ w then (u : Int) else (u : Int) - (2 ^ w : Nat)

/-- The low `w` bits of an integer (R53, wrapping). -/
def ofInt (w : Nat) (v : Int) : Nat := (v % ((2 ^ w : Nat) : Int)).toNat

/-- Number of significant bits. -/
def bitLen (n : Nat) : Nat := if n = 0 then 0 else Nat.log2 n + 1

/-- Element `i` of width `w` of a packed image: bits [w·i + w − 1 : w·i] (R31). -/
def elem {n : Nat} (w : Nat) (v : BitVec n) (i : Nat) : BitVec w := v.extractLsb' (w * i) w

/-- The number whose base-2^w digits are `f i`, `f (i + 1)`, …, `k` of them. -/
def packNat (w : Nat) (f : Nat → BitVec w) : Nat → Nat → Nat
  | 0, _ => 0
  | k + 1, i => (f i).toNat + 2 ^ w * packNat w f k (i + 1)

/-- The packed image whose element `i` of width `w` is `f i` (R31). -/
def pack (n w : Nat) (f : Nat → BitVec w) : BitVec n := BitVec.ofNat n (packNat w f (n / w) 0)

/-- The image `v` with element `i` of width `w` replaced wherever `f` gives a value. -/
def packUpd {n : Nat} (w : Nat) (v : BitVec n) (f : Nat → Option (BitVec w)) : BitVec n :=
  pack n w fun i => (f i).getD (elem w v i)

/-- Byte `i` of an image. -/
def byteOf {n : Nat} (v : BitVec n) (i : Nat) : Byte := elem 8 v i

/-- Number of set bits of the low `n` bits. -/
def popCount : Nat → Nat → Nat
  | 0, _ => 0
  | n + 1, v => v % 2 + popCount n (v / 2)

/-- Lowest set bit below `n`, if any, counting from `i`. -/
def lowestSet : Nat → Nat → Nat → Option Nat
  | 0, _, _ => none
  | n + 1, v, i => if v % 2 = 1 then some i else lowestSet n (v / 2) (i + 1)

end Sys2Proof.Machine
end

