-- ==== Sys2Proof/Config.lean ====
section
/-! DEFINITION. What the spec fixes for the machine as constants, and its free values: opaque constants of which nothing
can be proved. -/

namespace Sys2Proof.Config

/-- Hearths of the package (R3, R4). -/
def hearths : Nat := 640
/-- Hearth cycles in a reference tick: 1.6 GHz over 100 MHz (R5). -/
def cyclesPerTick : Nat := 16
/-- Bytes of instruction memory (R16). -/
def imemBytes : Nat := 262144
/-- Bytes of a scratchpad (R28). -/
def scratchBytes : Nat := 2097152
/-- Bytes of spill memory per context (R35). -/
def spillBytes : Nat := 32768
/-- Scoreboard entries of a hearth (R39). -/
def sbEntries : Nat := 96
/-- Commands each engine queue holds (R40). -/
def queueDepth : Nat := 32
/-- Places of the matrix engine window (R168). -/
def windowPlaces : Nat := 4
/-- Commands the copy engine has in flight (R197). -/
def copyInFlight : Nat := 16
/-- Side-log entries of a copy engine (R205). -/
def sideLogEntries : Nat := 64
/-- Arrival queue entries of a hearth (R235). -/
def arrivalEntries : Nat := 16
/-- Held updates of a stopped hearth (R282). -/
def heldEntries : Nat := 256
/-- Breakpoints of a session (R280). -/
def breakpoints : Nat := 16
/-- Live address-space identifiers (R323). -/
def asids : Nat := 512
/-- Tasks a cirrus engine accepts (R343). -/
def cirrusTasks : Nat := 256
/-- Routines of a copy engine, and the bytes of their code area (R273). -/
def routineSlots : Nat := 16
def routineBytes : Nat := 49152
/-- Call records kept for each caller (R368). -/
def callRecords : Nat := 4096
/-- Bytes of the LPDDR-6 memory of a compute die: 256 GiB (R3, R6). -/
def dieBytes : Nat := 2 ^ 38
/-- Bytes of a save area (R329). -/
def saveBytes : Nat := 4194304
/-- Flash bytes (R334) and the bytes of a page. -/
def flashBytes : Nat := 2 ^ 45
def flashPage : Nat := 16384

/-- A free value: what the transform core's own specifications leave open (R77): a byte of the code area that no part of the
running routine stands in, and the contents of an agnostic element, by command, by instruction (0 for the code area) and by
place. -/
opaque coreOpen (seed use place : Nat) : Word

/-- A free value: the vector length that the transform core sets for an application length between its maximum and twice
that (V extension, `vsetvli`), brought into the range it allows. -/
opaque stripLength (avl vlmax : Nat) : Nat

/-- A free value: where the service firmware of an image begins (R382). -/
opaque firmwareEntry (image : List Byte) : BitVec 64

/-- A free value: what a cycle adds to a counter of the chimney stream (R287), by unit class, unit index and counter; of a counter
of bytes moved, bytes. Timing is outside the model. -/
opaque chimneyStep (cycle cls idx ctr : Nat) : Nat

/-- A free value: the mean package watts of R378 at a cycle. -/
opaque drawnWatts (cycle : Nat) : W32

/-- A free value: the 16-bit identity of the four RISC-V machine identification CSRs, by CSR number. -/
opaque machineId (csr : Nat) : Word

/-- A free value: a result that a rule leaves open, fresh for each use of the counter (`State.free`). -/
opaque openValue (use : Nat) : Word

/-- A free value: the lower of the requested budget and this limit is in force on a 7640M (R378). -/
opaque regulatorLimit : Nat

/-- A free value: which of the pages that the firmware reserves holds an entry of an index's log (R334), by index and position. -/
opaque logPage (idx pos : Nat) : Nat

/-- Free values: the graph that the firmware's version of a merge builds, by the merge's inputs: whether a node whose identifier was
deleted stays, which nodes it would have as neighbours, and which it would start at (R342). -/
opaque mergeKeeps (inputs : List Nat) (pos : Nat) : Bool
opaque mergeNbrs (inputs : List Nat) (pos : Nat) : List Nat
opaque mergeEntry (inputs : List Nat) : Nat

/-- What is fused into the package (R382), fixed and unstated: the hash of the root key, and the least version of each kind of image. -/
opaque fusedKeyHash : List Byte
opaque minService : Nat
opaque minCirrus : Nat
opaque minKeys : Nat
opaque minRuntime : Nat
opaque minHob : Nat

/-- Free values of the layout of the images that secure boot checks, which the spec does not give (R382): the root key that a service
image shows, the keys that an image carries, and an image's signature with the bytes that it signs. -/
opaque rootKey (image : List Byte) : List Byte
opaque imageKeys (image : List Byte) : List (List Byte)
opaque imageSig (image : List Byte) : List Byte × List Byte

end Sys2Proof.Config
end

