-- ==== Sys2Proof/Syntax.lean ====
section
/-! DEFINITION. The instructions and steps of the Pylen Yilpiku 7640: one constructor of `Instr` for each row of the
opcode table. Scalar rows carry their operand fields (R75 to R84); command rows carry the fields of the command word
(R85); event rows carry the agent they happen to and the choices the spec leaves to an agent outside the rules. -/

namespace Sys2Proof

/-! ## Operands of the scalar rows (R75, R76, R79 to R83) -/

/-- Register-register operations of OP and OP-32 in RV64I, M, Zba and Zbb (R75). -/
inductive ROp where
  | add | sub | sll | slt | sltu | xor | srl | sra | or | and
  | addw | subw | sllw | srlw | sraw
  | mul | mulh | mulhsu | mulhu | div | divu | rem | remu
  | mulw | divw | divuw | remw | remuw
  | adduw | sh1add | sh2add | sh3add | sh1adduw | sh2adduw | sh3adduw
  | andn | orn | xnor | max | maxu | min | minu
  | rol | ror | rolw | rorw
  deriving DecidableEq, Repr

/-- Register-immediate operations with a 12-bit immediate (R75). -/
inductive IOp where
  | addi | slti | sltiu | xori | ori | andi | addiw
  deriving DecidableEq, Repr

/-- Shifts by an immediate (R75). The `w` forms take amounts below 32. -/
inductive ShOp where
  | slli | srli | srai | slliw | srliw | sraiw | sllliuw | rori | roriw
  deriving DecidableEq, Repr

/-- One-operand operations of Zbb (R72, R75). -/
inductive UOp where
  | clz | ctz | cpop | clzw | ctzw | cpopw | sextb | sexth | zexth | orcb | rev8
  deriving DecidableEq, Repr

/-- The integer register instructions. -/
inductive IntOp where
  | rr (op : ROp) (rd rs1 rs2 : XReg)
  | ri (op : IOp) (rd rs1 : XReg) (imm : BitVec 12)
  | sh (op : ShOp) (rd rs1 : XReg) (amt : BitVec 6)
  | un (op : UOp) (rd rs1 : XReg)
  | lui (rd : XReg) (imm : BitVec 20)
  | auipc (rd : XReg) (imm : BitVec 20)
  deriving DecidableEq, Repr

inductive BrCond where
  | eq | ne | lt | ge | ltu | geu
  deriving DecidableEq, Repr

/-- Branches and jumps (R76). Offsets are byte offsets, even as RISC-V encodes them. -/
inductive Branch where
  | br (c : BrCond) (rs1 rs2 : XReg) (off : BitVec 13)
  | jal (rd : XReg) (off : BitVec 21)
  | jalr (rd rs1 : XReg) (off : BitVec 12)
  deriving DecidableEq, Repr

inductive LoadW where
  | b | h | w | d | bu | hu | wu
  deriving DecidableEq, Repr

inductive StoreW where
  | b | h | w | d
  deriving DecidableEq, Repr

/-- The A extension (R75, R234). -/
inductive AmoOp where
  | lr | sc | swap | add | xor | and | or | min | max | minu | maxu
  deriving DecidableEq, Repr

structure Amo where
  op : AmoOp
  dw : Bool
  aq : Bool
  rl : Bool
  rd : XReg
  rs1 : XReg
  rs2 : XReg
  deriving DecidableEq, Repr

inductive CsrOp where
  | rw | rs | rc
  deriving DecidableEq, Repr

/-- A CSR instruction (Zicsr). `imm` says that the rs1 field is a 5-bit immediate. -/
structure CsrI where
  op : CsrOp
  imm : Bool
  csr : BitVec 12
  rd : XReg
  rs1 : XReg
  deriving DecidableEq, Repr

/-- Operands of a `k.amoc` (R83). `cluster` is `scope=cluster`, `dw` the 64-bit form. -/
structure Amoc where
  cluster : Bool
  dw : Bool
  rd : XReg
  rs1 : XReg
  rs2 : XReg
  deriving DecidableEq, Repr

/-! ## The fields of a command word (R85) -/

structure CmdF where
  imm : BitVec 32
  sched : BitVec 12
  hint : BitVec 6
  sig : BitVec 32
  wait : BitVec 32
  opd0 : BitVec 22
  opd1 : BitVec 22
  opd2 : BitVec 22
  opd3 : BitVec 22
  opd4 : BitVec 22
  gc : BitVec 2
  gb : BitVec 5
  ga : BitVec 5
  mode : BitVec 4
  ty : BitVec 4
  deriving DecidableEq, Repr

/-! ## What the event rows carry -/

/-- A context of a hearth (R4, R29). -/
structure Loc where
  h : Fin 640
  c : Fin 4
  deriving DecidableEq, Repr

/-- A peer transfer as it crosses a port (R206 to R208, R354): payload, flag addition and handler request only. -/
structure Xfer where
  schip : Nat
  shearth : Nat
  /-- The sender's command, when the sender is a hearth of this package. -/
  sseq : Option Nat
  /-- Which of the states that the sending hearth has run issued the command: a saved one is another (R330). It is the model's
  own field, for sequence numbers restart. -/
  sepoch : Nat := 0
  /-- The sender's world (R380). -/
  ssec : Bool
  dchip : Nat
  dhearth : Nat
  roff : Nat
  data : List Byte
  flagen : Bool
  rflag : Fin 256
  rval : Nat
  hnden : Bool
  hoff : Nat
  deriving DecidableEq, Repr

/-- A register of the host's BAR regions (R349, R370). -/
inductive BarReg where
  | callAddr | callStat | bootStat | chipNum | resv0 (off : Nat)
  | head (q : Fin 2048)
  deriving DecidableEq, Repr

/-- A service call as the caller makes it (R368, R370). `caller` is 0 for the host and 1 + h for the runtime of hearth h.
`choice` holds the picks that the rules leave to the service OS: frames, table pages, identifiers, flash addresses. -/
structure CallReq where
  caller : Nat
  ctx : Fin 4
  seq : Word
  args : Vector Word 6
  choice : List Nat
  deriving DecidableEq, Repr

/-- What a fault that waits for the service OS belongs to (R325, R326): the context at the focus, or the copy engine of
the hearth at the focus and one 64 KiB page of its memory side. -/
inductive FaultRef where
  | ctx
  | copy (page : Nat)
  deriving DecidableEq, Repr

/-- How the service OS services a fault (R325): a table entry, a root or a region is changed, at the physical place the
service OS names. -/
inductive FaultFix where
  | entry (owner : Fin 5) (paddr : Nat) (val : Word)
  | root (owner : Fin 5) (asid : Option Nat) (paddr : Nat)
  | region (owner : Fin 5) (idx : Fin 64) (val : BitVec 128)
  deriving DecidableEq, Repr

/-- The edge a region breakpoint names (R280). -/
inductive Edge where
  | enter | leave
  deriving DecidableEq, Repr

/-- What a link finds as it trains (R348, R353): its generation (major × 10 + minor) and width, or for a port whether it came
up, the package's chip number, and the chips that the service OS routes through it. -/
inductive LinkEv where
  | pcie (gen width : Nat) | cxl (ok : Bool) (gen width : Nat)
  | selaris (port : Fin 8) (ok : Bool) (chip : Nat) (routes : List Nat)
  deriving DecidableEq, Repr

/-- A firmware image that secure boot checks: its version, and its bytes with their signature (R382). -/
structure BootImg where
  version : Nat
  bytes : List Byte
  deriving DecidableEq, Repr

/-- The images that secure boot finds (R382): the service firmware of each pair, the cirrus firmware, the transform routine
keys, the hearth runtime, and the Hob and trace firmware. `roots` are the places that the service firmware gives the root tables of
the privileged half (R320). -/
structure BootRes where
  pairs : Vector BootImg 5
  cirrus : BootImg
  keys : BootImg
  runtime : BootImg
  hob : BootImg
  roots : Vector Nat 5
  deriving DecidableEq, Repr

/-- What takes place on a hearth in one cycle (R38): the commands that complete, the peer transfers that arrive whole, the
records whose end routes a completion flag here, the contexts that execute an instruction or test their wait, and the
commands that start. -/
structure CyclePlan where
  done : List Nat
  arrivals : List Xfer
  ends : List (Fin 2048 × Word × BitVec 3)
  ctxs : List (Fin 4)
  starts : List Nat
  deriving DecidableEq, Repr

/-- Who reads a page (R346): a command of a hearth, by the state of the hearth that issued it, the record at an address under a
work queue, or the merge of an index. -/
inductive Reader where
  | cmd (h : Fin 640) (epoch seq : Nat)
  | record (wq : Fin 2048) (addr : Word)
  | merge (i : Fin 64)
  deriving DecidableEq, Repr

/-- A page read that failed ECC (R346, R347), and the task it belongs to. -/
structure RetryEv where
  page : Nat
  reader : Reader
  uncorrectable : Bool
  deriving DecidableEq, Repr

inductive HostAcc where
  | load (addr : Nat) (n : Nat)
  | store (addr : Nat) (data : List Byte)
  /-- A read of a register of BAR0 or BAR2 over PCI Express (R349, R370). -/
  | reg (r : BarReg)
  deriving DecidableEq, Repr

/-- The operations of the engines, in the order of the opcode map (R95, R96). -/
inductive COp where
  | vAdd | vSub | vMul | vMulh | vFma | vFms | vFnma | vMin | vMax | vAbs | vNeg | vAdiff | vClamp | vSgnj | vRint
  | vRcp | vRsqrt | vExp2 | vLog2 | vCmpeq | vCmpne | vCmplt | vCmple | vCmpgt | vCmpge | vCmpun | vSel | vAnd | vOr
  | vXor | vNot | vAndn | vSll | vSrl | vSra | vRol | vRor | vFsl | vFsr | vClz | vCtz | vFfs | vPop | vBrev | vCvt
  | vCvtef | vPbpack | vPbunpk | vRotr | vBcr | vSumr | vMaxr | vMinr | vAndr | vOrr | vScsumr | vScmaxr | vScminr
  | vRotc | vBcc | vSumc | vMaxc | vMinc | vAndc | vOrc | vScsumc | vScmaxc | vScminc | vPerm | vIota | vMovi | vMov
  | vLut8 | vLut16 | vZip | vUnzip | vLd | vSt | vStm | vGath | vScat | vPand | vPor | vPxor | vPandn | vPnot | vPset
  | vPmov | vPcnt | mxCfg | mxLdb | mxGo | mxDrain | mxZero | mxScale | mxRdst | soLd | soSort | soStep | soTopk
  | soMerge | soSt | soSave | soRest | soClr | cpLin | cp2d | cpList | cpXf | cpPeer | cpFill | sxSearch | sxScan
  | sxAppend | sxFetch | sxDel | sxStat | flNop | flAdd | flSet | flWait
  deriving DecidableEq, Repr

/-- One constructor for each row of the opcode table; the rows without operands stand last. A row that happens to a context
or a hearth happens at the focus of the state, as every scalar instruction does. -/
inductive Instr where
  /-- K_ISSUE (R102): Checks the command word in slot IDX and hands it to its engine queue. -/
  | kIssue (idx : BitVec 13)
  /-- K_ISSUEX (R102): Substitutes xa and xb into the placeholders of the word in slot IDX, checks it, and hands it to its queue. -/
  | kIssuex (idx : BitVec 13) (xa : XReg) (xb : XReg)
  /-- K_TICK (R118): Writes the reference tick count since package reset to xd. -/
  | kTick (rd : XReg)
  /-- K_TRAP (R119): Raises the software trap with a 10-bit code to the hearth runtime or the image's trap procedure. -/
  | kTrap (code : BitVec 10)
  /-- K_FLSET (R104): Sets a flag to the low 32 bits of xs. -/
  | kFlset (fl : BitVec 8) (xs : XReg)
  /-- K_FLADD (R104): Adds signed xs to a flag, clamping at 0 and saturating with the flag-overflow trap. -/
  | kFladd (fl : BitVec 8) (xs : XReg)
  /-- K_FLRD (R104): Reads a flag into xd at its place in the cycle's update sequence. -/
  | kFlrd (rd : XReg) (fl : BitVec 8)
  /-- K_WIN (R109): Checks and writes window register wN from xa and xb. -/
  | kWin (wn : Fin 32) (xa : XReg) (xb : XReg)
  /-- K_WINRD (R110): Reads the low or high half of a window register into xd. -/
  | kWinrd (rd : XReg) (wn : Fin 32) (hi : Bool)
  /-- K_WAIT (R107): Starts a wait on up to four flag or group conditions from spill memory with a tick deadline. -/
  | kWait (rd : XReg) (xt : XReg) (off : BitVec 8) (n1 : BitVec 2) (all : Bool)
  /-- K_SUSP (R112): Drains, then suspends the record at entry offset xs and frees the context. -/
  | kSusp (xs : XReg)
  /-- K_SPAWN (R111): Hands xn child records at xa to the queue manager, raising parent join counters first. -/
  | kSpawn (xa : XReg) (xn : XReg)
  /-- K_GRP_MAKE (R115): Writes a fresh group word with LIMIT xn at address xa. -/
  | kGrpMake (xa : XReg) (xn : XReg)
  /-- K_GRP_JOIN (R115): Claims the lowest free member slot of a group and returns its handle. -/
  | kGrpJoin (rd : XReg) (xa : XReg)
  /-- K_GRP_LEAVE (R115): Removes a member slot from a group, completing the barrier if all others have arrived. -/
  | kGrpLeave (xa : XReg)
  /-- K_GRP_BAR (R115): Arrives at the group barrier and waits for the generation to change. -/
  | kGrpBar (xa : XReg)
  /-- K_ARM (R113): Arms and disarms contexts for arrivals by mask. -/
  | kArm (xs : XReg)
  /-- K_RGN_ENTER (R116): Pushes a region identifier on the context's region stack. -/
  | kRgnEnter (id : BitVec 16)
  /-- K_SPL (R117): Loads a doubleword from spill memory into xd. -/
  | kSpl (rd : XReg) (off : BitVec 12)
  /-- K_SPS (R117): Stores xs as a doubleword to spill memory. -/
  | kSps (xs : XReg) (off : BitVec 12)
  /-- K_AMOC_ADD (R120): Cluster-scope atomic add in a first-level cache. -/
  | kAmocAdd (a : Amoc)
  /-- K_AMOC_SWAP (R120): Cluster-scope atomic swap in a first-level cache. -/
  | kAmocSwap (a : Amoc)
  /-- K_AMOC_CAS (R120): Cluster-scope atomic compare-and-swap against xd. -/
  | kAmocCas (a : Amoc)
  /-- K_AMOC_OR (R120): Cluster-scope atomic OR in a first-level cache. -/
  | kAmocOr (a : Amoc)
  /-- K_AMOC_AND (R120): Cluster-scope atomic AND in a first-level cache. -/
  | kAmocAnd (a : Amoc)
  /-- K_AMOC_MIN (R120): Cluster-scope atomic signed minimum. -/
  | kAmocMin (a : Amoc)
  /-- K_AMOC_MAX (R120): Cluster-scope atomic signed maximum. -/
  | kAmocMax (a : Amoc)
  /-- FENCE (R76): Executes without effect. -/
  | fence (fm : BitVec 4) (pred : BitVec 4) (succ : BitVec 4) (rs1 : XReg) (rd : XReg)
  /-- FENCE_I (R76): Executes without effect. -/
  | fenceI (imm : BitVec 12) (rs1 : XReg) (rd : XReg)
  /-- CSR_ACCESS (R41): Reads or writes a context CSR, waiting on earlier matrix configuration for nest CSRs and trapping on unassigned or read-only ones. -/
  | csrAccess (a : CsrI)
  /-- LOAD (R239): Ordinary scalar load placed in the single memory order, through the aperture for owner 15. -/
  | load (wd : LoadW) (rd : XReg) (rs1 : XReg) (imm : BitVec 12)
  /-- STORE (R239): Ordinary scalar store placed in the single memory order; stores to instruction memory fault. -/
  | store (wd : StoreW) (rs2 : XReg) (rs1 : XReg) (imm : BitVec 12)
  /-- AMO (R234): RISC-V AMO, LR or SC executed at the owner die's home slice or on the scratchpad. -/
  | amo (a : Amo)
  /-- V_ADD (R127): Element-wise add. -/
  | vAdd (f : CmdF)
  /-- V_SUB (R127): Element-wise subtract. -/
  | vSub (f : CmdF)
  /-- V_MUL (R127): Element-wise multiply. -/
  | vMul (f : CmdF)
  /-- V_MULH (R128): High half of the integer product. -/
  | vMulh (f : CmdF)
  /-- V_FMA (R127): Fused multiply-add a×b+c. -/
  | vFma (f : CmdF)
  /-- V_FMS (R127): Fused multiply-subtract a×b−c. -/
  | vFms (f : CmdF)
  /-- V_FNMA (R127): Fused c−a×b. -/
  | vFnma (f : CmdF)
  /-- V_MIN (R130): Element-wise minimum. -/
  | vMin (f : CmdF)
  /-- V_MAX (R130): Element-wise maximum. -/
  | vMax (f : CmdF)
  /-- V_ABS (R131): Element-wise absolute value. -/
  | vAbs (f : CmdF)
  /-- V_NEG (R131): Element-wise negation. -/
  | vNeg (f : CmdF)
  /-- V_ADIFF (R127): Element-wise absolute difference. -/
  | vAdiff (f : CmdF)
  /-- V_CLAMP (R130): Clamps each element between lo and hi. -/
  | vClamp (f : CmdF)
  /-- V_SGNJ (R131): Magnitude of a with the sign of b. -/
  | vSgnj (f : CmdF)
  /-- V_RINT (R131): Rounds each float to an integral value. -/
  | vRint (f : CmdF)
  /-- V_RCP (R132): Correctly rounded reciprocal. -/
  | vRcp (f : CmdF)
  /-- V_RSQRT (R132): Correctly rounded reciprocal square root. -/
  | vRsqrt (f : CmdF)
  /-- V_EXP2 (R133): The defined exp2 function of R70. -/
  | vExp2 (f : CmdF)
  /-- V_LOG2 (R132): Correctly rounded base-2 logarithm. -/
  | vLog2 (f : CmdF)
  /-- V_CMPEQ (R134): Writes a predicate of a = b. -/
  | vCmpeq (f : CmdF)
  /-- V_CMPNE (R134): Writes a predicate of a ≠ b. -/
  | vCmpne (f : CmdF)
  /-- V_CMPLT (R134): Writes a predicate of a < b. -/
  | vCmplt (f : CmdF)
  /-- V_CMPLE (R134): Writes a predicate of a ≤ b. -/
  | vCmple (f : CmdF)
  /-- V_CMPGT (R134): Writes a predicate of a > b. -/
  | vCmpgt (f : CmdF)
  /-- V_CMPGE (R134): Writes a predicate of a ≥ b. -/
  | vCmpge (f : CmdF)
  /-- V_CMPUN (R134): Writes a predicate of unordered float operands. -/
  | vCmpun (f : CmdF)
  /-- V_SEL (R135): Selects a or b per element by a predicate. -/
  | vSel (f : CmdF)
  /-- V_AND (R136): Bitwise AND. -/
  | vAnd (f : CmdF)
  /-- V_OR (R136): Bitwise OR. -/
  | vOr (f : CmdF)
  /-- V_XOR (R136): Bitwise XOR. -/
  | vXor (f : CmdF)
  /-- V_NOT (R136): Bitwise NOT. -/
  | vNot (f : CmdF)
  /-- V_ANDN (R136): Bitwise a AND NOT b. -/
  | vAndn (f : CmdF)
  /-- V_SLL (R137): Logical shift left. -/
  | vSll (f : CmdF)
  /-- V_SRL (R137): Logical shift right. -/
  | vSrl (f : CmdF)
  /-- V_SRA (R137): Arithmetic shift right. -/
  | vSra (f : CmdF)
  /-- V_ROL (R137): Rotate left. -/
  | vRol (f : CmdF)
  /-- V_ROR (R137): Rotate right. -/
  | vRor (f : CmdF)
  /-- V_FSL (R138): Funnel shift left of a:b. -/
  | vFsl (f : CmdF)
  /-- V_FSR (R138): Funnel shift right of a:b. -/
  | vFsr (f : CmdF)
  /-- V_CLZ (R139): Counts leading zeros. -/
  | vClz (f : CmdF)
  /-- V_CTZ (R139): Counts trailing zeros. -/
  | vCtz (f : CmdF)
  /-- V_FFS (R139): Finds the first set bit, 1-based. -/
  | vFfs (f : CmdF)
  /-- V_POP (R139): Counts set bits. -/
  | vPop (f : CmdF)
  /-- V_BREV (R139): Reverses bit order. -/
  | vBrev (f : CmdF)
  /-- V_CVT (R141): Converts a column slice between types. -/
  | vCvt (f : CmdF)
  /-- V_CVTEF (R142): Error-feedback narrowing with an fp32 residual. -/
  | vCvtef (f : CmdF)
  /-- V_PBPACK (R143): Encodes an fp32 register as 64 pb blocks. -/
  | vPbpack (f : CmdF)
  /-- V_PBUNPK (R144): Decodes 64 pb blocks to fp32. -/
  | vPbunpk (f : CmdF)
  /-- V_ROTR (R148): Rotates elements along each row. -/
  | vRotr (f : CmdF)
  /-- V_BCR (R149): Broadcasts one column across each row. -/
  | vBcr (f : CmdF)
  /-- V_SUMR (R151): Exact row sum, rounded once, filled across the row. -/
  | vSumr (f : CmdF)
  /-- V_MAXR (R150): Row maximum filled across the row. -/
  | vMaxr (f : CmdF)
  /-- V_MINR (R150): Row minimum filled across the row. -/
  | vMinr (f : CmdF)
  /-- V_ANDR (R150): Row AND reduction. -/
  | vAndr (f : CmdF)
  /-- V_ORR (R150): Row OR reduction. -/
  | vOrr (f : CmdF)
  /-- V_SCSUMR (R152): Inclusive prefix sum along each row. -/
  | vScsumr (f : CmdF)
  /-- V_SCMAXR (R152): Inclusive prefix maximum along each row. -/
  | vScmaxr (f : CmdF)
  /-- V_SCMINR (R152): Inclusive prefix minimum along each row. -/
  | vScminr (f : CmdF)
  /-- V_ROTC (R148): Rotates elements down each column. -/
  | vRotc (f : CmdF)
  /-- V_BCC (R149): Broadcasts one row down each column. -/
  | vBcc (f : CmdF)
  /-- V_SUMC (R151): Exact column sum filled down the column. -/
  | vSumc (f : CmdF)
  /-- V_MAXC (R150): Column maximum. -/
  | vMaxc (f : CmdF)
  /-- V_MINC (R150): Column minimum. -/
  | vMinc (f : CmdF)
  /-- V_ANDC (R150): Column AND reduction. -/
  | vAndc (f : CmdF)
  /-- V_ORC (R150): Column OR reduction. -/
  | vOrc (f : CmdF)
  /-- V_SCSUMC (R152): Inclusive prefix sum down each column. -/
  | vScsumc (f : CmdF)
  /-- V_SCMAXC (R152): Inclusive prefix maximum down each column. -/
  | vScmaxc (f : CmdF)
  /-- V_SCMINC (R152): Inclusive prefix minimum down each column. -/
  | vScminc (f : CmdF)
  /-- V_PERM (R154): Permutes each row by an index register. -/
  | vPerm (f : CmdF)
  /-- V_IOTA (R155): Writes base + i × step to every element. -/
  | vIota (f : CmdF)
  /-- V_MOVI (R156): Writes one immediate value to every enabled element. -/
  | vMovi (f : CmdF)
  /-- V_MOV (R156): Copies a register bit for bit. -/
  | vMov (f : CmdF)
  /-- V_LUT8 (R158): Looks elements up in an 8-entry scratchpad table. -/
  | vLut8 (f : CmdF)
  /-- V_LUT16 (R158): Looks elements up in a 16-entry scratchpad table. -/
  | vLut16 (f : CmdF)
  /-- V_ZIP (R157): Interleaves halves of two registers along rows. -/
  | vZip (f : CmdF)
  /-- V_UNZIP (R157): Separates interleaved elements along rows. -/
  | vUnzip (f : CmdF)
  /-- V_LD (R161): Loads window rows into a register. -/
  | vLd (f : CmdF)
  /-- V_ST (R161): Stores register rows through a window. -/
  | vSt (f : CmdF)
  /-- V_STM (R162): Stores the bytes a predicate mask selects. -/
  | vStm (f : CmdF)
  /-- V_GATH (R163): Gathers 32-bit words by index from a window. -/
  | vGath (f : CmdF)
  /-- V_SCAT (R163): Scatters 32-bit words by index into a window. -/
  | vScat (f : CmdF)
  /-- V_PAND (R165): Predicate AND. -/
  | vPand (f : CmdF)
  /-- V_POR (R165): Predicate OR. -/
  | vPor (f : CmdF)
  /-- V_PXOR (R165): Predicate XOR. -/
  | vPxor (f : CmdF)
  /-- V_PANDN (R165): Predicate AND NOT. -/
  | vPandn (f : CmdF)
  /-- V_PNOT (R165): Predicate NOT. -/
  | vPnot (f : CmdF)
  /-- V_PSET (R166): Sets the first n elements of a predicate true. -/
  | vPset (f : CmdF)
  /-- V_PMOV (R166): Moves between a vector register and a predicate. -/
  | vPmov (f : CmdF)
  /-- V_PCNT (R166): Counts true elements per register or per row. -/
  | vPcnt (f : CmdF)
  /-- MX_CFG (R171): Loads the shadow nest table from the scratchpad. -/
  | mxCfg (f : CmdF)
  /-- MX_LDB (R172): Loads a weight bank and latches its format. -/
  | mxLdb (f : CmdF)
  /-- MX_GO (R175): Streams activation rows through the six-level nest into accumulators. -/
  | mxGo (f : CmdF)
  /-- MX_DRAIN (R177): Drains accumulator rows in plain, histogram, online-softmax or normalise mode. -/
  | mxDrain (f : CmdF)
  /-- MX_ZERO (R182): Clears accumulator values and/or softmax pairs. -/
  | mxZero (f : CmdF)
  /-- MX_SCALE (R182): Multiplies every accumulator value by an immediate. -/
  | mxScale (f : CmdF)
  /-- MX_RDST (R182): Writes an accumulator's softmax pairs to the scratchpad. -/
  | mxRdst (f : CmdF)
  /-- SO_LD (R187): Loads keys and payloads into the sort array with padding. -/
  | soLd (f : CmdF)
  /-- SO_SORT (R188): Runs the remaining sort phases. -/
  | soSort (f : CmdF)
  /-- SO_STEP (R188): Runs up to k sort phases. -/
  | soStep (f : CmdF)
  /-- SO_TOPK (R191): Keeps the best k elements across a sequence of commands. -/
  | soTopk (f : CmdF)
  /-- SO_MERGE (R189): Merges two sorted halves by phases 13 to 16. -/
  | soMerge (f : CmdF)
  /-- SO_ST (R190): Stores the first n cells as keys and payloads. -/
  | soSt (f : CmdF)
  /-- SO_SAVE (R194): Writes the whole sort array state to the scratchpad. -/
  | soSave (f : CmdF)
  /-- SO_REST (R194): Restores the sort array state from the scratchpad. -/
  | soRest (f : CmdF)
  /-- SO_CLR (R195): Clears the sort array to its cold-start state. -/
  | soClr (f : CmdF)
  /-- CP_LIN (R201): Copies between window rows and one linear memory run, or store-adds. -/
  | cpLin (f : CmdF)
  /-- CP_2D (R201): Copies between window rows and pitched memory rows. -/
  | cp2d (f : CmdF)
  /-- CP_LIST (R202): Follows a list of copy entries in order. -/
  | cpList (f : CmdF)
  /-- CP_XF (R204): Expands a compressed stream through a transform routine into a padded block. -/
  | cpXf (f : CmdF)
  /-- CP_PEER (R206): Sends window bytes to another hearth's scratchpad with optional flag and handler. -/
  | cpPeer (f : CmdF)
  /-- CP_FILL (R203): Fills a window with an immediate value. -/
  | cpFill (f : CmdF)
  /-- SX_SEARCH (R210): Approximate nearest-neighbour search of an index. -/
  | sxSearch (f : CmdF)
  /-- SX_SCAN (R210): Exact scan of every visible vector of an index. -/
  | sxScan (f : CmdF)
  /-- SX_APPEND (R210): Appends vectors to an index log. -/
  | sxAppend (f : CmdF)
  /-- SX_FETCH (R211): Fetches flash blocks by list into the scratchpad. -/
  | sxFetch (f : CmdF)
  /-- SX_DEL (R210): Deletes an identifier from an index. -/
  | sxDel (f : CmdF)
  /-- SX_STAT (R210): Reports an index's live count, log position and generation. -/
  | sxStat (f : CmdF)
  /-- FL_NOP (R212): Does nothing but apply WAIT and SIG in its queue. -/
  | flNop (f : CmdF)
  /-- FL_ADD (R212): Adds IMM to a flag, saturating. -/
  | flAdd (f : CmdF)
  /-- FL_SET (R212): Sets a flag to IMM. -/
  | flSet (f : CmdF)
  /-- FL_WAIT (R212): Holds its queue until its WAIT condition holds. -/
  | flWait (f : CmdF)
  /-- COMMAND_COMPLETION (R92): A command's effects become visible, its SIG applies and its entries are freed. -/
  | commandCompletion (seqs : List Nat)
  /-- PEER_ARRIVAL (R208): A peer transfer arrives, is checked against the grant table, writes its payload and adds its flag.
  `gs` lists the granules of its payload that arrive now. -/
  | peerArrival (x : Xfer) (gs : List Nat)
  /-- CIRRUS_TASK_DISPATCH (R344): A ready search or fetch record is dispatched to a cirrus engine with a free place. -/
  | cirrusTaskDispatch (e : Fin 8)
  /-- RECORD_COMPLETION (R304): A record enters a final state, decrements its parent's join counter and routes its completion flag. -/
  | recordCompletion (wq : Fin 2048) (addr : Word) (qst : BitVec 3)
  /-- GRAPH_NODE_CREATION (R308): A service pair creates a node's record once its predecessors have completed, or cancels it. -/
  | graphNodeCreation (g : Nat) (node : Nat) (addr : Word)
  /-- AGE_LIMIT_REPORT (R309): A ready record that matched no hearth for a full age limit is reported for placement. -/
  | ageLimitReport (wq : Fin 2048) (addr : Word)
  /-- IMAGE_COLD_START (R98): The overlay loader checks and loads an image into a hearth and resets its state. -/
  | imageColdStart (image : Nat)
  /-- DBELL (R350): Host doorbell write that, if accepted, makes the queue manager read and take submission slots. -/
  | dbell (q : Fin 2048) (v : Word)
  /-- REGISTER_WRITE (R10): Write to a register with no behaviour of its own. -/
  | registerWrite (r : BarReg) (v : Word)
  /-- FAULT_SERVICED (R325): The service OS changes a leaf, root or region and the held access retries. -/
  | faultServiced (f : FaultRef) (fixes : List FaultFix)
  /-- FAULT_REFUSED (R325): The service OS refuses a held fault, which traps the context or ends the copy commands. -/
  | faultRefused (f : FaultRef)
  /-- HOB_ATTACH (R280): Holds a hearth for a Hob session. -/
  | hobAttach (h : Nat) (sess : Nat)
  /-- HOB_BREAK_PC (R280): Sets a breakpoint before an instruction. -/
  | hobBreakPc (off : Nat) (c : Option (Fin 4))
  /-- HOB_BREAK_RGN (R280): Sets a breakpoint on a region edge. -/
  | hobBreakRgn (id : BitVec 16) (e : Edge)
  /-- HOB_DELETE (R280): Removes a breakpoint. -/
  | hobDelete (n : Nat)
  /-- HOB_SHOW_V (R280): Prints a vector register. -/
  | hobShowV (n : Fin 16)
  /-- HOB_SHOW_P (R280): Prints a predicate register. -/
  | hobShowP (n : Fin 8)
  /-- HOB_SHOW_W (R280): Prints a window register. -/
  | hobShowW (n : Fin 32)
  /-- HOB_SHOW_ACC (R280): Prints an accumulator. -/
  | hobShowAcc (n : Fin 8)
  /-- HOB_SHOW_SMAX (R280): Prints an accumulator's softmax pairs. -/
  | hobShowSmax (n : Fin 8)
  /-- HOB_DECODE (R280): Prints a command slot in verbose notation with its substituted form. -/
  | hobDecode (n : Nat)
  /-- HOB_MEM (R280): Prints memory bytes as an image. -/
  | hobMem (a : Word) (n : Nat)
  /-- HOB_TRACE (R280): Turns tracing on or off. -/
  | hobTrace (on : Bool)
  /-- HOB_CHIMNEY (R280): Sets the chimney stream exponent. -/
  | hobChimney (k : Nat)
  /-- READ_RETRY (R346): A flash page that fails ECC is re-queued and retried with shifted read levels. -/
  | readRetry (r : RetryEv)
  /-- MERGE_PUBLISH (R342): A finished merge publishes the next root generation. `pages` are the flash pages that the firmware has
  written the nodes to, in the order of their append positions. -/
  | mergePublish (idx : Fin 64) (pages : List Nat)
  /-- LOG_RECLAIM (R342): Old log entries and pages are reclaimed once every search on the old root completes. -/
  | logReclaim (idx : Fin 64)
  /-- LINK_TRAINING (R348): A host link or Selaris port trains and sets generation, width or chip number. -/
  | linkTraining (e : LinkEv)
  /-- PORT_FAILURE (R355): A Selaris port fails permanently, ending transfers crossing it. -/
  | portFailure (p : Fin 8) (dead : List (Nat × Nat)) (cut : List Xfer)
  /-- HOST_SNOOP (R332): The I/O die's coherence agent answers a host snoop. -/
  | hostSnoop (addr : Nat) (n : Nat)
  /-- LEADERSHIP_TAKEOVER (R366): On heartbeat lapse the next live pair takes leadership and recovers calls and queues. -/
  | leadershipTakeover (r : Fin 5)
  /-- LOCKSTEP_STOP (R364): A service pair whose cores disagree stops itself. -/
  | lockstepStop (r : Fin 5)
  /-- POWER_GRANT_PERIOD (R377): Every 200 ticks the arbiter divides the budget into die grants. -/
  | powerGrantPeriod (grants : List Nat) (shares : List (List Nat))
  /-- THERMAL_LIMIT (R378): The cold plate reaches its limit and the budget in force is lowered. -/
  | thermalLimit (w : Nat)
  /-- BOOT (R382): Secure boot verifies and starts each firmware stage. -/
  | boot (r : BootRes)
  /-- IMAGE_REGISTER (R371): Service call registering an image under a work queue. -/
  | imageRegister (r : CallReq)
  /-- IMAGE_UNREGISTER (R371): Service call unregistering an image. -/
  | imageUnregister (r : CallReq)
  /-- QUEUE_CREATE (R371): Service call creating a work queue and its ASID. -/
  | queueCreate (r : CallReq)
  /-- QUEUE_TEARDOWN (R373): Service call ending every unfinished record of a queue. -/
  | queueTeardown (r : CallReq)
  /-- QUEUE_RESET (R375): Service call tearing down a queue and resetting HEAD. -/
  | queueReset (r : CallReq)
  /-- QUEUE_ERRORS (R371): Service call reading a queue's error counts. -/
  | queueErrors (r : CallReq)
  /-- MAP (R371): Service call mapping a page. -/
  | map (r : CallReq)
  /-- UNMAP (R371): Service call unmapping a page. -/
  | unmap (r : CallReq)
  /-- SET_HOME (R371): Service call changing a page's home. -/
  | setHome (r : CallReq)
  /-- MIGRATE (R253): Service call migrating a page with a single leaf switch. -/
  | migrate (r : CallReq)
  /-- AGE_LIMIT (R312): Service call setting the age limit A. -/
  | ageLimit (r : CallReq)
  /-- ROUTINE_LOAD (R272): Service call loading a signed transform routine. -/
  | routineLoad (r : CallReq)
  /-- ROUTINE_UNLOAD (R273): Service call unloading a transform routine. -/
  | routineUnload (r : CallReq)
  /-- FLASH_ALLOCATE (R371): Service call allocating a flash range to a queue. -/
  | flashAllocate (r : CallReq)
  /-- FLASH_WRITE (R371): Service call writing memory to flash. -/
  | flashWrite (r : CallReq)
  /-- FLASH_FREE (R371): Service call freeing a flash range. -/
  | flashFree (r : CallReq)
  /-- INDEX_CREATE (R335): Service call creating an index. -/
  | indexCreate (r : CallReq)
  /-- INDEX_DESTROY (R371): Service call destroying an index. -/
  | indexDestroy (r : CallReq)
  /-- MERGE_START (R342): Service call starting a merge of an index. -/
  | mergeStart (r : CallReq)
  /-- MEDIA_REPAIR (R376): Service call moving a flash range to spare media. -/
  | mediaRepair (r : CallReq)
  /-- POWER_SET (R378): Service call setting the power budget. -/
  | powerSet (r : CallReq)
  /-- POWER_QUERY (R378): Service call returning requested, in-force and drawn power. -/
  | powerQuery (r : CallReq)
  /-- TRACE_RING (R371): Service call assigning or ending a hearth's trace ring. -/
  | traceRing (r : CallReq)
  /-- CHIMNEY (R371): Service call starting or stopping the chimney stream. -/
  | chimney (r : CallReq)
  /-- HOB_ATTACH_CALL (R371): Service call opening a Hob session on a hearth. -/
  | hobAttachCall (r : CallReq)
  /-- HOB_DETACH (R371): Service call closing a Hob session. -/
  | hobDetach (r : CallReq)
  /-- RECORD_MODE (R288): Service call turning replay recording on or off. -/
  | recordMode (r : CallReq)
  /-- REPLAY (R288): Service call replaying a recorded workload. -/
  | replay (r : CallReq)
  /-- COMMAND_START (R91): A queued command reaches its queue head, its WAIT holds (subtracting under mode 10) and its dependences allow, and its engine starts it. -/
  | commandStart (seq : Nat)
  /-- BRANCH_JUMP (R76): A RISC-V branch or jump, trapping at itself when its target is not a multiple of 4. -/
  | branchJump (b : Branch)
  /-- INTEGER_OP (R75): A RV64I, M, Zba or Zbb register instruction, including the Zbb bit counts on zero. -/
  | integerOp (op : IntOp)
  /-- ILLEGAL_INSTRUCTION (R84): An unassigned or absent-extension encoding raises the illegal-instruction trap with no state change. -/
  | illegalInstruction (w : BitVec 32)
  /-- INTERRUPT_PENDING (R76): An interrupt becomes pending and ends a WFI in M mode. -/
  | interruptPending (bit : BitVec 6)
  /-- CALLGO (R370): A host write to CALLGO submits the call block, sets BUSY, performs the call, writes the reply, sets DONE and sends MSI-X vector 64, or is ignored. -/
  | callgo (v : Word) (choice : List Nat)
  /-- HOST_MEMORY_ACCESS (R380): A host load or store over CXL to package memory takes its place in the memory order, and faults on a secure region. -/
  | hostMemoryAccess (a : HostAcc)
  /-- TRANSFER_FORWARD (R353): A peer transfer for a chip not directly attached arrives at a port and is forwarded along the set route. -/
  | transferForward (p : Fin 8) (x : Xfer)
  /-- SERVICE_PAIR_RETURN (R366): A former leader returns, reads a newer GEN and serves as a follower. -/
  | servicePairReturn (r : Fin 5)
  /-- K_DRAIN (R108): Holds the context until every command it issued earlier has completed. -/
  | kDrain
  /-- K_DONE (R112): Drains, then finishes the record and frees the context. -/
  | kDone
  /-- K_YIELD (R112): Drains, then suspends the record to resume after the instruction and frees the context. -/
  | kYield
  /-- K_RGN_LEAVE (R116): Pops the top of the context's region stack. -/
  | kRgnLeave
  /-- ECALL (R76): Traps to the hearth runtime from U mode, or makes a service call to the service OS from M mode. -/
  | ecall
  /-- EBREAK (R76): Stops the hearth for Hob, or raises the breakpoint exception. -/
  | ebreak
  /-- WFI (R76): In M mode waits for an interrupt or 1,000 ticks; in U mode traps. -/
  | wfi
  /-- APERTURE_ACCESS (R224): A scalar access to the scratchpad performed once the range scoreboard allows it. -/
  | apertureAccess
  /-- COMMAND_ACCEPTANCE (R216): Accepts one command word per cycle into its queue, numbering it and making scoreboard entries. -/
  | commandAcceptance
  /-- MATRIX_WINDOW_ACCEPTANCE (R168): Accepts the matrix queue head into the engine window, copying the nest table for mx.go. -/
  | matrixWindowAcceptance
  /-- ASYNC_TRAP (R327): Takes a pending asynchronous trap at the context's next instruction boundary. -/
  | asyncTrap
  /-- WAIT_CONDITION_MET (R107): A waiting k.wait finds its conditions hold, takes its flags and returns. -/
  | waitConditionMet
  /-- WAIT_DEADLINE_EXPIRY (R107): A k.wait reaches its deadline and returns 0 taking nothing. -/
  | waitDeadlineExpiry
  /-- WFI_TIMEOUT (R76): WFI returns after 1,000 reference ticks without an interrupt. -/
  | wfiTimeout
  /-- DRAIN_COMPLETE (R108): The last outstanding command of a draining context completes and the drain ends. -/
  | drainComplete
  /-- BARRIER_RELEASE (R115): A waiting k.grp.bar reads a new generation and returns. -/
  | barrierRelease
  /-- SPAWN_ACCEPTED (R111): The queue manager accepts the spawned children and k.spawn returns. -/
  | spawnAccepted
  /-- QUEUED_ARRIVAL_START (R235): A context that becomes free or armed is given to the oldest queued arrival. -/
  | queuedArrivalStart
  /-- RECORD_DISPATCH (R311): The queue manager chooses a ready record for a free hearth context and starts it. -/
  | recordDispatch
  /-- PREEMPTION (R328): The service OS halts a hearth and saves its state, to the save area whose first byte has the key
  `area`. -/
  | preemption (area : Nat)
  /-- PREEMPTION_RESTORE (R330): Restores a saved hearth: image, state, engines, then contexts. `n` counts the saved states
  of the hearth, the oldest first. -/
  | preemptionRestore (n : Nat)
  /-- SIDE_LOG_REPLAY (R205): Once the faulting page is mapped, side-logged writes are performed in log order. -/
  | sideLogReplay
  /-- BREAKPOINT_HIT (R281): A context reaches a breakpoint or EBREAK and the hearth stops. -/
  | breakpointHit
  /-- HOB_LIST (R280): Lists breakpoints. -/
  | hobList
  /-- HOB_CONT (R283): Applies held updates in order and resumes the hearth. -/
  | hobCont
  /-- HOB_STEP (R283): Applies held updates, runs one instruction of a context, and stops again. -/
  | hobStep
  /-- HOB_REGS (R280): Prints a context's scalar registers. -/
  | hobRegs
  /-- HOB_SHOW_FLAGS (R280): Prints the flag file. -/
  | hobShowFlags
  /-- HOB_SHOW_SB (R280): Prints the scoreboard entries and their WAIT conditions. -/
  | hobShowSb
  /-- HOB_SHOW_Q (R280): Prints the four queues. -/
  | hobShowQ
  /-- HOB_SHOW_HELD (R280): Prints the held flag updates. -/
  | hobShowHeld
  /-- HOB_SHOW_SA (R280): Prints the sort array state. -/
  | hobShowSa
  /-- HOB_SHOW_NEST (R280): Prints a context's nest tables including the active one. -/
  | hobShowNest
  /-- CHIMNEY_LATCH (R286): On each tick that is a multiple of 2^k every counter latches and a frame is written. -/
  | chimneyLatch
  /-- LEASE_REBASE (R241): Timestamps near their limit are rebased package-wide and leases renewed. -/
  | leaseRebase
  /-- HEARTBEAT (R365): The leader writes BEAT every 100,000 ticks. -/
  | heartbeat
  /-- MRET (R327): The hearth runtime returns from a trap with mret, after which pending asynchronous traps are taken one at a time. -/
  | mret
  /-- COLD_PLATE_COOLED (R378): The cold plate has cooled, and the arbiter lifts the thermal lowering of the budget in force. -/
  | coldPlateCooled
  deriving DecidableEq, Repr

/-- The command row of an operation with its fields. -/
def Instr.ofCmd (o : COp) (f : CmdF) : Instr :=
  match o with
  | .vAdd => .vAdd f
  | .vSub => .vSub f
  | .vMul => .vMul f
  | .vMulh => .vMulh f
  | .vFma => .vFma f
  | .vFms => .vFms f
  | .vFnma => .vFnma f
  | .vMin => .vMin f
  | .vMax => .vMax f
  | .vAbs => .vAbs f
  | .vNeg => .vNeg f
  | .vAdiff => .vAdiff f
  | .vClamp => .vClamp f
  | .vSgnj => .vSgnj f
  | .vRint => .vRint f
  | .vRcp => .vRcp f
  | .vRsqrt => .vRsqrt f
  | .vExp2 => .vExp2 f
  | .vLog2 => .vLog2 f
  | .vCmpeq => .vCmpeq f
  | .vCmpne => .vCmpne f
  | .vCmplt => .vCmplt f
  | .vCmple => .vCmple f
  | .vCmpgt => .vCmpgt f
  | .vCmpge => .vCmpge f
  | .vCmpun => .vCmpun f
  | .vSel => .vSel f
  | .vAnd => .vAnd f
  | .vOr => .vOr f
  | .vXor => .vXor f
  | .vNot => .vNot f
  | .vAndn => .vAndn f
  | .vSll => .vSll f
  | .vSrl => .vSrl f
  | .vSra => .vSra f
  | .vRol => .vRol f
  | .vRor => .vRor f
  | .vFsl => .vFsl f
  | .vFsr => .vFsr f
  | .vClz => .vClz f
  | .vCtz => .vCtz f
  | .vFfs => .vFfs f
  | .vPop => .vPop f
  | .vBrev => .vBrev f
  | .vCvt => .vCvt f
  | .vCvtef => .vCvtef f
  | .vPbpack => .vPbpack f
  | .vPbunpk => .vPbunpk f
  | .vRotr => .vRotr f
  | .vBcr => .vBcr f
  | .vSumr => .vSumr f
  | .vMaxr => .vMaxr f
  | .vMinr => .vMinr f
  | .vAndr => .vAndr f
  | .vOrr => .vOrr f
  | .vScsumr => .vScsumr f
  | .vScmaxr => .vScmaxr f
  | .vScminr => .vScminr f
  | .vRotc => .vRotc f
  | .vBcc => .vBcc f
  | .vSumc => .vSumc f
  | .vMaxc => .vMaxc f
  | .vMinc => .vMinc f
  | .vAndc => .vAndc f
  | .vOrc => .vOrc f
  | .vScsumc => .vScsumc f
  | .vScmaxc => .vScmaxc f
  | .vScminc => .vScminc f
  | .vPerm => .vPerm f
  | .vIota => .vIota f
  | .vMovi => .vMovi f
  | .vMov => .vMov f
  | .vLut8 => .vLut8 f
  | .vLut16 => .vLut16 f
  | .vZip => .vZip f
  | .vUnzip => .vUnzip f
  | .vLd => .vLd f
  | .vSt => .vSt f
  | .vStm => .vStm f
  | .vGath => .vGath f
  | .vScat => .vScat f
  | .vPand => .vPand f
  | .vPor => .vPor f
  | .vPxor => .vPxor f
  | .vPandn => .vPandn f
  | .vPnot => .vPnot f
  | .vPset => .vPset f
  | .vPmov => .vPmov f
  | .vPcnt => .vPcnt f
  | .mxCfg => .mxCfg f
  | .mxLdb => .mxLdb f
  | .mxGo => .mxGo f
  | .mxDrain => .mxDrain f
  | .mxZero => .mxZero f
  | .mxScale => .mxScale f
  | .mxRdst => .mxRdst f
  | .soLd => .soLd f
  | .soSort => .soSort f
  | .soStep => .soStep f
  | .soTopk => .soTopk f
  | .soMerge => .soMerge f
  | .soSt => .soSt f
  | .soSave => .soSave f
  | .soRest => .soRest f
  | .soClr => .soClr f
  | .cpLin => .cpLin f
  | .cp2d => .cp2d f
  | .cpList => .cpList f
  | .cpXf => .cpXf f
  | .cpPeer => .cpPeer f
  | .cpFill => .cpFill f
  | .sxSearch => .sxSearch f
  | .sxScan => .sxScan f
  | .sxAppend => .sxAppend f
  | .sxFetch => .sxFetch f
  | .sxDel => .sxDel f
  | .sxStat => .sxStat f
  | .flNop => .flNop f
  | .flAdd => .flAdd f
  | .flSet => .flSet f
  | .flWait => .flWait f

/-- The operation and fields of a command row, none for every other row. -/
def Instr.toCmd : Instr → Option (COp × CmdF)
  | .vAdd f => some (.vAdd, f)
  | .vSub f => some (.vSub, f)
  | .vMul f => some (.vMul, f)
  | .vMulh f => some (.vMulh, f)
  | .vFma f => some (.vFma, f)
  | .vFms f => some (.vFms, f)
  | .vFnma f => some (.vFnma, f)
  | .vMin f => some (.vMin, f)
  | .vMax f => some (.vMax, f)
  | .vAbs f => some (.vAbs, f)
  | .vNeg f => some (.vNeg, f)
  | .vAdiff f => some (.vAdiff, f)
  | .vClamp f => some (.vClamp, f)
  | .vSgnj f => some (.vSgnj, f)
  | .vRint f => some (.vRint, f)
  | .vRcp f => some (.vRcp, f)
  | .vRsqrt f => some (.vRsqrt, f)
  | .vExp2 f => some (.vExp2, f)
  | .vLog2 f => some (.vLog2, f)
  | .vCmpeq f => some (.vCmpeq, f)
  | .vCmpne f => some (.vCmpne, f)
  | .vCmplt f => some (.vCmplt, f)
  | .vCmple f => some (.vCmple, f)
  | .vCmpgt f => some (.vCmpgt, f)
  | .vCmpge f => some (.vCmpge, f)
  | .vCmpun f => some (.vCmpun, f)
  | .vSel f => some (.vSel, f)
  | .vAnd f => some (.vAnd, f)
  | .vOr f => some (.vOr, f)
  | .vXor f => some (.vXor, f)
  | .vNot f => some (.vNot, f)
  | .vAndn f => some (.vAndn, f)
  | .vSll f => some (.vSll, f)
  | .vSrl f => some (.vSrl, f)
  | .vSra f => some (.vSra, f)
  | .vRol f => some (.vRol, f)
  | .vRor f => some (.vRor, f)
  | .vFsl f => some (.vFsl, f)
  | .vFsr f => some (.vFsr, f)
  | .vClz f => some (.vClz, f)
  | .vCtz f => some (.vCtz, f)
  | .vFfs f => some (.vFfs, f)
  | .vPop f => some (.vPop, f)
  | .vBrev f => some (.vBrev, f)
  | .vCvt f => some (.vCvt, f)
  | .vCvtef f => some (.vCvtef, f)
  | .vPbpack f => some (.vPbpack, f)
  | .vPbunpk f => some (.vPbunpk, f)
  | .vRotr f => some (.vRotr, f)
  | .vBcr f => some (.vBcr, f)
  | .vSumr f => some (.vSumr, f)
  | .vMaxr f => some (.vMaxr, f)
  | .vMinr f => some (.vMinr, f)
  | .vAndr f => some (.vAndr, f)
  | .vOrr f => some (.vOrr, f)
  | .vScsumr f => some (.vScsumr, f)
  | .vScmaxr f => some (.vScmaxr, f)
  | .vScminr f => some (.vScminr, f)
  | .vRotc f => some (.vRotc, f)
  | .vBcc f => some (.vBcc, f)
  | .vSumc f => some (.vSumc, f)
  | .vMaxc f => some (.vMaxc, f)
  | .vMinc f => some (.vMinc, f)
  | .vAndc f => some (.vAndc, f)
  | .vOrc f => some (.vOrc, f)
  | .vScsumc f => some (.vScsumc, f)
  | .vScmaxc f => some (.vScmaxc, f)
  | .vScminc f => some (.vScminc, f)
  | .vPerm f => some (.vPerm, f)
  | .vIota f => some (.vIota, f)
  | .vMovi f => some (.vMovi, f)
  | .vMov f => some (.vMov, f)
  | .vLut8 f => some (.vLut8, f)
  | .vLut16 f => some (.vLut16, f)
  | .vZip f => some (.vZip, f)
  | .vUnzip f => some (.vUnzip, f)
  | .vLd f => some (.vLd, f)
  | .vSt f => some (.vSt, f)
  | .vStm f => some (.vStm, f)
  | .vGath f => some (.vGath, f)
  | .vScat f => some (.vScat, f)
  | .vPand f => some (.vPand, f)
  | .vPor f => some (.vPor, f)
  | .vPxor f => some (.vPxor, f)
  | .vPandn f => some (.vPandn, f)
  | .vPnot f => some (.vPnot, f)
  | .vPset f => some (.vPset, f)
  | .vPmov f => some (.vPmov, f)
  | .vPcnt f => some (.vPcnt, f)
  | .mxCfg f => some (.mxCfg, f)
  | .mxLdb f => some (.mxLdb, f)
  | .mxGo f => some (.mxGo, f)
  | .mxDrain f => some (.mxDrain, f)
  | .mxZero f => some (.mxZero, f)
  | .mxScale f => some (.mxScale, f)
  | .mxRdst f => some (.mxRdst, f)
  | .soLd f => some (.soLd, f)
  | .soSort f => some (.soSort, f)
  | .soStep f => some (.soStep, f)
  | .soTopk f => some (.soTopk, f)
  | .soMerge f => some (.soMerge, f)
  | .soSt f => some (.soSt, f)
  | .soSave f => some (.soSave, f)
  | .soRest f => some (.soRest, f)
  | .soClr f => some (.soClr, f)
  | .cpLin f => some (.cpLin, f)
  | .cp2d f => some (.cp2d, f)
  | .cpList f => some (.cpList, f)
  | .cpXf f => some (.cpXf, f)
  | .cpPeer f => some (.cpPeer, f)
  | .cpFill f => some (.cpFill, f)
  | .sxSearch f => some (.sxSearch, f)
  | .sxScan f => some (.sxScan, f)
  | .sxAppend f => some (.sxAppend, f)
  | .sxFetch f => some (.sxFetch, f)
  | .sxDel f => some (.sxDel, f)
  | .sxStat f => some (.sxStat, f)
  | .flNop f => some (.flNop, f)
  | .flAdd f => some (.flAdd, f)
  | .flSet f => some (.flSet, f)
  | .flWait f => some (.flWait, f)
  | .kIssue _ => none
  | .kIssuex _ _ _ => none
  | .kTick _ => none
  | .kDrain => none
  | .kTrap _ => none
  | .kFlset _ _ => none
  | .kFladd _ _ => none
  | .kFlrd _ _ => none
  | .kWin _ _ _ => none
  | .kWinrd _ _ _ => none
  | .kWait _ _ _ _ _ => none
  | .kDone => none
  | .kYield => none
  | .kSusp _ => none
  | .kSpawn _ _ => none
  | .kGrpMake _ _ => none
  | .kGrpJoin _ _ => none
  | .kGrpLeave _ => none
  | .kGrpBar _ => none
  | .kArm _ => none
  | .kRgnEnter _ => none
  | .kRgnLeave => none
  | .kSpl _ _ => none
  | .kSps _ _ => none
  | .kAmocAdd _ => none
  | .kAmocSwap _ => none
  | .kAmocCas _ => none
  | .kAmocOr _ => none
  | .kAmocAnd _ => none
  | .kAmocMin _ => none
  | .kAmocMax _ => none
  | .ecall => none
  | .ebreak => none
  | .wfi => none
  | .fence _ _ _ _ _ => none
  | .fenceI _ _ _ => none
  | .csrAccess _ => none
  | .load _ _ _ _ => none
  | .store _ _ _ _ => none
  | .amo _ => none
  | .apertureAccess => none
  | .commandAcceptance => none
  | .matrixWindowAcceptance => none
  | .commandCompletion _ => none
  | .asyncTrap => none
  | .waitConditionMet => none
  | .waitDeadlineExpiry => none
  | .wfiTimeout => none
  | .drainComplete => none
  | .barrierRelease => none
  | .spawnAccepted => none
  | .peerArrival _ _ => none
  | .queuedArrivalStart => none
  | .recordDispatch => none
  | .cirrusTaskDispatch _ => none
  | .recordCompletion _ _ _ => none
  | .graphNodeCreation _ _ _ => none
  | .ageLimitReport _ _ => none
  | .imageColdStart _ => none
  | .dbell _ _ => none
  | .registerWrite _ _ => none
  | .preemption _ => none
  | .preemptionRestore _ => none
  | .faultServiced _ _ => none
  | .faultRefused _ => none
  | .sideLogReplay => none
  | .breakpointHit => none
  | .hobAttach _ _ => none
  | .hobBreakPc _ _ => none
  | .hobBreakRgn _ _ => none
  | .hobDelete _ => none
  | .hobList => none
  | .hobCont => none
  | .hobStep => none
  | .hobRegs => none
  | .hobShowV _ => none
  | .hobShowP _ => none
  | .hobShowW _ => none
  | .hobShowFlags => none
  | .hobShowSb => none
  | .hobShowQ => none
  | .hobShowHeld => none
  | .hobShowAcc _ => none
  | .hobShowSmax _ => none
  | .hobShowSa => none
  | .hobShowNest => none
  | .hobDecode _ => none
  | .hobMem _ _ => none
  | .hobTrace _ => none
  | .hobChimney _ => none
  | .chimneyLatch => none
  | .leaseRebase => none
  | .readRetry _ => none
  | .mergePublish _ _ => none
  | .logReclaim _ => none
  | .linkTraining _ => none
  | .portFailure _ _ _ => none
  | .hostSnoop _ _ => none
  | .heartbeat => none
  | .leadershipTakeover _ => none
  | .lockstepStop _ => none
  | .powerGrantPeriod _ _ => none
  | .thermalLimit _ => none
  | .boot _ => none
  | .imageRegister _ => none
  | .imageUnregister _ => none
  | .queueCreate _ => none
  | .queueTeardown _ => none
  | .queueReset _ => none
  | .queueErrors _ => none
  | .map _ => none
  | .unmap _ => none
  | .setHome _ => none
  | .migrate _ => none
  | .ageLimit _ => none
  | .routineLoad _ => none
  | .routineUnload _ => none
  | .flashAllocate _ => none
  | .flashWrite _ => none
  | .flashFree _ => none
  | .indexCreate _ => none
  | .indexDestroy _ => none
  | .mergeStart _ => none
  | .mediaRepair _ => none
  | .powerSet _ => none
  | .powerQuery _ => none
  | .traceRing _ => none
  | .chimney _ => none
  | .hobAttachCall _ => none
  | .hobDetach _ => none
  | .recordMode _ => none
  | .replay _ => none
  | .commandStart _ => none
  | .branchJump _ => none
  | .integerOp _ => none
  | .illegalInstruction _ => none
  | .mret => none
  | .interruptPending _ => none
  | .callgo _ _ => none
  | .hostMemoryAccess _ => none
  | .transferForward _ _ => none
  | .servicePairReturn _ => none
  | .coldPlateCooled => none

end Sys2Proof
end

