-- ==== Sys2Proof/WellFormed.lean ====
section
/-! DEFINITION. Well-formed instructions: the operand values that the encodings of R75 and R79 to R83 can hold. Field
widths are already in the types; what is left are the even offsets, the 5-bit amounts of the word shifts, the zero rs2
of LR, and the region identifier that is never zero (R81). -/

namespace Sys2Proof

/-- Word shifts take 5-bit amounts. -/
def ShOp.isWord : ShOp → Bool
  | .slliw | .srliw | .sraiw | .roriw => true
  | .slli | .srli | .srai | .sllliuw | .rori => false

def IntOp.wf : IntOp → Bool
  | .sh op _ _ amt => !op.isWord || amt.toNat < 32
  | .rr .. | .ri .. | .un .. | .lui .. | .auipc .. => true

def Branch.wf : Branch → Bool
  | .br _ _ _ off => off.getLsbD 0 == false
  | .jal _ off => off.getLsbD 0 == false
  | .jalr .. => true

/-- An instruction whose operands its encoding can hold. Event rows have no encoding and are always well formed. -/
def Instr.wellFormed : Instr → Bool
  | .integerOp op => op.wf
  | .branchJump b => b.wf
  | .amo a => a.op != .lr || a.rs2 == 0
  | .kRgnEnter id => id != 0
  | _ => true

end Sys2Proof
end

