-- ==== Sys2Proof/Decode.lean ====
section
/-! DEFINITION. The decoder, total on any word, and the encoder, both written from the encoding tables of R75, R79 to R83
and R85 to R96. A 32-bit word that no table assigns decodes to the row ILLEGAL_INSTRUCTION (R76, R84); a command word
with an unassigned `ENG` or `OPC` decodes to nothing (R85, R95, R96). -/

namespace Sys2Proof

open Sys2Proof.Machine (leNat leBytes)

/-! ## The six fields of a scalar word -/

/-- [31:25], [24:20], [19:15], [14:12], [11:7], [6:0] of a scalar word (R79). -/
structure RW where
  f7 : BitVec 7
  rs2 : BitVec 5
  rs1 : BitVec 5
  f3 : BitVec 3
  rd : BitVec 5
  opc : BitVec 7
  deriving DecidableEq, Repr

def RW.ofWord (w : BitVec 32) : RW :=
  { f7 := w.extractLsb' 25 7, rs2 := w.extractLsb' 20 5, rs1 := w.extractLsb' 15 5,
    f3 := w.extractLsb' 12 3, rd := w.extractLsb' 7 5, opc := w.extractLsb' 0 7 }

def RW.toWord (r : RW) : BitVec 32 := r.f7 ++ r.rs2 ++ r.rs1 ++ r.f3 ++ r.rd ++ r.opc

/-- A register field as a register number. -/
def xr (b : BitVec 5) : XReg := b.toFin
/-- A register number as a field. -/
def xb (r : XReg) : BitVec 5 := BitVec.ofFin r

/-! ## Operation codes -/

/-- funct7 and funct3 of OP (false) and OP-32 (true). -/
def ROp.code : ROp → Bool × Nat × Nat
  | .add => (false, 0x00, 0) | .sub => (false, 0x20, 0) | .sll => (false, 0x00, 1) | .slt => (false, 0x00, 2)
  | .sltu => (false, 0x00, 3) | .xor => (false, 0x00, 4) | .srl => (false, 0x00, 5) | .sra => (false, 0x20, 5)
  | .or => (false, 0x00, 6) | .and => (false, 0x00, 7)
  | .addw => (true, 0x00, 0) | .subw => (true, 0x20, 0) | .sllw => (true, 0x00, 1) | .srlw => (true, 0x00, 5)
  | .sraw => (true, 0x20, 5)
  | .mul => (false, 0x01, 0) | .mulh => (false, 0x01, 1) | .mulhsu => (false, 0x01, 2) | .mulhu => (false, 0x01, 3)
  | .div => (false, 0x01, 4) | .divu => (false, 0x01, 5) | .rem => (false, 0x01, 6) | .remu => (false, 0x01, 7)
  | .mulw => (true, 0x01, 0) | .divw => (true, 0x01, 4) | .divuw => (true, 0x01, 5) | .remw => (true, 0x01, 6)
  | .remuw => (true, 0x01, 7)
  | .adduw => (true, 0x04, 0) | .sh1add => (false, 0x10, 2) | .sh2add => (false, 0x10, 4) | .sh3add => (false, 0x10, 6)
  | .sh1adduw => (true, 0x10, 2) | .sh2adduw => (true, 0x10, 4) | .sh3adduw => (true, 0x10, 6)
  | .andn => (false, 0x20, 7) | .orn => (false, 0x20, 6) | .xnor => (false, 0x20, 4)
  | .min => (false, 0x05, 4) | .minu => (false, 0x05, 5) | .max => (false, 0x05, 6) | .maxu => (false, 0x05, 7)
  | .rol => (false, 0x30, 1) | .ror => (false, 0x30, 5) | .rolw => (true, 0x30, 1) | .rorw => (true, 0x30, 5)

def ropOf (w32 : Bool) (f7 f3 : Nat) : Option ROp :=
  match w32, f7, f3 with
  | false, 0x00, 0 => some .add | false, 0x20, 0 => some .sub | false, 0x00, 1 => some .sll
  | false, 0x00, 2 => some .slt | false, 0x00, 3 => some .sltu | false, 0x00, 4 => some .xor
  | false, 0x00, 5 => some .srl | false, 0x20, 5 => some .sra | false, 0x00, 6 => some .or
  | false, 0x00, 7 => some .and
  | true, 0x00, 0 => some .addw | true, 0x20, 0 => some .subw | true, 0x00, 1 => some .sllw
  | true, 0x00, 5 => some .srlw | true, 0x20, 5 => some .sraw
  | false, 0x01, 0 => some .mul | false, 0x01, 1 => some .mulh | false, 0x01, 2 => some .mulhsu
  | false, 0x01, 3 => some .mulhu | false, 0x01, 4 => some .div | false, 0x01, 5 => some .divu
  | false, 0x01, 6 => some .rem | false, 0x01, 7 => some .remu
  | true, 0x01, 0 => some .mulw | true, 0x01, 4 => some .divw | true, 0x01, 5 => some .divuw
  | true, 0x01, 6 => some .remw | true, 0x01, 7 => some .remuw
  | true, 0x04, 0 => some .adduw
  | false, 0x10, 2 => some .sh1add | false, 0x10, 4 => some .sh2add | false, 0x10, 6 => some .sh3add
  | true, 0x10, 2 => some .sh1adduw | true, 0x10, 4 => some .sh2adduw | true, 0x10, 6 => some .sh3adduw
  | false, 0x20, 7 => some .andn | false, 0x20, 6 => some .orn | false, 0x20, 4 => some .xnor
  | false, 0x05, 4 => some .min | false, 0x05, 5 => some .minu | false, 0x05, 6 => some .max | false, 0x05, 7 => some .maxu
  | false, 0x30, 1 => some .rol | false, 0x30, 5 => some .ror | true, 0x30, 1 => some .rolw | true, 0x30, 5 => some .rorw
  | _, _, _ => none

/-- The opcode, funct7 and funct3 of an immediate shift; the low bit of funct7 is bit 5 of a 6-bit amount. -/
def ShOp.code : ShOp → Nat × Nat × Nat
  | .slli => (0x13, 0x00, 1) | .srli => (0x13, 0x00, 5) | .srai => (0x13, 0x20, 5) | .rori => (0x13, 0x30, 5)
  | .slliw => (0x1B, 0x00, 1) | .srliw => (0x1B, 0x00, 5) | .sraiw => (0x1B, 0x20, 5) | .roriw => (0x1B, 0x30, 5)
  | .sllliuw => (0x1B, 0x04, 1)

/-- The opcode, the 12-bit code in [31:20] and funct3 of a one-operand operation (Zbb). -/
def UOp.code : UOp → Nat × Nat × Nat
  | .clz => (0x13, 0x600, 1) | .ctz => (0x13, 0x601, 1) | .cpop => (0x13, 0x602, 1)
  | .sextb => (0x13, 0x604, 1) | .sexth => (0x13, 0x605, 1) | .orcb => (0x13, 0x287, 5) | .rev8 => (0x13, 0x6B8, 5)
  | .clzw => (0x1B, 0x600, 1) | .ctzw => (0x1B, 0x601, 1) | .cpopw => (0x1B, 0x602, 1) | .zexth => (0x3B, 0x080, 4)

def IOp.code : IOp → Nat × Nat
  | .addi => (0x13, 0) | .slti => (0x13, 2) | .sltiu => (0x13, 3) | .xori => (0x13, 4) | .ori => (0x13, 6)
  | .andi => (0x13, 7) | .addiw => (0x1B, 0)

def iopOf (w32 : Bool) (f3 : Nat) : Option IOp :=
  match w32, f3 with
  | false, 0 => some .addi | false, 2 => some .slti | false, 3 => some .sltiu | false, 4 => some .xori
  | false, 6 => some .ori | false, 7 => some .andi | true, 0 => some .addiw
  | _, _ => none

def BrCond.code : BrCond → Nat
  | .eq => 0 | .ne => 1 | .lt => 4 | .ge => 5 | .ltu => 6 | .geu => 7

def brOf : Nat → Option BrCond
  | 0 => some .eq | 1 => some .ne | 4 => some .lt | 5 => some .ge | 6 => some .ltu | 7 => some .geu
  | _ => none

def LoadW.code : LoadW → Nat
  | .b => 0 | .h => 1 | .w => 2 | .d => 3 | .bu => 4 | .hu => 5 | .wu => 6

def loadOf : Nat → Option LoadW
  | 0 => some .b | 1 => some .h | 2 => some .w | 3 => some .d | 4 => some .bu | 5 => some .hu | 6 => some .wu
  | _ => none

def StoreW.code : StoreW → Nat
  | .b => 0 | .h => 1 | .w => 2 | .d => 3

def storeOf : Nat → Option StoreW
  | 0 => some .b | 1 => some .h | 2 => some .w | 3 => some .d
  | _ => none

/-- funct5 of the A extension. -/
def AmoOp.code : AmoOp → Nat
  | .lr => 0b00010 | .sc => 0b00011 | .swap => 0b00001 | .add => 0b00000 | .xor => 0b00100 | .and => 0b01100
  | .or => 0b01000 | .min => 0b10000 | .max => 0b10100 | .minu => 0b11000 | .maxu => 0b11100

def amoOf : Nat → Option AmoOp
  | 0b00010 => some .lr | 0b00011 => some .sc | 0b00001 => some .swap | 0b00000 => some .add
  | 0b00100 => some .xor | 0b01100 => some .and | 0b01000 => some .or | 0b10000 => some .min
  | 0b10100 => some .max | 0b11000 => some .minu | 0b11100 => some .maxu
  | _ => none

def CsrOp.code : CsrOp → Nat
  | .rw => 1 | .rs => 2 | .rc => 3

/-! ## Immediates -/

/-- [31:20]. -/
def RW.immI (r : RW) : BitVec 12 := r.f7 ++ r.rs2
/-- [31:25], [11:7]. -/
def RW.immS (r : RW) : BitVec 12 := r.f7 ++ r.rd
/-- The branch offset: bit 12 is [31], bit 11 is [7], bits [10:5] are [30:25], bits [4:1] are [11:8]. -/
def RW.immB (r : RW) : BitVec 13 :=
  r.f7.extractLsb' 6 1 ++ r.rd.extractLsb' 0 1 ++ r.f7.extractLsb' 0 6 ++ r.rd.extractLsb' 1 4 ++ 0#1
/-- [31:12]. -/
def RW.immU (r : RW) : BitVec 20 := r.f7 ++ r.rs2 ++ r.rs1 ++ r.f3
/-- The jump offset: bit 20 is [31], bits [19:12] are [19:12], bit 11 is [20], bits [10:1] are [30:21]. -/
def RW.immJ (r : RW) : BitVec 21 :=
  r.f7.extractLsb' 6 1 ++ (r.rs1 ++ r.f3) ++ r.rs2.extractLsb' 0 1 ++ (r.f7.extractLsb' 0 6 ++ r.rs2.extractLsb' 1 4) ++ 0#1

/-! ## The scalar decoder -/

/-- OP-IMM and OP-IMM-32: shifts, one-operand operations, then plain immediates. -/
def decodeImm (w32 : Bool) (r : RW) : Option IntOp :=
  let rd := xr r.rd
  let rs1 := xr r.rs1
  let f7 := r.f7.toNat
  let f6 := f7 / 2
  let amt : BitVec 6 := (r.f7.extractLsb' 0 1 ++ r.rs2)
  match w32, r.f3.toNat with
  | false, 1 =>
    if f6 = 0 then some (.sh .slli rd rs1 amt)
    else match r.immI.toNat with
      | 0x600 => some (.un .clz rd rs1) | 0x601 => some (.un .ctz rd rs1) | 0x602 => some (.un .cpop rd rs1)
      | 0x604 => some (.un .sextb rd rs1) | 0x605 => some (.un .sexth rd rs1)
      | _ => none
  | false, 5 =>
    if f6 = 0x00 then some (.sh .srli rd rs1 amt)
    else if f6 = 0x10 then some (.sh .srai rd rs1 amt)
    else match r.immI.toNat with
      | 0x287 => some (.un .orcb rd rs1) | 0x6B8 => some (.un .rev8 rd rs1)
      | _ => if f6 = 0x18 then some (.sh .rori rd rs1 amt) else none
  | true, 1 =>
    if f7 = 0 then some (.sh .slliw rd rs1 amt)
    else if f6 = 0x02 then some (.sh .sllliuw rd rs1 amt)
    else match r.immI.toNat with
      | 0x600 => some (.un .clzw rd rs1) | 0x601 => some (.un .ctzw rd rs1) | 0x602 => some (.un .cpopw rd rs1)
      | _ => none
  | true, 5 =>
    match f7 with
    | 0x00 => some (.sh .srliw rd rs1 amt) | 0x20 => some (.sh .sraiw rd rs1 amt) | 0x30 => some (.sh .roriw rd rs1 amt)
    | _ => none
  | _, f3 => (iopOf w32 f3).map fun op => .ri op rd rs1 r.immI

/-- SYSTEM (R76): the four privileged words and the CSR instructions. -/
def decodeSystem (r : RW) : Option Instr :=
  match r.f3.toNat with
  | 0 =>
    if r.rd = 0 ∧ r.rs1 = 0 then
      match r.immI.toNat with
      | 0x000 => some .ecall | 0x001 => some .ebreak | 0x302 => some .mret | 0x105 => some .wfi
      | _ => none
    else none
  | 1 => some (.csrAccess ⟨.rw, false, r.immI, xr r.rd, xr r.rs1⟩)
  | 2 => some (.csrAccess ⟨.rs, false, r.immI, xr r.rd, xr r.rs1⟩)
  | 3 => some (.csrAccess ⟨.rc, false, r.immI, xr r.rd, xr r.rs1⟩)
  | 5 => some (.csrAccess ⟨.rw, true, r.immI, xr r.rd, xr r.rs1⟩)
  | 6 => some (.csrAccess ⟨.rs, true, r.immI, xr r.rd, xr r.rs1⟩)
  | 7 => some (.csrAccess ⟨.rc, true, r.immI, xr r.rd, xr r.rs1⟩)
  | _ => none

/-- custom-0 (R79). -/
def decodeC0 (r : RW) : Option Instr :=
  let rd := xr r.rd
  let rs1 := xr r.rs1
  let flag : BitVec 8 := r.f7.extractLsb' 0 3 ++ r.rs2
  match r.f3.toNat with
  | 0 => if r.rd = 0 ∧ r.rs1.extractLsb' 0 4 = 0#4 then some (.kIssue (r.f7 ++ r.rs2 ++ r.rs1.extractLsb' 4 1)) else none
  | 2 => some (.kIssuex ((0#1 ++ r.f7) ++ r.rd) rs1 (xr r.rs2))
  | 3 => some (.kIssuex ((1#1 ++ r.f7) ++ r.rd) rs1 (xr r.rs2))
  | 4 =>
    match r.f7.toNat with
    | 0 => if r.rs2 = 0 ∧ r.rs1 = 0 then some (.kTick rd) else none
    | 1 => if r.rs2 = 0 ∧ r.rs1 = 0 ∧ r.rd = 0 then some .kDrain else none
    | 2 => if r.rd = 0 then some (.kTrap (r.rs2 ++ r.rs1)) else none
    | _ => none
  | 5 =>
    match (r.f7.extractLsb' 3 4).toNat with
    | 0b0000 => if r.rd = 0 then some (.kFlset flag rs1) else none
    | 0b0100 => if r.rd = 0 then some (.kFladd flag rs1) else none
    | 0b1000 => if r.rs1 = 0 then some (.kFlrd rd flag) else none
    | _ => none
  | 6 =>
    if r.f7 = 0 then some (.kWin rd rs1 (xr r.rs2))
    else if r.f7.extractLsb' 6 1 = 1#1 ∧ r.f7.extractLsb' 0 5 = 0#5 ∧ r.rs2 = 0 then
      some (.kWinrd rd rs1 (r.f7.getLsbD 5))
    else none
  | 7 =>
    if r.rs2.getLsbD 0 = false then
      some (.kWait rd rs1 (r.f7.extractLsb' 0 4 ++ r.rs2.extractLsb' 1 4) (r.f7.extractLsb' 4 2) (r.f7.getLsbD 6))
    else none
  | _ => none

/-- custom-1 (R81). -/
def decodeC1 (r : RW) : Option Instr :=
  let z1 := r.rs1 = 0
  let z2 := r.rs2 = 0
  let zd := r.rd = 0
  let rs1 := xr r.rs1
  match r.f3.toNat with
  | 0 =>
    match r.f7.toNat with
    | 0b0000000 => if z2 ∧ z1 ∧ zd then some .kDone else none
    | 0b0000001 => if z2 ∧ z1 ∧ zd then some .kYield else none
    | 0b0000010 => if z2 ∧ zd then some (.kSusp rs1) else none
    | 0b0000011 => if zd then some (.kSpawn rs1 (xr r.rs2)) else none
    | 0b0001000 => if zd then some (.kGrpMake rs1 (xr r.rs2)) else none
    | 0b0001001 => if z2 then some (.kGrpJoin (xr r.rd) rs1) else none
    | 0b0001010 => if z2 ∧ zd then some (.kGrpLeave rs1) else none
    | 0b0001011 => if z2 ∧ zd then some (.kGrpBar rs1) else none
    | 0b0010000 => if z2 ∧ zd then some (.kArm rs1) else none
    | _ => none
  | 1 =>
    let id : BitVec 16 := r.f7 ++ r.rs2 ++ r.rs1.extractLsb' 1 4
    if zd ∧ r.rs1.getLsbD 0 = false ∧ id ≠ 0 then some (.kRgnEnter id) else none
  | 2 => if r.f7 = 0 ∧ z2 ∧ z1 ∧ zd then some .kRgnLeave else none
  | _ => none

/-- custom-2 (R82). -/
def decodeC2 (r : RW) : Option Instr :=
  match r.f3.toNat with
  | 3 => if r.rs1 = 0 then some (.kSpl (xr r.rd) r.immI) else none
  | 7 => if r.rs1 = 0 then some (.kSps (xr r.rs2) r.immS) else none
  | _ => none

/-- custom-3 (R83). -/
def decodeC3 (r : RW) : Option Instr :=
  if (r.f3 = 2 ∨ r.f3 = 3) ∧ r.f7.getLsbD 1 = false then
    let a : Amoc := ⟨r.f7.getLsbD 0, r.f3.getLsbD 0, xr r.rd, xr r.rs1, xr r.rs2⟩
    match (r.f7.extractLsb' 2 5).toNat with
    | 0b00000 => some (.kAmocAdd a) | 0b00001 => some (.kAmocSwap a) | 0b00101 => some (.kAmocCas a)
    | 0b01000 => some (.kAmocOr a) | 0b01100 => some (.kAmocAnd a) | 0b10000 => some (.kAmocMin a)
    | 0b10100 => some (.kAmocMax a)
    | _ => none
  else none

/-- The assigned scalar encodings, by major opcode. -/
def decodeRW (r : RW) : Option Instr :=
  match r.opc.toNat with
  | 0x37 => some (.integerOp (.lui (xr r.rd) r.immU))
  | 0x17 => some (.integerOp (.auipc (xr r.rd) r.immU))
  | 0x13 => (decodeImm false r).map .integerOp
  | 0x1B => (decodeImm true r).map .integerOp
  | 0x33 => (ropOf false r.f7.toNat r.f3.toNat).map fun op => .integerOp (.rr op (xr r.rd) (xr r.rs1) (xr r.rs2))
  | 0x3B =>
    if r.immI = 0x080 ∧ r.f3 = 4 then some (.integerOp (.un .zexth (xr r.rd) (xr r.rs1)))
    else (ropOf true r.f7.toNat r.f3.toNat).map fun op => .integerOp (.rr op (xr r.rd) (xr r.rs1) (xr r.rs2))
  | 0x63 => (brOf r.f3.toNat).map fun c => .branchJump (.br c (xr r.rs1) (xr r.rs2) r.immB)
  | 0x6F => some (.branchJump (.jal (xr r.rd) r.immJ))
  | 0x67 => if r.f3 = 0 then some (.branchJump (.jalr (xr r.rd) (xr r.rs1) r.immI)) else none
  | 0x03 => (loadOf r.f3.toNat).map fun wd => .load wd (xr r.rd) (xr r.rs1) r.immI
  | 0x23 => (storeOf r.f3.toNat).map fun wd => .store wd (xr r.rs2) (xr r.rs1) r.immS
  | 0x2F =>
    if r.f3 = 2 ∨ r.f3 = 3 then
      match amoOf (r.f7.extractLsb' 2 5).toNat with
      | some op =>
        if op = .lr ∧ r.rs2 ≠ 0 then none
        else some (.amo ⟨op, r.f3.getLsbD 0, r.f7.getLsbD 1, r.f7.getLsbD 0, xr r.rd, xr r.rs1, xr r.rs2⟩)
      | none => none
    else none
  | 0x0F =>
    match r.f3.toNat with
    | 0 => some (.fence (r.immI.extractLsb' 8 4) (r.immI.extractLsb' 4 4) (r.immI.extractLsb' 0 4) (xr r.rs1) (xr r.rd))
    | 1 => some (.fenceI r.immI (xr r.rs1) (xr r.rd))
    | _ => none
  | 0x73 => decodeSystem r
  | 0x0B => decodeC0 r
  | 0x2B => decodeC1 r
  | 0x5B => decodeC2 r
  | 0x7B => decodeC3 r
  | _ => none

/-- The instruction of any 32-bit word: what no table assigns is the row ILLEGAL_INSTRUCTION (R76, R84). -/
def decodeScalar (w : BitVec 32) : Instr := (decodeRW (RW.ofWord w)).getD (.illegalInstruction w)

/-! ## Command words -/

/-- `ENG` and `OPC` of an operation (R95, R96). -/
def COp.code : COp → Nat × Nat
  | .vAdd => (0, 0x00)
  | .vSub => (0, 0x01)
  | .vMul => (0, 0x02)
  | .vMulh => (0, 0x03)
  | .vFma => (0, 0x04)
  | .vFms => (0, 0x05)
  | .vFnma => (0, 0x06)
  | .vMin => (0, 0x07)
  | .vMax => (0, 0x08)
  | .vAbs => (0, 0x09)
  | .vNeg => (0, 0x0A)
  | .vAdiff => (0, 0x0B)
  | .vClamp => (0, 0x0C)
  | .vSgnj => (0, 0x0D)
  | .vRint => (0, 0x0E)
  | .vRcp => (0, 0x10)
  | .vRsqrt => (0, 0x11)
  | .vExp2 => (0, 0x12)
  | .vLog2 => (0, 0x13)
  | .vCmpeq => (0, 0x20)
  | .vCmpne => (0, 0x21)
  | .vCmplt => (0, 0x22)
  | .vCmple => (0, 0x23)
  | .vCmpgt => (0, 0x24)
  | .vCmpge => (0, 0x25)
  | .vCmpun => (0, 0x26)
  | .vSel => (0, 0x27)
  | .vAnd => (0, 0x30)
  | .vOr => (0, 0x31)
  | .vXor => (0, 0x32)
  | .vNot => (0, 0x33)
  | .vAndn => (0, 0x34)
  | .vSll => (0, 0x35)
  | .vSrl => (0, 0x36)
  | .vSra => (0, 0x37)
  | .vRol => (0, 0x38)
  | .vRor => (0, 0x39)
  | .vFsl => (0, 0x3A)
  | .vFsr => (0, 0x3B)
  | .vClz => (0, 0x40)
  | .vCtz => (0, 0x41)
  | .vFfs => (0, 0x42)
  | .vPop => (0, 0x43)
  | .vBrev => (0, 0x44)
  | .vCvt => (0, 0x50)
  | .vCvtef => (0, 0x51)
  | .vPbpack => (0, 0x52)
  | .vPbunpk => (0, 0x53)
  | .vRotr => (0, 0x60)
  | .vBcr => (0, 0x61)
  | .vSumr => (0, 0x62)
  | .vMaxr => (0, 0x63)
  | .vMinr => (0, 0x64)
  | .vAndr => (0, 0x65)
  | .vOrr => (0, 0x66)
  | .vScsumr => (0, 0x67)
  | .vScmaxr => (0, 0x68)
  | .vScminr => (0, 0x69)
  | .vRotc => (0, 0x70)
  | .vBcc => (0, 0x71)
  | .vSumc => (0, 0x72)
  | .vMaxc => (0, 0x73)
  | .vMinc => (0, 0x74)
  | .vAndc => (0, 0x75)
  | .vOrc => (0, 0x76)
  | .vScsumc => (0, 0x77)
  | .vScmaxc => (0, 0x78)
  | .vScminc => (0, 0x79)
  | .vPerm => (0, 0x80)
  | .vIota => (0, 0x81)
  | .vMovi => (0, 0x82)
  | .vMov => (0, 0x83)
  | .vLut8 => (0, 0x84)
  | .vLut16 => (0, 0x85)
  | .vZip => (0, 0x86)
  | .vUnzip => (0, 0x87)
  | .vLd => (0, 0x90)
  | .vSt => (0, 0x91)
  | .vStm => (0, 0x92)
  | .vGath => (0, 0x93)
  | .vScat => (0, 0x94)
  | .vPand => (0, 0xA0)
  | .vPor => (0, 0xA1)
  | .vPxor => (0, 0xA2)
  | .vPandn => (0, 0xA3)
  | .vPnot => (0, 0xA4)
  | .vPset => (0, 0xA5)
  | .vPmov => (0, 0xA6)
  | .vPcnt => (0, 0xA7)
  | .mxCfg => (1, 0x00)
  | .mxLdb => (1, 0x01)
  | .mxGo => (1, 0x02)
  | .mxDrain => (1, 0x03)
  | .mxZero => (1, 0x04)
  | .mxScale => (1, 0x05)
  | .mxRdst => (1, 0x06)
  | .soLd => (2, 0x00)
  | .soSort => (2, 0x01)
  | .soStep => (2, 0x02)
  | .soTopk => (2, 0x03)
  | .soMerge => (2, 0x04)
  | .soSt => (2, 0x05)
  | .soSave => (2, 0x06)
  | .soRest => (2, 0x07)
  | .soClr => (2, 0x08)
  | .cpLin => (3, 0x00)
  | .cp2d => (3, 0x01)
  | .cpList => (3, 0x02)
  | .cpXf => (3, 0x03)
  | .cpPeer => (3, 0x04)
  | .cpFill => (3, 0x05)
  | .sxSearch => (4, 0x00)
  | .sxScan => (4, 0x01)
  | .sxAppend => (4, 0x02)
  | .sxFetch => (4, 0x03)
  | .sxDel => (4, 0x04)
  | .sxStat => (4, 0x05)
  | .flNop => (5, 0x00)
  | .flAdd => (5, 0x01)
  | .flSet => (5, 0x02)
  | .flWait => (5, 0x03)

/-- The operation of an `ENG` and `OPC`; every other pair is unassigned (R85, R95, R96). -/
def copOf : Nat → Nat → Option COp
  | 0, 0x00 => some .vAdd
  | 0, 0x01 => some .vSub
  | 0, 0x02 => some .vMul
  | 0, 0x03 => some .vMulh
  | 0, 0x04 => some .vFma
  | 0, 0x05 => some .vFms
  | 0, 0x06 => some .vFnma
  | 0, 0x07 => some .vMin
  | 0, 0x08 => some .vMax
  | 0, 0x09 => some .vAbs
  | 0, 0x0A => some .vNeg
  | 0, 0x0B => some .vAdiff
  | 0, 0x0C => some .vClamp
  | 0, 0x0D => some .vSgnj
  | 0, 0x0E => some .vRint
  | 0, 0x10 => some .vRcp
  | 0, 0x11 => some .vRsqrt
  | 0, 0x12 => some .vExp2
  | 0, 0x13 => some .vLog2
  | 0, 0x20 => some .vCmpeq
  | 0, 0x21 => some .vCmpne
  | 0, 0x22 => some .vCmplt
  | 0, 0x23 => some .vCmple
  | 0, 0x24 => some .vCmpgt
  | 0, 0x25 => some .vCmpge
  | 0, 0x26 => some .vCmpun
  | 0, 0x27 => some .vSel
  | 0, 0x30 => some .vAnd
  | 0, 0x31 => some .vOr
  | 0, 0x32 => some .vXor
  | 0, 0x33 => some .vNot
  | 0, 0x34 => some .vAndn
  | 0, 0x35 => some .vSll
  | 0, 0x36 => some .vSrl
  | 0, 0x37 => some .vSra
  | 0, 0x38 => some .vRol
  | 0, 0x39 => some .vRor
  | 0, 0x3A => some .vFsl
  | 0, 0x3B => some .vFsr
  | 0, 0x40 => some .vClz
  | 0, 0x41 => some .vCtz
  | 0, 0x42 => some .vFfs
  | 0, 0x43 => some .vPop
  | 0, 0x44 => some .vBrev
  | 0, 0x50 => some .vCvt
  | 0, 0x51 => some .vCvtef
  | 0, 0x52 => some .vPbpack
  | 0, 0x53 => some .vPbunpk
  | 0, 0x60 => some .vRotr
  | 0, 0x61 => some .vBcr
  | 0, 0x62 => some .vSumr
  | 0, 0x63 => some .vMaxr
  | 0, 0x64 => some .vMinr
  | 0, 0x65 => some .vAndr
  | 0, 0x66 => some .vOrr
  | 0, 0x67 => some .vScsumr
  | 0, 0x68 => some .vScmaxr
  | 0, 0x69 => some .vScminr
  | 0, 0x70 => some .vRotc
  | 0, 0x71 => some .vBcc
  | 0, 0x72 => some .vSumc
  | 0, 0x73 => some .vMaxc
  | 0, 0x74 => some .vMinc
  | 0, 0x75 => some .vAndc
  | 0, 0x76 => some .vOrc
  | 0, 0x77 => some .vScsumc
  | 0, 0x78 => some .vScmaxc
  | 0, 0x79 => some .vScminc
  | 0, 0x80 => some .vPerm
  | 0, 0x81 => some .vIota
  | 0, 0x82 => some .vMovi
  | 0, 0x83 => some .vMov
  | 0, 0x84 => some .vLut8
  | 0, 0x85 => some .vLut16
  | 0, 0x86 => some .vZip
  | 0, 0x87 => some .vUnzip
  | 0, 0x90 => some .vLd
  | 0, 0x91 => some .vSt
  | 0, 0x92 => some .vStm
  | 0, 0x93 => some .vGath
  | 0, 0x94 => some .vScat
  | 0, 0xA0 => some .vPand
  | 0, 0xA1 => some .vPor
  | 0, 0xA2 => some .vPxor
  | 0, 0xA3 => some .vPandn
  | 0, 0xA4 => some .vPnot
  | 0, 0xA5 => some .vPset
  | 0, 0xA6 => some .vPmov
  | 0, 0xA7 => some .vPcnt
  | 1, 0x00 => some .mxCfg
  | 1, 0x01 => some .mxLdb
  | 1, 0x02 => some .mxGo
  | 1, 0x03 => some .mxDrain
  | 1, 0x04 => some .mxZero
  | 1, 0x05 => some .mxScale
  | 1, 0x06 => some .mxRdst
  | 2, 0x00 => some .soLd
  | 2, 0x01 => some .soSort
  | 2, 0x02 => some .soStep
  | 2, 0x03 => some .soTopk
  | 2, 0x04 => some .soMerge
  | 2, 0x05 => some .soSt
  | 2, 0x06 => some .soSave
  | 2, 0x07 => some .soRest
  | 2, 0x08 => some .soClr
  | 3, 0x00 => some .cpLin
  | 3, 0x01 => some .cp2d
  | 3, 0x02 => some .cpList
  | 3, 0x03 => some .cpXf
  | 3, 0x04 => some .cpPeer
  | 3, 0x05 => some .cpFill
  | 4, 0x00 => some .sxSearch
  | 4, 0x01 => some .sxScan
  | 4, 0x02 => some .sxAppend
  | 4, 0x03 => some .sxFetch
  | 4, 0x04 => some .sxDel
  | 4, 0x05 => some .sxStat
  | 5, 0x00 => some .flNop
  | 5, 0x01 => some .flAdd
  | 5, 0x02 => some .flSet
  | 5, 0x03 => some .flWait
  | _, _ => none

/-- The fields of a command word at the places of R85. -/
def CmdF.ofWord (w : CmdWord) : CmdF :=
  { imm := w.extractLsb' 224 32, sched := w.extractLsb' 212 12, hint := w.extractLsb' 206 6, sig := w.extractLsb' 174 32,
    wait := w.extractLsb' 142 32, opd4 := w.extractLsb' 120 22, opd3 := w.extractLsb' 98 22, opd2 := w.extractLsb' 76 22,
    opd1 := w.extractLsb' 54 22, opd0 := w.extractLsb' 32 22, gc := w.extractLsb' 30 2, gb := w.extractLsb' 25 5,
    ga := w.extractLsb' 20 5, mode := w.extractLsb' 16 4, ty := w.extractLsb' 12 4 }

/-- The command word of an `ENG`, an `OPC` and the fields (R85). -/
def CmdF.toWord (f : CmdF) (eng opc : Nat) : CmdWord :=
  f.imm ++ f.sched ++ f.hint ++ f.sig ++ f.wait ++ f.opd4 ++ f.opd3 ++ f.opd2 ++ f.opd1 ++ f.opd0 ++ f.gc ++ f.gb ++ f.ga
    ++ f.mode ++ f.ty ++ BitVec.ofNat 4 eng ++ BitVec.ofNat 8 opc

/-- The operation a command word names, if any. -/
def cmdOp (w : CmdWord) : Option COp := copOf (w.extractLsb' 8 4).toNat (w.extractLsb' 0 8).toNat

/-- The command row of a command word. -/
def decodeCmd (w : CmdWord) : Option Instr := (cmdOp w).map fun o => Instr.ofCmd o (CmdF.ofWord w)

/-! ## Bytes -/

/-- Why a list of bytes gives no instruction. -/
inductive DecodeError where
  /-- fewer than four bytes are left -/
  | truncated
  deriving DecidableEq, Repr

/-- The scalar instruction at the head of a list of bytes, little-endian, and the bytes after it (R75). -/
def decode : List Byte → Except DecodeError (Instr × List Byte)
  | b0 :: b1 :: b2 :: b3 :: rest => .ok (decodeScalar (b3 ++ b2 ++ b1 ++ b0), rest)
  | _ => .error .truncated

/-- The instruction of a word as the opcode table numbers its bits: 32-bit scalar words and 256-bit command words. -/
def decodeTableWord (nbits w : Nat) : Option Instr :=
  if nbits ≤ 32 then
    match decode (leBytes 4 w) with
    | .ok (i, _) => some i
    | .error _ => none
  else decodeCmd (BitVec.ofNat 256 w)

/-! ## The encoder -/

/-- A register-register word. -/
def rword (opc f7 f3 : Nat) (rd rs1 rs2 : XReg) : RW :=
  ⟨BitVec.ofNat 7 f7, xb rs2, xb rs1, BitVec.ofNat 3 f3, xb rd, BitVec.ofNat 7 opc⟩

/-- A word with a 12-bit immediate in [31:20]. -/
def iword (opc f3 : Nat) (rd rs1 : XReg) (imm : BitVec 12) : RW :=
  ⟨imm.extractLsb' 5 7, imm.extractLsb' 0 5, xb rs1, BitVec.ofNat 3 f3, xb rd, BitVec.ofNat 7 opc⟩

/-- A word with a 12-bit immediate in [31:25] and [11:7]. -/
def sword (opc f3 : Nat) (rs1 rs2 : XReg) (imm : BitVec 12) : RW :=
  ⟨imm.extractLsb' 5 7, xb rs2, xb rs1, BitVec.ofNat 3 f3, imm.extractLsb' 0 5, BitVec.ofNat 7 opc⟩

/-- A word with a 20-bit immediate in [31:12]. -/
def uword (opc : Nat) (rd : XReg) (imm : BitVec 20) : RW :=
  ⟨imm.extractLsb' 13 7, imm.extractLsb' 8 5, imm.extractLsb' 3 5, imm.extractLsb' 0 3, xb rd, BitVec.ofNat 7 opc⟩

def encodeInt : IntOp → RW
  | .rr op rd rs1 rs2 => rword (if op.code.1 then 0x3B else 0x33) op.code.2.1 op.code.2.2 rd rs1 rs2
  | .ri op rd rs1 imm => iword op.code.1 op.code.2 rd rs1 imm
  | .sh op rd rs1 amt =>
    ⟨BitVec.ofNat 7 op.code.2.1 ||| (0#6 ++ amt.extractLsb' 5 1), amt.extractLsb' 0 5, xb rs1, BitVec.ofNat 3 op.code.2.2,
      xb rd, BitVec.ofNat 7 op.code.1⟩
  | .un op rd rs1 => iword op.code.1 op.code.2.2 rd rs1 (BitVec.ofNat 12 op.code.2.1)
  | .lui rd imm => uword 0x37 rd imm
  | .auipc rd imm => uword 0x17 rd imm

def encodeBranch : Branch → RW
  | .br c rs1 rs2 off =>
    ⟨off.extractLsb' 12 1 ++ off.extractLsb' 5 6, xb rs2, xb rs1, BitVec.ofNat 3 c.code,
      off.extractLsb' 1 4 ++ off.extractLsb' 11 1, 0x63⟩
  | .jal rd off =>
    ⟨off.extractLsb' 20 1 ++ off.extractLsb' 5 6, off.extractLsb' 1 4 ++ off.extractLsb' 11 1, off.extractLsb' 15 5,
      off.extractLsb' 12 3, xb rd, 0x6F⟩
  | .jalr rd rs1 off => iword 0x67 0 rd rs1 off

/-- A flag form of custom-0: two form bits, 00, FLAG (R79). -/
def flword (form : BitVec 2) (fl : BitVec 8) (rs1 rd : BitVec 5) : RW :=
  ⟨form ++ 0#2 ++ fl.extractLsb' 5 3, fl.extractLsb' 0 5, rs1, 5, rd, 0x0B⟩

/-- A cluster-scope atomic (R83). -/
def amocword (fn : BitVec 5) (a : Amoc) : RW :=
  ⟨fn ++ 0#1 ++ BitVec.ofBool a.cluster, xb a.rs2, xb a.rs1, 1#2 ++ BitVec.ofBool a.dw, xb a.rd, 0x7B⟩

/-- The six fields of a scalar row's word; none for the rows that have no scalar encoding. -/
def encodeRW : Instr → Option RW
  | .kIssue idx => some ⟨idx.extractLsb' 6 7, idx.extractLsb' 1 5, idx.extractLsb' 0 1 ++ 0#4, 0, 0, 0x0B⟩
  | .kIssuex idx xa xb' =>
    some ⟨idx.extractLsb' 5 7, xb xb', xb xa, 1#2 ++ idx.extractLsb' 12 1, idx.extractLsb' 0 5, 0x0B⟩
  | .kTick rd => some ⟨0, 0, 0, 4, xb rd, 0x0B⟩
  | .kDrain => some ⟨1, 0, 0, 4, 0, 0x0B⟩
  | .kTrap code => some ⟨2, code.extractLsb' 5 5, code.extractLsb' 0 5, 4, 0, 0x0B⟩
  | .kFlset fl xs => some (flword 0 fl (xb xs) 0)
  | .kFladd fl xs => some (flword 1 fl (xb xs) 0)
  | .kFlrd rd fl => some (flword 2 fl 0 (xb rd))
  | .kWin wn xa xb' => some ⟨0, xb xb', xb xa, 6, xb wn, 0x0B⟩
  | .kWinrd rd wn hi => some ⟨1#1 ++ BitVec.ofBool hi ++ 0#5, 0, xb wn, 6, xb rd, 0x0B⟩
  | .kWait rd xt off n1 all =>
    some ⟨BitVec.ofBool all ++ n1 ++ off.extractLsb' 4 4, off.extractLsb' 0 4 ++ 0#1, xb xt, 7, xb rd, 0x0B⟩
  | .kDone => some ⟨0, 0, 0, 0, 0, 0x2B⟩
  | .kYield => some ⟨1, 0, 0, 0, 0, 0x2B⟩
  | .kSusp xs => some ⟨2, 0, xb xs, 0, 0, 0x2B⟩
  | .kSpawn xa xn => some ⟨3, xb xn, xb xa, 0, 0, 0x2B⟩
  | .kGrpMake xa xn => some ⟨8, xb xn, xb xa, 0, 0, 0x2B⟩
  | .kGrpJoin rd xa => some ⟨9, 0, xb xa, 0, xb rd, 0x2B⟩
  | .kGrpLeave xa => some ⟨10, 0, xb xa, 0, 0, 0x2B⟩
  | .kGrpBar xa => some ⟨11, 0, xb xa, 0, 0, 0x2B⟩
  | .kArm xs => some ⟨16, 0, xb xs, 0, 0, 0x2B⟩
  | .kRgnEnter id => some ⟨id.extractLsb' 9 7, id.extractLsb' 4 5, id.extractLsb' 0 4 ++ 0#1, 1, 0, 0x2B⟩
  | .kRgnLeave => some ⟨0, 0, 0, 2, 0, 0x2B⟩
  | .kSpl rd off => some (iword 0x5B 3 rd 0 off)
  | .kSps xs off => some (sword 0x5B 7 0 xs off)
  | .kAmocAdd a => some (amocword 0b00000 a)
  | .kAmocSwap a => some (amocword 0b00001 a)
  | .kAmocCas a => some (amocword 0b00101 a)
  | .kAmocOr a => some (amocword 0b01000 a)
  | .kAmocAnd a => some (amocword 0b01100 a)
  | .kAmocMin a => some (amocword 0b10000 a)
  | .kAmocMax a => some (amocword 0b10100 a)
  | .ecall => some (iword 0x73 0 0 0 0x000)
  | .ebreak => some (iword 0x73 0 0 0 0x001)
  | .mret => some (iword 0x73 0 0 0 0x302)
  | .wfi => some (iword 0x73 0 0 0 0x105)
  | .fence fm pred succ rs1 rd => some (iword 0x0F 0 rd rs1 (fm ++ pred ++ succ))
  | .fenceI imm rs1 rd => some (iword 0x0F 1 rd rs1 imm)
  | .csrAccess a => some (iword 0x73 (a.op.code + if a.imm then 4 else 0) a.rd a.rs1 a.csr)
  | .load wd rd rs1 imm => some (iword 0x03 wd.code rd rs1 imm)
  | .store wd rs2 rs1 imm => some (sword 0x23 wd.code rs1 rs2 imm)
  | .amo a =>
    some ⟨BitVec.ofNat 5 a.op.code ++ BitVec.ofBool a.aq ++ BitVec.ofBool a.rl, xb a.rs2, xb a.rs1,
      1#2 ++ BitVec.ofBool a.dw, xb a.rd, 0x2F⟩
  | .branchJump b => some (encodeBranch b)
  | .integerOp op => some (encodeInt op)
  | .illegalInstruction w => some (RW.ofWord w)
  | _ => none

/-- The bytes of a scalar word, the first at the lowest address. -/
def wordBytes (w : BitVec 32) : List Byte :=
  [w.extractLsb' 0 8, w.extractLsb' 8 8, w.extractLsb' 16 8, w.extractLsb' 24 8]

/-- The words of an instruction: the 4 bytes of a scalar row. Rows without a scalar encoding give none. -/
def encode (i : Instr) : Option (List Byte) := (encodeRW i).map fun r => wordBytes r.toWord

/-- The 256-bit word of a command row (R85). -/
def encodeCmd (i : Instr) : Option CmdWord := i.toCmd.map fun p => p.2.toWord p.1.code.1 p.1.code.2

end Sys2Proof
end

