-- ==== Sys2Proof/Machine/State.lean ====
section
/-! DEFINITION. The state of a 7640 package as plain data (R28 to R45 and the state rules of the other chapters), the
reasons a step can stop, and the state after reset. -/

namespace Sys2Proof.Machine

/-- A byte memory: a list of cells at strictly rising addresses, none holding 0, which is what an unlisted address
reads as. -/
abbrev Mem := List Host.Cell

/-! ## Reasons to stop -/

/-- Why the machine stops with a fault. -/
inductive Fault where
  /-- Raised by nothing: every fault of this machine is a trap or a held context, which is a next state (R325, R327).
  Safe. -/
  | none
  deriving DecidableEq, Repr

/-- Why a step has no meaning. -/
inductive Refusal where
  /-- The instruction has no meaning yet. Raised by an arm of `exec`. Safe: no behaviour is claimed. -/
  | notModelled (mnemonic : String)
  deriving DecidableEq, Repr

/-! ## Element types and small enumerations -/

/-- Element types (R11, R47, R48, R57). -/
inductive Ty where
  | uint8 | int8 | uint16 | int16 | uint32 | int32 | fp16 | bf16 | fp32 | e4m3 | e5m2 | pb3 | pb5 | pb8
  deriving DecidableEq, Repr

/-- The states of a context (R29). -/
inductive CtxSt where
  | free | armed | running | waiting | held
  deriving DecidableEq, Repr

/-- Privilege modes of the scalar core (R75). -/
inductive Mode where
  | user | machine
  deriving DecidableEq, Repr

/-- What a context does once its drain is over (R108, R112). -/
inductive AfterDrain where
  | go | done | susp (entry : BitVec 18) | yield
  /-- A `k.susp` or `k.yield` that has no record to suspend, or a `k.susp` to no entry, raises the illegal-instruction trap with
  its instruction word (R112). -/
  | illegal (word : Word)
  /-- A record whose trap in M mode was refused ends as faulted (R327). -/
  | fault
  /-- The drain with which the hearth runtime begins before it serves a `k.trap` (R119, R314). -/
  | runtime
  deriving DecidableEq, Repr

/-- A scratchpad window operand as captured at issue: A0 and the window's row length, pitch and count (R159, R167). -/
structure WinOp where
  a0 : Nat
  len : Nat
  pitch : Nat
  rows : Nat
  deriving DecidableEq, Repr

/-- The stall a waiting context is in (R30). -/
inductive Wait where
  | none
  /-- `k.wait` with its block, its destination and its deadline (R107). -/
  | kwait (rd : XReg) (off n : Nat) (all : Bool) (deadline : Nat)
  | drain (k : AfterDrain)
  /-- `k.issue` or `k.issuex` whose checks have passed: the word as substituted, its captured windows, and the cycle in
  which the checks passed (R102, R216). -/
  | issue (slot : Nat) (word : CmdWord) (wins : Vector (Option WinOp) 5) (rank : Nat)
  | spawn
  /-- `k.grp.bar`: the group word's address and the generation it recorded (R115). -/
  | bar (addr : Word) (gen : BitVec 16)
  /-- A scalar aperture access that the scoreboard holds, with its place in the sequence order and its granules (R224). -/
  | aperture (seq : Nat) (write : Bool) (lo hi : Nat)
  /-- A CSR instruction on the nest table (R121). -/
  | nestCsr
  /-- `ECALL` from M mode (R370). -/
  | svc
  /-- `k.amoc`, for the ownership of its line (R30, R233). -/
  | owner
  /-- A `k.issue` or `k.issuex` whose check loop a pre-emption interrupted: it restarts (R102, R328). -/
  | reissue
  /-- `WFI` in M mode, until this tick (R76). It is none of the stalls of R30: the context stays running, and executes nothing
  before the wait ends. -/
  | wfi (deadline : Nat)
  deriving DecidableEq, Repr

/-- What a context runs: nothing, a continuation record, or an arrival's handler (R28, R112). -/
inductive RunRec where
  | none
  | task (addr : Word) (wq : Fin 2048)
  | ember
  deriving DecidableEq, Repr

/-- A pending asynchronous trap: its cause, its async word (R327) and the faulting address for `htaddr`. -/
structure Async where
  cause : Nat
  tval : Word
  htaddr : Word
  deriving DecidableEq, Repr

/-- A fault that holds a context until the service OS acts (R325): the trap it becomes if refused. `trap` marks a trap taken
in M mode, which goes to the service OS (R327). -/
structure HeldFault where
  cause : Nat
  addr : Word
  trap : Bool
  deriving DecidableEq, Repr

/-- Who makes an access (R317, R319, R380): its address space, whether it counts as a U-mode access, and its world. -/
structure Agent where
  asid : Option Nat
  user : Bool
  sec : Bool
  deriving DecidableEq, Repr

/-- Machine-mode CSRs (R76, R327): those RISC-V gives M mode, and `htaddr`. -/
structure MCsr where
  mstatus : Word
  mie : Word
  mip : Word
  mtvec : Word
  mcounteren : Word
  menvcfg : Word
  mscratch : Word
  mepc : Word
  mcause : Word
  mtval : Word
  htaddr : Word
  /-- What a write of `mcycle` added to the count of cycles. -/
  cycleOff : Word
  deriving DecidableEq, Repr

/-- One level of the matrix nest (R97). -/
structure NestLevel where
  cnt : BitVec 16
  sa : BitVec 22
  sb : BitVec 22
  sc : BitVec 22
  deriving DecidableEq, Repr

/-- A context of a hearth (R28, R29). -/
structure Ctx where
  st : CtxSt
  wait : Wait
  mode : Mode
  xs : Vector Word 32
  pc : Word
  vs : Vector VReg 16
  ps : Vector PReg 8
  ws : Vector (BitVec 128) 32
  /-- The region stack, its top first; its length is the depth (R34). -/
  rgn : List (BitVec 16)
  spill : Mem
  fpstat : Word
  cpstat : Word
  nest : Vector NestLevel 6
  run : RunRec
  /-- The image and ASID of the context's last record, which decide whether spill memory survives (R35). -/
  lastRun : Option (Nat × Nat)
  /-- The reservation of an LR: whether it lies on the aperture, and its 128-byte line (R76, R234). -/
  resv : Option (Bool × Nat)
  pend : List Async
  fault : Option HeldFault
  csr : MCsr
  /-- Instructions retired, for `instret` (R76). -/
  instret : Nat
  deriving DecidableEq, Repr

/-! ## Engines -/

/-- A scoreboard entry (R218): kind, granules, and the chunks whose done bit is set. -/
structure SbEntry where
  write : Bool
  lo : Nat
  hi : Nat
  done : List Nat
  deriving DecidableEq, Repr

inductive Queue where
  | vector | matrix | sort | copy
  deriving DecidableEq, Repr

/-- Where an accepted command stands (R168, R215). -/
inductive Stage where
  | queued | window | started
  deriving DecidableEq, Repr

/-- What a search command read at its launch (R340): the root generation, the log position, and the index's event count. -/
structure Launch where
  gen : Nat
  logpos : Nat
  at_ : Nat
  deriving DecidableEq, Repr

/-- The transform core of a copy engine while it has a `cp.xf` (R77, R270, R271): its pc, its 32 x registers and its 32 vector
registers of 512 bits; the CSRs of the V extension, `vl`, `vtype`, `vstart`, `vxrm` and `vxsat`; and the input ring and output
staging as one memory of 64 KiB. `busy` says that a coded chunk is under way, `chunk` how many chunks the data pass has handed
over. The last two fields are the model's own: the number and the counter of the core's free values. -/
structure XCore where
  pc : Word
  xs : Vector Word 32
  vs : Vector (BitVec 512) 32
  vl : Nat
  vtype : Word
  vstart : Nat
  vxrm : BitVec 2
  vxsat : Bool
  buf : Mem
  busy : Bool
  chunk : Nat
  seed : Nat
  uses : Nat
  deriving DecidableEq, Repr

/-- A command from acceptance to completion: it stands in its queue, in the matrix window or in its engine, and holds its
scoreboard entries (R39, R40, R92, R215). -/
structure Cmd where
  seq : Nat
  ctx : Fin 4
  slot : Nat
  word : CmdWord
  q : Queue
  stage : Stage
  wins : Vector (Option WinOp) 5
  /-- `LMTRAP` at issue (R204). -/
  lmtrap : Bool
  /-- Issued in M mode (R317). -/
  priv : Bool
  run : RunRec
  entries : List SbEntry
  /-- The active nest table of an `mx.go`, copied at acceptance (R175). -/
  nest : Vector NestLevel 6
  /-- The next unit of the command: row, chunk or phase (R176, R185, R205). -/
  pos : Nat
  performed : Bool
  /-- Status bits gathered for `fpstat` (R42, R125). -/
  status : BitVec 4
  /-- Bytes written, for a `SIG` in mode 10 (R213). -/
  bytes : Nat
  /-- The descriptor or parameter block, and the list entries, as read at start (R200, R202, R210). -/
  desc : Option (BitVec 512)
  list : List (BitVec 256)
  /-- Of a command that reads a list: the package's memory as it stood when the command started, until the list has been read
  (R202). -/
  began : Option Mem
  /-- Of a data copy, or of the entry at which a list copy stands: the pieces that have not moved, by byte position and length
  (R240, R242). -/
  left : List (Nat × Nat)
  /-- What a search command read at its launch, for each index that existed then. -/
  launch : List (Nat × Launch)
  /-- Distinct flash pages re-queued for read retry (R346). -/
  retried : List Nat
  /-- A memory read that faults at this address holds the copy engine (R205), and the cause of its trap if it is refused
  (R326). -/
  hold : Option Word
  holdCause : Nat
  /-- A write that must be logged has found the side log full: the copy engine is held while it is (R205). -/
  logWait : Bool
  /-- The command has failed (R199, R326): its `SIG` is never applied. -/
  failed : Bool
  /-- A refusal has ended the command: it counts for nothing any more but the writes that it has logged on other pages (R326). -/
  ended : Bool
  /-- The receiver has acknowledged a `cp.peer` (R208), or a cirrus engine has accepted a fetch (R343). -/
  acked : Bool
  /-- A `cp.xf` decoded another length than it declared (R204). -/
  lenmis : Bool
  /-- Scratchpad granules as the command has read them: their numbers and their bytes (R225). Of a vector store: the granules that
  it has written. Of a `cp.xf`: the
  payload bytes of its scouted chunks that have come, by stream offset (R275). Of an `sx.fetch`: the bytes that have been read
  and not yet written, by scratchpad address. -/
  latch : List (Nat × List Byte)
  /-- Bytes to write, at scratchpad or memory addresses, in granules that a later unit of the command completes (R197, R225). -/
  late : List (Nat × Byte)
  /-- The scratchpad byte runs that a fetch has written (R213). -/
  wrote : List (Nat × Nat)
  /-- Bytes the chunks of a `cp.xf` emitted and that are not yet written (R277), or that a `cp.peer` or a fetch has read and not
  yet used; the transform core, which keeps its registers from chunk to chunk (R271); and of the stream: its next byte, the bytes
  emitted so far, and whether it ended. -/
  emitted : List Byte
  core : XCore
  xoff : Nat
  xd : Nat
  xend : Bool
  deriving DecidableEq, Repr

/-- A write of the copy engine to memory that waits for its page (R205). `add` is the type and mode of a store-add; `ag` is
the agent of its command, and `cause` the trap of the fault that it met (R326). -/
structure SideEntry where
  seq : Nat
  addr : Word
  /-- The bytes from `addr` on; none where the write leaves a byte out. -/
  data : List (Option Byte)
  add : Option (BitVec 4 × BitVec 4)
  ag : Agent
  cause : Nat
  deriving DecidableEq, Repr

/-- A weight bank (R36, R173): 128 rows of raw row bytes, its format latch and its issue latch. -/
structure Bank where
  rows : Vector (BitVec 2048) 128
  latch : Option Ty
  issue : Option Ty
  deriving DecidableEq, Repr

/-- An accumulator: 128 × 128 FP32 values and a softmax pair (m, l) for each row (R36). -/
structure Acc where
  vals : Vector W32 16384
  smax : Vector (W32 × W32) 128
  deriving DecidableEq, Repr

structure SCell where
  key : W32
  pay : W32
  deriving DecidableEq, Repr

inductive SMode where
  | idle | sort | topk
  deriving DecidableEq, Repr

/-- The sort array (R37). -/
structure SortArr where
  cells : Vector SCell 16384
  phase : Nat
  smode : SMode
  tkcount : Nat
  tkk : Nat
  tkn : Nat
  deriving DecidableEq, Repr

/-- A transform routine loaded in a copy engine (R272). -/
structure Routine where
  num : Nat
  entry : Nat
  cpc : Nat
  code : List Byte
  deriving DecidableEq, Repr

/-! ## Images -/

/-- A substitution descriptor (R100, R103). -/
structure Desc where
  slot : Nat
  pl0 : Nat
  pl1 : Nat
  deriving DecidableEq, Repr

/-- A grant entry (R15, R100). -/
structure Grant where
  chip : Option Nat
  hearth : Option Nat
  handler : Option Nat
  at_ : Nat
  len : Nat
  deriving DecidableEq, Repr

/-- An image as registered (R100, R371). -/
structure Image where
  id : Nat
  wq : Fin 2048
  sec : Bool
  lmtrap : Bool
  trapOff : Option Nat
  code : List Byte
  cmds : List CmdWord
  descs : List Desc
  grants : List Grant
  data : List (Nat × List Byte)
  deriving DecidableEq, Repr

/-! ## Arrivals, Hob and the trace -/

/-- A handler-carrying arrival whose flag has been applied: what its descriptor holds (R236). -/
structure Arrival where
  tick : Nat
  lenb : Nat
  roff : Nat
  hoff : Nat
  flagen : Bool
  rflag : Fin 256
  shearth : Nat
  schip : Nat
  deriving DecidableEq, Repr

inductive Brk where
  | pc (off : Nat) (c : Option (Fin 4))
  | rgn (id : BitVec 16) (e : Edge)
  deriving DecidableEq, Repr

/-- Who is told of an overflow of a flag (R38): the context of a command, or the service OS. -/
inductive FlagSrc where
  | cmd (c : Fin 4) (seq slot : Nat) (run : RunRec)
  | peer (a : Arrival)
  | qm
  deriving DecidableEq, Repr

/-- A flag update that a stopped hearth holds (R282), or a handler start held with its flag. An addition may carry the
completion trace record that is written when it applies (R285). -/
inductive Held where
  | add (src : FlagSrc) (fl : Fin 256) (v : Nat) (trace : Option (BitVec 512))
  | set (fl : Fin 256) (v : W32)
  | handler (a : Arrival)
  deriving DecidableEq, Repr

structure Hob where
  /-- The session that holds the hearth (R280). -/
  sess : Option Nat
  stopped : Bool
  brks : List Brk
  held : List Held
  /-- Contexts that resumed from a breakpoint, which does not hit again before its instruction executes. -/
  passed : List (Fin 4)
  /-- The context that runs one instruction of a `step`, after which the hearth stops again (R283). -/
  step : Option (Fin 4)
  deriving DecidableEq, Repr

/-- The trace ring of a hearth (R284). -/
structure TraceRing where
  on : Bool
  addr : Word
  bytes : Nat
  pos : Nat
  dropped : Nat
  deriving DecidableEq, Repr

/-! ## A hearth -/

/-- A peer transfer of which some granules have been written, and the granules still to come (R225). -/
structure Incoming where
  x : Xfer
  left : List Nat
  deriving DecidableEq, Repr

structure Hearth where
  ctxs : Vector Ctx 4
  flags : Vector W32 256
  scratch : Mem
  imem : Mem
  banks : Vector Bank 8
  accs : Vector Acc 8
  sa : SortArr
  nextSeq : Nat
  cmds : List Cmd
  /-- The command in the hand of the engine that performs it: an engine step takes it from `cmds` and puts it back. -/
  hand : Cmd
  /-- Units the engine may perform in this step, and which piece of a data copy each of them takes (R240, R242). -/
  quota : Nat
  picks : List Nat
  sideLog : List SideEntry
  img : Option Image
  asid : Option Nat
  sec : Bool
  arrQ : List Arrival
  /-- Transfers that wait at the link port (R235, R331). -/
  port : List Xfer
  /-- Admitted transfers that have not arrived whole (R225). -/
  arriving : List Incoming
  routines : List Routine
  hob : Hob
  trace : TraceRing
  /-- Halted and saved by pre-emption (R328). -/
  halted : Bool
  /-- A pre-emption stops the hearth: no word is accepted and no context goes on, while the engines come to their stops (R328). -/
  halting : Bool
  /-- The hearth stops for the teardown of a work queue, and goes on behind it (R373). -/
  purge : Option (Fin 2048)
  /-- The number of the state that the hearth runs, among the saved ones. The model's own field. -/
  epoch : Nat
  /-- The key of the first byte of the save area, of a hearth that is being pre-empted or of a saved state (R329). -/
  area : Nat
  deriving DecidableEq, Repr

/-! ## Queue manager, cirrus engines, service OS -/

/-- A record the queue manager knows, with the fields that only it writes and that it reads nowhere else (R301). -/
structure RecRef where
  addr : Word
  wq : Fin 2048
  graph : Nat
  qst : BitVec 3
  chfail : Bool
  rtick : Nat
  /-- The latest tick at which the record is known to have become ready or to have matched a hearth (R309). -/
  seen : Nat
  /-- The record has ended as faulted, and enters state 6 once its children have completed (R303, R305, log entry 56). -/
  failing : Bool
  /-- The record has been reported to the service OS, which cold-starts its image (R309). -/
  reported : Bool
  /-- The record as it last stood when its placement was looked at (R309). -/
  last : BitVec 512
  deriving DecidableEq, Repr

/-- A node of a live graph (R308): its template, predecessors, the record made for it, and its final state. -/
structure Node where
  tmpl : BitVec 512
  preds : List Nat
  recAt : Option Word
  fin : Option (BitVec 3)
  /-- The cycle in which it ended. -/
  finAt : Nat
  deriving DecidableEq, Repr

structure Graph where
  id : Nat
  wq : Fin 2048
  seq : Word
  caddr : Nat
  nodes : List Node
  deriving DecidableEq, Repr

/-- A work queue (R349 to R351, R373). -/
structure WorkQueue where
  live : Bool
  torn : Bool
  asid : Nat
  ring : Nat
  n : Nat
  vec : Nat
  sec : Bool
  /-- The rank of the service pair that interprets its graphs (R308). -/
  pair : Nat
  head : Nat
  dbell : Nat
  ignored : Nat
  noCompletion : Nat
  deriving DecidableEq, Repr

structure Qm where
  recs : List RecRef
  /-- Updates of flags of stopped hearths that their held lists have no room for: hearth, flag and value (R282, R305). -/
  flagLate : List (Fin 640 × Fin 256 × Nat)
  graphs : List Graph
  ageLimit : Nat
  nextGraph : Nat
  deriving DecidableEq, Repr

/-- Element types and metrics of an index (R335). -/
inductive IdxTy where
  | int8 | e4m3 | bf16
  deriving DecidableEq, Repr

inductive Metric where
  | l2 | ip | hamming
  deriving DecidableEq, Repr

/-- An appended vector (R338, R339), with the flash page that holds it in the log: `delAt` is the index's event count at its
deletion. -/
structure IdxEntry where
  pos : Nat
  id : Nat
  vec : List Byte
  delAt : Option Nat
  page : Nat
  deriving DecidableEq, Repr

/-- A node of a root's graph: the entry's position, the flash page that holds the node, and its neighbours' positions (R336,
R342). -/
structure IdxNode where
  pos : Nat
  page : Nat
  nbrs : List Nat
  deriving DecidableEq, Repr

structure IdxRoot where
  gen : Nat
  mpos : Nat
  entry : Option Nat
  nodes : List IdxNode
  deriving DecidableEq, Repr

structure Index where
  wq : Fin 2048
  sec : Bool
  dim : Nat
  ety : IdxTy
  metric : Metric
  degree : Nat
  logcap : Nat
  mthresh : Nat
  logpos : Nat
  /-- Log positions below this are reclaimed (R342). -/
  logbase : Nat
  entries : List IdxEntry
  /-- Roots that are kept, the newest first. -/
  roots : List IdxRoot
  /-- Events placed in the index's total order (R338). -/
  events : Nat
  /-- The log position and event count at which a running merge started. -/
  merge : Option (Nat × Nat)
  deriving DecidableEq, Repr

/-- The part of a fetch entry of a record that lies in one flash page, and where its bytes go (R344, R345). -/
structure FetchPart where
  src : Nat
  len : Nat
  dst : Word
  deriving DecidableEq, Repr

/-- A search or fetch record that a cirrus engine serves (R344), with what it read at its launch and the pages re-queued for
it. -/
structure Task where
  eng : Fin 8
  addr : Word
  wq : Fin 2048
  launch : List (Nat × Launch)
  retried : List Nat
  /-- Of a fetch whose list has been read: the parts still to read, the bytes read and still to write, and the `STATUS` it has come
  to. -/
  parts : Option (List FetchPart)
  held : List (Word × List Byte)
  /-- Bytes of granules that a later part completes, at their addresses (R240). -/
  late : List (Nat × Byte)
  status : Nat
  deriving DecidableEq, Repr

/-- A flash range allocated to a work queue (R334, R343). -/
structure FlashRange where
  wq : Fin 2048
  base : Nat
  len : Nat
  sec : Bool
  deriving DecidableEq, Repr

structure Cirrus where
  flash : Mem
  ranges : List FlashRange
  /-- Pages that the firmware reserves for the logs of indexes: the index, the first page, and how many (R334). The pages of nodes
  stand in the roots. -/
  reserved : List (Nat × Nat × Nat)
  /-- Pages that cannot be read (R347, R376). -/
  lost : List Nat
  /-- Retries that a page read under way has had, by its reader and its page (R346). -/
  tries : List (Reader × Nat × Nat)
  indexes : Vector (Option Index) 64
  tasks : List Task
  /-- Re-queues of page reads, by flash channel 8·stack + channel (R287, R346). -/
  retries : Vector Nat 64
  /-- Bytes that fetches have read over each flash channel (R287). -/
  moved : Vector Nat 64
  deriving DecidableEq, Repr

/-- What the service OS is told. -/
inductive Report where
  | flagOverflow (h : Fin 640) (fl : Fin 256) (a : Option Arrival)
  | joinUnderflow (addr : Word)
  | malformed (addr : Word)
  | placement (addr : Word)
  | runtimeCode (addr : Word) (code : Nat)
  | arrivalDiscarded (h : Fin 640) (a : Arrival)
  | lateTrap (run : RunRec) (a : Async)
  | heldFault (l : Loc) (f : HeldFault)
  | copyFault (h : Fin 640) (page : Nat)
  | imageRefused (h : Fin 640) (status : Nat)
  | uncorrectable (page : Nat)
  | requeue (addr : Word) (code : Nat)
  | mergeNotPublished (i : Fin 64)
  | divergence
  deriving DecidableEq, Repr

/-- A call record (R368). -/
structure CallRec where
  caller : Nat
  seq : Word
  callno : Nat
  committed : Bool
  status : Nat
  tick : Nat
  result : BitVec 256
  args : Vector Word 6
  /-- The service OS's choices, which it makes again where it performs the call again (R366). -/
  choice : List Nat
  deriving DecidableEq, Repr

/-- A root table (R320, R323): its owner, its ASID, or none for the privileged half, and where it lies. -/
structure Root where
  owner : Fin 5
  asid : Option Nat
  paddr : Nat
  deriving DecidableEq, Repr

/-- A page pinned to a hearth or to a cluster slice (R232): the address space and the address whose leaf pins it, the key of its
first byte, its bytes, its home code and its holder. A pin of a save area has no leaf (R329). -/
structure Pin where
  leaf : Option (Nat × Word)
  key : Nat
  bytes : Nat
  home : Nat
  holder : Nat
  deriving DecidableEq, Repr

/-- What may happen next. The agenda lists the next turns in order: it is the model's own field, the order that the spec
leaves to the hardware, the host and the service OS. -/
inductive Turn where
  /-- A context executes its next instruction. -/
  | run (l : Loc)
  /-- The hearth runtime of a context serves the trap it holds (R119, R314, R327). -/
  | runtime (l : Loc)
  /-- The engine performs up to `quota` units of a started command. -/
  | engine (h : Fin 640) (seq quota : Nat) (picks : List Nat)
  /-- A started command reads, or a vector store writes, a scratchpad granule ahead of its other ones (R225, R240). -/
  | look (h : Fin 640) (seq gran : Nat)
  /-- A row of the opcode table happens, at a focus. -/
  | event (l : Loc) (i : Instr)
  /-- The service OS performs the call that an M-mode context waits for (R370). -/
  | svc (l : Loc) (choice : List Nat)
  /-- The service OS performs the host call that the mailbox holds (R370). -/
  | mailbox (choice : List Nat)
  /-- What takes place on a hearth in one cycle, in the sequence of R38. -/
  | cycle (h : Fin 640) (p : CyclePlan)
  /-- A cirrus engine goes on with a fetch record (R345). -/
  | task (wq : Fin 2048) (addr : Word)
  /-- The two cores of a service pair execute one instruction (R78, R364). -/
  | pair (r : Fin 5)
  /-- A cirrus engine goes on with a search command of a saved hearth (R331): the `n`-th saved state of the hearth. -/
  | saved (h : Fin 640) (n seq : Nat)
  /-- A source of interrupts of a hearth's context withdraws one (R75, R76). -/
  | withdraw (l : Loc) (n : Nat)
  /-- A record is dispatched to a context, or to a cirrus engine, in the order that a replay forces (R288). -/
  | dispatch (l : Loc) (wq : Fin 2048) (addr : Word)
  | take (e : Fin 8) (wq : Fin 2048) (addr : Word)
  /-- A service pair makes a service write under the generation that it holds (R366). -/
  | stale (r : Fin 5)
  /-- The service OS begins a cold start of a hearth, which then has no image (R354). -/
  | coldBegin (h : Fin 640)
  /-- Time passes. -/
  | pass (cycles : Nat)
  deriving DecidableEq, Repr

/-- A page that is being migrated (R253): the call that migrates it, the key of its first byte, its bytes, its address space, and its
first address. -/
structure Move where
  caller : Nat
  seq : Word
  key : Nat
  bytes : Nat
  asid : Nat
  va : Word
  deriving DecidableEq, Repr

/-! ## Service cores (R78) -/

/-- Privilege modes of a service core. -/
inductive CoreMode where
  | user | supervisor | machine
  deriving DecidableEq, Repr

/-- The control registers of a service core, by their RISC-V names; `cycleOff` is what a write of `mcycle` added (R78). -/
structure CoreCsr where
  mstatus : Word
  medeleg : Word
  mideleg : Word
  mie : Word
  mip : Word
  mtvec : Word
  mcounteren : Word
  menvcfg : Word
  mscratch : Word
  mepc : Word
  mcause : Word
  mtval : Word
  stvec : Word
  scounteren : Word
  senvcfg : Word
  sscratch : Word
  sepc : Word
  scause : Word
  stval : Word
  cycleOff : Word
  deriving DecidableEq, Repr

/-- An RV64GC service core (R78): `fcsr` holds frm above fflags, `resv` the 128-byte line of an LR. -/
structure SCore where
  pc : Word
  xs : Vector Word 32
  fs : Vector Word 32
  fcsr : BitVec 8
  mode : CoreMode
  csr : CoreCsr
  instret : Nat
  resv : Option Nat
  deriving DecidableEq, Repr

/-- A host call that the mailbox holds (R370): the address of its block, the request as `CALLGO` found it, and the choices that go
with it. -/
structure Mail where
  addr : Nat
  req : BitVec 512
  choice : List Nat
  deriving DecidableEq, Repr

/-- A record mode log (R288): its bytes, which are free, and what they stand for: the turns, the completion records, the results of
the instructions that depend on time, and host memory as it stood when recording began. -/
structure RecLog where
  bytes : List Byte
  turns : List Turn
  recorded : List (BitVec 512)
  results : List (Loc × Word)
  hostImage : Mem
  deriving DecidableEq, Repr

structure Service where
  /-- The leadership word (R365). -/
  gen : W32
  leader : Nat
  beat : Word
  /-- The generation that the queue manager and the call-record table accept (R366). -/
  qmGen : W32
  /-- The generation that each pair holds (R366). -/
  gens : Vector W32 5
  /-- Pairs that have started, and pairs that have stopped (R364, R382). -/
  started : BitVec 5
  stopped : BitVec 5
  calls : List CallRec
  images : List Image
  callAddr : Word
  /-- The host call that is in progress (R370). -/
  mail : Option Mail
  busy : Bool
  done : Bool
  bootStage : BitVec 4
  recovery : Bool
  hobFw : Bool
  /-- The transform routine keys of the image that boot verified (R272, R382). -/
  routineKeys : List Byte
  reports : List Report
  /-- The pages that are being migrated (R253). -/
  moving : List Move
  /-- A record mode log (R288): whether recording is on, where, and how many bytes it may take. -/
  recording : Bool
  recAddr : Word
  recBytes : Nat
  /-- Of the log: the completion records written, the results of the instructions that depend on time, and host memory as it
  stood when recording began. The inputs and orders are `State.turns`. -/
  recorded : List (BitVec 512)
  results : List (Loc × Word)
  hostImage : Mem
  /-- The logs that have been written (R288). -/
  logs : List RecLog
  /-- What a running replay still expects and forces: completion records, turns and results (R288). -/
  replay : Option (List (BitVec 512))
  script : List Turn
  forcedResults : List (Loc × Word)
  nextSess : Nat
  deriving DecidableEq, Repr

/-! ## Links, power, chimney stream -/

structure Port where
  up : Bool
  failed : Bool
  deriving DecidableEq, Repr

structure Links where
  pcieGen : Nat
  pcieWidth : Nat
  cxlUp : Bool
  cxlGen : Nat
  cxlWidth : Nat
  ports : Vector Port 8
  chip : Nat
  /-- The routes that the service OS has set: a chip, and the port through which transfers to it leave (R353, R355). -/
  routes : List (Nat × Fin 8)
  /-- Transfers between other chips that have passed, each with the port through which it left (R353). -/
  forwarded : List (Fin 8 × Xfer)
  /-- Bytes that transfers have carried over each port (R287). -/
  carried : Vector Nat 8
  /-- Transfers on their way to a receiver. -/
  wire : List Xfer
  /-- MSI-X vectors sent, the latest first (R256, R352, R370). -/
  msix : List Nat
  /-- Bytes the coherence agent answered to host loads and snoops, the latest first (R239, R332). -/
  answered : List (Nat × List Byte)
  /-- Host accesses refused with the access fault (R380). -/
  hostFaults : Nat
  deriving DecidableEq, Repr

/-- Power (R377, R378): the requested budget, the thermal limit, the budget in force and what set it, the grant of each die,
how each die agent divides its grant among its hearths and its flash stacks, and the tick of the latest grant period. -/
structure Power where
  request : Nat
  thermal : Option Nat
  inforce : Nat
  src : Nat
  grants : List Nat
  shares : List (List Nat)
  last : Nat
  deriving DecidableEq, Repr

structure Chimney where
  k : Nat
  addr : Word
  bytes : Nat
  pos : Nat
  dropped : Nat
  /-- The tick after that of the latest latch, 0 before the first. -/
  last : Nat
  deriving DecidableEq, Repr

/-- What Hob prints (R280). -/
inductive HobOut where
  | brks (b : List Brk)
  | regs (pc : Word) (xs : Vector Word 32)
  | vreg (v : VReg)
  | preg (p : PReg)
  | wreg (w : BitVec 128)
  | flags (f : Vector W32 256)
  | sb (e : List (Nat × SbEntry × BitVec 32))
  | queues (q : List (Queue × Nat))
  | held (h : List Held)
  | acc (v : Vector W32 16384)
  | smax (v : Vector (W32 × W32) 128)
  | sa (phase tkcount tkk tkn : Nat) (m : SMode) (cells : Vector SCell 16384)
  | nest (shadow : Vector NestLevel 6) (active : Option (Vector NestLevel 6))
  /-- The stored word with its placeholders, and the substituted word, in the verbose notation (R27, R103). -/
  | word (stored : String) (issued : Option String)
  /-- A scalar instruction in its base form, at an offset of the code (R27). -/
  | instr (off : Word) (text : String)
  /-- An entry of a KV-cache table by its layout (R262). -/
  | kv (token0 ntok fmt where_ sum loc : Nat)
  | mem (bytes : List (Option Byte))
  | refused
  deriving DecidableEq, Repr

/-! ## The machine -/

/-- The package. -/
structure State where
  /-- Hearth cycles since package reset (R5). -/
  cycle : Nat
  foc : Loc
  /-- A turn that comes before all others. The model's own field: it is how one instruction is placed to run next. -/
  forced : Option Turn
  agenda : List Turn
  /-- The turns taken while recording: every input, order and choice that a replay forces (R288). -/
  turns : List Turn
  hearths : Vector Hearth 640
  /-- Saved hearths (R329). -/
  saved : List (Fin 640 × Hearth)
  /-- Physical memory, by space × 2^48 + physical address: spaces 0 to 4 are the owners' memories, 5 the host's, 6 the
  pool's, 7 + c peer chip c's (R322). -/
  mem : Mem
  roots : List Root
  pins : List Pin
  /-- Lines that a first-level cache owns: the key of the line, and the hearth (R233). -/
  owned : List (Nat × Fin 640)
  /-- Security regions, 64 for each die (R379). -/
  regions : Vector (Vector (BitVec 128) 64) 5
  queues : Vector WorkQueue 2048
  qm : Qm
  cirrus : Cirrus
  svc : Service
  /-- The two cores of each service pair (R78, R364). -/
  cores : Vector (Vector SCore 2) 5
  links : Links
  power : Power
  chim : Chimney
  hobOut : List HobOut
  /-- The model's own counter of free values. -/
  free : Nat
  deriving DecidableEq, Repr

/-! ## Reset -/

def MCsr.reset : MCsr :=
  { mstatus := 0, mie := 0, mip := 0, mtvec := 0, mcounteren := 0, menvcfg := 0, mscratch := 0,
    mepc := 0, mcause := 0, mtval := 0, htaddr := 0, cycleOff := 0 }

def NestLevel.reset : NestLevel := { cnt := 0, sa := 0, sb := 0, sc := 0 }

/-- A context at cold start (R28). -/
def Ctx.reset : Ctx :=
  { st := .free, wait := .none, mode := .machine, xs := Vector.replicate 32 0, pc := 0, vs := Vector.replicate 16 0,
    ps := Vector.replicate 8 0, ws := Vector.replicate 32 0, rgn := [], spill := [], fpstat := 0, cpstat := 0,
    nest := Vector.replicate 6 NestLevel.reset, run := .none, lastRun := none, resv := none, pend := [], fault := none,
    csr := MCsr.reset, instret := 0 }

def Bank.reset : Bank := { rows := Vector.replicate 128 0, latch := none, issue := none }

/-- Accumulators at cold start: values 0, pairs (−∞, +0) (R28). -/
def Acc.reset : Acc :=
  { vals := Vector.replicate 16384 0, smax := Vector.replicate 128 (0xFF800000#32, 0#32) }

/-- The sort array at cold start (R37). -/
def SortArr.reset : SortArr :=
  { cells := Vector.replicate 16384 ⟨0, 0⟩, phase := 0, smode := .idle, tkcount := 0, tkk := 0, tkn := 0 }

/-- The transform core at the start of a `cp.xf` (R271). `vtype` holds `vill` and the other vector CSRs 0, as the V extension
recommends for reset; the buffers read as 0. PRESUMED and DESIGN CHOICE, log entry 15. -/
def XCore.reset : XCore :=
  { pc := 0, xs := Vector.replicate 32 0, vs := Vector.replicate 32 0, vl := 0, vtype := 0x8000000000000000#64, vstart := 0,
    vxrm := 0, vxsat := false, buf := [], busy := false, chunk := 0, seed := 0, uses := 0 }

/-- No command: what the hand holds between engine steps. -/
def Cmd.empty : Cmd :=
  { seq := 0, ctx := 0, slot := 0, word := 0, q := .vector, stage := .queued, wins := Vector.replicate 5 none,
    lmtrap := false, priv := false, run := .none, entries := [], nest := Vector.replicate 6 NestLevel.reset, pos := 0,
    performed := false, status := 0, bytes := 0, desc := none, list := [], began := none, left := [], launch := [], retried := [], hold := none, holdCause := 0, latch := [], late := [], wrote := [],
    logWait := false, failed := false, ended := false, acked := false, lenmis := false, emitted := [], core := XCore.reset, xoff := 0, xd := 0, xend := false }

def Hob.reset : Hob := { sess := none, stopped := false, brks := [], held := [], passed := [], step := none }

def TraceRing.reset : TraceRing := { on := false, addr := 0, bytes := 0, pos := 0, dropped := 0 }

/-- A hearth after a hearth reset (R28). -/
def Hearth.reset : Hearth :=
  { ctxs := Vector.replicate 4 Ctx.reset, flags := Vector.replicate 256 0, scratch := [], imem := [],
    banks := Vector.replicate 8 Bank.reset, accs := Vector.replicate 8 Acc.reset, sa := SortArr.reset, nextSeq := 1,
    cmds := [], hand := Cmd.empty, quota := 0, picks := [], sideLog := [], img := none, asid := none, sec := false, arrQ := [], port := [], arriving := [],
    routines := [], hob := Hob.reset, trace := TraceRing.reset, halted := false, halting := false,
    purge := none, epoch := 0, area := 0 }

/-- A service core as it starts: M mode, and 0 in every register (PRESUMED, log entry 68). -/
def SCore.reset : SCore :=
  { pc := 0, xs := Vector.replicate 32 0, fs := Vector.replicate 32 0, fcsr := 0, mode := .machine,
    csr := { mstatus := 0, medeleg := 0, mideleg := 0, mie := 0, mip := 0, mtvec := 0, mcounteren := 0, menvcfg := 0, mscratch := 0,
             mepc := 0, mcause := 0, mtval := 0, stvec := 0, scounteren := 0, senvcfg := 0, sscratch := 0, sepc := 0, scause := 0,
             stval := 0, cycleOff := 0 },
    instret := 0, resv := none }

def WorkQueue.reset : WorkQueue :=
  { live := false, torn := false, asid := 0, ring := 0, n := 4, vec := 0, sec := false, pair := 0, head := 0, dbell := 0, ignored := 0,
    noCompletion := 0 }

/-- The package right after reset: nothing loaded, every hearth at its cold-start values, no service pair started. -/
def State.reset : State :=
  { cycle := 0, foc := ⟨0, 0⟩, forced := none, agenda := [], turns := [], hearths := Vector.replicate 640 Hearth.reset, saved := [],
    mem := [], roots := [], pins := [], owned := [],
    regions := Vector.replicate 5 (Vector.replicate 64 0), queues := Vector.replicate 2048 WorkQueue.reset,
    qm := { recs := [], flagLate := [], graphs := [], ageLimit := 10000, nextGraph := 1 },
    cirrus := { flash := [], ranges := [], reserved := [], lost := [], tries := [], indexes := Vector.replicate 64 none, tasks := [],
                retries := Vector.replicate 64 0, moved := Vector.replicate 64 0 },
    svc := { gen := 0, leader := 0, beat := 0, qmGen := 0, gens := Vector.replicate 5 0, started := 0, stopped := 0, calls := [], images := [], callAddr := 0, mail := none,
             busy := false, done := false, bootStage := 1, recovery := true, hobFw := false, routineKeys := [], reports := [], moving := [], recording := false,
             recAddr := 0, recBytes := 0, recorded := [], results := [], hostImage := [], logs := [], replay := none, script := [],
             forcedResults := [], nextSess := 1 },
    cores := Vector.replicate 5 (Vector.replicate 2 SCore.reset),
    links := { pcieGen := 0, pcieWidth := 0, cxlUp := false, cxlGen := 0, cxlWidth := 0,
               ports := Vector.replicate 8 ⟨false, false⟩, chip := 0, routes := [], forwarded := [], carried := Vector.replicate 8 0, wire := [], msix := [],
               answered := [], hostFaults := 0 },
    power := { request := 1600, thermal := none, inforce := 1600, src := 0, grants := [], shares := [], last := 0 },
    chim := { k := 0, addr := 0, bytes := 0, pos := 0, dropped := 0, last := 0 }, hobOut := [], free := 0 }

end Sys2Proof.Machine
end

