-- ==== Sys2Proof/Machine/Num.lean ====
section
/-! DEFINITION. Number formats and exact arithmetic (R46 to R73): every element is a bit pattern held as a number, every
exact value a sign, a magnitude and a power of two, rounded once. -/

namespace Sys2Proof.Machine

/-! ## Types (R47, R48, R57) -/

/-- The type a `TYPE` code names; 14 and 15 are unassigned (R85). -/
def Ty.ofCode : Nat → Option Ty
  | 0 => some .uint8 | 1 => some .int8 | 2 => some .uint16 | 3 => some .int16 | 4 => some .uint32 | 5 => some .int32
  | 6 => some .fp16 | 7 => some .bf16 | 8 => some .fp32 | 9 => some .e4m3 | 10 => some .e5m2 | 11 => some .pb3
  | 12 => some .pb5 | 13 => some .pb8 | _ => none

/-- Element width in bits. A pb type is used through its unpacked fp32 elements, so its width here is 32 (R64). -/
def Ty.width : Ty → Nat
  | .uint8 | .int8 | .e4m3 | .e5m2 => 8
  | .uint16 | .int16 | .fp16 | .bf16 => 16
  | .uint32 | .int32 | .fp32 | .pb3 | .pb5 | .pb8 => 32

def Ty.bytes (t : Ty) : Nat := t.width / 8

def Ty.isFloat : Ty → Bool
  | .fp16 | .bf16 | .fp32 | .e4m3 | .e5m2 => true
  | _ => false

def Ty.isPb : Ty → Bool
  | .pb3 | .pb5 | .pb8 => true
  | _ => false

def Ty.isInt (t : Ty) : Bool := !t.isFloat && !t.isPb

def Ty.isSigned : Ty → Bool
  | .int8 | .int16 | .int32 => true
  | _ => false

/-- Columns of a register's view at the type's width (R122). -/
def Ty.cols (t : Ty) : Nat := 2048 / t.width

/-- Magnitude bits of a pb element (R57). -/
def Ty.pbMag : Ty → Nat
  | .pb3 => 2 | .pb5 => 4 | .pb8 => 7 | _ => 0

/-- Bytes of a pb block (R57). -/
def Ty.pbBytes (t : Ty) : Nat := 2 + 2 * (t.pbMag + 1)

/-- A floating-point format (R48, R49). `maxFin` is the largest finite pattern without its sign. -/
structure Fmt where
  ebits : Nat
  mbits : Nat
  bias : Int
  hasInf : Bool
  maxFin : Nat
  nan : Nat
  deriving DecidableEq, Repr

def Fmt.fp32 : Fmt := ⟨8, 23, 127, true, 0x7F7FFFFF, 0x7FC00000⟩
def Fmt.bf16 : Fmt := ⟨8, 7, 127, true, 0x7F7F, 0x7FC0⟩
def Fmt.fp16 : Fmt := ⟨5, 10, 15, true, 0x7BFF, 0x7E00⟩
def Fmt.e4m3 : Fmt := ⟨4, 3, 7, false, 0x7E, 0x7F⟩
def Fmt.e5m2 : Fmt := ⟨5, 2, 15, true, 0x7B, 0x7E⟩

/-- The format of a float type. The pb types work through fp32 (R63, R64). -/
def Ty.fmt : Ty → Fmt
  | .bf16 => .bf16 | .fp16 => .fp16 | .e4m3 => .e4m3 | .e5m2 => .e5m2 | _ => .fp32

def Fmt.width (f : Fmt) : Nat := 1 + f.ebits + f.mbits
/-- The exponent of the unit of the smallest subnormal. -/
def Fmt.qmin (f : Fmt) : Int := 1 - f.bias - f.mbits
def Fmt.signBit (f : Fmt) : Nat := 2 ^ (f.ebits + f.mbits)
/-- Infinity without its sign, for the formats that have one. -/
def Fmt.inf (f : Fmt) : Nat := (2 ^ f.ebits - 1) * 2 ^ f.mbits

/-! ## Rounding (R50) and status (R55) -/

inductive Rm where
  | rne | rtz | rdn | rup | rmm
  deriving DecidableEq, Repr

def Rm.ofCode : Nat → Option Rm
  | 0 => some .rne | 1 => some .rtz | 2 => some .rdn | 3 => some .rup | 4 => some .rmm | _ => none

/-- The status bits of `fpstat` (R42): NV, OF, UF, NX from bit 3 down. -/
abbrev St := BitVec 4
def St.nv : St := 8#4
def St.of : St := 4#4
def St.uf : St := 2#4
def St.nx : St := 1#4

/-- The value of a float element: NaN, an infinity, or (−1)^neg × m × 2^e. -/
inductive FVal where
  | nan
  | inf (neg : Bool)
  | fin (neg : Bool) (m : Nat) (e : Int)
  deriving DecidableEq, Repr

/-- Whether a magnitude rounds up from `q`, given what was cut off: whether it was more than half a unit, exactly half, or
anything at all (R50). -/
def roundsUp (rm : Rm) (neg : Bool) (q : Nat) (gtHalf eqHalf inexact : Bool) : Bool :=
  match rm with
  | .rne => gtHalf || (eqHalf && q % 2 = 1)
  | .rtz => false
  | .rdn => neg && inexact
  | .rup => !neg && inexact
  | .rmm => gtHalf || eqHalf

/-- (m + δ) ÷ 2^k rounded to an integer, with 0 < δ < 1 when `sticky` holds and δ = 0 otherwise, and whether it is inexact. A
sticky value needs k ≥ 1. -/
def roundShift (rm : Rm) (neg : Bool) (m k : Nat) (sticky : Bool) : Nat × Bool :=
  let q := m / 2 ^ k
  let r := m % 2 ^ k
  let inexact := decide (r ≠ 0) || sticky
  let gt := decide (2 * r > 2 ^ k) || (decide (2 * r = 2 ^ k) && sticky)
  let eq := decide (2 * r = 2 ^ k) && !sticky
  (if roundsUp rm neg q gt eq inexact then q + 1 else q, inexact)

/-- (m + δ) × 2^e in units of 2^q, rounded. -/
def roundUnit (rm : Rm) (neg : Bool) (m : Nat) (e q : Int) (sticky : Bool) : Nat × Bool :=
  if q ≤ e then (m * 2 ^ (e - q).toNat, sticky) else roundShift rm neg m (q - e).toNat sticky

def Fmt.signed (f : Fmt) (neg : Bool) (bits : Nat) : Nat := if neg then bits + f.signBit else bits

/-- The result of an overflow (R51, R52). -/
def Fmt.overflow (f : Fmt) (rm : Rm) (sat neg : Bool) : Nat :=
  if sat then f.signed neg f.maxFin
  else if !f.hasInf then f.nan
  else match rm with
    | .rne | .rmm => f.signed neg f.inf
    | .rtz => f.signed neg f.maxFin
    | .rdn => if neg then f.signed true f.inf else f.maxFin
    | .rup => if neg then f.signed true f.maxFin else f.inf

/-- The exact value (−1)^neg × (m + δ) × 2^e rounded once to a format, and its status (R46, R51, R52, R55). Tininess is
detected after rounding. -/
def Fmt.round (f : Fmt) (rm : Rm) (sat neg : Bool) (m : Nat) (e : Int) (sticky : Bool) : Nat × St :=
  if m = 0 && !sticky then (f.signed neg 0, 0)
  else
    let lead : Int := (bitLen m : Int) + e - (f.mbits + 1 : Nat)
    let q := max lead f.qmin
    let r := roundUnit rm neg m e q sticky
    let bits := (q - f.qmin).toNat * 2 ^ f.mbits + r.1
    if bits > f.maxFin then (f.overflow rm sat neg, St.of ||| St.nx)
    else
      let tiny := decide (lead < f.qmin) &&
        decide ((roundUnit rm neg m e lead sticky).1 < 2 ^ ((f.qmin - lead).toNat + f.mbits))
      (f.signed neg bits, (if r.2 then St.nx else 0) ||| (if tiny && r.2 then St.uf else 0))

/-- A value rounded once to a format: a NaN is canonical, an infinity stays, and an infinity bound for e4m3 overflows
(R46, R52, R54). -/
def Fmt.encode (f : Fmt) (rm : Rm) (sat : Bool) : FVal → Nat × St
  | .nan => (f.nan, 0)
  | .inf neg => if f.hasInf then (f.signed neg f.inf, 0) else (f.overflow rm sat neg, St.of ||| St.nx)
  | .fin neg m e => f.round rm sat neg m e false

/-- The value of a pattern (R48, R49). -/
def Fmt.decode (f : Fmt) (bits : Nat) : FVal :=
  let neg := decide (bits / f.signBit % 2 = 1)
  let ex := bits / 2 ^ f.mbits % 2 ^ f.ebits
  let fr := bits % 2 ^ f.mbits
  if ex = 2 ^ f.ebits - 1 && (f.hasInf || fr = 2 ^ f.mbits - 1) then
    if f.hasInf && fr = 0 then .inf neg else .nan
  else if ex = 0 then .fin neg fr f.qmin
  else .fin neg (2 ^ f.mbits + fr) (f.qmin + (ex - 1 : Nat))

def Fmt.isNan (f : Fmt) (bits : Nat) : Bool := f.decode bits == .nan

/-! ## Exact sums and products (R129) -/

def FVal.neg : FVal → FVal
  | .nan => .nan
  | .inf n => .inf (!n)
  | .fin n m e => .fin (!n) m e

def FVal.isNan : FVal → Bool
  | .nan => true
  | _ => false

def FVal.isInf : FVal → Bool
  | .inf _ => true
  | _ => false

def FVal.isZero : FVal → Bool
  | .fin _ 0 _ => true
  | _ => false

/-- The signed integer of a magnitude. -/
def signedNat (neg : Bool) (m : Nat) : Int := if neg then -(m : Int) else (m : Int)

/-- The exact product, and whether it is the invalid 0 × ∞. -/
def FVal.mul : FVal → FVal → FVal × Bool
  | .nan, _ | _, .nan => (.nan, false)
  | .inf a, .inf b => (.inf (a != b), false)
  | .inf a, .fin b m _ => if m = 0 then (.nan, true) else (.inf (a != b), false)
  | .fin a m _, .inf b => if m = 0 then (.nan, true) else (.inf (a != b), false)
  | .fin a m e, .fin b n g => (.fin (a != b) (m * n) (e + g), false)

/-- The exact sum with the sign of an exact zero by R46, and whether it is the invalid ∞ − ∞. -/
def FVal.add (rm : Rm) : FVal → FVal → FVal × Bool
  | .nan, _ | _, .nan => (.nan, false)
  | .inf a, .inf b => if a = b then (.inf a, false) else (.nan, true)
  | .inf a, .fin _ _ _ => (.inf a, false)
  | .fin _ _ _, .inf b => (.inf b, false)
  | .fin a m e, .fin b n g =>
    if m = 0 && n = 0 then (.fin (if a = b then a else rm == .rdn) 0 0, false)
    else
      let q := min e g
      let s := signedNat a (m * 2 ^ (e - q).toNat) + signedNat b (n * 2 ^ (g - q).toNat)
      if s = 0 then (.fin (rm == .rdn) 0 0, false) else (.fin (decide (s < 0)) s.natAbs q, false)

/-- a × b + c, exactly. -/
def FVal.fma (rm : Rm) (a b c : FVal) : FVal × Bool :=
  let p := FVal.mul a b
  if c.isNan then (.nan, false) else if p.2 then (.nan, true) else FVal.add rm p.1 c

def FVal.abs : FVal → FVal
  | .nan => .nan
  | .inf _ => .inf false
  | .fin _ m e => .fin false m e

/-- Whether |a| and the sign put a strictly below b, as exact numbers; false when either is a NaN. -/
def FVal.lt (a b : FVal) : Bool :=
  match a, b with
  | .nan, _ | _, .nan => false
  | .inf x, .inf y => x && !y
  | .inf x, .fin _ _ _ => x
  | .fin _ _ _, .inf y => !y
  | .fin x m e, .fin y n g =>
    let q := min e g
    decide (signedNat x (m * 2 ^ (e - q).toNat) < signedNat y (n * 2 ^ (g - q).toNat))

def FVal.eq (a b : FVal) : Bool := !a.isNan && !b.isNan && !(a.lt b) && !(b.lt a)

/-- A result of R129: the exact value rounded once, or the canonical NaN with `NV` when it is invalid. -/
def Fmt.result (f : Fmt) (rm : Rm) (sat : Bool) (x : FVal × Bool) : Nat × St :=
  if x.2 then (f.nan, St.nv) else f.encode rm sat x.1

/-! ## Integers (R53) -/

def Ty.minInt (t : Ty) : Int := if t.isSigned then -(2 ^ (t.width - 1) : Nat) else 0
def Ty.maxInt (t : Ty) : Int := if t.isSigned then (2 ^ (t.width - 1) : Nat) - 1 else (2 ^ t.width : Nat) - 1

/-- The integer value of a pattern. -/
def Ty.toInt (t : Ty) (bits : Nat) : Int := if t.isSigned then toSigned t.width bits else ((bits % 2 ^ t.width : Nat) : Int)

/-- An exact integer wrapped or saturated to the type (R53). -/
def Ty.fit (t : Ty) (sat : Bool) (v : Int) : Nat :=
  ofInt t.width (if sat then max t.minInt (min t.maxInt v) else v)

/-! ## Conversion (R54) -/

/-- The value of an element of any type. -/
def Ty.value (t : Ty) (bits : Nat) : FVal :=
  if t.isFloat || t.isPb then t.fmt.decode bits
  else let v := t.toInt bits; .fin (decide (v < 0)) v.natAbs 0

/-- Float to integer (R54). -/
def toIntConv (t : Ty) (rm : Rm) (sat : Bool) : FVal → Nat × St
  | .nan => (0, St.nv)
  | .inf neg => (if sat then ofInt t.width (if neg then t.minInt else t.maxInt) else 0, St.nv)
  | .fin neg m e =>
    let r := roundUnit rm neg m e 0 false
    let v := signedNat neg r.1
    if v < t.minInt || t.maxInt < v then (t.fit sat v, St.nv)
    else (ofInt t.width v, if r.2 then St.nx else 0)

/-- Conversion of one element (R53, R54, R141): equal types copy, a NaN becoming canonical. -/
def convertElem (src dst : Ty) (rm : Rm) (sat : Bool) (bits : Nat) : Nat × St :=
  if src = dst then
    (if src.isFloat && src.fmt.isNan bits then src.fmt.nan else bits, 0)
  else if dst.isInt then
    if src.isInt then (dst.fit sat (src.toInt bits), 0) else toIntConv dst rm sat (src.value bits)
  else dst.fmt.encode rm sat (src.value bits)

/-- The value of `IMM` at the element type, with its status (R64). -/
def immValue (t : Ty) (sat : Bool) (imm : W32) : Nat × St :=
  if t.isPb then (imm.toNat, 0)
  else if t.isFloat then t.fmt.encode .rne sat (Fmt.fp32.decode imm.toNat)
  else (t.fit sat (if t.isSigned then imm.toInt else (imm.toNat : Int)), 0)

/-- The value of a kind-8 operand at the element type, with its status (R65). -/
def kind8Value (t : Ty) (rm : Rm) (sat : Bool) (v : Int) : Nat × St :=
  if t.isInt then (t.fit sat v, 0) else t.fmt.encode rm sat (.fin (decide (v < 0)) v.natAbs 0)

/-! ## Functions (R70, R132, R133) -/

def isqrtGo : Nat → Nat → Nat → Nat
  | 0, _, r => r
  | k + 1, n, r => let t := r + 2 ^ k; isqrtGo k n (if t * t ≤ n then t else r)

/-- ⌊√n⌋. -/
def isqrt (n : Nat) : Nat := isqrtGo (bitLen n / 2 + 1) n 0

/-- `k` further fraction bits of log2 y, for y = a ÷ 2^319 in [1, 2), appended to `acc` (log entry 8). -/
def log2Go : Nat → Nat → Nat → Nat
  | 0, _, acc => acc
  | k + 1, a, acc =>
    let sq := a * a / 2 ^ 319
    if 2 ^ 320 ≤ sq then log2Go k (sq / 2) (2 * acc + 1) else log2Go k sq (2 * acc)

/-- The reciprocal of a finite non-zero magnitude m × 2^e, as (m', e', sticky). -/
def rcpExact (m : Nat) (e : Int) : Nat × Int × Bool :=
  let k := bitLen m + 40
  (2 ^ k / m, -(k : Int) - e, decide (2 ^ k % m ≠ 0))

/-- The reciprocal square root of a finite positive m × 2^e. -/
def rsqrtExact (m : Nat) (e : Int) : Nat × Int × Bool :=
  let m2 := if e % 2 = 0 then m else 2 * m
  let e2 := if e % 2 = 0 then e else e - 1
  let k := bitLen m2 + 40
  let q := isqrt (2 ^ (2 * k) / m2)
  (q, -(k : Int) - e2 / 2, decide (q * q * m2 ≠ 2 ^ (2 * k)))

/-- log2 of a finite positive m × 2^e, as a sign and a magnitude. -/
def log2Exact (m : Nat) (e : Int) : Bool × Nat × Int × Bool :=
  let x : Int := (bitLen m : Int) - 1 + e
  if m = 2 ^ (bitLen m - 1) then (decide (x < 0), x.natAbs, 0, false)
  else
    let frac := log2Go 160 (m * 2 ^ (320 - bitLen m)) 0
    if 0 ≤ x then (false, x.toNat * 2 ^ 160 + frac, -160, true)
    else (true, (-x).toNat * 2 ^ 160 - frac - 1, -160, true)

/-- `v.rcp`, `v.rsqrt` and `v.log2` (R132). -/
inductive Fn where
  | rcp | rsqrt | log2
  deriving DecidableEq, Repr

def Fmt.fn (f : Fmt) (op : Fn) (rm : Rm) (sat : Bool) (v : FVal) : Nat × St :=
  match v with
  | .nan => (f.nan, 0)
  | .inf neg =>
    match op, neg with
    | .rcp, _ => f.encode rm sat (.fin neg 0 0)
    | .rsqrt, false => f.encode rm sat (.fin false 0 0)
    | .log2, false => f.encode rm sat (.inf false)
    | _, true => (f.nan, St.nv)
  | .fin neg m e =>
    if m = 0 then f.encode rm sat (.inf (op == .log2 || neg))
    else
      match op with
      | .rcp => let r := rcpExact m e; f.round rm sat neg r.1 r.2.1 r.2.2
      | .rsqrt => if neg then (f.nan, St.nv) else let r := rsqrtExact m e; f.round rm sat false r.1 r.2.1 r.2.2
      | .log2 => if neg then (f.nan, St.nv) else let r := log2Exact m e; f.round rm sat r.1 r.2.1 r.2.2.1 r.2.2.2

/-- One RNE fused multiply-add to fp32 of exact values. -/
def fma32 (a b c : FVal) : FVal := Fmt.fp32.decode (Fmt.fp32.result .rne false (FVal.fma .rne a b c)).1

/-- exp2 on FP32 (R70). -/
def exp2F (v : FVal) : Nat × St :=
  let go (x : FVal) : Nat × St :=
    match x with
    | .fin neg m e =>
      let s := signedNat neg m
      let n : Int := if 0 ≤ e then s * (2 ^ e.toNat : Nat) else s / (2 ^ (-e).toNat : Nat)
      let f : FVal := if 0 ≤ e then .fin false 0 0 else .fin false (s - n * (2 ^ (-e).toNat : Nat)).toNat e
      let p1 := fma32 f (Fmt.fp32.decode 0x3DA00000) (Fmt.fp32.decode 0x3E680000)
      let p2 := fma32 f p1 (Fmt.fp32.decode 0x3F320000)
      let p3 := fma32 f p2 (.fin false 1 0)
      match p3 with
      | .fin _ pm pe => ((Fmt.fp32.round .rne false false pm (pe + n) false).1, 0)
      | _ => (Fmt.fp32.nan, 0)
    | _ => (Fmt.fp32.nan, 0)
  match v with
  | .nan => (Fmt.fp32.nan, 0)
  | .inf false => (Fmt.fp32.inf, St.of)
  | .inf true => go (.fin true 127 0)
  | .fin _ _ _ =>
    if !(v.lt (.fin false 128 0)) then (Fmt.fp32.inf, St.of)
    else if v.lt (.fin true 127 0) then go (.fin true 127 0) else go v

/-! ## Error-feedback narrowing (R71) -/

/-- The narrowed value h, the residual r in fp32, and their status (log entry 14). -/
def narrowEf (src dst : Ty) (rm : Rm) (sat : Bool) (bits : Nat) : Nat × Nat × St :=
  let x := src.fmt.decode bits
  let h := dst.fmt.encode rm sat x
  match x with
  | .nan => (dst.fmt.nan, Fmt.fp32.nan, 0)
  | .inf _ => (h.1, 0, h.2)
  | .fin _ _ _ =>
    match dst.fmt.decode h.1 with
    | .fin hn hm he =>
      let r := Fmt.fp32.result .rne false (FVal.add .rne x (FVal.fin hn hm he).neg)
      (h.1, r.1, h.2 ||| (r.2 &&& St.nx))
    | _ => (h.1, 0, h.2)

/-! ## pb blocks (R57 to R63) -/

/-- The exact value of element `i` of a pb block held as a little-endian number (R58). -/
def pbElem (t : Ty) (block i : Nat) : FVal :=
  let m := t.pbMag
  let ex := block % 256
  let mu := block / 2 ^ (8 + i / 2) % 2
  let el := block / 2 ^ (16 + i * (m + 1)) % 2 ^ (m + 1)
  if ex = 0 then .fin false 0 0
  else if ex = 255 then .nan
  else .fin (decide (el / 2 ^ m = 1)) (el % 2 ^ m) ((ex : Int) - 127 - mu - (m - 1 : Nat))

/-- The magnitude M(E, μ) of R59, and whether it is inexact. An infinity fits nowhere. -/
def pbM (t : Ty) (rm : Rm) (ex mu : Nat) : FVal → Nat × Bool
  | .fin neg m e => roundUnit rm neg m e ((ex : Int) - 127 - mu - (t.pbMag - 1 : Nat)) false
  | _ => (2 ^ t.pbMag, true)

def pbFits (t : Ty) (rm : Rm) (ex mu : Nat) (x : FVal) : Bool := decide ((pbM t rm ex mu x).1 < 2 ^ t.pbMag)

/-- The smallest exponent from `ex` upward at which every element fits (R59). -/
def pbFirst (t : Ty) (rm : Rm) (xs : List FVal) : Nat → Nat → Option Nat
  | 0, _ => none
  | k + 1, ex => if xs.all (pbFits t rm ex 0) then some ex else pbFirst t rm xs k (ex + 1)

/-- One element as R60 and R62 write it: its bits and its status. -/
def pbWrite (t : Ty) (rm : Rm) (ex mu : Nat) (x : FVal) : Nat × St :=
  let r := pbM t rm ex mu x
  let neg := match x with
    | .fin n _ _ => n
    | .inf n => n
    | .nan => false
  let s := if neg then 2 ^ t.pbMag else 0
  if r.1 < 2 ^ t.pbMag then (s + r.1, if r.2 then St.nx else 0) else (s + (2 ^ t.pbMag - 1), St.of ||| St.nx)

/-- A block of 16 elements, `none` marking padding, as a little-endian number, and its status (R59 to R62). -/
def pbEncode (t : Ty) (rm : Rm) (xs : List (Option FVal)) : Nat × St :=
  let vs := xs.filterMap id
  if vs.any FVal.isNan then (255, St.nv)
  else if vs.all fun x => (pbM t rm 1 0 x).1 = 0 && !x.isInf then
    (0, if vs.any fun x => !x.isZero then St.nx else 0)
  else
    let ex := (pbFirst t rm vs 254 1).getD 254
    let mu (p : Nat) : Nat :=
      let pr := ((xs.drop (2 * p)).take 2).filterMap id
      if !pr.isEmpty && pr.all (pbFits t rm ex 1) then 1 else 0
    let muBits := (List.range 8).foldl (fun a p => a + mu p * 2 ^ p) 0
    let els := xs.zipIdx.foldl (fun (a : Nat × St) (p : Option FVal × Nat) =>
      match p.1 with
      | none => a
      | some x =>
        let w := pbWrite t rm ex (mu (p.2 / 2)) x
        (a.1 + w.1 * 2 ^ (p.2 * (t.pbMag + 1)), a.2 ||| w.2)) (0, 0)
    (ex + 256 * muBits + 65536 * els.1, els.2)

/-! ## Sort keys (R66) -/

def orderKey (t : Ty) (bits : Nat) : Nat :=
  let h := 2 ^ (t.width - 1)
  if t.isInt && !t.isSigned then bits % 2 ^ t.width
  else if t.isInt then (bits + h) % 2 ^ t.width
  else if bits / h % 2 = 0 then bits % 2 ^ t.width + h
  else 2 ^ t.width - 1 - bits % 2 ^ t.width

def orderUnkey (t : Ty) (key : Nat) : Nat :=
  let h := 2 ^ (t.width - 1)
  let k := key % 2 ^ t.width
  if t.isInt && !t.isSigned then k
  else if t.isInt then (k + h) % 2 ^ t.width
  else if k / h % 2 = 1 then k - h
  else 2 ^ t.width - 1 - k

/-! ## Sums in the matrix engine (R67 to R69) -/

/-- ⌊log2⌋ of a finite non-zero term. -/
def FVal.lead : FVal → Option Int
  | .fin _ m e => if m = 0 then none else some ((bitLen m : Int) - 1 + e)
  | _ => none

/-- The truncated term in units of 2^q, and whether the truncation dropped a non-zero bit. -/
def truncTerm (q : Int) : FVal → Int × Bool
  | .fin neg m e =>
    if q ≤ e then (signedNat neg (m * 2 ^ (e - q).toNat), false)
    else
      let d := 2 ^ (q - e).toNat
      (signedNat neg (m / d), decide (m % d ≠ 0))
  | _ => (0, false)

/-- The row sum of exact products (R67), as fp32 bits with its status (R69). A row with a NaN operand in one term, and ∞ × 0 or opposite
infinities in others, raises `NV`: R69 names those cases without more, R55 asks for operands that hold no NaN (DESIGN CHOICE, log
entry 67). -/
def rowSum (ts : List (FVal × Bool)) : Nat × St :=
  let invalid := ts.any (·.2)
  let pinf := ts.any fun t => t.1 == .inf false
  let ninf := ts.any fun t => t.1 == .inf true
  if invalid || (pinf && ninf) then (Fmt.fp32.nan, St.nv)
  else if ts.any fun t => t.1.isNan then (Fmt.fp32.nan, 0)
  else if pinf then (Fmt.fp32.inf, 0)
  else if ninf then (Fmt.fp32.signed true Fmt.fp32.inf, 0)
  else
    match (ts.filterMap fun t => t.1.lead).max? with
    | none => (0, 0)
    | some emax =>
      let q := emax - 40
      let s := ts.foldl (fun (a : Int × Bool) t => let u := truncTerm q t.1; (a.1 + u.1, a.2 || u.2)) (0, false)
      let r := if s.1 = 0 then (0, 0) else Fmt.fp32.round .rne false (decide (s.1 < 0)) s.1.natAbs q false
      (r.1, r.2 ||| (if s.2 then St.nx else 0))

/-- acc + row_sum in fp32, RNE (R68), with its status (R69). -/
def accAdd (acc sum : Nat) : Nat × St :=
  Fmt.fp32.result .rne false (FVal.add .rne (Fmt.fp32.decode acc) (Fmt.fp32.decode sum))

/-! ## The drain histogram (R73) -/

def histBin (v : FVal) : Nat :=
  match v with
  | .nan | .inf _ => 31
  | .fin _ m e =>
    if m = 0 then 0
    else
      let l := (bitLen m : Int) - 1 + e
      if l < -15 then 0 else if 15 ≤ l then 31 else (l + 16).toNat

end Sys2Proof.Machine
end

