-- ==== Sys2Proof/Machine/Ops.lean ====
section
/-! DEFINITION. The named operations over memory, registers, flags, traps and the trace that the meanings share. -/

namespace Sys2Proof.Machine

/-- What a meaning answers. -/
abbrev Out := Host.Outcome State Fault Refusal

/-! ## Byte memories -/

/-- The byte at an address; an unlisted address reads as 0 (log entry 3). -/
def Mem.read : Mem → Nat → Byte
  | [], _ => 0
  | c :: m, a => if c.1 = a then c.2 else Mem.read m a

/-- The cells of a run of bytes from an address on, without the zero bytes. -/
def Mem.cells : Nat → List Byte → Mem
  | _, [] => []
  | a, b :: bs => if b = 0 then Mem.cells (a + 1) bs else (a, b) :: Mem.cells (a + 1) bs

/-- The memory with a run of bytes stored from an address on. -/
def Mem.store (m : Mem) (a : Nat) (bs : List Byte) : Mem :=
  m.filter (fun c => c.1 < a) ++ (Mem.cells a bs ++ m.filter (fun c => a + bs.length ≤ c.1))

def Mem.write (m : Mem) (a : Nat) (b : Byte) : Mem := m.store a [b]

/-- `n` bytes from an address on. -/
def Mem.bytes (m : Mem) (a : Nat) : Nat → List Byte
  | 0 => []
  | n + 1 => m.read a :: Mem.bytes m (a + 1) n

/-- Bytes written one by one at listed addresses. -/
def Mem.writeAll (m : Mem) (ks : List (Nat × Byte)) : Mem := ks.foldl (fun m k => m.write k.1 k.2) m

/-- The canonical form: addresses strictly rising, and no cell that holds 0. -/
def Mem.wf : Mem → Bool
  | [] => true
  | [c] => c.2 != 0
  | c :: d :: m => c.2 != 0 && decide (c.1 < d.1) && Mem.wf (d :: m)

/-! ## Hearths, contexts and registers -/

def State.hearth (s : State) (h : Fin 640) : Hearth := s.hearths[h]

def State.setHearth (s : State) (h : Fin 640) (x : Hearth) : State := { s with hearths := s.hearths.set h x }

def Hearth.ctx (x : Hearth) (c : Fin 4) : Ctx := x.ctxs[c]

def Hearth.setCtx (x : Hearth) (c : Fin 4) (k : Ctx) : Hearth := { x with ctxs := x.ctxs.set c k }

def State.ctx (s : State) (l : Loc) : Ctx := (s.hearth l.h).ctx l.c

def State.setCtx (s : State) (l : Loc) (k : Ctx) : State := s.setHearth l.h ((s.hearth l.h).setCtx l.c k)

/-- The hearth and the context at the focus. -/
def State.fh (s : State) : Hearth := s.hearth s.foc.h
def State.fc (s : State) : Ctx := s.ctx s.foc
def State.setFh (s : State) (x : Hearth) : State := s.setHearth s.foc.h x
def State.setFc (s : State) (k : Ctx) : State := s.setCtx s.foc k

/-- Hob or a pre-emption has stopped the contexts of a hearth (R281, R283, R328). -/
def State.frozen (s : State) (h : Fin 640) : Bool :=
  (s.hearth h).hob.stopped || (s.hearth h).hob.step.isSome || (s.hearth h).halted || (s.hearth h).halting

/-- The context is the one that Hob steps (R283). -/
def State.stepping (s : State) (l : Loc) : Bool := (s.hearth l.h).hob.step == some l.c

/-- A scalar register; x0 reads as zero (R75). -/
def Ctx.get (k : Ctx) (r : XReg) : Word := if r = 0 then 0 else k.xs[r]

/-- A write of a scalar register; x0 discards it (R75). -/
def Ctx.set (k : Ctx) (r : XReg) (v : Word) : Ctx := if r = 0 then k else { k with xs := k.xs.set r v }

/-- The instruction is over: the pc advances and `instret` counts it. -/
def Ctx.retire (k : Ctx) : Ctx := { k with pc := k.pc + 4, instret := k.instret + 1 }

/-- The focus context writes a register and goes on to the next instruction. -/
def State.retireWith (s : State) (r : XReg) (v : Word) : State := s.setFc ((s.fc.set r v).retire)

def State.retire (s : State) : State := s.setFc s.fc.retire

/-- Reference ticks since package reset (R5, R118). -/
def State.tick (s : State) : Nat := s.cycle / Config.cyclesPerTick

def State.tickW (s : State) : Word := BitVec.ofNat 64 s.tick

/-- A fresh free value, and the state that has used it. -/
def State.open_ (s : State) : Word × State := (Config.openValue s.free, { s with free := s.free + 1 })

def State.report (s : State) (r : Report) : State := { s with svc := { s.svc with reports := s.svc.reports ++ [r] } }

/-- A service pair runs (R364). -/
def Service.live (v : Service) (r : Nat) : Bool := v.started.getLsbD r && !v.stopped.getLsbD r

/-- The queue manager and the call-record table accept a service write of a pair: they refuse one under an older generation
(R366). -/
def Service.accepts (v : Service) (r : Nat) : Bool := decide (v.qmGen.toNat ≤ ((v.gens.toList[r]?).getD 0).toNat)

/-- There is a leader, it runs, and its service writes are accepted (R365, R366): the service OS acts. -/
def State.leaderLive (s : State) : Bool := s.svc.gen != 0 && s.svc.live s.svc.leader && s.svc.accepts s.svc.leader

/-- Record mode is on, and its log has room for one more entry: each takes 64 bytes (R288, R371, log entry 24). -/
def State.logRoom (s : State) : Bool :=
  s.svc.recording &&
    decide (64 * (s.turns.length + s.svc.results.length + s.svc.recorded.length + 1) ≤ s.svc.recBytes)

/-- The result of an instruction of the focus context whose value depends on time: recorded in record mode, and in a replay the next
one that was recorded for the context (R288). -/
def State.timed (s : State) (v : Word) : Word × State :=
  match s.svc.replay, s.svc.forcedResults.find? fun p => p.1 == s.foc with
  | some _, some p => (p.2, { s with svc := { s.svc with forcedResults := s.svc.forcedResults.erase p } })
  | _, _ => (v, if s.logRoom then { s with svc := { s.svc with results := s.svc.results ++ [(s.foc, v)] } } else s)

/-- The result that a running replay forces on the next such instruction of a context (R288). -/
def State.forcedAt (s : State) (l : Loc) : Option Word :=
  match s.svc.replay with
  | none => none
  | some _ => (s.svc.forcedResults.find? fun p => p.1 == l).map (·.2)

/-- The focus context writes the result of such an instruction and goes on. -/
def State.retireTimed (s : State) (r : XReg) (v : Word) : State := (s.timed v).2.retireWith r (s.timed v).1

/-- Spill memory at a byte offset below 32,768 (R35). -/
def Ctx.spillLoad (k : Ctx) (off n : Nat) : Nat := leNat (k.spill.bytes off n)

def Ctx.spillStore (k : Ctx) (off n : Nat) (v : Nat) : Ctx := { k with spill := k.spill.store off (leBytes n v) }

/-! ## Traps (R325, R327) -/

/-- Taking a trap from U mode: the standard trap CSRs are saved, M mode entered with interrupts off, and the pc set to
`mtvec` (R327). -/
def Ctx.enterTrap (k : Ctx) (cause : Word) (epc tval htaddr : Word) : Ctx :=
  let ms := k.csr.mstatus
  let mode : Word := if k.mode = .machine then 3 else 0
  let ms' := (ms &&& ~~~ (0x1888#64)) ||| (if bit ms 3 then 0x80#64 else 0) ||| (mode <<< 11)
  let base := k.csr.mtvec &&& ~~~ (3#64)
  let pc := if bit k.csr.mtvec 0 && bit cause 63 then base + ((cause <<< 1) >>> 1 <<< 2) else base
  { k with
    csr := { k.csr with mstatus := ms', mepc := epc, mcause := cause, mtval := tval, htaddr := htaddr },
    mode := .machine, pc := pc, st := .running, wait := .none, fault := none }

/-- The context stops on a fault that waits for the service OS (R29, R325). `trap` marks a trap taken in M mode (R327). -/
def State.hold (s : State) (l : Loc) (f : HeldFault) : State :=
  (s.setCtx l { s.ctx l with st := .held, fault := some f }).report (.heldFault l f)

/-- A trap of a context: from U mode into the hearth runtime, from M mode to the service OS (R327). -/
def State.trap (s : State) (l : Loc) (cause : Nat) (epc tval htaddr : Word) : State :=
  let k := s.ctx l
  match k.mode with
  | .user => s.setCtx l (k.enterTrap (BitVec.ofNat 64 cause) epc tval htaddr)
  | .machine => s.hold l ⟨cause, tval, true⟩

/-- A synchronous trap of the instruction at the focus, which has no other effect (R327). -/
def State.trapHere (s : State) (cause : Nat) (tval : Word) : State := s.trap s.foc cause s.fc.pc tval 0

/-- The return from a trap (R75, R327): `mstatus` gives back the mode and the interrupt enable, and the pc comes from
`mepc`. -/
def Ctx.trapReturn (k : Ctx) : Ctx :=
  let ms := k.csr.mstatus
  let mode := if bitsN ms 11 2 = 3 then Mode.machine else .user
  let keep : Word := if mode = .user then ~~~ (0x21888#64) else ~~~ (0x1888#64)
  let ms' := (ms &&& keep) ||| (if bit ms 7 then 8#64 else 0) ||| 0x80#64
  { k with csr := { k.csr with mstatus := ms' }, mode := mode, pc := k.csr.mepc &&& ~~~ (3#64), instret := k.instret + 1 }

/-- The async word of R327. -/
def asyncWord (seq slot detail : Nat) : Word :=
  BitVec.ofNat 64 (slot % 8192 + detail % 65536 * 2 ^ 16 + seq % 2 ^ 32 * 2 ^ 32)

/-- An asynchronous trap for the context that issued a command: pending until its next instruction boundary, or, when the
context has ended its record by then, delivered to the runtime, which only reports it (R199, R327). -/
def State.asyncTrap (s : State) (l : Loc) (run : RunRec) (a : Async) : State :=
  let k := s.ctx l
  if k.st ≠ .free && k.st ≠ .armed && k.run = run then s.setCtx l { k with pend := k.pend ++ [a] }
  else s.report (.lateTrap run a)

/-- An asynchronous trap is pending and the context stands at an instruction boundary in U mode (R327). -/
def Ctx.asyncReady (k : Ctx) : Bool := k.st == .running && k.mode == .user && !k.pend.isEmpty

/-- Takes the first pending asynchronous trap; `mepc` names the next instruction (R327). -/
def Ctx.takeAsync (k : Ctx) : Ctx :=
  match k.pend with
  | [] => k
  | a :: rest => { k with pend := rest }.enterTrap (BitVec.ofNat 64 a.cause) k.pc a.tval a.htaddr

/-! ## Addresses and translation (R316 to R324) -/

/-- What an access needs of a leaf (R321). -/
inductive AccKind where
  | load | store | both
  deriving DecidableEq, Repr

def canonical (a : Word) : Bool := bitsN a 57 7 = (if bit a 56 then 127 else 0)

def ownerOf (a : Word) : Nat := bitsN a 52 4

/-- The bytes of a range lie in one owner's space of one half, and do not wrap (R316, R318). -/
def rangeOk (a : Word) (n : Nat) : Bool :=
  canonical a && decide (a.toNat + (n - 1) < 2 ^ 64) &&
    (let z := a + BitVec.ofNat 64 (n - 1)
     canonical z && decide (bitsN z 52 5 = bitsN a 52 5))

/-- Key of a byte of physical memory. -/
def physKey (space paddr : Nat) : Nat := space * 2 ^ 48 + paddr

/-- Bytes of a memory space: 256 GiB on a compute die (R3); the spec bounds no other. -/
def spaceBytes (space : Nat) : Nat := if space < 4 then Config.dieBytes else 2 ^ 48

def AccKind.accessFault : AccKind → Nat
  | .load => 5
  | .store | .both => 7

def AccKind.pageFault : AccKind → Nat
  | .load => 13
  | .store | .both => 15

/-- The levels of a walk: the lowest bit each indexes, and how many bits (R320). -/
def walkLevels : List (Nat × Nat) := [(39, 13), (30, 9), (21, 9), (16, 5)]

/-- How a walk ends without a leaf (R321). -/
inductive WalkFault where
  | page | access
  deriving DecidableEq, Repr

def tableEntry (m : Mem) (space addr : Nat) : Word := BitVec.ofNat 64 (leNat (m.bytes (physKey space addr) 8))

/-- A walk of one owner's tables from a table on: the leaf and the number of page-offset bits (R320, R321). A table beyond the 256 GiB of
a die is read as memory there: the spec names no outcome (DESIGN CHOICE, log entry 73). -/
def walk (m : Mem) (space : Nat) (a : Word) : List (Nat × Nat) → Nat → Except WalkFault (Word × Nat)
  | [], _ => .error .access
  | (sh, n) :: rest, table =>
    let e := tableEntry m space (table + 8 * bitsN a sh n)
    let pa := bitsN e 16 32 * 65536
    if !bit e 0 then .error .page
    else if bitsN e 48 2 ≠ 0 || bitsN e 5 11 ≠ 0 then .error .access
    else if bit e 1 then
      if sh = 39 || pa % 2 ^ sh ≠ 0 then .error .access else .ok (e, sh)
    else if bitsN e 50 14 ≠ 0 then .error .access
    else walk m space a rest pa

/-- The root table that serves an address (R320, R323). -/
def State.rootOf (s : State) (ag : Agent) (a : Word) : Option Nat :=
  (s.roots.find? fun r => r.owner.val = ownerOf a &&
    (if bit a 56 then r.asid.isNone else r.asid.isSome && r.asid == ag.asid)).map (·.paddr)

/-- The leaf of an address at its owner, with its page-offset bits. -/
def State.leaf (s : State) (ag : Agent) (a : Word) : Except WalkFault (Word × Nat) :=
  match s.rootOf ag a with
  | none => .error .access
  | some r => walk s.mem (ownerOf a) a walkLevels r

/-- A byte of a die's memory lies in an enabled secure region (R379). -/
def State.secureAt (s : State) (die paddr : Nat) : Bool :=
  match s.regions[die]? with
  | none => false
  | some rs => rs.toList.any fun r => bit r 0 && bit r 48 && decide (bitsN r 16 32 * 65536 ≤ paddr) &&
      decide (paddr ≤ bitsN r 64 32 * 65536 + 65535)

/-- Where a leaf puts a byte: the space its `TGT` names, and the physical address (R322). -/
def leafPlace (owner : Nat) (e : Word) (sh : Nat) (a : Word) : Nat × Nat :=
  let pa := bitsN e 16 32 * 65536 + a.toNat % 2 ^ sh
  (match bitsN e 60 2 with
    | 0 => owner
    | 1 => 7 + bitsN e 50 10
    | 2 => 5
    | _ => 6, pa % 2 ^ 48)

/-- The leaf that maps an address below a table: the physical address of its entry, the entry, and its page-offset bits. -/
def leafAt (m : Mem) (space : Nat) (a : Word) : List (Nat × Nat) → Nat → Option (Nat × Word × Nat)
  | [], _ => none
  | (sh, n) :: rest, table =>
    let at_ := table + 8 * bitsN a sh n
    let e := tableEntry m space at_
    if !bit e 0 then none
    else if bit e 1 then some (at_, e, sh)
    else leafAt m space a rest (bitsN e 16 32 * 65536)

/-- The memory key of a page's first byte. -/
def pageKey (owner : Nat) (e : Word) (sh : Nat) : Nat :=
  let p := leafPlace owner e sh 0
  physKey p.1 p.2

/-- The leaf that has pinned a page still pins it: it maps the page there, at that home (R232). A pin of a save area stands until the area
is given up (R329). -/
def State.pinLive (s : State) (p : Pin) : Bool :=
  match p.leaf with
  | none => true
  | some (asid, a) =>
    match (s.rootOf ⟨some asid, false, true⟩ a).bind (leafAt s.mem (ownerOf a) a walkLevels) with
    | none => false
    | some (_, e, sh) => pageKey (ownerOf a) e sh == p.key && 2 ^ sh == p.bytes && bitsN e 62 2 == p.home

/-- The leaf allows the access (R321, R322, R380), and the memory it names has the byte (R3, log entry 51). -/
def State.leafAllows (s : State) (ag : Agent) (k : AccKind) (owner : Nat) (e : Word) (place : Nat × Nat) : Bool :=
  (match k with
    | .load => bit e 2
    | .store => bit e 3
    | .both => bit e 2 && bit e 3) &&
  (!ag.user || bit e 4) && !(ag.user && bitsN e 60 2 == 1) &&
  !(!ag.sec && bitsN e 60 2 == 0 && s.secureAt owner place.2) && decide (place.2 < spaceBytes place.1)

/-- Translation of one byte of a canonical address with owner 0 to 4: its memory key, or the fault. -/
def State.xlat (s : State) (ag : Agent) (k : AccKind) (a : Word) : Except WalkFault Nat :=
  match s.leaf ag a with
  | .error f => .error f
  | .ok (e, sh) =>
    let p := leafPlace (ownerOf a) e sh a
    if s.leafAllows ag k (ownerOf a) e p then .ok (physKey p.1 p.2) else .error .access

/-- Translation of `n` bytes; the first byte that faults decides. -/
def State.xlatN (s : State) (ag : Agent) (k : AccKind) (a : Word) : Nat → Except WalkFault (List Nat)
  | 0 => .ok []
  | n + 1 =>
    match s.xlat ag k a with
    | .error f => .error f
    | .ok x =>
      match s.xlatN ag k (a + 1) n with
      | .error f => .error f
      | .ok xs => .ok (x :: xs)

/-- What becomes of an access: it is performed, its trap is taken at once, or it holds its unit (R325). -/
inductive Res (α : Type) where
  | ok (v : α)
  | trap (cause : Nat)
  | held (cause : Nat)
  deriving DecidableEq, Repr

/-- Where a scalar access lands: keys of memory bytes, or a byte offset in the scratchpad. -/
inductive Place where
  | mem (keys : List Nat)
  | aperture (off : Nat)
  deriving DecidableEq, Repr

def AccKind.cause (k : AccKind) : WalkFault → Nat
  | .page => k.pageFault
  | .access => k.accessFault

/-- Accesses of the context count as U-mode ones: in U mode, and in M mode under `MPRV` with `MPP` naming U (RISC-V). -/
def Ctx.accessUser (k : Ctx) : Bool := k.mode == .user || (bit k.csr.mstatus 17 && bitsN k.csr.mstatus 11 2 != 3)

/-- The agent a context is. -/
def Hearth.agent (x : Hearth) (k : Ctx) : Agent := ⟨x.asid, k.accessUser, x.sec⟩

/-- An address that names instruction memory, which no scalar store may write (R76, log entry 7). -/
def imemAddr (a : Word) (n : Nat) : Bool := decide (a.toNat < Config.imemBytes ∨ (a + BitVec.ofNat 64 (n - 1)).toNat < Config.imemBytes)

/-- Some byte belongs to a page that is being migrated: accesses of contexts and engines to it are held (R253). -/
def State.migrating (s : State) (ks : List Nat) : Bool :=
  s.svc.moving.any fun p => ks.any fun k => decide (p.key ≤ k) && decide (k < p.key + p.bytes)

/-- A page of an address space is being migrated: what the queue manager and the cirrus engines do in it waits (R253, log entry 63). -/
def State.asidMoving (s : State) (asid : Nat) : Bool := s.svc.moving.any fun p => p.asid == asid

/-- Translation of a context's or an engine's access; one to a page under migration is held as a page fault is (R253). -/
def State.xlatHeld (s : State) (ag : Agent) (k : AccKind) (a : Word) (n : Nat) : Except WalkFault (List Nat) :=
  match s.xlatN ag k a n with
  | .error f => .error f
  | .ok ks => if s.migrating ks then .error .page else .ok ks

/-- A scalar access of `n` bytes by a context (R76, R230, R253, R316 to R325). -/
def State.resolve (s : State) (l : Loc) (k : AccKind) (a : Word) (n : Nat) : Res Place :=
  let ag := (s.hearth l.h).agent (s.ctx l)
  if !rangeOk a n then .trap 27
  else if ownerOf a = 15 && !bit a 56 then
    if bitsN a 21 31 ≠ 0 || bitsN (a + BitVec.ofNat 64 (n - 1)) 21 31 ≠ 0 then .trap k.accessFault
    else .ok (.aperture (bitsN a 0 21))
  else if 5 ≤ ownerOf a || (ag.user && bit a 56) then .trap k.accessFault
  else if k ≠ .load && imemAddr a n then .held k.accessFault
  else
    match s.xlatHeld ag k a n with
    | .error f => .held (k.cause f)
    | .ok ks => .ok (.mem ks)

def State.memBytes (s : State) (ks : List Nat) : List Byte := ks.map s.mem.read

def State.setMem (s : State) (m : Mem) : State := { s with mem := m }

def State.memWrite (s : State) (ks : List Nat) (bs : List Byte) : State := s.setMem (s.mem.writeAll (ks.zip bs))

/-- The reservations that a write to memory bytes clears: those of every context but the writer's own (R76, log entry 13).
`writer` is the context whose store, SC, AMO or group operation makes the write. -/
def Ctx.clearResv (k : Ctx) (ap : Bool) (lines : List Nat) : Ctx :=
  match k.resv with
  | some (b, line) => if b == ap && lines.contains line then { k with resv := none } else k
  | none => k

def Hearth.clearResv (x : Hearth) (ap : Bool) (lines : List Nat) (but : Option (Fin 4)) : Hearth :=
  { x with ctxs := Vector.ofFn fun c : Fin 4 => if but = some c then x.ctx c else (x.ctx c).clearResv ap lines }

def SCore.clearResv (k : SCore) (lines : List Nat) : SCore :=
  if (k.resv.map lines.contains).getD false then { k with resv := none } else k

/-- After a write to memory keys, the reservations on their lines are gone, on every hearth and service core, and so is the ownership
that another hearth's cache had of the lines (R233, log entry 47). -/
def State.clearResvMem (s : State) (ks : List Nat) (writer : Option Loc) : State :=
  let lines := (ks.map (· / 128)).eraseDups
  { s with hearths := Vector.ofFn fun h : Fin 640 =>
             (s.hearth h).clearResv false lines ((writer.filter fun l => l.h = h).map (·.c)),
           owned := s.owned.filter fun p => writer.map (·.h) == some p.2 || !lines.contains p.1,
           cores := s.cores.map fun v => v.map fun k => k.clearResv lines }

/-- A write of memory bytes by an agent. -/
def State.memStore (s : State) (ks : List Nat) (bs : List Byte) (writer : Option Loc) : State :=
  (s.memWrite ks bs).clearResvMem ks writer

/-- A write of scratchpad bytes of a hearth, clearing the reservations on their lines (R234). -/
def Hearth.scratchStore (x : Hearth) (off : Nat) (bs : List Byte) (but : Option (Fin 4)) : Hearth :=
  ({ x with scratch := x.scratch.store off bs }).clearResv true
    (((List.range bs.length).map fun i => (off + i) / 128).eraseDups) but

/-! ## Privileged units: the queue manager, the service OS and the cirrus engines -/

/-- The bytes a unit reads at a virtual address, none when some byte does not translate. -/
def State.unitRead (s : State) (ag : Agent) (a : Word) (n : Nat) : Option (List Byte) :=
  if !rangeOk a n || 5 ≤ ownerOf a then none
  else match s.xlatN ag .load a n with
    | .error _ => none
    | .ok ks => some (s.memBytes ks)

/-- A write of a unit at a virtual address; nothing is written when some byte does not translate. -/
def State.unitWrite (s : State) (ag : Agent) (a : Word) (bs : List Byte) : State :=
  if !rangeOk a bs.length || 5 ≤ ownerOf a then s
  else match s.xlatN ag .store a bs.length with
    | .error _ => s
    | .ok ks => s.memStore ks bs none

/-- The agent of a work queue's own services: privileged, under the queue's ASID and world (log entry 9). -/
def State.queueAgent (s : State) (q : Fin 2048) : Agent := ⟨some (s.queues[q]).asid, false, (s.queues[q]).sec⟩

/-- The key of a byte of host memory, at a 64-bit host address: the first 2^48 bytes are those that a leaf can name, and the others stand
apart from every other memory (R322, R352, log entry 51). -/
def hostKey (a : Nat) : Nat := if a % 2 ^ 64 < 2 ^ 48 then physKey 5 (a % 2 ^ 64) else 2 ^ 64 + a % 2 ^ 64

/-- The keys of `n` bytes of host memory. -/
def hostKeys (a n : Nat) : List Nat := (List.range n).map fun i => hostKey (a + i)

/-- Host memory (R255, R256). -/
def State.hostBytes (s : State) (a n : Nat) : List Byte := s.memBytes (hostKeys a n)

def State.hostStore (s : State) (a : Nat) (bs : List Byte) : State := s.memStore (hostKeys a bs.length) bs none

def State.msix (s : State) (v : Nat) : State := { s with links := { s.links with msix := v :: s.links.msix } }

/-! ## The trace (R284, R285) -/

/-- A trace record: its kind, context, slot, sequence number and values; `addr` for a queue-manager event. -/
def traceRecord (tick kind h c slot seq v0 v1 : Nat) (rgn : List (BitVec 16)) (addr : Word) : BitVec 512 :=
  BitVec.ofNat 512 (tick % 2 ^ 64 + kind % 16 * 2 ^ 64 + c % 4 * 2 ^ 68 + h % 1024 * 2 ^ 70 + slot % 8192 * 2 ^ 80 +
    seq % 2 ^ 32 * 2 ^ 96 + (rgn.take 4).foldr (fun r a => r.toNat + 65536 * a) 0 * 2 ^ 128 + v0 % 2 ^ 32 * 2 ^ 192 +
    v1 % 2 ^ 32 * 2 ^ 224 + addr.toNat * 2 ^ 256)

/-- The 64 bytes of a 512-bit record. -/
def bytes512 (r : BitVec 512) : List Byte := leBytes 64 r.toNat

def ofBytes512 (bs : List Byte) : BitVec 512 := BitVec.ofNat 512 (leNat bs)

def TraceRing.room (t : TraceRing) : Bool := decide (t.pos + 64 ≤ t.bytes)

/-- Writes one record into a hearth's ring, behind a loss record when records were dropped; a full ring drops it (R284). -/
def State.traceOut (s : State) (h : Fin 640) (r : BitVec 512) : State :=
  let x := s.hearth h
  let t := x.trace
  let ag : Agent := ⟨x.asid, false, x.sec⟩
  if t.bytes = 0 then s
  else if !t.room then s.setHearth h { x with trace := { t with dropped := t.dropped + 1 } }
  else if t.dropped ≠ 0 then
    let loss := traceRecord s.tick 7 h 0 0 0 t.dropped 0 [] 0
    let s1 := s.unitWrite ag (t.addr + BitVec.ofNat 64 t.pos) (bytes512 loss)
    let t1 := { t with pos := t.pos + 64, dropped := 0 }
    if t1.room then
      (s1.unitWrite ag (t1.addr + BitVec.ofNat 64 t1.pos) (bytes512 r)).setHearth h
        { s1.hearth h with trace := { t1 with pos := t1.pos + 64 } }
    else s1.setHearth h { s1.hearth h with trace := { t1 with dropped := 1 } }
  else
    let s1 := s.unitWrite ag (t.addr + BitVec.ofNat 64 t.pos) (bytes512 r)
    s1.setHearth h { s1.hearth h with trace := { t with pos := t.pos + 64 } }

/-- A region-edge record, while tracing is on (R116, R284). -/
def State.traceEdge (s : State) (l : Loc) (kind : Nat) (id : BitVec 16) (stack : List (BitVec 16)) : State :=
  if (s.hearth l.h).trace.on then
    s.traceOut l.h (traceRecord s.tick kind l.h l.c 0 0 id.toNat 0 stack 0)
  else s

/-! ## The flag file (R38, R282) -/

/-- An addition to a flag: the flag saturates at 2^32 − 1, and whether that is an overflow (R38). -/
def satAdd (f : W32) (v : Nat) : W32 × Bool :=
  if v ≠ 0 && 2 ^ 32 - 1 ≤ f.toNat + v then (0xFFFFFFFF#32, true) else (BitVec.ofNat 32 (f.toNat + v), false)

def Hearth.flag (x : Hearth) (fl : Fin 256) : W32 := x.flags[fl]

def State.setFlag (s : State) (h : Fin 640) (fl : Fin 256) (v : W32) : State :=
  let x := s.hearth h
  s.setHearth h { x with flags := x.flags.set fl v }

/-- Who learns of an overflow: the issuing context by an asynchronous trap, or the service OS (R38, R212). -/
def State.flagOverflow (s : State) (h : Fin 640) (src : FlagSrc) (fl : Fin 256) : State :=
  match src with
  | .cmd c seq slot run => s.asyncTrap ⟨h, c⟩ run ⟨26, asyncWord seq slot 0, 0⟩
  | .peer a => s.report (.flagOverflow h fl (some a))
  | .qm => s.report (.flagOverflow h fl none)

/-- An addition applied at once. -/
def State.flagAddNow (s : State) (h : Fin 640) (src : FlagSrc) (fl : Fin 256) (v : Nat) : State :=
  let r := satAdd ((s.hearth h).flag fl) v
  let s1 := s.setFlag h fl r.1
  if r.2 then s1.flagOverflow h src fl else s1

def State.pushHeld (s : State) (h : Fin 640) (e : Held) : State :=
  let x := s.hearth h
  s.setHearth h { x with hob := { x.hob with held := x.hob.held ++ [e] } }

/-- An addition, held while the hearth is stopped (R282). `tr` is the completion trace record that goes with it (R285). -/
def State.flagAdd (s : State) (h : Fin 640) (src : FlagSrc) (fl : Fin 256) (v : Nat) (tr : Option (BitVec 512)) : State :=
  if (s.hearth h).hob.stopped then s.pushHeld h (.add src fl v tr)
  else
    let s1 := s.flagAddNow h src fl v
    match tr with
    | none => s1
    | some r => s1.traceOut h r

def State.flagSet (s : State) (h : Fin 640) (fl : Fin 256) (v : W32) : State :=
  if (s.hearth h).hob.stopped then s.pushHeld h (.set fl v) else s.setFlag h fl v

/-- An entry takes a slot of the held list; a handler start stands with the flag it came with, in that flag's slot (R282). -/
def Held.slot : Held → Bool
  | .handler a => !a.flagen
  | _ => true

/-- The held list has a free slot, or the hearth is not stopped (R282). -/
def Hearth.heldRoom (x : Hearth) (n : Nat) : Bool :=
  !x.hob.stopped || decide ((x.hob.held.filter Held.slot).length + n ≤ Config.heldEntries)

end Sys2Proof.Machine
end

