-- ==== Sys2Proof/Machine/Operands.lean ====
section
/-! DEFINITION. Every operand form: the operands, guards, `WAIT` and `SIG` of a command word (R85 to R94), windows (R33,
R88), and the register images the commands read and write (R31, R32, R123). -/

namespace Sys2Proof

open Sys2Proof.Machine

/-! ## Operand fields (R21, R87) -/

def CmdF.opd (f : CmdF) : Nat → BitVec 22
  | 0 => f.opd0 | 1 => f.opd1 | 2 => f.opd2 | 3 => f.opd3 | 4 => f.opd4 | _ => 0

/-- Kind of operand `i`. -/
def CmdF.kind (f : CmdF) (i : Nat) : Nat := bitsN (f.opd i) 18 4
/-- Payload of operand `i`. -/
def CmdF.pay (f : CmdF) (i : Nat) : Nat := bitsN (f.opd i) 0 18
/-- A kind-8 operand as a signed 18-bit number (R65). -/
def CmdF.imm18 (f : CmdF) (i : Nat) : Int := toSigned 18 (f.pay i)

/-- Register numbers from payloads, whose legal values the checks of R87 bound. -/
def CmdF.v (f : CmdF) (i : Nat) : Fin 16 := Fin.ofNat 16 (f.pay i)
def CmdF.p (f : CmdF) (i : Nat) : Fin 8 := Fin.ofNat 8 (f.pay i)

def CmdF.typ (f : CmdF) : Ty := (Ty.ofCode f.ty.toNat).getD .uint8
def CmdF.sat (f : CmdF) : Bool := bit f.mode 3
def CmdF.rm (f : CmdF) : Rm := (Rm.ofCode (bitsN f.mode 0 3)).getD .rne
def CmdF.fence (f : CmdF) : Bool := bit f.sched 9
def CmdF.traced (f : CmdF) : Bool := bit f.sched 8
def CmdF.qsel (f : CmdF) : Nat := bitsN f.sched 10 2

def CmdF.isWin (f : CmdF) (i : Nat) : Bool := f.kind i == 3 || f.kind i == 4

end Sys2Proof

namespace Sys2Proof.Machine

/-! ## WAIT and SIG (R91, R92) -/

/-- The flag a `WAIT` or `SIG` field names. -/
def condFlag (w : BitVec 32) : Fin 256 := (field w 0 8).toFin
def condMode (w : BitVec 32) : Nat := bitsN w 30 2
/-- The threshold T = VAL × unit. -/
def condT (w : BitVec 32) : Nat := bitsN w 8 20 * 64 ^ bitsN w 28 2

/-! ## Guards (R90) -/

def guardTerm (ps : Vector PReg 8) (g : BitVec 5) (i : Nat) : Bool :=
  xor (ps[(field g 0 3).toFin].getLsbD i) (bit g 3)

/-- The guard at predicate bit `i`. -/
def guardBit (f : CmdF) (ps : Vector PReg 8) (i : Nat) : Bool :=
  if !bit f.ga 4 then true
  else
    let a := guardTerm ps f.ga i
    if !bit f.gb 4 then a
    else
      let b := guardTerm ps f.gb i
      match f.gc.toNat with
      | 0 => a && b
      | 1 => a || b
      | 2 => xor a b
      | _ => a && !b

/-- The first bit of the group of element `e` at an element width (R32). -/
def predIdx (w e : Nat) : Nat := e * (w / 8)

/-- Element `e` of width `w` is enabled (R90). -/
def enabled (f : CmdF) (ps : Vector PReg 8) (w e : Nat) : Bool := guardBit f ps (predIdx w e)

/-! ## Register images (R31, R32) -/

/-- The results of the elements 0 to n − 1, computed once each. -/
def tab {α : Type} (n : Nat) (g : Nat → α) : Array α := Array.ofFn fun i : Fin n => g i

/-- Elements of width `w` in a vector register. -/
def elems (w : Nat) : Nat := 32768 / w

/-- Element `e` of width `w` of a vector register. -/
def vget (w : Nat) (v : VReg) (e : Nat) : Nat := (elem w v e).toNat

/-- The register with the elements that the table gives a value replaced. -/
def vput (w : Nat) (v : VReg) (t : Array (Option Nat)) : VReg :=
  packUpd w v fun e => ((t[e]?).getD none).map (BitVec.ofNat w)

/-- The predicate register with the groups of the elements that the table gives a value replaced (R32). -/
def pput (w : Nat) (p : PReg) (t : Array (Option Bool)) : PReg :=
  packUpd (w / 8) p fun e => ((t[e]?).getD none).map fun b => if b then BitVec.allOnes (w / 8) else 0

def pbit (p : PReg) (w e : Nat) : Bool := p.getLsbD (predIdx w e)

/-! ## Windows (R33, R88) -/

def winBase (w : BitVec 128) : Nat := bitsN w 0 21
def winLen (w : BitVec 128) : Nat := bitsN w 32 22
def winPitch (w : BitVec 128) : Nat := bitsN w 64 22
def winRows (w : BitVec 128) : Nat := bitsN w 96 16

/-- The byte offset that a window operand adds to `BASE`: a multiple of 256, or an x register read as unsigned (R21, R88). -/
def winOffset (k : Ctx) (o : BitVec 22) : Nat :=
  if bitsN o 18 4 = 4 then (k.get (field o 5 5).toFin).toNat else bitsN o 5 13 * 256

/-- The window of a kind-3 or kind-4 operand, as captured at issue. -/
def winOp (k : Ctx) (o : BitVec 22) : WinOp :=
  let w := k.ws[(field o 0 5).toFin]
  { a0 := winBase w + winOffset k o, len := winLen w, pitch := winPitch w, rows := winRows w }

/-- The last byte of a window's interval (R167). -/
def WinOp.last (w : WinOp) : Nat := w.a0 + (w.rows - 1) * w.pitch + w.len - 1

/-- The window is valid and lies in the scratchpad, with and without its offset (R33, R88). -/
def winInRange (k : Ctx) (o : BitVec 22) : Bool :=
  let w := k.ws[(field o 0 5).toFin]
  let x := winOp k o
  decide (winLen w ≠ 0) && decide (winBase w + (winRows w - 1) * winPitch w + winLen w ≤ Config.scratchBytes) &&
  decide (winOffset k o < Config.scratchBytes) && decide (x.last < Config.scratchBytes)

/-! ## The command in the hand -/

/-- The window captured for operand `i`; a position without one reads as an empty window. -/
def Cmd.win (c : Cmd) (i : Nat) : WinOp := ((c.wins.toList[i]?).getD none).getD ⟨0, 0, 0, 0⟩

/-- The command that the engine at the focus performs, and its issuing context. -/
def State.hand (s : State) : Cmd := s.fh.hand
def State.handCtx (s : State) : Ctx := s.fh.ctx s.hand.ctx
def State.handLoc (s : State) : Loc := ⟨s.foc.h, s.hand.ctx⟩

def State.setHand (s : State) (c : Cmd) : State := s.setFh { s.fh with hand := c }

def State.setHandCtx (s : State) (k : Ctx) : State := s.setCtx s.handLoc k

/-- The command in the hand has performed; its status and byte count are gathered for completion (R92, R125). -/
def State.performedWith (s : State) (st : BitVec 4) (bytes : Nat) : State :=
  s.setHand { s.hand with performed := true, status := s.hand.status ||| st, bytes := s.hand.bytes + bytes }

/-- A vector register of the issuing context. -/
def State.vreg (s : State) (i : Fin 16) : VReg := s.handCtx.vs[i]
def State.preg (s : State) (i : Fin 8) : PReg := s.handCtx.ps[i]

def State.setVreg (s : State) (i : Fin 16) (v : VReg) : State :=
  s.setHandCtx { s.handCtx with vs := s.handCtx.vs.set i v }
def State.setPreg (s : State) (i : Fin 8) (p : PReg) : State :=
  s.setHandCtx { s.handCtx with ps := s.handCtx.ps.set i p }

/-- A scratchpad byte as the command in the hand sees it: from the granule that it has read, or as it stands now (R225). -/
def State.seenByte (s : State) (a : Nat) : Byte :=
  match s.hand.latch.find? fun p => p.1 == a / 64 with
  | some p => (p.2[a % 64]?).getD 0
  | none => s.fh.scratch.read a

/-- `n` bytes as the command sees them. -/
def State.seenRun (s : State) (a n : Nat) : List Byte := (List.range n).map fun i => s.seenByte (a + i)

/-! ## Sources (R123) -/

/-- A source operand: a register, or one value for every element with the status of its conversion. -/
inductive Src where
  | reg (v : VReg)
  | const (v : Nat) (st : BitVec 4)
  deriving DecidableEq, Repr

/-- The source in position `i` at a type (R64, R65, R123). A kind-8 operand of a float type rounds by the code in `MODE`, in the
class S command `v.movi` too: R65 says by `MODE`, R124 says that class S ignores the code (DEDUCED, log entry 20). -/
def State.src (s : State) (f : CmdF) (t : Ty) (i : Nat) : Src :=
  if f.kind i = 1 then .reg (s.vreg (f.v i))
  else if f.kind i = 8 then
    let r := kind8Value t f.rm f.sat (f.imm18 i)
    .const r.1 r.2
  else
    let r := immValue t f.sat f.imm
    .const r.1 r.2

/-- Element `e` of a source. -/
def Src.get (w : Nat) : Src → Nat → Nat
  | .reg v, e => vget w v e
  | .const x _, _ => x % 2 ^ w

/-- The status of a source's conversion. -/
def Src.status : Src → BitVec 4
  | .reg _ => 0
  | .const _ st => st

end Sys2Proof.Machine
end

