-- ==== Sys2Proof/Machine/Check.lean ====
section
/-! DEFINITION. The checks that `k.issue` and `k.issuex` make on a command word (R86): the illegal-command test of R85 and
R87 to R94 with the limits of every command's entry, then the window test of R33 and R88. -/

namespace Sys2Proof.Machine

/-- The classes of `MODE` use (R124). -/
inductive MClass where
  | f | s | n
  deriving DecidableEq, Repr

/-- What a command's entry fixes: the kinds that each position accepts (positions beyond the list hold kind 0), the types
(none when `TYPE` is unused), the class, and whether it takes a guard or a hint. -/
structure OpSpec where
  kinds : List (List Nat)
  types : Option (List Ty)
  cls : MClass
  guard : Bool
  hint : Bool
  deriving DecidableEq, Repr

def intTypes : List Ty := [.uint8, .int8, .uint16, .int16, .uint32, .int32]
def floatTypes : List Ty := [.fp16, .bf16, .fp32, .e4m3, .e5m2]
def pbTypes : List Ty := [.pb3, .pb5, .pb8]
def plainTypes : List Ty := intTypes ++ floatTypes
def wordTypes : List Ty := [.uint32, .int32, .fp32]
/-- Stream formats of the matrix engine (R170). -/
def mxTypes : List Ty := [.int8, .e4m3, .e5m2, .bf16, .pb3, .pb5, .pb8]

/-- Kinds of a source b or c (R123). -/
def srcK : List Nat := [1, 8, 0]
def winK : List Nat := [3, 4]

def vecSpec (kinds : List (List Nat)) (types : List Ty) (cls : MClass) : OpSpec := ⟨kinds, some types, cls, true, false⟩

/-- The entries of the vector engine (R123 to R166). -/
def vSpec : COp → OpSpec
  | .vAdd | .vSub | .vMul | .vAdiff => vecSpec [[1], [1], srcK] plainTypes .f
  | .vMulh => vecSpec [[1], [1], srcK] intTypes .n
  | .vFma | .vFms | .vFnma => vecSpec [[1], [1], srcK, srcK] plainTypes .f
  | .vMin | .vMax => vecSpec [[1], [1], srcK] plainTypes .n
  | .vAbs | .vNeg => vecSpec [[1], [1]] plainTypes .s
  | .vClamp => vecSpec [[1], [1], srcK, srcK] plainTypes .n
  | .vSgnj => vecSpec [[1], [1], srcK] floatTypes .n
  | .vRint | .vRcp | .vRsqrt | .vExp2 | .vLog2 => vecSpec [[1], [1]] floatTypes .f
  | .vCmpeq | .vCmpne | .vCmplt | .vCmple | .vCmpgt | .vCmpge => vecSpec [[2], [1], srcK] plainTypes .n
  | .vCmpun => vecSpec [[2], [1], srcK] floatTypes .n
  | .vSel => vecSpec [[1], [1], srcK, [2]] plainTypes .n
  | .vAnd | .vOr | .vXor | .vAndn | .vSll | .vSrl | .vSra | .vRol | .vRor => vecSpec [[1], [1], srcK] intTypes .n
  | .vFsl | .vFsr => vecSpec [[1], [1], srcK, srcK] intTypes .n
  | .vNot | .vClz | .vCtz | .vFfs | .vPop | .vBrev => vecSpec [[1], [1]] intTypes .n
  | .vCvt => vecSpec [[1], [1], [8], [8, 0]] plainTypes .f
  | .vCvtef => vecSpec [[1], [1], [8], [8, 0], [1]] floatTypes .f
  | .vPbpack => ⟨[[1], [1], [8]], some pbTypes, .f, false, false⟩
  | .vPbunpk => ⟨[[1], [1], [8]], some pbTypes, .n, false, false⟩
  | .vRotr | .vBcr | .vRotc | .vBcc => vecSpec [[1], [1], [8]] plainTypes .n
  | .vSumr | .vScsumr | .vSumc | .vScsumc => vecSpec [[1], [1]] plainTypes .f
  | .vMaxr | .vMinr | .vScmaxr | .vScminr | .vMaxc | .vMinc | .vScmaxc | .vScminc => vecSpec [[1], [1]] plainTypes .n
  | .vAndr | .vOrr | .vAndc | .vOrc => vecSpec [[1], [1]] intTypes .n
  | .vPerm => vecSpec [[1], [1], [1]] plainTypes .n
  | .vIota => vecSpec [[1], [8], [8]] intTypes .s
  | .vMovi => vecSpec [[1], [8, 0]] plainTypes .s
  | .vMov => vecSpec [[1], [1]] plainTypes .n
  | .vLut8 | .vLut16 => vecSpec [[1], [1], winK] plainTypes .n
  | .vZip | .vUnzip => vecSpec [[1], [1], [1], [8]] plainTypes .n
  | .vLd | .vSt => vecSpec [[1], winK] plainTypes .n
  | .vStm => ⟨[[1], winK, [2]], none, .n, false, false⟩
  | .vGath | .vScat => vecSpec [[1], winK, [1]] wordTypes .n
  | .vPand | .vPor | .vPxor | .vPandn => ⟨[[2], [2], [2]], none, .n, false, false⟩
  | .vPnot => ⟨[[2], [2]], none, .n, false, false⟩
  | .vPset => vecSpec [[2], [8]] plainTypes .n
  | .vPmov => vecSpec [[1, 2], [1, 2]] intTypes .n
  | .vPcnt => vecSpec [[1], [2], [8]] plainTypes .n
  | _ => ⟨[], none, .n, false, false⟩

/-- A copy or search command of two or three windows (R198). -/
def cpSpec (kinds : List (List Nat)) (hint : Bool) : OpSpec := ⟨kinds, none, .n, false, hint⟩

/-- The entry of a command (R95, R96, R123 to R214). The store-add forms of the data copies use `TYPE` and `MODE` (R198). -/
def opSpec (o : COp) (f : CmdF) : OpSpec :=
  match o with
  | .mxCfg => ⟨[winK], none, .n, false, false⟩
  | .mxLdb => ⟨[[6], winK], some mxTypes, .n, false, false⟩
  | .mxGo => ⟨[winK, [6], [5]], some mxTypes, .n, false, false⟩
  | .mxDrain => ⟨[winK, [5], [0, 3, 4, 5], [8]], some (plainTypes ++ pbTypes), .f, false, false⟩
  | .mxZero => ⟨[[5], [8]], none, .n, false, false⟩
  | .mxScale => ⟨[[5]], none, .f, false, false⟩
  | .mxRdst => ⟨[winK, [9]], none, .n, false, false⟩
  | .soLd => ⟨[[9], winK, [3, 4, 8], [8, 0], [8, 0]], some plainTypes, .s, false, false⟩
  | .soSort | .soMerge => ⟨[[9], [8]], none, .n, false, false⟩
  | .soStep => ⟨[[9], [8], [8]], none, .n, false, false⟩
  | .soTopk => ⟨[[1], [1], winK, [3, 4, 8], [8]], some plainTypes, .s, false, false⟩
  | .soSt => ⟨[[9], winK, [3, 4, 0], [8, 0]], some plainTypes, .n, false, false⟩
  | .soSave | .soRest => ⟨[[9], winK], none, .n, false, false⟩
  | .soClr => ⟨[[9]], none, .n, false, false⟩
  | .cpLin | .cp2d | .cpList =>
    if f.imm18 2 = 2 then ⟨[winK, winK, [8]], some wordTypes, .f, false, true⟩ else cpSpec [winK, winK, [8]] true
  | .cpXf => cpSpec [winK, winK] true
  | .cpPeer => cpSpec [winK, winK] false
  | .cpFill => ⟨[winK], some [.uint8, .uint16, .uint32], .n, false, false⟩
  | .sxSearch | .sxScan | .sxAppend | .sxDel | .sxStat => cpSpec [winK, winK] true
  | .sxFetch => cpSpec [winK, winK, winK] true
  | .flNop | .flWait => ⟨[], none, .n, false, false⟩
  | .flAdd | .flSet => ⟨[[7]], none, .n, false, false⟩
  | o => vSpec o

/-- The payload bits that a kind uses (R87). -/
def payloadOk (kind pay : Nat) : Bool :=
  match kind with
  | 0 => pay == 0
  | 1 => decide (pay < 16)
  | 2 | 5 | 6 => decide (pay < 8)
  | 3 | 8 => true
  | 4 => decide (pay < 1024)
  | 7 => decide (pay < 256)
  | 9 => pay == 0 || pay == 1 || (decide (8 ≤ pay) && decide (pay < 16))
  | _ => false

def operandOk (sp : OpSpec) (f : CmdF) (i : Nat) : Bool :=
  ((sp.kinds[i]?).getD [0]).contains (f.kind i) && payloadOk (f.kind i) (f.pay i)

/-- The guard fields of a command that takes one (R90). -/
def guardOk (f : CmdF) : Bool :=
  if !bit f.ga 4 then f.ga == 0 && f.gb == 0 && f.gc == 0
  else bit f.gb 4 || (f.gb == 0 && f.gc == 0)

/-- The `WAIT` field (R91). -/
def waitOk (w : BitVec 32) : Bool :=
  match condMode w with
  | 0 => w == 0
  | 3 => false
  | _ => decide (condT w < 2 ^ 32)

/-- The `SIG` field (R92). -/
def sigOk (w : BitVec 32) : Bool :=
  match condMode w with
  | 0 => w == 0
  | 2 => bitsN w 8 22 == 0
  | _ => decide (condT w < 2 ^ 32)

/-- The `HINT` field of a command that uses it (R93). -/
def hintOk (h : BitVec 6) : Bool := bitsN h 0 2 == 0 && bitsN h 2 2 != 3 && bitsN h 4 2 != 3

/-- Operand positions in which kind 0 means `IMM` (R123, R153). -/
def immPos : COp → List Nat
  | .vAdd | .vSub | .vMul | .vMulh | .vMin | .vMax | .vAdiff | .vSgnj | .vCmpeq | .vCmpne | .vCmplt | .vCmple | .vCmpgt
  | .vCmpge | .vCmpun | .vSel | .vAnd | .vOr | .vXor | .vAndn | .vSll | .vSrl | .vSra | .vRol | .vRor => [2]
  | .vFma | .vFms | .vFnma | .vClamp | .vFsl | .vFsr => [2, 3]
  | .vMovi => [1]
  | _ => []

/-- The command reads `IMM`: only the softmax form of a drain does (R179, log entry 17). -/
def immUsed (o : COp) (f : CmdF) : Bool :=
  match o with
  | .mxScale | .soTopk | .cpFill | .flAdd | .flSet => true
  | .mxDrain => f.imm18 3 % 4 == 2
  | o => (immPos o).any fun i => f.kind i == 0

def inRange (v lo hi : Int) : Bool := decide (lo ≤ v) && decide (v ≤ hi)

/-- Source and destination slices of `v.cvt` and `v.cvtef` (R140). -/
def cvtSrc (f : CmdF) : Nat := f.pay 3 / 4 % 4
def cvtDst (f : CmdF) : Nat := f.pay 3 % 4

def Ty.fracBits (t : Ty) : Nat := t.fmt.mbits

/-- `T` is narrower than `S` as `v.cvtef` requires (R142). -/
def efNarrower (s t : Ty) : Bool :=
  (s == .fp32 || s == .bf16 || s == .fp16) && (decide (t.width < s.width) || (t.width == s.width && t != s))

/-- The value of a kind-8 operand, or a default for kind 0. -/
def CmdF_num (f : CmdF) (i : Nat) (dflt : Int) : Int := if f.kind i = 8 then f.imm18 i else dflt

/-- First row of a `so.ld` (R187). -/
def soRow0 (f : CmdF) : Nat := f.pay 4 / 2 % 128
/-- Element count of a sort load or store (R187, R190, R191). -/
def soCount (o : COp) (f : CmdF) : Nat :=
  match o with
  | .soLd => (CmdF_num f 3 (16384 - soRow0 f * 128)).toNat
  | .soTopk => (f.imm18 4).toNat
  | _ => (CmdF_num f 3 16384).toNat

/-- The limits of the command's own entry, other than kinds, types and windows (R85 to R94). -/
def limitsOk (o : COp) (x : Hearth) (f : CmdF) : Bool :=
  let t := f.typ
  match o with
  | .vCvt =>
    let s := (Ty.ofCode (f.pay 2)).getD .uint8
    let c := min s.cols t.cols
    decide (f.pay 2 ≤ 10) && decide (f.pay 3 < 16) && decide (cvtSrc f < s.cols / c) && decide (cvtDst f < t.cols / c)
  | .vCvtef =>
    let s := (Ty.ofCode (f.pay 2)).getD .uint8
    decide (f.pay 2 ≤ 10) && decide (f.pay 3 < 16) && efNarrower s t && f.pay 4 != f.pay 0 &&
      decide (cvtSrc f < s.cols / 64) && decide (cvtDst f < t.cols / 64)
  | .vPbpack | .vPbunpk => inRange (f.imm18 2) 0 1024
  | .vBcr => inRange (f.imm18 2) 0 (t.cols - 1 : Nat)
  | .vBcc => inRange (f.imm18 2) 0 15
  | .vZip | .vUnzip => inRange (f.imm18 3) 0 1
  | .vPset => decide (0 ≤ f.imm18 1)
  | .vPmov => f.kind 0 != f.kind 1
  | .vPcnt => inRange (f.imm18 2) 0 1
  | .mxGo => (x.banks[(Fin.ofNat 8 (f.pay 1))]).issue.isSome
  | .mxDrain =>
    inRange (f.imm18 3) 0 7 &&
      (match f.pay 3 % 4 with
        | 1 => f.isWin 2
        | 2 => f.kind 2 == 5 && f.pay 2 != f.pay 1
        | _ => f.kind 2 == 0)
  | .mxZero => inRange (f.imm18 1) 0 2
  | .mxRdst => decide (8 ≤ f.pay 1)
  | .soLd =>
    f.pay 0 == 0 && (f.kind 3 == 0 || inRange (f.imm18 3) 1 16384) && inRange (CmdF_num f 4 0) 0 255 &&
      decide (soRow0 f * 128 + soCount .soLd f ≤ 16384)
  | .soSort | .soMerge => f.pay 0 == 0 && inRange (f.imm18 1) 0 1
  | .soStep => f.pay 0 == 0 && inRange (f.imm18 1) 1 17 && inRange (f.imm18 2) 0 1
  | .soTopk =>
    f.pay 0 != f.pay 1 && inRange (f.imm18 4) 0 14336 && bitsN f.imm 14 18 == 0 &&
      (if bit f.imm 11 then inRange (bitsN f.imm 0 11) 1 1024 else bitsN f.imm 0 11 == 0 && bitsN f.imm 12 2 == 0)
  | .soSt => f.pay 0 == 0 && (f.kind 3 == 0 || inRange (f.imm18 3) 1 16384)
  | .soSave | .soRest | .soClr => f.pay 0 == 0
  | .cpLin | .cp2d | .cpList => inRange (f.imm18 2) 0 2
  | .flWait => condMode f.wait == 1 || condMode f.wait == 2
  | _ => true

/-! ## Windows of a command -/

/-- What an entry asks of a window operand: its position, the alignment of a kind-4 offset, of A0, of `PITCH` and of `LEN`,
and the least `LEN` and `ROWS`. -/
structure WinReq where
  pos : Nat
  a4 : Nat := 1
  a0 : Nat := 1
  pitch : Nat := 1
  len : Nat := 1
  minLen : Nat := 0
  minRows : Nat := 0
  /-- Elements of this size that the window must hold (R187). -/
  elemSize : Nat := 1
  count : Nat := 0
  deriving DecidableEq, Repr

/-- Bytes of a stream row (R170) or of a row of 128 elements of any type (R177). -/
def rowBytes (t : Ty) : Nat := if t.isPb then 8 * t.pbBytes else 128 * t.bytes

/-- The window operands of a command, in position order, with their requirements. -/
def winReqs (o : COp) (f : CmdF) : List WinReq :=
  let s := f.typ.bytes
  match o with
  | .vLut8 => [{ pos := 2, a4 := 64, a0 := 64, minLen := 8 * s }]
  | .vLut16 => [{ pos := 2, a4 := 64, a0 := 64, minLen := 16 * s }]
  | .vLd | .vSt => [{ pos := 1, a4 := s, a0 := s, pitch := s }]
  | .vStm => [{ pos := 1 }]
  | .vGath | .vScat => [{ pos := 1, a4 := 4, a0 := 4 }]
  | .mxCfg => [{ pos := 0, a0 := 8, minLen := 192 }]
  | .mxLdb => [{ pos := 1, minLen := rowBytes f.typ, minRows := 128 }]
  | .mxGo => [{ pos := 0 }]
  | .mxDrain =>
    let e := if f.typ.isPb then 1 else s
    { pos := 0, a0 := e, pitch := e, minLen := rowBytes f.typ, minRows := 128 } ::
      (if f.isWin 2 then [{ pos := 2, a0 := 64, minLen := 128 }] else [])
  | .mxRdst => [{ pos := 0, a0 := 8, minLen := 1024 }]
  | .soLd | .soSt =>
    { pos := 1, a4 := s, a0 := s, pitch := s, elemSize := s, count := soCount o f } ::
      (if f.isWin 2 then [{ pos := 2, a4 := 4, a0 := 4, pitch := 4, elemSize := 4, count := soCount o f }] else [])
  | .soTopk =>
    { pos := 2, a4 := s, a0 := s, pitch := s, elemSize := s, count := soCount o f } ::
      (if f.isWin 3 then [{ pos := 3, a4 := 4, a0 := 4, pitch := 4, elemSize := 4, count := soCount o f }] else [])
  | .soSave | .soRest => [{ pos := 1, a0 := 64, minLen := 131136 }]
  | .cpLin | .cp2d | .cpList | .cpXf | .cpPeer => [{ pos := 0 }, { pos := 1, a0 := 64, minLen := 64 }]
  | .cpFill => [{ pos := 0, a0 := s, pitch := s, len := s }]
  | .sxSearch | .sxScan | .sxAppend | .sxDel | .sxStat => [{ pos := 0, a0 := 64 }, { pos := 1, a0 := 64 }]
  | .sxFetch => [{ pos := 0 }, { pos := 1, a0 := 64, minLen := 64 }, { pos := 2, a0 := 64 }]
  | _ => []

/-- The alignments of a window operand, whose breach is an illegal command (R88, R160, R167). -/
def winAligned (k : Ctx) (f : CmdF) (r : WinReq) : Bool :=
  let w := winOp k (f.opd r.pos)
  (f.kind r.pos != 4 || winOffset k (f.opd r.pos) % r.a4 == 0) && w.a0 % r.a0 == 0 && w.pitch % r.pitch == 0 && w.len % r.len == 0

/-- The range and the extents of a window operand, whose breach is the window-out-of-range trap (R33, R88, R167). -/
def winExtent (k : Ctx) (f : CmdF) (r : WinReq) : Bool :=
  let w := winOp k (f.opd r.pos)
  winInRange k (f.opd r.pos) && decide (r.minLen ≤ w.len) && decide (r.minRows ≤ w.rows) &&
    decide (r.count ≤ w.rows * (w.len / r.elemSize))

/-- The word is a legal command (R86, step 1). -/
def legalCmd (x : Hearth) (k : Ctx) (w : CmdWord) : Bool :=
  match cmdOp w with
  | none => false
  | some o =>
    let f := CmdF.ofWord w
    let sp := opSpec o f
    (List.range 5).all (operandOk sp f) &&
      (match sp.types with
        | none => f.ty == 0
        | some ts => ((Ty.ofCode f.ty.toNat).map ts.contains).getD false) &&
      (match sp.cls with
        | .n => f.mode == 0
        | _ => (Rm.ofCode (bitsN f.mode 0 3)).isSome) &&
      (if sp.guard then guardOk f else f.ga == 0 && f.gb == 0 && f.gc == 0) &&
      waitOk f.wait && sigOk f.sig && (if sp.hint then hintOk f.hint else f.hint == 0) &&
      bitsN f.sched 0 8 == 0 && (o.code.1 == 5 || f.qsel == 0) && (immUsed o f || f.imm == 0) &&
      limitsOk o x f && (winReqs o f).all (winAligned k f)

/-- Every window operand is in range (R86, step 2). -/
def windowsOk (k : Ctx) (w : CmdWord) : Bool :=
  match cmdOp w with
  | none => true
  | some o => let f := CmdF.ofWord w; (winReqs o f).all (winExtent k f)

/-- The checks of R86: the trap that the first failing one raises. -/
def checkCmd (x : Hearth) (k : Ctx) (w : CmdWord) : Option Nat :=
  if !legalCmd x k w then some 24 else if !windowsOk k w then some 25 else none

/-- The windows of a word, captured at the check (R102). -/
def captureWins (k : Ctx) (w : CmdWord) : Vector (Option WinOp) 5 :=
  let f := CmdF.ofWord w
  Vector.ofFn fun i : Fin 5 => if f.isWin i then some (winOp k (f.opd i)) else none

/-! ## Placeholders (R100, R103) -/

/-- The value of a register at a place lies in the place's range (R103). -/
def placeInRange (pl : Nat) (v : Word) : Bool :=
  let i := v.toInt
  match pl with
  | 1 => inRange i (-2147483648) 4294967295
  | 2 | 3 => inRange i 0 1048575
  | 4 | 5 | 6 | 7 => inRange i 0 2096896 && i % 256 == 0
  | 8 | 9 | 10 | 11 => inRange i (-131072) 131071
  | _ => true

/-- A value put into a place of a word (R103). -/
def substPlace (w : CmdWord) (pl : Nat) (v : Word) : CmdWord :=
  let put (lo len x : Nat) : CmdWord := w ||| BitVec.ofNat 256 (x % 2 ^ len * 2 ^ lo)
  match pl with
  | 1 => put 224 32 v.toNat
  | 2 => put 150 20 v.toNat
  | 3 => put 182 20 v.toNat
  | 4 | 5 | 6 | 7 => put (32 + 22 * (pl - 4) + 5) 13 (v.toNat / 256)
  | 8 | 9 | 10 | 11 => put (32 + 22 * (pl - 8)) 18 v.toNat
  | _ => w

/-- The substituted word, none when a value lies outside its range (R103). -/
def substitute (w : CmdWord) (d : Desc) (a b : Word) : Option CmdWord :=
  if placeInRange d.pl0 a && placeInRange d.pl1 b then some (substPlace (substPlace w d.pl0 a) d.pl1 b) else none

end Sys2Proof.Machine
end

