-- ==== Sys2Proof/Machine/Flags.lean ====
section
/-! DEFINITION. Status: every computation of `fpstat` and `cpstat` bits that the commands share (R42, R43, R55, R123). -/

namespace Sys2Proof.Machine

/-- The OR of a table of results' status bits. -/
def orStatus (t : Array (Option (Nat × BitVec 4))) : BitVec 4 :=
  t.foldl (fun a r => match r with | some x => a ||| x.2 | none => a) 0

/-- Some element of the table is enabled. -/
def anyEnabled {α : Type} (t : Array (Option α)) : Bool := t.any Option.isSome

/-- The status that the conversions of immediate sources add once, provided that some element is enabled (R123). -/
def immStatus (en : Bool) (ss : List Src) : BitVec 4 := if en then ss.foldl (fun a x => a ||| x.status) 0 else 0

/-- The low four bits of `fpstat` gather status and stay until a CSR write (R42). -/
def Ctx.orFpstat (k : Ctx) (st : BitVec 4) : Ctx := { k with fpstat := k.fpstat ||| st.zeroExtend 64 }

/-- `LENMIS` of `cpstat` (R43, R204). -/
def Ctx.setLenmis (k : Ctx) : Ctx := { k with cpstat := k.cpstat ||| 1 }

/-- `LMTRAP` of `cpstat` (R43). -/
def Ctx.lmtrap (k : Ctx) : Bool := bit k.cpstat 8

end Sys2Proof.Machine
end

