-- ==== Sys2Proof/Machine/Board.lean ====
section
/-! DEFINITION. The path of a command: the range scoreboard (R217 to R226), register and accumulator dependences (R89,
R169), issue arbitration (R216), and what failing and completing do (R92, R199). -/

namespace Sys2Proof.Machine

/-! ## Entries (R217, R218) -/

def sbEntry (write : Bool) (first last : Nat) : SbEntry := ⟨write, first / 64, last / 64, []⟩

/-- The entry over a window's whole interval (R167). -/
def WinOp.entry (w : WinOp) (write : Bool) : SbEntry := sbEntry write w.a0 w.last

/-- The last byte that `v.ld`, `v.st` and `v.stm` may touch (R159). -/
def WinOp.vecLast (w : WinOp) : Nat := w.a0 + (min w.rows 16 - 1) * w.pitch + min w.len 256 - 1

def wins (ws : Vector (Option WinOp) 5) (i : Nat) : WinOp := ((ws.toList[i]?).getD none).getD ⟨0, 0, 0, 0⟩

/-- The entries a command makes at acceptance, in window order (R217). -/
def cmdEntries (o : COp) (f : CmdF) (ws : Vector (Option WinOp) 5) : List SbEntry :=
  let rd (i : Nat) := (wins ws i).entry false
  let wr (i : Nat) := (wins ws i).entry true
  match o with
  | .vLd => [sbEntry false (wins ws 1).a0 (wins ws 1).vecLast]
  | .vSt | .vStm => [sbEntry true (wins ws 1).a0 (wins ws 1).vecLast]
  | .vGath => [rd 1]
  | .vScat => [wr 1]
  | .vLut8 | .vLut16 => [sbEntry false (wins ws 2).a0 ((wins ws 2).a0 + 63)]
  | .mxCfg => [sbEntry false (wins ws 0).a0 ((wins ws 0).a0 + 191)]
  | .mxLdb => [rd 1]
  | .mxGo => [rd 0]
  | .mxDrain => wr 0 :: (if f.isWin 2 then [wr 2] else [])
  | .mxRdst => [wr 0]
  | .soLd => rd 1 :: (if f.isWin 2 then [rd 2] else [])
  | .soTopk => rd 2 :: (if f.isWin 3 then [rd 3] else [])
  | .soSt => wr 1 :: (if f.isWin 2 then [wr 2] else [])
  | .soSave => [wr 1]
  | .soRest => [rd 1]
  | .cpLin | .cp2d | .cpList => [if f.imm18 2 = 0 then wr 0 else rd 0, rd 1]
  | .cpFill => [wr 0]
  | .cpXf => [wr 0, rd 1]
  | .cpPeer => [rd 0, rd 1]
  | .sxSearch | .sxScan | .sxAppend | .sxDel | .sxStat => [wr 0, rd 1]
  | .sxFetch => [wr 0, rd 1, wr 2]
  | _ => []

def SbEntry.overlaps (e l : SbEntry) : Bool := decide (e.lo ≤ l.hi) && decide (l.lo ≤ e.hi)
/-- Chunk `c` meets the entry's interval (R218, R219). -/
def SbEntry.hasChunk (e : SbEntry) (c : Nat) : Bool := decide (8 * c ≤ e.hi) && decide (e.lo ≤ 8 * c + 7)
def SbEntry.chunks (e : SbEntry) : List Nat := List.range' (e.lo / 8) (e.hi / 8 - e.lo / 8 + 1)

/-- The aperture slot of a context whose access waits (R224). -/
def Ctx.apEntry (k : Ctx) : Option (Nat × SbEntry) :=
  match k.wait with
  | .aperture seq write lo hi => some (seq, ⟨write, lo, hi, []⟩)
  | _ => none

/-- The outstanding entries of earlier commands and accesses (R219, R224). -/
def Hearth.earlier (x : Hearth) (seq : Nat) : List SbEntry :=
  (x.cmds.filter fun c => c.seq < seq).flatMap (·.entries) ++
    (x.ctxs.toList.filterMap Ctx.apEntry).filterMap fun p => if p.1 < seq then some p.2 else none

def chunkReady (es : List SbEntry) (l : SbEntry) (c : Nat) : Bool :=
  es.all fun e => !(e.write && e.overlaps l && e.hasChunk c && !e.done.contains c)

def writeReady (es : List SbEntry) (l : SbEntry) : Bool := es.all fun e => e.write || !e.overlaps l

/-- An entry may touch all of its chunks. -/
def wholeReady (es : List SbEntry) (l : SbEntry) : Bool :=
  l.chunks.all (chunkReady es l) && (!l.write || writeReady es l)

/-- An entry may touch the bytes first … last. -/
def bytesReady (es : List SbEntry) (l : SbEntry) (first last : Nat) : Bool :=
  (List.range' (first / 512) (last / 512 - first / 512 + 1)).all (chunkReady es l) && (!l.write || writeReady es l)

/-- Some row of a window writes a byte of chunk `c`. -/
def WinOp.touches (w : WinOp) (c : Nat) : Bool :=
  (List.range w.rows).any fun r =>
    let a := w.a0 + r * w.pitch
    decide (a < 512 * c + 512) && decide (512 * c < a + w.len)

/-! ## Elements of a sort window (R187) -/

/-- Elements in a row of a window. -/
def WinOp.perRow (w : WinOp) (s : Nat) : Nat := w.len / s

/-- Address of element `i`. -/
def WinOp.elemAddr (w : WinOp) (s i : Nat) : Nat := w.a0 + i / w.perRow s * w.pitch + i % w.perRow s * s

/-- The rows that elements `first` to n − 1 take, as intervals [lo, hi). -/
def WinOp.elemRows (w : WinOp) (s n first : Nat) : List (Nat × Nat) :=
  let e := w.perRow s
  (List.range' (first / e) ((n + e - 1) / e - first / e)).map fun r =>
    let lo := if r = first / e then first % e else 0
    (w.a0 + r * w.pitch + lo * s, w.a0 + r * w.pitch + min e (n - r * e) * s)

/-- Some interval meets chunk `c`. -/
def ivsTouch (ivs : List (Nat × Nat)) (c : Nat) : Bool :=
  ivs.any fun iv => decide (iv.1 < 512 * c + 512) && decide (512 * c < iv.2)

/-- Some interval meets granule `g`. -/
def ivsGran (ivs : List (Nat × Nat)) (g : Nat) : Bool :=
  ivs.any fun iv => decide (iv.1 < 64 * g + 64) && decide (64 * g < iv.2)

/-- An interval [lo, hi) put into a list of intervals in rising order of lo. -/
def insertIv (a : Nat × Nat) : List (Nat × Nat) → List (Nat × Nat)
  | [] => [a]
  | b :: l => if a.1 ≤ b.1 then a :: b :: l else b :: insertIv a l

/-- Bytes covered by a list of intervals [lo, hi), each counted once (R213). -/
def unionLen (ivs : List (Nat × Nat)) : Nat :=
  ((ivs.foldr insertIv []).foldl (fun (a : Nat × Nat) iv => (max a.1 iv.2, a.2 + (max a.1 iv.2 - max a.1 iv.1))) (0, 0)).2

/-! ## Done bits (R220) -/

/-- Sets done bits of entry `i` of a command (R220). -/
def Cmd.markDone (c : Cmd) (i : Nat) (chunks : List Nat) : Cmd :=
  { c with entries := c.entries.zipIdx.map fun p => if p.2 = i then { p.1 with done := p.1.done ++ chunks } else p.1 }

/-- Sets every done bit of entry `i`. -/
def Cmd.allDone (c : Cmd) (i : Nat) : Cmd :=
  { c with entries := c.entries.zipIdx.map fun p => if p.2 = i then { p.1 with done := p.1.chunks } else p.1 }

/-- The command's operation and fields. -/
def Cmd.op (c : Cmd) : Option COp := cmdOp c.word
def Cmd.f (c : Cmd) : CmdF := CmdF.ofWord c.word
def Cmd.isFlag (c : Cmd) : Bool := bitsN c.word 8 4 == 5
def Cmd.isCopy (c : Cmd) : Bool := bitsN c.word 8 4 == 3 || bitsN c.word 8 4 == 4

/-- The image bytes that a vector store may write, as its guard or its mask predicate stands (R90, R161, R162). -/
def Cmd.storeSel (c : Cmd) (ps : Vector PReg 8) (b : Nat) : Bool :=
  let w := c.f.typ.width
  if c.op = some .vStm then (ps[c.f.p 2]).getLsbD b else enabled c.f ps w (b / (w / 8))

/-- Chunks in which a vector store writes a byte. -/
def Cmd.storeChunks (c : Cmd) (ps : Vector PReg 8) : List Nat :=
  let w := c.win 1
  ((List.range (min w.rows 16)).flatMap fun r => (List.range (min w.len 256)).filterMap fun q =>
    if c.storeSel ps (r * 256 + q) then some ((w.a0 + r * w.pitch + q) / 512) else none).eraseDups

/-- At its start, a writer sets the done bits of the chunks in which it writes no byte, as its operands determine, a guard and a
mask predicate among them (R220). The writers of the second list set all their bits at completion. `ps` are the predicate
registers of its context. -/
def Cmd.startBits (c : Cmd) (ps : Vector PReg 8) : Cmd :=
  let rows (i : Nat) (w : WinOp) (d : Cmd) : Cmd :=
    match d.entries[i]? with
    | some e => d.markDone i (e.chunks.filter fun k => !w.touches k)
    | none => d
  let elems (i pos s : Nat) (d : Cmd) : Cmd :=
    match d.entries[i]? with
    | some e => d.markDone i (e.chunks.filter fun k => !ivsTouch ((d.win pos).elemRows s (soCount .soSt c.f) 0) k)
    | none => d
  match c.op.getD .flNop with
  | .vSt | .vStm =>
    match c.entries[0]? with
    | some e => let ks := c.storeChunks ps; c.markDone 0 (e.chunks.filter fun k => !ks.contains k)
    | none => c
  | .mxDrain => rows 0 { c.win 0 with len := rowBytes c.f.typ, rows := 128 } c
  | .mxRdst => rows 0 { c.win 0 with len := 1024, rows := 1 } c
  | .soSt => elems 1 2 4 (elems 0 1 c.f.typ.bytes c)
  | .soSave => rows 0 { c.win 1 with len := 131136, rows := 1 } c
  | .cpLin | .cp2d => if c.f.imm18 2 = 0 then rows 0 (c.win 0) c else c
  | .cpFill | .cpXf => rows 0 (c.win 0) c
  | _ => c

/-! ## Register dependences (R89) -/

/-- Vector registers a command reads and writes, then predicate registers it reads and writes. -/
structure RegUse where
  vr : List Nat
  vw : List Nat
  pr : List Nat
  pw : List Nat
  deriving DecidableEq, Repr

def guardPreds (f : CmdF) : List Nat :=
  (if bit f.ga 4 then [bitsN f.ga 0 3] else []) ++ (if bit f.gb 4 then [bitsN f.gb 0 3] else [])

/-- Registers of a vector command, or of `so.topk`. The first operand is the destination, except for the stores. A
destination also counts as read, because disabled elements keep their value. -/
def regUse (o : COp) (f : CmdF) : RegUse :=
  let pays (k : Nat) (is : List Nat) : List Nat := is.filterMap fun i => if f.kind i = k then some (f.pay i) else none
  match o with
  | .vSt | .vStm | .vScat => ⟨pays 1 [0, 1, 2], [], pays 2 [0, 1, 2] ++ guardPreds f, []⟩
  | .vCvtef => ⟨pays 1 [1], pays 1 [0, 4], guardPreds f, []⟩
  | .soTopk => ⟨pays 1 [0, 1], pays 1 [0, 1], [], []⟩
  | _ => ⟨pays 1 [1, 2, 3, 4], pays 1 [0], pays 2 [1, 2, 3] ++ guardPreds f, pays 2 [0]⟩

def Cmd.regs (c : Cmd) : RegUse :=
  match c.op with
  | some o => if c.q == .vector && !c.isFlag || o == .soTopk then regUse o c.f else ⟨[], [], [], []⟩
  | none => ⟨[], [], [], []⟩

def meets (a b : List Nat) : Bool := a.any b.contains

/-- A later command waits for an earlier one of its context that writes what it reads, or that reads or writes what it
writes (R89). -/
def RegUse.waitsFor (l e : RegUse) : Bool :=
  meets l.vr e.vw || meets l.vw e.vr || meets l.vw e.vw || meets l.pr e.pw || meets l.pw e.pr || meets l.pw e.pw

/-! ## Bank and accumulator sets (R169, R175) -/

/-- All values of (base + i × step) mod m over bases of a list and i below n. -/
def stepSet (m : Nat) (bases : List Nat) (n : Nat) (step : Int) : List Nat :=
  (bases.flatMap fun (b : Nat) => (List.range (min n m)).map fun (i : Nat) => (((b : Int) + (i : Int) * step) % (m : Int)).toNat).eraseDups

def NestLevel.n (l : NestLevel) : Nat := if l.cnt = 0 then 1 else l.cnt.toNat

/-- Banks and accumulators that a nest touches. -/
def nestBanks (ls : List NestLevel) (b0 : Nat) : List Nat := ls.foldl (fun a l => stepSet 8 a l.n l.sb.toInt) [b0]
def nestAccs (ls : List NestLevel) (acc : Nat) : List Nat :=
  ((ls.foldl (fun a l => stepSet 1024 a l.n l.sc.toInt) [acc * 128]).map (· / 128)).eraseDups

structure MxUse where
  ar : List Nat
  aw : List Nat
  br : List Nat
  bw : List Nat
  deriving DecidableEq, Repr

/-- Accumulators and banks a matrix command reads and writes (R169, R177, R182). -/
def Cmd.mxUse (c : Cmd) : MxUse :=
  let f := c.f
  match c.op with
  | some .mxLdb => ⟨[], [], [], [f.pay 0]⟩
  | some .mxGo =>
    let as := nestAccs c.nest.toList (f.pay 2)
    ⟨as, as, nestBanks c.nest.toList (f.pay 1), []⟩
  | some .mxDrain =>
    let clr := bit (f.opd 3) 2
    if f.pay 3 % 4 = 2 then ⟨[f.pay 1, f.pay 2], f.pay 2 :: (if clr then [f.pay 1] else []), [], []⟩
    else ⟨[f.pay 1], if clr then [f.pay 1] else [], [], []⟩
  | some .mxZero | some .mxScale => ⟨[f.pay 0], [f.pay 0], [], []⟩
  | some .mxRdst => ⟨[f.pay 1 % 8], [], [], []⟩
  | _ => ⟨[], [], [], []⟩

def MxUse.conflicts (a b : MxUse) : Bool :=
  meets a.aw (b.ar ++ b.aw) || meets a.ar b.aw || meets a.bw (b.br ++ b.bw) || meets a.br b.bw

/-- Two matrix commands conflict (R169). -/
def Cmd.conflicts (c d : Cmd) : Bool :=
  c.mxUse.conflicts d.mxUse || c.entries.any fun e => d.entries.any fun l => e.overlaps l && (e.write || l.write)

/-- The path of a matrix command: load, array or drain (R168). -/
def Cmd.path (c : Cmd) : Nat :=
  match c.op with
  | some .mxCfg | some .mxLdb => 0
  | some .mxGo => 1
  | _ => 2

/-! ## Queues and issue arbitration (R40, R216) -/

/-- The queue of a word (R40, R94, R96). -/
def queueOf (w : CmdWord) : Queue :=
  match bitsN w 8 4 with
  | 0 => .vector
  | 1 => .matrix
  | 2 => .sort
  | 5 =>
    match bitsN w 222 2 with
    | 0 => .vector
    | 1 => .matrix
    | 2 => .sort
    | _ => .copy
  | _ => .copy

def Hearth.queueLen (x : Hearth) (q : Queue) : Nat := (x.cmds.filter fun c => c.q == q && c.stage == .queued).length

def Hearth.usedEntries (x : Hearth) : Nat := (x.cmds.map (·.entries.length)).sum

/-- A context that waits in `k.issue` with checks passed: its number, rank and word. -/
structure Cand where
  c : Fin 4
  rank : Nat
  need : Nat
  queue : Queue
  deriving DecidableEq, Repr

def Hearth.cand (x : Hearth) (c : Fin 4) : Option Cand :=
  match (x.ctx c).st, (x.ctx c).wait with
  | .waiting, .issue _ w ws rank =>
    let q := queueOf w
    if x.queueLen q < Config.queueDepth && (x.hob.step == none || x.hob.step == some c) then
      some ⟨c, rank, ((cmdOp w).map fun o => (cmdEntries o (CmdF.ofWord w) ws).length).getD 0, q⟩
    else none
  | _, _ => none

/-- Candidates ranked by the cycle of their checks, then by context number (R216). -/
def insertCand (a : Cand) : List Cand → List Cand
  | [] => [a]
  | b :: l => if b.rank ≤ a.rank then b :: insertCand a l else a :: b :: l

def Hearth.cands (x : Hearth) : List Cand :=
  ([0, 1, 2, 3].filterMap fun c : Fin 4 => x.cand c).foldl (fun l a => insertCand a l) []

/-- The candidate that is accepted: the first whose entries fit, none that needs entries overtaking one that is held for
lack of them (R216). -/
def choose (free : Nat) : List Cand → Bool → Option Cand
  | [], _ => none
  | a :: l, blocked =>
    if a.need = 0 || (!blocked && decide (a.need ≤ free)) then some a else choose free l true

/-- The source that an overflow of a command's signal names (R212). -/
def Cmd.src (c : Cmd) : FlagSrc := .cmd c.ctx c.seq c.slot c.run

/-- A trace record of a command (R284, R285). -/
def State.cmdTrace (s : State) (h : Fin 640) (c : Cmd) (kind v0 v1 : Nat) : BitVec 512 :=
  traceRecord s.tick kind h c.ctx c.slot c.seq v0 v1 ((s.hearth h).ctx c.ctx).rgn 0

/-- A hearth that Hob or a pre-emption stops, or that is saved, accepts and starts nothing (R281, R328). -/
def Hearth.idle (x : Hearth) : Bool := x.halted || x.halting

/-- The command that a word becomes as it is accepted. -/
def Hearth.newCmd (x : Hearth) (c : Fin 4) (slot : Nat) (w : CmdWord) (ws : Vector (Option WinOp) 5) : Cmd :=
  let k := x.ctx c
  { Cmd.empty with
    seq := x.nextSeq, ctx := c, slot := slot, word := w, q := queueOf w, stage := .queued, wins := ws, lmtrap := k.lmtrap,
    priv := k.mode == .machine, run := k.run, entries := ((cmdOp w).map fun o => cmdEntries o (CmdF.ofWord w) ws).getD [] }

/-- A word is accepted, but for its `SIG`: it enters its queue, takes the next sequence number and makes its entries; the context goes
on (R102, R173, R215). -/
def State.acceptWord (s : State) (l : Loc) (slot : Nat) (w : CmdWord) (ws : Vector (Option WinOp) 5) : State :=
  let x := s.hearth l.h
  let k := x.ctx l.c
  let f := CmdF.ofWord w
  let c := x.newCmd l.c slot w ws
  let b : Fin 8 := Fin.ofNat 8 (f.pay 0)
  let banks := if cmdOp w = some .mxLdb then x.banks.set b { x.banks[b] with issue := some f.typ } else x.banks
  let x1 := { x with nextSeq := x.nextSeq + 1, cmds := x.cmds ++ [c], banks := banks }
  let s1 := s.setHearth l.h (x1.setCtx l.c { k with st := .running, wait := .none }.retire)
  if f.traced then s1.traceOut l.h (s1.cmdTrace l.h c 0 0 0) else s1

/-- The `SIG` in mode 11 of a word that has been accepted (R92). -/
def State.acceptSignal (s : State) (h : Fin 640) (c : Cmd) : State :=
  if condMode c.f.sig = 3 then s.flagAdd h c.src (condFlag c.f.sig) (condT c.f.sig) none else s

/-- Acceptance of one word, its `SIG` in mode 11 included (R92, R102, R173, R215). -/
def State.acceptFrom (s : State) (l : Loc) (slot : Nat) (w : CmdWord) (ws : Vector (Option WinOp) 5) : State :=
  (s.acceptWord l slot w ws).acceptSignal l.h ((s.hearth l.h).newCmd l.c slot w ws)

/-- The context whose word is accepted, the word, its slot and its windows (R216, R223). A stopped or halted hearth accepts none
(R281, R328). -/
def Hearth.nextAccept (x : Hearth) : Option (Fin 4 × Nat × CmdWord × Vector (Option WinOp) 5) :=
  if x.hob.stopped || x.idle then none
  else
    match choose (Config.sbEntries - x.usedEntries) x.cands false with
    | none => none
    | some a =>
      match (x.ctx a.c).wait with
      | .issue slot w ws _ => some (a.c, slot, w, ws)
      | _ => none

/-- Accepts at most one command word of a hearth (R216, R223). -/
def State.tryAccept (s : State) (h : Fin 640) : State :=
  match (s.hearth h).nextAccept with
  | none => s
  | some (c, slot, w, ws) => s.acceptFrom ⟨h, c⟩ slot w ws

/-! ## Starting (R89, R91, R126, R168, R183, R197, R212, R214, R221) -/

/-- The `WAIT` of a word holds against the flag file as it stands (R91). -/
def waitHolds (x : Hearth) (w : BitVec 32) : Bool :=
  match condMode w with
  | 0 => true
  | _ => decide (condT w ≤ (x.flag (condFlag w)).toNat)

/-- The subtraction of a `WAIT` in mode 10 (R91). -/
def waitTake (x : Hearth) (w : BitVec 32) : Hearth :=
  if condMode w = 2 then
    let fl := condFlag w
    { x with flags := x.flags.set fl (x.flag fl - BitVec.ofNat 32 (condT w)) }
  else x

/-- The oldest command of a queue that has not left it. -/
def Hearth.queueHead (x : Hearth) (q : Queue) : Option Cmd := x.cmds.find? fun c => c.q == q && c.stage == .queued

def Hearth.cmd? (x : Hearth) (seq : Nat) : Option Cmd := x.cmds.find? fun c => c.seq == seq

/-- `SCHED.FENCE`: every command that the context issued earlier has completed, or a refusal has ended it (R94, R326). -/
def Hearth.fenceOk (x : Hearth) (c : Cmd) : Bool :=
  !c.f.fence || x.cmds.all fun d => !(d.ctx == c.ctx && decide (d.seq < c.seq) && !d.ended)

def Hearth.regsOk (x : Hearth) (c : Cmd) : Bool :=
  x.cmds.all fun d => !(d.ctx == c.ctx && decide (d.seq < c.seq) && c.regs.waitsFor d.regs)

/-- The whole-command scoreboard test (R221). -/
def Hearth.boardOk (x : Hearth) (c : Cmd) : Bool := c.entries.all (wholeReady (x.earlier c.seq))

/-- A sort command starts once the first chunk of each reader is ready, and as a writer after every earlier reader (R221). -/
def Hearth.sortBoardOk (x : Hearth) (c : Cmd) : Bool :=
  c.entries.all fun e => chunkReady (x.earlier c.seq) e (e.lo / 8) && (!e.write || writeReady (x.earlier c.seq) e)

/-- A matrix command in the window may start (R168). -/
def Hearth.mxEligible (x : Hearth) (c : Cmd) : Bool :=
  c.stage == .window && x.fenceOk c &&
  x.cmds.all (fun d => !(d.q == .matrix && !d.isFlag && d.stage == .started && !d.performed && d.path == c.path)) &&
  x.cmds.all (fun d => !(d.q == .matrix && !d.isFlag && decide (d.seq < c.seq) && c.conflicts d)) &&
  (c.op == some .mxGo || x.boardOk c)

/-- The copy engine is held: on a faulting read, or while the side log is full on a write that must be logged (R205). -/
def Hearth.copyHeld (x : Hearth) : Bool :=
  x.cmds.any fun c => c.stage == .started && (c.hold.isSome || (c.logWait && decide (Config.sideLogEntries ≤ x.sideLog.length)))

/-- A flag command of the queue has started and its update has not applied: the next command of the queue starts in a later cycle (R38,
R214). -/
def Hearth.flagUnderWay (x : Hearth) (q : Queue) : Bool := x.cmds.any fun d => d.isFlag && d.q == q && d.stage == .started

/-- A command may start now, its `WAIT` included. While a faulting read or a full side log holds the copy engine, no copy or
search command starts, and none takes its `WAIT`: R197 does not say so (DESIGN CHOICE, log entry 52). -/
def Hearth.mayStart (x : Hearth) (c : Cmd) : Bool :=
  if c.q == .matrix && !c.isFlag then
    x.mxEligible c && x.cmds.all fun d => !(d.q == .matrix && decide (d.seq < c.seq) && d.path == c.path && x.mxEligible d)
  else
    (x.queueHead c.q).map (·.seq) == some c.seq && waitHolds x c.f.wait && x.fenceOk c && !x.flagUnderWay c.q &&
    (match c.q with
      | .vector => c.isFlag || (x.regsOk c && x.boardOk c)
      | .matrix => true
      | .sort =>
        x.cmds.all (fun d => !(d.q == .sort && decide (d.seq < c.seq))) && (c.isFlag || (x.regsOk c && x.sortBoardOk c))
      | .copy =>
        c.isFlag || (decide ((x.cmds.filter fun d => d.isCopy && d.stage == .started && !d.ended).length < Config.copyInFlight) &&
          !x.copyHeld))

def Hearth.setCmd (x : Hearth) (c : Cmd) : Hearth := { x with cmds := x.cmds.map fun d => if d.seq = c.seq then c else d }

def Hearth.dropCmd (x : Hearth) (seq : Nat) : Hearth := { x with cmds := x.cmds.filter fun d => d.seq != seq }

/-! ## Failing and completing (R92, R199, R204) -/

/-- Updates of the flag file that a flag command makes, its `SIG` included (R212, R282). -/
def Cmd.flagUpdates (c : Cmd) : Nat :=
  (if c.op = some .flAdd || c.op = some .flSet then 1 else 0) + (if condMode c.f.sig = 1 || condMode c.f.sig = 2 then 1 else 0)

/-- The side log holds a write of a command (R205). -/
def Hearth.logged (x : Hearth) (seq : Nat) : Bool := x.sideLog.any fun e => e.seq == seq

/-- A failed command leaves once no write of it stands in the side log (R92, R199). -/
def Hearth.dropFailed (x : Hearth) : Hearth := { x with cmds := x.cmds.filter fun c => !c.failed || x.logged c.seq }

/-- A command ends by an error found after issue: it moves no further byte, its `SIG` is never applied, and its context takes
the trap. Writes that it has logged are performed as before, and it stays outstanding until they are (R92, R192, R199, R205). -/
def State.failCmd (s : State) (h : Fin 640) (c : Cmd) (cause detail : Nat) (htaddr : Word) : State :=
  let x := s.hearth h
  let d := { c with failed := true, performed := true, hold := none, logWait := false }
  let s1 := s.setHearth h ({ x with cmds := x.cmds.map (fun e : Cmd => if e.seq = c.seq then d else e), hand := d }).dropFailed
  s1.asyncTrap ⟨h, c.ctx⟩ c.run ⟨cause, asyncWord c.seq c.slot detail, htaddr⟩

/-- The classes of R38 among the completions of a cycle. -/
def Cmd.rank (c : Cmd) : Nat :=
  if c.isFlag then 0
  else match c.q with
    | .vector => 1
    | .matrix => 2
    | .sort => 3
    | .copy => 4

/-- Every effect of a command is visible (R92): it has performed, no entry of the side log is its own, and a stopped hearth
has room to hold its signal (R282). -/
def Hearth.mayComplete (x : Hearth) (c : Cmd) : Bool :=
  c.stage == .started && c.performed && !c.failed && !x.logged c.seq &&
    (condMode c.f.sig == 0 || condMode c.f.sig == 3 || x.heldRoom 1)

/-- Completion: status, `LENMIS`, the format latch of a loaded bank, the signal, the entries and the trace record
(R42, R92, R172, R204, R284). -/
def State.complete (s : State) (h : Fin 640) (c : Cmd) : State :=
  let x := s.hearth h
  let k := x.ctx c.ctx
  let k1 := if c.q == .vector || c.q == .matrix then k.orFpstat c.status else k
  let k2 := if c.lenmis then k1.setLenmis else k1
  let b : Fin 8 := Fin.ofNat 8 (c.f.pay 0)
  let banks := if c.op = some .mxLdb then x.banks.set b { x.banks[b] with latch := some c.f.typ } else x.banks
  let s1 := s.setHearth h (({ x.dropCmd c.seq with banks := banks }).setCtx c.ctx k2)
  let v := if c.op = some .cpXf then (c.xd, bitsN (c.desc.getD 0) 128 64) else (0, 0)
  let tr := if c.f.traced then some (s1.cmdTrace h c 1 v.1 v.2) else none
  let s2 :=
    match condMode c.f.sig with
    | 1 => s1.flagAdd h c.src (condFlag c.f.sig) (condT c.f.sig) tr
    | 2 => s1.flagAdd h c.src (condFlag c.f.sig) c.bytes tr
    | _ => match tr with
      | some r => s1.traceOut h r
      | none => s1
  if c.lenmis && c.lmtrap then s2.asyncTrap ⟨h, c.ctx⟩ c.run ⟨24, asyncWord c.seq c.slot 1, 0⟩ else s2

/-- No command that the context issued is outstanding; one that a refusal has ended counts as ended (R108, R326). -/
def Hearth.drained (x : Hearth) (c : Fin 4) : Bool := x.cmds.all fun d => d.ctx != c || d.ended

/-- No write that the context's commands have logged is still to be performed: no access of a record comes after its end (R108, R356). -/
def Hearth.settled (x : Hearth) (c : Fin 4) : Bool := x.cmds.all fun d => d.ctx != c

end Sys2Proof.Machine
end

