-- ==== Sys2Proof/Machine/Scalar.lean ====
section
/-! DEFINITION. The integer instructions, branches and jumps, fences and illegal instructions of the scalar core (R72, R75,
R76, R84). -/

namespace Sys2Proof.Machine

/-- The instruction word of a row with an encoding, for `mtval` (R327). -/
def wordOf (i : Instr) : Word := ((encodeRW i).map fun r => r.toWord.zeroExtend 64).getD 0

/-- The low 32 bits, sign-extended. -/
def sext32 (w : Word) : Word := (w.truncate 32).signExtend 64

/-- Number of leading zeros of the low `n` bits. -/
def clzN (n v : Nat) : Nat := n - bitLen (v % 2 ^ n)
def ctzN (n v : Nat) : Nat := (lowestSet n v 0).getD n

/-- A doubleword with its bytes in reverse order (Zbb). -/
def rev8 (a : Word) : Word := BitVec.ofNat 64 (leNat (leBytes 8 a.toNat).reverse)
/-- Each byte all ones when any bit of it is set (Zbb). -/
def orcb (a : Word) : Word := BitVec.ofNat 64 (leNat ((leBytes 8 a.toNat).map fun b => if b = 0 then 0#8 else 255#8))

def divS (w : Nat) (a b : BitVec w) : BitVec w := if b = 0 then BitVec.allOnes w else a.sdiv b
def remS (w : Nat) (a b : BitVec w) : BitVec w := if b = 0 then a else a.srem b
def divU (w : Nat) (a b : BitVec w) : BitVec w := if b = 0 then BitVec.allOnes w else a / b
def remU (w : Nat) (a b : BitVec w) : BitVec w := if b = 0 then a else a % b

/-- High half of a product of exact integers. -/
def mulHigh (x y : Int) : Word := BitVec.ofInt 64 (x * y / (2 ^ 64 : Nat))

/-- The register-register operations (R75, RISC-V). -/
def ropVal (op : ROp) (a b : Word) : Word :=
  let a32 := a.truncate 32
  let b32 := b.truncate 32
  let sh := b.toNat % 64
  let shw := b.toNat % 32
  match op with
  | .add => a + b
  | .sub => a - b
  | .sll => a <<< sh
  | .slt => if a.slt b then 1 else 0
  | .sltu => if a.ult b then 1 else 0
  | .xor => a ^^^ b
  | .srl => a >>> sh
  | .sra => a.sshiftRight sh
  | .or => a ||| b
  | .and => a &&& b
  | .addw => sext32 (a + b)
  | .subw => sext32 (a - b)
  | .sllw => (a32 <<< shw).signExtend 64
  | .srlw => (a32 >>> shw).signExtend 64
  | .sraw => (a32.sshiftRight shw).signExtend 64
  | .mul => a * b
  | .mulh => mulHigh a.toInt b.toInt
  | .mulhsu => mulHigh a.toInt b.toNat
  | .mulhu => mulHigh a.toNat b.toNat
  | .div => divS 64 a b
  | .divu => divU 64 a b
  | .rem => remS 64 a b
  | .remu => remU 64 a b
  | .mulw => sext32 (a * b)
  | .divw => (divS 32 a32 b32).signExtend 64
  | .divuw => (divU 32 a32 b32).signExtend 64
  | .remw => (remS 32 a32 b32).signExtend 64
  | .remuw => (remU 32 a32 b32).signExtend 64
  | .adduw => a32.zeroExtend 64 + b
  | .sh1add => (a <<< 1) + b
  | .sh2add => (a <<< 2) + b
  | .sh3add => (a <<< 3) + b
  | .sh1adduw => (a32.zeroExtend 64 <<< 1) + b
  | .sh2adduw => (a32.zeroExtend 64 <<< 2) + b
  | .sh3adduw => (a32.zeroExtend 64 <<< 3) + b
  | .andn => a &&& ~~~ b
  | .orn => a ||| ~~~ b
  | .xnor => ~~~ (a ^^^ b)
  | .max => if a.slt b then b else a
  | .maxu => if a.ult b then b else a
  | .min => if a.slt b then a else b
  | .minu => if a.ult b then a else b
  | .rol => a.rotateLeft sh
  | .ror => a.rotateRight sh
  | .rolw => (a32.rotateLeft shw).signExtend 64
  | .rorw => (a32.rotateRight shw).signExtend 64

/-- The register-immediate operations. -/
def iopVal (op : IOp) (a : Word) (imm : BitVec 12) : Word :=
  let i : Word := imm.signExtend 64
  match op with
  | .addi => a + i
  | .slti => if a.slt i then 1 else 0
  | .sltiu => if a.ult i then 1 else 0
  | .xori => a ^^^ i
  | .ori => a ||| i
  | .andi => a &&& i
  | .addiw => sext32 (a + i)

/-- The shifts by an immediate. -/
def shVal (op : ShOp) (a : Word) (n : Nat) : Word :=
  let a32 := a.truncate 32
  match op with
  | .slli => a <<< n
  | .srli => a >>> n
  | .srai => a.sshiftRight n
  | .slliw => (a32 <<< n).signExtend 64
  | .srliw => (a32 >>> n).signExtend 64
  | .sraiw => (a32.sshiftRight n).signExtend 64
  | .sllliuw => a32.zeroExtend 64 <<< n
  | .rori => a.rotateRight n
  | .roriw => (a32.rotateRight n).signExtend 64

/-- The one-operand operations of Zbb (R72). -/
def uopVal (op : UOp) (a : Word) : Word :=
  let n := a.toNat
  match op with
  | .clz => BitVec.ofNat 64 (clzN 64 n)
  | .ctz => BitVec.ofNat 64 (ctzN 64 n)
  | .cpop => BitVec.ofNat 64 (popCount 64 n)
  | .clzw => BitVec.ofNat 64 (clzN 32 n)
  | .ctzw => BitVec.ofNat 64 (ctzN 32 n)
  | .cpopw => BitVec.ofNat 64 (popCount 32 n)
  | .sextb => (a.truncate 8).signExtend 64
  | .sexth => (a.truncate 16).signExtend 64
  | .zexth => (a.truncate 16).zeroExtend 64
  | .orcb => orcb a
  | .rev8 => rev8 a

/-- The destination and the value of an integer instruction of a context. -/
def intResult (k : Ctx) : IntOp → XReg × Word
  | .rr op rd a b => (rd, ropVal op (k.get a) (k.get b))
  | .ri op rd a imm => (rd, iopVal op (k.get a) imm)
  | .sh op rd a n => (rd, shVal op (k.get a) n.toNat)
  | .un op rd a => (rd, uopVal op (k.get a))
  | .lui rd imm => (rd, (imm ++ 0#12).signExtend 64)
  | .auipc rd imm => (rd, k.pc + (imm ++ 0#12).signExtend 64)

/-- INTEGER_OP (R75). -/
def execIntegerOp (op : IntOp) (s : State) : Out :=
  let r := intResult s.fc op
  .next (s.retireWith r.1 r.2)

def brTaken (c : BrCond) (a b : Word) : Bool :=
  match c with
  | .eq => a == b
  | .ne => a != b
  | .lt => a.slt b
  | .ge => !a.slt b
  | .ltu => a.ult b
  | .geu => !a.ult b

/-- The next pc of a branch or jump, whether it is taken, and its link register. -/
def branchTarget (k : Ctx) : Branch → Bool × Word × XReg
  | .br c a b off => (brTaken c (k.get a) (k.get b), k.pc + off.signExtend 64, 0)
  | .jal rd off => (true, k.pc + off.signExtend 64, rd)
  | .jalr rd a off => (true, (k.get a + off.signExtend 64) &&& ~~~ (1#64), rd)

/-- BRANCH_JUMP (R76): a taken target that is not a multiple of 4 raises the instruction-address-misaligned exception at the
branch or jump, and no register changes. -/
def execBranchJump (b : Branch) (s : State) : Out :=
  let k := s.fc
  let t := branchTarget k b
  if !t.1 then .next s.retire
  else if t.2.1.toNat % 4 ≠ 0 then .next (s.trapHere 0 t.2.1)
  else .next (s.setFc { k.set t.2.2 (k.pc + 4) with pc := t.2.1, instret := k.instret + 1 })

/-- ILLEGAL_INSTRUCTION (R76, R84): the trap of an unassigned word, precise at the instruction. -/
def execIllegalInstruction (w : BitVec 32) (s : State) : Out := .next (s.trapHere 2 (w.zeroExtend 64))

/-- FENCE and FENCE.TSO (R76): no effect. -/
def execFence (_fm _pred _succ : BitVec 4) (_rs1 _rd : XReg) (s : State) : Out := .next s.retire

/-- FENCE.I (R76): no effect. -/
def execFenceI (_imm : BitVec 12) (_rs1 _rd : XReg) (s : State) : Out := .next s.retire

end Sys2Proof.Machine
end

