-- ==== Sys2Proof/Machine/LoadStore.lean ====
section
/-! DEFINITION. Ordinary loads and stores (R76, R224, R230, R239, R325). -/

namespace Sys2Proof

/-! ## Access widths (R75) -/

def LoadW.bytes : LoadW → Nat
  | .b | .bu => 1
  | .h | .hu => 2
  | .w | .wu => 4
  | .d => 8

def LoadW.extend (w : LoadW) (v : Nat) : Word :=
  match w with
  | .b => (BitVec.ofNat 8 v).signExtend 64
  | .h => (BitVec.ofNat 16 v).signExtend 64
  | .w => (BitVec.ofNat 32 v).signExtend 64
  | .d | .bu | .hu | .wu => BitVec.ofNat 64 v

def StoreW.bytes : StoreW → Nat
  | .b => 1
  | .h => 2
  | .w => 4
  | .d => 8

end Sys2Proof

namespace Sys2Proof.Machine

/-! ## The aperture gate (R224) -/

/-- The place of an aperture access in the sequence order: the one it holds already, or a new one. -/
def State.apSeq (s : State) : Nat :=
  match s.fc.wait with
  | .aperture seq _ _ _ => seq
  | _ => s.fh.nextSeq

/-- The context goes on running: a stall that held its instruction is over. -/
def State.resume (s : State) : State := s.setFc { s.fc with st := .running, wait := .none }

/-- The state in which an aperture access has its place in the sequence order. -/
def State.takeApSeq (s : State) : State :=
  match s.fc.wait with
  | .aperture _ _ _ _ => s
  | _ => s.setFh { s.fh with nextSeq := s.fh.nextSeq + 1 }

def apSb (write : Bool) (off n : Nat) : SbEntry := sbEntry write off (off + (n - 1))

/-- The scoreboard allows an aperture access of `n` bytes (R219, R224). -/
def State.apReady (s : State) (write : Bool) (off n : Nat) : Bool :=
  wholeReady (s.fh.earlier s.apSeq) (apSb write off n)

/-- The context waits with its access in the aperture slot. -/
def State.apWait (s : State) (write : Bool) (off n : Nat) : State :=
  let e := apSb write off n
  let t := s.takeApSeq
  t.setFc { t.fc with st := .waiting, wait := .aperture s.apSeq write e.lo e.hi }

/-! ## One access -/

def State.readPlace (s : State) (p : Place) (n : Nat) : List Byte :=
  match p with
  | .mem ks => s.memBytes ks
  | .aperture off => s.fh.scratch.bytes off n

/-- A write by the focus context, which leaves its own reservation (log entry 13). -/
def State.writePlace (s : State) (p : Place) (bs : List Byte) : State :=
  match p with
  | .mem ks => s.memStore ks bs (some s.foc)
  | .aperture off => s.setFh (s.fh.scratchStore off bs (some s.foc.c))

/-- One scalar access of `n` bytes at the focus: it traps, holds the context, waits for the scoreboard, or goes on with
`f` (R224, R325). -/
def State.access (s : State) (k : AccKind) (a : Word) (n : Nat) (f : State → Place → State) : State :=
  match s.resolve s.foc k a n with
  | .trap c => s.trapHere c a
  | .held c => s.hold s.foc ⟨c, a, false⟩
  | .ok (.mem ks) => f s.resume (.mem ks)
  | .ok (.aperture off) =>
    if s.apReady (k != .load) off n then f s.takeApSeq.resume (.aperture off) else s.apWait (k != .load) off n

/-- LOAD (R239). -/
def execLoad (wd : LoadW) (rd rs1 : XReg) (imm : BitVec 12) (s : State) : Out :=
  let a := s.fc.get rs1 + imm.signExtend 64
  .next (s.access .load a wd.bytes fun t p => t.retireWith rd (wd.extend (leNat (t.readPlace p wd.bytes))))

/-- STORE (R239): a store into instruction memory raises the access fault. -/
def execStore (wd : StoreW) (rs2 rs1 : XReg) (imm : BitVec 12) (s : State) : Out :=
  let a := s.fc.get rs1 + imm.signExtend 64
  let bs := leBytes wd.bytes (s.fc.get rs2).toNat
  .next (s.access .store a wd.bytes fun t p => (t.writePlace p bs).retire)

end Sys2Proof.Machine
end

