-- ==== Sys2Proof/Machine/XDecode.lean ====
section
/-! DEFINITION. The instructions of the transform core and their decoder: RV64IMC, the CSRs of the V extension, and its
integer, fixed-point, mask, permute and memory instructions (R77). R77 names those RISC-V specifications by name only, so
what follows from them is PRESUMED (log entry 15). -/

namespace Sys2Proof.Machine

/-! ## Syntax -/

/-- Where a vector instruction takes its first source from. -/
inductive VSrc where
  | v | x | i
  deriving DecidableEq, Repr

/-- Operations of one element width. -/
inductive VBin where
  | add | sub | rsub | minu | min | maxu | max | and | or | xor | sll | srl | sra
  | saddu | sadd | ssubu | ssub | aaddu | aadd | asubu | asub | smul | ssrl | ssra
  | divu | div | remu | rem | mulhu | mul | mulhsu | mulh
  deriving DecidableEq, Repr

inductive VCmp where
  | eq | ne | ltu | lt | leu | le | gtu | gt
  deriving DecidableEq, Repr

/-- Operations from twice the element width to the element width. -/
inductive VNar where
  | srl | sra | clipu | clip
  deriving DecidableEq, Repr

/-- Operations from the element width to twice it. -/
inductive VWid where
  | addu | add | subu | sub | mulu | mulsu | mul
  deriving DecidableEq, Repr

inductive VMac where
  | madd | nmsub | macc | nmsac
  deriving DecidableEq, Repr

inductive VWmac where
  | u | s | us | su
  deriving DecidableEq, Repr

inductive VRed where
  | sum | and | or | xor | minu | min | maxu | max
  deriving DecidableEq, Repr

inductive VLog where
  | andn | and | or | xor | orn | nand | nor | xnor
  deriving DecidableEq, Repr

/-- `sub` of `adc` and `madc` names the borrow forms; `wide` of `widen` the forms whose second source is wide already. -/
inductive VOp where
  | bin (o : VBin) | cmp (o : VCmp) | adc (sub : Bool) | madc (sub : Bool) | merge | narrow (o : VNar)
  | widen (o : VWid) (wide : Bool) | mac (o : VMac) | wmac (o : VWmac) | red (o : VRed) | wred (signed : Bool) | mlog (o : VLog)
  | gather | gather16 | slideup | slidedown | slide1up | slide1down | compress | wholeMove
  | ext (signed : Bool) (frac : Nat) | mvXS | mvSX | cpop | first | msbf | msof | msif | iota | vid
  deriving DecidableEq, Repr

/-- The operand fields of a vector arithmetic instruction; `vm` set is unmasked. -/
structure VArgs where
  src : VSrc
  vm : Bool
  vd : BitVec 5
  vs2 : BitVec 5
  vs1 : BitVec 5
  deriving DecidableEq, Repr

inductive VMode where
  | unit | unitFf | whole | mask | strided | indexed
  deriving DecidableEq, Repr

/-- A vector load or store: `nf` fields, the width of an element (of an index, when indexed). -/
structure VMem where
  store : Bool
  mode : VMode
  nf : Nat
  width : Nat
  vm : Bool
  vd : BitVec 5
  rs1 : XReg
  rs2 : XReg
  deriving DecidableEq, Repr

/-- `vsetvli` and `vsetivli` by immediates, `vsetvl` by registers. -/
inductive VSet where
  | vli (rd rs1 : XReg) (imm : BitVec 11)
  | ivli (rd : XReg) (avl : BitVec 5) (imm : BitVec 10)
  | vl (rd rs1 rs2 : XReg)
  deriving DecidableEq, Repr

inductive XInsn where
  | int (op : IntOp) | br (b : Branch) | load (w : LoadW) (rd rs1 : XReg) (imm : BitVec 12)
  | store (w : StoreW) (rs2 rs1 : XReg) (imm : BitVec 12) | fence | ecall | ebreak | csr (c : CsrI)
  | vset (v : VSet) | vmem (m : VMem) | varith (op : VOp) (a : VArgs)
  deriving DecidableEq, Repr

/-! ## The base instructions -/

/-- The register-register operations of RV64I and M. -/
def ropBase : ROp → Bool
  | .add | .sub | .sll | .slt | .sltu | .xor | .srl | .sra | .or | .and | .addw | .subw | .sllw | .srlw | .sraw
  | .mul | .mulh | .mulhsu | .mulhu | .div | .divu | .rem | .remu | .mulw | .divw | .divuw | .remw | .remuw => true
  | _ => false

def shBase : ShOp → Bool
  | .sllliuw | .rori | .roriw => false
  | _ => true

/-- The integer instructions that the transform core has: it has no Zba and no Zbb. -/
def intBase : IntOp → Bool
  | .rr op _ _ _ => ropBase op
  | .sh op _ _ _ => shBase op
  | .un _ _ _ => false
  | .ri _ _ _ _ | .lui _ _ | .auipc _ _ => true

/-- The CSRs of the V extension; no other CSR exists. -/
def xcsrs : List Nat := [0x008, 0x009, 0x00A, 0x00F, 0xC20, 0xC21, 0xC22]

def xBase (r : RW) : Option XInsn :=
  match decodeRW r with
  | some (.integerOp op) => if intBase op then some (.int op) else none
  | some (.branchJump b) => some (.br b)
  | some (.load w rd rs1 imm) => some (.load w rd rs1 imm)
  | some (.store w rs2 rs1 imm) => some (.store w rs2 rs1 imm)
  | some (.fence _ _ _ _ _) => some .fence
  | some .ecall => some .ecall
  | some .ebreak => some .ebreak
  | some (.csrAccess c) => if xcsrs.contains c.csr.toNat then some (.csr c) else none
  | _ => none

/-! ## Compressed instructions -/

/-- The registers x8 to x15 of a 3-bit field. -/
def creg (n : Nat) : XReg := Fin.ofNat 32 (8 + n % 8)
def cfull (n : Nat) : XReg := Fin.ofNat 32 n

/-- An immediate of `w` bits, gathered from the listed (position, width, place) fields of a halfword. -/
def cimm (h : BitVec 16) (l : List (Nat × Nat × Nat)) : Nat := (l.map fun p => bitsN h p.1 p.2.1 * 2 ^ p.2.2).sum

/-- A gathered immediate of `w` bits, sign-extended to `n`. -/
def cimmS (n w : Nat) (h : BitVec 16) (l : List (Nat × Nat × Nat)) : BitVec n := BitVec.ofInt n (toSigned w (cimm h l))

/-- Quadrant 0. -/
def xC0 (h : BitVec 16) : Option XInsn :=
  let rd := creg (bitsN h 2 3)
  let rs := creg (bitsN h 7 3)
  let w := cimm h [(10, 3, 3), (6, 1, 2), (5, 1, 6)]
  let d := cimm h [(10, 3, 3), (5, 2, 6)]
  match bitsN h 13 3 with
  | 0 =>
    let n := cimm h [(11, 2, 4), (7, 4, 6), (6, 1, 2), (5, 1, 3)]
    if n = 0 then none else some (.int (.ri .addi rd 2 (BitVec.ofNat 12 n)))
  | 2 => some (.load .w rd rs (BitVec.ofNat 12 w))
  | 3 => some (.load .d rd rs (BitVec.ofNat 12 d))
  | 6 => some (.store .w rd rs (BitVec.ofNat 12 w))
  | 7 => some (.store .d rd rs (BitVec.ofNat 12 d))
  | _ => none

/-- The arithmetic group of quadrant 1. -/
def xC1Arith (h : BitVec 16) : Option XInsn :=
  let rd := creg (bitsN h 7 3)
  let rs2 := creg (bitsN h 2 3)
  let amt : BitVec 6 := BitVec.ofNat 6 (cimm h [(2, 5, 0), (12, 1, 5)])
  let rr (op : ROp) : Option XInsn := some (.int (.rr op rd rd rs2))
  match bitsN h 10 2, bit h 12, bitsN h 5 2 with
  | 0, _, _ => some (.int (.sh .srli rd rd amt))
  | 1, _, _ => some (.int (.sh .srai rd rd amt))
  | 2, _, _ => some (.int (.ri .andi rd rd (cimmS 12 6 h [(2, 5, 0), (12, 1, 5)])))
  | _, false, 0 => rr .sub
  | _, false, 1 => rr .xor
  | _, false, 2 => rr .or
  | _, false, _ => rr .and
  | _, true, 0 => rr .subw
  | _, true, 1 => rr .addw
  | _, true, _ => none

/-- Quadrant 1. -/
def xC1 (h : BitVec 16) : Option XInsn :=
  let n := bitsN h 7 5
  let rd := cfull n
  let rs := creg (bitsN h 7 3)
  let i6 : BitVec 12 := cimmS 12 6 h [(2, 5, 0), (12, 1, 5)]
  let off : BitVec 13 := cimmS 13 9 h [(12, 1, 8), (10, 2, 3), (5, 2, 6), (3, 2, 1), (2, 1, 5)]
  match bitsN h 13 3 with
  | 0 => some (.int (.ri .addi rd rd i6))
  | 1 => if n = 0 then none else some (.int (.ri .addiw rd rd i6))
  | 2 => some (.int (.ri .addi rd 0 i6))
  | 3 =>
    if i6 = 0 then none
    else if n = 2 then some (.int (.ri .addi 2 2 (cimmS 12 10 h [(12, 1, 9), (6, 1, 4), (5, 1, 6), (3, 2, 7), (2, 1, 5)])))
    else some (.int (.lui rd (i6.signExtend 20)))
  | 4 => xC1Arith h
  | 5 => some (.br (.jal 0
      (cimmS 21 12 h [(12, 1, 11), (11, 1, 4), (9, 2, 8), (8, 1, 10), (7, 1, 6), (6, 1, 7), (3, 3, 1), (2, 1, 5)])))
  | 6 => some (.br (.br .eq rs 0 off))
  | _ => some (.br (.br .ne rs 0 off))

/-- Quadrant 2. -/
def xC2 (h : BitVec 16) : Option XInsn :=
  let n := bitsN h 7 5
  let m := bitsN h 2 5
  let rd := cfull n
  let rs2 := cfull m
  match bitsN h 13 3 with
  | 0 => some (.int (.sh .slli rd rd (BitVec.ofNat 6 (cimm h [(2, 5, 0), (12, 1, 5)]))))
  | 2 => if n = 0 then none else some (.load .w rd 2 (BitVec.ofNat 12 (cimm h [(12, 1, 5), (4, 3, 2), (2, 2, 6)])))
  | 3 => if n = 0 then none else some (.load .d rd 2 (BitVec.ofNat 12 (cimm h [(12, 1, 5), (5, 2, 3), (2, 3, 6)])))
  | 4 =>
    match bit h 12, decide (n = 0), decide (m = 0) with
    | false, true, true => none
    | false, false, true => some (.br (.jalr 0 rd 0))
    | false, _, false => some (.int (.rr .add rd 0 rs2))
    | true, true, true => some .ebreak
    | true, false, true => some (.br (.jalr 1 rd 0))
    | true, _, false => some (.int (.rr .add rd rd rs2))
  | 6 => some (.store .w rs2 2 (BitVec.ofNat 12 (cimm h [(9, 4, 2), (7, 2, 6)])))
  | 7 => some (.store .d rs2 2 (BitVec.ofNat 12 (cimm h [(10, 3, 3), (7, 3, 6)])))
  | _ => none

/-! ## Vector instructions -/

/-- The rows of OPIVV, OPIVX and OPIVI: funct6, the operation, and which of the three forms exist. -/
def vIntRows : List (Nat × VOp × Bool × Bool × Bool) :=
  [(0x00, .bin .add, true, true, true), (0x02, .bin .sub, true, true, false), (0x03, .bin .rsub, false, true, true),
   (0x04, .bin .minu, true, true, false), (0x05, .bin .min, true, true, false), (0x06, .bin .maxu, true, true, false),
   (0x07, .bin .max, true, true, false), (0x09, .bin .and, true, true, true), (0x0A, .bin .or, true, true, true),
   (0x0B, .bin .xor, true, true, true), (0x0C, .gather, true, true, true), (0x0E, .gather16, true, false, false),
   (0x0E, .slideup, false, true, true), (0x0F, .slidedown, false, true, true), (0x10, .adc false, true, true, true),
   (0x11, .madc false, true, true, true), (0x12, .adc true, true, true, false), (0x13, .madc true, true, true, false),
   (0x17, .merge, true, true, true), (0x18, .cmp .eq, true, true, true), (0x19, .cmp .ne, true, true, true),
   (0x1A, .cmp .ltu, true, true, false), (0x1B, .cmp .lt, true, true, false), (0x1C, .cmp .leu, true, true, true),
   (0x1D, .cmp .le, true, true, true), (0x1E, .cmp .gtu, false, true, true), (0x1F, .cmp .gt, false, true, true)] ++
  [(0x20, .bin .saddu, true, true, true), (0x21, .bin .sadd, true, true, true), (0x22, .bin .ssubu, true, true, false),
   (0x23, .bin .ssub, true, true, false), (0x25, .bin .sll, true, true, true), (0x27, .bin .smul, true, true, false),
   (0x27, .wholeMove, false, false, true), (0x28, .bin .srl, true, true, true), (0x29, .bin .sra, true, true, true),
   (0x2A, .bin .ssrl, true, true, true), (0x2B, .bin .ssra, true, true, true), (0x2C, .narrow .srl, true, true, true),
   (0x2D, .narrow .sra, true, true, true), (0x2E, .narrow .clipu, true, true, true), (0x2F, .narrow .clip, true, true, true),
   (0x30, .wred false, true, false, false), (0x31, .wred true, true, false, false)]

/-- The rows of OPMVV and OPMVX: funct6, the operation, and which of the two forms exist. -/
def vMulRows : List (Nat × VOp × Bool × Bool) :=
  [(0x00, .red .sum, true, false), (0x01, .red .and, true, false), (0x02, .red .or, true, false),
   (0x03, .red .xor, true, false), (0x04, .red .minu, true, false), (0x05, .red .min, true, false),
   (0x06, .red .maxu, true, false), (0x07, .red .max, true, false), (0x08, .bin .aaddu, true, true),
   (0x09, .bin .aadd, true, true), (0x0A, .bin .asubu, true, true), (0x0B, .bin .asub, true, true),
   (0x0E, .slide1up, false, true), (0x0F, .slide1down, false, true), (0x17, .compress, true, false),
   (0x18, .mlog .andn, true, false), (0x19, .mlog .and, true, false), (0x1A, .mlog .or, true, false),
   (0x1B, .mlog .xor, true, false), (0x1C, .mlog .orn, true, false), (0x1D, .mlog .nand, true, false),
   (0x1E, .mlog .nor, true, false), (0x1F, .mlog .xnor, true, false)] ++
  [(0x20, .bin .divu, true, true), (0x21, .bin .div, true, true), (0x22, .bin .remu, true, true), (0x23, .bin .rem, true, true),
   (0x24, .bin .mulhu, true, true), (0x25, .bin .mul, true, true), (0x26, .bin .mulhsu, true, true),
   (0x27, .bin .mulh, true, true), (0x29, .mac .madd, true, true), (0x2B, .mac .nmsub, true, true),
   (0x2D, .mac .macc, true, true), (0x2F, .mac .nmsac, true, true), (0x30, .widen .addu false, true, true),
   (0x31, .widen .add false, true, true), (0x32, .widen .subu false, true, true), (0x33, .widen .sub false, true, true),
   (0x34, .widen .addu true, true, true), (0x35, .widen .add true, true, true), (0x36, .widen .subu true, true, true),
   (0x37, .widen .sub true, true, true), (0x38, .widen .mulu false, true, true), (0x3A, .widen .mulsu false, true, true),
   (0x3B, .widen .mul false, true, true), (0x3C, .wmac .u, true, true), (0x3D, .wmac .s, true, true),
   (0x3E, .wmac .us, false, true), (0x3F, .wmac .su, true, true)]

/-- The rows that the vs1 field tells apart: VWXUNARY0, VXUNARY0 and VMUNARY0. -/
def vUnaryRows : List (Nat × Nat × VOp) :=
  [(0x10, 0x00, .mvXS), (0x10, 0x10, .cpop), (0x10, 0x11, .first), (0x12, 0x02, .ext false 8), (0x12, 0x03, .ext true 8),
   (0x12, 0x04, .ext false 4), (0x12, 0x05, .ext true 4), (0x12, 0x06, .ext false 2), (0x12, 0x07, .ext true 2),
   (0x14, 0x01, .msbf), (0x14, 0x02, .msof), (0x14, 0x03, .msif), (0x14, 0x10, .iota), (0x14, 0x11, .vid)]

/-- The operation of OP-V by funct3, funct6 and the vs1 and vs2 fields. -/
def vOpOf (f3 f6 vs1 vs2 : Nat) : Option (VSrc × VOp) :=
  match f3 with
  | 0 => (vIntRows.find? fun r => r.1 == f6 && r.2.2.1).map fun r => (.v, r.2.1)
  | 3 => (vIntRows.find? fun r => r.1 == f6 && r.2.2.2.2).map fun r => (.i, r.2.1)
  | 4 => (vIntRows.find? fun r => r.1 == f6 && r.2.2.2.1).map fun r => (.x, r.2.1)
  | 2 =>
    match vUnaryRows.find? fun r => r.1 == f6 && r.2.1 == vs1 with
    | some r => some (.v, r.2.2)
    | none => (vMulRows.find? fun r => r.1 == f6 && r.2.2.1).map fun r => (.v, r.2.1)
  | 6 =>
    if f6 = 0x10 then (if vs2 = 0 then some (.x, .mvSX) else none)
    else (vMulRows.find? fun r => r.1 == f6 && r.2.2.2).map fun r => (.x, r.2.1)
  | _ => none

/-- OP-V. -/
def xVector (r : RW) : Option XInsn :=
  let vm := r.f7.getLsbD 0
  let f6 := (r.f7.extractLsb' 1 6).toNat
  if r.f3 = 7 then
    if r.f7.getLsbD 6 = false then some (.vset (.vli (xr r.rd) (xr r.rs1) (r.immI.truncate 11)))
    else if r.f7.getLsbD 5 then some (.vset (.ivli (xr r.rd) r.rs1 (r.immI.truncate 10)))
    else if r.f7 = 0b1000000 then some (.vset (.vl (xr r.rd) (xr r.rs1) (xr r.rs2)))
    else none
  else (vOpOf r.f3.toNat f6 r.rs1.toNat r.rs2.toNat).map fun p => .varith p.2 ⟨p.1, vm, r.rd, r.rs2, r.rs1⟩

/-- The width of a vector load or store, none for the widths of the absent F and D. -/
def vWidth : Nat → Option Nat
  | 0 => some 8 | 5 => some 16 | 6 => some 32 | 7 => some 64 | _ => none

/-- The mode of a vector load or store, by mop and the lumop or sumop field. -/
def vModeOf (store vm : Bool) (nf mop lumop width : Nat) : Option VMode :=
  match mop with
  | 0 =>
    match lumop with
    | 0x00 => some .unit
    | 0x08 => if vm && [1, 2, 4, 8].contains nf && (!store || width == 8) then some .whole else none
    | 0x0B => if vm && nf == 1 && width == 8 then some .mask else none
    | 0x10 => if store then none else some .unitFf
    | _ => none
  | 2 => some .strided
  | _ => some .indexed

/-- LOAD-FP and STORE-FP: the vector loads and stores. -/
def xVMem (store : Bool) (r : RW) : Option XInsn :=
  let nf := (r.f7.extractLsb' 4 3).toNat + 1
  let vm := r.f7.getLsbD 0
  if r.f7.getLsbD 3 then none
  else
    match vWidth r.f3.toNat with
    | none => none
    | some w => (vModeOf store vm nf (r.f7.extractLsb' 1 2).toNat r.rs2.toNat w).map fun m =>
        .vmem ⟨store, m, nf, w, vm, r.rd, xr r.rs1, xr r.rs2⟩

/-! ## The decoder -/

/-- The instruction at the low end of a word, with its length in bytes; none is the illegal-instruction trap (R77). -/
def xDecode (w : W32) : Option (XInsn × Nat) :=
  let h : BitVec 16 := w.truncate 16
  match bitsN w 0 2 with
  | 0 => (xC0 h).map fun i => (i, 2)
  | 1 => (xC1 h).map fun i => (i, 2)
  | 2 => (xC2 h).map fun i => (i, 2)
  | _ =>
    let r := RW.ofWord w
    (match r.opc.toNat with
      | 0x57 => xVector r
      | 0x07 => xVMem false r
      | 0x27 => xVMem true r
      | _ => xBase r).map fun i => (i, 4)

end Sys2Proof.Machine
end

