-- ==== Sys2Proof/Machine/CoreDecode.lean ====
section
/-! DEFINITION. The instructions of a service core and their decoder: RV64GC in M, S and U modes (R78). R78 names the RISC-V
specifications by name only, so what follows from them is PRESUMED (log entry 68). -/

namespace Sys2Proof.Machine

/-! ## Syntax -/

/-- Operations of the F and D extensions. `toInt` and `ofInt` say whether the integer is unsigned and whether it has 64 bits. -/
inductive FpOp where
  | add | sub | mul | div | sqrt | sgnj | sgnjn | sgnjx | min | max | eq | lt | le | cls
  | toInt (uns long : Bool) | ofInt (uns long : Bool) | cvt | mvToX | mvToF
  deriving DecidableEq, Repr

/-- `dbl` is the D form. In a fused multiply-add, `np` negates the product and `nc` the addend. -/
inductive CoreInsn where
  | int (op : IntOp) | br (b : Branch) | load (w : LoadW) (rd rs1 : XReg) (imm : BitVec 12)
  | store (w : StoreW) (rs2 rs1 : XReg) (imm : BitVec 12) | fence | amo (a : Amo) | csr (c : CsrI)
  | ecall | ebreak | mret | sret | wfi | sfence
  | fload (dbl : Bool) (rd rs1 : XReg) (imm : BitVec 12) | fstore (dbl : Bool) (rs2 rs1 : XReg) (imm : BitVec 12)
  | fp (op : FpOp) (dbl : Bool) (rm : BitVec 3) (rd rs1 rs2 : XReg)
  | fma (np nc dbl : Bool) (rm : BitVec 3) (rd rs1 rs2 rs3 : XReg)
  deriving DecidableEq, Repr

/-! ## The decoder -/

/-- The base instructions, the A extension, and the system instructions that a hearth's core shares. -/
def coreBase (r : RW) : Option CoreInsn :=
  match decodeRW r with
  | some (.integerOp op) => if intBase op then some (.int op) else none
  | some (.branchJump b) => some (.br b)
  | some (.load w rd rs1 imm) => some (.load w rd rs1 imm)
  | some (.store w rs2 rs1 imm) => some (.store w rs2 rs1 imm)
  | some (.fence _ _ _ _ _) => some .fence
  | some (.fenceI _ _ _) => some .fence
  | some (.amo a) => some (.amo a)
  | some (.csrAccess c) => some (.csr c)
  | some .ecall => some .ecall
  | some .ebreak => some .ebreak
  | some .mret => some .mret
  | some .wfi => some .wfi
  | _ => none

/-- SYSTEM: the returns and fences of S mode stand beside the others. -/
def coreSystem (r : RW) : Option CoreInsn :=
  if r.f3 = 0 && r.f7 = 0b0001000 && r.rs2 = 2 && r.rs1 = 0 && r.rd = 0 then some .sret
  else if r.f3 = 0 && r.f7 = 0b0001001 && r.rd = 0 then some .sfence
  else coreBase r

/-- A rounding-mode field that an instruction may hold: static 0 to 4, or dynamic. -/
def rmField (rm : BitVec 3) : Bool := decide (rm.toNat ≤ 4) || rm == 7

/-- OP-FP by funct5, and the rm and rs2 fields. -/
def fpOpOf (f5 : Nat) (rm : BitVec 3) (rs2 fmt : Nat) : Option FpOp :=
  let rounded (o : FpOp) : Option FpOp := if rmField rm then some o else none
  let conv (f : Bool → Bool → FpOp) : Option FpOp := if rs2 < 4 then rounded (f (rs2 % 2 == 1) (rs2 / 2 == 1)) else none
  match f5 with
  | 0x00 => rounded .add
  | 0x01 => rounded .sub
  | 0x02 => rounded .mul
  | 0x03 => rounded .div
  | 0x0B => if rs2 = 0 then rounded .sqrt else none
  | 0x04 => match rm.toNat with
    | 0 => some .sgnj
    | 1 => some .sgnjn
    | 2 => some .sgnjx
    | _ => none
  | 0x05 => match rm.toNat with
    | 0 => some .min
    | 1 => some .max
    | _ => none
  | 0x08 => if rs2 = 1 - fmt then rounded .cvt else none
  | 0x14 => match rm.toNat with
    | 0 => some .le
    | 1 => some .lt
    | 2 => some .eq
    | _ => none
  | 0x18 => conv .toInt
  | 0x1A => conv .ofInt
  | 0x1C => if rs2 ≠ 0 then none else match rm.toNat with
    | 0 => some .mvToX
    | 1 => some .cls
    | _ => none
  | 0x1E => if rs2 = 0 && rm = 0 then some .mvToF else none
  | _ => none

/-- OP-FP and the fused forms; formats other than S and D are absent. -/
def coreFp (r : RW) : Option CoreInsn :=
  let fmt := (r.f7.extractLsb' 0 2).toNat
  let f5 := r.f7.extractLsb' 2 5
  let d := fmt == 1
  let fma (np nc : Bool) : Option CoreInsn :=
    if rmField r.f3 then some (.fma np nc d r.f3 (xr r.rd) (xr r.rs1) (xr r.rs2) (xr f5)) else none
  if 2 ≤ fmt then none
  else match r.opc.toNat with
  | 0x43 => fma false false
  | 0x47 => fma false true
  | 0x4B => fma true false
  | 0x4F => fma true true
  | _ => (fpOpOf f5.toNat r.f3 r.rs2.toNat fmt).map fun o => .fp o d r.f3 (xr r.rd) (xr r.rs1) (xr r.rs2)

/-- LOAD-FP and STORE-FP. -/
def coreFpMem (store : Bool) (r : RW) : Option CoreInsn :=
  if r.f3 ≠ 2 && r.f3 ≠ 3 then none
  else if store then some (.fstore (r.f3 == 3) (xr r.rs2) (xr r.rs1) r.immS)
  else some (.fload (r.f3 == 3) (xr r.rd) (xr r.rs1) r.immI)

/-- A compressed instruction of the base set. -/
def CoreInsn.ofX : XInsn → Option CoreInsn
  | .int op => some (.int op)
  | .br b => some (.br b)
  | .load w rd rs1 imm => some (.load w rd rs1 imm)
  | .store w rs2 rs1 imm => some (.store w rs2 rs1 imm)
  | .ebreak => some .ebreak
  | _ => none

/-- The compressed loads and stores of D. -/
def coreCFp (h : BitVec 16) : Option CoreInsn :=
  let d : BitVec 12 := BitVec.ofNat 12 (cimm h [(10, 3, 3), (5, 2, 6)])
  match bitsN h 0 2, bitsN h 13 3 with
  | 0, 1 => some (.fload true (creg (bitsN h 2 3)) (creg (bitsN h 7 3)) d)
  | 0, 5 => some (.fstore true (creg (bitsN h 2 3)) (creg (bitsN h 7 3)) d)
  | 2, 1 => some (.fload true (cfull (bitsN h 7 5)) 2 (BitVec.ofNat 12 (cimm h [(12, 1, 5), (5, 2, 3), (2, 3, 6)])))
  | 2, 5 => some (.fstore true (cfull (bitsN h 2 5)) 2 (BitVec.ofNat 12 (cimm h [(10, 3, 3), (7, 3, 6)])))
  | _, _ => none

/-- The instruction at the low end of a word, with its length in bytes; none is the illegal-instruction trap. -/
def coreDecode (w : W32) : Option (CoreInsn × Nat) :=
  let h : BitVec 16 := w.truncate 16
  let c (x : Option XInsn) : Option (CoreInsn × Nat) := (coreCFp h <|> x.bind CoreInsn.ofX).map fun i => (i, 2)
  match bitsN w 0 2 with
  | 0 => c (xC0 h)
  | 1 => c (xC1 h)
  | 2 => c (xC2 h)
  | _ =>
    let r := RW.ofWord w
    (match r.opc.toNat with
      | 0x07 => coreFpMem false r
      | 0x27 => coreFpMem true r
      | 0x43 | 0x47 | 0x4B | 0x4F | 0x53 => coreFp r
      | 0x73 => coreSystem r
      | _ => coreBase r).map fun i => (i, 4)

end Sys2Proof.Machine
end

