-- ==== Sys2Proof/Machine/CoreFp.lean ====
section
/-! DEFINITION. The floating-point arithmetic of a service core (R78): the F and D extensions of RISC-V, over the exact values of
Num.lean (PRESUMED, log entry 68). -/

namespace Sys2Proof.Machine

/-! ## Formats -/

def Fmt.fp64 : Fmt := ⟨11, 52, 1023, true, 0x7FEFFFFFFFFFFFFF, 0x7FF8000000000000⟩

def fpFmt (dbl : Bool) : Fmt := if dbl then .fp64 else .fp32

/-- The pattern of a register as an operand: a single must be NaN-boxed, and is the canonical NaN where it is not. -/
def fpIn (dbl : Bool) (w : Word) : Nat :=
  if dbl then w.toNat else if bitsN w 32 32 = 0xFFFFFFFF then bitsN w 0 32 else Fmt.fp32.nan

/-- A result as a register holds it. -/
def fpOut (dbl : Bool) (n : Nat) : Word := if dbl then BitVec.ofNat 64 n else BitVec.ofNat 64 (n % 2 ^ 32 + 0xFFFFFFFF00000000)

/-- A signaling NaN. -/
def Fmt.isSnan (f : Fmt) (n : Nat) : Bool := f.isNan n && n / 2 ^ (f.mbits - 1) % 2 = 0

/-- fflags of a status: NV, DZ, OF, UF and NX from bit 4 down. -/
def fpFlags (st : St) (dz : Bool) : BitVec 5 :=
  BitVec.ofBool (st.getLsbD 3) ++ BitVec.ofBool dz ++ st.extractLsb' 0 3

/-- A result with its flags. -/
abbrev FpRes := Nat × BitVec 5

/-! ## Arithmetic -/

def FVal.isNeg : FVal → Bool
  | .fin n _ _ => n
  | .inf n => n
  | .nan => false

/-- The quotient of two values, rounded once; a finite number over zero is an infinity with DZ. -/
def Fmt.divide (f : Fmt) (rm : Rm) (a b : FVal) : FpRes :=
  let neg := a.isNeg != b.isNeg
  match a, b with
  | .nan, _ | _, .nan => (f.nan, 0)
  | .inf _, .inf _ => (f.nan, fpFlags St.nv false)
  | .inf _, .fin _ _ _ => (f.signed neg f.inf, 0)
  | .fin _ _ _, .inf _ => (f.signed neg 0, 0)
  | .fin _ m e, .fin _ n g =>
    if n = 0 then (if m = 0 then (f.nan, fpFlags St.nv false) else (f.signed neg f.inf, fpFlags 0 true))
    else
      let k := bitLen n + 130
      let r := f.round rm false neg (m * 2 ^ k / n) (e - g - k) (decide (m * 2 ^ k % n ≠ 0))
      (r.1, fpFlags r.2 false)

/-- The square root, rounded once. -/
def Fmt.root (f : Fmt) (rm : Rm) (a : FVal) : FpRes :=
  match a with
  | .nan => (f.nan, 0)
  | .inf neg => if neg then (f.nan, fpFlags St.nv false) else (f.inf, 0)
  | .fin neg m e =>
    if m = 0 then (f.signed neg 0, 0)
    else if neg then (f.nan, fpFlags St.nv false)
    else
      let m2 := if e % 2 = 0 then m else 2 * m
      let e2 := if e % 2 = 0 then e else e - 1
      let q := isqrt (m2 * 2 ^ 260)
      let r := f.round rm false false q (e2 / 2 - 130) (decide (q * q ≠ m2 * 2 ^ 260))
      (r.1, fpFlags r.2 false)

/-- The lesser or the greater of two patterns; −0 lies below +0, and a NaN loses. -/
def Fmt.pickMin (f : Fmt) (max : Bool) (a b : Nat) : Nat :=
  let x := f.decode a
  let y := f.decode b
  let less := x.lt y || (x.eq y && x.isNeg && !y.isNeg)
  if x.isNan && y.isNan then f.nan
  else if x.isNan then b
  else if y.isNan then a
  else if less != max then a else b

/-- The class of a pattern, one bit of ten. -/
def Fmt.classOf (f : Fmt) (a : Nat) : Nat :=
  match f.decode a with
  | .nan => if f.isSnan a then 2 ^ 8 else 2 ^ 9
  | .inf neg => if neg then 1 else 2 ^ 7
  | .fin neg m _ =>
    let place := if m = 0 then 3 else if m < 2 ^ f.mbits then 2 else 1
    2 ^ (if neg then place else 7 - place)

/-- A conversion to an integer of `w` bits: out of range it saturates, a NaN to the largest, with NV. -/
def fpToInt (rm : Rm) (uns : Bool) (w : Nat) (v : FVal) : Int × BitVec 5 :=
  let lo : Int := if uns then 0 else -(2 ^ (w - 1) : Nat)
  let hi : Int := if uns then (2 ^ w : Nat) - 1 else (2 ^ (w - 1) : Nat) - 1
  match v with
  | .nan => (hi, fpFlags St.nv false)
  | .inf neg => (if neg then lo else hi, fpFlags St.nv false)
  | .fin neg m e =>
    let r := roundUnit rm neg m e 0 false
    let n := signedNat neg r.1
    if n < lo then (lo, fpFlags St.nv false)
    else if hi < n then (hi, fpFlags St.nv false)
    else (n, if r.2 then fpFlags St.nx false else 0)

/-- A value rounded once to a format. -/
def Fmt.fpOf (f : Fmt) (rm : Rm) (x : FVal × Bool) : FpRes :=
  let r := f.result rm false x
  (r.1, fpFlags r.2 false)

/-- The fused product and sum; an invalid product raises NV beside a NaN addend too. -/
def Fmt.fused (f : Fmt) (rm : Rm) (np nc : Bool) (a b c : Nat) : FpRes :=
  let x := f.decode a
  let y := if np then (f.decode b).neg else f.decode b
  let z := if nc then (f.decode c).neg else f.decode c
  let r := f.fpOf rm (FVal.fma rm x y z)
  let bad := (FVal.mul x y).2 || f.isSnan a || f.isSnan b || f.isSnan c
  (r.1, r.2 ||| (if bad then 16 else 0))

/-- The result of an operation that answers a floating-point register, from its operands' patterns and, of `ofInt` and `mvToF`, the
integer register. -/
def fpToF (op : FpOp) (dbl : Bool) (rm : Rm) (a b : Nat) (other : Nat) (x : Word) : FpRes :=
  let f := fpFmt dbl
  let u := f.decode a
  let v := f.decode b
  let snan (r : FpRes) : FpRes := (r.1, r.2 ||| (if f.isSnan a || f.isSnan b then 16 else 0))
  let sign (n : Bool) : FpRes := (f.signed n (a % f.signBit), 0)
  let neg (n : Nat) : Bool := n / f.signBit % 2 == 1
  match op with
  | .add => snan (f.fpOf rm (FVal.add rm u v))
  | .sub => snan (f.fpOf rm (FVal.add rm u v.neg))
  | .mul => snan (f.fpOf rm (FVal.mul u v))
  | .div => snan (f.divide rm u v)
  | .sqrt => let r := f.root rm u; (r.1, r.2 ||| (if f.isSnan a then 16 else 0))
  | .sgnj => sign (neg b)
  | .sgnjn => sign (!neg b)
  | .sgnjx => sign (neg a != neg b)
  | .min => snan (f.pickMin false a b, 0)
  | .max => snan (f.pickMin true a b, 0)
  | .cvt =>
    let g := fpFmt (!dbl)
    let r := f.fpOf rm (g.decode other, false)
    (r.1, r.2 ||| (if g.isSnan other then 16 else 0))
  | .ofInt uns long =>
    let n : Int := if uns then (if long then x.toNat else bitsN x 0 32) else (if long then x.toInt else toSigned 32 (bitsN x 0 32))
    f.fpOf rm (.fin (decide (n < 0)) n.natAbs 0, false)
  | _ => (x.toNat % 2 ^ f.width, 0)

/-- The result of an operation that answers an integer register. -/
def fpToX (op : FpOp) (dbl : Bool) (rm : Rm) (a b : Nat) (raw : Word) : Word × BitVec 5 :=
  let f := fpFmt dbl
  let u := f.decode a
  let v := f.decode b
  let nan := u.isNan || v.isNan
  let snan := f.isSnan a || f.isSnan b
  let cmp (r nv : Bool) : Word × BitVec 5 := (if r then 1 else 0, if nv then 16 else 0)
  match op with
  | .eq => cmp (u.eq v) snan
  | .lt => cmp (u.lt v) nan
  | .le => cmp (!nan && !(v.lt u)) nan
  | .cls => (BitVec.ofNat 64 (f.classOf a), 0)
  | .toInt uns long =>
    let r := fpToInt rm uns (if long then 64 else 32) u
    (if long then BitVec.ofInt 64 r.1 else (BitVec.ofInt 32 r.1).signExtend 64, r.2)
  | _ => (if dbl then raw else (raw.truncate 32 : W32).signExtend 64, 0)

/-- The operation answers an integer register. -/
def FpOp.toX : FpOp → Bool
  | .eq | .lt | .le | .cls | .toInt _ _ | .mvToX => true
  | _ => false

end Sys2Proof.Machine
end

