-- ==== Sys2Proof/Machine/Atomic.lean ====
section
/-! DEFINITION. Atomics: the A extension (R76, R234), the cluster-scope atomics (R120, R233) and the group operations
(R114, R115). -/

namespace Sys2Proof.Machine

/-- The line of 128 bytes that a place starts on (R76, R234). -/
def Place.line : Place → Bool × Nat
  | .mem ks => (false, ks.headD 0 / 128)
  | .aperture off => (true, off / 128)

/-- An atomic access of `n` bytes: a misaligned one raises the access fault at once (R76, R120). One that is not canonical either raises
trap 27 instead: the spec does not say which goes first (DESIGN CHOICE, log entry 75). -/
def State.atomic (s : State) (k : AccKind) (a : Word) (n : Nat) (f : State → Place → State) : State :=
  if canonical a && a.toNat % n ≠ 0 then s.trapHere k.accessFault a else s.access k a n f

/-- The new value of an AMO on the low `w` bits. -/
def amoVal (op : AmoOp) (w : Nat) (old x : BitVec w) : BitVec w :=
  match op with
  | .swap => x
  | .add => old + x
  | .xor => old ^^^ x
  | .and => old &&& x
  | .or => old ||| x
  | .min => if old.slt x then old else x
  | .max => if old.slt x then x else old
  | .minu => if old.ult x then old else x
  | .maxu => if old.ult x then x else old
  | .lr | .sc => old

/-- An atomic's old value, sign-extended to the register. -/
def amoOld (w v : Nat) : Word := (BitVec.ofNat w v).signExtend 64

/-- AMO (R234). The result of an SC is one that record mode keeps and a replay forces (R288). -/
def execAmo (a : Amo) (s : State) : Out :=
  let n := if a.dw then 8 else 4
  let w := 8 * n
  let addr := s.fc.get a.rs1
  let x := s.fc.get a.rs2
  .next <|
    match a.op with
    | .lr => s.atomic .load addr n fun t p =>
        let old := leNat (t.readPlace p n)
        (t.setFc { t.fc with resv := some p.line }).retireWith a.rd (amoOld w old)
    | .sc => s.atomic .store addr n fun t p =>
        let r := t.timed (if t.fc.resv = some p.line then 0 else 1)
        let t1 := r.2.setFc { r.2.fc with resv := none }
        if r.1 = 0 then (t1.writePlace p (leBytes n x.toNat)).retireWith a.rd 0 else t1.retireWith a.rd r.1
    | op => s.atomic .both addr n fun t p =>
        let old := leNat (t.readPlace p n)
        let new := amoVal op w (BitVec.ofNat w old) (x.truncate w)
        (t.writePlace p (leBytes n new.toNat)).retireWith a.rd (amoOld w old)

/-! ## Cluster-scope atomics (R120, R233) -/

inductive AmocOp where
  | add | swap | cas | or | and | min | max
  deriving DecidableEq, Repr

def amocVal (op : AmocOp) (w : Nat) (old x cmp : BitVec w) : BitVec w :=
  match op with
  | .add => old + x
  | .swap => x
  | .cas => if old = cmp then x else old
  | .or => old ||| x
  | .and => old &&& x
  | .min => if old.slt x then old else x
  | .max => if old.slt x then x else old

/-- The pin that holds a memory byte (R232). -/
def State.pinAt (s : State) (key : Nat) : Option Pin := s.pins.find? fun p => decide (p.key ≤ key) && decide (key < p.key + p.bytes) && s.pinLive p

/-- The first-level cache in which a `k.amoc` of this hearth executes, by the page's home and the scope, and whether the line
stays owned afterwards; none where the home refuses the operation (R233). -/
def State.amocCache (s : State) (cluster : Bool) (a : Word) (key : Nat) : Option (Fin 640 × Bool) :=
  let h := s.foc.h
  match s.leaf (s.fh.agent s.fc) a with
  | .error _ => none
  | .ok (e, _) =>
    match bitsN e 62 2, s.pinAt key with
    | 0, _ => some (h, true)
    | 1, some p =>
      if p.holder = h.val || (cluster && p.holder / 20 == h.val / 20) then some (Fin.ofNat 640 p.holder, true) else none
    | 2, some p => if cluster && p.holder == h.val / 20 then some (h, false) else none
    | _, _ => none

/-- The owner of an address that a `k.amoc` may otherwise access is another die (R233). -/
def State.amocForeign (s : State) (a : Word) (n : Nat) : Bool :=
  canonical a && a.toNat % n == 0 && decide (ownerOf a < 5) && !((s.fh.agent s.fc).user && bit a 56) &&
    ownerOf a != s.foc.h.val / 160

/-- A cache owns a line (R233). -/
def State.owns (s : State) (line : Nat) (h : Fin 640) : Bool := s.owned.contains (line, h)

/-- A line that a `k.amoc` has used stays owned by the cache, or goes back to its slice (R233). -/
def State.settleLine (s : State) (line : Nat) (h : Fin 640) (keep : Bool) : State :=
  let rest := s.owned.filter fun p => p.1 != line
  { s with owned := if keep then (line, h) :: rest else rest }

/-- The read and the write of a `k.amoc` (R120). -/
def State.amocDo (s : State) (op : AmocOp) (a : Amoc) (p : Place) : State :=
  let n := if a.dw then 8 else 4
  let w := 8 * n
  let old := leNat (s.readPlace p n)
  let new := amocVal op w (BitVec.ofNat w old) ((s.fc.get a.rs2).truncate w) ((s.fc.get a.rd).truncate w)
  (s.writePlace p (leBytes n new.toNat)).retireWith a.rd (amoOld w old)

/-- A `k.amoc`: a refusal of its owner, scope or home holds the context (R325). It waits for the ownership of its line (R30, R233):
one whose cache does not own the line waits, and performs when it re-executes. -/
def State.amoc (s : State) (op : AmocOp) (a : Amoc) : State :=
  let n := if a.dw then 8 else 4
  let addr := s.fc.get a.rs1
  if s.amocForeign addr n then s.hold s.foc ⟨7, addr, false⟩
  else s.atomic .both addr n fun t p =>
    match p with
    | .aperture _ => t.amocDo op a p
    | .mem ks =>
      match t.amocCache a.cluster addr (ks.headD 0) with
      | none => t.hold t.foc ⟨7, addr, false⟩
      | some (h, keep) =>
        if t.owns p.line.2 h || s.fc.wait == .owner then (t.amocDo op a p).settleLine p.line.2 h keep
        else t.setFc { t.fc with st := .waiting, wait := .owner }

/-- K_AMOC_ADD (R120). -/
def execKAmocAdd (a : Amoc) (s : State) : Out := .next (s.amoc .add a)
/-- K_AMOC_SWAP (R120). -/
def execKAmocSwap (a : Amoc) (s : State) : Out := .next (s.amoc .swap a)
/-- K_AMOC_CAS (R120). -/
def execKAmocCas (a : Amoc) (s : State) : Out := .next (s.amoc .cas a)
/-- K_AMOC_OR (R120). -/
def execKAmocOr (a : Amoc) (s : State) : Out := .next (s.amoc .or a)
/-- K_AMOC_AND (R120). -/
def execKAmocAnd (a : Amoc) (s : State) : Out := .next (s.amoc .and a)
/-- K_AMOC_MIN (R120). -/
def execKAmocMin (a : Amoc) (s : State) : Out := .next (s.amoc .min a)
/-- K_AMOC_MAX (R120). -/
def execKAmocMax (a : Amoc) (s : State) : Out := .next (s.amoc .max a)

/-! ## Groups (R114, R115) -/

def grpGen (g : BitVec 512) : BitVec 16 := field g 0 16
def grpLimit (g : BitVec 512) : Nat := bitsN g 32 7
def grpMembers (g : BitVec 512) : Nat := bitsN g 64 64
def grpArrived (g : BitVec 512) : Nat := bitsN g 128 64

/-- The group word of its fields; every other bit is zero (R114). -/
def grpWord (gen : BitVec 16) (limit members arrived : Nat) : BitVec 512 :=
  BitVec.ofNat 512 (gen.toNat + limit % 128 * 2 ^ 32 + 2 ^ 56 + members % 2 ^ 64 * 2 ^ 64 + arrived % 2 ^ 64 * 2 ^ 128)

/-- A malformed word (R114). -/
def grpMalformed (g : BitVec 512) : Bool :=
  let m := grpMembers g
  let a := grpArrived g
  bitsN g 56 8 != 1 || bitsN g 192 320 != 0 || bitsN g 39 17 != 0 || bitsN g 16 16 != 0 ||
  grpLimit g == 0 || decide (64 < grpLimit g) || decide (2 ^ grpLimit g ≤ m) || a &&& m != a || (m != 0 && a == m)

/-- complete() of R115, when every member has arrived. -/
def grpComplete (gen : BitVec 16) (limit members arrived : Nat) : BitVec 512 :=
  if members ≠ 0 && arrived = members then grpWord (gen + 1) limit members 0 else grpWord gen limit members arrived

/-- A group operation on the word at an address, one indivisible access: a malformed word raises the group fault. -/
def State.grpOp (s : State) (addr : Word) (f : State → Place → BitVec 512 → State) : State :=
  s.access .both addr 64 fun t p =>
    let g := ofBytes512 (t.readPlace p 64)
    if grpMalformed g then t.trapHere 28 addr else f t p g

def State.grpWrite (s : State) (p : Place) (g : BitVec 512) : State := s.writePlace p (bytes512 g)

def grpAddr (h : Word) : Word := h &&& ~~~ (63#64)
def grpSlot (h : Word) : Nat := bitsN h 0 6

/-- K_GRP_MAKE (R115): the address must be a multiple of 64, and the limit 1 to 64. Of an address that is neither aligned nor canonical the
spec does not say what comes first: here it raises no access fault, but the group fault of a bad limit, and then trap 27 (DESIGN CHOICE,
log entry 75). -/
def execKGrpMake (xa xn : XReg) (s : State) : Out :=
  let a := s.fc.get xa
  let n := s.fc.get xn
  .next <|
    if canonical a && a.toNat % 64 ≠ 0 then s.trapHere 7 a
    else if n = 0 || 64 < n.toNat then s.trapHere 28 a
    else s.access .both a 64 fun t p => (t.grpWrite p (grpWord 0 n.toNat 0 0)).retire

/-- K_GRP_JOIN (R115). Its result is one that record mode keeps and a replay forces (R288). -/
def execKGrpJoin (rd xa : XReg) (s : State) : Out :=
  let a := grpAddr (s.fc.get xa)
  .next (s.grpOp a fun t p g =>
    let m := grpMembers g
    let v := if popCount 64 m = grpLimit g then BitVec.allOnes 64
      else a + BitVec.ofNat 64 ((lowestSet 64 (2 ^ 64 - 1 - m) 0).getD 0)
    let r := t.timed v
    if r.1 = BitVec.allOnes 64 then r.2.retireWith rd r.1
    else (r.2.grpWrite p (grpWord (grpGen g) (grpLimit g) (m ||| 2 ^ grpSlot r.1) (grpArrived g))).retireWith rd r.1)

/-- K_GRP_LEAVE (R115). -/
def execKGrpLeave (xa : XReg) (s : State) : Out :=
  let h := s.fc.get xa
  let a := grpAddr h
  let b := grpSlot h
  .next (s.grpOp a fun t p g =>
    let m := grpMembers g
    let r := grpArrived g
    if !m.testBit b then t.trapHere 28 a
    else
      let r' := if r.testBit b then r - 2 ^ b else r
      (t.grpWrite p (grpComplete (grpGen g) (grpLimit g) (m - 2 ^ b) r')).retire)

/-- K_GRP_BAR (R115): the context waits unless its arrival completes the barrier. -/
def execKGrpBar (xa : XReg) (s : State) : Out :=
  let h := s.fc.get xa
  let a := grpAddr h
  let b := grpSlot h
  .next (s.grpOp a fun t p g =>
    let m := grpMembers g
    let r := grpArrived g
    if !m.testBit b || r.testBit b then t.trapHere 28 a
    else
      let t1 := t.grpWrite p (grpComplete (grpGen g) (grpLimit g) m (r + 2 ^ b))
      if r + 2 ^ b = m then t1.retire
      else t1.setFc { t1.fc with st := .waiting, wait := .bar a (grpGen g) })

/-- The bytes that a group wait reads at an address, as an ordinary load of the context would; none when no byte can be
read, for such a wait never faults (R254, log entry 18). The spec does not say that a wait on the aperture waits for the scoreboard: it
reads the scratchpad at once (DESIGN CHOICE, log entry 75). -/
def State.peek (s : State) (l : Loc) (a : Word) (n : Nat) : Option (List Byte) :=
  match s.resolve l .load a n with
  | .ok (.mem ks) => some (s.memBytes ks)
  | .ok (.aperture off) => some ((s.hearth l.h).scratch.bytes off n)
  | _ => none

/-- BARRIER_RELEASE (R115): a waiting `k.grp.bar` that reads another generation returns. -/
def execBarrierRelease (s : State) : Out :=
  .next <|
    match s.frozen s.foc.h, s.fc.st, s.fc.wait with
    | false, .waiting, .bar a gen =>
      match s.peek s.foc a 64 with
      | some bs => if grpGen (ofBytes512 bs) ≠ gen then s.resume.retire else s
      | none => s
    | _, _, _ => s

end Sys2Proof.Machine
end

