-- ==== Sys2Proof/Machine/System.lean ====
section
/-! DEFINITION. Control and status registers (R41 to R44, R76, R97, R121, R327), and the privileged instructions: system
calls, breakpoints, waits for interrupts, returns from traps, and asynchronous traps (R76, R119, R281, R327). -/

namespace Sys2Proof.Machine

/-! ## Reading and writing CSRs -/

/-- A CSR of the shadow nest table: its level and its place in the level (R97). -/
def nestCsr (n : Nat) : Option (Fin 6 × Fin 4) :=
  if h : 0x810 ≤ n ∧ n < 0x828 then some (⟨(n - 0x810) / 4, by omega⟩, ⟨(n - 0x810) % 4, by omega⟩) else none

def NestLevel.csr (l : NestLevel) : Fin 4 → Word
  | 0 => l.cnt.zeroExtend 64
  | 1 => l.sa.zeroExtend 64
  | 2 => l.sb.zeroExtend 64
  | 3 => l.sc.zeroExtend 64

def NestLevel.setCsr (l : NestLevel) (i : Fin 4) (v : Word) : NestLevel :=
  match i with
  | 0 => { l with cnt := v.truncate 16 }
  | 1 => { l with sa := v.truncate 22 }
  | 2 => { l with sb := v.truncate 22 }
  | 3 => { l with sc := v.truncate 22 }

/-- `hloc` (R44). -/
def hlocOf (l : Loc) : Word := BitVec.ofNat 64 (l.c.val + 4 * l.h.val)

/-- `misa` (RISC-V): RV64 with A, I, M, U and non-standard extensions (log entry 4). -/
def misaValue : Word := 0x8000000000901101

/-- `mstatus` as read: `UXL` is 2, the 64-bit value (RISC-V, log entry 4). -/
def mstatusRead (m : Word) : Word := m ||| 0x200000000#64

/-- The event counters and selectors that RISC-V gives M mode, which read as zero here (log entry 4). -/
def zeroCsr (n : Nat) : Bool :=
  n == 0x320 || (decide (0x323 ≤ n) && decide (n ≤ 0x33F)) || (decide (0xB03 ≤ n) && decide (n ≤ 0xB1F))

/-- The value of a CSR that exists, by number: those of R41 and R97, the counters of R76, and the machine-mode registers
(R76, R327, log entry 4). -/
def State.csrRead (s : State) (l : Loc) (n : Nat) : Option Word :=
  let k := s.ctx l
  let m := k.csr
  match nestCsr n with
  | some (lv, i) => some ((k.nest[lv]).csr i)
  | none =>
    if zeroCsr n then some 0
    else match n with
    | 0x800 => some k.fpstat
    | 0x801 => some k.cpstat
    | 0xCC0 => some (hlocOf l)
    | 0xC00 | 0xB00 => some (BitVec.ofNat 64 s.cycle + m.cycleOff)
    | 0xC01 => some s.tickW
    | 0xC02 | 0xB02 => some (BitVec.ofNat 64 k.instret)
    | 0x300 => some (mstatusRead m.mstatus)
    | 0x301 => some misaValue
    | 0x304 => some m.mie
    | 0x305 => some m.mtvec
    | 0x306 => some m.mcounteren
    | 0x30A => some m.menvcfg
    | 0x340 => some m.mscratch
    | 0x341 => some m.mepc
    | 0x342 => some m.mcause
    | 0x343 => some m.mtval
    | 0x344 => some m.mip
    | 0x7C0 => some m.htaddr
    | 0xF11 | 0xF12 | 0xF13 | 0xF15 => some (Config.machineId n)
    | 0xF14 => some (Config.machineId (n + 4096 * (4 * l.h.val + l.c.val)))
    | _ => none

/-- `MPP` keeps its value when a write names a mode the core lacks (R75, RISC-V). -/
def mstatusWrite (old v : Word) : Word :=
  let mask : Word := if bitsN v 11 2 = 0 || bitsN v 11 2 = 3 then 0x221888 else 0x220088
  (v &&& mask) ||| (old &&& (0x221888 &&& ~~~ mask))

/-- The interrupts that a core with the modes M and U has: software, timer, external, and those of the platform (RISC-V, log entry 4). -/
def irqBits : Word := 0xFFFFFFFFFFFF0888

/-- `mip` after a write: its software, timer and external bits are read-only, for their sources own them (RISC-V). -/
def mipWrite (old v : Word) : Word := (old &&& 0x888) ||| (v &&& 0xFFFFFFFFFFFF0000)

/-- A write of a CSR that exists and is writable. Reserved bits are ignored (R10, R42, R43, R121). -/
def State.csrWrite (s : State) (l : Loc) (n : Nat) (v : Word) : State :=
  let k := s.ctx l
  let m := k.csr
  let put (m' : MCsr) : State := s.setCtx l { k with csr := m' }
  match nestCsr n with
  | some (lv, i) => s.setCtx l { k with nest := k.nest.set lv ((k.nest[lv]).setCsr i v) }
  | none =>
    match n with
    | 0x800 => s.setCtx l { k with fpstat := v &&& 0xF }
    | 0x801 => s.setCtx l { k with cpstat := v &&& 0x101 }
    | 0xB00 => put { m with cycleOff := v - BitVec.ofNat 64 s.cycle }
    | 0xB02 => s.setCtx l { k with instret := v.toNat }
    | 0x300 => put { m with mstatus := mstatusWrite m.mstatus v }
    | 0x304 => put { m with mie := v &&& irqBits }
    | 0x305 => put { m with mtvec := v &&& ~~~ (2#64) }
    | 0x306 => put { m with mcounteren := v &&& 7 }
    | 0x30A => put { m with menvcfg := v &&& 1 }
    | 0x340 => put { m with mscratch := v }
    | 0x341 => put { m with mepc := v &&& ~~~ (3#64) }
    | 0x342 => put { m with mcause := v }
    | 0x343 => put { m with mtval := v }
    | 0x344 => put { m with mip := mipWrite m.mip v }
    | 0x7C0 => put { m with htaddr := v }
    | _ => s

/-- The CSR may be read, and for `wr` written, in the context's mode (R76, RISC-V): bits [11:10] of the number mark a
read-only one, bits [9:8] the mode it needs. -/
def csrAllowed (mode : Mode) (n : Nat) (wr : Bool) : Bool :=
  (mode == .machine || n / 256 % 4 == 0) && !(wr && n / 1024 % 4 == 3)

/-- A CSR instruction on the nest table goes on once every earlier `mx.cfg` of the context has completed and every earlier
`mx.go` has left its queue (R121). -/
def Hearth.nestReady (x : Hearth) (c : Fin 4) : Bool :=
  x.cmds.all fun d => !(d.ctx == c && (d.op == some .mxCfg || (d.op == some .mxGo && d.stage == .queued)))

/-- The counters whose reads record mode keeps and a replay forces: `cycle`, `time` and `instret` (R288). -/
def timedCsr (n : Nat) : Bool := n == 0xC00 || n == 0xC01 || n == 0xC02

/-- CSR_ACCESS (R41, R76, R121). -/
def execCsrAccess (a : CsrI) (s : State) : Out :=
  let k := s.fc
  let n := a.csr.toNat
  let src : Word := if a.imm then BitVec.ofNat 64 a.rs1.val else k.get a.rs1
  let wr := a.op == .rw || a.rs1 != 0
  .next <|
    match s.csrRead s.foc n with
    | none => s.trapHere 2 (wordOf (.csrAccess a))
    | some old =>
      if !csrAllowed k.mode n wr then s.trapHere 2 (wordOf (.csrAccess a))
      else if (nestCsr n).isSome && !s.fh.nestReady s.foc.c then
        s.setFc { k with st := .waiting, wait := .nestCsr }
      else
        let new := match a.op with
          | .rw => src
          | .rs => old ||| src
          | .rc => old &&& ~~~ src
        let s1 := if timedCsr n then s.resume.retireTimed a.rd old else s.resume.retireWith a.rd old
        if wr then s1.csrWrite s1.foc n new else s1

/-! ## Privileged instructions -/

/-- ECALL (R76, R370): from U mode a trap to the hearth runtime; from M mode a service call, for which the context waits. -/
def execEcall (s : State) : Out :=
  .next <|
    match s.fc.mode with
    | .user => s.trapHere 8 0
    | .machine => s.setFc { s.fc with st := .waiting, wait := .svc }

/-- A hearth stops for Hob, with its trace record (R281, R284). -/
def State.stopHearth (s : State) (l : Loc) : State :=
  let x := s.hearth l.h
  (s.setHearth l.h { x with hob := { x.hob with stopped := true, step := none } }).traceOut l.h
    (traceRecord s.tick 4 l.h l.c 0 0 0 0 (x.ctx l.c).rgn 0)

/-- EBREAK (R76, R281): a stop of the hearth under a Hob session, after which the context goes on behind it (log entry 19);
else the breakpoint exception. -/
def execEbreak (s : State) : Out :=
  .next (if s.fh.hob.sess.isSome then s.retire.stopHearth s.foc else s.trapHere 3 0)

/-- BREAKPOINT_HIT (R281): the hearth stops before the context's next instruction. -/
def execBreakpointHit (s : State) : Out :=
  let x := s.fh
  .next <|
    if s.fc.st == .running && x.hob.sess.isSome && !x.hob.stopped then
      (s.setFh { x with hob := { x.hob with passed := s.foc.c :: x.hob.passed } }).stopHearth s.foc
    else s

/-- WFI (R76): in M mode a wait for a pending interrupt or 1,000 reference ticks, in which the context stays running; in U mode
the illegal-instruction trap. -/
def execWfi (s : State) : Out :=
  .next <|
    match s.fc.mode with
    | .user => s.trapHere 2 (wordOf .wfi)
    | .machine => if s.fc.csr.mip ≠ 0 then s.retire else s.setFc { s.fc with wait := .wfi (s.tick + 1000) }

/-- The `WFI` of the context at the focus ends, where nothing stops its hearth. -/
def State.endWfi (s : State) : State :=
  match s.frozen s.foc.h, s.fc.wait with
  | false, .wfi _ => s.resume.retire
  | _, _ => s

/-- WFI_TIMEOUT (R76). -/
def execWfiTimeout (s : State) : Out :=
  .next <|
    match s.fc.wait with
    | .wfi d => if d ≤ s.tick then s.endWfi else s
    | _ => s

/-- INTERRUPT_PENDING (R76): an interrupt becomes pending in the context at the focus, and ends its `WFI`. -/
def execInterruptPending (n : BitVec 6) (s : State) : Out :=
  let k := s.fc
  .next (if bit irqBits n.toNat then (s.setFc { k with csr := { k.csr with mip := k.csr.mip ||| (1#64 <<< n.toNat) } }).endWfi else s)

/-- The source of an interrupt withdraws it (RISC-V). -/
def State.withdrawIrq (s : State) (l : Loc) (n : Nat) : State :=
  let k := s.ctx l
  s.setCtx l { k with csr := { k.csr with mip := k.csr.mip &&& ~~~ (1#64 <<< n) } }

/-- MRET (R75, R327): the return from a trap; in U mode the illegal-instruction trap. -/
def execMret (s : State) : Out :=
  .next <|
    match s.fc.mode with
    | .user => s.trapHere 2 (wordOf .mret)
    | .machine => s.setFc s.fc.trapReturn

/-- ASYNC_TRAP (R327): the first pending asynchronous trap, at an instruction boundary. -/
def execAsyncTrap (s : State) : Out :=
  .next (if s.fc.asyncReady && (s.stepping s.foc || !s.frozen s.foc.h) then s.setFc s.fc.takeAsync else s)

/-- K_TRAP (R119): the software trap, whose return address is the `k.trap` itself. -/
def execKTrap (code : BitVec 10) (s : State) : Out := .next (s.trapHere 31 (code.zeroExtend 64))

end Sys2Proof.Machine
end

