-- ==== Sys2Proof/Machine/Ember.lean ====
section
/-! DEFINITION. How a context begins and ends a record or an arrival's handler (R28, R29, R34, R35, R113, R199, R235, R236). -/

namespace Sys2Proof.Machine

/-! ## Contexts begin and end (R28, R29, R34 to R36, R42, R43, R199, R236) -/

/-- The asynchronous traps that a context had not taken when its record ended: the runtime reports them (R199). -/
def State.reportPend (s : State) (run : RunRec) (l : List Async) : State := l.foldl (fun t a => t.report (.lateTrap run a)) s

/-- A context as a record or an arrival finds it (R28). The spill memory keeps its contents if what the context ran last ran the
same image under the same ASID; an ember context counts as a previous record here, which R35 and R236 leave open (DESIGN CHOICE,
log entry 53). -/
def Ctx.start (k : Ctx) (lmtrap : Bool) (last : Nat × Nat) (run : RunRec) (pc a0 a1 : Word) (rgn : List (BitVec 16)) : Ctx :=
  { k with
    st := .running, wait := .none, mode := .user, xs := ((Vector.replicate 32 (0 : Word)).set 10 a0).set 11 a1, pc := pc,
    vs := Vector.replicate 16 0, ps := Vector.replicate 8 0, ws := Vector.replicate 32 0, rgn := rgn,
    spill := if k.lastRun = some last then k.spill else [],
    fpstat := 0, cpstat := if lmtrap then 0x100 else 0, run := run, lastRun := some last, resv := none, pend := [], fault := none }

/-- The image of a hearth and its address space, as they decide whether spill memory survives (R35). -/
def Hearth.runId (x : Hearth) : Nat × Nat := ((x.img.map (·.id)).getD 0, x.asid.getD 0)

def Hearth.lmtrapDefault (x : Hearth) : Bool := (x.img.map (·.lmtrap)).getD false

/-- The arrival descriptor (R236). -/
def Arrival.desc (a : Arrival) (parked : Bool) : BitVec 512 :=
  BitVec.ofNat 512 (a.schip % 1024 + a.shearth % 1024 * 2 ^ 10 + (if a.flagen then a.rflag.val else 0) * 2 ^ 36 +
    (if a.flagen then 1 else 0) * 2 ^ 44 + (if parked then 1 else 0) * 2 ^ 45 + a.hoff % 2 ^ 18 * 2 ^ 46 +
    a.roff % 2 ^ 21 * 2 ^ 64 + a.lenb % 2 ^ 32 * 2 ^ 96 + a.tick % 2 ^ 64 * 2 ^ 128)

/-- The spill offset of the descriptor. -/
def emberSpill : Nat := 32704

/-- A context starts as an ember context for an arrival (R236). -/
def State.startEmber (s : State) (l : Loc) (a : Arrival) (parked : Bool) : State :=
  let x := s.hearth l.h
  let k := (x.ctx l.c).start x.lmtrapDefault x.runId .ember (BitVec.ofNat 64 a.hoff) (BitVec.ofNat 64 emberSpill) 0 []
  s.setCtx l { k with spill := k.spill.store emberSpill (bytes512 (a.desc parked)) }

/-- The context that takes an arrival: the lowest armed one, or else the lowest free one (R113, R235). -/
def Hearth.emberCtx (x : Hearth) : Option (Fin 4) :=
  let cs : List (Fin 4) := [0, 1, 2, 3]
  (cs.find? fun c => (x.ctx c).st == .armed) <|> (cs.find? fun c => (x.ctx c).st == .free)

/-- An arrival whose flag has been applied starts its handler, or joins the arrival queue, whose oldest arrival goes first
(R235). -/
def State.startHandler (s : State) (h : Fin 640) (a : Arrival) : State :=
  let x := s.hearth h
  match x.emberCtx, x.arrQ with
  | some c, [] => s.startEmber ⟨h, c⟩ a false
  | some c, b :: rest => (s.setHearth h { x with arrQ := rest ++ [a] }).startEmber ⟨h, c⟩ b true
  | none, _ => s.setHearth h { x with arrQ := x.arrQ ++ [a] }

/-- Hob or a pre-emption has stopped the contexts of the hearth, be it that Hob steps one of them or not. -/
def Hearth.still (x : Hearth) : Bool := x.hob.stopped || x.idle

/-- Queued arrivals take the contexts of a hearth that are armed or free, the oldest first, in at most the given number of
rounds (R235). A hearth that nothing runs on takes none; one of which Hob steps a context does (R283). -/
def State.takeQueued (s : State) (h : Fin 640) : Nat → State
  | 0 => s
  | n + 1 =>
    let x := s.hearth h
    match x.still, x.emberCtx, x.arrQ with
    | false, some c, b :: rest =>
      State.takeQueued ((s.setHearth h { x with arrQ := rest }).startEmber ⟨h, c⟩ b true) h n
    | _, _, _ => s

/-- The context is free, unless a queued arrival takes it (R235). -/
def State.freeCtx (s : State) (l : Loc) : State :=
  let k := s.ctx l
  ((s.setCtx l { k with st := .free, wait := .none, run := .none, resv := none, pend := [], fault := none }).reportPend k.run
    k.pend).takeQueued l.h 1

/-- QUEUED_ARRIVAL_START (R235): queued arrivals take the armed and free contexts of the hearth at the focus. -/
def execQueuedArrivalStart (s : State) : Out := .next (s.takeQueued s.foc.h 4)

end Sys2Proof.Machine
end

