-- ==== Sys2Proof/Machine/Custom.lean ====
section
/-! DEFINITION. The `k.` instructions that need neither the engines nor the queue manager: time, flags, windows, waiting,
arming, regions and spill memory (R104 to R110, R113, R116 to R118). -/

namespace Sys2Proof.Machine

/-- K_TICK (R118, R288). -/
def execKTick (rd : XReg) (s : State) : Out := .next (s.retireTimed rd s.tickW)

/-! ## Flags (R104) -/

/-- The exact sum of a `k.fladd`, clamped at 0 and saturated at 2^32 − 1, and whether it is an overflow (R38, R104). -/
def fladd (f : W32) (x : Word) : W32 × Bool :=
  let v : Int := f.toNat + x.toInt
  if v < 0 then (0, false)
  else if 4294967295 ≤ v then (0xFFFFFFFF#32, decide (0 < x.toInt))
  else (BitVec.ofNat 32 v.toNat, false)

/-- K_FLSET (R104). -/
def execKFlset (fl : BitVec 8) (xs : XReg) (s : State) : Out :=
  .next ((s.setFlag s.foc.h fl.toFin ((s.fc.get xs).truncate 32)).retire)

/-- K_FLADD (R104): an overflow traps after the update, behind the instruction. -/
def execKFladd (fl : BitVec 8) (xs : XReg) (s : State) : Out :=
  let r := fladd (s.fh.flag fl.toFin) (s.fc.get xs)
  let s1 := (s.setFlag s.foc.h fl.toFin r.1).retire
  .next (if r.2 then s1.trapHere 26 (fl.zeroExtend 64) else s1)

/-- K_FLRD (R104, R288). -/
def execKFlrd (rd : XReg) (fl : BitVec 8) (s : State) : Out :=
  .next (s.retireTimed rd ((s.fh.flag fl.toFin).zeroExtend 64))

/-! ## Windows (R109, R110) -/

/-- The reserved bits of a window register (R33). -/
def winReserved (w : BitVec 128) : Bool := bitsN w 112 16 != 0 || bitsN w 86 10 != 0 || bitsN w 54 10 != 0 || bitsN w 21 11 != 0

/-- The checks of `k.win` in their order: the trap of the first that fails (R109). -/
def winCheck (w : BitVec 128) : Option Nat :=
  if winReserved w then some 2
  else if winLen w = 0 then none
  else if winRows w = 0 || 2097152 < winLen w || 2097152 < winPitch w ||
      2097151 < winBase w + (winRows w - 1) * winPitch w + winLen w - 1 then some 25
  else none

/-- K_WIN (R109). -/
def execKWin (wn : Fin 32) (xa xb : XReg) (s : State) : Out :=
  let k := s.fc
  let w : BitVec 128 := k.get xb ++ k.get xa
  .next <|
    match winCheck w with
    | some c => s.trapHere c (wordOf (.kWin wn xa xb))
    | none => s.setFc { k with ws := k.ws.set wn w }.retire

/-- K_WINRD (R110). -/
def execKWinrd (rd : XReg) (wn : Fin 32) (hi : Bool) (s : State) : Out :=
  let w := s.fc.ws[wn]
  .next (s.retireWith rd (field w (if hi then 64 else 0) 64))

/-! ## Waiting (R105 to R107) -/

/-- A condition of `k.wait`: a flag test, or a test of a group word (R106). -/
inductive Cond where
  | flag (test : Nat) (fl : Fin 256) (v : Nat)
  | group (members : Bool) (addr : Word) (v : Nat)
  deriving DecidableEq, Repr

/-- A condition as its two doublewords hold it; none for a reserved pattern (R106). -/
def condOf (lo hi : Word) : Option Cond :=
  let kind := bitsN lo 62 2
  let test := bitsN lo 60 2
  let v := bitsN lo 0 32
  let fl := field lo 32 8
  if bitsN lo 40 20 ≠ 0 then none
  else match kind with
  | 0 => if test = 3 || hi ≠ 0 then none else some (.flag test fl.toFin v)
  | 1 =>
    if 2 ≤ test || fl ≠ 0 || (test = 0 && 65535 < v) || (test = 1 && 64 < v) then none
    else some (.group (test == 1) (hi &&& ~~~ (63#64)) v)
  | _ => none

/-- The conditions of a wait in the context's spill memory; none when any of them is reserved (R105, R106). -/
def Ctx.conds (k : Ctx) (off n : Nat) : Option (List Cond) :=
  (List.range n).mapM fun i =>
    condOf (BitVec.ofNat 64 (k.spillLoad (off + 16 * i) 8)) (BitVec.ofNat 64 (k.spillLoad (off + 16 * i + 8) 8))

/-- A condition holds for a context now (R106, R107). -/
def State.condHolds (s : State) (l : Loc) : Cond → Bool
  | .flag test fl v =>
    let f := ((s.hearth l.h).flag fl).toNat
    if test = 2 then f == v else decide (v ≤ f)
  | .group members addr v =>
    match s.peek l addr 64 with
    | none => false
    | some bs =>
      let g := ofBytes512 bs
      if members then decide (v ≤ popCount 64 (grpMembers g)) else (grpGen g).toNat != v

/-- What a condition subtracts from a flag when it is taken: only flag test 01 takes (R107). -/
def Cond.takes : Cond → Option (Fin 256 × Nat)
  | .flag 1 fl v => some (fl, v)
  | _ => none

/-- The sum of the takes of a list of conditions on one flag. -/
def takeSum (cs : List Cond) (fl : Fin 256) : Nat :=
  ((cs.filterMap Cond.takes).filterMap fun p => if p.1 = fl then some p.2 else none).sum

/-- fits(): no flag is asked for more than it holds (R107). -/
def Hearth.fits (x : Hearth) (cs : List Cond) : Bool :=
  (cs.filterMap Cond.takes).all fun p => decide (takeSum cs p.1 ≤ (x.flag p.1).toNat)

/-- The takes of a list of conditions, in one update. -/
def State.take (s : State) (h : Fin 640) (cs : List Cond) : State :=
  (cs.filterMap Cond.takes).foldl (fun t p => t.setFlag h p.1 ((t.hearth h).flag p.1 - BitVec.ofNat 32 p.2)) s

/-- The test of a wait: the value it returns and the state after its takes, none while it does not return (R107). -/
def State.waitTest (s : State) (l : Loc) (cs : List Cond) (all : Bool) : Option (Nat × State) :=
  if all then
    if cs.all (s.condHolds l) && (s.hearth l.h).fits cs then some (2 ^ cs.length - 1, s.take l.h cs) else none
  else
    (cs.zipIdx.find? fun p => s.condHolds l p.1).map fun p => (2 ^ p.2, s.take l.h [p.1])

/-- The conditions that a result names, by its bits (R107). -/
def namedConds (v : Nat) (cs : List Cond) : List Cond := (cs.zipIdx.filter fun p => v / 2 ^ p.2 % 2 == 1).map (·.1)

/-- The test of a wait as a replay forces it: a result of 0 returns at once, and any other waits for exactly the conditions that it names
(R288). -/
def State.waitNow (s : State) (l : Loc) (cs : List Cond) (all : Bool) : Option (Nat × State) :=
  match s.forcedAt l with
  | none => s.waitTest l cs all
  | some v =>
    let ns := namedConds v.toNat cs
    if ns.all (s.condHolds l) && (s.hearth l.h).fits ns then some (v.toNat, s.take l.h ns) else none

/-- K_WAIT (R105 to R107): the conditions are tested at once; a wait that does not return then has a deadline. Its result is one
that record mode keeps and a replay forces (R288). -/
def execKWait (rd xt : XReg) (off : BitVec 8) (n1 : BitVec 2) (all : Bool) (s : State) : Out :=
  let k := s.fc
  let o := 64 * off.toNat
  let n := n1.toNat + 1
  .next <|
    match k.conds o n with
    | none => s.trapHere 2 (wordOf (.kWait rd xt off n1 all))
    | some cs =>
      match s.waitNow s.foc cs all with
      | some (v, t) => t.retireTimed rd (BitVec.ofNat 64 v)
      | none =>
        let d := min (s.tick + (k.get xt).toNat) (2 ^ 64 - 1)
        if d ≤ s.tick && (s.forcedAt s.foc).isNone then s.retireTimed rd 0
        else s.setFc { k with st := .waiting, wait := .kwait rd o n all d }

/-- WAIT_CONDITION_MET (R107): the waiting context at the focus finds its conditions hold. -/
def execWaitConditionMet (s : State) : Out :=
  .next <|
    match s.frozen s.foc.h, s.fc.st, s.fc.wait with
    | false, .waiting, .kwait rd off n all _ =>
      match s.fc.conds off n with
      | none => s
      | some cs =>
        match s.waitNow s.foc cs all with
        | some (v, t) => t.resume.retireTimed rd (BitVec.ofNat 64 v)
        | none => s
    | _, _, _ => s

/-- WAIT_DEADLINE_EXPIRY (R107, R283): at the deadline the conditions are tested once more, and the wait returns. The
time-out 2^64 − 1 never expires. In a replay the recorded result decides (R288). -/
def execWaitDeadlineExpiry (s : State) : Out :=
  .next <|
    match s.frozen s.foc.h, s.fc.st, s.fc.wait with
    | false, .waiting, .kwait rd off n all d =>
      if s.tick < d || d = 2 ^ 64 - 1 then s
      else
        match s.fc.conds off n with
        | none => s.resume.retireTimed rd 0
        | some cs =>
          match s.waitNow s.foc cs all with
          | some (v, t) => t.resume.retireTimed rd (BitVec.ofNat 64 v)
          | none => if (s.forcedAt s.foc).isSome then s else s.resume.retireTimed rd 0
    | _, _, _ => s

/-! ## Arming (R113) -/

/-- A context after `k.arm` with a mask: bits 3 to 0 arm, bits 7 to 4 disarm. -/
def Ctx.arm (k : Ctx) (c : Fin 4) (m : Word) : Ctx :=
  if bit m c && k.st == .free then { k with st := .armed }
  else if bit m (4 + c) && k.st == .armed then { k with st := .free }
  else k

/-- K_ARM (R113). A context that becomes free or armed takes a queued arrival (R235). -/
def execKArm (xs : XReg) (s : State) : Out :=
  let m := s.fc.get xs
  .next <|
    if bitsN m 8 56 ≠ 0 || bitsN m 0 4 &&& bitsN m 4 4 ≠ 0 then s.trapHere 2 (wordOf (.kArm xs))
    else
      let x := s.fh
      (s.setFh { x with ctxs := Vector.ofFn fun c : Fin 4 => (x.ctx c).arm c m }).retire.takeQueued s.foc.h 4

/-! ## Regions (R34, R116) -/

/-- K_RGN_ENTER (R116). -/
def execKRgnEnter (id : BitVec 16) (s : State) : Out :=
  let k := s.fc
  .next <|
    if 8 ≤ k.rgn.length then s.trapHere 30 (id.zeroExtend 64)
    else (s.setFc { k with rgn := id :: k.rgn }.retire).traceEdge s.foc 2 id (id :: k.rgn)

/-- K_RGN_LEAVE (R116). -/
def execKRgnLeave (s : State) : Out :=
  let k := s.fc
  .next <|
    match k.rgn with
    | [] => s.trapHere 30 0
    | id :: rest => (s.setFc { k with rgn := rest }.retire).traceEdge s.foc 3 id rest

/-! ## Spill memory (R117) -/

/-- K_SPL (R117). -/
def execKSpl (rd : XReg) (off : BitVec 12) (s : State) : Out :=
  .next (s.retireWith rd (BitVec.ofNat 64 (s.fc.spillLoad (8 * off.toNat) 8)))

/-- K_SPS (R117). -/
def execKSps (xs : XReg) (off : BitVec 12) (s : State) : Out :=
  let k := s.fc
  .next (s.setFc (k.spillStore (8 * off.toNat) 8 (k.get xs).toNat).retire)

end Sys2Proof.Machine
end

