-- ==== Sys2Proof/Machine/Issue.lean ====
section
/-! DEFINITION. Issuing command words (R80, R86, R102, R103, R216). -/

namespace Sys2Proof.Machine

/-- The command word of a slot in instruction memory (R16, R80). -/
def Hearth.slotWord (x : Hearth) (slot : Nat) : CmdWord := BitVec.ofNat 256 (leNat (x.imem.bytes (32 * slot) 32))

/-- The first slot of the command area, ⌈`CODELEN` ÷ 32⌉ (R16). -/
def Image.slot0 (i : Image) : Nat := (i.code.length + 31) / 32

/-- The slot lies in the command area of the image that the hearth holds (R80). -/
def Hearth.slotOk (x : Hearth) (slot : Nat) : Bool :=
  match x.img with
  | none => false
  | some i => decide (i.slot0 ≤ slot) && decide (slot < i.slot0 + i.cmds.length)

/-- The substitution descriptor of a slot (R103). -/
def Hearth.descOf (x : Hearth) (slot : Nat) : Option Desc := (x.img.map (·.descs)).getD [] |>.find? fun d => d.slot == slot

/-- The checks of a word for the context at the focus, and then its candidacy: the context waits with its rank (R86, R102, R216). -/
def State.candidate (s : State) (slot : Nat) (w : CmdWord) : State :=
  match checkCmd s.fh s.fc w with
  | some c => s.trapHere c (BitVec.ofNat 64 slot)
  | none => s.setFc { s.fc with st := .waiting, wait := .issue slot w (captureWins s.fc w) s.cycle }

/-- The word of a `k.issue`: one that holds a placeholder is an illegal command (R102). -/
def State.issueCheck (s : State) (idx : BitVec 13) : State :=
  let n := idx.toNat
  if !s.fh.slotOk n then s.trapHere 2 (wordOf (.kIssue idx))
  else if (s.fh.descOf n).isSome then s.trapHere 24 (BitVec.ofNat 64 n)
  else s.candidate n (s.fh.slotWord n)

/-- The word of a `k.issuex`, substituted (R102, R103). -/
def State.issuexCheck (s : State) (idx : BitVec 13) (xa xb : XReg) : State :=
  let n := idx.toNat
  if !s.fh.slotOk n then s.trapHere 2 (wordOf (.kIssuex idx xa xb))
  else
    match s.fh.descOf n with
    | none => s.candidate n (s.fh.slotWord n)
    | some d =>
      match substitute (s.fh.slotWord n) d (s.fc.get xa) (s.fc.get xb) with
      | none => s.trapHere 24 (BitVec.ofNat 64 n)
      | some w => s.candidate n w

/-- A context that has become a candidate waits, and the hearth accepts what it can (R216). -/
def State.acceptWaiting (s : State) : State := if s.fc.st = .waiting then s.tryAccept s.foc.h else s

/-- K_ISSUE (R102). -/
def execKIssue (idx : BitVec 13) (s : State) : Out := .next (s.issueCheck idx).acceptWaiting

/-- K_ISSUEX (R102, R103). -/
def execKIssuex (idx : BitVec 13) (xa xb : XReg) (s : State) : Out := .next (s.issuexCheck idx xa xb).acceptWaiting

/-- COMMAND_ACCEPTANCE (R216): one command word, if a candidate can be accepted. -/
def execCommandAcceptance (s : State) : Out := .next (s.tryAccept s.foc.h)

end Sys2Proof.Machine
end

