-- ==== Sys2Proof/Machine/VecArith.lean ====
section
/-! DEFINITION. The element-wise vector commands: arithmetic, functions, compares, logic, shifts, bit counts and conversion
(R122 to R144). Each acts on the command in the hand of its engine. -/

namespace Sys2Proof.Machine

/-! ## The element-wise command (R125) -/

/-- The command writes `g e`, a result and its status, to every enabled element of its destination, and adds the status of
its immediate sources once (R123, R125). -/
def State.vecWrite (s : State) (f : CmdF) (srcs : List Src) (g : Nat → Nat × St) : State :=
  let w := f.typ.width
  let ps := s.handCtx.ps
  let t := tab (elems w) fun e => if enabled f ps w e then some (g e) else none
  (s.setVreg (f.v 0) (vput w (s.vreg (f.v 0)) (t.map fun r => r.map (·.1)))).performedWith
    (orStatus t ||| immStatus (anyEnabled t) srcs) 0

/-- The command writes `g e` to the group of every enabled element of its destination predicate (R134). -/
def State.predWrite (s : State) (f : CmdF) (srcs : List Src) (g : Nat → Bool) : State :=
  let w := f.typ.width
  let ps := s.handCtx.ps
  let t := tab (elems w) fun e => if enabled f ps w e then some (g e) else none
  (s.setPreg (f.p 0) (pput w (s.preg (f.p 0)) t)).performedWith (immStatus (anyEnabled t) srcs) 0

/-- A command of one source, two sources or three sources, in positions 1 to 3. -/
def State.vec1 (s : State) (f : CmdF) (g : Nat → Nat × St) : State :=
  let a := s.src f f.typ 1
  s.vecWrite f [a] fun e => g (a.get f.typ.width e)

def State.vec2 (s : State) (f : CmdF) (g : Nat → Nat → Nat × St) : State :=
  let a := s.src f f.typ 1
  let b := s.src f f.typ 2
  s.vecWrite f [a, b] fun e => g (a.get f.typ.width e) (b.get f.typ.width e)

def State.vec3 (s : State) (f : CmdF) (g : Nat → Nat → Nat → Nat × St) : State :=
  let a := s.src f f.typ 1
  let b := s.src f f.typ 2
  let c := s.src f f.typ 3
  s.vecWrite f [a, b, c] fun e => g (a.get f.typ.width e) (b.get f.typ.width e) (c.get f.typ.width e)

def State.cmp2 (s : State) (f : CmdF) (g : Nat → Nat → Bool) : State :=
  let a := s.src f f.typ 1
  let b := s.src f f.typ 2
  s.predWrite f [a, b] fun e => g (a.get f.typ.width e) (b.get f.typ.width e)

/-! ## Arithmetic (R127 to R131) -/

inductive Arith where
  | add | sub | mul | fma | fms | fnma | adiff
  deriving DecidableEq, Repr

/-- The exact integer (R128). -/
def Arith.int (op : Arith) (a b c : Int) : Int :=
  match op with
  | .add => a + b
  | .sub => a - b
  | .mul => a * b
  | .fma => a * b + c
  | .fms => a * b - c
  | .fnma => c - a * b
  | .adiff => ((a - b).natAbs : Int)

/-- The exact float value, and whether it is invalid (R129). -/
def Arith.float (op : Arith) (rm : Rm) (a b c : FVal) : FVal × Bool :=
  match op with
  | .add => FVal.add rm a b
  | .sub => FVal.add rm a b.neg
  | .mul => FVal.mul a b
  | .fma => FVal.fma rm a b c
  | .fms => FVal.fma rm a b c.neg
  | .fnma => FVal.fma rm a.neg b c
  | .adiff => let x := FVal.add rm a b.neg; (x.1.abs, x.2)

/-- A result of the arithmetic commands and its status (R128, R129). -/
def Arith.eval (op : Arith) (f : CmdF) (a b c : Nat) : Nat × St :=
  let t := f.typ
  if t.isFloat then t.fmt.result f.rm f.sat (op.float f.rm (t.value a) (t.value b) (t.value c))
  else (t.fit f.sat (op.int (t.toInt a) (t.toInt b) (t.toInt c)), 0)

/-- Whether the float `a` is less than `b`, with −0 below +0; neither is a NaN (R130). -/
def fltBelow (f : Fmt) (a b : Nat) : Bool :=
  let x := f.decode a
  let y := f.decode b
  x.lt y || (x.isZero && y.isZero && decide (a / f.signBit % 2 = 1) && decide (b / f.signBit % 2 = 0))

/-- The smaller or larger of two elements; a NaN counts as missing (R128, R130). -/
def minMax (t : Ty) (max : Bool) (a b : Nat) : Nat :=
  if t.isFloat then
    let f := t.fmt
    if f.isNan a then (if f.isNan b then f.nan else b)
    else if f.isNan b then a
    else if fltBelow f a b then (if max then b else a) else (if max then a else b)
  else if t.toInt a < t.toInt b then (if max then b else a) else (if max then a else b)

/-- min(max(a, lo), hi); a NaN in a gives the canonical NaN (R130). -/
def clampElem (t : Ty) (a lo hi : Nat) : Nat :=
  if t.isFloat && t.fmt.isNan a then t.fmt.nan else minMax t false (minMax t true a lo) hi

/-- The magnitude of a with the sign `neg`; a NaN gives the canonical NaN (R131). -/
def signElem (f : Fmt) (a : Nat) (neg : Bool) : Nat := if f.isNan a then f.nan else f.signed neg (a % f.signBit)

def signOf (f : Fmt) (a : Nat) : Bool := decide (a / f.signBit % 2 = 1)

/-- |a| and −a (R128, R131). -/
def absElem (f : CmdF) (a : Nat) : Nat :=
  let t := f.typ
  if t.isFloat then signElem t.fmt a false else t.fit f.sat ((t.toInt a).natAbs : Int)

def negElem (f : CmdF) (a : Nat) : Nat :=
  let t := f.typ
  if t.isFloat then signElem t.fmt a (!signOf t.fmt a) else t.fit f.sat (-(t.toInt a))

/-- Rounding to an integral value (R131). -/
def rintElem (f : CmdF) (a : Nat) : Nat × St :=
  let g := f.typ.fmt
  match g.decode a with
  | .nan => (g.nan, 0)
  | .inf _ => (a, 0)
  | .fin neg m e =>
    let r := roundUnit f.rm neg m e 0 false
    if r.2 then ((g.round f.rm f.sat neg r.1 0 false).1, St.nx) else (a, 0)

/-- The high half of an integer product (R128). -/
def mulhElem (t : Ty) (a b : Nat) : Nat := ofInt t.width (t.toInt a * t.toInt b / (2 ^ t.width : Nat))

/-- V_ADD (R127). -/
def execVAdd (f : CmdF) (s : State) : Out := .next (s.vec2 f fun a b => Arith.eval .add f a b 0)

/-- V_SUB (R127). -/
def execVSub (f : CmdF) (s : State) : Out := .next (s.vec2 f fun a b => Arith.eval .sub f a b 0)

/-- V_MUL (R127). -/
def execVMul (f : CmdF) (s : State) : Out := .next (s.vec2 f fun a b => Arith.eval .mul f a b 0)

/-- V_MULH (R128). -/
def execVMulh (f : CmdF) (s : State) : Out := .next (s.vec2 f fun a b => (mulhElem f.typ a b, 0))

/-- V_FMA (R127). -/
def execVFma (f : CmdF) (s : State) : Out := .next (s.vec3 f (Arith.eval .fma f))

/-- V_FMS (R127). -/
def execVFms (f : CmdF) (s : State) : Out := .next (s.vec3 f (Arith.eval .fms f))

/-- V_FNMA (R127). -/
def execVFnma (f : CmdF) (s : State) : Out := .next (s.vec3 f (Arith.eval .fnma f))

/-- V_MIN (R130). -/
def execVMin (f : CmdF) (s : State) : Out := .next (s.vec2 f fun a b => (minMax f.typ false a b, 0))

/-- V_MAX (R130). -/
def execVMax (f : CmdF) (s : State) : Out := .next (s.vec2 f fun a b => (minMax f.typ true a b, 0))

/-- V_ABS (R131). -/
def execVAbs (f : CmdF) (s : State) : Out := .next (s.vec1 f fun a => (absElem f a, 0))

/-- V_NEG (R131). -/
def execVNeg (f : CmdF) (s : State) : Out := .next (s.vec1 f fun a => (negElem f a, 0))

/-- V_ADIFF (R127). -/
def execVAdiff (f : CmdF) (s : State) : Out := .next (s.vec2 f fun a b => Arith.eval .adiff f a b 0)

/-- V_CLAMP (R130). -/
def execVClamp (f : CmdF) (s : State) : Out := .next (s.vec3 f fun a lo hi => (clampElem f.typ a lo hi, 0))

/-- V_SGNJ (R131). -/
def execVSgnj (f : CmdF) (s : State) : Out := .next (s.vec2 f fun a b => (signElem f.typ.fmt a (signOf f.typ.fmt b), 0))

/-- V_RINT (R131). -/
def execVRint (f : CmdF) (s : State) : Out := .next (s.vec1 f (rintElem f))

/-! ## Functions (R132, R133) -/

def fnElem (op : Fn) (f : CmdF) (a : Nat) : Nat × St := f.typ.fmt.fn op f.rm f.sat (f.typ.fmt.decode a)

/-- exp2 on fp32, and for the other types rounded once more (R133). -/
def exp2Elem (f : CmdF) (a : Nat) : Nat × St :=
  let x := exp2F (f.typ.fmt.decode a)
  if f.typ = .fp32 then x
  else
    let r := f.typ.fmt.encode f.rm f.sat (Fmt.fp32.decode x.1)
    (r.1, x.2 ||| r.2)

/-- V_RCP (R132). -/
def execVRcp (f : CmdF) (s : State) : Out := .next (s.vec1 f (fnElem .rcp f))

/-- V_RSQRT (R132). -/
def execVRsqrt (f : CmdF) (s : State) : Out := .next (s.vec1 f (fnElem .rsqrt f))

/-- V_LOG2 (R132). -/
def execVLog2 (f : CmdF) (s : State) : Out := .next (s.vec1 f (fnElem .log2 f))

/-- V_EXP2 (R133). -/
def execVExp2 (f : CmdF) (s : State) : Out := .next (s.vec1 f (exp2Elem f))

/-! ## Compare and select (R134, R135) -/

/-- a < b and a = b, and whether the two are unordered (R134). -/
def cmpLt (t : Ty) (a b : Nat) : Bool :=
  if t.isFloat then (t.value a).lt (t.value b) else decide (t.toInt a < t.toInt b)

def cmpEq (t : Ty) (a b : Nat) : Bool :=
  if t.isFloat then (t.value a).eq (t.value b) else decide (t.toInt a = t.toInt b)

def cmpUn (t : Ty) (a b : Nat) : Bool := t.isFloat && (t.fmt.isNan a || t.fmt.isNan b)

/-- V_CMPEQ (R134). -/
def execVCmpeq (f : CmdF) (s : State) : Out := .next (s.cmp2 f (cmpEq f.typ))

/-- V_CMPNE (R134). -/
def execVCmpne (f : CmdF) (s : State) : Out := .next (s.cmp2 f fun a b => !cmpEq f.typ a b)

/-- V_CMPLT (R134). -/
def execVCmplt (f : CmdF) (s : State) : Out := .next (s.cmp2 f (cmpLt f.typ))

/-- V_CMPLE (R134). -/
def execVCmple (f : CmdF) (s : State) : Out := .next (s.cmp2 f fun a b => cmpLt f.typ a b || cmpEq f.typ a b)

/-- V_CMPGT (R134). -/
def execVCmpgt (f : CmdF) (s : State) : Out := .next (s.cmp2 f fun a b => cmpLt f.typ b a)

/-- V_CMPGE (R134). -/
def execVCmpge (f : CmdF) (s : State) : Out := .next (s.cmp2 f fun a b => cmpLt f.typ b a || cmpEq f.typ a b)

/-- V_CMPUN (R134). -/
def execVCmpun (f : CmdF) (s : State) : Out := .next (s.cmp2 f (cmpUn f.typ))

/-- V_SEL (R135): bits are copied. -/
def execVSel (f : CmdF) (s : State) : Out :=
  let w := f.typ.width
  let a := s.src f f.typ 1
  let b := s.src f f.typ 2
  let p := s.preg (f.p 3)
  .next (s.vecWrite f [a, b] fun e => (if pbit p w e then a.get w e else b.get w e, 0))

/-! ## Logic and shifts (R136 to R138) -/

/-- A shift or rotate of the low `w` bits of a by b (R137). -/
inductive Shift where
  | sll | srl | sra | rol | ror
  deriving DecidableEq, Repr

def Shift.eval (op : Shift) (w a b : Nat) : Nat :=
  let x := BitVec.ofNat w a
  match op with
  | .sll => (x <<< min b w).toNat
  | .srl => (x >>> min b w).toNat
  | .sra => (x.sshiftRight (min b w)).toNat
  | .rol => (x.rotateLeft (b % w)).toNat
  | .ror => (x.rotateRight (b % w)).toNat

/-- The funnel shifts of a:b by c (R138). -/
def fslElem (w a b c : Nat) : Nat := (a * 2 ^ w + b) * 2 ^ (c % (2 * w)) % 2 ^ (2 * w) / 2 ^ w
def fsrElem (w a b c : Nat) : Nat := (a * 2 ^ w + b) / 2 ^ (c % (2 * w)) % 2 ^ w

/-- V_AND (R136). -/
def execVAnd (f : CmdF) (s : State) : Out := .next (s.vec2 f fun a b => (a &&& b, 0))

/-- V_OR (R136). -/
def execVOr (f : CmdF) (s : State) : Out := .next (s.vec2 f fun a b => (a ||| b, 0))

/-- V_XOR (R136). -/
def execVXor (f : CmdF) (s : State) : Out := .next (s.vec2 f fun a b => (a ^^^ b, 0))

/-- V_NOT (R136). -/
def execVNot (f : CmdF) (s : State) : Out := .next (s.vec1 f fun a => (2 ^ f.typ.width - 1 - a, 0))

/-- V_ANDN (R136). -/
def execVAndn (f : CmdF) (s : State) : Out := .next (s.vec2 f fun a b => (a &&& (2 ^ f.typ.width - 1 - b), 0))

/-- V_SLL (R137). -/
def execVSll (f : CmdF) (s : State) : Out := .next (s.vec2 f fun a b => (Shift.eval .sll f.typ.width a b, 0))

/-- V_SRL (R137). -/
def execVSrl (f : CmdF) (s : State) : Out := .next (s.vec2 f fun a b => (Shift.eval .srl f.typ.width a b, 0))

/-- V_SRA (R137). -/
def execVSra (f : CmdF) (s : State) : Out := .next (s.vec2 f fun a b => (Shift.eval .sra f.typ.width a b, 0))

/-- V_ROL (R137). -/
def execVRol (f : CmdF) (s : State) : Out := .next (s.vec2 f fun a b => (Shift.eval .rol f.typ.width a b, 0))

/-- V_ROR (R137). -/
def execVRor (f : CmdF) (s : State) : Out := .next (s.vec2 f fun a b => (Shift.eval .ror f.typ.width a b, 0))

/-- V_FSL (R138). -/
def execVFsl (f : CmdF) (s : State) : Out := .next (s.vec3 f fun a b c => (fslElem f.typ.width a b c, 0))

/-- V_FSR (R138). -/
def execVFsr (f : CmdF) (s : State) : Out := .next (s.vec3 f fun a b c => (fsrElem f.typ.width a b c, 0))

/-! ## Bit counts (R72, R139) -/

/-- The lowest `n` bits of a number in reverse order. -/
def revBits : Nat → Nat → Nat
  | 0, _ => 0
  | n + 1, v => v % 2 * 2 ^ n + revBits n (v / 2)

/-- V_CLZ (R139). -/
def execVClz (f : CmdF) (s : State) : Out := .next (s.vec1 f fun a => (clzN f.typ.width a, 0))

/-- V_CTZ (R139). -/
def execVCtz (f : CmdF) (s : State) : Out := .next (s.vec1 f fun a => (ctzN f.typ.width a, 0))

/-- V_FFS (R139). -/
def execVFfs (f : CmdF) (s : State) : Out := .next (s.vec1 f fun a => (((lowestSet f.typ.width a 0).map (· + 1)).getD 0, 0))

/-- V_POP (R139). -/
def execVPop (f : CmdF) (s : State) : Out := .next (s.vec1 f fun a => (popCount f.typ.width a, 0))

/-- V_BREV (R139). -/
def execVBrev (f : CmdF) (s : State) : Out := .next (s.vec1 f fun a => (revBits f.typ.width a, 0))

/-! ## Conversion (R140 to R144) -/

/-- The source type that operand 2 of a conversion names (R140). -/
def CmdF_src (f : CmdF) : Ty := (Ty.ofCode (f.pay 2)).getD .uint8

/-- The element of the source view that feeds element `e` of the destination view, when `e` lies in the destination slice:
`c` columns are converted (R141, R142). -/
def sliceElem (f : CmdF) (c e : Nat) : Option Nat :=
  let nd := f.typ.cols
  let q := e % nd
  if q / c = cvtDst f then some (e / nd * (CmdF_src f).cols + cvtSrc f * c + q % c) else none

/-- V_CVT (R141). -/
def execVCvt (f : CmdF) (s : State) : Out :=
  let t := f.typ
  let u := CmdF_src f
  let a := s.vreg (f.v 1)
  let ps := s.handCtx.ps
  let r := tab (elems t.width) fun e =>
    if enabled f ps t.width e then
      (sliceElem f (min t.cols u.cols) e).map fun i => convertElem u t f.rm f.sat (vget u.width a i)
    else none
  .next ((s.setVreg (f.v 0) (vput t.width (s.vreg (f.v 0)) (r.map fun x => x.map (·.1)))).performedWith (orStatus r) 0)

/-- V_CVTEF (R142): the residual of 64 columns goes to a second register as fp32. -/
def execVCvtef (f : CmdF) (s : State) : Out :=
  let t := f.typ
  let u := CmdF_src f
  let a := s.vreg (f.v 1)
  let ps := s.handCtx.ps
  let r := tab (elems t.width) fun e =>
    if enabled f ps t.width e then (sliceElem f 64 e).map fun i => narrowEf u t f.rm f.sat (vget u.width a i) else none
  let res := tab 1024 fun i => ((r[i / 64 * t.cols + cvtDst f * 64 + i % 64]?).getD none).map fun x => x.2.1
  let s1 := s.setVreg (f.v 0) (vput t.width (s.vreg (f.v 0)) (r.map fun x => x.map (·.1)))
  let s2 := s1.setVreg (f.v 4) (vput 32 (s1.vreg (f.v 4)) res)
  .next (s2.performedWith (orStatus (r.map fun x => x.map fun y => (y.1, y.2.2))) 0)

/-- V_PBPACK (R143): 64 blocks as one byte stream, the rest of the image zero. -/
def execVPbpack (f : CmdF) (s : State) : Out :=
  let t := f.typ
  let a := s.vreg (f.v 1)
  let n := (f.imm18 2).toNat
  let bs := tab 64 fun b => pbEncode t f.rm ((List.range 16).map fun j =>
    let i := 16 * b + j
    if i < n then some (Fmt.fp32.decode (vget 32 a i)) else none)
  let img := bs.foldr (fun x acc => x.1 + acc * 2 ^ (8 * t.pbBytes)) 0
  .next ((s.setVreg (f.v 0) (BitVec.ofNat 32768 img)).performedWith (bs.foldl (fun a x => a ||| x.2) 0) 0)

/-- V_PBUNPK (R144). -/
def execVPbunpk (f : CmdF) (s : State) : Out :=
  let t := f.typ
  let a := s.vreg (f.v 1)
  let n := (f.imm18 2).toNat
  let r := tab 1024 fun i =>
    some (if i < n then (Fmt.fp32.encode .rne false (pbElem t (bitsN a (8 * t.pbBytes * (i / 16)) (8 * t.pbBytes)) (i % 16))).1
          else 0)
  .next ((s.setVreg (f.v 0) (vput 32 (s.vreg (f.v 0)) r)).performedWith 0 0)

end Sys2Proof.Machine
end

