-- ==== Sys2Proof/Machine/VecAxes.lean ====
section
/-! DEFINITION. Vector commands along the axes, permutes and moves, and the predicate commands (R147 to R157, R165,
R166). -/

namespace Sys2Proof.Machine

/-! ## Reductions (R150, R151) -/

inductive Red where
  | sum | max | min | and | or
  deriving DecidableEq, Repr

/-- The exact sum of finite values, as an integer in units of 2^q. -/
def sumAt (q : Int) (xs : List FVal) : Int := xs.foldl (fun a x => match x with
  | .fin neg m e => a + signedNat neg (m * 2 ^ (e - q).toNat)
  | _ => a) 0

def FVal.exp : FVal → Option Int
  | .fin _ _ e => some e
  | _ => none

/-- float_sum of R151 as an exact value, and whether it is invalid. The list is not empty. -/
def floatSum (rm : Rm) (xs : List FVal) : FVal × Bool :=
  if xs.any FVal.isNan then (.nan, false)
  else if xs.contains (.inf false) && xs.contains (.inf true) then (.nan, true)
  else if xs.contains (.inf false) then (.inf false, false)
  else if xs.contains (.inf true) then (.inf true, false)
  else
    let q := ((xs.filterMap FVal.exp).min?).getD 0
    let v := sumAt q xs
    if v = 0 then
      let neg (x : FVal) : Bool := match x with
        | .fin n m _ => n && m == 0
        | _ => false
      let pos (x : FVal) : Bool := match x with
        | .fin n m _ => !n && m == 0
        | _ => false
      (.fin (if xs.all neg then true else if xs.all pos then false else rm == .rdn) 0 0, false)
    else (.fin (decide (v < 0)) v.natAbs q, false)

/-- identity(op) of R150. -/
def Red.identity (op : Red) (t : Ty) : Nat :=
  match op with
  | .sum => 0
  | .max => if t.isFloat then t.fmt.nan else ofInt t.width t.minInt
  | .min => if t.isFloat then t.fmt.nan else ofInt t.width t.maxInt
  | .and => 2 ^ t.width - 1
  | .or => 0

/-- reduce(op, S) of R150 with its status. -/
def Red.reduce (op : Red) (f : CmdF) (xs : List Nat) : Nat × St :=
  let t := f.typ
  match op with
  | .sum =>
    if xs.isEmpty then (0, 0)
    else if t.isFloat then t.fmt.result f.rm f.sat (floatSum f.rm (xs.map t.value))
    else (t.fit f.sat ((xs.map t.toInt).foldl (· + ·) 0), 0)
  | .max => (xs.foldl (minMax t true) (op.identity t), 0)
  | .min => (xs.foldl (minMax t false) (op.identity t), 0)
  | .and => (xs.foldl (fun a x => a &&& x) (op.identity t), 0)
  | .or => (xs.foldl (fun a x => a ||| x) (op.identity t), 0)

/-- Index of position `i` of a line: along a row, or down a column (R147). -/
def lineIdx (t : Ty) (col : Bool) (line i : Nat) : Nat := if col then i * t.cols + line else line * t.cols + i

/-- The enabled elements at positions 0 to n − 1 of a line. -/
def lineVals (t : Ty) (col : Bool) (vals : Array (Option Nat)) (line n : Nat) : List Nat :=
  (List.range n).filterMap fun i => (vals[lineIdx t col line i]?).getD none

/-- A reduction fills each line with one value; a scan writes the value of each prefix (R150, R152). -/
def State.axis (s : State) (f : CmdF) (op : Red) (col scan : Bool) : State :=
  let t := f.typ
  let w := t.width
  let a := s.vreg (f.v 1)
  let ps := s.handCtx.ps
  let len := if col then 16 else t.cols
  let vals := tab (elems w) fun e => if enabled f ps w e then some (vget w a e) else none
  let whole := tab (if col then t.cols else 16) fun l => op.reduce f (lineVals t col vals l len)
  s.vecWrite f [] fun e =>
    let line := if col then e % t.cols else e / t.cols
    let pos := if col then e / t.cols else e % t.cols
    if scan then op.reduce f (lineVals t col vals line (pos + 1)) else (whole[line]?).getD (0, 0)

/-- V_SUMR (R150). -/
def execVSumr (f : CmdF) (s : State) : Out := .next (s.axis f .sum false false)

/-- V_MAXR (R150). -/
def execVMaxr (f : CmdF) (s : State) : Out := .next (s.axis f .max false false)

/-- V_MINR (R150). -/
def execVMinr (f : CmdF) (s : State) : Out := .next (s.axis f .min false false)

/-- V_ANDR (R150). -/
def execVAndr (f : CmdF) (s : State) : Out := .next (s.axis f .and false false)

/-- V_ORR (R150). -/
def execVOrr (f : CmdF) (s : State) : Out := .next (s.axis f .or false false)

/-- V_SCSUMR (R152). -/
def execVScsumr (f : CmdF) (s : State) : Out := .next (s.axis f .sum false true)

/-- V_SCMAXR (R152). -/
def execVScmaxr (f : CmdF) (s : State) : Out := .next (s.axis f .max false true)

/-- V_SCMINR (R152). -/
def execVScminr (f : CmdF) (s : State) : Out := .next (s.axis f .min false true)

/-- V_SUMC (R150). -/
def execVSumc (f : CmdF) (s : State) : Out := .next (s.axis f .sum true false)

/-- V_MAXC (R150). -/
def execVMaxc (f : CmdF) (s : State) : Out := .next (s.axis f .max true false)

/-- V_MINC (R150). -/
def execVMinc (f : CmdF) (s : State) : Out := .next (s.axis f .min true false)

/-- V_ANDC (R150). -/
def execVAndc (f : CmdF) (s : State) : Out := .next (s.axis f .and true false)

/-- V_ORC (R150). -/
def execVOrc (f : CmdF) (s : State) : Out := .next (s.axis f .or true false)

/-- V_SCSUMC (R152). -/
def execVScsumc (f : CmdF) (s : State) : Out := .next (s.axis f .sum true true)

/-- V_SCMAXC (R152). -/
def execVScmaxc (f : CmdF) (s : State) : Out := .next (s.axis f .max true true)

/-- V_SCMINC (R152). -/
def execVScminc (f : CmdF) (s : State) : Out := .next (s.axis f .min true true)

/-! ## Moves (R148, R149, R154 to R157) -/

/-- Bits of element (r, q) of a source, by where each destination element comes from. -/
def State.move (s : State) (f : CmdF) (a : VReg) (src : Nat → Nat → Nat) : State :=
  let n := f.typ.cols
  s.vecWrite f [] fun e => (vget f.typ.width a (src (e / n) (e % n)), 0)

/-- V_ROTR (R148). -/
def execVRotr (f : CmdF) (s : State) : Out :=
  let n := f.typ.cols
  .next (s.move f (s.vreg (f.v 1)) fun r q => r * n + (((q : Int) - f.imm18 2) % (n : Int)).toNat)

/-- V_ROTC (R148). -/
def execVRotc (f : CmdF) (s : State) : Out :=
  .next (s.move f (s.vreg (f.v 1)) fun r q => (((r : Int) - f.imm18 2) % 16).toNat * f.typ.cols + q)

/-- V_BCR (R149). -/
def execVBcr (f : CmdF) (s : State) : Out := .next (s.move f (s.vreg (f.v 1)) fun r _ => r * f.typ.cols + f.pay 2)

/-- V_BCC (R149). -/
def execVBcc (f : CmdF) (s : State) : Out := .next (s.move f (s.vreg (f.v 1)) fun _ q => f.pay 2 * f.typ.cols + q)

/-- V_PERM (R154). -/
def execVPerm (f : CmdF) (s : State) : Out :=
  let w := f.typ.width
  let n := f.typ.cols
  let a := s.vreg (f.v 1)
  let ix := s.vreg (f.v 2)
  .next (s.vecWrite f [] fun e => (if vget w ix e < n then vget w a (e / n * n + vget w ix e) else 0, 0))

/-- V_IOTA (R155). -/
def execVIota (f : CmdF) (s : State) : Out :=
  .next (s.vecWrite f [] fun e => (f.typ.fit f.sat (f.imm18 1 + (e : Int) * f.imm18 2), 0))

/-- V_MOVI (R156). -/
def execVMovi (f : CmdF) (s : State) : Out :=
  let a := s.src f f.typ 1
  .next (s.vecWrite f [a] fun e => (a.get f.typ.width e, 0))

/-- V_MOV (R156). -/
def execVMov (f : CmdF) (s : State) : Out := .next (s.move f (s.vreg (f.v 1)) fun r q => r * f.typ.cols + q)

/-- V_ZIP (R157). -/
def execVZip (f : CmdF) (s : State) : Out :=
  let n := f.typ.cols
  let a := s.vreg (f.v 1)
  let b := s.vreg (f.v 2)
  .next (s.vecWrite f [] fun e =>
    (vget f.typ.width (if e % 2 = 0 then a else b) (e / n * n + f.pay 3 * (n / 2) + e % n / 2), 0))

/-- V_UNZIP (R157). -/
def execVUnzip (f : CmdF) (s : State) : Out :=
  let n := f.typ.cols
  let a := s.vreg (f.v 1)
  let b := s.vreg (f.v 2)
  .next (s.vecWrite f [] fun e =>
    (vget f.typ.width (if e % n < n / 2 then a else b) (e / n * n + 2 * (e % (n / 2)) + f.pay 3), 0))

/-! ## Predicates (R165, R166) -/

/-- A predicate command on all 4,096 bits. -/
def State.predLogic (s : State) (f : CmdF) (p : PReg) : State := (s.setPreg (f.p 0) p).performedWith 0 0

/-- V_PAND (R165). -/
def execVPand (f : CmdF) (s : State) : Out := .next (s.predLogic f (s.preg (f.p 1) &&& s.preg (f.p 2)))
/-- V_POR (R165). -/
def execVPor (f : CmdF) (s : State) : Out := .next (s.predLogic f (s.preg (f.p 1) ||| s.preg (f.p 2)))
/-- V_PXOR (R165). -/
def execVPxor (f : CmdF) (s : State) : Out := .next (s.predLogic f (s.preg (f.p 1) ^^^ s.preg (f.p 2)))
/-- V_PANDN (R165). -/
def execVPandn (f : CmdF) (s : State) : Out := .next (s.predLogic f (s.preg (f.p 1) &&& ~~~ (s.preg (f.p 2))))
/-- V_PNOT (R165). -/
def execVPnot (f : CmdF) (s : State) : Out := .next (s.predLogic f (~~~ (s.preg (f.p 1))))

/-- V_PSET (R166). -/
def execVPset (f : CmdF) (s : State) : Out := .next (s.predWrite f [] fun e => decide ((e : Int) < f.imm18 1))

/-- V_PMOV (R166): from a register to a predicate, or the other way. -/
def execVPmov (f : CmdF) (s : State) : Out :=
  let w := f.typ.width
  .next <|
    if f.kind 0 = 2 then let a := s.vreg (f.v 1); s.predWrite f [] fun e => vget w a e != 0
    else let p := s.preg (f.p 1); s.vecWrite f [] fun e => (if pbit p w e then 2 ^ w - 1 else 0, 0)

/-- V_PCNT (R166): every lane is written, whatever the guard. -/
def execVPcnt (f : CmdF) (s : State) : Out :=
  let w := f.typ.width
  let n := f.typ.cols
  let p := s.preg (f.p 1)
  let ps := s.handCtx.ps
  let rows := tab 16 fun r => (List.range n).countP fun q => enabled f ps w (r * n + q) && pbit p w (r * n + q)
  let total := rows.foldl (· + ·) 0
  let r := tab 1024 fun i => some (if f.pay 2 = 0 then total else (rows[i / 64]?).getD 0)
  .next ((s.setVreg (f.v 0) (vput 32 (s.vreg (f.v 0)) r)).performedWith 0 0)

end Sys2Proof.Machine
end

