-- ==== Sys2Proof/Machine/VecMem.lean ====
section
/-! DEFINITION. Vector commands that reach the scratchpad: table lookup, loads, stores, gathers and scatters (R158 to
R164). What such a command reads of a scratchpad granule it may have read ahead, and a granule that it stores it may have stored ahead
(R225, R240). -/

namespace Sys2Proof.Machine

/-- Scratchpad bytes written one by one by a command, the later ones winning, with the reservations on their lines cleared
(R161, R162, R234). -/
def Hearth.scratchWrites (x : Hearth) (ks : List (Nat × Byte)) : Hearth :=
  ({ x with scratch := x.scratch.writeAll ks }).clearResv true ((ks.map fun k : Nat × Byte => k.1 / 128).eraseDups) none

/-- The store in the hand has written a granule ahead. -/
def Cmd.stored (c : Cmd) (g : Nat) : Bool := c.latch.any fun p => p.1 == g

/-- The writes of the store in the hand that still stand out. -/
def State.unstored (s : State) (ks : List (Nat × Byte)) : List (Nat × Byte) := ks.filter fun k => !s.hand.stored (k.1 / 64)

/-- A vector store: the writes, their distinct bytes for `SIG`, and the done bits (R164). -/
def State.storeWrites (s : State) (ks : List (Nat × Byte)) : State :=
  let s1 := (s.setFh (s.fh.scratchWrites (s.unstored ks))).performedWith 0 ((ks.map (·.1)).eraseDups.length)
  s1.setHand (s1.hand.allDone 0)

/-- Table lookup with indexes of `m` entries (R158). -/
def State.lut (s : State) (f : CmdF) (m : Nat) : State :=
  let w := f.typ.width
  let ix := s.vreg (f.v 1)
  let t := leNat (s.seenRun (s.hand.win 2).a0 64)
  s.vecWrite f [] fun e => (t / 2 ^ (w * (vget w ix e % m)) % 2 ^ w, 0)

/-- V_LUT8 (R158). -/
def execVLut8 (f : CmdF) (s : State) : Out := .next (s.lut f 8)
/-- V_LUT16 (R158). -/
def execVLut16 (f : CmdF) (s : State) : Out := .next (s.lut f 16)

/-- V_LD (R161): rows of the window become rows of the image, zeros beyond it. -/
def execVLd (f : CmdF) (s : State) : Out :=
  let w := f.typ.width
  let win := s.hand.win 1
  let rows := tab 16 fun r =>
    if r < win.rows then leNat (s.seenRun (win.a0 + r * win.pitch) (min win.len 256)) else 0
  .next (s.vecWrite f [] fun e => ((rows[e * w / 2048]?).getD 0 / 2 ^ (e * w % 2048) % 2 ^ w, 0))

/-- The bytes of a register image that a store writes, in row order: those of the window that `sel` selects by image byte
(R161, R162). -/
def imageWrites (win : WinOp) (a : VReg) (sel : Nat → Bool) : List (Nat × Byte) :=
  (List.range (min win.rows 16)).flatMap fun r => (List.range (min win.len 256)).filterMap fun q =>
    if sel (r * 256 + q) then some (win.a0 + r * win.pitch + q, byteOf a (r * 256 + q)) else none

/-- What a `v.st` writes (R161). -/
def State.stWrites (s : State) (f : CmdF) : List (Nat × Byte) :=
  let w := f.typ.width
  let ps := s.handCtx.ps
  imageWrites (s.hand.win 1) (s.vreg (f.v 0)) fun b => enabled f ps w (b / (w / 8))

/-- What a `v.stm` writes (R162). -/
def State.stmWrites (s : State) (f : CmdF) : List (Nat × Byte) :=
  let p := s.preg (f.p 2)
  imageWrites (s.hand.win 1) (s.vreg (f.v 0)) fun b => p.getLsbD b

/-- V_ST (R161). -/
def execVSt (f : CmdF) (s : State) : Out := .next (s.storeWrites (s.stWrites f))

/-- V_STM (R162). -/
def execVStm (f : CmdF) (s : State) : Out := .next (s.storeWrites (s.stmWrites f))

/-- The scratchpad address of index element `i`, when the word at it lies in the window (R163). -/
def gathAddr (win : WinOp) (ix : VReg) (i : Nat) : Option Nat :=
  let a := win.a0 + 4 * vget 32 ix i
  if a + 3 ≤ win.last then some a else none

/-- V_GATH (R163). -/
def execVGath (f : CmdF) (s : State) : Out :=
  let ix := s.vreg (f.v 2)
  .next (s.vecWrite f [] fun i =>
    match gathAddr (s.hand.win 1) ix i with
    | some a => (leNat (s.seenRun a 4), 0)
    | none => (0, 0))

/-- The words that a `v.scat` stores: their addresses and values, by rising element (R163). -/
def State.scatWords (s : State) (f : CmdF) : List (Nat × Nat) :=
  let a := s.vreg (f.v 0)
  let ix := s.vreg (f.v 2)
  let ps := s.handCtx.ps
  (List.range 1024).filterMap fun i =>
    if enabled f ps 32 i then (gathAddr (s.hand.win 1) ix i).map fun x => (x, vget 32 a i) else none

/-- What a `v.scat` writes. -/
def State.scatWrites (s : State) (f : CmdF) : List (Nat × Byte) :=
  (s.scatWords f).flatMap fun p => (leBytes 4 p.2).zipIdx.map fun b => (p.1 + b.2, b.1)

/-- V_SCAT (R163): among valid elements that name one word the highest wins; the done bits wait for completion (R164). -/
def execVScat (f : CmdF) (s : State) : Out :=
  .next ((s.setFh (s.fh.scratchWrites (s.unstored (s.scatWrites f)))).performedWith 0
    (4 * ((s.scatWords f).map (·.1)).eraseDups.length))

/-! ## Granules ahead of the others (R225, R227, R240) -/

/-- What the vector store in the hand writes. -/
def State.handWrites (s : State) : Option (List (Nat × Byte)) :=
  match s.hand.op with
  | some .vSt => some (s.stWrites s.hand.f)
  | some .vStm => some (s.stmWrites s.hand.f)
  | some .vScat => some (s.scatWrites s.hand.f)
  | _ => none

/-- The command in the hand keeps the granules that it has read in its latch: all but the transforms and the search commands. -/
def Cmd.latches (c : Cmd) : Bool :=
  match c.q with
  | .copy => c.op == some .cpLin || c.op == some .cp2d || c.op == some .cpList || c.op == some .cpPeer
  | _ => true

/-- The command in the hand reads a granule of one of its windows ahead, whose chunk is ready, or the store in the hand writes what
falls into a granule. The granules of a command have no order among themselves. -/
def State.lookGran (s : State) (g : Nat) : State :=
  let c := s.hand
  if c.stored g || !c.latches then s
  else
    match s.handWrites with
    | some ks =>
      (s.setFh (s.fh.scratchWrites (ks.filter fun k => k.1 / 64 == g))).setHand { c with latch := c.latch ++ [(g, [])] }
    | none =>
      if c.entries.any fun e => !e.write && decide (e.lo ≤ g) && decide (g ≤ e.hi) &&
          bytesReady (s.fh.earlier c.seq) e (64 * g) (64 * g + 63) then
        s.setHand { c with latch := c.latch ++ [(g, s.fh.scratch.bytes (64 * g) 64)] }
      else s

end Sys2Proof.Machine
end

