-- ==== Sys2Proof/Machine/Matrix.lean ====
section
/-! DEFINITION. The matrix engine: the nest table, weight banks, the running nest, drains, clearing and scaling (R167 to
R182). Each row of a command is one unit, between which pre-emption may stop it. -/

namespace Sys2Proof.Machine

/-! ## Units -/

/-- Up to `n` units of the command in the hand; it stops when the command has performed (R176, R328). -/
def repeatUnits (u : State → State) : Nat → State → State
  | 0, s => s
  | n + 1, s => if s.hand.performed then s else repeatUnits u n (u s)

/-- Units that the engine may perform now. -/
def State.units (s : State) (u : State → State) : State := repeatUnits u s.fh.quota s

/-- A scratchpad write by a command. -/
def State.scratchPut (s : State) (off : Nat) (bs : List Byte) : State := s.setFh (s.fh.scratchStore off bs none)

def State.scratchGet (s : State) (off n : Nat) : List Byte := s.fh.scratch.bytes off n

/-- A unit of the command in the hand is over: its status and bytes are gathered, and the next unit is `pos`. -/
def State.unitDone (s : State) (st : BitVec 4) (bytes : Nat) (pos : Nat) (last : Bool) : State :=
  let c := s.hand
  s.setHand { c with status := c.status ||| st, bytes := c.bytes + bytes, pos := pos, performed := last, logWait := false }

/-- Distinct bytes of `rows` rows of `len` bytes at a pitch (R213). -/
def distinctBytes (rows pitch len : Nat) : Nat := if rows = 0 then 0 else (rows - 1) * min pitch len + len

/-- Intervals of the rows of a window from `first` on. -/
def WinOp.rowsFrom (w : WinOp) (rows len first : Nat) : List (Nat × Nat) :=
  (List.range' first (rows - first)).map fun r => (w.a0 + r * w.pitch, w.a0 + r * w.pitch + len)

/-- The chunks of a byte run that no later byte touches are done (R220). -/
def Cmd.runDone (c : Cmd) (i a len : Nat) (later : List (Nat × Nat)) : Cmd :=
  c.markDone i ((List.range' (a / 512) ((a + len - 1) / 512 - a / 512 + 1)).filter fun k => !ivsTouch later k)

/-- The command in the hand has bytes to write at scratchpad addresses. A granule that it writes, it writes at once: bytes of a
granule that a later byte run still meets wait for that run, and of two bytes at one address the later one stands (R197, R225). -/
def State.putLate (s : State) (ks : List (Nat × Byte)) (later : List (Nat × Nat)) : State :=
  let p := (s.hand.late ++ ks).partition fun k => ivsGran later (k.1 / 64)
  (s.setFh (s.fh.scratchWrites p.2)).setHand { s.hand with late := p.1 }

/-- Bytes at successive addresses. -/
def bytesAt (a : Nat) (bs : List Byte) : List (Nat × Byte) := bs.zipIdx.map fun p => (a + p.2, p.1)

/-- The command in the hand has read the granules of a byte run: a command of several units reads a granule once, so that what it
sees of it is of one moment (R225). -/
def State.latchRun (s : State) (a n : Nat) : State :=
  let gs := (List.range' (a / 64) ((a + n - 1) / 64 - a / 64 + 1)).filter fun g => !(s.hand.latch.any fun p => p.1 == g)
  s.setHand { s.hand with latch := s.hand.latch ++ gs.map fun g => (g, s.scratchGet (64 * g) 64) }

/-- A byte as the command has read it. -/
def Cmd.latched (c : Cmd) (a : Nat) : Byte :=
  match c.latch.find? fun p => p.1 == a / 64 with
  | none => 0
  | some p => (p.2[a % 64]?).getD 0

/-- A byte run as the command has read it. -/
def Cmd.latchedRun (c : Cmd) (a n : Nat) : List Byte := (List.range n).map fun i => c.latched (a + i)

/-! ## The nest table and the banks (R171, R172) -/

def nestOfBytes (bs : List Byte) : Vector NestLevel 6 :=
  Vector.ofFn fun l : Fin 6 =>
    let dw (i : Nat) : Word := BitVec.ofNat 64 (leNat ((bs.drop (32 * l.val + 8 * i)).take 8))
    { cnt := (dw 0).truncate 16, sa := (dw 1).truncate 22, sb := (dw 2).truncate 22, sc := (dw 3).truncate 22 }

/-- MX_CFG (R171). -/
def execMxCfg (_f : CmdF) (s : State) : Out :=
  .next ((s.setHandCtx { s.handCtx with nest := nestOfBytes (s.seenRun (s.hand.win 0).a0 192) }).performedWith 0 0)

/-- One bank row of `mx.ldb` (R172). -/
def State.ldbRow (s : State) (f : CmdF) : State :=
  let w := s.hand.win 1
  let k := s.hand.pos
  let a := w.a0 + k * w.pitch
  let t := s.latchRun a (rowBytes f.typ)
  let raw : BitVec 2048 := BitVec.ofNat 2048 (leNat (t.hand.latchedRun a (rowBytes f.typ)))
  let b : Fin 8 := Fin.ofNat 8 (f.pay 0)
  let bank := s.fh.banks[b]
  let bank1 := { bank with rows := bank.rows.set (Fin.ofNat 128 k) raw }
  (t.setFh { t.fh with banks := t.fh.banks.set b bank1 }).unitDone 0 0 (k + 1) (k + 1 == 128)

/-- MX_LDB (R172). -/
def execMxLdb (f : CmdF) (s : State) : Out := .next (s.units fun t => t.ldbRow f)

/-! ## Running the nest (R67 to R69, R175) -/

/-- Element `n` of a row of 128 in a stream format (R57, R170). -/
def rowElem (t : Ty) (raw n : Nat) : FVal :=
  if t.isPb then pbElem t (raw / 2 ^ (8 * t.pbBytes * (n / 16)) % 2 ^ (8 * t.pbBytes)) (n % 16)
  else t.value (raw / 2 ^ (t.width * n) % 2 ^ t.width)

/-- Rows of the nest: the product of the counts (R175). -/
def nestRows (ls : List NestLevel) : Nat := ls.foldl (fun a l => a * l.n) 1

/-- The indices of the levels at row `p`, innermost last. -/
def nestIdx : List NestLevel → Nat → List Nat
  | [], _ => []
  | l :: ls, p => p / nestRows ls % l.n :: nestIdx ls p

/-- Σ of index × step over the levels, for one of the three steps. -/
def nestSum (ls : List NestLevel) (step : NestLevel → BitVec 22) (p : Nat) : Int :=
  ((ls.zip (nestIdx ls p)).map fun x => (x.2 : Int) * (step x.1).toInt).foldl (· + ·) 0

/-- 128 activations against bank columns: the new accumulator row and its status (R67 to R69). A bank without a latch
gives products +0 (R173), and no activations, for a row outside the window, a row sum of +0 (R175). -/
def goRowVals (x : Option (Array FVal)) (bank : Bank) (old : Nat → Nat) : Array (Nat × St) :=
  let b := match bank.latch with
    | none => none
    | some t => some (tab 128 fun k => let raw := (bank.rows[Fin.ofNat 128 k]).toNat; tab 128 fun n => rowElem t raw n)
  tab 128 fun n =>
    let r := match x, b with
      | none, _ | _, none => (0, 0)
      | some x, some m => rowSum ((List.range 128).map fun k =>
          FVal.mul ((x[k]?).getD .nan) ((((m[k]?).getD #[])[n]?).getD .nan))
    let a := accAdd (old n) r.1
    (a.1, r.2 ||| a.2)

def Acc.row (a : Acc) (r n : Nat) : Nat := ((a.vals.toList[r * 128 + n]?).getD 0).toNat

/-- An accumulator with one row replaced. -/
def Acc.setRow (a : Acc) (r : Nat) (v : Array Nat) : Acc :=
  { a with vals := Vector.ofFn fun i : Fin 16384 =>
      if i.val / 128 = r then BitVec.ofNat 32 ((v[i.val % 128]?).getD 0) else a.vals[i] }

def Hearth.acc (x : Hearth) (n : Nat) : Acc := x.accs[Fin.ofNat 8 n]
def Hearth.setAcc (x : Hearth) (n : Nat) (a : Acc) : Hearth := { x with accs := x.accs.set (Fin.ofNat 8 n) a }

/-- One row of a running nest. A row inside the window waits for its chunks (R221); a row outside streams as zeros. -/
def State.goRow (s : State) (f : CmdF) : State :=
  let c := s.hand
  let ls := c.nest.toList
  let w := c.win 0
  let rb := rowBytes f.typ
  let a : Int := (w.a0 : Int) + nestSum ls (·.sa) c.pos
  let bank : Fin 8 := Fin.ofNat 8 (((f.pay 1 : Int) + nestSum ls (·.sb) c.pos) % 8).toNat
  let row := (((f.pay 2 * 128 : Nat) : Int) + nestSum ls (·.sc) c.pos) % 1024
  let inside := decide ((w.a0 : Int) ≤ a) && decide (a + (rb : Int) - 1 ≤ (w.last : Int))
  let e := (c.entries[0]?).getD (sbEntry false 0 0)
  if inside && !bytesReady (s.fh.earlier c.seq) e a.toNat (a.toNat + rb - 1) then s
  else
    let t := if inside then s.latchRun a.toNat rb else s
    let raw := if inside then leNat (t.hand.latchedRun a.toNat rb) else 0
    let x := if inside then some (tab 128 fun k => rowElem f.typ raw k) else none
    let n := row.toNat / 128
    let r := row.toNat % 128
    let acc := s.fh.acc n
    let v := goRowVals x (s.fh.banks[bank]) (fun i => acc.row r i)
    (t.setFh (t.fh.setAcc n (acc.setRow r (v.map (·.1))))).unitDone (v.foldl (fun z y => z ||| y.2) 0) 0 (c.pos + 1) (c.pos + 1 == nestRows ls)

/-- MX_GO (R175). -/
def execMxGo (f : CmdF) (s : State) : Out := .next (s.units fun t => t.goRow f)

/-! ## Draining (R177 to R180) -/

/-- An exact value converted once to an element type; `true` marks an invalid one (R54, R180). -/
def toTy (t : Ty) (rm : Rm) (sat : Bool) (x : FVal × Bool) : Nat × St :=
  if t.isFloat then t.fmt.result rm sat x else toIntConv t rm sat (if x.2 then .nan else x.1)

/-- The bytes of an output row of 128 exact values, the values as written, and the status (R177, R178). -/
def drainRow (t : Ty) (rm : Rm) (sat : Bool) (xs : List (FVal × Bool)) : List Byte × List FVal × St :=
  if t.isPb then
    let bs := (List.range 8).map fun b => pbEncode t rm (((xs.drop (16 * b)).take 16).map fun x => some (if x.2 then .nan else x.1))
    (bs.flatMap fun b => leBytes t.pbBytes b.1,
     bs.flatMap fun b => (List.range 16).map (pbElem t b.1),
     bs.foldl (fun a b => a ||| b.2) 0)
  else
    let es := xs.map (toTy t rm sat)
    (es.flatMap fun e => leBytes t.bytes e.1, es.map fun e => t.value e.1, es.foldl (fun a e => a ||| e.2) 0)

/-- The exact quotient O ÷ l, with a bit below its lowest that stands for whatever is left (R180): the quotient has at
least 296 bits, so that bit never meets a rounding unit. -/
def quotient (o l : FVal) : FVal × Bool :=
  match o, l with
  | .nan, _ | _, .nan => (.nan, false)
  | .inf _, .inf _ => (.nan, true)
  | .inf a, .fin b _ _ => (.inf (a != b), false)
  | .fin a _ _, .inf b => (.fin (a != b) 0 0, false)
  | .fin a m e, .fin b n g =>
    if n = 0 then (if m = 0 then (.nan, true) else (.inf (a != b), false))
    else
      let q := m * 2 ^ 320 / n
      (.fin (a != b) (2 * q + (if m * 2 ^ 320 % n = 0 then 0 else 1)) (e - g - 321), false)

/-- Rounding to fp32 by RNE, as every step of the online softmax does (R50, R179). -/
def rne32 (x : FVal × Bool) : Nat × St := Fmt.fp32.result .rne false x

def val32 (b : Nat) : FVal := Fmt.fp32.decode b
def mul32 (a b : Nat) : Nat × St := rne32 (FVal.mul (val32 a) (val32 b))
def sub32 (a b : Nat) : Nat × St := rne32 (FVal.add .rne (val32 a) (val32 b).neg)

/-- A list of fp32 patterns with the status gathered in making it. -/
def gather (xs : List (Nat × St)) : List Nat × St := (xs.map (·.1), xs.foldl (fun a x => a ||| x.2) 0)

def negInf32 : Nat := 0xFF800000

/-- One row of an online softmax (R179): the row of O, the pair, the output bytes and the status. -/
def softmaxRow (t : Ty) (sat : Bool) (c : Nat) (sRow oRow : List Nat) (m l : Nat) :
    List Nat × (Nat × Nat) × List Byte × St :=
  let ss := gather (sRow.map fun x => mul32 x c)
  let mx := ss.1.foldl (minMax .fp32 true) negInf32
  let mn := minMax .fp32 true m mx
  let scale := (val32 m).lt (val32 mn) && m != negInf32
  let d := sub32 m mn
  let fx := exp2F (val32 d.1)
  let os := gather (oRow.map fun x => mul32 x fx.1)
  let l1 := mul32 l fx.1
  let o' := if scale then os.1 else oRow
  let l' := if scale then l1.1 else l
  let st1 := if scale then d.2 ||| fx.2 ||| os.2 ||| l1.2 else 0
  let ps := gather (ss.1.map fun x =>
    if mn = negInf32 then (0, 0)
    else
      let y := sub32 x mn
      let p := exp2F (val32 y.1)
      (p.1, y.2 ||| p.2))
  let out := drainRow t .rne sat (ps.1.map fun p => (val32 p, false))
  let sum := out.2.1.foldl (fun (a : Nat × St) x =>
    let r := rne32 (FVal.add .rne (val32 a.1) x)
    (r.1, a.2 ||| r.2)) (l', 0)
  (o', (mn, sum.1), out.1, ss.2 ||| st1 ||| ps.2 ||| out.2.2 ||| sum.2)

def Acc.rowList (a : Acc) (r : Nat) : List Nat := (List.range 128).map (a.row r)

def Acc.pair (a : Acc) (r : Nat) : Nat × Nat :=
  let p := a.smax[Fin.ofNat 128 r]
  (p.1.toNat, p.2.toNat)

def Acc.setPair (a : Acc) (r : Nat) (p : Nat × Nat) : Acc :=
  { a with smax := a.smax.set (Fin.ofNat 128 r) (BitVec.ofNat 32 p.1, BitVec.ofNat 32 p.2) }

def Acc.zeroVals (a : Acc) : Acc := { a with vals := Vector.replicate 16384 0 }
def Acc.resetPairs (a : Acc) : Acc := { a with smax := Vector.replicate 128 (0xFF800000#32, 0#32) }

/-- The counts of a histogram drain are added to the 32 bins, each saturating (R73, R178). -/
def addBins (old : List Byte) (xs : List FVal) : List Byte :=
  (List.range 32).flatMap fun b =>
    let v := leNat ((old.drop (4 * b)).take 4) + xs.countP fun x => histBin x == b
    leBytes 4 (min v (2 ^ 32 - 1))

/-- The accumulator cleared after the last row of a drain is read (R177). -/
def State.drainClear (s : State) (n : Nat) (pairs : Bool) : State :=
  let a := (s.fh.acc n).zeroVals
  s.setFh (s.fh.setAcc n (if pairs then a.resetPairs else a))

/-- The counts of every row of an accumulator, added to the bins of a window; both bin granules are written at once (R178). -/
def State.drainBins (s : State) (n b : Nat) : State :=
  let a := s.fh.acc n
  s.scratchPut b (addBins (s.scratchGet b 128) ((List.range 128).flatMap fun r => (a.rowList r).map val32))

/-- One row of a drain. Where `PITCH` is below the row bytes, the higher row wins at a shared byte; where the bin window overlaps
the destination, the bins are updated once every row stands written (DESIGN CHOICE, log entry 54). -/
def State.drainStep (s : State) (f : CmdF) : State :=
  let c := s.hand
  let r := c.pos
  let w := c.win 0
  let t := f.typ
  let rb := rowBytes t
  let mode := f.pay 3 % 4
  let clr := bit (f.opd 3) 2
  let last := r + 1 == 128
  let src := s.fh.acc (f.pay 1)
  let fin (s1 : State) (bs : List Byte) (st : St) : State :=
    let a := w.a0 + r * w.pitch
    let later := w.rowsFrom 128 rb (r + 1)
    let s2 := s1.putLate (bytesAt a bs) later
    let s3 := if last && mode == 1 then s2.drainBins (f.pay 1) (c.win 2).a0 else s2
    let s4 := if last && clr then s3.drainClear (f.pay 1) (mode == 3) else s3
    let s5 := s4.setHand (s4.hand.runDone 0 a rb later)
    let ivs := w.rowsFrom 128 rb 0 ++ (if mode = 1 then [((c.win 2).a0, (c.win 2).a0 + 128)] else [])
    s5.unitDone st (if last then unionLen ivs else 0) (r + 1) last
  match mode with
  | 2 =>
    let o := s.fh.acc (f.pay 2)
    let p := o.pair r
    let x := softmaxRow t f.sat f.imm.toNat (src.rowList r) (o.rowList r) p.1 p.2
    let o1 := (o.setRow r x.1.toArray).setPair r x.2.1
    fin (s.setFh (s.fh.setAcc (f.pay 2) o1)) x.2.2.1 x.2.2.2
  | 3 =>
    let l := val32 (src.pair r).2
    let x := drainRow t f.rm f.sat ((src.rowList r).map fun v => quotient (val32 v) l)
    fin s x.1 x.2.2
  | _ =>
    let x := drainRow t f.rm f.sat ((src.rowList r).map fun v => (val32 v, false))
    fin s x.1 x.2.2

/-- MX_DRAIN (R177 to R180). -/
def execMxDrain (f : CmdF) (s : State) : Out := .next (s.units fun t => t.drainStep f)

/-! ## Clearing, scaling and reading state (R182) -/

/-- MX_ZERO (R182). -/
def execMxZero (f : CmdF) (s : State) : Out :=
  let a := s.fh.acc (f.pay 0)
  let a1 := if f.pay 1 = 2 then a else a.zeroVals
  let a2 := if f.pay 1 = 1 then a1 else a1.resetPairs
  .next ((s.setFh (s.fh.setAcc (f.pay 0) a2)).performedWith 0 0)

/-- MX_SCALE (R182). -/
def execMxScale (f : CmdF) (s : State) : Out :=
  let a := s.fh.acc (f.pay 0)
  let c := val32 f.imm.toNat
  let v := a.vals.map fun x => Fmt.fp32.result f.rm f.sat (FVal.mul (val32 x.toNat) c)
  let a1 := { a with vals := v.map fun y => BitVec.ofNat 32 y.1 }
  .next ((s.setFh (s.fh.setAcc (f.pay 0) a1)).performedWith (v.toList.foldl (fun z y => z ||| y.2) 0) 0)

/-- MX_RDST (R182). -/
def execMxRdst (f : CmdF) (s : State) : Out :=
  let a := s.fh.acc (f.pay 1 % 8)
  let bs := a.smax.toList.flatMap fun p => leBytes 4 p.1.toNat ++ leBytes 4 p.2.toNat
  let s1 := (s.scratchPut (s.hand.win 0).a0 bs).performedWith 0 1024
  .next (s1.setHand (s1.hand.allDone 0))

end Sys2Proof.Machine
end

