-- ==== Sys2Proof/Machine/Sort.lean ====
section
/-! DEFINITION. The sort array (R37, R66, R183 to R196). A phase, one key or payload of a load, a store or a top-k, or one
granule of a save or a restore is one unit. -/

namespace Sys2Proof.Machine

/-! ## Cells -/

/-- before(x, y, dir) of R184. -/
def SCell.before (desc : Bool) (x y : SCell) : Bool :=
  (if desc then decide (y.key.toNat < x.key.toNat) else decide (x.key.toNat < y.key.toNat)) ||
    (x.key == y.key && decide (x.pay.toNat < y.pay.toNat))

def insertCell (desc : Bool) (x : SCell) : List SCell → List SCell
  | [] => [x]
  | y :: l => if SCell.before desc y x then y :: insertCell desc x l else x :: y :: l

def sortCells (desc : Bool) (l : List SCell) : List SCell := l.foldr (insertCell desc) []

/-- Phase `p` (R185). -/
def phaseCells (p : Nat) (desc : Bool) (v : Vector SCell 16384) : Vector SCell 16384 :=
  let a := v.toArray
  let cell (i : Nat) : SCell := (a[i]?).getD ⟨0, 0⟩
  let lines := tab 128 fun i =>
    (sortCells desc ((List.range 128).map fun j => if p % 2 = 0 then cell (i * 128 + j) else cell (j * 128 + i))).toArray
  let at_ (line pos : Nat) : SCell := (((lines[line]?).getD #[])[pos]?).getD ⟨0, 0⟩
  Vector.ofFn fun i : Fin 16384 =>
    let r := i.val / 128
    let c := i.val % 128
    if p % 2 = 1 then at_ c r else if p < 16 && r % 2 = 1 then at_ r (127 - c) else at_ r c

def State.sa (s : State) : SortArr := s.fh.sa
def State.setSa (s : State) (x : SortArr) : State := s.setFh { s.fh with sa := x }

/-- A cell of the array. -/
def SortArr.cell (x : SortArr) (i : Nat) : SCell := x.cells[Fin.ofNat 16384 i]
def SortArr.setCell (x : SortArr) (i : Nat) (c : SCell) : SortArr := { x with cells := x.cells.set (Fin.ofNat 16384 i) c }

/-- The entry of the command in the hand at an index, and whether its bytes first … last are ready (R219). -/
def State.entryReady (s : State) (i first last : Nat) : Bool :=
  match s.hand.entries[i]? with
  | none => true
  | some e => bytesReady (s.fh.earlier s.hand.seq) e first last

/-! ## Loads (R187) -/

/-- Where element `i` of a window stands. -/
def State.sortAddr (s : State) (pos size i : Nat) : Nat := (s.hand.win pos).elemAddr size i

/-- An element that the command has read. -/
def State.sortGet (s : State) (pos size i : Nat) : Nat := leNat (s.hand.latchedRun (s.sortAddr pos size i) size)

/-- The payload that a base gives: the base plus a count, fitted to uint32. -/
def sortBase (f : CmdF) (pos i : Nat) : Nat := Ty.uint32.fit f.sat (f.imm18 pos + (i : Int))

/-- The key and the payload of element `i`, once the command has read them; `base` elements went before it. -/
def State.sortCell (s : State) (f : CmdF) (kpos base i : Nat) : SCell :=
  ⟨BitVec.ofNat 32 (orderKey f.typ (s.sortGet kpos f.typ.bytes i)),
   BitVec.ofNat 32 (if f.isWin (kpos + 1) then s.sortGet (kpos + 1) 4 i else sortBase f (kpos + 1) (base + i))⟩

/-- Reading `n` elements: the keys in order, and then the payloads of a payload window (R187, R221). Unit `j` is the window and
the element that it reads. The spec does not say in which order the two windows are read (DESIGN CHOICE, log entry 54). -/
def sortUnit (f : CmdF) (kpos n j : Nat) : Nat × Nat × Nat × Nat :=
  if j < n then (0, kpos, f.typ.bytes, j) else (1, kpos + 1, 4, j - n)

/-- Units of such a reading. -/
def sortUnits (f : CmdF) (kpos n : Nat) : Nat := if f.isWin (kpos + 1) then 2 * n else n

/-- The command reads the element of unit `j`, once its chunk is ready (R221). -/
def State.sortRead (s : State) (f : CmdF) (kpos n j : Nat) : Option State :=
  let u := sortUnit f kpos n j
  let a := s.sortAddr u.2.1 u.2.2.1 u.2.2.2
  if s.entryReady u.1 a (a + u.2.2.1 - 1) then some (s.latchRun a u.2.2.1) else none

/-- The control state after a load: a fresh sort, no top-k sequence. -/
def SortArr.fresh (x : SortArr) (m : SMode) : SortArr :=
  { x with phase := 0, smode := m, tkcount := 0, tkk := 0, tkn := 0 }

/-- The array after a load of `n` elements behind row `first / 128`: the cells, the padding and the control state. -/
def SortArr.load (x : SortArr) (f : CmdF) (first n : Nat) (c : Nat → SCell) : SortArr :=
  let pad : SCell := if f.pay 4 % 2 = 1 && f.kind 4 = 8 then ⟨0, 0xFFFFFFFF#32⟩ else ⟨0xFFFFFFFF#32, 0xFFFFFFFF#32⟩
  ({ x with cells := Vector.ofFn fun j : Fin 16384 =>
      if first + n ≤ j.val then pad else if first ≤ j.val then c (j.val - first) else x.cells[j] }).fresh .sort

/-- One unit of `so.ld`: one element is read, and behind the last the cells and the control state are written. -/
def State.soLdStep (s : State) (f : CmdF) : State :=
  let j := s.hand.pos
  let n := soCount .soLd f
  match s.sortRead f 1 n j with
  | none => s
  | some t =>
    let last := j + 1 == sortUnits f 1 n
    let t1 := if last then t.setSa (t.sa.load f (soRow0 f * 128) n (t.sortCell f 1 0)) else t
    t1.unitDone 0 0 (j + 1) last

/-- SO_LD (R187). -/
def execSoLd (f : CmdF) (s : State) : Out := .next (s.units fun t => t.soLdStep f)

/-! ## Phases (R188, R189) -/

/-- What the three commands do before their first phase: the mode becomes sort, and a top-k sequence ends. -/
def SortArr.begin (x : SortArr) : SortArr :=
  let y := { x with smode := .sort }
  if x.smode = .topk then { y with tkcount := 0, tkk := 0, tkn := 0 } else y

/-- One phase of a command that still has `left` phases to run, or its end. -/
def State.soPhase (s : State) (desc : Bool) (left : Nat) : State :=
  let x := if s.hand.pos = 0 then s.sa.begin else s.sa
  if left = 0 || 17 ≤ x.phase then (s.setSa x).unitDone 0 0 s.hand.pos true
  else
    let y := { x with cells := phaseCells x.phase desc x.cells, phase := x.phase + 1 }
    (s.setSa y).unitDone 0 0 (s.hand.pos + 1) (left == 1 || y.phase == 17)

/-- SO_SORT (R188). -/
def execSoSort (f : CmdF) (s : State) : Out := .next (s.units fun t => t.soPhase (f.pay 1 == 1) 17)

/-- SO_STEP (R188). -/
def execSoStep (f : CmdF) (s : State) : Out :=
  .next (s.units fun t => t.soPhase (f.pay 2 == 1) (f.pay 1 - t.hand.pos))

/-- SO_MERGE (R188, R189): from phase 13 on. -/
def execSoMerge (f : CmdF) (s : State) : Out :=
  .next (s.units fun t =>
    let t1 := if t.hand.pos = 0 then t.setSa { t.sa with phase := 13 } else t
    t1.soPhase (f.pay 1 == 1) 17)

/-! ## Stores (R190) -/

/-- The byte runs that units from `j` on write. -/
def State.soStRest (s : State) (f : CmdF) (n j : Nat) : List (Nat × Nat) :=
  let rows (pos size i : Nat) : List (Nat × Nat) := if i < n then (s.hand.win pos).elemRows size n i else []
  rows 1 f.typ.bytes j ++ (if f.isWin 2 then rows 2 4 (j - n) else [])

/-- One unit of `so.st`: the keys are written in order, and then the payloads, so that where the two windows overlap the payload
stands (DESIGN CHOICE, log entry 54). -/
def State.soStStep (s : State) (f : CmdF) : State :=
  let j := s.hand.pos
  let n := soCount .soSt f
  let u := sortUnit f 1 n j
  let a := s.sortAddr u.2.1 u.2.2.1 u.2.2.2
  if !s.entryReady u.1 a (a + u.2.2.1 - 1) then s
  else
    let c := s.sa.cell u.2.2.2
    let v := if u.1 = 0 then orderUnkey f.typ c.key.toNat else c.pay.toNat
    let rest := s.soStRest f n (j + 1)
    let t := s.putLate (bytesAt a (leBytes u.2.2.1 v)) rest
    let t1 := t.setHand ((t.hand.runDone 0 a u.2.2.1 rest).runDone 1 a u.2.2.1 rest)
    let last := j + 1 == sortUnits f 1 n
    t1.unitDone 0 (if last then unionLen (s.soStRest f n 0) else 0) (j + 1) last

/-- SO_ST (R190). -/
def execSoSt (f : CmdF) (s : State) : Out := .next (s.units fun t => t.soStStep f)

/-! ## Top-k (R191 to R193) -/

/-- What an `so.topk` starts from: k, the count so far, the direction, the cursor and the kept cells (R191). -/
structure TopkIn where
  k : Nat
  count : Nat
  desc : Bool
  cur : Option SCell
  kept : List SCell
  deriving DecidableEq, Repr

/-- The start of a new sequence, or the continuation of the one in the array. -/
def State.topkIn (s : State) (f : CmdF) : TopkIn :=
  let x := s.sa
  if bit f.imm 11 then
    let k := bitsN f.imm 0 11
    { k := k, count := 0, desc := !bit f.imm 12,
      cur := if bit f.imm 13 then
          some ⟨BitVec.ofNat 32 (orderKey f.typ (vget 32 (s.vreg (f.v 0)) (k - 1))),
                BitVec.ofNat 32 (vget 32 (s.vreg (f.v 1)) (k - 1))⟩
        else none,
      kept := [] }
  else
    { k := x.tkk, count := x.tkcount, desc := (x.cell 16382).key == 1,
      cur := if (x.cell 16382).pay = 1 then some (x.cell 16383) else none,
      kept := (List.range x.tkn).map x.cell }

/-- The cells that an `so.topk` leaves (R193). -/
def topkCells (t : TopkIn) (kept : Array SCell) : Vector SCell 16384 :=
  Vector.ofFn fun j : Fin 16384 =>
    if j.val = 16382 then ⟨if t.desc then 1 else 0, if t.cur.isSome then 1 else 0⟩
    else if j.val = 16383 then t.cur.getD ⟨0, 0xFFFFFFFF#32⟩
    else (kept[j.val]?).getD ⟨0, 0xFFFFFFFF#32⟩

/-- What an `so.topk` does once it has read its `n` elements (R191 to R193). -/
def State.topkEnd (s : State) (f : CmdF) (n : Nat) : State :=
  let t := s.topkIn f
  let new := (List.range n).map (s.sortCell f 2 t.count)
  let cand := (t.kept ++ new).filter fun x => (t.cur.map fun c => SCell.before t.desc c x).getD true
  let kept := ((sortCells t.desc cand).take t.k).toArray
  let x : SortArr := { s.sa with cells := topkCells t kept, smode := .topk, tkk := t.k, tkcount := t.count + n, tkn := kept.size }
  let vk := tab 1024 fun e => some (((kept[e]?).map fun c => orderUnkey f.typ c.key.toNat).getD 0)
  let vp := tab 1024 fun e => some (((kept[e]?).map fun c => c.pay.toNat).getD 0xFFFFFFFF)
  let s1 := s.setSa x
  let s2 := s1.setVreg (f.v 0) (vput 32 0 vk)
  (s2.setVreg (f.v 1) (vput 32 0 vp)).performedWith 0 0

/-- One unit of an `so.topk`: its length is checked, one element is read, or, with all read, it takes effect (R191 to R193). -/
def State.soTopk (s : State) (f : CmdF) : State :=
  let j := s.hand.pos
  let n := soCount .soTopk f
  if (!bit f.imm 11 && s.sa.smode != .topk) || 2 ^ 20 < (s.topkIn f).count + n then s.failCmd s.foc.h s.hand 29 0 0
  else if j = sortUnits f 2 n then s.topkEnd f n
  else
    match s.sortRead f 2 n j with
    | none => s
    | some t => t.unitDone 0 0 (j + 1) false

/-- SO_TOPK (R191). -/
def execSoTopk (f : CmdF) (s : State) : Out := .next (s.units fun t => t.soTopk f)

/-! ## Saving, restoring and clearing (R194, R195) -/

def SMode.code : SMode → Nat
  | .idle => 0
  | .sort => 1
  | .topk => 2

/-- The control block of a saved array (R194). -/
def SortArr.control (x : SortArr) : Nat :=
  x.phase % 32 + x.smode.code * 2 ^ 5 + x.tkk % 2 ^ 11 * 2 ^ 10 + x.tkcount % 2 ^ 21 * 2 ^ 32 + x.tkn % 2 ^ 11 * 2 ^ 53

/-- The 64 bytes of eight cells. -/
def SortArr.cellBytes (x : SortArr) (g : Nat) : List Byte :=
  (List.range 8).flatMap fun i => let c := x.cell (8 * g + i); leBytes 4 c.key.toNat ++ leBytes 4 c.pay.toNat

/-- One granule of `so.save`: eight cells, or behind the last the control block. -/
def State.soSaveStep (s : State) : State :=
  let g := s.hand.pos
  let a := (s.hand.win 1).a0 + 64 * g
  if !s.entryReady 0 a (a + 63) then s
  else
    let last := g == 2048
    let s1 := s.scratchPut a (if last then leBytes 64 s.sa.control else s.sa.cellBytes g)
    let s2 := if last || (a + 64) % 512 = 0 then s1.setHand (s1.hand.markDone 0 [a / 512]) else s1
    s2.unitDone 0 (if last then 131136 else 0) (g + 1) last

/-- SO_SAVE (R194). -/
def execSoSave (_f : CmdF) (s : State) : Out := .next (s.units State.soSaveStep)

/-- The control state of a restored block; a malformed one gives the idle state (R194). -/
def SortArr.restore (x : SortArr) (b : BitVec 512) : SortArr :=
  let phase := bitsN b 0 5
  let sm := bitsN b 5 2
  let tkk := bitsN b 10 11
  let tkcount := bitsN b 32 21
  let tkn := bitsN b 53 11
  if bitsN b 7 3 ≠ 0 || bitsN b 21 11 ≠ 0 || bitsN b 64 448 ≠ 0 || 17 < phase || sm = 3 || 2 ^ 20 < tkcount || 1024 < tkk ||
      tkk < tkn || tkcount < tkn || (sm = 2 && tkk = 0) then
    x.fresh .idle
  else
    { x with phase := phase, smode := if sm = 0 then .idle else if sm = 1 then .sort else .topk, tkk := tkk,
             tkcount := tkcount, tkn := tkn }

/-- One granule of `so.rest`: eight cells, or behind the last the control block. -/
def State.soRestStep (s : State) : State :=
  let g := s.hand.pos
  let a := (s.hand.win 1).a0 + 64 * g
  if !s.entryReady 0 a (a + 63) then s
  else
    let bs := s.seenRun a 64
    if g = 2048 then (s.setSa (s.sa.restore (ofBytes512 bs))).unitDone 0 0 (g + 1) true
    else
      let word (i : Nat) : W32 := BitVec.ofNat 32 (leNat ((bs.drop (4 * i)).take 4))
      let x := { s.sa with cells := Vector.ofFn fun j : Fin 16384 =>
        if j.val / 8 = g then ⟨word (2 * (j.val % 8)), word (2 * (j.val % 8) + 1)⟩ else s.sa.cells[j] }
      (s.setSa x).unitDone 0 0 (g + 1) false

/-- SO_REST (R194). -/
def execSoRest (_f : CmdF) (s : State) : Out := .next (s.units State.soRestStep)

/-- SO_CLR (R195). -/
def execSoClr (_f : CmdF) (s : State) : Out := .next ((s.setSa SortArr.reset).performedWith 0 0)

end Sys2Proof.Machine
end

