-- ==== Sys2Proof/Machine/XCore.lean ====
section
/-! DEFINITION. The transform core: registers, its address space, and the scalar instructions (R77, R270, R276). An answer
of none is an exception on the transform core. What R77 takes from the RISC-V specifications is PRESUMED (log entry 15). -/

namespace Sys2Proof.Machine

/-! ## Registers -/

def XCore.get (k : XCore) (r : XReg) : Word := if r = 0 then 0 else k.xs[r]
def XCore.set (k : XCore) (r : XReg) (v : Word) : XCore := if r = 0 then k else { k with xs := k.xs.set r v }

/-- A free value of the instruction under way. -/
def XCore.openAt (k : XCore) (place : Nat) : Word := Config.coreOpen k.seed (k.uses + 1) place

/-- The instruction under way is over; the next one stands `n` bytes on. -/
def XCore.retire (k : XCore) (n : Nat) : XCore := { k with pc := k.pc + BitVec.ofNat 64 n, uses := k.uses + 1 }

/-! ## The address space (R270) -/

/-- The routine as the core sees it: its code, and where in the code area the code begins. -/
structure XCode where
  base : Nat
  bytes : List Byte
  deriving DecidableEq, Repr

/-- A byte of the code area. What stands outside the running routine is free. -/
def XCore.codeByte (k : XCore) (c : XCode) (off : Nat) : Byte :=
  if c.base ≤ off then (c.bytes[off - c.base]?).getD ((Config.coreOpen k.seed 0 off).truncate 8)
  else (Config.coreOpen k.seed 0 off).truncate 8

/-- `n` bytes of the code area as a number. -/
def XCore.codeN (k : XCore) (c : XCode) (off n : Nat) : Nat := leNat ((List.range n).map fun j => k.codeByte c (off + j))

/-- A load of `n` bytes; misaligned addresses and all others than those of R270 raise an exception. -/
def XCore.loadN (k : XCore) (c : XCode) (a : Word) (n : Nat) : Option Nat :=
  let b := a.toNat
  if b % n ≠ 0 then none
  else if b < 0x10000 then some (leNat (k.buf.bytes b n))
  else if b < 0x1C000 then some (k.codeN c (b - 0x10000) n)
  else none

/-- A store of `n` bytes; the code area is read-only. -/
def XCore.storeN (k : XCore) (a : Word) (n v : Nat) : Option XCore :=
  let b := a.toNat
  if b % n ≠ 0 || 0x10000 ≤ b then none else some { k with buf := k.buf.store b (leBytes n v) }

/-- The instruction word at the pc; its upper half is read only when the lower half calls for it. -/
def XCore.fetch (k : XCore) (c : XCode) : Option W32 :=
  let b := k.pc.toNat
  if b < 0x10000 || 0x1C000 ≤ b then none
  else
    let lo := k.codeN c (b - 0x10000) 2
    if lo % 4 ≠ 3 then some (BitVec.ofNat 32 lo)
    else if 0x1C000 ≤ b + 2 then none
    else some (BitVec.ofNat 32 (k.codeN c (b - 0x10000) 4))

/-! ## Scalar instructions -/

def XCore.intResult (k : XCore) : IntOp → XReg × Word
  | .rr op rd a b => (rd, ropVal op (k.get a) (k.get b))
  | .ri op rd a imm => (rd, iopVal op (k.get a) imm)
  | .sh op rd a n => (rd, shVal op (k.get a) n.toNat)
  | .un op rd a => (rd, uopVal op (k.get a))
  | .lui rd imm => (rd, (imm ++ 0#12).signExtend 64)
  | .auipc rd imm => (rd, k.pc + (imm ++ 0#12).signExtend 64)

def XCore.branch (k : XCore) (b : Branch) (len : Nat) : XCore :=
  let t : Bool × Word × XReg := match b with
    | .br c a b off => (brTaken c (k.get a) (k.get b), k.pc + off.signExtend 64, 0)
    | .jal rd off => (true, k.pc + off.signExtend 64, rd)
    | .jalr rd a off => (true, (k.get a + off.signExtend 64) &&& ~~~ (1#64), rd)
  let n := k.retire len
  if t.1 then { n.set t.2.2 n.pc with pc := t.2.1 } else n

/-! ## The CSRs of the V extension -/

def XCore.csrGet (k : XCore) (csr : Nat) : Word :=
  match csr with
  | 0x008 => BitVec.ofNat 64 k.vstart
  | 0x009 => if k.vxsat then 1 else 0
  | 0x00A => k.vxrm.zeroExtend 64
  | 0x00F => (k.vxrm ++ BitVec.ofBool k.vxsat).zeroExtend 64
  | 0xC20 => BitVec.ofNat 64 k.vl
  | 0xC21 => k.vtype
  | _ => 64

/-- A write; `vl`, `vtype` and `vlenb` are read-only. -/
def XCore.csrPut (k : XCore) (csr : Nat) (v : Word) : Option XCore :=
  match csr with
  | 0x008 => some { k with vstart := bitsN v 0 9 }
  | 0x009 => some { k with vxsat := bit v 0 }
  | 0x00A => some { k with vxrm := field v 0 2 }
  | 0x00F => some { k with vxsat := bit v 0, vxrm := field v 1 2 }
  | _ => none

def XCore.csr (k : XCore) (i : CsrI) : Option XCore :=
  let n := i.csr.toNat
  let old := k.csrGet n
  let src : Word := if i.imm then BitVec.ofNat 64 i.rs1.val else k.get i.rs1
  let k1 : Option XCore := match i.op with
    | .rw => k.csrPut n src
    | .rs => if i.rs1 = 0 then some k else k.csrPut n (old ||| src)
    | .rc => if i.rs1 = 0 then some k else k.csrPut n (old &&& ~~~ src)
  k1.map fun t => (t.set i.rd old).retire 4

/-! ## Vector length and type -/

/-- SEW, and the base-2 logarithms of SEW / 8 and of LMUL. -/
def XCore.vsew (k : XCore) : Nat := bitsN k.vtype 3 3
def XCore.sew (k : XCore) : Nat := 8 * 2 ^ k.vsew
def vlmulOf (vtype : Word) : Int := toSigned 3 (bitsN vtype 0 3)
def XCore.lmul (k : XCore) : Int := vlmulOf k.vtype
def XCore.vill (k : XCore) : Bool := bit k.vtype 63

/-- VLMAX of a `vtype`: VLEN × LMUL / SEW. -/
def vlmaxOf (vtype : Word) : Nat := 2 ^ (6 + vlmulOf vtype - (bitsN vtype 3 3 : Int)).toNat
def XCore.vlmax (k : XCore) : Nat := if k.vill then 0 else vlmaxOf k.vtype

/-- The `vtype` values that VLEN 512 and ELEN 64 support: SEW at most LMUL × ELEN. -/
def vtypeOk (v : Word) : Bool :=
  bitsN v 8 56 == 0 && decide (bitsN v 3 3 < 4) && bitsN v 0 3 != 4 && decide ((bitsN v 3 3 : Int) ≤ vlmulOf v + 3)

/-- The vector length for an application length. -/
def vlFor (avl vlmax : Nat) : Nat :=
  if avl ≤ vlmax then avl
  else if 2 * vlmax ≤ avl then vlmax
  else
    let lo := (avl + 1) / 2
    lo + Config.stripLength avl vlmax % (vlmax - lo + 1)

/-- `vsetvli`, `vsetivli` and `vsetvl`. A length kept over a change of VLMAX sets `vill`. -/
def XCore.vset (k : XCore) (v : VSet) : XCore :=
  let t : XReg × Word × Option Nat := match v with
    | .vli rd rs1 imm => (rd, imm.zeroExtend 64, if rs1 ≠ 0 then some (k.get rs1).toNat else if rd ≠ 0 then some (2 ^ 64 - 1) else none)
    | .ivli rd avl imm => (rd, imm.zeroExtend 64, some avl.toNat)
    | .vl rd rs1 rs2 => (rd, k.get rs2, if rs1 ≠ 0 then some (k.get rs1).toNat else if rd ≠ 0 then some (2 ^ 64 - 1) else none)
  let ok := vtypeOk t.2.1 && (t.2.2.isSome || k.vlmax == vlmaxOf t.2.1)
  let vl := if ok then (match t.2.2 with
    | some a => vlFor a (vlmaxOf t.2.1)
    | none => k.vl) else 0
  ({ k with vtype := if ok then t.2.1 else 0x8000000000000000#64, vl := vl, vstart := 0 }.set t.1 (BitVec.ofNat 64 vl)).retire 4

end Sys2Proof.Machine
end

