-- ==== Sys2Proof/Machine/XVector.lean ====
section
/-! DEFINITION. The vector instructions of the transform core: integer, fixed-point, mask, permute and memory instructions
of the V extension 1.0 at VLEN 512 and ELEN 64 (R77, R270). R77 names that specification by name only, so what follows from
it is PRESUMED (log entry 15). A reserved encoding or operand choice is the illegal-instruction trap. -/

namespace Sys2Proof.Machine

/-! ## Elements and groups -/

/-- Element `i` of width `w` of the group that begins at a register; a mask has width 1. -/
def XCore.vget (k : XCore) (w r i : Nat) : Nat :=
  (elem w (k.vs[(r + i * w / 512) % 32]'(Nat.mod_lt _ (by decide))) (i % (512 / w))).toNat

def XCore.vgetS (k : XCore) (w r i : Nat) : Int := toSigned w (k.vget w r i)
def XCore.mask (k : XCore) (r i : Nat) : Bool := k.vget 1 r i == 1

/-- A group of `g` registers with the elements of width `w` replaced wherever `f` gives a value. -/
def XCore.putGroup (k : XCore) (w vd g : Nat) (f : Nat → Option Nat) : XCore :=
  { k with vs := Vector.ofFn fun r : Fin 32 =>
      if vd ≤ r.val && decide (r.val < vd + g) then
        packUpd w k.vs[r] fun i => (f (i + (r.val - vd) * (512 / w))).map (BitVec.ofNat w)
      else k.vs[r] }

/-- A register operand: its first register, its element width, and the base-2 logarithm of its EMUL. -/
structure VOpd where
  reg : Nat
  w : Nat
  em : Int
  deriving DecidableEq, Repr

def VOpd.regs (o : VOpd) : Nat := 2 ^ o.em.toNat
def VOpd.ok (o : VOpd) : Bool := decide (-3 ≤ o.em) && decide (o.em ≤ 3) && o.reg % o.regs == 0
def VOpd.meets (a b : VOpd) : Bool := decide (a.reg < b.reg + b.regs) && decide (b.reg < a.reg + a.regs)

/-- The EMUL of elements of width `w` under the current `vtype`. -/
def XCore.emul (k : XCore) (w : Nat) : Int := k.lmul + Nat.log2 w - Nat.log2 k.sew

/-- A group of elements of width `w`; a mask register; a single register that holds a scalar element. -/
def XCore.grp (k : XCore) (r w : Nat) : VOpd := ⟨r, w, k.emul w⟩
def maskOpd (r : Nat) : VOpd := ⟨r, 1, 0⟩
def scalarOpd (r w : Nat) : VOpd := ⟨r, w, 0⟩

/-- A destination may overlap a source of its own width, the low part of a wider source, or with its high part a narrower
source of at least one register. -/
def overlapOk (d s : VOpd) : Bool :=
  !d.meets s || d.w == s.w || (decide (d.w < s.w) && d.reg == s.reg) ||
    (decide (s.w < d.w) && decide (0 ≤ s.em) && s.reg + s.regs == d.reg + d.regs)

/-- Sources that share a register have one width. -/
def sourcesOk (l : List VOpd) : Bool := l.all fun a => l.all fun b => !a.meets b || a.w == b.w

/-- The operands of an instruction are legal. A masked instruction reads v0, and writes it only as a mask. -/
def operandsOk (vm : Bool) (d : Option VOpd) (srcs : List VOpd) : Bool :=
  let l := if vm then srcs else maskOpd 0 :: srcs
  l.all VOpd.ok && sourcesOk l &&
    match d with
    | none => true
    | some d => d.ok && l.all (overlapOk d) && (vm || d.w == 1 || d.reg != 0)

/-- An element position is active. -/
def XCore.active (k : XCore) (vm : Bool) (i : Nat) : Bool := vm || k.mask 0 i

/-- The body positions that are active, in order. -/
def XCore.activeList (k : XCore) (vm : Bool) : List Nat :=
  (List.range k.vl).filter fun i => decide (k.vstart ≤ i) && k.active vm i

/-- An element that an agnostic policy leaves: undisturbed or all ones. -/
def XCore.agnostic (k : XCore) (w r i : Nat) : Option Nat :=
  if bit (k.openAt (r * 512 + i)) 0 then some (2 ^ w - 1) else none

/-- The new value of a destination element, none for an unchanged one: positions before `vstart` are unchanged, active ones
take the result, inactive ones and the tail follow `vma` and `vta`. The tail of a mask is always agnostic, and may hold
anything. -/
def XCore.newElem (k : XCore) (w r : Nat) (vm : Bool) (f : Nat → Nat) (i : Nat) : Option Nat :=
  if k.vl ≤ k.vstart || decide (i < k.vstart) then none
  else if k.vl ≤ i then
    if w = 1 then some (bitsN (k.openAt (r * 512 + i)) 0 1)
    else if bit k.vtype 6 then k.agnostic w r i
    else none
  else if k.active vm i then some (f i)
  else if bit k.vtype 7 then k.agnostic w r i
  else none

/-- A destination group with its results. -/
def XCore.result (k : XCore) (d : VOpd) (vm : Bool) (f : Nat → Nat) : XCore :=
  k.putGroup d.w d.reg d.regs (k.newElem d.w d.reg vm f)

/-- A vector instruction is over. -/
def XCore.vdone (k : XCore) : XCore := { k with vstart := 0 }.retire 4

/-! ## Element operations -/

/-- `v / 2^d`, rounded by `vxrm`: to nearest up, to nearest even, down, or to odd. -/
def roundOff (rm : Nat) (v : Int) (d : Nat) : Int :=
  let q := v / (2 ^ d : Nat)
  let low := (v % (2 ^ d : Nat)).toNat
  let half := 2 ^ d / 2
  let odd := q % 2 == 1
  let up := match rm with
    | 0 => decide (0 < d) && decide (half ≤ low)
    | 1 => decide (0 < d) && (decide (half < low) || (low == half && odd))
    | 2 => false
    | _ => low != 0 && !odd
  q + if up then 1 else 0

/-- The nearest number of the signed or unsigned format, and whether it differs. -/
def clipN (signed : Bool) (w : Nat) (v : Int) : Nat × Bool :=
  let lo : Int := if signed then -(2 ^ (w - 1) : Nat) else 0
  let hi : Int := if signed then (2 ^ (w - 1) : Nat) - 1 else (2 ^ w : Nat) - 1
  let u := max lo (min hi v)
  (ofInt w u, u != v)

/-- An operation of one width: `a` is the element of vs2, `b` that of the first source. The second part says that it saturated. -/
def vbinVal (o : VBin) (w rm a b : Nat) : Nat × Bool :=
  let x := toSigned w a
  let y := toSigned w b
  let sh := b % w
  let plain (n : Nat) : Nat × Bool := (n, false)
  let wrap (v : Int) : Nat × Bool := (ofInt w v, false)
  match o with
  | .add => wrap (a + b)
  | .sub => wrap (a - b)
  | .rsub => wrap (b - a)
  | .minu => plain (min a b)
  | .min => wrap (min x y)
  | .maxu => plain (max a b)
  | .max => wrap (max x y)
  | .and => plain (a &&& b)
  | .or => plain (a ||| b)
  | .xor => plain (a ^^^ b)
  | .sll => wrap (a * (2 ^ sh : Nat))
  | .srl => plain (a / 2 ^ sh)
  | .sra => wrap (x / (2 ^ sh : Nat))
  | .saddu => clipN false w (a + b)
  | .sadd => clipN true w (x + y)
  | .ssubu => clipN false w (a - b)
  | .ssub => clipN true w (x - y)
  | .aaddu => wrap (roundOff rm (a + b) 1)
  | .aadd => wrap (roundOff rm (x + y) 1)
  | .asubu => wrap (roundOff rm (a - b) 1)
  | .asub => wrap (roundOff rm (x - y) 1)
  | .smul => clipN true w (roundOff rm (x * y) (w - 1))
  | .ssrl => wrap (roundOff rm a sh)
  | .ssra => wrap (roundOff rm x sh)
  | .divu => plain (divU w (BitVec.ofNat w a) (BitVec.ofNat w b)).toNat
  | .div => plain (divS w (BitVec.ofNat w a) (BitVec.ofNat w b)).toNat
  | .remu => plain (remU w (BitVec.ofNat w a) (BitVec.ofNat w b)).toNat
  | .rem => plain (remS w (BitVec.ofNat w a) (BitVec.ofNat w b)).toNat
  | .mulhu => plain (a * b / 2 ^ w)
  | .mul => wrap (a * b)
  | .mulhsu => wrap (x * b / (2 ^ w : Nat))
  | .mulh => wrap (x * y / (2 ^ w : Nat))

def vcmpVal (o : VCmp) (w a b : Nat) : Bool :=
  let x := toSigned w a
  let y := toSigned w b
  match o with
  | .eq => a == b
  | .ne => a != b
  | .ltu => decide (a < b)
  | .lt => decide (x < y)
  | .leu => decide (a ≤ b)
  | .le => decide (x ≤ y)
  | .gtu => decide (b < a)
  | .gt => decide (y < x)

/-- A narrowing operation: `a` has width 2 × `w`. -/
def vnarVal (o : VNar) (w rm a b : Nat) : Nat × Bool :=
  let sh := b % (2 * w)
  let x := toSigned (2 * w) a
  match o with
  | .srl => (a / 2 ^ sh % 2 ^ w, false)
  | .sra => (ofInt w (x / (2 ^ sh : Nat)), false)
  | .clipu => clipN false w (roundOff rm a sh)
  | .clip => clipN true w (roundOff rm x sh)

/-- A widening operation: `a` has width `wa`, `b` width `w`, the result 2 × `w`. -/
def vwidVal (o : VWid) (wa w a b : Nat) : Nat :=
  let x := toSigned wa a
  let y := toSigned w b
  match o with
  | .addu => ofInt (2 * w) (a + b)
  | .add => ofInt (2 * w) (x + y)
  | .subu => ofInt (2 * w) (a - b)
  | .sub => ofInt (2 * w) (x - y)
  | .mulu => a * b
  | .mulsu => ofInt (2 * w) (x * b)
  | .mul => ofInt (2 * w) (x * y)

/-- A multiply-add: `a` from vs2, `b` from the first source, `d` the old destination element. -/
def vmacVal (o : VMac) (w a b d : Nat) : Nat :=
  match o with
  | .madd => ofInt w (b * d + a)
  | .nmsub => ofInt w (a - (b * d : Nat))
  | .macc => ofInt w (b * a + d)
  | .nmsac => ofInt w (d - (b * a : Nat))

def vwmacVal (o : VWmac) (w a b d : Nat) : Nat :=
  let x := toSigned w a
  let y := toSigned w b
  match o with
  | .u => ofInt (2 * w) (a * b + d)
  | .s => ofInt (2 * w) (x * y + d)
  | .us => ofInt (2 * w) (x * b + d)
  | .su => ofInt (2 * w) (a * y + d)

def vredVal (o : VRed) (w a b : Nat) : Nat :=
  match o with
  | .sum => (a + b) % 2 ^ w
  | .and => a &&& b
  | .or => a ||| b
  | .xor => a ^^^ b
  | .minu => min a b
  | .min => ofInt w (min (toSigned w a) (toSigned w b))
  | .maxu => max a b
  | .max => ofInt w (max (toSigned w a) (toSigned w b))

/-- A mask operation: `a` from vs2, `b` from vs1. -/
def vlogVal (o : VLog) (a b : Bool) : Bool :=
  match o with
  | .andn => a && !b
  | .and => a && b
  | .or => a || b
  | .xor => a != b
  | .orn => a || !b
  | .nand => !(a && b)
  | .nor => !(a || b)
  | .xnor => a == b

/-! ## The first source -/

/-- The first source element of width `w`. An immediate is sign-extended, or an amount or index of 5 bits. -/
def XCore.src1 (k : XCore) (a : VArgs) (amount : Bool) (w i : Nat) : Nat :=
  match a.src with
  | .v => k.vget w a.vs1.toNat i
  | .x => (k.get (xr a.vs1)).toNat % 2 ^ w
  | .i => if amount then a.vs1.toNat % 2 ^ w else ofInt w a.vs1.toInt

/-- The operand that the first source adds: a register group, or nothing for a scalar or an immediate. -/
def XCore.srcOpd (k : XCore) (a : VArgs) (w : Nat) : List VOpd :=
  match a.src with
  | .v => [k.grp a.vs1.toNat w]
  | .x | .i => []

def VBin.isAmount : VBin → Bool
  | .sll | .srl | .sra | .ssrl | .ssra => true
  | _ => false

/-- A mask bit as a number. -/
def b2n (b : Bool) : Nat := if b then 1 else 0

/-- A slide's or gather's offset: the whole register, or the 5-bit immediate. -/
def XCore.offset (k : XCore) (a : VArgs) : Nat :=
  match a.src with
  | .i => a.vs1.toNat
  | .v | .x => (k.get (xr a.vs1)).toNat

/-- Results with a saturation flag. -/
def XCore.resultSat (k : XCore) (d : VOpd) (vm : Bool) (f : Nat → Nat × Bool) : XCore :=
  let sat := (k.activeList vm).any fun i => (f i).2
  { k.result d vm fun i => (f i).1 with vxsat := k.vxsat || sat }

/-- Element `i` of vs2 as a slide or gather reads it: 0 beyond VLMAX. -/
def XCore.pick (k : XCore) (w r i : Nat) : Nat := if i < k.vlmax then k.vget w r i else 0

/-- The lowest active position whose mask bit is set. -/
def XCore.firstSet (k : XCore) (vm : Bool) (r : Nat) : Option Nat := (k.activeList vm).find? fun i => k.mask r i

/-- The active set bits of a mask before a position. -/
def XCore.setBefore (k : XCore) (vm : Bool) (r i : Nat) : Nat :=
  ((k.activeList vm).filter fun j => decide (j < i) && k.mask r j).length

/-- The positions of the elements that `vcompress` packs. -/
def XCore.packed (k : XCore) (r : Nat) : List Nat := (List.range k.vl).filter fun i => k.mask r i

/-! ## Arithmetic, mask and permute instructions -/

/-- An instruction's effect once its operands are legal. -/
def vlegal (ok : Bool) (k : XCore) : Option XCore := if ok then some k else none

/-- The instructions that take no group of operands wider than the others. -/
def XCore.vsimple (k : XCore) (op : VOp) (a : VArgs) : Option XCore :=
  let w := k.sew
  let vd := a.vd.toNat
  let v2 := a.vs2.toNat
  let v1 := a.vs1.toNat
  let d := k.grp vd w
  let s2 := k.grp v2 w
  let s1 := k.srcOpd a w
  let rm := k.vxrm.toNat
  let x2 (i : Nat) := k.vget w v2 i
  let x1 (i : Nat) := k.src1 a false w i
  let all := true
  match op with
  | .bin o =>
    vlegal (operandsOk a.vm (some d) (s2 :: s1)) (k.resultSat d a.vm fun i => vbinVal o w rm (x2 i) (k.src1 a o.isAmount w i))
  | .cmp o =>
    let m := maskOpd vd
    vlegal (operandsOk a.vm (some m) (s2 :: s1)) (k.result m a.vm fun i => b2n (vcmpVal o w (x2 i) (x1 i)))
  | .adc sub =>
    let c (i : Nat) := b2n (k.mask 0 i)
    vlegal (!a.vm && operandsOk false (some d) (s2 :: s1)) (k.result d all fun i =>
      if sub then ofInt w ((x2 i : Int) - x1 i - c i) else (x2 i + x1 i + c i) % 2 ^ w)
  | .madc sub =>
    let m := maskOpd vd
    let c (i : Nat) := if a.vm then 0 else b2n (k.mask 0 i)
    vlegal (operandsOk a.vm (some m) (s2 :: s1)) (k.result m all fun i =>
      b2n (if sub then decide (x2 i < x1 i + c i) else decide (2 ^ w ≤ x2 i + x1 i + c i)))
  | .merge =>
    if a.vm then vlegal (v2 == 0 && operandsOk true (some d) s1) (k.result d all x1)
    else vlegal (operandsOk false (some d) (s2 :: s1)) (k.result d all fun i => if k.mask 0 i then x1 i else x2 i)
  | .mac o =>
    vlegal (operandsOk a.vm (some d) (d :: s2 :: s1)) (k.result d a.vm fun i => vmacVal o w (x2 i) (x1 i) (k.vget w vd i))
  | .mlog o =>
    vlegal a.vm (k.result (maskOpd vd) all fun i => b2n (vlogVal o (k.mask v2 i) (k.mask v1 i)))
  | .ext sg n =>
    let s := k.grp v2 (w / n)
    vlegal (8 ≤ w / n && operandsOk a.vm (some d) [s]) (k.result d a.vm fun i =>
      if sg then ofInt w (k.vgetS (w / n) v2 i) else k.vget (w / n) v2 i)
  | .gather =>
    let at_ (i : Nat) := match a.src with
      | .v => k.vget w v1 i
      | .x | .i => k.offset a
    vlegal (operandsOk a.vm (some d) (s2 :: s1) && !d.meets s2 && s1.all (!d.meets ·)) (k.result d a.vm fun i => k.pick w v2 (at_ i))
  | .gather16 =>
    let s := k.grp v1 16
    vlegal (operandsOk a.vm (some d) [s2, s] && !d.meets s2 && !d.meets s)
      (k.result d a.vm fun i => k.pick w v2 (k.vget 16 v1 i))
  | .slideup =>
    let n := k.offset a
    vlegal (operandsOk a.vm (some d) [s2] && !d.meets s2) (k.putGroup w vd d.regs fun i =>
      if decide (i < n) && decide (i < k.vl) then none else k.newElem w vd a.vm (fun j => x2 (j - n)) i)
  | .slidedown =>
    let n := k.offset a
    vlegal (operandsOk a.vm (some d) [s2]) (k.result d a.vm fun i => k.pick w v2 (i + n))
  | .slide1up =>
    vlegal (operandsOk a.vm (some d) [s2] && !d.meets s2) (k.result d a.vm fun i => if i = 0 then x1 0 else x2 (i - 1))
  | .slide1down =>
    vlegal (operandsOk a.vm (some d) [s2]) (k.result d a.vm fun i => if i + 1 = k.vl then x1 0 else x2 (i + 1))
  | .compress =>
    let l := k.packed v1
    vlegal (a.vm && k.vstart == 0 && operandsOk true (some d) [s2, maskOpd v1] && !d.meets s2 && !d.meets (maskOpd v1))
      (k.putGroup w vd d.regs fun i => match l[i]? with
        | some j => some (x2 j)
        | none => if k.vl ≠ 0 && bit k.vtype 6 then k.agnostic w vd i else none)
  | .wholeMove =>
    let n := v1 + 1
    vlegal (a.vm && [1, 2, 4, 8].contains n && vd % n == 0 && v2 % n == 0)
      (k.putGroup w vd n fun i => if k.vstart ≤ i then some (k.vget w v2 i) else none)
  | .narrow _ | .widen _ _ | .wmac _ | .red _ | .wred _ | .mvXS | .mvSX | .cpop | .first | .msbf | .msof | .msif | .iota
  | .vid => none

/-- The instructions with operands of two widths, the reductions, and those between masks and scalars. -/
def XCore.vmixed (k : XCore) (op : VOp) (a : VArgs) : Option XCore :=
  let w := k.sew
  let vd := a.vd.toNat
  let v2 := a.vs2.toNat
  let v1 := a.vs1.toNat
  let d := k.grp vd w
  let wd := k.grp vd (2 * w)
  let s2 := k.grp v2 w
  let s1 := k.srcOpd a w
  let m := maskOpd vd
  let m2 := maskOpd v2
  let narrowOk := decide (w ≤ 32)
  let start := k.vstart == 0
  match op with
  | .narrow o =>
    vlegal (narrowOk && operandsOk a.vm (some d) (k.grp v2 (2 * w) :: s1)) (k.resultSat d a.vm fun i =>
      vnarVal o w k.vxrm.toNat (k.vget (2 * w) v2 i) (k.src1 a true w i))
  | .widen o wide =>
    let wa := if wide then 2 * w else w
    vlegal (narrowOk && operandsOk a.vm (some wd) (k.grp v2 wa :: s1)) (k.result wd a.vm fun i =>
      vwidVal o wa w (k.vget wa v2 i) (k.src1 a false w i))
  | .wmac o =>
    vlegal (narrowOk && operandsOk a.vm (some wd) (wd :: s2 :: s1)) (k.result wd a.vm fun i =>
      vwmacVal o w (k.vget w v2 i) (k.src1 a false w i) (k.vget (2 * w) vd i))
  | .red o =>
    let r := (k.activeList a.vm).foldl (fun t i => vredVal o w t (k.vget w v2 i)) (k.vget w v1 0)
    vlegal (start && operandsOk a.vm none [s2, scalarOpd v1 w])
      ({ { k with vl := min k.vl 1 }.result (scalarOpd vd w) true fun _ => r with vl := k.vl })
  | .wred sg =>
    let e (i : Nat) : Int := if sg then k.vgetS w v2 i else k.vget w v2 i
    let r := (k.activeList a.vm).foldl (fun t i => ofInt (2 * w) (t + e i)) (k.vget (2 * w) v1 0)
    vlegal (start && narrowOk && operandsOk a.vm none [s2, scalarOpd v1 (2 * w)])
      ({ { k with vl := min k.vl 1 }.result (scalarOpd vd (2 * w)) true fun _ => r with vl := k.vl })
  | .mvXS => vlegal a.vm (k.set (xr a.vd) (BitVec.ofInt 64 (k.vgetS w v2 0)))
  | .mvSX =>
    vlegal a.vm (if k.vl ≤ k.vstart then k
      else { { k with vl := 1, vstart := 0 }.result (scalarOpd vd w) true fun _ => k.src1 a false w 0 with vl := k.vl })
  | .cpop =>
    vlegal start (k.set (xr a.vd) (BitVec.ofNat 64 ((k.activeList a.vm).filter fun i => k.mask v2 i).length))
  | .first =>
    vlegal start (k.set (xr a.vd) (match k.firstSet a.vm v2 with
      | some i => BitVec.ofNat 64 i
      | none => BitVec.allOnes 64))
  | .msbf =>
    vlegal (start && !m.meets m2 && (a.vm || vd != 0)) (k.result m a.vm fun i => b2n (match k.firstSet a.vm v2 with
      | some j => decide (i < j)
      | none => true))
  | .msof =>
    vlegal (start && !m.meets m2 && (a.vm || vd != 0)) (k.result m a.vm fun i => b2n (k.firstSet a.vm v2 == some i))
  | .msif =>
    vlegal (start && !m.meets m2 && (a.vm || vd != 0)) (k.result m a.vm fun i => b2n (match k.firstSet a.vm v2 with
      | some j => decide (i ≤ j)
      | none => true))
  | .iota =>
    vlegal (start && operandsOk a.vm (some d) [m2] && !d.meets m2) (k.result d a.vm fun i => k.setBefore a.vm v2 i % 2 ^ w)
  | .vid => vlegal (v2 == 0 && operandsOk a.vm (some d) []) (k.result d a.vm fun i => i % 2 ^ w)
  | .bin _ | .cmp _ | .adc _ | .madc _ | .merge | .mac _ | .mlog _ | .ext _ _ | .gather | .gather16 | .slideup | .slidedown
  | .slide1up | .slide1down | .compress | .wholeMove => none

/-- The two groups of operations. -/
def VOp.isSimple : VOp → Bool
  | .bin _ | .cmp _ | .adc _ | .madc _ | .merge | .mac _ | .mlog _ | .ext _ _ | .gather | .gather16 | .slideup | .slidedown
  | .slide1up | .slide1down | .compress | .wholeMove => true
  | .narrow _ | .widen _ _ | .wmac _ | .red _ | .wred _ | .mvXS | .mvSX | .cpop | .first | .msbf | .msof | .msif | .iota
  | .vid => false

/-- An instruction of OP-V; all of them depend on `vtype`. -/
def XCore.varith (k : XCore) (op : VOp) (a : VArgs) : Option XCore :=
  if k.vill then none
  else (if op.isSimple then k.vsimple op a else k.vmixed op a).map XCore.vdone

/-! ## Loads and stores (R270) -/

/-- The address of field `f` of element `i`. -/
def XCore.vaddr (k : XCore) (m : VMem) (i f : Nat) : Word :=
  let w := if m.mode == .indexed then k.sew else m.width
  let base := k.get m.rs1
  let off := BitVec.ofNat 64 (f * (w / 8))
  match m.mode with
  | .strided => base + BitVec.ofNat 64 i * k.get m.rs2 + off
  | .indexed => base + BitVec.ofNat 64 (k.vget m.width m.rs2.val i) + off
  | .unit | .unitFf | .whole | .mask => base + BitVec.ofNat 64 (i * m.nf * (w / 8)) + off

/-- The data group of field `f`. -/
def XCore.vfield (k : XCore) (m : VMem) (f : Nat) : VOpd :=
  let w := if m.mode == .indexed then k.sew else m.width
  let g := k.grp m.vd.toNat w
  { g with reg := g.reg + f * g.regs }

/-- The groups of a load or store are legal: all fields in at most eight registers. -/
def XCore.vmemOk (k : XCore) (m : VMem) : Bool :=
  let g := k.vfield m 0
  let idx := if m.mode == .indexed then [k.grp m.rs2.val m.width] else []
  let fields := (List.range m.nf).map (k.vfield m)
  decide (g.regs * m.nf ≤ 8) && decide (g.reg + g.regs * m.nf ≤ 32) &&
    if m.store then operandsOk m.vm none (fields ++ idx)
    else
      fields.all (fun d => operandsOk m.vm (some d) idx) &&
        (m.nf == 1 || fields.all fun d => idx.all (!d.meets ·))

/-- The values that a load reads, by element and field; none where an access raises an exception. -/
def XCore.vread (k : XCore) (c : XCode) (m : VMem) (i f : Nat) : Option Nat :=
  k.loadN c (k.vaddr m i f) ((k.vfield m f).w / 8)

/-- Every field of an element can be read. -/
def XCore.vreadable (k : XCore) (c : XCode) (m : VMem) (i : Nat) : Bool :=
  (List.range m.nf).all fun f => (k.vread c m i f).isSome

/-- The fields of a load in their groups. -/
def XCore.vloaded (k : XCore) (m : VMem) (val : Nat → Nat → Nat) : XCore :=
  (List.range m.nf).foldl (fun t f => { t with vs := (t.result (k.vfield m f) m.vm fun i => val i f).vs }) k

/-- A load of the elements of the body. -/
def XCore.vload (k : XCore) (c : XCode) (m : VMem) : Option XCore :=
  if (k.activeList m.vm).all (k.vreadable c m) then some (k.vloaded m fun i f => (k.vread c m i f).getD 0) else none

/-- A fault-only-first load: an exception on element 0 is taken; one on a later element ends the body before it. It may end
earlier still, after at least one element. Active elements beyond are free. -/
def XCore.vloadFf (k : XCore) (c : XCode) (m : VMem) : Option XCore :=
  let stop := ((k.activeList m.vm).find? fun i => !k.vreadable c m i).getD k.vl
  if stop = 0 && k.vl ≠ 0 then none
  else
    let n := if stop = 0 then 0 else 1 + (k.openAt 65536).toNat % stop
    let t := k.vloaded m fun i f =>
      if i < n then (k.vread c m i f).getD 0 else bitsN (k.openAt (32768 + f * 512 + i)) 0 (k.vfield m f).w
    some { t with vl := n }

/-- A store of listed elements, in order. -/
def XCore.vstoreList (k : XCore) (m : VMem) (l : List (Nat × Nat)) : Option XCore :=
  l.foldl (fun t p => t.bind fun u =>
    let g := k.vfield m p.2
    u.storeN (k.vaddr m p.1 p.2) (g.w / 8) (k.vget g.w g.reg p.1)) (some k)

def XCore.vstore (k : XCore) (m : VMem) : Option XCore :=
  k.vstoreList m ((k.activeList m.vm).flatMap fun i => (List.range m.nf).map fun f => (i, f))

/-- Elements of whole registers, from `vstart` on. -/
def wholeList (k : XCore) (w nf : Nat) : List Nat := (List.range (nf * (512 / w))).filter fun i => decide (k.vstart ≤ i)

/-- A load or store of `nf` whole registers, whatever `vtype` and `vl`. -/
def XCore.vwhole (k : XCore) (c : XCode) (m : VMem) : Option XCore :=
  let w := m.width
  let vd := m.vd.toNat
  let addr (i : Nat) := k.get m.rs1 + BitVec.ofNat 64 (i * (w / 8))
  let l := wholeList k w m.nf
  if vd % m.nf ≠ 0 then none
  else if m.store then
    l.foldl (fun t i => t.bind fun u => u.storeN (addr i) (w / 8) (k.vget w vd i)) (some k)
  else if l.all fun i => (k.loadN c (addr i) (w / 8)).isSome then
    some (k.putGroup w vd m.nf fun i => if k.vstart ≤ i then k.loadN c (addr i) (w / 8) else none)
  else none

/-- `vlm` and `vsm`: the bytes that hold `vl` mask bits, with an agnostic tail. -/
def XCore.vmaskMem (k : XCore) (c : XCode) (m : VMem) : Option XCore :=
  let t := { k with vl := (k.vl + 7) / 8, vtype := BitVec.ofNat 64 64 }
  (if m.store then t.vstore m else t.vload c m).map fun u => { u with vl := k.vl, vtype := k.vtype }

/-- A vector load or store. -/
def XCore.vmem (k : XCore) (c : XCode) (m : VMem) : Option XCore :=
  (if m.mode == .whole then k.vwhole c m
    else if k.vill then none
    else if m.mode == .mask then k.vmaskMem c m
    else if !k.vmemOk m then none
    else if m.store then k.vstore m
    else if m.mode == .unitFf then k.vloadFf c m
    else k.vload c m).map XCore.vdone

/-! ## One instruction (R276) -/

/-- How an instruction of the transform core ends: it goes on, it ends the chunk, or it ends the routine with a fault. -/
inductive XEnd where
  | next (k : XCore)
  | chunk (k : XCore) (emitted : Nat)
  | fault
  deriving DecidableEq, Repr

/-- An instruction's answer, none for an exception. -/
def XEnd.ofOption : Option XCore → XEnd
  | some k => .next k
  | none => .fault

/-- The meaning of an instruction of `len` bytes. `ecall` ends the chunk with the number of emitted bytes in a0; `ebreak` and
every exception end the routine. -/
def XCore.exec (k : XCore) (c : XCode) (i : XInsn) (len : Nat) : XEnd :=
  match i with
  | .int op =>
    let r := k.intResult op
    .next ((k.set r.1 r.2).retire len)
  | .br b => .next (k.branch b len)
  | .load w rd rs1 imm =>
    .ofOption ((k.loadN c (k.get rs1 + imm.signExtend 64) w.bytes).map fun v => (k.set rd (w.extend v)).retire len)
  | .store w rs2 rs1 imm =>
    .ofOption ((k.storeN (k.get rs1 + imm.signExtend 64) w.bytes (k.get rs2).toNat).map fun t => t.retire len)
  | .fence => .next (k.retire len)
  | .ecall => if 16384 < (k.get 10).toNat then .fault else .chunk { k with busy := false } (k.get 10).toNat
  | .ebreak => .fault
  | .csr r => .ofOption (k.csr r)
  | .vset v => .next (k.vset v)
  | .vmem m => .ofOption (k.vmem c m)
  | .varith op a => .ofOption (k.varith op a)

/-- One instruction: fetched, decoded and run. -/
def XCore.step (k : XCore) (c : XCode) : XEnd :=
  match (k.fetch c).bind xDecode with
  | none => .fault
  | some (i, len) => k.exec c i len

/-- Where the payload of the next chunk stands in the input ring: at its place among sixteen of 2,048 bytes (DEDUCED from R275,
log entry 15). -/
def XCore.slot (k : XCore) : Nat := k.chunk % 16 * 2048

/-- The data pass places a chunk's payload in the input ring (R275). -/
def XCore.place (k : XCore) (payload : List Byte) : XCore :=
  { k with buf := k.buf.store k.slot payload, chunk := k.chunk + 1 }

/-- The core begins a coded chunk, whose payload has been placed (R276): a0, a1 and a2 hold its offset, its length and the start
of the output staging. -/
def XCore.begin (k : XCore) (c : XCode) (entry off len : Nat) : XCore :=
  let t := ((k.set 10 (BitVec.ofNat 64 off)).set 11 (BitVec.ofNat 64 len)).set 12 0x8000
  { t with pc := BitVec.ofNat 64 (0x10000 + c.base + entry), busy := true }

/-- The bytes that the routine emitted. -/
def XCore.emitted (k : XCore) (n : Nat) : List Byte := k.buf.bytes 0x8000 n

end Sys2Proof.Machine
end

