-- ==== Sys2Proof/Machine/Copy.lean ====
section
/-! DEFINITION. The copy engine: data copies, lists, fills, transforms and peer transfers (R197 to R208, R270 to R279). A
piece that lies in one aligned 64-byte granule of either side, an element of a store-add, a descriptor with its list, a stream
header, a piece of a payload or an instruction of a routine is one unit. The pieces of a data copy, and those of one list entry, move in
any order (R240, R242, log entry 55). -/

namespace Sys2Proof.Machine

/-! ## The memory side (R199, R205, R317, R318, R326) -/

/-- The agent that a command's memory accesses come from (R317, R380). -/
def State.copyAgent (s : State) : Agent := ⟨s.fh.asid, !s.hand.priv, s.fh.sec⟩

/-- A range that a command may not name at all: the cause of its trap (R199, R200, R317, R318). -/
def rangeRefusal (ag : Agent) (k : AccKind) (a : Word) (n : Nat) : Option Nat :=
  if !rangeOk a n then some 27
  else if 5 ≤ ownerOf a || (ag.user && bit a 56) then some k.accessFault
  else none

/-- The command in the hand ends by an error found after issue (R199). -/
def State.failHand (s : State) (cause detail : Nat) (htaddr : Word) : State := s.failCmd s.foc.h s.hand cause detail htaddr

/-- The first of `n` bytes that a read cannot translate, and the cause of its trap; the first of all when every one can. -/
def State.firstFault (s : State) (ag : Agent) (a : Word) : Nat → Word × Nat
  | 0 => (a, AccKind.load.accessFault)
  | n + 1 => match s.xlatHeld ag .load a 1 with
    | .error f => (a, AccKind.load.cause f)
    | .ok _ => s.firstFault ag (a + 1) n

/-- A faulting read of `n` bytes holds the copy engine at the faulting address (R205, R326). -/
def State.holdCopy (s : State) (a : Word) (n : Nat) : State :=
  let b := s.firstFault s.copyAgent a n
  (s.setHand { s.hand with hold := some b.1, holdCause := b.2 }).report (.copyFault s.foc.h (b.1.toNat / 65536))

/-- What a store-add leaves at one element (R201). -/
def addElem (ty mode : BitVec 4) (m x : Nat) : Nat :=
  let t := (Ty.ofCode ty.toNat).getD .uint32
  let rm := (Rm.ofCode (bitsN mode 0 3)).getD .rne
  if t.isFloat then (t.fmt.result rm (bit mode 3) (FVal.add rm (t.value m) (t.value x))).1
  else t.fit (bit mode 3) (t.toInt m + t.toInt x)

/-- What a write, or a store-add of 32-bit elements, leaves at the bytes it writes. -/
def newBytes (add : Option (BitVec 4 × BitVec 4)) (old : List Byte) (data : List (Option Byte)) : List (Option Byte) :=
  match add with
  | none => data
  | some (t, m) =>
    (List.range (data.length / 4)).flatMap fun i =>
      if ((data[4 * i]?).getD none).isSome then
        (leBytes 4 (addElem t m (leNat ((old.drop (4 * i)).take 4))
          (leNat (((data.drop (4 * i)).take 4).map fun b => b.getD 0)))).map some
      else List.replicate 4 none

/-- A write or store-add is performed at its memory bytes. -/
def State.performWrite (s : State) (ks : List Nat) (data : List (Option Byte)) (add : Option (BitVec 4 × BitVec 4)) : State :=
  let w := (ks.zip (newBytes add (s.memBytes ks) data)).filterMap fun p => p.2.map fun b => (p.1, b)
  s.memStore (w.map (·.1)) (w.map (·.2)) none

/-- The entry holds a byte of an address. -/
def SideEntry.covers (e : SideEntry) (a : Nat) : Bool :=
  decide (e.addr.toNat ≤ a) && ((e.data[a - e.addr.toNat]?).getD none).isSome

/-- A write of some bytes from an address on overlaps an entry. -/
def SideEntry.overlaps (e : SideEntry) (a : Nat) (data : List (Option Byte)) : Bool :=
  data.zipIdx.any fun p => p.1.isSome && e.covers (a + p.2)

/-- The first live entry of the side log that a write overlaps. -/
def sideOverlap (l : List SideEntry) (a : Nat) (data : List (Option Byte)) : Option SideEntry := l.find? fun e => e.overlaps a data

/-- Two writes of one command to one 512-byte chunk, the second behind the first, stand in one entry (R205, log entry 55). -/
def SideEntry.join (e d : SideEntry) : Option SideEntry :=
  let a := e.addr.toNat
  let b := d.addr.toNat
  if e.seq = d.seq && e.add == d.add && a / 512 == (b + d.data.length - 1) / 512 && decide (a + e.data.length ≤ b) then
    some { e with data := e.data ++ (List.replicate (b - (a + e.data.length)) none ++ d.data) }
  else none

/-- A log with one more write; none when it is full (R205). -/
def logPush (l : List SideEntry) (d : SideEntry) : Option (List SideEntry) :=
  match (l.getLast?).bind fun e => e.join d with
  | some e => some (l.dropLast ++ [e])
  | none => if Config.sideLogEntries ≤ l.length then none else some (l ++ [d])

/-- A write or store-add under the side-log rule, and whether the command went on (R205). -/
def State.copyWrite (s : State) (a : Word) (data : List (Option Byte)) (add : Option (BitVec 4 × BitVec 4)) : State × Bool :=
  let ag := s.copyAgent
  let kind : AccKind := if add.isSome then .both else .store
  let log (cause : Nat) : State × Bool :=
    match logPush s.fh.sideLog ⟨s.hand.seq, a, data, add, ag, cause⟩ with
    | none => (s.setHand { s.hand with logWait := true }, false)
    | some l => (s.setFh { s.fh with sideLog := l }, true)
  match s.xlatHeld ag kind a data.length with
  | .error f => let r := log (kind.cause f); (r.1.report (.copyFault s.foc.h (a.toNat / 65536)), r.2)
  | .ok ks =>
    match sideOverlap s.fh.sideLog a.toNat data with
    | some e => log e.cause
    | none => (s.performWrite ks data add, true)

/-- Bytes that a unit can move from a place on: it crosses no granule of either side. -/
def pieceLen (rest scr mem : Nat) : Nat := min rest (min (64 - scr % 64) (64 - mem % 64))

/-- Of bytes written at addresses of one granule, the write they make: from the lowest address on, the later of two bytes at one
address. -/
def granWrite (ks : List (Nat × Byte)) : Nat × List (Option Byte) :=
  let lo := ks.foldl (fun a k => min a k.1) ((ks.headD (0, 0)).1)
  let hi := ks.foldl (fun a k => max a k.1) lo
  (lo, (List.range (hi + 1 - lo)).map fun j => (ks.reverse.find? fun k => k.1 == lo + j).map (·.2))

/-- A piece of a store: its bytes join those of their granule, and the granule is written once no later byte run meets it
(R197). -/
def State.storePiece (s : State) (mem : Nat) (bs : List Byte) (later : List (Nat × Nat)) : State × Bool :=
  let all := s.hand.late ++ bytesAt mem bs
  if ivsGran later (mem / 64) then (s.setHand { s.hand with late := all }, true)
  else
    let p := all.partition fun k => k.1 / 64 == mem / 64
    let w := granWrite p.1
    let r := s.copyWrite (BitVec.ofNat 64 w.1) w.2 none
    if r.2 then (r.1.setHand { r.1.hand with late := p.2 }, true) else (r.1, false)

/-- One piece between the scratchpad and memory; `dir` is 0 load, 1 store, 2 store-add (R201). `later` are the byte runs that
the command still has to write. A piece whose chunks are not ready, or whose write finds the side log full, does not move; the
full log holds the engine. -/
def State.copyMove (s : State) (f : CmdF) (dir scr : Nat) (mem : Word) (n : Nat) (later : List (Nat × Nat)) : State × Bool :=
  if !s.entryReady 0 scr (scr + n - 1) then (s, false)
  else if dir = 0 then
    match s.xlatHeld s.copyAgent .load mem n with
    | .error _ => (s.holdCopy mem n, false)
    | .ok ks => (s.putLate (bytesAt scr (s.memBytes ks)) later, true)
  else
    let t := s.latchRun scr n
    let bs := t.hand.latchedRun scr n
    if dir = 2 then t.copyWrite mem (bs.map some) (some (f.ty, f.mode)) else t.storePiece mem.toNat bs later

/-- The length of a piece: an element for a store-add. -/
def moveLen (dir rest scr mem : Nat) : Nat := if dir = 2 then 4 else pieceLen rest scr mem

/-! ## Pieces in any order (R227, R240, R242) -/

/-- The pieces of a run of bytes, from position `i` on, between a scratchpad address and a memory address. -/
def cutRun (dir : Nat) : Nat → Nat → Nat → Nat → Nat → List (Nat × Nat)
  | 0, _, _, _, _ => []
  | k + 1, i, scr, mem, n =>
    if n = 0 then []
    else
      let m := moveLen dir n scr mem
      (i, m) :: cutRun dir k (i + m) (scr + m) (mem + m) (n - m)

/-- A list turned so that its `n`-th member comes first. -/
def rotate {α : Type} (l : List α) (n : Nat) : List α := l.drop (n % l.length) ++ l.take (n % l.length)

/-- A piece lies in the same row and in the same 512-byte chunk of the scratchpad as another. -/
def sameChunk (row scr : Nat → Nat) (p q : Nat × Nat) : Bool := row p.1 == row q.1 && scr p.1 / 512 == scr q.1 / 512

/-- Some of the bytes of a piece's chunk have moved, for it holds more bytes than the pieces that are left in it. -/
def chunkBegun (row scr : Nat → Nat) (chunkLen : Nat × Nat → Nat) (left : List (Nat × Nat)) (p : Nat × Nat) : Bool :=
  decide (((left.filter (sameChunk row scr p)).map (·.2)).sum < chunkLen p)

/-- Bytes of the chunk of a piece that a row of some bytes has: `off` is the piece's place in the row. -/
def rowChunk (scr off rowLen : Nat) : Nat :=
  let base := scr - off
  min (base + rowLen) (scr / 512 * 512 + 512) - max base (scr / 512 * 512)

/-- The piece that a unit moves: the first, from the engine's pick on, whose chunk is ready; while the engine comes to a stop, one of a
chunk that it has begun (R328). -/
def State.pickPiece (s : State) (scr : Nat → Nat) (begun : Nat × Nat → Bool) : Option (Nat × Nat) :=
  (rotate s.hand.left (s.fh.picks.headD 0)).find? fun p =>
    s.entryReady 0 (scr p.1) (scr p.1 + p.2 - 1) && (!s.fh.halting || begun p)

/-- A pick is used. -/
def State.dropPick (s : State) : State := s.setFh { s.fh with picks := s.fh.picks.tail }

/-! ## Windows as byte runs -/

def WinOp.total (w : WinOp) : Nat := w.rows * w.len

/-- Scratchpad address of byte `i` of the rows, taken one after another. -/
def WinOp.byteAddr (w : WinOp) (i : Nat) : Nat := w.a0 + i / w.len * w.pitch + i % w.len

/-- The intervals that bytes from `i` on lie in. -/
def WinOp.restRows (w : WinOp) (i : Nat) : List (Nat × Nat) :=
  (List.range' (i / w.len) (w.rows - i / w.len)).map fun r =>
    (w.a0 + r * w.pitch + (if r = i / w.len then i % w.len else 0), w.a0 + r * w.pitch + w.len)

/-- The byte runs that `n` bytes of the rows from byte `i` on take. -/
def WinOp.runs (w : WinOp) (i n : Nat) : List (Nat × Nat) :=
  (List.range' (i / w.len) ((i + n - 1) / w.len - i / w.len + 1)).map fun r =>
    (w.byteAddr (max i (r * w.len)), w.a0 + r * w.pitch + (min (i + n) (r * w.len + w.len) - r * w.len))

/-- Bytes `i` to i + n − 1 of window 0 are written: chunks that no later byte touches are done (R220). -/
def State.bytesDone (s : State) (w : WinOp) (i n : Nat) : State :=
  let a := w.byteAddr i
  let later := w.restRows (i + n)
  s.setHand (s.hand.markDone 0 ((List.range' (a / 512) ((a + n - 1) / 512 - a / 512 + 1)).filter fun c => !ivsTouch later c))

/-! ## Descriptors (R200) -/

def descAddr (d : BitVec 512) : Word := field d 0 64
def descPitch (d : BitVec 512) : Word := field d 64 64
def descCount (d : BitVec 512) : Nat := bitsN d 128 64
def descAux (d : BitVec 512) : Word := field d 192 64

/-- Reads the descriptor in window 1, once its bytes are ready, and goes on with `g` (R199, R200, R222). -/
def State.withDesc (s : State) (g : BitVec 512 → State → State) : State :=
  let a := (s.hand.win 1).a0
  if !s.entryReady 1 a (a + 63) then s
  else
    let d := ofBytes512 (s.scratchGet a 64)
    g d (s.setHand { s.hand with desc := some d })

/-! ## cp.lin and cp.2d (R201) -/

/-- Memory address of byte `i` of the rows. -/
def memAddr (o : COp) (d : BitVec 512) (w : WinOp) (i : Nat) : Word :=
  match o with
  | .cp2d => descAddr d + descPitch d * BitVec.ofNat 64 (i / w.len) + BitVec.ofNat 64 (i % w.len)
  | _ => descAddr d + BitVec.ofNat 64 i

/-- The whole memory range of a data copy lies in one owner's space of one half (R199, R318). The rows rise or fall evenly,
so the first and the last decide. -/
def dataRefusal (o : COp) (ag : Agent) (k : AccKind) (d : BitVec 512) (w : WinOp) : Option Nat :=
  let a := descAddr d
  match o with
  | .cp2d =>
    let z : Int := (a.toNat : Int) + ((w.rows - 1 : Nat) : Int) * (descPitch d).toInt
    if z < 0 || ((2 ^ 64 : Nat) : Int) ≤ z then some 27
    else
      let b := BitVec.ofNat 64 z.toNat
      if !rangeOk b w.len || bitsN a 52 5 ≠ bitsN b 52 5 then some 27 else rangeRefusal ag k a w.len
  | _ => rangeRefusal ag k a w.total

/-- Fields of a data copy's descriptor that must be zero, and the element addresses of a store-add (R200, R201). -/
def dataDescOk (o : COp) (dir : Nat) (d : BitVec 512) (w : WinOp) : Bool :=
  bitsN d 256 256 == 0 && descAux d == 0 && descCount d == 0 && (o == .cp2d || descPitch d == 0) &&
  (dir != 2 || ((descAddr d).toNat % 4 == 0 && w.len % 4 == 0 &&
    (o != .cp2d || w.rows == 1 || (descPitch d).toNat % 4 == 0)))

def dirKind (dir : Nat) : AccKind := if dir = 0 then .load else if dir = 1 then .store else .both

/-- Distinct bytes that a data copy writes (R213). -/
def dataBytes (o : COp) (dir : Nat) (d : BitVec 512) (w : WinOp) : Nat :=
  if dir = 0 then distinctBytes w.rows w.pitch w.len
  else match o with
    | .cp2d => distinctBytes w.rows (descPitch d).toInt.natAbs w.len
    | _ => w.total

/-- Position `i` of the rows as an address of the memory side. -/
def memPlace (o : COp) (d : BitVec 512) (w : WinOp) (i : Nat) : Nat := (memAddr o d w i).toNat

/-- The pieces of a data copy. -/
def dataPieces (o : COp) (dir : Nat) (d : BitVec 512) (w : WinOp) : List (Nat × Nat) :=
  (List.range w.rows).flatMap fun r =>
    cutRun dir w.len (r * w.len) (w.a0 + r * w.pitch) (memPlace o d w (r * w.len)) w.len

/-- Byte runs of some pieces on one side. -/
def pieceRuns (at_ : Nat → Nat) (ps : List (Nat × Nat)) : List (Nat × Nat) := ps.map fun p => (at_ p.1, at_ p.1 + p.2)

/-- A chunk of a data copy is begun. -/
def dataBegun (w : WinOp) (left : List (Nat × Nat)) (p : Nat × Nat) : Bool :=
  chunkBegun (fun i => i / w.len) w.byteAddr (fun q => rowChunk (w.byteAddr q.1) (q.1 % w.len) w.len) left p

/-- A piece is moved, and leaves the pieces that are left; `more` are byte runs that the command writes behind them. -/
def State.movePiece (s : State) (f : CmdF) (dir : Nat) (scr : Nat → Nat) (mem : Nat → Word) (p : Nat × Nat)
    (more : List (Nat × Nat)) : State × Bool :=
  let left := s.hand.left.erase p
  let later := pieceRuns (if dir = 0 then scr else fun i => (mem i).toNat) left ++ more
  let r := (s.dropPick).copyMove f dir (scr p.1) (mem p.1) p.2 later
  if r.2 then
    let c := { r.1.hand with left := left }
    (r.1.setHand (if dir = 0 then c.runDone 0 (scr p.1) p.2 (pieceRuns scr left ++ more) else c), true)
  else r

/-- One unit of a data copy. -/
def State.dataStep (s : State) (o : COp) (f : CmdF) : State :=
  let w := s.hand.win 0
  let dir := f.pay 2
  match s.hand.desc with
  | none => s.withDesc fun d t =>
      if !dataDescOk o dir d w then t.failHand 24 0 0
      else
        match dataRefusal o t.copyAgent (dirKind dir) d w with
        | some c => t.failHand c 0 (descAddr d)
        | none => t.setHand { t.hand with left := dataPieces o dir d w }
  | some d =>
    match s.pickPiece w.byteAddr (dataBegun w s.hand.left) with
    | none => s
    | some p =>
      let r := s.movePiece f dir w.byteAddr (memAddr o d w) p []
      if r.2 then
        let last := r.1.hand.left.isEmpty
        r.1.unitDone 0 (if last then dataBytes o dir d w else 0) (s.hand.pos + p.2) last
      else r.1

/-- Units that the engine was to perform and that a fault has kept back stay to be done, with their picks (R205, R289). -/
def State.unitsLeft (s : State) (n : Nat) (picks : List Nat) : State := s.setFh { s.fh with quota := n, picks := picks }

/-- Units of a copy command; a faulting read, or a full side log, ends them (R205). -/
def copyUnits (u : State → State) : Nat → State → State
  | 0, s => s.unitsLeft 0 []
  | n + 1, s =>
    if s.hand.performed then s.unitsLeft 0 []
    else
      let t := u s
      if t.hand.hold.isSome || t.hand.logWait then t.unitsLeft (n + 1) s.fh.picks else copyUnits u n t

def State.copyRun (s : State) (u : State → State) : State := copyUnits u s.fh.quota s

/-- CP_LIN (R201). -/
def execCpLin (f : CmdF) (s : State) : Out := .next (s.copyRun fun t => t.dataStep .cpLin f)
/-- CP_2D (R201). -/
def execCp2d (f : CmdF) (s : State) : Out := .next (s.copyRun fun t => t.dataStep .cp2d f)

/-! ## Lists (R202) -/

/-- A byte of a list, at an address that translates to a key now: as it stood when the command started, if its address translated
then (R202, log entry 55). -/
def State.listByte (s : State) (a : Word) (key : Nat) : Byte :=
  match s.hand.began with
  | none => s.mem.read key
  | some m =>
    match (s.setMem m).xlat s.copyAgent .load a with
    | .ok k => m.read k
    | .error _ => s.mem.read key

/-- Reads the whole list that a descriptor names (R202). -/
def State.readList (s : State) (d : BitVec 512) : State :=
  let a := descAddr d
  let n := descCount d
  match s.xlatHeld s.copyAgent .load a (32 * n) with
  | .error _ => s.holdCopy a (32 * n)
  | .ok ks =>
    let bs := ks.zipIdx.map fun p => s.listByte (a + BitVec.ofNat 64 p.2) p.1
    s.setHand { s.hand with began := none, list := (List.range n).map fun i => BitVec.ofNat 256 (leNat ((bs.drop (32 * i)).take 32)) }

def entLen (e : BitVec 256) : Nat := bitsN e 96 32
def entOff (e : BitVec 256) : Nat := bitsN e 64 21
def entSrc (e : BitVec 256) : Word := field e 0 64

/-- The reserved fields and limits of a list descriptor (R200, R202). -/
def listDescOk (d : BitVec 512) : Bool :=
  bitsN d 256 256 == 0 && descAux d == 0 && descPitch d == 0 && decide (1 ≤ descCount d) && decide (descCount d ≤ 65536) &&
    (descAddr d).toNat % 32 == 0

/-- The limits of one entry of a `cp.list` (R202): the trap of a breach. Where an entry breaks several, the spec does not say which trap
is taken: here an illegal command goes before a range outside the window, and that before a range of memory (DESIGN CHOICE, log entry
74). -/
def entryRefusal (ag : Agent) (dir : Nat) (w : WinOp) (e : BitVec 256) : Option Nat :=
  if bitsN e 128 128 ≠ 0 || bitsN e 85 11 ≠ 0 || entLen e = 0 || 1048576 < entLen e ||
      (dir = 2 && !((entSrc e).toNat % 4 = 0 && entOff e % 4 = 0 && entLen e % 4 = 0)) then some 24
  else if w.last < w.a0 + entOff e + entLen e - 1 then some 25
  else rangeRefusal ag (dirKind dir) (entSrc e) (entLen e)

/-- Distinct bytes that a list writes (R213). -/
def listBytes (dir : Nat) (w : WinOp) (es : List (BitVec 256)) : Nat :=
  unionLen (es.map fun e =>
    let a := if dir = 0 then w.a0 + entOff e else (entSrc e).toNat
    (a, a + entLen e))

/-- Scratchpad and memory places of byte `i` of an entry. -/
def entScr (w : WinOp) (e : BitVec 256) (i : Nat) : Nat := w.a0 + entOff e + i
def entMem (e : BitVec 256) (i : Nat) : Word := entSrc e + BitVec.ofNat 64 i

/-- A chunk of a list entry is begun. -/
def entBegun (w : WinOp) (e : BitVec 256) (left : List (Nat × Nat)) (p : Nat × Nat) : Bool :=
  chunkBegun (fun _ => 0) (entScr w e) (fun q => rowChunk (entScr w e q.1) q.1 (entLen e)) left p

/-- The byte runs that the entries behind the one at hand write, up to the first that is refused: a granule that several entries meet is
one access (R197, R240). -/
def State.listRest (s : State) (dir : Nat) (w : WinOp) (es : List (BitVec 256)) : List (Nat × Nat) :=
  (es.takeWhile fun e => (entryRefusal s.copyAgent dir w e).isNone).map fun e =>
    let a := if dir = 0 then entScr w e 0 else (entSrc e).toNat
    (a, a + entLen e)

/-- A list copy comes to an entry: it is refused, or its pieces are to be moved. -/
def State.openEntry (s : State) (dir : Nat) (w : WinOp) (e : BitVec 256) : State :=
  match entryRefusal s.copyAgent dir w e with
  | some c => s.failHand c 0 (if c = 24 || c = 25 then 0 else entSrc e)
  | none => s.setHand { s.hand with left := cutRun dir (entLen e) 0 (entScr w e 0) (entSrc e).toNat (entLen e) }

/-- A piece of entry `k` moves. -/
def State.listPiece (s : State) (f : CmdF) (w : WinOp) (es : List (BitVec 256)) (k : Nat) : State :=
  let dir := f.pay 2
  let e := (es[k]?).getD 0
  match s.pickPiece (entScr w e) (entBegun w e s.hand.left) with
  | none => s
  | some p =>
    let r := s.movePiece f dir (entScr w e) (entMem e) p (if dir = 2 then [] else s.listRest dir w (es.drop (k + 1)))
    if !r.2 then r.1
    else if r.1.hand.left.isEmpty then
      let last := k + 1 == es.length
      r.1.unitDone 0 (if last then listBytes dir w es else 0) (k + 1) last
    else r.1.unitDone 0 0 k false

/-- One unit of a list copy. The position counts entries. -/
def State.listStep (s : State) (f : CmdF) : State :=
  let w := s.hand.win 0
  match s.hand.desc, s.hand.list with
  | none, _ => s.withDesc fun d t =>
      if !listDescOk d then t.failHand 24 0 0
      else
        match rangeRefusal t.copyAgent .load (descAddr d) (32 * descCount d) with
        | some c => t.failHand c 0 (descAddr d)
        | none => t.readList d
  | some d, [] => s.readList d
  | some _, es =>
    let k := s.hand.pos
    let t := if s.hand.left.isEmpty then s.openEntry (f.pay 2) w ((es[k]?).getD 0) else s
    if t.hand.performed then t else t.listPiece f w es k

/-- CP_LIST (R202). -/
def execCpList (f : CmdF) (s : State) : Out := .next (s.copyRun fun t => t.listStep f)

/-! ## Fills (R203) -/

/-- One piece of a fill. -/
def State.fillStep (s : State) (f : CmdF) : State :=
  let w := s.hand.win 0
  let i := s.hand.pos
  let scr := w.byteAddr i
  let n := min (w.len - i % w.len) (64 - scr % 64)
  let sz := f.typ.bytes
  if !s.entryReady 0 scr (scr + n - 1) then s
  else
    let bs := (List.range n).map fun j => byteOf f.imm ((i % w.len + j) % sz)
    let last := i + n == w.total
    ((s.putLate (bytesAt scr bs) (w.restRows (i + n))).bytesDone w i n).unitDone 0 (if last then distinctBytes w.rows w.pitch w.len else 0) (i + n) last

/-- CP_FILL (R203). -/
def execCpFill (f : CmdF) (s : State) : Out := .next (s.copyRun fun t => t.fillStep f)

/-! ## Transforms (R204, R270 to R279) -/

/-- The descriptor of a `cp.xf` (R200, R204, R273, R274). -/
def xfDescOk (x : Hearth) (d : BitVec 512) (w : WinOp) : Bool :=
  bitsN d 256 256 == 0 && bitsN (descAux d) 16 48 == 0 && descPitch d == 0 && decide (descCount d ≤ w.total) &&
    (descAddr d).toNat % 64 == 0 && x.routines.any fun r => r.num == bitsN (descAux d) 0 16

/-- An earlier `cp.xf` still has the transform core (R271). -/
def Hearth.xfBusy (x : Hearth) (seq : Nat) : Bool :=
  x.cmds.any fun d => d.op == some .cpXf && d.stage == .started && !d.performed && decide (d.seq < seq)

/-- A scouted header with its offset in the stream. -/
def hdrLen (h : BitVec 256) : Nat := bitsN h 0 12
def hdrKind (h : BitVec 256) : Nat := bitsN h 62 2
def hdrOff (h : BitVec 256) : Nat := bitsN h 64 64

/-- Stream bytes of a chunk: its header and payload, rounded up to 64 (R274). -/
def chunkBytes (len : Nat) : Nat := (8 + len + 63) / 64 * 64

/-- The scout pass reads the next header (R274, R275). -/
def State.xfScout (s : State) (d : BitVec 512) : State :=
  let c := s.hand
  let a := descAddr d + BitVec.ofNat 64 c.xoff
  if 1048576 ≤ c.xoff then s.failHand 24 0 0
  else
    match rangeRefusal s.copyAgent .load a 8 with
    | some k => s.failHand k 0 a
    | none =>
      match s.xlatHeld s.copyAgent .load a 8 with
      | .error _ => s.holdCopy a 8
      | .ok ks =>
        let h : Word := BitVec.ofNat 64 (leNat (s.memBytes ks))
        let len := bitsN h 0 12
        if bitsN h 62 2 = 3 || bitsN h 12 50 ≠ 0 || 2040 < len || (bitsN h 62 2 = 2 && len ≠ 0) then s.failHand 24 0 0
        else
          match rangeRefusal s.copyAgent .load a (8 + len) with
          | some k => s.failHand k 0 a
          | none =>
            s.setHand { c with list := c.list ++ [BitVec.ofNat 256 (h.toNat + c.xoff * 2 ^ 64)],
                               xoff := c.xoff + chunkBytes len }

/-- What a chunk emits joins the bytes to write; bytes beyond the declared length are dropped (R277). -/
def Cmd.emit (c : Cmd) (bs : List Byte) : Cmd :=
  let room := descCount (c.desc.getD 0) - c.xd
  { c with emitted := c.emitted ++ bs.take room, xd := c.xd + bs.length }

/-- The routine that a `cp.xf` names as the transform core sees it, with its entry (R270, R272). Where its code begins in the
code area is free. -/
def State.xfRoutine (s : State) (d : BitVec 512) : XCode × Nat :=
  match s.fh.routines.find? fun r => r.num == bitsN (descAux d) 0 16 with
  | none => (⟨0, []⟩, 0)
  | some r => (⟨2 * ((Config.coreOpen s.hand.core.seed 0 65536).toNat % ((49152 - r.code.length) / 2 + 1)), r.code⟩, r.entry)

/-- Payload bytes of a scouted chunk that have come. -/
def Cmd.payload (c : Cmd) (h : BitVec 256) : List Byte := ((c.latch.find? fun p => p.1 == hdrOff h).map (·.2)).getD []

/-- A scouted chunk whose payload has not come whole: the scout has asked for it (R275). -/
def Cmd.wanted (c : Cmd) : Option (BitVec 256) := c.list.find? fun h => decide ((c.payload h).length < hdrLen h)

/-- A piece of a payload comes, of one granule of the stream. -/
def State.xfFetch (s : State) (d : BitVec 512) (h : BitVec 256) : State :=
  let c := s.hand
  let have_ := c.payload h
  let a := descAddr d + BitVec.ofNat 64 (hdrOff h + 8 + have_.length)
  let n := min (hdrLen h - have_.length) (64 - a.toNat % 64)
  match s.xlatHeld s.copyAgent .load a n with
  | .error _ => s.holdCopy a n
  | .ok ks =>
    s.setHand { c with latch := (c.latch.filter fun p => p.1 != hdrOff h) ++ [(hdrOff h, have_ ++ s.memBytes ks)] }

/-- The data pass takes the oldest scouted chunk and places its payload in the input ring: a stored one is output as it stands, a
coded one is handed to the routine (R275, R276). -/
def State.xfChunk (s : State) (d : BitVec 512) (h : BitVec 256) (rest : List (BitVec 256)) : State :=
  let c := s.hand
  if hdrKind h = 2 then s.setHand { c with list := rest, xend := true }
  else
    let bs := c.payload h
    let k := c.core.place bs
    let c1 := { c with list := rest, latch := c.latch.filter fun p => p.1 != hdrOff h }
    if hdrKind h = 1 then s.setHand { c1.emit bs with core := k }
    else
      let r := s.xfRoutine d
      s.setHand { c1 with core := k.begin r.1 r.2 c.core.slot bs.length }

/-- The transform core runs one instruction of the routine (R276); the end of the chunk hands over what it emitted. -/
def State.xfCore (s : State) (d : BitVec 512) : State :=
  let c := s.hand
  match c.core.step (s.xfRoutine d).1 with
  | .next k => s.setHand { c with core := k }
  | .chunk k n => s.setHand { c.emit (k.emitted n) with core := k }
  | .fault => s.failHand 24 2 0

/-- Every chunk of the scratchpad that the next 512 bytes of the padded block meet is ready. -/
def State.xfReady (s : State) (w : WinOp) (i : Nat) : Bool :=
  (w.runs i (min 512 (w.total - i))).all fun r => s.entryReady 0 r.1 (r.2 - 1)

/-- A piece of the padded block: emitted bytes, or behind the end of the stream zeros (R277). The block goes out in parts of 512 bytes;
one is begun when all of its chunks are ready (R279). -/
def State.xfWrite (s : State) (w : WinOp) : State :=
  let c := s.hand
  let i := c.pos
  let scr := w.byteAddr i
  let room := min (min (w.len - i % w.len) (64 - scr % 64)) (512 - i % 512)
  let n := if c.emitted.isEmpty then room else min room c.emitted.length
  if i % 512 = 0 && !s.xfReady w i then s
  else
    let bs := if c.emitted.isEmpty then List.replicate n 0 else c.emitted.take n
    let last := i + n == w.total
    let t := (s.putLate (bytesAt scr bs) (w.restRows (i + n))).bytesDone w i n
    let t1 := t.setHand { t.hand with emitted := t.hand.emitted.drop n }
    if last && c.xend then
      let t2 := t1.setHand { t1.hand with lenmis := c.xd != descCount (c.desc.getD 0) }
      t2.unitDone 0 w.total (i + n) true
    else t1.unitDone 0 0 (i + n) false

/-- One unit of a `cp.xf`, which an earlier one holds back from the transform core (R271). -/
def State.xfStep (s : State) : State :=
  let c := s.hand
  let w := c.win 0
  match c.desc with
  | none => s.withDesc fun d t =>
      if !xfDescOk t.fh d w then t.failHand 24 0 0
      else
        match rangeRefusal t.copyAgent .load (descAddr d) 8 with
        | some k => t.failHand k 0 (descAddr d)
        | none => { t with free := t.free + 1 }.setHand { t.hand with core := { XCore.reset with seed := t.free } }
  | some d =>
    if s.fh.xfBusy c.seq then s
    else if !c.emitted.isEmpty then s.xfWrite w
    else if c.core.busy then s.xfCore d
    else if c.xend then
      if c.pos = w.total then
        (s.setHand { c with lenmis := c.xd != descCount d }).unitDone 0 w.total c.pos true
      else s.xfWrite w
    else
      match c.wanted with
      | some h => s.xfFetch d h
      | none =>
        match c.list with
        | h :: rest =>
          if (c.list.any fun x => hdrKind x == 2) || 16 ≤ c.list.length then s.xfChunk d h rest else s.xfScout d
        | [] => s.xfScout d

/-- CP_XF (R204, R270 to R279). -/
def execCpXf (_f : CmdF) (s : State) : Out := .next (s.copyRun State.xfStep)

/-! ## Peer transfers (R206 to R208) -/

/-- The descriptor of a `cp.peer` (R200, R207). -/
def peerDescOk (d : BitVec 512) : Bool :=
  let aux := descAux d
  bitsN d 256 256 == 0 && bitsN aux 48 16 == 0 && bitsN aux 30 2 == 0 && descPitch d == 0 && bitsN d 148 44 == 0 &&
    bitsN (descAddr d) 21 43 == 0 && (descAddr d).toNat % 64 == 0

/-- The transfer that a `cp.peer` sends. -/
def State.peerXfer (s : State) (d : BitVec 512) : Xfer :=
  let aux := descAux d
  { schip := s.links.chip, shearth := s.foc.h.val, sseq := some s.hand.seq, sepoch := s.fh.epoch, ssec := s.fh.sec,
    dchip := bitsN aux 0 10, dhearth := bitsN aux 10 10, roff := bitsN (descAddr d) 0 21, data := s.hand.emitted,
    flagen := bit aux 28, rflag := (field aux 20 8).toFin, rval := bitsN d 128 20, hnden := bit aux 29, hoff := bitsN aux 30 18 }

/-- One unit of a `cp.peer`: the descriptor, a piece of the payload, or the sending. Once sent, the command waits for the
acknowledgement (R208). -/
def State.peerStep (s : State) : State :=
  let c := s.hand
  let w := c.win 0
  match c.desc with
  | none => s.withDesc fun d t => if !peerDescOk d then t.failHand 24 0 0 else t
  | some d =>
    if c.xend then s
    else if c.pos = w.total then
      let t := s.setHand { c with xend := true, emitted := [] }
      { t with links := { t.links with wire := t.links.wire ++ [s.peerXfer d] } }
    else
      let scr := w.byteAddr c.pos
      let n := min (w.len - c.pos % w.len) (64 - scr % 64)
      if !s.entryReady 0 scr (scr + n - 1) then s
      else
        let t := s.latchRun scr n
        (t.setHand { t.hand with emitted := c.emitted ++ t.hand.latchedRun scr n }).unitDone 0 0 (c.pos + n) false

/-- CP_PEER (R206). -/
def execCpPeer (_f : CmdF) (s : State) : Out := .next (s.copyRun State.peerStep)

end Sys2Proof.Machine
end

