-- ==== Sys2Proof/Machine/Search.lean ====
section
/-! DEFINITION. Search and fetch (R209 to R211, R335 to R347): what a cirrus engine does for a command or a record, and the
six search commands. A search, an append, a deletion or a status is one unit of its engine, and its results are then written
granule by granule; what a fetch reads of one page is one unit, and so is each granule that it writes. -/

namespace Sys2Proof.Machine

/-! ## Vectors and distances (R335, R337) -/

def IdxTy.ty : IdxTy → Ty
  | .int8 => .int8
  | .e4m3 => .e4m3
  | .bf16 => .bf16

/-- Bytes of a vector of an index. -/
def Index.vecBytes (x : Index) : Nat := x.dim * x.ety.ty.bytes

/-- Element patterns of a packed vector. -/
def vecElems (t : Ty) (bs : List Byte) (n : Nat) : List Nat :=
  let a := bs.toArray
  (List.range n).map fun i => leNat ((List.range t.bytes).map fun j => (a[i * t.bytes + j]?).getD 0)

/-- Every element is a finite number. -/
def vecFinite (t : Ty) (bs : List Byte) (n : Nat) : Bool :=
  (vecElems t bs n).all fun b => match t.value b with
    | .fin _ _ _ => true
    | _ => false

/-- The exponent of the unit in which every element of a type is an integer. -/
def unitExp (t : Ty) : Int := if t.isFloat then t.fmt.qmin else 0

/-- An element in that unit. -/
def unitInt (t : Ty) (b : Nat) : Int :=
  match t.value b with
  | .fin neg m e => signedNat neg (m * 2 ^ (e - unitExp t).toNat)
  | _ => 0

/-- The exact distance in units of 2^(2u) (R337). -/
def distInt (x : Index) (q v : List Byte) : Int :=
  let t := x.ety.ty
  let a := (vecElems t q x.dim).map (unitInt t)
  let b := (vecElems t v x.dim).map (unitInt t)
  match x.metric with
  | .l2 => ((a.zip b).map fun p => (p.1 - p.2) * (p.1 - p.2)).sum
  | .ip => -((a.zip b).map fun p => p.1 * p.2).sum
  | .hamming => (((q.zip v).map fun p => popCount 8 (p.1 ^^^ p.2).toNat).sum : Nat)

/-- The distance as FP32, rounded once by RNE; a zero is +0 (R337). -/
def dist32 (x : Index) (q v : List Byte) : Nat :=
  let d := distInt x q v
  let e := if x.metric = .hamming then 0 else 2 * unitExp x.ety.ty
  let r := (Fmt.fp32.round .rne false (decide (d < 0)) d.natAbs e false).1
  if d = 0 || r = 0x80000000 then 0 else r

/-- A candidate of a search: its distance, its identifier, and its append position. -/
structure SxCand where
  d : Nat
  id : Nat
  pos : Nat
  deriving DecidableEq, Repr

/-- The order (d, identifier) of R337, then the position. -/
def SxCand.before (a b : SxCand) : Bool :=
  let x := orderKey .fp32 a.d
  let y := orderKey .fp32 b.d
  decide (x < y) || (x == y && (decide (a.id < b.id) || (a.id == b.id && decide (a.pos < b.pos))))

def insertCand' (a : SxCand) : List SxCand → List SxCand
  | [] => [a]
  | b :: l => if a.before b then a :: b :: l else b :: insertCand' a l

/-! ## What a search sees (R340) -/

def Index.entry (x : Index) (pos : Nat) : Option IdxEntry := x.entries.find? fun e => e.pos == pos

def Index.root (x : Index) (gen : Nat) : Option IdxRoot := x.roots.find? fun r => r.gen == gen

/-- The entry is visible to a command that launched with `l`. -/
def IdxEntry.visible (e : IdxEntry) (l : Launch) : Bool :=
  decide (e.pos < l.logpos) && (match e.delAt with
    | none => true
    | some a => decide (l.at_ ≤ a))

/-- The launch of a command: what it reads of every index (R340). -/
def State.launchNow (s : State) : List (Nat × Launch) :=
  s.cirrus.indexes.toList.zipIdx.filterMap fun p => p.1.map fun x =>
    (p.2, ⟨((x.roots.head?).map (·.gen)).getD 0, x.logpos, x.events⟩)

def Index.cand (x : Index) (q : List Byte) (e : IdxEntry) : SxCand := ⟨dist32 x q e.vec, e.id, e.pos⟩

/-- Candidates of entries taken in order, up to the first whose page cannot be read (R347), and whether there was one. -/
def scanList (x : Index) (q : List Byte) (lost : Nat → Bool) : List IdxEntry → List SxCand × Bool
  | [] => ([], false)
  | e :: l =>
    if lost e.pos then ([], true)
    else let r := scanList x q lost l; (insertCand' (x.cand q e) r.1, r.2)

def insertPos (a : IdxEntry) : List IdxEntry → List IdxEntry
  | [] => [a]
  | b :: l => if a.pos ≤ b.pos then a :: b :: l else b :: insertPos a l

def insertId (a : IdxEntry) : List IdxEntry → List IdxEntry
  | [] => [a]
  | b :: l => if a.id ≤ b.id then a :: b :: l else b :: insertId a l

/-- Visible entries of the log part, in log-position order, and of the graph part, by identifier (R340, R347). -/
def Index.logPart (x : Index) (l : Launch) (m : Nat) : List IdxEntry :=
  (x.entries.filter fun e => e.visible l && decide (m ≤ e.pos)).foldr insertPos []
def Index.graphPart (x : Index) (l : Launch) (m : Nat) : List IdxEntry :=
  (x.entries.filter fun e => e.visible l && decide (e.pos < m)).foldr insertId []

/-- The state of a traversal: candidates, results, seen positions, and whether a page could not be read. -/
structure Trav where
  c : List SxCand
  w : List SxCand
  seen : List Nat
  bad : Bool
  deriving DecidableEq, Repr

/-- The neighbours of a node, in page order (R341). -/
def travNbrs (x : Index) (q : List Byte) (lost : Nat → Bool) : List Nat → Trav → Trav
  | [], t => t
  | n :: ns, t =>
    if t.bad then t
    else if t.seen.contains n then travNbrs x q lost ns t
    else if lost n then { t with bad := true }
    else
      match x.entry n with
      | none => travNbrs x q lost ns { t with seen := n :: t.seen }
      | some e =>
        let a := x.cand q e
        travNbrs x q lost ns { t with seen := n :: t.seen, c := insertCand' a t.c, w := insertCand' a t.w }

/-- The loop of R341; each round takes one candidate, so the number of nodes bounds the rounds. -/
def traverse (x : Index) (q : List Byte) (lost : Nat → Bool) (nodes : List IdxNode) (lw : Nat) : Nat → Trav → Trav
  | 0, t => t
  | k + 1, t =>
    match t.c with
    | [] => t
    | c :: cs =>
      if t.w.length = lw && ((t.w.getLast?).map fun z => z.before c).getD false then t
      else
        let nbrs := ((nodes.find? fun n => n.pos == c.pos).map (·.nbrs)).getD []
        let t1 := travNbrs x q lost nbrs { t with c := cs }
        if t1.bad then t1 else traverse x q lost nodes lw k { t1 with w := t1.w.take lw }

/-- The graph candidates of `sx.search`, and whether the traversal met a page that cannot be read (R341, R347). -/
def graphCands (x : Index) (q : List Byte) (lost : Nat → Bool) (r : IdxRoot) (l : Launch) (lw : Nat) : List SxCand × Bool :=
  match r.entry with
  | none => ([], false)
  | some p =>
    if lost p then ([], true)
    else
      match x.entry p with
      | none => ([], false)
      | some e =>
        let a := x.cand q e
        let t := traverse x q lost r.nodes lw (r.nodes.length + 1) ⟨[a], [a], [p], false⟩
        (t.w.filter fun z => ((x.entry z.pos).map fun e => e.visible l).getD false, t.bad)

/-- The candidates of a search or a scan: the log part first, then the graph part (R340, R347). `bad` are the pages that cannot
be read: an entry of the log part lies in its log page, a node in its own (R336). -/
def Index.found (x : Index) (exact : Bool) (q : List Byte) (bad : List Nat) (l : Launch) (lw : Nat) : List SxCand × Bool :=
  let r := (x.root l.gen).getD ⟨l.gen, 0, none, []⟩
  let a := scanList x q (fun p => ((x.entry p).map fun e => bad.contains e.page).getD false) (x.logPart l r.mpos)
  if a.2 then a
  else
    let lost (p : Nat) : Bool := ((r.nodes.find? fun n => n.pos == p).map fun n => bad.contains n.page).getD false
    let b := if exact then scanList x q lost (x.graphPart l r.mpos) else graphCands x q lost r l lw
    (b.1.foldr insertCand' a.1, b.2)

/-! ## A search task (R209, R210, R335 to R341) -/

/-- What a search task works on: its `OPC`, its parameter block, the bytes behind it, none where they cannot be read, the bytes
that the parameters and the results may take, its world and its launch. -/
structure SxReq where
  op : Nat
  p : BitVec 512
  vec : Nat → Option (List Byte)
  pRoom : Nat
  rRoom : Nat
  sec : Bool
  launch : List (Nat × Launch)

/-- Its outcome: the fields of the completion record, and the bytes of the results. -/
structure SxRes where
  status : Nat
  count : Nat
  root : Nat
  logpos : Nat
  data : List Byte
  deriving DecidableEq, Repr

def pIndex (p : BitVec 512) : Nat := bitsN p 0 6
def pK (p : BitVec 512) : Nat := bitsN p 44 11
def pBeam (p : BitVec 512) : Nat := bitsN p 55 9
def pNvec (p : BitVec 512) : Nat := bitsN p 80 16
def pId (p : BitVec 512) : Nat := bitsN p 96 32

/-- The fields of a parameter block are in range, and those a command does not use are zero (R210). -/
def paramOk (op : Nat) (p : BitVec 512) : Bool :=
  bitsN p 128 384 == 0 && bitsN p 64 16 == 0 && bitsN p 6 38 == 0 &&
  (match op with
    | 0 => decide (1 ≤ pK p) && decide (pK p ≤ 1024) && decide (1 ≤ pBeam p) && decide (pBeam p ≤ 256) && pNvec p == 0 &&
        pId p == 0
    | 1 => decide (1 ≤ pK p) && decide (pK p ≤ 1024) && pBeam p == 0 && pNvec p == 0 && pId p == 0
    | 2 => pK p == 0 && pBeam p == 0 && decide (1 ≤ pNvec p) && decide (pNvec p ≤ 1024) &&
        decide (pId p + pNvec p ≤ 2 ^ 32 - 1)
    | 4 => pK p == 0 && pBeam p == 0 && pNvec p == 0 && decide (pId p ≤ 2 ^ 32 - 2)
    | _ => pK p == 0 && pBeam p == 0 && pNvec p == 0 && pId p == 0)

/-- Bytes that the results of a task take, its record among them (R210). -/
def resultBytes (op : Nat) (p : BitVec 512) : Nat :=
  match op with
  | 0 | 1 => 64 + 8 * pK p
  | 5 => 65
  | _ => 64

/-- Bytes of the vectors that a task reads. -/
def paramBytes (op : Nat) (p : BitVec 512) (x : Index) : Nat :=
  match op with
  | 0 | 1 => x.vecBytes
  | 2 => pNvec p * x.vecBytes
  | _ => 0

/-- A live entry of an identifier (R339). -/
def Index.live (x : Index) (id : Nat) : Bool := x.entries.any fun e => e.id == id && e.delAt.isNone

/-- Entries not yet merged into the current root (R342). -/
def Index.unmerged (x : Index) : Nat := x.logpos - ((x.roots.head?).map (·.mpos)).getD 0

/-- A merge starts when the log holds `MTHRESH` entries at or above M (R342). -/
def Index.autoMerge (x : Index) : Index :=
  if x.merge.isNone && decide (x.mthresh ≤ x.unmerged) then { x with merge := some (x.logpos, x.events) } else x

/-- The page of an entry of an index's log: one of those that the firmware reserves for it; which one is free (R334). -/
def Cirrus.logPage (c : Cirrus) (i pos : Nat) : Nat :=
  match c.reserved.find? fun r => r.1 == i with
  | none => 0
  | some (_, p, n) => p + Config.logPage i pos % max 1 n

/-- The index with `n` vectors appended, each in its page (R338, R339). -/
def Index.append (x : Index) (id n : Nat) (vec : List Byte) (page : Nat → Nat) : Index :=
  let new := (List.range n).map fun i =>
    (⟨x.logpos + i, id + i, (vec.drop (i * x.vecBytes)).take x.vecBytes, none, page (x.logpos + i)⟩ : IdxEntry)
  ({ x with entries := x.entries ++ new, logpos := x.logpos + n, events := x.events + 1 }).autoMerge

/-- The index with an identifier deleted (R339). -/
def Index.delete (x : Index) (id : Nat) : Index :=
  { x with entries := x.entries.map fun e => if e.id = id && e.delAt.isNone then { e with delAt := some x.events } else e,
           events := x.events + 1 }

/-- The pairs that a search writes, unused slots filled (R210). -/
def pairBytes (k : Nat) (cs : List SxCand) : List Byte :=
  let a := cs.toArray
  (List.range k).flatMap fun j =>
    match a[j]? with
    | some c => leBytes 4 c.d ++ leBytes 4 c.id
    | none => leBytes 4 0x7F800000 ++ leBytes 4 0xFFFFFFFF

def State.setIndex (s : State) (i : Fin 64) (x : Option Index) : State :=
  { s with cirrus := { s.cirrus with indexes := s.cirrus.indexes.set i x } }

/-- One search, scan, append, deletion or status. Parameter errors come before the index's own, and a malformed parameter block leaves
`ROOT` and `LOGPOS` of the record 0 (DESIGN CHOICE, log entry 21). -/
def State.sxDo (s : State) (q : SxReq) : State × SxRes :=
  let i : Fin 64 := Fin.ofNat 64 (pIndex q.p)
  if !paramOk q.op q.p then (s, ⟨1, 0, 0, 0, []⟩)
  else
    match s.cirrus.indexes[i], q.launch.find? fun l => l.1 == i.val with
    | some x, some (_, l) =>
      let fail (st : Nat) : State × SxRes := (s, ⟨st, 0, l.gen, l.logpos, []⟩)
      if x.sec != q.sec then (s, ⟨2, 0, 0, 0, []⟩)
      else if q.rRoom < resultBytes q.op q.p || q.pRoom < 64 + paramBytes q.op q.p x then fail 1
      else
        let n := paramBytes q.op q.p x
        let vec := (q.vec n).getD []
        if (q.vec n).isNone || !vecFinite x.ety.ty vec (n / x.ety.ty.bytes) then fail 1
        else
          match q.op with
          | 2 =>
            let ids := (List.range (pNvec q.p)).map (pId q.p + ·)
            if ids.any x.live then fail 3
            else if x.logcap < x.logpos - x.logbase + pNvec q.p || 2 ^ 32 - 1 < x.logpos + pNvec q.p then fail 6
            else (s.setIndex i (some (x.append (pId q.p) (pNvec q.p) vec (s.cirrus.logPage i.val))), ⟨0, pNvec q.p, l.gen, l.logpos, []⟩)
          | 4 =>
            if x.live (pId q.p) then (s.setIndex i (some (x.delete (pId q.p))), ⟨0, 1, l.gen, l.logpos, []⟩) else fail 4
          | 5 =>
            (s, ⟨0, (x.entries.filter fun e => e.visible l).length, l.gen, l.logpos, [if x.merge.isSome then 1 else 0]⟩)
          | op =>
            let r := x.found (op == 1) vec s.cirrus.lost l (max (pBeam q.p) (pK q.p))
            let top := r.1.take (pK q.p)
            (s, ⟨if r.2 then 5 else 0, top.length, l.gen, l.logpos, pairBytes (pK q.p) top⟩)
    | _, _ => (s, ⟨2, 0, 0, 0, []⟩)

/-- The completion record (R209). -/
def sxRecord (r : SxRes) (retries : Nat) : List Byte :=
  leBytes 64 (r.status % 256 + retries % 65536 * 2 ^ 48 + r.count % 2 ^ 32 * 2 ^ 96 + r.root % 2 ^ 32 * 2 ^ 128 +
    r.logpos % 2 ^ 32 * 2 ^ 160)

/-! ## The tasks of an engine (R343, R346, R347) -/

/-- Fetches of a hearth's kernels that an engine has accepted and not finished: the engine of their first entry's first page
coordinates them, whose stack stands in `xoff`. -/
def Hearth.fetches (x : Hearth) (e : Nat) : Nat :=
  (x.cmds.filter fun c => c.op == some .sxFetch && c.acked && !c.performed && c.xoff == e).length

/-- Kernels' other search commands that an engine has performed and of which it still holds results: the home engine of their index
(R331, R343). -/
def Hearth.searches (x : Hearth) (e : Nat) : Nat :=
  (x.cmds.filter fun c => bitsN c.word 8 4 == 4 && c.op != some .sxFetch && c.xend && !c.performed &&
    (c.desc.map fun p => pIndex p % 8 == e).getD false).length

/-- The tasks of an engine: records, and the commands of kernels under way (R343). -/
def State.cirrusLoad (s : State) (e : Nat) : Nat :=
  (s.cirrus.tasks.filter fun t => t.eng.val == e).length + (s.hearths.toList.map fun x => x.fetches e + x.searches e).sum +
    (s.saved.map fun p => p.2.fetches e + p.2.searches e).sum

/-- The engine has a free place (R343). -/
def State.cirrusRoom (s : State) (e : Nat) : Bool := decide (s.cirrusLoad e < Config.cirrusTasks)

/-- The command in the hand as a reader of pages. -/
def State.handReader (s : State) : Reader := .cmd s.foc.h s.fh.epoch s.hand.seq

/-- Page reads of a reader that are over: what had been re-queued of them is settled (R346). -/
def State.readsOver (s : State) (r : Reader) (pages : List Nat) : State :=
  { s with cirrus := { s.cirrus with tries := s.cirrus.tries.filter fun p => !(p.1 == r && pages.contains p.2.1) } }

/-- The flash channel of a page, as 8 × stack + channel (R334). -/
def pageChannel (p : Nat) : Fin 64 := Fin.ofNat 64 (8 * (p % 8) + p / 8 % 8)

/-- A page has come over its channel whole (R287). -/
def State.pageMoved (s : State) (page : Nat) : State :=
  let ch := pageChannel page
  { s with cirrus := { s.cirrus with moved := s.cirrus.moved.set ch (s.cirrus.moved[ch] + Config.flashPage) } }

/-- An event of a command's page reads goes to the trace of its hearth: a re-queue with code 1, a page that cannot be read with
code 2 (R285, R346, R347). -/
def State.retryTrace (s : State) (h : Fin 640) (c : Cmd) (code : Nat) : State :=
  let addr := match c.run with
    | .task a _ => a
    | _ => 0
  s.traceOut h (traceRecord s.tick 6 h c.ctx c.slot c.seq 0 code ((s.hearth h).ctx c.ctx).rgn addr)

/-! ## The search commands (R209, R210) -/

/-- The bytes behind A0 + 64 of P that a search command reads. -/
def State.sxParamBytes (s : State) (op : Nat) (p : BitVec 512) : Nat :=
  ((s.cirrus.indexes[Fin.ofNat 64 (pIndex p)]).map fun x => min (paramBytes op p x) (2 ^ 21)).getD 0

/-- The task of a search command: once the chunks of its parameters are ready and its engine has a place, the engine does it, and
holds the record and the results (R209, R210, R331, R343). -/
def State.sxTask (s : State) (op : Nat) : State :=
  let c := s.hand
  let pw := c.win 1
  if !s.entryReady 1 pw.a0 (pw.a0 + 63) then s
  else
    let p := ofBytes512 (s.scratchGet pw.a0 64)
    let n := s.sxParamBytes op p
    if (n != 0 && !s.entryReady 1 (pw.a0 + 64) (pw.a0 + 63 + n)) || !s.cirrusRoom (pIndex p % 8) then s
    else
      let r := s.sxDo { op := op, p := p, vec := fun n => some (s.scratchGet (pw.a0 + 64) n), pRoom := pw.len,
                        rRoom := (c.win 0).len, sec := s.fh.sec, launch := c.launch }
      let t := r.1.readsOver s.handReader c.retried
      let t1 := if r.2.status = 5 then t.retryTrace s.foc.h c 2 else t
      t1.setHand { c with emitted := r.2.data ++ sxRecord r.2 c.retried.length, xend := true, desc := some p }

/-- A byte of what a search command writes: the results first, at A0 + 64, and the record last, at A0. -/
def sxPlace (a0 data i : Nat) : Nat := if i < data then a0 + 64 + i else a0 + (i - data)

/-- One granule of a search command's results or record is written, once its chunk is ready. -/
def State.sxWrite (s : State) : State :=
  let c := s.hand
  let w := c.win 0
  let i := c.pos
  let total := c.emitted.length
  let data := total - 64
  let a := sxPlace w.a0 data i
  let n := min ((if i < data then data else total) - i) (64 - a % 64)
  if !s.entryReady 0 a (a + n - 1) then s
  else
    let j := i + n
    let later := (if j < data then [(w.a0 + 64 + j, w.a0 + 64 + data)] else []) ++
      (if j < total then [(w.a0 + (j - data), w.a0 + 64)] else [])
    let t := s.putLate (bytesAt a ((c.emitted.drop i).take n)) later
    if j = total then (t.setHand { t.hand with pos := j }).performedWith 0 total else t.unitDone 0 0 j false

/-- One unit of a search command. -/
def State.sxStep (s : State) (op : Nat) : State := if s.hand.xend then s.sxWrite else s.sxTask op

/-- The units of a search command. -/
def State.sxCmd (s : State) (op : Nat) : State := s.copyRun fun t => t.sxStep op

/-- SX_SEARCH (R210). -/
def execSxSearch (_f : CmdF) (s : State) : Out := .next (s.sxCmd 0)
/-- SX_SCAN (R210). -/
def execSxScan (_f : CmdF) (s : State) : Out := .next (s.sxCmd 1)
/-- SX_APPEND (R210). -/
def execSxAppend (_f : CmdF) (s : State) : Out := .next (s.sxCmd 2)
/-- SX_DEL (R210). -/
def execSxDel (_f : CmdF) (s : State) : Out := .next (s.sxCmd 4)
/-- SX_STAT (R210). -/
def execSxStat (_f : CmdF) (s : State) : Out := .next (s.sxCmd 5)

/-! ## Fetching (R211, R343, R345, R347) -/

/-- The pages of a flash range. -/
def flashPages (a n : Nat) : List Nat := List.range' (a / Config.flashPage) ((a + n - 1) / Config.flashPage - a / Config.flashPage + 1)

/-- Every page of a flash range is allocated to a work queue, in a world the fetch may name (R343, R381). -/
def State.flashAllowed (s : State) (q : Fin 2048) (sec : Bool) (a n : Nat) : Bool :=
  (flashPages a n).all fun p => s.cirrus.ranges.any fun r =>
    r.wq == q && (sec || !r.sec) && decide (r.base ≤ p * Config.flashPage) &&
      decide ((p + 1) * Config.flashPage ≤ r.base + r.len)

/-- The source side of a fetch entry keeps its limits (R211, R344). -/
def fetchSrcOk (src : Word) (len : Nat) : Bool :=
  bitsN src 45 19 == 0 && src.toNat % 512 == 0 && len % 64 == 0 && decide (1 ≤ len) && decide (len ≤ 1048576) &&
    decide (src.toNat + len ≤ Config.flashBytes)

/-- The work queue that issued the command in the hand: the one its hearth's image runs under. -/
def State.handQueue (s : State) : Option (Fin 2048) := s.fh.img.map (·.wq)

/-- An entry of a kernel's fetch keeps its limits (R211, R343). -/
def State.fetchEntryOk (s : State) (w : WinOp) (e : BitVec 256) : Bool :=
  let src := (entSrc e).toNat
  let n := entLen e
  bitsN e 128 128 == 0 && bitsN e 85 11 == 0 && fetchSrcOk (entSrc e) n && decide (w.a0 + entOff e + n - 1 ≤ w.last) &&
    (s.handQueue.map fun q => s.flashAllowed q s.fh.sec src n).getD false

/-- A list entry of its three fields. -/
def mkEntry (src off len : Nat) : BitVec 256 := BitVec.ofNat 256 (src + off * 2 ^ 64 + len * 2 ^ 96)

/-- The part of an entry that lies in each of its pages. -/
def fetchParts (e : BitVec 256) : List (BitVec 256) :=
  let a := (entSrc e).toNat
  let z := a + entLen e
  (flashPages a (entLen e)).map fun p =>
    let lo := max a (p * Config.flashPage)
    mkEntry lo (entOff e + (lo - a)) (min z ((p + 1) * Config.flashPage) - lo)

/-- The list of a fetch has been read: the entries before the first that breaks a limit are fetched, and `xd` notes that there is
one (R211). -/
def State.fetchPlan (s : State) : State :=
  let c := s.hand
  if c.hold.isSome || c.list.isEmpty then s
  else
    let ok := c.list.takeWhile (s.fetchEntryOk (c.win 0))
    let eng := (((c.list.head?).map fun e => (entSrc e).toNat / Config.flashPage).getD 0) % 8
    s.setHand { c with list := ok.flatMap fetchParts, xd := c.list.length - ok.length, xoff := eng, xend := true }

/-- Bytes that a fetch has read and not yet written. -/
def Cmd.heldBytes (c : Cmd) : Nat := (c.latch.map fun p => p.2.length).sum

/-- The byte runs that a fetch has still to write. -/
def Cmd.fetchRest (c : Cmd) : List (Nat × Nat) :=
  (c.latch.map fun p => (p.1, p.1 + p.2.length)) ++ (if c.emitted.isEmpty then [] else [(c.pos, c.pos + c.emitted.length)]) ++
    c.list.map fun e => ((c.win 0).a0 + entOff e, (c.win 0).a0 + entOff e + entLen e)

/-- The fetch ends: its record is written, once its window may be written (R209, R211). What it has read stands written. -/
def State.fetchEnd (s : State) (status : Nat) : State :=
  let c := s.hand
  let r := c.win 2
  if !s.entryReady 2 r.a0 (r.a0 + 63) then s
  else
    let t := (s.putLate [] []).readsOver s.handReader c.retried
    let t1 := if status = 5 then t.retryTrace s.foc.h c 2 else t
    (t1.scratchPut r.a0 (sxRecord ⟨status, 0, 0, 0, []⟩ c.retried.length)).performedWith 0
      (unionLen ((r.a0, r.a0 + 64) :: c.wrote))

/-- The engine reads one page's part of an entry, in any order of the parts (R345); a page that cannot be read ends the fetch
(R347). For a saved hearth the part stands in the engine first, and is held in pieces (R331). -/
def State.fetchRead (s : State) (ahead : Bool) : State :=
  let c := s.hand
  let i := (Config.openValue s.free).toNat % c.list.length
  match c.list[i]? with
  | none => s
  | some e =>
    let src := (entSrc e).toNat
    let t := { s with free := s.free + 1 }
    if s.cirrus.lost.contains (src / Config.flashPage) then t.fetchEnd 5
    else
      let bs := s.cirrus.flash.bytes src (entLen e)
      let a := (c.win 0).a0 + entOff e
      ((t.setHand (if ahead then { c with list := c.list.eraseIdx i, emitted := bs, pos := a }
        else { c with list := c.list.eraseIdx i, latch := c.latch ++ [(a, bs)] })).readsOver s.handReader
          [src / Config.flashPage]).pageMoved (src / Config.flashPage)

/-- The next bytes of a part that stands in the engine are held. -/
def Cmd.holdPart (c : Cmd) (n : Nat) : Cmd :=
  { c with latch := c.latch ++ [(c.pos, c.emitted.take n)], emitted := c.emitted.drop n, pos := c.pos + n }

/-- One granule of what a fetch has read is written, once its chunk is ready. -/
def State.fetchWrite (s : State) (a : Nat) (bs : List Byte) (rest : List (Nat × List Byte)) : State :=
  let n := min bs.length (64 - a % 64)
  if !s.entryReady 0 a (a + n - 1) then s
  else
    let more := if n < bs.length then (a + n, bs.drop n) :: rest else rest
    let t := s.setHand { s.hand with latch := more, wrote := s.hand.wrote ++ [(a, a + n)] }
    t.putLate (bytesAt a (bs.take n)) t.hand.fetchRest

/-- The refusals of a fetch's descriptor (R200, R211). -/
def State.fetchDescOk (s : State) (d : BitVec 512) : Bool :=
  listDescOk d && (rangeRefusal s.copyAgent .load (descAddr d) (32 * descCount d)).isNone

/-- One unit of a fetch. -/
def State.fetchStep (s : State) : State :=
  let c := s.hand
  match c.desc with
  | none => s.withDesc fun d t => if t.fetchDescOk d then (t.readList d).fetchPlan else t.fetchEnd 1
  | some d =>
    if !c.xend then (if s.fetchDescOk d then (s.readList d).fetchPlan else s.fetchEnd 1)
    else
      match c.latch with
      | (a, bs) :: rest => s.fetchWrite a bs rest
      | [] =>
        if !c.emitted.isEmpty then s.setHand (c.holdPart c.emitted.length)
        else if c.list.isEmpty then s.fetchEnd (if c.xd = 0 then 0 else 1)
        else if c.acked then s.fetchRead false
        else if s.cirrusRoom c.xoff then s.setHand { c with acked := true }
        else s

/-- What a cirrus engine does for a search command of a saved hearth: it goes on with the task, writes nothing into the hearth,
and holds at most 64 KiB of a fetch, in pieces of 512 bytes (R331). -/
def State.sxAhead (s : State) : State :=
  let c := s.hand
  match c.op with
  | some .sxFetch =>
    let bad := c.list.any fun e => s.cirrus.lost.contains ((entSrc e).toNat / Config.flashPage)
    if !c.xend || !c.acked then s
    else if !c.emitted.isEmpty then (if c.heldBytes + 512 ≤ 65536 then s.setHand (c.holdPart 512) else s)
    else if !c.list.isEmpty && !bad && decide (c.heldBytes < 65536) then s.fetchRead true else s
  | some .sxSearch => if c.xend then s else s.sxTask 0
  | some .sxScan => if c.xend then s else s.sxTask 1
  | some .sxAppend => if c.xend then s else s.sxTask 2
  | some .sxDel => if c.xend then s else s.sxTask 4
  | some .sxStat => if c.xend then s else s.sxTask 5
  | _ => s

/-- SX_FETCH (R211). -/
def execSxFetch (_f : CmdF) (s : State) : Out := .next (s.copyRun State.fetchStep)

end Sys2Proof.Machine
end

