-- ==== Sys2Proof/Machine/Fetch.lean ====
section
/-! DEFINITION. What happens at an instruction boundary of a context (R281, R327), fetching an instruction, and giving an
engine the command it performs. -/

namespace Sys2Proof.Machine

/-- The 32-bit word at a context's pc in the instruction memory of its hearth (R16, R75). Bytes beyond the 256 KiB read as
zero, an illegal instruction. -/
def State.fetchWord (s : State) (l : Loc) : BitVec 32 :=
  BitVec.ofNat 32 (leNat ((s.hearth l.h).imem.bytes (s.ctx l).pc.toNat 4))

/-- Enabled and pending machine interrupts of a context (R75, RISC-V). -/
def Ctx.irqs (k : Ctx) : Word :=
  if k.mode = .user || bit k.csr.mstatus 3 then k.csr.mie &&& k.csr.mip else 0

/-- The interrupt taken first: external, software, timer, then by number (RISC-V). -/
def irqNumber (w : Word) : Option Nat :=
  if bit w 11 then some 11 else if bit w 3 then some 3 else if bit w 7 then some 7 else lowestSet 64 w.toNat 0

/-- A breakpoint that stands before the next instruction of a context (R280, R281). -/
def Brk.hits (b : Brk) (c : Fin 4) (k : Ctx) (i : Instr) : Bool :=
  match b with
  | .pc off ctx => k.pc.toNat == off && (ctx == none || ctx == some c)
  | .rgn id .enter => match i with
    | .kRgnEnter id' => id == id'
    | _ => false
  | .rgn id .leave => match i with
    | .kRgnLeave => k.rgn.head? == some id
    | _ => false

/-- The context waits in a CSR instruction on the nest table, in a `k.amoc` for its line, or in a `k.issue` that a pre-emption
interrupted: the instruction re-executes from its checks (R30, R121, R233, R328). -/
def Ctx.retries (k : Ctx) : Bool := k.st == .waiting && (k.wait == .nestCsr || k.wait == .owner || k.wait == .reissue)

/-- The context executes: it runs, and does not wait in a `WFI`. -/
def Ctx.active (k : Ctx) : Bool :=
  k.st == .running && (match k.wait with
    | .wfi _ => false
    | _ => true)

/-- The context may execute: it is active, or retries a stalled instruction, and neither Hob nor a pre-emption has stopped its
hearth. -/
def State.canRun (s : State) (l : Loc) : Bool :=
  ((s.ctx l).active || (s.ctx l).retries) && (s.stepping l || !s.frozen l.h)

/-- The row that happens at the next instruction boundary of a context: a pending asynchronous trap, a breakpoint, or the
instruction at the pc (R327, R281). An instruction that retries has passed its breakpoint. -/
def State.nextRow (s : State) (l : Loc) : Instr :=
  let x := s.hearth l.h
  let k := s.ctx l
  let i := decodeScalar (s.fetchWord l)
  if k.asyncReady then .asyncTrap
  else if k.active && x.hob.sess.isSome && !x.hob.passed.contains l.c && x.hob.brks.any (fun b => b.hits l.c k i) then .breakpointHit
  else i

/-- An interrupt is taken at this boundary (R76, RISC-V): pending, enabled, no asynchronous trap stands before it, and no
instruction is under way. -/
def State.irqNow (s : State) (l : Loc) : Option Nat :=
  if (s.ctx l).asyncReady || (s.ctx l).retries then none else irqNumber (s.ctx l).irqs

def State.takeIrq (s : State) (l : Loc) (n : Nat) : State :=
  s.setCtx l ((s.ctx l).enterTrap (BitVec.ofNat 64 (2 ^ 63 + n)) (s.ctx l).pc 0 0)

/-- The context takes the focus; a breakpoint that it resumed from may hit again after this instruction. -/
def State.arrive (s : State) (l : Loc) : State :=
  let x := s.hearth l.h
  if x.hob.passed.contains l.c then
    { s.setHearth l.h { x with hob := { x.hob with passed := x.hob.passed.filter (· != l.c) } } with foc := l }
  else { s with foc := l }

/-- After an instruction of a context that Hob steps, the hearth stops again (R283, R284). -/
def State.settle (s : State) (l : Loc) : State :=
  let x := s.hearth l.h
  if x.hob.step = some l.c then
    (s.setHearth l.h { x with hob := { x.hob with step := none, stopped := true } }).traceOut l.h
      (traceRecord s.tick 4 l.h l.c 0 0 0 0 (x.ctx l.c).rgn 0)
  else s

/-- A fetch has written a byte of a chunk. -/
def Cmd.wroteChunk (c : Cmd) (k : Nat) : Bool := c.wrote.any fun r => decide (r.1 / 512 ≤ k) && decide (k ≤ (r.2 - 1) / 512)

/-- No 512-byte chunk is in progress in a command of the copy engine: of its scratchpad window (R205), where a row, an entry or a payload
begins another; of a `cp.xf`, of the padded block (R279). -/
def Cmd.atChunk (c : Cmd) : Bool :=
  let w := c.win 0
  match c.op with
  | some .cpXf => c.pos % 512 == 0
  | some .cpList => c.left.all fun p => !entBegun w ((c.list[c.pos]?).getD 0) c.left p
  | some .cpLin | some .cp2d => c.left.all fun p => !dataBegun w c.left p
  | some .sxFetch =>
    match c.latch with
    | [] => true
    | p :: _ => p.1 % 512 == 0 || !c.wroteChunk (p.1 / 512)
  | some .cpFill | some .cpPeer => c.pos % w.len == 0 || w.byteAddr c.pos % 512 == 0
  | _ => true

/-- The next element that a load or a store of the sort array moves begins a 512-byte chunk of its window, or a window (R186). -/
def Cmd.atElemChunk (c : Cmd) (n : Nat) : Bool :=
  let u := sortUnit c.f 1 n c.pos
  let w := c.win u.2.1
  let i := u.2.2.2
  i == 0 || w.elemAddr u.2.2.1 i / 512 != w.elemAddr u.2.2.1 (i - 1) / 512

/-- A flag command has left its queue in an earlier cycle, and a stopped hearth has room for its updates. -/
def Hearth.flagDue (x : Hearth) (c : Cmd) : Bool :=
  c.isFlag && c.stage == .started && !c.performed && !c.failed && x.heldRoom c.flagUpdates

/-- A command stands where a pre-emption may stop its engine (R186, R279, R328): a vector command, and a matrix command that is no
nest, load or drain, only once it has completed, or as far as it can where a stopped hearth has no room for its signal (R282); a sort
command that moves elements at a 512-byte chunk of its window; a copy command where no chunk is in progress. A held engine
stops at once. -/
def Hearth.atStop (x : Hearth) (c : Cmd) : Bool :=
  if c.stage != .started then true
  else if c.isFlag then !x.flagDue c && !x.mayComplete c
  else match c.q with
  | .vector => c.performed && !x.mayComplete c
  | .matrix => match c.op with
    | some .mxGo | some .mxLdb | some .mxDrain => true
    | _ => c.performed && !x.mayComplete c
  | .sort =>
    c.performed || (match c.op with
      | some .soLd => c.atElemChunk (soCount .soLd c.f)
      | some .soSt => c.atElemChunk (soCount .soSt c.f)
      | some .soSave | some .soRest => ((c.win 1).a0 + 64 * c.pos) % 512 == 0
      | some .soClr => false
      | _ => true)
  | .copy => c.performed || x.copyHeld || c.atChunk

/-- The engine takes a started command into its hand (R215). Nothing is taken while the copy engine is held, for a command
that has performed, or on a halted hearth; on one that is being pre-empted, a command goes on in single units, to the place where it
may stop (R205, R328). -/
def State.loadHand (s : State) (h : Fin 640) (seq quota : Nat) : Option (State × Instr) :=
  let x := s.hearth h
  match x.cmd? seq with
  | none => none
  | some c =>
    if c.stage != .started || c.performed || x.halted || (c.isCopy && x.copyHeld) || (x.halting && x.atStop c) then none
    else
      match decodeCmd c.word with
      | none => none
      | some i => some ({ s.setHearth h { x with hand := c, quota := if x.halting then 1 else quota } with foc := ⟨h, c.ctx⟩ }, i)

/-- The engine puts the command back where it stands; a command that failed is gone, or stands there as failed. Units that a fault has
kept back stay noted (R289). -/
def State.storeHand (s : State) (h : Fin 640) : State :=
  let x := s.hearth h
  let kept := x.hand.hold.isSome || x.hand.logWait
  s.setHearth h { x.setCmd x.hand with hand := Cmd.empty, quota := if kept then x.quota else 0, picks := if kept then x.picks else [] }

/-- While the package records, and its log has room, a turn that it takes is recorded (R288). -/
def State.record (s : State) (t : Turn) : State := if s.logRoom then { s with turns := s.turns ++ [t] } else s

/-- The same state some cycles later (log entry 1). -/
def State.pass (s : State) (n : Nat) : State := { s with cycle := s.cycle + n }

/-- A word put where the machine fetches its next instruction: a scalar word at the pc of the focus context, which runs in
U mode as a dispatch leaves it, or a command word in the hand of the engine of the focus hearth (log entry 2). -/
def State.placeScalar (s : State) (w : Nat) : State :=
  let x := s.fh
  let k := s.fc
  let k1 := { k with st := .running, wait := .none, mode := .user, pend := [], fault := none,
                     csr := { k.csr with mie := 0 } }
  let hob := { x.hob with stopped := false, sess := none, step := none }
  { s.setFh (({ x with imem := x.imem.store k.pc.toNat (leBytes 4 w), hob := hob, halted := false, halting := false }).setCtx
      s.foc.c k1) with forced := some (.run s.foc) }

def State.placeCmd (s : State) (w : Nat) : State :=
  let x := s.fh
  let c : Cmd := { Cmd.empty with seq := x.nextSeq, ctx := s.foc.c, word := BitVec.ofNat 256 w, q := queueOf (BitVec.ofNat 256 w),
                                  stage := .started }
  { s.setFh { x with cmds := [c], nextSeq := x.nextSeq + 1, halted := false, halting := false } with
    forced := some (.engine s.foc.h x.nextSeq 65536 []) }

end Sys2Proof.Machine
end

