-- ==== Sys2Proof/Machine/FlagCmd.lean ====
section
/-! DEFINITION. The flag commands (R212, R214). -/

namespace Sys2Proof.Machine

/-- The flag that operand 0 names. -/
def CmdF_flag (f : CmdF) : Fin 256 := Fin.ofNat 256 (f.pay 0)

/-- The effect of `fl.add`: the flag of the hearth gains `IMM`, saturating (R212). -/
def State.flAddEffect (s : State) (h : Fin 640) (c : Cmd) (f : CmdF) : State :=
  s.flagAdd h c.src (CmdF_flag f) f.imm.toNat none

/-- The effect of `fl.set` (R212). -/
def State.flSetEffect (s : State) (h : Fin 640) (f : CmdF) : State := s.flagSet h (CmdF_flag f) f.imm

/-- The effect of a flag command, before its `SIG` (R212). -/
def State.flagEffect (s : State) (h : Fin 640) (c : Cmd) : State :=
  match c.op with
  | some .flAdd => s.flAddEffect h c c.f
  | some .flSet => s.flSetEffect h c.f
  | _ => s

/-- FL_NOP (R212): nothing; its `WAIT` and `SIG` act as usual. -/
def execFlNop (_f : CmdF) (s : State) : Out := .next (s.performedWith 0 0)
/-- FL_ADD (R212). -/
def execFlAdd (f : CmdF) (s : State) : Out := .next ((s.flAddEffect s.foc.h s.hand f).performedWith 0 0)
/-- FL_SET (R212). -/
def execFlSet (f : CmdF) (s : State) : Out := .next ((s.flSetEffect s.foc.h f).performedWith 0 0)
/-- FL_WAIT (R212): nothing; its `WAIT` has held its queue. -/
def execFlWait (_f : CmdF) (s : State) : Out := .next (s.performedWith 0 0)

end Sys2Proof.Machine
end

