-- ==== Sys2Proof/Machine/Engine.lean ====
section
/-! DEFINITION. The path of a command behind its acceptance: the matrix engine window, starting and completing (R38, R91,
R92, R168, R175, R212 to R215). -/

namespace Sys2Proof.Machine

/-! ## Starting (R215) -/

/-- A command that may start has room for the updates that a stopped hearth would hold (R282). -/
def Hearth.startRoom (x : Hearth) (c : Cmd) : Bool := !c.isFlag || x.heldRoom c.flagUpdates

/-- The command works from a descriptor (R200). -/
def Cmd.hasDesc (c : Cmd) : Bool :=
  match c.op with
  | some .cpLin | some .cp2d | some .cpList | some .cpXf | some .cpPeer | some .sxFetch => true
  | _ => false

/-- A copy command reads its descriptor, and the list that it names, as it starts, if the chunk of the descriptor is ready (R200,
R202). -/
def State.startRead (s : State) (h : Fin 640) (seq : Nat) : State :=
  match s.loadHand h seq 1 with
  | none => s
  | some (t, _) =>
    let f := t.hand.f
    let u := match t.hand.op with
      | some .cpLin => t.dataStep .cpLin f
      | some .cp2d => t.dataStep .cp2d f
      | some .cpList => t.listStep f
      | some .cpXf => t.xfStep
      | some .cpPeer => t.peerStep
      | some .sxFetch => t.fetchStep
      | _ => t
    { u.storeHand h with foc := s.foc }

/-- The command reads a list, whose entries it sees as they stand at its start (R202, R211). -/
def Cmd.hasList (c : Cmd) : Bool := c.op == some .cpList || c.op == some .sxFetch

/-- A command leaves its queue: its `WAIT` takes, a writer sets its first done bits, a search command launches, and a command that
reads a list keeps memory as it stands (R91, R202, R210, R220). The `WAIT` of a matrix command was met at its acceptance (R168). -/
def State.leaveQueue (s : State) (h : Fin 640) (c : Cmd) : State :=
  let x := s.hearth h
  let x1 := if c.q == .matrix && !c.isFlag then x else waitTake x c.f.wait
  let launch := if bitsN c.word 8 4 = 4 then s.launchNow else []
  s.setHearth h (x1.setCmd { c.startBits (x.ctx c.ctx).ps with
    stage := .started, launch := launch, began := if c.hasList then some s.mem else none })

/-- A flag command that has left its queue performs and completes (R212). -/
def State.endFlag (s : State) (h : Fin 640) (seq : Nat) : State :=
  match (s.hearth h).cmd? seq with
  | none => s
  | some c => (s.flagEffect h c).complete h c

/-- A command starts: it leaves its queue, a flag command performs and completes at once, and a copy command reads its descriptor
(R91, R200, R212). -/
def State.startCmd (s : State) (h : Fin 640) (c : Cmd) : State :=
  let s1 := s.leaveQueue h c
  if c.isFlag then s1.endFlag h c.seq else if c.hasDesc then s1.startRead h c.seq else s1

/-- A command of a hearth starts, if it may (R91, R215). In one cycle of the hearth, a flag command that starts performs and completes in
the next (R38, R214). -/
def State.startIf (s : State) (h : Fin 640) (seq : Nat) (cycle : Bool) : State :=
  let x := s.hearth h
  match x.cmd? seq with
  | none => s
  | some c =>
    if !x.idle && c.stage != .started && x.mayStart c && x.startRoom c then
      if cycle && c.isFlag then s.leaveQueue h c else s.startCmd h c
    else s

/-- COMMAND_START (R91, R215): a command of the hearth at the focus starts, if it may. Engines of a stopped hearth go on
(R281); on a hearth that is being pre-empted, or that is halted, no command starts (R328). -/
def execCommandStart (seq : Nat) (s : State) : Out := .next (s.startIf s.foc.h seq false)

/-! ## The matrix engine window (R168, R175) -/

/-- Commands in the engine window; a command leaves it when it completes. -/
def Hearth.inWindow (x : Hearth) : Nat := (x.cmds.filter fun d => d.q == .matrix && !d.isFlag && d.stage != .queued).length

/-- An `mx.go` is accepted after every earlier `mx.cfg` of its context has completed. -/
def Hearth.cfgDone (x : Hearth) (c : Cmd) : Bool :=
  c.op != some .mxGo || x.cmds.all fun d => !(d.op == some .mxCfg && d.ctx == c.ctx && decide (d.seq < c.seq))

/-- MATRIX_WINDOW_ACCEPTANCE (R168): the head of the matrix queue enters the window; an `mx.go` copies its nest table. -/
def execMatrixWindowAcceptance (s : State) : Out :=
  let x := s.fh
  .next <|
    match x.queueHead .matrix with
    | none => s
    | some c =>
      if !c.isFlag && !x.idle && !x.flagUnderWay .matrix && waitHolds x c.f.wait && decide (x.inWindow < Config.windowPlaces) && x.cfgDone c then
        let nest := if c.op = some .mxGo then (x.ctx c.ctx).nest else c.nest
        s.setFh ((waitTake x c.f.wait).setCmd { c with stage := .window, nest := nest })
      else s

/-! ## Completion (R38, R92) -/

/-- Commands in the order in which their completions of one cycle apply: by class, then by sequence number (R38). -/
def insertDone (a : Cmd) : List Cmd → List Cmd
  | [] => [a]
  | b :: l => if a.rank < b.rank || (a.rank == b.rank && decide (a.seq ≤ b.seq)) then a :: b :: l else b :: insertDone a l

/-- One command completes, if it may; a flag command that left its queue in an earlier cycle performs with it. -/
def State.completeSeq (s : State) (h : Fin 640) (seq : Nat) : State :=
  let x := s.hearth h
  match x.cmd? seq with
  | none => s
  | some c =>
    if x.halted then s
    else if x.flagDue c then s.endFlag h seq
    else if x.mayComplete c then s.complete h c else s

/-- COMMAND_COMPLETION (R92): the commands of the hearth at the focus that complete in this cycle. -/
def execCommandCompletion (seqs : List Nat) (s : State) : Out :=
  let cs := ((seqs.eraseDups).filterMap s.fh.cmd?).foldr insertDone []
  .next ((cs.map (·.seq)).foldl (fun t q => t.completeSeq s.foc.h q) s)

end Sys2Proof.Machine
end

