-- ==== Sys2Proof/Machine/Tasks.lean ====
section
/-! DEFINITION. Continuation records, graphs and the queue manager (R98, R108, R111, R112, R235 to R237, R266, R301 to R315),
the hearth runtime's services (R119, R314, R327), and the aperture access that the scoreboard held (R224). -/

namespace Sys2Proof.Machine

/-! ## Record fields (R301) -/

def recParent (r : BitVec 512) : Word := field r 448 64
def recFrame (r : BitVec 512) : Word := field r 384 64
def recJoin (r : BitVec 512) : Nat := bitsN r 352 32
def recImage (r : BitVec 512) : Nat := bitsN r 304 16
def recEntry (r : BitVec 512) : Nat := bitsN r 286 18
def recRgn (r : BitVec 512) : BitVec 16 := field r 270 16
def recLayer (r : BitVec 512) : Nat := bitsN r 240 16
def recPhen (r : BitVec 512) : Bool := bit r 239
def recAttn (r : BitVec 512) : Bool := bit r 238
def recKind (r : BitVec 512) : Nat := bitsN r 236 2
def recPrio (r : BitVec 512) : Nat := bitsN r 233 3
def recAffk (r : BitVec 512) : Nat := bitsN r 231 2
def recAffv (r : BitVec 512) : Nat := bitsN r 226 5
def recCfen (r : BitVec 512) : Bool := bit r 223
def recCfHearth (r : BitVec 512) : Nat := bitsN r 213 10
def recCfIdx (r : BitVec 512) : Fin 256 := (field r 205 8).toFin
def recCfVal (r : BitVec 512) : Nat := bitsN r 192 13

/-- A record with the fields that the queue manager writes. -/
def RecRef.over (r : RecRef) (w : BitVec 512) : BitVec 512 :=
  putN (putN (putN (putN (putN w 320 32 r.graph) 259 11 r.wq.val) 256 3 r.qst.toNat) 225 1 (if r.chfail then 1 else 0)) 128 64 r.rtick

/-- The registered image that a record of a work queue names (R302). -/
def State.imageFor (s : State) (q : Fin 2048) (id : Nat) : Option Image :=
  s.svc.images.find? fun i => i.id == id && i.wq == q

/-- The code pointer is an entry of an image of the work queue (R302). -/
def State.entryOk (s : State) (q : Fin 2048) (id entry : Nat) : Bool :=
  match s.imageFor q id with
  | none => false
  | some i => entry % 4 == 0 && decide (entry < i.code.length)

/-- The record is well formed (R302); the fields that only the queue manager writes do not count. -/
def State.recOk (s : State) (q : Fin 2048) (r : BitVec 512) : Bool :=
  !bit r 224 && bitsN r 0 128 == 0 && recKind r != 3 && recAffk r != 3 &&
  (match recAffk r with
    | 0 => recAffv r == 0
    | 1 => decide (recAffv r < 4)
    | _ => true) &&
  s.entryOk q (recImage r) (recEntry r) && (!recCfen r || decide (recCfHearth r < 640)) && (recParent r).toNat % 64 == 0

/-! ## The queue manager's view of records -/

def State.refOf (s : State) (q : Fin 2048) (a : Word) : Option RecRef := s.qm.recs.find? fun r => r.wq == q && r.addr == a

def State.dropRef (s : State) (r : RecRef) : State :=
  { s with qm := { s.qm with recs := s.qm.recs.filter fun x => !(x.wq == r.wq && x.addr == r.addr) } }

def State.setRef (s : State) (r : RecRef) : State :=
  { s with qm := { s.qm with recs := (s.qm.recs.filter fun x => !(x.wq == r.wq && x.addr == r.addr)) ++ [r] } }

/-- The record as the queue manager reads it; zero where its memory cannot be read (log entry 22). -/
def State.recWord (s : State) (r : RecRef) : BitVec 512 :=
  match s.unitRead (s.queueAgent r.wq) r.addr 64 with
  | none => 0
  | some bs => r.over (ofBytes512 bs)

/-- One indivisible update of a record by the queue manager (R303). -/
def State.putRec (s : State) (r : RecRef) (w : BitVec 512) : State :=
  (s.setRef r).unitWrite (s.queueAgent r.wq) r.addr (bytes512 (r.over w))

/-- A record becomes ready (R303). -/
def State.makeReady (s : State) (r : RecRef) (w : BitVec 512) : State :=
  s.putRec { r with qst := 0, rtick := s.tick, seen := s.tick, reported := false, last := w } w

/-- What the queue manager knows of a record that has just become known to it, ready. -/
def State.newRef (s : State) (a : Word) (q : Fin 2048) (g : Nat) (w : BitVec 512) : RecRef :=
  { addr := a, wq := q, graph := g, qst := 0, chfail := false, rtick := s.tick, seen := s.tick, failing := false, reported := false,
    last := w }

/-- A page of the address space of a work queue is being migrated: what the queue manager and the cirrus engines do with its records
waits (R253, log entry 63). -/
def State.queueMoving (s : State) (q : Fin 2048) : Bool := s.asidMoving (s.queues[q]).asid

/-- The service pair that interprets a queue's graphs runs, and so does the leader that has assigned it (R308, R366). -/
def State.queueServed (s : State) (q : Fin 2048) : Bool := s.leaderLive && s.svc.live (s.queues[q]).pair

/-- The flag of the first of some saved states of a hearth gains a value, and whether that saturates it (R331). -/
def savedFlagAdd (h fl : Nat) (v : Nat) : List (Fin 640 × Hearth) → List (Fin 640 × Hearth) × Bool
  | [] => ([], false)
  | p :: ps =>
    let f := Fin.ofNat 256 fl
    if p.1.val = h then
      let r := satAdd (p.2.flag f) v
      ((p.1, { p.2 with flags := p.2.flags.set f r.1 }) :: ps, r.2)
    else let r := savedFlagAdd h fl v ps; (p :: r.1, r.2)

/-- An update of a hearth's flag by the queue manager. A saved hearth takes it in its saved flag file, of its earliest saved state
where it has several (R305, R331, log entry 57); a stopped one whose held list is full takes it as soon as there is room (R282). -/
def State.qmFlag (s : State) (h : Nat) (fl : Fin 256) (v : Nat) : State :=
  if hh : h < 640 then
    let hf : Fin 640 := ⟨h, hh⟩
    if s.saved.any (fun p => p.1 = hf) then
      let r := savedFlagAdd h fl.val v s.saved
      let s1 := { s with saved := r.1 }
      if r.2 then s1.report (.flagOverflow hf fl none) else s1
    else if (s.hearth hf).heldRoom 1 then s.flagAdd hf .qm fl v none
    else { s with qm := { s.qm with flagLate := s.qm.flagLate ++ [(hf, fl, v)] } }
  else s

/-! ## Graphs (R307, R308, R352) -/

/-- A completion record, written to host memory before the interrupt (R256, R352). While a replay runs, the record is checked
against the recorded one, and a difference ends the replay with a report (R288). -/
def State.hostComplete (s : State) (q : Fin 2048) (caddr : Nat) (seq : Word) (cstat nfault ncancel : Nat) : State :=
  let r : BitVec 512 := BitVec.ofNat 512 (seq.toNat + cstat % 256 * 2 ^ 64 + nfault % 2 ^ 32 * 2 ^ 128 + ncancel % 2 ^ 32 * 2 ^ 160 +
    s.tick % 2 ^ 64 * 2 ^ 192)
  let s1 := (s.hostStore caddr (bytes512 r)).msix (s.queues[q]).vec
  let s2 := if s1.logRoom then { s1 with svc := { s1.svc with recorded := s1.svc.recorded ++ [r] } } else s1
  match s2.svc.replay with
  | none => s2
  | some [] => s2
  | some (x :: rest) =>
    if putN x 192 64 0 = putN r 192 64 0 then { s2 with svc := { s2.svc with replay := some rest } }
    else { s2 with svc := { s2.svc with replay := none, script := [], forcedResults := [], reports := s2.svc.reports ++ [.divergence] } }

def Graph.count (g : Graph) (q : BitVec 3) : Nat := (g.nodes.filter fun n => n.fin == some q).length

def State.dropGraph (s : State) (id : Nat) : State :=
  { s with qm := { s.qm with graphs := s.qm.graphs.filter fun g => g.id != id } }

def State.setGraph (s : State) (g : Graph) : State :=
  { s with qm := { s.qm with graphs := s.qm.graphs.map fun x => if x.id = g.id then g else x } }

/-- Every node of a graph has ended, and the service pair of its queue runs (R308, step 4). -/
def State.graphDue (s : State) (g : Graph) : Bool := g.nodes.all (fun n => n.fin.isSome) && s.queueServed g.wq

/-- A graph whose every node has ended is completed to the host, by the service pair of its queue (R308, step 4); while that does not
run, the graph stays. -/
def State.graphCheck (s : State) (g : Graph) : State :=
  if s.graphDue g then
    (s.dropGraph g.id).hostComplete g.wq g.caddr g.seq (if (s.queues[g.wq]).torn then 2 else 0) (g.count 6) (g.count 5)
  else s.setGraph g

/-- The record at an address ended as `q`: if it is a node's, the node has. -/
def State.nodeDone (s : State) (wq : Fin 2048) (addr : Word) (q : BitVec 3) : State :=
  match s.qm.graphs.find? fun g => g.wq == wq && g.nodes.any fun n => n.recAt == some addr && n.fin.isNone with
  | none => s
  | some g =>
    let ns := g.nodes.map fun n =>
      if n.recAt = some addr && n.fin.isNone then { n with fin := some q, finAt := s.cycle } else n
    s.graphCheck { g with nodes := ns }

/-! ## The end of a record (R303 to R305) -/

/-- A record enters state 4, 5 or 6: its completion flag is routed, its node ends, and its parent's `JOIN` falls, which may
end the parent in turn. Each round takes one record off the manager's list, so its length bounds the rounds. -/
def State.endRec : Nat → State → RecRef → BitVec 3 → State
  | 0, s, _, _ => s
  | n + 1, s, r, q =>
    let w := s.recWord r
    let s1 := (s.putRec { r with qst := q } w).dropRef r
    let s2 := if recCfen w then s1.qmFlag (recCfHearth w) (recCfIdx w) (recCfVal w) else s1
    let s3 := s2.nodeDone r.wq r.addr q
    let p := recParent w
    let ag := s3.queueAgent r.wq
    if p = 0 then s3
    else
      match s3.unitRead ag p 64 with
      | none => s3.report (.joinUnderflow p)
      | some bs =>
        let pw := ofBytes512 bs
        let j := recJoin pw
        let failed := q == 5 || q == 6
        let pw1 := if failed then putN pw 225 1 1 else pw
        match s3.refOf r.wq p with
        | none =>
          if j = 0 then (s3.unitWrite ag p (bytes512 pw1)).report (.joinUnderflow p)
          else s3.unitWrite ag p (bytes512 (putN pw1 352 32 (j - 1)))
        | some pr =>
          let pr1 := { pr with chfail := pr.chfail || failed }
          if j = 0 then (s3.putRec pr1 pw).report (.joinUnderflow p)
          else
            let pw2 := putN pw 352 32 (j - 1)
            if j = 1 && pr.failing then State.endRec n (s3.putRec pr1 pw2) pr1 6
            else if j = 1 && pr.qst = 2 then s3.makeReady pr1 pw2
            else if j = 1 && pr.qst = 3 then State.endRec n (s3.putRec pr1 pw2) pr1 4
            else s3.putRec pr1 pw2

def State.endRecord (s : State) (r : RecRef) (q : BitVec 3) : State := s.endRec (s.qm.recs.length + 1) r q

/-! ## Giving up a turn (R108, R112, R303) -/

/-- `k.done` once drained: the record is finished, or completed if it waits for no child. -/
def State.finishTask (s : State) (l : Loc) : State :=
  match (s.ctx l).run with
  | .task a q =>
    match s.refOf q a with
    | none => s.freeCtx l
    | some r =>
      let w := s.recWord r
      let s1 := s.freeCtx l
      if recJoin w = 0 then s1.endRecord r 4 else s1.putRec { r with qst := 3 } w
  | _ => s.freeCtx l

/-- `k.susp` once drained, and its like: the code pointer is set, and the record is ready if it waits for no child. -/
def State.suspendTask (s : State) (l : Loc) (image entry : Nat) (edit : BitVec 512 → BitVec 512) : State :=
  match (s.ctx l).run with
  | .task a q =>
    match s.refOf q a with
    | none => s.freeCtx l
    | some r =>
      let w := edit (putN (putN (s.recWord r) 304 16 image) 286 18 entry)
      let s1 := s.freeCtx l
      if recJoin w = 0 then s1.makeReady r w else s1.putRec { r with qst := 2 } w
  | _ => s.freeCtx l

/-- The record of the context ends as faulted (R303, R314, R327). One that has children under way ends so once they have completed,
for no record completes before its descendants (R305, R308, log entry 56). -/
def State.faultTask (s : State) (l : Loc) : State :=
  match (s.ctx l).run with
  | .task a q =>
    match s.refOf q a with
    | none => s.freeCtx l
    | some r =>
      let w := s.recWord r
      let s1 := s.freeCtx l
      if recJoin w = 0 then s1.endRecord r 6 else s1.putRec { r with failing := true } w
  | _ => s.freeCtx l

/-- The end of a record that is not run, or that a cirrus engine has finished: one that has children under way ends once they have completed
(R303 to R305, R360, log entry 56). -/
def State.endOrWait (s : State) (r : RecRef) (fin : BitVec 3) : State :=
  let w := s.recWord r
  if recJoin w = 0 then s.endRecord r fin
  else if fin = 4 then s.putRec { r with qst := 3 } w else s.putRec { r with failing := true } w

/-- The image that the hearth of a context runs. -/
def State.imageId (s : State) (l : Loc) : Nat := ((s.hearth l.h).img.map (·.id)).getD 0

/-! ### The hearth runtime (R119, R314, R327) -/

def Ctx.put (k : Ctx) (r : XReg) (v : Word) : Ctx := k.set r v

/-- The trap procedure of the image starts (R119). -/
def State.startTrapProc (s : State) (l : Loc) (entry : Nat) : State :=
  let k := s.ctx l
  let a : Word × Word := match k.run with
    | .task p q => (((s.refOf q p).map fun r => recFrame (s.recWord r)).getD 0, p)
    | _ => (BitVec.ofNat 64 emberSpill, 0)
  let k1 := (((k.put 10 a.1).put 11 a.2).put 12 k.csr.mtval).put 13 (k.csr.mepc + 4)
  let ms := k.csr.mstatus &&& ~~~ (0x1888#64)
  s.setCtx l { k1 with
    st := .running, wait := .none, mode := .user, pc := BitVec.ofNat 64 entry, vs := Vector.replicate 16 0,
    ps := Vector.replicate 8 0, ws := Vector.replicate 32 0,
    csr := { k1.csr with mstatus := ms ||| (if bit k.csr.mstatus 7 then 8#64 else 0) ||| 0x80#64 } }

/-- The address that a report names for a context's record. -/
def Ctx.recAddr (k : Ctx) : Word := match k.run with
  | .task p _ => p
  | _ => 0

/-- What the runtime does about the trap that the context holds, once its commands have drained. -/
def State.runtimeAct (s : State) (l : Loc) : State :=
  let k := s.ctx l
  let code := k.csr.mtval.toNat
  if k.csr.mcause ≠ 31 then s.faultTask l
  else if 256 ≤ code then
    match (s.hearth l.h).img.bind (·.trapOff) with
    | none => s.faultTask l
    | some e => s.startTrapProc l e
  else
    let a2 := k.get 12
    let a3 := k.get 13
    match code, k.run with
    | 1, .task _ q =>
      let im := bitsN a2 0 16
      let en := bitsN a3 0 18
      if s.entryOk q im en then s.suspendTask l im en id else s.faultTask l
    | 2, .task _ _ =>
      if bitsN a2 3 61 ≠ 0 then s.faultTask l
      else s.suspendTask l (s.imageId l) (k.csr.mepc + 4).toNat fun w => putN w 233 3 (bitsN a2 0 3)
    | 0, _ | 1, _ | 2, _ => s.faultTask l
    | n, _ => (s.faultTask l).report (.runtimeCode k.recAddr n)

/-- The runtime goes on with the record: it starts the trap procedure of the image (R119). -/
def State.runtimeStays (s : State) (l : Loc) : Bool :=
  let k := s.ctx l
  k.csr.mcause == 31 && decide (256 ≤ k.csr.mtval.toNat) && ((s.hearth l.h).img.bind (·.trapOff)).isSome

/-- The record of a context may end, or be handed back: no write of its commands is still to be performed (R108, R267, R356), and no
page of its address space is being migrated (R253). -/
def State.recordGoes (s : State) (l : Loc) : Bool :=
  (s.hearth l.h).settled l.c && (match (s.ctx l).run with
    | .task _ q => !s.queueMoving q
    | _ => true)

/-- The drain of a context is over (R108, R112, R326): where the record goes on, its commands have completed or ended; where the record
ends or is handed back, nothing that they do is still to come. -/
def State.drainOver (s : State) (l : Loc) (d : AfterDrain) : Bool :=
  match d with
  | .go | .illegal _ => (s.hearth l.h).drained l.c
  | .runtime => if s.runtimeStays l then (s.hearth l.h).drained l.c else s.recordGoes l
  | .done | .susp _ | .yield | .fault => s.recordGoes l

/-- The hearth runtime serves the trap that a context holds: it drains the context's commands first. An interrupt is none
of its business, and returns (log entry 6). -/
def State.serveRuntime (s : State) (l : Loc) : State :=
  let k := s.ctx l
  if s.frozen l.h || k.st ≠ .running || k.wait ≠ .none || k.mode ≠ .machine then s
  else if bit k.csr.mcause 63 then s.setCtx l k.trapReturn
  else if s.drainOver l .runtime then s.runtimeAct l
  else s.setCtx l { k with st := .waiting, wait := .drain .runtime }

/-! ### The instructions -/

/-- What a context does once its drain is over. -/
def State.afterDrain (s : State) (l : Loc) (d : AfterDrain) : State :=
  match d with
  | .go => s.setCtx l ({ s.ctx l with st := .running, wait := .none }).retire
  | .done => s.finishTask l
  | .susp e => s.suspendTask l (s.imageId l) e.toNat id
  | .yield => s.suspendTask l (s.imageId l) ((s.ctx l).pc + 4).toNat id
  | .illegal w => (s.setCtx l { s.ctx l with st := .running, wait := .none }).trap l 2 (s.ctx l).pc w 0
  | .fault => s.faultTask l
  | .runtime => s.runtimeAct l

/-- The drain of the instruction at the focus, and what follows it (R108, R112). -/
def State.drainThen (s : State) (d : AfterDrain) : State :=
  if s.drainOver s.foc d then s.afterDrain s.foc d else s.setFc { s.fc with st := .waiting, wait := .drain d }

/-- The context runs a record, not an arrival. -/
def Ctx.isTask (k : Ctx) : Bool := match k.run with
  | .task _ _ => true
  | _ => false

/-- K_DRAIN (R108). -/
def execKDrain (s : State) : Out := .next (s.drainThen .go)

/-- K_DONE (R112). -/
def execKDone (s : State) : Out := .next (s.drainThen .done)

/-- The entry offset of a `k.susp` lies in the image's code, and the context has a record to suspend (R112). -/
def State.suspOk (s : State) (e : Word) : Bool :=
  s.fc.isTask && e.toNat % 4 == 0 && decide (e.toNat < (s.fh.img.map (·.code.length)).getD 0)

/-- K_SUSP (R112): behind the drain, an entry offset outside the image's code, or an ember context, raises the trap. -/
def execKSusp (xs : XReg) (s : State) : Out :=
  let e := s.fc.get xs
  .next (s.drainThen (if s.suspOk e then .susp (e.truncate 18) else .illegal (wordOf (.kSusp xs))))

/-- K_YIELD (R112). Whether the offset behind it is an entry of the image's code is not asked, as it is of `k.susp`: the spec does not say
(DESIGN CHOICE, log entry 75). -/
def execKYield (s : State) : Out := .next (s.drainThen (if s.fc.isTask then .yield else .illegal (wordOf .kYield)))

/-- DRAIN_COMPLETE (R108): the last outstanding command of the draining context has completed. -/
def execDrainComplete (s : State) : Out :=
  .next <|
    match s.frozen s.foc.h, s.fc.st, s.fc.wait with
    | false, .waiting, .drain d => if s.drainOver s.foc d then s.afterDrain s.foc d else s
    | _, _, _ => s

/-! ## Spawning (R111, R301, R302, R304) -/

/-- The addresses of `n` child records. -/
def childAddrs (a : Word) (n : Nat) : List Word := (List.range n).map fun i => a + BitVec.ofNat 64 (64 * i)

/-- The graph and the work queue that children take: those of the spawning record; an ember context has none, and gives its
image's queue and graph 0 (log entry 23). -/
def State.spawnOf (s : State) (l : Loc) : Option (Nat × Fin 2048) :=
  match (s.ctx l).run with
  | .task a q => some (((s.refOf q a).map (·.graph)).getD 0, q)
  | _ => (s.hearth l.h).img.map fun i => (0, i.wq)

/-- A parent's `JOIN` has room for its new children (R304). A parent whose memory the queue manager cannot read fails the check, and
`k.spawn` raises the illegal-instruction trap: R111, R302 and R304 do not say what happens then (DESIGN CHOICE, log entry 58). -/
def joinRoom (s : State) (q : Fin 2048) (ps : List Word) (p : Word) : Bool :=
  match s.unitRead (s.queueAgent q) p 64 with
  | none => false
  | some bs => decide (recJoin (ofBytes512 bs) + ps.count p ≤ 2 ^ 32 - 1)

/-- A parent's `JOIN` rises by one. -/
def State.joinInc (s : State) (q : Fin 2048) (p : Word) : State :=
  let ag := s.queueAgent q
  match s.unitRead ag p 64 with
  | none => s
  | some bs =>
    let w := ofBytes512 bs
    s.unitWrite ag p (bytes512 (putN w 352 32 (recJoin w + 1)))

/-- A child record becomes known to the queue manager, ready. -/
def State.enqueue (s : State) (g : Nat) (q : Fin 2048) (a : Word) : State :=
  let r := s.newRef a q g 0
  let w := s.recWord r
  s.putRec { r with last := w } w

/-- The first child whose bytes the context cannot read, or the queue manager could not write: its address and the cause of
its trap or of its hold. -/
def State.spawnFault (s : State) (l : Loc) (q : Fin 2048) (as : List Word) : Option (Word × Bool × Nat) :=
  as.findSome? fun a =>
    match s.resolve l .load a 64 with
    | .trap c => some (a, false, c)
    | .held c => some (a, true, c)
    | .ok (.aperture _) => some (a, false, 5)
    | .ok (.mem _) =>
      match s.xlatN (s.queueAgent q) .store a 64 with
      | .error f => some (a, true, AccKind.store.cause f)
      | .ok _ => none

/-- A parent's record stands in a page that is being migrated (R253). -/
def State.parentMoving (s : State) (q : Fin 2048) (p : Word) : Bool :=
  match s.xlatN (s.queueAgent q) .both p 64 with
  | .error _ => false
  | .ok ks => s.migrating ks

/-- K_SPAWN (R111): the children are read and checked, the parents' join counters rise, and then every child is queued. The
context waits until the queue manager has accepted them. Two orders that the spec does not give (DESIGN CHOICE, log entry 75): an
address that is misaligned and not canonical raises the access fault; and a fault of any child comes before the checks of all of
them. -/
def execKSpawn (xa xn : XReg) (s : State) : Out :=
  let a := s.fc.get xa
  let n := (s.fc.get xn).toNat
  let illegal := s.trapHere 2 (wordOf (.kSpawn xa xn))
  .next <|
    if 64 < n then illegal
    else if n = 0 then s.retire
    else if a.toNat % 64 ≠ 0 then s.trapHere 5 a
    else if !rangeOk a (64 * n) then s.trapHere 27 a
    else
      match s.spawnOf s.foc with
      | none => illegal
      | some (g, q) =>
        let as := childAddrs a n
        match s.spawnFault s.foc q as with
        | some (b, true, c) => s.hold s.foc ⟨c, b, false⟩
        | some (b, false, c) => s.trapHere c b
        | none =>
          let ws := as.map fun b => ofBytes512 ((s.unitRead (s.queueAgent q) b 64).getD [])
          let ps := (ws.map recParent).filter (· ≠ 0)
          if !ws.all (s.recOk q) || !ps.all (joinRoom s q ps) then illegal
          else
            match ps.find? (s.parentMoving q) with
            | some b => s.hold s.foc ⟨13, b, false⟩
            | none =>
              let s1 := ps.foldl (fun t p => t.joinInc q p) s
              let s2 := as.foldl (fun t b => t.enqueue g q b) s1
              s2.setFc { s2.fc with st := .waiting, wait := .spawn }

/-- SPAWN_ACCEPTED (R111): `k.spawn` returns. -/
def execSpawnAccepted (s : State) : Out :=
  .next <|
    match s.frozen s.foc.h, s.fc.st, s.fc.wait with
    | false, .waiting, .spawn => s.resume.retire
    | _, _, _ => s

/-! ## Dispatch (R266, R309 to R312) -/

/-- The affinity of a record takes in a hearth. -/
def affinityOk (w : BitVec 512) (h : Fin 640) : Bool :=
  match recAffk w with
  | 0 => true
  | 1 => recAffv w == h.val / 160
  | 2 => recAffv w == h.val / 20
  | _ => false

/-- A compute record matches a hearth (R309). -/
def State.matchesHearth (s : State) (q : Fin 2048) (w : BitVec 512) (h : Fin 640) : Bool :=
  let x := s.hearth h
  affinityOk w h && !x.halted && (x.img.map (·.id)) == some (recImage w) && x.asid == some (s.queues[q]).asid

/-- The layer barrier holds a record (R310). -/
def State.barrierHeld (s : State) (r : RecRef) (w : BitVec 512) : Bool :=
  recPhen w && recAttn w && s.qm.recs.any fun p =>
    let v := s.recWord p
    p.graph == r.graph && recPhen v && !recAttn v && recLayer v == recLayer w && decide (p.qst.toNat ≤ 3)

/-- The effective priority of a ready record (R311). -/
def State.eff (s : State) (r : RecRef) (w : BitVec 512) : Nat := min 7 (recPrio w + (s.tick - r.rtick) / s.qm.ageLimit)

/-- The first candidate goes before the second: the larger eff, then the smaller `RTICK`, then the lower address. -/
def State.goesFirst (s : State) (a b : RecRef × BitVec 512) : Bool :=
  let x := s.eff a.1 a.2
  let y := s.eff b.1 b.2
  decide (y < x) || (x == y && (decide (a.1.rtick < b.1.rtick) ||
    (a.1.rtick == b.1.rtick && decide (a.1.addr.toNat ≤ b.1.addr.toNat))))

/-- The candidate that goes first. -/
def State.bestOf (s : State) : List (RecRef × BitVec 512) → Option (RecRef × BitVec 512)
  | [] => none
  | a :: l =>
    match s.bestOf l with
    | none => some a
    | some b => if s.goesFirst a b then some a else some b

/-- Ready records with their words. -/
def State.ready (s : State) : List (RecRef × BitVec 512) :=
  (s.qm.recs.filter fun r => r.qst == 0 && !r.failing).map fun r => (r, s.recWord r)

/-- A context starts a record (R28, R311). -/
def State.startTask (s : State) (l : Loc) (r : RecRef) (w : BitVec 512) : State :=
  let s1 := s.putRec { r with qst := 1 } w
  let x := s1.hearth l.h
  let k := (x.ctx l.c).start x.lmtrapDefault x.runId (.task r.addr r.wq) (BitVec.ofNat 64 (recEntry w)) (recFrame w) r.addr
    (if recRgn w = 0 then [] else [recRgn w])
  s1.setCtx l k

/-- The candidate that a context takes: one that is free, not armed, and whose hearth runs and has no arrival waiting, takes the
best (R235, R311). -/
def State.choiceOf (s : State) (rs : List (RecRef × BitVec 512)) (l : Loc) : Option (RecRef × BitVec 512) :=
  let x := s.hearth l.h
  if (x.ctx l.c).st ≠ .free || x.idle || !x.arrQ.isEmpty then none
  else s.bestOf (rs.filter fun p => recKind p.2 == 0 && s.matchesHearth p.1.wq p.2 l.h && !s.barrierHeld p.1 p.2 &&
    !s.queueMoving p.1.wq)

/-- The contexts of the package, in ascending order of hearth and then of context (R311). -/
def allLocs : List Loc := (List.finRange 640).flatMap fun h => (List.finRange 4).map fun c => ⟨h, c⟩

/-- The free context that chooses first, and its record (R311). -/
def State.firstChoice (s : State) : Option (Loc × RecRef × BitVec 512) :=
  match s.ready with
  | [] => none
  | rs => allLocs.findSome? fun l => (s.choiceOf rs l).map fun p => (l, p)

/-- A context is given a record; a malformed one is not run, and completes as faulted (R302, R311). -/
def State.dispatchTo (s : State) (l : Loc) (r : RecRef) (w : BitVec 512) : State :=
  if s.recOk r.wq w then s.startTask l r w else (s.endOrWait r 6).report (.malformed r.addr)

/-- RECORD_DISPATCH (R311): the context at the focus, if it is the one that chooses first, is given its record. -/
def execRecordDispatch (s : State) : Out :=
  .next <|
    match s.firstChoice with
    | none => s
    | some (l, r, w) =>
      if l ≠ s.foc then s else s.dispatchTo l r w

/-- The record matches some hearth. -/
def State.placed (s : State) (q : Fin 2048) (w : BitVec 512) : Bool := (List.finRange 640).any fun h => s.matchesHearth q w h

/-- What hearths hold is about to change: the ready records that match a hearth now have matched one until now (R309). -/
def State.markSeen (s : State) : State :=
  { s with qm := { s.qm with recs := s.qm.recs.map fun r =>
    if r.qst == 0 && s.placed r.wq (s.recWord r) then { r with seen := s.tick } else r } }

/-- A ready compute record has matched no hearth for a full age limit (R309). -/
def State.unplaced (s : State) (r : RecRef) (w : BitVec 512) : Bool :=
  r.qst == 0 && !r.failing && recKind w == 0 && decide (s.qm.ageLimit ≤ s.tick - r.seen) && !s.placed r.wq w

/-- AGE_LIMIT_REPORT (R309): such a record is reported to the service OS, and its time starts anew. -/
def execAgeLimitReport (wq : Fin 2048) (addr : Word) (s : State) : Out :=
  .next <|
    match s.refOf wq addr with
    | none => s
    | some r =>
      if s.unplaced r (s.recWord r) then (s.setRef { r with seen := s.tick, reported := true }).report (.placement addr) else s

/-- The fields of a record that decide which hearth it matches: `IMAGE`, `AFFK` and `AFFV` (R301, R309). -/
def placeFields (w : BitVec 512) : Nat × Nat × Nat := (recImage w, recAffk w, recAffv w)

/-- A store has changed where a ready record can be placed (R301, R309). -/
def State.placeChanged (s : State) (r : RecRef) : Bool :=
  r.qst == 0 && !r.failing && placeFields (s.recWord r) != placeFields r.last

/-- The record as it stands is noted; if it matched a hearth until it changed, its time starts anew (R309). -/
def State.notePlace (s : State) (r : RecRef) : State :=
  s.setRef { r with last := s.recWord r, reported := false, seen := if s.placed r.wq r.last then s.tick else r.seen }

/-! ## The sender's end of a transfer (R199, R208, R355) -/

/-- The transfer comes from a command of a hearth of this package. -/
def State.isOwn (s : State) (x : Xfer) : Bool := x.schip == s.links.chip && decide (x.shearth < 640)

/-- The receiver has acknowledged: the command has performed, and its byte count is what was written (R208). -/
def Hearth.ackPeer (x : Hearth) (seq n : Nat) : Hearth :=
  match x.cmd? seq with
  | none => x
  | some c => if c.op == some .cpPeer then x.setCmd { c with performed := true, acked := true, bytes := n } else x

/-- A saved hearth's command that is refused is gone from the saved copy, whose context holds the trap (R199, R329). -/
def Hearth.refuseSaved (x : Hearth) (c : Cmd) : Hearth :=
  let k := x.ctx c.ctx
  (x.dropCmd c.seq).setCtx c.ctx { k with pend := k.pend ++ [⟨7, asyncWord c.seq c.slot 3, 0⟩] }

/-- What a saved sender learns. -/
def Hearth.answerSaved (y : Hearth) (x : Xfer) (seq : Nat) (ok : Bool) : Hearth :=
  if ok then y.ackPeer seq x.data.length
  else match y.cmd? seq with
    | none => y
    | some c => y.refuseSaved c

/-- What the sender of a transfer learns: an acknowledgement, or a refusal, which it reports with `DETAIL` 3 (R199, R208). The state of
the hearth that sent it learns it, be it saved or not (R330). The spec calls the trap of a refusal the access fault and gives no code:
here it is 7, that of a store (DESIGN CHOICE, log entry 74). -/
def State.answerPeer (s : State) (x : Xfer) (ok : Bool) : State :=
  match x.sseq with
  | none => s
  | some seq =>
    if !s.isOwn x then s
    else
      let h : Fin 640 := Fin.ofNat 640 x.shearth
      let y := s.hearth h
      if y.epoch ≠ x.sepoch then
        { s with saved := s.saved.map fun p => if p.1 = h && p.2.epoch = x.sepoch then (h, p.2.answerSaved x seq ok) else p }
      else if ok then s.setHearth h (y.ackPeer seq x.data.length)
      else
        match y.cmd? seq with
        | none => s
        | some c =>
          let t := s.failCmd h c 7 3 0
          t.setHearth h { t.hearth h with hand := Cmd.empty }

/-! ## Cold start (R28, R98, R237, R309, R379, R381) -/

/-- Instruction memory as the loader fills it: code from 0, command words from the first command slot (R16, R100). -/
def Image.imem (i : Image) : Mem :=
  (Mem.store [] 0 i.code).store (32 * i.slot0) (i.cmds.flatMap fun w => leBytes 32 w.toNat)

/-- The scratchpad after the `.data` and `.table` contents (R16). -/
def Image.scratch (i : Image) : Mem := i.data.foldl (fun m d => m.store d.1 d.2) []

/-- A context at a cold start; its machine-mode registers are the hearth runtime's (log entry 6). -/
def Ctx.cold (k : Ctx) : Ctx := { Ctx.reset with csr := k.csr, instret := k.instret }

/-- The hearth may be cold-started: its four contexts are free, and neither Hob nor a pre-emption under way has it (R98, R309). -/
def Hearth.coldOk (x : Hearth) : Bool := x.ctxs.toList.all (fun k => k.st == .free) && !x.hob.stopped && !x.halting

/-- Transfers that have not arrived whole at a hearth are refused, for it is being cold-started (R354). -/
def State.refuseArriving (s : State) (h : Fin 640) : State :=
  let x := s.hearth h
  x.arriving.foldl (fun t i => t.answerPeer i.x false) (s.setHearth h { x with arriving := [] })

/-- An image is loaded into a hearth: every state is at its cold-start value, queued arrivals are discarded with a report, and
transfers that have not arrived whole are refused (R28, R98, R237, R354). -/
def State.coldStart (s : State) (h : Fin 640) (i : Image) : State :=
  let s1 := (s.hearth h).arrQ.foldl (fun t a => t.report (.arrivalDiscarded h a)) s.markSeen
  let s2 := s1.refuseArriving h
  let x := s2.hearth h
  s2.setHearth h { Hearth.reset with
    ctxs := Vector.ofFn fun c : Fin 4 => (x.ctx c).cold, imem := i.imem, scratch := i.scratch, img := some i,
    asid := some (s.queues[i.wq]).asid, sec := i.sec, nextSeq := x.nextSeq, port := x.port, routines := x.routines, hob := x.hob,
    trace := x.trace, epoch := x.epoch }

/-- IMAGE_COLD_START (R98, R309): the image is loaded into the hearth at the focus, whose four contexts must be free. -/
def execImageColdStart (image : Nat) (s : State) : Out :=
  let h := s.foc.h
  .next <|
    match s.svc.images.find? fun i => i.id == image with
    | none => s.report (.imageRefused h 6)
    | some i => if s.fh.coldOk then s.coldStart h i else s.report (.imageRefused h 3)

/-- The service OS begins a cold start: from now on the hearth holds no image, and refuses transfers (R354). -/
def State.coldBegin (s : State) (h : Fin 640) : State :=
  if s.leaderLive && (s.hearth h).coldOk then
    let t := s.markSeen.refuseArriving h
    t.setHearth h { t.hearth h with img := none, asid := none }
  else s

/-- The hearths on which a record's image may be cold-started (R309). -/
def State.coldHearths (s : State) (w : BitVec 512) : List (Fin 640) :=
  (List.finRange 640).filter fun h => affinityOk w h && (s.hearth h).coldOk

/-- A record that has been reported still matches no hearth, its image is registered, and a hearth within its affinity is free: the
service OS cold-starts the image there (R309). -/
def State.coldDue (s : State) (r : RecRef) (w : BitVec 512) : Option Image :=
  if s.leaderLive && r.reported && recKind w == 0 && !s.placed r.wq w && !(s.coldHearths w).isEmpty then s.imageFor r.wq (recImage w)
  else none

/-- Which of those hearths it takes is the service OS's own policy: a free value (R309). -/
def State.placeImage (s : State) (w : BitVec 512) (i : Image) : State :=
  let hs := s.coldHearths w
  let v := s.open_
  match hs[v.1.toNat % hs.length]? with
  | none => s
  | some h => v.2.coldStart h i

/-! ## Submission (R255, R308, R348, R350, R351) -/

/-- The package serves doorbells: booted, and the CXL link has trained (R348, R382). -/
def State.servesDoorbells (s : State) : Bool := !s.svc.recovery && s.links.cxlUp

/-- The predecessor indices of a node entry (R307). -/
def nodePreds (e : BitVec 1024) : List Nat := (List.range (bitsN e 512 16)).map fun i => bitsN e (576 + 16 * i) 16

/-- A node entry keeps R307, and its template R302. -/
def State.nodeOk (s : State) (q : Fin 2048) (n : Nat) (e : BitVec 1024) : Bool :=
  let t : BitVec 512 := field e 0 512
  let d := bitsN e 512 16
  decide (d ≤ 28) && bitsN e 528 48 == 0 && bitsN e (576 + 16 * d) (448 - 16 * d) == 0 && (nodePreds e).all (fun p => decide (p < n)) &&
  recParent t == 0 && recJoin t == 0 && bitsN t 320 32 == 0 && bitsN t 256 3 == 0 &&
  bitsN t 259 11 == 0 && !bit t 225 && bitsN t 128 64 == 0 && s.recOk q t

/-- The nodes all of whose predecessors are among `done`. -/
def freeNodes (ps : List (Nat × List Nat)) (done : List Nat) : List Nat :=
  (ps.filter fun p => p.2.all done.contains).map (·.1)

/-- The predecessors form no cycle: removing free nodes round by round removes all. -/
def acyclic : Nat → List (Nat × List Nat) → List Nat → Bool
  | 0, ps, _ => ps.isEmpty
  | k + 1, ps, done =>
    let f := freeNodes ps done
    if f.isEmpty then ps.isEmpty else acyclic k (ps.filter fun p => !f.contains p.1) (f ++ done)

/-- The node entries of a graph, none when they cannot be read. -/
def State.readNodes (s : State) (q : Fin 2048) (g : Word) (n : Nat) : Option (List (BitVec 1024)) :=
  (s.unitRead (s.queueAgent q) g (128 * n)).map fun bs =>
    let a := bs.toArray
    (List.range n).map fun i => BitVec.ofNat 1024 (leNat ((List.range 128).map fun j => (a[128 * i + j]?).getD 0))

/-- A `GRAPH` value that no live graph holds (R308). -/
def freshGraph (gs : List Graph) : Nat → Nat → Nat
  | 0, n => n
  | k + 1, n => if gs.any (fun g => g.id == n) then freshGraph gs k ((n + 1) % 2 ^ 32) else n

/-- The service pair takes a submission: the graph becomes live, or is refused (R308, R351). -/
def State.submit (s : State) (q : Fin 2048) (r : BitVec 512) : State :=
  let caddr := bitsN r 192 64
  let gaddr : Word := field r 128 64
  let n := bitsN r 64 16
  let seq : Word := field r 0 64
  let refuse := s.hostComplete q caddr seq 1 0 0
  if bitsN r 256 256 ≠ 0 || bitsN r 80 48 ≠ 0 || gaddr.toNat % 128 ≠ 0 || n = 0 then refuse
  else
    match s.readNodes q gaddr n with
    | none => refuse
    | some es =>
      if !es.all (s.nodeOk q n) || !acyclic n (es.zipIdx.map fun p => (p.2, nodePreds p.1)) [] then refuse
      else
        let id := freshGraph s.qm.graphs (s.qm.graphs.length + 1) s.qm.nextGraph
        let ns : List Node := es.map fun e =>
          { tmpl := field e 0 512, preds := nodePreds e, recAt := none, fin := none, finAt := 0 }
        let g : Graph := { id := id, wq := q, seq := seq, caddr := caddr, nodes := ns }
        { s with qm := { s.qm with graphs := s.qm.graphs ++ [g], nextGraph := (id + 1) % 2 ^ 32 } }

def State.setQueue (s : State) (q : Fin 2048) (w : WorkQueue) : State := { s with queues := s.queues.set q w }

/-- The queue manager reads slots up to a count, and stops at the first that is not submitted (R351). -/
def State.readSlots (s : State) (q : Fin 2048) : Nat → State
  | 0 => s
  | k + 1 =>
    let w := s.queues[q]
    let r := ofBytes512 (s.hostBytes (w.ring + 64 * (w.head % 2 ^ w.n)) 64)
    if bitsN r 0 64 ≠ w.head then s
    else
      let s1 := s.setQueue q { w with head := w.head + 1 }
      let s2 := if bitsN r 192 64 % 64 ≠ 0 then s1.setQueue q { w with head := w.head + 1, noCompletion := w.noCompletion + 1 }
        else s1.submit q r
      State.readSlots s2 q k

/-- The slots that accepted doorbells name are read, while a service pair interprets the queue (R350, R367). -/
def State.readQueue (s : State) (q : Fin 2048) : State :=
  let w := s.queues[q]
  if s.queueServed q && w.live && !w.torn then s.readSlots q (w.dbell - w.head) else s

/-- DBELL (R350): an accepted doorbell makes the queue manager read the slots, after a takeover where leadership has lapsed (R367);
any other is ignored and counted. -/
def execDbell (q : Fin 2048) (v : Word) (s : State) : Out :=
  let w := s.queues[q]
  let n := v.toNat
  .next <|
    if s.servesDoorbells && w.live && !w.torn && decide (w.head < n) && decide (n ≤ w.head + 2 ^ w.n) && decide (w.dbell ≤ n) then
      (s.setQueue q { w with dbell := n }).readQueue q
    else s.setQueue q { w with ignored := w.ignored + 1 }

/-! ## Creating and ending records (R304, R308) -/

/-- The cycle in which a node became creatable, none while a predecessor has not completed. -/
def Graph.readyAt (g : Graph) (n : Node) : Option Nat :=
  if n.preds.all fun p => ((g.nodes[p]?).bind (·.fin)).isSome then
    some ((n.preds.map fun p => ((g.nodes[p]?).map (·.finAt)).getD 0).foldl max 0)
  else none

/-- GRAPH_NODE_CREATION (R308, step 3), by the service pair of the queue: the record of a creatable node is written at an address of the service OS's choice,
in node-index order among nodes that became creatable together; a node behind a faulted or cancelled one is cancelled. -/
def execGraphNodeCreation (g node : Nat) (addr : Word) (s : State) : Out :=
  .next <|
    match s.qm.graphs.find? fun x => x.id == g with
    | none => s
    | some gr =>
      match if s.queueServed gr.wq && !s.queueMoving gr.wq then gr.nodes[node]? else none with
      | none => s
      | some nd =>
        match gr.readyAt nd with
        | none => s
        | some t =>
          let first := (gr.nodes.take node).all fun m => m.recAt.isSome || m.fin.isSome || gr.readyAt m != some t
          if !first || nd.recAt.isSome || nd.fin.isSome then s
          else if nd.preds.any (fun p => ((gr.nodes[p]?).bind (·.fin)) == some 5 || ((gr.nodes[p]?).bind (·.fin)) == some 6) then
            s.graphCheck { gr with nodes := gr.nodes.set node { nd with fin := some 5, finAt := s.cycle } }
          else if addr.toNat % 64 ≠ 0 || (s.refOf gr.wq addr).isSome ||
              (s.xlatN (s.queueAgent gr.wq) .both addr 64).toOption.isNone then s
          else
            let s1 := s.setGraph { gr with nodes := gr.nodes.set node { nd with recAt := some addr } }
            s1.putRec (s.newRef addr gr.wq g nd.tmpl) nd.tmpl

/-! ## The aperture access that waited (R224) -/

/-- APERTURE_ACCESS (R224): the waiting instruction at the focus tries its access again, in the place it holds. -/
def execApertureAccess (s : State) : Out :=
  match s.frozen s.foc.h, s.fc.st, s.fc.wait with
  | false, .waiting, .aperture _ _ _ _ =>
    match decodeScalar (s.fetchWord s.foc) with
    | .load wd rd rs1 imm => execLoad wd rd rs1 imm s
    | .store wd rs2 rs1 imm => execStore wd rs2 rs1 imm s
    | .amo a => execAmo a s
    | .kAmocAdd a => execKAmocAdd a s
    | .kAmocSwap a => execKAmocSwap a s
    | .kAmocCas a => execKAmocCas a s
    | .kAmocOr a => execKAmocOr a s
    | .kAmocAnd a => execKAmocAnd a s
    | .kAmocMin a => execKAmocMin a s
    | .kAmocMax a => execKAmocMax a s
    | .kGrpMake xa xn => execKGrpMake xa xn s
    | .kGrpJoin rd xa => execKGrpJoin rd xa s
    | .kGrpLeave xa => execKGrpLeave xa s
    | .kGrpBar xa => execKGrpBar xa s
    | _ => .next s
  | _, _, _ => .next s

end Sys2Proof.Machine
end

