-- ==== Sys2Proof/Machine/Faults.lean ====
section
/-! DEFINITION. What the service OS does about a fault that waits for it, and the replay of the side log (R205, R324 to
R327, R379). -/

namespace Sys2Proof.Machine

/-! ## Changing tables, roots and regions -/

/-- A table entry in an owner's memory is stored: one point in the memory order (R324). -/
def State.putEntry (s : State) (owner : Fin 5) (paddr : Nat) (v : Word) : State :=
  s.memStore ((List.range 8).map fun i => physKey owner (paddr + i)) (leBytes 8 v.toNat) none

/-- The root of an address space, or with none of the privileged half, at an owner (R320, R323). -/
def State.setRoot (s : State) (owner : Fin 5) (asid : Option Nat) (paddr : Option Nat) : State :=
  let rest := s.roots.filter fun r => !(r.owner == owner && r.asid == asid)
  { s with roots := match paddr with
    | none => rest
    | some p => rest ++ [⟨owner, asid, p⟩] }

/-- The bits of a region that hold something (R379). -/
def regionMask : BitVec 128 := 0x00000000FFFFFFFF0001FFFFFFFF0001

def State.setRegion (s : State) (owner : Fin 5) (i : Fin 64) (v : BitVec 128) : State :=
  { s with regions := s.regions.set owner ((s.regions[owner]).set i (v &&& regionMask)) }

/-- What the service OS changes for a fault. A table or a root may lie beyond the 256 GiB of a die (DESIGN CHOICE, log entry 73). -/
def State.applyFix (s : State) (f : FaultFix) : State :=
  match f with
  | .entry o p v => s.putEntry o p v
  | .root o a p => s.setRoot o a (some p)
  | .region o i v => s.setRegion o i v

/-! ## Serviced and refused (R325, R326) -/

/-- Holds of the copy engine on a page end: the reads are tried again (R326). -/
def Hearth.unhold (x : Hearth) (page : Nat) : Hearth :=
  { x with cmds := x.cmds.map fun c => if (c.hold.map fun a => a.toNat / 65536) = some page then { c with hold := none } else c }

/-- FAULT_SERVICED (R325): the service OS changes leaves, roots or regions, and the held unit of the hearth at the focus
tries its access again. Without a leader that runs, the fault stays held (R367). -/
def execFaultServiced (f : FaultRef) (fixes : List FaultFix) (s : State) : Out :=
  .next <|
    if !s.leaderLive then s
    else
      let s1 := fixes.foldl State.applyFix s
      match f with
      | .ctx => if s1.fc.st = .held then s1.setFc { s1.fc with st := .running, fault := none } else s1
      | .copy page => s1.setFh (s1.fh.unhold page)

/-- The side-log entry meets a page. -/
def SideEntry.onPage (e : SideEntry) (page : Nat) : Bool :=
  decide (e.addr.toNat / 65536 ≤ page) && decide (page ≤ (e.addr.toNat + (e.data.length - 1)) / 65536)

/-- What a refusal on a page ends a command with: the cause of the fault that was held or logged, and its address; none where the
command has neither a held read nor a logged write there (R326). -/
def Hearth.refusalOf (x : Hearth) (page : Nat) (c : Cmd) : Option (Nat × Word) :=
  let logged := (x.sideLog.find? fun e => e.seq == c.seq && e.onPage page).map fun e => (e.cause, e.addr)
  match c.hold with
  | some a => if a.toNat / 65536 = page then some (c.holdCause, a) else logged
  | none => logged

/-- A command that a refusal has ended: it holds no entry and moves nothing more (R326). -/
def Cmd.end_ (c : Cmd) : Cmd :=
  { c with failed := true, ended := true, performed := true, hold := none, logWait := false, entries := [], left := [], late := [] }

/-- The hearth with a command ended by a refusal on a page: what it has logged for the page is discarded; while it has logged writes on
other pages it stays, as ended. -/
def Hearth.refuse (x : Hearth) (page : Nat) (c : Cmd) : Hearth :=
  ({ x.setCmd c.end_ with sideLog := x.sideLog.filter fun e => !(e.seq == c.seq && e.onPage page) }).dropFailed

/-- A refusal ends a command: its entries are freed, what it has logged for the page is discarded, and its context takes the trap of
the fault (R326). One that an earlier refusal has ended loses what it has logged for the page. -/
def State.refuseCmd (s : State) (h : Fin 640) (page : Nat) (c : Cmd) : State :=
  let x := s.hearth h
  match x.refusalOf page c with
  | none => s
  | some (cause, a) =>
    let t := s.setHearth h (x.refuse page c)
    if c.ended then t else t.asyncTrap ⟨h, c.ctx⟩ c.run ⟨cause, asyncWord c.seq c.slot 0, a⟩

/-- Every command with a held read or a logged write on a page ends (R326). -/
def State.refuseCopy (s : State) (h : Fin 640) (page : Nat) : State :=
  (s.hearth h).cmds.foldl (fun t c => t.refuseCmd h page c) s

/-- FAULT_REFUSED (R325, R326): a held context takes its trap; a page's commands end. A trap that was taken in M mode and
that the service OS refuses ends the record, behind the drain of its commands (log entry 5). -/
def execFaultRefused (f : FaultRef) (s : State) : Out :=
  .next <|
    if !s.leaderLive then s
    else
      match f with
      | .copy page => s.refuseCopy s.foc.h page
      | .ctx =>
        match s.fc.st, s.fc.fault with
        | .held, some hf =>
          if hf.trap then (s.setFc { s.fc with st := .running, fault := none }).drainThen .fault else s.trapHere hf.cause hf.addr
        | _, _ => s

/-! ## The side log (R205) -/

/-- Replays a log: an entry whose page still faults, or that overlaps an earlier entry that stays, stays. -/
def State.replayLog (s : State) (h : Fin 640) : List SideEntry → List SideEntry → State
  | [], kept => s.setHearth h { s.hearth h with sideLog := kept }.dropFailed
  | e :: es, kept =>
    if (sideOverlap kept e.addr.toNat e.data).isSome then s.replayLog h es (kept ++ [e])
    else
      match s.xlatHeld e.ag (if e.add.isSome then .both else .store) e.addr e.data.length with
      | .error _ => s.replayLog h es (kept ++ [e])
      | .ok ks => (s.performWrite ks e.data e.add).replayLog h es kept

/-- SIDE_LOG_REPLAY (R205): the entries of the hearth's log whose pages are mapped are performed in log order. -/
def execSideLogReplay (s : State) : Out :=
  .next (if s.fh.halted then s else s.replayLog s.foc.h s.fh.sideLog [])

end Sys2Proof.Machine
end

