-- ==== Sys2Proof/Machine/Preempt.lean ====
section
/-! DEFINITION. Resuming a stopped hearth (R282, R283, R285), and pre-emption and restore (R102, R224, R226, R237, R328 to
R331). -/

namespace Sys2Proof.Machine

/-! ## Going on (R282, R283, R285) -/

/-- One held update is applied; its completion record carries the tick of the resume (R285). -/
def State.applyHeld (s : State) (h : Fin 640) (e : Held) : State :=
  match e with
  | .add src fl v tr =>
    let s1 := s.flagAddNow h src fl v
    match tr with
    | none => s1
    | some r => s1.traceOut h (putN r 0 64 s.tick)
  | .set fl v => s.setFlag h fl v
  | .handler _ => s

/-- One held handler start; its descriptor carries the tick at which its flag was applied, that of the resume (R236, R283). -/
def State.applyHandler (s : State) (h : Fin 640) (e : Held) : State :=
  match e with
  | .handler a => s.startHandler h { a with tick := s.tick }
  | _ => s

/-- The updates of the queue manager that found the held list full: they follow the held ones (R282). -/
def State.applyLate (s : State) (h : Fin 640) : State :=
  let mine := s.qm.flagLate.filter fun p => p.1 == h
  let s1 := { s with qm := { s.qm with flagLate := s.qm.flagLate.filter fun p => p.1 != h } }
  mine.foldl (fun t p => t.flagAdd h .qm p.2.1 p.2.2 none) s1

/-- The hearth resumes: its record, then every held update in order, then the handler starts in order, and then arrivals that
waited for a context that has become free (R235, R283, R284). -/
def State.resumeHearth (s : State) (l : Loc) (step : Option (Fin 4)) : State :=
  let x := s.hearth l.h
  let held := x.hob.held
  let s1 := s.setHearth l.h { x with hob := { x.hob with stopped := false, held := [], step := step } }
  let s2 := s1.traceOut l.h (traceRecord s.tick 5 l.h l.c 0 0 0 0 (x.ctx l.c).rgn 0)
  let s3 := held.foldl (fun t e => t.applyHeld l.h e) s2
  ((held.foldl (fun t e => t.applyHandler l.h e) s3).applyLate l.h).takeQueued l.h 4

/-! ## Pre-emption (R328, R329) -/

/-- What is left of a hearth when its state has been saved: no context runs, and nothing is accepted or dispatched. What
belongs to the engines and to the package rather than to the running image stays (R329). -/
def Hearth.afterSave (x : Hearth) (epoch : Nat) : Hearth :=
  { Hearth.reset with
    ctxs := Vector.ofFn fun c : Fin 4 => (x.ctx c).cold, nextSeq := 1, routines := x.routines, trace := x.trace,
    hob := { x.hob with stopped := false, held := [], passed := [], step := none }, halted := true, epoch := epoch }

/-- The saved state of a hearth: all but instruction memory, which the image gives back (R329). -/
def Hearth.savedCopy (x : Hearth) : Hearth := { x with imem := [], halting := false }

/-- The hearth is saved. -/
def State.isSaved (s : State) (h : Fin 640) : Bool := s.saved.any fun p => p.1 == h

/-- A number that no state of the hearth has had among those that exist. -/
def State.freshEpoch (s : State) (h : Fin 640) : Nat :=
  ((s.saved.filter fun p => p.1 == h).map fun p => p.2.epoch).foldl max (s.hearth h).epoch + 1

/-- The pin of a save area of a hearth, to the slice of its cluster (R329). -/
def savePin (area : Nat) (h : Fin 640) : Pin := { leaf := none, key := area, bytes := Config.saveBytes, home := 2, holder := h.val / 20 }

/-- The state of the hearth goes to its save area, which is pinned to the slice of its cluster (R329). -/
def State.saveHearth (s : State) (h : Fin 640) (area : Nat) : State :=
  let x := s.hearth h
  let s1 := s.markSeen
  ({ s1 with saved := s1.saved ++ [(h, x.savedCopy)], pins := s1.pins ++ [savePin area h] }).setHearth h
    (x.afterSave (s.freshEpoch h))

/-- Every engine of a hearth that is being pre-empted stands at a stop: the state is saved (R328). -/
def State.haltDone (s : State) (h : Fin 640) : State :=
  let x := s.hearth h
  if x.halting && x.purge.isNone && x.cmds.all x.atStop then s.saveHearth h x.area else s

/-- PREEMPTION (R328): the service OS pre-empts the hearth at the focus. Its contexts stop, and it accepts and starts nothing; its
engines go on to the places where they may stop; then its state is saved. A hearth that stops for a teardown is left to it (R373). -/
def execPreemption (area : Nat) (s : State) : Out :=
  let h := s.foc.h
  let x := s.fh
  .next (if x.halted || x.purge.isSome || !s.leaderLive then s else (s.setHearth h { x with halting := true, area := area }).haltDone h)

/-! ## Restore (R226, R330) -/

/-- Sequence numbers that live commands and aperture accesses hold. -/
def Hearth.liveSeqs (x : Hearth) : List Nat :=
  x.cmds.map (·.seq) ++ (x.ctxs.toList.filterMap Ctx.apEntry).map (·.1)

/-- The place of a sequence number among the live ones, from 1 on: numbers restart with their order unchanged (R226). -/
def renum (l : List Nat) (q : Nat) : Nat := (l.filter fun x => decide (x < q)).length + 1

/-- A restored context is in the state it was in; one in the check loop of `k.issue` restarts that instruction, still waiting (R29,
R102, R328), and an aperture access keeps its place (R224). -/
def Ctx.restore (k : Ctx) (f : Nat → Nat) : Ctx :=
  match k.wait with
  | .issue _ _ _ _ => { k with wait := .reissue }
  | .aperture q w lo hi => { k with wait := .aperture (f q) w lo hi }
  | _ => k

/-- The hearth with its saved state, its image reloaded, and its sequence numbers restarted. Transfers that came meanwhile wait at its
port, and the session that holds the hearth now holds it still. -/
def Hearth.restore (x live : Hearth) : Hearth :=
  let l := x.liveSeqs
  let f := renum l
  { x with
    imem := (x.img.map Image.imem).getD [], halted := false, routines := live.routines, trace := live.trace, area := 0,
    hob := { x.hob with sess := live.hob.sess, brks := live.hob.brks },
    port := x.port ++ live.port, arriving := x.arriving ++ live.arriving, nextSeq := l.length + 1,
    cmds := x.cmds.map fun c => { c with seq := f c.seq },
    sideLog := x.sideLog.map fun e => { e with seq := f e.seq },
    ctxs := Vector.ofFn fun c : Fin 4 => (x.ctx c).restore f }

/-- Transfers name their sender's command by its new number, wherever they are. -/
def renumXfer (x : Xfer) (chip h epoch : Nat) (f : Nat → Nat) : Xfer :=
  if x.schip = chip && x.shearth = h && x.sepoch = epoch then { x with sseq := x.sseq.map f } else x

def Hearth.renumXfers (y : Hearth) (g : Xfer → Xfer) : Hearth :=
  { y with port := y.port.map g, arriving := y.arriving.map fun i => { i with x := g i.x } }

/-- A reader of pages, with its command's new number. -/
def renumReader (r : Reader) (h : Fin 640) (epoch : Nat) (f : Nat → Nat) : Reader :=
  match r with
  | .cmd k e q => if k = h && e = epoch then .cmd k e (f q) else r
  | _ => r

/-- What names a restored command from outside its hearth names it by its new number. -/
def State.renumWire (s : State) (h : Fin 640) (epoch : Nat) (f : Nat → Nat) : State :=
  let g (x : Xfer) : Xfer := renumXfer x s.links.chip h.val epoch f
  { s with cirrus := { s.cirrus with tries := s.cirrus.tries.map fun p => (renumReader p.1 h epoch f, p.2) },
           links := { s.links with wire := s.links.wire.map g },
           hearths := s.hearths.map fun y => y.renumXfers g,
           saved := s.saved.map fun p => (p.1, p.2.renumXfers g) }

/-- The saved states of a hearth with their places in the list. -/
def State.savedOf (s : State) (h : Fin 640) : List (Nat × Hearth) :=
  (s.saved.zipIdx.filter fun p => p.1.1 == h).map fun p => (p.2, p.1.2)

/-- A saved state leaves the list, and its save area is pinned no more. -/
def State.dropSaved (s : State) (i : Nat) (x : Hearth) : State :=
  { s with saved := s.saved.eraseIdx i, pins := s.pins.filter fun p => !(p.key == x.area && p.bytes == Config.saveBytes && p.home == 2) }

/-- PREEMPTION_RESTORE (R330): the service OS puts a saved state back to its hearth, once no context runs there. Arrivals that
are queued for another image are discarded, as at a cold start (R237). A hearth that Hob had stopped, and that no session holds any
more, resumes. -/
def execPreemptionRestore (n : Nat) (s : State) : Out :=
  let h := s.foc.h
  let live := s.fh
  .next <|
    match (s.savedOf h)[n]? with
    | none => s
    | some (i, x) =>
      if !s.leaderLive || live.ctxs.toList.any (fun k => k.st != .free) || !live.cmds.isEmpty then s
      else
        let s1 := live.arrQ.foldl (fun t a => t.report (.arrivalDiscarded h a)) (s.markSeen.dropSaved i x)
        let y := x.restore live
        let s2 := ((s1.setHearth h y).renumWire h x.epoch (renum x.liveSeqs)).takeQueued h 4
        if y.hob.stopped && y.hob.sess.isNone then s2.resumeHearth ⟨h, 0⟩ none else s2

end Sys2Proof.Machine
end

