-- ==== Sys2Proof/Machine/Print.lean ====
section
/-! DEFINITION. What Hob prints of a word: a command word in the verbose notation, with its placeholders and its reserved fields, and
a scalar instruction in its base form (R19 to R27, R103). What the spec leaves to the printer is log entry 59. -/

namespace Sys2Proof.Machine

/-! ## Numbers -/

def hexDigit (n : Nat) : String := ((["0", "1", "2", "3", "4", "5", "6", "7", "8", "9", "A", "B", "C", "D", "E", "F"])[n % 16]?).getD "0"

/-- The last `n` hexadecimal digits of a number. -/
def hexDigits : Nat → Nat → String
  | 0, _ => ""
  | n + 1, v => hexDigits n (v / 16) ++ hexDigit v

/-- A number with `n` hexadecimal digits. -/
def hexN (n v : Nat) : String := "0x" ++ hexDigits n v

/-- Eight hexadecimal digits in two groups (R24). -/
def hexWord (v : Nat) : String := "0x" ++ hexDigits 4 (v / 65536) ++ "_" ++ hexDigits 4 v

def decInt (i : Int) : String := if i < 0 then "-" ++ toString i.natAbs else toString i.natAbs

/-! ## Command words (R20 to R27) -/

/-- The names of R11, by code. -/
def typeName (c : Nat) : Option String :=
  ["uint8", "int8", "uint16", "int16", "uint32", "int32", "fp16", "bf16", "fp32", "e4m3", "e5m2", "pb3", "pb5", "pb8"][c]?

/-- The rounding suffixes, by code (R50). -/
def rmName (c : Nat) : Option String := ["rne", "rtz", "rdn", "rup", "rmm"][c]?

/-- The mnemonics of the opcode map (R95, R96). -/
def copName : COp → String
  | .vAdd => "v.add" | .vSub => "v.sub" | .vMul => "v.mul" | .vMulh => "v.mulh" | .vFma => "v.fma"
  | .vFms => "v.fms" | .vFnma => "v.fnma" | .vMin => "v.min" | .vMax => "v.max" | .vAbs => "v.abs"
  | .vNeg => "v.neg" | .vAdiff => "v.adiff" | .vClamp => "v.clamp" | .vSgnj => "v.sgnj" | .vRint => "v.rint"
  | .vRcp => "v.rcp" | .vRsqrt => "v.rsqrt" | .vExp2 => "v.exp2" | .vLog2 => "v.log2"
  | .vCmpeq => "v.cmpeq" | .vCmpne => "v.cmpne" | .vCmplt => "v.cmplt" | .vCmple => "v.cmple"
  | .vCmpgt => "v.cmpgt" | .vCmpge => "v.cmpge" | .vCmpun => "v.cmpun" | .vSel => "v.sel"
  | .vAnd => "v.and" | .vOr => "v.or" | .vXor => "v.xor" | .vNot => "v.not" | .vAndn => "v.andn"
  | .vSll => "v.sll" | .vSrl => "v.srl" | .vSra => "v.sra" | .vRol => "v.rol" | .vRor => "v.ror"
  | .vFsl => "v.fsl" | .vFsr => "v.fsr"
  | .vClz => "v.clz" | .vCtz => "v.ctz" | .vFfs => "v.ffs" | .vPop => "v.pop" | .vBrev => "v.brev"
  | .vCvt => "v.cvt" | .vCvtef => "v.cvtef" | .vPbpack => "v.pbpack" | .vPbunpk => "v.pbunpk"
  | .vRotr => "v.rotr" | .vBcr => "v.bcr" | .vSumr => "v.sumr" | .vMaxr => "v.maxr" | .vMinr => "v.minr"
  | .vAndr => "v.andr" | .vOrr => "v.orr" | .vScsumr => "v.scsumr" | .vScmaxr => "v.scmaxr"
  | .vScminr => "v.scminr"
  | .vRotc => "v.rotc" | .vBcc => "v.bcc" | .vSumc => "v.sumc" | .vMaxc => "v.maxc" | .vMinc => "v.minc"
  | .vAndc => "v.andc" | .vOrc => "v.orc" | .vScsumc => "v.scsumc" | .vScmaxc => "v.scmaxc"
  | .vScminc => "v.scminc"
  | .vPerm => "v.perm" | .vIota => "v.iota" | .vMovi => "v.movi" | .vMov => "v.mov" | .vLut8 => "v.lut8"
  | .vLut16 => "v.lut16" | .vZip => "v.zip" | .vUnzip => "v.unzip"
  | .vLd => "v.ld" | .vSt => "v.st" | .vStm => "v.stm" | .vGath => "v.gath" | .vScat => "v.scat"
  | .vPand => "v.pand" | .vPor => "v.por" | .vPxor => "v.pxor" | .vPandn => "v.pandn" | .vPnot => "v.pnot"
  | .vPset => "v.pset" | .vPmov => "v.pmov" | .vPcnt => "v.pcnt"
  | .mxCfg => "mx.cfg" | .mxLdb => "mx.ldb" | .mxGo => "mx.go" | .mxDrain => "mx.drain" | .mxZero => "mx.zero"
  | .mxScale => "mx.scale" | .mxRdst => "mx.rdst"
  | .soLd => "so.ld" | .soSort => "so.sort" | .soStep => "so.step" | .soTopk => "so.topk"
  | .soMerge => "so.merge" | .soSt => "so.st" | .soSave => "so.save" | .soRest => "so.rest"
  | .soClr => "so.clr"
  | .cpLin => "cp.lin" | .cp2d => "cp.2d" | .cpList => "cp.list" | .cpXf => "cp.xf" | .cpPeer => "cp.peer"
  | .cpFill => "cp.fill"
  | .sxSearch => "sx.search" | .sxScan => "sx.scan" | .sxAppend => "sx.append" | .sxFetch => "sx.fetch"
  | .sxDel => "sx.del" | .sxStat => "sx.stat"
  | .flNop => "fl.nop" | .flAdd => "fl.add" | .flSet => "fl.set" | .flWait => "fl.wait"

/-- What stands at a place of a word (R103): a placeholder where the word's descriptor names the place. -/
def placeText (d : Option Desc) (place : Nat) (text : String) : String :=
  match d with
  | none => text
  | some e => if e.pl0 = place then "$0" else if e.pl1 = place then "$1" else text

/-- A reserved field, by name and value (R27). -/
def resvText (name : String) (digits v : Nat) : String := " resv=" ++ name ++ ":" ++ hexN digits v

/-- Operand 2 of a conversion is the source type, of code 0 to 10 (R140). -/
def srcTypeOpd (o : COp) (i : Nat) : Bool := (o == .vCvt || o == .vCvtef) && i == 2
def srcTypeName (p : Nat) : Option String := if p ≤ 10 then typeName p else none

/-- An operand (R21); the source type of a conversion by its name (R140). -/
def opdText (o : COp) (f : CmdF) (d : Option Desc) (i : Nat) : String :=
  let p := f.pay i
  if srcTypeOpd o i && f.kind i == 8 then
    match srcTypeName p with
    | some n => n
    | none => decInt (f.imm18 i)
  else match f.kind i with
  | 1 => "v" ++ toString p
  | 2 => "p" ++ toString p
  | 3 => "w" ++ toString (p % 32) ++ "+" ++ placeText d (4 + i) (toString (p / 32 * 256))
  | 4 => "w" ++ toString (p % 32) ++ "+x" ++ toString (p / 32 % 32)
  | 5 => "acc" ++ toString p
  | 6 => "b" ++ toString p
  | 7 => "fl" ++ toString p
  | 8 => placeText d (8 + i) (decInt (f.imm18 i))
  | 9 => if p = 0 then "sa" else if p = 1 then "rowbuf" else "smax" ++ toString (p - 8)
  | _ => "_"

/-- An operand of a reserved kind, with payload bits that its kind does not use, or that names no type. -/
def opdResv (o : COp) (f : CmdF) (i : Nat) : String :=
  if payloadOk (f.kind i) (f.pay i) && !(srcTypeOpd o i && f.kind i == 8 && (srcTypeName (f.pay i)).isNone) then "" else resvText ("OPD" ++ toString i) 6 (f.opd i).toNat

/-- A guard term (R22). -/
def termText (g : BitVec 5) : String :=
  if !bit g 4 then "off" else (if bit g 3 then "!p" else "p") ++ toString (bitsN g 0 3)

def termResv (name : String) (g : BitVec 5) : String := if !bit g 4 && g != 0 then resvText name 2 g.toNat else ""

def guardText (f : CmdF) : String :=
  "guard(" ++ termText f.ga ++ "," ++ termText f.gb ++ "," ++ ((["and", "or", "xor", "andn"])[f.gc.toNat]?).getD "and" ++ ")"

/-- A flag and a value with its unit (R23); a placeholder stands for the value and has unit ×1. -/
def condText (w : BitVec 32) (d : Option Desc) (place : Nat) : String :=
  "(fl" ++ toString (condFlag w).val ++ "," ++
    placeText d place (toString (bitsN w 8 20) ++ "*" ++ toString (64 ^ bitsN w 28 2)) ++ ")"

def waitText (w : BitVec 32) (d : Option Desc) : String :=
  match condMode w with
  | 1 => "wait=ge" ++ condText w d 2
  | 2 => "wait=take" ++ condText w d 2
  | _ => "wait=none"

def waitResv (w : BitVec 32) : String :=
  if condMode w = 3 || condMode w = 0 && w != 0 then resvText "WAIT" 8 w.toNat else ""

def sigText (w : BitVec 32) (d : Option Desc) : String :=
  match condMode w with
  | 1 => "sig=add" ++ condText w d 3
  | 2 => "sig=bytes(fl" ++ toString (condFlag w).val ++ ")"
  | 3 => "sig=accept" ++ condText w d 3
  | _ => "sig=none"

def sigResv (w : BitVec 32) : String :=
  if condMode w = 0 && w != 0 || condMode w = 2 && bitsN w 8 22 != 0 then resvText "SIG" 8 w.toNat else ""

/-- The type suffix, of a command that uses `TYPE` (R20). -/
def typeText (sp : OpSpec) (f : CmdF) : String :=
  if sp.types.isSome then ((typeName f.ty.toNat).map fun n => "." ++ n).getD "" else ""

def typeResv (sp : OpSpec) (f : CmdF) : String :=
  if sp.types.isSome && decide (f.ty.toNat < 14) || f.ty == 0 then "" else resvText "TYPE" 1 f.ty.toNat

/-- The rounding and saturation suffixes, of a command that uses `MODE`. -/
def modeText (sp : OpSpec) (f : CmdF) : String :=
  if sp.cls == .n then ""
  else ((rmName (bitsN f.mode 0 3)).map fun n => "." ++ n).getD "" ++ (if f.sat then ".sat" else ".wrap")

def modeResv (sp : OpSpec) (f : CmdF) : String :=
  if sp.cls == .n then (if f.mode == 0 then "" else resvText "MODE" 1 f.mode.toNat)
  else if (rmName (bitsN f.mode 0 3)).isSome then "" else resvText "MODE" 1 f.mode.toNat

/-- The reserved bits of `HINT` and `SCHED` (R93, R94). -/
def hintResv (f : CmdF) : String := if bitsN f.hint 0 2 = 0 then "" else resvText "HINT" 2 f.hint.toNat
def schedResv (f : CmdF) : String := if bitsN f.sched 0 8 = 0 then "" else resvText "SCHED" 3 f.sched.toNat

/-- A command word in the verbose notation, with the placeholders of its descriptor (R26, R27, R103). -/
def verbose (w : CmdWord) (d : Option Desc) : String :=
  match cmdOp w with
  | none => "resv=word:" ++ hexN 64 w.toNat
  | some o =>
    let f := CmdF.ofWord w
    let sp := opSpec o f
    copName o ++ typeText sp f ++ modeText sp f ++ " " ++ String.intercalate ", " ((List.range 5).map (opdText o f d)) ++ " " ++
      guardText f ++ " " ++ waitText f.wait d ++ " " ++ sigText f.sig d ++ " hint=" ++ hexN 2 f.hint.toNat ++ " sched=" ++
      hexN 3 f.sched.toNat ++ " imm=" ++ placeText d 1 (hexWord f.imm.toNat) ++ typeResv sp f ++ modeResv sp f ++
      String.join ((List.range 5).map (opdResv o f)) ++ termResv "GA" f.ga ++ termResv "GB" f.gb ++ waitResv f.wait ++ sigResv f.sig ++
      hintResv f ++ schedResv f

/-! ## Scalar instructions (R17, R19, R27) -/

def xText (r : XReg) : String := "x" ++ toString r.val

def ropName : ROp → String
  | .add => "add" | .sub => "sub" | .sll => "sll" | .slt => "slt" | .sltu => "sltu" | .xor => "xor" | .srl => "srl" | .sra => "sra"
  | .or => "or" | .and => "and" | .addw => "addw" | .subw => "subw" | .sllw => "sllw" | .srlw => "srlw" | .sraw => "sraw"
  | .mul => "mul" | .mulh => "mulh" | .mulhsu => "mulhsu" | .mulhu => "mulhu" | .div => "div" | .divu => "divu" | .rem => "rem"
  | .remu => "remu" | .mulw => "mulw" | .divw => "divw" | .divuw => "divuw" | .remw => "remw" | .remuw => "remuw"
  | .adduw => "add.uw" | .sh1add => "sh1add" | .sh2add => "sh2add" | .sh3add => "sh3add" | .sh1adduw => "sh1add.uw"
  | .sh2adduw => "sh2add.uw" | .sh3adduw => "sh3add.uw" | .andn => "andn" | .orn => "orn" | .xnor => "xnor" | .max => "max"
  | .maxu => "maxu" | .min => "min" | .minu => "minu" | .rol => "rol" | .ror => "ror" | .rolw => "rolw" | .rorw => "rorw"

def iopName : IOp → String
  | .addi => "addi" | .slti => "slti" | .sltiu => "sltiu" | .xori => "xori" | .ori => "ori" | .andi => "andi" | .addiw => "addiw"

def shOpName : ShOp → String
  | .slli => "slli" | .srli => "srli" | .srai => "srai" | .slliw => "slliw" | .srliw => "srliw" | .sraiw => "sraiw"
  | .sllliuw => "slli.uw" | .rori => "rori" | .roriw => "roriw"

def uopName : UOp → String
  | .clz => "clz" | .ctz => "ctz" | .cpop => "cpop" | .clzw => "clzw" | .ctzw => "ctzw" | .cpopw => "cpopw" | .sextb => "sext.b"
  | .sexth => "sext.h" | .zexth => "zext.h" | .orcb => "orc.b" | .rev8 => "rev8"

def brName : BrCond → String
  | .eq => "beq" | .ne => "bne" | .lt => "blt" | .ge => "bge" | .ltu => "bltu" | .geu => "bgeu"

def loadName : LoadW → String
  | .b => "lb" | .h => "lh" | .w => "lw" | .d => "ld" | .bu => "lbu" | .hu => "lhu" | .wu => "lwu"

def storeName : StoreW → String
  | .b => "sb" | .h => "sh" | .w => "sw" | .d => "sd"

def amoName : AmoOp → String
  | .lr => "lr" | .sc => "sc" | .swap => "amoswap" | .add => "amoadd" | .xor => "amoxor" | .and => "amoand" | .or => "amoor"
  | .min => "amomin" | .max => "amomax" | .minu => "amominu" | .maxu => "amomaxu"

def csrOpName : CsrOp → String
  | .rw => "csrrw" | .rs => "csrrs" | .rc => "csrrc"

def lineOf (m : String) (ops : List String) : String :=
  match ops with
  | [] => m
  | l => m ++ " " ++ String.intercalate ", " l

def intText : IntOp → String
  | .rr o rd a b => lineOf (ropName o) [xText rd, xText a, xText b]
  | .ri o rd a i => lineOf (iopName o) [xText rd, xText a, decInt i.toInt]
  | .sh o rd a n => lineOf (shOpName o) [xText rd, xText a, toString n.toNat]
  | .un o rd a => lineOf (uopName o) [xText rd, xText a]
  | .lui rd i => lineOf "lui" [xText rd, hexN 5 i.toNat]
  | .auipc rd i => lineOf "auipc" [xText rd, hexN 5 i.toNat]

/-- A branch or a jump. Its target is printed as a number, the distance in bytes, for the printer has no labels: the spec does not say
how a numeric target is read (DESIGN CHOICE, log entry 59). -/
def branchText : Branch → String
  | .br c a b o => lineOf (brName c) [xText a, xText b, decInt o.toInt]
  | .jal rd o => lineOf "jal" [xText rd, decInt o.toInt]
  | .jalr rd a o => lineOf "jalr" [xText rd, decInt o.toInt ++ "(" ++ xText a ++ ")"]

def amoText (a : Amo) : String :=
  let m := amoName a.op ++ (if a.dw then ".d" else ".w") ++ (match a.aq, a.rl with
    | true, true => ".aqrl"
    | true, false => ".aq"
    | false, true => ".rl"
    | false, false => "")
  let at_ := "(" ++ xText a.rs1 ++ ")"
  if a.op = .lr then lineOf m [xText a.rd, at_] else lineOf m [xText a.rd, xText a.rs2, at_]

def csrText (a : CsrI) : String :=
  lineOf (csrOpName a.op ++ (if a.imm then "i" else "")) [xText a.rd, hexN 3 a.csr.toNat,
    if a.imm then toString a.rs1.val else xText a.rs1]

def amocText (m : String) (a : Amoc) : String :=
  lineOf ("k.amoc." ++ m ++ (if a.dw then ".d" else ".w")) [xText a.rd, xText a.rs2, "(" ++ xText a.rs1 ++ ")",
    if a.cluster then "scope=cluster" else "scope=hearth"]

/-- A set of access kinds of a fence: i, o, r and w (RISC-V). -/
def fenceSet (v : Nat) : String :=
  if v = 0 then "0"
  else String.join ([(8, "i"), (4, "o"), (2, "r"), (1, "w")].map fun p => if v / p.1 % 2 = 1 then p.2 else "")

/-- A register field that a fence reserves (RISC-V). -/
def regResv (name : String) (r : XReg) : String := if r = 0 then "" else resvText name 2 r.val

/-- A fence in the RISC-V form, with what it reserves behind it (R17, R27). -/
def fenceText (fm p q : Nat) (a rd : XReg) : String :=
  (if fm = 8 && p = 3 && q = 3 then "fence.tso"
   else lineOf "fence" [fenceSet p, fenceSet q] ++ (if fm = 0 then "" else resvText "FM" 1 fm)) ++ regResv "RS1" a ++ regResv "RD" rd

/-- A scalar instruction in its base form, every option of a `k.` instruction written. -/
def scalarText : Instr → String
  | .integerOp i => intText i
  | .branchJump b => branchText b
  | .load w rd a i => lineOf (loadName w) [xText rd, decInt i.toInt ++ "(" ++ xText a ++ ")"]
  | .store w b a i => lineOf (storeName w) [xText b, decInt i.toInt ++ "(" ++ xText a ++ ")"]
  | .amo a => amoText a
  | .csrAccess a => csrText a
  | .fence fm p q a rd => fenceText fm.toNat p.toNat q.toNat a rd
  | .fenceI i a rd => "fence.i" ++ (if i = 0 then "" else resvText "IMM" 3 i.toNat) ++ regResv "RS1" a ++ regResv "RD" rd
  | .ecall => "ecall"
  | .ebreak => "ebreak"
  | .mret => "mret"
  | .wfi => "wfi"
  | .kIssue c => lineOf "k.issue" [toString (32 * c.toNat)]
  | .kIssuex c a b => lineOf "k.issuex" [toString (32 * c.toNat), xText a, xText b]
  | .kTick rd => lineOf "k.tick" [xText rd]
  | .kDrain => "k.drain"
  | .kTrap c => lineOf "k.trap" [toString c.toNat]
  | .kFlset f a => lineOf "k.flset" ["fl" ++ toString f.toNat, xText a]
  | .kFladd f a => lineOf "k.fladd" ["fl" ++ toString f.toNat, xText a]
  | .kFlrd rd f => lineOf "k.flrd" [xText rd, "fl" ++ toString f.toNat]
  | .kWin n a b => lineOf "k.win" ["w" ++ toString n.val, xText a, xText b]
  | .kWinrd rd n hi => lineOf "k.winrd" [xText rd, "w" ++ toString n.val, if hi then "half=hi" else "half=lo"]
  | .kWait rd t o n all =>
    lineOf "k.wait" [xText rd, xText t, toString (64 * o.toNat), toString (n.toNat + 1), if all then "mode=all" else "mode=any"]
  | .kDone => "k.done"
  | .kYield => "k.yield"
  | .kSusp a => lineOf "k.susp" [xText a]
  | .kSpawn a b => lineOf "k.spawn" [xText a, xText b]
  | .kGrpMake a b => lineOf "k.grp.make" [xText a, xText b]
  | .kGrpJoin rd a => lineOf "k.grp.join" [xText rd, xText a]
  | .kGrpLeave a => lineOf "k.grp.leave" [xText a]
  | .kGrpBar a => lineOf "k.grp.bar" [xText a]
  | .kArm a => lineOf "k.arm" [xText a]
  | .kRgnEnter i => lineOf "k.rgn.enter" [toString i.toNat]
  | .kRgnLeave => "k.rgn.leave"
  | .kSpl rd o => lineOf "k.spl" [xText rd, toString (8 * o.toNat)]
  | .kSps a o => lineOf "k.sps" [xText a, toString (8 * o.toNat)]
  | .kAmocAdd a => amocText "add" a
  | .kAmocSwap a => amocText "swap" a
  | .kAmocCas a => amocText "cas" a
  | .kAmocOr a => amocText "or" a
  | .kAmocAnd a => amocText "and" a
  | .kAmocMin a => amocText "min" a
  | .kAmocMax a => amocText "max" a
  | .illegalInstruction w => "resv=word:" ++ hexN 8 w.toNat
  | _ => ""

end Sys2Proof.Machine
end

