-- ==== Sys2Proof/Machine/HobTrace.lean ====
section
/-! DEFINITION. Hob's commands (R280 to R283), the switch of the trace (R284), and the chimney stream (R286, R287). A Hob
command acts on the hearth at the focus, which a session must hold; one that names a context acts on the context there. -/

namespace Sys2Proof.Machine

def State.hobPrint (s : State) (o : HobOut) : State := { s with hobOut := o :: s.hobOut }

def State.setHob (s : State) (b : Hob) : State := s.setFh { s.fh with hob := b }

/-- A command of the session that holds the hearth at the focus; without one it is refused (R280). -/
def State.hobCmd (s : State) (f : State) : State := if s.fh.hob.sess.isSome then f else s.hobPrint .refused

/-- A command that prints. -/
def State.hobShow (s : State) (o : HobOut) : Out := .next (s.hobCmd (s.hobPrint o))

/-! ## Sessions and breakpoints (R280) -/

/-- A session holds a hearth, unless another one does, or the session holds another hearth: it holds one at a time (R280). That the
command is then refused is the model's choice (DESIGN CHOICE, log entry 59). -/
def State.attach (s : State) (h : Fin 640) (sess : Nat) : Option State :=
  let x := s.hearth h
  if x.hob.sess.isSome && x.hob.sess != some sess || (s.hearths.toList.zipIdx.any fun p => p.2 != h.val && p.1.hob.sess == some sess) then none
  else some (s.setHearth h { x with hob := { x.hob with sess := some sess } })

/-- HOB_ATTACH (R280). -/
def execHobAttach (h : Nat) (sess : Nat) (s : State) : Out :=
  .next <|
    if hh : h < 640 then
      if s.svc.hobFw then (s.attach ⟨h, hh⟩ sess).getD (s.hobPrint .refused) else s.hobPrint .refused
    else s.hobPrint .refused

/-- Adds a breakpoint; a session has at most 16. -/
def State.addBrk (s : State) (b : Brk) : State :=
  let x := s.fh.hob
  if x.brks.length < Config.breakpoints then s.setHob { x with brks := x.brks ++ [b] } else s.hobPrint .refused

/-- HOB_BREAK_PC (R280): the offset must be an instruction of the image. -/
def execHobBreakPc (off : Nat) (c : Option (Fin 4)) (s : State) : Out :=
  let len := (s.fh.img.map (·.code.length)).getD 0
  .next (s.hobCmd (if off % 4 = 0 && off < len then s.addBrk (.pc off c) else s.hobPrint .refused))

/-- The region is one of the image: its code enters it. Identifier 0 names no region (R15, R116). -/
def Image.hasRgn (i : Image) (id : BitVec 16) : Bool :=
  (List.range (i.code.length / 4)).any fun n =>
    match decodeScalar (BitVec.ofNat 32 (leNat ((i.code.drop (4 * n)).take 4))) with
    | .kRgnEnter r => r == id
    | _ => false

/-- HOB_BREAK_RGN (R280): a region that the image does not have is refused. -/
def execHobBreakRgn (id : BitVec 16) (e : Edge) (s : State) : Out :=
  .next (s.hobCmd (if ((s.fh.img.map fun i => i.hasRgn id).getD false) then s.addBrk (.rgn id e) else s.hobPrint .refused))

/-- HOB_DELETE (R280). -/
def execHobDelete (n : Nat) (s : State) : Out :=
  let x := s.fh.hob
  .next (s.hobCmd (if n < x.brks.length then s.setHob { x with brks := x.brks.eraseIdx n } else s.hobPrint .refused))

/-- HOB_LIST (R280). -/
def execHobList (s : State) : Out := s.hobShow (.brks s.fh.hob.brks)

/-! ## Going on (R282, R283) -/

/-- HOB_CONT (R283). -/
def execHobCont (s : State) : Out := .next (s.hobCmd (if s.fh.hob.stopped then s.resumeHearth s.foc none else s))

def outState (s : State) : Out → State
  | .next t => t
  | _ => s

/-- A waiting context at the focus makes the one test that may end its wait. -/
def State.tryWait (s : State) : State :=
  match s.fc.wait with
  | .kwait _ _ _ _ _ => outState s (execWaitDeadlineExpiry (outState s (execWaitConditionMet s)))
  | .drain _ => outState s (execDrainComplete s)
  | .bar _ _ => outState s (execBarrierRelease s)
  | .spawn => outState s (execSpawnAccepted s)
  | .aperture _ _ _ _ => outState s (execApertureAccess s)
  | .issue _ _ _ _ => (s.setHob { s.fh.hob with step := some s.foc.c }).tryAccept s.foc.h
  | _ => s

/-- The hearth at the focus stops again (R283, R284). -/
def State.stopAgain (s : State) : State := (s.setHob { s.fh.hob with step := some s.foc.c }).settle s.foc

/-- HOB_STEP (R283): the held updates apply, and the context at the focus may run one instruction, after which the hearth stops
again. The instruction of a waiting context is the one it waits in: its wait is tested once. A context that executes nothing leaves
the hearth stopped. -/
def execHobStep (s : State) : Out :=
  let x := s.fh
  .next <| s.hobCmd <|
    if !x.hob.stopped then s.hobPrint .refused
    else if (s.fc.active || s.fc.retries) && !x.idle then
      let s1 := s.resumeHearth s.foc (some s.foc.c)
      s1.setHob { s1.fh.hob with passed := s.foc.c :: s1.fh.hob.passed }
    else
      let s1 := s.resumeHearth s.foc none
      (if s1.fc.st == .waiting && !x.idle then s1.tryWait else s1).stopAgain

/-! ## Printing (R280) -/

/-- HOB_REGS (R280), with the instruction at the pc in its base form (R27, log entry 59). -/
def execHobRegs (s : State) : Out :=
  .next (s.hobCmd ((s.hobPrint (.regs s.fc.pc s.fc.xs)).hobPrint (.instr s.fc.pc (scalarText (decodeScalar (s.fetchWord s.foc))))))
/-- HOB_SHOW_V (R280). -/
def execHobShowV (n : Fin 16) (s : State) : Out := s.hobShow (.vreg s.fc.vs[n])
/-- HOB_SHOW_P (R280). -/
def execHobShowP (n : Fin 8) (s : State) : Out := s.hobShow (.preg s.fc.ps[n])
/-- HOB_SHOW_W (R280). -/
def execHobShowW (n : Fin 32) (s : State) : Out := s.hobShow (.wreg s.fc.ws[n])
/-- HOB_SHOW_FLAGS (R280). -/
def execHobShowFlags (s : State) : Out := s.hobShow (.flags s.fh.flags)
/-- HOB_SHOW_SB (R280): every entry with the `WAIT` of its command. -/
def execHobShowSb (s : State) : Out :=
  s.hobShow (.sb (s.fh.cmds.flatMap fun c => c.entries.map fun e => (c.seq, e, c.f.wait)))
/-- HOB_SHOW_Q (R280). -/
def execHobShowQ (s : State) : Out :=
  s.hobShow (.queues ((s.fh.cmds.filter fun c => c.stage == .queued).map fun c => (c.q, c.seq)))
/-- HOB_SHOW_HELD (R280). -/
def execHobShowHeld (s : State) : Out := s.hobShow (.held s.fh.hob.held)
/-- HOB_SHOW_ACC (R280). -/
def execHobShowAcc (n : Fin 8) (s : State) : Out := s.hobShow (.acc (s.fh.accs[n]).vals)
/-- HOB_SHOW_SMAX (R280). -/
def execHobShowSmax (n : Fin 8) (s : State) : Out := s.hobShow (.smax (s.fh.accs[n]).smax)
/-- HOB_SHOW_SA (R280). -/
def execHobShowSa (s : State) : Out :=
  let x := s.fh.sa
  s.hobShow (.sa x.phase x.tkcount x.tkk x.tkn x.smode x.cells)

/-- The active nest table: that of the `mx.go` which the engine runs (R121, R175). -/
def Hearth.activeNest (x : Hearth) : Option (Vector NestLevel 6) :=
  (x.cmds.find? fun c => c.op == some .mxGo && c.stage == .started && !c.performed).map (·.nest)

/-- HOB_SHOW_NEST (R280). -/
def execHobShowNest (s : State) : Out := s.hobShow (.nest s.fc.nest s.fh.activeNest)

/-- HOB_DECODE (R27, R103, R280): the stored word of a slot with its placeholders, and the substituted word of the latest command
that was issued from it and is outstanding, in the verbose notation. -/
def execHobDecode (n : Nat) (s : State) : Out :=
  let x := s.fh
  if x.slotOk n then
    let d := x.descOf n
    let issued := if d.isSome then (x.cmds.reverse.find? fun c => c.slot == n && !c.ended).map fun c => verbose c.word none else none
    s.hobShow (.word (verbose (x.slotWord n) d) issued)
  else .next (s.hobPrint .refused)

/-- The byte that Hob reads at an address: the scratchpad through the aperture, or memory (R230). -/
def State.hobByte (s : State) (a : Word) : Option Byte :=
  if ownerOf a = 15 && !bit a 56 && canonical a then
    if bitsN a 21 31 = 0 then some (s.fh.scratch.read (bitsN a 0 21)) else none
  else ((s.unitRead ⟨s.fh.asid, false, s.fh.sec⟩ a 1).bind (·.head?))

/-- An entry of a KV-cache table by its layout, none where the bytes break it (R262). -/
def kvEntry (bs : List Byte) : Option HobOut :=
  let v := leNat bs
  let f (lo n : Nat) : Nat := v / 2 ^ lo % 2 ^ n
  if bs.length = 32 && f 192 64 = 0 && f 128 18 = 0 && f 160 32 % 128 = 0 && decide (1 ≤ f 152 8) && decide (f 152 8 ≤ 128) &&
      [7, 9, 12, 13].contains (f 148 4) && decide (f 146 2 < 2) && f 64 64 % 64 = 0 &&
      (f 146 2 = 0 || f 0 64 % 512 = 0 && decide (f 0 64 < 2 ^ 45)) then
    some (.kv (f 160 32) (f 152 8) (f 148 4) (f 146 2) (f 64 64) (f 0 64))
  else none

/-- HOB_MEM (R280): the bytes as an image, and every whole entry of a KV-cache table among them, from the first byte on, by its
layout (R262, log entry 59). -/
def execHobMem (a : Word) (n : Nat) (s : State) : Out :=
  let bs := (List.range n).map fun i => s.hobByte (a + BitVec.ofNat 64 i)
  let kvs := (List.range (n / 32)).filterMap fun i => kvEntry (((bs.drop (32 * i)).take 32).filterMap id)
  .next (s.hobCmd (kvs.foldl State.hobPrint (s.hobPrint (.mem bs))))

/-- HOB_TRACE (R280, R284). -/
def execHobTrace (on : Bool) (s : State) : Out :=
  .next (s.hobCmd (s.setFh { s.fh with trace := { s.fh.trace with on := on } }))

/-! ## The chimney stream (R286, R287) -/

/-- HOB_CHIMNEY (R280, R286): a `k` outside 4 to 24 is refused. -/
def execHobChimney (k : Nat) (s : State) : Out :=
  .next (s.hobCmd (if 4 ≤ k && k ≤ 24 then { s with chim := { s.chim with k := k } } else s.hobPrint .refused))

/-- The units of a frame: their class and index, 640 hearths, 32 slices, 128 memory channels, 64 flash channels, 8 cirrus
engines, 8 ports and 5 die agents (R3, R287, log entry 16). -/
def chimUnits : List (Nat × Nat) :=
  [(0, 640), (1, 32), (2, 128), (3, 64), (4, 8), (5, 8), (6, 5)].flatMap fun p => (List.range p.2).map fun i => (p.1, i)

/-- A count of a unit since package reset: what each cycle added to it. In a cycle a cycle counter advances by at most one. -/
def chimTotal (cls idx ctr : Nat) : Nat → Nat
  | 0 => 0
  | n + 1 =>
    let d := Config.chimneyStep n cls idx ctr
    chimTotal cls idx ctr n + (if cls = 0 || ctr ≤ 2 then d % 2 else d)

/-- Bytes that a unit is known to have moved: the pages that fetches have read over a flash channel, or over the channels of a cirrus
engine's stack, and the payloads of the transfers over a link port (R287). -/
def State.bytesMoved (s : State) (cls idx : Nat) : Nat :=
  match cls with
  | 3 => s.cirrus.moved[Fin.ofNat 64 idx]
  | 4 => ((List.range 8).map fun i => s.cirrus.moved[Fin.ofNat 64 (8 * idx + i)]).sum
  | 5 => s.links.carried[Fin.ofNat 8 idx]
  | _ => 0

/-- A counter of a unit, modulo 2^32: cycles; bytes moved in units of 4 KiB; the re-queues of R346; one that a class lacks reads 0
(R286, R287). What a cycle adds to the first is a free value, and so is what the parts move beyond `bytesMoved`: their timing and their
own data movement are outside the model (log entry 16). -/
def State.chimCounter (s : State) (cls idx ctr : Nat) : Nat :=
  (if cls = 0 || ctr ≤ 2 then chimTotal cls idx ctr s.cycle
  else if ctr = 3 then (s.bytesMoved cls idx + chimTotal cls idx ctr s.cycle) / 4096
  else if ctr = 4 && cls = 3 then s.cirrus.retries[Fin.ofNat 64 idx]
  else if ctr = 4 && cls = 4 then ((List.range 8).map fun i => s.cirrus.retries[Fin.ofNat 64 (8 * idx + i)]).sum
  else 0) % 2 ^ 32

/-- The block of a unit. -/
def State.chimBlock (s : State) (u : Nat × Nat) : List Byte :=
  leBytes 4 (u.2 + 4096 * u.1) ++ (List.range 15).flatMap fun i => leBytes 4 (s.chimCounter u.1 u.2 (i + 1))

/-- The header of a frame. -/
def State.chimHeader (s : State) : List Byte :=
  leBytes 64 (s.tick % 2 ^ 64 + 2 ^ 64 + s.links.chip % 1024 * 2 ^ 76 + s.chim.k % 32 * 2 ^ 107 + chimUnits.length * 2 ^ 112 +
    s.chim.dropped % 2 ^ 32 * 2 ^ 128)

/-- A latch is due: the tick is a multiple of 2^k, and nothing has latched on it (R286). -/
def State.latchDue (s : State) : Bool :=
  s.chim.k != 0 && s.tick % 2 ^ s.chim.k == 0 && decide (s.chim.last ≤ s.tick)

/-- CHIMNEY_LATCH (R286, R287): on a tick that is a multiple of 2^k one frame goes into the ring, or is dropped and counted. -/
def execChimneyLatch (s : State) : Out :=
  let c := { s.chim with last := s.tick + 1 }
  let n := 64 * (chimUnits.length + 1)
  .next <|
    if !s.latchDue then s
    else if c.bytes < c.pos + n then { s with chim := { c with dropped := c.dropped + 1 } }
    else
      let frame := s.chimHeader ++ chimUnits.flatMap s.chimBlock
      { s.unitWrite ⟨none, false, true⟩ (c.addr + BitVec.ofNat 64 c.pos) frame with chim := { c with pos := c.pos + n, dropped := 0 } }

/-- LEASE_REBASE (R241): it changes no value and no order; its stall is time. -/
def execLeaseRebase (s : State) : Out := .next s

end Sys2Proof.Machine
end

