-- ==== Sys2Proof/Machine/Cirrus.lean ====
section
/-! DEFINITION. The cirrus engines' own steps: search and fetch records, read retries, merges and reclamation (R342 to R347),
and the completion of records (R304). -/

namespace Sys2Proof.Machine

/-! ## The work frame of a record (R344) -/

def frOp (w : BitVec 512) : Nat := bitsN w 0 3
def frPaddr (w : BitVec 512) : Word := field w 64 64
def frRaddr (w : BitVec 512) : Word := field w 128 64
def frNent (w : BitVec 512) : Nat := bitsN w 192 32

/-- A work frame keeps its layout. -/
def frameOk (w : BitVec 512) : Bool :=
  bitsN w 224 288 == 0 && bitsN w 3 61 == 0 && decide (frOp w < 6) && (frPaddr w).toNat % 64 == 0 &&
    (if frOp w = 3 then decide (1 ≤ frNent w) && decide (frNent w ≤ 65536) else frNent w == 0)

/-- The frame of a search or fetch record, none when it cannot be read. -/
def State.rawFrame (s : State) (q : Fin 2048) (fr : Word) : Option (BitVec 512) :=
  if fr.toNat % 64 ≠ 0 then none else (s.unitRead (s.queueAgent q) fr 64).map ofBytes512

/-- The frame of a search or fetch record, none when it cannot be read or is malformed. -/
def State.workFrame (s : State) (q : Fin 2048) (fr : Word) : Option (BitVec 512) := (s.rawFrame q fr).filter frameOk

def State.read512 (s : State) (q : Fin 2048) (a : Word) : Option (BitVec 512) :=
  (s.unitRead (s.queueAgent q) a 64).map ofBytes512

/-- Entry `i` of a record's fetch list. -/
def State.fetchItem (s : State) (q : Fin 2048) (a : Word) (i : Nat) : Option (BitVec 256) :=
  (s.unitRead (s.queueAgent q) (a + BitVec.ofNat 64 (32 * i)) 32).map fun bs => BitVec.ofNat 256 (leNat bs)

/-- The engine that serves a record: the home engine of its index, or that of the first entry's first page; engine 0 where the
frame names none (R343). -/
def State.taskEngine (s : State) (q : Fin 2048) (fr : Word) : Fin 8 :=
  match s.workFrame q fr with
  | none => 0
  | some w =>
    if frOp w = 3 then Fin.ofNat 8 ((((s.fetchItem q (frPaddr w) 0).map fun e => (entSrc e).toNat / Config.flashPage)).getD 0)
    else Fin.ofNat 8 (((s.read512 q (frPaddr w)).map pIndex).getD 0)

/-- The ready search or fetch record that an engine with a free place takes: the one that goes first (R344). -/
def State.cirrusChoice (s : State) (rs : List (RecRef × BitVec 512)) (e : Fin 8) : Option (RecRef × BitVec 512) :=
  if !s.cirrusRoom e.val then none
  else s.bestOf (rs.filter fun p => (recKind p.2 == 1 || recKind p.2 == 2) && s.taskEngine p.1.wq (recFrame p.2) == e &&
    !s.barrierHeld p.1 p.2 && !s.queueMoving p.1.wq)

/-- An engine takes a record; a malformed one is not run, and completes as faulted (R302, R344). -/
def State.takeTask (s : State) (e : Fin 8) (r : RecRef) (w : BitVec 512) : State :=
  if s.recOk r.wq w then
    let s1 := s.putRec { r with qst := 1 } w
    { s1 with cirrus := { s1.cirrus with tasks := s1.cirrus.tasks ++ [⟨e, r.addr, r.wq, s1.launchNow, [], none, [], [], 0⟩] } }
  else (s.endOrWait r 6).report (.malformed r.addr)

/-- CIRRUS_TASK_DISPATCH (R302, R344): an engine takes its record. -/
def execCirrusTaskDispatch (e : Fin 8) (s : State) : Out :=
  .next <|
    match s.cirrusChoice s.ready e with
    | none => s
    | some (r, w) => s.takeTask e r w

/-! ## What an engine does for a record (R344, R345, R347) -/

/-- A range of memory that the engine may write for a work queue. -/
def State.unitWritable (s : State) (q : Fin 2048) (a : Word) (n : Nat) : Bool :=
  rangeOk a n && decide (ownerOf a < 5) && (s.xlatN (s.queueAgent q) .store a n).toOption.isSome

/-- Entry of a record's fetch keeps its limits (R343, R344). -/
def State.itemOk (s : State) (q : Fin 2048) (e : BitVec 256) : Bool :=
  let src := entSrc e
  let len := bitsN e 96 32
  bitsN e 192 64 == 0 && bitsN e 64 32 == 0 && fetchSrcOk src len && s.flashAllowed q (s.queues[q]).sec src.toNat len &&
    s.unitWritable q (field e 128 64) len

/-- The parts of the first entries of a record's fetch list, and the `STATUS` that the list ends in: 1 at an entry that breaks a
limit, which ends the fetch there (R343, R344). -/
def State.itemParts (s : State) (q : Fin 2048) (a : Word) : Nat → Nat → List FetchPart × Nat
  | 0, _ => ([], 0)
  | n + 1, i =>
    match (s.fetchItem q a i).filter (s.itemOk q) with
    | none => ([], 1)
    | some e =>
      let src := (entSrc e).toNat
      let z := src + bitsN e 96 32
      let parts := (flashPages src (bitsN e 96 32)).map fun p =>
        let lo := max src (p * Config.flashPage)
        (⟨lo, min z ((p + 1) * Config.flashPage) - lo, (field e 128 64 : Word) + BitVec.ofNat 64 (lo - src)⟩ : FetchPart)
      let r := s.itemParts q a n (i + 1)
      (parts ++ r.1, r.2)

def State.setTask (s : State) (t : Task) : State :=
  { s with cirrus := { s.cirrus with tasks := s.cirrus.tasks.map fun x => if x.wq = t.wq && x.addr = t.addr then t else x } }

/-- A write of a unit that may leave bytes out; nothing is written when some byte does not translate. -/
def State.unitPut (s : State) (ag : Agent) (a : Word) (data : List (Option Byte)) : State :=
  if !rangeOk a data.length || 5 ≤ ownerOf a then s
  else match s.xlatN ag .store a data.length with
    | .error _ => s
    | .ok ks => s.performWrite ks data none

/-- The byte runs that a fetch record has still to write. -/
def Task.rest (t : Task) : List (Nat × Nat) :=
  (t.held.map fun p => (p.1.toNat, p.1.toNat + p.2.length)) ++ (t.parts.getD []).map fun p => (p.dst.toNat, p.dst.toNat + p.len)

/-- Bytes of one granule join those that wait for it, and the granule is written once no byte still to come meets it (R240, R345). -/
def State.taskPut (s : State) (t : Task) (ks : List (Nat × Byte)) (g : Nat) : State × Task :=
  let all := t.late ++ ks
  if ivsGran t.rest g then (s, { t with late := all })
  else
    let p := all.partition fun k => k.1 / 64 == g
    let w := granWrite p.1
    (s.unitPut (s.queueAgent t.wq) (BitVec.ofNat 64 w.1) w.2, { t with late := p.2 })

/-- A fetch that ends early writes the bytes that wait for a granule's others. -/
def State.flushLate (s : State) (t : Task) : State :=
  ((t.late.map fun k => k.1 / 64).eraseDups).foldl (fun u g =>
    let w := granWrite (t.late.filter fun k => k.1 / 64 == g)
    u.unitPut (u.queueAgent t.wq) (BitVec.ofNat 64 w.1) w.2) s

/-- The engine writes one granule of what it has read, or reads one page's part of an entry, in any order of the parts; a page that
cannot be read ends the fetch (R345, R347). -/
def State.fetchPart (s : State) (t : Task) : State × Task :=
  match t.held with
  | (a, bs) :: rest =>
    let n := min bs.length (64 - a.toNat % 64)
    s.taskPut { t with held := if n < bs.length then (a + BitVec.ofNat 64 n, bs.drop n) :: rest else rest }
      (bytesAt a.toNat (bs.take n)) (a.toNat / 64)
  | [] =>
    let ps := t.parts.getD []
    let i := (Config.openValue s.free).toNat % ps.length
    match ps[i]? with
    | none => (s, t)
    | some p =>
      let s1 := { s with free := s.free + 1 }
      let page := p.src / Config.flashPage
      if s.cirrus.lost.contains page then (s1.flushLate t, { t with parts := some [], late := [], status := 5 })
      else ((s1.readsOver (.record t.wq t.addr) [page]).pageMoved page, { t with parts := some (ps.eraseIdx i), held := [(p.dst, s.cirrus.flash.bytes p.src p.len)] })

/-- The list of a fetch record has been read (R344). -/
def State.planTask (s : State) (t : Task) (fr : Word) : Task :=
  match t.parts, s.workFrame t.wq fr with
  | none, some w =>
    if frOp w = 3 && s.unitWritable t.wq (frRaddr w) 64 then
      let r := s.itemParts t.wq (frPaddr w) (frNent w) 0
      { t with parts := some r.1, status := r.2 }
    else t
  | _, _ => t

/-- A turn of a fetch record: its list is read, or one part of it goes on. -/
def State.runFetch (s : State) (wq : Fin 2048) (addr : Word) : State :=
  match s.refOf wq addr, s.cirrus.tasks.find? fun t => t.wq == wq && t.addr == addr with
  | some r, some t =>
    match t.parts with
    | none => s.setTask (s.planTask t (recFrame (s.recWord r)))
    | some _ => if s.queueMoving wq then s else let u := s.fetchPart t; u.1.setTask u.2
  | _, _ => s

/-- What is left of a fetch record, in `n` turns. -/
def State.fetchAll (s : State) (t : Task) : Nat → State × Task
  | 0 => (s, t)
  | n + 1 => if t.held.isEmpty && (t.parts.getD []).isEmpty then (s, t) else let u := s.fetchPart t; u.1.fetchAll u.2 n

/-- Turns that a task's fetch takes at most. -/
def Task.turns (t : Task) : Nat :=
  ((t.held.map fun p => p.2.length + 1).sum) + ((t.parts.getD []).map fun p => p.len + 2).sum

/-- A record's task: its effects, results and completion record, and its `STATUS`. A malformed frame gives `STATUS` 1. A page that
cannot be read sends its event to the package trace (R347). -/
def State.runTask (s : State) (t : Task) (fr : Word) : State × Nat :=
  match s.rawFrame t.wq fr with
  | none => (s, 1)
  | some w =>
    let ag := s.queueAgent t.wq
    let ra := frRaddr w
    let pa := frPaddr w
    let out (s1 : State) (r : SxRes) : State × Nat :=
      let s2 := if r.data.isEmpty then s1 else s1.unitWrite ag (ra + 64) r.data
      let s3 := s2.unitWrite ag ra (sxRecord r t.retried.length)
      (if r.status = 5 then s3.report (.requeue t.addr 2) else s3, r.status)
    if !s.unitWritable t.wq ra 64 then (s, 1)
    else if !frameOk w then out s ⟨1, 0, 0, 0, []⟩
    else if frOp w = 3 then
      let t1 := s.planTask t fr
      let r := s.fetchAll t1 t1.turns
      out r.1 ⟨r.2.status, 0, 0, 0, []⟩
    else
      match s.read512 t.wq pa with
      | none => out s ⟨1, 0, 0, 0, []⟩
      | some p =>
        let n := resultBytes (frOp w) p
        let r := s.sxDo { op := frOp w, p := p, vec := fun k => if k = 0 then some [] else s.unitRead ag (pa + 64) k,
                          pRoom := 2 ^ 64, rRoom := if s.unitWritable t.wq ra n then n else 0, sec := (s.queues[t.wq]).sec,
                          launch := t.launch }
        out r.1 r.2

/-- RECORD_COMPLETION (R304, R344): a record enters the final state that it has come to. A cirrus engine finishes the task of a
search or fetch record, which ends completed with `STATUS` 0 and faulted with any other; a finishing record that waits for no
child completes. -/
def execRecordCompletion (wq : Fin 2048) (addr : Word) (qst : BitVec 3) (s : State) : Out :=
  .next <|
    match s.refOf wq addr with
    | none => s
    | some r =>
      match s.cirrus.tasks.find? fun t => t.wq == wq && t.addr == addr with
      | some t =>
        let u := s.runTask t (recFrame (s.recWord r))
        let fin : BitVec 3 := if u.2 = 0 then 4 else 6
        if qst ≠ fin || s.queueMoving wq || (s.queues[wq]).torn then s
        else
          let s1 := { u.1 with cirrus := { u.1.cirrus with tasks := u.1.cirrus.tasks.filter fun x => !(x.wq == wq && x.addr == addr) } }
          (s1.readsOver (.record wq addr) t.retried).endOrWait r fin
      | none => if r.qst = 3 && recJoin (s.recWord r) = 0 && qst = 4 && !s.queueMoving wq then s.endRecord r 4 else s

/-! ## Read retries (R346, R347) -/

/-- A command or a record gains a page that was re-queued for it, at most once. -/
def addPage (l : List Nat) (p : Nat) : List Nat := if l.contains p then l else l ++ [p]

/-- Retries that a reader's read of a page has had. -/
def Cirrus.triesOf (c : Cirrus) (r : Reader) (p : Nat) : Nat := ((c.tries.find? fun q => q.1 == r && q.2.1 == p).map (·.2.2)).getD 0

def Cirrus.tried (c : Cirrus) (r : Reader) (p : Nat) : Cirrus :=
  { c with tries := (r, p, c.triesOf r p + 1) :: c.tries.filter fun q => !(q.1 == r && q.2.1 == p) }

/-- A search command that its engine performs and that has not ended. -/
def Cmd.searching (c : Cmd) : Bool := bitsN c.word 8 4 == 4 && c.stage == .started && !c.performed

/-- The pages that hold something of an index: entries of its log, and nodes of its roots (R334, R336). -/
def Index.pages (x : Index) : List Nat := (x.entries.map (·.page)) ++ x.roots.flatMap fun r => r.nodes.map (·.page)

def State.indexPages (s : State) (i : Nat) : List Nat := ((s.cirrus.indexes[Fin.ofNat 64 i]).map Index.pages).getD []

/-- The pages that a search command of a hearth has still to read: of a fetch, those of its parts; of a search or a scan, those of its index.
Its index stands in its parameter block. -/
def State.cmdPages (s : State) (x : Hearth) (c : Cmd) : List Nat :=
  match c.op with
  | some .sxFetch => if c.xend && c.acked then c.list.map fun e => (entSrc e).toNat / Config.flashPage else []
  | some .sxSearch | some .sxScan =>
    if c.xend then [] else s.indexPages (pIndex (c.desc.getD (ofBytes512 (x.scratch.bytes (c.win 1).a0 64))))
  | _ => []

/-- The pages that a record's task has still to read. -/
def State.taskPages (s : State) (t : Task) : List Nat :=
  match t.parts with
  | some ps => ps.map fun p => p.src / Config.flashPage
  | none =>
    match s.refOf t.wq t.addr with
    | none => []
    | some r => match s.workFrame t.wq (recFrame (s.recWord r)) with
      | none => []
      | some w => if frOp w < 2 then s.indexPages (((s.read512 t.wq (frPaddr w)).map pIndex).getD 0) else []

/-- The state of a hearth that issued a command: the live one, or a saved one with its place in the list. -/
def State.hearthOf (s : State) (h : Fin 640) (epoch : Nat) : Option (Hearth × Option Nat) :=
  if (s.hearth h).epoch = epoch then some (s.hearth h, none)
  else ((s.savedOf h).find? fun p => p.2.epoch == epoch).map fun p => (p.2, some p.1)

/-- The pages that a reader under way has still to read (R346, R347). -/
def State.readerPages (s : State) (r : Reader) : List Nat :=
  match r with
  | .cmd h epoch seq =>
    ((s.hearthOf h epoch).bind fun y => (y.1.cmd? seq).map fun c => if c.searching then s.cmdPages y.1 c else []).getD []
  | .record wq addr => ((s.cirrus.tasks.find? fun t => t.wq == wq && t.addr == addr).map s.taskPages).getD []
  | .merge i => ((s.cirrus.indexes[i]).map fun x => if x.merge.isSome then x.pages else []).getD []

/-- A re-queue reaches its task: the page is counted there, and the trace is told, or the service OS (R346). -/
def State.retryTask (s : State) (r : Reader) (page : Nat) : State :=
  match r with
  | .cmd h epoch seq =>
    match s.hearthOf h epoch with
    | none => s
    | some (x, at_) =>
      match x.cmd? seq with
      | none => s
      | some c =>
        let c1 := { c with retried := addPage c.retried page }
        let t := match at_ with
          | none => s.setHearth h (x.setCmd c1)
          | some i => { s with saved := s.saved.set i (h, x.setCmd c1) }
        t.retryTrace h c1 1
  | .record wq addr =>
    let ts := s.cirrus.tasks.map fun t => if t.addr = addr && t.wq = wq then { t with retried := addPage t.retried page } else t
    { s with cirrus := { s.cirrus with tasks := ts } }.report (.requeue addr 1)
  | .merge _ => s.report (.requeue 0 1)

/-- READ_RETRY (R346, R347): a page that a task reads is re-queued, at most seven times; behind the seventh retry it may be uncorrectable:
then it cannot be read any more, the service OS is told, and a replay ends (R289). -/
def execReadRetry (r : RetryEv) (s : State) : Out :=
  .next <|
    if !(s.readerPages r.reader).contains r.page then s
    else if r.uncorrectable then
      if s.cirrus.triesOf r.reader r.page < 7 then s
      else
        let s1 := ({ s with cirrus := { s.cirrus with lost := addPage s.cirrus.lost r.page } }.readsOver r.reader [r.page]).report
          (.uncorrectable r.page)
        if s1.svc.replay.isSome then
          { s1 with svc := { s1.svc with replay := none, script := [], forcedResults := [], reports := s1.svc.reports ++ [.divergence] } }
        else s1
    else if 7 ≤ s.cirrus.triesOf r.reader r.page then s
    else
      let ch := pageChannel r.page
      { s with cirrus := { (s.cirrus.tried r.reader r.page) with
        retries := s.cirrus.retries.set ch (s.cirrus.retries[ch] + 1) } }.retryTask r.reader r.page

/-! ## Merges and reclamation (R342) -/

/-- The entries that a merge links: those of the root's nodes, and those of the log from M on up to L′. -/
def Index.linked (x : Index) (r : IdxRoot) (lp : Nat) : List IdxEntry :=
  x.entries.filter fun e => (decide (r.mpos ≤ e.pos) && decide (e.pos < lp)) || r.nodes.any fun n => n.pos == e.pos

/-- The identifier of an entry was live at an event of the index. -/
def IdxEntry.liveAt (e : IdxEntry) (ev : Nat) : Bool :=
  match e.delAt with
  | none => true
  | some d => decide (ev ≤ d)

/-- The current root. -/
def Index.top (x : Index) : IdxRoot := (x.roots.head?).getD ⟨0, 0, none, []⟩

/-- What a merge's graph depends on, as one list: the attributes, the root's graph and the entries it links (R342). -/
def Index.mergeInputs (x : Index) (lp ev : Nat) : List Nat :=
  [x.dim, x.degree, (match x.ety with | .int8 => 0 | .e4m3 => 1 | .bf16 => 2), (match x.metric with | .l2 => 0 | .ip => 1 | .hamming => 2)] ++
    x.top.nodes.flatMap (fun n => n.pos :: n.nbrs.length :: n.nbrs) ++
    (x.linked x.top lp).flatMap fun e => [e.pos, e.id, if e.liveAt ev then 1 else 0, leNat e.vec]

/-- The positions of the new graph's nodes: every linked entry that was live when the merge started, and those deleted ones that the
firmware keeps. -/
def Index.mergeNodes (x : Index) (lp ev : Nat) : List Nat :=
  ((x.linked x.top lp).filter fun e => e.liveAt ev || Config.mergeKeeps (x.mergeInputs lp ev) e.pos).map (·.pos)

/-- The root that a merge builds, with its nodes in these pages: at most `DEGREE` neighbours for each, all of them nodes; its choices
depend on its inputs alone (R342). -/
def Index.nextRoot (x : Index) (lp ev : Nat) (pages : List Nat) : IdxRoot :=
  let ps := x.mergeNodes lp ev
  let key := x.mergeInputs lp ev
  let nodes := (ps.zip pages).map fun p =>
    (⟨p.1, p.2, (((Config.mergeNbrs key p.1).filter ps.contains).eraseDups).take x.degree⟩ : IdxNode)
  ⟨x.top.gen + 1, lp, ps[Config.mergeEntry key % ps.length]?, nodes⟩

/-- A run of `n` pages from page `p` on holds a node of some index. -/
def State.nodePage (s : State) (p n : Nat) : Bool :=
  s.cirrus.indexes.toList.any fun x => (x.map fun i =>
    i.roots.any fun r => r.nodes.any fun m => decide (p ≤ m.page) && decide (m.page < p + n)).getD false

/-- A run of `n` pages from page `p` on meets no page that a work queue has or that the firmware uses for an index (R334). -/
def State.pagesApart (s : State) (p n : Nat) : Bool :=
  decide ((p + n) * Config.flashPage ≤ Config.flashBytes) && !s.nodePage p n &&
    s.cirrus.reserved.all (fun r => decide (p + n ≤ r.2.1) || decide (r.2.1 + r.2.2 ≤ p)) &&
    s.cirrus.ranges.all fun r => decide ((p + n) * Config.flashPage ≤ r.base) || decide (r.base + r.len ≤ p * Config.flashPage)

/-- The firmware may write nodes to these pages: distinct, and apart from all others (R334, R336, R342). -/
def State.pagesFree (s : State) (pages : List Nat) : Bool := pages.Nodup && pages.all fun p => s.pagesApart p 1

/-- A merge reads a page that cannot be read: of a node of the root, or of a log entry (R347). -/
def Index.mergeLost (x : Index) (lost : List Nat) (lp : Nat) : Bool :=
  x.top.nodes.any (fun n => lost.contains n.page) ||
    x.entries.any fun e => decide (x.top.mpos ≤ e.pos) && decide (e.pos < lp) && lost.contains e.page

/-- MERGE_PUBLISH (R342, R347): the running merge publishes the graph that the firmware built, by one switch of the root; a
merge that met a page that cannot be read does not publish. -/
def execMergePublish (i : Fin 64) (pages : List Nat) (s : State) : Out :=
  .next <|
    match s.cirrus.indexes[i] with
    | none => s
    | some x =>
      match x.merge with
      | none => s
      | some (lp, ev) =>
        if x.mergeLost s.cirrus.lost lp then
          (((s.setIndex i (some { x with merge := none })).readsOver (.merge i) x.pages).report (.mergeNotPublished i)).report
            (.requeue 0 2)
        else if pages.length ≠ (x.mergeNodes lp ev).length || !s.pagesFree pages then s
        else
          (s.readsOver (.merge i) x.pages).setIndex i
            (some ({ x with merge := none, roots := x.nextRoot lp ev pages :: x.roots, events := x.events + 1 }).autoMerge)

/-- The operations of search commands that read entries of an index: search, scan and stat. -/
def readsIndex (op : Nat) : Bool := op == 0 || op == 1 || op == 5

/-- The generations of an index that a hearth's search commands launched on. A command names its index once it has read its parameter
block; before that it holds every index. -/
def Hearth.gens (x : Hearth) (i : Fin 64) : List Nat :=
  (x.cmds.filter fun c => c.stage == .started && bitsN c.word 8 4 == 4 && readsIndex (bitsN c.word 0 8) &&
      (c.desc.map fun p => pIndex p == i.val).getD true).flatMap fun c =>
    c.launch.filterMap fun p => if p.1 = i.val then some p.2.gen else none

/-- The generations of an index that records launched on. -/
def State.taskGens (s : State) (i : Fin 64) : List Nat :=
  s.cirrus.tasks.flatMap fun t =>
    let names := match s.refOf t.wq t.addr with
      | none => false
      | some r => match s.workFrame t.wq (recFrame (s.recWord r)) with
        | none => false
        | some w => readsIndex (frOp w) && ((s.read512 t.wq (frPaddr w)).map fun p => pIndex p == i.val).getD false
    if names then t.launch.filterMap fun p => if p.1 = i.val then some p.2.gen else none else []

/-- The oldest generation on which a search of an index is under way, or the newest there is (R342). -/
def State.oldestGen (s : State) (i : Fin 64) (top : Nat) : Nat :=
  ((s.hearths.toList.flatMap fun x => x.gens i) ++ (s.saved.flatMap fun p => p.2.gens i) ++ s.taskGens i).foldl min top

/-- The index without the roots below a generation, and without the log entries below the M of the oldest root that stays, but for
those that are nodes (R342). -/
def Index.reclaim (x : Index) (gen : Nat) : Index :=
  let keep := x.roots.filter fun r => decide (gen ≤ r.gen)
  let m := ((keep.getLast?).map (·.mpos)).getD 0
  { x with
    roots := keep, logbase := max x.logbase m,
    entries := x.entries.filter fun e => decide (m ≤ e.pos) || keep.any fun r => r.nodes.any fun n => n.pos == e.pos }

/-- LOG_RECLAIM (R342): behind the last search on them and on earlier ones, roots and the log entries below M are reclaimed. -/
def execLogReclaim (i : Fin 64) (s : State) : Out :=
  .next <|
    match s.cirrus.indexes[i] with
    | none => s
    | some x => if x.roots.isEmpty then s else s.setIndex i (some (x.reclaim (s.oldestGen i x.top.gen)))

end Sys2Proof.Machine
end

