-- ==== Sys2Proof/Machine/Crypto.lean ====
section
/-! DEFINITION. The signature check of images (R272, R382): Ed25519 over the SHA-512 hash of the signed bytes. The two algorithms are
those of FIPS 180-4 and RFC 8032, which the spec names (PRESUMED, log entry 69). -/

namespace Sys2Proof.Machine

/-! ## SHA-512 -/

/-- The first `n` primes from `p` on, by trial division with a bound of `fuel` candidates. -/
def primesFrom : Nat → Nat → Nat → List Nat
  | 0, _, _ => []
  | fuel + 1, p, n =>
    if n = 0 then []
    else if (List.range p).all (fun d => d < 2 || p % d != 0) then p :: primesFrom fuel (p + 1) (n - 1)
    else primesFrom fuel (p + 1) n

/-- ⌊∛n⌋ by bits from bit `k` down. -/
def icbrtGo : Nat → Nat → Nat → Nat
  | 0, _, r => r
  | k + 1, n, r => let t := r + 2 ^ k; icbrtGo k n (if t * t * t ≤ n then t else r)

/-- The round constants: 64 fraction bits of the cube roots of the first 80 primes. -/
def shaK : List Word := (primesFrom 410 2 80).map fun p => BitVec.ofNat 64 (icbrtGo 68 (p * 2 ^ 192) 0)

/-- The start value: 64 fraction bits of the square roots of the first 8 primes. -/
def shaInit : List Word := (primesFrom 20 2 8).map fun p => BitVec.ofNat 64 (isqrtGo 68 (p * 2 ^ 128) 0)

def beNat (bs : List Byte) : Nat := bs.foldl (fun a b => 256 * a + b.toNat) 0
def beBytes (n v : Nat) : List Byte := (leBytes n v).reverse

/-- The message with its padding: a one bit, zeros, and the length in bits in 16 bytes. -/
def shaPad (bs : List Byte) : List Byte :=
  bs ++ [0x80] ++ List.replicate ((239 - bs.length % 128) % 128) 0 ++ beBytes 16 (8 * bs.length)

/-- The message schedule, latest word first, extended by `n` words. -/
def shaExtend : Nat → List Word → List Word
  | 0, w => w
  | n + 1, w =>
    let at_ (i : Nat) : Word := (w[i]?).getD 0
    let s0 := (at_ 14).rotateRight 1 ^^^ (at_ 14).rotateRight 8 ^^^ (at_ 14) >>> 7
    let s1 := (at_ 1).rotateRight 19 ^^^ (at_ 1).rotateRight 61 ^^^ (at_ 1) >>> 6
    shaExtend n ((at_ 15 + s0 + at_ 6 + s1) :: w)

/-- One round on the eight working words. -/
def shaRound (v : List Word) (kw : Word × Word) : List Word :=
  match v with
  | [a, b, c, d, e, f, g, h] =>
    let t1 := h + (e.rotateRight 14 ^^^ e.rotateRight 18 ^^^ e.rotateRight 41) + ((e &&& f) ^^^ (~~~ e &&& g)) + kw.1 + kw.2
    let t2 := (a.rotateRight 28 ^^^ a.rotateRight 34 ^^^ a.rotateRight 39) + ((a &&& b) ^^^ (a &&& c) ^^^ (b &&& c))
    [t1 + t2, a, b, c, d + t1, e, f, g]
  | l => l

/-- The hash value behind a block of 128 bytes. -/
def shaBlock (h : List Word) (block : List Byte) : List Word :=
  let w := (List.range 16).map fun i => BitVec.ofNat 64 (beNat ((block.drop (8 * i)).take 8))
  let ws := (shaExtend 64 w.reverse).reverse
  (h.zip ((shaK.zip ws).foldl shaRound h)).map fun p => p.1 + p.2

/-- SHA-512. -/
def sha512 (bs : List Byte) : List Byte :=
  let m := shaPad bs
  ((List.range (m.length / 128)).foldl (fun h i => shaBlock h ((m.drop (128 * i)).take 128)) shaInit).flatMap fun w => beBytes 8 w.toNat

/-! ## Ed25519 -/

def edP : Nat := 2 ^ 255 - 19
/-- The order of the base point. -/
def edL : Nat := 2 ^ 252 + 27742317777372353535851937790883648493

/-- b ^ e mod p, over `n` bits of e. -/
def edPow : Nat → Nat → Nat → Nat → Nat
  | 0, _, _, acc => acc
  | n + 1, b, e, acc => edPow n (b * b % edP) (e / 2) (if e % 2 = 1 then acc * b % edP else acc)

def edInv (x : Nat) : Nat := edPow 255 x (edP - 2) 1
def edSub (a b : Nat) : Nat := (a + edP - b % edP) % edP
/-- The curve constant −121665 ÷ 121666. -/
def edD : Nat := edSub 0 (121665 * edInv 121666)

/-- A point in extended coordinates. -/
structure EdPoint where
  x : Nat
  y : Nat
  z : Nat
  t : Nat
  deriving DecidableEq, Repr

def EdPoint.add (p q : EdPoint) : EdPoint :=
  let a := edSub p.y p.x * edSub q.y q.x % edP
  let b := (p.y + p.x) * (q.y + q.x) % edP
  let c := p.t * 2 * edD * q.t % edP
  let d := p.z * 2 * q.z % edP
  let e := edSub b a
  let f := edSub d c
  let g := (d + c) % edP
  let h := (b + a) % edP
  ⟨e * f % edP, g * h % edP, f * g % edP, e * h % edP⟩

/-- The multiple of a point, over `n` bits of the scalar. -/
def EdPoint.mul : Nat → Nat → EdPoint → EdPoint → EdPoint
  | 0, _, _, acc => acc
  | n + 1, k, p, acc => EdPoint.mul n (k / 2) (p.add p) (if k % 2 = 1 then acc.add p else acc)

def EdPoint.zero : EdPoint := ⟨0, 1, 1, 0⟩
def EdPoint.times (k : Nat) (p : EdPoint) : EdPoint := p.mul 256 k EdPoint.zero

def EdPoint.same (p q : EdPoint) : Bool := p.x * q.z % edP == q.x * p.z % edP && p.y * q.z % edP == q.y * p.z % edP

/-- The x coordinate of a point by its y and its low bit, none where there is none. -/
def edX (y sign : Nat) : Option Nat :=
  let u := edSub (y * y) 1
  let v := (edD * (y * y % edP) + 1) % edP
  let x2 := u * edInv v % edP
  if x2 = 0 then (if sign = 1 then none else some 0)
  else
    let x := edPow 255 x2 ((edP + 3) / 8) 1
    let x1 := if x * x % edP = x2 then x else x * edPow 255 2 ((edP - 1) / 4) 1 % edP
    if x1 * x1 % edP ≠ x2 then none else some (if x1 % 2 = sign then x1 else edP - x1)

/-- A point from its 32 bytes. -/
def edDecode (bs : List Byte) : Option EdPoint :=
  let n := leNat bs
  let y := n % 2 ^ 255
  if bs.length ≠ 32 || edP ≤ y then none else (edX y (n / 2 ^ 255)).map fun x => ⟨x, y, 1, x * y % edP⟩

def edBase : Option EdPoint :=
  let y := 4 * edInv 5 % edP
  (edX y 0).map fun x => ⟨x, y, 1, x * y % edP⟩

/-- Ed25519: a 64-byte signature of a message under a 32-byte key. -/
def ed25519 (key sig msg : List Byte) : Bool :=
  let s := leNat (sig.drop 32)
  match edDecode key, edDecode (sig.take 32), edBase with
  | some a, some r, some b =>
    let k := leNat (sha512 (sig.take 32 ++ key ++ msg)) % edL
    sig.length == 64 && decide (s < edL) &&
      (EdPoint.times 8 (EdPoint.times s b)).same (EdPoint.times 8 (r.add (EdPoint.times k a)))
  | _, _, _ => false

/-- Bytes signed over their SHA-512 hash under some key of a list (R272, R382). -/
def signedBy (keys : List (List Byte)) (sig bytes : List Byte) : Bool := keys.any fun k => ed25519 k sig (sha512 bytes)

end Sys2Proof.Machine
end

