-- ==== Sys2Proof/Machine/Service.lean ====
section
/-! DEFINITION. The service OS: calls and their records (R368 to R372), each call's own effect (R371, R373 to R376, R378),
leadership (R364 to R367), power (R377, R378), boot (R382) and the registers of BAR0 (R370). -/

namespace Sys2Proof

def CallReq.arg (r : CallReq) (i : Fin 6) : Word := r.args[i]
def CallReq.argN (r : CallReq) (i : Fin 6) : Nat := (r.args[i]).toNat
/-- The arguments from `i` on are zero. -/
def CallReq.zeroFrom (r : CallReq) (i : Nat) : Bool := (r.args.toList.drop i).all (· == 0)
def CallReq.pick (r : CallReq) (i : Nat) : Option Nat := r.choice[i]?

end Sys2Proof

namespace Sys2Proof.Machine

/-! ## Calls and their records (R366, R368 to R370, R372) -/

/-- The outcome of a call: its status and its result. A call that fails changes nothing else (R372). -/
abbrev CallOut := State × Nat × BitVec 256

/-- What a call's body does: it ends, or it must wait, and its record then stands as started (R369). -/
inductive CallRes where
  | done (o : CallOut)
  | wait (s : State)

def callFail (s : State) (st : Nat) : CallOut := (s, st, 0)
def callDone (s : State) (res : Nat) : CallOut := (s, 0, BitVec.ofNat 256 res)

/-- The number under which secure service firmware makes calls of its own; R368 gives it none (DESIGN CHOICE, log entry 61). -/
def firmwareCaller : Nat := 641

/-- The caller belongs to the secure world: secure service firmware, or a hearth runtime of a secure image (R381). -/
def State.callerSecure (s : State) (r : CallReq) : Bool :=
  if r.caller = firmwareCaller then true
  else if h : 1 ≤ r.caller ∧ r.caller ≤ 640 then (s.hearth ⟨r.caller - 1, by omega⟩).sec else false

/-- The record of a sequence number that the caller has used, if it is kept (R368). -/
def Service.callRec (v : Service) (caller : Nat) (seq : Word) : Option CallRec :=
  v.calls.find? fun c => c.caller == caller && c.seq == seq

/-- The latest 4,096 records of a caller are kept (R368, R369). -/
def keepCalls (caller : Nat) (l : List CallRec) : List CallRec :=
  let mine := l.filter fun c => c.caller == caller
  l.filter fun c => c.caller != caller ||
    decide ((mine.filter fun d => decide (c.seq.toNat < d.seq.toNat)).length < Config.callRecords)

/-- What a call leaves: the state, and its status and result once it has ended. -/
abbrev Performed := State × Option (Nat × BitVec 256)

/-- The record of a call, started or committed. -/
def State.putCall (s : State) (r : CallReq) (c : CallRec) : State :=
  let rest := s.svc.calls.filter fun d => !(d.caller == r.caller && d.seq == r.seq)
  { s with svc := { s.svc with calls := keepCalls r.caller (rest ++ [c]) } }

/-- Bytes that the access of an instruction takes from the address of its fault on (R75, R111, R115). -/
def accessBytes : Instr → Nat
  | .load w _ _ _ => w.bytes
  | .store w _ _ _ => w.bytes
  | .amo a => if a.dw then 8 else 4
  | .kAmocAdd a | .kAmocSwap a | .kAmocCas a | .kAmocOr a | .kAmocAnd a | .kAmocMin a | .kAmocMax a => if a.dw then 8 else 4
  | _ => 64

/-- A byte of an access of `n` bytes under an agent lies in a page that is being migrated, be it through the leaf that moves or through
another one of the same frame (R253). -/
def State.touches (s : State) (m : Move) (ag : Agent) (a : Word) (n : Nat) : Bool :=
  (List.range n).any fun i =>
    match s.leaf ag (a + BitVec.ofNat 64 i) with
    | .error _ => false
    | .ok (e, sh) =>
      let p := leafPlace (ownerOf (a + BitVec.ofNat 64 i)) e sh (a + BitVec.ofNat 64 i)
      decide (m.key ≤ physKey p.1 p.2) && decide (physKey p.1 p.2 < m.key + m.bytes)

/-- The instruction at which a context of a hearth, or of a saved state of one, is held. -/
def Hearth.heldInstr (x : Hearth) (k : Ctx) : Instr :=
  let code := if x.imem.isEmpty then (x.img.map Image.imem).getD [] else x.imem
  decodeScalar (BitVec.ofNat 32 (leNat (code.bytes k.pc.toNat 4)))

/-- The accesses of a hearth that a migration holds go on; the spec's page may be reached from any address space (R253). `s` is the state
before the switch. -/
def Hearth.letGo (x : Hearth) (s : State) (m : Move) : Hearth :=
  { x with
    cmds := x.cmds.map fun c =>
      if (c.hold.map fun a => s.touches m ⟨x.asid, !c.priv, x.sec⟩ a 1).getD false then { c with hold := none } else c,
    ctxs := x.ctxs.map fun k =>
      if k.st == .held && (k.fault.map fun f => !f.trap && s.touches m (x.agent k) f.addr (accessBytes (x.heldInstr k))).getD false then
        { k with st := .running, fault := none }
      else k }

/-- A migration is over: held accesses resume, and side-log entries replay (R253). `old` is the state before the switch, in which the
accesses were held. -/
def State.endMove (s old : State) (caller : Nat) (seq : Word) : State :=
  match s.svc.moving.find? fun m => m.caller == caller && m.seq == seq with
  | none => s
  | some m =>
    let s1 := { s with
      svc := { s.svc with moving := s.svc.moving.filter fun x => !(x.caller == caller && x.seq == seq) },
      hearths := s.hearths.map fun x => x.letGo old m, saved := s.saved.map fun p => (p.1, p.2.letGo old m) }
    (List.finRange 640).foldl (fun t h => if (t.hearth h).sideLog.isEmpty then t else t.replayLog h (t.hearth h).sideLog []) s1

/-- What a call's body comes to, under its record: started where it waits, committed where it has ended (R369). -/
def State.endCall (s : State) (no : Nat) (r : CallReq) (o : CallRes) : Performed :=
  let record (done : Bool) (st tick : Nat) (res : BitVec 256) : CallRec :=
    { caller := r.caller, seq := r.seq, callno := no, committed := done, status := st, tick := tick, result := res, args := r.args, choice := r.choice }
  match o with
  | .wait t => (t.putCall r (record false 0 0 0), none)
  | .done (t, st, res) =>
    (((if st = 0 then t else s).putCall r (record true st s.tick res)).endMove s r.caller r.seq, some (st, res))

/-- Runs a non-idempotent call by its sequence number (R369): executed and committed, answered from its record, or stale. A body
that must wait leaves the record started. A call that fails changes nothing else (R372). -/
def State.runN (s : State) (no : Nat) (r : CallReq) (body : State → CallRes) : Performed :=
  if r.seq = 0 then (s, some (1, 0))
  else
    match s.svc.callRec r.caller r.seq with
    | some c => if c.committed then (s, some (c.status, c.result)) else s.endCall no r (body s)
    | none =>
      if s.svc.calls.all fun c => c.caller != r.caller || decide (c.seq.toNat < r.seq.toNat) then s.endCall no r (body s)
      else (s, some (2, 0))

/-- Runs an idempotent call, which carries no sequence number and leaves no record (R369, R371). -/
def State.runI (s : State) (r : CallReq) (body : State → CallOut) : Performed :=
  if r.seq ≠ 0 then (s, some (1, 0)) else let o := body s; (o.1, some o.2)

/-! ### Naming queues, worlds and pages -/

/-- The work queue that an argument names: a bad call, a queue that does not exist, or one of a world the caller may not
name. -/
def State.queueArg (s : State) (r : CallReq) (a : Word) : Except Nat (Fin 2048) :=
  if 2048 ≤ a.toNat then .error 1
  else
    let q : Fin 2048 := Fin.ofNat 2048 a.toNat
    if !(s.queues[q]).live then .error 6
    else if (s.queues[q]).sec && !s.callerSecure r then .error 5
    else .ok q

/-- A hearth that an argument names. -/
def hearthArg (a : Word) : Except Nat (Fin 640) := if h : a.toNat < 640 then .ok ⟨a.toNat, h⟩ else .error 6

/-! ## Images (R98, R100, R371) -/

/-- A little-endian field of an image file. -/
def fileN (a : Array Byte) (off n : Nat) : Nat := leNat ((List.range n).map fun i => (a[off + i]?).getD 0)

def round8 (n : Nat) : Nat := (n + 7) / 8 * 8

/-- A substitution descriptor of the file, none when it is malformed (R100). -/
def parseDesc (slot0 : Nat) (cmds : List CmdWord) (d : Word) : Option Desc :=
  let slot := bitsN d 0 13
  let p0 := bitsN d 16 4
  let p1 := bitsN d 20 4
  match cmds[slot - slot0]? with
  | none => none
  | some w =>
    let f := CmdF.ofWord w
    let ok (p : Nat) : Bool := match p with
      | 0 => true
      | 1 => f.imm == 0
      | 2 => bitsN f.wait 8 20 == 0 && bitsN f.wait 28 2 == 0 && (condMode f.wait == 1 || condMode f.wait == 2)
      | 3 => bitsN f.sig 8 20 == 0 && bitsN f.sig 28 2 == 0 && (condMode f.sig == 1 || condMode f.sig == 3)
      | _ =>
        if p < 8 then f.kind (p - 4) == 3 && f.pay (p - 4) / 32 == 0
        else if p < 12 then f.kind (p - 8) == 8 && f.pay (p - 8) == 0
        else false
    if bitsN d 24 40 ≠ 0 || bitsN d 13 3 ≠ 0 || slot < slot0 || (p0 = 0 && p1 = 0) || (p0 = p1) || !ok p0 || !ok p1 then none
    else some ⟨slot, p0, p1⟩

/-- A grant entry of the file (R100). -/
def parseGrant (codeLen : Nat) (g : BitVec 128) : Option Grant :=
  let len := bitsN g 96 22
  let at_ := bitsN g 64 21
  let hoff := bitsN g 32 18
  let hnd := bit g 27
  let hany := bit g 26
  let cany := bit g 10
  let h := bitsN g 16 10
  let c := bitsN g 0 10
  if bitsN g 118 10 ≠ 0 || bitsN g 85 11 ≠ 0 || bitsN g 50 14 ≠ 0 || bitsN g 28 4 ≠ 0 || bitsN g 11 5 ≠ 0 || len % 64 ≠ 0 || len = 0 ||
      at_ % 64 ≠ 0 || Config.scratchBytes < at_ + len || (if hnd then hoff % 4 ≠ 0 || codeLen ≤ hoff else hoff ≠ 0) ||
      (if hany then h ≠ 0 else 640 ≤ h) || (cany && c ≠ 0) then none
  else some ⟨if cany then none else some c, if hany then none else some h, if hnd then some hoff else none, at_, len⟩

/-- The data records from a file offset on, none when one is malformed, its padding is not zero, or the file is too short (R100). -/
def parseData (a : Array Byte) : Nat → Nat → Option (List (Nat × List Byte) × Nat)
  | 0, off => some ([], off)
  | n + 1, off =>
    let h : Word := BitVec.ofNat 64 (fileN a off 8)
    let len := bitsN h 32 22
    let at_ := bitsN h 0 21
    let pad := (List.range (round8 len - len)).any fun i => (a[off + 8 + len + i]?).getD 0 != 0
    if pad || a.size < off + 8 + round8 len || bitsN h 54 10 ≠ 0 || bitsN h 21 11 ≠ 0 || len = 0 || Config.scratchBytes < at_ + len then none
    else
      match parseData a n (off + 8 + round8 len) with
      | none => none
      | some (l, e) => some ((at_, (List.range len).map fun i => (a[off + 8 + i]?).getD 0) :: l, e)

/-- No two data records cover one scratchpad byte (R16, R100). -/
def dataApart (l : List (Nat × List Byte)) : Bool :=
  l.zipIdx.all fun p => l.zipIdx.all fun q => decide (p.2 = q.2) || decide (p.1.1 + p.1.2.length ≤ q.1.1) ||
    decide (q.1.1 + q.1.2.length ≤ p.1.1)

/-- Values that rise strictly. -/
def rises : List Nat → Bool
  | a :: b :: l => decide (a < b) && rises (b :: l)
  | _ => true

/-- An image file under a work queue: the image, or the error of its first breach, the version first (R98, R100). Three points the
spec leaves open (DESIGN CHOICE, log entry 60): a file that has no whole header is refused as a malformed image, its version unread;
the gap between a code section and the command words may hold anything; and so may bytes behind the last data record. -/
def parseImage (bs : List Byte) (id : Nat) (wq : Fin 2048) (sec : Bool) : Except Nat Image :=
  let a := bs.toArray
  let h : BitVec 512 := BitVec.ofNat 512 (fileN a 0 64)
  if a.size < 64 then .error 9
  else if bitsN h 0 16 ≠ 1 then .error 8
  else
    let codeLen := bitsN h 32 32
    let ncmd := bitsN h 108 14
    let nsub := bitsN h 122 14
    let ngr := bitsN h 136 8
    let oCmd := 64 + round8 codeLen
    let oSub := oCmd + 32 * ncmd
    let oGr := oSub + 8 * nsub
    let oData := oGr + 16 * ngr
    let slot0 := (codeLen + 31) / 32
    let trapen := bit h 82
    let trapoff := bitsN h 64 18
    if bitsN h 160 352 ≠ 0 || bitsN h 84 24 ≠ 0 || bitsN h 16 16 ≠ 1 || codeLen % 4 ≠ 0 || codeLen = 0 || 8192 < ncmd || ncmd < nsub ||
        32 < ngr || Config.imemBytes < codeLen + 32 * ncmd || Config.imemBytes < 32 * (slot0 + ncmd) || a.size < oData ||
        (if trapen then trapoff % 4 ≠ 0 || codeLen ≤ trapoff else trapoff ≠ 0) then .error 9
    else
      let code := (List.range codeLen).map fun i => (a[64 + i]?).getD 0
      let cmds := (List.range ncmd).map fun i => BitVec.ofNat 256 (fileN a (oCmd + 32 * i) 32)
      let descs := (List.range nsub).mapM fun i => parseDesc slot0 cmds (BitVec.ofNat 64 (fileN a (oSub + 8 * i) 8))
      let grants := (List.range ngr).mapM fun i => parseGrant codeLen (BitVec.ofNat 128 (fileN a (oGr + 16 * i) 16))
      match descs, grants, parseData a (bitsN h 144 16) oData with
      | some ds, some gs, some (data, _) =>
        if !rises (ds.map (·.slot)) || !dataApart data then .error 9
        else .ok { id := id, wq := wq, sec := sec, lmtrap := bit h 83, trapOff := if trapen then some trapoff else none, code := code,
                   cmds := cmds, descs := ds, grants := gs, data := data }
      | _, _, _ => .error 9

/-- The lowest number from `lo` on, below lo + n, that a list lacks; the service OS's own pick goes first where it is free. -/
def freeNumber (used : List Nat) (pick : Option Nat) (lo n : Nat) : Option Nat :=
  let ok (i : Nat) : Bool := decide (lo ≤ i) && decide (i < lo + n) && !used.contains i
  match pick with
  | some i => if ok i then some i else (List.range' lo n).find? ok
  | none => (List.range' lo n).find? ok

/-- IMAGE_REGISTER's body. -/
def callImageRegister (r : CallReq) (s : State) : CallOut :=
  if !r.zeroFrom 3 then callFail s 1
  else
    match s.queueArg r (r.arg 2) with
    | .error e => callFail s e
    | .ok q =>
      match freeNumber (s.svc.images.map (·.id)) (r.pick 0) 1 65535, s.unitRead (s.queueAgent q) (r.arg 0) (r.argN 1) with
      | none, _ => callFail s 7
      | some _, none => callFail s 9
      | some id, some bs =>
        match parseImage bs id q (s.queues[q]).sec with
        | .error e => callFail s e
        | .ok im => callDone { s with svc := { s.svc with images := s.svc.images ++ [im] } } id

/-- Records that have not ended use an image. -/
def State.imageUsed (s : State) (i : Image) : Bool :=
  s.qm.recs.any fun r => r.wq == i.wq && recImage (s.recWord r) == i.id

/-- IMAGE_UNREGISTER's body. -/
def callImageUnregister (r : CallReq) (s : State) : CallOut :=
  if !r.zeroFrom 1 || 65536 ≤ r.argN 0 then callFail s 1
  else
    match s.svc.images.find? fun i => i.id == r.argN 0 with
    | none => callFail s 6
    | some i =>
      if i.sec && !s.callerSecure r then callFail s 5
      else if s.imageUsed i then callFail s 3
      else callDone { s with svc := { s.svc with images := s.svc.images.filter fun x => x.id != i.id } } 0

/-! ## Queues (R350, R371, R373 to R375, R381) -/

/-- QUEUE_CREATE's body. A queue that exists is busy unless it has been torn down and no unfinished record is left; its address space
begins without mappings (DESIGN CHOICE, log entry 62). The leader interprets its graphs (R308). -/
def callQueueCreate (r : CallReq) (s : State) : CallOut :=
  let a2 := r.arg 2
  let n := bitsN a2 0 5
  let vec := bitsN a2 8 7
  let sec := bit a2 16
  if !r.zeroFrom 3 || 2048 ≤ r.argN 0 || bitsN a2 5 3 ≠ 0 || bit a2 15 || bitsN a2 17 47 ≠ 0 then callFail s 1
  else if n < 4 || 16 < n || 63 < vec || r.argN 1 % 64 ≠ 0 then callFail s 4
  else if sec && !s.callerSecure r then callFail s 5
  else
    let q : Fin 2048 := Fin.ofNat 2048 (r.argN 0)
    if (s.queues[q]).live && (!(s.queues[q]).torn || s.qm.recs.any fun x => x.wq == q) then callFail s 3
    else
      let others := s.queues.toList.zipIdx.filterMap fun p => if p.1.live && p.2 != q.val then some p.1.asid else none
      match freeNumber others (r.pick 0) 0 Config.asids with
      | none => callFail s 7
      | some asid =>
        callDone ({ s with roots := s.roots.filter fun x => x.asid != some asid }.setQueue q
          { WorkQueue.reset with live := true, asid := asid, ring := r.argN 1, n := n, vec := vec, sec := sec, pair := s.svc.leader }) asid

/-- A hearth without one record: the contexts that run it are free, and its commands and its logged writes are gone; a stopped
hearth's held list goes with them (R226, R283, R373, R374). -/
def Hearth.discard (x : Hearth) (run : RunRec) : Hearth :=
  let mine (q : Nat) : Bool := x.cmds.any fun c => c.seq == q && c.run == run
  { x with
    cmds := x.cmds.filter fun c => c.run != run,
    sideLog := x.sideLog.filter fun e => !mine e.seq,
    hob := { x.hob with held := [] },
    ctxs := x.ctxs.map fun k =>
      if k.run = run then { k with st := .free, wait := .none, run := .none, resv := none, pend := [], fault := none } else k }

/-- The record has a context or a command on the hearth. -/
def Hearth.runs (x : Hearth) (run : RunRec) : Bool := x.ctxs.any (fun k => k.run == run) || x.cmds.any fun c => c.run == run

/-! ### Peer transfers in granules (R225, R374) -/

/-- The scratchpad granules that a transfer writes. -/
def xferGranules (x : Xfer) : List Nat :=
  if x.data.isEmpty then [] else List.range' (x.roff / 64) ((x.roff + x.data.length - 1) / 64 - x.roff / 64 + 1)

/-- The bytes of a transfer that lie in a granule are written (R225). -/
def Hearth.putGranule (y : Hearth) (x : Xfer) (g : Nat) : Hearth :=
  let lo := max (64 * g) x.roff
  let hi := min (64 * g + 64) (x.roff + x.data.length)
  y.scratchStore lo ((x.data.drop (lo - x.roff)).take (hi - lo)) none

/-- A transfer stops: the 512-byte chunk that it was writing is completed, and the rest never comes (R374). -/
def Hearth.stopIncoming (y : Hearth) (i : Incoming) : Hearth :=
  let begun (g : Nat) : Bool := (xferGranules i.x).any fun k => k / 8 == g / 8 && !i.left.contains k
  (i.left.filter begun).foldl (fun z g => z.putGranule i.x g) y

/-- Transfers of some kind are gone from a hearth's port, and stopped where they were arriving. -/
def Hearth.dropIncoming (y : Hearth) (dead : Xfer → Bool) : Hearth :=
  let z := (y.arriving.filter fun i => dead i.x).foldl Hearth.stopIncoming y
  { z with port := y.port.filter fun x => !dead x, arriving := y.arriving.filter fun i => !dead i.x }

/-- A command of a record sent the transfer. -/
def Hearth.sent (y : Hearth) (h : Nat) (x : Xfer) (run : RunRec) : Bool :=
  x.shearth == h && x.sepoch == y.epoch && y.cmds.any fun c => x.sseq == some c.seq && c.run == run

/-- Transfers that a discarded record's commands have on their way are stopped; their flags and handlers never occur (R374). -/
def State.dropXfers (s : State) (run : RunRec) : State :=
  let dead (x : Xfer) : Bool := x.schip == s.links.chip &&
    (s.hearths.toList.zipIdx.any (fun p => p.1.sent p.2 x run) || s.saved.any fun p => p.2.sent p.1.val x run)
  { s with links := { s.links with wire := s.links.wire.filter fun x => !dead x },
           hearths := s.hearths.map fun y => y.dropIncoming dead,
           saved := s.saved.map fun p => (p.1, p.2.dropIncoming dead) }

/-- A record of a torn-down queue is taken off whatever runs it, or has been saved while it ran it. -/
def State.discardRun (s : State) (q : Fin 2048) (addr : Word) : State :=
  let run := RunRec.task addr q
  let s1 := s.dropXfers run
  { s1 with
    hearths := s1.hearths.map fun x => if x.runs run then x.discard run else x,
    saved := s1.saved.map fun p => (p.1, if p.2.runs run then p.2.discard run else p.2) }

/-- What runs is a record of a work queue. -/
def RunRec.ofQueue (r : RunRec) (q : Fin 2048) : Bool := match r with
  | .task _ p => p == q
  | _ => false

/-- A record of a queue has a context or a command on the hearth. -/
def Hearth.runsQueue (x : Hearth) (q : Fin 2048) : Bool :=
  x.ctxs.any (fun k => k.run.ofQueue q) || x.cmds.any fun c => c.run.ofQueue q

/-- A record that runs, on a hearth or on a cirrus engine. -/
def RecRef.running (r : RecRef) : Bool := r.qst == 1 && !r.failing

/-- Some records of a queue end cancelled (R304, R305, R373). -/
def State.cancelRecs (s : State) (q : Fin 2048) (sel : RecRef → Bool) : State :=
  let mine := s.qm.recs.filter fun r => r.wq == q && sel r
  let cancel (r : RecRef) : RecRef := if r.wq = q && sel r then { r with qst := 5, failing := false } else r
  let s1 := { s with qm := { s.qm with recs := s.qm.recs.map cancel } }
  mine.foldl (fun t r => match t.refOf q r.addr with
    | none => t
    | some x => t.endRecord x 5) s1

/-- Some nodes of a queue's graphs end cancelled, and the graphs whose every node has ended are completed to the host (R308, R373). -/
def State.cancelNodes (s : State) (q : Fin 2048) (sel : Node → Bool) : State :=
  let cancel (n : Node) : Node := if n.fin.isNone && sel n then { n with fin := some 5, finAt := s.cycle } else n
  (s.qm.graphs.filter fun g => g.wq == q).foldl (fun t g => t.graphCheck { g with nodes := g.nodes.map cancel }) s

/-- Teardown commits: from now on doorbells are ignored, and every record that does not run ends cancelled, and every node without a
record (R373). -/
def State.tearIdle (s : State) (q : Fin 2048) : State :=
  ((s.setQueue q { s.queues[q] with torn := true }).cancelRecs q fun r => !r.running).cancelNodes q fun n => n.recAt.isNone

/-- The hearths that run records of the queue are pre-empted to their stops, and its tasks on the cirrus engines read no further page
(R328, R373, R374). -/
def State.tearHalt (s : State) (q : Fin 2048) : State :=
  let stop (t : Task) : Task := if t.wq = q then { t with parts := t.parts.map fun _ => [] } else t
  { s with
    hearths := s.hearths.map fun x => if x.runsQueue q && !x.idle then { x with halting := true, purge := some q } else x,
    cirrus := { s.cirrus with tasks := (s.cirrus.tasks.map stop).filter fun t => !(t.wq == q && t.held.isEmpty) } }

/-- Everything that runs a record of the queue stands at its stop. -/
def State.tearReady (s : State) (q : Fin 2048) : Bool :=
  s.hearths.all (fun x => !x.runsQueue q || (x.halted || x.purge == some q && x.cmds.all x.atStop)) &&
    s.cirrus.tasks.all fun t => t.wq != q

/-- A hearth that has stopped for a teardown goes on: its contexts are restored (R328, R373). -/
def Hearth.release (x : Hearth) (q : Fin 2048) : Hearth :=
  if x.purge = some q then { x with halting := false, purge := none, ctxs := x.ctxs.map fun k => k.restore id } else x

/-- The running records of the queue are taken off what runs them and end cancelled; the hearths go on, where queued arrivals take the
contexts that have become free (R235, R373, R374). -/
def State.tearEnd (s : State) (q : Fin 2048) : State :=
  let mine := s.qm.recs.filter fun r => r.wq == q
  let hs := (List.finRange 640).filter fun h => (s.hearth h).purge == some q
  let s1 := mine.foldl (fun t r => t.discardRun q r.addr) s
  let s2 := { s1 with hearths := s1.hearths.map fun (x : Hearth) => x.release q }
  let s3 := hs.foldl (fun t h => t.takeQueued h 4) s2
  (s3.cancelRecs q fun _ => true).cancelNodes q fun _ => true

/-- The part of a teardown that can be done now, and whether it is over: every record of the queue has ended, and every graph's completion
record is written (R373, R374). -/
def State.teardown (s : State) (q : Fin 2048) : State × Bool :=
  let t := (s.tearIdle q).tearHalt q
  let u := if t.tearReady q then t.tearEnd q else t
  (u, u.qm.recs.all (fun r => r.wq != q) && u.qm.graphs.all fun g => g.wq != q)

/-- QUEUE_TEARDOWN's body. It waits while something of the queue comes to its stop, and while a page of its address space is being
migrated. -/
def callQueueTeardown (r : CallReq) (s : State) : CallRes :=
  if !r.zeroFrom 1 then .done (callFail s 1)
  else match s.queueArg r (r.arg 0) with
    | .error e => .done (callFail s e)
    | .ok q =>
      if s.queueMoving q then .wait s
      else
        let t := s.teardown q
        if t.2 then .done (callDone t.1 0) else .wait t.1

/-- QUEUE_RESET's body (R375). -/
def callQueueReset (r : CallReq) (s : State) : CallRes :=
  if !r.zeroFrom 1 then .done (callFail s 1)
  else match s.queueArg r (r.arg 0) with
    | .error e => .done (callFail s e)
    | .ok q =>
      if s.queueMoving q then .wait s
      else
        let t := s.teardown q
        if t.2 then .done (callDone (t.1.setQueue q { t.1.queues[q] with torn := false, head := 0, dbell := 0 }) 0) else .wait t.1

/-- QUEUE_ERRORS's body. -/
def callQueueErrors (r : CallReq) (s : State) : CallOut :=
  if !r.zeroFrom 1 then callFail s 1
  else match s.queueArg r (r.arg 0) with
    | .error e => callFail s e
    | .ok q => callDone s ((s.queues[q]).ignored % 2 ^ 32 + (s.queues[q]).noCompletion % 2 ^ 32 * 2 ^ 32)

/-! ## Mappings (R232, R253, R320, R321, R324, R371) -/

/-- The page-offset bits of a page size code. -/
def pageBits (sz : Nat) : Nat := if sz = 0 then 16 else if sz = 1 then 21 else 30

/-- The levels that lead to a leaf of a size. -/
def levelsTo (sh : Nat) : List (Nat × Nat) := walkLevels.filter fun l => decide (sh < l.1)

/-- Index bits of the level whose entries map pages of a size. -/
def leafBits (sh : Nat) : Nat := if sh = 16 then 5 else 9

/-- Bytes of a table whose entries index with `n` bits. -/
def tableBytes (n : Nat) : Nat := 8 * 2 ^ n

/-- A fresh table of zeros at a physical address. -/
def State.zeroTable (s : State) (owner : Fin 5) (p n : Nat) : State :=
  s.setMem (s.mem.filter fun c => decide (c.1 < physKey owner p) || decide (physKey owner p + n ≤ c.1))

/-- The entry that a mapping of a page occupies, with the tables above it made where they lack; none when a larger leaf is in
the way. `tabs` are the frames that the service OS picked for new tables. -/
def State.leafSlot (s : State) (owner : Fin 5) (a : Word) (sh table : Nat) : List (Nat × Nat) → List Nat → Option (State × Nat)
  | [], _ => some (s, table + 8 * bitsN a sh (leafBits sh))
  | (lo, n) :: rest, tabs =>
    let at_ := table + 8 * bitsN a lo n
    let e := tableEntry s.mem owner at_
    let below := match rest with
      | [] => leafBits sh
      | (_, m) :: _ => m
    if !bit e 0 then
      let p := (tabs.headD 0) / 65536 * 65536 % spaceBytes owner
      let s1 := (s.zeroTable owner p (tableBytes below)).putEntry owner at_ (BitVec.ofNat 64 (p + 1))
      State.leafSlot s1 owner a sh p rest tabs.tail
    else if bit e 1 then none
    else State.leafSlot s owner a sh (bitsN e 16 32 * 65536) rest tabs

/-- Bytes that a holder has pinned with one more page, whose leaf's own pin does not count: each page once, and only pins that still stand
(R232). -/
def State.pinned (s : State) (home holder : Nat) (leaf : Nat × Word) (key bytes : Nat) : Nat :=
  let others := s.pins.filter fun p => p.home == home && p.holder == holder && p.leaf != some leaf && s.pinLive p
  ((((key, bytes) :: others.map fun p => (p.key, p.bytes)).eraseDups).map (·.2)).sum

/-- A pinned home has a holder that exists and that the page suits, and room for the page; the error otherwise. -/
def State.pinRefused (s : State) (owner : Nat) (home holder : Nat) (leaf : Nat × Word) (key bytes : Nat) : Option Nat :=
  match home with
  | 1 => if 640 ≤ holder then some 4 else if 524288 < s.pinned 1 holder leaf key bytes then some 7 else none
  | 2 => if 32 ≤ holder || holder / 8 ≠ owner then some 4 else if 67108864 < s.pinned 2 holder leaf key bytes then some 7 else none
  | _ => if holder = 0 then none else some 1

/-- The pins with a leaf's own replaced. -/
def State.setPin (s : State) (home holder : Nat) (leaf : Nat × Word) (key bytes : Nat) : State :=
  let rest := s.pins.filter fun p => p.leaf != some leaf
  { s with pins := if home = 1 || home = 2 then rest ++ [⟨some leaf, key, bytes, home, holder⟩] else rest }

/-- A leaf of a queue's address space, by the first address that it maps. -/
def State.leafName (s : State) (q : Fin 2048) (a : Word) (sh : Nat) : Nat × Word :=
  ((s.queues[q]).asid, BitVec.ofNat 64 (a.toNat / 2 ^ sh * 2 ^ sh))

/-- A virtual address that a queue's mapping may name: canonical, of the non-privileged half, of an owner that translates. -/
def mapAddrOk (a : Word) (sh : Nat) : Bool := canonical a && !bit a 56 && decide (ownerOf a < 5) && a.toNat % 2 ^ sh == 0

/-- A leaf entry (R321). -/
def leafEntry (home tgt chip pa : Nat) (u w rd : Bool) : Word :=
  BitVec.ofNat 64 (3 + (if rd then 4 else 0) + (if w then 8 else 0) + (if u then 16 else 0) + pa % 2 ^ 48 / 65536 * 65536 +
    chip % 1024 * 2 ^ 50 + tgt % 4 * 2 ^ 60 + home % 4 * 2 ^ 62)

/-- MAP's body. The picks of the service OS are the frame of a local or peer page, the root where the address space has none
at the owner, and then the new tables. -/
def callMap (r : CallReq) (s : State) : CallOut :=
  let a := r.arg 1
  let m := r.arg 2
  let sz := bitsN m 0 2
  let home := bitsN m 4 2
  let tgt := bitsN m 6 2
  let chip := bitsN m 8 10
  let sh := pageBits sz
  if !r.zeroFrom 5 || bitsN m 2 2 ≠ 0 || bitsN m 18 2 ≠ 0 || bitsN m 23 41 ≠ 0 || (tgt ≠ 1 && chip ≠ 0) ||
      (tgt < 2 && r.arg 3 ≠ 0) then callFail s 1
  else if sz = 3 || !mapAddrOk a sh || r.argN 3 % 2 ^ sh ≠ 0 || 2 ^ 48 ≤ r.argN 3 then callFail s 4
  else
    match s.queueArg r (r.arg 0) with
    | .error e => callFail s e
    | .ok q =>
      let asid := some (s.queues[q]).asid
      let owner : Fin 5 := Fin.ofNat 5 (ownerOf a)
      let pa := if tgt = 0 then (r.pick 0).getD 0 / 2 ^ sh * 2 ^ sh % spaceBytes owner
        else if tgt = 1 then (r.pick 0).getD 0 / 2 ^ sh * 2 ^ sh % 2 ^ 48 else r.argN 3
      let e := leafEntry home tgt chip pa (bit m 20) (bit m 21) (bit m 22)
      let place := leafPlace owner e sh a
      let key := physKey place.1 place.2
      match s.pinRefused owner home (r.argN 4) (s.leafName q a sh) key (2 ^ sh) with
      | some st => callFail s st
      | none =>
        let root := s.rootOf ⟨asid, false, true⟩ a
        let rp := root.getD ((r.pick 1).getD 0 / 65536 * 65536 % spaceBytes owner)
        let s1 := if root.isSome then s else (s.zeroTable owner rp (tableBytes 13)).setRoot owner asid (some rp)
        let tabs := r.choice.drop (if root.isSome then 1 else 2)
        match s1.leafSlot owner a sh rp (levelsTo sh) tabs with
        | none => callFail s 4
        | some (t, at_) => callDone ((t.putEntry owner at_ e).setPin home (r.argN 4) (s.leafName q a sh) key (2 ^ sh)) 0

/-- The leaf that maps an address of a queue: where its entry lies, the entry, and its page-offset bits. -/
def State.mapping (s : State) (q : Fin 2048) (a : Word) : Option (Nat × Word × Nat) :=
  match s.rootOf ⟨some (s.queues[q]).asid, false, true⟩ a with
  | none => none
  | some t => leafAt s.mem (ownerOf a) a walkLevels t

/-- The page of a key is being migrated. -/
def State.isMoving (s : State) (key : Nat) : Bool := s.svc.moving.any fun m => m.key == key

/-- UNMAP's body: the leaf becomes invalid (R324). It waits for a migration of the page (log entry 63). -/
def callUnmap (r : CallReq) (s : State) : CallRes :=
  let a := r.arg 1
  if !r.zeroFrom 2 then .done (callFail s 1)
  else if !mapAddrOk a 0 then .done (callFail s 4)
  else
    match s.queueArg r (r.arg 0) with
    | .error e => .done (callFail s e)
    | .ok q =>
      match s.mapping q a with
      | none => .done (callFail s 6)
      | some (at_, e, sh) =>
        let owner : Fin 5 := Fin.ofNat 5 (ownerOf a)
        let key := pageKey owner e sh
        if s.isMoving key then .wait s else .done (callDone ((s.putEntry owner at_ 0).setPin 0 0 (s.leafName q a sh) key 0) 0)

/-- SET_HOME's body (R232). It waits for a migration of the page (log entry 63). -/
def callSetHome (r : CallReq) (s : State) : CallRes :=
  let a := r.arg 1
  let home := r.argN 2
  if !r.zeroFrom 4 || 4 ≤ home then .done (callFail s 1)
  else if !mapAddrOk a 0 then .done (callFail s 4)
  else
    match s.queueArg r (r.arg 0) with
    | .error e => .done (callFail s e)
    | .ok q =>
      match s.mapping q a with
      | none => .done (callFail s 6)
      | some (at_, e, sh) =>
        let owner : Fin 5 := Fin.ofNat 5 (ownerOf a)
        let key := pageKey owner e sh
        match s.pinRefused owner home (r.argN 3) (s.leafName q a sh) key (2 ^ sh) with
        | some st => .done (callFail s st)
        | none =>
          if s.isMoving key then .wait s
          else .done (callDone ((s.putEntry owner at_ (putN e 62 2 home)).setPin home (r.argN 3) (s.leafName q a sh) key (2 ^ sh)) 0)

/-- The memory with `n` bytes copied from one place to another. -/
def Mem.copy (m : Mem) (src dst n : Nat) : Mem :=
  let moved := (m.filter fun c => decide (src ≤ c.1) && decide (c.1 < src + n)).map fun c => (c.1 - src + dst, c.2)
  m.filter (fun c => c.1 < dst) ++ (moved ++ m.filter (fun c => dst + n ≤ c.1))

/-- The pin of a leaf moves with its page. -/
def State.movePin (s : State) (leaf : Nat × Word) (new : Nat) : State :=
  { s with pins := s.pins.map fun p => if p.leaf = some leaf then { p with key := new } else p }

/-- The page of a call is copied and its leaf switched at one point; its address stays (R253). -/
def State.movePage (s : State) (owner : Fin 5) (leaf : Nat × Word) (at_ : Nat) (e : Word) (sh tgt pa : Nat) : State :=
  let e1 := putN (putN (putN e 16 32 (pa / 65536)) 60 2 tgt) 50 10 0
  let old := pageKey owner e sh
  let new := pageKey owner e1 sh
  ((s.setMem (s.mem.copy old new (2 ^ sh))).putEntry owner at_ e1).movePin leaf new

/-- MIGRATE's body (R253): first the page is held, and the call goes on waiting; when it is performed again, the page moves, and its end
lets the held accesses go on. -/
def callMigrate (r : CallReq) (s : State) : CallRes :=
  let a := r.arg 1
  let tgt := r.argN 2
  if !r.zeroFrom 4 || 4 ≤ tgt || (tgt = 0 && r.arg 3 ≠ 0) then .done (callFail s 1)
  else if !mapAddrOk a 0 || tgt = 1 || 2 ^ 48 ≤ r.argN 3 then .done (callFail s 4)
  else
    match s.queueArg r (r.arg 0) with
    | .error e => .done (callFail s e)
    | .ok q =>
      match s.mapping q a with
      | none => .done (callFail s 6)
      | some (at_, e, sh) =>
        if tgt ≠ 0 && r.argN 3 % 2 ^ sh ≠ 0 then .done (callFail s 4)
        else
          let owner : Fin 5 := Fin.ofNat 5 (ownerOf a)
          let key := pageKey owner e sh
          let own (m : Move) : Bool := m.caller == r.caller && m.seq == r.seq
          if s.svc.moving.any fun m => own m && m.key == key then
            let pa := if tgt = 0 then (r.pick 0).getD 0 / 2 ^ sh * 2 ^ sh % spaceBytes owner else r.argN 3
            .done (callDone (s.movePage owner (s.leafName q a sh) at_ e sh tgt pa) 0)
          else if s.isMoving key then .wait s
          else
            let m : Move := ⟨r.caller, r.seq, key, 2 ^ sh, (s.queues[q]).asid, BitVec.ofNat 64 (a.toNat / 2 ^ sh * 2 ^ sh)⟩
            .wait { s with svc := { s.svc with moving := (s.svc.moving.filter fun x => !own x) ++ [m] } }

/-! ## Dispatch and routines (R272, R273, R312) -/

/-- AGE_LIMIT's body (R312). -/
def callAgeLimit (r : CallReq) (s : State) : CallOut :=
  if !r.zeroFrom 1 then callFail s 1
  else if r.argN 0 < 1000 || 1000000 < r.argN 0 then callFail s 4
  else callDone { s with qm := { s.qm with ageLimit := r.argN 0 } } 0

/-- A routine image, none when its header is malformed, or its signature over header and code fails against the routine keys
(R272). -/
def parseRoutine (keys bs : List Byte) : Option Routine :=
  let a := bs.toArray
  let h : BitVec 512 := BitVec.ofNat 512 (fileN a 0 64)
  let len := bitsN h 48 16
  if a.size < 64 || bitsN h 96 416 ≠ 0 || bitsN h 16 16 ≠ 0 || bitsN h 0 16 ≠ 1 || bitsN h 80 16 = 0 || 4096 < bitsN h 80 16 ||
      bitsN h 64 16 % 2 ≠ 0 || len ≤ bitsN h 64 16 || len % 2 ≠ 0 || len = 0 || 49152 < len || a.size ≠ 128 + len ||
      !signedBy (Config.imageKeys keys) (bs.drop (64 + len)) (bs.take (64 + len)) then none
  else some ⟨bitsN h 32 16, bitsN h 64 16, bitsN h 80 16, (List.range len).map fun i => (a[64 + i]?).getD 0⟩

/-- An accepted `cp.xf` that has not performed names the routine: its descriptor stands in the command or in its window
(R273). -/
def Hearth.routineUsed (x : Hearth) (num : Nat) : Bool :=
  x.cmds.any fun c => c.op == some .cpXf && !c.performed &&
    bitsN (descAux (c.desc.getD (ofBytes512 (x.scratch.bytes (c.win 1).a0 64)))) 0 16 == num

/-- A command of a hearth, or of a saved state of it, uses the routine. -/
def State.routineUsed (s : State) (h : Fin 640) (num : Nat) : Bool :=
  (s.hearth h).routineUsed num || s.saved.any fun p => p.1 == h && p.2.routineUsed num

/-- ROUTINE_LOAD's body (R272, R273): it waits while the routine is in use. -/
def callRoutineLoad (r : CallReq) (s : State) : CallRes :=
  if !r.zeroFrom 3 then .done (callFail s 1)
  else
    match hearthArg (r.arg 0) with
    | .error e => .done (callFail s e)
    | .ok h =>
      let x := s.hearth h
      if x.sec && !s.callerSecure r then .done (callFail s 5)
      else
        match (s.unitRead ⟨x.asid, false, x.sec⟩ (r.arg 1) (r.argN 2)).bind (parseRoutine s.svc.routineKeys) with
        | none => .done (callFail s 10)
        | some t =>
          let rest := x.routines.filter fun y => y.num != t.num
          if s.routineUsed h t.num then .wait s
          else if Config.routineSlots ≤ rest.length || Config.routineBytes < ((t :: rest).map (·.code.length)).sum then
            .done (callFail s 11)
          else .done (callDone (s.setHearth h { x with routines := rest ++ [t] }) 0)

/-- ROUTINE_UNLOAD's body (R273). -/
def callRoutineUnload (r : CallReq) (s : State) : CallRes :=
  if !r.zeroFrom 2 || 65536 ≤ r.argN 1 then .done (callFail s 1)
  else
    match hearthArg (r.arg 0) with
    | .error e => .done (callFail s e)
    | .ok h =>
      let x := s.hearth h
      let num := r.argN 1
      if x.sec && !s.callerSecure r then .done (callFail s 5)
      else if !x.routines.any (fun y => y.num == num) then .done (callFail s 6)
      else if s.routineUsed h num then .wait s
      else .done (callDone (s.setHearth h { x with routines := x.routines.filter fun y => y.num != num }) 0)

/-! ## Flash and indexes (R334, R335, R342, R345, R371, R376) -/

def State.setCirrus (s : State) (c : Cirrus) : State := { s with cirrus := c }

/-- A flash range of whole pages is free: no work queue has it, and the firmware uses none of it for an index (R334). -/
def State.flashFreeAt (s : State) (a n : Nat) : Bool :=
  a % Config.flashPage == 0 && s.pagesApart (a / Config.flashPage) (n / Config.flashPage)

/-- The ends of what stands in the flash: behind each of them a free place may begin. -/
def State.flashEnds (s : State) : List Nat :=
  0 :: (s.cirrus.ranges.map fun r => r.base + r.len) ++ (s.cirrus.reserved.map fun r => (r.2.1 + r.2.2) * Config.flashPage) ++
    s.cirrus.indexes.toList.flatMap fun x => (x.map fun i => i.roots.flatMap fun r => r.nodes.map fun m =>
      (m.page + 1) * Config.flashPage).getD []

/-- Where `n` bytes go: the service OS's pick where it is free, else the first place that is, at 0 or behind what stands there. -/
def State.flashPlace (s : State) (pick : Option Nat) (n : Nat) : Option Nat :=
  (pick.toList ++ s.flashEnds).find? fun a => s.flashFreeAt a n

/-- FLASH_ALLOCATE's body. -/
def callFlashAllocate (r : CallReq) (s : State) : CallOut :=
  let n := r.argN 1
  if !r.zeroFrom 2 then callFail s 1
  else if n = 0 || n % Config.flashPage ≠ 0 then callFail s 4
  else
    match s.queueArg r (r.arg 0) with
    | .error e => callFail s e
    | .ok q =>
      match s.flashPlace (r.pick 0) n with
      | none => callFail s 7
      | some a =>
        callDone (s.setCirrus { s.cirrus with ranges := s.cirrus.ranges ++ [⟨q, a, n, (s.queues[q]).sec⟩] }) a

/-- The allocated range that holds some bytes. -/
def State.rangeAt (s : State) (a n : Nat) : Option FlashRange :=
  s.cirrus.ranges.find? fun r => decide (r.base ≤ a) && decide (a + n ≤ r.base + r.len)

/-- FLASH_WRITE's body: pages that it rewrites whole can be read again (R345, R376). -/
def callFlashWrite (r : CallReq) (s : State) : CallOut :=
  let a := r.argN 0
  let n := r.argN 2
  if !r.zeroFrom 3 then callFail s 1
  else if n = 0 || n % 512 ≠ 0 || a % 512 ≠ 0 then callFail s 4
  else
    match s.rangeAt a n with
    | none => callFail s 6
    | some g =>
      if g.sec && !s.callerSecure r then callFail s 5
      else
        match s.unitRead (s.queueAgent g.wq) (r.arg 1) n with
        | none => callFail s 6
        | some bs =>
          let lost := s.cirrus.lost.filter fun p => !(decide (a ≤ p * Config.flashPage) && decide ((p + 1) * Config.flashPage ≤ a + n))
          callDone (s.setCirrus { s.cirrus with flash := s.cirrus.flash.store a bs, lost := lost }) 0

/-- A range without some bytes: what is left of it on both sides. -/
def FlashRange.minus (g : FlashRange) (a n : Nat) : List FlashRange :=
  (if g.base < a then [{ g with len := a - g.base }] else []) ++
    (if a + n < g.base + g.len then [{ g with base := a + n, len := g.base + g.len - (a + n) }] else [])

/-- FLASH_FREE's body. -/
def callFlashFree (r : CallReq) (s : State) : CallOut :=
  let a := r.argN 0
  let n := r.argN 1
  if !r.zeroFrom 2 then callFail s 1
  else if n = 0 || n % Config.flashPage ≠ 0 || a % Config.flashPage ≠ 0 then callFail s 4
  else
    match s.rangeAt a n with
    | none => callFail s 6
    | some g =>
      if g.sec && !s.callerSecure r then callFail s 5
      else callDone (s.setCirrus { s.cirrus with ranges := s.cirrus.ranges.flatMap fun x => if x = g then g.minus a n else [x] }) 0

/-- INDEX_CREATE's body (R335). A `DIM` field of 0 stands for 2,048, which its 11 bits do not reach otherwise (DESIGN CHOICE, log entry
38). The firmware reserves a page of the flash for each entry that the log may hold (R334, log entry 70). -/
def callIndexCreate (r : CallReq) (s : State) : CallOut :=
  let a := r.arg 1
  let dim := if bitsN a 0 11 = 0 then 2048 else bitsN a 0 11
  let et := bitsN a 12 2
  let me := bitsN a 16 2
  let deg := bitsN a 18 6
  let cap := r.argN 2
  let thr := r.argN 3
  if !r.zeroFrom 4 || bit a 11 || bitsN a 14 2 ≠ 0 || bitsN a 24 40 ≠ 0 then callFail s 1
  else if dim < 8 || et = 3 || me = 3 || (me = 2 && et ≠ 0) || deg < 4 || 48 < deg || cap < 1024 || 1048576 < cap || thr < 256 ||
      cap < thr then callFail s 4
  else
    match s.queueArg r (r.arg 0) with
    | .error e => callFail s e
    | .ok q =>
      let used := s.cirrus.indexes.toList.zipIdx.filterMap fun p => if p.1.isSome then some p.2 else none
      match freeNumber used (r.pick 0) 0 64, s.flashPlace (r.pick 1) (cap * Config.flashPage) with
      | none, _ => callFail s 7
      | some _, none => callFail s 7
      | some i, some place =>
        let x : Index :=
          { wq := q, sec := (s.queues[q]).sec, dim := dim, ety := if et = 0 then .int8 else if et = 1 then .e4m3 else .bf16,
            metric := if me = 0 then .l2 else if me = 1 then .ip else .hamming, degree := deg, logcap := cap, mthresh := thr,
            logpos := 0, logbase := 0, entries := [], roots := [⟨0, 0, none, []⟩], events := 0, merge := none }
        let t := s.setIndex (Fin.ofNat 64 i) (some x)
        callDone (t.setCirrus { t.cirrus with reserved := t.cirrus.reserved ++ [(i, place / Config.flashPage, cap)] }) i

/-- A search command that has started names the index, in its parameter block. -/
def Hearth.names (x : Hearth) (i : Nat) : Bool :=
  x.cmds.any fun c => c.searching && bitsN c.word 0 8 != 3 &&
    pIndex (c.desc.getD (ofBytes512 (x.scratch.bytes (c.win 1).a0 64))) == i

/-- A search record that has not ended, or a command in flight, names the index. -/
def State.indexUsed (s : State) (i : Nat) : Bool :=
  s.qm.recs.any (fun r =>
    let w := s.recWord r
    recKind w == 1 && ((s.workFrame r.wq (recFrame w)).bind fun f => (s.read512 r.wq (frPaddr f)).map pIndex) == some i) ||
  s.hearths.any (fun x => x.names i) || s.saved.any fun p => p.2.names i

/-- The index that an argument names, for a caller. -/
def State.indexArg (s : State) (r : CallReq) : Except Nat (Fin 64 × Index) :=
  if 64 ≤ r.argN 0 then .error 6
  else
    let i : Fin 64 := Fin.ofNat 64 (r.argN 0)
    match s.cirrus.indexes[i] with
    | none => .error 6
    | some x => if x.sec && !s.callerSecure r then .error 5 else .ok (i, x)

/-- INDEX_DESTROY's body: its pages are free. -/
def callIndexDestroy (r : CallReq) (s : State) : CallOut :=
  if !r.zeroFrom 1 then callFail s 1
  else
    match s.indexArg r with
    | .error e => callFail s e
    | .ok (i, _) =>
      if s.indexUsed i then callFail s 3
      else
        let t := s.setIndex i none
        callDone (t.setCirrus { t.cirrus with reserved := t.cirrus.reserved.filter fun p => p.1 != i.val }) 0

/-- MERGE_START's body (R342): only one merge runs at a time. -/
def callMergeStart (r : CallReq) (s : State) : CallOut :=
  if !r.zeroFrom 1 then callFail s 1
  else
    match s.indexArg r with
    | .error e => callFail s e
    | .ok (i, x) =>
      if x.merge.isSome then callFail s 3 else callDone (s.setIndex i (some { x with merge := some (x.logpos, x.events) })) 0

/-- The firmware uses a page for an index: for its log, or for a node (R334). -/
def State.indexHas (s : State) (i p : Nat) : Bool :=
  s.cirrus.reserved.any (fun r => r.1 == i && decide (r.2.1 ≤ p) && decide (p < r.2.1 + r.2.2)) || (s.indexPages i).contains p

/-- The flash bytes that may be repaired, those of an allocated range or of the pages of indexes, and whether some are of the secure world
(R347, R376, R381). -/
def State.repairWorld (s : State) (a n : Nat) : Option Bool :=
  match s.rangeAt a n with
  | some g => some g.sec
  | none =>
    let owners (p : Nat) : List Nat := (List.range 64).filter fun i => (s.cirrus.indexes[Fin.ofNat 64 i]).isSome && s.indexHas i p
    if (flashPages a n).all fun p => !(owners p).isEmpty then
      some ((flashPages a n).any fun p => (owners p).any fun i => ((s.cirrus.indexes[Fin.ofNat 64 i]).map (·.sec)).getD false)
    else none

/-- MEDIA_REPAIR's body (R376): addresses and readable bytes stay, and a page that cannot be read stays lost. -/
def callMediaRepair (r : CallReq) (s : State) : CallOut :=
  let a := r.argN 0
  let n := r.argN 1
  if !r.zeroFrom 2 then callFail s 1
  else if n = 0 || Config.flashBytes < a + n then callFail s 4
  else
    match s.repairWorld a n with
    | none => callFail s 6
    | some sec => if sec && !s.callerSecure r then callFail s 5 else callDone s 0

/-! ## Power (R7, R377, R378) -/

/-- The budget in force, and what sets it: 0 the request, 1 the module's regulator, 2 the thermal limit, which is below the request
while it stands (R378). -/
def Power.budget (p : Power) : Nat × Nat :=
  let a := if Config.regulatorLimit < p.request then (Config.regulatorLimit, 1) else (p.request, 0)
  match p.thermal with
  | some w => (min (min w a.1) (p.request - 1), 2)
  | none => a

/-- POWER_SET's body: it takes effect at the next grant period. -/
def callPowerSet (r : CallReq) (s : State) : CallOut :=
  if !r.zeroFrom 1 then callFail s 1
  else if r.argN 0 < 900 || 1800 < r.argN 0 then callFail s 4
  else callDone { s with power := { s.power with request := r.argN 0 } } 0

/-- POWER_QUERY's body. -/
def callPowerQuery (r : CallReq) (s : State) : CallOut :=
  if !r.zeroFrom 0 then callFail s 1
  else
    let p := s.power
    callDone s (p.request % 2 ^ 16 + p.inforce % 2 ^ 16 * 2 ^ 16 + p.src % 4 * 2 ^ 32 + (Config.drawnWatts s.cycle).toNat * 2 ^ 64)

/-! ## Tracing, Hob and replay (R280, R284, R286, R288) -/

/-- TRACE_RING's body. Records that found the old ring full are still counted: the next record written is the loss record (R284). -/
def callTraceRing (r : CallReq) (s : State) : CallOut :=
  if !r.zeroFrom 3 then callFail s 1
  else
    match hearthArg (r.arg 0) with
    | .error e => callFail s e
    | .ok h =>
      if !s.svc.hobFw then callFail s 6
      else if r.argN 1 % 64 ≠ 0 || r.argN 2 % 64 ≠ 0 then callFail s 4
      else
        let x := s.hearth h
        callDone (s.setHearth h { x with trace := { x.trace with addr := r.arg 1, bytes := r.argN 2, pos := 0 } }) 0

/-- CHIMNEY's body. Frames that found the old ring full are still counted: the next frame counts them (R287). -/
def callChimney (r : CallReq) (s : State) : CallOut :=
  let k := r.argN 0
  if !r.zeroFrom 3 then callFail s 1
  else if !s.svc.hobFw then callFail s 6
  else if k ≠ 0 && (k < 4 || 24 < k) then callFail s 4
  else callDone { s with chim := { s.chim with k := k, addr := r.arg 1, bytes := r.argN 2, pos := 0 } } 0

/-- HOB_ATTACH_CALL's body. -/
def callHobAttach (r : CallReq) (s : State) : CallOut :=
  if !r.zeroFrom 1 then callFail s 1
  else
    match hearthArg (r.arg 0) with
    | .error e => callFail s e
    | .ok h =>
      if !s.svc.hobFw then callFail s 6
      else
        match s.attach h s.svc.nextSess with
        | none => callFail s 3
        | some t => callDone { t with svc := { t.svc with nextSess := t.svc.nextSess + 1 } } s.svc.nextSess

/-- HOB_DETACH's body: the session's breakpoints go with it, and a hearth that it stopped goes on. -/
def callHobDetach (r : CallReq) (s : State) : CallOut :=
  if !r.zeroFrom 1 then callFail s 1
  else if !s.svc.hobFw then callFail s 6
  else
    match (List.finRange 640).find? fun h => (s.hearth h).hob.sess == some (r.argN 0) with
    | none => callFail s 6
    | some h =>
      let t := if (s.hearth h).hob.stopped then s.resumeHearth ⟨h, 0⟩ none else s
      let x := t.hearth h
      callDone (t.setHearth h { x with hob := { x.hob with sess := none, brks := [], step := none, passed := [] } }) 0

/-- A key of host memory (R288, R352). -/
def hostCell (k : Nat) : Bool := (decide (physKey 5 0 ≤ k) && decide (k < physKey 6 0)) || decide (2 ^ 64 ≤ k)

/-- Host memory (R288). -/
def State.hostMem (s : State) : Mem := s.mem.filter fun c => hostCell c.1

/-- The memory with host memory as it once stood. -/
def State.withHostMem (s : State) (m : Mem) : State := s.setMem (Mem.writeAll (s.mem.filter fun c => !hostCell c.1) m)

/-- Free bytes from a counter on. -/
def freeBytes (use n : Nat) : List Byte := (List.range n).map fun i => (Config.openValue (use + i)).truncate 8

/-- Memory of the service OS (R320). -/
def osAgent : Agent := ⟨none, false, true⟩

/-- Recording ends: its log is written at its address, 64 bytes for each entry and as much in front; the bytes are free, for the spec gives
the log no layout (R288, log entry 24). -/
def State.closeLog (s : State) : State :=
  if !s.svc.recording then s
  else
    let n := min s.svc.recBytes (64 * (s.turns.length + s.svc.results.length + s.svc.recorded.length + 1))
    let l : RecLog := { bytes := freeBytes s.free n, turns := s.turns, recorded := s.svc.recorded, results := s.svc.results,
                        hostImage := s.svc.hostImage }
    ({ s with free := s.free + n, svc := { s.svc with recording := false, logs := l :: s.svc.logs } }).unitWrite osAgent s.svc.recAddr
      l.bytes

/-- RECORD_MODE's body (R288): recording begins with an empty log, which takes so many bytes, or ends. -/
def callRecordMode (r : CallReq) (s : State) : CallOut :=
  if !r.zeroFrom 3 then callFail s 1
  else if r.arg 0 = 0 then callDone s.closeLog 0
  else if r.arg 0 = 1 then
    let t := s.closeLog
    callDone { t with
      turns := [],
      svc := { t.svc with recording := true, recAddr := r.arg 1, recBytes := r.argN 2, recorded := [], results := [],
                          hostImage := t.hostMem } } 0
  else callFail s 4

/-- The log that stands at an address, in so many bytes (R288). -/
def State.logAt (s : State) (a : Word) (n : Nat) : Option RecLog :=
  s.svc.logs.find? fun l => !l.bytes.isEmpty && decide (l.bytes.length ≤ n) && s.unitRead osAgent a l.bytes.length == some l.bytes

/-- REPLAY's body (R288): the log at ARG0, of ARG1 bytes, is fed back: the bytes of host memory, the inputs, orders and choices, and
the results of the instructions that depend on time; each completion record is checked. Where no log stands, none exists. -/
def callReplay (r : CallReq) (s : State) : CallOut :=
  if !r.zeroFrom 2 then callFail s 1
  else
    let t := s.closeLog
    match t.logAt (r.arg 0) (r.argN 1) with
    | none => callFail s 6
    | some l =>
      callDone { t.withHostMem l.hostImage with
        svc := { t.svc with replay := some l.recorded, script := l.turns, forcedResults := l.results } } 0

/-! ## Making a call (R370) -/

/-- The call of a number (R371). `bad` says that bytes of its request that must be zero are not (R370, R372). -/
def State.perform (s : State) (no : Nat) (r : CallReq) (bad : Bool) : Performed :=
  let w (b : CallReq → State → CallRes) : Performed := s.runN no r fun t => if bad then .done (callFail t 1) else b r t
  let n (b : CallReq → State → CallOut) : Performed := w fun q t => .done (b q t)
  let i (b : CallReq → State → CallOut) : Performed := s.runI r fun t => if bad then callFail t 1 else b r t
  match no with
  | 0x0001 => n callImageRegister
  | 0x0002 => n callImageUnregister
  | 0x0010 => n callQueueCreate
  | 0x0011 => w callQueueTeardown
  | 0x0012 => w callQueueReset
  | 0x0013 => i callQueueErrors
  | 0x0020 => n callMap
  | 0x0021 => w callUnmap
  | 0x0022 => w callSetHome
  | 0x0023 => w callMigrate
  | 0x0024 => n callAgeLimit
  | 0x0030 => w callRoutineLoad
  | 0x0031 => w callRoutineUnload
  | 0x0040 => n callFlashAllocate
  | 0x0041 => n callFlashWrite
  | 0x0042 => n callFlashFree
  | 0x0043 => n callIndexCreate
  | 0x0044 => n callIndexDestroy
  | 0x0045 => n callMergeStart
  | 0x0046 => n callMediaRepair
  | 0x0050 => n callPowerSet
  | 0x0051 => i callPowerQuery
  | 0x0060 => n callTraceRing
  | 0x0061 => n callChimney
  | 0x0062 => n callHobAttach
  | 0x0063 => n callHobDetach
  | 0x0064 => n callRecordMode
  | 0x0065 => n callReplay
  | _ => (s, some (1, 0))

/-- The reply in the registers of a context that waits in `ECALL`, which goes on behind it (R370). -/
def State.replyTo (s : State) (l : Loc) (st : Nat) (res : BitVec 256) : State :=
  let k := s.ctx l
  match k.st, k.wait with
  | .waiting, .svc =>
    let k1 := ((((k.set 10 (BitVec.ofNat 64 st)).set 11 (field res 0 64)).set 12 (field res 64 64)).set 13 (field res 128 64)).set 14
      (field res 192 64)
    s.setCtx l ({ k1 with st := .running, wait := .none }).retire
  | _, _ => s

/-- A call that has ended is answered at a context. -/
def Performed.reply (p : Performed) (l : Loc) : State :=
  match p.2 with
  | none => p.1
  | some (st, res) => p.1.replyTo l st res

/-- The leader performs a call for its caller, and the caller's context gets the reply. The call of a context whose hearth is stopped
stays in its wait (R281). -/
def State.serveCall (s : State) (no : Nat) (r : CallReq) : Out :=
  .next <|
    if !s.leaderLive then s
    else if h : 1 ≤ r.caller ∧ r.caller ≤ 640 then
      let l : Loc := ⟨⟨r.caller - 1, by omega⟩, r.ctx⟩
      if s.frozen l.h then s else (s.perform no r false).reply l
    else (s.perform no r false).1

/-- IMAGE_REGISTER (R371). -/
def execImageRegister (r : CallReq) (s : State) : Out := s.serveCall 0x0001 r
/-- IMAGE_UNREGISTER (R371). -/
def execImageUnregister (r : CallReq) (s : State) : Out := s.serveCall 0x0002 r
/-- QUEUE_CREATE (R371). -/
def execQueueCreate (r : CallReq) (s : State) : Out := s.serveCall 0x0010 r
/-- QUEUE_TEARDOWN (R373). -/
def execQueueTeardown (r : CallReq) (s : State) : Out := s.serveCall 0x0011 r
/-- QUEUE_RESET (R375). -/
def execQueueReset (r : CallReq) (s : State) : Out := s.serveCall 0x0012 r
/-- QUEUE_ERRORS (R371). -/
def execQueueErrors (r : CallReq) (s : State) : Out := s.serveCall 0x0013 r
/-- MAP (R371). -/
def execMap (r : CallReq) (s : State) : Out := s.serveCall 0x0020 r
/-- UNMAP (R371). -/
def execUnmap (r : CallReq) (s : State) : Out := s.serveCall 0x0021 r
/-- SET_HOME (R371). -/
def execSetHome (r : CallReq) (s : State) : Out := s.serveCall 0x0022 r
/-- MIGRATE (R253). -/
def execMigrate (r : CallReq) (s : State) : Out := s.serveCall 0x0023 r
/-- AGE_LIMIT (R312). -/
def execAgeLimit (r : CallReq) (s : State) : Out := s.serveCall 0x0024 r
/-- ROUTINE_LOAD (R272). -/
def execRoutineLoad (r : CallReq) (s : State) : Out := s.serveCall 0x0030 r
/-- ROUTINE_UNLOAD (R273). -/
def execRoutineUnload (r : CallReq) (s : State) : Out := s.serveCall 0x0031 r
/-- FLASH_ALLOCATE (R371). -/
def execFlashAllocate (r : CallReq) (s : State) : Out := s.serveCall 0x0040 r
/-- FLASH_WRITE (R371). -/
def execFlashWrite (r : CallReq) (s : State) : Out := s.serveCall 0x0041 r
/-- FLASH_FREE (R371). -/
def execFlashFree (r : CallReq) (s : State) : Out := s.serveCall 0x0042 r
/-- INDEX_CREATE (R335). -/
def execIndexCreate (r : CallReq) (s : State) : Out := s.serveCall 0x0043 r
/-- INDEX_DESTROY (R371). -/
def execIndexDestroy (r : CallReq) (s : State) : Out := s.serveCall 0x0044 r
/-- MERGE_START (R342). -/
def execMergeStart (r : CallReq) (s : State) : Out := s.serveCall 0x0045 r
/-- MEDIA_REPAIR (R376). -/
def execMediaRepair (r : CallReq) (s : State) : Out := s.serveCall 0x0046 r
/-- POWER_SET (R378). -/
def execPowerSet (r : CallReq) (s : State) : Out := s.serveCall 0x0050 r
/-- POWER_QUERY (R378). -/
def execPowerQuery (r : CallReq) (s : State) : Out := s.serveCall 0x0051 r
/-- TRACE_RING (R284). -/
def execTraceRing (r : CallReq) (s : State) : Out := s.serveCall 0x0060 r
/-- CHIMNEY (R286). -/
def execChimney (r : CallReq) (s : State) : Out := s.serveCall 0x0061 r
/-- HOB_ATTACH_CALL (R280). -/
def execHobAttachCall (r : CallReq) (s : State) : Out := s.serveCall 0x0062 r
/-- HOB_DETACH (R371). -/
def execHobDetach (r : CallReq) (s : State) : Out := s.serveCall 0x0063 r
/-- RECORD_MODE (R288). -/
def execRecordMode (r : CallReq) (s : State) : Out := s.serveCall 0x0064 r
/-- REPLAY (R288). -/
def execReplay (r : CallReq) (s : State) : Out := s.serveCall 0x0065 r

/-- The service OS performs the call of a context that waits in `ECALL` from M mode: a7 holds its number, a0 its sequence
number, and a1 to a6 its arguments (R370). -/
def State.serveSvc (s : State) (l : Loc) (choice : List Nat) : State :=
  let k := s.ctx l
  match s.frozen l.h, s.leaderLive, k.st, k.wait with
  | false, true, .waiting, .svc =>
    let r : CallReq := { caller := 1 + l.h.val, ctx := l.c, seq := k.get 10,
                         args := Vector.ofFn fun i : Fin 6 => k.get (Fin.ofNat 32 (11 + i.val)), choice := choice }
    (s.perform (k.get 17).toNat r false).reply l
  | _, _, _, _ => s

/-! ## The call mailbox and the registers of BAR0 (R370) -/

/-- The request that the host's call block holds. -/
def hostReq (w : BitVec 512) (choice : List Nat) : CallReq :=
  { caller := 0, ctx := 0, seq := field w 0 64, args := Vector.ofFn fun i : Fin 6 => field w (128 + 64 * i.val) 64, choice := choice }

/-- The reply to the host: visible before vector 64 is sent (R256, R370). -/
def State.replyHost (s : State) (a : Nat) (seq : Word) (st : Nat) (res : BitVec 256) : State :=
  let reply := leBytes 1 st ++ leBytes 7 0 ++ leBytes 8 seq.toNat ++ leBytes 16 0 ++ leBytes 32 res.toNat
  let t := s.hostStore (a + 64) reply
  { t with svc := { t.svc with busy := false, done := true, mail := none } }.msix 64

/-- The call that the mailbox holds, performed, and answered once it has ended (R370). -/
def State.runMailbox (s : State) (choice : List Nat) : State :=
  match s.svc.mail with
  | none => s
  | some m =>
    let r := hostReq m.req (if choice.isEmpty then m.choice else choice)
    let p := s.perform (bitsN m.req 64 16) r (bitsN m.req 80 48 != 0)
    match p.2 with
    | none => p.1
    | some (st, res) => p.1.replyHost m.addr r.seq st res

/-- The leader goes on with the host call that the mailbox holds. -/
def State.serveMailbox (s : State) (choice : List Nat) : State :=
  if s.svc.busy && s.leaderLive then s.runMailbox choice else s

/-- CALLGO (R370): a host write. The package reads the request at `CALLADDR`; without a leader the call waits for the takeover. -/
def execCallgo (v : Word) (choice : List Nat) (s : State) : Out :=
  .next <|
    if v ≠ 1 || s.svc.busy then s
    else
      let a := s.svc.callAddr.toNat
      let m : Mail := ⟨a, ofBytes512 (s.hostBytes a 64), choice⟩
      let s1 := { s with svc := { s.svc with busy := true, done := false, mail := some m } }
      if s.leaderLive then s1.runMailbox [] else s1

/-- REGISTER_WRITE (R10, R349, R370): a host write of a register without behaviour of its own. `CALLADDR` holds a multiple of
64; the others are read-only or reserved, and ignore the write. -/
def execRegisterWrite (r : BarReg) (v : Word) (s : State) : Out :=
  .next <|
    match r with
    | .callAddr => { s with svc := { s.svc with callAddr := v &&& ~~~ (63#64) } }
    | .callStat | .bootStat | .chipNum | .resv0 _ | .head _ => s

/-- What a host's read of a register finds (R10, R349, R370): reserved bits and registers read as zero. -/
def State.barRead (s : State) : BarReg → Word
  | .callAddr => s.svc.callAddr
  | .callStat => (if s.svc.busy then 1 else 0) ||| (if s.svc.done then 2 else 0)
  | .bootStat => BitVec.ofNat 64 (s.svc.bootStage.toNat + (if s.svc.recovery then 16 else 0) + s.svc.started.toNat * 256)
  | .chipNum => BitVec.ofNat 64 (s.links.chip % 1024)
  | .resv0 _ => 0
  | .head q => BitVec.ofNat 64 (s.queues[q]).head

/-! ## Leadership (R364 to R367) -/

/-- A heartbeat is due (R365). -/
def State.beatDue (s : State) : Bool := s.leaderLive && decide (s.svc.beat.toNat + 100000 ≤ s.tick)

/-- HEARTBEAT (R365): the leader writes the tick, every 100,000 ticks. -/
def execHeartbeat (s : State) : Out := .next (if s.beatDue then { s with svc := { s.svc with beat := s.tickW } } else s)

/-- The next live pair in rank order after the leader (R366). -/
def Service.successor (v : Service) : Option Nat := ([1, 2, 3, 4].map fun i => (v.leader + i) % 5).find? v.live

/-- A call whose record is started is executed again from its start, and committed (R366, step 3; R369). -/
def State.redoCall (s : State) (c : CallRec) : State :=
  (s.perform c.callno { caller := c.caller, ctx := 0, seq := c.seq, args := c.args, choice := c.choice } false).1

/-- The leader takes over the work queues of other pairs (R366, step 4); which pair interprets which queue is its choice (log entry
64). -/
def State.takeQueues (s : State) (gone : Nat → Bool) : State :=
  { s with queues := s.queues.map fun w => if gone w.pair then { w with pair := s.svc.leader } else w }

/-- The slots that accepted doorbells name and that have not been read are read (R367). -/
def State.readQueues (s : State) : State := (List.finRange 2048).foldl State.readQueue s

/-- LEADERSHIP_TAKEOVER (R366, R367): once the heartbeat has lapsed, the next live pair leads under a new generation, completes the
started calls, takes over every work queue, and goes on with everything else where it stands. -/
def execLeadershipTakeover (r : Fin 5) (s : State) : Out :=
  .next <|
    if s.svc.gen = 0 || s.tick ≤ s.svc.beat.toNat + 300000 || s.svc.successor ≠ some r.val then s
    else
      let g := s.svc.gen + 1
      let s1 := { s with svc := { s.svc with gen := g, leader := r.val, beat := s.tickW, qmGen := g, gens := s.svc.gens.set r g } }
      let s2 := (s1.svc.calls.filter fun c => !c.committed).foldl State.redoCall s1
      ((s2.takeQueues fun _ => true).readQueues).serveMailbox []

/-- LOCKSTEP_STOP (R364): a pair whose cores disagree stops itself. The leader takes its work queues over. -/
def execLockstepStop (r : Fin 5) (s : State) : Out :=
  let s1 := { s with svc := { s.svc with stopped := s.svc.stopped ||| (s.svc.started &&& (1#5 <<< r.val)) } }
  .next (if s1.leaderLive && s1.svc.stopped.getLsbD r.val then s1.takeQueues (· == r.val) else s1)

/-- SERVICE_PAIR_RETURN (R366): the pair runs again, its two cores alike (log entry 68); it finds the generation that holds, and follows
its leader. -/
def execServicePairReturn (r : Fin 5) (s : State) : Out :=
  .next { s with svc := { s.svc with stopped := s.svc.stopped &&& ~~~ (1#5 <<< r.val), gens := s.svc.gens.set r s.svc.gen },
                 cores := s.cores.set r (Vector.replicate 2 (s.cores[r])[0]) }

/-- A service pair makes a service write under the generation that it holds. What a leader writes has its own turns; a write under an older
generation is refused, and the pair, which reads the newer one, follows its leader (R366). -/
def State.serviceWrite (s : State) (r : Fin 5) : State :=
  if s.svc.accepts r.val then s else { s with svc := { s.svc with gens := s.svc.gens.set r s.svc.gen } }

/-! ## Power (R377, R378) -/

/-- The shares that the agent of each die gives: one to each of its 160 hearths and to two of the flash stacks, and on the I/O die none
(R3, R377; which die has which stacks, log entry 46). -/
def dieShares : List Nat := [162, 162, 162, 162, 0]

/-- Grants for the five dies within a budget, each divided within its die (R377). -/
def grantsOk (b : Nat) (grants : List Nat) (shares : List (List Nat)) : Bool :=
  grants.length == 5 && shares.map List.length == dieShares && decide (grants.sum ≤ b) &&
    (grants.zip shares).all fun p => decide (p.2.sum ≤ p.1)

/-- `k` parts of at most `b` together, by free values from a counter on. -/
def freeParts (use b k : Nat) : List Nat := (List.range k).map fun i => (Config.openValue (use + i)).toNat % (b / k + 1)

/-- A division of a budget that the arbiter and the die agents make of their own: free values (R377). -/
def freeGrants (use b : Nat) : List Nat × List (List Nat) :=
  let g := freeParts use b 5
  (g, (g.zip dieShares).zipIdx.map fun p => freeParts (use + 5 + 162 * p.2) p.1.1 p.1.2)

/-- A grant period begins: the budget in force is set anew and divided, as named, or where that is no division by free values (R377,
R378). -/
def State.grantPeriod (s : State) (grants : List Nat) (shares : List (List Nat)) : State :=
  let b := s.power.budget
  let d := if grantsOk b.1 grants shares then (grants, shares) else freeGrants s.free b.1
  { s with power := { s.power with inforce := b.1, src := b.2, grants := d.1, shares := d.2, last := s.tick }, free := s.free + 653 }

/-- A grant period is due: every 200 ticks (R377). -/
def State.grantDue (s : State) : Bool := decide (s.power.last / 200 < s.tick / 200)

/-- POWER_GRANT_PERIOD (R377, R378): every 200 ticks the budget in force is set anew and divided into a grant for each die, and each die
agent divides its grant; they change rates only. -/
def execPowerGrantPeriod (grants : List Nat) (shares : List (List Nat)) (s : State) : Out :=
  .next (if s.tick % 200 ≠ 0 then s else s.grantPeriod grants shares)

/-- THERMAL_LIMIT (R378): the cold plate reaches its limit; from the next grant period on, the budget in force is below the request. -/
def execThermalLimit (w : Nat) (s : State) : Out := .next { s with power := { s.power with thermal := some w } }

/-- COLD_PLATE_COOLED (R378): the lowering ends, from the next grant period on. -/
def execColdPlateCooled (s : State) : Out := .next { s with power := { s.power with thermal := none } }

/-! ## Boot (R320, R365, R370, R382) -/

/-- The lowest rank of a set of pairs. -/
def lowestPair (ps : BitVec 5) : Option Nat := [0, 1, 2, 3, 4].find? fun i => ps.getLsbD i

/-- The service firmware of a pair is signed under a key that has the fused hash, in a version that is not too old (R382). -/
def pairVerifies (i : BootImg) : Bool :=
  let k := Config.rootKey i.bytes
  let g := Config.imageSig i.bytes
  decide (Config.minService ≤ i.version) && sha512 k == Config.fusedKeyHash && signedBy [k] g.1 g.2

/-- Another image is signed under a key in the leader's service image (R382). -/
def imageVerifies (leader i : BootImg) (least : Nat) : Bool :=
  let g := Config.imageSig i.bytes
  decide (least ≤ i.version) && signedBy (Config.imageKeys leader.bytes) g.1 g.2

/-- The pairs whose firmware verifies. -/
def bootPassed (r : BootRes) : BitVec 5 :=
  BitVec.ofNat 5 (([0, 1, 2, 3, 4] : List (Fin 5)).map fun i => if pairVerifies r.pairs[i] then 2 ^ i.val else 0).sum

/-- The first stage that fails, 0 where none does (R370, R382). -/
def bootStageOf (r : BootRes) (l : Fin 5) : BitVec 4 :=
  let k := r.pairs[l]
  if !imageVerifies k r.cirrus Config.minCirrus then 2
  else if !imageVerifies k r.keys Config.minKeys || !imageVerifies k r.runtime Config.minRuntime then 3
  else if !imageVerifies k r.hob Config.minHob then 4 else 0

/-- The root tables of the privileged half stand where the service firmware has put them (R320, log entry 65), be it beyond the 256 GiB of a
die (DESIGN CHOICE, log entry 73). -/
def State.bootRoots (s : State) (r : BootRes) : State :=
  ([0, 1, 2, 3, 4] : List (Fin 5)).foldl (fun t o => t.setRoot o none (some r.roots[o])) s

/-- The cores of the pairs that start begin their firmware (R78, R382). -/
def State.bootCores (s : State) (r : BootRes) : State :=
  { s with cores := Vector.ofFn fun i : Fin 5 =>
      if pairVerifies r.pairs[i] then Vector.replicate 2 { SCore.reset with pc := Config.firmwareEntry (r.pairs[i]).bytes } else s.cores[i] }

/-- BOOT (R320, R365, R382): the pairs whose image verifies start, the lowest leads, and the first failing stage decides what the
package serves. -/
def execBoot (r : BootRes) (s : State) : Out :=
  .next <|
    if s.svc.gen ≠ 0 then s
    else
      match lowestPair (bootPassed r) with
      | none => { s with svc := { s.svc with bootStage := 1, recovery := true } }
      | some l =>
        let stage := bootStageOf r (Fin.ofNat 5 l)
        let k := r.pairs[Fin.ofNat 5 l]
        { (s.bootRoots r).bootCores r with
          svc := { s.svc with
            started := bootPassed r, stopped := 0, gen := 1, qmGen := 1, gens := Vector.replicate 5 1, leader := l, bootStage := stage,
            recovery := stage = 2 || stage = 3, hobFw := imageVerifies k r.hob Config.minHob,
            routineKeys := if imageVerifies k r.keys Config.minKeys then r.keys.bytes else [] } }

end Sys2Proof.Machine
end

