-- ==== Sys2Proof/Machine/CoreExec.lean ====
section
/-! DEFINITION. The service cores: registers, control registers, traps, memory, and the execution of a pair in lock-step (R78, R317,
R327, R364). What R78 takes from the RISC-V specifications is PRESUMED (log entry 68). -/

namespace Sys2Proof.Machine

/-! ## Registers and modes -/

def SCore.get (k : SCore) (r : XReg) : Word := if r = 0 then 0 else k.xs[r]
def SCore.set (k : SCore) (r : XReg) (v : Word) : SCore := if r = 0 then k else { k with xs := k.xs.set r v }

/-- The instruction is over; the next one stands `n` bytes on. -/
def SCore.retire (k : SCore) (n : Nat) : SCore := { k with pc := k.pc + BitVec.ofNat 64 n, instret := k.instret + 1 }

def CoreMode.level : CoreMode → Nat
  | .user => 0
  | .supervisor => 1
  | .machine => 3

def CoreMode.ofLevel : Nat → CoreMode
  | 0 => .user
  | 1 => .supervisor
  | _ => .machine

/-- Bits of a word replaced under a mask. -/
def putMask (old v mask : Word) : Word := (v &&& mask) ||| (old &&& ~~~ mask)

/-! ## Traps (R327) -/

/-- Taking a trap: to S mode where it is delegated and arises below M mode, else to M mode. The cause of an interrupt has its top bit
set, and a vectored base spreads interrupts. -/
def SCore.enterTrap (k : SCore) (cause : Nat) (irq : Bool) (tval : Word) : SCore :=
  let c := k.csr
  let code : Word := BitVec.ofNat 64 (cause + if irq then 2 ^ 63 else 0)
  let target (tvec : Word) : Word :=
    (tvec &&& ~~~ (3#64)) + (if irq && bit tvec 0 then BitVec.ofNat 64 (4 * cause) else 0)
  if k.mode ≠ .machine && bit (if irq then c.mideleg else c.medeleg) cause then
    let ms := putMask c.mstatus ((if bit c.mstatus 1 then 0x20#64 else 0) ||| (if k.mode = .user then 0 else 0x100#64)) 0x122
    { k with csr := { c with mstatus := ms, sepc := k.pc, scause := code, stval := tval }, mode := .supervisor, pc := target c.stvec }
  else
    let ms := putMask c.mstatus ((if bit c.mstatus 3 then 0x80#64 else 0) ||| BitVec.ofNat 64 (2048 * k.mode.level)) 0x1888
    { k with csr := { c with mstatus := ms, mepc := k.pc, mcause := code, mtval := tval }, mode := .machine, pc := target c.mtvec }

/-- MRET and SRET: the mode and the interrupt enable come back, and the pc from the saved one; MPRV falls below M mode. -/
def SCore.mret (k : SCore) : SCore :=
  let c := k.csr
  let mode := CoreMode.ofLevel (bitsN c.mstatus 11 2)
  let ms := putMask c.mstatus ((if bit c.mstatus 7 then 8#64 else 0) ||| 0x80#64) (if mode = .machine then 0x1888 else 0x21888)
  { k with csr := { c with mstatus := ms }, mode := mode, pc := c.mepc, instret := k.instret + 1 }

def SCore.sret (k : SCore) : SCore :=
  let c := k.csr
  let ms := putMask c.mstatus ((if bit c.mstatus 5 then 2#64 else 0) ||| 0x20#64) 0x20122
  { k with csr := { c with mstatus := ms }, mode := if bit c.mstatus 8 then .supervisor else .user, pc := c.sepc,
           instret := k.instret + 1 }

/-- The interrupt that is taken now: those that go to M mode first, then those delegated to S mode. -/
def SCore.irqNow (k : SCore) : Option Nat :=
  let c := k.csr
  let p := c.mie &&& c.mip
  let m := if k.mode = .machine && !bit c.mstatus 3 then 0 else p &&& ~~~ c.mideleg
  let s := if k.mode = .machine || (k.mode = .supervisor && !bit c.mstatus 1) then 0 else p &&& c.mideleg
  let first (w : Word) : Option Nat := ([11, 3, 7, 9, 1, 5] : List Nat).find? fun n => bit w n
  (first m) <|> (first s)

/-! ## Control registers -/

/-- `misa`: RV64 with A, C, D, F, I, M, S and U. -/
def coreMisa : Word := 0x800000000014112D

/-- `mstatus` as read: UXL and SXL are 2, and SD tells that FS is dirty. -/
def SCore.mstatusRead (k : SCore) : Word :=
  k.csr.mstatus ||| 0xA00000000#64 ||| (if bitsN k.csr.mstatus 13 2 = 3 then 0x8000000000000000#64 else 0)

/-- The bits that `sstatus` shows. -/
def sstatusMask : Word := 0x80000003000C6122

/-- The F and D extensions are on. -/
def SCore.fpOn (k : SCore) : Bool := bitsN k.csr.mstatus 13 2 != 0

/-- The instruction has changed floating-point state: FS is dirty. -/
def SCore.dirty (k : SCore) : SCore := { k with csr := { k.csr with mstatus := k.csr.mstatus ||| 0x6000#64 } }

/-- A counter may be read: in M mode, in S mode under `mcounteren`, in U mode under `scounteren` too. -/
def SCore.counterOk (k : SCore) (i : Nat) : Bool :=
  match k.mode with
  | .machine => true
  | .supervisor => bit k.csr.mcounteren i
  | .user => bit k.csr.mcounteren i && bit k.csr.scounteren i

/-- The value of a control register that exists. `satp` reads 0: translation is that of R316 to R324. `hart` numbers the core. -/
def State.coreCsrRead (s : State) (k : SCore) (hart n : Nat) : Option Word :=
  let c := k.csr
  let fp (v : Word) : Option Word := if k.fpOn then some v else none
  let counter (i : Nat) (v : Word) : Option Word := if k.counterOk i then some v else none
  if zeroCsr n then some 0
  else match n with
  | 0x001 => fp (k.fcsr.zeroExtend 64 &&& 0x1F)
  | 0x002 => fp (k.fcsr.zeroExtend 64 >>> 5)
  | 0x003 => fp (k.fcsr.zeroExtend 64)
  | 0x100 => some (k.mstatusRead &&& sstatusMask)
  | 0x104 => some (c.mie &&& c.mideleg)
  | 0x105 => some c.stvec
  | 0x106 => some c.scounteren
  | 0x10A => some c.senvcfg
  | 0x140 => some c.sscratch
  | 0x141 => some c.sepc
  | 0x142 => some c.scause
  | 0x143 => some c.stval
  | 0x144 => some (c.mip &&& c.mideleg)
  | 0x180 => if k.mode = .supervisor && bit c.mstatus 20 then none else some 0
  | 0x300 => some k.mstatusRead
  | 0x301 => some coreMisa
  | 0x302 => some c.medeleg
  | 0x303 => some c.mideleg
  | 0x304 => some c.mie
  | 0x305 => some c.mtvec
  | 0x306 => some c.mcounteren
  | 0x30A => some c.menvcfg
  | 0x340 => some c.mscratch
  | 0x341 => some c.mepc
  | 0x342 => some c.mcause
  | 0x343 => some c.mtval
  | 0x344 => some c.mip
  | 0xB00 => some (BitVec.ofNat 64 s.cycle + c.cycleOff)
  | 0xB02 => some (BitVec.ofNat 64 k.instret)
  | 0xC00 => counter 0 (BitVec.ofNat 64 s.cycle + c.cycleOff)
  | 0xC01 => counter 1 s.tickW
  | 0xC02 => counter 2 (BitVec.ofNat 64 k.instret)
  | 0xF11 | 0xF12 | 0xF13 | 0xF15 => some (Config.machineId n)
  | 0xF14 => some (Config.machineId (n + 4096 * (2560 + hart)))
  | _ => none

/-- The bits of `mstatus` that a write sets; MPP keeps its value when a write names no mode. -/
def mstatusMask (v : Word) : Word := if bitsN v 11 2 = 2 then 0x7E61AA else 0x7E79AA

/-- A write of a control register that exists and is writable. -/
def State.coreCsrWrite (s : State) (k : SCore) (n : Nat) (v : Word) : SCore :=
  let c := k.csr
  let put (c' : CoreCsr) : SCore := { k with csr := c' }
  match n with
  | 0x001 => { k with fcsr := (k.fcsr &&& 0xE0) ||| (v.truncate 8 &&& 0x1F) }.dirty
  | 0x002 => { k with fcsr := (k.fcsr &&& 0x1F) ||| (v.truncate 8 <<< 5) }.dirty
  | 0x003 => { k with fcsr := v.truncate 8 }.dirty
  | 0x100 => put { c with mstatus := putMask c.mstatus v (sstatusMask &&& 0x7E79AA) }
  | 0x104 => put { c with mie := putMask c.mie v (c.mideleg &&& 0xAAA) }
  | 0x105 => put { c with stvec := v &&& ~~~ (2#64) }
  | 0x106 => put { c with scounteren := v &&& 7 }
  | 0x10A => put { c with senvcfg := v &&& 1 }
  | 0x140 => put { c with sscratch := v }
  | 0x141 => put { c with sepc := v &&& ~~~ (1#64) }
  | 0x142 => put { c with scause := v }
  | 0x143 => put { c with stval := v }
  | 0x144 => put { c with mip := putMask c.mip v (c.mideleg &&& 2) }
  | 0x300 => put { c with mstatus := putMask c.mstatus v (mstatusMask v) }
  | 0x302 => put { c with medeleg := v &&& ~~~ (0x800#64) }
  | 0x303 => put { c with mideleg := v &&& 0x222 }
  | 0x304 => put { c with mie := v &&& 0xAAA }
  | 0x305 => put { c with mtvec := v &&& ~~~ (2#64) }
  | 0x306 => put { c with mcounteren := v &&& 7 }
  | 0x30A => put { c with menvcfg := v &&& 1 }
  | 0x340 => put { c with mscratch := v }
  | 0x341 => put { c with mepc := v &&& ~~~ (1#64) }
  | 0x342 => put { c with mcause := v }
  | 0x343 => put { c with mtval := v }
  | 0x344 => put { c with mip := putMask c.mip v 0x222 }
  | 0xB00 => put { c with cycleOff := v - BitVec.ofNat 64 s.cycle }
  | 0xB02 => { k with instret := v.toNat }
  | _ => k

/-! ## Memory (R317, R321) -/

/-- The memory bytes of an access. A service core reaches the privileged half, its U mode does not (R317). -/
def State.coreXlat (s : State) (mode : CoreMode) (k : AccKind) (a : Word) (n : Nat) : Except Nat (List Nat) :=
  if !rangeOk a n then .error 27
  else if 5 ≤ ownerOf a || (mode = .user && bit a 56) then .error k.accessFault
  else match s.xlatN ⟨none, mode = .user, true⟩ k a n with
    | .error f => .error (k.cause f)
    | .ok ks => .ok ks

/-- The mode under which loads and stores go: that of MPP under MPRV in M mode. -/
def SCore.dataMode (k : SCore) : CoreMode :=
  if k.mode = .machine && bit k.csr.mstatus 17 then CoreMode.ofLevel (bitsN k.csr.mstatus 11 2) else k.mode

/-- The instruction at the pc; its upper half is read only when the lower half calls for it. A fetch that faults has the codes 1 and
12 of RISC-V. -/
def State.coreFetch (s : State) (k : SCore) : Except Nat W32 :=
  let code (c : Nat) : Nat := if c = 5 then 1 else if c = 13 then 12 else c
  match s.coreXlat k.mode .load k.pc 2 with
  | .error c => .error (code c)
  | .ok lo =>
    let h := leNat (s.memBytes lo)
    if h % 4 ≠ 3 then .ok (BitVec.ofNat 32 h)
    else match s.coreXlat k.mode .load (k.pc + 2) 2 with
      | .error c => .error (code c)
      | .ok hi => .ok (BitVec.ofNat 32 (h + 65536 * leNat (s.memBytes hi)))

/-! ## One instruction -/

/-- What an instruction of a core comes to: a state and the core behind it, or a trap with its code and value. -/
abbrev CoreRes := Except (Nat × Word) (State × SCore)

/-- The rounding mode of an instruction; none where the dynamic one is reserved. -/
def SCore.rmOf (k : SCore) (rm : BitVec 3) : Option Rm :=
  Rm.ofCode (if rm = 7 then k.fcsr.toNat / 32 else rm.toNat)

/-- A load of `n` bytes at an address, and what follows from its value. -/
def State.coreLoad (s : State) (k : SCore) (a : Word) (n : Nat) (f : Nat → SCore) : CoreRes :=
  match s.coreXlat k.dataMode .load a n with
  | .error c => .error (c, a)
  | .ok ks => .ok (s, f (leNat (s.memBytes ks)))

/-- A store of `n` bytes. -/
def State.coreStore (s : State) (k : SCore) (a : Word) (n v : Nat) (after : SCore) : CoreRes :=
  match s.coreXlat k.dataMode .store a n with
  | .error c => .error (c, a)
  | .ok ks => .ok (s.memStore ks (leBytes n v) none, after)

/-- The A extension (R234); a misaligned atomic raises the access fault. -/
def State.coreAmo (s : State) (k : SCore) (a : Amo) (len : Nat) : CoreRes :=
  let n := if a.dw then 8 else 4
  let w := 8 * n
  let addr := k.get a.rs1
  let x := k.get a.rs2
  let kind : AccKind := if a.op = .lr then .load else if a.op = .sc then .store else .both
  if canonical addr && addr.toNat % n ≠ 0 then .error (kind.accessFault, addr)
  else
    match s.coreXlat k.dataMode kind addr n with
    | .error c => .error (c, addr)
    | .ok ks =>
      let line := ks.headD 0 / 128
      let old := leNat (s.memBytes ks)
      match a.op with
      | .lr => .ok (s, ({ k with resv := some line }.set a.rd (amoOld w old)).retire len)
      | .sc =>
        let k1 := { k with resv := none }
        if k.resv = some line then .ok (s.memStore ks (leBytes n x.toNat) none, (k1.set a.rd 0).retire len)
        else .ok (s, (k1.set a.rd 1).retire len)
      | op => .ok (s.memStore ks (leBytes n (amoVal op w (BitVec.ofNat w old) (x.truncate w)).toNat) none,
          (k.set a.rd (amoOld w old)).retire len)

/-- A CSR instruction; a register that does not exist, or that the mode may not access, is an illegal instruction. -/
def State.coreCsr (s : State) (k : SCore) (hart : Nat) (i : CsrI) (w : W32) : CoreRes :=
  let n := i.csr.toNat
  let src : Word := if i.imm then BitVec.ofNat 64 i.rs1.val else k.get i.rs1
  let wr := i.op == .rw || i.rs1 != 0
  let ill : CoreRes := .error (2, w.zeroExtend 64)
  match s.coreCsrRead k hart n with
  | none => ill
  | some old =>
    if k.mode.level < n / 256 % 4 || (wr && n / 1024 % 4 == 3) then ill
    else
      let new := match i.op with
        | .rw => src
        | .rs => old ||| src
        | .rc => old &&& ~~~ src
      let k1 := (k.set i.rd old).retire 4
      .ok (s, if wr then s.coreCsrWrite k1 n new else k1)

/-- A taken branch or a jump. -/
def SCore.branch (k : SCore) (b : Branch) (len : Nat) : SCore :=
  let t : Bool × Word × XReg := match b with
    | .br c a b off => (brTaken c (k.get a) (k.get b), k.pc + off.signExtend 64, 0)
    | .jal rd off => (true, k.pc + off.signExtend 64, rd)
    | .jalr rd a off => (true, (k.get a + off.signExtend 64) &&& ~~~ (1#64), rd)
  let n := k.retire len
  if t.1 then { n.set t.2.2 n.pc with pc := t.2.1 } else n

def SCore.intResult (k : SCore) : IntOp → XReg × Word
  | .rr op rd a b => (rd, ropVal op (k.get a) (k.get b))
  | .ri op rd a imm => (rd, iopVal op (k.get a) imm)
  | .sh op rd a n => (rd, shVal op (k.get a) n.toNat)
  | .un op rd a => (rd, uopVal op (k.get a))
  | .lui rd imm => (rd, (imm ++ 0#12).signExtend 64)
  | .auipc rd imm => (rd, k.pc + (imm ++ 0#12).signExtend 64)

/-- The core with a floating-point register and flags written. -/
def SCore.fpWrite (k : SCore) (rd : XReg) (v : Word) (flags : BitVec 5) : SCore :=
  { k with fs := k.fs.set rd v, fcsr := k.fcsr ||| flags.zeroExtend 8 }.dirty

/-- An operation of F or D, whose extension is on and whose rounding mode is none that is reserved. -/
def SCore.fp (k : SCore) (op : FpOp) (dbl : Bool) (rm : Rm) (rd rs1 rs2 : XReg) : SCore :=
  let a := k.fs[rs1]
  let b := k.fs[rs2]
  if op.toX then
    let r := fpToX op dbl rm (fpIn dbl a) (fpIn dbl b) a
    ({ k with fcsr := k.fcsr ||| r.2.zeroExtend 8 }.dirty).set rd r.1
  else
    let r := fpToF op dbl rm (fpIn dbl a) (fpIn dbl b) (fpIn (!dbl) a) (k.get rs1)
    k.fpWrite rd (fpOut dbl r.1) r.2

/-- The rounding mode matters to the operation, so that a reserved dynamic one is illegal. -/
def FpOp.rounds : FpOp → Bool
  | .add | .sub | .mul | .div | .sqrt | .toInt _ _ | .ofInt _ _ | .cvt => true
  | _ => false

/-- The meaning of an instruction of `len` bytes on a core. -/
def State.coreExec (s : State) (k : SCore) (hart : Nat) (i : CoreInsn) (len : Nat) (w : W32) : CoreRes :=
  let ill : CoreRes := .error (2, w.zeroExtend 64)
  let m := k.csr.mstatus
  match i with
  | .int op =>
    let r := k.intResult op
    .ok (s, (k.set r.1 r.2).retire len)
  | .br b => .ok (s, k.branch b len)
  | .load w rd rs1 imm => s.coreLoad k (k.get rs1 + imm.signExtend 64) w.bytes fun v => (k.set rd (w.extend v)).retire len
  | .store w rs2 rs1 imm => s.coreStore k (k.get rs1 + imm.signExtend 64) w.bytes (k.get rs2).toNat (k.retire len)
  | .fence => .ok (s, k.retire len)
  | .amo a => s.coreAmo k a len
  | .csr c => s.coreCsr k hart c w
  | .ecall => .error (8 + k.mode.level, 0)
  | .ebreak => .error (3, 0)
  | .mret => if k.mode = .machine then .ok (s, k.mret) else ill
  | .sret => if k.mode = .user || (k.mode = .supervisor && bit m 22) then ill else .ok (s, k.sret)
  | .wfi => if k.mode = .user || (k.mode = .supervisor && bit m 21) then ill else .ok (s, k.retire len)
  | .sfence => if k.mode = .user || (k.mode = .supervisor && bit m 20) then ill else .ok (s, k.retire len)
  | .fload dbl rd rs1 imm =>
    if !k.fpOn then ill
    else s.coreLoad k (k.get rs1 + imm.signExtend 64) (if dbl then 8 else 4) fun v => (k.fpWrite rd (fpOut dbl v) 0).retire len
  | .fstore dbl rs2 rs1 imm =>
    if !k.fpOn then ill
    else s.coreStore k (k.get rs1 + imm.signExtend 64) (if dbl then 8 else 4) (k.fs[rs2]).toNat (k.retire len)
  | .fp op dbl rm rd rs1 rs2 =>
    match k.fpOn, if op.rounds then k.rmOf rm else some .rne with
    | true, some r => .ok (s, (k.fp op dbl r rd rs1 rs2).retire len)
    | _, _ => ill
  | .fma np nc dbl rm rd rs1 rs2 rs3 =>
    match k.fpOn, k.rmOf rm with
    | true, some r =>
      let v := (fpFmt dbl).fused r np nc (fpIn dbl k.fs[rs1]) (fpIn dbl k.fs[rs2]) (fpIn dbl k.fs[rs3])
      .ok (s, (k.fpWrite rd (fpOut dbl v.1) v.2).retire len)
    | _, _ => ill

/-- A core comes to its next instruction boundary: an interrupt, a fetch that faults, or an instruction, which may trap. -/
def State.coreStep (s : State) (k : SCore) (hart : Nat) : State × SCore :=
  match k.irqNow with
  | some n => (s, k.enterTrap n true 0)
  | none =>
    match s.coreFetch k with
    | .error c => (s, k.enterTrap c false k.pc)
    | .ok w =>
      match coreDecode w with
      | none => (s, k.enterTrap 2 false (if bitsN w 0 2 = 3 then w.zeroExtend 64 else BitVec.ofNat 64 (bitsN w 0 16)))
      | some (i, len) =>
        match s.coreExec k hart i len w with
        | .ok r => r
        | .error (c, v) => (s, k.enterTrap c false v)

/-- The cores of a pair that runs execute one instruction in lock-step. A pair whose two cores disagree on it stops itself, and what
they would have done does not happen (R364). -/
def State.runPair (s : State) (r : Fin 5) : State :=
  let p := s.cores[r]
  if !s.svc.live r.val then s
  else
    let a := s.coreStep p[0] r.val
    let b := s.coreStep p[1] r.val
    if a.2 = b.2 then { a.1 with cores := a.1.cores.set r (Vector.replicate 2 a.2) } else outState s (execLockstepStop r s)

end Sys2Proof.Machine
end

