-- ==== Sys2Proof/Machine/Links.lean ====
section
/-! DEFINITION. What comes in from outside the package: peer transfers (R208, R225, R235, R282, R331, R354, R355, R380), the
training and the failure of links (R348, R353, R355), and the host's accesses and snoops (R239, R332, R380). -/

namespace Sys2Proof.Machine

/-! ## The receiver's end (R15, R208, R235, R282, R354, R380) -/

/-- A grant entry admits a transfer (R208). -/
def grantAdmits (g : Grant) (x : Xfer) : Bool :=
  (g.chip == none || g.chip == some x.schip) && (g.hearth == none || g.hearth == some x.shearth) &&
    decide (g.at_ ≤ x.roff) && decide (x.roff + x.data.length ≤ g.at_ + g.len) && (!x.hnden || g.handler == some x.hoff)

/-- The hearth's image admits a transfer, whose sender belongs to a world that may reach the hearth's (R208, R354, R380). -/
def Hearth.admits (y : Hearth) (x : Xfer) : Bool :=
  match y.img with
  | none => false
  | some i => (x.ssec || !y.sec) && i.grants.any fun g => grantAdmits g x

/-- Contexts that an arrival may take. -/
def Hearth.takers (y : Hearth) : Nat := (y.ctxs.toList.filter fun k => k.st == .armed || k.st == .free).length

/-- Handler starts that a stopped hearth holds (R282). -/
def Hearth.heldStarts (y : Hearth) : Nat := (y.hob.held.filter fun e => match e with
  | .handler _ => true
  | _ => false).length

/-- A transfer with a handler has been admitted and has not arrived whole. -/
def Hearth.comingStarts (y : Hearth) : Nat := (y.arriving.filter fun i => i.x.hnden).length

/-- What keeps an update or a handler start back: the arrival queue has no room for one more handler, or the held list none for one
more update (R235, R282). -/
def Hearth.backlog (y : Hearth) (x : Xfer) (coming : Nat) : Bool :=
  (x.hnden && decide (Config.arrivalEntries + y.takers ≤ y.arrQ.length + y.heldStarts + coming)) ||
    ((x.flagen || x.hnden) && !y.heldRoom 1)

/-- A transfer must wait at the port: the hearth is saved or being saved, or the transfer's update or handler would find no room (R235,
R282, R331). -/
def State.portHolds (s : State) (h : Fin 640) (x : Xfer) : Bool :=
  let y := s.hearth h
  y.idle || s.isSaved h || y.backlog x y.comingStarts

/-- What the descriptor of a handler's arrival holds (R236). -/
def State.arrivalOf (s : State) (x : Xfer) : Arrival :=
  { tick := s.tick, lenb := x.data.length, roff := x.roff, hoff := x.hoff, flagen := x.flagen,
    rflag := if x.flagen then x.rflag else 0, shearth := x.shearth, schip := x.schip }

/-- The payload stands: the flag is added, and then the handler is started or queued (R208, R235, R282). -/
def State.arrived (s : State) (h : Fin 640) (x : Xfer) : State :=
  let a := s.arrivalOf x
  let s1 := if x.flagen then s.flagAdd h (.peer a) x.rflag x.rval none else s
  if !x.hnden then s1
  else if (s1.hearth h).hob.stopped then s1.pushHeld h (.handler a)
  else s1.startHandler h a

/-- Some granules of an admitted transfer arrive, each at one point (R225). Behind the last one come its flag and its handler, and the
acknowledgement; while these find no room, the last granules wait. -/
def State.letIn (s : State) (h : Fin 640) (i : Incoming) (gs : List Nat) : State :=
  let y := s.hearth h
  let now := i.left.filter gs.contains
  let left := i.left.filter fun g => !gs.contains g
  let others := y.arriving.erase i
  let written := now.foldl (fun z g => z.putGranule i.x g) { y with arriving := others }
  if !left.isEmpty then s.setHearth h { written with arriving := others ++ [{ i with left := left }] }
  else if written.backlog i.x 0 then s
  else ((s.setHearth h written).arrived h i.x).answerPeer i.x true

/-- A transfer crosses a port, which counts its bytes (R287). -/
def State.carry (s : State) (p : Option (Fin 8)) (x : Xfer) : State :=
  match p with
  | none => s
  | some q => { s with links := { s.links with carried := s.links.carried.set q (s.links.carried[q] + x.data.length) } }

/-- The port through which transfers to a chip leave, while it is up (R353, R355). -/
def Links.route (l : Links) (chip : Nat) : Option (Fin 8) :=
  ((l.routes.find? fun p => p.1 == chip && (l.ports[p.2]).up)).map (·.2)

/-- The transfer is on its way, waits at a port, or comes from another chip, by the port of the route to it; one that a saved hearth has begun to take waits for its
restore. -/
def State.takeXfer (s : State) (x : Xfer) : Option State :=
  if s.links.wire.contains x then some { s with links := { s.links with wire := s.links.wire.erase x } }
  else if s.hearths.toList.any fun y => y.port.contains x then
    some { s with hearths := s.hearths.map fun y => { y with port := y.port.erase x } }
  else if x.schip ≠ s.links.chip && !s.saved.any (fun p => p.2.port.contains x || p.2.arriving.any fun i => i.x == x) then
    some (s.carry (s.links.route x.schip) x)
  else none

/-- A transfer to another chip: no route reaches it, its `HEARTH` names none, or its receiver, which is another machine, admits or
refuses it (R208, R354, R355, log entry 12). -/
def State.sendAway (s : State) (x : Xfer) : State :=
  if 640 ≤ x.dhearth || (s.links.route x.dchip).isNone then s.answerPeer x false
  else
    let v := (s.carry (s.links.route x.dchip) x).open_
    v.2.answerPeer x (bit v.1 0)

/-- A transfer to a hearth of this package: held at the port, refused, or admitted, and then some of its granules arrive. -/
def State.receive (s : State) (x : Xfer) (gs : List Nat) : State :=
  if 640 ≤ x.dhearth then s.answerPeer x false
  else
    let h : Fin 640 := Fin.ofNat 640 x.dhearth
    let y := s.hearth h
    if y.idle || s.isSaved h then s.setHearth h { y with port := y.port ++ [x] }
    else if !y.admits x then s.answerPeer x false
    else if s.portHolds h x then s.setHearth h { y with port := y.port ++ [x] }
    else
      let i : Incoming := ⟨x, xferGranules x⟩
      (s.setHearth h { y with arriving := y.arriving ++ [i] }).letIn h i gs

/-- The hearth that has begun to take a transfer, and what is left of it. -/
def State.incoming (s : State) (x : Xfer) : Option (Fin 640 × Incoming) :=
  if x.dhearth < 640 && x.dchip == s.links.chip then
    let h : Fin 640 := Fin.ofNat 640 x.dhearth
    (((s.hearth h).arriving.find? fun i => i.x == x)).map fun i => (h, i)
  else none

/-- PEER_ARRIVAL (R208, R225, R354). -/
def execPeerArrival (x : Xfer) (gs : List Nat) (s : State) : Out :=
  .next <|
    match s.incoming x with
    | some (h, i) => if (s.hearth h).idle then s else s.letIn h i gs
    | none =>
      match s.takeXfer x with
      | none => s
      | some t =>
        if x.dchip ≠ t.links.chip then (if t.isOwn x then t.sendAway x else s) else t.receive x gs

/-! ## Links (R348, R353, R355) -/

def State.setLinks (s : State) (l : Links) : State := { s with links := l }

/-- LINK_TRAINING (R348, R353): generations and widths that the links do not train at change nothing. -/
def execLinkTraining (e : LinkEv) (s : State) : Out :=
  let l := s.links
  .next <|
    match e with
    | .pcie gen width =>
      if [60, 50, 40].contains gen && [16, 8].contains width then s.setLinks { l with pcieGen := gen, pcieWidth := width } else s
    | .cxl ok gen width =>
      if !ok then s.setLinks { l with cxlUp := false }
      else if [31, 30, 20].contains gen && [16, 8].contains width then
        s.setLinks { l with cxlUp := true, cxlGen := gen, cxlWidth := width }
      else s
    | .selaris p ok chip routes =>
      if (l.ports[p]).failed || 1024 ≤ chip then s
      else if !ok then s.setLinks { l with ports := l.ports.set p ⟨false, false⟩, routes := l.routes.filter fun q => q.2 != p }
      else
        let new := routes.filter fun c => decide (c < 1024) && c != chip
        s.setLinks { l with
          ports := l.ports.set p ⟨true, false⟩, chip := chip,
          routes := (l.routes.filter fun q => q.2 != p && !new.contains q.1 && q.1 != chip) ++ new.map fun c => (c, p) }

/-- An outgoing transfer that crossed a failed port ends at its sender as refused (R355). -/
def State.killXfer (s : State) (p : Fin 8) (d : Nat × Nat) : State :=
  match s.links.wire.find? fun x =>
      s.isOwn x && s.links.route x.dchip == some p && x.shearth == d.1 && x.sseq == some d.2 with
  | none => s
  | some x => (s.setLinks { s.links with wire := s.links.wire.erase x }).answerPeer x false

/-- An incoming transfer that was cut short: the granules that it has written stand, and its flag and handler never occur (R355). -/
def State.cutXfer (s : State) (x : Xfer) : State :=
  if x.schip = s.links.chip then s
  else
    let gone (y : Hearth) : Hearth :=
      { y with port := y.port.filter fun z => z != x, arriving := y.arriving.filter fun i => i.x != x }
    { s with hearths := s.hearths.map gone, saved := s.saved.map fun p => (p.1, gone p.2) }

/-- PORT_FAILURE (R355): a port fails permanently, and the routes through it are gone. `dead` names the transfers of this package that
were crossing it, by hearth and sequence number, and `cut` those that were coming in. -/
def execPortFailure (p : Fin 8) (dead : List (Nat × Nat)) (cut : List Xfer) (s : State) : Out :=
  .next <|
    if !(s.links.ports[p]).up then s
    else
      let s1 := cut.foldl State.cutXfer (dead.foldl (fun t d => t.killXfer p d) s)
      s1.setLinks { s1.links with ports := s1.links.ports.set p ⟨false, true⟩, routes := s1.links.routes.filter fun q => q.2 != p }

/-- TRANSFER_FORWARD (R353): a transfer between two other chips, which has come in at a port, leaves through the port of the route to its
chip, without this package's hearths or memory. -/
def execTransferForward (p : Fin 8) (x : Xfer) (s : State) : Out :=
  let l := s.links
  .next <|
    match l.route x.dchip with
    | some q =>
      if (l.ports[p]).up && x.schip != l.chip && x.dchip != l.chip then
        ({ s with links := { l with forwarded := l.forwarded ++ [(q, x)] } }.carry (some p) x).carry (some q) x
      else s
    | none => s

/-! ## The host (R239, R332, R380) -/

/-- HOST_SNOOP (R332): answered at once, with the bytes as the last stores left them. -/
def execHostSnoop (addr n : Nat) (s : State) : Out :=
  .next (if s.links.cxlUp then s.setLinks { s.links with answered := (addr, s.hostBytes addr n) :: s.links.answered } else s)

/-- A host access reaches a byte of a secure region (R379, R380). -/
def State.hostDenied (s : State) (addr n : Nat) : Bool :=
  (List.range n).any fun i => s.secureAt ((addr + i) / 2 ^ 48) ((addr + i) % 2 ^ 48)

/-- The host reaches a place: its own memory, or over CXL the memories of the dies and the pool (R348). Its own addresses from 2^48 on stand
behind every space (`hostKey`). -/
def State.hostReaches (s : State) (addr n : Nat) : Bool :=
  let sp := addr / 2 ^ 48
  (decide (addr % 2 ^ 48 + n ≤ spaceBytes sp) && (sp == 5 || (s.links.cxlUp && decide (sp < 7)))) ||
    (decide (2 ^ 64 + 2 ^ 48 ≤ addr) && decide (addr + n ≤ 2 ^ 65))

/-- Where the host finds a register: BAR0 or BAR2, and the offset there (R349, R370, log entry 66). -/
def barPlace : BarReg → Nat
  | .callAddr => 2 ^ 60
  | .callStat => 2 ^ 60 + 0x10
  | .bootStat => 2 ^ 60 + 0x18
  | .chipNum => 2 ^ 60 + 0x20
  | .resv0 off => 2 ^ 60 + off
  | .head q => 2 ^ 61 + 16 * q.val + 8

/-- HOST_MEMORY_ACCESS (R239, R349, R370, R380): a load or a store of the host, at one point of the memory order, where one that
reaches a secure byte moves no data; or a read of a register. `addr` is space × 2^48 + physical address. -/
def execHostMemoryAccess (a : HostAcc) (s : State) : Out :=
  let l := s.links
  .next <|
    match a with
    | .load addr n =>
      if !s.hostReaches addr n then s
      else if s.hostDenied addr n then s.setLinks { l with hostFaults := l.hostFaults + 1 }
      else s.setLinks { l with answered := (addr, s.mem.bytes addr n) :: l.answered }
    | .store addr bs =>
      if !s.hostReaches addr bs.length then s
      else if s.hostDenied addr bs.length then s.setLinks { l with hostFaults := l.hostFaults + 1 }
      else (s.setMem (s.mem.store addr bs)).clearResvMem ((List.range bs.length).map (addr + ·)) none
    | .reg r => s.setLinks { l with answered := (barPlace r, leBytes 8 (s.barRead r).toNat) :: l.answered }

end Sys2Proof.Machine
end

