-- ==== Sys2Proof/Machine/Dispatch.lean ====
section
/-! DEFINITION. The dispatch of every row of the opcode table to its meaning. -/

namespace Sys2Proof.Machine

def exec (i : Instr) (s : State) : Host.Outcome State Fault Refusal :=
  match i with
  | .kIssue idx => Sys2Proof.Machine.execKIssue idx s
  | .kIssuex idx xa xb => Sys2Proof.Machine.execKIssuex idx xa xb s
  | .kTick rd => Sys2Proof.Machine.execKTick rd s
  | .kDrain => Sys2Proof.Machine.execKDrain s
  | .kTrap code => Sys2Proof.Machine.execKTrap code s
  | .kFlset fl xs => Sys2Proof.Machine.execKFlset fl xs s
  | .kFladd fl xs => Sys2Proof.Machine.execKFladd fl xs s
  | .kFlrd rd fl => Sys2Proof.Machine.execKFlrd rd fl s
  | .kWin wn xa xb => Sys2Proof.Machine.execKWin wn xa xb s
  | .kWinrd rd wn hi => Sys2Proof.Machine.execKWinrd rd wn hi s
  | .kWait rd xt off n1 all => Sys2Proof.Machine.execKWait rd xt off n1 all s
  | .kDone => Sys2Proof.Machine.execKDone s
  | .kYield => Sys2Proof.Machine.execKYield s
  | .kSusp xs => Sys2Proof.Machine.execKSusp xs s
  | .kSpawn xa xn => Sys2Proof.Machine.execKSpawn xa xn s
  | .kGrpMake xa xn => Sys2Proof.Machine.execKGrpMake xa xn s
  | .kGrpJoin rd xa => Sys2Proof.Machine.execKGrpJoin rd xa s
  | .kGrpLeave xa => Sys2Proof.Machine.execKGrpLeave xa s
  | .kGrpBar xa => Sys2Proof.Machine.execKGrpBar xa s
  | .kArm xs => Sys2Proof.Machine.execKArm xs s
  | .kRgnEnter id => Sys2Proof.Machine.execKRgnEnter id s
  | .kRgnLeave => Sys2Proof.Machine.execKRgnLeave s
  | .kSpl rd off => Sys2Proof.Machine.execKSpl rd off s
  | .kSps xs off => Sys2Proof.Machine.execKSps xs off s
  | .kAmocAdd a => Sys2Proof.Machine.execKAmocAdd a s
  | .kAmocSwap a => Sys2Proof.Machine.execKAmocSwap a s
  | .kAmocCas a => Sys2Proof.Machine.execKAmocCas a s
  | .kAmocOr a => Sys2Proof.Machine.execKAmocOr a s
  | .kAmocAnd a => Sys2Proof.Machine.execKAmocAnd a s
  | .kAmocMin a => Sys2Proof.Machine.execKAmocMin a s
  | .kAmocMax a => Sys2Proof.Machine.execKAmocMax a s
  | .ecall => Sys2Proof.Machine.execEcall s
  | .ebreak => Sys2Proof.Machine.execEbreak s
  | .wfi => Sys2Proof.Machine.execWfi s
  | .fence fm pred succ rs1 rd => Sys2Proof.Machine.execFence fm pred succ rs1 rd s
  | .fenceI imm rs1 rd => Sys2Proof.Machine.execFenceI imm rs1 rd s
  | .csrAccess a => Sys2Proof.Machine.execCsrAccess a s
  | .load wd rd rs1 imm => Sys2Proof.Machine.execLoad wd rd rs1 imm s
  | .store wd rs2 rs1 imm => Sys2Proof.Machine.execStore wd rs2 rs1 imm s
  | .amo a => Sys2Proof.Machine.execAmo a s
  | .apertureAccess => Sys2Proof.Machine.execApertureAccess s
  | .vAdd f => Sys2Proof.Machine.execVAdd f s
  | .vSub f => Sys2Proof.Machine.execVSub f s
  | .vMul f => Sys2Proof.Machine.execVMul f s
  | .vMulh f => Sys2Proof.Machine.execVMulh f s
  | .vFma f => Sys2Proof.Machine.execVFma f s
  | .vFms f => Sys2Proof.Machine.execVFms f s
  | .vFnma f => Sys2Proof.Machine.execVFnma f s
  | .vMin f => Sys2Proof.Machine.execVMin f s
  | .vMax f => Sys2Proof.Machine.execVMax f s
  | .vAbs f => Sys2Proof.Machine.execVAbs f s
  | .vNeg f => Sys2Proof.Machine.execVNeg f s
  | .vAdiff f => Sys2Proof.Machine.execVAdiff f s
  | .vClamp f => Sys2Proof.Machine.execVClamp f s
  | .vSgnj f => Sys2Proof.Machine.execVSgnj f s
  | .vRint f => Sys2Proof.Machine.execVRint f s
  | .vRcp f => Sys2Proof.Machine.execVRcp f s
  | .vRsqrt f => Sys2Proof.Machine.execVRsqrt f s
  | .vExp2 f => Sys2Proof.Machine.execVExp2 f s
  | .vLog2 f => Sys2Proof.Machine.execVLog2 f s
  | .vCmpeq f => Sys2Proof.Machine.execVCmpeq f s
  | .vCmpne f => Sys2Proof.Machine.execVCmpne f s
  | .vCmplt f => Sys2Proof.Machine.execVCmplt f s
  | .vCmple f => Sys2Proof.Machine.execVCmple f s
  | .vCmpgt f => Sys2Proof.Machine.execVCmpgt f s
  | .vCmpge f => Sys2Proof.Machine.execVCmpge f s
  | .vCmpun f => Sys2Proof.Machine.execVCmpun f s
  | .vSel f => Sys2Proof.Machine.execVSel f s
  | .vAnd f => Sys2Proof.Machine.execVAnd f s
  | .vOr f => Sys2Proof.Machine.execVOr f s
  | .vXor f => Sys2Proof.Machine.execVXor f s
  | .vNot f => Sys2Proof.Machine.execVNot f s
  | .vAndn f => Sys2Proof.Machine.execVAndn f s
  | .vSll f => Sys2Proof.Machine.execVSll f s
  | .vSrl f => Sys2Proof.Machine.execVSrl f s
  | .vSra f => Sys2Proof.Machine.execVSra f s
  | .vRol f => Sys2Proof.Machine.execVRol f s
  | .vRor f => Sys2Proof.Machine.execVRor f s
  | .vFsl f => Sys2Proof.Machine.execVFsl f s
  | .vFsr f => Sys2Proof.Machine.execVFsr f s
  | .vClz f => Sys2Proof.Machine.execVClz f s
  | .vCtz f => Sys2Proof.Machine.execVCtz f s
  | .vFfs f => Sys2Proof.Machine.execVFfs f s
  | .vPop f => Sys2Proof.Machine.execVPop f s
  | .vBrev f => Sys2Proof.Machine.execVBrev f s
  | .vCvt f => Sys2Proof.Machine.execVCvt f s
  | .vCvtef f => Sys2Proof.Machine.execVCvtef f s
  | .vPbpack f => Sys2Proof.Machine.execVPbpack f s
  | .vPbunpk f => Sys2Proof.Machine.execVPbunpk f s
  | .vRotr f => Sys2Proof.Machine.execVRotr f s
  | .vBcr f => Sys2Proof.Machine.execVBcr f s
  | .vSumr f => Sys2Proof.Machine.execVSumr f s
  | .vMaxr f => Sys2Proof.Machine.execVMaxr f s
  | .vMinr f => Sys2Proof.Machine.execVMinr f s
  | .vAndr f => Sys2Proof.Machine.execVAndr f s
  | .vOrr f => Sys2Proof.Machine.execVOrr f s
  | .vScsumr f => Sys2Proof.Machine.execVScsumr f s
  | .vScmaxr f => Sys2Proof.Machine.execVScmaxr f s
  | .vScminr f => Sys2Proof.Machine.execVScminr f s
  | .vRotc f => Sys2Proof.Machine.execVRotc f s
  | .vBcc f => Sys2Proof.Machine.execVBcc f s
  | .vSumc f => Sys2Proof.Machine.execVSumc f s
  | .vMaxc f => Sys2Proof.Machine.execVMaxc f s
  | .vMinc f => Sys2Proof.Machine.execVMinc f s
  | .vAndc f => Sys2Proof.Machine.execVAndc f s
  | .vOrc f => Sys2Proof.Machine.execVOrc f s
  | .vScsumc f => Sys2Proof.Machine.execVScsumc f s
  | .vScmaxc f => Sys2Proof.Machine.execVScmaxc f s
  | .vScminc f => Sys2Proof.Machine.execVScminc f s
  | .vPerm f => Sys2Proof.Machine.execVPerm f s
  | .vIota f => Sys2Proof.Machine.execVIota f s
  | .vMovi f => Sys2Proof.Machine.execVMovi f s
  | .vMov f => Sys2Proof.Machine.execVMov f s
  | .vLut8 f => Sys2Proof.Machine.execVLut8 f s
  | .vLut16 f => Sys2Proof.Machine.execVLut16 f s
  | .vZip f => Sys2Proof.Machine.execVZip f s
  | .vUnzip f => Sys2Proof.Machine.execVUnzip f s
  | .vLd f => Sys2Proof.Machine.execVLd f s
  | .vSt f => Sys2Proof.Machine.execVSt f s
  | .vStm f => Sys2Proof.Machine.execVStm f s
  | .vGath f => Sys2Proof.Machine.execVGath f s
  | .vScat f => Sys2Proof.Machine.execVScat f s
  | .vPand f => Sys2Proof.Machine.execVPand f s
  | .vPor f => Sys2Proof.Machine.execVPor f s
  | .vPxor f => Sys2Proof.Machine.execVPxor f s
  | .vPandn f => Sys2Proof.Machine.execVPandn f s
  | .vPnot f => Sys2Proof.Machine.execVPnot f s
  | .vPset f => Sys2Proof.Machine.execVPset f s
  | .vPmov f => Sys2Proof.Machine.execVPmov f s
  | .vPcnt f => Sys2Proof.Machine.execVPcnt f s
  | .mxCfg f => Sys2Proof.Machine.execMxCfg f s
  | .mxLdb f => Sys2Proof.Machine.execMxLdb f s
  | .mxGo f => Sys2Proof.Machine.execMxGo f s
  | .mxDrain f => Sys2Proof.Machine.execMxDrain f s
  | .mxZero f => Sys2Proof.Machine.execMxZero f s
  | .mxScale f => Sys2Proof.Machine.execMxScale f s
  | .mxRdst f => Sys2Proof.Machine.execMxRdst f s
  | .soLd f => Sys2Proof.Machine.execSoLd f s
  | .soSort f => Sys2Proof.Machine.execSoSort f s
  | .soStep f => Sys2Proof.Machine.execSoStep f s
  | .soTopk f => Sys2Proof.Machine.execSoTopk f s
  | .soMerge f => Sys2Proof.Machine.execSoMerge f s
  | .soSt f => Sys2Proof.Machine.execSoSt f s
  | .soSave f => Sys2Proof.Machine.execSoSave f s
  | .soRest f => Sys2Proof.Machine.execSoRest f s
  | .soClr f => Sys2Proof.Machine.execSoClr f s
  | .cpLin f => Sys2Proof.Machine.execCpLin f s
  | .cp2d f => Sys2Proof.Machine.execCp2d f s
  | .cpList f => Sys2Proof.Machine.execCpList f s
  | .cpXf f => Sys2Proof.Machine.execCpXf f s
  | .cpPeer f => Sys2Proof.Machine.execCpPeer f s
  | .cpFill f => Sys2Proof.Machine.execCpFill f s
  | .sxSearch f => Sys2Proof.Machine.execSxSearch f s
  | .sxScan f => Sys2Proof.Machine.execSxScan f s
  | .sxAppend f => Sys2Proof.Machine.execSxAppend f s
  | .sxFetch f => Sys2Proof.Machine.execSxFetch f s
  | .sxDel f => Sys2Proof.Machine.execSxDel f s
  | .sxStat f => Sys2Proof.Machine.execSxStat f s
  | .flNop f => Sys2Proof.Machine.execFlNop f s
  | .flAdd f => Sys2Proof.Machine.execFlAdd f s
  | .flSet f => Sys2Proof.Machine.execFlSet f s
  | .flWait f => Sys2Proof.Machine.execFlWait f s
  | .commandAcceptance => Sys2Proof.Machine.execCommandAcceptance s
  | .matrixWindowAcceptance => Sys2Proof.Machine.execMatrixWindowAcceptance s
  | .commandCompletion seqs => Sys2Proof.Machine.execCommandCompletion seqs s
  | .asyncTrap => Sys2Proof.Machine.execAsyncTrap s
  | .waitConditionMet => Sys2Proof.Machine.execWaitConditionMet s
  | .waitDeadlineExpiry => Sys2Proof.Machine.execWaitDeadlineExpiry s
  | .wfiTimeout => Sys2Proof.Machine.execWfiTimeout s
  | .drainComplete => Sys2Proof.Machine.execDrainComplete s
  | .barrierRelease => Sys2Proof.Machine.execBarrierRelease s
  | .spawnAccepted => Sys2Proof.Machine.execSpawnAccepted s
  | .peerArrival x gs => Sys2Proof.Machine.execPeerArrival x gs s
  | .queuedArrivalStart => Sys2Proof.Machine.execQueuedArrivalStart s
  | .recordDispatch => Sys2Proof.Machine.execRecordDispatch s
  | .cirrusTaskDispatch e => Sys2Proof.Machine.execCirrusTaskDispatch e s
  | .recordCompletion wq addr qst => Sys2Proof.Machine.execRecordCompletion wq addr qst s
  | .graphNodeCreation g node addr => Sys2Proof.Machine.execGraphNodeCreation g node addr s
  | .ageLimitReport wq addr => Sys2Proof.Machine.execAgeLimitReport wq addr s
  | .imageColdStart image => Sys2Proof.Machine.execImageColdStart image s
  | .dbell q v => Sys2Proof.Machine.execDbell q v s
  | .registerWrite r v => Sys2Proof.Machine.execRegisterWrite r v s
  | .preemption a => Sys2Proof.Machine.execPreemption a s
  | .preemptionRestore n => Sys2Proof.Machine.execPreemptionRestore n s
  | .faultServiced f fixes => Sys2Proof.Machine.execFaultServiced f fixes s
  | .faultRefused f => Sys2Proof.Machine.execFaultRefused f s
  | .sideLogReplay => Sys2Proof.Machine.execSideLogReplay s
  | .breakpointHit => Sys2Proof.Machine.execBreakpointHit s
  | .hobAttach h sess => Sys2Proof.Machine.execHobAttach h sess s
  | .hobBreakPc off c => Sys2Proof.Machine.execHobBreakPc off c s
  | .hobBreakRgn id e => Sys2Proof.Machine.execHobBreakRgn id e s
  | .hobDelete n => Sys2Proof.Machine.execHobDelete n s
  | .hobList => Sys2Proof.Machine.execHobList s
  | .hobCont => Sys2Proof.Machine.execHobCont s
  | .hobStep => Sys2Proof.Machine.execHobStep s
  | .hobRegs => Sys2Proof.Machine.execHobRegs s
  | .hobShowV n => Sys2Proof.Machine.execHobShowV n s
  | .hobShowP n => Sys2Proof.Machine.execHobShowP n s
  | .hobShowW n => Sys2Proof.Machine.execHobShowW n s
  | .hobShowFlags => Sys2Proof.Machine.execHobShowFlags s
  | .hobShowSb => Sys2Proof.Machine.execHobShowSb s
  | .hobShowQ => Sys2Proof.Machine.execHobShowQ s
  | .hobShowHeld => Sys2Proof.Machine.execHobShowHeld s
  | .hobShowAcc n => Sys2Proof.Machine.execHobShowAcc n s
  | .hobShowSmax n => Sys2Proof.Machine.execHobShowSmax n s
  | .hobShowSa => Sys2Proof.Machine.execHobShowSa s
  | .hobShowNest => Sys2Proof.Machine.execHobShowNest s
  | .hobDecode n => Sys2Proof.Machine.execHobDecode n s
  | .hobMem a n => Sys2Proof.Machine.execHobMem a n s
  | .hobTrace on => Sys2Proof.Machine.execHobTrace on s
  | .hobChimney k => Sys2Proof.Machine.execHobChimney k s
  | .chimneyLatch => Sys2Proof.Machine.execChimneyLatch s
  | .leaseRebase => Sys2Proof.Machine.execLeaseRebase s
  | .readRetry r => Sys2Proof.Machine.execReadRetry r s
  | .mergePublish idx pages => Sys2Proof.Machine.execMergePublish idx pages s
  | .logReclaim idx => Sys2Proof.Machine.execLogReclaim idx s
  | .linkTraining e => Sys2Proof.Machine.execLinkTraining e s
  | .portFailure p dead cut => Sys2Proof.Machine.execPortFailure p dead cut s
  | .hostSnoop addr n => Sys2Proof.Machine.execHostSnoop addr n s
  | .heartbeat => Sys2Proof.Machine.execHeartbeat s
  | .leadershipTakeover r => Sys2Proof.Machine.execLeadershipTakeover r s
  | .lockstepStop r => Sys2Proof.Machine.execLockstepStop r s
  | .powerGrantPeriod gs sh => Sys2Proof.Machine.execPowerGrantPeriod gs sh s
  | .thermalLimit w => Sys2Proof.Machine.execThermalLimit w s
  | .boot r => Sys2Proof.Machine.execBoot r s
  | .imageRegister r => Sys2Proof.Machine.execImageRegister r s
  | .imageUnregister r => Sys2Proof.Machine.execImageUnregister r s
  | .queueCreate r => Sys2Proof.Machine.execQueueCreate r s
  | .queueTeardown r => Sys2Proof.Machine.execQueueTeardown r s
  | .queueReset r => Sys2Proof.Machine.execQueueReset r s
  | .queueErrors r => Sys2Proof.Machine.execQueueErrors r s
  | .map r => Sys2Proof.Machine.execMap r s
  | .unmap r => Sys2Proof.Machine.execUnmap r s
  | .setHome r => Sys2Proof.Machine.execSetHome r s
  | .migrate r => Sys2Proof.Machine.execMigrate r s
  | .ageLimit r => Sys2Proof.Machine.execAgeLimit r s
  | .routineLoad r => Sys2Proof.Machine.execRoutineLoad r s
  | .routineUnload r => Sys2Proof.Machine.execRoutineUnload r s
  | .flashAllocate r => Sys2Proof.Machine.execFlashAllocate r s
  | .flashWrite r => Sys2Proof.Machine.execFlashWrite r s
  | .flashFree r => Sys2Proof.Machine.execFlashFree r s
  | .indexCreate r => Sys2Proof.Machine.execIndexCreate r s
  | .indexDestroy r => Sys2Proof.Machine.execIndexDestroy r s
  | .mergeStart r => Sys2Proof.Machine.execMergeStart r s
  | .mediaRepair r => Sys2Proof.Machine.execMediaRepair r s
  | .powerSet r => Sys2Proof.Machine.execPowerSet r s
  | .powerQuery r => Sys2Proof.Machine.execPowerQuery r s
  | .traceRing r => Sys2Proof.Machine.execTraceRing r s
  | .chimney r => Sys2Proof.Machine.execChimney r s
  | .hobAttachCall r => Sys2Proof.Machine.execHobAttachCall r s
  | .hobDetach r => Sys2Proof.Machine.execHobDetach r s
  | .recordMode r => Sys2Proof.Machine.execRecordMode r s
  | .replay r => Sys2Proof.Machine.execReplay r s
  | .commandStart seq => Sys2Proof.Machine.execCommandStart seq s
  | .branchJump b => Sys2Proof.Machine.execBranchJump b s
  | .integerOp op => Sys2Proof.Machine.execIntegerOp op s
  | .illegalInstruction w => Sys2Proof.Machine.execIllegalInstruction w s
  | .mret => Sys2Proof.Machine.execMret s
  | .interruptPending bit => Sys2Proof.Machine.execInterruptPending bit s
  | .callgo v choice => Sys2Proof.Machine.execCallgo v choice s
  | .hostMemoryAccess a => Sys2Proof.Machine.execHostMemoryAccess a s
  | .transferForward p x => Sys2Proof.Machine.execTransferForward p x s
  | .servicePairReturn r => Sys2Proof.Machine.execServicePairReturn r s
  | .coldPlateCooled => Sys2Proof.Machine.execColdPlateCooled s

end Sys2Proof.Machine
end

