-- ==== Sys2Proof/Machine/Turn.lean ====
section
/-! DEFINITION. What may happen next (log entry 1): what is due by itself (R76, R107, R286, R309, R311, R313, R328, R365), and the
turns of the agenda: a context's next instruction, an engine's work, the hearth runtime, the service OS, a service pair, an event, what one cycle does
on a hearth (R38), the passing of time; and the script of a replay (R288, R289). -/

namespace Sys2Proof.Machine

/-! ## Instructions and engine work -/

/-- A context comes to its next instruction boundary (R327); `ex` gives the instruction its effect. -/
def runAtWith (ex : Instr → State → Out) (s : State) (l : Loc) : Out :=
  if s.canRun l then
    match s.irqNow l with
    | some n => .next (s.takeIrq l n)
    | none =>
      match ex (s.nextRow l) (s.arrive l) with
      | .next u => .next (u.settle l)
      | .fault r => .fault r
      | .refused r => .refused r
  else .next s

def runAt (s : State) (l : Loc) : Host.Outcome State Fault Refusal := runAtWith exec s l

/-- The engine of a hearth performs a started command (R215); `picks` are the pieces of a data copy that it takes first. -/
def runEngine (s : State) (h : Fin 640) (seq quota : Nat) (picks : List Nat) : Host.Outcome State Fault Refusal :=
  match s.loadHand h seq quota with
  | none => .next s
  | some (t, i) =>
    match exec i (t.setFh { t.fh with picks := picks }) with
    | .next u => .next (u.storeHand h)
    | .fault r => .fault r
    | .refused r => .refused r

/-- The engine reads or stores one granule of a started command ahead of its others (R225, R227, R240). -/
def State.runLook (s : State) (h : Fin 640) (seq gran : Nat) : State :=
  match s.loadHand h seq 1 with
  | none => s
  | some (t, _) => (t.lookGran gran).storeHand h

/-- A cirrus engine goes on with a search command of a saved state of a hearth (R331): its trace is the hearth's. -/
def State.runSaved (s : State) (h : Fin 640) (n seq : Nat) : State :=
  let live := s.hearth h
  match (s.savedOf h)[n]? with
  | none => s
  | some (i, x) =>
    match x.cmd? seq with
    | none => s
    | some c =>
      if !c.searching then s
      else
        let u := ({ s.setHearth h { x with hand := c, quota := 1, trace := live.trace } with foc := ⟨h, c.ctx⟩ }).sxAhead
        let y := u.hearth h
        { u.setHearth h { live with trace := y.trace } with
          saved := u.saved.set i (h, { y.setCmd y.hand with hand := Cmd.empty, quota := 0 }) }

/-! ## What is due -/

/-- A `k.wait` whose conditions hold returns (R107, R313). -/
def State.waitReady (s : State) (l : Loc) : Bool :=
  match s.frozen l.h, (s.ctx l).st, (s.ctx l).wait with
  | false, .waiting, .kwait _ off n all _ =>
    match (s.ctx l).conds off n with
    | none => false
    | some cs => (s.waitNow l cs all).isSome
  | _, _, _ => false

/-- A `k.wait` has come to its deadline (R107, R313). In a replay the recorded result decides (R288). -/
def State.waitOver (s : State) (l : Loc) : Bool :=
  match s.frozen l.h, (s.ctx l).st, (s.ctx l).wait with
  | false, .waiting, .kwait _ _ _ _ d => decide (d ≤ s.tick) && d != 2 ^ 64 - 1 && (s.forcedAt l).isNone
  | _, _, _ => false

/-- A `WFI` ends: an interrupt is pending, or its time has passed (R76). -/
def State.wfiOver (s : State) (l : Loc) : Bool :=
  match s.frozen l.h, (s.ctx l).wait with
  | false, .wfi d => decide (d ≤ s.tick) || (s.ctx l).csr.mip != 0
  | _, _ => false

/-- A hearth that is being pre-empted comes to a stop (R328): a command completes, or the engine goes on with one by a unit, or, when
all stand at a stop, its state is saved; one that stops for a teardown waits for it (R373). None where nothing can go on. -/
def State.haltStep (s : State) (h : Fin 640) : Option Out :=
  let x := s.hearth h
  if !x.halting then none
  else
    match x.cmds.find? fun c => x.mayComplete c || x.flagDue c with
    | some c => some (execCommandCompletion [c.seq] { s with foc := ⟨h, c.ctx⟩ })
    | none =>
      if x.cmds.all x.atStop then (if x.purge.isSome then none else some (.next (s.haltDone h)))
      else
        (x.cmds.find? fun c => !x.atStop c).bind fun c =>
          let o := runEngine s h c.seq 1 []
          if ((outState s o).hearth h).cmd? c.seq = some c then none else some o

/-- What happens by itself on the contexts of the hearths: waits end. -/
def State.dueWait (s : State) : Option Out :=
  match allLocs.find? s.waitReady with
  | some l => some (execWaitConditionMet { s with foc := l })
  | none =>
  match allLocs.find? s.waitOver with
  | some l => some (execWaitDeadlineExpiry { s with foc := l })
  | none => (allLocs.find? s.wfiOver).map fun l => .next ({ s with foc := l }).endWfi

/-- What happens by itself as time passes: a latch of the chimney stream, a heartbeat of the leader, a grant period. -/
def State.dueTime (s : State) : Option Out :=
  if s.latchDue then some (execChimneyLatch s)
  else if s.beatDue then some (execHeartbeat s)
  else if s.grantDue then some (.next (s.grantPeriod [] []))
  else none

/-- What the queue manager, the service pairs and the service OS do by themselves: a graph is completed, a changed record noted, the age limit
reported, an image that was reported cold-started (R308, R309, R313). -/
def State.dueRecord (s : State) : Option Out :=
  match s.qm.graphs.find? s.graphDue with
  | some g => some (.next (s.graphCheck g))
  | none =>
  match s.qm.recs.find? s.placeChanged with
  | some r => some (.next (s.notePlace r))
  | none =>
  match s.ready.find? fun p => s.unplaced p.1 p.2 with
  | some p => some (execAgeLimitReport p.1.wq p.1.addr s)
  | none => s.ready.findSome? fun p => (s.coldDue p.1 p.2).map fun i => .next (s.placeImage p.2 i)

/-- What happens by itself before the next turn, and takes no time, but for the dispatch of records. -/
def State.due (s : State) : Option Out :=
  s.dueWait <|> s.dueTime <|> s.dueRecord <|> (List.finRange 640).findSome? s.haltStep

/-- A replay that forces turns is running (R288). -/
def State.scripted (s : State) : Bool := s.svc.replay.isSome && !s.svc.script.isEmpty

/-- The dispatch of a record that is due, to a context or to a cirrus engine (R311, R344); a replay forces the order of dispatches (R288). -/
def State.dueDispatch (s : State) : Option Turn :=
  if s.scripted then none
  else
    match s.firstChoice with
    | some (l, r, _) => some (.dispatch l r.wq r.addr)
    | none => (List.finRange 8).findSome? fun e => (s.cirrusChoice s.ready e).map fun p => .take e p.1.wq p.1.addr

/-- A record is dispatched to a context, if it may be (R311). -/
def State.runDispatch (s : State) (l : Loc) (wq : Fin 2048) (addr : Word) : State :=
  match s.refOf wq addr with
  | none => s
  | some r => match s.choiceOf (s.ready.filter fun p => p.1 == r) l with
    | none => s
    | some (_, w) => s.dispatchTo l r w

/-- A record is dispatched to a cirrus engine, if it may be (R344). -/
def State.runTake (s : State) (e : Fin 8) (wq : Fin 2048) (addr : Word) : State :=
  match s.refOf wq addr with
  | none => s
  | some r => match s.cirrusChoice (s.ready.filter fun p => p.1 == r) e with
    | none => s
    | some (_, w) => s.takeTask e r w

/-- The ticks at which something may become due by the passing of time alone. -/
def State.dueTicks (s : State) : List Nat :=
  (allLocs.filterMap fun l =>
    match (s.ctx l).wait with
    | .kwait _ _ _ _ d => some d
    | .wfi d => some d
    | _ => none) ++
  (if s.chim.k = 0 then [] else [(s.tick / 2 ^ s.chim.k + 1) * 2 ^ s.chim.k]) ++
  (if s.leaderLive then [s.svc.beat.toNat + 100000] else []) ++ [(s.tick / 200 + 1) * 200] ++
  s.ready.map fun p => p.1.seen + s.qm.ageLimit

/-- Time passes, but not beyond the next tick at which something may become due. -/
def State.passDue (s : State) (n : Nat) : State :=
  let m := s.cycle + n
  let z := (s.dueTicks.filter fun t => decide (s.tick < t)).foldl (fun a t => min a (t * Config.cyclesPerTick)) m
  s.pass (z - s.cycle)

/-! ## One cycle of a hearth (R38) -/

/-- What the context does next reads flags: a `k.flrd`, or the first test of a `k.wait`. -/
def State.readsFlags (s : State) (l : Loc) : Bool :=
  match s.nextRow l with
  | .kFlrd _ _ => true
  | .kWait _ _ _ _ _ => true
  | _ => false

/-- The context comes to a `k.issue` or a `k.issuex` in this cycle; one that Hob steps executes it whole. -/
def State.comesToIssue (s : State) (l : Loc) : Bool :=
  s.canRun l && !s.stepping l && (s.irqNow l).isNone && (match s.nextRow l with
    | .kIssue _ => true
    | .kIssuex _ _ _ => true
    | _ => false)

/-- The checks of such an instruction, which make its context a candidate (R216). -/
def checkIssue (i : Instr) (s : State) : Out :=
  match i with
  | .kIssue idx => .next (s.issueCheck idx)
  | .kIssuex idx xa xb => .next (s.issuexCheck idx xa xb)
  | _ => .next s

/-- The one word that the hearth accepts in a cycle, of a context that takes part in it: its context and its command (R102, R216). -/
def State.cycleAccept (s : State) (h : Fin 640) (cs : List (Fin 4)) : State × Option Cmd :=
  match (s.hearth h).nextAccept with
  | none => (s, none)
  | some (c, slot, w, ws) =>
    if cs.contains c then (s.acceptWord ⟨h, c⟩ slot w ws, some ((s.hearth h).newCmd c slot w ws)) else (s, none)

/-- The scalar update of a context: the signal of its word that was accepted, or its instruction; a waiting aperture access tries again
(R38, R224). -/
def State.ctxPart (s : State) (h : Fin 640) (accepted : Option Cmd) (issued : List (Fin 4)) (c : Fin 4) : State :=
  if accepted.map (·.ctx) = some c then ((accepted.map fun d => s.acceptSignal h d).getD s)
  else if issued.contains c then s
  else
    match (s.ctx ⟨h, c⟩).st, (s.ctx ⟨h, c⟩).wait with
    | .waiting, .aperture _ _ _ _ => outState s (execApertureAccess { s with foc := ⟨h, c⟩ })
    | _, _ => outState s (runAt s ⟨h, c⟩)

/-- The waits and the flag reads of a context, behind everything else in the cycle (R38). -/
def State.readPart (s : State) (h : Fin 640) (readers : List (Fin 4)) (c : Fin 4) : State :=
  match (s.ctx ⟨h, c⟩).st, (s.ctx ⟨h, c⟩).wait with
  | .waiting, .kwait _ _ _ _ _ => outState s (execWaitConditionMet { s with foc := ⟨h, c⟩ })
  | _, _ => if readers.contains c then outState s (runAt s ⟨h, c⟩) else s

/-- A command of the cycle leaves its queue's head, or the window of the matrix engine (R168, R215). -/
def State.startSeq (s : State) (h : Fin 640) (seq : Nat) : State :=
  match (s.hearth h).cmd? seq with
  | none => s
  | some c =>
    if c.q == .matrix && !c.isFlag && c.stage == .queued then outState s (execMatrixWindowAcceptance { s with foc := ⟨h, 0⟩ })
    else s.startIf h seq true

/-- The commands of a list that stand in a queue: those that have left it for the window, and one that stands in it. -/
def Hearth.inQueue (x : Hearth) (q : Queue) (seqs : List Nat) : List Nat :=
  let at_ (st : Stage) : List Nat := seqs.filter fun n => ((x.cmd? n).map fun c => c.q == q && c.stage == st).getD false
  at_ .window ++ (at_ .queued).take 1

/-- What takes place on a hearth in one cycle, in the sequence of R38: completions, flag commands first; peer arrivals; ends of records; the
one acceptance, and the scalar updates of the contexts; the heads of the queues; and last the contexts that read flags. -/
def State.runCycle (s : State) (h : Fin 640) (p : CyclePlan) : State :=
  let at_ (t : State) : State := { t with foc := ⟨h, 0⟩ }
  let s1 := outState s (execCommandCompletion p.done (at_ s))
  let s2 := p.arrivals.foldl (fun t x => outState t (execPeerArrival x (xferGranules x) (at_ t))) s1
  let s3 := p.ends.foldl (fun t e => outState t (execRecordCompletion e.1 e.2.1 e.2.2 (at_ t))) s2
  let all : List (Fin 4) := [0, 1, 2, 3]
  let cs := all.filter p.ctxs.contains
  let issued := cs.filter fun c => s3.comesToIssue ⟨h, c⟩
  let readers := cs.filter fun c => s3.readsFlags ⟨h, c⟩
  let s4 := issued.foldl (fun t c => outState t (runAtWith checkIssue t ⟨h, c⟩)) s3
  let a := s4.cycleAccept h cs
  let s5 := cs.foldl (fun t c => if readers.contains c then t else t.ctxPart h a.2 issued c) a.1
  let s6 := [Queue.vector, .matrix, .sort, .copy].foldl
    (fun t q => ((t.hearth h).inQueue q p.starts).foldl (fun u n => u.startSeq h n) t) s5
  all.foldl (fun t c => t.readPart h readers c) s6

/-! ## Turns -/

/-- A turn is taken. -/
def State.takeTurn (s : State) (t : Turn) : Host.Outcome State Fault Refusal :=
  match t with
  | .run l => runAt s l
  | .runtime l => .next (s.serveRuntime l)
  | .engine h seq quota picks => runEngine s h seq quota picks
  | .look h seq gran => .next (s.runLook h seq gran)
  | .event l i => exec i { s with foc := l }
  | .svc l choice => .next (s.serveSvc l choice)
  | .mailbox choice => .next (s.serveMailbox choice)
  | .cycle h p => .next (s.runCycle h p)
  | .task wq addr => .next (s.runFetch wq addr)
  | .pair r => .next (s.runPair r)
  | .saved h n seq => .next (s.runSaved h n seq)
  | .withdraw l n => .next (s.withdrawIrq l n)
  | .dispatch l wq addr => .next (s.runDispatch l wq addr)
  | .take e wq addr => .next (s.runTake e wq addr)
  | .stale r => .next (s.serviceWrite r)
  | .coldBegin h => .next (s.coldBegin h)
  | .pass n => .next (s.passDue n)

/-- The turn takes a cycle: all but the passing of time. -/
def Turn.takesCycle : Turn → Bool
  | .pass _ => false
  | _ => true

/-- The state in which a turn begins: it takes a cycle, but for one that is the passing of time. -/
def State.beforeTurn (s : State) (t : Turn) : State :=
  match t with
  | .pass _ => s
  | _ => s.pass 1

/-! ## Record mode and replay (R288, R289) -/

/-- The context has come to be held by a fault. -/
def nowHeld (s u : State) (l : Loc) : Bool := (s.ctx l).st != .held && (u.ctx l).st == .held

/-- What record mode keeps of a turn from one state to another: nothing of one without an effect, and nothing of what need not recur: an
instruction or a unit that a fault holds back, the service of the fault, a read retry, and the replay of the side log. A refusal is kept
with the instruction that it refuses. -/
def State.keeps (s : State) (t : Turn) (u : State) : List Turn :=
  if u = s.beforeTurn t && t.takesCycle then []
  else
    match t with
    | .run l => if nowHeld s u l then [] else [t]
    | .engine h seq quota picks =>
      let left := (u.hearth h).quota
      if left = 0 then [t] else if left < quota then [.engine h seq (quota - left) picks] else []
    | .cycle h p => [.cycle h { p with ctxs := p.ctxs.filter fun c => !nowHeld s u ⟨h, c⟩ }]
    | .event _ (.faultServiced _ _) => []
    | .event _ (.readRetry _) => []
    | .event _ .sideLogReplay => []
    | .event l (.faultRefused .ctx) => if (s.ctx l).st == .held then [.run l, t] else []
    | _ => [t]

/-- While the package records, what it takes is kept. -/
def State.recordTurn (s : State) (t : Turn) (u : State) : State :=
  if s.svc.recording then (s.keeps t u).foldl State.record u else u

/-- The turn has no effect now: what it is about waits for something else. -/
def State.blocked (s : State) (t : Turn) : Bool :=
  match t with
  | .pass _ => false
  | _ => match (s.beforeTurn t).takeTurn t with
    | .next u => u = s.beforeTurn t
    | _ => false

def Turn.isRefusal : Turn → Bool
  | .event _ (.faultRefused _) => true
  | _ => false

def State.setScript (s : State) (l : List Turn) : State := { s with svc := { s.svc with script := l } }

/-- The next turn, what is left of the agenda, and what is left of the script of a replay. A turn of the script that cannot be taken
lets the agenda go on; a refusal behind it ends it (R289). Without any turn, the focus context goes on. -/
def State.nextTurn (s : State) : Turn × State :=
  let live : Turn × State := match s.agenda with
    | [] => (.run s.foc, s)
    | t :: rest => (t, { s with agenda := rest })
  match s.svc.replay, s.svc.script with
  | some _, t :: rest =>
    if !s.blocked t then (t, s.setScript rest)
    else match rest with
      | u :: rest' => if u.isRefusal then (u, s.setScript rest') else live
      | [] => live
  | _, _ => live

/-- What a fault that the recorded run did not meet has held back of a turn of the script. -/
def State.heldBack (s : State) (t : Turn) (u : State) : List Turn :=
  match t with
  | .run l => if nowHeld s u l then [t] else []
  | .engine h seq _ _ => if (u.hearth h).quota = 0 then [] else [.engine h seq (u.hearth h).quota (u.hearth h).picks]
  | .cycle h p => (p.ctxs.filter fun c => nowHeld s u ⟨h, c⟩).map fun c => .run ⟨h, c⟩
  | _ => []

/-- What a fault, a new one perhaps, has held back of a turn of a replay stands first in the script again (R289). -/
def State.keepScript (s : State) (t : Turn) (u : State) : State :=
  match u.svc.replay with
  | some _ => if s.svc.script.head? == some t then u.setScript (s.heldBack t u ++ u.svc.script) else u
  | none => u

/-- A turn is taken from a state, and what it leaves recorded. -/
def State.recorded (s : State) (t : Turn) (o : Out) : Host.Outcome State Fault Refusal :=
  match o with
  | .next u => .next (s.keepScript t (s.recordTurn t u))
  | .fault r => .fault r
  | .refused r => .refused r

/-- The next turn is taken, in one cycle. -/
def State.turn (s : State) : Host.Outcome State Fault Refusal :=
  let n := s.nextTurn
  s.recorded n.1 ((n.2.beforeTurn n.1).takeTurn n.1)

/-- A dispatch that is due takes place, and takes no time. -/
def State.dispatchDue (s : State) (t : Turn) : Host.Outcome State Fault Refusal := s.recorded t (s.takeTurn t)

end Sys2Proof.Machine
end

