-- ==== Sys2Proof/Machine/Step.lean ====
section
/-! DEFINITION. One step of the machine: a turn that is placed before all others, what is due, or the next turn. -/

namespace Sys2Proof.Machine

/-- One step (log entry 1). -/
def step (s : State) : Host.Outcome State Fault Refusal :=
  match s.forced with
  | some t => ({ s.pass 1 with forced := none }).takeTurn t
  | none =>
    match s.due with
    | some o => o
    | none =>
      match s.dueDispatch with
      | some t => s.dispatchDue t
      | none => s.turn

/-- The state whose next step fetches and runs a given word. -/
def State.withFetchWord (s : State) (nbits w : Nat) : State := if nbits ≤ 32 then s.placeScalar w else s.placeCmd w

end Sys2Proof.Machine
end

