-- ==== Sys2Proof/Safety.lean ====
section
/-! DEFINITION. What claims are stated in: that an instruction completes, what it leaves alone, and the canonical form that
every step keeps. -/

namespace Sys2Proof.Machine

/-! ## Completion -/

/-- The instruction answers a next state of which `P` holds. -/
def Completes (i : Instr) (s : State) (P : State → Prop) : Prop := ∃ t, exec i s = .next t ∧ P t

/-! ## Frames -/

/-- Nothing but the hearths has changed. -/
def SameWorld (s t : State) : Prop := { t with hearths := s.hearths } = s

/-- Nothing but one hearth has changed. -/
def OnlyHearth (h : Fin 640) (s t : State) : Prop :=
  SameWorld s t ∧ ∀ g, g ≠ h → t.hearth g = s.hearth g

/-- Nothing but one context has changed. -/
def OnlyCtx (l : Loc) (s t : State) : Prop :=
  OnlyHearth l.h s t ∧ (∀ c, c ≠ l.c → (t.hearth l.h).ctx c = (s.hearth l.h).ctx c) ∧
    { t.hearth l.h with ctxs := (s.hearth l.h).ctxs } = s.hearth l.h

/-- A context has executed an instruction: the pc stands at the next one, the instruction counts as retired, and of
everything else of the context only scalar registers may differ. -/
def NextInstr (k k' : Ctx) : Prop :=
  k'.pc = k.pc + 4 ∧ k'.instret = k.instret + 1 ∧ { k' with xs := k.xs, pc := k.pc, instret := k.instret } = k

/-- Scalar register `rd` has received a value, x0 discards it, and every other register is unchanged. -/
def WritesReg (rd : XReg) (v : Word) (k k' : Ctx) : Prop :=
  k'.get rd = (if rd = 0 then 0 else v) ∧ ∀ r, r ≠ rd → k'.get r = k.get r

/-- Every scalar register is unchanged. -/
def SameRegs (k k' : Ctx) : Prop := ∀ r, k'.get r = k.get r

/-- Every byte of a memory outside a run reads as before. -/
def SameOutside (a n : Nat) (m m' : Mem) : Prop := ∀ x, x < a ∨ a + n ≤ x → m'.read x = m.read x

/-! ## The canonical form -/

/-- Package memory and flash are in canonical form. -/
def State.memOk (s : State) : Bool := s.mem.wf && s.cirrus.flash.wf

/-- A safe run: every step answers a next state, and package memory stays canonical. -/
def State.safe (s : State) : Prop := ∃ t, step s = .next t ∧ t.memOk = true

end Sys2Proof.Machine
end

