-- ==== Sys2Proof/Certificates/Slice0/Obligations.lean ====
section
/-! DEFINITION. The statements for the provers. Each docstring names the rules of spec/ it rests on. -/

namespace Sys2Proof.Machine

/-! ## Words the statements share -/

/-- An instruction of the focus context completes: it changes nothing but that context, of it only scalar registers, the pc
and the count of retired instructions, and `rd` receives `v`. -/
def RegInstr (i : Instr) (s : State) (rd : XReg) (v : Word) : Prop :=
  Completes i s fun t => OnlyCtx s.foc s t ∧ NextInstr s.fc t.fc ∧ WritesReg rd v s.fc t.fc

/-- The U-mode trap of R327 at the focus context: `mepc`, `mcause`, `mtval` and `htaddr` are saved, the interrupt enable
moves to `MPIE`, `MPP` names U, and the runtime runs in M mode at `mtvec`; registers, windows, spill memory and every other
part of the machine keep their values. -/
def TrapsToRuntime (s t : State) (cause tval : Word) : Prop :=
  OnlyCtx s.foc s t ∧
  t.fc.csr.mepc = s.fc.pc ∧ t.fc.csr.mcause = cause ∧ t.fc.csr.mtval = tval ∧ t.fc.csr.htaddr = 0 ∧
  t.fc.mode = .machine ∧ t.fc.st = .running ∧ t.fc.pc = s.fc.csr.mtvec &&& ~~~ (3#64) ∧
  bit t.fc.csr.mstatus 3 = false ∧ bit t.fc.csr.mstatus 7 = bit s.fc.csr.mstatus 3 ∧ bitsN t.fc.csr.mstatus 11 2 = 0 ∧
  (∀ i, i ≠ 3 → i ≠ 7 → i ≠ 11 → i ≠ 12 → bit t.fc.csr.mstatus i = bit s.fc.csr.mstatus i) ∧
  { t.fc.csr with mstatus := s.fc.csr.mstatus, mepc := s.fc.csr.mepc, mcause := s.fc.csr.mcause, mtval := s.fc.csr.mtval,
                  htaddr := s.fc.csr.htaddr } = s.fc.csr ∧
  { t.fc with csr := s.fc.csr, mode := s.fc.mode, pc := s.fc.pc, st := s.fc.st, wait := s.fc.wait,
              fault := s.fc.fault } = s.fc

/-- Of everything but memory and the hearths, a write of memory only lets reservations of service cores and the ownership of
lines be lost (R76, R233, R234). -/
def OnlyMemory (s t : State) : Prop :=
  { t with mem := s.mem, hearths := s.hearths, owned := s.owned, cores := s.cores } = s ∧ (∀ p, p ∈ t.owned → p ∈ s.owned) ∧
  ∀ (r : Fin 5) (c : Fin 2), { (t.cores[r])[c] with resv := ((s.cores[r])[c]).resv } = (s.cores[r])[c]

/-- No other context has changed but that its reservation may be lost. -/
def OthersKeep (s t : State) : Prop := ∀ l, l ≠ s.foc → { t.ctx l with resv := (s.ctx l).resv } = s.ctx l

/-- Neither record mode nor a replay is on, so that the results of instructions that depend on time are their own (R288). -/
def NoRecord (s : State) : Prop := s.svc.recording = false ∧ s.svc.replay = none

/-- The context at the focus executes: it runs, and nothing holds its instruction. -/
def Runs (s : State) : Prop := s.fc.st = .running ∧ s.fc.wait = .none

end Sys2Proof.Machine

open Sys2Proof Sys2Proof.Machine

/-! ## The scalar core -/

/-- Every integer instruction completes: rd receives its result, x0 discards it, and nothing else but the pc and the count
of retired instructions changes (R75). -/
def Sys2Proof.Claims.IntegerOpWritesOnlyRd : Prop :=
  ∀ (op : IntOp) (s : State), RegInstr (.integerOp op) s (intResult s.fc op).1 (intResult s.fc op).2

/-- The results of the register-register instructions of RV64I, M, Zba and Zbb as exact integers or bit by bit (R75: the
extensions as RISC-V gives them), the corners of division among them. -/
def Sys2Proof.Claims.IntegerResultsAsExactIntegers : Prop :=
  ∀ a b : Word,
    let sh := b.toNat % 64
    let x : Nat := a.toNat % 2 ^ 32
    let y : Nat := b.toNat % 2 ^ 32
    let shw : Nat := b.toNat % 32
    let xs : Int := (x : Int).bmod (2 ^ 32)
    let ys : Int := (y : Int).bmod (2 ^ 32)
    (ropVal .add a b).toNat = (a.toNat + b.toNat) % 2 ^ 64 ∧
    (ropVal .sub a b).toNat = (a.toNat + 2 ^ 64 - b.toNat) % 2 ^ 64 ∧
    (ropVal .sll a b).toNat = a.toNat * 2 ^ sh % 2 ^ 64 ∧
    (ropVal .srl a b).toNat = a.toNat / 2 ^ sh ∧
    (ropVal .sra a b).toInt = a.toInt / 2 ^ sh ∧
    (ropVal .slt a b).toNat = (if a.toInt < b.toInt then 1 else 0) ∧
    (ropVal .sltu a b).toNat = (if a.toNat < b.toNat then 1 else 0) ∧
    (∀ j, j < 64 →
      (ropVal .and a b).getLsbD j = (a.getLsbD j && b.getLsbD j) ∧ (ropVal .or a b).getLsbD j = (a.getLsbD j || b.getLsbD j) ∧
      (ropVal .xor a b).getLsbD j = (a.getLsbD j != b.getLsbD j) ∧ (ropVal .andn a b).getLsbD j = (a.getLsbD j && !b.getLsbD j) ∧
      (ropVal .orn a b).getLsbD j = (a.getLsbD j || !b.getLsbD j) ∧ (ropVal .xnor a b).getLsbD j = (a.getLsbD j == b.getLsbD j)) ∧
    (ropVal .mul a b).toNat = a.toNat * b.toNat % 2 ^ 64 ∧
    (ropVal .mulhu a b).toNat = a.toNat * b.toNat / 2 ^ 64 ∧
    (ropVal .mulh a b).toInt = a.toInt * b.toInt / 2 ^ 64 ∧
    (ropVal .mulhsu a b).toInt = a.toInt * (b.toNat : Int) / 2 ^ 64 ∧
    (b = 0 → ropVal .div a b = BitVec.allOnes 64 ∧ ropVal .divu a b = BitVec.allOnes 64 ∧ ropVal .rem a b = a ∧
      ropVal .remu a b = a) ∧
    (a = 0x8000000000000000#64 → b = BitVec.allOnes 64 → ropVal .div a b = a ∧ ropVal .rem a b = 0) ∧
    (b ≠ 0 → ¬ (a = 0x8000000000000000#64 ∧ b = BitVec.allOnes 64) →
      (ropVal .div a b).toInt = a.toInt.tdiv b.toInt ∧ (ropVal .rem a b).toInt = a.toInt.tmod b.toInt) ∧
    (b ≠ 0 → (ropVal .divu a b).toNat = a.toNat / b.toNat ∧ (ropVal .remu a b).toNat = a.toNat % b.toNat) ∧
    (ropVal .addw a b).toInt = ((x + y : Nat) : Int).bmod (2 ^ 32) ∧
    (ropVal .subw a b).toInt = ((x : Int) - (y : Int)).bmod (2 ^ 32) ∧
    (ropVal .sllw a b).toInt = ((x * 2 ^ shw : Nat) : Int).bmod (2 ^ 32) ∧
    (ropVal .srlw a b).toInt = ((x / 2 ^ shw : Nat) : Int).bmod (2 ^ 32) ∧
    (ropVal .sraw a b).toInt = xs / 2 ^ shw ∧
    (ropVal .mulw a b).toInt = ((x * y : Nat) : Int).bmod (2 ^ 32) ∧
    (y = 0 → ropVal .divw a b = BitVec.allOnes 64 ∧ ropVal .divuw a b = BitVec.allOnes 64 ∧ (ropVal .remw a b).toInt = xs ∧
      (ropVal .remuw a b).toInt = xs) ∧
    (y ≠ 0 → (ropVal .divw a b).toInt = (xs.tdiv ys).bmod (2 ^ 32) ∧ (ropVal .remw a b).toInt = xs.tmod ys ∧
      (ropVal .divuw a b).toInt = ((x / y : Nat) : Int).bmod (2 ^ 32) ∧
      (ropVal .remuw a b).toInt = ((x % y : Nat) : Int).bmod (2 ^ 32)) ∧
    (ropVal .adduw a b).toNat = (x + b.toNat) % 2 ^ 64 ∧
    (ropVal .sh1add a b).toNat = (2 * a.toNat + b.toNat) % 2 ^ 64 ∧
    (ropVal .sh2add a b).toNat = (4 * a.toNat + b.toNat) % 2 ^ 64 ∧
    (ropVal .sh3add a b).toNat = (8 * a.toNat + b.toNat) % 2 ^ 64 ∧
    (ropVal .sh1adduw a b).toNat = (2 * x + b.toNat) % 2 ^ 64 ∧
    (ropVal .sh2adduw a b).toNat = (4 * x + b.toNat) % 2 ^ 64 ∧
    (ropVal .sh3adduw a b).toNat = (8 * x + b.toNat) % 2 ^ 64 ∧
    (ropVal .max a b).toInt = max a.toInt b.toInt ∧ (ropVal .maxu a b).toNat = max a.toNat b.toNat ∧
    (ropVal .min a b).toInt = min a.toInt b.toInt ∧ (ropVal .minu a b).toNat = min a.toNat b.toNat ∧
    (ropVal .rol a b).toNat = (a.toNat * 2 ^ sh + a.toNat / 2 ^ (64 - sh)) % 2 ^ 64 ∧
    (ropVal .ror a b).toNat = (a.toNat / 2 ^ sh + a.toNat * 2 ^ (64 - sh)) % 2 ^ 64 ∧
    (ropVal .rolw a b).toInt = ((x * 2 ^ shw + x / 2 ^ (32 - shw) : Nat) : Int).bmod (2 ^ 32) ∧
    (ropVal .rorw a b).toInt = ((x / 2 ^ shw + x * 2 ^ (32 - shw) : Nat) : Int).bmod (2 ^ 32)

/-- The results of the immediate forms, of the shifts by an immediate, of `lui` and `auipc`, and of the sign and zero
extensions, `orc.b` among them (R75). -/
def Sys2Proof.Claims.ImmediateResultsAsExactIntegers : Prop :=
  ∀ (k : Ctx) (a : Word) (imm : BitVec 12) (u : BitVec 20) (n : Nat) (rd : XReg),
    let i : Word := imm.signExtend 64
    let x : Nat := a.toNat % 2 ^ 32
    (iopVal .addi a imm).toInt = (a.toInt + imm.toInt).bmod (2 ^ 64) ∧
    (iopVal .slti a imm).toNat = (if a.toInt < imm.toInt then 1 else 0) ∧
    (iopVal .sltiu a imm).toNat = (if a.toNat < i.toNat then 1 else 0) ∧
    (∀ j, j < 64 → (iopVal .xori a imm).getLsbD j = (a.getLsbD j != i.getLsbD j) ∧
      (iopVal .ori a imm).getLsbD j = (a.getLsbD j || i.getLsbD j) ∧
      (iopVal .andi a imm).getLsbD j = (a.getLsbD j && i.getLsbD j)) ∧
    (iopVal .addiw a imm).toInt = (a.toInt + imm.toInt).bmod (2 ^ 32) ∧
    (n < 64 →
      (shVal .slli a n).toNat = a.toNat * 2 ^ n % 2 ^ 64 ∧ (shVal .srli a n).toNat = a.toNat / 2 ^ n ∧
      (shVal .srai a n).toInt = a.toInt / 2 ^ n ∧ (shVal .sllliuw a n).toNat = x * 2 ^ n % 2 ^ 64 ∧
      (shVal .rori a n).toNat = (a.toNat / 2 ^ n + a.toNat * 2 ^ (64 - n)) % 2 ^ 64) ∧
    (n < 32 →
      (shVal .slliw a n).toInt = ((x * 2 ^ n : Nat) : Int).bmod (2 ^ 32) ∧
      (shVal .srliw a n).toInt = ((x / 2 ^ n : Nat) : Int).bmod (2 ^ 32) ∧
      (shVal .sraiw a n).toInt = (x : Int).bmod (2 ^ 32) / 2 ^ n ∧
      (shVal .roriw a n).toInt = ((x / 2 ^ n + x * 2 ^ (32 - n) : Nat) : Int).bmod (2 ^ 32)) ∧
    (uopVal .sextb a).toInt = (a.toNat : Int).bmod (2 ^ 8) ∧ (uopVal .sexth a).toInt = (a.toNat : Int).bmod (2 ^ 16) ∧
    (uopVal .zexth a).toNat = a.toNat % 2 ^ 16 ∧
    (∀ j, j < 64 → ((uopVal .orcb a).getLsbD j = true ↔ ∃ m, m < 8 ∧ a.getLsbD (8 * (j / 8) + m) = true)) ∧
    (intResult k (.lui rd u)).1 = rd ∧ (intResult k (.lui rd u)).2.toInt = u.toInt * 4096 ∧
    (intResult k (.auipc rd u)).1 = rd ∧ (intResult k (.auipc rd u)).2.toInt = (k.pc.toInt + u.toInt * 4096).bmod (2 ^ 64)

/-- The bit counts: a zero gives the width, and otherwise the counts lie where the highest and the lowest set bit say
(R72, R75). -/
def Sys2Proof.Claims.BitCountsLocateBits : Prop :=
  ∀ a : Word,
    (a = 0 → uopVal .clz a = 64 ∧ uopVal .ctz a = 64 ∧ uopVal .cpop a = 0) ∧
    (a ≠ 0 → 2 ^ (63 - (uopVal .clz a).toNat) ≤ a.toNat ∧ a.toNat < 2 ^ (64 - (uopVal .clz a).toNat) ∧
      (uopVal .clz a).toNat < 64 ∧
      a.getLsbD (uopVal .ctz a).toNat = true ∧ (∀ j, j < (uopVal .ctz a).toNat → a.getLsbD j = false)) ∧
    (uopVal .cpop a).toNat = ((List.range 64).filter fun j => a.getLsbD j).length ∧
    (a.toNat % 2 ^ 32 = 0 → uopVal .clzw a = 32 ∧ uopVal .ctzw a = 32) ∧
    (a.toNat % 2 ^ 32 ≠ 0 → 2 ^ (31 - (uopVal .clzw a).toNat) ≤ a.toNat % 2 ^ 32 ∧
      a.toNat % 2 ^ 32 < 2 ^ (32 - (uopVal .clzw a).toNat) ∧ (uopVal .clzw a).toNat < 32 ∧ (uopVal .ctzw a).toNat < 32 ∧
      a.getLsbD (uopVal .ctzw a).toNat = true ∧ (∀ j, j < (uopVal .ctzw a).toNat → a.getLsbD j = false)) ∧
    (uopVal .cpopw a).toNat = ((List.range 32).filter fun j => a.getLsbD j).length ∧
    (∀ j, j < 64 → (uopVal .rev8 a).getLsbD j = a.getLsbD (8 * (7 - j / 8) + j % 8))

/-- A branch whose condition fails goes on; one whose condition holds, and a jump, goes to its target, where this is a multiple of 4, and
links: a branch and `jal` go to their own address plus the offset, `jalr` to its register plus the offset with bit 0 cleared. A target
that is no multiple of 4 raises the instruction-address-misaligned exception at the branch or jump, and no register changes (R76). -/
def Obligations.BranchesGoOrTrap : Prop :=
  ∀ (s : State) (a b rd : XReg) (off : BitVec 13) (joff : BitVec 21) (ioff : BitVec 12),
    let k := s.fc
    let x := k.get a
    let y := k.get b
    let holds (c : BrCond) : Prop := match c with
      | .eq => x = y
      | .ne => x ≠ y
      | .lt => x.toInt < y.toInt
      | .ge => y.toInt ≤ x.toInt
      | .ltu => x.toNat < y.toNat
      | .geu => y.toNat ≤ x.toNat
    let goes (i : Branch) (target : Word) (link : XReg) : Prop :=
      (target.toNat % 4 = 0 → Completes (.branchJump i) s fun u =>
        OnlyCtx s.foc s u ∧ u.fc.pc = target ∧ WritesReg link (k.pc + 4) k u.fc ∧ u.fc.instret = k.instret + 1 ∧
          { u.fc with xs := k.xs, pc := k.pc, instret := k.instret } = k) ∧
      (target.toNat % 4 ≠ 0 → k.mode = .user → Completes (.branchJump i) s fun u => TrapsToRuntime s u 0 target)
    (∀ c : BrCond, (¬ holds c → RegInstr (.branchJump (.br c a b off)) s 0 0) ∧
      (holds c → goes (.br c a b off) (BitVec.ofInt 64 (k.pc.toInt + off.toInt)) 0)) ∧
    goes (.jal rd joff) (BitVec.ofInt 64 (k.pc.toInt + joff.toInt)) rd ∧
    goes (.jalr rd a ioff) (BitVec.ofNat 64 ((BitVec.ofInt 64 (x.toInt + ioff.toInt)).toNat / 2 * 2)) rd

/-- The fences have no effect but to go on (R76). -/
def Sys2Proof.Claims.FencesOnlyGoOn : Prop :=
  ∀ (s : State) (fm pred succ : BitVec 4) (imm : BitVec 12) (rs1 rd : XReg),
    RegInstr (.fence fm pred succ rs1 rd) s 0 0 ∧ RegInstr (.fenceI imm rs1 rd) s 0 0

/-- A load of memory that translates reads its bytes little-endian and extends them by its kind, and writes nothing else
(R76, R239, R317). -/
def Sys2Proof.Claims.LoadReadsMemory : Prop :=
  ∀ (wd : LoadW) (rd rs1 : XReg) (imm : BitVec 12) (s : State) (ks : List Nat),
    let a := s.fc.get rs1 + imm.signExtend 64
    Runs s →
    s.resolve s.foc .load a wd.bytes = .ok (.mem ks) →
    RegInstr (.load wd rd rs1 imm) s rd
      (match wd with
        | .b => (BitVec.ofNat 8 (leNat (ks.map s.mem.read))).signExtend 64
        | .h => (BitVec.ofNat 16 (leNat (ks.map s.mem.read))).signExtend 64
        | .w => (BitVec.ofNat 32 (leNat (ks.map s.mem.read))).signExtend 64
        | _ => BitVec.ofNat 64 (leNat (ks.map s.mem.read)))

/-- A store to memory that translates writes the low bytes of its register, little-endian, each at the place its address
translates to; every other byte of memory, every register and every flag keeps its value, and the only other effect is
that reservations and line ownership may be lost (R76, R239). -/
def Sys2Proof.Claims.StoreWritesItsBytes : Prop :=
  ∀ (wd : StoreW) (rs2 rs1 : XReg) (imm : BitVec 12) (s : State) (ks : List Nat),
    let a := s.fc.get rs1 + imm.signExtend 64
    Runs s →
    s.resolve s.foc .store a wd.bytes = .ok (.mem ks) →
    Completes (.store wd rs2 rs1 imm) s fun t =>
      (∀ i (h : i < ks.length), (∀ j (g : j < ks.length), i < j → ks[j] ≠ ks[i]) → t.mem.read ks[i] = BitVec.ofNat 8 ((s.fc.get rs2).toNat / 256 ^ i)) ∧
      (∀ x, x ∉ ks → t.mem.read x = s.mem.read x) ∧
      OnlyMemory s t ∧ OthersKeep s t ∧ NextInstr s.fc t.fc ∧ SameRegs s.fc t.fc ∧
      (∀ h, { t.hearth h with ctxs := (s.hearth h).ctxs } = s.hearth h)

/-- A scalar access of the scratchpad aperture waits while the scoreboard holds it, in its context's aperture slot under the next
sequence number with the granules of its bytes, and otherwise reads or writes the scratchpad of its own hearth, with every byte outside
the stored run unchanged (R224, R230). -/
def Sys2Proof.Claims.ApertureAccessesTheScratchpad : Prop :=
  ∀ (s : State) (off : Nat), s.fc.st = .running → s.fc.wait = .none →
    let waits (i : Instr) (wr : Bool) (n : Nat) : Prop := Completes i s fun t =>
      t.fc.st = .waiting ∧ t.fc.wait = .aperture s.fh.nextSeq wr (off / 64) ((off + (n - 1)) / 64) ∧ t.fc.pc = s.fc.pc ∧
      SameRegs s.fc t.fc ∧ t.fh.scratch = s.fh.scratch ∧ t.fh.nextSeq = s.fh.nextSeq + 1 ∧ SameWorld s t
    (∀ (wd : LoadW) (rd rs1 : XReg) (imm : BitVec 12),
      s.resolve s.foc .load (s.fc.get rs1 + imm.signExtend 64) wd.bytes = .ok (.aperture off) →
      (s.apReady false off wd.bytes = true →
        Completes (.load wd rd rs1 imm) s fun t =>
          NextInstr s.fc t.fc ∧ WritesReg rd (wd.extend (leNat (s.fh.scratch.bytes off wd.bytes))) s.fc t.fc ∧
          t.fh.scratch = s.fh.scratch ∧ t.fh.nextSeq = s.fh.nextSeq + 1 ∧ SameWorld s t) ∧
      (s.apReady false off wd.bytes = false → waits (.load wd rd rs1 imm) false wd.bytes)) ∧
    (∀ (wd : StoreW) (rs2 rs1 : XReg) (imm : BitVec 12),
      s.resolve s.foc .store (s.fc.get rs1 + imm.signExtend 64) wd.bytes = .ok (.aperture off) →
      (s.apReady true off wd.bytes = true →
        Completes (.store wd rs2 rs1 imm) s fun t =>
          NextInstr s.fc t.fc ∧ SameRegs s.fc t.fc ∧ SameWorld s t ∧
          (∀ i, i < wd.bytes → t.fh.scratch.read (off + i) = BitVec.ofNat 8 ((s.fc.get rs2).toNat / 256 ^ i)) ∧
          SameOutside off wd.bytes s.fh.scratch t.fh.scratch) ∧
      (s.apReady true off wd.bytes = false → waits (.store wd rs2 rs1 imm) true wd.bytes))

/-- The atomic instructions of the A extension on memory: `LR` reads and reserves, `SC` stores only under its reservation
and says whether it did, and an AMO writes its result and gives back the old value, in one update. No byte outside the
accessed ones changes, nor any other register (R76, R234). That an `SC` succeeds exactly when its reservation stands, with no
spurious failure, is the model's choice (log entry 13). -/
def Obligations.AtomicsReadAndWriteOnce : Prop :=
  ∀ (a : Amo) (s : State) (ks : List Nat),
    let addr := s.fc.get a.rs1
    let n := if a.dw then 8 else 4
    let w := 8 * n
    let old := leNat (ks.map s.mem.read)
    let x := (s.fc.get a.rs2).toNat
    Runs s → NoRecord s → addr.toNat % n = 0 → ks.length = n → ks.Nodup →
    (a.op = .lr → s.resolve s.foc .load addr n = .ok (.mem ks) →
      Completes (.amo a) s fun t =>
        t.fc.resv = some (false, ks.headD 0 / 128) ∧ WritesReg a.rd ((BitVec.ofNat w old).signExtend 64) s.fc t.fc ∧
        t.fc.pc = s.fc.pc + 4 ∧ OnlyCtx s.foc s t ∧
        { t.fc with xs := s.fc.xs, pc := s.fc.pc, instret := s.fc.instret, resv := s.fc.resv } = s.fc) ∧
    (a.op = .sc → s.resolve s.foc .store addr n = .ok (.mem ks) →
      (s.fc.resv = some (false, ks.headD 0 / 128) →
        Completes (.amo a) s fun t =>
          leNat (ks.map t.mem.read) = x % 2 ^ w ∧ (∀ y, y ∉ ks → t.mem.read y = s.mem.read y) ∧ t.fc.resv = none ∧
          WritesReg a.rd 0 s.fc t.fc ∧ t.fc.pc = s.fc.pc + 4 ∧ OnlyMemory s t ∧ OthersKeep s t) ∧
      (s.fc.resv ≠ some (false, ks.headD 0 / 128) →
        Completes (.amo a) s fun t =>
          t.mem = s.mem ∧ t.fc.resv = none ∧ WritesReg a.rd 1 s.fc t.fc ∧ t.fc.pc = s.fc.pc + 4 ∧ OnlyCtx s.foc s t)) ∧
    (a.op ≠ .lr → a.op ≠ .sc → s.resolve s.foc .both addr n = .ok (.mem ks) →
      Completes (.amo a) s fun t =>
        leNat (ks.map t.mem.read) =
          (match a.op with
            | .swap => x % 2 ^ w
            | .add => (old + x) % 2 ^ w
            | .xor => old ^^^ (x % 2 ^ w)
            | .and => old &&& (x % 2 ^ w)
            | .or => old ||| (x % 2 ^ w)
            | .min => if toSigned w old < toSigned w x then old else x % 2 ^ w
            | .max => if toSigned w old < toSigned w x then x % 2 ^ w else old
            | .minu => min old (x % 2 ^ w)
            | _ => max old (x % 2 ^ w)) ∧
        (∀ y, y ∉ ks → t.mem.read y = s.mem.read y) ∧ WritesReg a.rd ((BitVec.ofNat w old).signExtend 64) s.fc t.fc ∧
        t.fc.pc = s.fc.pc + 4 ∧ OnlyMemory s t ∧ OthersKeep s t)

/-- The cluster-scope atomics on an address whose owner, scope and home admit them: once the cache in which they execute owns
the line they read the old value, write the value of R120's table, and give back the old value, and no other byte changes;
before that they wait for its ownership (R30, R120, R233). -/
def Sys2Proof.Claims.ClusterAtomicsFollowTheTable : Prop :=
  ∀ (a : Amoc) (s : State) (ks : List Nat) (h : Fin 640) (keep : Bool),
    let addr := s.fc.get a.rs1
    let n := if a.dw then 8 else 4
    let w := 8 * n
    let old := leNat (ks.map s.mem.read)
    let x := (s.fc.get a.rs2).toNat
    let line := ks.headD 0 / 128
    let does (i : Instr) (v : Nat) : Prop :=
      (s.fc.wait = .owner ∨ (s.fc.wait = .none ∧ (line, h) ∈ s.owned) → Completes i s fun t =>
        leNat (ks.map t.mem.read) = v ∧ (∀ y, y ∉ ks → t.mem.read y = s.mem.read y) ∧
        WritesReg a.rd ((BitVec.ofNat w old).signExtend 64) s.fc t.fc ∧ t.fc.pc = s.fc.pc + 4 ∧ OthersKeep s t) ∧
      (s.fc.wait = .none → (line, h) ∉ s.owned → Completes i s fun t =>
        t.fc.st = .waiting ∧ t.fc.wait = .owner ∧ t.fc.pc = s.fc.pc ∧ SameRegs s.fc t.fc ∧ OnlyCtx s.foc s t)
    s.fc.st = .running → addr.toNat % n = 0 → ks.length = n → ks.Nodup →
    s.amocForeign addr n = false → s.resolve s.foc .both addr n = .ok (.mem ks) →
    s.amocCache a.cluster addr (ks.headD 0) = some (h, keep) →
    does (.kAmocAdd a) ((old + x) % 2 ^ w) ∧ does (.kAmocSwap a) (x % 2 ^ w) ∧
    does (.kAmocCas a) (if old = (s.fc.get a.rd).toNat % 2 ^ w then x % 2 ^ w else old) ∧
    does (.kAmocOr a) (old ||| (x % 2 ^ w)) ∧ does (.kAmocAnd a) (old &&& (x % 2 ^ w)) ∧
    does (.kAmocMin a) (if toSigned w old < toSigned w x then old else x % 2 ^ w) ∧
    does (.kAmocMax a) (if toSigned w old < toSigned w x then x % 2 ^ w else old)

/-- A misaligned atomic raises the access fault and touches no byte: the load access fault for `LR`, the store one for the
others (R76, R120). -/
def Sys2Proof.Claims.MisalignedAtomicsFault : Prop :=
  ∀ (s : State), s.fc.mode = .user →
    (∀ a : Amo, canonical (s.fc.get a.rs1) = true → (s.fc.get a.rs1).toNat % (if a.dw then 8 else 4) ≠ 0 →
      Completes (.amo a) s fun t => TrapsToRuntime s t (if a.op = .lr then 5 else 7) (s.fc.get a.rs1)) ∧
    (∀ a : Amoc, canonical (s.fc.get a.rs1) = true → (s.fc.get a.rs1).toNat % (if a.dw then 8 else 4) ≠ 0 →
      ∀ i, i ∈ [Instr.kAmocAdd a, .kAmocSwap a, .kAmocCas a, .kAmocOr a, .kAmocAnd a, .kAmocMin a, .kAmocMax a] →
        Completes i s fun t => TrapsToRuntime s t 7 (s.fc.get a.rs1))

/-- A CSR instruction on a register that exists and that its mode may reach gives rd the old value and writes the new one
where it writes at all, with reserved bits ignored; a register that does not exist, or that the mode may not reach or write,
raises the illegal-instruction trap and changes nothing else (R10, R41 to R43, R76). The machine-mode registers and their fields
are RISC-V's, taken by name (log entry 4). -/
def Sys2Proof.Claims.CsrInstructionsReadThenWrite : Prop :=
  ∀ (a : CsrI) (s : State),
    let n := a.csr.toNat
    let src : Word := if a.imm then BitVec.ofNat 64 a.rs1.val else s.fc.get a.rs1
    let wr : Bool := a.op == .rw || a.rs1 != 0
    Runs s →
    (∀ old, s.csrRead s.foc n = some old → csrAllowed s.fc.mode n wr = true → nestCsr n = none →
      NoRecord s ∨ (n ≠ 0xC00 ∧ n ≠ 0xC01 ∧ n ≠ 0xC02) →
      let v : Word := match a.op with
        | .rw => src
        | .rs => old ||| src
        | .rc => old &&& ~~~ src
      let m := s.fc.csr
      Completes (.csrAccess a) s fun t =>
        WritesReg a.rd old s.fc t.fc ∧ t.fc.pc = s.fc.pc + 4 ∧ OnlyCtx s.foc s t ∧
        { t.fc with xs := s.fc.xs, pc := s.fc.pc, instret := s.fc.instret, csr := m, fpstat := s.fc.fpstat,
                    cpstat := s.fc.cpstat } = s.fc ∧
        (wr = false ∨ n ≠ 0xB02 → t.fc.instret = s.fc.instret + 1) ∧
        (wr = false ∨ n ≠ 0x800 → t.fc.fpstat = s.fc.fpstat) ∧ (wr = false ∨ n ≠ 0x801 → t.fc.cpstat = s.fc.cpstat) ∧
        (wr = false → t.fc.csr = m) ∧
        (wr = true →
          (n = 0x800 → t.fc.fpstat = v &&& 0xF ∧ t.fc.csr = m) ∧
          (n = 0x801 → t.fc.cpstat = v &&& 0x101 ∧ t.fc.csr = m) ∧
          (n = 0x300 → { t.fc.csr with mstatus := m.mstatus } = m ∧
            (∀ i, i = 3 ∨ i = 7 ∨ i = 17 ∨ i = 21 → bit t.fc.csr.mstatus i = bit v i) ∧
            bitsN t.fc.csr.mstatus 11 2 = (if bitsN v 11 2 = 0 ∨ bitsN v 11 2 = 3 then bitsN v 11 2 else bitsN m.mstatus 11 2) ∧
            (∀ i, i < 64 → i ≠ 3 → i ≠ 7 → i ≠ 11 → i ≠ 12 → i ≠ 17 → i ≠ 21 → bit t.fc.csr.mstatus i = false)) ∧
          (n = 0x301 ∨ zeroCsr n = true → t.fc.csr = m) ∧
          (n = 0x304 → { t.fc.csr with mie := m.mie } = m ∧
            ∀ i, i < 64 → bit t.fc.csr.mie i = (bit v i && decide (i = 3 ∨ i = 7 ∨ i = 11 ∨ 16 ≤ i))) ∧
          (n = 0x305 → t.fc.csr = { m with mtvec := v &&& ~~~ (2#64) }) ∧
          (n = 0x306 → t.fc.csr = { m with mcounteren := v &&& 7 }) ∧
          (n = 0x30A → t.fc.csr = { m with menvcfg := v &&& 1 }) ∧
          (n = 0x340 → t.fc.csr = { m with mscratch := v }) ∧
          (n = 0x341 → t.fc.csr = { m with mepc := v &&& ~~~ (3#64) }) ∧
          (n = 0x342 → t.fc.csr = { m with mcause := v }) ∧
          (n = 0x343 → t.fc.csr = { m with mtval := v }) ∧
          (n = 0x344 → { t.fc.csr with mip := m.mip } = m ∧
            ∀ i, i < 64 → bit t.fc.csr.mip i =
              if 16 ≤ i then bit v i else if i = 3 ∨ i = 7 ∨ i = 11 then bit m.mip i else false) ∧
          (n = 0x7C0 → t.fc.csr = { m with htaddr := v }) ∧
          (n = 0xB00 → t.csrRead s.foc 0xB00 = some v ∧ { t.fc.csr with cycleOff := m.cycleOff } = m) ∧
          (n = 0xB02 → t.fc.instret = v.toNat ∧ t.fc.csr = m))) ∧
    (s.fc.mode = .user → (s.csrRead s.foc n = none ∨ csrAllowed s.fc.mode n wr = false) →
      Completes (.csrAccess a) s fun t => TrapsToRuntime s t 2 (wordOf (.csrAccess a))) ∧
    ((0x802 ≤ n ∧ n < 0x810) ∨ (0x828 ≤ n ∧ n < 0x900) ∨ (0xCC1 ≤ n ∧ n < 0xD00) → s.csrRead s.foc n = none) ∧
    s.csrRead s.foc 0x800 = some s.fc.fpstat ∧ s.csrRead s.foc 0x801 = some s.fc.cpstat ∧
    s.csrRead s.foc 0xCC0 = some (BitVec.ofNat 64 (s.foc.c.val + 4 * s.foc.h.val))

/-- A CSR instruction on the nest table waits while an `mx.cfg` of its context is not complete or an `mx.go` of it is still
queued, and then reads and writes the shadow table of its context; a written reserved bit is ignored (R97, R121). -/
def Sys2Proof.Claims.NestCsrsWaitForTheTable : Prop :=
  ∀ (op : CsrOp) (imm : Bool) (rd rs1 : XReg) (lv : Fin 6) (i : Fin 4) (s : State),
    let a : CsrI := ⟨op, imm, BitVec.ofNat 12 (0x810 + 4 * lv.val + i.val), rd, rs1⟩
    let old : Word := (s.fc.nest[lv]).csr i
    let src : Word := if imm then BitVec.ofNat 64 rs1.val else s.fc.get rs1
    let v : Word := match op with
      | .rw => src
      | .rs => old ||| src
      | .rc => old &&& ~~~ src
    let waits : Prop := ∃ d, d ∈ s.fh.cmds ∧ d.ctx = s.foc.c ∧ (d.op = some .mxCfg ∨ (d.op = some .mxGo ∧ d.stage = .queued))
    Runs s →
    (waits →
      Completes (.csrAccess a) s fun t =>
        t.fc.st = .waiting ∧ t.fc.pc = s.fc.pc ∧ t.fc.nest = s.fc.nest ∧ SameRegs s.fc t.fc ∧ OnlyCtx s.foc s t) ∧
    (¬ waits →
      Completes (.csrAccess a) s fun t =>
        WritesReg rd old s.fc t.fc ∧ t.fc.pc = s.fc.pc + 4 ∧ OnlyCtx s.foc s t ∧
        (op = .rw ∨ rs1 ≠ 0 → ((t.fc.nest[lv]).csr i).toNat = v.toNat % 2 ^ (if i = 0 then 16 else 22)) ∧
        (op ≠ .rw → rs1 = 0 → (t.fc.nest[lv]).csr i = old) ∧
        (∀ j : Fin 4, j ≠ i → (t.fc.nest[lv]).csr j = (s.fc.nest[lv]).csr j) ∧
        (∀ m : Fin 6, m ≠ lv → t.fc.nest[m] = s.fc.nest[m]) ∧
        { t.fc with xs := s.fc.xs, pc := s.fc.pc, instret := s.fc.instret, nest := s.fc.nest } = s.fc)

/-- The instructions whose effect is a trap, from U mode: `ECALL` gives cause 8, an unassigned word the illegal-instruction trap with
the word, `k.trap` the software trap with its code and its own address to return to, and `EBREAK` without a Hob session the breakpoint
exception (R76, R84, R119, R327). What M mode's registers are, and that a trap of M mode goes to the service OS, is the model's reading,
log entries 4 to 6. -/
def Sys2Proof.Claims.TrapInstructionsEnterTheRuntime : Prop :=
  ∀ s : State, s.fc.mode = .user →
    Completes .ecall s (fun t => TrapsToRuntime s t 8 0) ∧
    (∀ w, Completes (.illegalInstruction w) s fun t => TrapsToRuntime s t 2 (w.zeroExtend 64)) ∧
    (∀ code, Completes (.kTrap code) s fun t => TrapsToRuntime s t 31 (code.zeroExtend 64)) ∧
    (s.fh.hob.sess = none → Completes .ebreak s fun t => TrapsToRuntime s t 3 0) ∧
    Completes .mret s (fun t => TrapsToRuntime s t 2 0x30200073#64) ∧
    Completes .wfi s (fun t => TrapsToRuntime s t 2 0x10500073#64)

/-- `ECALL` from M mode makes the context wait for the service pair, and `EBREAK` under a Hob session stops the hearth behind it (R281,
R370). That the pc then stands behind the `EBREAK` is log entry 19. -/
def Sys2Proof.Claims.CallsAndStopsUnderPrivilege : Prop :=
  ∀ s : State,
    (s.fc.mode = .machine → Completes .ecall s fun t =>
      t.fc.st = .waiting ∧ t.fc.wait = .svc ∧ t.fc.pc = s.fc.pc ∧ SameRegs s.fc t.fc ∧ OnlyCtx s.foc s t) ∧
    (s.fh.hob.sess.isSome = true → s.fh.trace.bytes = 0 → Completes .ebreak s fun t =>
      t.fh.hob.stopped = true ∧ NextInstr s.fc t.fc ∧ SameRegs s.fc t.fc ∧ SameWorld s t ∧
        { t.fh.hob with stopped := s.fh.hob.stopped, step := s.fh.hob.step } = s.fh.hob)

/-- `MRET` in M mode returns: the mode comes from `MPP`, the interrupt enable from `MPIE`, the pc from `mepc`; `MPIE`
becomes 1 and `MPP` names U (R75, R327). -/
def Sys2Proof.Claims.MretRestoresModeAndPc : Prop :=
  ∀ s : State, s.fc.mode = .machine →
    Completes .mret s fun t =>
      t.fc.mode = (if bitsN s.fc.csr.mstatus 11 2 = 3 then Mode.machine else .user) ∧
      t.fc.pc = s.fc.csr.mepc &&& ~~~ (3#64) ∧
      bit t.fc.csr.mstatus 3 = bit s.fc.csr.mstatus 7 ∧ bit t.fc.csr.mstatus 7 = true ∧
      bitsN t.fc.csr.mstatus 11 2 = 0 ∧
      { t.fc.csr with mstatus := s.fc.csr.mstatus } = s.fc.csr ∧ SameRegs s.fc t.fc ∧ OnlyCtx s.foc s t

/-- `WFI` in M mode goes on at once under a pending interrupt, else waits; the wait ends when an interrupt becomes pending, or
1,000 reference ticks after it began (R76). -/
def Sys2Proof.Claims.WfiEndsAtInterruptOrTimeout : Prop :=
  ∀ s : State, s.frozen s.foc.h = false →
    (s.fc.mode = .machine → s.fc.csr.mip ≠ 0 → RegInstr .wfi s 0 0) ∧
    (s.fc.mode = .machine → s.fc.csr.mip = 0 →
      Completes .wfi s fun t =>
        t.fc.wait = .wfi (s.tick + 1000) ∧ OnlyCtx s.foc s t ∧ { t.fc with wait := s.fc.wait } = s.fc) ∧
    (∀ d, s.fc.wait = .wfi d → d ≤ s.tick →
      Completes .wfiTimeout s fun t =>
        t.fc.st = .running ∧ t.fc.wait = .none ∧ t.fc.pc = s.fc.pc + 4 ∧ SameRegs s.fc t.fc ∧ OnlyCtx s.foc s t) ∧
    (∀ d (n : BitVec 6), s.fc.wait = .wfi d → n.toNat = 3 ∨ n.toNat = 7 ∨ n.toNat = 11 ∨ 16 ≤ n.toNat →
      Completes (.interruptPending n) s fun t =>
        t.fc.st = .running ∧ t.fc.wait = .none ∧ t.fc.pc = s.fc.pc + 4 ∧ bit t.fc.csr.mip n.toNat = true ∧
        (∀ m, m ≠ n.toNat → bit t.fc.csr.mip m = bit s.fc.csr.mip m) ∧ SameRegs s.fc t.fc ∧ OnlyCtx s.foc s t)

/-- At an instruction boundary in U mode the first pending asynchronous trap is taken: its cause, its async word and its
faulting address are saved, and the return address names the next instruction (R327). -/
def Sys2Proof.Claims.AsyncTrapsAreTakenInOrder : Prop :=
  ∀ (s : State) (a : Async) (rest : List Async),
    s.fc.st = .running → s.fc.mode = .user → s.fc.pend = a :: rest → s.frozen s.foc.h = false →
    Completes .asyncTrap s fun t =>
      t.fc.pend = rest ∧ t.fc.csr.mcause = BitVec.ofNat 64 a.cause ∧ t.fc.csr.mtval = a.tval ∧
      t.fc.csr.htaddr = a.htaddr ∧ t.fc.csr.mepc = s.fc.pc ∧ t.fc.mode = .machine ∧ SameRegs s.fc t.fc ∧ OnlyCtx s.foc s t

/-! ## The k. instructions -/

/-- `k.tick` gives rd the reference ticks since package reset (R118). -/
def Sys2Proof.Claims.TickReadsTheReferenceCount : Prop :=
  ∀ (rd : XReg) (s : State), NoRecord s → RegInstr (.kTick rd) s rd (BitVec.ofNat 64 (s.cycle / 16)) ∧
    s.csrRead s.foc 0xC01 = some (BitVec.ofNat 64 (s.cycle / 16))

/-- The scalar flag instructions: a set, a read, and a signed addition that clamps at 0 and saturates at 2^32 − 1; only an
addition of a positive amount that reaches 2^32 − 1 traps, after the update, behind the instruction (R38, R104). -/
def Sys2Proof.Claims.ScalarFlagInstructions : Prop :=
  ∀ (s : State) (fl : BitVec 8) (x : XReg),
    let f := (s.fh.flag fl.toFin).toNat
    let v : Int := f + (s.fc.get x).toInt
    let sets (i : Instr) (n : Nat) : Prop := Completes i s fun t =>
      (t.fh.flag fl.toFin).toNat = n ∧ (∀ g, g ≠ fl.toFin → t.fh.flag g = s.fh.flag g) ∧ NextInstr s.fc t.fc ∧
      SameRegs s.fc t.fc ∧ OnlyHearth s.foc.h s t ∧ { t.fh with ctxs := s.fh.ctxs, flags := s.fh.flags } = s.fh
    (NoRecord s → RegInstr (.kFlrd x fl) s x ((s.fh.flag fl.toFin).zeroExtend 64)) ∧
    sets (.kFlset fl x) ((s.fc.get x).toNat % 2 ^ 32) ∧
    (v < 4294967295 ∨ (s.fc.get x).toInt ≤ 0 → sets (.kFladd fl x) (min (max v 0) 4294967295).toNat) ∧
    (4294967295 ≤ v → 0 < (s.fc.get x).toInt → s.fc.mode = .user →
      Completes (.kFladd fl x) s fun t =>
        (t.fh.flag fl.toFin).toNat = 4294967295 ∧ t.fc.csr.mcause = 26 ∧ t.fc.csr.mepc = s.fc.pc + 4 ∧
        t.fc.csr.mtval = fl.zeroExtend 64 ∧ t.fc.mode = .machine)

/-- `k.win` takes the four fields of a window from its registers and checks them in order: a reserved bit raises the
illegal-instruction trap; `LEN` 0 writes the register, an invalid window; no rows, a length or pitch above 2,097,152 or a last
byte past 2,097,151 raises the window-out-of-range trap; else all 128 bits are written. On a trap nothing else changes (R33,
R109). -/
def Sys2Proof.Claims.WindowWritesAreChecked : Prop :=
  ∀ (s : State) (wn : Fin 32) (xa xb : XReg),
    let a := s.fc.get xa
    let b := s.fc.get xb
    let reserved : Prop := bitsN a 21 11 ≠ 0 ∨ bitsN a 54 10 ≠ 0 ∨ bitsN b 22 10 ≠ 0 ∨ bitsN b 48 16 ≠ 0
    let base := bitsN a 0 21
    let len := bitsN a 32 22
    let pitch := bitsN b 0 22
    let rows := bitsN b 32 16
    let inRange : Prop := 1 ≤ rows ∧ len ≤ 2097152 ∧ pitch ≤ 2097152 ∧ base + (rows - 1) * pitch + len ≤ 2097152
    (¬ reserved → len = 0 ∨ inRange →
      Completes (.kWin wn xa xb) s fun t =>
        t.fc.ws[wn] = b ++ a ∧ (∀ m, m ≠ wn → t.fc.ws[m] = s.fc.ws[m]) ∧ t.fc.pc = s.fc.pc + 4 ∧ SameRegs s.fc t.fc ∧
        OnlyCtx s.foc s t ∧ { t.fc with ws := s.fc.ws, pc := s.fc.pc, instret := s.fc.instret } = s.fc) ∧
    (reserved → s.fc.mode = .user →
      Completes (.kWin wn xa xb) s fun t => TrapsToRuntime s t 2 (wordOf (.kWin wn xa xb))) ∧
    (¬ reserved → len ≠ 0 → ¬ inRange → s.fc.mode = .user →
      Completes (.kWin wn xa xb) s fun t => TrapsToRuntime s t 25 (wordOf (.kWin wn xa xb)))

/-- `k.winrd` gives rd the low or the high half of its window register (R110). -/
def Sys2Proof.Claims.WindowReadsGiveHalves : Prop :=
  ∀ (s : State) (rd : XReg) (wn : Fin 32),
    RegInstr (.kWinrd rd wn false) s rd (BitVec.ofNat 64 (s.fc.ws[wn]).toNat) ∧
    RegInstr (.kWinrd rd wn true) s rd (BitVec.ofNat 64 ((s.fc.ws[wn]).toNat / 2 ^ 64))

/-- `k.sps` stores its register in the 8 bytes at its offset of spill memory, no other byte of it changes, and `k.spl` reads
them back (R35, R117). -/
def Obligations.SpillMemoryHoldsDoublewords : Prop :=
  ∀ (s : State) (x rd : XReg) (off : BitVec 12),
    RegInstr (.kSpl rd off) s rd (BitVec.ofNat 64 (leNat (s.fc.spill.bytes (8 * off.toNat) 8))) ∧
    Completes (.kSps x off) s fun t =>
      BitVec.ofNat 64 (leNat (t.fc.spill.bytes (8 * off.toNat) 8)) = s.fc.get x ∧
      SameOutside (8 * off.toNat) 8 s.fc.spill t.fc.spill ∧ t.fc.pc = s.fc.pc + 4 ∧ SameRegs s.fc t.fc ∧ OnlyCtx s.foc s t ∧
      { t.fc with spill := s.fc.spill, pc := s.fc.pc, instret := s.fc.instret } = s.fc

/-- `k.rgn.enter` pushes its identifier below depth 8, `k.rgn.leave` pops the top above depth 0; at the ends both raise the
region-stack trap and leave the stack (R34, R116). -/
def Sys2Proof.Claims.RegionStackPushesAndPops : Prop :=
  ∀ (s : State) (id : BitVec 16), s.fh.trace.on = false →
    (s.fc.rgn.length < 8 → Completes (.kRgnEnter id) s fun t =>
      t.fc.rgn = id :: s.fc.rgn ∧ t.fc.pc = s.fc.pc + 4 ∧ SameRegs s.fc t.fc ∧ OnlyCtx s.foc s t) ∧
    (∀ top rest, s.fc.rgn = top :: rest → Completes .kRgnLeave s fun t =>
      t.fc.rgn = rest ∧ t.fc.pc = s.fc.pc + 4 ∧ SameRegs s.fc t.fc ∧ OnlyCtx s.foc s t) ∧
    (8 ≤ s.fc.rgn.length → s.fc.mode = .user →
      Completes (.kRgnEnter id) s fun t => TrapsToRuntime s t 30 (id.zeroExtend 64)) ∧
    (s.fc.rgn = [] → s.fc.mode = .user → Completes .kRgnLeave s fun t => TrapsToRuntime s t 30 0)

/-- `k.arm` arms the free contexts of its arm mask, frees the armed ones of its disarm mask, and leaves every other; bits
above 7, or a context in both masks, raise the illegal-instruction trap (R113). -/
def Sys2Proof.Claims.ArmChangesFreeAndArmedContexts : Prop :=
  ∀ (s : State) (xs : XReg),
    let m := s.fc.get xs
    (bitsN m 8 56 = 0 → bitsN m 0 4 &&& bitsN m 4 4 = 0 → s.fc.st = .running → s.fh.arrQ = [] →
      Completes (.kArm xs) s fun t =>
        (∀ c : Fin 4, (t.fh.ctx c).st =
          (if bit m c && (s.fh.ctx c).st == .free then CtxSt.armed
           else if bit m (4 + c) && (s.fh.ctx c).st == .armed then .free else (s.fh.ctx c).st)) ∧
        (∀ c : Fin 4, c ≠ s.foc.c → { t.fh.ctx c with st := (s.fh.ctx c).st } = s.fh.ctx c) ∧
        NextInstr s.fc t.fc ∧ SameRegs s.fc t.fc ∧ OnlyHearth s.foc.h s t ∧ { t.fh with ctxs := s.fh.ctxs } = s.fh) ∧
    (bitsN m 8 56 ≠ 0 ∨ bitsN m 0 4 &&& bitsN m 4 4 ≠ 0 → s.fc.mode = .user →
      Completes (.kArm xs) s fun t => TrapsToRuntime s t 2 (wordOf (.kArm xs)))

/-- A wait cannot return: in mode any no condition holds; in mode all one does not hold, or the takes of one flag exceed its value
(R107). -/
def WaitBlocked (s : State) (all : Bool) (cs : List Cond) : Prop :=
  (all = false ∧ ∀ c, c ∈ cs → s.condHolds s.foc c = false) ∨
  (all = true ∧ ((∃ c, c ∈ cs ∧ s.condHolds s.foc c = false) ∨ ∃ fl, (s.fh.flag fl).toNat < takeSum cs fl))

/-- A `k.wait` in mode any takes its lowest condition that holds, one in mode all takes all of them together when they all
hold and fit; it gives rd which, and a flag loses exactly what was taken. A wait that cannot return, in mode all also one of which only
some conditions hold or whose takes do not fit, takes nothing: it waits to its deadline, or returns 0 at once under a time-out of 0. A
reserved pattern in a condition raises the illegal-instruction trap, and no flag changes (R105 to R107). -/
def Sys2Proof.Claims.WaitTakesItsConditions : Prop :=
  ∀ (s : State) (rd xt : XReg) (off : BitVec 8) (n1 : BitVec 2) (all : Bool),
    let half (i : Nat) : Nat := leNat (s.fc.spill.bytes (64 * off.toNat + 8 * i) 8)
    let bits (i lo n : Nat) : Nat := half i / 2 ^ lo % 2 ^ n
    let bad (i : Nat) : Prop := 2 ≤ bits (2 * i) 62 2 ∨ bits (2 * i) 60 2 = 3 ∨ bits (2 * i) 40 20 ≠ 0 ∨
      (bits (2 * i) 62 2 = 0 ∧ half (2 * i + 1) ≠ 0) ∨
      (bits (2 * i) 62 2 = 1 ∧ (bits (2 * i) 60 2 = 2 ∨ bits (2 * i) 32 8 ≠ 0 ∨
        (bits (2 * i) 60 2 = 0 ∧ bits (2 * i) 16 16 ≠ 0) ∨ (bits (2 * i) 60 2 = 1 ∧ 64 < bits (2 * i) 0 32)))
    ((∃ i, i ≤ n1.toNat ∧ bad i) → s.fc.mode = .user →
      Completes (.kWait rd xt off n1 all) s fun t => TrapsToRuntime s t 2 (wordOf (.kWait rd xt off n1 all))) ∧
    ∀ cs : List Cond, Runs s → NoRecord s → s.fc.conds (64 * off.toNat) (n1.toNat + 1) = some cs →
      (all = false → ∀ i (h : i < cs.length), s.condHolds s.foc cs[i] = true →
        (∀ j (g : j < cs.length), j < i → s.condHolds s.foc cs[j] = false) →
        Completes (.kWait rd xt off n1 all) s fun t =>
          WritesReg rd (BitVec.ofNat 64 (2 ^ i)) s.fc t.fc ∧ t.fc.pc = s.fc.pc + 4 ∧
          (∀ fl, (t.fh.flag fl).toNat = (s.fh.flag fl).toNat - takeSum [cs[i]] fl) ∧ SameWorld s t) ∧
      (all = true → (∀ c, c ∈ cs → s.condHolds s.foc c = true) → (∀ fl, takeSum cs fl ≤ (s.fh.flag fl).toNat) →
        Completes (.kWait rd xt off n1 all) s fun t =>
          WritesReg rd (BitVec.ofNat 64 (2 ^ cs.length - 1)) s.fc t.fc ∧ t.fc.pc = s.fc.pc + 4 ∧
          (∀ fl, (t.fh.flag fl).toNat = (s.fh.flag fl).toNat - takeSum cs fl) ∧ SameWorld s t) ∧
      (WaitBlocked s all cs → s.fc.get xt = 0 → RegInstr (.kWait rd xt off n1 all) s rd 0) ∧
      (WaitBlocked s all cs → s.fc.get xt ≠ 0 → s.tick < 2 ^ 64 - 1 →
        Completes (.kWait rd xt off n1 all) s fun t =>
          t.fc.st = .waiting ∧ t.fc.pc = s.fc.pc ∧ SameRegs s.fc t.fc ∧ OnlyCtx s.foc s t ∧
          t.fc.wait = .kwait rd (64 * off.toNat) (n1.toNat + 1) all (min (s.tick + (s.fc.get xt).toNat) (2 ^ 64 - 1)))

/-- A waiting `k.wait` returns once its conditions hold, in either mode as `k.wait` itself does, and at its deadline with 0 when it cannot
return; before that it waits on; the time-out 2^64 − 1 never ends (R107). -/
def Sys2Proof.Claims.WaitsReturnWhenMetOrExpired : Prop :=
  ∀ (s : State) (rd : XReg) (off n d : Nat) (all : Bool) (cs : List Cond),
    NoRecord s → s.frozen s.foc.h = false → s.fc.st = .waiting → s.fc.wait = .kwait rd off n all d →
    s.fc.conds off n = some cs →
    (all = false → ∀ i (h : i < cs.length), s.condHolds s.foc cs[i] = true →
      (∀ j (g : j < cs.length), j < i → s.condHolds s.foc cs[j] = false) →
      Completes .waitConditionMet s fun t =>
        t.fc.st = .running ∧ t.fc.pc = s.fc.pc + 4 ∧ WritesReg rd (BitVec.ofNat 64 (2 ^ i)) s.fc t.fc ∧
        ∀ fl, (t.fh.flag fl).toNat = (s.fh.flag fl).toNat - takeSum [cs[i]] fl) ∧
    (all = true → (∀ c, c ∈ cs → s.condHolds s.foc c = true) → (∀ fl, takeSum cs fl ≤ (s.fh.flag fl).toNat) →
      Completes .waitConditionMet s fun t =>
        t.fc.st = .running ∧ t.fc.pc = s.fc.pc + 4 ∧ WritesReg rd (BitVec.ofNat 64 (2 ^ cs.length - 1)) s.fc t.fc ∧
        ∀ fl, (t.fh.flag fl).toNat = (s.fh.flag fl).toNat - takeSum cs fl) ∧
    (WaitBlocked s all cs →
      Completes .waitConditionMet s (fun t => t = s) ∧
      (d ≤ s.tick → d ≠ 2 ^ 64 - 1 → Completes .waitDeadlineExpiry s fun t =>
        t.fc.st = .running ∧ t.fc.pc = s.fc.pc + 4 ∧ WritesReg rd 0 s.fc t.fc ∧ OnlyCtx s.foc s t) ∧
      (s.tick < d → Completes .waitDeadlineExpiry s fun t => t = s)) ∧
    (d = 2 ^ 64 - 1 → Completes .waitDeadlineExpiry s fun t => t = s)

/-- The group instructions on a well-formed word that translates: make writes the reset word, join takes the lowest clear
slot or says the word is full, leave clears its slot, an arrived one's arrival too, and bar sets its arrival and waits unless it is the
last; a barrier that all its members have reached, be it by an arrival or because another member left, starts the next generation. A
malformed word, a slot that is no member, one that has arrived already at bar, and a limit outside 1 to 64 raise the group fault and
change nothing, and make of a misaligned word raises the access fault (R114, R115). -/
def Obligations.GroupInstructionsUpdateTheWord : Prop :=
  ∀ (s : State) (rd xa xn : XReg) (ks : List Nat),
    let a := grpAddr (s.fc.get xa)
    let b := grpSlot (s.fc.get xa)
    let g := ofBytes512 (ks.map s.mem.read)
    let after (t : State) : BitVec 512 := ofBytes512 (ks.map t.mem.read)
    let fault (i : Instr) : Prop := s.fc.mode = .user → Completes i s fun t => TrapsToRuntime s t 28 a
    let member := (grpMembers g).testBit b = true
    let arrived := (grpArrived g).testBit b = true
    let wrote (t : State) (gen : BitVec 16) (m r : Nat) : Prop :=
      grpGen (after t) = gen ∧ grpMembers (after t) = m ∧ grpArrived (after t) = r ∧ grpLimit (after t) = grpLimit g ∧
      ∀ y, y ∉ ks → t.mem.read y = s.mem.read y
    Runs s → NoRecord s → s.resolve s.foc .both a 64 = .ok (.mem ks) → ks.Nodup → ks.length = 64 →
    (s.fc.get xa = a → 1 ≤ (s.fc.get xn).toNat → (s.fc.get xn).toNat ≤ 64 →
      Completes (.kGrpMake xa xn) s fun t =>
        after t = grpWord 0 (s.fc.get xn).toNat 0 0 ∧ (∀ y, y ∉ ks → t.mem.read y = s.mem.read y) ∧
        NextInstr s.fc t.fc ∧ SameRegs s.fc t.fc) ∧
    (s.fc.get xa = a → (s.fc.get xn).toNat = 0 ∨ 64 < (s.fc.get xn).toNat → fault (.kGrpMake xa xn)) ∧
    (s.fc.get xa ≠ a → canonical (s.fc.get xa) = true → s.fc.mode = .user →
      Completes (.kGrpMake xa xn) s fun t => TrapsToRuntime s t 7 (s.fc.get xa)) ∧
    (grpMalformed g = true → fault (.kGrpJoin rd xa) ∧ fault (.kGrpLeave xa) ∧ fault (.kGrpBar xa)) ∧
    (grpMalformed g = true ↔ bitsN g 56 8 ≠ 1 ∨ bitsN g 192 320 ≠ 0 ∨ bitsN g 39 17 ≠ 0 ∨ bitsN g 16 16 ≠ 0 ∨
      bitsN g 32 7 < 1 ∨ 64 < bitsN g 32 7 ∨ (∃ j, bitsN g 32 7 ≤ j ∧ (bitsN g 64 64).testBit j = true) ∨
      (∃ j, (bitsN g 128 64).testBit j = true ∧ (bitsN g 64 64).testBit j = false) ∨
      (bitsN g 64 64 ≠ 0 ∧ bitsN g 128 64 = bitsN g 64 64)) ∧
    (grpMalformed g = false →
      (popCount 64 (grpMembers g) = grpLimit g →
        Completes (.kGrpJoin rd xa) s fun t => t.mem = s.mem ∧ WritesReg rd (BitVec.allOnes 64) s.fc t.fc ∧
          t.fc.pc = s.fc.pc + 4) ∧
      (∀ slot, slot < 64 → (grpMembers g).testBit slot = false → (∀ j, j < slot → (grpMembers g).testBit j = true) →
        popCount 64 (grpMembers g) ≠ grpLimit g →
        Completes (.kGrpJoin rd xa) s fun t =>
          wrote t (grpGen g) (grpMembers g + 2 ^ slot) (grpArrived g) ∧
          WritesReg rd (a + BitVec.ofNat 64 slot) s.fc t.fc ∧ t.fc.pc = s.fc.pc + 4) ∧
      (¬ member → fault (.kGrpLeave xa) ∧ fault (.kGrpBar xa)) ∧
      (member → arrived → fault (.kGrpBar xa)) ∧
      (∀ m r, member → m = grpMembers g - 2 ^ b → (arrived → r = grpArrived g - 2 ^ b) → (¬ arrived → r = grpArrived g) →
        Completes (.kGrpLeave xa) s fun t =>
          (m ≠ 0 → r = m → wrote t (grpGen g + 1) m 0) ∧ (m = 0 ∨ r ≠ m → wrote t (grpGen g) m r) ∧
          NextInstr s.fc t.fc ∧ SameRegs s.fc t.fc) ∧
      (member → ¬ arrived →
        (grpArrived g + 2 ^ b = grpMembers g →
          Completes (.kGrpBar xa) s fun t =>
            wrote t (grpGen g + 1) (grpMembers g) 0 ∧ NextInstr s.fc t.fc ∧ SameRegs s.fc t.fc) ∧
        (grpArrived g + 2 ^ b ≠ grpMembers g →
          Completes (.kGrpBar xa) s fun t =>
            wrote t (grpGen g) (grpMembers g) (grpArrived g + 2 ^ b) ∧
            t.fc.st = .waiting ∧ t.fc.wait = .bar a (grpGen g) ∧ t.fc.pc = s.fc.pc ∧ SameRegs s.fc t.fc))) ∧
    (∀ gen, s.frozen s.foc.h = false → s.resolve s.foc .load a 64 = .ok (.mem ks) → grpGen g ≠ gen →
      ∀ u : State, u = s.setFc { s.fc with st := .waiting, wait := .bar a gen } →
        Completes .barrierRelease u fun t => t.fc.st = .running ∧ t.fc.pc = s.fc.pc + 4 ∧ SameRegs s.fc t.fc)

/-! ## Issue, and the turn of a record -/

/-- A command word that its hearth can take: the hearth runs, no other context waits, and the queue and the scoreboard have
room. -/
def CanAccept (s : State) (w : CmdWord) (ws : Vector (Option WinOp) 5) : Prop :=
  (∀ c, c ≠ s.foc.c → (s.fh.ctx c).st ≠ .waiting) ∧ s.fh.hob.stopped = false ∧ s.fh.hob.step = none ∧ s.fh.halted = false ∧
  s.fh.halting = false ∧ s.fh.queueLen (queueOf w) < 32 ∧
  s.fh.usedEntries + (((cmdOp w).map fun o => cmdEntries o (CmdF.ofWord w) ws).getD []).length ≤ 96

/-- The word has been accepted: it stands last in its queue under the next sequence number, with its context, slot, windows
and scoreboard entries, and the context goes on; memory changes only for the trace record of a traced command. -/
def Accepted (s t : State) (slot : Nat) (w : CmdWord) (ws : Vector (Option WinOp) 5) : Prop :=
  (∃ c, t.fh.cmds = s.fh.cmds ++ [c] ∧ c.word = w ∧ c.seq = s.fh.nextSeq ∧ c.ctx = s.foc.c ∧ c.slot = slot ∧
    c.stage = .queued ∧ c.q = queueOf w ∧ c.wins = ws ∧
    c.entries = ((cmdOp w).map fun o => cmdEntries o (CmdF.ofWord w) ws).getD []) ∧
  t.fh.nextSeq = s.fh.nextSeq + 1 ∧ t.fc.st = .running ∧ t.fc.wait = .none ∧ t.fc.pc = s.fc.pc + 4 ∧ SameRegs s.fc t.fc ∧
  (condMode (CmdF.ofWord w).sig ≠ 3 → t.fh.flags = s.fh.flags) ∧
  (condMode (CmdF.ofWord w).sig = 3 →
    (t.fh.flag (condFlag (CmdF.ofWord w).sig)).toNat =
      min (2 ^ 32 - 1) ((s.fh.flag (condFlag (CmdF.ofWord w).sig)).toNat + condT (CmdF.ofWord w).sig)) ∧
  ((CmdF.ofWord w).traced = false → t.mem = s.mem) ∧ t.fh.scratch = s.fh.scratch

/-- Bits lo + n − 1 to lo of a command word, as a number. -/
def fld (w : CmdWord) (lo n : Nat) : Nat := w.toNat / 2 ^ lo % 2 ^ n

/-- The payload patterns that R87 allows for a kind. -/
def PayloadFits (kind pay : Nat) : Prop :=
  (kind = 0 → pay = 0) ∧ (kind = 1 → pay < 16) ∧ (kind ∈ [2, 5, 6] → pay < 8) ∧ (kind = 4 → pay < 1024) ∧
  (kind = 7 → pay < 256) ∧ (kind = 9 → pay = 0 ∨ pay = 1 ∨ (8 ≤ pay ∧ pay < 16))

/-- The threshold of a `WAIT` or `SIG` field at a bit: `VAL` × unit, with the units 1, 64, 4,096 and 262,144 (R91). -/
def threshold (w : CmdWord) (lo : Nat) : Nat :=
  fld w (lo + 8) 20 * (match fld w (lo + 28) 2 with
    | 0 => 1
    | 1 => 64
    | 2 => 4096
    | _ => 262144)

/-- `k.issue` and `k.issuex` hand a legal word of the command area to its queue when the hearth can take it; `k.issuex`
substitutes its registers where the slot has a descriptor; a waiting word is accepted later in the same way (R92, R102,
R103, R216). -/
def Sys2Proof.Claims.IssueAppendsTheWord : Prop :=
  ∀ (s : State) (idx : BitVec 13) (xa xb : XReg),
    let n := idx.toNat
    let w := s.fh.slotWord n
    s.fh.slotOk n = true → Runs s →
    (s.fh.descOf n = none → checkCmd s.fh s.fc w = none → CanAccept s w (captureWins s.fc w) →
      Completes (.kIssue idx) s (fun t => Accepted s t n w (captureWins s.fc w)) ∧
      Completes (.kIssuex idx xa xb) s (fun t => Accepted s t n w (captureWins s.fc w))) ∧
    (∀ d v, s.fh.descOf n = some d → substitute w d (s.fc.get xa) (s.fc.get xb) = some v →
      checkCmd s.fh s.fc v = none → CanAccept s v (captureWins s.fc v) →
      Completes (.kIssuex idx xa xb) s (fun t => Accepted s t n v (captureWins s.fc v)) ∧
      (s.fc.mode = .user → Completes (.kIssue idx) s fun t => TrapsToRuntime s t 24 (BitVec.ofNat 64 n))) ∧
    (s.fh.descOf n = none → checkCmd s.fh s.fc w = none → 32 ≤ s.fh.queueLen (queueOf w) →
      (∀ c, c ≠ s.foc.c → (s.fh.ctx c).st ≠ .waiting) → Completes (.kIssue idx) s fun t =>
        t.fc.st = .waiting ∧ t.fc.wait = .issue n w (captureWins s.fc w) s.cycle ∧ t.fc.pc = s.fc.pc ∧ SameRegs s.fc t.fc ∧
        OnlyCtx s.foc s t) ∧
    (∀ ws rank, CanAccept s w ws →
      ∀ u : State, u = s.setFc { s.fc with st := .waiting, wait := .issue n w ws rank } →
        Completes .commandAcceptance u fun t => Accepted s t n w ws)

/-- An index outside the command area is an illegal instruction, and a word that fails a check raises the trap that the
first failing check names, with the slot; in both cases nothing is issued (R80, R86, R102). -/
def Sys2Proof.Claims.IssueTrapsOnBadWords : Prop :=
  ∀ (s : State) (idx : BitVec 13) (xa xb : XReg), s.fc.mode = .user →
    (s.fh.slotOk idx.toNat = false →
      Completes (.kIssue idx) s (fun t => TrapsToRuntime s t 2 (wordOf (.kIssue idx))) ∧
      Completes (.kIssuex idx xa xb) s (fun t => TrapsToRuntime s t 2 (wordOf (.kIssuex idx xa xb)))) ∧
    (∀ c, s.fh.slotOk idx.toNat = true → s.fh.descOf idx.toNat = none →
      checkCmd s.fh s.fc (s.fh.slotWord idx.toNat) = some c →
      Completes (.kIssue idx) s (fun t => TrapsToRuntime s t (BitVec.ofNat 64 c) (BitVec.ofNat 64 idx.toNat)) ∧
      Completes (.kIssuex idx xa xb) s (fun t => TrapsToRuntime s t (BitVec.ofNat 64 c) (BitVec.ofNat 64 idx.toNat)))

/-- A word is a legal command exactly when it keeps R85 and R87 to R94 and the alignments and limits of its entry: an assigned
`ENG` and `OPC`, a `TYPE` that the entry accepts, a rounding code or a zero `MODE`, operands of the accepted kinds with the
payloads that they use, the guard, `WAIT`, `SIG`, `HINT` and `SCHED` patterns, and a zero `IMM` where it is unused. A word that
is none raises cause 24, and one whose window operand lies out of range, cause 25 (R33, R86, R88). The all-zero word is illegal. -/
def Sys2Proof.Claims.IssueChecksFollowTheRules : Prop :=
  ∀ (x : Hearth) (k : Ctx) (w : CmdWord),
    let f := CmdF.ofWord w
    let kind (i : Nat) : Nat := fld w (32 + 22 * i + 18) 4
    let pay (i : Nat) : Nat := fld w (32 + 22 * i) 18
    (6 ≤ fld w 8 4 → checkCmd x k w = some 24) ∧ checkCmd x k 0 = some 24 ∧
    (legalCmd x k w = true ↔ ∃ o, cmdOp w = some o ∧
      (∀ i, i < 5 → kind i ∈ ((opSpec o f).kinds[i]?).getD [0] ∧ kind i < 10 ∧ PayloadFits (kind i) (pay i)) ∧
      ((opSpec o f).types = none → fld w 12 4 = 0) ∧
      (∀ ts, (opSpec o f).types = some ts → ∃ t ∈ ts, Ty.ofCode (fld w 12 4) = some t) ∧
      ((opSpec o f).cls = .n → fld w 16 4 = 0) ∧ ((opSpec o f).cls ≠ .n → fld w 16 3 ≤ 4) ∧
      ((opSpec o f).guard = false → fld w 20 12 = 0) ∧
      ((opSpec o f).guard = true → (fld w 24 1 = 0 → fld w 20 12 = 0) ∧ (fld w 29 1 = 0 → fld w 25 7 = 0)) ∧
      (fld w 172 2 = 0 → fld w 142 32 = 0) ∧ fld w 172 2 ≠ 3 ∧ threshold w 142 < 2 ^ 32 ∧
      (fld w 204 2 = 0 → fld w 174 32 = 0) ∧ (fld w 204 2 = 2 → fld w 182 22 = 0) ∧ threshold w 174 < 2 ^ 32 ∧
      ((opSpec o f).hint = false → fld w 206 6 = 0) ∧
      ((opSpec o f).hint = true → fld w 206 2 = 0 ∧ fld w 208 2 ≠ 3 ∧ fld w 210 2 ≠ 3) ∧
      fld w 212 8 = 0 ∧ (fld w 8 4 ≠ 5 → fld w 222 2 = 0) ∧ (immUsed o f = false → fld w 224 32 = 0) ∧
      limitsOk o x f = true ∧
      ∀ r ∈ winReqs o f,
        (kind r.pos = 4 → (k.get (Fin.ofNat 32 (pay r.pos / 32))).toNat % r.a4 = 0) ∧
        (winOp k (f.opd r.pos)).a0 % r.a0 = 0 ∧ (winOp k (f.opd r.pos)).pitch % r.pitch = 0 ∧
        (winOp k (f.opd r.pos)).len % r.len = 0) ∧
    (legalCmd x k w = false → checkCmd x k w = some 24) ∧
    (∀ o, legalCmd x k w = true → cmdOp w = some o →
      ((∀ r ∈ winReqs o f,
        let g := k.ws[Fin.ofNat 32 (pay r.pos % 32)]
        let p := winOp k (f.opd r.pos)
        winLen g ≠ 0 ∧ winBase g + (winRows g - 1) * winPitch g + winLen g ≤ 2097152 ∧
        winOffset k (f.opd r.pos) < 2097152 ∧ p.a0 + (p.rows - 1) * p.pitch + p.len ≤ 2097152 ∧
        r.minLen ≤ p.len ∧ r.minRows ≤ p.rows ∧ r.count ≤ p.rows * (p.len / r.elemSize)) →
        checkCmd x k w = none) ∧
      (∀ r ∈ winReqs o f,
        let g := k.ws[Fin.ofNat 32 (pay r.pos % 32)]
        let p := winOp k (f.opd r.pos)
        winLen g = 0 ∨ 2097152 < winBase g + (winRows g - 1) * winPitch g + winLen g ∨
        2097152 ≤ winOffset k (f.opd r.pos) ∨ 2097152 < p.a0 + (p.rows - 1) * p.pitch + p.len ∨
        p.len < r.minLen ∨ p.rows < r.minRows ∨ p.rows * (p.len / r.elemSize) < r.count →
        checkCmd x k w = some 25))

/-- `k.drain` holds its context while a command that it issued is outstanding, and goes on once none is; a command that a refusal has
ended is not (R108). -/
def Sys2Proof.Claims.DrainWaitsForItsCommands : Prop :=
  ∀ s : State,
    ((∀ d, d ∈ s.fh.cmds → d.ctx = s.foc.c → d.ended = true) → Runs s → RegInstr .kDrain s 0 0) ∧
    ((∃ d, d ∈ s.fh.cmds ∧ d.ctx = s.foc.c ∧ d.ended = false) → Completes .kDrain s fun t =>
      t.fc.st = .waiting ∧ t.fc.wait = .drain .go ∧ t.fc.pc = s.fc.pc ∧ SameRegs s.fc t.fc ∧ OnlyCtx s.foc s t) ∧
    ((∀ d, d ∈ s.fh.cmds → d.ctx = s.foc.c → d.ended = true) → s.frozen s.foc.h = false → s.fc.st = .waiting → s.fc.wait = .drain .go →
      Completes .drainComplete s fun t =>
        t.fc.st = .running ∧ t.fc.pc = s.fc.pc + 4 ∧ SameRegs s.fc t.fc ∧ OnlyCtx s.foc s t)

/-- A record as it stands in memory, at the keys of its 64 bytes. -/
def recBits (t : State) (ks : List Nat) : BitVec 512 := ofBytes512 (ks.map t.mem.read)

/-- The queue manager can read and write the 64 bytes at an address, which stand at these keys. -/
def RecMem (s : State) (q : Fin 2048) (a : Word) (ks : List Nat) : Prop :=
  rangeOk a 64 = true ∧ ownerOf a < 5 ∧ ks.Nodup ∧
  s.xlatN (s.queueAgent q) .load a 64 = .ok ks ∧ s.xlatN (s.queueAgent q) .store a 64 = .ok ks

/-- The context has given its turn up: it is free, and its record stands in memory with a state `st`, its new entry and image
where it has one, `RTICK` where it became ready, and the manager's own fields; every other bit of it is unchanged. -/
def TurnOver (s t : State) (r : RecRef) (ks : List Nat) (st : Nat) (entry : Option Nat) : Prop :=
  let v := recBits t ks
  let w := recBits s ks
  t.fc.st = .free ∧ t.fc.run = .none ∧ bitsN v 256 3 = st ∧ bitsN v 320 32 = r.graph % 2 ^ 32 ∧ bitsN v 259 11 = r.wq.val ∧
  (∀ e, entry = some e → recEntry v = e ∧ recImage v = s.imageId s.foc % 65536) ∧ (entry = none → recEntry v = recEntry w ∧ recImage v = recImage w) ∧
  bitsN v 128 64 = (if st = 0 then s.tick else r.rtick) % 2 ^ 64 ∧
  (∀ i, i < 512 → (i < 128 ∨ (192 ≤ i ∧ i ≠ 225 ∧ i < 256) ∨ (270 ≤ i ∧ i < 286) ∨ 352 ≤ i) → bit v i = bit w i) ∧
  (∀ x, x ∉ ks → t.mem.read x = s.mem.read x)

/-- At the end of a turn, with nothing to drain, the context is free. `k.done` ends a record whose join counter is zero, and
leaves one with children finishing; `k.susp` sets the entry that it names and `k.yield` that of the next instruction, and the
record is ready, or suspended while its counter is not zero; an ember context is freed by `k.done`, and the other two are illegal
instructions in it, as is a `k.susp` to no entry of the image (R112, R303). With commands outstanding, or while a page of the record's
address space is being migrated, each waits first (log entry 63), and `DRAIN_COMPLETE` does then what the instruction does. -/
def Sys2Proof.Claims.TurnsEndAsTheTableSays : Prop :=
  ∀ (s : State) (xs : XReg) (a : Word) (q : Fin 2048) (r : RecRef) (ks : List Nat),
    let w := recBits s ks
    let e := s.fc.get xs
    let n := (s.fh.img.map (·.code.length)).getD 0
    let goes := (∀ d, d ∈ s.fh.cmds → d.ctx ≠ s.foc.c) ∧ ∀ b p, s.fc.run = .task b p → s.queueMoving p = false
    let drained := ∀ d, d ∈ s.fh.cmds → d.ctx = s.foc.c → d.ended = true
    let waits (i : Instr) (P : AfterDrain → Prop) := Completes i s fun t =>
      t.fc.st = .waiting ∧ (∃ d, t.fc.wait = .drain d ∧ P d) ∧ t.fc.pc = s.fc.pc ∧ SameRegs s.fc t.fc ∧ OnlyCtx s.foc s t
    (goes → s.fh.arrQ = [] →
      (s.fc.run = .ember →
        Completes .kDone s (fun t => t.fc.st = .free ∧ t.qm = s.qm ∧ t.mem = s.mem ∧ t.fh.flags = s.fh.flags)) ∧
      (s.fc.run = .task a q → s.refOf q a = some r → RecMem s q a ks →
        (recJoin w ≠ 0 → Completes .kDone s fun t =>
          TurnOver s t r ks 3 none ∧ (t.refOf q a).map (·.qst) = some 3) ∧
        (recJoin w = 0 → recParent w = 0 → recCfen w = false →
          (∀ g, g ∈ s.qm.graphs → g.wq = q → ∀ d, d ∈ g.nodes → d.recAt = some a → d.fin ≠ none) →
          Completes .kDone s fun t => TurnOver s t r ks 4 none ∧ t.refOf q a = none) ∧
        (e.toNat % 4 = 0 → e.toNat < n → n ≤ 2 ^ 18 → Completes (.kSusp xs) s fun t =>
          let st := if recJoin w = 0 then 0 else 2
          TurnOver s t r ks st (some e.toNat) ∧ (t.refOf q a).map (·.qst.toNat) = some st) ∧
        (s.fc.pc.toNat + 4 < 2 ^ 18 → Completes .kYield s fun t =>
          let st := if recJoin w = 0 then 0 else 2
          TurnOver s t r ks st (some (s.fc.pc.toNat + 4)) ∧ (t.refOf q a).map (·.qst.toNat) = some st))) ∧
    (drained → s.fc.mode = .user → Runs s →
      (s.fc.run = .ember →
        Completes (.kSusp xs) s (fun t => TrapsToRuntime s t 2 (wordOf (.kSusp xs))) ∧
        Completes .kYield s (fun t => TrapsToRuntime s t 2 (wordOf .kYield))) ∧
      (e.toNat % 4 ≠ 0 ∨ n ≤ e.toNat → Completes (.kSusp xs) s (fun t => TrapsToRuntime s t 2 (wordOf (.kSusp xs))))) ∧
    ((∃ d, d ∈ s.fh.cmds ∧ d.ctx = s.foc.c) ∨ (s.fc.run = .task a q ∧ s.queueMoving q = true) →
      waits .kDone (· = .done) ∧
      (s.fc.run = .task a q → e.toNat % 4 = 0 → e.toNat < n → waits (.kSusp xs) (· = .susp (e.truncate 18))) ∧
      (s.fc.run = .task a q → waits .kYield (· = .yield))) ∧
    ((∃ d, d ∈ s.fh.cmds ∧ d.ctx = s.foc.c ∧ d.ended = false) →
      waits (.kSusp xs) (fun _ => True) ∧ waits .kYield (fun _ => True)) ∧
    (goes → s.frozen s.foc.h = false → s.fc.st = .waiting →
      (s.fc.wait = .drain .done → exec .drainComplete s = exec .kDone s) ∧
      (s.fc.run = .task a q → e.toNat % 4 = 0 → e.toNat < n → s.fc.wait = .drain (.susp (e.truncate 18)) →
        exec .drainComplete s = exec (.kSusp xs) s) ∧
      (s.fc.run = .task a q → s.fc.wait = .drain .yield → exec .drainComplete s = exec .kYield s))

/-- The queue manager reads and writes the 64 bytes at each of some addresses, at keys that differ, and goes on to do so in every
state whose memory differs from this one only in these bytes: no translation table lies in them. -/
def RecsStand (s : State) (q : Fin 2048) (as : List Word) (key : Word → List Nat) : Prop :=
  (∀ b, b ∈ as → ∀ m, (∀ x, (∀ c, c ∈ as → x ∉ key c) → m.read x = s.mem.read x) → RecMem { s with mem := m } q b (key b)) ∧
  ∀ b c, b ∈ as → c ∈ as → b ≠ c → ∀ x, x ∈ key b → x ∉ key c

/-- `k.spawn` of legal children raises each parent's join counter by the number of its new children, makes each child a ready
record of its queue, and waits for the queue manager; of none it does nothing; of more than 64, or of a child that fails its
checks, it is an illegal instruction and changes no record; and the wait ends at acceptance (R111, R304). -/
def Sys2Proof.Claims.SpawnQueuesItsChildren : Prop :=
  ∀ (s : State) (xa xn : XReg),
    let a := s.fc.get xa
    let n := (s.fc.get xn).toNat
    let kids := childAddrs a n
    let child (q : Fin 2048) (b : Word) : BitVec 512 := ofBytes512 ((s.unitRead (s.queueAgent q) b 64).getD [])
    (n = 0 → RegInstr (.kSpawn xa xn) s 0 0) ∧
    (64 < n → s.fc.mode = .user → Completes (.kSpawn xa xn) s fun t => TrapsToRuntime s t 2 (wordOf (.kSpawn xa xn))) ∧
    (0 < n → n ≤ 64 → a.toNat % 64 ≠ 0 → s.fc.mode = .user →
      Completes (.kSpawn xa xn) s fun t => TrapsToRuntime s t 5 a) ∧
    (∀ g q, 0 < n → n ≤ 64 → a.toNat % 64 = 0 → rangeOk a (64 * n) = true → s.spawnOf s.foc = some (g, q) →
      s.spawnFault s.foc q kids = none →
      ((∃ b, b ∈ kids ∧ s.recOk q (child q b) = false) → s.fc.mode = .user →
        Completes (.kSpawn xa xn) s fun t => TrapsToRuntime s t 2 (wordOf (.kSpawn xa xn))) ∧
      ((∀ b, b ∈ kids → s.recOk q (child q b) = true) →
        (∀ b, b ∈ kids → recParent (child q b) ≠ 0 → s.parentMoving q (recParent (child q b)) = false ∧ joinRoom s q ((kids.map fun c => recParent (child q c)).filter (· ≠ 0)) (recParent (child q b)) = true) →
        Completes (.kSpawn xa xn) s fun t =>
          t.fc.st = .waiting ∧ t.fc.wait = .spawn ∧ t.fc.pc = s.fc.pc ∧ SameRegs s.fc t.fc ∧
          (∀ b, b ∈ kids → ∃ last, t.refOf q b = some ⟨b, q, g, 0, false, s.tick, s.tick, false, false, last⟩) ∧
          ∀ (ps : List Word) (key : Word → List Nat), (∀ b, b ∈ kids → recParent (child q b) ≠ 0 → recParent (child q b) ∈ ps) →
            (∀ p, p ∈ ps → p ∉ kids) → RecsStand s q (kids ++ ps) key →
            (∀ p, p ∈ ps → p ≠ 0 → recJoin (recBits t (key p)) =
              recJoin (recBits s (key p)) + (kids.filter fun b => recParent (child q b) = p).length) ∧
            (∀ b, b ∈ kids → bitsN (recBits t (key b)) 256 3 = 0 ∧ bitsN (recBits t (key b)) 128 64 = s.tick % 2 ^ 64))) ∧
    (s.frozen s.foc.h = false → s.fc.st = .waiting → s.fc.wait = .spawn →
      Completes .spawnAccepted s fun t =>
        t.fc.st = .running ∧ t.fc.pc = s.fc.pc + 4 ∧ SameRegs s.fc t.fc ∧ OnlyCtx s.foc s t)

/-- A load or store that waits in the aperture slot performs when the scoreboard allows it, in the place it holds in the
sequence order (R224). -/
def Sys2Proof.Claims.WaitingApertureAccessPerforms : Prop :=
  ∀ (s : State) (seq lo hi off : Nat) (wr : Bool),
    s.frozen s.foc.h = false → s.fc.st = .waiting → s.fc.wait = .aperture seq wr lo hi →
    (∀ wd rd rs1 imm, decodeScalar (s.fetchWord s.foc) = .load wd rd rs1 imm →
      s.resolve s.foc .load (s.fc.get rs1 + imm.signExtend 64) wd.bytes = .ok (.aperture off) →
      s.apReady false off wd.bytes = true →
      Completes .apertureAccess s fun t =>
        t.fc.st = .running ∧ t.fc.wait = .none ∧ t.fc.pc = s.fc.pc + 4 ∧ t.fh.nextSeq = s.fh.nextSeq ∧
        WritesReg rd (wd.extend (leNat (s.fh.scratch.bytes off wd.bytes))) s.fc t.fc ∧ OnlyCtx s.foc s t) ∧
    (∀ wd rs2 rs1 imm, decodeScalar (s.fetchWord s.foc) = .store wd rs2 rs1 imm →
      s.resolve s.foc .store (s.fc.get rs1 + imm.signExtend 64) wd.bytes = .ok (.aperture off) →
      s.apReady true off wd.bytes = true →
      Completes .apertureAccess s fun t =>
        t.fc.st = .running ∧ t.fc.wait = .none ∧ t.fc.pc = s.fc.pc + 4 ∧ t.fh.nextSeq = s.fh.nextSeq ∧
        SameRegs s.fc t.fc ∧ SameWorld s t ∧
        (∀ i, i < wd.bytes → t.fh.scratch.read (off + i) = BitVec.ofNat 8 ((s.fc.get rs2).toNat / 256 ^ i)) ∧
        SameOutside off wd.bytes s.fh.scratch t.fh.scratch)

/-! ## Vector commands -/

/-- What an element-wise command may change: the destination register of its context and, of the command in the hand, that
it has performed, its status and its byte count (R125). -/
def VecFrame (s : State) (d : Option (Fin 16)) (p : Option (Fin 8)) (t : State) : Prop :=
  OnlyHearth s.foc.h s t ∧ (∀ c, c ≠ s.hand.ctx → t.fh.ctx c = s.fh.ctx c) ∧
  { t.fh with ctxs := s.fh.ctxs, hand := s.fh.hand } = s.fh ∧
  { t.handCtx with vs := s.handCtx.vs, ps := s.handCtx.ps } = s.handCtx ∧
  (∀ i, some i ≠ d → t.vreg i = s.vreg i) ∧ (∀ i, some i ≠ p → t.preg i = s.preg i) ∧
  t.hand.performed = true ∧
  { t.hand with performed := s.hand.performed, status := s.hand.status, bytes := s.hand.bytes } = s.hand

/-- The command completes: every enabled element of its destination receives the low bits of `val`, every other element of it
keeps its value, and the frame holds. -/
def VecWrites (i : CmdF → Instr) (f : CmdF) (s : State) (val : Nat → Nat) : Prop :=
  Completes (i f) s fun t =>
    VecFrame s (some (f.v 0)) none t ∧
    ∀ e, e < elems f.typ.width → vget f.typ.width (t.vreg (f.v 0)) e =
      if enabled f s.handCtx.ps f.typ.width e then val e % 2 ^ f.typ.width else vget f.typ.width (s.vreg (f.v 0)) e

/-- The status of the command in the hand gains the bits of `st` at each of the elements that `on` picks, and none else (R55, R125). -/
def StatusGains (s t : State) (on : Nat → Prop) (st : Nat → BitVec 4) : Prop :=
  ∀ j, bit t.hand.status j = true ↔ bit s.hand.status j = true ∨ ∃ e, on e ∧ bit (st e) j = true

/-- As `VecWrites`, with the status of the command: it gains that of every enabled element, and that of the conversion of each of its
immediate operands, at the positions `ops`, where an element is enabled (R123, R125). -/
def VecGives (i : CmdF → Instr) (f : CmdF) (s : State) (ops : List Nat) (val : Nat → Nat × BitVec 4) : Prop :=
  Completes (i f) s fun t =>
    let on (e : Nat) : Prop := e < elems f.typ.width ∧ enabled f s.handCtx.ps f.typ.width e = true
    VecFrame s (some (f.v 0)) none t ∧
    (∀ e, e < elems f.typ.width → vget f.typ.width (t.vreg (f.v 0)) e =
      if enabled f s.handCtx.ps f.typ.width e then (val e).1 % 2 ^ f.typ.width else vget f.typ.width (s.vreg (f.v 0)) e) ∧
    StatusGains s t on (fun e => (val e).2 ||| (ops.map fun i => (s.src f f.typ i).status).foldl (· ||| ·) 0)

/-- The command completes: every enabled element's group of its destination predicate is all `val`, every other group keeps
its bits, and the frame holds. -/
def PredWrites (i : CmdF → Instr) (f : CmdF) (s : State) (val : Nat → Bool) : Prop :=
  Completes (i f) s fun t =>
    VecFrame s none (some (f.p 0)) t ∧
    ∀ b, b < 4096 → (t.preg (f.p 0)).getLsbD b =
      if enabled f s.handCtx.ps f.typ.width (b / (f.typ.width / 8)) then val (b / (f.typ.width / 8))
      else (s.preg (f.p 0)).getLsbD b

/-- The element of a source operand: that of its register, or the value of its immediate. -/
def opnd (s : State) (f : CmdF) (i e : Nat) : Nat := (s.src f f.typ i).get f.typ.width e

/-- Integer vector arithmetic is exact and then wraps, or saturates under `MODE[19]` (R53, R127, R128). -/
def Obligations.VectorIntegerArithmetic : Prop :=
  ∀ (f : CmdF) (s : State), f.typ.isFloat = false →
    let x (i e : Nat) : Int := f.typ.toInt (opnd s f i e)
    let fits (v : Int) : Nat := ofInt f.typ.width (if f.sat then max f.typ.minInt (min f.typ.maxInt v) else v)
    VecWrites .vAdd f s (fun e => fits (x 1 e + x 2 e)) ∧
    VecWrites .vSub f s (fun e => fits (x 1 e - x 2 e)) ∧
    VecWrites .vMul f s (fun e => fits (x 1 e * x 2 e)) ∧
    VecWrites .vMulh f s (fun e => ofInt f.typ.width (x 1 e * x 2 e / (2 ^ f.typ.width : Nat))) ∧
    VecWrites .vFma f s (fun e => fits (x 1 e * x 2 e + x 3 e)) ∧
    VecWrites .vFms f s (fun e => fits (x 1 e * x 2 e - x 3 e)) ∧
    VecWrites .vFnma f s (fun e => fits (x 3 e - x 1 e * x 2 e)) ∧
    VecWrites .vAdiff f s (fun e => fits ((x 1 e - x 2 e).natAbs : Int)) ∧
    VecWrites .vAbs f s (fun e => fits ((x 1 e).natAbs : Int)) ∧
    VecWrites .vNeg f s (fun e => fits (-(x 1 e))) ∧
    VecWrites .vMin f s (fun e => ofInt f.typ.width (min (x 1 e) (x 2 e))) ∧
    VecWrites .vMax f s (fun e => ofInt f.typ.width (max (x 1 e) (x 2 e))) ∧
    VecWrites .vClamp f s (fun e => ofInt f.typ.width (min (max (x 1 e) (x 2 e)) (x 3 e)))

/-- `r` is the magnitude `x` rounded to an integer under a rounding code, for a value of sign `neg` (R50). -/
def Rounds (rm : Rm) (neg : Bool) (x : ℝ) (r : Nat) : Prop :=
  let down := (r : ℝ) ≤ x ∧ x < r + 1
  let up := x ≤ r ∧ (r : ℝ) < x + 1
  match rm, neg with
  | .rtz, _ | .rdn, false | .rup, true => down
  | .rdn, true | .rup, false => up
  | .rne, _ => |x - r| ≤ 1 / 2 ∧ (|x - r| = 1 / 2 → r % 2 = 0)
  | .rmm, _ => |x - r| ≤ 1 / 2 ∧ (|x - r| = 1 / 2 → x < r)

/-- The result of an overflow (R51, R52). -/
def overflowOf (g : Fmt) (rm : Rm) (sat neg : Bool) : Nat :=
  if sat then g.signed neg g.maxFin
  else if g.hasInf = false then g.nan
  else match rm, neg with
    | .rtz, _ | .rdn, false | .rup, true => g.signed neg g.maxFin
    | _, _ => g.signed neg g.inf

/-- `b` is the number of sign `neg` and magnitude `x` rounded once to a format: in units of 2^q, where its significand has all its
bits or the number is subnormal, with the overflow of R51 and R52 (R46, R48, R50). -/
def RoundedTo (g : Fmt) (rm : Rm) (sat neg : Bool) (x : ℝ) (b : Nat) : Prop :=
  ∃ (q : Int) (r : Nat), g.qmin ≤ q ∧ x < 2 ^ (g.mbits + 1) * (2 : ℝ) ^ q ∧ (q = g.qmin ∨ 2 ^ g.mbits * (2 : ℝ) ^ q ≤ x) ∧
    Rounds rm neg (x / (2 : ℝ) ^ q) r ∧
    b = if (q - g.qmin).toNat * 2 ^ g.mbits + r ≤ g.maxFin then g.signed neg ((q - g.qmin).toNat * 2 ^ g.mbits + r)
      else overflowOf g rm sat neg

/-- The number that a float value stands for. -/
noncomputable def numberOf : FVal → ℝ
  | .fin neg m e => if neg then -(m * (2 : ℝ) ^ e) else m * (2 : ℝ) ^ e
  | _ => 0

/-- The status of a number of sign `neg` and magnitude `x` rounded to a format (R55): `OF` where the number, rounded as if the exponent
range were unbounded, lies beyond the largest finite value (R51); `NX` where it overflows, or is no multiple of the unit that the
format has there; `UF` where, rounded so, it lies below the smallest normal value and is inexact (R46). -/
def StatusOf (g : Fmt) (rm : Rm) (neg : Bool) (x : ℝ) (st : BitVec 4) : Prop :=
  ∃ (q : Int) (r : Nat), 2 ^ g.mbits * (2 : ℝ) ^ q ≤ x ∧ x < 2 ^ (g.mbits + 1) * (2 : ℝ) ^ q ∧ Rounds rm neg (x / (2 : ℝ) ^ q) r ∧
    let big := numberOf (g.decode g.maxFin) < r * (2 : ℝ) ^ q
    let exact := ∃ n : Nat, x = n * (2 : ℝ) ^ max q g.qmin
    let tiny := r * (2 : ℝ) ^ q < 2 ^ g.mbits * (2 : ℝ) ^ g.qmin
    (big → st = 5) ∧ (¬ big → exact → st = 0) ∧ (¬ big → ¬ exact → tiny → st = 3) ∧ (¬ big → ¬ exact → ¬ tiny → st = 1)

/-- An exact value: a NaN, an infinity, or a number by its sign, which zero has too, and its magnitude. -/
inductive Exact where
  | nan
  | inf (neg : Bool)
  | num (neg : Bool) (x : ℝ)

namespace Exact

/-- The exact value of a float value. -/
noncomputable def of : FVal → Exact
  | .nan => .nan
  | .inf neg => .inf neg
  | .fin neg m e => .num neg (m * (2 : ℝ) ^ e)

/-- A real number as an exact value; zero has the sign `neg`. -/
noncomputable def real (neg : Bool) (v : ℝ) : Exact :=
  if v = 0 then .num neg 0 else .num (decide (v < 0)) |v|

def neg : Exact → Exact
  | .nan => .nan
  | .inf a => .inf (!a)
  | .num a x => .num (!a) x

def abs : Exact → Exact
  | .nan => .nan
  | .inf _ => .inf false
  | .num _ x => .num false x

/-- The exact sum, none where it is invalid; a zero sum has its sign by R46 (R129). -/
noncomputable def add (rm : Rm) : Exact → Exact → Option Exact
  | .nan, _ | _, .nan => some .nan
  | .inf a, .inf b => if a = b then some (.inf a) else none
  | .inf a, .num _ _ => some (.inf a)
  | .num _ _, .inf b => some (.inf b)
  | .num a x, .num b y =>
    some (real (if x = 0 ∧ y = 0 ∧ a = b then a else decide (rm = .rdn)) ((if a then -x else x) + (if b then -y else y)))

/-- The exact product, none where it is invalid (R129). -/
noncomputable def mul : Exact → Exact → Option Exact
  | .nan, _ | _, .nan => some .nan
  | .inf a, .inf b => some (.inf (a != b))
  | .inf a, .num b x | .num a x, .inf b => if x = 0 then none else some (.inf (a != b))
  | .num a x, .num b y => some (.num (a != b) (x * y))

/-- a × b + c, none where it is invalid; a NaN operand comes first (R129). -/
noncomputable def fma (rm : Rm) (a b : Exact) : Exact → Option Exact
  | .nan => some .nan
  | c => (a.mul b).bind fun p => p.add rm c

/-- 1/a with the special operands of R132. -/
noncomputable def rcp : Exact → Option Exact
  | .nan => some .nan
  | .inf a => some (.num a 0)
  | .num a x => if x = 0 then some (.inf a) else some (.num a (1 / x))

/-- 1/√a with the special operands of R132. -/
noncomputable def rsqrt : Exact → Option Exact
  | .nan => some .nan
  | .inf a => if a then none else some (.num false 0)
  | .num a x => if x = 0 then some (.inf a) else if a then none else some (.num false (1 / Real.sqrt x))

/-- The exact quotient with the special operands of R180, none where it is invalid. -/
noncomputable def div : Exact → Exact → Option Exact
  | .nan, _ | _, .nan => some .nan
  | .inf _, .inf _ => none
  | .inf a, .num b _ => some (.inf (a != b))
  | .num a _, .inf b => some (.num (a != b) 0)
  | .num a x, .num b y => if y = 0 then (if x = 0 then none else some (.inf (a != b))) else some (.num (a != b) (x / y))

/-- log2 a with the special operands of R132, of a number that is no power of 2 to within 2^−150 (log entry 8). -/
def IsLog2 (a : Exact) (r : Option Exact) : Prop :=
  match a with
  | .nan => r = some .nan
  | .inf a => r = if a then none else some (.inf false)
  | .num a x =>
    (x = 0 → r = some (.inf true)) ∧ (x ≠ 0 → a = true → r = none) ∧
    (x ≠ 0 → a = false → ∃ y : ℝ, r = some (real false y) ∧ |y - Real.logb 2 x| < 1 / 2 ^ 150 ∧
      (y < 0 ↔ Real.logb 2 x < 0) ∧ ∀ n : Int, x = (2 : ℝ) ^ n → y = n)

end Exact

/-- A result and its status are those of an exact value rounded once: an invalid operation gives the canonical NaN and `NV`, a NaN the
canonical NaN without status, and an infinity bound for a format that has none counts as an overflow (R46, R51, R52, R55, R129). -/
def Gives (g : Fmt) (rm : Rm) (sat : Bool) (r : Option Exact) (p : Nat × BitVec 4) : Prop :=
  match r with
  | none => p = (g.nan, 8)
  | some .nan => p = (g.nan, 0)
  | some (.inf neg) => p = if g.hasInf then (g.signed neg g.inf, 0) else (overflowOf g rm sat neg, 5)
  | some (.num neg x) =>
    (x = 0 → p = (g.signed neg 0, 0)) ∧ (x ≠ 0 → RoundedTo g rm sat neg x p.1 ∧ StatusOf g rm neg x p.2)

/-- The magnitude of a finite fp32 pattern. -/
noncomputable def magnitude (b : Nat) : ℝ := |numberOf (Fmt.fp32.decode b)|

/-- `b` is the fp32 pattern nearest to a number that is not negative, ties to even. -/
def Nearest32 (x : ℝ) (b : Nat) : Prop := RoundedTo .fp32 .rne false false x b

/-- `h` is the exp2 of an fp32 value (R70): from 128 on infinity, from −127 down the value at −127, an integer exactly, and between
them three fused steps, each rounded to nearest, and the scaling. -/
def Exp2Is (x : FVal) (h : Nat) : Prop :=
  (x = .nan → h = 0x7FC00000) ∧ (x = .inf false → h = 0x7F800000) ∧ (x = .inf true → h = 0x400000) ∧
  ∀ neg m q, x = .fin neg m q →
    let v : ℝ := numberOf x
    (128 ≤ v → h = 0x7F800000) ∧ (v ≤ -127 → h = 0x400000) ∧
    (∀ n : Int, v = n → -126 ≤ n → n < 128 → (h : Int) = (n + 127) * 2 ^ 23) ∧
    (-127 ≤ v → v < 128 → ∃ p1 p2 p3, Nearest32 (Int.fract v * 0.078125 + 0.2265625) p1 ∧
      Nearest32 (Int.fract v * magnitude p1 + 0.6953125) p2 ∧ Nearest32 (Int.fract v * magnitude p2 + 1) p3 ∧
      Nearest32 (magnitude p3 * (2 : ℝ) ^ ⌊v⌋) h)

/-- The status of exp2: `OF` from 128 on, and no other bit (R70). -/
noncomputable def exp2Status (x : FVal) : BitVec 4 := if x = .inf false ∨ 128 ≤ numberOf x then 4 else 0

/-- The number that a pattern of a float format stands for in the order of R130, in which −0 lies below +0. -/
def place (g : Fmt) (c : Nat) : Int :=
  if c / g.signBit % 2 = 1 then -((c % g.signBit : Nat) : Int) - 1 else ((c % g.signBit : Nat) : Int)

/-- The smaller and the larger of two float elements; a NaN counts as missing (R130). -/
def smaller (g : Fmt) (c d : Nat) : Nat :=
  if g.isNan c then (if g.isNan d then g.nan else d) else if g.isNan d then c else if place g c ≤ place g d then c else d
def larger (g : Fmt) (c d : Nat) : Nat :=
  if g.isNan c then (if g.isNan d then g.nan else d) else if g.isNan d then c else if place g c ≤ place g d then d else c

/-- Float vector arithmetic computes its exact value over the reals and rounds it once, with the status of R55, and an invalid operation
gives the canonical NaN and `NV` (R129); `v.min`, `v.max` and `v.clamp` give one of their operands by the order of the numbers, in which
−0 lies below +0, a NaN counting as missing (R130); `v.abs`, `v.neg` and `v.sgnj` change only the sign, and `v.rint` rounds to an
integral value of the same sign, with `NX` where that differs (R131). An immediate operand is converted once, and adds the status of
that (R64, R65, R123). -/
def Sys2Proof.Claims.VectorFloatArithmetic : Prop :=
  ∀ (f : CmdF) (s : State), f.typ.isFloat = true →
    let g := f.typ.fmt
    let b (i e : Nat) : Nat := opnd s f i e
    let x (i e : Nat) : Exact := Exact.of (g.decode (b i e))
    let nan (i e : Nat) : Bool := g.isNan (b i e)
    let once (i : CmdF → Instr) (ops : List Nat) (v : Nat → Option Exact) : Prop :=
      ∃ r, VecGives i f s ops r ∧ ∀ e, Gives g f.rm f.sat (v e) (r e)
    once .vAdd [1, 2] (fun e => (x 1 e).add f.rm (x 2 e)) ∧
    once .vSub [1, 2] (fun e => (x 1 e).add f.rm (x 2 e).neg) ∧
    once .vMul [1, 2] (fun e => (x 1 e).mul (x 2 e)) ∧
    once .vFma [1, 2, 3] (fun e => Exact.fma f.rm (x 1 e) (x 2 e) (x 3 e)) ∧
    once .vFms [1, 2, 3] (fun e => Exact.fma f.rm (x 1 e) (x 2 e) (x 3 e).neg) ∧
    once .vFnma [1, 2, 3] (fun e => Exact.fma f.rm (x 1 e).neg (x 2 e) (x 3 e)) ∧
    once .vAdiff [1, 2] (fun e => ((x 1 e).add f.rm (x 2 e).neg).map Exact.abs) ∧
    VecGives .vMin f s [1, 2] (fun e => (smaller g (b 1 e) (b 2 e), 0)) ∧
    VecGives .vMax f s [1, 2] (fun e => (larger g (b 1 e) (b 2 e), 0)) ∧
    VecGives .vClamp f s [1, 2, 3] (fun e => (if nan 1 e then g.nan else smaller g (larger g (b 1 e) (b 2 e)) (b 3 e), 0)) ∧
    VecGives .vAbs f s [1] (fun e => (if nan 1 e then g.nan else b 1 e % g.signBit, 0)) ∧
    VecGives .vNeg f s [1] (fun e => (if nan 1 e then g.nan else (b 1 e + g.signBit) % (2 * g.signBit), 0)) ∧
    VecGives .vSgnj f s [1, 2] (fun e =>
      (if nan 1 e then g.nan else b 1 e % g.signBit + b 2 e / g.signBit % 2 * g.signBit, 0)) ∧
    (∃ r, VecGives .vRint f s [1] r ∧ ∀ e,
      (x 1 e = .nan → r e = (g.nan, 0)) ∧ (∀ neg, x 1 e = .inf neg → r e = (b 1 e, 0)) ∧
      ∀ neg y, x 1 e = .num neg y → ∃ n, Rounds f.rm neg y n ∧ (r e).1 / g.signBit % 2 = (if neg then 1 else 0) ∧
        Exact.of (g.decode (r e).1) = .num neg n ∧ (y = n → (r e).2 = 0) ∧ (y ≠ n → (r e).2 = 1)) ∧
    ∀ i e,
      (f.kind i = 1 → (s.src f f.typ i).status = 0 ∧ b i e = vget f.typ.width (s.vreg (f.v i)) e) ∧
      (f.kind i = 8 → Gives g f.rm f.sat (some (Exact.real false (f.imm18 i))) (b i e, (s.src f f.typ i).status)) ∧
      (f.kind i = 0 → Gives g .rne f.sat (some (Exact.of (Fmt.fp32.decode f.imm.toNat))) (b i e, (s.src f f.typ i).status))

/-- The functions round the exact value once, with the status of R55: `v.rcp` 1/a, `v.rsqrt` 1/√a, with the results on special operands
that R132 tabulates; `v.log2` gives the exact logarithm of a power of 2, and otherwise the rounding of a value that lies within 2^−150
of log2 a (the model's choice of precision, log entry 8); `v.exp2` takes the steps of R70, each rounded to nearest in fp32, which set
`OF` alone, and for the other types rounds the fp32 result once more (R70, R132, R133). -/
def Obligations.VectorFloatFunctions : Prop :=
  ∀ (f : CmdF) (s : State), f.typ.isFloat = true →
    let g := f.typ.fmt
    let x (e : Nat) : FVal := g.decode (opnd s f 1 e)
    (∃ r, VecGives .vRcp f s [1] r ∧ ∀ e, Gives g f.rm f.sat (Exact.of (x e)).rcp (r e)) ∧
    (∃ r, VecGives .vRsqrt f s [1] r ∧ ∀ e, Gives g f.rm f.sat (Exact.of (x e)).rsqrt (r e)) ∧
    (∃ (r : Nat → Nat × BitVec 4) (l : Nat → Option Exact), VecGives .vLog2 f s [1] r ∧ ∀ e, (Exact.of (x e)).IsLog2 (l e) ∧ Gives g f.rm f.sat (l e) (r e)) ∧
    ∃ (r p : Nat → Nat × BitVec 4) (h : Nat → Nat), VecGives .vExp2 f s [1] r ∧ ∀ e,
      Exp2Is (x e) (h e) ∧ (f.typ = .fp32 → r e = (h e, exp2Status (x e))) ∧
      (f.typ ≠ .fp32 → Gives g f.rm f.sat (some (Exact.of (Fmt.fp32.decode (h e)))) (p e) ∧ r e = ((p e).1, exp2Status (x e) ||| (p e).2))

/-- A value that a float format represents rounds to itself, in every rounding mode, and raises no status (R48, R50,
R55). -/
def Sys2Proof.Claims.RepresentableValuesRoundToThemselves : Prop :=
  ∀ (g : Fmt) (rm : Rm) (sat : Bool) (bits : Nat),
    g ∈ [Fmt.fp32, .bf16, .fp16, .e4m3, .e5m2] → bits < 2 ^ g.width → g.isNan bits = false →
    (∀ neg, g.decode bits ≠ .inf neg) → g.encode rm sat (g.decode bits) = (bits, 0)

/-- Float vector arithmetic is exact and then rounded once, the selections and sign changes follow their tables, and rounding leaves
what a format represents alone. -/
def Obligations.VectorFloatArithmetic : Prop :=
  Sys2Proof.Claims.VectorFloatArithmetic ∧ Sys2Proof.Claims.RepresentableValuesRoundToThemselves

/-- The compares set the group of each enabled element by exact comparison: with a NaN only not-equal and unordered hold;
`v.sel` copies the element that its predicate selects (R134, R135). -/
def Obligations.VectorComparesAndSelect : Prop :=
  ∀ (f : CmdF) (s : State),
    let w := f.typ.width
    let lt (a b : Nat) : Bool := if f.typ.isFloat then (f.typ.value a).lt (f.typ.value b) else decide (f.typ.toInt a < f.typ.toInt b)
    let nan (e : Nat) : Bool := f.typ.isFloat && (f.typ.fmt.isNan (opnd s f 1 e) || f.typ.fmt.isNan (opnd s f 2 e))
    let le (a b : Nat) : Bool := !lt b a
    PredWrites .vCmplt f s (fun e => lt (opnd s f 1 e) (opnd s f 2 e)) ∧
    PredWrites .vCmpgt f s (fun e => lt (opnd s f 2 e) (opnd s f 1 e)) ∧
    PredWrites .vCmpun f s nan ∧
    (f.typ.isFloat = false →
      PredWrites .vCmple f s (fun e => le (opnd s f 1 e) (opnd s f 2 e)) ∧
      PredWrites .vCmpge f s (fun e => le (opnd s f 2 e) (opnd s f 1 e)) ∧
      PredWrites .vCmpeq f s (fun e => decide (f.typ.toInt (opnd s f 1 e) = f.typ.toInt (opnd s f 2 e))) ∧
      PredWrites .vCmpne f s (fun e => decide (f.typ.toInt (opnd s f 1 e) ≠ f.typ.toInt (opnd s f 2 e)))) ∧
    (f.typ.isFloat = true →
      PredWrites .vCmple f s (fun e => !nan e && le (opnd s f 1 e) (opnd s f 2 e)) ∧
      PredWrites .vCmpge f s (fun e => !nan e && le (opnd s f 2 e) (opnd s f 1 e)) ∧
      PredWrites .vCmpeq f s (fun e => !nan e && le (opnd s f 1 e) (opnd s f 2 e) && le (opnd s f 2 e) (opnd s f 1 e)) ∧
      PredWrites .vCmpne f s (fun e => nan e || lt (opnd s f 1 e) (opnd s f 2 e) || lt (opnd s f 2 e) (opnd s f 1 e))) ∧
    VecWrites .vSel f s (fun e => if (s.preg (f.p 3)).getLsbD (e * (w / 8)) then opnd s f 1 e else opnd s f 2 e)

/-- The logic commands act bit by bit, and the shifts, rotates and funnel shifts follow their tables, under the opcodes that the
rules give them (R136 to R138). -/
def Obligations.VectorLogicAndShifts : Prop :=
  ([COp.vAnd, .vOr, .vXor, .vNot, .vAndn, .vSll, .vSrl, .vSra, .vRol, .vRor, .vFsl, .vFsr].map COp.code =
    (List.range 12).map fun i => (0, 0x30 + i)) ∧
  ∀ (f : CmdF) (s : State),
    let w := f.typ.width
    let x (i e : Nat) : Nat := opnd s f i e
    let cat (e : Nat) : Nat := x 1 e * 2 ^ w + x 2 e
    VecWrites .vAnd f s (fun e => x 1 e &&& x 2 e) ∧
    VecWrites .vOr f s (fun e => x 1 e ||| x 2 e) ∧
    VecWrites .vXor f s (fun e => x 1 e ^^^ x 2 e) ∧
    VecWrites .vNot f s (fun e => 2 ^ w - 1 - x 1 e) ∧
    VecWrites .vAndn f s (fun e => x 1 e - (x 1 e &&& x 2 e)) ∧
    VecWrites .vSll f s (fun e => if x 2 e < w then x 1 e * 2 ^ x 2 e else 0) ∧
    VecWrites .vSrl f s (fun e => if x 2 e < w then x 1 e / 2 ^ x 2 e else 0) ∧
    VecWrites .vSra f s (fun e =>
      if x 2 e < w then ofInt w (toSigned w (x 1 e) / (2 ^ x 2 e : Nat)) else if (x 1 e).testBit (w - 1) then 2 ^ w - 1 else 0) ∧
    VecWrites .vRol f s (fun e => x 1 e * 2 ^ (x 2 e % w) + x 1 e / 2 ^ (w - x 2 e % w)) ∧
    VecWrites .vRor f s (fun e => x 1 e / 2 ^ (x 2 e % w) + x 1 e * 2 ^ (w - x 2 e % w)) ∧
    VecWrites .vFsl f s (fun e => cat e * 2 ^ (x 3 e % (2 * w)) % 2 ^ (2 * w) / 2 ^ w) ∧
    VecWrites .vFsr f s (fun e => cat e / 2 ^ (x 3 e % (2 * w)))

/-- The bit counts of every element, with the results on zero that their table gives (R72, R139). -/
def Sys2Proof.Claims.VectorBitCounts : Prop :=
  ∀ (f : CmdF) (s : State),
    let w := f.typ.width
    let x (e : Nat) : Nat := opnd s f 1 e
    VecWrites .vClz f s (fun e => if x e = 0 then w else w - 1 - Nat.log2 (x e)) ∧
    VecWrites .vCtz f s (fun e => ((List.range w).find? fun j => (x e).testBit j).getD w) ∧
    VecWrites .vFfs f s (fun e => (((List.range w).find? fun j => (x e).testBit j).map (· + 1)).getD 0) ∧
    VecWrites .vPop f s (fun e => ((List.range w).filter fun j => (x e).testBit j).length) ∧
    VecWrites .vBrev f s (fun e => ((List.range w).map fun j => if (x e).testBit j then 2 ^ (w - 1 - j) else 0).sum)

/-- The bit counts of zero: the width for leading and trailing zeros, 0 for find-first-set and population count, per packed
sub-element of every width; 64, 32 and 0 for the Zbb instructions (R72). -/
def Sys2Proof.Claims.BitCountsOnZero : Prop :=
  (∀ (f : CmdF) (s : State) (e : Nat), f.typ.width = 8 ∨ f.typ.width = 16 ∨ f.typ.width = 32 → e < elems f.typ.width →
    enabled f s.handCtx.ps f.typ.width e = true → opnd s f 1 e = 0 →
    let gives (i : CmdF → Instr) (v : Nat) : Prop := Completes (i f) s fun t => vget f.typ.width (t.vreg (f.v 0)) e = v
    gives .vClz f.typ.width ∧ gives .vCtz f.typ.width ∧ gives .vFfs 0 ∧ gives .vPop 0) ∧
  uopVal .clz 0 = 64 ∧ uopVal .ctz 0 = 64 ∧ uopVal .clzw 0 = 32 ∧ uopVal .ctzw 0 = 32 ∧ uopVal .cpop 0 = 0 ∧
  uopVal .cpopw 0 = 0

/-- A result and its status are an exact value converted to an integer type (R54): a NaN gives 0 and an infinity 0 or the extreme of the
type, a number its value rounded to an integer, with `NV` for what is out of range. -/
def IntegerIs (t : Ty) (rm : Rm) (sat : Bool) (r : Option Exact) (p : Nat × BitVec 4) : Prop :=
  match r with
  | none | some .nan => p = (0, 8)
  | some (.inf neg) => p = (if sat then ofInt t.width (if neg then t.minInt else t.maxInt) else 0, 8)
  | some (.num neg x) => ∃ n : Nat, Rounds rm neg x n ∧
    let v : Int := if neg then -n else n
    (v < t.minInt ∨ t.maxInt < v → p = (ofInt t.width (if sat then max t.minInt (min t.maxInt v) else v), 8)) ∧
    (t.minInt ≤ v → v ≤ t.maxInt → (n = x → p = (ofInt t.width v, 0)) ∧ (n ≠ x → p = (ofInt t.width v, 1)))

/-- A result and its status are an element converted from a type to another (R53, R54, R55): equal types copy, a NaN becoming canonical;
integers wrap or saturate; any other is the exact value rounded once. -/
def ConvertsTo (u t : Ty) (rm : Rm) (sat : Bool) (bits : Nat) (p : Nat × BitVec 4) : Prop :=
  let fits (v : Int) : Nat := ofInt t.width (if sat then max t.minInt (min t.maxInt v) else v)
  (u = t → p = (if u.isFloat && u.fmt.isNan bits then u.fmt.nan else bits, 0)) ∧
  (u ≠ t → t.isInt = false → Gives t.fmt rm sat (some (Exact.of (u.value bits))) p) ∧
  (u ≠ t → t.isInt = true → u.isInt = true → p = (fits (u.toInt bits), 0)) ∧
  (u ≠ t → t.isInt = true → u.isInt = false → IntegerIs t rm sat (some (Exact.of (u.value bits))) p)

/-- A block and its status are the encoding of sixteen exact values, of which the first `k` count (R57 to R62): `E` is the smallest
exponent at which every magnitude fits, or 254; a pair of elements takes the finer unit where both fit it; an element is its magnitude
rounded in its unit, and the largest where it fits nowhere. A NaN makes the whole block NaN, and values that all round to zero at the
smallest exponent make it zero. -/
def PbIs (t : Ty) (rm : Rm) (k : Nat) (x : Nat → Option Exact) (p : Nat × BitVec 4) : Prop :=
  let m := t.pbMag
  let unit (e mu : Nat) : ℝ := (2 : ℝ) ^ ((e : Int) - 127 - mu - (m - 1 : Nat))
  let mag (j e mu n : Nat) : Prop := ∃ neg y, x j = some (.num neg y) ∧ Rounds rm neg (y / unit e mu) n
  let fits (j e mu : Nat) : Prop := ∃ n, n < 2 ^ m ∧ mag j e mu n
  let small := ∀ j, j < k → mag j 1 0 0
  let odd := ∃ j, j < k ∧ (x j = none ∨ x j = some .nan)
  let ex := p.1 % 256
  let mu (j : Nat) : Nat := p.1 / 2 ^ (8 + j / 2) % 2
  let el (j : Nat) : Nat := p.1 / 2 ^ (16 + j * (m + 1)) % 2 ^ (m + 1)
  let lost := ∃ j neg y, j < k ∧ x j = some (.num neg y) ∧ y ≠ (el j % 2 ^ m : Nat) * unit ex (mu j)
  (odd → p = (255, 8)) ∧
  (¬ odd → small → p.1 = 0 ∧ (p.2 = 0 ∨ p.2 = 1) ∧ (p.2 = 1 ↔ ∃ j neg y, j < k ∧ x j = some (.num neg y) ∧ y ≠ 0)) ∧
  (¬ odd → ¬ small →
    1 ≤ ex ∧ ex ≤ 254 ∧ (ex = 254 ∨ ∀ j, j < k → fits j ex 0) ∧ (∀ e, 1 ≤ e → e < ex → ∃ j, j < k ∧ ¬ fits j e 0) ∧
    (∀ b, b < 8 → (mu (2 * b) = 1 ↔ 2 * b < k ∧ ∀ j, j / 2 = b → j < k → fits j ex 1)) ∧
    (∀ j, j < 16 → k ≤ j → el j = 0) ∧
    (∀ j, j < k → (fits j ex (mu j) → mag j ex (mu j) (el j % 2 ^ m)) ∧ (¬ fits j ex (mu j) → el j % 2 ^ m = 2 ^ m - 1) ∧
      (el j / 2 ^ m = 1 ↔ x j = some (.inf true) ∨ ∃ y, x j = some (.num true y))) ∧
    ((∃ j, j < k ∧ ¬ fits j ex (mu j)) → p.2 = 5) ∧
    ((∀ j, j < k → fits j ex (mu j)) → (lost → p.2 = 1) ∧ (¬ lost → p.2 = 0)))

/-- A narrowed value with its residual and their status (R71): the value rounded once; the residual `x` − `h` rounded to fp32, of which
only `NX` counts, +0 where `x` or `h` is not finite, and the NaN of a NaN. -/
def NarrowsTo (u t : Ty) (rm : Rm) (sat : Bool) (bits : Nat) (p : Nat × Nat × BitVec 4) : Prop :=
  let x := u.fmt.decode bits
  ∃ st : BitVec 4, Gives t.fmt rm sat (some (Exact.of x)) (p.1, st) ∧
    (x = .nan → p.2 = (0x7FC00000, 0)) ∧ (∀ neg, x = .inf neg → p.2 = (0, st)) ∧
    ∀ neg m q, x = .fin neg m q →
      (∀ a n d, t.fmt.decode p.1 = .fin a n d → ∃ z : BitVec 4,
        (∃ v, (Exact.of x).add .rne (Exact.of (.fin a n d)).neg = some v ∧ Gives .fp32 .rne false (some v) (p.2.1, z)) ∧
        p.2.2 = st ||| (z &&& 1)) ∧
      ((∀ a n d, t.fmt.decode p.1 ≠ .fin a n d) → p.2 = (0, st))

/-- Conversion: the columns of the source slice reach those of the destination slice, each converted once with the status of R55, and
every other element keeps its value; packing writes 64 blocks from the low end of the image and zeros behind them, with the status of
every block, and unpacking gives each element its block's value, or zero beyond its count, and no status (R140 to R144). -/
def Obligations.VectorConversions : Prop :=
  ∀ (f : CmdF) (s : State),
    let t := f.typ
    let u := CmdF_src f
    let a := s.vreg (f.v 1)
    let c := min t.cols u.cols
    let on (e : Nat) : Prop := e < elems t.width ∧ enabled f s.handCtx.ps t.width e = true
    (∃ p : Nat → Nat × BitVec 4, (∀ e, ConvertsTo u t f.rm f.sat (vget u.width a (e / t.cols * u.cols + cvtSrc f * c + e % t.cols % c)) (p e)) ∧
      Completes (.vCvt f) s fun v =>
        VecFrame s (some (f.v 0)) none v ∧
        (∀ e, e < elems t.width → vget t.width (v.vreg (f.v 0)) e =
          if enabled f s.handCtx.ps t.width e ∧ e % t.cols / c = cvtDst f then (p e).1 % 2 ^ t.width
          else vget t.width (s.vreg (f.v 0)) e) ∧
        StatusGains s v (fun e => on e ∧ e % t.cols / c = cvtDst f) (fun e => (p e).2)) ∧
    (u.isFloat = true → t.isFloat = true → ∃ p : Nat → Nat × Nat × BitVec 4,
      (∀ e, NarrowsTo u t f.rm f.sat (vget u.width a (e / t.cols * u.cols + cvtSrc f * 64 + e % t.cols % 64)) (p e)) ∧
      (f.v 0 ≠ f.v 4 → cvtDst f * 64 + 64 ≤ t.cols → Completes (.vCvtef f) s fun v =>
        OnlyHearth s.foc.h s v ∧ (∀ i, i ≠ f.v 0 → i ≠ f.v 4 → v.vreg i = s.vreg i) ∧
        (∀ e, e < elems t.width → vget t.width (v.vreg (f.v 0)) e =
          if enabled f s.handCtx.ps t.width e ∧ e % t.cols / 64 = cvtDst f then (p e).1 % 2 ^ t.width
          else vget t.width (s.vreg (f.v 0)) e) ∧
        (∀ r q, r < 16 → q < 64 → vget 32 (v.vreg (f.v 4)) (r * 64 + q) =
          let e := r * t.cols + cvtDst f * 64 + q
          if enabled f s.handCtx.ps t.width e then (p e).2.1 % 2 ^ 32 else vget 32 (s.vreg (f.v 4)) (r * 64 + q)) ∧
        StatusGains s v (fun e => on e ∧ e % t.cols / 64 = cvtDst f) (fun e => (p e).2.2))) ∧
    (Completes (.vPbunpk f) s fun v =>
      VecFrame s (some (f.v 0)) none v ∧ v.hand.status = s.hand.status ∧
      ∀ i, i < 1024 → vget 32 (v.vreg (f.v 0)) i =
        (if (i : Int) < f.imm18 2 then
          (Fmt.fp32.encode .rne false (pbElem t (bitsN a (8 * t.pbBytes * (i / 16)) (8 * t.pbBytes)) (i % 16))).1 % 2 ^ 32
        else 0)) ∧
    (t.isPb = true →
      ∃ block : Nat → Nat × BitVec 4,
      (∀ b, b < 64 → PbIs t f.rm (min 16 ((f.imm18 2).toNat - 16 * b)) (fun j => some (Exact.of (Fmt.fp32.decode (vget 32 a (16 * b + j))))) (block b)) ∧
      Completes (.vPbpack f) s fun v =>
        VecFrame s (some (f.v 0)) none v ∧
        (∀ b, b < 64 → bitsN (v.vreg (f.v 0)) (8 * t.pbBytes * b) (8 * t.pbBytes) = (block b).1) ∧
        bitsN (v.vreg (f.v 0)) (512 * t.pbBytes) (32768 - 512 * t.pbBytes) = 0 ∧
        StatusGains s v (· < 64) (fun b => (block b).2))

/-- The enabled elements of a line of the source, in order: columns 0 to `n` − 1 of row `l`, or rows 0 to `n` − 1 of column
`l` (R147, R150). -/
def lineOf (s : State) (f : CmdF) (col : Bool) (l n : Nat) : List Nat :=
  ((List.range n).map fun i => if col then i * f.typ.cols + l else l * f.typ.cols + i).filterMap fun e =>
    if enabled f s.handCtx.ps f.typ.width e then some (vget f.typ.width (s.vreg (f.v 1)) e) else none

/-- The reductions of a line to one value (R150): the exact sum, wrapped or saturated; the largest and smallest, from the
identity of the type; AND and OR. -/
def sumInts (f : CmdF) (xs : List Nat) : Nat :=
  ofInt f.typ.width (let v := (xs.map f.typ.toInt).sum; if f.sat then max f.typ.minInt (min f.typ.maxInt v) else v)

/-- A result and its status are the sum of a line: the exact integer sum, wrapped or saturated; the exact sum of float elements rounded
once, with the infinities, the NaNs and the signs of zero of R151; the identity of an empty line (R150). -/
def SumIs (f : CmdF) (xs : List Nat) (p : Nat × BitVec 4) : Prop :=
  let g := f.typ.fmt
  let vs := xs.map g.decode
  let zero := if xs.all (· == g.signBit) then true else if xs.all (· == 0) then false else decide (f.rm = .rdn)
  (f.typ.isFloat = false → p = (sumInts f xs, 0)) ∧
  (f.typ.isFloat = true →
    (xs = [] → p = (0, 0)) ∧ (FVal.nan ∈ vs → p = (g.nan, 0)) ∧
    (FVal.nan ∉ vs → (∀ neg, FVal.inf neg ∈ vs) → p = (g.nan, 8)) ∧
    (∀ neg, FVal.nan ∉ vs → FVal.inf neg ∈ vs → FVal.inf (!neg) ∉ vs → p = (g.signed neg g.inf, 0)) ∧
    ((∀ y, y ∈ vs → ∃ neg m e, y = FVal.fin neg m e) → xs ≠ [] →
      Gives g f.rm f.sat (some (Exact.real zero (vs.map numberOf).sum)) p))

/-- `v` is the greatest or the least of the values of a line; a NaN counts as missing, −0 lies below +0, and a line without values gives the
identity of the type (R130, R150). -/
def ExtremeIs (f : CmdF) (most : Bool) (xs : List Nat) (v : Nat) : Prop :=
  let g := f.typ.fmt
  let ys := if f.typ.isFloat then xs.filter fun x => !g.isNan x else xs
  let rank (x : Nat) : Int := if f.typ.isFloat then place g x else f.typ.toInt x
  (ys = [] → v = if f.typ.isFloat then g.nan else ofInt f.typ.width (if most then f.typ.minInt else f.typ.maxInt)) ∧
  (ys ≠ [] → v ∈ ys ∧ ∀ y, y ∈ ys → if most then rank y ≤ rank v else rank v ≤ rank y)

/-- A reduction gives every enabled element of a line the value of the whole line: the exact integer sum or the once-rounded
float sum with its status, the maximum, the minimum, the AND, the OR, which have none (R150, R151). -/
def Sys2Proof.Claims.VectorReductions : Prop :=
  ∀ (f : CmdF) (s : State),
    let n := f.typ.cols
    let row (e : Nat) : List Nat := lineOf s f false (e / n) n
    let col (e : Nat) : List Nat := lineOf s f true (e % n) 16
    let adds (i : CmdF → Instr) (line : Nat → List Nat) : Prop := ∃ v, VecGives i f s [] v ∧ ∀ e, SumIs f (line e) (v e)
    let extreme (i : CmdF → Instr) (most : Bool) (line : Nat → List Nat) : Prop :=
      ∃ v : Nat → Nat, VecGives i f s [] (fun e => (v e, 0)) ∧ ∀ e, ExtremeIs f most (line e) (v e)
    adds .vSumr row ∧ adds .vSumc col ∧ extreme .vMaxr true row ∧ extreme .vMaxc true col ∧
    extreme .vMinr false row ∧ extreme .vMinc false col ∧
    VecGives .vAndr f s [] (fun e => ((row e).foldr (fun x a => x &&& a) (2 ^ f.typ.width - 1), 0)) ∧
    VecGives .vAndc f s [] (fun e => ((col e).foldr (fun x a => x &&& a) (2 ^ f.typ.width - 1), 0)) ∧
    VecGives .vOrr f s [] (fun e => ((row e).foldr (fun x a => x ||| a) 0, 0)) ∧
    VecGives .vOrc f s [] (fun e => ((col e).foldr (fun x a => x ||| a) 0, 0))

/-- A scan gives each enabled element the reduction of its line's enabled elements up to and with itself (R152). -/
def Sys2Proof.Claims.VectorScans : Prop :=
  ∀ (f : CmdF) (s : State),
    let n := f.typ.cols
    let row (e : Nat) : List Nat := lineOf s f false (e / n) (e % n + 1)
    let col (e : Nat) : List Nat := lineOf s f true (e % n) (e / n + 1)
    let adds (i : CmdF → Instr) (line : Nat → List Nat) : Prop := ∃ v, VecGives i f s [] v ∧ ∀ e, SumIs f (line e) (v e)
    let extreme (i : CmdF → Instr) (most : Bool) (line : Nat → List Nat) : Prop :=
      ∃ v : Nat → Nat, VecGives i f s [] (fun e => (v e, 0)) ∧ ∀ e, ExtremeIs f most (line e) (v e)
    adds .vScsumr row ∧ adds .vScsumc col ∧ extreme .vScmaxr true row ∧ extreme .vScmaxc true col ∧
    extreme .vScminr false row ∧ extreme .vScminc false col

/-- Rotations, broadcasts, permutes, moves, zips and unzips copy the bits of the element that their rule names; `v.iota`
counts (R148, R149, R154 to R157). -/
def Obligations.VectorMoves : Prop :=
  ∀ (f : CmdF) (s : State),
    let w := f.typ.width
    let n := f.typ.cols
    let at_ (i r q : Nat) : Nat := vget w (s.vreg (f.v i)) (r * n + q)
    let ix (e : Nat) : Nat := vget w (s.vreg (f.v 2)) e
    (∀ k : Nat, f.imm18 2 = k → VecWrites .vRotr f s fun e => at_ 1 (e / n) ((e % n + (n - k % n)) % n)) ∧
    (∀ k : Nat, f.imm18 2 = k → VecWrites .vRotc f s fun e => at_ 1 ((e / n + (16 - k % 16)) % 16) (e % n)) ∧
    (∀ k : Nat, f.imm18 2 = -(k : Int) → VecWrites .vRotr f s fun e => at_ 1 (e / n) ((e % n + k) % n)) ∧
    (∀ k : Nat, f.imm18 2 = -(k : Int) → VecWrites .vRotc f s fun e => at_ 1 ((e / n + k) % 16) (e % n)) ∧
    VecWrites .vBcr f s (fun e => at_ 1 (e / n) (f.pay 2)) ∧
    VecWrites .vBcc f s (fun e => at_ 1 (f.pay 2) (e % n)) ∧
    VecWrites .vPerm f s (fun e => if ix e < n then at_ 1 (e / n) (ix e) else 0) ∧
    VecWrites .vIota f s (fun e => f.typ.fit f.sat (f.imm18 1 + (e : Int) * f.imm18 2)) ∧
    VecWrites .vMovi f s (fun e => opnd s f 1 e) ∧
    VecWrites .vMov f s (fun e => vget w (s.vreg (f.v 1)) e) ∧
    (f.pay 3 < 2 →
      VecWrites .vZip f s (fun e => at_ (if e % n % 2 = 0 then 1 else 2) (e / n) (f.pay 3 * (n / 2) + e % n / 2)) ∧
      VecWrites .vUnzip f s (fun e => at_ (if e % n < n / 2 then 1 else 2) (e / n) (2 * (e % n % (n / 2)) + f.pay 3)))

/-- A scratchpad byte as the command in the hand reads it: of a granule that it has read before, as it stood then (R225). -/
def seenByte (s : State) (x : Nat) : Byte :=
  match s.hand.latch.find? fun p => p.1 == x / 64 with
  | some p => (p.2[x % 64]?).getD 0
  | none => s.fh.scratch.read x

/-- The number in the `n` scratchpad bytes at an address, as the command in the hand reads them. -/
def seenNum (s : State) (a n : Nat) : Nat := leNat ((List.range n).map fun b => seenByte s (a + b))

/-- Loads, gathers and table lookups read the scratchpad of their hearth: a row of the window into a row of the register with
zeros beyond the window, the word that an index names or zero outside the window, the table entry that an index names
(R158, R161, R163); of a granule that the command has read before, as it stood then (R225). -/
def Sys2Proof.Claims.VectorScratchpadReads : Prop :=
  ∀ (f : CmdF) (s : State),
    let w := f.typ.width
    let n := f.typ.cols
    let ix (e : Nat) : Nat := vget w (s.vreg (f.v 1)) e
    VecWrites .vLd f s (fun e =>
      leNat ((List.range (w / 8)).map fun b =>
        let q := e % n * (w / 8) + b
        if e / n < (s.hand.win 1).rows ∧ q < (s.hand.win 1).len then
          seenByte s ((s.hand.win 1).a0 + e / n * (s.hand.win 1).pitch + q)
        else 0)) ∧
    (w = 32 → VecWrites .vGath f s fun e =>
      let a := (s.hand.win 1).a0 + 4 * vget 32 (s.vreg (f.v 2)) e
      if a + 3 ≤ (s.hand.win 1).last then seenNum s a 4 else 0) ∧
    VecWrites .vLut8 f s (fun e => seenNum s ((s.hand.win 2).a0 + w / 8 * (ix e % 8)) (w / 8)) ∧
    VecWrites .vLut16 f s (fun e => seenNum s ((s.hand.win 2).a0 + w / 8 * (ix e % 16)) (w / 8))

/-- A store writes to the scratchpad of its hearth exactly the bytes that its guard, mask or indexes select, the higher row
or element winning at a shared byte, and leaves every other byte, every register and the rest of the machine; the bytes of a granule that
it has written before are not written again (R161 to R163, R225). -/
def Sys2Proof.Claims.VectorScratchpadWrites : Prop :=
  ∀ (f : CmdF) (s : State),
    let w := f.typ.width
    let win := s.hand.win 1
    let a := s.vreg (f.v 0)
    let done (x : Nat) : Prop := ∃ p, p ∈ s.hand.latch ∧ p.1 = x / 64
    let frame (t : State) : Prop :=
      t.fh.hand.performed = true ∧ OnlyHearth s.foc.h s t ∧ (∀ c, { t.fh.ctx c with resv := (s.fh.ctx c).resv } = s.fh.ctx c) ∧
      { t.fh with ctxs := s.fh.ctxs, scratch := s.fh.scratch, hand := s.fh.hand } = s.fh ∧
      (∀ x, done x → t.fh.scratch.read x = s.fh.scratch.read x)
    let here (x r q : Nat) : Prop := r < min win.rows 16 ∧ q < min win.len 256 ∧ x = win.a0 + r * win.pitch + q
    let stores (i : CmdF → Instr) (sel : Nat → Bool) : Prop := Completes (i f) s fun t =>
      frame t ∧
      (∀ x r q, here x r q → sel (r * 256 + q) = true → (∀ r' q', here x r' q' → sel (r' * 256 + q') = true → r' ≤ r) → ¬ done x →
        t.fh.scratch.read x = byteOf a (r * 256 + q)) ∧
      (∀ x, (∀ r q, here x r q → sel (r * 256 + q) = false) → t.fh.scratch.read x = s.fh.scratch.read x)
    stores .vSt (fun b => enabled f s.handCtx.ps w (b / (w / 8))) ∧
    stores .vStm (fun b => (s.preg (f.p 2)).getLsbD b) ∧
    Completes (.vScat f) s fun t =>
      let hit (e x : Nat) : Prop := e < 1024 ∧ enabled f s.handCtx.ps 32 e = true ∧ x + 3 ≤ win.last ∧
        x = win.a0 + 4 * vget 32 (s.vreg (f.v 2)) e
      frame t ∧
      (∀ e x b, hit e x → b < 4 → (∀ e', hit e' x → e' ≤ e) → ¬ done (x + b) →
        t.fh.scratch.read (x + b) = BitVec.ofNat 8 (vget 32 a e / 256 ^ b)) ∧
      (∀ y, (∀ e x, hit e x → y < x ∨ x + 4 ≤ y) → t.fh.scratch.read y = s.fh.scratch.read y)

/-- The predicate commands: the logic of all 4,096 bits, the first n elements, non-zero elements of a register and back, and
the counts of R166, which write every lane whatever the guard (R165, R166). -/
def Obligations.PredicateCommands : Prop :=
  ∀ (f : CmdF) (s : State),
    let w := f.typ.width
    let n := f.typ.cols
    let whole (i : CmdF → Instr) (p : PReg) : Prop :=
      Completes (i f) s fun t => VecFrame s none (some (f.p 0)) t ∧ t.preg (f.p 0) = p ∧ t.hand.status = s.hand.status
    let on (e : Nat) : Bool := enabled f s.handCtx.ps w e && (s.preg (f.p 1)).getLsbD (e * (w / 8))
    let count (r : Nat) : Nat := ((List.range n).filter fun q => on (r * n + q)).length
    whole .vPand (s.preg (f.p 1) &&& s.preg (f.p 2)) ∧ whole .vPor (s.preg (f.p 1) ||| s.preg (f.p 2)) ∧
    whole .vPxor (s.preg (f.p 1) ^^^ s.preg (f.p 2)) ∧ whole .vPandn (s.preg (f.p 1) &&& ~~~ (s.preg (f.p 2))) ∧
    whole .vPnot (~~~ (s.preg (f.p 1))) ∧
    PredWrites .vPset f s (fun e => decide ((e : Int) < f.imm18 1)) ∧
    (f.kind 0 = 2 → PredWrites .vPmov f s fun e => vget w (s.vreg (f.v 1)) e != 0) ∧
    (f.kind 0 ≠ 2 → VecWrites .vPmov f s fun e => if (s.preg (f.p 1)).getLsbD (e * (w / 8)) then 2 ^ w - 1 else 0) ∧
    Completes (.vPcnt f) s fun t =>
      VecFrame s (some (f.v 0)) none t ∧
      ∀ i, i < 1024 → vget 32 (t.vreg (f.v 0)) i =
        if f.pay 2 = 0 then ((List.range 16).map count).sum else count (i / 64)

/-! ## Matrix and sort commands -/

/-- The engine has one unit to perform for the command in its hand, which has not performed and is not held, and no earlier
access of the hearth is outstanding. -/
def OneUnit (s : State) : Prop :=
  s.fh.quota = 1 ∧ s.hand.performed = false ∧ s.hand.hold = none ∧ s.fh.earlier s.hand.seq = []

/-- The command has moved on to unit `pos`, and the contexts, the flags and the rest of the machine are as before. -/
def UnitFrame (s t : State) (pos : Nat) (last : Bool) : Prop :=
  t.hand.pos = pos ∧ t.hand.performed = last ∧ SameWorld s t ∧ (∀ g, g ≠ s.foc.h → t.hearth g = s.hearth g) ∧
  t.fh.flags = s.fh.flags ∧ t.fh.imem = s.fh.imem ∧
  (∀ c, { t.fh.ctx c with resv := (s.fh.ctx c).resv } = s.fh.ctx c)

/-- `mx.cfg` loads the six levels of its context's shadow nest table from 192 bytes (R171), of a granule that it has read before as it stood then (R225). -/
def Sys2Proof.Claims.MatrixConfigLoadsTheNest : Prop :=
  ∀ (f : CmdF) (s : State),
    Completes (.mxCfg f) s fun t =>
      (∀ l : Fin 6, ∀ i : Fin 4,
        (((t.handCtx.nest)[l]).csr i).toNat =
          seenNum s ((s.hand.win 0).a0 + 32 * l.val + 8 * i.val) 8 % 2 ^ (if i = 0 then 16 else 22)) ∧
      t.hand.performed = true ∧ OnlyHearth s.foc.h s t ∧ t.fh.scratch = s.fh.scratch ∧ t.fh.flags = s.fh.flags ∧
      { t.handCtx with nest := s.handCtx.nest } = s.handCtx ∧ (∀ c, c ≠ s.hand.ctx → t.fh.ctx c = s.fh.ctx c)

/-- `mx.ldb` loads the 128 rows of its bank from the rows of its window, whatever they hold, and touches no other bank
(R172); of a granule that it has read before it takes what stood there then (R225). -/
def Sys2Proof.Claims.BankLoadCopiesRows : Prop :=
  ∀ (f : CmdF) (s : State),
    s.hand.performed = false → s.hand.pos = 0 → 128 ≤ s.fh.quota →
    Completes (.mxLdb f) s fun t =>
      (∀ k : Fin 128, ((t.fh.banks[Fin.ofNat 8 (f.pay 0)]).rows[k]).toNat =
        seenNum s ((s.hand.win 1).a0 + k.val * (s.hand.win 1).pitch) (rowBytes f.typ) % 2 ^ 2048) ∧
      (∀ b, b ≠ Fin.ofNat 8 (f.pay 0) → t.fh.banks[b] = s.fh.banks[b]) ∧ t.hand.performed = true ∧
      t.fh.scratch = s.fh.scratch ∧ t.fh.accs = s.fh.accs ∧ t.fh.ctxs = s.fh.ctxs ∧ OnlyHearth s.foc.h s t

/-- One row of a running nest adds the row sums of 128 activations against the 128 columns of its bank to one accumulator
row, with their status, and leaves every other row, every pair and every bank (R67 to R69, R175). A row outside the window counts as
zeros, as does a bank without a format (R173, R175). -/
def Sys2Proof.Claims.NestRowAccumulates : Prop :=
  ∀ (f : CmdF) (s : State),
    let c := s.hand
    let ls := c.nest.toList
    let a : Int := ((c.win 0).a0 : Int) + nestSum ls (·.sa) c.pos
    let bank := s.fh.banks[Fin.ofNat 8 (((f.pay 1 : Int) + nestSum ls (·.sb) c.pos) % 8).toNat]
    let row := ((((f.pay 2 * 128 : Nat) : Int) + nestSum ls (·.sc) c.pos) % 1024).toNat
    let raw := seenNum s a.toNat (rowBytes f.typ)
    let n : Fin 8 := Fin.ofNat 8 (row / 128)
    let inside := ((c.win 0).a0 : Int) ≤ a ∧ a + (rowBytes f.typ : Int) - 1 ≤ ((c.win 0).last : Int)
    let sum (k : Nat) : Nat × BitVec 4 :=
      match bank.latch with
      | none => (0, 0)
      | some lt =>
        if inside then rowSum ((List.range 128).map fun i =>
          FVal.mul (rowElem f.typ raw i) (rowElem lt (bank.rows[Fin.ofNat 128 i]).toNat k))
        else (0, 0)
    let old (k : Nat) : Nat := ((s.fh.accs[n]).vals[Fin.ofNat 16384 (row % 128 * 128 + k)]).toNat
    OneUnit s →
    Completes (.mxGo f) s fun t =>
      (∀ i : Fin 16384, (t.fh.accs[n]).vals[i] =
        if i.val / 128 = row % 128 then BitVec.ofNat 32 (accAdd (old (i.val % 128)) (sum (i.val % 128)).1).1
        else (s.fh.accs[n]).vals[i]) ∧
      StatusGains s t (· < 128) (fun k => (sum k).2 ||| (accAdd (old k) (sum k).1).2) ∧
      (t.fh.accs[n]).smax = (s.fh.accs[n]).smax ∧ (∀ m, m ≠ n → t.fh.accs[m] = s.fh.accs[m]) ∧
      t.fh.banks = s.fh.banks ∧ t.fh.scratch = s.fh.scratch ∧
      UnitFrame s t (c.pos + 1) (c.pos + 1 == nestRows ls)

/-- The byte that stands at a scratchpad address once what the command in the hand still keeps back for its granule is written
(R225). -/
def lateByte (s : State) (x : Nat) : Byte :=
  ((s.hand.late.reverse.find? fun p => p.1 == x).map (·.2)).getD (s.fh.scratch.read x)

/-- The output row of the drain in the hand has been written: its bytes stand at its row of the window, or wait for the rest of
their granule, and no other byte differs; behind the last row nothing is kept back. -/
def DrainedRow (f : CmdF) (s t : State) (bs : Nat → Byte) : Prop :=
  let a := (s.hand.win 0).a0 + s.hand.pos * (s.hand.win 0).pitch
  (∀ i, i < rowBytes f.typ → lateByte t (a + i) = bs i) ∧
  (∀ y, y < a ∨ a + rowBytes f.typ ≤ y → lateByte t y = lateByte s y) ∧
  (s.hand.pos = 127 → t.hand.late = [])

/-- The bytes and the status of an output row of 128 exact values (R177, R178, R180): each element, or each block of sixteen, is encoded
once; `e` are the patterns. -/
def RowIs (t : Ty) (rm : Rm) (sat : Bool) (x : Nat → Option Exact) (e : Nat → Nat) (bs : Nat → Byte) (st : BitVec 4) : Prop :=
  let size := if t.isPb then t.pbBytes else t.bytes
  let units := if t.isPb then 8 else 128
  ∃ z : Nat → BitVec 4,
    (∀ j, j < units →
      (t.isFloat = true → Gives t.fmt rm sat (x j) (e j, z j)) ∧ (t.isInt = true → IntegerIs t rm sat (x j) (e j, z j)) ∧
      (t.isPb = true → PbIs t rm 16 (fun i => x (16 * j + i)) (e j, z j))) ∧
    (∀ i, i < rowBytes t → bs i = BitVec.ofNat 8 (e (i / size) / 256 ^ (i % size))) ∧
    ∀ k, bit st k = true ↔ ∃ j, j < units ∧ bit (z j) k = true

/-- The value of an element of such a row as it stands written. -/
def written (t : Ty) (e : Nat → Nat) (j : Nat) : FVal := if t.isPb then pbElem t (e (j / 16)) (j % 16) else t.value (e j)

/-- The exact value of an fp32 pattern. -/
noncomputable def real32 (b : Nat) : Exact := Exact.of (Fmt.fp32.decode b)

/-- One row of a plain drain, and of a histogram drain before its last, converts its 128 accumulator values once to the output type
and writes them at its row of the window, with their status; the last row of a clearing drain zeroes the values of its accumulator
(R55, R177, R178). -/
def Sys2Proof.Claims.DrainRowConvertsOnce : Prop :=
  ∀ (f : CmdF) (s : State),
    let r := s.hand.pos
    let n : Fin 8 := Fin.ofNat 8 (f.pay 1)
    OneUnit s → r < 128 → (f.pay 3 % 4 = 0 ∨ (f.pay 3 % 4 = 1 ∧ r < 127)) →
    Completes (.mxDrain f) s fun t =>
      (∃ e bs st, RowIs f.typ f.rm f.sat
          (fun j => some (real32 ((s.fh.accs[n]).vals[Fin.ofNat 16384 (r * 128 + j)]).toNat)) e bs st ∧
        DrainedRow f s t bs ∧ t.hand.status = s.hand.status ||| st) ∧
      (t.fh.accs[n]).vals = (if r = 127 ∧ bit (f.opd 3) 2 = true then Vector.replicate 16384 0 else (s.fh.accs[n]).vals) ∧
      (t.fh.accs[n]).smax = (s.fh.accs[n]).smax ∧ (∀ m, m ≠ n → t.fh.accs[m] = s.fh.accs[m]) ∧
      UnitFrame s t (r + 1) (r + 1 == 128)

/-- The bins of a histogram drain are those of R73, by the power of 2 below each magnitude, and the last row adds the counts of the
accumulator's values to them, each saturating, where the bin window meets no row of the destination; it counts the bin bytes and
clears as a plain drain does (R73, R178). -/
def Sys2Proof.Claims.HistogramDrainCountsBins : Prop :=
  (∀ v : FVal, histBin v < 32) ∧ histBin .nan = 31 ∧ (∀ neg, histBin (.inf neg) = 31) ∧ (∀ neg e, histBin (.fin neg 0 e) = 0) ∧
  (∀ neg (m : Nat) (e k : Int), 0 < m → (2 : ℝ) ^ k ≤ m * (2 : ℝ) ^ e → m * (2 : ℝ) ^ e < (2 : ℝ) ^ (k + 1) →
    (k < -15 → histBin (.fin neg m e) = 0) ∧ (-15 ≤ k → k < 15 → (histBin (.fin neg m e) : Int) = k + 16) ∧
    (15 ≤ k → histBin (.fin neg m e) = 31)) ∧
  ∀ (f : CmdF) (s : State),
    let w := s.hand.win 0
    let b := (s.hand.win 2).a0
    let n : Fin 8 := Fin.ofNat 8 (f.pay 1)
    OneUnit s → s.hand.pos = 127 → f.pay 3 % 4 = 1 → (∀ p, p ∈ s.hand.late → p.1 < b ∨ b + 128 ≤ p.1) →
    (∀ r, r < 128 → w.a0 + r * w.pitch + rowBytes f.typ ≤ b ∨ b + 128 ≤ w.a0 + r * w.pitch) →
    Completes (.mxDrain f) s fun t =>
      (∀ i, i < 32 → leNat (t.fh.scratch.bytes (b + 4 * i) 4) = min (2 ^ 32 - 1)
        (leNat (s.fh.scratch.bytes (b + 4 * i) 4) +
          ((s.fh.accs[n]).vals.toList.filter fun v => histBin (Fmt.fp32.decode v.toNat) == i).length)) ∧
      (∃ e bs st, RowIs f.typ f.rm f.sat
          (fun j => some (real32 ((s.fh.accs[n]).vals[Fin.ofNat 16384 (127 * 128 + j)]).toNat)) e bs st ∧
        (∀ i, i < rowBytes f.typ → t.fh.scratch.read (w.a0 + 127 * w.pitch + i) = bs i) ∧ t.hand.status = s.hand.status ||| st) ∧
      t.hand.bytes = s.hand.bytes + unionLen ((List.range 128).map fun r => (w.a0 + r * w.pitch, w.a0 + r * w.pitch + rowBytes f.typ)) + 128 ∧
      (t.fh.accs[n]).vals = (if bit (f.opd 3) 2 = true then Vector.replicate 16384 0 else (s.fh.accs[n]).vals) ∧
      (t.fh.accs[n]).smax = (s.fh.accs[n]).smax ∧ (∀ m, m ≠ n → t.fh.accs[m] = s.fh.accs[m]) ∧ t.hand.performed = true

/-- One row of an online-softmax drain takes the steps of R179, each rounded to nearest in fp32 with its status: the scaled scores and
their maximum; the rescaling of the row of O and of l where the maximum rises from a finite one; the weights, written in the output
type; and their sum in column order. -/
def Sys2Proof.Claims.SoftmaxDrainTakesItsSteps : Prop :=
  ∀ (f : CmdF) (s : State),
    let r := s.hand.pos
    let sn : Fin 8 := Fin.ofNat 8 (f.pay 1)
    let on : Fin 8 := Fin.ofNat 8 (f.pay 2)
    let at_ (u : State) (n : Fin 8) (j : Nat) : Nat := ((u.fh.accs[n]).vals[Fin.ofNat 16384 (r * 128 + j)]).toNat
    let pair (u : State) : W32 × W32 := (u.fh.accs[on]).smax[Fin.ofNat 128 r]
    let v := Fmt.fp32.decode
    let near := Gives .fp32 .rne false
    let exp2 (x : Nat) (p : Nat × BitVec 4) : Prop := Exp2Is (v x) p.1 ∧ p.2 = exp2Status (v x)
    OneUnit s → r < 128 → f.pay 3 % 4 = 2 → sn ≠ on →
    Completes (.mxDrain f) s fun t =>
      ∃ (sc o y p l : Nat → Nat × BitVec 4) (mn : Nat) (d fac : Nat × BitVec 4) (e : Nat → Nat) (bs : Nat → Byte) (st : BitVec 4),
        let m := (pair s).1.toNat
        let rises := (v m).lt (v mn) = true ∧ m ≠ 0xFF800000
        (∀ j, j < 128 → near ((real32 (at_ s sn j)).mul (real32 f.imm.toNat)) (sc j)) ∧
        mn = larger .fp32 m (((List.range 128).map fun j => (sc j).1).foldl (larger .fp32) 0xFF800000) ∧
        (rises → near ((real32 m).add .rne (real32 mn).neg) d ∧ exp2 d.1 fac ∧
          (∀ j, j < 128 → near ((real32 (at_ s on j)).mul (real32 fac.1)) (o j)) ∧
          near ((real32 (pair s).2.toNat).mul (real32 fac.1)) (l 0)) ∧
        (¬ rises → d.2 = 0 ∧ fac.2 = 0 ∧ (∀ j, o j = (at_ s on j, 0)) ∧ l 0 = ((pair s).2.toNat, 0)) ∧
        (mn = 0xFF800000 → ∀ j, y j = (0, 0) ∧ p j = (0, 0)) ∧
        (mn ≠ 0xFF800000 → ∀ j, j < 128 → near ((real32 (sc j).1).add .rne (real32 mn).neg) (y j) ∧ exp2 (y j).1 (p j)) ∧
        RowIs f.typ .rne f.sat (fun j => some (real32 (p j).1)) e bs st ∧ DrainedRow f s t bs ∧
        (∀ j, j < 128 → near ((real32 (l j).1).add .rne (Exact.of (written f.typ e j))) (l (j + 1))) ∧
        (∀ k, bit t.hand.status k = true ↔ bit s.hand.status k = true ∨ bit st k = true ∨ bit d.2 k = true ∨ bit fac.2 k = true ∨
          (∃ j, j < 128 ∧ (bit (sc j).2 k = true ∨ bit (o j).2 k = true ∨ bit (y j).2 k = true ∨ bit (p j).2 k = true)) ∨
          ∃ j, j < 129 ∧ bit (l j).2 k = true) ∧
        (∀ j, j < 128 → at_ t on j = (o j).1) ∧ (pair t).1.toNat = mn ∧ (pair t).2.toNat = (l 128).1 ∧
        (∀ i : Fin 16384, i.val / 128 ≠ r → (t.fh.accs[on]).vals[i] = (s.fh.accs[on]).vals[i]) ∧
        (∀ i : Fin 128, i.val ≠ r → (t.fh.accs[on]).smax[i] = (s.fh.accs[on]).smax[i]) ∧
        (t.fh.accs[sn]).vals = (if r = 127 ∧ bit (f.opd 3) 2 = true then Vector.replicate 16384 0 else (s.fh.accs[sn]).vals) ∧
        (∀ k, k ≠ sn → k ≠ on → t.fh.accs[k] = s.fh.accs[k]) ∧ UnitFrame s t (r + 1) (r + 1 == 128)

/-- One row of a normalise drain divides the row of O by its l and encodes the exact quotients once, with their status; a zero divisor or
an infinite value gives an infinity or is invalid; a clearing drain zeroes the values and resets the pairs behind its last row
(R177, R180). -/
def Sys2Proof.Claims.NormaliseDrainDividesOnce : Prop :=
  ∀ (f : CmdF) (s : State),
    let r := s.hand.pos
    let n : Fin 8 := Fin.ofNat 8 (f.pay 1)
    let o (j : Nat) : Exact := real32 ((s.fh.accs[n]).vals[Fin.ofNat 16384 (r * 128 + j)]).toNat
    let l : Exact := real32 (((s.fh.accs[n]).smax[Fin.ofNat 128 r]).2).toNat
    let last := r = 127 ∧ bit (f.opd 3) 2 = true
    OneUnit s → r < 128 → f.pay 3 % 4 = 3 →
    Completes (.mxDrain f) s fun t =>
      (∃ e bs st, RowIs f.typ f.rm f.sat (fun j => (o j).div l) e bs st ∧ DrainedRow f s t bs ∧ t.hand.status = s.hand.status ||| st) ∧
      (last → (t.fh.accs[n]).vals = Vector.replicate 16384 0 ∧ (t.fh.accs[n]).smax = Vector.replicate 128 (0xFF800000#32, 0#32)) ∧
      (¬ last → t.fh.accs[n] = s.fh.accs[n]) ∧ (∀ m, m ≠ n → t.fh.accs[m] = s.fh.accs[m]) ∧ UnitFrame s t (r + 1) (r + 1 == 128)

/-- `mx.zero` clears the values, the pairs or both of one accumulator, `mx.scale` multiplies each of its values and rounds
once, with the status of R55, and `mx.rdst` writes its 128 pairs to the scratchpad (R182). -/
def Sys2Proof.Claims.AccumulatorCommands : Prop :=
  ∀ (f : CmdF) (s : State),
    let n : Fin 8 := Fin.ofNat 8 (f.pay 0)
    let rest (t : State) : Prop := (∀ m, m ≠ n → t.fh.accs[m] = s.fh.accs[m]) ∧ t.hand.performed = true ∧
      t.fh.banks = s.fh.banks ∧ t.fh.scratch = s.fh.scratch ∧ OnlyHearth s.foc.h s t
    Completes (.mxZero f) s (fun t =>
      (t.fh.accs[n]).vals = (if f.pay 1 = 2 then (s.fh.accs[n]).vals else Vector.replicate 16384 0) ∧
      (t.fh.accs[n]).smax = (if f.pay 1 = 1 then (s.fh.accs[n]).smax else Vector.replicate 128 (0xFF800000#32, 0#32)) ∧
      rest t) ∧
    Completes (.mxScale f) s (fun t =>
      (∃ x : Nat → Nat × BitVec 4,
        (∀ i : Fin 16384, Gives .fp32 f.rm f.sat ((real32 ((s.fh.accs[n]).vals[i]).toNat).mul (real32 f.imm.toNat)) (x i) ∧
          ((t.fh.accs[n]).vals[i]).toNat = (x i).1) ∧
        StatusGains s t (· < 16384) (fun i => (x i).2)) ∧
      (t.fh.accs[n]).smax = (s.fh.accs[n]).smax ∧ rest t) ∧
    Completes (.mxRdst f) s (fun t =>
      (∀ r : Fin 128,
        let p := (s.fh.accs[Fin.ofNat 8 (f.pay 1)]).smax[r]
        leNat (t.fh.scratch.bytes ((s.hand.win 0).a0 + 8 * r.val) 4) = p.1.toNat ∧
        leNat (t.fh.scratch.bytes ((s.hand.win 0).a0 + 8 * r.val + 4) 4) = p.2.toNat) ∧
      SameOutside (s.hand.win 0).a0 1024 s.fh.scratch t.fh.scratch ∧ t.fh.accs = s.fh.accs ∧ t.hand.performed = true ∧
      OnlyHearth s.foc.h s t)

/-- The sort order compares keys, descending or ascending, and then payloads, the smaller first (R184): it is a total order of cells. Sorting
a line gives a permutation of it in that order (R185). -/
def Sys2Proof.Claims.LinesAreSortedPermutations : Prop :=
  (∀ (desc : Bool) (x y : SCell), SCell.before desc x y = true ↔
    (if desc then y.key.toNat < x.key.toNat else x.key.toNat < y.key.toNat) ∨ (x.key = y.key ∧ x.pay.toNat < y.pay.toNat)) ∧
  (∀ (desc : Bool) (x y z : SCell),
    (SCell.before desc x y = true → SCell.before desc y x = false) ∧
    (SCell.before desc x y = true ∨ SCell.before desc y x = true ∨ x = y) ∧
    (SCell.before desc x y = true → SCell.before desc y z = true → SCell.before desc x z = true)) ∧
  ∀ (desc : Bool) (l : List SCell),
    (sortCells desc l).Perm l ∧ (sortCells desc l).Pairwise fun x y => SCell.before desc y x = false

/-- One phase of `so.sort`, `so.step` or `so.merge` permutes the cells and counts the phase: an even phase sorts every row,
the odd rows the other way round before phase 16, an odd phase every column; phase 16 is the last, and behind it a command ends with no
phase (R185, R188). -/
def Sys2Proof.Claims.SortPhasesPermuteAndOrder : Prop :=
  ∀ (f : CmdF) (s : State),
    let x := s.fh.sa
    let cell (t : State) (r c : Nat) : SCell := t.fh.sa.cells[Fin.ofNat 16384 (r * 128 + c)]
    let ends (i : CmdF → Instr) : Prop := Completes (i f) s fun t =>
      t.fh.sa.cells = x.cells ∧ t.fh.sa.phase = x.phase ∧ t.fh.sa.smode = .sort ∧ t.hand.performed = true ∧
      OnlyHearth s.foc.h s t ∧ t.fh.scratch = s.fh.scratch ∧ t.fh.ctxs = s.fh.ctxs
    let phase (i : CmdF → Instr) (desc : Bool) (p : Nat) (last : Prop) : Prop := Completes (i f) s fun t =>
      t.fh.sa.cells.toList.Perm x.cells.toList ∧ t.fh.sa.phase = p + 1 ∧ t.fh.sa.smode = .sort ∧
      (t.hand.performed = true ↔ p = 16 ∨ last) ∧
      (p % 2 = 1 → ∀ c r, c < 128 → r < 127 → SCell.before desc (cell t (r + 1) c) (cell t r c) = false) ∧
      (p % 2 = 0 → ∀ r c, r < 128 → c < 127 → (r % 2 = 0 ∨ p = 16) →
        SCell.before desc (cell t r (c + 1)) (cell t r c) = false) ∧
      (p % 2 = 0 → p < 16 → ∀ r c, r < 128 → c < 127 → r % 2 = 1 →
        SCell.before desc (cell t r c) (cell t r (c + 1)) = false) ∧
      OnlyHearth s.foc.h s t ∧ t.fh.scratch = s.fh.scratch ∧ t.fh.ctxs = s.fh.ctxs
    s.fh.quota = 1 → s.hand.performed = false → (s.hand.pos = 0 ∨ x.smode = .sort) →
    (x.phase < 17 → phase .soSort (f.pay 1 == 1) x.phase False) ∧ (17 ≤ x.phase → ends .soSort) ∧
    (x.phase < 17 → s.hand.pos < f.pay 1 → phase .soStep (f.pay 2 == 1) x.phase (s.hand.pos + 1 = f.pay 1)) ∧
    (17 ≤ x.phase ∨ f.pay 1 ≤ s.hand.pos → ends .soStep) ∧
    (s.hand.pos = 0 → phase .soMerge (f.pay 1 == 1) 13 False) ∧
    (0 < s.hand.pos → x.phase < 17 → phase .soMerge (f.pay 1 == 1) x.phase False) ∧
    (0 < s.hand.pos → 17 ≤ x.phase → ends .soMerge)

/-- The engine has room in this turn for `n` units of the command in its hand, which has not begun, and no earlier access of the
hearth is outstanding. -/
def FromStart (s : State) (n : Nat) : Prop :=
  n ≤ s.fh.quota ∧ s.hand.pos = 0 ∧ s.hand.performed = false ∧ s.hand.latch = [] ∧ s.hand.late = [] ∧
  s.fh.earlier s.hand.seq = []

/-- The command has performed, and of the machine only the scratchpad, the sort array and reservations may differ. -/
def SortFrame (s t : State) : Prop :=
  t.hand.performed = true ∧ OnlyHearth s.foc.h s t ∧ (∀ c, { t.fh.ctx c with resv := (s.fh.ctx c).resv } = s.fh.ctx c) ∧
  { t.fh with ctxs := s.fh.ctxs, scratch := s.fh.scratch, sa := s.fh.sa, hand := s.fh.hand } = s.fh

/-- A memory after writes at addresses: of several at one address the last stands. -/
def AfterWrites (m m' : Mem) (ks : List (Nat × Byte)) : Prop :=
  ∀ x, m'.read x = ((ks.reverse.find? fun p => p.1 == x).map (·.2)).getD (m.read x)

/-- The bytes of a number at an address, the lowest first. -/
def bytesOf (a n v : Nat) : List (Nat × Byte) := (List.range n).map fun b => (a + b, BitVec.ofNat 8 (v / 256 ^ b))

/-- `so.ld` puts the order key and the payload of each element into its cell, and behind the last the padding, with a fresh
sort; `so.st` writes the keys and then the payloads of its first cells back, where it has payload slots; the order key of a key
read back is the key (R66, R187, R190). That the payloads stand where the two windows of a store overlap is the model's choice
(log entry 54). -/
def Sys2Proof.Claims.SortLoadsAndStoresElements : Prop :=
  ∀ (f : CmdF) (s : State),
    let first := soRow0 f * 128
    let n := soCount .soLd f
    let m := soCount .soSt f
    let size := f.typ.bytes
    let keyAt (i : Nat) : Nat := (s.hand.win 1).elemAddr size i
    let payAt (i : Nat) : Nat := (s.hand.win 2).elemAddr 4 i
    let base (i : Nat) : Nat :=
      let v := f.imm18 2 + (i : Int)
      (if f.sat then max 0 (min v (2 ^ 32 - 1)) else v % 2 ^ 32).toNat
    (FromStart s (2 * n) → 0 < n → first + n ≤ 16384 → Completes (.soLd f) s fun t =>
      (∀ j : Fin 16384,
        let c := t.fh.sa.cells[j]
        (j.val < first → c = s.fh.sa.cells[j]) ∧
        (first ≤ j.val → j.val < first + n →
          c.key = BitVec.ofNat 32 (orderKey f.typ (leNat (s.fh.scratch.bytes (keyAt (j.val - first)) size))) ∧
          c.pay.toNat = if f.isWin 2 then leNat (s.fh.scratch.bytes (payAt (j.val - first)) 4) else base (j.val - first)) ∧
        (first + n ≤ j.val → c.pay = 0xFFFFFFFF#32 ∧ c.key = if f.kind 4 = 8 ∧ f.pay 4 % 2 = 1 then 0 else 0xFFFFFFFF#32)) ∧
      t.fh.sa.smode = .sort ∧ t.fh.sa.phase = 0 ∧ t.fh.sa.tkcount = 0 ∧ t.fh.sa.tkk = 0 ∧ t.fh.sa.tkn = 0 ∧
      t.fh.scratch = s.fh.scratch ∧ SortFrame s t) ∧
    (FromStart s (2 * m) → 0 < m → m ≤ 16384 → Completes (.soSt f) s fun t =>
      AfterWrites s.fh.scratch t.fh.scratch
        (((List.range m).flatMap fun i => bytesOf (keyAt i) size (orderUnkey f.typ (s.fh.sa.cells[Fin.ofNat 16384 i]).key.toNat)) ++
          if f.isWin 2 then (List.range m).flatMap fun i => bytesOf (payAt i) 4 (s.fh.sa.cells[Fin.ofNat 16384 i]).pay.toNat else []) ∧
      t.fh.sa = s.fh.sa ∧ SortFrame s t) ∧
    (∀ bits, f.typ.isPb = false → bits < 2 ^ f.typ.width → orderUnkey f.typ (orderKey f.typ bits) = bits)

/-- `so.save` writes every cell and behind them the control block at A0 + 131,072, and `so.rest` reads them back; a malformed
block restores the cells and the idle state; `so.clr` gives the cold-start array (R37, R194, R195). -/
def Sys2Proof.Claims.SortArraySavesRestoresAndClears : Prop :=
  ∀ (f : CmdF) (s : State),
    let x := s.fh.sa
    let a0 := (s.hand.win 1).a0
    let mode : SMode → Nat
      | .idle => 0
      | .sort => 1
      | .topk => 2
    let ctl := leNat (s.fh.scratch.bytes (a0 + 131072) 64)
    let bits (lo n : Nat) : Nat := ctl / 2 ^ lo % 2 ^ n
    let bad := bits 7 3 ≠ 0 ∨ bits 21 11 ≠ 0 ∨ bits 64 448 ≠ 0 ∨ 17 < bits 0 5 ∨ bits 5 2 = 3 ∨ 2 ^ 20 < bits 32 21 ∨
      1024 < bits 10 11 ∨ bits 10 11 < bits 53 11 ∨ bits 32 21 < bits 53 11 ∨ (bits 5 2 = 2 ∧ bits 10 11 = 0)
    (FromStart s 2049 → a0 % 64 = 0 → Completes (.soSave f) s fun t =>
      (∀ j : Fin 16384, leNat (t.fh.scratch.bytes (a0 + 8 * j.val) 4) = (x.cells[j]).key.toNat ∧
        leNat (t.fh.scratch.bytes (a0 + 8 * j.val + 4) 4) = (x.cells[j]).pay.toNat) ∧
      (x.phase < 32 → x.tkk < 2 ^ 11 → x.tkcount < 2 ^ 21 → x.tkn < 2 ^ 11 → leNat (t.fh.scratch.bytes (a0 + 131072) 64) =
        x.phase + mode x.smode * 2 ^ 5 + x.tkk * 2 ^ 10 + x.tkcount * 2 ^ 32 + x.tkn * 2 ^ 53) ∧
      SameOutside a0 131136 s.fh.scratch t.fh.scratch ∧ t.fh.sa = x ∧ t.hand.bytes = s.hand.bytes + 131136 ∧ SortFrame s t) ∧
    (FromStart s 2049 → a0 % 64 = 0 → Completes (.soRest f) s fun t =>
      (∀ j : Fin 16384, (t.fh.sa.cells[j]).key.toNat = leNat (s.fh.scratch.bytes (a0 + 8 * j.val) 4) ∧
        (t.fh.sa.cells[j]).pay.toNat = leNat (s.fh.scratch.bytes (a0 + 8 * j.val + 4) 4)) ∧
      (bad → t.fh.sa.phase = 0 ∧ t.fh.sa.smode = .idle ∧ t.fh.sa.tkcount = 0 ∧ t.fh.sa.tkk = 0 ∧ t.fh.sa.tkn = 0) ∧
      (¬ bad → t.fh.sa.phase = bits 0 5 ∧ mode t.fh.sa.smode = bits 5 2 ∧ t.fh.sa.tkk = bits 10 11 ∧
        t.fh.sa.tkcount = bits 32 21 ∧ t.fh.sa.tkn = bits 53 11) ∧
      t.fh.scratch = s.fh.scratch ∧ SortFrame s t) ∧
    (∀ y : SortArr, y.phase ≤ 17 → y.tkcount ≤ 2 ^ 20 → y.tkk ≤ 1024 → y.tkn ≤ y.tkk → y.tkn ≤ y.tkcount →
      (y.smode = .topk → y.tkk ≠ 0) → y.restore (BitVec.ofNat 512 y.control) = y) ∧
    Completes (.soClr f) s fun t => t.fh.sa = SortArr.reset ∧ t.fh.scratch = s.fh.scratch ∧ SortFrame s t

/-- `so.topk` keeps the first k of a sequence in the sort order, of a new one or of the one in the array, behind the cursor where
there is one; it counts the elements, leaves the cells as R193 lays them out, and writes the kept keys and payloads to its two
registers; a continuation outside a sequence, and a sequence that would pass 2^20 elements, fail the command with cause 29, which
changes no cell and no register (R191 to R193). -/
def Obligations.TopkKeepsTheFirst : Prop :=
  ∀ (f : CmdF) (s : State),
    let x := s.fh.sa
    let n := soCount .soTopk f
    let new := bit f.imm 11
    let ctl : SCell := x.cells[Fin.ofNat 16384 16382]
    let k := if new then bitsN f.imm 0 11 else x.tkk
    let count := if new then 0 else x.tkcount
    let desc : Bool := if new then !bit f.imm 12 else decide (ctl.key = 1)
    let cur : Option SCell :=
      if new then
        (if bit f.imm 13 then some ⟨BitVec.ofNat 32 (orderKey f.typ (vget 32 (s.vreg (f.v 0)) (k - 1))),
          BitVec.ofNat 32 (vget 32 (s.vreg (f.v 1)) (k - 1))⟩ else none)
      else if ctl.pay = 1 then some (x.cells[Fin.ofNat 16384 16383]) else none
    let old : List SCell := if new then [] else (List.range x.tkn).map fun j => x.cells[Fin.ofNat 16384 j]
    let base (i : Nat) : Nat :=
      let v := f.imm18 3 + (count + i : Nat)
      (if f.sat then max 0 (min v (2 ^ 32 - 1)) else v % 2 ^ 32).toNat
    let elem (i : Nat) : SCell :=
      ⟨BitVec.ofNat 32 (orderKey f.typ (leNat (s.fh.scratch.bytes ((s.hand.win 2).elemAddr f.typ.bytes i) f.typ.bytes))),
       BitVec.ofNat 32 (if f.isWin 3 then leNat (s.fh.scratch.bytes ((s.hand.win 3).elemAddr 4 i) 4) else base i)⟩
    let cand := (old ++ (List.range n).map elem).filter fun c => (cur.map fun u => SCell.before desc u c).getD true
    let kept := (sortCells desc cand).take k
    let bad := (new = false ∧ x.smode ≠ .topk) ∨ 2 ^ 20 < count + n
    FromStart s (2 * n + 1) → k ≤ 1024 → f.v 0 ≠ f.v 1 →
    (¬ bad → Completes (.soTopk f) s fun t =>
      t.fh.sa.smode = .topk ∧ t.fh.sa.tkk = k ∧ t.fh.sa.tkcount = count + n ∧ t.fh.sa.tkn = kept.length ∧
      t.fh.sa.phase = x.phase ∧
      (∀ j (h : j < kept.length), t.fh.sa.cells[Fin.ofNat 16384 j] = kept[j] ∧
        vget 32 (t.vreg (f.v 0)) j = orderUnkey f.typ (kept[j]).key.toNat % 2 ^ 32 ∧
        vget 32 (t.vreg (f.v 1)) j = (kept[j]).pay.toNat) ∧
      (∀ j, kept.length ≤ j → j < 1024 → vget 32 (t.vreg (f.v 0)) j = 0 ∧ vget 32 (t.vreg (f.v 1)) j = 0xFFFFFFFF) ∧
      (∀ j, kept.length ≤ j → j < 16382 → t.fh.sa.cells[Fin.ofNat 16384 j] = ⟨0, 0xFFFFFFFF#32⟩) ∧
      t.fh.sa.cells[Fin.ofNat 16384 16382] = ⟨if desc then 1 else 0, if cur.isSome then 1 else 0⟩ ∧
      t.fh.sa.cells[Fin.ofNat 16384 16383] = cur.getD ⟨0, 0xFFFFFFFF#32⟩ ∧
      t.hand.performed = true ∧ OnlyHearth s.foc.h s t ∧ t.fh.scratch = s.fh.scratch ∧ t.fh.flags = s.fh.flags ∧
      (∀ c, c ≠ s.hand.ctx → t.fh.ctx c = s.fh.ctx c) ∧ { t.handCtx with vs := s.handCtx.vs } = s.handCtx ∧
      ∀ v, v ≠ f.v 0 → v ≠ f.v 1 → t.vreg v = s.vreg v) ∧
    (bad → Completes (.soTopk f) s fun t =>
      t.fh.sa = x ∧ t.fh.scratch = s.fh.scratch ∧ t.fh.flags = s.fh.flags ∧ t.hand.failed = true ∧
      (∀ v, t.vreg v = s.vreg v) ∧
      (s.handCtx.st ≠ .free → s.handCtx.st ≠ .armed → s.handCtx.run = s.hand.run →
        t.handCtx.pend = s.handCtx.pend ++ [⟨29, BitVec.ofNat 64 (s.hand.slot % 8192 + s.hand.seq % 2 ^ 32 * 2 ^ 32), 0⟩]))

/-! ## Copy, search and flag commands -/

/-- A piece of a load: the bytes of memory stand at the piece's place of the scratchpad, or wait for the rest of their granule, and no
other byte of either changes. -/
def LoadedPiece (s t : State) (scr n : Nat) (ks : List Nat) : Prop :=
  (∀ j (h : j < ks.length), lateByte t (scr + j) = s.mem.read ks[j]) ∧
  (∀ y, y < scr ∨ scr + n ≤ y → lateByte t y = lateByte s y) ∧ t.mem = s.mem

/-- A piece of a store: its bytes join those that the command keeps back, as long as a later piece meets their aligned 64-byte
granule of memory; the piece that completes the granule writes its bytes at once, the later of two at one address (R197). -/
def StoredPiece (s t : State) (scr : Nat) (mem : Word) (n : Nat) (later : List (Nat × Nat)) : Prop :=
  let g := mem.toNat / 64
  let all := s.hand.late ++ (List.range n).map fun j => (mem.toNat + j, seenByte s (scr + j))
  let met := ∃ v ∈ later, v.1 < 64 * g + 64 ∧ 64 * g < v.2
  (met → t.hand.late = all ∧ t.mem = s.mem) ∧
  (¬ met → ∀ lo m ks, (∀ p ∈ all, p.1 / 64 = g → lo ≤ p.1 ∧ p.1 < lo + m) → (∃ p ∈ all, p.1 / 64 = g ∧ p.1 = lo) →
    (∃ p ∈ all, p.1 / 64 = g ∧ p.1 + 1 = lo + m) →
    s.xlatHeld s.copyAgent .store (BitVec.ofNat 64 lo) m = .ok ks → ks.Nodup → s.fh.sideLog = [] →
    t.hand.late = all.filter (fun p => p.1 / 64 != g) ∧
    (∀ j (h : j < ks.length), t.mem.read ks[j] = ((all.reverse.find? fun p => p.1 == lo + j).map (·.2)).getD (s.mem.read ks[j])) ∧
    ∀ y, y ∉ ks → t.mem.read y = s.mem.read y)

/-- An element of a store-add has been added to memory in one update: the integer sum, wrapped or saturated, or the float sum rounded
once (R201). -/
def AddedPiece (f : CmdF) (s t : State) (scr : Nat) (ks : List Nat) : Prop :=
  let m := leNat (ks.map s.mem.read)
  let x := seenNum s scr 4
  let v := f.typ.toInt m + f.typ.toInt x
  (∃ r : Nat × BitVec 4, leNat (ks.map t.mem.read) = r.1 % 2 ^ 32 ∧
    (f.typ.isFloat = true → Gives f.typ.fmt f.rm f.sat ((Exact.of (f.typ.fmt.decode m)).add f.rm (Exact.of (f.typ.fmt.decode x))) r) ∧
    (f.typ.isFloat = false → r.1 = ofInt 32 (if f.sat then max f.typ.minInt (min f.typ.maxInt v) else v))) ∧
  (∀ y, y ∉ ks → t.mem.read y = s.mem.read y) ∧ t.fh.sideLog = s.fh.sideLog

/-- The piece that a unit moves, of those that are left: while the engine runs on, and no earlier access of the hearth is outstanding, the
one that the engine picks (R240, R242). -/
def Picked (s : State) (q : Nat × Nat) : Prop :=
  s.fh.halting = false ∧ s.hand.left[s.fh.picks.headD 0 % s.hand.left.length]? = some q

/-- A data copy reads its descriptor first, and then moves its bytes in pieces, each byte in one, none of which crosses an aligned
64-byte granule of either side, in any order (log entry 55): a load puts the bytes of memory at the piece's place of the scratchpad, a
store puts the bytes of the scratchpad at the piece's place of memory, a store-add adds an element to memory, and no other byte of either
changes; with the last piece the command has performed (R199 to R201, R205, R240, R242). -/
def Sys2Proof.Claims.DataCopiesMovePieces : Prop :=
  (∀ (o : COp) (dir : Nat) (d : BitVec 512) (w : WinOp), o = .cpLin ∨ o = .cp2d → dir < 2 → 0 < w.len →
    (∀ q, q ∈ dataPieces o dir d w → 0 < q.2 ∧ q.1 % w.len + q.2 ≤ w.len ∧ w.byteAddr q.1 % 64 + q.2 ≤ 64 ∧
      (memAddr o d w q.1).toNat % 64 + q.2 ≤ 64) ∧
    ∀ i, i < w.rows * w.len → ∃! q, q ∈ dataPieces o dir d w ∧ q.1 ≤ i ∧ i < q.1 + q.2) ∧
  ∀ (o : COp) (i : CmdF → Instr) (f : CmdF) (s : State),
    (o, i) ∈ [(COp.cpLin, Instr.cpLin), (.cp2d, .cp2d)] → OneUnit s →
    let w := s.hand.win 0
    (∀ d, s.hand.desc = none → d = ofBytes512 (s.fh.scratch.bytes (s.hand.win 1).a0 64) → dataDescOk o (f.pay 2) d w = true →
      dataRefusal o s.copyAgent (dirKind (f.pay 2)) d w = none →
      Completes (i f) s fun t => t.hand.desc = some d ∧ t.hand.left = dataPieces o (f.pay 2) d w ∧ t.fh.scratch = s.fh.scratch ∧
        UnitFrame s t s.hand.pos false) ∧
    (∀ d q, s.hand.desc = some d → Picked s q →
      let scr := w.byteAddr q.1
      let mem := memAddr o d w q.1
      let left := s.hand.left.erase q
      let moved (t : State) : Prop := t.hand.left = left ∧ t.hand.pos = s.hand.pos + q.2 ∧ t.hand.performed = left.isEmpty
      (∀ ks, f.pay 2 = 0 → s.xlatHeld s.copyAgent .load mem q.2 = .ok ks → 0 < q.2 →
        Completes (i f) s fun t => LoadedPiece s t scr q.2 ks ∧ t.hand.left = left ∧ UnitFrame s t (s.hand.pos + q.2) left.isEmpty) ∧
      (f.pay 2 = 1 → 0 < q.2 → s.fh.sideLog.length < 64 →
        Completes (i f) s fun t => StoredPiece s t scr mem q.2 (left.map fun r => ((memAddr o d w r.1).toNat, (memAddr o d w r.1).toNat + r.2)) ∧
          t.fh.scratch = s.fh.scratch ∧ moved t) ∧
      (∀ ks, f.pay 2 = 2 → q.2 = 4 → f.typ ∈ [.uint32, .int32, .fp32] → s.xlatHeld s.copyAgent .both mem 4 = .ok ks → ks.Nodup →
        s.fh.sideLog = [] → Completes (i f) s fun t => AddedPiece f s t scr ks ∧ t.fh.scratch = s.fh.scratch ∧ moved t))

/-- A faulting read holds the copy engine at the faulting address; a faulting write goes to the side log with its bytes and the
command goes on, and so does one that overlaps an entry; a full log holds the command instead (R205, R326). -/
def Sys2Proof.Claims.CopyFaultsHoldOrLog : Prop :=
  ∀ (f : CmdF) (s : State) (d : BitVec 512) (e : WalkFault) (q : Nat × Nat),
    OneUnit s → s.hand.desc = some d → s.hand.late = [] → Picked s q →
    let w := s.hand.win 0
    let scr := w.byteAddr q.1
    let mem := memAddr .cpLin d w q.1
    let data := (List.range q.2).map fun j => some (seenByte s (scr + j))
    let left := s.hand.left.erase q
    (f.pay 2 = 0 → s.xlatHeld s.copyAgent .load mem q.2 = .error e →
      Completes (.cpLin f) s fun t =>
        t.fh.copyHeld = s.fh.copyHeld ∧ t.hand.hold = some (s.firstFault s.copyAgent mem q.2).1 ∧ t.hand.performed = false ∧
        t.hand.pos = s.hand.pos ∧ t.hand.left = s.hand.left ∧ t.fh.scratch = s.fh.scratch ∧ t.mem = s.mem) ∧
    (f.pay 2 = 1 → 0 < q.2 → mem.toNat % 64 + q.2 ≤ 64 →
      (∀ r ∈ left, ¬ ((memAddr .cpLin d w r.1).toNat < 64 * (mem.toNat / 64) + 64 ∧
        64 * (mem.toNat / 64) < (memAddr .cpLin d w r.1).toNat + r.2)) →
      (s.xlatHeld s.copyAgent .store mem q.2 = .error e → s.fh.sideLog = [] →
        Completes (.cpLin f) s fun t =>
          t.fh.sideLog = [⟨s.hand.seq, mem, data, none, s.copyAgent, AccKind.store.cause e⟩] ∧ t.mem = s.mem ∧ t.hand.left = left ∧
          t.fh.scratch = s.fh.scratch) ∧
      (∀ ks l, s.xlatHeld s.copyAgent .store mem q.2 = .ok ks → s.fh.sideLog = [l] → l.overlaps mem.toNat data = true →
        l.seq ≠ s.hand.seq →
        Completes (.cpLin f) s fun t =>
          t.fh.sideLog = [l, ⟨s.hand.seq, mem, data, none, s.copyAgent, l.cause⟩] ∧ t.mem = s.mem ∧ t.hand.left = left) ∧
      (s.xlatHeld s.copyAgent .store mem q.2 = .error e → 64 ≤ s.fh.sideLog.length → (∀ l ∈ s.fh.sideLog, l.seq ≠ s.hand.seq) →
        Completes (.cpLin f) s fun t =>
          t.fh.sideLog = s.fh.sideLog ∧ t.mem = s.mem ∧ t.hand.pos = s.hand.pos ∧ t.hand.left = s.hand.left ∧
          t.hand.performed = false ∧ t.hand.logWait = true))

/-- A list copy reads its list as it stood when the command started, and goes through the entries in order: an entry that breaks the
limits ends it; the bytes of any other move in pieces, in any order, between the place that the entry names in the window and the memory
that it names, in the direction of `dir`; an aligned granule of memory that several entries meet is written once. A fill writes the bytes
of `IMM` over and over in each row (R197, R202, R203, R240). -/
def Sys2Proof.Claims.ListCopiesAndFills : Prop :=
  ∀ (f : CmdF) (s : State), OneUnit s →
    let w := s.hand.win 0
    let p := s.hand.pos
    (∀ d m ks, s.hand.desc = some d → s.hand.list = [] → s.hand.began = some m →
      s.xlatHeld s.copyAgent .load (descAddr d) (32 * descCount d) = .ok ks →
      (∀ j (h : j < ks.length), (s.setMem m).xlat s.copyAgent .load (descAddr d + BitVec.ofNat 64 j) = .ok ks[j]) →
      Completes (.cpList f) s fun t =>
        t.hand.list.length = descCount d ∧ t.hand.began = none ∧ UnitFrame s t p false ∧ t.fh.scratch = s.fh.scratch ∧
        ∀ i j, i < descCount d → j < 32 → byteOf ((t.hand.list[i]?).getD 0) j = m.read ((ks[32 * i + j]?).getD 0)) ∧
    (∀ d e, s.hand.desc = some d → s.hand.list[p]? = some e → s.hand.left = [] →
      (∀ c, entryRefusal s.copyAgent (f.pay 2) w e = some c →
        Completes (.cpList f) s fun t => t.hand.failed = true ∧ t.fh.scratch = s.fh.scratch ∧ t.mem = s.mem) ∧
      (entryRefusal s.copyAgent (f.pay 2) w e = none → exec (.cpList f) s = exec (.cpList f) (s.setHand { s.hand with
        left := cutRun (f.pay 2) (entLen e) 0 (w.a0 + entOff e) (entSrc e).toNat (entLen e) }))) ∧
    (∀ d e q, s.hand.desc = some d → s.hand.list[p]? = some e → Picked s q →
      let scr := w.a0 + entOff e + q.1
      let mem := entSrc e + BitVec.ofNat 64 q.1
      let left := s.hand.left.erase q
      let moved (t : State) : Prop := t.hand.left = left ∧ t.hand.pos = (if left = [] then p + 1 else p) ∧
        t.hand.performed = (left.isEmpty && p + 1 == s.hand.list.length)
      let behind := (s.hand.list.drop (p + 1)).takeWhile fun e => (entryRefusal s.copyAgent (f.pay 2) w e).isNone
      (∀ ks, f.pay 2 = 0 → 0 < q.2 → s.xlatHeld s.copyAgent .load mem q.2 = .ok ks →
        Completes (.cpList f) s fun t => LoadedPiece s t scr q.2 ks ∧ moved t) ∧
      (f.pay 2 = 1 → 0 < q.2 → s.fh.sideLog.length < 64 →
        Completes (.cpList f) s fun t =>
          StoredPiece s t scr mem q.2 ((left.map fun r => ((entSrc e + BitVec.ofNat 64 r.1).toNat, (entSrc e + BitVec.ofNat 64 r.1).toNat + r.2)) ++
            behind.map fun e => ((entSrc e).toNat, (entSrc e).toNat + entLen e)) ∧
          t.fh.scratch = s.fh.scratch ∧ moved t) ∧
      (∀ ks, f.pay 2 = 2 → q.2 = 4 → f.typ ∈ [.uint32, .int32, .fp32] → s.xlatHeld s.copyAgent .both mem 4 = .ok ks → ks.Nodup →
        s.fh.sideLog = [] →
        Completes (.cpList f) s fun t => AddedPiece f s t scr ks ∧ t.fh.scratch = s.fh.scratch ∧ moved t)) ∧
    (let scr := w.byteAddr p
     let n := min (w.len - p % w.len) (64 - scr % 64)
     0 < n → f.typ.bytes ≠ 0 → Completes (.cpFill f) s fun t =>
      (∀ j, j < n → lateByte t (scr + j) = BitVec.ofNat 8 (f.imm.toNat / 256 ^ ((p % w.len + j) % f.typ.bytes))) ∧
      (∀ y, y < scr ∨ scr + n ≤ y → lateByte t y = lateByte s y) ∧ (p + n = w.total → t.hand.late = []) ∧
      UnitFrame s t (p + n) (p + n == w.total))

/-- A `cp.xf` scouts the headers of its stream and fetches their payloads; it places the payload of a chunk in the input ring, outputs
a stored one unchanged, and hands a coded one to its transform core with a0, a1 and a2; it takes what that core's instructions emit or
their fault; it ends its stream at an end chunk, writes what was emitted into its window, and behind the end of the stream zeros to the
end of the padded block, in parts of 512 bytes (R279); a peer copy gathers its window and sends it, with its flag and its handler request, and then waits for the
acknowledgement (R204, R206, R208, R274 to R277). -/
def Sys2Proof.Claims.TransformsAndPeerCopies : Prop :=
  ∀ (f : CmdF) (s : State) (d : BitVec 512), OneUnit s → s.hand.desc = some d →
    let c := s.hand
    let w := c.win 0
    let scr := w.byteAddr c.pos
    let quiet (t : State) : Prop := t.fh.scratch = s.fh.scratch ∧ t.mem = s.mem ∧ t.hand.late = c.late
    let piece (t : State) (n : Nat) (bs : Nat → Byte) : Prop :=
      (∀ j, j < n → lateByte t (scr + j) = bs j) ∧ (∀ y, y < scr ∨ scr + n ≤ y → lateByte t y = lateByte s y) ∧
      t.hand.pos = c.pos + n ∧ t.mem = s.mem
    (s.fh.xfBusy c.seq = false →
      (c.emitted = [] → c.core.busy = false → c.xend = false → c.wanted = none →
        (∀ ks, c.list.length < 16 → (∀ h, h ∈ c.list → hdrKind h ≠ 2) → c.xoff < 1048576 →
          let a := descAddr d + BitVec.ofNat 64 c.xoff
          let h := leNat (ks.map s.mem.read)
          s.xlatHeld s.copyAgent .load a 8 = .ok ks → rangeRefusal s.copyAgent .load a 8 = none →
          h / 2 ^ 62 % 4 ≠ 3 → h / 2 ^ 12 % 2 ^ 50 = 0 → h % 4096 ≤ 2040 → (h / 2 ^ 62 % 4 = 2 → h % 4096 = 0) →
          rangeRefusal s.copyAgent .load a (8 + h % 4096) = none →
          Completes (.cpXf f) s fun t =>
            (∃ e, t.hand.list = c.list ++ [e] ∧ hdrLen e = h % 4096 ∧ hdrKind e = h / 2 ^ 62 ∧ hdrOff e = c.xoff) ∧
            t.hand.xoff = c.xoff + (8 + h % 4096 + 63) / 64 * 64 ∧ quiet t) ∧
        (∀ h rest, c.list = h :: rest → 16 ≤ c.list.length ∨ (∃ e, e ∈ c.list ∧ hdrKind e = 2) →
          let place (t : State) : Prop := t.hand.core.buf.bytes (c.core.chunk % 16 * 2048) (c.payload h).length = c.payload h ∧
            t.hand.core.chunk = c.core.chunk + 1 ∧ t.hand.list = rest
          ((c.payload h).length ≤ 2048 → hdrKind h = 1 → Completes (.cpXf f) s fun t =>
            t.hand.emitted = (c.payload h).take (descCount d - c.xd) ∧ t.hand.xd = c.xd + (c.payload h).length ∧ place t ∧ quiet t) ∧
          ((c.payload h).length ≤ 2048 → hdrKind h = 0 → Completes (.cpXf f) s fun t =>
            let k := t.hand.core
            k.busy = true ∧ k.get 10 = BitVec.ofNat 64 (c.core.chunk % 16 * 2048) ∧
            k.get 11 = BitVec.ofNat 64 (c.payload h).length ∧ k.get 12 = 0x8000 ∧ k.vs = c.core.vs ∧ place t ∧
            t.hand.emitted = [] ∧ quiet t) ∧
          (hdrKind h = 2 → Completes (.cpXf f) s fun t => t.hand.xend = true ∧ t.hand.list = rest ∧ quiet t))) ∧
      (∀ h ks, c.emitted = [] → c.core.busy = false → c.xend = false → c.wanted = some h →
        let a := descAddr d + BitVec.ofNat 64 (hdrOff h + 8 + (c.payload h).length)
        s.xlatHeld s.copyAgent .load a (min (hdrLen h - (c.payload h).length) (64 - a.toNat % 64)) = .ok ks →
        Completes (.cpXf f) s fun t => t.hand.payload h = c.payload h ++ ks.map s.mem.read ∧ t.hand.list = c.list ∧ quiet t) ∧
      (c.emitted = [] → c.core.busy = true →
        Completes (.cpXf f) s fun t =>
          (match c.core.step (s.xfRoutine d).1 with
            | .next k => t.hand.core = k ∧ t.hand.emitted = [] ∧ t.hand.failed = c.failed
            | .chunk k n => t.hand.core = k ∧ t.hand.emitted = (k.buf.bytes 0x8000 n).take (descCount d - c.xd) ∧
                t.hand.xd = c.xd + n
            | .fault => t.hand.failed = true) ∧
          t.fh.scratch = s.fh.scratch ∧ t.mem = s.mem) ∧
      (let n := min (min (min (w.len - c.pos % w.len) (64 - scr % 64)) (512 - c.pos % 512)) c.emitted.length
       c.emitted ≠ [] → 0 < n → Completes (.cpXf f) s fun t =>
        piece t n (fun j => (c.emitted[j]?).getD 0) ∧ t.hand.emitted = c.emitted.drop n) ∧
      (let n := min (min (w.len - c.pos % w.len) (64 - scr % 64)) (512 - c.pos % 512)
       c.emitted = [] → c.core.busy = false → c.xend = true → c.pos < w.total → 0 < n → Completes (.cpXf f) s fun t =>
        piece t n (fun _ => 0) ∧ t.hand.performed = (c.pos + n == w.total) ∧
        (c.pos + n = w.total → t.hand.lenmis = (c.xd != descCount d) ∧ t.hand.bytes = c.bytes + w.total ∧ t.hand.late = [])) ∧
      (c.emitted = [] → c.core.busy = false → c.xend = true → c.pos = w.total → Completes (.cpXf f) s fun t =>
        t.hand.performed = true ∧ t.hand.lenmis = (c.xd != descCount d) ∧ t.hand.bytes = c.bytes + w.total ∧ quiet t)) ∧
    (c.xend = false → c.pos ≠ w.total →
      let n := min (w.len - c.pos % w.len) (64 - scr % 64)
      Completes (.cpPeer f) s fun t =>
        t.hand.emitted = c.emitted ++ (List.range n).map (fun j => seenByte s (scr + j)) ∧ UnitFrame s t (c.pos + n) false) ∧
    (c.xend = false → c.pos = w.total →
      Completes (.cpPeer f) s fun t =>
        (∃ x, t.links.wire = s.links.wire ++ [x] ∧ x.data = c.emitted ∧ x.schip = s.links.chip ∧ x.shearth = s.foc.h.val ∧
          x.dchip = bitsN (descAux d) 0 10 ∧ x.dhearth = bitsN (descAux d) 10 10 ∧
          x.roff = bitsN d 0 21 ∧ x.rflag.val = bitsN (descAux d) 20 8 ∧ x.rval = bitsN d 128 20 ∧ x.flagen = bit (descAux d) 28 ∧
          x.hnden = bit (descAux d) 29 ∧ x.hoff = bitsN (descAux d) 30 18) ∧
        t.hand.xend = true ∧ t.hand.performed = false ∧ t.fh.scratch = s.fh.scratch)

/-- What a search command leaves of its task, in a turn with room for all its units: the results and in front of them the completion
record, in its window, with every other byte of the scratchpad as before (R209, R210). -/
def SearchWrites (i : CmdF → Instr) (f : CmdF) (s : State) (op : Nat) (P : State → SxRes → Prop) : Prop :=
  let w := s.hand.win 0
  let pw := s.hand.win 1
  let r := s.sxDo { op := op, p := ofBytes512 (s.fh.scratch.bytes pw.a0 64),
                    vec := fun n => some (s.fh.scratch.bytes (pw.a0 + 64) n), pRoom := pw.len, rRoom := w.len,
                    sec := s.fh.sec, launch := s.hand.launch }
  65 + r.2.data.length ≤ s.fh.quota →
  Completes (i f) s fun t =>
    leNat (t.fh.scratch.bytes w.a0 64) = r.2.status % 256 + s.hand.retried.length % 65536 * 2 ^ 48 + r.2.count % 2 ^ 32 * 2 ^ 96 +
      r.2.root % 2 ^ 32 * 2 ^ 128 + r.2.logpos % 2 ^ 32 * 2 ^ 160 ∧
    t.fh.scratch.bytes (w.a0 + 64) r.2.data.length = r.2.data ∧
    SameOutside w.a0 (64 + r.2.data.length) s.fh.scratch t.fh.scratch ∧ t.hand.performed = true ∧
    (r.2.status ≠ 5 → t.mem = s.mem) ∧ P t r.2

/-- No index, range, flash byte or task of the cirrus engines has changed; what was counted of page reads may have. -/
def CirrusKept (s t : State) : Prop := { t.cirrus with tries := s.cirrus.tries, moved := s.cirrus.moved } = s.cirrus

/-- The search commands write the record and the results of their task; a search and a scan leave the indexes, and a task on an index
that does not exist reports status 2 and changes nothing (R209, R210, R339, R340). The order in which status conditions are tested is
log entry 21; the graph's nodes are the firmware's choice, log entry 9. -/
def Sys2Proof.Claims.SearchCommandsWriteRecords : Prop :=
  ∀ (f : CmdF) (s : State),
    let p := ofBytes512 (s.fh.scratch.bytes (s.hand.win 1).a0 64)
    let i : Fin 64 := Fin.ofNat 64 (pIndex p)
    FromStart s 1 → s.hand.xend = false → s.hand.hold = none → s.cirrusRoom (pIndex p % 8) = true →
    SearchWrites .sxSearch f s 0 (fun t _ => CirrusKept s t) ∧
    SearchWrites .sxScan f s 1 (fun t _ => CirrusKept s t) ∧
    SearchWrites .sxStat f s 5 (fun t _ => CirrusKept s t) ∧
    SearchWrites .sxAppend f s 2 (fun t r =>
      (r.status ≠ 0 → CirrusKept s t) ∧
      (∀ x, s.cirrus.indexes[i] = some x → r.status = 0 →
        (t.cirrus.indexes[i]).map (·.logpos) = some (x.logpos + pNvec p) ∧ r.count = pNvec p)) ∧
    SearchWrites .sxDel f s 4 (fun t r =>
      (r.status ≠ 0 → CirrusKept s t) ∧
      (r.status = 0 → (t.cirrus.indexes[i]).map (fun x => x.live (pId p)) = some false)) ∧
    (s.cirrus.indexes[i] = none → paramOk 0 p = true → SearchWrites .sxSearch f s 0 fun _ r => r.status = 2)

/-- A fetch that works through its list reads the flash bytes of one of the parts that are left, in any order, and writes what it has
read at the place of its entry in the window, a granule at a time; behind the last part it writes a completion record, with status 0, or
1 where an entry broke a limit; a page that cannot be read ends it with status 5; so does a bad descriptor, with status 1 (R209, R211,
R344, R345, R347). What an entry on a page that cannot be read leaves is log entry 36. -/
def Sys2Proof.Claims.FetchCopiesFlash : Prop :=
  ∀ (f : CmdF) (s : State), OneUnit s →
    let c := s.hand
    let w := c.win 0
    let ended (t : State) (status : Nat) : Prop :=
      leNat (t.fh.scratch.bytes (c.win 2).a0 64) = status + c.retried.length % 65536 * 2 ^ 48 ∧ t.hand.performed = true ∧ CirrusKept s t
    (∀ d, c.desc = some d → c.xend = true → c.acked = true → c.latch = [] → c.emitted = [] → c.list ≠ [] →
      Completes (.sxFetch f) s fun t =>
        ∃ i e, c.list[i]? = some e ∧
          (s.cirrus.lost.contains ((entSrc e).toNat / 16384) = true → ended t 5) ∧
          (s.cirrus.lost.contains ((entSrc e).toNat / 16384) = false →
            t.hand.list = c.list.eraseIdx i ∧
            t.hand.latch = [(w.a0 + entOff e, s.cirrus.flash.bytes (entSrc e).toNat (entLen e))] ∧
            t.hand.performed = false ∧ t.fh.scratch = s.fh.scratch ∧ CirrusKept s t)) ∧
    (∀ d a bs rest, c.desc = some d → c.xend = true → c.latch = (a, bs) :: rest →
      let n := min bs.length (64 - a % 64)
      Completes (.sxFetch f) s fun t =>
        (∀ j, j < n → lateByte t (a + j) = (bs[j]?).getD 0) ∧ (∀ y, y < a ∨ a + n ≤ y → lateByte t y = lateByte s y) ∧
        t.hand.latch = (if n < bs.length then [(a + n, bs.drop n)] else []) ++ rest ∧ t.hand.performed = false ∧ t.cirrus = s.cirrus) ∧
    (∀ d, c.desc = some d → c.xend = true → c.latch = [] → c.emitted = [] → c.list = [] → c.late = [] →
      Completes (.sxFetch f) s fun t =>
        ended t (if c.xd = 0 then 0 else 1) ∧ SameOutside (c.win 2).a0 64 s.fh.scratch t.fh.scratch) ∧
    (c.desc = none → c.late = [] → s.fetchDescOk (ofBytes512 (s.fh.scratch.bytes (c.win 1).a0 64)) = false →
      Completes (.sxFetch f) s fun t => ended t 1 ∧ SameOutside (c.win 2).a0 64 s.fh.scratch t.fh.scratch)

/-- `fl.add` adds `IMM` to its flag, saturating; `fl.set` stores it; `fl.nop` and `fl.wait` change nothing but that they have
performed (R38, R212). -/
def Obligations.FlagCommandsUpdateOneFlag : Prop :=
  ∀ (f : CmdF) (s : State), s.fh.hob.stopped = false →
    let fl := CmdF_flag f
    let others (t : State) : Prop := (∀ g, g ≠ fl → t.fh.flag g = s.fh.flag g) ∧ t.hand.performed = true ∧
      t.mem = s.mem ∧ t.fh.scratch = s.fh.scratch
    Completes (.flAdd f) s (fun t =>
      (t.fh.flag fl).toNat = min (2 ^ 32 - 1) ((s.fh.flag fl).toNat + f.imm.toNat) ∧ others t) ∧
    Completes (.flSet f) s (fun t => t.fh.flag fl = f.imm ∧ others t) ∧
    Completes (.flNop f) s (fun t => t.fh.flags = s.fh.flags ∧ others t) ∧
    Completes (.flWait f) s (fun t => t.fh.flags = s.fh.flags ∧ others t)

/-! ## The path of a command -/

/-- A command that may start is started: its `WAIT` in mode 10 takes its threshold from its flag, and a command that works from a
descriptor reads it if its chunk is ready; a flag command performs, applies its `SIG` in whichever mode it has, and leaves; no other
command moves (R91, R92, R200, R212, R215). -/
def Sys2Proof.Claims.CommandsStart : Prop :=
  ∀ (s : State) (c : Cmd),
    s.fh.cmd? c.seq = some c → s.fh.halted = false → s.fh.halting = false → c.stage ≠ .started → s.fh.mayStart c = true →
    s.fh.hob.stopped = false →
    let taken (fl : Fin 256) : Nat :=
      (s.fh.flag fl).toNat - (if condMode c.f.wait = 2 ∧ condFlag c.f.wait = fl then condT c.f.wait else 0)
    (c.isFlag = false → c.hasDesc = false → Completes (.commandStart c.seq) s fun t =>
      (t.fh.cmd? c.seq).map (fun d => (d.stage, d.word, d.ctx, d.performed)) = some (.started, c.word, c.ctx, c.performed) ∧
      (∀ d, d ∈ s.fh.cmds → d.seq ≠ c.seq → d ∈ t.fh.cmds) ∧
      ((c.q == .matrix) = false → ∀ fl, (t.fh.flag fl).toNat = taken fl) ∧
      (condMode c.f.wait ≠ 2 → t.fh.flags = s.fh.flags) ∧ t.fh.scratch = s.fh.scratch ∧ t.fh.ctxs = s.fh.ctxs ∧
      OnlyHearth s.foc.h s t) ∧
    (c.isFlag = false → c.hasDesc = true → c.desc = none → c.performed = false → c.hold = none → c.logWait = false →
      Completes (.commandStart c.seq) s fun t =>
      (t.fh.cmd? c.seq = none ∨ ∃ d, t.fh.cmd? c.seq = some d ∧ d.stage = .started ∧ d.word = c.word ∧ d.ctx = c.ctx ∧
        (s.fh.earlier c.seq = [] → d.desc = some (ofBytes512 (s.fh.scratch.bytes (c.win 1).a0 64)) ∨ d.performed = true)) ∧
      (∀ d, d ∈ s.fh.cmds → d.seq ≠ c.seq → d.failed = false → d ∈ t.fh.cmds) ∧
      ((c.q == .matrix) = false → ∀ fl, (t.fh.flag fl).toNat = taken fl)) ∧
    (c.isFlag = true → c.lenmis = false →
      Completes (.commandStart c.seq) s fun t =>
        t.fh.cmds = s.fh.cmds.filter (fun d => d.seq != c.seq) ∧
        ∀ fl,
          let own := CmdF_flag c.f = fl
          let v := if c.op = some .flSet ∧ own then c.f.imm.toNat
            else if c.op = some .flAdd ∧ own then min (2 ^ 32 - 1) (taken fl + c.f.imm.toNat) else taken fl
          let gain := if condFlag c.f.sig = fl then (if condMode c.f.sig = 1 then condT c.f.sig
            else if condMode c.f.sig = 2 then c.bytes else 0) else 0
          (t.fh.flag fl).toNat = if gain = 0 then v else min (2 ^ 32 - 1) (v + gain))

/-- A performed command completes: its status joins `fpstat`, its `SIG` in mode 01 adds its threshold and in mode 10 the bytes that it
wrote, a bank that it loaded takes its format, a length mismatch traps where `LMTRAP` asks for it, and it leaves with its scoreboard
entries (R42, R92, R172, R204). -/
def Sys2Proof.Claims.CommandsCompleteAndSignal : Prop :=
  ∀ (s : State) (c : Cmd),
    s.fh.cmd? c.seq = some c → s.fh.halted = false → s.fh.mayComplete c = true → s.fh.hob.stopped = false →
    Completes (.commandCompletion [c.seq]) s fun t =>
      t.fh.cmds = s.fh.cmds.filter (fun d => d.seq != c.seq) ∧
      (c.q = .vector ∨ c.q = .matrix → (t.fh.ctx c.ctx).fpstat = (s.fh.ctx c.ctx).fpstat ||| c.status.zeroExtend 64) ∧
      (c.q = .sort ∨ c.q = .copy → (t.fh.ctx c.ctx).fpstat = (s.fh.ctx c.ctx).fpstat) ∧
      (condMode c.f.sig = 1 → (t.fh.flag (condFlag c.f.sig)).toNat =
        min (2 ^ 32 - 1) ((s.fh.flag (condFlag c.f.sig)).toNat + condT c.f.sig)) ∧
      (condMode c.f.sig = 2 → (t.fh.flag (condFlag c.f.sig)).toNat =
        min (2 ^ 32 - 1) ((s.fh.flag (condFlag c.f.sig)).toNat + c.bytes)) ∧
      (condMode c.f.sig = 0 ∨ condMode c.f.sig = 3 → t.fh.flags = s.fh.flags) ∧ t.fh.scratch = s.fh.scratch ∧
      (∀ b : Fin 8, (c.op = some .mxLdb → b = Fin.ofNat 8 (c.f.pay 0) →
          t.fh.banks[b] = { s.fh.banks[b] with latch := some c.f.typ }) ∧
        (c.op ≠ some .mxLdb ∨ b ≠ Fin.ofNat 8 (c.f.pay 0) → t.fh.banks[b] = s.fh.banks[b])) ∧
      (c.lenmis = true → c.lmtrap = true → condMode c.f.sig = 0 → (s.fh.ctx c.ctx).st ≠ .free → (s.fh.ctx c.ctx).st ≠ .armed →
        (s.fh.ctx c.ctx).run = c.run → c.f.traced = false →
        (t.fh.ctx c.ctx).pend = (s.fh.ctx c.ctx).pend ++
          [⟨24, BitVec.ofNat 64 (c.slot % 8192 + 2 ^ 16 + c.seq % 2 ^ 32 * 2 ^ 32), 0⟩]) ∧
      (c.f.traced = false → t.mem = s.mem)

/-- The head of the matrix queue enters the engine window when its `WAIT` holds and a place is free, a `WAIT` in mode 10 taking its
threshold there; an `mx.go` copies the nest table of its context (R91, R168, R175). -/
def Sys2Proof.Claims.MatrixCommandsEnterTheWindow : Prop :=
  ∀ (s : State) (c : Cmd),
    s.fh.queueHead .matrix = some c → c.isFlag = false → s.fh.halted = false → s.fh.halting = false →
    waitHolds s.fh c.f.wait = true → s.fh.inWindow < 4 → s.fh.cfgDone c = true →
    (∀ d, d ∈ s.fh.cmds → d.isFlag = true → d.q = .matrix → d.stage ≠ .started) →
    Completes .matrixWindowAcceptance s fun t =>
      (t.fh.cmd? c.seq).map (fun d => (d.stage, d.word)) = some (.window, c.word) ∧
      (c.op = some .mxGo → (t.fh.cmd? c.seq).map (·.nest) = some ((s.fh.ctx c.ctx).nest)) ∧
      (condMode c.f.wait = 2 → (t.fh.flag (condFlag c.f.wait)).toNat = (s.fh.flag (condFlag c.f.wait)).toNat - condT c.f.wait) ∧
      (∀ fl, condMode c.f.wait ≠ 2 ∨ fl ≠ condFlag c.f.wait → t.fh.flag fl = s.fh.flag fl) ∧ t.fh.ctxs = s.fh.ctxs ∧
      OnlyHearth s.foc.h s t

/-! ## Records, graphs and queues -/

/-- A candidate goes before another: the larger effective priority, then the smaller `RTICK`, then the lower address (R311). -/
def GoesBefore (s : State) (p q : RecRef × BitVec 512) : Prop :=
  s.eff q.1 q.2 < s.eff p.1 p.2 ∨ (s.eff q.1 q.2 = s.eff p.1 p.2 ∧
    (p.1.rtick < q.1.rtick ∨ (p.1.rtick = q.1.rtick ∧ p.1.addr.toNat < q.1.addr.toNat)))

/-- What a context may be given: the ready compute records that match its hearth, that no layer barrier holds and
whose address space has no page under migration (R253, R309 to R311). -/
def Candidate (s : State) (h : Fin 640) (p : RecRef × BitVec 512) : Prop :=
  p ∈ s.ready ∧ recKind p.2 = 0 ∧ s.matchesHearth p.1.wq p.2 h = true ∧ s.barrierHeld p.1 p.2 = false ∧
  s.queueMoving p.1.wq = false

/-- A context chooses a record: it is free and not armed, its hearth runs and has no arrival waiting, and some record is a candidate
there (R235, R311). -/
def Chooses (s : State) (l : Loc) : Prop :=
  (s.ctx l).st = .free ∧ (s.hearth l.h).idle = false ∧ (s.hearth l.h).arrQ = [] ∧ ∃ p, Candidate s l.h p

/-- A context stands before another in the order in which contexts choose: by hearth number, then by context number (R311). -/
def ChoosesBefore (l m : Loc) : Prop := l.h < m.h ∨ (l.h = m.h ∧ l.c < m.c)

/-- The first context that chooses is given the candidate that goes before every other one; it starts at the record's entry with the
frame in a0 and the record in a1, every other register cleared, in U mode. A malformed record is not run, and is reported: it leaves as
faulted, at once or, while it has children, once they have ended (R28, R302, R309 to R311; log entry 56). -/
def Sys2Proof.Claims.RecordsAreDispatchedInOrder : Prop :=
  ∀ (s : State) (r : RecRef) (w : BitVec 512),
    Chooses s s.foc → (∀ l, ChoosesBefore l s.foc → ¬ Chooses s l) → Candidate s s.foc.h (r, w) →
    (∀ q, Candidate s s.foc.h q → q ≠ (r, w) → GoesBefore s (r, w) q) →
    (s.recOk r.wq w = true → Completes .recordDispatch s fun t =>
      t.fc.st = .running ∧ t.fc.mode = .user ∧ t.fc.run = .task r.addr r.wq ∧ t.fc.pc = BitVec.ofNat 64 (recEntry w) ∧
      (∀ x, t.fc.get x = if x = 10 then recFrame w else if x = 11 then r.addr else 0) ∧
      (∀ i : Fin 16, t.fc.vs[i] = 0) ∧ (∀ i : Fin 8, t.fc.ps[i] = 0) ∧ (∀ i : Fin 32, t.fc.ws[i] = 0) ∧
      t.fc.fpstat = 0 ∧ t.fc.cpstat = (if (s.fh.img.map (·.lmtrap)).getD false = true then 0x100#64 else 0) ∧ t.fc.pend = [] ∧
      t.fc.resv = none ∧ t.fc.rgn = (if recRgn w = 0 then [] else [recRgn w]) ∧
      (t.refOf r.wq r.addr).map (·.qst) = some 1 ∧
      (∀ l, l ≠ s.foc → { t.ctx l with resv := (s.ctx l).resv } = s.ctx l) ∧
      t.fh.flags = s.fh.flags ∧ t.fh.scratch = s.fh.scratch) ∧
    (s.recOk r.wq w = false → Completes .recordDispatch s fun t =>
      (recJoin w = 0 → t.refOf r.wq r.addr = none) ∧ (recJoin w ≠ 0 → t.refOf r.wq r.addr = some { r with failing := true }) ∧
      Report.malformed r.addr ∈ t.svc.reports ∧ ∀ l, { t.ctx l with resv := (s.ctx l).resv } = s.ctx l)

/-- A search or fetch record goes to its home engine, where that has a free place, in the same order; and a ready compute record that
has matched no hearth for a full age limit is reported, and its time starts anew (R309, R311, R343, R344). -/
def Sys2Proof.Claims.SearchRecordsAndAgedRecords : Prop :=
  (∀ (s : State) (e : Fin 8) (r : RecRef) (w : BitVec 512),
    let cand (p : RecRef × BitVec 512) : Prop := p ∈ s.ready ∧ (recKind p.2 = 1 ∨ recKind p.2 = 2) ∧
      s.taskEngine p.1.wq (recFrame p.2) = e ∧ s.barrierHeld p.1 p.2 = false ∧ s.queueMoving p.1.wq = false
    s.cirrusLoad e.val < 256 → cand (r, w) → (∀ q, cand q → q ≠ (r, w) → GoesBefore s (r, w) q) →
    s.recOk r.wq w = true →
    Completes (.cirrusTaskDispatch e) s fun t =>
      (t.refOf r.wq r.addr).map (·.qst) = some 1 ∧
      t.cirrus.tasks = s.cirrus.tasks ++ [⟨e, r.addr, r.wq, s.launchNow, [], none, [], [], 0⟩] ∧
      t.cirrus.indexes = s.cirrus.indexes ∧ (∀ l, { t.ctx l with resv := (s.ctx l).resv } = s.ctx l)) ∧
  (∀ (s : State) (wq : Fin 2048) (addr : Word) (r : RecRef),
    s.refOf wq addr = some r → r.qst = 0 → r.failing = false → recKind (s.recWord r) = 0 → s.qm.ageLimit ≤ s.tick - r.seen →
    (∀ h, s.matchesHearth wq (s.recWord r) h = false) →
    Completes (.ageLimitReport wq addr) s fun t =>
      t.svc.reports = s.svc.reports ++ [.placement addr] ∧ t.refOf wq addr = some { r with seen := s.tick, reported := true } ∧
      (∀ q a, q ≠ wq ∨ a ≠ addr → t.refOf q a = s.refOf q a) ∧ { t.svc with reports := s.svc.reports } = s.svc ∧
      { t with svc := s.svc, qm := s.qm } = s) ∧
  (∀ (s : State) (wq : Fin 2048) (addr : Word) (r : RecRef), s.refOf wq addr = some r → s.tick - r.seen < s.qm.ageLimit →
    Completes (.ageLimitReport wq addr) s fun t => t = s)

/-- The leader runs, and so does the service pair that it has assigned to a work queue (R308, R364, R367). -/
def QueueServed (s : State) (q : Fin 2048) : Prop := s.leaderLive = true ∧ s.svc.live (s.queues[q]).pair = true

/-- The service pair of the queue creates the record of a creatable node of a live graph, ready at its address, when no predecessor has
failed; a node behind a faulted or cancelled one is cancelled, and where it was the last to end, the pair completes the graph to the
host; without the pair, or while a page of the queue's address space is being migrated (log entry 63), nothing happens (R304, R308, R352,
R367). -/
def Sys2Proof.Claims.GraphNodesAreCreatedOrCancelled : Prop :=
  ∀ (s : State) (g node : Nat) (addr : Word) (gr : Graph) (nd : Node) (at_ : Nat),
    let fins (p : Nat) : Option (BitVec 3) := (gr.nodes[p]?).bind (·.fin)
    s.qm.graphs.find? (fun x => x.id == g) = some gr → gr.nodes[node]? = some nd → nd.recAt = none → nd.fin = none →
    gr.readyAt nd = some at_ →
    (∀ m, m ∈ gr.nodes.take node → m.recAt.isSome = true ∨ m.fin.isSome = true ∨ gr.readyAt m ≠ some at_) →
    (QueueServed s gr.wq → s.queueMoving gr.wq = false →
      ((∀ p, p ∈ nd.preds → fins p = some 4) → addr.toNat % 64 = 0 → s.refOf gr.wq addr = none →
        (∃ ks, s.xlatN (s.queueAgent gr.wq) .both addr 64 = .ok ks) →
        Completes (.graphNodeCreation g node addr) s fun t =>
          t.refOf gr.wq addr = some ⟨addr, gr.wq, g, 0, false, s.tick, s.tick, false, false, nd.tmpl⟩ ∧
          (t.qm.graphs.find? fun x => x.id == g).bind (·.nodes[node]?) = some { nd with recAt := some addr }) ∧
      ((∃ p, p ∈ nd.preds ∧ (fins p = some 5 ∨ fins p = some 6)) →
        ((∃ k m, k ≠ node ∧ gr.nodes[k]? = some m ∧ m.fin = none) →
          Completes (.graphNodeCreation g node addr) s fun t =>
            (t.qm.graphs.find? fun x => x.id == g).bind (·.nodes[node]?) = some { nd with fin := some 5, finAt := s.cycle } ∧
            t.qm.recs = s.qm.recs ∧ t.mem = s.mem) ∧
        ((∀ k m, k ≠ node → gr.nodes[k]? = some m → m.fin ≠ none) → gr.caddr % 64 = 0 →
          Completes (.graphNodeCreation g node addr) s fun t =>
            (t.qm.graphs.find? fun x => x.id == g) = none ∧ leNat (t.hostBytes gr.caddr 8) = gr.seq.toNat ∧
            leNat (t.hostBytes (gr.caddr + 8) 1) = (if (s.queues[gr.wq]).torn = true then 2 else 0) ∧
            t.links.msix = (s.queues[gr.wq]).vec :: s.links.msix))) ∧
    (¬ QueueServed s gr.wq ∨ s.queueMoving gr.wq = true → Completes (.graphNodeCreation g node addr) s fun t => t = s)

/-- What the end of a child does to its parent, from the state `s1` in which the child's record holds its final state: the parent's
`JOIN` falls by one, which at zero makes a suspended parent ready and ends a finishing one, and one that is 0 already is reported and
stays; a child that failed sets `CHFAIL` (R303, R304). -/
def ParentFollows (s1 t : State) (wq : Fin 2048) (pr : RecRef) (failed : Bool) : Prop :=
  let p := pr.addr
  let pr1 := { pr with chfail := pr.chfail || failed }
  ∀ bs ks, s1.unitRead (s1.queueAgent wq) p 64 = some bs → s1.xlatN (s1.queueAgent wq) .store p 64 = .ok ks → ks.Nodup →
    let j := recJoin (ofBytes512 bs)
    let joinIs (n : Nat) : Prop := recJoin (ofBytes512 (ks.map t.mem.read)) = n ∧ ∀ y, y ∉ ks → t.mem.read y = s1.mem.read y
    (j = 0 → t.refOf wq p = some pr1 ∧ joinIs 0 ∧ Report.joinUnderflow p ∈ t.svc.reports) ∧
    (1 < j → t.refOf wq p = some pr1 ∧ joinIs (j - 1)) ∧
    (j = 1 → pr.failing = false →
      (pr.qst = 1 → t.refOf wq p = some pr1 ∧ joinIs 0) ∧
      (pr.qst = 2 → (∃ w, t.refOf wq p = some { pr1 with qst := 0, rtick := s1.tick, seen := s1.tick, reported := false, last := w }) ∧
        joinIs 0) ∧
      (pr.qst = 3 → t.refOf wq p = none))

/-- The end of a record with a completion flag adds its value to the flag: of the hearth as it runs; of its held list while Hob stops
it; of the saved state while it is saved (R282, R305, R331). -/
def FlagRouted (s t : State) (w : BitVec 512) : Prop :=
  ∀ h : Fin 640, recCfen w = true → recCfHearth w = h.val →
    let y := s.hearth h
    let fl := recCfIdx w
    let plus (x : Hearth) : Nat := min (2 ^ 32 - 1) ((x.flag fl).toNat + recCfVal w)
    (s.saved = [] → y.hob.stopped = false →
      ((t.hearth h).flag fl).toNat = plus y ∧ ∀ g k, g ≠ h ∨ k ≠ fl → (t.hearth g).flag k = (s.hearth g).flag k) ∧
    (s.saved = [] → y.hob.stopped = true → (y.hob.held.filter Held.slot).length < 256 →
      (t.hearth h).hob.held = y.hob.held ++ [.add .qm fl (recCfVal w) none] ∧ ∀ g, (t.hearth g).flags = (s.hearth g).flags) ∧
    (∀ x, s.saved = [(h, x)] → t.saved.map (fun q => (q.1, (q.2.flag fl).toNat)) = [(h, plus x)] ∧
      ∀ g, (t.hearth g).flags = (s.hearth g).flags)

/-- A finishing record that waits for no child leaves the queue manager as completed, and so does a search or fetch record whose task
has been performed, as completed or faulted by its `STATUS`, at once or, while it has children, once they have ended (log entry 56); its
completion flag is added, and its parent's `JOIN` falls (R303 to R305, R344). While a page of the queue's address space is being migrated
it waits (log entry 63). -/
def Sys2Proof.Claims.RecordsComplete : Prop :=
  ∀ (s : State) (wq : Fin 2048) (addr : Word) (r : RecRef), s.refOf wq addr = some r → s.qm.graphs = [] →
    (let w := s.recWord r
     s.cirrus.tasks.find? (fun t => t.wq == wq && t.addr == addr) = none → r.qst = 3 → recJoin w = 0 → s.queueMoving wq = false →
      Completes (.recordCompletion wq addr 4) s fun t =>
        t.cirrus = s.cirrus ∧ t.refOf wq addr = none ∧
        (recParent w = 0 → FlagRouted s t w) ∧
        ∀ pr, s.refOf wq (recParent w) = some pr → recParent w ≠ 0 → recParent w ≠ addr →
          ParentFollows (s.putRec { r with qst := 4 } w) t wq pr false) ∧
    (∀ tk, s.cirrus.tasks.find? (fun t => t.wq == wq && t.addr == addr) = some tk →
      let u := s.runTask tk (recFrame (s.recWord r))
      let fin : BitVec 3 := if u.2 = 0 then 4 else 6
      let s1 : State := { u.1 with cirrus := { u.1.cirrus with
        tasks := u.1.cirrus.tasks.filter fun x => !(x.wq == wq && x.addr == addr) } }
      let w := s1.recWord r
      s.queueMoving wq = false → (s.queues[wq]).torn = false →
      (recJoin w ≠ 0 → Completes (.recordCompletion wq addr fin) s fun t =>
        t.refOf wq addr = some (if u.2 = 0 then { r with qst := 3 } else { r with failing := true }) ∧
        ∀ x, x ∈ t.cirrus.tasks → ¬ (x.wq = wq ∧ x.addr = addr)) ∧
      (recJoin w = 0 → Completes (.recordCompletion wq addr fin) s fun t =>
        t.refOf wq addr = none ∧ (∀ x, x ∈ t.cirrus.tasks → ¬ (x.wq = wq ∧ x.addr = addr)) ∧
        (recParent w = 0 → FlagRouted s1 t w) ∧
        ∀ pr, s.refOf wq (recParent w) = some pr → recParent w ≠ 0 → recParent w ≠ addr →
          ParentFollows (s1.putRec { r with qst := fin } w) t wq pr (u.2 != 0))) ∧
    (s.cirrus.tasks.find? (fun t => t.wq == wq && t.addr == addr) = none →
      r.qst ≠ 3 ∨ recJoin (s.recWord r) ≠ 0 ∨ s.queueMoving wq = true →
      Completes (.recordCompletion wq addr 4) s fun t => t = s)

/-- A doorbell that is not accepted is counted and changes nothing else; an accepted one makes the queue manager read the slots, at once
where the service pair of the queue serves it, stopping at one that is not submitted; a slot without an aligned completion address is
counted and skipped; and a refused submission is completed to the host with status 1 and an interrupt (R350 to R352, R367). -/
def Obligations.DoorbellsReadSlots : Prop :=
  ∀ (s : State) (q : Fin 2048) (v : Word),
    let w := s.queues[q]
    let n := v.toNat
    let slot := ofBytes512 (s.hostBytes (w.ring + 64 * (w.head % 2 ^ w.n)) 64)
    let accepted : Prop := s.svc.recovery = false ∧ s.links.cxlUp = true ∧ w.live = true ∧ w.torn = false ∧ w.head < n ∧
      n ≤ w.head + 2 ^ w.n ∧ w.dbell ≤ n
    let only (t : State) : Prop := ∀ p : Fin 2048, p ≠ q → t.queues[p] = s.queues[p]
    (¬ accepted → Completes (.dbell q v) s fun t =>
      t.queues[q] = { w with ignored := w.ignored + 1 } ∧ only t ∧ { t with queues := s.queues } = s) ∧
    (accepted → ¬ QueueServed s q ∨ bitsN slot 0 64 ≠ w.head → Completes (.dbell q v) s fun t =>
      t.queues[q] = { w with dbell := n } ∧ only t ∧ { t with queues := s.queues } = s) ∧
    (accepted → QueueServed s q → n = w.head + 1 → bitsN slot 0 64 = w.head → bitsN slot 192 64 % 64 ≠ 0 →
      Completes (.dbell q v) s fun t =>
        t.queues[q] = { w with dbell := n, head := n, noCompletion := w.noCompletion + 1 } ∧ only t ∧
        { t with queues := s.queues } = s) ∧
    (accepted → QueueServed s q → n = w.head + 1 → bitsN slot 0 64 = w.head → bitsN slot 192 64 % 64 = 0 →
      bitsN slot 256 256 ≠ 0 →
      Completes (.dbell q v) s fun t =>
        t.queues[q] = { w with dbell := n, head := n } ∧ only t ∧
        leNat (t.hostBytes (bitsN slot 192 64) 8) = w.head ∧ leNat (t.hostBytes (bitsN slot 192 64 + 8) 1) = 1 ∧
        t.links.msix = w.vec :: s.links.msix ∧ t.qm = s.qm)

/-! ## Arrivals, images and pre-emption -/

/-- The context that an arrival takes: the lowest armed one, or else the lowest free one (R113, R235). -/
def EmberTakes (x : Hearth) (c : Fin 4) : Prop :=
  ((x.ctx c).st = .armed ∧ ∀ d, d < c → (x.ctx d).st ≠ .armed) ∨
  ((∀ d, (x.ctx d).st ≠ .armed) ∧ (x.ctx c).st = .free ∧ ∀ d, d < c → (x.ctx d).st ≠ .free)

/-- A context has started on an arrival's handler: its descriptor stands at spill offset 32,704, which a0 names (R236). -/
def StartsHandler (k : Ctx) (a : Arrival) (parked : Bool) : Prop :=
  k.st = .running ∧ k.mode = .user ∧ k.run = .ember ∧ k.pc = BitVec.ofNat 64 a.hoff ∧
  (∀ x, k.get x = if x = 10 then 32704#64 else 0) ∧ ofBytes512 (k.spill.bytes 32704 64) = a.desc parked

/-- A transfer lies at a hearth of this package that has not begun to take it. -/
def OnWire (x : Xfer) (s : State) (h : Fin 640) : Prop :=
  s.links.wire.contains x = true ∧ x.dchip = s.links.chip ∧ x.dhearth = h.val ∧ ∀ i, i ∈ (s.hearth h).arriving → i.x ≠ x

/-- The granules that arrive take in every one of a transfer. -/
def WholeXfer (x : Xfer) (gs : List Nat) : Prop := ∀ a, x.roff ≤ a → a < x.roff + x.data.length → a / 64 ∈ gs

/-- A peer transfer that its receiver's image admits writes its payload, granule by granule; with the last one it adds to its flag, starts
its handler where it has one, and is acknowledged to its sender; one that is not admitted changes nothing at the receiver, and its
sender's command ends with the trap of R199; one for a saved hearth waits at the port (R206 to R208, R225, R235, R331). -/
def Sys2Proof.Claims.PeerTransfersArrive : Prop :=
  ∀ (x : Xfer) (gs : List Nat) (s : State) (h : Fin 640), OnWire x s h →
    let y := s.hearth h
    let payload (t : State) : Prop := (t.hearth h).scratch.bytes x.roff x.data.length = x.data ∧
      SameOutside x.roff x.data.length y.scratch (t.hearth h).scratch ∧ t.mem = s.mem ∧
      t.links.wire = s.links.wire.erase x
    let sender (g : Fin 640) (q : Nat) (c : Cmd) : Prop := x.schip = s.links.chip ∧ x.shearth = g.val ∧ x.sseq = some q ∧
      (s.hearth g).epoch = x.sepoch ∧ (s.hearth g).cmd? q = some c
    (y.idle = false → s.isSaved h = false →
      (y.admits x = true → y.hob.stopped = false → x.hnden = false →
        (WholeXfer x gs → Completes (.peerArrival x gs) s fun t => payload t ∧
          (∀ fl, ((t.hearth h).flag fl).toNat =
            if x.flagen = true ∧ fl = x.rflag then min (2 ^ 32 - 1) ((y.flag fl).toNat + x.rval) else (y.flag fl).toNat) ∧
          ∀ g q c, sender g q c → c.op = some .cpPeer →
            ((t.hearth g).cmd? q).map (fun d => (d.performed, d.acked, d.bytes)) = some (true, true, x.data.length)) ∧
        (¬ WholeXfer x gs → Completes (.peerArrival x gs) s fun t =>
          (∀ a, (t.hearth h).scratch.read a = if x.roff ≤ a ∧ a < x.roff + x.data.length ∧ a / 64 ∈ gs
            then (x.data[a - x.roff]?).getD 0 else y.scratch.read a) ∧
          (t.hearth h).flags = y.flags ∧ t.links.wire = s.links.wire.erase x ∧
          (∃ i, (t.hearth h).arriving = y.arriving ++ [i] ∧ i.x = x) ∧ t.mem = s.mem)) ∧
      (∀ c, y.admits x = true → y.hob.stopped = false → y.hob.held = [] → y.arriving = [] → x.hnden = true → x.flagen = false →
        y.arrQ = [] → EmberTakes y c → WholeXfer x gs →
        Completes (.peerArrival x gs) s fun t => payload t ∧ StartsHandler (t.ctx ⟨h, c⟩) (s.arrivalOf x) false ∧
          (t.hearth h).flags = y.flags) ∧
      (y.admits x = false →
        (x.sseq = none → Completes (.peerArrival x gs) s fun t =>
          t.links.wire = s.links.wire.erase x ∧ { t with links := s.links } = s) ∧
        (∀ g q c, sender g q c → (∀ e, e ∈ (s.hearth g).sideLog → e.seq ≠ q) → Completes (.peerArrival x gs) s fun t =>
          (t.hearth g).cmd? q = none ∧ (∀ k, (t.hearth k).scratch = (s.hearth k).scratch ∧ (t.hearth k).flags = (s.hearth k).flags) ∧
          t.mem = s.mem ∧
          (((s.hearth g).ctx c.ctx).st ≠ .free → ((s.hearth g).ctx c.ctx).st ≠ .armed → ((s.hearth g).ctx c.ctx).run = c.run →
            ((t.hearth g).ctx c.ctx).pend = ((s.hearth g).ctx c.ctx).pend ++
              [⟨7, BitVec.ofNat 64 (c.slot % 8192 + 3 * 2 ^ 16 + q % 2 ^ 32 * 2 ^ 32), 0⟩])))) ∧
    (y.idle = true ∨ s.isSaved h = true → Completes (.peerArrival x gs) s fun t =>
      (t.hearth h) = { y with port := y.port ++ [x] } ∧ t.links.wire = s.links.wire.erase x ∧
      (∀ g, g ≠ h → t.hearth g = s.hearth g) ∧ { t with links := s.links, hearths := s.hearths } = s)

/-- The oldest queued arrival starts on the context that it takes, where no second one finds another, and an image that is
loaded puts its hearth, whose contexts are free, at its cold-start values and refuses a transfer that has not arrived whole: its sender's
command ends (R28, R98, R235, R236, R309, R354). -/
def Sys2Proof.Claims.ArrivalsAndImagesStart : Prop :=
  (∀ (s : State) (a : Arrival) (rest : List Arrival) (c : Fin 4),
    s.fh.hob.stopped = false → s.fh.idle = false → s.fh.arrQ = a :: rest → EmberTakes s.fh c →
    (rest = [] ∨ ∀ d, d ≠ c → (s.fh.ctx d).st ≠ .armed ∧ (s.fh.ctx d).st ≠ .free) →
    Completes .queuedArrivalStart s fun t =>
      t.fh.arrQ = rest ∧ StartsHandler (t.fh.ctx c) a true ∧ (∀ d, d ≠ c → t.fh.ctx d = s.fh.ctx d) ∧
      OnlyHearth s.foc.h s t ∧ { t.fh with ctxs := s.fh.ctxs, arrQ := s.fh.arrQ } = s.fh) ∧
  (∀ (s : State) (id : Nat) (i : Image),
    s.svc.images.find? (fun x => x.id == id) = some i →
    ((∀ c, (s.fh.ctx c).st = .free) → s.fh.hob.stopped = false → s.fh.halting = false →
      (s.fh.arriving = [] → Completes (.imageColdStart id) s fun t =>
        t.fh.img = some i ∧ t.fh.imem = i.imem ∧ t.fh.scratch = i.scratch ∧ t.fh.sec = i.sec ∧
        t.fh.asid = some (s.queues[i.wq]).asid ∧ t.fh.cmds = [] ∧ t.fh.arrQ = [] ∧ t.fh.sa = SortArr.reset ∧
        (∀ fl, t.fh.flag fl = 0) ∧ (∀ n : Fin 8, t.fh.accs[n] = Acc.reset) ∧ (∀ n : Fin 8, t.fh.banks[n] = Bank.reset) ∧
        (∀ c x, (t.fh.ctx c).get x = 0 ∧ (t.fh.ctx c).st = .free) ∧ (∀ g, g ≠ s.foc.h → t.hearth g = s.hearth g) ∧
        t.svc.reports = s.svc.reports ++ s.fh.arrQ.map (.arrivalDiscarded s.foc.h) ∧ t.mem = s.mem) ∧
      (∀ j g q, s.fh.arriving = [j] → j.x.schip = s.links.chip → j.x.shearth = Fin.val (n := 640) g → j.x.sseq = some q →
        (s.hearth g).epoch = j.x.sepoch → (∀ e, e ∈ (s.hearth g).sideLog → e.seq ≠ q) →
        Completes (.imageColdStart id) s fun t =>
          t.fh.img = some i ∧ t.fh.arriving = [] ∧ t.fh.scratch = i.scratch ∧ (∀ fl, t.fh.flag fl = 0) ∧
          (t.hearth g).cmd? q = none ∧ t.mem = s.mem)) ∧
    ((∃ c, (s.fh.ctx c).st ≠ .free) ∨ s.fh.hob.stopped = true ∨ s.fh.halting = true → Completes (.imageColdStart id) s fun t =>
      t.svc.reports = s.svc.reports ++ [.imageRefused s.foc.h 3] ∧ { t with svc := s.svc } = s))

/-- Pre-emption by a live leader stops a hearth's contexts, and saves all of it but instruction memory once every engine stands at a stop:
a vector command that has started stands at none before it has completed. Restoring gives every context back with all that it holds, but
that a word in its issue checks starts them again and an aperture access takes its new number; and every flag, engine value, queued
arrival, logged write and command, with the sequence numbers restarted from 1 in their order (R29, R102, R226, R328 to R330). That the
next number is one more than the live ones, counting aperture accesses, is the model's reading, log entry 33. -/
def Obligations.PreemptionSavesAndRestores : Prop :=
  (∀ (s : State) (area : Nat), s.fh.halted = false → s.fh.purge = none → s.leaderLive = true →
    let x : Hearth := { s.fh with halting := true, area := area }
    (x.cmds.all x.atStop = true → Completes (.preemption area) s fun t =>
      t.saved = s.saved ++ [(s.foc.h, { s.fh with imem := [], halting := false, area := area })] ∧
      t.pins = s.pins ++ [⟨none, area, 4194304, 2, s.foc.h.val / 20⟩] ∧ t.fh.halted = true ∧ t.fh.cmds = [] ∧
      (∀ c, (t.fh.ctx c).st = .free) ∧ t.mem = s.mem ∧
      t.qm.recs.map (fun r => { r with seen := 0 }) = s.qm.recs.map (fun r => { r with seen := 0 }) ∧
      ∀ g, g ≠ s.foc.h → t.hearth g = s.hearth g) ∧
    ((∃ c, c ∈ s.fh.cmds ∧ c.q = .vector ∧ c.stage = .started ∧ c.performed = false) → Completes (.preemption area) s fun t =>
      t.fh = x ∧ OnlyHearth s.foc.h s t)) ∧
  (∀ (s : State) (area : Nat), s.fh.halted = true ∨ s.fh.purge ≠ none ∨ s.leaderLive = false → Completes (.preemption area) s fun t => t = s) ∧
  (∀ (s : State) (n i : Nat) (x : Hearth), (s.savedOf s.foc.h)[n]? = some (i, x) → s.leaderLive = true →
    (∀ c, (s.fh.ctx c).st = .free) → s.fh.cmds = [] → x.arrQ = [] → x.hob.stopped = false →
    let f (q : Nat) : Nat := (x.liveSeqs.filter fun p => decide (p < q)).length + 1
    Completes (.preemptionRestore n) s fun t =>
      t.fh.halted = false ∧ t.fh.imem = (x.img.map Image.imem).getD [] ∧ t.fh.nextSeq = x.liveSeqs.length + 1 ∧
      t.fh.cmds = x.cmds.map (fun c => { c with seq := f c.seq }) ∧
      t.fh.sideLog = x.sideLog.map (fun e => { e with seq := f e.seq }) ∧
      (∀ c, { t.fh.ctx c with wait := (x.ctx c).wait } = x.ctx c ∧
        (t.fh.ctx c).wait = match (x.ctx c).wait with
          | .issue _ _ _ _ => .reissue
          | .aperture q w lo hi => .aperture (f q) w lo hi
          | v => v) ∧
      { t.fh with imem := x.imem, halted := x.halted, routines := x.routines, trace := x.trace, area := x.area, hob := x.hob,
                  port := x.port, arriving := x.arriving, nextSeq := x.nextSeq, cmds := x.cmds, sideLog := x.sideLog,
                  ctxs := x.ctxs } = x ∧
      t.saved.length + 1 = s.saved.length ∧ t.mem = s.mem)

/-! ## Faults that wait for the service OS -/

/-- A held context tries again once a live leader has serviced its fault, and takes the trap of its fault when it is refused; one whose
trap was taken in M mode drains its commands instead, and its record then ends; a held copy command tries again, or ends with the trap
of its fault, and a refused page takes what the command had logged there; while it has logged more on other pages it stays outstanding,
as ended; the side log is replayed when its pages are mapped, and the ended commands go with it; and without a leader the faults stay
held (R205, R324 to R327, R367). That a refused trap of M mode ends the record behind a drain is the
model's reading, log entry 5. -/
def Obligations.HeldFaultsAreServicedOrRefused : Prop :=
  ∀ s : State,
    (s.leaderLive = false → (∀ f fixes, Completes (.faultServiced f fixes) s fun t => t = s) ∧
      ∀ f, Completes (.faultRefused f) s fun t => t = s) ∧
    (s.leaderLive = true →
      (s.fc.st = .held → Completes (.faultServiced .ctx []) s fun t =>
        t.fc.st = .running ∧ t.fc.fault = none ∧ { t.fc with st := s.fc.st, fault := s.fc.fault } = s.fc ∧ OnlyCtx s.foc s t) ∧
      (∀ f o p v, Completes (.faultServiced f [.entry o p v]) s fun t =>
        tableEntry t.mem o.val p = v ∧
        SameOutside (physKey o.val p) 8 s.mem t.mem ∧ t.fh.scratch = s.fh.scratch ∧ t.fh.flags = s.fh.flags) ∧
      (∀ page, Completes (.faultServiced (.copy page) []) s fun t =>
        (∀ c, c ∈ t.fh.cmds → (c.hold.map fun a => a.toNat / 65536) ≠ some page) ∧
        t.fh.cmds.map (fun c => (c.seq, c.pos, c.word)) = s.fh.cmds.map (fun c => (c.seq, c.pos, c.word)) ∧
        t.fh.ctxs = s.fh.ctxs ∧ OnlyHearth s.foc.h s t) ∧
      (∀ hf, s.fc.st = .held → s.fc.fault = some hf → hf.trap = false → s.fc.mode = .user →
        Completes (.faultRefused .ctx) s fun t => TrapsToRuntime s t (BitVec.ofNat 64 hf.cause) hf.addr) ∧
      (∀ hf, s.fc.st = .held → s.fc.fault = some hf → hf.trap = true →
        ((∃ c, c ∈ s.fh.cmds ∧ c.ctx = s.foc.c) ∨ (∃ b p, s.fc.run = .task b p ∧ s.queueMoving p = true) →
          Completes (.faultRefused .ctx) s fun t => t.fc = { s.fc with st := .waiting, wait := .drain .fault, fault := none } ∧ OnlyCtx s.foc s t) ∧
        (∀ addr wq r, (∀ c, c ∈ s.fh.cmds → c.ctx ≠ s.foc.c) → s.fh.arrQ = [] → s.fc.run = .task addr wq →
          s.queueMoving wq = false → s.refOf wq addr = some r → recJoin (s.recWord r) = 0 → Completes (.faultRefused .ctx) s fun t =>
            t.fc.st = .free ∧ t.refOf wq addr = none)) ∧
      (∀ page c a, c ∈ s.fh.cmds → c.hold = some a → a.toNat / 65536 = page →
        Completes (.faultRefused (.copy page)) s fun t => t.mem = s.mem ∧ ∀ d, d ∈ t.fh.cmds → d.seq = c.seq →
          d.ended = true ∧ d.failed = true ∧ d.hold = none ∧ d.entries = [] ∧ ∃ e, e ∈ t.fh.sideLog ∧ e.seq = c.seq) ∧
      (∀ page c cause a, s.fh.cmds = [c] →
        ((c.hold = some a ∧ a.toNat / 65536 = page ∧ cause = c.holdCause) ∨
          ((∀ b, c.hold = some b → b.toNat / 65536 ≠ page) ∧ ∃ e,
            s.fh.sideLog.find? (fun e => e.seq == c.seq && e.onPage page) = some e ∧ cause = e.cause ∧ a = e.addr)) →
        let rest := s.fh.sideLog.filter (fun e => !(e.seq == c.seq && e.onPage page))
        Completes (.faultRefused (.copy page)) s fun t =>
          t.fh.sideLog = rest ∧ t.mem = s.mem ∧
          ((∀ e, e ∈ rest → e.seq ≠ c.seq) → t.fh.cmds = []) ∧
          ((∃ e, e ∈ rest ∧ e.seq = c.seq) →
            t.fh.cmds = [{ c with failed := true, ended := true, performed := true, hold := none, logWait := false, entries := [],
                                  left := [], late := [] }]) ∧
          (c.ended = true → t.fh.ctxs = s.fh.ctxs) ∧
          (c.ended = false → (s.fh.ctx c.ctx).st ≠ .free → (s.fh.ctx c.ctx).st ≠ .armed → (s.fh.ctx c.ctx).run = c.run →
            (t.fh.ctx c.ctx).pend = (s.fh.ctx c.ctx).pend ++
              [⟨cause, BitVec.ofNat 64 (c.slot % 8192 + c.seq % 2 ^ 32 * 2 ^ 32), a⟩]))) ∧
    (∀ e, s.fh.sideLog = [e] → s.fh.halted = false → e.add = none →
      (∀ ks, s.xlatHeld e.ag .store e.addr e.data.length = .ok ks → ks.Nodup → Completes .sideLogReplay s fun t =>
        (∀ (j k : Nat) (b : Byte), ks[j]? = some k → e.data[j]? = some (some b) → t.mem.read k = b) ∧
        (∀ y, (∀ (j : Nat) (b : Byte), ks[j]? = some y → e.data[j]? ≠ some (some b)) → t.mem.read y = s.mem.read y) ∧
        t.fh.sideLog = [] ∧ ∀ d, d ∈ t.fh.cmds → d ∈ s.fh.cmds ∧ d.failed = false) ∧
      (∀ e', s.xlatHeld e.ag .store e.addr e.data.length = .error e' → Completes .sideLogReplay s fun t =>
        t.mem = s.mem ∧ t.fh.sideLog = [e]))

/-! ## Hob -/

/-- A session attaches to a hearth that no other one holds, and sets, deletes and lists breakpoints; a command without a
session is refused; a breakpoint stops the hearth before the instruction, `cont` resumes it with its held updates applied, `step` lets
one context run one instruction, and a context that executes nothing leaves the hearth stopped with the held updates applied (R280 to
R283). That a session which holds a hearth is refused a second one is the model's choice, log entry 59. -/
def Obligations.HobHoldsStopsAndResumes : Prop :=
  ∀ s : State, s.fh.trace.bytes = 0 → s.fh.arrQ = [] → (∀ p, p ∈ s.qm.flagLate → p.1 ≠ s.foc.h) →
    let hob (i : Instr) (b : Hob) : Prop := Completes i s fun t =>
      t.fh.hob = b ∧ { t.fh with hob := s.fh.hob } = s.fh ∧ OnlyHearth s.foc.h s t
    let refused (i : Instr) : Prop := Completes i s fun t => t.hobOut = .refused :: s.hobOut ∧ { t with hobOut := s.hobOut } = s
    (∀ (h : Fin 640) n, s.svc.hobFw = true → (s.hearth h).hob.sess = none → (∀ g, g ≠ h → (s.hearth g).hob.sess ≠ some n) →
      Completes (.hobAttach h.val n) s fun t => (t.hearth h).hob = { (s.hearth h).hob with sess := some n } ∧ OnlyHearth h s t) ∧
    (∀ (h : Fin 640) n, (∃ m, (s.hearth h).hob.sess = some m ∧ m ≠ n) ∨ (∃ g, g ≠ h ∧ (s.hearth g).hob.sess = some n) →
      refused (.hobAttach h.val n)) ∧
    (∀ h n, 640 ≤ h ∨ s.svc.hobFw = false → refused (.hobAttach h n)) ∧
    (s.fh.hob.sess = none → ∀ i, i ∈ [Instr.hobList, .hobCont, .hobStep, .hobRegs, .hobShowFlags, .hobTrace true] → refused i) ∧
    (s.fh.hob.sess.isSome = true →
      (s.fh.hob.brks.length < 16 →
        (∀ off c, off % 4 = 0 → off < (s.fh.img.map (·.code.length)).getD 0 →
          hob (.hobBreakPc off c) { s.fh.hob with brks := s.fh.hob.brks ++ [.pc off c] }) ∧
        (∀ id e img, s.fh.img = some img → img.hasRgn id = true →
          hob (.hobBreakRgn id e) { s.fh.hob with brks := s.fh.hob.brks ++ [.rgn id e] })) ∧
      (∀ id e, s.fh.img = none ∨ (∃ img, s.fh.img = some img ∧ img.hasRgn id = false) → refused (.hobBreakRgn id e)) ∧
      (∀ n, n < s.fh.hob.brks.length → hob (.hobDelete n) { s.fh.hob with brks := s.fh.hob.brks.eraseIdx n }) ∧
      (s.fc.st = .running → s.fh.hob.stopped = false →
        hob .breakpointHit { s.fh.hob with stopped := true, step := none, passed := s.foc.c :: s.fh.hob.passed }) ∧
      (s.fh.hob.stopped = true →
        (s.fh.hob.held = [] → hob .hobCont { s.fh.hob with stopped := false, step := none }) ∧
        (∀ fl v, s.fh.hob.held = [.set fl v] →
          (Completes .hobCont s fun t =>
            t.fh.hob = { s.fh.hob with stopped := false, step := none, held := [] } ∧ t.fh.flag fl = v ∧
            ∀ g, g ≠ fl → t.fh.flag g = s.fh.flag g) ∧
          (s.fc.st = .armed → Completes .hobStep s fun t =>
            t.fh.hob = { s.fh.hob with stopped := true, step := none, held := [] } ∧ t.fh.flag fl = v ∧ t.fh.ctxs = s.fh.ctxs ∧
            ∀ g, g ≠ fl → t.fh.flag g = s.fh.flag g)) ∧
        (s.fh.hob.held = [] → s.fc.st = .running → s.fc.wait = .none → s.fh.idle = false →
          hob .hobStep { s.fh.hob with stopped := false, step := some s.foc.c, passed := s.foc.c :: s.fh.hob.passed })))

/-- Each printing command of Hob prints the values of the hearth or the context at the focus and changes nothing: the registers with the
instruction at the pc, a slot's stored word with its placeholders beside the word last issued from it, and bytes of memory, an entry of
a KV-cache table among them by its layout (R27, R103, R262, R280). What it prints besides the values that R280 names is the model's
choice, log entry 59. -/
def Sys2Proof.Claims.HobPrintsTheState : Prop :=
  ∀ s : State, s.fh.hob.sess.isSome = true →
    let prints (i : Instr) (o : List HobOut) : Prop := Completes i s fun t => t.hobOut = o ++ s.hobOut ∧ { t with hobOut := s.hobOut } = s
    prints .hobList [.brks s.fh.hob.brks] ∧
    prints .hobRegs [.instr s.fc.pc (scalarText (decodeScalar (s.fetchWord s.foc))), .regs s.fc.pc s.fc.xs] ∧
    (∀ n : Fin 16, prints (.hobShowV n) [.vreg s.fc.vs[n]]) ∧ (∀ n : Fin 8, prints (.hobShowP n) [.preg s.fc.ps[n]]) ∧
    (∀ n : Fin 32, prints (.hobShowW n) [.wreg s.fc.ws[n]]) ∧ prints .hobShowFlags [.flags s.fh.flags] ∧
    prints .hobShowSb [.sb (s.fh.cmds.flatMap fun c => c.entries.map fun e => (c.seq, e, c.f.wait))] ∧
    prints .hobShowQ [.queues ((s.fh.cmds.filter fun c => c.stage == .queued).map fun c => (c.q, c.seq))] ∧
    prints .hobShowHeld [.held s.fh.hob.held] ∧
    (∀ n : Fin 8, prints (.hobShowAcc n) [.acc (s.fh.accs[n]).vals] ∧ prints (.hobShowSmax n) [.smax (s.fh.accs[n]).smax]) ∧
    prints .hobShowSa [.sa s.fh.sa.phase s.fh.sa.tkcount s.fh.sa.tkk s.fh.sa.tkn s.fh.sa.smode s.fh.sa.cells] ∧
    (s.fh.cmds = [] → prints .hobShowNest [.nest s.fc.nest none]) ∧
    (∀ c, s.fh.cmds = [c] → c.op = some .mxGo → c.stage = .started → c.performed = false →
      prints .hobShowNest [.nest s.fc.nest (some c.nest)]) ∧
    (∀ n, s.fh.slotOk n = true →
      (s.fh.descOf n = none → prints (.hobDecode n) [.word (verbose (s.fh.slotWord n) none) none]) ∧
      (∀ d c, s.fh.descOf n = some d → s.fh.cmds = [c] → c.slot = n → c.ended = false →
        prints (.hobDecode n) [.word (verbose (s.fh.slotWord n) (some d)) (some (verbose c.word none))])) ∧
    (∀ off n, off + n ≤ 2 ^ 21 →
      let bytes := s.fh.scratch.bytes off n
      let v := leNat bytes
      let f (lo n : Nat) : Nat := v / 2 ^ lo % 2 ^ n
      let read : HobOut := .mem (bytes.map some)
      (n < 32 → prints (.hobMem (BitVec.ofNat 64 (15 * 2 ^ 52 + off)) n) [read]) ∧
      (n = 32 → f 192 64 = 0 → f 160 32 % 128 = 0 → 1 ≤ f 152 8 → f 152 8 ≤ 128 → f 148 4 ∈ [7, 9, 12, 13] → f 128 18 = 0 →
        f 64 64 % 64 = 0 → f 146 2 = 0 ∨ (f 146 2 = 1 ∧ f 0 64 % 512 = 0 ∧ f 45 19 = 0) →
        prints (.hobMem (BitVec.ofNat 64 (15 * 2 ^ 52 + off)) n)
          [.kv (f 160 32) (f 152 8) (f 148 4) (f 146 2) (f 64 64) (f 0 64), read]))

/-- The trace switch and the chimney period change only themselves; the chimney stream latches one frame on a tick that is a
multiple of its period, or drops and counts it; a lease rebase changes nothing (R241, R284, R286, R287). -/
def Sys2Proof.Claims.TraceChimneyAndLeases : Prop :=
  ∀ s : State,
    (s.fh.hob.sess.isSome = true →
      (∀ on, Completes (.hobTrace on) s fun t =>
        t.fh.trace = { s.fh.trace with on := on } ∧ { t.fh with trace := s.fh.trace } = s.fh ∧ OnlyHearth s.foc.h s t) ∧
      (∀ k, 4 ≤ k → k ≤ 24 → Completes (.hobChimney k) s fun t =>
        t.chim = { s.chim with k := k } ∧ { t with chim := s.chim } = s) ∧
      (∀ k, k < 4 ∨ 24 < k → Completes (.hobChimney k) s fun t =>
        t.hobOut = .refused :: s.hobOut ∧ { t with hobOut := s.hobOut } = s)) ∧
    (s.chim.k = 0 ∨ s.tick % 2 ^ s.chim.k ≠ 0 ∨ s.tick < s.chim.last → Completes .chimneyLatch s fun t => t = s) ∧
    (s.chim.k ≠ 0 → s.tick % 2 ^ s.chim.k = 0 → s.chim.last ≤ s.tick →
      (s.chim.bytes < s.chim.pos + 56704 → Completes .chimneyLatch s fun t =>
        t.chim = { s.chim with dropped := s.chim.dropped + 1, last := s.tick + 1 } ∧ { t with chim := s.chim } = s) ∧
      (s.chim.pos + 56704 ≤ s.chim.bytes → Completes .chimneyLatch s fun t =>
        t.chim = { s.chim with pos := s.chim.pos + 56704, dropped := 0, last := s.tick + 1 } ∧ t.qm = s.qm ∧
        (∀ l, { t.ctx l with resv := (s.ctx l).resv } = s.ctx l))) ∧
    Completes .leaseRebase s fun t => t = s

/-! ## The cirrus engines' own steps -/

/-- A page that a command, a saved one among them, a record or a merge has still to read is re-queued for it at most seven times, each
reader by itself, and each counts at its channel and, once, at its task; one that has failed them all is lost and reported, and ends a
replay. A merge publishes its graph as the newest root and keeps every entry: at most `DEGREE` neighbours for a
node, all of them nodes, and a node for every entry linked that was live. Reclamation keeps the newest root, every root that a search
under way launched on, the entries of the log above the oldest root kept, and their nodes (R289, R342, R346, R347). -/
def Obligations.RetriesMergesAndReclamation : Prop :=
  (∀ (s : State) (r : RetryEv),
    let tries := s.cirrus.triesOf r.reader r.page
    let reads : Prop := r.page ∈ s.readerPages r.reader
    let counted (t : State) : Prop := t.cirrus.retries[pageChannel r.page] = s.cirrus.retries[pageChannel r.page] + 1 ∧
      (∀ k, k ≠ pageChannel r.page → t.cirrus.retries[k] = s.cirrus.retries[k]) ∧ t.cirrus.triesOf r.reader r.page = tries + 1 ∧
      (∀ q p, q ≠ r.reader ∨ p ≠ r.page → t.cirrus.triesOf q p = s.cirrus.triesOf q p) ∧
      t.cirrus.flash = s.cirrus.flash ∧ t.cirrus.indexes = s.cirrus.indexes ∧ t.cirrus.lost = s.cirrus.lost ∧ t.mem = s.mem
    (reads → r.uncorrectable = false → tries < 7 →
      (∀ wq a, r.reader = .record wq a → Completes (.readRetry r) s fun t => counted t ∧
        (∀ x, x ∈ t.cirrus.tasks → x.addr = a → x.wq = wq → r.page ∈ x.retried) ∧ Report.requeue a 1 ∈ t.svc.reports) ∧
      (∀ i, r.reader = .merge i → Completes (.readRetry r) s fun t => counted t ∧ t.cirrus.tasks = s.cirrus.tasks) ∧
      (∀ h q c, r.reader = .cmd h (s.hearth h).epoch q → (s.hearth h).cmd? q = some c → (s.hearth h).trace.bytes = 0 →
        Completes (.readRetry r) s fun t =>
          counted t ∧ ∃ d, (t.hearth h).cmd? q = some d ∧ r.page ∈ d.retried ∧ { d with retried := c.retried } = c) ∧
      (∀ h e q x c, r.reader = .cmd h e q → (s.hearth h).epoch ≠ e → s.saved = [(h, x)] → x.epoch = e → x.cmd? q = some c →
        (s.hearth h).trace.bytes = 0 → Completes (.readRetry r) s fun t =>
          counted t ∧ ∃ y d, t.saved = [(h, y)] ∧ y.cmd? q = some d ∧ r.page ∈ d.retried ∧ { d with retried := c.retried } = c)) ∧
    (¬ reads ∨ (7 ≤ tries ∧ r.uncorrectable = false) ∨ (tries < 7 ∧ r.uncorrectable = true) →
      Completes (.readRetry r) s fun t => t = s) ∧
    (reads → r.uncorrectable = true → 7 ≤ tries → Completes (.readRetry r) s fun t =>
      r.page ∈ t.cirrus.lost ∧ Report.uncorrectable r.page ∈ t.svc.reports ∧ t.cirrus.retries = s.cirrus.retries ∧
      t.cirrus.triesOf r.reader r.page = 0 ∧ t.svc.replay = none ∧
      (s.svc.replay ≠ none → Report.divergence ∈ t.svc.reports ∧ t.svc.script = []) ∧
      t.cirrus.flash = s.cirrus.flash ∧ t.mem = s.mem)) ∧
  (∀ (s : State) (i : Fin 64) (pages : List Nat) (x : Index) (lp ev : Nat),
    s.cirrus.indexes[i] = some x → x.merge = some (lp, ev) →
    (x.mergeLost s.cirrus.lost lp = false → pages.length = (x.mergeNodes lp ev).length → s.pagesFree pages = true →
      Completes (.mergePublish i pages) s fun t =>
        ∃ y rt, t.cirrus.indexes[i] = some y ∧ y.roots = rt :: x.roots ∧ rt.gen = x.top.gen + 1 ∧ rt.mpos = lp ∧
          rt.nodes.map (·.page) = pages ∧
          (∀ n, n ∈ rt.nodes → n.nbrs.length ≤ x.degree ∧ ∀ m, m ∈ n.nbrs → ∃ k, k ∈ rt.nodes ∧ k.pos = m) ∧
          (∀ e, e ∈ x.entries → (x.top.mpos ≤ e.pos ∧ e.pos < lp) ∨ (∃ n, n ∈ x.top.nodes ∧ n.pos = e.pos) →
            e.delAt = none ∨ (∃ d, e.delAt = some d ∧ ev ≤ d) → ∃ n, n ∈ rt.nodes ∧ n.pos = e.pos) ∧
          (∀ n, n ∈ rt.nodes → ∃ e, e ∈ x.entries ∧ e.pos = n.pos) ∧
          y.entries = x.entries ∧ y.logpos = x.logpos ∧ y.events = x.events + 1 ∧
          ∀ j, j ≠ i → t.cirrus.indexes[j] = s.cirrus.indexes[j]) ∧
    (x.mergeLost s.cirrus.lost lp = true → Completes (.mergePublish i pages) s fun t =>
      t.cirrus.indexes[i] = some { x with merge := none } ∧ Report.mergeNotPublished i ∈ t.svc.reports ∧ t.mem = s.mem)) ∧
  (∀ (s : State) (i : Fin 64) (x : Index) (r : IdxRoot) (rs : List IdxRoot),
    s.cirrus.indexes[i] = some x → x.roots = r :: rs →
    Completes (.logReclaim i) s fun t =>
      ∃ y, t.cirrus.indexes[i] = some y ∧ r ∈ y.roots ∧ (∀ k, k ∈ y.roots → k ∈ x.roots) ∧
        (∀ h k, k ∈ x.roots → k.gen ∈ (s.hearth h).gens i → k ∈ y.roots) ∧
        (∀ e, e ∈ y.entries → e ∈ x.entries) ∧
        (∀ e k, e ∈ x.entries → y.roots.getLast? = some k → k.mpos ≤ e.pos → e ∈ y.entries) ∧
        (∀ e k n, e ∈ x.entries → k ∈ y.roots → n ∈ k.nodes → n.pos = e.pos → e ∈ y.entries) ∧
        y.logpos = x.logpos ∧ t.mem = s.mem)

/-! ## Links and the host -/

/-- Links train to what they find, at each generation and width of R348, with the routes that the service OS has set through each; a failed port stays failed, its routes are
gone, and a transfer that was crossing it ends at its sender as refused; the coherence agent answers a snoop with the bytes as they
stand; a host load or store moves its bytes unless one of them is secure, and a read of a register finds its fields; a transfer between
other chips leaves through the port of its route, and both ports count its bytes (R10, R239, R332, R348, R353, R355, R370, R379, R380). Where the host finds a register
is the model's choice, log entry 66. -/
def Obligations.LinksAndHostAccesses : Prop :=
  ∀ s : State,
    let links (i : Instr) (l : Links) : Prop := Completes i s fun t => t.links = l ∧ { t with links := s.links } = s
    (∀ g w, g = 60 ∨ g = 50 ∨ g = 40 → w = 16 ∨ w = 8 →
      links (.linkTraining (.pcie g w)) { s.links with pcieGen := g, pcieWidth := w }) ∧
    (∀ g w, g = 31 ∨ g = 30 ∨ g = 20 → w = 16 ∨ w = 8 →
      links (.linkTraining (.cxl true g w)) { s.links with cxlUp := true, cxlGen := g, cxlWidth := w }) ∧
    (∀ g w, links (.linkTraining (.cxl false g w)) { s.links with cxlUp := false }) ∧
    (∀ p : Fin 8, (s.links.ports[p]).failed = true → ∀ ok chip routes,
      links (.linkTraining (.selaris p ok chip routes)) s.links) ∧
    (∀ (p : Fin 8) chip rs, (s.links.ports[p]).failed = false → chip < 1024 →
      ((∀ c, c ∈ rs → c < 1024 ∧ c ≠ chip) → links (.linkTraining (.selaris p true chip rs))
        { s.links with ports := s.links.ports.set p ⟨true, false⟩, chip := chip,
                       routes := (s.links.routes.filter fun q => q.2 != p && !rs.contains q.1 && q.1 != chip) ++
                         rs.map fun c => (c, p) }) ∧
      links (.linkTraining (.selaris p false chip rs))
        { s.links with ports := s.links.ports.set p ⟨false, false⟩, routes := s.links.routes.filter fun q => q.2 != p }) ∧
    (∀ p : Fin 8,
      ((s.links.ports[p]).up = false → Completes (.portFailure p [] []) s fun t => t = s) ∧
      ((s.links.ports[p]).up = true →
        links (.portFailure p [] [])
          { s.links with ports := s.links.ports.set p ⟨false, true⟩, routes := s.links.routes.filter fun q => q.2 != p } ∧
        (∀ (x : Xfer) (h : Fin 640) q c, s.links.wire = [x] → x.schip = s.links.chip → x.shearth = h.val → x.sseq = some q →
          x.sepoch = (s.hearth h).epoch → s.links.route x.dchip = some p → (s.hearth h).cmd? q = some c →
          (∀ e, e ∈ (s.hearth h).sideLog → e.seq ≠ q) →
          Completes (.portFailure p [(h.val, q)] []) s fun t =>
            t.links.wire = [] ∧ (t.hearth h).cmd? q = none ∧ t.links.ports = s.links.ports.set p ⟨false, true⟩ ∧ t.mem = s.mem))) ∧
    (∀ a n, s.links.cxlUp = true → links (.hostSnoop a n) { s.links with answered := (a, s.hostBytes a n) :: s.links.answered }) ∧
    (∀ a n, s.hostReaches a n = true →
      (s.hostDenied a n = false → links (.hostMemoryAccess (.load a n))
        { s.links with answered := (a, s.mem.bytes a n) :: s.links.answered }) ∧
      (s.hostDenied a n = true → links (.hostMemoryAccess (.load a n)) { s.links with hostFaults := s.links.hostFaults + 1 })) ∧
    (∀ a bs, s.hostReaches a bs.length = true →
      (s.hostDenied a bs.length = false → Completes (.hostMemoryAccess (.store a bs)) s fun t =>
        t.mem.bytes a bs.length = bs ∧ SameOutside a bs.length s.mem t.mem ∧
        OnlyMemory s t ∧ ∀ l, { t.ctx l with resv := (s.ctx l).resv } = s.ctx l) ∧
      (s.hostDenied a bs.length = true →
        links (.hostMemoryAccess (.store a bs)) { s.links with hostFaults := s.links.hostFaults + 1 })) ∧
    (∀ b : BarReg, ∃ bs, leNat bs = (match b with
        | .callAddr => s.svc.callAddr.toNat
        | .callStat => (if s.svc.busy = true then 1 else 0) + (if s.svc.done = true then 2 else 0)
        | .bootStat => s.svc.bootStage.toNat + (if s.svc.recovery = true then 16 else 0) + 256 * s.svc.started.toNat
        | .chipNum => s.links.chip % 1024
        | .resv0 _ => 0
        | .head q => (s.queues[q]).head % 2 ^ 64) ∧
      links (.hostMemoryAccess (.reg b)) { s.links with answered := (barPlace b, bs) :: s.links.answered }) ∧
    (∀ (p : Fin 8) (x : Xfer),
      (∀ q, (s.links.ports[p]).up = true → x.schip ≠ s.links.chip → x.dchip ≠ s.links.chip → s.links.route x.dchip = some q →
        let once := s.links.carried.set p (s.links.carried[p] + x.data.length)
        links (.transferForward p x) { s.links with forwarded := s.links.forwarded ++ [(q, x)],
                                                    carried := once.set q (once[q] + x.data.length) }) ∧
      (s.links.route x.dchip = none → Completes (.transferForward p x) s fun t => t = s))

/-! ## The service OS -/

/-- Leadership: the lowest pair whose firmware verifies at boot leads under generation 1, and the first image that does not verify is
the boot stage, with recovery where it serves nothing; the leader's heartbeat writes the tick once 100,000 have passed; when it has
lapsed the next live pair leads under the next generation and takes over every work queue; what a leader writes under an
older generation than the accepted one does nothing; a pair that stops is not live, and one that returns is again, under the generation
that holds (R320, R364 to R366, R382). The boot stage is 1 until then, and the first heartbeat is a later row, log entry 35; the
layouts of the images and what verifies are log entry 69, the places of the privileged roots log entry 65, the order of the queues'
pairs log entry 64, and a row that cannot happen leaves the state, log entry 49. -/
def Sys2Proof.Claims.LeadershipMovesWithTheHeartbeat : Prop :=
  ∀ s : State,
    let svc (i : Instr) (v : Service) : Prop := Completes i s fun t => t.svc = v ∧ { t with svc := s.svc } = s
    (s.leaderLive = true → s.svc.beat.toNat + 100000 ≤ s.tick → svc .heartbeat { s.svc with beat := BitVec.ofNat 64 s.tick }) ∧
    (s.leaderLive = false ∨ s.tick < s.svc.beat.toNat + 100000 → svc .heartbeat s.svc) ∧
    (∀ r : Fin 5, s.svc.gen ≠ 0 → s.svc.beat.toNat + 300000 < s.tick → s.svc.successor = some r.val →
      (∀ c, c ∈ s.svc.calls → c.committed = true) → s.svc.busy = false →
      (∀ q : Fin 2048, (s.queues[q]).dbell ≤ (s.queues[q]).head) →
      Completes (.leadershipTakeover r) s fun t =>
        t.svc = { s.svc with gen := s.svc.gen + 1, leader := r.val, beat := BitVec.ofNat 64 s.tick, qmGen := s.svc.gen + 1,
                             gens := s.svc.gens.set r (s.svc.gen + 1) } ∧
        (∀ q : Fin 2048, t.queues[q] = { s.queues[q] with pair := r.val }) ∧ { t with svc := s.svc, queues := s.queues } = s) ∧
    (∀ r : Fin 5, s.tick ≤ s.svc.beat.toNat + 300000 → svc (.leadershipTakeover r) s.svc) ∧
    (∀ r : Fin 5, s.svc.leader = r.val → (s.svc.gens[r]).toNat < s.svc.qmGen.toNat → s.leaderLive = false) ∧
    (∀ r : Fin 5, Completes (.lockstepStop r) s fun t => t.svc.live r.val = false ∧
      (∀ q, q ≠ r.val → t.svc.live q = s.svc.live q) ∧ { t with svc := s.svc, queues := s.queues } = s ∧
      { t.svc with stopped := s.svc.stopped } = s.svc ∧
      (∀ q : Fin 2048, { t.queues[q] with pair := (s.queues[q]).pair } = s.queues[q]) ∧
      (s.leaderLive = true → s.svc.leader ≠ r.val → s.svc.started.getLsbD r.val = true → ∀ q : Fin 2048,
        (t.queues[q]).pair = if (s.queues[q]).pair = r.val then s.svc.leader else (s.queues[q]).pair)) ∧
    (∀ r : Fin 5, Completes (.servicePairReturn r) s fun t => t.svc.live r.val = s.svc.started.getLsbD r.val ∧
      (∀ q, q ≠ r.val → t.svc.live q = s.svc.live q) ∧ { t with svc := s.svc, cores := s.cores } = s ∧
      { t.svc with stopped := s.svc.stopped, gens := s.svc.gens } = s.svc ∧ t.svc.gens[r] = s.svc.gen ∧
      (∀ q : Fin 5, q ≠ r → t.svc.gens[q] = s.svc.gens[q] ∧ t.cores[q] = s.cores[q]) ∧
      (t.cores[r])[1] = (t.cores[r])[0]) ∧
    (∀ (b : BootRes),
      (s.svc.gen ≠ 0 → Completes (.boot b) s fun t => t = s) ∧
      (s.svc.gen = 0 → (∀ i : Fin 5, pairVerifies b.pairs[i] = false) →
        svc (.boot b) { s.svc with bootStage := 1, recovery := true }) ∧
      (∀ l : Fin 5, s.svc.gen = 0 → pairVerifies b.pairs[l] = true → (∀ j : Fin 5, j < l → pairVerifies b.pairs[j] = false) →
        let good (i : BootImg) (least : Nat) : Bool := imageVerifies b.pairs[l] i least
        let stage : Nat := if good b.cirrus Config.minCirrus = false then 2
          else if good b.keys Config.minKeys = false ∨ good b.runtime Config.minRuntime = false then 3
          else if good b.hob Config.minHob = false then 4 else 0
        Completes (.boot b) s fun t =>
          t.svc.gen = 1 ∧ t.svc.qmGen = 1 ∧ t.svc.leader = l.val ∧ t.svc.bootStage.toNat = stage ∧ t.svc.stopped = 0 ∧
          (t.svc.recovery = true ↔ stage = 2 ∨ stage = 3) ∧ t.svc.hobFw = good b.hob Config.minHob ∧
          (∀ i : Fin 5, t.svc.started.getLsbD i.val = pairVerifies b.pairs[i] ∧ t.svc.gens[i] = 1) ∧
          (∀ o : Fin 5, (t.roots.find? fun r => r.owner = o && r.asid.isNone).map (·.paddr) = some b.roots[o]) ∧
          t.mem = s.mem ∧ t.hearths = s.hearths ∧ t.queues = s.queues))

/-- Power: every 200 ticks the budget in force is set anew, from the request, the regulator or the thermal limit, which is below the
request while it stands, and is divided into grants of the five dies within it, each shared within its die; reaching the thermal limit
or cooling changes the budget from then on only (R377, R378). The regulator's limit and a division that is not named are free values of
the model, and that a compute die has two flash stacks beside its 160 hearths is its choice, log entry 46. -/
def Sys2Proof.Claims.PowerBudgetsFollowTheLimits : Prop :=
  ∀ s : State,
    let power (i : Instr) (p : Power) : Prop := Completes i s fun t => t.power = p ∧ { t with power := s.power } = s
    let base := min s.power.request Config.regulatorLimit
    let baseSrc := if Config.regulatorLimit < s.power.request then 1 else 0
    let b := match s.power.thermal with
      | none => base
      | some w => min (min w base) (s.power.request - 1)
    let src := if s.power.thermal.isSome = true then 2 else baseSrc
    let keeps (gs : List Nat) (sh : List (List Nat)) : Prop := gs.length = 5 ∧ sh.map (·.length) = [162, 162, 162, 162, 0] ∧ gs.sum ≤ b ∧
      ∀ (i g : Nat) (l : List Nat), gs[i]? = some g → sh[i]? = some l → l.sum ≤ g
    let granted (i : Instr) (P : List Nat → List (List Nat) → Prop) : Prop := Completes i s fun t =>
      ∃ gs sh, P gs sh ∧ keeps gs sh ∧ { t with power := s.power, free := s.free } = s ∧
        t.power = { s.power with inforce := b, src := src, grants := gs, shares := sh, last := s.tick }
    (∀ gs sh, s.tick % 200 = 0 →
      (keeps gs sh → granted (.powerGrantPeriod gs sh) fun xs ys => xs = gs ∧ ys = sh) ∧
      (¬ keeps gs sh → granted (.powerGrantPeriod gs sh) fun _ _ => True)) ∧
    (∀ gs sh, s.tick % 200 ≠ 0 → power (.powerGrantPeriod gs sh) s.power) ∧
    (s.power.thermal.isSome = true → s.power.request ≠ 0 → b < s.power.request) ∧
    (∀ w, power (.thermalLimit w) { s.power with thermal := some w }) ∧
    power .coldPlateCooled { s.power with thermal := none }

/-- A host write of `CALLADDR` sets it, a multiple of 64, and of a read-only or reserved register does nothing; `CALLGO` makes
the leader perform the call that the block at `CALLADDR` then holds and write the reply behind that block, with vector 64, once the call
has ended; it is ignored while a call runs, and while there is no leader its request is kept (R10, R349, R370). That the low bits of `CALLADDR` read as zero is log
entry 40. -/
def Sys2Proof.Claims.HostCallsGoThroughTheMailbox : Prop :=
  ∀ s : State,
    (∀ v, Completes (.registerWrite .callAddr v) s fun t =>
      t.svc = { s.svc with callAddr := v &&& 0xFFFFFFFFFFFFFFC0#64 } ∧ { t with svc := s.svc } = s) ∧
    (∀ v b, b ≠ .callAddr → Completes (.registerWrite b v) s fun t => t = s) ∧
    (∀ v ch, v ≠ 1 ∨ s.svc.busy = true → Completes (.callgo v ch) s fun t => t = s) ∧
    (∀ ch, s.svc.busy = false → s.leaderLive = false → Completes (.callgo 1 ch) s fun t =>
      t.svc = { s.svc with busy := true, done := false,
                           mail := some ⟨s.svc.callAddr.toNat, ofBytes512 (s.hostBytes s.svc.callAddr.toNat 64), ch⟩ } ∧
      { t with svc := s.svc } = s) ∧
    (∀ ch u st res, s.svc.busy = false → s.leaderLive = true →
      let a := s.svc.callAddr.toNat
      let w := ofBytes512 (s.hostBytes a 64)
      let s1 : State := { s with svc := { s.svc with busy := true, done := false, mail := some ⟨a, w, ch⟩ } }
      s1.perform (bitsN w 64 16) ⟨0, 0, field w 0 64, Vector.ofFn fun i : Fin 6 => field w (128 + 64 * i.val) 64, ch⟩
        (bitsN w 80 48 != 0) = (u, some (st, res)) →
      Completes (.callgo 1 ch) s fun t =>
        leNat (t.hostBytes (a + 64) 1) = st % 256 ∧ leNat (t.hostBytes (a + 72) 8) = bitsN w 0 64 ∧
        leNat (t.hostBytes (a + 96) 32) = res.toNat ∧ t.svc.busy = false ∧ t.svc.done = true ∧ t.svc.mail = none ∧
        t.links.msix = 64 :: u.links.msix ∧ ∀ y, y ∉ hostKeys (a + 64) 64 → t.mem.read y = u.mem.read y) ∧
    (∀ ch u, s.svc.busy = false → s.leaderLive = true →
      let a := s.svc.callAddr.toNat
      let w := ofBytes512 (s.hostBytes a 64)
      let s1 : State := { s with svc := { s.svc with busy := true, done := false, mail := some ⟨a, w, ch⟩ } }
      s1.perform (bitsN w 64 16) ⟨0, 0, field w 0 64, Vector.ofFn fun i : Fin 6 => field w (128 + 64 * i.val) 64, ch⟩
        (bitsN w 80 48 != 0) = (u, none) →
      Completes (.callgo 1 ch) s fun t => t = u)

/-! ## Service calls -/

/-- The call rows and their numbers (R371). -/
def callRows : List ((CallReq → Instr) × Nat) :=
  [(.imageRegister, 0x0001), (.imageUnregister, 0x0002), (.queueCreate, 0x0010), (.queueTeardown, 0x0011), (.queueReset, 0x0012),
   (.queueErrors, 0x0013), (.map, 0x0020), (.unmap, 0x0021), (.setHome, 0x0022), (.migrate, 0x0023), (.ageLimit, 0x0024),
   (.routineLoad, 0x0030), (.routineUnload, 0x0031), (.flashAllocate, 0x0040), (.flashWrite, 0x0041), (.flashFree, 0x0042),
   (.indexCreate, 0x0043), (.indexDestroy, 0x0044), (.mergeStart, 0x0045), (.mediaRepair, 0x0046), (.powerSet, 0x0050),
   (.powerQuery, 0x0051), (.traceRing, 0x0060), (.chimney, 0x0061), (.hobAttachCall, 0x0062), (.hobDetach, 0x0063),
   (.recordMode, 0x0064), (.replay, 0x0065)]

/-- The calls of R371 without a sequence number. -/
def readCalls : List (CallReq → Instr) := [.queueErrors, .powerQuery]

/-- Every call: its reply goes to the registers of the context that waits for it, which goes on; a repeated sequence number is answered
from its record and changes nothing; a lower one is stale, with nothing changed; one that must wait leaves its record started; and
without a live leader nothing happens (R365, R369, R370). That a call is one step of the leader, in the agenda's order, is log entry 48,
and that one that has no call to answer leaves the state is log entry 49. -/
def Sys2Proof.Claims.CallsAreAnsweredOnce : Prop :=
  ∀ (i : CallReq → Instr) (no : Nat) (r : CallReq) (s : State), (i, no) ∈ callRows →
    (s.leaderLive = false → Completes (i r) s fun t => t = s) ∧
    (∀ u st res (l : Loc), s.leaderLive = true → s.perform no r false = (u, some (st, res)) → r.caller = 1 + l.h.val → r.ctx = l.c →
      s.frozen l.h = false → (u.ctx l).st = .waiting → (u.ctx l).wait = .svc →
      Completes (i r) s fun t =>
        (t.ctx l).get 10 = BitVec.ofNat 64 st ∧ (t.ctx l).get 11 = BitVec.ofNat 64 res.toNat ∧
        (t.ctx l).get 12 = BitVec.ofNat 64 (res.toNat / 2 ^ 64) ∧ (t.ctx l).get 13 = BitVec.ofNat 64 (res.toNat / 2 ^ 128) ∧
        (t.ctx l).get 14 = BitVec.ofNat 64 (res.toNat / 2 ^ 192) ∧ (t.ctx l).st = .running ∧ (t.ctx l).wait = .none ∧
        (t.ctx l).pc = (u.ctx l).pc + 4 ∧
        (∀ x : XReg, x.val < 10 ∨ 14 < x.val → (t.ctx l).get x = (u.ctx l).get x) ∧ t.mem = u.mem ∧ t.svc = u.svc) ∧
    (∀ u, s.leaderLive = true → (∀ l : Loc, r.caller = 1 + l.h.val → s.frozen l.h = false) → s.perform no r false = (u, none) →
      Completes (i r) s fun t => t = u ∧
        ((∀ c, c ∈ s.svc.calls → c.caller = r.caller → c.seq.toNat ≤ r.seq.toNat) →
          (t.svc.callRec r.caller r.seq).map (·.committed) = some false)) ∧
    (∀ c, s.leaderLive = true → i ∉ readCalls → r.caller = 0 → r.seq ≠ 0 → s.svc.callRec 0 r.seq = some c → c.committed = true →
      s.perform no r false = (s, some (c.status, c.result)) ∧ Completes (i r) s fun t => t = s) ∧
    (∀ c, s.leaderLive = true → i ∉ readCalls → r.caller = 0 → s.svc.callRec 0 r.seq = none → c ∈ s.svc.calls → c.caller = 0 →
      r.seq.toNat ≤ c.seq.toNat → r.seq ≠ 0 → s.perform no r false = (s, some (2, 0)) ∧ Completes (i r) s fun t => t = s)

/-- The leader serves a call: the caller's hearth is not stopped, and no later call of the caller is on record (R281, R365, R369). -/
def CallServed (s : State) (r : CallReq) : Prop :=
  s.leaderLive = true ∧ r.seq ≠ 0 ∧ (∀ l : Loc, r.caller = 1 + l.h.val → s.frozen l.h = false) ∧
  ∀ c, c ∈ s.svc.calls → c.caller = r.caller → c.seq.toNat ≤ r.seq.toNat

/-- A call under a new sequence number of its caller, higher than all before, with a leader to serve it (R365, R369). -/
def CallFresh (s : State) (r : CallReq) : Prop :=
  CallServed s r ∧ (∀ c, c ∈ s.svc.calls → c.caller = r.caller → c.seq ≠ r.seq) ∧
  ∀ m, m ∈ s.svc.moving → ¬ (m.caller = r.caller ∧ m.seq = r.seq)

/-- The call succeeds: its committed record holds status 0 and its result (R368, R369), and its effect holds. -/
def CallDoes (i : CallReq → Instr) (r : CallReq) (s : State) (res : Nat) (P : State → Prop) : Prop :=
  Completes (i r) s fun t =>
    (t.svc.callRec r.caller r.seq).map (fun c => (c.committed, c.status, c.result)) = some (true, 0, BitVec.ofNat 256 res) ∧ P t

/-- The call waits: its record stands as started, and its effect so far holds (R369). -/
def CallWaits (i : CallReq → Instr) (r : CallReq) (s : State) (P : State → Prop) : Prop :=
  Completes (i r) s fun t => (t.svc.callRec r.caller r.seq).map (·.committed) = some false ∧ P t

/-- The image and queue calls: an image that parses joins the registered ones, an unused one leaves; a queue is created on a
number that is free or whose queue is torn down without unfinished records, under an address space that no other queue has, torn down,
reset to its first slot, and its error counts are told; a teardown waits until the hearths that run its records stand at their stops,
whose contexts are then free and whose records end cancelled, and until the service pair has completed its graphs (R98, R308, R350, R371,
R373, R375). That the new address space has no mappings, and that a torn queue's number may be taken again, is the model's choice, log
entry 62, and that a teardown waits for a migration in the address space, log entry 63. -/
def Obligations.ImageAndQueueCalls : Prop :=
  ∀ (s : State) (r : CallReq),
    (∀ q id bs im, CallFresh s r → r.zeroFrom 3 = true → s.queueArg r (r.arg 2) = .ok q →
      freeNumber (s.svc.images.map (·.id)) (r.pick 0) 1 65535 = some id →
      s.unitRead (s.queueAgent q) (r.arg 0) (r.argN 1) = some bs → parseImage bs id q (s.queues[q]).sec = .ok im →
      CallDoes .imageRegister r s id fun t => t.svc.images = s.svc.images ++ [im] ∧ t.mem = s.mem ∧ t.qm = s.qm) ∧
    (∀ i, CallFresh s r → r.zeroFrom 1 = true → r.argN 0 < 65536 → s.svc.images.find? (fun x => x.id == r.argN 0) = some i →
      i.sec = false → s.imageUsed i = false →
      CallDoes .imageUnregister r s 0 fun t =>
        t.svc.images = s.svc.images.filter (fun x => x.id != r.argN 0) ∧ t.mem = s.mem ∧ t.qm = s.qm) ∧
    (∀ (q : Fin 2048) n vec,
      let taken (a : Nat) : Prop := ∃ p : Fin 2048, p ≠ q ∧ (s.queues[p]).live = true ∧ (s.queues[p]).asid = a
      CallFresh s r → r.zeroFrom 3 = true → r.argN 0 = q.val →
      r.arg 2 = BitVec.ofNat 64 (n + 256 * vec) → 4 ≤ n → n ≤ 16 → vec ≤ 63 → r.argN 1 % 64 = 0 →
      (s.queues[q]).live = false ∨ ((s.queues[q]).torn = true ∧ ∀ x, x ∈ s.qm.recs → x.wq ≠ q) →
      (∃ a, a < 512 ∧ ¬ taken a) →
      ∃ asid, asid < 512 ∧ ¬ taken asid ∧ CallDoes .queueCreate r s asid fun t =>
        t.queues[q] = { WorkQueue.reset with live := true, asid := asid, ring := r.argN 1, n := n, vec := vec, pair := s.svc.leader } ∧
        (∀ p : Fin 2048, p ≠ q → t.queues[p] = s.queues[p]) ∧ ∀ x, x ∈ t.roots → x.asid ≠ some asid) ∧
    (∀ q, CallFresh s r → r.zeroFrom 1 = true → s.queueArg r (r.arg 0) = .ok q →
      let rests (t : State) : Prop := ∀ p : Fin 2048, p ≠ q → t.queues[p] = s.queues[p]
      (s.queueMoving q = true →
        CallWaits .queueTeardown r s (fun t => t.queues = s.queues ∧ t.qm = s.qm) ∧
        CallWaits .queueReset r s (fun t => t.queues = s.queues ∧ t.qm = s.qm)) ∧
      (s.queueMoving q = false → (∀ x, x ∈ s.qm.recs → x.wq ≠ q) → (∀ h, (s.hearth h).runsQueue q = false) →
        (∀ k, k ∈ s.cirrus.tasks → k.wq ≠ q) →
        (QueueServed s q →
          CallDoes .queueTeardown r s 0 (fun t => t.queues[q] = { s.queues[q] with torn := true } ∧ rests t ∧
            (∀ g, g ∈ t.qm.graphs → g.wq ≠ q) ∧ t.qm.recs = s.qm.recs) ∧
          CallDoes .queueReset r s 0 (fun t => t.queues[q] = { s.queues[q] with torn := false, head := 0, dbell := 0 } ∧ rests t ∧
            ∀ g, g ∈ t.qm.graphs → g.wq ≠ q)) ∧
        (¬ QueueServed s q → (∃ g, g ∈ s.qm.graphs ∧ g.wq = q) → CallWaits .queueTeardown r s fun t =>
          t.queues[q] = { s.queues[q] with torn := true } ∧ rests t ∧ ∃ g, g ∈ t.qm.graphs ∧ g.wq = q)) ∧
      (s.queueMoving q = false → s.qm.graphs = [] → s.cirrus.tasks = [] → s.saved = [] → ∀ (l : Loc) x,
        s.qm.recs = [x] → x.wq = q → x.running = true → (s.ctx l).run = .task x.addr q →
        (∀ k, k ≠ l → (s.ctx k).run.ofQueue q = false) → (s.hearth l.h).idle = false →
        ((∃ c, c ∈ (s.hearth l.h).cmds ∧ c.q = .vector ∧ c.stage = .started ∧ c.performed = false) →
          CallWaits .queueTeardown r s fun t => t.queues[q] = { s.queues[q] with torn := true } ∧ t.qm.recs = s.qm.recs ∧
            t.hearth l.h = { s.hearth l.h with halting := true, purge := some q }) ∧
        (∀ ks, (∀ h c, c ∈ (s.hearth h).cmds → c.run.ofQueue q = false) → (s.hearth l.h).cmds = [] → (s.hearth l.h).arrQ = [] →
          RecMem s q x.addr ks → recParent (recBits s ks) = 0 → recCfen (recBits s ks) = false →
          CallDoes .queueTeardown r s 0 fun t => t.queues[q] = { s.queues[q] with torn := true } ∧ t.qm.recs = [] ∧
            bitsN (recBits t ks) 256 3 = 5 ∧ (t.ctx l).st = .free ∧ (t.hearth l.h).halting = false ∧
            ∀ c, c ≠ l.c → ¬ (r.caller = 1 + l.h.val ∧ r.ctx = c) → ((t.hearth l.h).ctx c).st = ((s.hearth l.h).ctx c).st))) ∧
    (∀ q (l : Loc), s.leaderLive = true → r.seq = 0 → r.zeroFrom 1 = true → s.queueArg r (r.arg 0) = .ok q →
      r.caller = 1 + l.h.val → r.ctx = l.c → s.frozen l.h = false → (s.ctx l).st = .waiting → (s.ctx l).wait = .svc →
      Completes (.queueErrors r) s fun t => (t.ctx l).get 10 = 0 ∧
        ((t.ctx l).get 11).toNat = (s.queues[q]).ignored % 2 ^ 32 + (s.queues[q]).noCompletion % 2 ^ 32 * 2 ^ 32 ∧
        t.queues = s.queues ∧ OnlyCtx l s t)

/-- The mapping calls: a mapping stores the leaf it describes in the entry that its address walks to, a removal clears it, and a
change of home rewrites its home alone; each leaves the leaf the pin that its home asks for, and a home that is refused changes nothing;
a migration first holds the page, and then moves its bytes and its frame and lets the accesses go on that it holds with any of their
bytes; the age limit is set (R232, R253, R312, R321, R324, R371). That a removal and a change of home wait for a migration is
the model's choice, log entry 63; the picks of the service OS are log entry 9, and what a larger leaf in the way does is log entry 29. -/
def Obligations.MappingCalls : Prop :=
  ∀ (s : State) (r : CallReq) (q : Fin 2048),
    let a := r.arg 1
    let owner : Fin 5 := Fin.ofNat 5 (ownerOf a)
    let entryIs (t : State) (at_ : Nat) (e : Word) : Prop := tableEntry t.mem owner.val at_ = e
    let leaf (sh : Nat) : Nat × Word := ((s.queues[q]).asid, BitVec.ofNat 64 (a.toNat / 2 ^ sh * 2 ^ sh))
    let pinIs (t : State) (home holder sh key : Nat) : Prop := t.pins = (s.pins.filter fun p => p.leaf != some (leaf sh)) ++
      if home = 1 ∨ home = 2 then [⟨some (leaf sh), key, 2 ^ sh, home, holder⟩] else []
    (CallFresh s r →
      (∀ sz home tgt root u at_, r.zeroFrom 5 = true → sz < 3 → home < 4 → tgt = 2 ∨ tgt = 3 →
        r.arg 2 = BitVec.ofNat 64 (sz + 16 * home + 64 * tgt + 7 * 2 ^ 20) → mapAddrOk a (pageBits sz) = true →
        r.argN 3 % 2 ^ pageBits sz = 0 → r.argN 3 < 2 ^ 48 → s.queueArg r (r.arg 0) = .ok q →
        let key := physKey (if tgt = 2 then 5 else 6) (r.argN 3)
        s.pinRefused owner.val home (r.argN 4) (leaf (pageBits sz)) key (2 ^ pageBits sz) = none →
        s.rootOf ⟨some (s.queues[q]).asid, false, true⟩ a = some root →
        s.leafSlot owner a (pageBits sz) root (levelsTo (pageBits sz)) (r.choice.drop 1) = some (u, at_) →
        CallDoes .map r s 0 fun t =>
          entryIs t at_ (BitVec.ofNat 64 (31 + r.argN 3 / 65536 * 65536 + tgt * 2 ^ 60 + home * 2 ^ 62)) ∧
          SameOutside (physKey owner.val at_) 8 u.mem t.mem ∧ t.roots = s.roots ∧ pinIs t home (r.argN 4) (pageBits sz) key) ∧
      (∀ at_ e sh, mapAddrOk a 0 = true → s.queueArg r (r.arg 0) = .ok q → s.mapping q a = some (at_, e, sh) →
        (s.isMoving (pageKey owner.val e sh) = false →
          (r.zeroFrom 2 = true → CallDoes .unmap r s 0 fun t =>
            entryIs t at_ 0 ∧ SameOutside (physKey owner.val at_) 8 s.mem t.mem ∧ pinIs t 0 0 sh 0) ∧
          (∀ home, r.zeroFrom 4 = true → r.argN 2 = home → home < 4 →
            s.pinRefused owner.val home (r.argN 3) (leaf sh) (pageKey owner.val e sh) (2 ^ sh) = none →
            CallDoes .setHome r s 0 fun t => pinIs t home (r.argN 3) sh (pageKey owner.val e sh) ∧
              (∃ e', entryIs t at_ e' ∧ bitsN e' 62 2 = home ∧ bitsN e' 0 62 = bitsN e 0 62) ∧
              SameOutside (physKey owner.val at_) 8 s.mem t.mem) ∧
          (∀ tgt, r.zeroFrom 4 = true → r.argN 2 = tgt → tgt = 2 ∨ tgt = 3 → r.argN 3 < 2 ^ 48 → r.argN 3 % 2 ^ sh = 0 →
            CallWaits .migrate r s fun t => t.mem = s.mem ∧
              t.svc.moving = s.svc.moving ++ [⟨r.caller, r.seq, pageKey owner.val e sh, 2 ^ sh, (s.queues[q]).asid,
                BitVec.ofNat 64 (a.toNat / 2 ^ sh * 2 ^ sh)⟩])) ∧
        (∀ home st, r.zeroFrom 4 = true → r.argN 2 = home → home < 4 →
          s.pinRefused owner.val home (r.argN 3) (leaf sh) (pageKey owner.val e sh) (2 ^ sh) = some st →
          Completes (.setHome r) s fun t => t.mem = s.mem ∧ t.pins = s.pins ∧
            (t.svc.callRec r.caller r.seq).map (fun c => (c.committed, c.status)) = some (true, st)) ∧
        (s.isMoving (pageKey owner.val e sh) = true → r.zeroFrom 2 = true →
          CallWaits .unmap r s fun t => t.mem = s.mem ∧ t.svc.moving = s.svc.moving)) ∧
      (r.zeroFrom 1 = true → 1000 ≤ r.argN 0 → r.argN 0 ≤ 1000000 →
        CallDoes .ageLimit r s 0 fun t => t.qm = { s.qm with ageLimit := r.argN 0 } ∧ t.mem = s.mem)) ∧
    (∀ at_ e sh tgt asid va, CallServed s r → (s.svc.callRec r.caller r.seq).map (·.committed) = some false →
      mapAddrOk a 0 = true → s.queueArg r (r.arg 0) = .ok q → s.mapping q a = some (at_, e, sh) → 16 ≤ sh →
      r.zeroFrom 4 = true → r.argN 2 = tgt → tgt = 2 ∨ tgt = 3 → r.argN 3 < 2 ^ 48 → r.argN 3 % 2 ^ sh = 0 →
      s.svc.moving = [⟨r.caller, r.seq, pageKey owner.val e sh, 2 ^ sh, asid, va⟩] →
      (∀ h, (s.hearth h).sideLog = []) →
      CallDoes .migrate r s 0 fun t =>
        let old := pageKey owner.val e sh
        let new := physKey (if tgt = 2 then 5 else 6) (r.argN 3)
        (∃ e', entryIs t at_ e' ∧ bitsN e' 16 32 = r.argN 3 / 65536 ∧ bitsN e' 60 2 = tgt ∧ bitsN e' 0 16 = bitsN e 0 16 ∧
          bitsN e' 62 2 = bitsN e 62 2) ∧
        (∀ k, k < 2 ^ sh → new + k < physKey owner.val at_ ∨ physKey owner.val at_ + 8 ≤ new + k →
          t.mem.read (new + k) = s.mem.read (old + k)) ∧
        t.svc.moving = [] ∧
        (∀ (l : Loc) f i e2 sh2, (s.ctx l).st = .held → (s.ctx l).fault = some f → f.trap = false →
          i < accessBytes ((s.hearth l.h).heldInstr (s.ctx l)) →
          s.leaf ((s.hearth l.h).agent (s.ctx l)) (f.addr + BitVec.ofNat 64 i) = .ok (e2, sh2) →
          let p := leafPlace (ownerOf (f.addr + BitVec.ofNat 64 i)) e2 sh2 (f.addr + BitVec.ofNat 64 i)
          old ≤ physKey p.1 p.2 → physKey p.1 p.2 < old + 2 ^ sh → (t.ctx l).st = .running ∧ (t.ctx l).fault = none))

/-- The transform routine, flash and index calls: a routine that its signature admits is loaded, or the call waits while it is in use;
flash goes to a queue where it is free, and is written and freed; an index is created with its attributes and pages for its log,
destroyed while nothing uses it, and merged; and the pages of a queue's range or of an index may be repaired (R272, R273, R334, R335,
R342, R345, R347, R376). That a `DIM` field of 0 stands for 2,048 is the model's choice, log entry 38, a page of the log for each entry is
log entry 70, and the service OS's picks of flash addresses and index numbers are log entry 9. -/
def Sys2Proof.Claims.RoutineFlashAndIndexCalls : Prop :=
  ∀ (s : State) (r : CallReq), CallFresh s r →
    (∀ (h : Fin 640) bs x, r.zeroFrom 3 = true → r.argN 0 = h.val → (s.hearth h).sec = false →
      s.unitRead ⟨(s.hearth h).asid, false, false⟩ (r.arg 1) (r.argN 2) = some bs → parseRoutine s.svc.routineKeys bs = some x →
      (s.routineUsed h x.num = false → (s.hearth h).routines = [] → x.code.length ≤ 49152 →
        CallDoes .routineLoad r s 0 fun t => (t.hearth h).routines = [x] ∧ t.mem = s.mem) ∧
      (s.routineUsed h x.num = true →
        CallWaits .routineLoad r s fun t => (t.hearth h).routines = (s.hearth h).routines ∧ t.mem = s.mem)) ∧
    (∀ (h : Fin 640) x, r.zeroFrom 2 = true → r.argN 0 = h.val → r.argN 1 = x.num → x.num < 65536 → (s.hearth h).sec = false →
      x ∈ (s.hearth h).routines → s.routineUsed h x.num = false →
      CallDoes .routineUnload r s 0 fun t =>
        (t.hearth h).routines = (s.hearth h).routines.filter (fun y => y.num != x.num) ∧ t.mem = s.mem) ∧
    (∀ q a, r.zeroFrom 2 = true → s.queueArg r (r.arg 0) = .ok q → r.argN 1 ≠ 0 → r.argN 1 % 16384 = 0 →
      r.pick 0 = some a → s.flashFreeAt a (r.argN 1) = true →
      CallDoes .flashAllocate r s a fun t =>
        t.cirrus = { s.cirrus with ranges := s.cirrus.ranges ++ [⟨q, a, r.argN 1, (s.queues[q]).sec⟩] }) ∧
    (∀ q, r.zeroFrom 2 = true → s.queueArg r (r.arg 0) = .ok q → r.argN 1 ≠ 0 → r.argN 1 % 16384 = 0 →
      s.cirrus.ranges = [] → s.cirrus.reserved = [] → (∀ i : Fin 64, s.cirrus.indexes[i] = none) → r.argN 1 ≤ 2 ^ 45 →
      r.choice = [] →
      CallDoes .flashAllocate r s 0 fun t =>
        t.cirrus = { s.cirrus with ranges := [⟨q, 0, r.argN 1, (s.queues[q]).sec⟩] }) ∧
    (∀ g bs, r.zeroFrom 3 = true → r.argN 2 ≠ 0 → r.argN 2 % 512 = 0 → r.argN 0 % 512 = 0 →
      s.rangeAt (r.argN 0) (r.argN 2) = some g → g.sec = false →
      s.unitRead (s.queueAgent g.wq) (r.arg 1) (r.argN 2) = some bs →
      CallDoes .flashWrite r s 0 fun t =>
        t.cirrus.flash.bytes (r.argN 0) (r.argN 2) = bs ∧ SameOutside (r.argN 0) (r.argN 2) s.cirrus.flash t.cirrus.flash ∧
        t.mem = s.mem) ∧
    (∀ g, r.zeroFrom 2 = true → r.argN 1 ≠ 0 → r.argN 1 % 16384 = 0 → r.argN 0 % 16384 = 0 →
      s.rangeAt (r.argN 0) (r.argN 1) = some g → g.sec = false →
      CallDoes .flashFree r s 0 fun t =>
        (∀ x, x ∈ t.cirrus.ranges → x ∈ s.cirrus.ranges ∨ (x.wq = g.wq ∧
          ((x.base = g.base ∧ x.len = r.argN 0 - g.base) ∨
           (x.base = r.argN 0 + r.argN 1 ∧ x.len = g.base + g.len - (r.argN 0 + r.argN 1))))) ∧
        g ∉ t.cirrus.ranges ∧ t.cirrus.flash = s.cirrus.flash) ∧
    (∀ q (i : Fin 64) dim et me deg place, r.zeroFrom 4 = true → 8 ≤ dim → dim ≤ 2048 → et < 3 → me < 3 → (me = 2 → et = 0) →
      4 ≤ deg → deg ≤ 48 → r.arg 1 = BitVec.ofNat 64 (dim % 2048 + 2 ^ 12 * et + 2 ^ 16 * me + 2 ^ 18 * deg) →
      1024 ≤ r.argN 2 → r.argN 2 ≤ 1048576 → 256 ≤ r.argN 3 → r.argN 3 ≤ r.argN 2 → s.queueArg r (r.arg 0) = .ok q →
      r.choice = [i.val, place] → s.cirrus.indexes[i] = none → s.flashFreeAt place (r.argN 2 * 16384) = true →
      CallDoes .indexCreate r s i.val fun t => ∃ x, t.cirrus.indexes[i] = some x ∧ x.wq = q ∧ x.dim = dim ∧ x.degree = deg ∧
        some x.ety = [IdxTy.int8, .e4m3, .bf16][et]? ∧ some x.metric = [Metric.l2, .ip, .hamming][me]? ∧
        x.logcap = r.argN 2 ∧ x.mthresh = r.argN 3 ∧ x.logpos = 0 ∧ x.entries = [] ∧
        t.cirrus.reserved = s.cirrus.reserved ++ [(i.val, place / 16384, r.argN 2)] ∧
        (∀ j, j ≠ i → t.cirrus.indexes[j] = s.cirrus.indexes[j])) ∧
    (∀ (i : Fin 64) x, r.zeroFrom 1 = true → r.argN 0 = i.val → s.cirrus.indexes[i] = some x → x.sec = false →
      (s.indexUsed i = false → CallDoes .indexDestroy r s 0 fun t =>
        t.cirrus.indexes[i] = none ∧ (∀ p, p ∈ t.cirrus.reserved → p.1 ≠ i.val) ∧
        ∀ j, j ≠ i → t.cirrus.indexes[j] = s.cirrus.indexes[j]) ∧
      (x.merge = none → CallDoes .mergeStart r s 0 fun t =>
        t.cirrus.indexes[i] = some { x with merge := some (x.logpos, x.events) } ∧
        ∀ j, j ≠ i → t.cirrus.indexes[j] = s.cirrus.indexes[j])) ∧
    (∀ g, r.zeroFrom 2 = true → r.argN 1 ≠ 0 → r.argN 0 + r.argN 1 ≤ 2 ^ 45 → s.rangeAt (r.argN 0) (r.argN 1) = some g →
      g.sec = false → CallDoes .mediaRepair r s 0 fun t => t.cirrus = s.cirrus ∧ t.mem = s.mem) ∧
    (∀ (i : Fin 64) x, r.zeroFrom 2 = true → r.argN 1 ≠ 0 → r.argN 0 + r.argN 1 ≤ 2 ^ 45 → s.rangeAt (r.argN 0) (r.argN 1) = none →
      s.cirrus.indexes[i] = some x → (∀ (j : Fin 64) y, s.cirrus.indexes[j] = some y → y.sec = false) →
      (∀ p, r.argN 0 / 16384 ≤ p → p * 16384 < r.argN 0 + r.argN 1 → s.indexHas i p = true) →
      CallDoes .mediaRepair r s 0 fun t => t.cirrus = s.cirrus ∧ t.mem = s.mem)

/-- The power, trace, Hob, record and replay calls: a new request, from the next grant period on; a new ring, with the drops of the old
one still counted; a session; a log that begins empty and is written to its address when it ends, and the turns, results and host memory
of the log that stands at an address, which a replay forces (R280, R284, R286 to R288,
R378). That a ring is emptied only by the call that assigns it is log entry 24, what record mode keeps is log entry 41, the mean watts
are a free value, log entry 46, and the numbers of sessions begin at 1, log entry 35. -/
def Sys2Proof.Claims.PowerTraceAndReplayCalls : Prop :=
  ∀ (s : State) (r : CallReq),
    (CallFresh s r →
      (r.zeroFrom 1 = true → 900 ≤ r.argN 0 → r.argN 0 ≤ 1800 → CallDoes .powerSet r s 0 fun t =>
        t.power = { s.power with request := r.argN 0 }) ∧
      (∀ h : Fin 640, r.zeroFrom 3 = true → r.argN 0 = h.val → s.svc.hobFw = true → r.argN 1 % 64 = 0 → r.argN 2 % 64 = 0 →
        CallDoes .traceRing r s 0 fun t => (t.hearth h).trace =
          { (s.hearth h).trace with addr := r.arg 1, bytes := r.argN 2, pos := 0 }) ∧
      (r.zeroFrom 3 = true → s.svc.hobFw = true → r.argN 0 = 0 ∨ (4 ≤ r.argN 0 ∧ r.argN 0 ≤ 24) →
        CallDoes .chimney r s 0 fun t =>
          t.chim = { s.chim with k := r.argN 0, addr := r.arg 1, bytes := r.argN 2, pos := 0 }) ∧
      (∀ h : Fin 640, r.zeroFrom 1 = true → r.argN 0 = h.val → s.svc.hobFw = true → (s.hearth h).hob.sess = none →
        (∀ g, (s.hearth g).hob.sess ≠ some s.svc.nextSess) →
        CallDoes .hobAttachCall r s s.svc.nextSess fun t =>
          (t.hearth h).hob.sess = some s.svc.nextSess ∧ t.svc.nextSess = s.svc.nextSess + 1) ∧
      (∀ h : Fin 640, r.zeroFrom 1 = true → s.svc.hobFw = true → (s.hearth h).hob.sess = some (r.argN 0) →
        (∀ g, g ≠ h → (s.hearth g).hob.sess ≠ some (r.argN 0)) → (s.hearth h).hob.stopped = false →
        CallDoes .hobDetach r s 0 fun t => (t.hearth h).hob.sess = none ∧ (t.hearth h).hob.brks = [] ∧
          (t.hearth h).flags = (s.hearth h).flags) ∧
      (r.zeroFrom 3 = true → r.arg 0 = 1 → CallDoes .recordMode r s 0 fun t =>
        t.svc.recording = true ∧ t.turns = [] ∧ t.svc.recorded = [] ∧ t.svc.results = [] ∧ t.svc.recAddr = r.arg 1 ∧
        t.svc.recBytes = r.argN 2) ∧
      (r.zeroFrom 3 = true → r.arg 0 = 0 →
        (s.svc.recording = false → CallDoes .recordMode r s 0 fun t => t.svc.logs = s.svc.logs ∧ t.svc.recording = false ∧ t.mem = s.mem) ∧
        (s.svc.recording = true → CallDoes .recordMode r s 0 fun t => t.svc.recording = false ∧ ∃ g, t.svc.logs = g :: s.svc.logs ∧
          g.turns = s.turns ∧ g.results = s.svc.results ∧ g.recorded = s.svc.recorded ∧ g.hostImage = s.svc.hostImage ∧
          g.bytes.length = min s.svc.recBytes (64 * (s.turns.length + s.svc.results.length + s.svc.recorded.length + 1)) ∧
          ∀ ks, rangeOk s.svc.recAddr g.bytes.length = true → ownerOf s.svc.recAddr < 5 →
            s.xlatN osAgent .store s.svc.recAddr g.bytes.length = .ok ks → ks.Nodup →
            ks.map t.mem.read = g.bytes ∧ ∀ y, y ∉ ks → t.mem.read y = s.mem.read y)) ∧
      (∀ g, r.zeroFrom 2 = true → s.closeLog.logAt (r.arg 0) (r.argN 1) = some g → CallDoes .replay r s 0 fun t =>
        t.svc.script = g.turns ∧ t.svc.forcedResults = g.results ∧ t.svc.replay = some g.recorded ∧ t.agenda = s.agenda ∧
        t.svc.recording = false ∧ (g.hostImage.wf = true → ∀ k, hostCell k = true → t.mem.read k = g.hostImage.read k)) ∧
      (r.zeroFrom 2 = true → s.closeLog.logAt (r.arg 0) (r.argN 1) = none → Completes (.replay r) s fun t =>
        (t.svc.callRec r.caller r.seq).map (fun c => (c.committed, c.status)) = some (true, 6) ∧ t.mem = s.mem)) ∧
    (∀ l : Loc, s.leaderLive = true → r.seq = 0 → r.zeroFrom 0 = true → r.caller = 1 + l.h.val → r.ctx = l.c →
      s.frozen l.h = false → (s.ctx l).st = .waiting → (s.ctx l).wait = .svc →
      Completes (.powerQuery r) s fun t => (t.ctx l).get 10 = 0 ∧
        ((t.ctx l).get 11).toNat = s.power.request % 2 ^ 16 + s.power.inforce % 2 ^ 16 * 2 ^ 16 + s.power.src % 4 * 2 ^ 32 ∧
        t.power = s.power ∧ OnlyCtx l s t)

/-! ## Decoding, the step, the invariant -/

/-- Decoding the encoding of a well-formed scalar instruction gives it back, with every operand (R75, R79 to R83). -/
def Obligations.ScalarDecodeOfEncode : Prop :=
  ∀ (i : Instr) (r : RW), i.wellFormed = true → (∀ w, i ≠ .illegalInstruction w) → encodeRW i = some r →
    decodeScalar r.toWord = i

/-- Decoding the encoding of a command gives back its operation and every field of it (R85 to R96). -/
def Obligations.CommandDecodeOfEncode : Prop :=
  ∀ (i : Instr) (w : CmdWord), encodeCmd i = some w → decodeCmd w = some i

/-- Words written out from the encodings of the spec decode to what they stand for: `addi a0, a1, −1`, `k.flrd a0, fl200`,
`k.tick t0`, `k.drain`, and the zero word to an illegal instruction (R75, R79 to R83). -/
def Obligations.WordsDecodeAsWritten : Prop :=
  decodeScalar 0xFFF58513#32 = .integerOp (.ri .addi 10 11 0xFFF#12) ∧
  decodeScalar 0x8C80550B#32 = .kFlrd 10 200 ∧ decodeScalar 0x0000428B#32 = .kTick 5 ∧ decodeScalar 0x0200400B#32 = .kDrain ∧
  decodeScalar 0#32 = .illegalInstruction 0

/-- A step in which the focus context's turn comes, placed before all others or next on the agenda with nothing due, lets one cycle pass
and the context execute the instruction that its bytes decode to, when no interrupt, asynchronous trap, breakpoint or stop stands before
it; nothing is added, but that a hearth which Hob steps stops again (R75, R281, R283, R327). That a turn takes one cycle, which the cycle
counters count, and the order of the turns are the model's, log entries 1 and 11. -/
def Sys2Proof.Claims.StepExecutesAtThePc : Prop :=
  ∀ s t u : State,
    (s.forced = some (.run s.foc) ∧ u = { s with cycle := s.cycle + 1, forced := none }) ∨
      (s.forced = none ∧ s.due = none ∧ s.dueDispatch = none ∧ s.svc.recording = false ∧ s.svc.script = [] ∧
        ((s.agenda = [] ∧ u = { s with cycle := s.cycle + 1 }) ∨
          ∃ rest, s.agenda = .run s.foc :: rest ∧ u = { s with cycle := s.cycle + 1, agenda := rest })) →
    s.fc.st = .running → s.fc.wait = .none → s.frozen s.foc.h = false → s.fc.irqs = 0 → s.fc.pend = [] →
    s.fh.hob.sess = none → s.fh.hob.passed = [] →
    exec (decodeScalar (s.fetchWord s.foc)) u = .next t →
    step s = .next (t.settle s.foc) ∧ ((t.hearth s.foc.h).hob.step ≠ some s.foc.c → step s = .next t)

/-- An engine turn performs the operation that a started command's word decodes to (R215). -/
def Sys2Proof.Claims.StepPerformsTheDecodedCommand : Prop :=
  ∀ (s t u : State) (h : Fin 640) (seq quota : Nat) (picks : List Nat) (c : Cmd) (i : Instr),
    (s.forced = some (.engine h seq quota picks) ∧ u = { s with cycle := s.cycle + 1, forced := none }) ∨
      (s.forced = none ∧ s.due = none ∧ s.dueDispatch = none ∧ s.svc.recording = false ∧ s.svc.script = [] ∧
        ∃ rest, s.agenda = .engine h seq quota picks :: rest ∧ u = { s with cycle := s.cycle + 1, agenda := rest }) →
    (s.hearth h).cmd? seq = some c → c.stage = .started → c.performed = false → (s.hearth h).idle = false →
    (s.hearth h).copyHeld = false → decodeCmd c.word = some i →
    exec i { u.setHearth h { s.hearth h with hand := c, quota := quota, picks := picks } with foc := ⟨h, c.ctx⟩ } = .next t →
    step s = .next (t.storeHand h)

/-- Every step keeps package memory and flash in canonical form: addresses strictly rising, no listed byte that reads as an unlisted one
does, which is the model's choice of 0 (log entry 3). -/
def Obligations.EveryStepKeepsMemoryCanonical : Prop :=
  ∀ s t : State, s.memOk = true → step s = .next t → t.memOk = true

/-- The machine after reset: nothing runs, memory lists nothing and is canonical, every flag and register is 0, the tick count is 0 and
no service pair leads (R5, R28). Where the spec gives a register or a byte no reset value, the zero is the model's choice (log entries
3, 34, 35 and 68). -/
def Obligations.ResetState : Prop :=
  State.reset.memOk = true ∧ State.reset.mem = [] ∧ State.reset.tick = 0 ∧ State.reset.leaderLive = false ∧
  (∀ h fl, (State.reset.hearth h).flag fl = 0) ∧
  (∀ l x, (State.reset.ctx l).get x = 0 ∧ (State.reset.ctx l).st = .free ∧ (State.reset.ctx l).pc = 0) ∧
  (∀ h, (State.reset.hearth h).cmds = [] ∧ (State.reset.hearth h).scratch = [] ∧ (State.reset.hearth h).sa = SortArr.reset)

/-- Every instruction answers a next state: no instruction of this machine stops it. -/
def Obligations.EveryInstructionAnswersANextState : Prop :=
  ∀ (i : Instr) (s : State), ∃ t, exec i s = .next t

/-! ## The statements in groups: each states its parts together -/

/-- Every integer instruction completes: rd receives its result, x0 discards it, and nothing else but the pc and the count of retired
instructions changes (R75). The results of the register-register instructions of RV64I, M, Zba and Zbb as exact integers or bit by bit
(R75: the extensions as RISC-V gives them), the corners of division among them. The results of the immediate forms, of the shifts by an
immediate, of `lui` and `auipc`, and of the sign and zero extensions, `orc.b` among them (R75). The fences have no effect but to go on
(R76). -/
def Obligations.ScalarIntegerInstructions : Prop :=
  Claims.IntegerOpWritesOnlyRd ∧ Claims.IntegerResultsAsExactIntegers ∧ Claims.ImmediateResultsAsExactIntegers ∧
    Claims.FencesOnlyGoOn

/-- A load of memory that translates reads its bytes little-endian and extends them by its kind, and writes nothing else (R76, R239,
R317). A store to memory that translates writes the low bytes of its register, little-endian, each at the place its address translates
to; every other byte of memory, every register and every flag keeps its value, and the only other effect is that reservations and line
ownership may be lost (R76, R239). -/
def Obligations.LoadsAndStoresMoveBytes : Prop :=
  Claims.LoadReadsMemory ∧ Claims.StoreWritesItsBytes

/-- A scalar access of the scratchpad aperture waits while the scoreboard holds it, in its context's aperture slot under the next
sequence number with the granules of its bytes, and otherwise reads or writes the scratchpad of its own hearth, with every byte outside
the stored run unchanged (R224, R230). A load or store that waits in the aperture slot performs when the scoreboard allows it, in the
place it holds in the sequence order (R224). -/
def Obligations.ApertureAccesses : Prop :=
  Claims.ApertureAccessesTheScratchpad ∧ Claims.WaitingApertureAccessPerforms

/-- The cluster-scope atomics on an address whose owner, scope and home admit them: once the cache in which they execute owns the line
they read the old value, write the value of R120's table, and give back the old value, and no other byte changes; before that they wait
for its ownership (R30, R120, R233). A misaligned atomic raises the access fault and touches no byte: the load access fault for `LR`,
the store one for the others (R76, R120). -/
def Obligations.ClusterAtomicsAndMisalignment : Prop :=
  Claims.ClusterAtomicsFollowTheTable ∧ Claims.MisalignedAtomicsFault

/-- A CSR instruction on a register that exists and that its mode may reach gives rd the old value and writes the new one where it
writes at all, with reserved bits ignored; a register that does not exist, or that the mode may not reach or write, raises the
illegal-instruction trap and changes nothing else (R10, R41 to R43, R76). The machine-mode registers and their fields are RISC-V's,
taken by name (log entry 4). A CSR instruction on the nest table waits while an `mx.cfg` of its context is not complete or an `mx.go`
of it is still queued, and then reads and writes the shadow table of its context; a written reserved bit is ignored (R97, R121). -/
def Obligations.CsrInstructions : Prop :=
  Claims.CsrInstructionsReadThenWrite ∧ Claims.NestCsrsWaitForTheTable

/-- The instructions whose effect is a trap, from U mode: `ECALL` gives cause 8, an unassigned word the illegal-instruction trap with
the word, `k.trap` the software trap with its code and its own address to return to, and `EBREAK` without a Hob session the breakpoint
exception (R76, R84, R119, R327). What M mode's registers are, and that a trap of M mode goes to the service OS, is the model's
reading, log entries 4 to 6. `ECALL` from M mode makes the context wait for the service pair, and `EBREAK` under a Hob session stops
the hearth behind it (R281, R370). That the pc then stands behind the `EBREAK` is log entry 19. `MRET` in M mode returns: the mode
comes from `MPP`, the interrupt enable from `MPIE`, the pc from `mepc`; `MPIE` becomes 1 and `MPP` names U (R75, R327). -/
def Obligations.TrapsAreTakenAndReturn : Prop :=
  Claims.TrapInstructionsEnterTheRuntime ∧ Claims.CallsAndStopsUnderPrivilege ∧ Claims.MretRestoresModeAndPc

/-- `WFI` in M mode goes on at once under a pending interrupt, else waits; the wait ends when an interrupt becomes pending, or 1,000
reference ticks after it began (R76). At an instruction boundary in U mode the first pending asynchronous trap is taken: its cause, its
async word and its faulting address are saved, and the return address names the next instruction (R327). -/
def Obligations.WfiAndAsyncTraps : Prop :=
  Claims.WfiEndsAtInterruptOrTimeout ∧ Claims.AsyncTrapsAreTakenInOrder

/-- `k.tick` gives rd the reference ticks since package reset (R118). The scalar flag instructions: a set, a read, and a signed
addition that clamps at 0 and saturates at 2^32 − 1; only an addition of a positive amount that reaches 2^32 − 1 traps, after the
update, behind the instruction (R38, R104). -/
def Obligations.TickAndFlagInstructions : Prop :=
  Claims.TickReadsTheReferenceCount ∧ Claims.ScalarFlagInstructions

/-- `k.win` takes the four fields of a window from its registers and checks them in order: a reserved bit raises the
illegal-instruction trap; `LEN` 0 writes the register, an invalid window; no rows, a length or pitch above 2,097,152 or a last byte
past 2,097,151 raises the window-out-of-range trap; else all 128 bits are written. On a trap nothing else changes (R33, R109).
`k.winrd` gives rd the low or the high half of its window register (R110). -/
def Obligations.WindowRegisterInstructions : Prop :=
  Claims.WindowWritesAreChecked ∧ Claims.WindowReadsGiveHalves

/-- `k.rgn.enter` pushes its identifier below depth 8, `k.rgn.leave` pops the top above depth 0; at the ends both raise the
region-stack trap and leave the stack (R34, R116). `k.arm` arms the free contexts of its arm mask, frees the armed ones of its disarm
mask, and leaves every other; bits above 7, or a context in both masks, raise the illegal-instruction trap (R113). -/
def Obligations.RegionStackAndArming : Prop :=
  Claims.RegionStackPushesAndPops ∧ Claims.ArmChangesFreeAndArmedContexts

/-- A `k.wait` in mode any takes its lowest condition that holds, one in mode all takes all of them together when they all hold and
fit; it gives rd which, and a flag loses exactly what was taken. A wait that cannot return, in mode all also one of which only some
conditions hold or whose takes do not fit, takes nothing: it waits to its deadline, or returns 0 at once under a time-out of 0. A
reserved pattern in a condition raises the illegal-instruction trap, and no flag changes (R105 to R107). A waiting `k.wait` returns
once its conditions hold, in either mode as `k.wait` itself does, and at its deadline with 0 when it cannot return; before that it
waits on; the time-out 2^64 − 1 never ends (R107). -/
def Obligations.WaitsTakeAndReturn : Prop :=
  Claims.WaitTakesItsConditions ∧ Claims.WaitsReturnWhenMetOrExpired

/-- `k.issue` and `k.issuex` hand a legal word of the command area to its queue when the hearth can take it; `k.issuex` substitutes its
registers where the slot has a descriptor; a waiting word is accepted later in the same way (R92, R102, R103, R216). An index outside
the command area is an illegal instruction, and a word that fails a check raises the trap that the first failing check names, with the
slot; in both cases nothing is issued (R80, R86, R102). A word is a legal command exactly when it keeps R85 and R87 to R94 and the
alignments and limits of its entry: an assigned `ENG` and `OPC`, a `TYPE` that the entry accepts, a rounding code or a zero `MODE`,
operands of the accepted kinds with the payloads that they use, the guard, `WAIT`, `SIG`, `HINT` and `SCHED` patterns, and a zero `IMM`
where it is unused. A word that is none raises cause 24, and one whose window operand lies out of range, cause 25 (R33, R86, R88). The
all-zero word is illegal. -/
def Obligations.IssueAcceptsOrTraps : Prop :=
  Claims.IssueAppendsTheWord ∧ Claims.IssueTrapsOnBadWords ∧ Claims.IssueChecksFollowTheRules

/-- `k.drain` holds its context while a command that it issued is outstanding, and goes on once none is; a command that a refusal has
ended is not (R108). At the end of a turn, with nothing to drain, the context is free. `k.done` ends a record whose join counter is
zero, and leaves one with children finishing; `k.susp` sets the entry that it names and `k.yield` that of the next instruction, and the
record is ready, or suspended while its counter is not zero; an ember context is freed by `k.done`, and the other two are illegal
instructions in it, as is a `k.susp` to no entry of the image (R112, R303). With commands outstanding, or while a page of the record's
address space is being migrated, each waits first (log entry 63), and `DRAIN_COMPLETE` does then what the instruction does. `k.spawn`
of legal children raises each parent's join counter by the number of its new children, makes each child a ready record of its queue,
and waits for the queue manager; of none it does nothing; of more than 64, or of a child that fails its checks, it is an illegal
instruction and changes no record; and the wait ends at acceptance (R111, R304). -/
def Obligations.TurnsDrainEndAndSpawn : Prop :=
  Claims.DrainWaitsForItsCommands ∧ Claims.TurnsEndAsTheTableSays ∧ Claims.SpawnQueuesItsChildren

/-- The bit counts: a zero gives the width, and otherwise the counts lie where the highest and the lowest set bit say (R72, R75). The
bit counts of every element, with the results on zero that their table gives (R72, R139). The bit counts of zero: the width for leading
and trailing zeros, 0 for find-first-set and population count, per packed sub-element of every width; 64, 32 and 0 for the Zbb
instructions (R72). -/
def Obligations.BitCounts : Prop :=
  Claims.BitCountsLocateBits ∧ Claims.VectorBitCounts ∧ Claims.BitCountsOnZero

/-- A reduction gives every enabled element of a line the value of the whole line: the exact integer sum or the once-rounded float sum
with its status, the maximum, the minimum, the AND, the OR, which have none (R150, R151). A scan gives each enabled element the
reduction of its line's enabled elements up to and with itself (R152). -/
def Obligations.VectorReductionsAndScans : Prop :=
  Claims.VectorReductions ∧ Claims.VectorScans

/-- Loads, gathers and table lookups read the scratchpad of their hearth: a row of the window into a row of the register with zeros
beyond the window, the word that an index names or zero outside the window, the table entry that an index names (R158, R161, R163); of
a granule that the command has read before, as it stood then (R225). A store writes to the scratchpad of its hearth exactly the bytes
that its guard, mask or indexes select, the higher row or element winning at a shared byte, and leaves every other byte, every register
and the rest of the machine; the bytes of a granule that it has written before are not written again (R161 to R163, R225). -/
def Obligations.VectorScratchpadAccesses : Prop :=
  Claims.VectorScratchpadReads ∧ Claims.VectorScratchpadWrites

/-- `mx.cfg` loads the six levels of its context's shadow nest table from 192 bytes (R171), of a granule that it has read before as it
stood then (R225). `mx.ldb` loads the 128 rows of its bank from the rows of its window, whatever they hold, and touches no other bank
(R172); of a granule that it has read before it takes what stood there then (R225). `mx.zero` clears the values, the pairs or both of
one accumulator, `mx.scale` multiplies each of its values and rounds once, with the status of R55, and `mx.rdst` writes its 128 pairs
to the scratchpad (R182). -/
def Obligations.MatrixLoadsAndAccumulators : Prop :=
  Claims.MatrixConfigLoadsTheNest ∧ Claims.BankLoadCopiesRows ∧ Claims.AccumulatorCommands

/-- One row of a running nest adds the row sums of 128 activations against the 128 columns of its bank to one accumulator row, with
their status, and leaves every other row, every pair and every bank (R67 to R69, R175). A row outside the window counts as zeros, as
does a bank without a format (R173, R175). One row of a plain drain, and of a histogram drain before its last, converts its 128
accumulator values once to the output type and writes them at its row of the window, with their status; the last row of a clearing
drain zeroes the values of its accumulator (R55, R177, R178). The bins of a histogram drain are those of R73, by the power of 2 below
each magnitude, and the last row adds the counts of the accumulator's values to them, each saturating, where the bin window meets no
row of the destination; it counts the bin bytes and clears as a plain drain does (R73, R178). One row of an online-softmax drain takes
the steps of R179, each rounded to nearest in fp32 with its status: the scaled scores and their maximum; the rescaling of the row of O
and of l where the maximum rises from a finite one; the weights, written in the output type; and their sum in column order. One row of
a normalise drain divides the row of O by its l and encodes the exact quotients once, with their status; a zero divisor or an infinite
value gives an infinity or is invalid; a clearing drain zeroes the values and resets the pairs behind its last row (R177, R180). -/
def Obligations.MatrixRowsAndDrains : Prop :=
  Claims.NestRowAccumulates ∧ Claims.DrainRowConvertsOnce ∧ Claims.HistogramDrainCountsBins ∧
    Claims.SoftmaxDrainTakesItsSteps ∧ Claims.NormaliseDrainDividesOnce

/-- The sort order compares keys, descending or ascending, and then payloads, the smaller first (R184): it is a total order of cells.
Sorting a line gives a permutation of it in that order (R185). One phase of `so.sort`, `so.step` or `so.merge` permutes the cells and
counts the phase: an even phase sorts every row, the odd rows the other way round before phase 16, an odd phase every column; phase 16
is the last, and behind it a command ends with no phase (R185, R188). -/
def Obligations.SortingPermutesAndOrders : Prop :=
  Claims.LinesAreSortedPermutations ∧ Claims.SortPhasesPermuteAndOrder

/-- `so.ld` puts the order key and the payload of each element into its cell, and behind the last the padding, with a fresh sort;
`so.st` writes the keys and then the payloads of its first cells back, where it has payload slots; the order key of a key read back is
the key (R66, R187, R190). That the payloads stand where the two windows of a store overlap is the model's choice (log entry 54).
`so.save` writes every cell and behind them the control block at A0 + 131,072, and `so.rest` reads them back; a malformed block
restores the cells and the idle state; `so.clr` gives the cold-start array (R37, R194, R195). -/
def Obligations.SortArrayMoves : Prop :=
  Claims.SortLoadsAndStoresElements ∧ Claims.SortArraySavesRestoresAndClears

/-- A data copy reads its descriptor first, and then moves its bytes in pieces, each byte in one, none of which crosses an aligned
64-byte granule of either side, in any order (log entry 55): a load puts the bytes of memory at the piece's place of the scratchpad, a
store puts the bytes of the scratchpad at the piece's place of memory, a store-add adds an element to memory, and no other byte of
either changes; with the last piece the command has performed (R199 to R201, R205, R240, R242). A faulting read holds the copy engine
at the faulting address; a faulting write goes to the side log with its bytes and the command goes on, and so does one that overlaps an
entry; a full log holds the command instead (R205, R326). -/
def Obligations.DataCopies : Prop :=
  Claims.DataCopiesMovePieces ∧ Claims.CopyFaultsHoldOrLog

/-- A list copy reads its list as it stood when the command started, and goes through the entries in order: an entry that breaks the
limits ends it; the bytes of any other move in pieces, in any order, between the place that the entry names in the window and the
memory that it names, in the direction of `dir`; an aligned granule of memory that several entries meet is written once. A fill writes
the bytes of `IMM` over and over in each row (R197, R202, R203, R240). A `cp.xf` scouts the headers of its stream and fetches their
payloads; it places the payload of a chunk in the input ring, outputs a stored one unchanged, and hands a coded one to its transform
core with a0, a1 and a2; it takes what that core's instructions emit or their fault; it ends its stream at an end chunk, writes what
was emitted into its window, and behind the end of the stream zeros to the end of the padded block, in parts of 512 bytes (R279); a
peer copy gathers its window and sends it, with its flag and its handler request, and then waits for the acknowledgement (R204, R206,
R208, R274 to R277). -/
def Obligations.ListsFillsTransformsAndPeers : Prop :=
  Claims.ListCopiesAndFills ∧ Claims.TransformsAndPeerCopies

/-- The search commands write the record and the results of their task; a search and a scan leave the indexes, and a task on an index
that does not exist reports status 2 and changes nothing (R209, R210, R339, R340). The order in which status conditions are tested is
log entry 21; the graph's nodes are the firmware's choice, log entry 9. A fetch that works through its list reads the flash bytes of
one of the parts that are left, in any order, and writes what it has read at the place of its entry in the window, a granule at a time;
behind the last part it writes a completion record, with status 0, or 1 where an entry broke a limit; a page that cannot be read ends
it with status 5; so does a bad descriptor, with status 1 (R209, R211, R344, R345, R347). What an entry on a page that cannot be read
leaves is log entry 36. -/
def Obligations.SearchAndFetchCommands : Prop :=
  Claims.SearchCommandsWriteRecords ∧ Claims.FetchCopiesFlash

/-- A command that may start is started: its `WAIT` in mode 10 takes its threshold from its flag, and a command that works from a
descriptor reads it if its chunk is ready; a flag command performs, applies its `SIG` in whichever mode it has, and leaves; no other
command moves (R91, R92, R200, R212, R215). A performed command completes: its status joins `fpstat`, its `SIG` in mode 01 adds its
threshold and in mode 10 the bytes that it wrote, a bank that it loaded takes its format, a length mismatch traps where `LMTRAP` asks
for it, and it leaves with its scoreboard entries (R42, R92, R172, R204). The head of the matrix queue enters the engine window when
its `WAIT` holds and a place is free, a `WAIT` in mode 10 taking its threshold there; an `mx.go` copies the nest table of its context
(R91, R168, R175). -/
def Obligations.CommandsStartEnterAndComplete : Prop :=
  Claims.CommandsStart ∧ Claims.CommandsCompleteAndSignal ∧ Claims.MatrixCommandsEnterTheWindow

/-- The first context that chooses is given the candidate that goes before every other one; it starts at the record's entry with the
frame in a0 and the record in a1, every other register cleared, in U mode. A malformed record is not run, and is reported: it leaves as
faulted, at once or, while it has children, once they have ended (R28, R302, R309 to R311; log entry 56). A search or fetch record goes
to its home engine, where that has a free place, in the same order; and a ready compute record that has matched no hearth for a full
age limit is reported, and its time starts anew (R309, R311, R343, R344). -/
def Obligations.RecordDispatch : Prop :=
  Claims.RecordsAreDispatchedInOrder ∧ Claims.SearchRecordsAndAgedRecords

/-- The service pair of the queue creates the record of a creatable node of a live graph, ready at its address, when no predecessor has
failed; a node behind a faulted or cancelled one is cancelled, and where it was the last to end, the pair completes the graph to the
host; without the pair, or while a page of the queue's address space is being migrated (log entry 63), nothing happens (R304, R308,
R352, R367). A finishing record that waits for no child leaves the queue manager as completed, and so does a search or fetch record
whose task has been performed, as completed or faulted by its `STATUS`, at once or, while it has children, once they have ended (log
entry 56); its completion flag is added, and its parent's `JOIN` falls (R303 to R305, R344). While a page of the queue's address space
is being migrated it waits (log entry 63). -/
def Obligations.GraphNodesAndCompletions : Prop :=
  Claims.GraphNodesAreCreatedOrCancelled ∧ Claims.RecordsComplete

/-- A peer transfer that its receiver's image admits writes its payload, granule by granule; with the last one it adds to its flag,
starts its handler where it has one, and is acknowledged to its sender; one that is not admitted changes nothing at the receiver, and
its sender's command ends with the trap of R199; one for a saved hearth waits at the port (R206 to R208, R225, R235, R331). The oldest
queued arrival starts on the context that it takes, where no second one finds another, and an image that is loaded puts its hearth,
whose contexts are free, at its cold-start values and refuses a transfer that has not arrived whole: its sender's command ends (R28,
R98, R235, R236, R309, R354). -/
def Obligations.TransfersArrivalsAndImages : Prop :=
  Claims.PeerTransfersArrive ∧ Claims.ArrivalsAndImagesStart

/-- Each printing command of Hob prints the values of the hearth or the context at the focus and changes nothing: the registers with
the instruction at the pc, a slot's stored word with its placeholders beside the word last issued from it, and bytes of memory, an
entry of a KV-cache table among them by its layout (R27, R103, R262, R280). What it prints besides the values that R280 names is the
model's choice, log entry 59. The trace switch and the chimney period change only themselves; the chimney stream latches one frame on a
tick that is a multiple of its period, or drops and counts it; a lease rebase changes nothing (R241, R284, R286, R287). -/
def Obligations.HobPrintsAndTraces : Prop :=
  Claims.HobPrintsTheState ∧ Claims.TraceChimneyAndLeases

/-- Leadership: the lowest pair whose firmware verifies at boot leads under generation 1, and the first image that does not verify is
the boot stage, with recovery where it serves nothing; the leader's heartbeat writes the tick once 100,000 have passed; when it has
lapsed the next live pair leads under the next generation and takes over every work queue; what a leader writes under an older
generation than the accepted one does nothing; a pair that stops is not live, and one that returns is again, under the generation that
holds (R320, R364 to R366, R382). The boot stage is 1 until then, and the first heartbeat is a later row, log entry 35; the layouts of
the images and what verifies are log entry 69, the places of the privileged roots log entry 65, the order of the queues' pairs log
entry 64, and a row that cannot happen leaves the state, log entry 49. Power: every 200 ticks the budget in force is set anew, from the
request, the regulator or the thermal limit, which is below the request while it stands, and is divided into grants of the five dies
within it, each shared within its die; reaching the thermal limit or cooling changes the budget from then on only (R377, R378). The
regulator's limit and a division that is not named are free values of the model, and that a compute die has two flash stacks beside its
160 hearths is its choice, log entry 46. -/
def Obligations.LeadershipAndPower : Prop :=
  Claims.LeadershipMovesWithTheHeartbeat ∧ Claims.PowerBudgetsFollowTheLimits

/-- A host write of `CALLADDR` sets it, a multiple of 64, and of a read-only or reserved register does nothing; `CALLGO` makes the
leader perform the call that the block at `CALLADDR` then holds and write the reply behind that block, with vector 64, once the call
has ended; it is ignored while a call runs, and while there is no leader its request is kept (R10, R349, R370). That the low bits of
`CALLADDR` read as zero is log entry 40. Every call: its reply goes to the registers of the context that waits for it, which goes on; a
repeated sequence number is answered from its record and changes nothing; a lower one is stale, with nothing changed; one that must
wait leaves its record started; and without a live leader nothing happens (R365, R369, R370). That a call is one step of the leader, in
the agenda's order, is log entry 48, and that one that has no call to answer leaves the state is log entry 49. -/
def Obligations.HostCallsAndReplies : Prop :=
  Claims.HostCallsGoThroughTheMailbox ∧ Claims.CallsAreAnsweredOnce

/-- The transform routine, flash and index calls: a routine that its signature admits is loaded, or the call waits while it is in use;
flash goes to a queue where it is free, and is written and freed; an index is created with its attributes and pages for its log,
destroyed while nothing uses it, and merged; and the pages of a queue's range or of an index may be repaired (R272, R273, R334, R335,
R342, R345, R347, R376). That a `DIM` field of 0 stands for 2,048 is the model's choice, log entry 38, a page of the log for each entry
is log entry 70, and the service OS's picks of flash addresses and index numbers are log entry 9. The power, trace, Hob, record and
replay calls: a new request, from the next grant period on; a new ring, with the drops of the old one still counted; a session; a log
that begins empty and is written to its address when it ends, and the turns, results and host memory of the log that stands at an
address, which a replay forces (R280, R284, R286 to R288, R378). That a ring is emptied only by the call that assigns it is log entry
24, what record mode keeps is log entry 41, the mean watts are a free value, log entry 46, and the numbers of sessions begin at 1, log
entry 35. -/
def Obligations.RoutineFlashPowerAndReplayCalls : Prop :=
  Claims.RoutineFlashAndIndexCalls ∧ Claims.PowerTraceAndReplayCalls

/-- A step in which the focus context's turn comes, placed before all others or next on the agenda with nothing due, lets one cycle
pass and the context execute the instruction that its bytes decode to, when no interrupt, asynchronous trap, breakpoint or stop stands
before it; nothing is added, but that a hearth which Hob steps stops again (R75, R281, R283, R327). That a turn takes one cycle, which
the cycle counters count, and the order of the turns are the model's, log entries 1 and 11. An engine turn performs the operation that
a started command's word decodes to (R215). -/
def Obligations.StepRunsTheDecodedInstruction : Prop :=
  Claims.StepExecutesAtThePc ∧ Claims.StepPerformsTheDecodedCommand
end

