-- ==== Sys2Proof/Laws/Bits.lean ====
section
/-! SUPPORT. Bit fields, little-endian numbers and packed images: each helper read back. -/

namespace Sys2Proof.Machine

/-! ## Little-endian numbers (R47) -/

@[simp] theorem length_leBytes (n v : Nat) : (leBytes n v).length = n := by
  induction n generalizing v with
  | zero => rfl
  | succ n ih => simp [leBytes, ih]

theorem leNat_lt (bs : List Byte) : leNat bs < 256 ^ bs.length := by
  induction bs with
  | nil => simp [leNat]
  | cons b bs ih =>
    have := b.isLt
    simp only [leNat, List.length_cons, pow_succ]
    omega

theorem leNat_leBytes (n v : Nat) : leNat (leBytes n v) = v % 256 ^ n := by
  induction n generalizing v with
  | zero => simp [leBytes, leNat, Nat.mod_one]
  | succ n ih =>
    simp only [leBytes, leNat, ih, BitVec.toNat_ofNat]
    rw [show 256 ^ (n + 1) = 256 * 256 ^ n by ring, Nat.mod_mul]

theorem leBytes_leNat (bs : List Byte) : leBytes bs.length (leNat bs) = bs := by
  induction bs with
  | nil => rfl
  | cons b bs ih =>
    have := b.isLt
    simp only [List.length_cons, leBytes, leNat]
    rw [show (b.toNat + 256 * leNat bs) / 256 = leNat bs by omega, ih]
    congr 1
    exact BitVec.eq_of_toNat_eq (by simp; omega)

theorem getElem_leBytes (n v i : Nat) (h : i < (leBytes n v).length) : (leBytes n v)[i] = BitVec.ofNat 8 (v / 256 ^ i) := by
  induction n generalizing v i with
  | zero => simp [leBytes] at h
  | succ n ih =>
    cases i with
    | zero => simp [leBytes]
    | succ i =>
      simp only [leBytes, List.getElem_cons_succ]
      rw [ih, Nat.div_div_eq_div_mul, pow_succ, Nat.mul_comm]

/-- A number of `n` bytes survives its bytes. -/
theorem ofNat_leNat_leBytes {w : Nat} (n : Nat) (x : BitVec w) (h : w = 8 * n) :
    BitVec.ofNat w (leNat (leBytes n x.toNat)) = x := by
  subst h
  rw [leNat_leBytes]
  refine BitVec.eq_of_toNat_eq ?_
  have := x.isLt
  rw [show (256 : Nat) ^ n = 2 ^ (8 * n) by rw [pow_mul]; norm_num, BitVec.toNat_ofNat, Nat.mod_mod, Nat.mod_eq_of_lt this]

/-! ## Fields -/

theorem bitsN_lt {n : Nat} (x : BitVec n) (lo len : Nat) : bitsN x lo len < 2 ^ len := Nat.mod_lt _ (by positivity)

theorem field_toNat {n : Nat} (x : BitVec n) (lo len : Nat) : (field x lo len).toNat = bitsN x lo len := by
  simp [field, bitsN, BitVec.extractLsb'_toNat, Nat.shiftRight_eq_div_pow]

theorem field_eq_ofNat {n : Nat} (x : BitVec n) (lo len : Nat) : field x lo len = BitVec.ofNat len (bitsN x lo len) := by
  refine BitVec.eq_of_toNat_eq ?_
  rw [field_toNat, BitVec.toNat_ofNat, Nat.mod_eq_of_lt (bitsN_lt _ _ _)]

theorem bitsN_field {n : Nat} (x : BitVec n) {lo len i m : Nat} (h : i + m ≤ len) :
    bitsN (field x lo len) i m = bitsN x (lo + i) m := by
  simp only [bitsN, field_toNat]
  rw [pow_add, ← Nat.div_div_eq_div_mul]
  obtain ⟨k, rfl⟩ : ∃ k, len = i + m + k := ⟨len - (i + m), by omega⟩
  rw [pow_add, pow_add, mul_assoc, Nat.mod_mul_right_div_self, Nat.mod_mul_right_mod]

theorem testBit_bitsN {n : Nat} (x : BitVec n) (lo len i : Nat) :
    (bitsN x lo len).testBit i = (decide (i < len) && x.getLsbD (lo + i)) := by
  rw [bitsN, Nat.testBit_mod_two_pow, Nat.testBit_div_two_pow, BitVec.getLsbD, Nat.add_comm]

/-! ## Packed images (R31) -/

theorem packNat_lt (w : Nat) (f : Nat → BitVec w) (k i : Nat) : packNat w f k i < (2 ^ w) ^ k := by
  induction k generalizing i with
  | zero => simp [packNat]
  | succ k ih =>
    have h1 := (f i).isLt
    have h2 := ih (i + 1)
    simp only [packNat, pow_succ]
    calc (f i).toNat + 2 ^ w * packNat w f k (i + 1)
        < 2 ^ w + 2 ^ w * packNat w f k (i + 1) := by omega
      _ = 2 ^ w * (packNat w f k (i + 1) + 1) := by ring
      _ ≤ 2 ^ w * (2 ^ w) ^ k := Nat.mul_le_mul_left _ h2
      _ = (2 ^ w) ^ k * 2 ^ w := by ring

/-- Digit `j` of a packed number. -/
theorem packNat_digit (w : Nat) (f : Nat → BitVec w) (k i j : Nat) (h : j < k) :
    packNat w f k i / 2 ^ (w * j) % 2 ^ w = (f (i + j)).toNat := by
  induction k generalizing i j with
  | zero => omega
  | succ k ih =>
    have h1 := (f i).isLt
    simp only [packNat]
    cases j with
    | zero => simp [Nat.mod_eq_of_lt h1]
    | succ j =>
      rw [Nat.mul_succ, Nat.add_comm (w * j) w, pow_add, ← Nat.div_div_eq_div_mul, Nat.add_mul_div_left _ _ (by positivity),
        Nat.div_eq_of_lt h1, Nat.zero_add, ih _ _ (by omega)]
      congr 2; omega

/-- Element `i` of a packed image is the value given for it. -/
theorem elem_pack {n w : Nat} (f : Nat → BitVec w) {i : Nat} (h : i < n / w) : elem w (pack n w f) i = f i := by
  have hw : 0 < w := by
    rcases Nat.eq_zero_or_pos w with rfl | hw
    · simp at h
    · exact hw
  have hn : w * (n / w) ≤ n := Nat.mul_div_le n w
  refine BitVec.eq_of_toNat_eq ?_
  rw [show (elem w (pack n w f) i).toNat = bitsN (pack n w f) (w * i) w from field_toNat _ _ _]
  have hlt : packNat w f (n / w) 0 < 2 ^ n :=
    lt_of_lt_of_le (packNat_lt w f _ _) (by rw [← pow_mul]; exact Nat.pow_le_pow_right (by omega) hn)
  rw [bitsN, pack, BitVec.toNat_ofNat, Nat.mod_eq_of_lt hlt, packNat_digit w f _ _ _ h, Nat.zero_add]

theorem elem_packUpd {n w : Nat} (v : BitVec n) (f : Nat → Option (BitVec w)) {i : Nat} (h : i < n / w) :
    elem w (packUpd w v f) i = (f i).getD (elem w v i) := elem_pack _ h

theorem vget_lt (w : Nat) (v : VReg) (e : Nat) : vget w v e < 2 ^ w := (elem w v e).isLt

/-- An element of a register after a write of a table of elements. -/
theorem vget_vput {w : Nat} (v : VReg) (t : Array (Option Nat)) {e : Nat} (h : e < elems w) :
    vget w (vput w v t) e = match (t[e]?).getD none with
      | some x => x % 2 ^ w
      | none => vget w v e := by
  unfold vget vput
  rw [elem_packUpd _ _ h]
  cases (t[e]?).getD none <;> simp

theorem tab_getElem? {α : Type} {n : Nat} (g : Nat → α) {i : Nat} (h : i < n) : (tab n g)[i]? = some (g i) := by
  simp [tab, h]

end Sys2Proof.Machine
end

