-- ==== Sys2Proof/Laws/Mem.lean ====
section
/-! SUPPORT. Byte memories: reading after a store, and the canonical form, which every operation keeps. -/

namespace Sys2Proof.Machine

/-! ## The canonical form -/

/-- The canonical form says: addresses strictly rising, and no cell that holds 0. -/
theorem Mem.wf_iff (m : Mem) : m.wf = true ↔ m.Pairwise (fun c d => c.1 < d.1) ∧ ∀ c, c ∈ m → c.2 ≠ 0 := by
  induction m with
  | nil => simp [Mem.wf]
  | cons c m ih =>
    cases m with
    | nil => simp [Mem.wf]
    | cons d m =>
      simp only [Mem.wf, Bool.and_eq_true, bne_iff_ne, decide_eq_true_eq, ih]
      constructor
      · rintro ⟨⟨hc, hd⟩, hp, hz⟩
        refine ⟨List.pairwise_cons.2 ⟨fun e he => ?_, hp⟩, fun e he => ?_⟩
        · rcases List.mem_cons.1 he with rfl | he
          · exact hd
          · exact lt_trans hd ((List.pairwise_cons.1 hp).1 e he)
        · rcases List.mem_cons.1 he with rfl | he
          · exact hc
          · exact hz e he
      · rintro ⟨hp, hz⟩
        have hp' := List.pairwise_cons.1 hp
        exact ⟨⟨hz c (by simp), hp'.1 d (by simp)⟩, hp'.2, fun e he => hz e (List.mem_cons_of_mem _ he)⟩

theorem Mem.wf_nil : Mem.wf [] = true := rfl

/-- Leaving cells out keeps the form. -/
theorem Mem.wf_filter {m : Mem} (h : m.wf = true) (p : Host.Cell → Bool) : Mem.wf (m.filter p) = true := by
  rw [Mem.wf_iff] at h ⊢
  exact ⟨h.1.filter _, fun c hc => h.2 c (List.mem_of_mem_filter hc)⟩

theorem Mem.mem_cells {a : Nat} {bs : List Byte} {c : Host.Cell} (h : c ∈ Mem.cells a bs) :
    a ≤ c.1 ∧ c.1 < a + bs.length ∧ c.2 ≠ 0 := by
  induction bs generalizing a with
  | nil => simp [Mem.cells] at h
  | cons b bs ih =>
    simp only [Mem.cells] at h
    split at h
    · obtain ⟨h1, h2, h3⟩ := ih h
      exact ⟨by omega, by simp only [List.length_cons]; omega, h3⟩
    · rcases List.mem_cons.1 h with rfl | h
      · simp_all
      · obtain ⟨h1, h2, h3⟩ := ih h
        exact ⟨by omega, by simp only [List.length_cons]; omega, h3⟩

theorem Mem.pairwise_cells (a : Nat) (bs : List Byte) : (Mem.cells a bs).Pairwise fun c d => c.1 < d.1 := by
  induction bs generalizing a with
  | nil => simp [Mem.cells]
  | cons b bs ih =>
    simp only [Mem.cells]
    split
    · exact ih _
    · exact List.pairwise_cons.2 ⟨fun c hc => by have := (Mem.mem_cells hc).1; simp only; omega, ih _⟩

/-- A store keeps the canonical form. -/
theorem Mem.wf_store {m : Mem} (h : m.wf = true) (a : Nat) (bs : List Byte) : (m.store a bs).wf = true := by
  rw [Mem.wf_iff] at h ⊢
  refine ⟨?_, fun c hc => ?_⟩
  · refine List.pairwise_append.2 ⟨h.1.filter _, List.pairwise_append.2 ⟨Mem.pairwise_cells _ _, h.1.filter _, ?_⟩, ?_⟩
    · intro c hc d hd
      have := (Mem.mem_cells hc).2.1
      have := of_decide_eq_true (List.mem_filter.1 hd).2
      omega
    · intro c hc d hd
      have := of_decide_eq_true (List.mem_filter.1 hc).2
      rcases List.mem_append.1 hd with hd | hd
      · have := (Mem.mem_cells hd).1; omega
      · have := of_decide_eq_true (List.mem_filter.1 hd).2; omega
  · simp only [Mem.store, List.mem_append, List.mem_filter] at hc
    rcases hc with hc | hc | hc
    · exact h.2 c hc.1
    · exact (Mem.mem_cells hc).2.2
    · exact h.2 c hc.1

theorem Mem.wf_write {m : Mem} (h : m.wf = true) (a : Nat) (b : Byte) : (m.write a b).wf = true := Mem.wf_store h _ _

theorem Mem.wf_writeAll {m : Mem} (h : m.wf = true) (ks : List (Nat × Byte)) : (m.writeAll ks).wf = true := by
  induction ks generalizing m with
  | nil => exact h
  | cons k ks ih => exact ih (Mem.wf_write h _ _)

/-- Moving a run of bytes keeps the canonical form. -/
theorem Mem.wf_copy {m : Mem} (h : m.wf = true) (src dst n : Nat) : (m.copy src dst n).wf = true := by
  rw [Mem.wf_iff] at h ⊢
  have inside : ∀ c, c ∈ m.filter (fun c => decide (src ≤ c.1) && decide (c.1 < src + n)) → src ≤ c.1 ∧ c.1 < src + n := by
    intro c hc
    simpa using (List.mem_filter.1 hc).2
  refine ⟨List.pairwise_append.2 ⟨h.1.filter _, List.pairwise_append.2 ⟨?_, h.1.filter _, ?_⟩, ?_⟩, fun c hc => ?_⟩
  · rw [List.pairwise_map]
    refine (h.1.filter _).imp_of_mem fun hc hd hlt => ?_
    have := inside _ hc
    simp only; omega
  · intro c hc d hd
    obtain ⟨e, he, rfl⟩ := List.mem_map.1 hc
    have := inside _ he
    have := of_decide_eq_true (List.mem_filter.1 hd).2
    simp only; omega
  · intro c hc d hd
    have := of_decide_eq_true (List.mem_filter.1 hc).2
    rcases List.mem_append.1 hd with hd | hd
    · obtain ⟨e, he, rfl⟩ := List.mem_map.1 hd
      have := inside _ he
      simp only; omega
    · have := of_decide_eq_true (List.mem_filter.1 hd).2; omega
  · simp only [Mem.copy, List.mem_append, List.mem_filter, List.mem_map] at hc
    rcases hc with hc | ⟨e, he, rfl⟩ | hc
    · exact h.2 c hc.1
    · exact h.2 e he.1
    · exact h.2 c hc.1

/-! ## Reading -/

theorem Mem.read_append (m m' : Mem) (x : Nat) :
    Mem.read (m ++ m') x = if ∃ c, c ∈ m ∧ c.1 = x then Mem.read m x else Mem.read m' x := by
  induction m with
  | nil => simp
  | cons c m ih =>
    simp only [List.cons_append, Mem.read]
    by_cases h : c.1 = x
    · rw [if_pos h, if_pos ⟨c, by simp, h⟩]
      simp [h]
    · rw [if_neg h, ih]
      have : (∃ d, d ∈ c :: m ∧ d.1 = x) ↔ ∃ d, d ∈ m ∧ d.1 = x := by
        constructor
        · rintro ⟨d, hd, e⟩
          rcases List.mem_cons.1 hd with rfl | hd
          · exact absurd e h
          · exact ⟨d, hd, e⟩
        · rintro ⟨d, hd, e⟩; exact ⟨d, List.mem_cons_of_mem _ hd, e⟩
      simp only [this, if_neg h]

theorem Mem.read_of_not_mem {m : Mem} {x : Nat} (h : ∀ c, c ∈ m → c.1 ≠ x) : Mem.read m x = 0 := by
  induction m with
  | nil => rfl
  | cons c m ih => simp [Mem.read, h c (by simp), ih fun d hd => h d (List.mem_cons_of_mem _ hd)]

theorem Mem.read_filter_pos {m : Mem} {p : Host.Cell → Bool} {x : Nat} (h : ∀ b, p (x, b) = true) :
    Mem.read (m.filter p) x = Mem.read m x := by
  induction m with
  | nil => rfl
  | cons c m ih =>
    by_cases hc : c.1 = x
    · have : p c = true := by have := h c.2; rwa [← hc] at this
      simp [List.filter, this, Mem.read, hc]
    · simp only [List.filter, Mem.read, if_neg hc]
      split
      · simp [Mem.read, hc, ih]
      · exact ih

theorem Mem.read_cells (a : Nat) (bs : List Byte) (x : Nat) :
    Mem.read (Mem.cells a bs) x = if a ≤ x then bs.getD (x - a) 0 else 0 := by
  induction bs generalizing a with
  | nil => simp [Mem.cells, Mem.read]
  | cons b bs ih =>
    simp only [Mem.cells]
    by_cases hx : a = x
    · subst hx
      split
      · rename_i hb; subst hb; rw [ih]; simp
      · simp [Mem.read]
    · have e : a + 1 ≤ x ↔ a ≤ x := by omega
      have key : (if a + 1 ≤ x then bs.getD (x - (a + 1)) 0 else 0) = if a ≤ x then (b :: bs).getD (x - a) 0 else 0 := by
        by_cases h : a ≤ x
        · obtain ⟨k, rfl⟩ : ∃ k, x = a + 1 + k := ⟨x - (a + 1), by omega⟩
          rw [if_pos (by omega), if_pos h, show a + 1 + k - (a + 1) = k by omega, show a + 1 + k - a = k + 1 by omega]
          simp
        · rw [if_neg (by omega), if_neg h]
      split
      · rw [ih]; exact key
      · rw [Mem.read, if_neg (by simpa using hx), ih]; exact key

/-- A byte read after a store: inside the stored run the byte stored there, outside it what was there. -/
theorem Mem.read_store (m : Mem) (a : Nat) (bs : List Byte) (x : Nat) :
    (m.store a bs).read x = if a ≤ x ∧ x < a + bs.length then bs.getD (x - a) 0 else m.read x := by
  unfold Mem.store
  rw [Mem.read_append, Mem.read_append]
  by_cases lo : x < a
  · have hn : ¬ (a ≤ x ∧ x < a + bs.length) := by omega
    rw [if_neg hn]
    split
    · exact Mem.read_filter_pos (by simpa using lo)
    · rename_i h
      have h0 : Mem.read m x = 0 := Mem.read_of_not_mem fun c hc e =>
        h ⟨c, List.mem_filter.2 ⟨hc, by simpa [e] using lo⟩, e⟩
      rw [h0]
      split
      · rw [Mem.read_cells, if_neg (by omega)]
      · exact Mem.read_of_not_mem fun c hc e => by have := of_decide_eq_true (List.mem_filter.1 hc).2; omega
  · have h1 : ¬ ∃ c, c ∈ m.filter (fun c => c.1 < a) ∧ c.1 = x := by
      rintro ⟨c, hc, e⟩; have := of_decide_eq_true (List.mem_filter.1 hc).2; omega
    rw [if_neg h1]
    by_cases hi : x < a + bs.length
    · rw [if_pos (show a ≤ x ∧ x < a + bs.length by omega)]
      split
      · rw [Mem.read_cells, if_pos (by omega)]
      · rename_i h
        have hz : Mem.read (Mem.cells a bs) x = 0 := Mem.read_of_not_mem fun c hc e => h ⟨c, hc, e⟩
        rw [Mem.read_cells, if_pos (by omega)] at hz
        rw [hz]
        exact Mem.read_of_not_mem fun c hc e => by have := of_decide_eq_true (List.mem_filter.1 hc).2; omega
    · have h2 : ¬ ∃ c, c ∈ Mem.cells a bs ∧ c.1 = x := by
        rintro ⟨c, hc, e⟩; have := (Mem.mem_cells hc).2.1; omega
      rw [if_neg h2, if_neg (show ¬ (a ≤ x ∧ x < a + bs.length) by omega)]
      exact Mem.read_filter_pos (by intro b; simp only [decide_eq_true_eq]; omega)

theorem Mem.read_write (m : Mem) (a : Nat) (b : Byte) (x : Nat) : (m.write a b).read x = if x = a then b else m.read x := by
  unfold Mem.write
  rw [Mem.read_store]
  by_cases h : x = a
  · subst h; simp
  · rw [if_neg (by simp only [List.length_singleton]; omega), if_neg h]

/-- A store leaves every byte outside its run. -/
theorem Mem.sameOutside_store (m : Mem) (a : Nat) (bs : List Byte) {x : Nat} (h : x < a ∨ a + bs.length ≤ x) :
    (m.store a bs).read x = m.read x := by
  rw [Mem.read_store, if_neg (by omega)]

@[simp] theorem Mem.length_bytes (m : Mem) (a n : Nat) : (m.bytes a n).length = n := by
  induction n generalizing a with
  | zero => rfl
  | succ n ih => simp [Mem.bytes, ih]

theorem Mem.getElem_bytes (m : Mem) (a n i : Nat) (h : i < (m.bytes a n).length) : (m.bytes a n)[i] = m.read (a + i) := by
  induction n generalizing a i with
  | zero => simp [Mem.bytes] at h
  | succ n ih =>
    cases i with
    | zero => simp [Mem.bytes]
    | succ i =>
      simp only [Mem.bytes, List.getElem_cons_succ]
      rw [ih]
      congr 1; omega

/-- The bytes just stored read back. -/
theorem Mem.bytes_store_self (m : Mem) (a : Nat) (bs : List Byte) : (m.store a bs).bytes a bs.length = bs := by
  refine List.ext_getElem (by simp) fun i h1 h2 => ?_
  rw [Mem.getElem_bytes, Mem.read_store, if_pos (by omega)]
  simp [h2]

/-- A run apart from the stored one reads as before. -/
theorem Mem.bytes_store_apart (m : Mem) (a : Nat) (bs : List Byte) {b n : Nat} (h : b + n ≤ a ∨ a + bs.length ≤ b) :
    (m.store a bs).bytes b n = m.bytes b n := by
  refine List.ext_getElem (by simp) fun i h1 h2 => ?_
  simp only [Mem.length_bytes] at h1
  rw [Mem.getElem_bytes, Mem.getElem_bytes, Mem.sameOutside_store _ _ _ (by omega)]

/-- A run inside the stored one reads its part of it. -/
theorem Mem.bytes_store_sub (m : Mem) (a : Nat) (bs : List Byte) (i n : Nat) (h : i + n ≤ bs.length) :
    (m.store a bs).bytes (a + i) n = (bs.drop i).take n := by
  refine List.ext_getElem (by simp; omega) fun j h1 h2 => ?_
  simp only [Mem.length_bytes] at h1
  rw [Mem.getElem_bytes, Mem.read_store, if_pos (by omega), show a + i + j - a = i + j by omega]
  simp [show i + j < bs.length by omega]

/-- Bytes written at listed addresses: an address that is not listed keeps its byte. -/
theorem Mem.read_writeAll_other (m : Mem) (ks : List (Nat × Byte)) {x : Nat} (h : ∀ k, k ∈ ks → k.1 ≠ x) :
    (m.writeAll ks).read x = m.read x := by
  induction ks generalizing m with
  | nil => rfl
  | cons k ks ih =>
    show ((m.write k.1 k.2).writeAll ks).read x = m.read x
    rw [ih _ fun j hj => h j (List.mem_cons_of_mem _ hj), Mem.read_write, if_neg (Ne.symm (h k (by simp)))]

/-- Bytes written at distinct addresses all read back. -/
theorem Mem.map_read_writeAll (m : Mem) (ks : List Nat) (bs : List Byte) (hn : ks.Nodup) (hl : ks.length = bs.length) :
    ks.map (m.writeAll (ks.zip bs)).read = bs := by
  induction ks generalizing m bs with
  | nil => cases bs <;> simp_all
  | cons k ks ih =>
    cases bs with
    | nil => simp at hl
    | cons b bs =>
      obtain ⟨hk, hn⟩ := List.nodup_cons.1 hn
      have hl' : ks.length = bs.length := by simpa using hl
      show ((m.write k b).writeAll (ks.zip bs)).read k :: ks.map ((m.write k b).writeAll (ks.zip bs)).read = b :: bs
      rw [ih _ _ hn hl', Mem.read_writeAll_other]
      · simp [Mem.read_write]
      · rintro ⟨j, c⟩ hj rfl
        exact hk (List.of_mem_zip hj).1

theorem Mem.read_writeAll_outside (m : Mem) (ks : List Nat) (bs : List Byte) {x : Nat} (h : x ∉ ks) :
    (m.writeAll (ks.zip bs)).read x = m.read x :=
  Mem.read_writeAll_other _ _ fun _ hk e => h (e ▸ (List.of_mem_zip hk).1)

/-- Two canonical memories that read alike are equal. -/
theorem Mem.ext_of_wf {m m' : Mem} (h : m.wf = true) (h' : m'.wf = true) (e : ∀ x, m.read x = m'.read x) : m = m' := by
  rw [Mem.wf_iff] at h h'
  induction m generalizing m' with
  | nil =>
    cases m' with
    | nil => rfl
    | cons c m' =>
      have := e c.1
      simp [Mem.read] at this
      exact absurd this.symm (h'.2 c (by simp))
  | cons c m ih =>
    have low : ∀ (d : Host.Cell) (l : Mem), (d :: l).Pairwise (fun a b => a.1 < b.1) → ∀ x, x < d.1 → Mem.read (d :: l) x = 0 := by
      intro d l hp x hx
      refine Mem.read_of_not_mem fun a ha => ?_
      rcases List.mem_cons.1 ha with rfl | ha
      · omega
      · have := (List.pairwise_cons.1 hp).1 a ha; omega
    cases m' with
    | nil =>
      have := e c.1
      simp [Mem.read] at this
      exact absurd this (h.2 c (by simp))
    | cons d m' =>
      have hcd : c.1 = d.1 := by
        rcases Nat.lt_trichotomy c.1 d.1 with hlt | heq | hgt
        · have := e c.1
          rw [low d m' h'.1 _ hlt] at this
          simp [Mem.read] at this
          exact absurd this (h.2 c (by simp))
        · exact heq
        · have := e d.1
          rw [low c m h.1 _ hgt] at this
          simp [Mem.read] at this
          exact absurd this.symm (h'.2 d (by simp))
      have hv : c.2 = d.2 := by have := e c.1; simpa [Mem.read, hcd] using this
      have hcd' : c = d := Prod.ext hcd hv
      subst hcd'
      congr 1
      refine ih ⟨(List.pairwise_cons.1 h.1).2, fun a ha => h.2 a (List.mem_cons_of_mem _ ha)⟩
        ⟨(List.pairwise_cons.1 h'.1).2, fun a ha => h'.2 a (List.mem_cons_of_mem _ ha)⟩ fun x => ?_
      by_cases hx : c.1 = x
      · subst hx
        have nm : ∀ l : Mem, (c :: l).Pairwise (fun a b => a.1 < b.1) → Mem.read l c.1 = 0 := fun l hp =>
          Mem.read_of_not_mem fun a ha => by have := (List.pairwise_cons.1 hp).1 a ha; omega
        rw [nm m h.1, nm m' h'.1]
      · have := e x
        simpa [Mem.read, hx] using this

end Sys2Proof.Machine
end

