-- ==== Sys2Proof/Laws/Core.lean ====
section
/-! SUPPORT. The small laws of the transform core: its register file, and what beginning a chunk leaves. -/

namespace Sys2Proof.Machine

@[simp] theorem XCore.get_zero (k : XCore) : k.get 0 = 0 := rfl

theorem XCore.get_set_self (k : XCore) {r : XReg} (v : Word) (h : r ≠ 0) : (k.set r v).get r = v := by
  simp [XCore.get, XCore.set, h]

theorem XCore.get_set_ne (k : XCore) {r q : XReg} (v : Word) (h : r ≠ q) : (k.set r v).get q = k.get q := by
  unfold XCore.get XCore.set
  split
  · rfl
  · split
    · rfl
    · have : r.val ≠ q.val := fun e => h (Fin.ext e)
      simp [this]

@[simp] theorem XCore.set_vs (k : XCore) (r : XReg) (v : Word) : (k.set r v).vs = k.vs := by unfold XCore.set; split <;> rfl
@[simp] theorem XCore.set_buf (k : XCore) (r : XReg) (v : Word) : (k.set r v).buf = k.buf := by unfold XCore.set; split <;> rfl
@[simp] theorem XCore.set_busy (k : XCore) (r : XReg) (v : Word) : (k.set r v).busy = k.busy := by unfold XCore.set; split <;> rfl
@[simp] theorem XCore.set_chunk (k : XCore) (r : XReg) (v : Word) : (k.set r v).chunk = k.chunk := by unfold XCore.set; split <;> rfl

/-- What a coded chunk finds on the transform core (R276). -/
theorem XCore.begin_spec (k : XCore) (c : XCode) (entry off len : Nat) :
    let t := k.begin c entry off len
    t.busy = true ∧ t.buf = k.buf ∧ t.get 10 = BitVec.ofNat 64 off ∧ t.get 11 = BitVec.ofNat 64 len ∧ t.get 12 = 0x8000 ∧
    t.pc = BitVec.ofNat 64 (0x10000 + c.base + entry) ∧ t.vs = k.vs := by
  refine ⟨rfl, by simp [XCore.begin], ?_, ?_, ?_, rfl, by simp [XCore.begin]⟩
  · show (((k.set 10 _).set 11 _).set 12 _).get 10 = _
    rw [XCore.get_set_ne _ _ (by decide), XCore.get_set_ne _ _ (by decide), XCore.get_set_self _ _ (by decide)]
  · show (((k.set 10 _).set 11 _).set 12 _).get 11 = _
    rw [XCore.get_set_ne _ _ (by decide), XCore.get_set_self _ _ (by decide)]
  · exact XCore.get_set_self _ _ (by decide)

/-- The data pass places a payload in the input ring (R275). -/
theorem XCore.place_spec (k : XCore) (p : List Byte) :
    (k.place p).buf = k.buf.store (k.chunk % 16 * 2048) p ∧ (k.place p).chunk = k.chunk + 1 := ⟨rfl, rfl⟩

/-- An instruction of a routine that the core ends with its chunk is an `ecall` with at most 16,384 bytes in a0 (R276). -/
theorem XCore.exec_chunk {k t : XCore} {c : XCode} {i : XInsn} {len n : Nat} (h : k.exec c i len = .chunk t n) :
    i = .ecall ∧ n ≤ 16384 ∧ n = (k.get 10).toNat ∧ t = { k with busy := false } := by
  cases i <;> simp only [XCore.exec] at h
  case ecall =>
    split at h
    · cases h
    · cases h; exact ⟨rfl, by omega, rfl, rfl⟩
  all_goals first
    | (cases h; done)
    | (unfold XEnd.ofOption at h; split at h <;> cases h)

/-- Every store of the core keeps its buffer in canonical form. -/
theorem XCore.storeN_wf {k t : XCore} {a : Word} {n v : Nat} (h : k.storeN a n v = some t) (hw : k.buf.wf = true) : t.buf.wf = true := by
  unfold XCore.storeN at h
  dsimp only at h
  split at h
  · cases h
  · cases h; exact Mem.wf_store hw _ _

end Sys2Proof.Machine
end

