-- ==== Sys2Proof/Laws/State.lean ====
section
/-! SUPPORT. What reading a field gives after an update of the state, of a hearth and of a context: one lemma for each field
and update. -/

namespace Sys2Proof.Machine

/-! ## The package -/

@[simp] theorem State.setHearth_cycle (s : State) (h : Fin 640) (x : Hearth) : (s.setHearth h x).cycle = s.cycle := rfl
@[simp] theorem State.setHearth_foc (s : State) (h : Fin 640) (x : Hearth) : (s.setHearth h x).foc = s.foc := rfl
@[simp] theorem State.setHearth_forced (s : State) (h : Fin 640) (x : Hearth) : (s.setHearth h x).forced = s.forced := rfl
@[simp] theorem State.setHearth_agenda (s : State) (h : Fin 640) (x : Hearth) : (s.setHearth h x).agenda = s.agenda := rfl
@[simp] theorem State.setHearth_turns (s : State) (h : Fin 640) (x : Hearth) : (s.setHearth h x).turns = s.turns := rfl
@[simp] theorem State.setHearth_saved (s : State) (h : Fin 640) (x : Hearth) : (s.setHearth h x).saved = s.saved := rfl
@[simp] theorem State.setHearth_mem (s : State) (h : Fin 640) (x : Hearth) : (s.setHearth h x).mem = s.mem := rfl
@[simp] theorem State.setHearth_roots (s : State) (h : Fin 640) (x : Hearth) : (s.setHearth h x).roots = s.roots := rfl
@[simp] theorem State.setHearth_pins (s : State) (h : Fin 640) (x : Hearth) : (s.setHearth h x).pins = s.pins := rfl
@[simp] theorem State.setHearth_owned (s : State) (h : Fin 640) (x : Hearth) : (s.setHearth h x).owned = s.owned := rfl
@[simp] theorem State.setHearth_regions (s : State) (h : Fin 640) (x : Hearth) : (s.setHearth h x).regions = s.regions := rfl
@[simp] theorem State.setHearth_queues (s : State) (h : Fin 640) (x : Hearth) : (s.setHearth h x).queues = s.queues := rfl
@[simp] theorem State.setHearth_qm (s : State) (h : Fin 640) (x : Hearth) : (s.setHearth h x).qm = s.qm := rfl
@[simp] theorem State.setHearth_cirrus (s : State) (h : Fin 640) (x : Hearth) : (s.setHearth h x).cirrus = s.cirrus := rfl
@[simp] theorem State.setHearth_svc (s : State) (h : Fin 640) (x : Hearth) : (s.setHearth h x).svc = s.svc := rfl
@[simp] theorem State.setHearth_cores (s : State) (h : Fin 640) (x : Hearth) : (s.setHearth h x).cores = s.cores := rfl
@[simp] theorem State.setHearth_links (s : State) (h : Fin 640) (x : Hearth) : (s.setHearth h x).links = s.links := rfl
@[simp] theorem State.setHearth_power (s : State) (h : Fin 640) (x : Hearth) : (s.setHearth h x).power = s.power := rfl
@[simp] theorem State.setHearth_chim (s : State) (h : Fin 640) (x : Hearth) : (s.setHearth h x).chim = s.chim := rfl
@[simp] theorem State.setHearth_hobOut (s : State) (h : Fin 640) (x : Hearth) : (s.setHearth h x).hobOut = s.hobOut := rfl
@[simp] theorem State.setHearth_free (s : State) (h : Fin 640) (x : Hearth) : (s.setHearth h x).free = s.free := rfl

@[simp] theorem State.setCtx_cycle (s : State) (l : Loc) (k : Ctx) : (s.setCtx l k).cycle = s.cycle := rfl
@[simp] theorem State.setCtx_foc (s : State) (l : Loc) (k : Ctx) : (s.setCtx l k).foc = s.foc := rfl
@[simp] theorem State.setCtx_forced (s : State) (l : Loc) (k : Ctx) : (s.setCtx l k).forced = s.forced := rfl
@[simp] theorem State.setCtx_agenda (s : State) (l : Loc) (k : Ctx) : (s.setCtx l k).agenda = s.agenda := rfl
@[simp] theorem State.setCtx_turns (s : State) (l : Loc) (k : Ctx) : (s.setCtx l k).turns = s.turns := rfl
@[simp] theorem State.setCtx_saved (s : State) (l : Loc) (k : Ctx) : (s.setCtx l k).saved = s.saved := rfl
@[simp] theorem State.setCtx_mem (s : State) (l : Loc) (k : Ctx) : (s.setCtx l k).mem = s.mem := rfl
@[simp] theorem State.setCtx_roots (s : State) (l : Loc) (k : Ctx) : (s.setCtx l k).roots = s.roots := rfl
@[simp] theorem State.setCtx_pins (s : State) (l : Loc) (k : Ctx) : (s.setCtx l k).pins = s.pins := rfl
@[simp] theorem State.setCtx_owned (s : State) (l : Loc) (k : Ctx) : (s.setCtx l k).owned = s.owned := rfl
@[simp] theorem State.setCtx_regions (s : State) (l : Loc) (k : Ctx) : (s.setCtx l k).regions = s.regions := rfl
@[simp] theorem State.setCtx_queues (s : State) (l : Loc) (k : Ctx) : (s.setCtx l k).queues = s.queues := rfl
@[simp] theorem State.setCtx_qm (s : State) (l : Loc) (k : Ctx) : (s.setCtx l k).qm = s.qm := rfl
@[simp] theorem State.setCtx_cirrus (s : State) (l : Loc) (k : Ctx) : (s.setCtx l k).cirrus = s.cirrus := rfl
@[simp] theorem State.setCtx_svc (s : State) (l : Loc) (k : Ctx) : (s.setCtx l k).svc = s.svc := rfl
@[simp] theorem State.setCtx_cores (s : State) (l : Loc) (k : Ctx) : (s.setCtx l k).cores = s.cores := rfl
@[simp] theorem State.setCtx_links (s : State) (l : Loc) (k : Ctx) : (s.setCtx l k).links = s.links := rfl
@[simp] theorem State.setCtx_power (s : State) (l : Loc) (k : Ctx) : (s.setCtx l k).power = s.power := rfl
@[simp] theorem State.setCtx_chim (s : State) (l : Loc) (k : Ctx) : (s.setCtx l k).chim = s.chim := rfl
@[simp] theorem State.setCtx_hobOut (s : State) (l : Loc) (k : Ctx) : (s.setCtx l k).hobOut = s.hobOut := rfl
@[simp] theorem State.setCtx_free (s : State) (l : Loc) (k : Ctx) : (s.setCtx l k).free = s.free := rfl

@[simp] theorem State.setFh_cycle (s : State) (x : Hearth) : (s.setFh x).cycle = s.cycle := rfl
@[simp] theorem State.setFh_foc (s : State) (x : Hearth) : (s.setFh x).foc = s.foc := rfl
@[simp] theorem State.setFh_forced (s : State) (x : Hearth) : (s.setFh x).forced = s.forced := rfl
@[simp] theorem State.setFh_agenda (s : State) (x : Hearth) : (s.setFh x).agenda = s.agenda := rfl
@[simp] theorem State.setFh_turns (s : State) (x : Hearth) : (s.setFh x).turns = s.turns := rfl
@[simp] theorem State.setFh_saved (s : State) (x : Hearth) : (s.setFh x).saved = s.saved := rfl
@[simp] theorem State.setFh_mem (s : State) (x : Hearth) : (s.setFh x).mem = s.mem := rfl
@[simp] theorem State.setFh_roots (s : State) (x : Hearth) : (s.setFh x).roots = s.roots := rfl
@[simp] theorem State.setFh_pins (s : State) (x : Hearth) : (s.setFh x).pins = s.pins := rfl
@[simp] theorem State.setFh_owned (s : State) (x : Hearth) : (s.setFh x).owned = s.owned := rfl
@[simp] theorem State.setFh_regions (s : State) (x : Hearth) : (s.setFh x).regions = s.regions := rfl
@[simp] theorem State.setFh_queues (s : State) (x : Hearth) : (s.setFh x).queues = s.queues := rfl
@[simp] theorem State.setFh_qm (s : State) (x : Hearth) : (s.setFh x).qm = s.qm := rfl
@[simp] theorem State.setFh_cirrus (s : State) (x : Hearth) : (s.setFh x).cirrus = s.cirrus := rfl
@[simp] theorem State.setFh_svc (s : State) (x : Hearth) : (s.setFh x).svc = s.svc := rfl
@[simp] theorem State.setFh_cores (s : State) (x : Hearth) : (s.setFh x).cores = s.cores := rfl
@[simp] theorem State.setFh_links (s : State) (x : Hearth) : (s.setFh x).links = s.links := rfl
@[simp] theorem State.setFh_power (s : State) (x : Hearth) : (s.setFh x).power = s.power := rfl
@[simp] theorem State.setFh_chim (s : State) (x : Hearth) : (s.setFh x).chim = s.chim := rfl
@[simp] theorem State.setFh_hobOut (s : State) (x : Hearth) : (s.setFh x).hobOut = s.hobOut := rfl
@[simp] theorem State.setFh_free (s : State) (x : Hearth) : (s.setFh x).free = s.free := rfl

@[simp] theorem State.setFc_cycle (s : State) (k : Ctx) : (s.setFc k).cycle = s.cycle := rfl
@[simp] theorem State.setFc_foc (s : State) (k : Ctx) : (s.setFc k).foc = s.foc := rfl
@[simp] theorem State.setFc_forced (s : State) (k : Ctx) : (s.setFc k).forced = s.forced := rfl
@[simp] theorem State.setFc_agenda (s : State) (k : Ctx) : (s.setFc k).agenda = s.agenda := rfl
@[simp] theorem State.setFc_turns (s : State) (k : Ctx) : (s.setFc k).turns = s.turns := rfl
@[simp] theorem State.setFc_saved (s : State) (k : Ctx) : (s.setFc k).saved = s.saved := rfl
@[simp] theorem State.setFc_mem (s : State) (k : Ctx) : (s.setFc k).mem = s.mem := rfl
@[simp] theorem State.setFc_roots (s : State) (k : Ctx) : (s.setFc k).roots = s.roots := rfl
@[simp] theorem State.setFc_pins (s : State) (k : Ctx) : (s.setFc k).pins = s.pins := rfl
@[simp] theorem State.setFc_owned (s : State) (k : Ctx) : (s.setFc k).owned = s.owned := rfl
@[simp] theorem State.setFc_regions (s : State) (k : Ctx) : (s.setFc k).regions = s.regions := rfl
@[simp] theorem State.setFc_queues (s : State) (k : Ctx) : (s.setFc k).queues = s.queues := rfl
@[simp] theorem State.setFc_qm (s : State) (k : Ctx) : (s.setFc k).qm = s.qm := rfl
@[simp] theorem State.setFc_cirrus (s : State) (k : Ctx) : (s.setFc k).cirrus = s.cirrus := rfl
@[simp] theorem State.setFc_svc (s : State) (k : Ctx) : (s.setFc k).svc = s.svc := rfl
@[simp] theorem State.setFc_cores (s : State) (k : Ctx) : (s.setFc k).cores = s.cores := rfl
@[simp] theorem State.setFc_links (s : State) (k : Ctx) : (s.setFc k).links = s.links := rfl
@[simp] theorem State.setFc_power (s : State) (k : Ctx) : (s.setFc k).power = s.power := rfl
@[simp] theorem State.setFc_chim (s : State) (k : Ctx) : (s.setFc k).chim = s.chim := rfl
@[simp] theorem State.setFc_hobOut (s : State) (k : Ctx) : (s.setFc k).hobOut = s.hobOut := rfl
@[simp] theorem State.setFc_free (s : State) (k : Ctx) : (s.setFc k).free = s.free := rfl

@[simp] theorem State.setMem_cycle (s : State) (m : Mem) : (s.setMem m).cycle = s.cycle := rfl
@[simp] theorem State.setMem_foc (s : State) (m : Mem) : (s.setMem m).foc = s.foc := rfl
@[simp] theorem State.setMem_forced (s : State) (m : Mem) : (s.setMem m).forced = s.forced := rfl
@[simp] theorem State.setMem_agenda (s : State) (m : Mem) : (s.setMem m).agenda = s.agenda := rfl
@[simp] theorem State.setMem_turns (s : State) (m : Mem) : (s.setMem m).turns = s.turns := rfl
@[simp] theorem State.setMem_hearths (s : State) (m : Mem) : (s.setMem m).hearths = s.hearths := rfl
@[simp] theorem State.setMem_saved (s : State) (m : Mem) : (s.setMem m).saved = s.saved := rfl
@[simp] theorem State.setMem_roots (s : State) (m : Mem) : (s.setMem m).roots = s.roots := rfl
@[simp] theorem State.setMem_pins (s : State) (m : Mem) : (s.setMem m).pins = s.pins := rfl
@[simp] theorem State.setMem_owned (s : State) (m : Mem) : (s.setMem m).owned = s.owned := rfl
@[simp] theorem State.setMem_regions (s : State) (m : Mem) : (s.setMem m).regions = s.regions := rfl
@[simp] theorem State.setMem_queues (s : State) (m : Mem) : (s.setMem m).queues = s.queues := rfl
@[simp] theorem State.setMem_qm (s : State) (m : Mem) : (s.setMem m).qm = s.qm := rfl
@[simp] theorem State.setMem_cirrus (s : State) (m : Mem) : (s.setMem m).cirrus = s.cirrus := rfl
@[simp] theorem State.setMem_svc (s : State) (m : Mem) : (s.setMem m).svc = s.svc := rfl
@[simp] theorem State.setMem_cores (s : State) (m : Mem) : (s.setMem m).cores = s.cores := rfl
@[simp] theorem State.setMem_links (s : State) (m : Mem) : (s.setMem m).links = s.links := rfl
@[simp] theorem State.setMem_power (s : State) (m : Mem) : (s.setMem m).power = s.power := rfl
@[simp] theorem State.setMem_chim (s : State) (m : Mem) : (s.setMem m).chim = s.chim := rfl
@[simp] theorem State.setMem_hobOut (s : State) (m : Mem) : (s.setMem m).hobOut = s.hobOut := rfl
@[simp] theorem State.setMem_free (s : State) (m : Mem) : (s.setMem m).free = s.free := rfl

@[simp] theorem State.report_cycle (s : State) (r : Report) : (s.report r).cycle = s.cycle := rfl
@[simp] theorem State.report_foc (s : State) (r : Report) : (s.report r).foc = s.foc := rfl
@[simp] theorem State.report_forced (s : State) (r : Report) : (s.report r).forced = s.forced := rfl
@[simp] theorem State.report_agenda (s : State) (r : Report) : (s.report r).agenda = s.agenda := rfl
@[simp] theorem State.report_turns (s : State) (r : Report) : (s.report r).turns = s.turns := rfl
@[simp] theorem State.report_hearths (s : State) (r : Report) : (s.report r).hearths = s.hearths := rfl
@[simp] theorem State.report_saved (s : State) (r : Report) : (s.report r).saved = s.saved := rfl
@[simp] theorem State.report_mem (s : State) (r : Report) : (s.report r).mem = s.mem := rfl
@[simp] theorem State.report_roots (s : State) (r : Report) : (s.report r).roots = s.roots := rfl
@[simp] theorem State.report_pins (s : State) (r : Report) : (s.report r).pins = s.pins := rfl
@[simp] theorem State.report_owned (s : State) (r : Report) : (s.report r).owned = s.owned := rfl
@[simp] theorem State.report_regions (s : State) (r : Report) : (s.report r).regions = s.regions := rfl
@[simp] theorem State.report_queues (s : State) (r : Report) : (s.report r).queues = s.queues := rfl
@[simp] theorem State.report_qm (s : State) (r : Report) : (s.report r).qm = s.qm := rfl
@[simp] theorem State.report_cirrus (s : State) (r : Report) : (s.report r).cirrus = s.cirrus := rfl
@[simp] theorem State.report_cores (s : State) (r : Report) : (s.report r).cores = s.cores := rfl
@[simp] theorem State.report_links (s : State) (r : Report) : (s.report r).links = s.links := rfl
@[simp] theorem State.report_power (s : State) (r : Report) : (s.report r).power = s.power := rfl
@[simp] theorem State.report_chim (s : State) (r : Report) : (s.report r).chim = s.chim := rfl
@[simp] theorem State.report_hobOut (s : State) (r : Report) : (s.report r).hobOut = s.hobOut := rfl
@[simp] theorem State.report_free (s : State) (r : Report) : (s.report r).free = s.free := rfl

@[simp] theorem State.setHand_cycle (s : State) (c : Cmd) : (s.setHand c).cycle = s.cycle := rfl
@[simp] theorem State.setHand_foc (s : State) (c : Cmd) : (s.setHand c).foc = s.foc := rfl
@[simp] theorem State.setHand_forced (s : State) (c : Cmd) : (s.setHand c).forced = s.forced := rfl
@[simp] theorem State.setHand_agenda (s : State) (c : Cmd) : (s.setHand c).agenda = s.agenda := rfl
@[simp] theorem State.setHand_turns (s : State) (c : Cmd) : (s.setHand c).turns = s.turns := rfl
@[simp] theorem State.setHand_saved (s : State) (c : Cmd) : (s.setHand c).saved = s.saved := rfl
@[simp] theorem State.setHand_mem (s : State) (c : Cmd) : (s.setHand c).mem = s.mem := rfl
@[simp] theorem State.setHand_roots (s : State) (c : Cmd) : (s.setHand c).roots = s.roots := rfl
@[simp] theorem State.setHand_pins (s : State) (c : Cmd) : (s.setHand c).pins = s.pins := rfl
@[simp] theorem State.setHand_owned (s : State) (c : Cmd) : (s.setHand c).owned = s.owned := rfl
@[simp] theorem State.setHand_regions (s : State) (c : Cmd) : (s.setHand c).regions = s.regions := rfl
@[simp] theorem State.setHand_queues (s : State) (c : Cmd) : (s.setHand c).queues = s.queues := rfl
@[simp] theorem State.setHand_qm (s : State) (c : Cmd) : (s.setHand c).qm = s.qm := rfl
@[simp] theorem State.setHand_cirrus (s : State) (c : Cmd) : (s.setHand c).cirrus = s.cirrus := rfl
@[simp] theorem State.setHand_svc (s : State) (c : Cmd) : (s.setHand c).svc = s.svc := rfl
@[simp] theorem State.setHand_cores (s : State) (c : Cmd) : (s.setHand c).cores = s.cores := rfl
@[simp] theorem State.setHand_links (s : State) (c : Cmd) : (s.setHand c).links = s.links := rfl
@[simp] theorem State.setHand_power (s : State) (c : Cmd) : (s.setHand c).power = s.power := rfl
@[simp] theorem State.setHand_chim (s : State) (c : Cmd) : (s.setHand c).chim = s.chim := rfl
@[simp] theorem State.setHand_hobOut (s : State) (c : Cmd) : (s.setHand c).hobOut = s.hobOut := rfl
@[simp] theorem State.setHand_free (s : State) (c : Cmd) : (s.setHand c).free = s.free := rfl

@[simp] theorem State.retire_cycle (s : State) : (s.retire).cycle = s.cycle := rfl
@[simp] theorem State.retire_foc (s : State) : (s.retire).foc = s.foc := rfl
@[simp] theorem State.retire_forced (s : State) : (s.retire).forced = s.forced := rfl
@[simp] theorem State.retire_agenda (s : State) : (s.retire).agenda = s.agenda := rfl
@[simp] theorem State.retire_turns (s : State) : (s.retire).turns = s.turns := rfl
@[simp] theorem State.retire_saved (s : State) : (s.retire).saved = s.saved := rfl
@[simp] theorem State.retire_mem (s : State) : (s.retire).mem = s.mem := rfl
@[simp] theorem State.retire_roots (s : State) : (s.retire).roots = s.roots := rfl
@[simp] theorem State.retire_pins (s : State) : (s.retire).pins = s.pins := rfl
@[simp] theorem State.retire_owned (s : State) : (s.retire).owned = s.owned := rfl
@[simp] theorem State.retire_regions (s : State) : (s.retire).regions = s.regions := rfl
@[simp] theorem State.retire_queues (s : State) : (s.retire).queues = s.queues := rfl
@[simp] theorem State.retire_qm (s : State) : (s.retire).qm = s.qm := rfl
@[simp] theorem State.retire_cirrus (s : State) : (s.retire).cirrus = s.cirrus := rfl
@[simp] theorem State.retire_svc (s : State) : (s.retire).svc = s.svc := rfl
@[simp] theorem State.retire_cores (s : State) : (s.retire).cores = s.cores := rfl
@[simp] theorem State.retire_links (s : State) : (s.retire).links = s.links := rfl
@[simp] theorem State.retire_power (s : State) : (s.retire).power = s.power := rfl
@[simp] theorem State.retire_chim (s : State) : (s.retire).chim = s.chim := rfl
@[simp] theorem State.retire_hobOut (s : State) : (s.retire).hobOut = s.hobOut := rfl
@[simp] theorem State.retire_free (s : State) : (s.retire).free = s.free := rfl

@[simp] theorem State.retireWith_cycle (s : State) (r : XReg) (v : Word) : (s.retireWith r v).cycle = s.cycle := rfl
@[simp] theorem State.retireWith_foc (s : State) (r : XReg) (v : Word) : (s.retireWith r v).foc = s.foc := rfl
@[simp] theorem State.retireWith_forced (s : State) (r : XReg) (v : Word) : (s.retireWith r v).forced = s.forced := rfl
@[simp] theorem State.retireWith_agenda (s : State) (r : XReg) (v : Word) : (s.retireWith r v).agenda = s.agenda := rfl
@[simp] theorem State.retireWith_turns (s : State) (r : XReg) (v : Word) : (s.retireWith r v).turns = s.turns := rfl
@[simp] theorem State.retireWith_saved (s : State) (r : XReg) (v : Word) : (s.retireWith r v).saved = s.saved := rfl
@[simp] theorem State.retireWith_mem (s : State) (r : XReg) (v : Word) : (s.retireWith r v).mem = s.mem := rfl
@[simp] theorem State.retireWith_roots (s : State) (r : XReg) (v : Word) : (s.retireWith r v).roots = s.roots := rfl
@[simp] theorem State.retireWith_pins (s : State) (r : XReg) (v : Word) : (s.retireWith r v).pins = s.pins := rfl
@[simp] theorem State.retireWith_owned (s : State) (r : XReg) (v : Word) : (s.retireWith r v).owned = s.owned := rfl
@[simp] theorem State.retireWith_regions (s : State) (r : XReg) (v : Word) : (s.retireWith r v).regions = s.regions := rfl
@[simp] theorem State.retireWith_queues (s : State) (r : XReg) (v : Word) : (s.retireWith r v).queues = s.queues := rfl
@[simp] theorem State.retireWith_qm (s : State) (r : XReg) (v : Word) : (s.retireWith r v).qm = s.qm := rfl
@[simp] theorem State.retireWith_cirrus (s : State) (r : XReg) (v : Word) : (s.retireWith r v).cirrus = s.cirrus := rfl
@[simp] theorem State.retireWith_svc (s : State) (r : XReg) (v : Word) : (s.retireWith r v).svc = s.svc := rfl
@[simp] theorem State.retireWith_cores (s : State) (r : XReg) (v : Word) : (s.retireWith r v).cores = s.cores := rfl
@[simp] theorem State.retireWith_links (s : State) (r : XReg) (v : Word) : (s.retireWith r v).links = s.links := rfl
@[simp] theorem State.retireWith_power (s : State) (r : XReg) (v : Word) : (s.retireWith r v).power = s.power := rfl
@[simp] theorem State.retireWith_chim (s : State) (r : XReg) (v : Word) : (s.retireWith r v).chim = s.chim := rfl
@[simp] theorem State.retireWith_hobOut (s : State) (r : XReg) (v : Word) : (s.retireWith r v).hobOut = s.hobOut := rfl
@[simp] theorem State.retireWith_free (s : State) (r : XReg) (v : Word) : (s.retireWith r v).free = s.free := rfl

@[simp] theorem State.setFlag_cycle (s : State) (h : Fin 640) (fl : Fin 256) (v : W32) : (s.setFlag h fl v).cycle = s.cycle := rfl
@[simp] theorem State.setFlag_foc (s : State) (h : Fin 640) (fl : Fin 256) (v : W32) : (s.setFlag h fl v).foc = s.foc := rfl
@[simp] theorem State.setFlag_forced (s : State) (h : Fin 640) (fl : Fin 256) (v : W32) : (s.setFlag h fl v).forced = s.forced := rfl
@[simp] theorem State.setFlag_agenda (s : State) (h : Fin 640) (fl : Fin 256) (v : W32) : (s.setFlag h fl v).agenda = s.agenda := rfl
@[simp] theorem State.setFlag_turns (s : State) (h : Fin 640) (fl : Fin 256) (v : W32) : (s.setFlag h fl v).turns = s.turns := rfl
@[simp] theorem State.setFlag_saved (s : State) (h : Fin 640) (fl : Fin 256) (v : W32) : (s.setFlag h fl v).saved = s.saved := rfl
@[simp] theorem State.setFlag_mem (s : State) (h : Fin 640) (fl : Fin 256) (v : W32) : (s.setFlag h fl v).mem = s.mem := rfl
@[simp] theorem State.setFlag_roots (s : State) (h : Fin 640) (fl : Fin 256) (v : W32) : (s.setFlag h fl v).roots = s.roots := rfl
@[simp] theorem State.setFlag_pins (s : State) (h : Fin 640) (fl : Fin 256) (v : W32) : (s.setFlag h fl v).pins = s.pins := rfl
@[simp] theorem State.setFlag_owned (s : State) (h : Fin 640) (fl : Fin 256) (v : W32) : (s.setFlag h fl v).owned = s.owned := rfl
@[simp] theorem State.setFlag_regions (s : State) (h : Fin 640) (fl : Fin 256) (v : W32) : (s.setFlag h fl v).regions = s.regions := rfl
@[simp] theorem State.setFlag_queues (s : State) (h : Fin 640) (fl : Fin 256) (v : W32) : (s.setFlag h fl v).queues = s.queues := rfl
@[simp] theorem State.setFlag_qm (s : State) (h : Fin 640) (fl : Fin 256) (v : W32) : (s.setFlag h fl v).qm = s.qm := rfl
@[simp] theorem State.setFlag_cirrus (s : State) (h : Fin 640) (fl : Fin 256) (v : W32) : (s.setFlag h fl v).cirrus = s.cirrus := rfl
@[simp] theorem State.setFlag_svc (s : State) (h : Fin 640) (fl : Fin 256) (v : W32) : (s.setFlag h fl v).svc = s.svc := rfl
@[simp] theorem State.setFlag_cores (s : State) (h : Fin 640) (fl : Fin 256) (v : W32) : (s.setFlag h fl v).cores = s.cores := rfl
@[simp] theorem State.setFlag_links (s : State) (h : Fin 640) (fl : Fin 256) (v : W32) : (s.setFlag h fl v).links = s.links := rfl
@[simp] theorem State.setFlag_power (s : State) (h : Fin 640) (fl : Fin 256) (v : W32) : (s.setFlag h fl v).power = s.power := rfl
@[simp] theorem State.setFlag_chim (s : State) (h : Fin 640) (fl : Fin 256) (v : W32) : (s.setFlag h fl v).chim = s.chim := rfl
@[simp] theorem State.setFlag_hobOut (s : State) (h : Fin 640) (fl : Fin 256) (v : W32) : (s.setFlag h fl v).hobOut = s.hobOut := rfl
@[simp] theorem State.setFlag_free (s : State) (h : Fin 640) (fl : Fin 256) (v : W32) : (s.setFlag h fl v).free = s.free := rfl

@[simp] theorem State.pushHeld_cycle (s : State) (h : Fin 640) (e : Held) : (s.pushHeld h e).cycle = s.cycle := rfl
@[simp] theorem State.pushHeld_foc (s : State) (h : Fin 640) (e : Held) : (s.pushHeld h e).foc = s.foc := rfl
@[simp] theorem State.pushHeld_forced (s : State) (h : Fin 640) (e : Held) : (s.pushHeld h e).forced = s.forced := rfl
@[simp] theorem State.pushHeld_agenda (s : State) (h : Fin 640) (e : Held) : (s.pushHeld h e).agenda = s.agenda := rfl
@[simp] theorem State.pushHeld_turns (s : State) (h : Fin 640) (e : Held) : (s.pushHeld h e).turns = s.turns := rfl
@[simp] theorem State.pushHeld_saved (s : State) (h : Fin 640) (e : Held) : (s.pushHeld h e).saved = s.saved := rfl
@[simp] theorem State.pushHeld_mem (s : State) (h : Fin 640) (e : Held) : (s.pushHeld h e).mem = s.mem := rfl
@[simp] theorem State.pushHeld_roots (s : State) (h : Fin 640) (e : Held) : (s.pushHeld h e).roots = s.roots := rfl
@[simp] theorem State.pushHeld_pins (s : State) (h : Fin 640) (e : Held) : (s.pushHeld h e).pins = s.pins := rfl
@[simp] theorem State.pushHeld_owned (s : State) (h : Fin 640) (e : Held) : (s.pushHeld h e).owned = s.owned := rfl
@[simp] theorem State.pushHeld_regions (s : State) (h : Fin 640) (e : Held) : (s.pushHeld h e).regions = s.regions := rfl
@[simp] theorem State.pushHeld_queues (s : State) (h : Fin 640) (e : Held) : (s.pushHeld h e).queues = s.queues := rfl
@[simp] theorem State.pushHeld_qm (s : State) (h : Fin 640) (e : Held) : (s.pushHeld h e).qm = s.qm := rfl
@[simp] theorem State.pushHeld_cirrus (s : State) (h : Fin 640) (e : Held) : (s.pushHeld h e).cirrus = s.cirrus := rfl
@[simp] theorem State.pushHeld_svc (s : State) (h : Fin 640) (e : Held) : (s.pushHeld h e).svc = s.svc := rfl
@[simp] theorem State.pushHeld_cores (s : State) (h : Fin 640) (e : Held) : (s.pushHeld h e).cores = s.cores := rfl
@[simp] theorem State.pushHeld_links (s : State) (h : Fin 640) (e : Held) : (s.pushHeld h e).links = s.links := rfl
@[simp] theorem State.pushHeld_power (s : State) (h : Fin 640) (e : Held) : (s.pushHeld h e).power = s.power := rfl
@[simp] theorem State.pushHeld_chim (s : State) (h : Fin 640) (e : Held) : (s.pushHeld h e).chim = s.chim := rfl
@[simp] theorem State.pushHeld_hobOut (s : State) (h : Fin 640) (e : Held) : (s.pushHeld h e).hobOut = s.hobOut := rfl
@[simp] theorem State.pushHeld_free (s : State) (h : Fin 640) (e : Held) : (s.pushHeld h e).free = s.free := rfl

@[simp] theorem State.clearResvMem_cycle (s : State) (ks : List Nat) (w : Option Loc) : (s.clearResvMem ks w).cycle = s.cycle := by simp only [State.clearResvMem]
@[simp] theorem State.clearResvMem_foc (s : State) (ks : List Nat) (w : Option Loc) : (s.clearResvMem ks w).foc = s.foc := by simp only [State.clearResvMem]
@[simp] theorem State.clearResvMem_forced (s : State) (ks : List Nat) (w : Option Loc) : (s.clearResvMem ks w).forced = s.forced := by simp only [State.clearResvMem]
@[simp] theorem State.clearResvMem_agenda (s : State) (ks : List Nat) (w : Option Loc) : (s.clearResvMem ks w).agenda = s.agenda := by simp only [State.clearResvMem]
@[simp] theorem State.clearResvMem_turns (s : State) (ks : List Nat) (w : Option Loc) : (s.clearResvMem ks w).turns = s.turns := by simp only [State.clearResvMem]
@[simp] theorem State.clearResvMem_saved (s : State) (ks : List Nat) (w : Option Loc) : (s.clearResvMem ks w).saved = s.saved := by simp only [State.clearResvMem]
@[simp] theorem State.clearResvMem_mem (s : State) (ks : List Nat) (w : Option Loc) : (s.clearResvMem ks w).mem = s.mem := by simp only [State.clearResvMem]
@[simp] theorem State.clearResvMem_roots (s : State) (ks : List Nat) (w : Option Loc) : (s.clearResvMem ks w).roots = s.roots := by simp only [State.clearResvMem]
@[simp] theorem State.clearResvMem_pins (s : State) (ks : List Nat) (w : Option Loc) : (s.clearResvMem ks w).pins = s.pins := by simp only [State.clearResvMem]
@[simp] theorem State.clearResvMem_regions (s : State) (ks : List Nat) (w : Option Loc) : (s.clearResvMem ks w).regions = s.regions := by simp only [State.clearResvMem]
@[simp] theorem State.clearResvMem_queues (s : State) (ks : List Nat) (w : Option Loc) : (s.clearResvMem ks w).queues = s.queues := by simp only [State.clearResvMem]
@[simp] theorem State.clearResvMem_qm (s : State) (ks : List Nat) (w : Option Loc) : (s.clearResvMem ks w).qm = s.qm := by simp only [State.clearResvMem]
@[simp] theorem State.clearResvMem_cirrus (s : State) (ks : List Nat) (w : Option Loc) : (s.clearResvMem ks w).cirrus = s.cirrus := by simp only [State.clearResvMem]
@[simp] theorem State.clearResvMem_svc (s : State) (ks : List Nat) (w : Option Loc) : (s.clearResvMem ks w).svc = s.svc := by simp only [State.clearResvMem]
@[simp] theorem State.clearResvMem_links (s : State) (ks : List Nat) (w : Option Loc) : (s.clearResvMem ks w).links = s.links := by simp only [State.clearResvMem]
@[simp] theorem State.clearResvMem_power (s : State) (ks : List Nat) (w : Option Loc) : (s.clearResvMem ks w).power = s.power := by simp only [State.clearResvMem]
@[simp] theorem State.clearResvMem_chim (s : State) (ks : List Nat) (w : Option Loc) : (s.clearResvMem ks w).chim = s.chim := by simp only [State.clearResvMem]
@[simp] theorem State.clearResvMem_hobOut (s : State) (ks : List Nat) (w : Option Loc) : (s.clearResvMem ks w).hobOut = s.hobOut := by simp only [State.clearResvMem]
@[simp] theorem State.clearResvMem_free (s : State) (ks : List Nat) (w : Option Loc) : (s.clearResvMem ks w).free = s.free := by simp only [State.clearResvMem]

@[simp] theorem State.memWrite_cycle (s : State) (ks : List Nat) (bs : List Byte) : (s.memWrite ks bs).cycle = s.cycle := rfl
@[simp] theorem State.memWrite_foc (s : State) (ks : List Nat) (bs : List Byte) : (s.memWrite ks bs).foc = s.foc := rfl
@[simp] theorem State.memWrite_forced (s : State) (ks : List Nat) (bs : List Byte) : (s.memWrite ks bs).forced = s.forced := rfl
@[simp] theorem State.memWrite_agenda (s : State) (ks : List Nat) (bs : List Byte) : (s.memWrite ks bs).agenda = s.agenda := rfl
@[simp] theorem State.memWrite_turns (s : State) (ks : List Nat) (bs : List Byte) : (s.memWrite ks bs).turns = s.turns := rfl
@[simp] theorem State.memWrite_hearths (s : State) (ks : List Nat) (bs : List Byte) : (s.memWrite ks bs).hearths = s.hearths := rfl
@[simp] theorem State.memWrite_saved (s : State) (ks : List Nat) (bs : List Byte) : (s.memWrite ks bs).saved = s.saved := rfl
@[simp] theorem State.memWrite_roots (s : State) (ks : List Nat) (bs : List Byte) : (s.memWrite ks bs).roots = s.roots := rfl
@[simp] theorem State.memWrite_pins (s : State) (ks : List Nat) (bs : List Byte) : (s.memWrite ks bs).pins = s.pins := rfl
@[simp] theorem State.memWrite_owned (s : State) (ks : List Nat) (bs : List Byte) : (s.memWrite ks bs).owned = s.owned := rfl
@[simp] theorem State.memWrite_regions (s : State) (ks : List Nat) (bs : List Byte) : (s.memWrite ks bs).regions = s.regions := rfl
@[simp] theorem State.memWrite_queues (s : State) (ks : List Nat) (bs : List Byte) : (s.memWrite ks bs).queues = s.queues := rfl
@[simp] theorem State.memWrite_qm (s : State) (ks : List Nat) (bs : List Byte) : (s.memWrite ks bs).qm = s.qm := rfl
@[simp] theorem State.memWrite_cirrus (s : State) (ks : List Nat) (bs : List Byte) : (s.memWrite ks bs).cirrus = s.cirrus := rfl
@[simp] theorem State.memWrite_svc (s : State) (ks : List Nat) (bs : List Byte) : (s.memWrite ks bs).svc = s.svc := rfl
@[simp] theorem State.memWrite_cores (s : State) (ks : List Nat) (bs : List Byte) : (s.memWrite ks bs).cores = s.cores := rfl
@[simp] theorem State.memWrite_links (s : State) (ks : List Nat) (bs : List Byte) : (s.memWrite ks bs).links = s.links := rfl
@[simp] theorem State.memWrite_power (s : State) (ks : List Nat) (bs : List Byte) : (s.memWrite ks bs).power = s.power := rfl
@[simp] theorem State.memWrite_chim (s : State) (ks : List Nat) (bs : List Byte) : (s.memWrite ks bs).chim = s.chim := rfl
@[simp] theorem State.memWrite_hobOut (s : State) (ks : List Nat) (bs : List Byte) : (s.memWrite ks bs).hobOut = s.hobOut := rfl
@[simp] theorem State.memWrite_free (s : State) (ks : List Nat) (bs : List Byte) : (s.memWrite ks bs).free = s.free := rfl

@[simp] theorem State.memStore_cycle (s : State) (ks : List Nat) (bs : List Byte) (w : Option Loc) : (s.memStore ks bs w).cycle = s.cycle := by simp only [State.memStore, State.clearResvMem_cycle, State.memWrite_cycle]
@[simp] theorem State.memStore_foc (s : State) (ks : List Nat) (bs : List Byte) (w : Option Loc) : (s.memStore ks bs w).foc = s.foc := by simp only [State.memStore, State.clearResvMem_foc, State.memWrite_foc]
@[simp] theorem State.memStore_forced (s : State) (ks : List Nat) (bs : List Byte) (w : Option Loc) : (s.memStore ks bs w).forced = s.forced := by simp only [State.memStore, State.clearResvMem_forced, State.memWrite_forced]
@[simp] theorem State.memStore_agenda (s : State) (ks : List Nat) (bs : List Byte) (w : Option Loc) : (s.memStore ks bs w).agenda = s.agenda := by simp only [State.memStore, State.clearResvMem_agenda, State.memWrite_agenda]
@[simp] theorem State.memStore_turns (s : State) (ks : List Nat) (bs : List Byte) (w : Option Loc) : (s.memStore ks bs w).turns = s.turns := by simp only [State.memStore, State.clearResvMem_turns, State.memWrite_turns]
@[simp] theorem State.memStore_saved (s : State) (ks : List Nat) (bs : List Byte) (w : Option Loc) : (s.memStore ks bs w).saved = s.saved := by simp only [State.memStore, State.clearResvMem_saved, State.memWrite_saved]
@[simp] theorem State.memStore_roots (s : State) (ks : List Nat) (bs : List Byte) (w : Option Loc) : (s.memStore ks bs w).roots = s.roots := by simp only [State.memStore, State.clearResvMem_roots, State.memWrite_roots]
@[simp] theorem State.memStore_pins (s : State) (ks : List Nat) (bs : List Byte) (w : Option Loc) : (s.memStore ks bs w).pins = s.pins := by simp only [State.memStore, State.clearResvMem_pins, State.memWrite_pins]
@[simp] theorem State.memStore_regions (s : State) (ks : List Nat) (bs : List Byte) (w : Option Loc) : (s.memStore ks bs w).regions = s.regions := by simp only [State.memStore, State.clearResvMem_regions, State.memWrite_regions]
@[simp] theorem State.memStore_queues (s : State) (ks : List Nat) (bs : List Byte) (w : Option Loc) : (s.memStore ks bs w).queues = s.queues := by simp only [State.memStore, State.clearResvMem_queues, State.memWrite_queues]
@[simp] theorem State.memStore_qm (s : State) (ks : List Nat) (bs : List Byte) (w : Option Loc) : (s.memStore ks bs w).qm = s.qm := by simp only [State.memStore, State.clearResvMem_qm, State.memWrite_qm]
@[simp] theorem State.memStore_cirrus (s : State) (ks : List Nat) (bs : List Byte) (w : Option Loc) : (s.memStore ks bs w).cirrus = s.cirrus := by simp only [State.memStore, State.clearResvMem_cirrus, State.memWrite_cirrus]
@[simp] theorem State.memStore_svc (s : State) (ks : List Nat) (bs : List Byte) (w : Option Loc) : (s.memStore ks bs w).svc = s.svc := by simp only [State.memStore, State.clearResvMem_svc, State.memWrite_svc]
@[simp] theorem State.memStore_links (s : State) (ks : List Nat) (bs : List Byte) (w : Option Loc) : (s.memStore ks bs w).links = s.links := by simp only [State.memStore, State.clearResvMem_links, State.memWrite_links]
@[simp] theorem State.memStore_power (s : State) (ks : List Nat) (bs : List Byte) (w : Option Loc) : (s.memStore ks bs w).power = s.power := by simp only [State.memStore, State.clearResvMem_power, State.memWrite_power]
@[simp] theorem State.memStore_chim (s : State) (ks : List Nat) (bs : List Byte) (w : Option Loc) : (s.memStore ks bs w).chim = s.chim := by simp only [State.memStore, State.clearResvMem_chim, State.memWrite_chim]
@[simp] theorem State.memStore_hobOut (s : State) (ks : List Nat) (bs : List Byte) (w : Option Loc) : (s.memStore ks bs w).hobOut = s.hobOut := by simp only [State.memStore, State.clearResvMem_hobOut, State.memWrite_hobOut]
@[simp] theorem State.memStore_free (s : State) (ks : List Nat) (bs : List Byte) (w : Option Loc) : (s.memStore ks bs w).free = s.free := by simp only [State.memStore, State.clearResvMem_free, State.memWrite_free]

@[simp] theorem State.msix_cycle (s : State) (v : Nat) : (s.msix v).cycle = s.cycle := rfl
@[simp] theorem State.msix_foc (s : State) (v : Nat) : (s.msix v).foc = s.foc := rfl
@[simp] theorem State.msix_forced (s : State) (v : Nat) : (s.msix v).forced = s.forced := rfl
@[simp] theorem State.msix_agenda (s : State) (v : Nat) : (s.msix v).agenda = s.agenda := rfl
@[simp] theorem State.msix_turns (s : State) (v : Nat) : (s.msix v).turns = s.turns := rfl
@[simp] theorem State.msix_hearths (s : State) (v : Nat) : (s.msix v).hearths = s.hearths := rfl
@[simp] theorem State.msix_saved (s : State) (v : Nat) : (s.msix v).saved = s.saved := rfl
@[simp] theorem State.msix_mem (s : State) (v : Nat) : (s.msix v).mem = s.mem := rfl
@[simp] theorem State.msix_roots (s : State) (v : Nat) : (s.msix v).roots = s.roots := rfl
@[simp] theorem State.msix_pins (s : State) (v : Nat) : (s.msix v).pins = s.pins := rfl
@[simp] theorem State.msix_owned (s : State) (v : Nat) : (s.msix v).owned = s.owned := rfl
@[simp] theorem State.msix_regions (s : State) (v : Nat) : (s.msix v).regions = s.regions := rfl
@[simp] theorem State.msix_queues (s : State) (v : Nat) : (s.msix v).queues = s.queues := rfl
@[simp] theorem State.msix_qm (s : State) (v : Nat) : (s.msix v).qm = s.qm := rfl
@[simp] theorem State.msix_cirrus (s : State) (v : Nat) : (s.msix v).cirrus = s.cirrus := rfl
@[simp] theorem State.msix_svc (s : State) (v : Nat) : (s.msix v).svc = s.svc := rfl
@[simp] theorem State.msix_cores (s : State) (v : Nat) : (s.msix v).cores = s.cores := rfl
@[simp] theorem State.msix_power (s : State) (v : Nat) : (s.msix v).power = s.power := rfl
@[simp] theorem State.msix_chim (s : State) (v : Nat) : (s.msix v).chim = s.chim := rfl
@[simp] theorem State.msix_hobOut (s : State) (v : Nat) : (s.msix v).hobOut = s.hobOut := rfl
@[simp] theorem State.msix_free (s : State) (v : Nat) : (s.msix v).free = s.free := rfl

@[simp] theorem State.setQueue_cycle (s : State) (q : Fin 2048) (w : WorkQueue) : (s.setQueue q w).cycle = s.cycle := rfl
@[simp] theorem State.setQueue_foc (s : State) (q : Fin 2048) (w : WorkQueue) : (s.setQueue q w).foc = s.foc := rfl
@[simp] theorem State.setQueue_forced (s : State) (q : Fin 2048) (w : WorkQueue) : (s.setQueue q w).forced = s.forced := rfl
@[simp] theorem State.setQueue_agenda (s : State) (q : Fin 2048) (w : WorkQueue) : (s.setQueue q w).agenda = s.agenda := rfl
@[simp] theorem State.setQueue_turns (s : State) (q : Fin 2048) (w : WorkQueue) : (s.setQueue q w).turns = s.turns := rfl
@[simp] theorem State.setQueue_hearths (s : State) (q : Fin 2048) (w : WorkQueue) : (s.setQueue q w).hearths = s.hearths := rfl
@[simp] theorem State.setQueue_saved (s : State) (q : Fin 2048) (w : WorkQueue) : (s.setQueue q w).saved = s.saved := rfl
@[simp] theorem State.setQueue_mem (s : State) (q : Fin 2048) (w : WorkQueue) : (s.setQueue q w).mem = s.mem := rfl
@[simp] theorem State.setQueue_roots (s : State) (q : Fin 2048) (w : WorkQueue) : (s.setQueue q w).roots = s.roots := rfl
@[simp] theorem State.setQueue_pins (s : State) (q : Fin 2048) (w : WorkQueue) : (s.setQueue q w).pins = s.pins := rfl
@[simp] theorem State.setQueue_owned (s : State) (q : Fin 2048) (w : WorkQueue) : (s.setQueue q w).owned = s.owned := rfl
@[simp] theorem State.setQueue_regions (s : State) (q : Fin 2048) (w : WorkQueue) : (s.setQueue q w).regions = s.regions := rfl
@[simp] theorem State.setQueue_qm (s : State) (q : Fin 2048) (w : WorkQueue) : (s.setQueue q w).qm = s.qm := rfl
@[simp] theorem State.setQueue_cirrus (s : State) (q : Fin 2048) (w : WorkQueue) : (s.setQueue q w).cirrus = s.cirrus := rfl
@[simp] theorem State.setQueue_svc (s : State) (q : Fin 2048) (w : WorkQueue) : (s.setQueue q w).svc = s.svc := rfl
@[simp] theorem State.setQueue_cores (s : State) (q : Fin 2048) (w : WorkQueue) : (s.setQueue q w).cores = s.cores := rfl
@[simp] theorem State.setQueue_links (s : State) (q : Fin 2048) (w : WorkQueue) : (s.setQueue q w).links = s.links := rfl
@[simp] theorem State.setQueue_power (s : State) (q : Fin 2048) (w : WorkQueue) : (s.setQueue q w).power = s.power := rfl
@[simp] theorem State.setQueue_chim (s : State) (q : Fin 2048) (w : WorkQueue) : (s.setQueue q w).chim = s.chim := rfl
@[simp] theorem State.setQueue_hobOut (s : State) (q : Fin 2048) (w : WorkQueue) : (s.setQueue q w).hobOut = s.hobOut := rfl
@[simp] theorem State.setQueue_free (s : State) (q : Fin 2048) (w : WorkQueue) : (s.setQueue q w).free = s.free := rfl

@[simp] theorem State.setIndex_cycle (s : State) (i : Fin 64) (x : Option Index) : (s.setIndex i x).cycle = s.cycle := rfl
@[simp] theorem State.setIndex_foc (s : State) (i : Fin 64) (x : Option Index) : (s.setIndex i x).foc = s.foc := rfl
@[simp] theorem State.setIndex_forced (s : State) (i : Fin 64) (x : Option Index) : (s.setIndex i x).forced = s.forced := rfl
@[simp] theorem State.setIndex_agenda (s : State) (i : Fin 64) (x : Option Index) : (s.setIndex i x).agenda = s.agenda := rfl
@[simp] theorem State.setIndex_turns (s : State) (i : Fin 64) (x : Option Index) : (s.setIndex i x).turns = s.turns := rfl
@[simp] theorem State.setIndex_hearths (s : State) (i : Fin 64) (x : Option Index) : (s.setIndex i x).hearths = s.hearths := rfl
@[simp] theorem State.setIndex_saved (s : State) (i : Fin 64) (x : Option Index) : (s.setIndex i x).saved = s.saved := rfl
@[simp] theorem State.setIndex_mem (s : State) (i : Fin 64) (x : Option Index) : (s.setIndex i x).mem = s.mem := rfl
@[simp] theorem State.setIndex_roots (s : State) (i : Fin 64) (x : Option Index) : (s.setIndex i x).roots = s.roots := rfl
@[simp] theorem State.setIndex_pins (s : State) (i : Fin 64) (x : Option Index) : (s.setIndex i x).pins = s.pins := rfl
@[simp] theorem State.setIndex_owned (s : State) (i : Fin 64) (x : Option Index) : (s.setIndex i x).owned = s.owned := rfl
@[simp] theorem State.setIndex_regions (s : State) (i : Fin 64) (x : Option Index) : (s.setIndex i x).regions = s.regions := rfl
@[simp] theorem State.setIndex_queues (s : State) (i : Fin 64) (x : Option Index) : (s.setIndex i x).queues = s.queues := rfl
@[simp] theorem State.setIndex_qm (s : State) (i : Fin 64) (x : Option Index) : (s.setIndex i x).qm = s.qm := rfl
@[simp] theorem State.setIndex_svc (s : State) (i : Fin 64) (x : Option Index) : (s.setIndex i x).svc = s.svc := rfl
@[simp] theorem State.setIndex_cores (s : State) (i : Fin 64) (x : Option Index) : (s.setIndex i x).cores = s.cores := rfl
@[simp] theorem State.setIndex_links (s : State) (i : Fin 64) (x : Option Index) : (s.setIndex i x).links = s.links := rfl
@[simp] theorem State.setIndex_power (s : State) (i : Fin 64) (x : Option Index) : (s.setIndex i x).power = s.power := rfl
@[simp] theorem State.setIndex_chim (s : State) (i : Fin 64) (x : Option Index) : (s.setIndex i x).chim = s.chim := rfl
@[simp] theorem State.setIndex_hobOut (s : State) (i : Fin 64) (x : Option Index) : (s.setIndex i x).hobOut = s.hobOut := rfl
@[simp] theorem State.setIndex_free (s : State) (i : Fin 64) (x : Option Index) : (s.setIndex i x).free = s.free := rfl

@[simp] theorem State.setLinks_cycle (s : State) (l : Links) : (s.setLinks l).cycle = s.cycle := rfl
@[simp] theorem State.setLinks_foc (s : State) (l : Links) : (s.setLinks l).foc = s.foc := rfl
@[simp] theorem State.setLinks_forced (s : State) (l : Links) : (s.setLinks l).forced = s.forced := rfl
@[simp] theorem State.setLinks_agenda (s : State) (l : Links) : (s.setLinks l).agenda = s.agenda := rfl
@[simp] theorem State.setLinks_turns (s : State) (l : Links) : (s.setLinks l).turns = s.turns := rfl
@[simp] theorem State.setLinks_hearths (s : State) (l : Links) : (s.setLinks l).hearths = s.hearths := rfl
@[simp] theorem State.setLinks_saved (s : State) (l : Links) : (s.setLinks l).saved = s.saved := rfl
@[simp] theorem State.setLinks_mem (s : State) (l : Links) : (s.setLinks l).mem = s.mem := rfl
@[simp] theorem State.setLinks_roots (s : State) (l : Links) : (s.setLinks l).roots = s.roots := rfl
@[simp] theorem State.setLinks_pins (s : State) (l : Links) : (s.setLinks l).pins = s.pins := rfl
@[simp] theorem State.setLinks_owned (s : State) (l : Links) : (s.setLinks l).owned = s.owned := rfl
@[simp] theorem State.setLinks_regions (s : State) (l : Links) : (s.setLinks l).regions = s.regions := rfl
@[simp] theorem State.setLinks_queues (s : State) (l : Links) : (s.setLinks l).queues = s.queues := rfl
@[simp] theorem State.setLinks_qm (s : State) (l : Links) : (s.setLinks l).qm = s.qm := rfl
@[simp] theorem State.setLinks_cirrus (s : State) (l : Links) : (s.setLinks l).cirrus = s.cirrus := rfl
@[simp] theorem State.setLinks_svc (s : State) (l : Links) : (s.setLinks l).svc = s.svc := rfl
@[simp] theorem State.setLinks_cores (s : State) (l : Links) : (s.setLinks l).cores = s.cores := rfl
@[simp] theorem State.setLinks_power (s : State) (l : Links) : (s.setLinks l).power = s.power := rfl
@[simp] theorem State.setLinks_chim (s : State) (l : Links) : (s.setLinks l).chim = s.chim := rfl
@[simp] theorem State.setLinks_hobOut (s : State) (l : Links) : (s.setLinks l).hobOut = s.hobOut := rfl
@[simp] theorem State.setLinks_free (s : State) (l : Links) : (s.setLinks l).free = s.free := rfl

@[simp] theorem State.hobPrint_cycle (s : State) (e : HobOut) : (s.hobPrint e).cycle = s.cycle := rfl
@[simp] theorem State.hobPrint_foc (s : State) (e : HobOut) : (s.hobPrint e).foc = s.foc := rfl
@[simp] theorem State.hobPrint_forced (s : State) (e : HobOut) : (s.hobPrint e).forced = s.forced := rfl
@[simp] theorem State.hobPrint_agenda (s : State) (e : HobOut) : (s.hobPrint e).agenda = s.agenda := rfl
@[simp] theorem State.hobPrint_turns (s : State) (e : HobOut) : (s.hobPrint e).turns = s.turns := rfl
@[simp] theorem State.hobPrint_hearths (s : State) (e : HobOut) : (s.hobPrint e).hearths = s.hearths := rfl
@[simp] theorem State.hobPrint_saved (s : State) (e : HobOut) : (s.hobPrint e).saved = s.saved := rfl
@[simp] theorem State.hobPrint_mem (s : State) (e : HobOut) : (s.hobPrint e).mem = s.mem := rfl
@[simp] theorem State.hobPrint_roots (s : State) (e : HobOut) : (s.hobPrint e).roots = s.roots := rfl
@[simp] theorem State.hobPrint_pins (s : State) (e : HobOut) : (s.hobPrint e).pins = s.pins := rfl
@[simp] theorem State.hobPrint_owned (s : State) (e : HobOut) : (s.hobPrint e).owned = s.owned := rfl
@[simp] theorem State.hobPrint_regions (s : State) (e : HobOut) : (s.hobPrint e).regions = s.regions := rfl
@[simp] theorem State.hobPrint_queues (s : State) (e : HobOut) : (s.hobPrint e).queues = s.queues := rfl
@[simp] theorem State.hobPrint_qm (s : State) (e : HobOut) : (s.hobPrint e).qm = s.qm := rfl
@[simp] theorem State.hobPrint_cirrus (s : State) (e : HobOut) : (s.hobPrint e).cirrus = s.cirrus := rfl
@[simp] theorem State.hobPrint_svc (s : State) (e : HobOut) : (s.hobPrint e).svc = s.svc := rfl
@[simp] theorem State.hobPrint_cores (s : State) (e : HobOut) : (s.hobPrint e).cores = s.cores := rfl
@[simp] theorem State.hobPrint_links (s : State) (e : HobOut) : (s.hobPrint e).links = s.links := rfl
@[simp] theorem State.hobPrint_power (s : State) (e : HobOut) : (s.hobPrint e).power = s.power := rfl
@[simp] theorem State.hobPrint_chim (s : State) (e : HobOut) : (s.hobPrint e).chim = s.chim := rfl
@[simp] theorem State.hobPrint_free (s : State) (e : HobOut) : (s.hobPrint e).free = s.free := rfl

@[simp] theorem State.pass_foc (s : State) (n : Nat) : (s.pass n).foc = s.foc := rfl
@[simp] theorem State.pass_forced (s : State) (n : Nat) : (s.pass n).forced = s.forced := rfl
@[simp] theorem State.pass_agenda (s : State) (n : Nat) : (s.pass n).agenda = s.agenda := rfl
@[simp] theorem State.pass_turns (s : State) (n : Nat) : (s.pass n).turns = s.turns := rfl
@[simp] theorem State.pass_hearths (s : State) (n : Nat) : (s.pass n).hearths = s.hearths := rfl
@[simp] theorem State.pass_saved (s : State) (n : Nat) : (s.pass n).saved = s.saved := rfl
@[simp] theorem State.pass_mem (s : State) (n : Nat) : (s.pass n).mem = s.mem := rfl
@[simp] theorem State.pass_roots (s : State) (n : Nat) : (s.pass n).roots = s.roots := rfl
@[simp] theorem State.pass_pins (s : State) (n : Nat) : (s.pass n).pins = s.pins := rfl
@[simp] theorem State.pass_owned (s : State) (n : Nat) : (s.pass n).owned = s.owned := rfl
@[simp] theorem State.pass_regions (s : State) (n : Nat) : (s.pass n).regions = s.regions := rfl
@[simp] theorem State.pass_queues (s : State) (n : Nat) : (s.pass n).queues = s.queues := rfl
@[simp] theorem State.pass_qm (s : State) (n : Nat) : (s.pass n).qm = s.qm := rfl
@[simp] theorem State.pass_cirrus (s : State) (n : Nat) : (s.pass n).cirrus = s.cirrus := rfl
@[simp] theorem State.pass_svc (s : State) (n : Nat) : (s.pass n).svc = s.svc := rfl
@[simp] theorem State.pass_cores (s : State) (n : Nat) : (s.pass n).cores = s.cores := rfl
@[simp] theorem State.pass_links (s : State) (n : Nat) : (s.pass n).links = s.links := rfl
@[simp] theorem State.pass_power (s : State) (n : Nat) : (s.pass n).power = s.power := rfl
@[simp] theorem State.pass_chim (s : State) (n : Nat) : (s.pass n).chim = s.chim := rfl
@[simp] theorem State.pass_hobOut (s : State) (n : Nat) : (s.pass n).hobOut = s.hobOut := rfl
@[simp] theorem State.pass_free (s : State) (n : Nat) : (s.pass n).free = s.free := rfl

/-! ## A hearth -/

@[simp] theorem Hearth.setCtx_flags (x : Hearth) (c : Fin 4) (k : Ctx) : (x.setCtx c k).flags = x.flags := rfl
@[simp] theorem Hearth.setCtx_scratch (x : Hearth) (c : Fin 4) (k : Ctx) : (x.setCtx c k).scratch = x.scratch := rfl
@[simp] theorem Hearth.setCtx_imem (x : Hearth) (c : Fin 4) (k : Ctx) : (x.setCtx c k).imem = x.imem := rfl
@[simp] theorem Hearth.setCtx_banks (x : Hearth) (c : Fin 4) (k : Ctx) : (x.setCtx c k).banks = x.banks := rfl
@[simp] theorem Hearth.setCtx_accs (x : Hearth) (c : Fin 4) (k : Ctx) : (x.setCtx c k).accs = x.accs := rfl
@[simp] theorem Hearth.setCtx_sa (x : Hearth) (c : Fin 4) (k : Ctx) : (x.setCtx c k).sa = x.sa := rfl
@[simp] theorem Hearth.setCtx_nextSeq (x : Hearth) (c : Fin 4) (k : Ctx) : (x.setCtx c k).nextSeq = x.nextSeq := rfl
@[simp] theorem Hearth.setCtx_cmds (x : Hearth) (c : Fin 4) (k : Ctx) : (x.setCtx c k).cmds = x.cmds := rfl
@[simp] theorem Hearth.setCtx_hand (x : Hearth) (c : Fin 4) (k : Ctx) : (x.setCtx c k).hand = x.hand := rfl
@[simp] theorem Hearth.setCtx_quota (x : Hearth) (c : Fin 4) (k : Ctx) : (x.setCtx c k).quota = x.quota := rfl
@[simp] theorem Hearth.setCtx_picks (x : Hearth) (c : Fin 4) (k : Ctx) : (x.setCtx c k).picks = x.picks := rfl
@[simp] theorem Hearth.setCtx_sideLog (x : Hearth) (c : Fin 4) (k : Ctx) : (x.setCtx c k).sideLog = x.sideLog := rfl
@[simp] theorem Hearth.setCtx_img (x : Hearth) (c : Fin 4) (k : Ctx) : (x.setCtx c k).img = x.img := rfl
@[simp] theorem Hearth.setCtx_asid (x : Hearth) (c : Fin 4) (k : Ctx) : (x.setCtx c k).asid = x.asid := rfl
@[simp] theorem Hearth.setCtx_sec (x : Hearth) (c : Fin 4) (k : Ctx) : (x.setCtx c k).sec = x.sec := rfl
@[simp] theorem Hearth.setCtx_arrQ (x : Hearth) (c : Fin 4) (k : Ctx) : (x.setCtx c k).arrQ = x.arrQ := rfl
@[simp] theorem Hearth.setCtx_port (x : Hearth) (c : Fin 4) (k : Ctx) : (x.setCtx c k).port = x.port := rfl
@[simp] theorem Hearth.setCtx_arriving (x : Hearth) (c : Fin 4) (k : Ctx) : (x.setCtx c k).arriving = x.arriving := rfl
@[simp] theorem Hearth.setCtx_routines (x : Hearth) (c : Fin 4) (k : Ctx) : (x.setCtx c k).routines = x.routines := rfl
@[simp] theorem Hearth.setCtx_hob (x : Hearth) (c : Fin 4) (k : Ctx) : (x.setCtx c k).hob = x.hob := rfl
@[simp] theorem Hearth.setCtx_trace (x : Hearth) (c : Fin 4) (k : Ctx) : (x.setCtx c k).trace = x.trace := rfl
@[simp] theorem Hearth.setCtx_halted (x : Hearth) (c : Fin 4) (k : Ctx) : (x.setCtx c k).halted = x.halted := rfl
@[simp] theorem Hearth.setCtx_halting (x : Hearth) (c : Fin 4) (k : Ctx) : (x.setCtx c k).halting = x.halting := rfl
@[simp] theorem Hearth.setCtx_purge (x : Hearth) (c : Fin 4) (k : Ctx) : (x.setCtx c k).purge = x.purge := rfl
@[simp] theorem Hearth.setCtx_epoch (x : Hearth) (c : Fin 4) (k : Ctx) : (x.setCtx c k).epoch = x.epoch := rfl
@[simp] theorem Hearth.setCtx_area (x : Hearth) (c : Fin 4) (k : Ctx) : (x.setCtx c k).area = x.area := rfl

@[simp] theorem Hearth.clearResv_flags (x : Hearth) (ap : Bool) (ls : List Nat) (but : Option (Fin 4)) : (x.clearResv ap ls but).flags = x.flags := rfl
@[simp] theorem Hearth.clearResv_scratch (x : Hearth) (ap : Bool) (ls : List Nat) (but : Option (Fin 4)) : (x.clearResv ap ls but).scratch = x.scratch := rfl
@[simp] theorem Hearth.clearResv_imem (x : Hearth) (ap : Bool) (ls : List Nat) (but : Option (Fin 4)) : (x.clearResv ap ls but).imem = x.imem := rfl
@[simp] theorem Hearth.clearResv_banks (x : Hearth) (ap : Bool) (ls : List Nat) (but : Option (Fin 4)) : (x.clearResv ap ls but).banks = x.banks := rfl
@[simp] theorem Hearth.clearResv_accs (x : Hearth) (ap : Bool) (ls : List Nat) (but : Option (Fin 4)) : (x.clearResv ap ls but).accs = x.accs := rfl
@[simp] theorem Hearth.clearResv_sa (x : Hearth) (ap : Bool) (ls : List Nat) (but : Option (Fin 4)) : (x.clearResv ap ls but).sa = x.sa := rfl
@[simp] theorem Hearth.clearResv_nextSeq (x : Hearth) (ap : Bool) (ls : List Nat) (but : Option (Fin 4)) : (x.clearResv ap ls but).nextSeq = x.nextSeq := rfl
@[simp] theorem Hearth.clearResv_cmds (x : Hearth) (ap : Bool) (ls : List Nat) (but : Option (Fin 4)) : (x.clearResv ap ls but).cmds = x.cmds := rfl
@[simp] theorem Hearth.clearResv_hand (x : Hearth) (ap : Bool) (ls : List Nat) (but : Option (Fin 4)) : (x.clearResv ap ls but).hand = x.hand := rfl
@[simp] theorem Hearth.clearResv_quota (x : Hearth) (ap : Bool) (ls : List Nat) (but : Option (Fin 4)) : (x.clearResv ap ls but).quota = x.quota := rfl
@[simp] theorem Hearth.clearResv_picks (x : Hearth) (ap : Bool) (ls : List Nat) (but : Option (Fin 4)) : (x.clearResv ap ls but).picks = x.picks := rfl
@[simp] theorem Hearth.clearResv_sideLog (x : Hearth) (ap : Bool) (ls : List Nat) (but : Option (Fin 4)) : (x.clearResv ap ls but).sideLog = x.sideLog := rfl
@[simp] theorem Hearth.clearResv_img (x : Hearth) (ap : Bool) (ls : List Nat) (but : Option (Fin 4)) : (x.clearResv ap ls but).img = x.img := rfl
@[simp] theorem Hearth.clearResv_asid (x : Hearth) (ap : Bool) (ls : List Nat) (but : Option (Fin 4)) : (x.clearResv ap ls but).asid = x.asid := rfl
@[simp] theorem Hearth.clearResv_sec (x : Hearth) (ap : Bool) (ls : List Nat) (but : Option (Fin 4)) : (x.clearResv ap ls but).sec = x.sec := rfl
@[simp] theorem Hearth.clearResv_arrQ (x : Hearth) (ap : Bool) (ls : List Nat) (but : Option (Fin 4)) : (x.clearResv ap ls but).arrQ = x.arrQ := rfl
@[simp] theorem Hearth.clearResv_port (x : Hearth) (ap : Bool) (ls : List Nat) (but : Option (Fin 4)) : (x.clearResv ap ls but).port = x.port := rfl
@[simp] theorem Hearth.clearResv_arriving (x : Hearth) (ap : Bool) (ls : List Nat) (but : Option (Fin 4)) : (x.clearResv ap ls but).arriving = x.arriving := rfl
@[simp] theorem Hearth.clearResv_routines (x : Hearth) (ap : Bool) (ls : List Nat) (but : Option (Fin 4)) : (x.clearResv ap ls but).routines = x.routines := rfl
@[simp] theorem Hearth.clearResv_hob (x : Hearth) (ap : Bool) (ls : List Nat) (but : Option (Fin 4)) : (x.clearResv ap ls but).hob = x.hob := rfl
@[simp] theorem Hearth.clearResv_trace (x : Hearth) (ap : Bool) (ls : List Nat) (but : Option (Fin 4)) : (x.clearResv ap ls but).trace = x.trace := rfl
@[simp] theorem Hearth.clearResv_halted (x : Hearth) (ap : Bool) (ls : List Nat) (but : Option (Fin 4)) : (x.clearResv ap ls but).halted = x.halted := rfl
@[simp] theorem Hearth.clearResv_halting (x : Hearth) (ap : Bool) (ls : List Nat) (but : Option (Fin 4)) : (x.clearResv ap ls but).halting = x.halting := rfl
@[simp] theorem Hearth.clearResv_purge (x : Hearth) (ap : Bool) (ls : List Nat) (but : Option (Fin 4)) : (x.clearResv ap ls but).purge = x.purge := rfl
@[simp] theorem Hearth.clearResv_epoch (x : Hearth) (ap : Bool) (ls : List Nat) (but : Option (Fin 4)) : (x.clearResv ap ls but).epoch = x.epoch := rfl
@[simp] theorem Hearth.clearResv_area (x : Hearth) (ap : Bool) (ls : List Nat) (but : Option (Fin 4)) : (x.clearResv ap ls but).area = x.area := rfl

@[simp] theorem Hearth.scratchStore_flags (x : Hearth) (a : Nat) (bs : List Byte) (but : Option (Fin 4)) : (x.scratchStore a bs but).flags = x.flags := rfl
@[simp] theorem Hearth.scratchStore_imem (x : Hearth) (a : Nat) (bs : List Byte) (but : Option (Fin 4)) : (x.scratchStore a bs but).imem = x.imem := rfl
@[simp] theorem Hearth.scratchStore_banks (x : Hearth) (a : Nat) (bs : List Byte) (but : Option (Fin 4)) : (x.scratchStore a bs but).banks = x.banks := rfl
@[simp] theorem Hearth.scratchStore_accs (x : Hearth) (a : Nat) (bs : List Byte) (but : Option (Fin 4)) : (x.scratchStore a bs but).accs = x.accs := rfl
@[simp] theorem Hearth.scratchStore_sa (x : Hearth) (a : Nat) (bs : List Byte) (but : Option (Fin 4)) : (x.scratchStore a bs but).sa = x.sa := rfl
@[simp] theorem Hearth.scratchStore_nextSeq (x : Hearth) (a : Nat) (bs : List Byte) (but : Option (Fin 4)) : (x.scratchStore a bs but).nextSeq = x.nextSeq := rfl
@[simp] theorem Hearth.scratchStore_cmds (x : Hearth) (a : Nat) (bs : List Byte) (but : Option (Fin 4)) : (x.scratchStore a bs but).cmds = x.cmds := rfl
@[simp] theorem Hearth.scratchStore_hand (x : Hearth) (a : Nat) (bs : List Byte) (but : Option (Fin 4)) : (x.scratchStore a bs but).hand = x.hand := rfl
@[simp] theorem Hearth.scratchStore_quota (x : Hearth) (a : Nat) (bs : List Byte) (but : Option (Fin 4)) : (x.scratchStore a bs but).quota = x.quota := rfl
@[simp] theorem Hearth.scratchStore_picks (x : Hearth) (a : Nat) (bs : List Byte) (but : Option (Fin 4)) : (x.scratchStore a bs but).picks = x.picks := rfl
@[simp] theorem Hearth.scratchStore_sideLog (x : Hearth) (a : Nat) (bs : List Byte) (but : Option (Fin 4)) : (x.scratchStore a bs but).sideLog = x.sideLog := rfl
@[simp] theorem Hearth.scratchStore_img (x : Hearth) (a : Nat) (bs : List Byte) (but : Option (Fin 4)) : (x.scratchStore a bs but).img = x.img := rfl
@[simp] theorem Hearth.scratchStore_asid (x : Hearth) (a : Nat) (bs : List Byte) (but : Option (Fin 4)) : (x.scratchStore a bs but).asid = x.asid := rfl
@[simp] theorem Hearth.scratchStore_sec (x : Hearth) (a : Nat) (bs : List Byte) (but : Option (Fin 4)) : (x.scratchStore a bs but).sec = x.sec := rfl
@[simp] theorem Hearth.scratchStore_arrQ (x : Hearth) (a : Nat) (bs : List Byte) (but : Option (Fin 4)) : (x.scratchStore a bs but).arrQ = x.arrQ := rfl
@[simp] theorem Hearth.scratchStore_port (x : Hearth) (a : Nat) (bs : List Byte) (but : Option (Fin 4)) : (x.scratchStore a bs but).port = x.port := rfl
@[simp] theorem Hearth.scratchStore_arriving (x : Hearth) (a : Nat) (bs : List Byte) (but : Option (Fin 4)) : (x.scratchStore a bs but).arriving = x.arriving := rfl
@[simp] theorem Hearth.scratchStore_routines (x : Hearth) (a : Nat) (bs : List Byte) (but : Option (Fin 4)) : (x.scratchStore a bs but).routines = x.routines := rfl
@[simp] theorem Hearth.scratchStore_hob (x : Hearth) (a : Nat) (bs : List Byte) (but : Option (Fin 4)) : (x.scratchStore a bs but).hob = x.hob := rfl
@[simp] theorem Hearth.scratchStore_trace (x : Hearth) (a : Nat) (bs : List Byte) (but : Option (Fin 4)) : (x.scratchStore a bs but).trace = x.trace := rfl
@[simp] theorem Hearth.scratchStore_halted (x : Hearth) (a : Nat) (bs : List Byte) (but : Option (Fin 4)) : (x.scratchStore a bs but).halted = x.halted := rfl
@[simp] theorem Hearth.scratchStore_halting (x : Hearth) (a : Nat) (bs : List Byte) (but : Option (Fin 4)) : (x.scratchStore a bs but).halting = x.halting := rfl
@[simp] theorem Hearth.scratchStore_purge (x : Hearth) (a : Nat) (bs : List Byte) (but : Option (Fin 4)) : (x.scratchStore a bs but).purge = x.purge := rfl
@[simp] theorem Hearth.scratchStore_epoch (x : Hearth) (a : Nat) (bs : List Byte) (but : Option (Fin 4)) : (x.scratchStore a bs but).epoch = x.epoch := rfl
@[simp] theorem Hearth.scratchStore_area (x : Hearth) (a : Nat) (bs : List Byte) (but : Option (Fin 4)) : (x.scratchStore a bs but).area = x.area := rfl

@[simp] theorem Hearth.setCmd_ctxs (x : Hearth) (c : Cmd) : (x.setCmd c).ctxs = x.ctxs := rfl
@[simp] theorem Hearth.setCmd_flags (x : Hearth) (c : Cmd) : (x.setCmd c).flags = x.flags := rfl
@[simp] theorem Hearth.setCmd_scratch (x : Hearth) (c : Cmd) : (x.setCmd c).scratch = x.scratch := rfl
@[simp] theorem Hearth.setCmd_imem (x : Hearth) (c : Cmd) : (x.setCmd c).imem = x.imem := rfl
@[simp] theorem Hearth.setCmd_banks (x : Hearth) (c : Cmd) : (x.setCmd c).banks = x.banks := rfl
@[simp] theorem Hearth.setCmd_accs (x : Hearth) (c : Cmd) : (x.setCmd c).accs = x.accs := rfl
@[simp] theorem Hearth.setCmd_sa (x : Hearth) (c : Cmd) : (x.setCmd c).sa = x.sa := rfl
@[simp] theorem Hearth.setCmd_nextSeq (x : Hearth) (c : Cmd) : (x.setCmd c).nextSeq = x.nextSeq := rfl
@[simp] theorem Hearth.setCmd_hand (x : Hearth) (c : Cmd) : (x.setCmd c).hand = x.hand := rfl
@[simp] theorem Hearth.setCmd_quota (x : Hearth) (c : Cmd) : (x.setCmd c).quota = x.quota := rfl
@[simp] theorem Hearth.setCmd_picks (x : Hearth) (c : Cmd) : (x.setCmd c).picks = x.picks := rfl
@[simp] theorem Hearth.setCmd_sideLog (x : Hearth) (c : Cmd) : (x.setCmd c).sideLog = x.sideLog := rfl
@[simp] theorem Hearth.setCmd_img (x : Hearth) (c : Cmd) : (x.setCmd c).img = x.img := rfl
@[simp] theorem Hearth.setCmd_asid (x : Hearth) (c : Cmd) : (x.setCmd c).asid = x.asid := rfl
@[simp] theorem Hearth.setCmd_sec (x : Hearth) (c : Cmd) : (x.setCmd c).sec = x.sec := rfl
@[simp] theorem Hearth.setCmd_arrQ (x : Hearth) (c : Cmd) : (x.setCmd c).arrQ = x.arrQ := rfl
@[simp] theorem Hearth.setCmd_port (x : Hearth) (c : Cmd) : (x.setCmd c).port = x.port := rfl
@[simp] theorem Hearth.setCmd_arriving (x : Hearth) (c : Cmd) : (x.setCmd c).arriving = x.arriving := rfl
@[simp] theorem Hearth.setCmd_routines (x : Hearth) (c : Cmd) : (x.setCmd c).routines = x.routines := rfl
@[simp] theorem Hearth.setCmd_hob (x : Hearth) (c : Cmd) : (x.setCmd c).hob = x.hob := rfl
@[simp] theorem Hearth.setCmd_trace (x : Hearth) (c : Cmd) : (x.setCmd c).trace = x.trace := rfl
@[simp] theorem Hearth.setCmd_halted (x : Hearth) (c : Cmd) : (x.setCmd c).halted = x.halted := rfl
@[simp] theorem Hearth.setCmd_halting (x : Hearth) (c : Cmd) : (x.setCmd c).halting = x.halting := rfl
@[simp] theorem Hearth.setCmd_purge (x : Hearth) (c : Cmd) : (x.setCmd c).purge = x.purge := rfl
@[simp] theorem Hearth.setCmd_epoch (x : Hearth) (c : Cmd) : (x.setCmd c).epoch = x.epoch := rfl
@[simp] theorem Hearth.setCmd_area (x : Hearth) (c : Cmd) : (x.setCmd c).area = x.area := rfl

@[simp] theorem Hearth.dropCmd_ctxs (x : Hearth) (q : Nat) : (x.dropCmd q).ctxs = x.ctxs := rfl
@[simp] theorem Hearth.dropCmd_flags (x : Hearth) (q : Nat) : (x.dropCmd q).flags = x.flags := rfl
@[simp] theorem Hearth.dropCmd_scratch (x : Hearth) (q : Nat) : (x.dropCmd q).scratch = x.scratch := rfl
@[simp] theorem Hearth.dropCmd_imem (x : Hearth) (q : Nat) : (x.dropCmd q).imem = x.imem := rfl
@[simp] theorem Hearth.dropCmd_banks (x : Hearth) (q : Nat) : (x.dropCmd q).banks = x.banks := rfl
@[simp] theorem Hearth.dropCmd_accs (x : Hearth) (q : Nat) : (x.dropCmd q).accs = x.accs := rfl
@[simp] theorem Hearth.dropCmd_sa (x : Hearth) (q : Nat) : (x.dropCmd q).sa = x.sa := rfl
@[simp] theorem Hearth.dropCmd_nextSeq (x : Hearth) (q : Nat) : (x.dropCmd q).nextSeq = x.nextSeq := rfl
@[simp] theorem Hearth.dropCmd_hand (x : Hearth) (q : Nat) : (x.dropCmd q).hand = x.hand := rfl
@[simp] theorem Hearth.dropCmd_quota (x : Hearth) (q : Nat) : (x.dropCmd q).quota = x.quota := rfl
@[simp] theorem Hearth.dropCmd_picks (x : Hearth) (q : Nat) : (x.dropCmd q).picks = x.picks := rfl
@[simp] theorem Hearth.dropCmd_sideLog (x : Hearth) (q : Nat) : (x.dropCmd q).sideLog = x.sideLog := rfl
@[simp] theorem Hearth.dropCmd_img (x : Hearth) (q : Nat) : (x.dropCmd q).img = x.img := rfl
@[simp] theorem Hearth.dropCmd_asid (x : Hearth) (q : Nat) : (x.dropCmd q).asid = x.asid := rfl
@[simp] theorem Hearth.dropCmd_sec (x : Hearth) (q : Nat) : (x.dropCmd q).sec = x.sec := rfl
@[simp] theorem Hearth.dropCmd_arrQ (x : Hearth) (q : Nat) : (x.dropCmd q).arrQ = x.arrQ := rfl
@[simp] theorem Hearth.dropCmd_port (x : Hearth) (q : Nat) : (x.dropCmd q).port = x.port := rfl
@[simp] theorem Hearth.dropCmd_arriving (x : Hearth) (q : Nat) : (x.dropCmd q).arriving = x.arriving := rfl
@[simp] theorem Hearth.dropCmd_routines (x : Hearth) (q : Nat) : (x.dropCmd q).routines = x.routines := rfl
@[simp] theorem Hearth.dropCmd_hob (x : Hearth) (q : Nat) : (x.dropCmd q).hob = x.hob := rfl
@[simp] theorem Hearth.dropCmd_trace (x : Hearth) (q : Nat) : (x.dropCmd q).trace = x.trace := rfl
@[simp] theorem Hearth.dropCmd_halted (x : Hearth) (q : Nat) : (x.dropCmd q).halted = x.halted := rfl
@[simp] theorem Hearth.dropCmd_halting (x : Hearth) (q : Nat) : (x.dropCmd q).halting = x.halting := rfl
@[simp] theorem Hearth.dropCmd_purge (x : Hearth) (q : Nat) : (x.dropCmd q).purge = x.purge := rfl
@[simp] theorem Hearth.dropCmd_epoch (x : Hearth) (q : Nat) : (x.dropCmd q).epoch = x.epoch := rfl
@[simp] theorem Hearth.dropCmd_area (x : Hearth) (q : Nat) : (x.dropCmd q).area = x.area := rfl

/-! ## A context -/

@[simp] theorem Ctx.retire_st (k : Ctx) : (k.retire).st = k.st := rfl
@[simp] theorem Ctx.retire_wait (k : Ctx) : (k.retire).wait = k.wait := rfl
@[simp] theorem Ctx.retire_mode (k : Ctx) : (k.retire).mode = k.mode := rfl
@[simp] theorem Ctx.retire_xs (k : Ctx) : (k.retire).xs = k.xs := rfl
@[simp] theorem Ctx.retire_vs (k : Ctx) : (k.retire).vs = k.vs := rfl
@[simp] theorem Ctx.retire_ps (k : Ctx) : (k.retire).ps = k.ps := rfl
@[simp] theorem Ctx.retire_ws (k : Ctx) : (k.retire).ws = k.ws := rfl
@[simp] theorem Ctx.retire_rgn (k : Ctx) : (k.retire).rgn = k.rgn := rfl
@[simp] theorem Ctx.retire_spill (k : Ctx) : (k.retire).spill = k.spill := rfl
@[simp] theorem Ctx.retire_fpstat (k : Ctx) : (k.retire).fpstat = k.fpstat := rfl
@[simp] theorem Ctx.retire_cpstat (k : Ctx) : (k.retire).cpstat = k.cpstat := rfl
@[simp] theorem Ctx.retire_nest (k : Ctx) : (k.retire).nest = k.nest := rfl
@[simp] theorem Ctx.retire_run (k : Ctx) : (k.retire).run = k.run := rfl
@[simp] theorem Ctx.retire_lastRun (k : Ctx) : (k.retire).lastRun = k.lastRun := rfl
@[simp] theorem Ctx.retire_resv (k : Ctx) : (k.retire).resv = k.resv := rfl
@[simp] theorem Ctx.retire_pend (k : Ctx) : (k.retire).pend = k.pend := rfl
@[simp] theorem Ctx.retire_fault (k : Ctx) : (k.retire).fault = k.fault := rfl
@[simp] theorem Ctx.retire_csr (k : Ctx) : (k.retire).csr = k.csr := rfl

@[simp] theorem Ctx.set_st (k : Ctx) (r : XReg) (v : Word) : (k.set r v).st = k.st := by unfold Ctx.set; split <;> rfl
@[simp] theorem Ctx.set_wait (k : Ctx) (r : XReg) (v : Word) : (k.set r v).wait = k.wait := by unfold Ctx.set; split <;> rfl
@[simp] theorem Ctx.set_mode (k : Ctx) (r : XReg) (v : Word) : (k.set r v).mode = k.mode := by unfold Ctx.set; split <;> rfl
@[simp] theorem Ctx.set_pc (k : Ctx) (r : XReg) (v : Word) : (k.set r v).pc = k.pc := by unfold Ctx.set; split <;> rfl
@[simp] theorem Ctx.set_vs (k : Ctx) (r : XReg) (v : Word) : (k.set r v).vs = k.vs := by unfold Ctx.set; split <;> rfl
@[simp] theorem Ctx.set_ps (k : Ctx) (r : XReg) (v : Word) : (k.set r v).ps = k.ps := by unfold Ctx.set; split <;> rfl
@[simp] theorem Ctx.set_ws (k : Ctx) (r : XReg) (v : Word) : (k.set r v).ws = k.ws := by unfold Ctx.set; split <;> rfl
@[simp] theorem Ctx.set_rgn (k : Ctx) (r : XReg) (v : Word) : (k.set r v).rgn = k.rgn := by unfold Ctx.set; split <;> rfl
@[simp] theorem Ctx.set_spill (k : Ctx) (r : XReg) (v : Word) : (k.set r v).spill = k.spill := by unfold Ctx.set; split <;> rfl
@[simp] theorem Ctx.set_fpstat (k : Ctx) (r : XReg) (v : Word) : (k.set r v).fpstat = k.fpstat := by unfold Ctx.set; split <;> rfl
@[simp] theorem Ctx.set_cpstat (k : Ctx) (r : XReg) (v : Word) : (k.set r v).cpstat = k.cpstat := by unfold Ctx.set; split <;> rfl
@[simp] theorem Ctx.set_nest (k : Ctx) (r : XReg) (v : Word) : (k.set r v).nest = k.nest := by unfold Ctx.set; split <;> rfl
@[simp] theorem Ctx.set_run (k : Ctx) (r : XReg) (v : Word) : (k.set r v).run = k.run := by unfold Ctx.set; split <;> rfl
@[simp] theorem Ctx.set_lastRun (k : Ctx) (r : XReg) (v : Word) : (k.set r v).lastRun = k.lastRun := by unfold Ctx.set; split <;> rfl
@[simp] theorem Ctx.set_resv (k : Ctx) (r : XReg) (v : Word) : (k.set r v).resv = k.resv := by unfold Ctx.set; split <;> rfl
@[simp] theorem Ctx.set_pend (k : Ctx) (r : XReg) (v : Word) : (k.set r v).pend = k.pend := by unfold Ctx.set; split <;> rfl
@[simp] theorem Ctx.set_fault (k : Ctx) (r : XReg) (v : Word) : (k.set r v).fault = k.fault := by unfold Ctx.set; split <;> rfl
@[simp] theorem Ctx.set_csr (k : Ctx) (r : XReg) (v : Word) : (k.set r v).csr = k.csr := by unfold Ctx.set; split <;> rfl
@[simp] theorem Ctx.set_instret (k : Ctx) (r : XReg) (v : Word) : (k.set r v).instret = k.instret := by unfold Ctx.set; split <;> rfl

@[simp] theorem Ctx.enterTrap_xs (k : Ctx) (c e v a : Word) : (k.enterTrap c e v a).xs = k.xs := rfl
@[simp] theorem Ctx.enterTrap_vs (k : Ctx) (c e v a : Word) : (k.enterTrap c e v a).vs = k.vs := rfl
@[simp] theorem Ctx.enterTrap_ps (k : Ctx) (c e v a : Word) : (k.enterTrap c e v a).ps = k.ps := rfl
@[simp] theorem Ctx.enterTrap_ws (k : Ctx) (c e v a : Word) : (k.enterTrap c e v a).ws = k.ws := rfl
@[simp] theorem Ctx.enterTrap_rgn (k : Ctx) (c e v a : Word) : (k.enterTrap c e v a).rgn = k.rgn := rfl
@[simp] theorem Ctx.enterTrap_spill (k : Ctx) (c e v a : Word) : (k.enterTrap c e v a).spill = k.spill := rfl
@[simp] theorem Ctx.enterTrap_fpstat (k : Ctx) (c e v a : Word) : (k.enterTrap c e v a).fpstat = k.fpstat := rfl
@[simp] theorem Ctx.enterTrap_cpstat (k : Ctx) (c e v a : Word) : (k.enterTrap c e v a).cpstat = k.cpstat := rfl
@[simp] theorem Ctx.enterTrap_nest (k : Ctx) (c e v a : Word) : (k.enterTrap c e v a).nest = k.nest := rfl
@[simp] theorem Ctx.enterTrap_run (k : Ctx) (c e v a : Word) : (k.enterTrap c e v a).run = k.run := rfl
@[simp] theorem Ctx.enterTrap_lastRun (k : Ctx) (c e v a : Word) : (k.enterTrap c e v a).lastRun = k.lastRun := rfl
@[simp] theorem Ctx.enterTrap_resv (k : Ctx) (c e v a : Word) : (k.enterTrap c e v a).resv = k.resv := rfl
@[simp] theorem Ctx.enterTrap_pend (k : Ctx) (c e v a : Word) : (k.enterTrap c e v a).pend = k.pend := rfl
@[simp] theorem Ctx.enterTrap_instret (k : Ctx) (c e v a : Word) : (k.enterTrap c e v a).instret = k.instret := rfl

@[simp] theorem Ctx.trapReturn_st (k : Ctx) : (k.trapReturn).st = k.st := rfl
@[simp] theorem Ctx.trapReturn_wait (k : Ctx) : (k.trapReturn).wait = k.wait := rfl
@[simp] theorem Ctx.trapReturn_xs (k : Ctx) : (k.trapReturn).xs = k.xs := rfl
@[simp] theorem Ctx.trapReturn_vs (k : Ctx) : (k.trapReturn).vs = k.vs := rfl
@[simp] theorem Ctx.trapReturn_ps (k : Ctx) : (k.trapReturn).ps = k.ps := rfl
@[simp] theorem Ctx.trapReturn_ws (k : Ctx) : (k.trapReturn).ws = k.ws := rfl
@[simp] theorem Ctx.trapReturn_rgn (k : Ctx) : (k.trapReturn).rgn = k.rgn := rfl
@[simp] theorem Ctx.trapReturn_spill (k : Ctx) : (k.trapReturn).spill = k.spill := rfl
@[simp] theorem Ctx.trapReturn_fpstat (k : Ctx) : (k.trapReturn).fpstat = k.fpstat := rfl
@[simp] theorem Ctx.trapReturn_cpstat (k : Ctx) : (k.trapReturn).cpstat = k.cpstat := rfl
@[simp] theorem Ctx.trapReturn_nest (k : Ctx) : (k.trapReturn).nest = k.nest := rfl
@[simp] theorem Ctx.trapReturn_run (k : Ctx) : (k.trapReturn).run = k.run := rfl
@[simp] theorem Ctx.trapReturn_lastRun (k : Ctx) : (k.trapReturn).lastRun = k.lastRun := rfl
@[simp] theorem Ctx.trapReturn_resv (k : Ctx) : (k.trapReturn).resv = k.resv := rfl
@[simp] theorem Ctx.trapReturn_pend (k : Ctx) : (k.trapReturn).pend = k.pend := rfl
@[simp] theorem Ctx.trapReturn_fault (k : Ctx) : (k.trapReturn).fault = k.fault := rfl

@[simp] theorem Ctx.clearResv_st (k : Ctx) (ap : Bool) (ls : List Nat) : (k.clearResv ap ls).st = k.st := by unfold Ctx.clearResv; split <;> (try split) <;> rfl
@[simp] theorem Ctx.clearResv_wait (k : Ctx) (ap : Bool) (ls : List Nat) : (k.clearResv ap ls).wait = k.wait := by unfold Ctx.clearResv; split <;> (try split) <;> rfl
@[simp] theorem Ctx.clearResv_mode (k : Ctx) (ap : Bool) (ls : List Nat) : (k.clearResv ap ls).mode = k.mode := by unfold Ctx.clearResv; split <;> (try split) <;> rfl
@[simp] theorem Ctx.clearResv_xs (k : Ctx) (ap : Bool) (ls : List Nat) : (k.clearResv ap ls).xs = k.xs := by unfold Ctx.clearResv; split <;> (try split) <;> rfl
@[simp] theorem Ctx.clearResv_pc (k : Ctx) (ap : Bool) (ls : List Nat) : (k.clearResv ap ls).pc = k.pc := by unfold Ctx.clearResv; split <;> (try split) <;> rfl
@[simp] theorem Ctx.clearResv_vs (k : Ctx) (ap : Bool) (ls : List Nat) : (k.clearResv ap ls).vs = k.vs := by unfold Ctx.clearResv; split <;> (try split) <;> rfl
@[simp] theorem Ctx.clearResv_ps (k : Ctx) (ap : Bool) (ls : List Nat) : (k.clearResv ap ls).ps = k.ps := by unfold Ctx.clearResv; split <;> (try split) <;> rfl
@[simp] theorem Ctx.clearResv_ws (k : Ctx) (ap : Bool) (ls : List Nat) : (k.clearResv ap ls).ws = k.ws := by unfold Ctx.clearResv; split <;> (try split) <;> rfl
@[simp] theorem Ctx.clearResv_rgn (k : Ctx) (ap : Bool) (ls : List Nat) : (k.clearResv ap ls).rgn = k.rgn := by unfold Ctx.clearResv; split <;> (try split) <;> rfl
@[simp] theorem Ctx.clearResv_spill (k : Ctx) (ap : Bool) (ls : List Nat) : (k.clearResv ap ls).spill = k.spill := by unfold Ctx.clearResv; split <;> (try split) <;> rfl
@[simp] theorem Ctx.clearResv_fpstat (k : Ctx) (ap : Bool) (ls : List Nat) : (k.clearResv ap ls).fpstat = k.fpstat := by unfold Ctx.clearResv; split <;> (try split) <;> rfl
@[simp] theorem Ctx.clearResv_cpstat (k : Ctx) (ap : Bool) (ls : List Nat) : (k.clearResv ap ls).cpstat = k.cpstat := by unfold Ctx.clearResv; split <;> (try split) <;> rfl
@[simp] theorem Ctx.clearResv_nest (k : Ctx) (ap : Bool) (ls : List Nat) : (k.clearResv ap ls).nest = k.nest := by unfold Ctx.clearResv; split <;> (try split) <;> rfl
@[simp] theorem Ctx.clearResv_run (k : Ctx) (ap : Bool) (ls : List Nat) : (k.clearResv ap ls).run = k.run := by unfold Ctx.clearResv; split <;> (try split) <;> rfl
@[simp] theorem Ctx.clearResv_lastRun (k : Ctx) (ap : Bool) (ls : List Nat) : (k.clearResv ap ls).lastRun = k.lastRun := by unfold Ctx.clearResv; split <;> (try split) <;> rfl
@[simp] theorem Ctx.clearResv_pend (k : Ctx) (ap : Bool) (ls : List Nat) : (k.clearResv ap ls).pend = k.pend := by unfold Ctx.clearResv; split <;> (try split) <;> rfl
@[simp] theorem Ctx.clearResv_fault (k : Ctx) (ap : Bool) (ls : List Nat) : (k.clearResv ap ls).fault = k.fault := by unfold Ctx.clearResv; split <;> (try split) <;> rfl
@[simp] theorem Ctx.clearResv_csr (k : Ctx) (ap : Bool) (ls : List Nat) : (k.clearResv ap ls).csr = k.csr := by unfold Ctx.clearResv; split <;> (try split) <;> rfl
@[simp] theorem Ctx.clearResv_instret (k : Ctx) (ap : Bool) (ls : List Nat) : (k.clearResv ap ls).instret = k.instret := by unfold Ctx.clearResv; split <;> (try split) <;> rfl

@[simp] theorem Ctx.orFpstat_st (k : Ctx) (b : BitVec 4) : (k.orFpstat b).st = k.st := rfl
@[simp] theorem Ctx.orFpstat_wait (k : Ctx) (b : BitVec 4) : (k.orFpstat b).wait = k.wait := rfl
@[simp] theorem Ctx.orFpstat_mode (k : Ctx) (b : BitVec 4) : (k.orFpstat b).mode = k.mode := rfl
@[simp] theorem Ctx.orFpstat_xs (k : Ctx) (b : BitVec 4) : (k.orFpstat b).xs = k.xs := rfl
@[simp] theorem Ctx.orFpstat_pc (k : Ctx) (b : BitVec 4) : (k.orFpstat b).pc = k.pc := rfl
@[simp] theorem Ctx.orFpstat_vs (k : Ctx) (b : BitVec 4) : (k.orFpstat b).vs = k.vs := rfl
@[simp] theorem Ctx.orFpstat_ps (k : Ctx) (b : BitVec 4) : (k.orFpstat b).ps = k.ps := rfl
@[simp] theorem Ctx.orFpstat_ws (k : Ctx) (b : BitVec 4) : (k.orFpstat b).ws = k.ws := rfl
@[simp] theorem Ctx.orFpstat_rgn (k : Ctx) (b : BitVec 4) : (k.orFpstat b).rgn = k.rgn := rfl
@[simp] theorem Ctx.orFpstat_spill (k : Ctx) (b : BitVec 4) : (k.orFpstat b).spill = k.spill := rfl
@[simp] theorem Ctx.orFpstat_cpstat (k : Ctx) (b : BitVec 4) : (k.orFpstat b).cpstat = k.cpstat := rfl
@[simp] theorem Ctx.orFpstat_nest (k : Ctx) (b : BitVec 4) : (k.orFpstat b).nest = k.nest := rfl
@[simp] theorem Ctx.orFpstat_run (k : Ctx) (b : BitVec 4) : (k.orFpstat b).run = k.run := rfl
@[simp] theorem Ctx.orFpstat_lastRun (k : Ctx) (b : BitVec 4) : (k.orFpstat b).lastRun = k.lastRun := rfl
@[simp] theorem Ctx.orFpstat_resv (k : Ctx) (b : BitVec 4) : (k.orFpstat b).resv = k.resv := rfl
@[simp] theorem Ctx.orFpstat_pend (k : Ctx) (b : BitVec 4) : (k.orFpstat b).pend = k.pend := rfl
@[simp] theorem Ctx.orFpstat_fault (k : Ctx) (b : BitVec 4) : (k.orFpstat b).fault = k.fault := rfl
@[simp] theorem Ctx.orFpstat_csr (k : Ctx) (b : BitVec 4) : (k.orFpstat b).csr = k.csr := rfl
@[simp] theorem Ctx.orFpstat_instret (k : Ctx) (b : BitVec 4) : (k.orFpstat b).instret = k.instret := rfl

@[simp] theorem Ctx.retire_pc (k : Ctx) : k.retire.pc = k.pc + 4 := rfl
@[simp] theorem Ctx.retire_instret (k : Ctx) : k.retire.instret = k.instret + 1 := rfl
@[simp] theorem Ctx.enterTrap_st (k : Ctx) (c e v a : Word) : (k.enterTrap c e v a).st = .running := rfl
@[simp] theorem Ctx.enterTrap_wait (k : Ctx) (c e v a : Word) : (k.enterTrap c e v a).wait = .none := rfl
@[simp] theorem Ctx.enterTrap_mode (k : Ctx) (c e v a : Word) : (k.enterTrap c e v a).mode = .machine := rfl
@[simp] theorem Ctx.enterTrap_mepc (k : Ctx) (c e v a : Word) : (k.enterTrap c e v a).csr.mepc = e := rfl
@[simp] theorem Ctx.enterTrap_mcause (k : Ctx) (c e v a : Word) : (k.enterTrap c e v a).csr.mcause = c := rfl
@[simp] theorem Ctx.enterTrap_mtval (k : Ctx) (c e v a : Word) : (k.enterTrap c e v a).csr.mtval = v := rfl
@[simp] theorem Ctx.enterTrap_htaddr (k : Ctx) (c e v a : Word) : (k.enterTrap c e v a).csr.htaddr = a := rfl

/-! ## Reading back -/

@[simp] theorem State.setHearth_hearths (s : State) (h : Fin 640) (x : Hearth) :
    (s.setHearth h x).hearths = s.hearths.set h x := rfl
@[simp] theorem State.setMem_mem (s : State) (m : Mem) : (s.setMem m).mem = m := rfl
@[simp] theorem State.memWrite_mem (s : State) (ks : List Nat) (bs : List Byte) :
    (s.memWrite ks bs).mem = s.mem.writeAll (ks.zip bs) := rfl
@[simp] theorem State.memStore_mem (s : State) (ks : List Nat) (bs : List Byte) (w : Option Loc) :
    (s.memStore ks bs w).mem = s.mem.writeAll (ks.zip bs) := by simp only [State.memStore, State.clearResvMem_mem, State.memWrite_mem]
@[simp] theorem State.report_reports (s : State) (r : Report) : (s.report r).svc.reports = s.svc.reports ++ [r] := rfl
@[simp] theorem State.setIndex_flash (s : State) (i : Fin 64) (x : Option Index) :
    (s.setIndex i x).cirrus.flash = s.cirrus.flash := rfl

@[simp] theorem State.hearth_setHearth (s : State) (h g : Fin 640) (x : Hearth) :
    (s.setHearth h x).hearth g = if h = g then x else s.hearth g := by
  simp only [State.hearth, State.setHearth, Fin.getElem_fin, Vector.getElem_set, Fin.ext_iff]

theorem State.hearth_setHearth_self (s : State) (h : Fin 640) (x : Hearth) : (s.setHearth h x).hearth h = x := by simp

theorem State.hearth_setHearth_ne (s : State) {h g : Fin 640} (x : Hearth) (n : g ≠ h) :
    (s.setHearth h x).hearth g = s.hearth g := by simp [n.symm]

@[simp] theorem Hearth.ctx_setCtx (x : Hearth) (c d : Fin 4) (k : Ctx) :
    (x.setCtx c k).ctx d = if c = d then k else x.ctx d := by
  simp only [Hearth.ctx, Hearth.setCtx, Fin.getElem_fin, Vector.getElem_set, Fin.ext_iff]

@[simp] theorem State.ctx_setCtx_self (s : State) (l : Loc) (k : Ctx) : (s.setCtx l k).ctx l = k := by
  simp [State.ctx, State.setCtx]

theorem State.ctx_setCtx_ne (s : State) {l m : Loc} (k : Ctx) (n : m ≠ l) : (s.setCtx l k).ctx m = s.ctx m := by
  simp only [State.ctx, State.setCtx, State.hearth_setHearth]
  split
  · rename_i e
    simp only [Hearth.ctx_setCtx, e]
    split
    · rename_i e'
      exact absurd (by cases l; cases m; simp_all) n
    · rfl
  · rfl

@[simp] theorem State.fh_setFh (s : State) (x : Hearth) : (s.setFh x).fh = x := by simp [State.fh, State.setFh]
@[simp] theorem State.fc_setFc (s : State) (k : Ctx) : (s.setFc k).fc = k := by simp [State.fc, State.setFc]
@[simp] theorem State.fc_setFh (s : State) (x : Hearth) : (s.setFh x).fc = x.ctx s.foc.c := by
  simp [State.fc, State.ctx, State.setFh]
@[simp] theorem State.fh_setFc (s : State) (k : Ctx) : (s.setFc k).fh = s.fh.setCtx s.foc.c k := by
  simp [State.fh, State.setFc, State.setCtx]
@[simp] theorem State.ctx_foc (s : State) : s.ctx s.foc = s.fc := rfl
@[simp] theorem State.hearth_foc (s : State) : s.hearth s.foc.h = s.fh := rfl
@[simp] theorem State.fh_ctx_foc (s : State) : s.fh.ctx s.foc.c = s.fc := rfl

/-! ## Hearths and contexts behind an update of another field -/

@[simp] theorem State.setMem_hearth (s : State) (m : Mem) (h : Fin 640) : (s.setMem m).hearth h = s.hearth h := rfl
@[simp] theorem State.setMem_ctx (s : State) (m : Mem) (p : Loc) : (s.setMem m).ctx p = s.ctx p := rfl
@[simp] theorem State.setMem_fh (s : State) (m : Mem) : (s.setMem m).fh = s.fh := rfl
@[simp] theorem State.setMem_fc (s : State) (m : Mem) : (s.setMem m).fc = s.fc := rfl
@[simp] theorem State.report_hearth (s : State) (r : Report) (h : Fin 640) : (s.report r).hearth h = s.hearth h := rfl
@[simp] theorem State.report_ctx (s : State) (r : Report) (p : Loc) : (s.report r).ctx p = s.ctx p := rfl
@[simp] theorem State.report_fh (s : State) (r : Report) : (s.report r).fh = s.fh := rfl
@[simp] theorem State.report_fc (s : State) (r : Report) : (s.report r).fc = s.fc := rfl
@[simp] theorem State.memWrite_hearth (s : State) (ks : List Nat) (bs : List Byte) (h : Fin 640) : (s.memWrite ks bs).hearth h = s.hearth h := rfl
@[simp] theorem State.memWrite_ctx (s : State) (ks : List Nat) (bs : List Byte) (p : Loc) : (s.memWrite ks bs).ctx p = s.ctx p := rfl
@[simp] theorem State.memWrite_fh (s : State) (ks : List Nat) (bs : List Byte) : (s.memWrite ks bs).fh = s.fh := rfl
@[simp] theorem State.memWrite_fc (s : State) (ks : List Nat) (bs : List Byte) : (s.memWrite ks bs).fc = s.fc := rfl
@[simp] theorem State.msix_hearth (s : State) (v : Nat) (h : Fin 640) : (s.msix v).hearth h = s.hearth h := rfl
@[simp] theorem State.msix_ctx (s : State) (v : Nat) (p : Loc) : (s.msix v).ctx p = s.ctx p := rfl
@[simp] theorem State.msix_fh (s : State) (v : Nat) : (s.msix v).fh = s.fh := rfl
@[simp] theorem State.msix_fc (s : State) (v : Nat) : (s.msix v).fc = s.fc := rfl
@[simp] theorem State.setQueue_hearth (s : State) (q : Fin 2048) (w : WorkQueue) (h : Fin 640) : (s.setQueue q w).hearth h = s.hearth h := rfl
@[simp] theorem State.setQueue_ctx (s : State) (q : Fin 2048) (w : WorkQueue) (p : Loc) : (s.setQueue q w).ctx p = s.ctx p := rfl
@[simp] theorem State.setQueue_fh (s : State) (q : Fin 2048) (w : WorkQueue) : (s.setQueue q w).fh = s.fh := rfl
@[simp] theorem State.setQueue_fc (s : State) (q : Fin 2048) (w : WorkQueue) : (s.setQueue q w).fc = s.fc := rfl
@[simp] theorem State.setIndex_hearth (s : State) (i : Fin 64) (x : Option Index) (h : Fin 640) : (s.setIndex i x).hearth h = s.hearth h := rfl
@[simp] theorem State.setIndex_ctx (s : State) (i : Fin 64) (x : Option Index) (p : Loc) : (s.setIndex i x).ctx p = s.ctx p := rfl
@[simp] theorem State.setIndex_fh (s : State) (i : Fin 64) (x : Option Index) : (s.setIndex i x).fh = s.fh := rfl
@[simp] theorem State.setIndex_fc (s : State) (i : Fin 64) (x : Option Index) : (s.setIndex i x).fc = s.fc := rfl
@[simp] theorem State.setLinks_hearth (s : State) (l : Links) (h : Fin 640) : (s.setLinks l).hearth h = s.hearth h := rfl
@[simp] theorem State.setLinks_ctx (s : State) (l : Links) (p : Loc) : (s.setLinks l).ctx p = s.ctx p := rfl
@[simp] theorem State.setLinks_fh (s : State) (l : Links) : (s.setLinks l).fh = s.fh := rfl
@[simp] theorem State.setLinks_fc (s : State) (l : Links) : (s.setLinks l).fc = s.fc := rfl
@[simp] theorem State.hobPrint_hearth (s : State) (e : HobOut) (h : Fin 640) : (s.hobPrint e).hearth h = s.hearth h := rfl
@[simp] theorem State.hobPrint_ctx (s : State) (e : HobOut) (p : Loc) : (s.hobPrint e).ctx p = s.ctx p := rfl
@[simp] theorem State.hobPrint_fh (s : State) (e : HobOut) : (s.hobPrint e).fh = s.fh := rfl
@[simp] theorem State.hobPrint_fc (s : State) (e : HobOut) : (s.hobPrint e).fc = s.fc := rfl
@[simp] theorem State.pass_hearth (s : State) (n : Nat) (h : Fin 640) : (s.pass n).hearth h = s.hearth h := rfl
@[simp] theorem State.pass_ctx (s : State) (n : Nat) (p : Loc) : (s.pass n).ctx p = s.ctx p := rfl
@[simp] theorem State.pass_fh (s : State) (n : Nat) : (s.pass n).fh = s.fh := rfl
@[simp] theorem State.pass_fc (s : State) (n : Nat) : (s.pass n).fc = s.fc := rfl

/-! ## Scalar registers (R75) -/

@[simp] theorem Ctx.get_zero (k : Ctx) : k.get 0 = 0 := by simp [Ctx.get]

@[simp] theorem Ctx.get_set (k : Ctx) (r q : XReg) (v : Word) :
    (k.set r v).get q = if r = q then (if r = 0 then 0 else v) else k.get q := by
  unfold Ctx.get Ctx.set
  by_cases hr : r = 0
  · subst hr; by_cases hq : q = 0
    · simp [hq]
    · simp [hq, Ne.symm hq]
  · by_cases hq : q = 0
    · simp [hq, hr]
    · by_cases h : r = q
      · subst h; simp [hr]
      · have : (r : Nat) ≠ q := fun e => h (Fin.ext e)
        simp [hr, hq, h, this]

@[simp] theorem Ctx.get_retire (k : Ctx) (r : XReg) : k.retire.get r = k.get r := rfl
@[simp] theorem Ctx.get_enterTrap (k : Ctx) (c e v a : Word) (r : XReg) : (k.enterTrap c e v a).get r = k.get r := rfl
@[simp] theorem Ctx.get_trapReturn (k : Ctx) (r : XReg) : k.trapReturn.get r = k.get r := rfl

/-- A register write is what `WritesReg` says. -/
theorem Ctx.writesReg_set (k : Ctx) (r : XReg) (v : Word) : WritesReg r v k (k.set r v).retire :=
  ⟨by simp, fun q n => by simp [Ne.symm n]⟩

/-- An instruction that writes a register and goes on is `NextInstr`. -/
theorem Ctx.nextInstr_set (k : Ctx) (r : XReg) (v : Word) : NextInstr k (k.set r v).retire := by
  refine ⟨by simp, by simp, ?_⟩
  simp only [Ctx.set, Ctx.retire]
  split <;> rfl

/-! ## Frames -/

theorem State.sameWorld_setHearth (s : State) (h : Fin 640) (x : Hearth) : SameWorld s (s.setHearth h x) := rfl

theorem State.onlyHearth_setHearth (s : State) (h : Fin 640) (x : Hearth) : OnlyHearth h s (s.setHearth h x) :=
  ⟨rfl, fun _ n => s.hearth_setHearth_ne x n⟩

theorem State.onlyCtx_setCtx (s : State) (l : Loc) (k : Ctx) : OnlyCtx l s (s.setCtx l k) := by
  refine ⟨s.onlyHearth_setHearth _ _, fun c n => ?_, ?_⟩
  · simp [State.setCtx, Ne.symm n]
  · simp [State.setCtx, Hearth.setCtx]

theorem State.onlyCtx_refl (s : State) (l : Loc) : OnlyCtx l s s := ⟨⟨rfl, fun _ _ => rfl⟩, fun _ _ => rfl, rfl⟩

/-- The focus context writes one register and goes on, and nothing else changes: what every integer instruction does. -/
theorem completes_retireWith {i : Instr} {s : State} {r : XReg} {v : Word} (h : exec i s = .next (s.retireWith r v)) :
    Completes i s fun t => OnlyCtx s.foc s t ∧ NextInstr s.fc t.fc ∧ WritesReg r v s.fc t.fc :=
  ⟨_, h, s.onlyCtx_setCtx _ _, by simpa [State.retireWith] using s.fc.nextInstr_set r v,
    by simpa [State.retireWith] using s.fc.writesReg_set r v⟩

end Sys2Proof.Machine
end

