-- ==== Sys2Proof/Laws/Ops.lean ====
section
/-! SUPPORT. What each shared operation can do, said once: a proof about an instruction cites these and does not unfold the
operation. -/

namespace Sys2Proof.Machine

/-! ## Traps (R325, R327) -/

/-- A trap from U mode enters M mode in that context and changes nothing else. -/
theorem State.trap_user {s : State} {l : Loc} (h : (s.ctx l).mode = .user) (cause : Nat) (epc tval htaddr : Word) :
    s.trap l cause epc tval htaddr = s.setCtx l ((s.ctx l).enterTrap (BitVec.ofNat 64 cause) epc tval htaddr) := by
  simp [State.trap, h]

/-- A trap from M mode holds the context and tells the service OS. -/
theorem State.trap_machine {s : State} {l : Loc} (h : (s.ctx l).mode = .machine) (cause : Nat) (epc tval htaddr : Word) :
    s.trap l cause epc tval htaddr = s.hold l ⟨cause, tval, true⟩ := by
  simp [State.trap, h]

/-- A trap ends in one of two ways. -/
theorem State.trap_cases (s : State) (l : Loc) (cause : Nat) (epc tval htaddr : Word) :
    (s.ctx l).mode = .user ∧
      s.trap l cause epc tval htaddr = s.setCtx l ((s.ctx l).enterTrap (BitVec.ofNat 64 cause) epc tval htaddr) ∨
    (s.ctx l).mode = .machine ∧ s.trap l cause epc tval htaddr = s.hold l ⟨cause, tval, true⟩ := by
  cases h : (s.ctx l).mode
  · exact .inl ⟨rfl, s.trap_user h ..⟩
  · exact .inr ⟨rfl, s.trap_machine h ..⟩

/-- A trap from U mode leaves every other context and the rest of the package alone. -/
theorem State.onlyCtx_trap {s : State} {l : Loc} (h : (s.ctx l).mode = .user) (cause : Nat) (epc tval htaddr : Word) :
    OnlyCtx l s (s.trap l cause epc tval htaddr) := by
  rw [s.trap_user h]; exact s.onlyCtx_setCtx l _

/-- Where a trap goes: the base of `mtvec`, or in vectored mode an interrupt's slot behind it. -/
theorem Ctx.enterTrap_pc (k : Ctx) (c e v a : Word) : (k.enterTrap c e v a).pc =
    if bit k.csr.mtvec 0 && bit c 63 then (k.csr.mtvec &&& ~~~ (3#64)) + ((c <<< 1) >>> 1 <<< 2)
    else k.csr.mtvec &&& ~~~ (3#64) := rfl

/-- What a held fault leaves: the context held with its fault, and a report. -/
theorem State.hold_ctx (s : State) (l : Loc) (f : HeldFault) :
    (s.hold l f).ctx l = { s.ctx l with st := .held, fault := some f } := by
  simp only [State.hold, State.report_ctx, State.ctx_setCtx_self]

theorem State.hold_reports (s : State) (l : Loc) (f : HeldFault) :
    (s.hold l f).svc.reports = s.svc.reports ++ [.heldFault l f] := rfl

/-- The mode that a return from a trap goes back to. -/
theorem Ctx.trapReturn_mode_user (k : Ctx) (h : bitsN k.csr.mstatus 11 2 ≠ 3) : k.trapReturn.mode = .user := by
  simp [Ctx.trapReturn, h]

theorem Ctx.trapReturn_mode_machine (k : Ctx) (h : bitsN k.csr.mstatus 11 2 = 3) : k.trapReturn.mode = .machine := by
  simp [Ctx.trapReturn, h]

theorem Ctx.trapReturn_pc (k : Ctx) : k.trapReturn.pc = k.csr.mepc &&& ~~~ (3#64) := rfl

/-- An asynchronous trap is queued for the context that issued the command, or is reported when its record is gone. -/
theorem State.asyncTrap_cases (s : State) (l : Loc) (run : RunRec) (a : Async) :
    s.asyncTrap l run a = s.setCtx l { s.ctx l with pend := (s.ctx l).pend ++ [a] } ∨
    s.asyncTrap l run a = s.report (.lateTrap run a) := by
  simp only [State.asyncTrap]
  split
  · exact .inl rfl
  · exact .inr rfl

/-- An asynchronous trap taken enters M mode with the first pending one. -/
theorem Ctx.takeAsync_cons {k : Ctx} {a : Async} {rest : List Async} (h : k.pend = a :: rest) :
    k.takeAsync = { k with pend := rest }.enterTrap (BitVec.ofNat 64 a.cause) k.pc a.tval a.htaddr := by
  simp [Ctx.takeAsync, h]

/-! ## Accesses (R316 to R325) -/

/-- An address that is not canonical, or a range over two owners or halves, traps with cause 27 (R316). -/
theorem State.resolve_range {s : State} {l : Loc} {k : AccKind} {a : Word} {n : Nat} (h : rangeOk a n = false) :
    s.resolve l k a n = .trap 27 := by
  simp [State.resolve, h]

/-- An access of the hearth's own scratchpad lands at the address's low bits (R316). -/
theorem State.resolve_aperture {s : State} {l : Loc} {k : AccKind} {a : Word} {n : Nat} (h : rangeOk a n = true)
    (o : ownerOf a = 15) (u : bit a 56 = false) (lo : bitsN a 21 31 = 0)
    (hi : bitsN (a + BitVec.ofNat 64 (n - 1)) 21 31 = 0) : s.resolve l k a n = .ok (.aperture (bitsN a 0 21)) := by
  simp only [State.resolve]
  rw [if_neg (by simp [h]), if_pos (by simp [o, u]), if_neg (by simpa [lo] using hi)]

/-- Translation of no bytes, and of one byte more. -/
theorem State.xlatN_zero (s : State) (ag : Agent) (k : AccKind) (a : Word) : s.xlatN ag k a 0 = .ok [] := rfl

theorem State.xlatN_length {s : State} {ag : Agent} {k : AccKind} {n : Nat} {a : Word} {ks : List Nat}
    (h : s.xlatN ag k a n = .ok ks) : ks.length = n := by
  induction n generalizing a ks with
  | zero => simp [State.xlatN] at h; simp [← h]
  | succ n ih =>
    simp only [State.xlatN] at h
    split at h
    · cases h
    · split at h
      · cases h
      · rename_i e; cases h; simp [ih e]

/-- Each byte of a translated range lies where the translation of its own address puts it. -/
theorem State.xlatN_get {s : State} {ag : Agent} {k : AccKind} {n : Nat} {a : Word} {ks : List Nat}
    (h : s.xlatN ag k a n = .ok ks) (i : Nat) (hi : i < n) :
    s.xlat ag k (a + BitVec.ofNat 64 i) = .ok (ks[i]'(by rw [s.xlatN_length h]; exact hi)) := by
  induction n generalizing a ks i with
  | zero => omega
  | succ n ih =>
    simp only [State.xlatN] at h
    split at h
    · cases h
    · rename_i x ex
      split at h
      · cases h
      · rename_i xs exs
        cases h
        cases i with
        | zero => simpa using ex
        | succ j =>
          have := ih exs j (by omega)
          rw [show a + BitVec.ofNat 64 (j + 1) = a + 1 + BitVec.ofNat 64 j by
            rw [BitVec.add_assoc]; congr 1; rw [BitVec.ofNat_add]; exact BitVec.add_comm _ _]
          simpa using this

/-! ## Memory writes -/

/-- A write of memory bytes changes those bytes alone. -/
theorem State.memStore_read_other (s : State) (ks : List Nat) (bs : List Byte) (w : Option Loc) {x : Nat} (h : x ∉ ks) :
    (s.memStore ks bs w).mem.read x = s.mem.read x := by
  rw [s.memStore_mem]; exact Mem.read_writeAll_outside _ _ _ h

/-- A write of memory bytes at distinct keys reads back. -/
theorem State.memBytes_memStore (s : State) (ks : List Nat) (bs : List Byte) (w : Option Loc) (hn : ks.Nodup)
    (hl : ks.length = bs.length) : (s.memStore ks bs w).memBytes ks = bs := by
  rw [State.memBytes, s.memStore_mem]; exact Mem.map_read_writeAll _ _ _ hn hl

/-- A unit's write does nothing, or stores its bytes where its translation puts them. -/
theorem State.unitWrite_cases (s : State) (ag : Agent) (a : Word) (bs : List Byte) :
    s.unitWrite ag a bs = s ∨
    ∃ ks, s.xlatN ag .store a bs.length = .ok ks ∧ s.unitWrite ag a bs = s.memStore ks bs none := by
  simp only [State.unitWrite]
  split
  · exact .inl rfl
  · split
    · exact .inl rfl
    · rename_i ks e; exact .inr ⟨ks, e, rfl⟩

/-- A write of the scratchpad changes the run it stores and no byte besides. -/
theorem Hearth.scratchStore_read (x : Hearth) (off : Nat) (bs : List Byte) (but : Option (Fin 4)) (a : Nat) :
    (x.scratchStore off bs but).scratch.read a = (x.scratch.store off bs).read a := rfl

theorem Hearth.scratchStore_outside (x : Hearth) (off : Nat) (bs : List Byte) (but : Option (Fin 4)) :
    SameOutside off bs.length x.scratch (x.scratchStore off bs but).scratch :=
  fun _ h => Mem.sameOutside_store _ _ _ h

/-- Spill memory holds what was stored, and nothing else moves. -/
theorem Ctx.spillStore_outside (k : Ctx) (off n v : Nat) : SameOutside off n k.spill (k.spillStore off n v).spill :=
  fun x h => Mem.sameOutside_store _ _ _ (by rw [length_leBytes]; exact h)

/-! ## The trace (R284) -/

/-- Without a ring, a trace record goes nowhere. -/
theorem State.traceOut_none {s : State} {h : Fin 640} (r : BitVec 512) (e : (s.hearth h).trace.bytes = 0) :
    s.traceOut h r = s := by
  simp [State.traceOut, e]

/-- A full ring drops the record and counts it. -/
theorem State.traceOut_full {s : State} {h : Fin 640} (r : BitVec 512) (e : (s.hearth h).trace.bytes ≠ 0)
    (f : (s.hearth h).trace.room = false) : s.traceOut h r = s.setHearth h { s.hearth h with
      trace := { (s.hearth h).trace with dropped := (s.hearth h).trace.dropped + 1 } } := by
  simp [State.traceOut, e, f]

/-- A ring with room that dropped nothing receives the record at its position, which advances by 64. -/
theorem State.traceOut_room {s : State} {h : Fin 640} (r : BitVec 512) (e : (s.hearth h).trace.bytes ≠ 0)
    (f : (s.hearth h).trace.room = true) (d : (s.hearth h).trace.dropped = 0) :
    s.traceOut h r =
      (s.unitWrite ⟨(s.hearth h).asid, false, (s.hearth h).sec⟩
        ((s.hearth h).trace.addr + BitVec.ofNat 64 (s.hearth h).trace.pos) (bytes512 r)).setHearth h
      { (s.unitWrite ⟨(s.hearth h).asid, false, (s.hearth h).sec⟩
          ((s.hearth h).trace.addr + BitVec.ofNat 64 (s.hearth h).trace.pos) (bytes512 r)).hearth h with
        trace := { (s.hearth h).trace with pos := (s.hearth h).trace.pos + 64 } } := by
  simp [State.traceOut, e, f, d]

/-- With tracing off, a region edge is not recorded. -/
theorem State.traceEdge_off {s : State} {l : Loc} (e : (s.hearth l.h).trace.on = false) (kind : Nat) (id : BitVec 16)
    (stack : List (BitVec 16)) : s.traceEdge l kind id stack = s := by
  simp [State.traceEdge, e]

/-! ## The flag file (R38, R282) -/

/-- An addition that stays below 2^32 − 1 is exact. -/
theorem satAdd_exact {f : W32} {v : Nat} (h : f.toNat + v < 2 ^ 32 - 1) :
    satAdd f v = (BitVec.ofNat 32 (f.toNat + v), false) := by
  have : ¬ (2 ^ 32 - 1 ≤ f.toNat + v) := by omega
  simp only [satAdd, this, decide_false, Bool.and_false, Bool.false_eq_true, if_false]

/-- An addition that reaches 2^32 − 1 saturates and is an overflow. -/
theorem satAdd_over {f : W32} {v : Nat} (n : v ≠ 0) (h : 2 ^ 32 - 1 ≤ f.toNat + v) :
    satAdd f v = (0xFFFFFFFF#32, true) := by
  simp only [satAdd, h, n, decide_true, ne_eq, not_false_eq_true, Bool.and_self, if_true]

theorem satAdd_zero (f : W32) : satAdd f 0 = (f, false) := by simp [satAdd]

/-- A flag written reads back, and every other flag is unchanged. -/
theorem State.flag_setFlag (s : State) (h : Fin 640) (fl g : Fin 256) (v : W32) :
    ((s.setFlag h fl v).hearth h).flag g = if fl = g then v else (s.hearth h).flag g := by
  simp only [State.setFlag, State.hearth_setHearth_self, Hearth.flag, Fin.getElem_fin, Vector.getElem_set, Fin.ext_iff]

/-- An addition without overflow only writes the flag. -/
theorem State.flagAddNow_exact {s : State} {h : Fin 640} {fl : Fin 256} {v : Nat} (src : FlagSrc)
    (e : ((s.hearth h).flag fl).toNat + v < 2 ^ 32 - 1) :
    s.flagAddNow h src fl v = s.setFlag h fl (BitVec.ofNat 32 (((s.hearth h).flag fl).toNat + v)) := by
  simp only [State.flagAddNow, satAdd_exact e, Bool.false_eq_true, if_false]

/-- A stopped hearth holds the addition. -/
theorem State.flagAdd_stopped {s : State} {h : Fin 640} (e : (s.hearth h).hob.stopped = true) (src : FlagSrc)
    (fl : Fin 256) (v : Nat) (tr : Option (BitVec 512)) :
    s.flagAdd h src fl v tr = s.pushHeld h (.add src fl v tr) := by
  simp [State.flagAdd, e]

/-- A hearth that runs applies it at once. -/
theorem State.flagAdd_running {s : State} {h : Fin 640} (e : (s.hearth h).hob.stopped = false) (src : FlagSrc)
    (fl : Fin 256) (v : Nat) : s.flagAdd h src fl v none = s.flagAddNow h src fl v := by
  simp [State.flagAdd, e]

theorem State.flagSet_running {s : State} {h : Fin 640} (e : (s.hearth h).hob.stopped = false) (fl : Fin 256) (v : W32) :
    s.flagSet h fl v = s.setFlag h fl v := by
  simp [State.flagSet, e]

/-! ## Reservations (R76) -/

/-- A context that holds no reservation on the lines of a write keeps what it has. -/
theorem Ctx.clearResv_none {k : Ctx} (h : k.resv = none) (ap : Bool) (ls : List Nat) : k.clearResv ap ls = k := by
  simp [Ctx.clearResv, h]

/-- A reservation on a written line is gone. -/
theorem Ctx.clearResv_hit {k : Ctx} {ap : Bool} {line : Nat} {ls : List Nat} (h : k.resv = some (ap, line))
    (m : line ∈ ls) : (k.clearResv ap ls).resv = none := by
  simp [Ctx.clearResv, h, m]

/-- What a clearing leaves in a context of a hearth. -/
theorem Hearth.ctx_clearResv (x : Hearth) (ap : Bool) (ls : List Nat) (but : Option (Fin 4)) (c : Fin 4) :
    (x.clearResv ap ls but).ctx c = if but = some c then x.ctx c else (x.ctx c).clearResv ap ls := by
  simp [Hearth.clearResv, Hearth.ctx]

end Sys2Proof.Machine
end

