-- ==== Sys2Proof/Laws/MemInv.lean ====
section
/-! SUPPORT. Package memory and flash keep their canonical form through each shared operation. Each lemma is a rewrite whose
side condition is that the state before is canonical, so that `simp` walks back through a chain of operations. -/

namespace Sys2Proof.Machine

theorem State.memOk_iff (s : State) : s.memOk = true ↔ s.mem.wf = true ∧ s.cirrus.flash.wf = true := by
  simp [State.memOk]

@[simp] theorem State.mem_wf {s : State} (h : s.memOk = true) : s.mem.wf = true := (s.memOk_iff.1 h).1
@[simp] theorem State.flash_wf {s : State} (h : s.memOk = true) : s.cirrus.flash.wf = true := (s.memOk_iff.1 h).2

/-- A state is canonical when its two memories are, whatever its other fields. -/
@[simp] theorem State.memOk_mk (cycle foc forced agenda turns hearths saved mem roots pins owned regions queues qm cirrus svc
    cores links power chim hobOut free) : (State.mk cycle foc forced agenda turns hearths saved mem roots pins owned regions queues
      qm cirrus svc cores links power chim hobOut free).memOk = (mem.wf && cirrus.flash.wf) := rfl

@[simp] theorem State.setMem_memOk {s : State} {m : Mem} (hm : m.wf = true) (hw : s.memOk = true) :
    (s.setMem m).memOk = true := by
  rw [State.memOk_iff]; exact ⟨hm, s.flash_wf hw⟩

@[simp] theorem Mem.wf_writeAll' {m : Mem} (h : m.wf = true) (ks : List (Nat × Byte)) : (m.writeAll ks).wf = true :=
  Mem.wf_writeAll h ks

@[simp] theorem Mem.wf_store' {m : Mem} (h : m.wf = true) (a : Nat) (bs : List Byte) : (m.store a bs).wf = true :=
  Mem.wf_store h a bs

@[simp] theorem State.setCirrus_memOk {s : State} {c : Cirrus} (hm : c.flash.wf = true) (hw : s.memOk = true) :
    (s.setCirrus c).memOk = true := by
  rw [State.memOk_iff]; exact ⟨s.mem_wf hw, hm⟩

@[simp] theorem callFail_fst (s : State) (st : Nat) : (callFail s st).1 = s := rfl
@[simp] theorem callDone_fst (s : State) (res : Nat) : (callDone s res).1 = s := rfl

/-- A fold of operations that each keep the form keeps it. -/
theorem State.memOk_foldl {α : Type} {f : State → α → State} {s : State} (l : List α)
    (hf : ∀ t a, t.memOk = true → (f t a).memOk = true) (h : s.memOk = true) : (l.foldl f s).memOk = true := by
  induction l generalizing s with
  | nil => exact h
  | cons a l ih => exact ih (hf s a h)

@[simp] theorem State.setHearth_memOk {s : State} (h : Fin 640) (x : Hearth) (hw : s.memOk = true) :
    (s.setHearth h x).memOk = true := hw

@[simp] theorem State.setCtx_memOk {s : State} (l : Loc) (k : Ctx) (hw : s.memOk = true) : (s.setCtx l k).memOk = true := hw

@[simp] theorem State.setFh_memOk {s : State} (x : Hearth) (hw : s.memOk = true) : (s.setFh x).memOk = true := hw

@[simp] theorem State.setFc_memOk {s : State} (k : Ctx) (hw : s.memOk = true) : (s.setFc k).memOk = true := hw

@[simp] theorem State.retireWith_memOk {s : State} (r : XReg) (v : Word) (hw : s.memOk = true) :
    (s.retireWith r v).memOk = true := hw

@[simp] theorem State.retire_memOk {s : State} (hw : s.memOk = true) : (s.retire).memOk = true := hw

@[simp] theorem State.open__memOk {s : State} (hw : s.memOk = true) : (s.open_).2.memOk = true := hw

@[simp] theorem State.report_memOk {s : State} (r : Report) (hw : s.memOk = true) : (s.report r).memOk = true := hw

@[simp] theorem State.timed_memOk {s : State} (v : Word) (hw : s.memOk = true) : (s.timed v).2.memOk = true := by
  unfold State.timed; (repeat' split) <;> simp [hw]

@[simp] theorem State.retireTimed_memOk {s : State} (r : XReg) (v : Word) (hw : s.memOk = true) :
    (s.retireTimed r v).memOk = true := by
  simp [State.retireTimed, hw]

@[simp] theorem State.hold_memOk {s : State} (l : Loc) (f : HeldFault) (hw : s.memOk = true) : (s.hold l f).memOk = true := hw

@[simp] theorem State.trap_memOk {s : State} (l : Loc) (cause : ℕ) (epc : Word) (tval : Word) (htaddr : Word)
    (hw : s.memOk = true) : (s.trap l cause epc tval htaddr).memOk = true := by
  unfold State.trap; (try dsimp only); (repeat' split) <;> simp (maxDischargeDepth := 8) [hw]

@[simp] theorem State.trapHere_memOk {s : State} (cause : ℕ) (tval : Word) (hw : s.memOk = true) :
    (s.trapHere cause tval).memOk = true := by
  simp [State.trapHere, hw]

@[simp] theorem State.asyncTrap_memOk {s : State} (l : Loc) (run : RunRec) (a : Async) (hw : s.memOk = true) :
    (s.asyncTrap l run a).memOk = true := by
  unfold State.asyncTrap; (try dsimp only); (repeat' split) <;> simp (maxDischargeDepth := 8) [hw]

@[simp] theorem State.memWrite_memOk {s : State} (ks : List ℕ) (bs : List Byte) (hw : s.memOk = true) :
    (s.memWrite ks bs).memOk = true := by
  simp (maxDischargeDepth := 8) [State.memWrite, hw]

@[simp] theorem State.clearResvMem_memOk {s : State} (ks : List ℕ) (writer : Option Loc) (hw : s.memOk = true) :
    (s.clearResvMem ks writer).memOk = true := by
  simp [State.clearResvMem, hw]

@[simp] theorem State.memStore_memOk {s : State} (ks : List ℕ) (bs : List Byte) (writer : Option Loc)
    (hw : s.memOk = true) : (s.memStore ks bs writer).memOk = true := by
  simp [State.memStore, hw]

@[simp] theorem State.unitWrite_memOk {s : State} (ag : Agent) (a : Word) (bs : List Byte) (hw : s.memOk = true) :
    (s.unitWrite ag a bs).memOk = true := by
  unfold State.unitWrite; (repeat' split) <;> simp [hw]

@[simp] theorem State.hostStore_memOk {s : State} (a : ℕ) (bs : List Byte) (hw : s.memOk = true) :
    (s.hostStore a bs).memOk = true := by
  simp (maxDischargeDepth := 8) [State.hostStore, hw]

@[simp] theorem State.msix_memOk {s : State} (v : ℕ) (hw : s.memOk = true) : (s.msix v).memOk = true := hw

@[simp] theorem State.traceOut_memOk {s : State} (h : Fin 640) (r : BitVec 512) (hw : s.memOk = true) :
    (s.traceOut h r).memOk = true := by
  unfold State.traceOut; (try dsimp only); (repeat' split) <;> simp (maxDischargeDepth := 8) [hw]

@[simp] theorem State.traceEdge_memOk {s : State} (l : Loc) (kind : ℕ) (id : BitVec 16) (stack : List (BitVec 16))
    (hw : s.memOk = true) : (s.traceEdge l kind id stack).memOk = true := by
  unfold State.traceEdge; split <;> simp [hw]

@[simp] theorem State.setFlag_memOk {s : State} (h : Fin 640) (fl : Fin 256) (v : W32) (hw : s.memOk = true) :
    (s.setFlag h fl v).memOk = true := hw

@[simp] theorem State.flagOverflow_memOk {s : State} (h : Fin 640) (src : FlagSrc) (fl : Fin 256)
    (hw : s.memOk = true) : (s.flagOverflow h src fl).memOk = true := by
  unfold State.flagOverflow; split <;> simp [hw]

@[simp] theorem State.flagAddNow_memOk {s : State} (h : Fin 640) (src : FlagSrc) (fl : Fin 256) (v : ℕ)
    (hw : s.memOk = true) : (s.flagAddNow h src fl v).memOk = true := by
  unfold State.flagAddNow; (try dsimp only); (repeat' split) <;> simp (maxDischargeDepth := 8) [hw]

@[simp] theorem State.pushHeld_memOk {s : State} (h : Fin 640) (e : Held) (hw : s.memOk = true) :
    (s.pushHeld h e).memOk = true := hw

@[simp] theorem State.flagAdd_memOk {s : State} (h : Fin 640) (src : FlagSrc) (fl : Fin 256) (v : ℕ)
    (tr : Option (BitVec 512)) (hw : s.memOk = true) : (s.flagAdd h src fl v tr).memOk = true := by
  unfold State.flagAdd; (repeat' split) <;> simp [hw]

@[simp] theorem State.flagSet_memOk {s : State} (h : Fin 640) (fl : Fin 256) (v : W32) (hw : s.memOk = true) :
    (s.flagSet h fl v).memOk = true := by
  unfold State.flagSet; split <;> simp [hw]

@[simp] theorem State.setHand_memOk {s : State} (c : Cmd) (hw : s.memOk = true) : (s.setHand c).memOk = true := hw

@[simp] theorem State.setHandCtx_memOk {s : State} (k : Ctx) (hw : s.memOk = true) : (s.setHandCtx k).memOk = true := hw

@[simp] theorem State.performedWith_memOk {s : State} (st : BitVec 4) (bytes : ℕ) (hw : s.memOk = true) :
    (s.performedWith st bytes).memOk = true := hw

@[simp] theorem State.setVreg_memOk {s : State} (i : Fin 16) (v : VReg) (hw : s.memOk = true) : (s.setVreg i v).memOk
    = true := hw

@[simp] theorem State.setPreg_memOk {s : State} (i : Fin 8) (p : PReg) (hw : s.memOk = true) : (s.setPreg i p).memOk =
    true := hw

@[simp] theorem State.acceptWord_memOk {s : State} (l : Loc) (slot : ℕ) (w : CmdWord) (ws : Vector (Option WinOp) 5)
    (hw : s.memOk = true) : (s.acceptWord l slot w ws).memOk = true := by
  unfold State.acceptWord; dsimp only; split <;> simp [hw]

@[simp] theorem State.acceptSignal_memOk {s : State} (h : Fin 640) (c : Cmd) (hw : s.memOk = true) :
    (s.acceptSignal h c).memOk = true := by
  unfold State.acceptSignal; split <;> simp [hw]

@[simp] theorem State.acceptFrom_memOk {s : State} (l : Loc) (slot : ℕ) (w : CmdWord) (ws : Vector (Option WinOp) 5)
    (hw : s.memOk = true) : (s.acceptFrom l slot w ws).memOk = true := by
  simp (maxDischargeDepth := 8) [State.acceptFrom, hw]

@[simp] theorem State.tryAccept_memOk {s : State} (h : Fin 640) (hw : s.memOk = true) : (s.tryAccept h).memOk = true := by
  unfold State.tryAccept; (try dsimp only); (repeat' split) <;> simp (maxDischargeDepth := 8) [hw]

@[simp] theorem State.failCmd_memOk {s : State} (h : Fin 640) (c : Cmd) (cause : ℕ) (detail : ℕ) (htaddr : Word)
    (hw : s.memOk = true) : (s.failCmd h c cause detail htaddr).memOk = true := by
  simp [State.failCmd, hw]

@[simp] theorem State.complete_memOk {s : State} (h : Fin 640) (c : Cmd) (hw : s.memOk = true) :
    (s.complete h c).memOk = true := by
  unfold State.complete; (try dsimp only); (repeat' split) <;> simp (maxDischargeDepth := 8) [hw]

@[simp] theorem State.resume_memOk {s : State} (hw : s.memOk = true) : (s.resume).memOk = true := hw

@[simp] theorem State.takeApSeq_memOk {s : State} (hw : s.memOk = true) : (s.takeApSeq).memOk = true := by
  unfold State.takeApSeq; split <;> simp [hw]

@[simp] theorem State.apWait_memOk {s : State} (write : Bool) (off : ℕ) (n : ℕ) (hw : s.memOk = true) :
    (s.apWait write off n).memOk = true := by
  simp [State.apWait, hw]

@[simp] theorem State.writePlace_memOk {s : State} (p : Place) (bs : List Byte) (hw : s.memOk = true) :
    (s.writePlace p bs).memOk = true := by
  unfold State.writePlace; split <;> simp [hw]

@[simp] theorem State.access_memOk {s : State} (k : AccKind) (a : Word) (n : ℕ) (f : State → Place → State)
    (hw : s.memOk = true) (hwf : ∀ a0 a1, a0.memOk = true → (f a0 a1).memOk = true) : (s.access k a n f).memOk = true := by
  unfold State.access; (try dsimp only); (repeat' split) <;> simp +contextual (maxDischargeDepth := 8) [*, apply_ite State.memOk]

@[simp] theorem State.atomic_memOk {s : State} (k : AccKind) (a : Word) (n : ℕ) (f : State → Place → State)
    (hw : s.memOk = true) (hwf : ∀ a0 a1, a0.memOk = true → (f a0 a1).memOk = true) : (s.atomic k a n f).memOk = true := by
  unfold State.atomic; (try dsimp only); (repeat' split) <;> simp +contextual (maxDischargeDepth := 8) [*, apply_ite State.memOk]

@[simp] theorem State.settleLine_memOk {s : State} (line : ℕ) (h : Fin 640) (keep : Bool) (hw : s.memOk = true) :
    (s.settleLine line h keep).memOk = true := hw

@[simp] theorem State.amocDo_memOk {s : State} (op : AmocOp) (a : Amoc) (p : Place) (hw : s.memOk = true) :
    (s.amocDo op a p).memOk = true := by
  simp [State.amocDo, hw]

@[simp] theorem State.amoc_memOk {s : State} (op : AmocOp) (a : Amoc) (hw : s.memOk = true) : (s.amoc op a).memOk = true := by
  unfold State.amoc; extract_lets n addr; split
  · simp [hw]
  · refine State.atomic_memOk _ _ _ _ hw (fun t p ht => ?_)
    (repeat' split) <;> simp [ht]

@[simp] theorem State.grpOp_memOk {s : State} (addr : Word) (f : State → Place → BitVec 512 → State)
    (hw : s.memOk = true) (hwf : ∀ a0 a1 a2, a0.memOk = true → (f a0 a1 a2).memOk = true) : (s.grpOp addr f).memOk =
    true := by
  unfold State.grpOp; (try dsimp only); (repeat' split) <;> simp +contextual (maxDischargeDepth := 8) [*, apply_ite State.memOk]

@[simp] theorem State.grpWrite_memOk {s : State} (p : Place) (g : BitVec 512) (hw : s.memOk = true) :
    (s.grpWrite p g).memOk = true := by
  simp [State.grpWrite, hw]

@[simp] theorem State.csrWrite_memOk {s : State} (l : Loc) (n : ℕ) (v : Word) (hw : s.memOk = true) :
    (s.csrWrite l n v).memOk = true := by
  unfold State.csrWrite; (repeat' split) <;> simp [hw]

@[simp] theorem State.stopHearth_memOk {s : State} (l : Loc) (hw : s.memOk = true) : (s.stopHearth l).memOk = true := by
  simp [State.stopHearth, hw]

@[simp] theorem State.endWfi_memOk {s : State} (hw : s.memOk = true) : (s.endWfi).memOk = true := by
  unfold State.endWfi; split <;> simp [hw]

@[simp] theorem State.reportPend_memOk {s : State} (run : RunRec) (l : List Async) (hw : s.memOk = true) :
    (s.reportPend run l).memOk = true := by
  unfold State.reportPend; exact State.memOk_foldl _ (by simp +contextual (maxDischargeDepth := 8) [*, apply_ite State.memOk]) hw

@[simp] theorem State.startEmber_memOk {s : State} (l : Loc) (a : Arrival) (parked : Bool) (hw : s.memOk = true) :
    (s.startEmber l a parked).memOk = true := hw

@[simp] theorem State.startHandler_memOk {s : State} (h : Fin 640) (a : Arrival) (hw : s.memOk = true) :
    (s.startHandler h a).memOk = true := by
  unfold State.startHandler; (try dsimp only); (repeat' split) <;> simp (maxDischargeDepth := 8) [hw]

@[simp] theorem State.takeQueued_memOk {s : State} (h : Fin 640) (x2 : ℕ) (hw : s.memOk = true) :
    (s.takeQueued h x2).memOk = true := by
  induction x2 generalizing s with
  | zero => exact hw
  | succ n ih => unfold State.takeQueued; dsimp only; split; exacts [ih (by simp [hw]), hw]

@[simp] theorem State.freeCtx_memOk {s : State} (l : Loc) (hw : s.memOk = true) : (s.freeCtx l).memOk = true := by
  unfold State.freeCtx; (try dsimp only); (repeat' split) <;> simp (maxDischargeDepth := 8) [hw]

@[simp] theorem State.take_memOk {s : State} (h : Fin 640) (cs : List Cond) (hw : s.memOk = true) :
    (s.take h cs).memOk = true := by
  unfold State.take; exact State.memOk_foldl _ (by simp +contextual (maxDischargeDepth := 8) [*, apply_ite State.memOk]) hw

@[simp] theorem State.candidate_memOk {s : State} (slot : ℕ) (w : CmdWord) (hw : s.memOk = true) :
    (s.candidate slot w).memOk = true := by
  unfold State.candidate; (try dsimp only); (repeat' split) <;> simp [hw]

@[simp] theorem State.issueCheck_memOk {s : State} (idx : BitVec 13) (hw : s.memOk = true) :
    (s.issueCheck idx).memOk = true := by
  unfold State.issueCheck; dsimp only; (repeat' split) <;> simp [hw]

@[simp] theorem State.acceptWaiting_memOk {s : State} (hw : s.memOk = true) : s.acceptWaiting.memOk = true := by
  unfold State.acceptWaiting; split <;> simp [hw]

@[simp] theorem State.vecWrite_memOk {s : State} (f : CmdF) (srcs : List Src) (g : ℕ → ℕ × St) (hw : s.memOk = true) :
    (s.vecWrite f srcs g).memOk = true := hw

@[simp] theorem State.predWrite_memOk {s : State} (f : CmdF) (srcs : List Src) (g : ℕ → Bool) (hw : s.memOk = true) :
    (s.predWrite f srcs g).memOk = true := hw

@[simp] theorem State.vec1_memOk {s : State} (f : CmdF) (g : ℕ → ℕ × St) (hw : s.memOk = true) : (s.vec1 f g).memOk = true := hw

@[simp] theorem State.vec2_memOk {s : State} (f : CmdF) (g : ℕ → ℕ → ℕ × St) (hw : s.memOk = true) :
    (s.vec2 f g).memOk = true := hw

@[simp] theorem State.vec3_memOk {s : State} (f : CmdF) (g : ℕ → ℕ → ℕ → ℕ × St) (hw : s.memOk = true) :
    (s.vec3 f g).memOk = true := hw

@[simp] theorem State.cmp2_memOk {s : State} (f : CmdF) (g : ℕ → ℕ → Bool) (hw : s.memOk = true) : (s.cmp2 f g).memOk
    = true := hw

@[simp] theorem State.axis_memOk {s : State} (f : CmdF) (op : Red) (col : Bool) (scan : Bool) (hw : s.memOk = true) :
    (s.axis f op col scan).memOk = true := hw

@[simp] theorem State.move_memOk {s : State} (f : CmdF) (a : VReg) (src : ℕ → ℕ → ℕ) (hw : s.memOk = true) :
    (s.move f a src).memOk = true := hw

@[simp] theorem State.predLogic_memOk {s : State} (f : CmdF) (p : PReg) (hw : s.memOk = true) :
    (s.predLogic f p).memOk = true := hw

@[simp] theorem State.storeWrites_memOk {s : State} (ks : List (ℕ × Byte)) (hw : s.memOk = true) :
    (s.storeWrites ks).memOk = true := hw

@[simp] theorem State.lut_memOk {s : State} (f : CmdF) (m : ℕ) (hw : s.memOk = true) : (s.lut f m).memOk = true := hw

@[simp] theorem repeatUnits_memOk (u : State → State) (x1 : ℕ) {x2 : State}
    (hwu : ∀ a0, a0.memOk = true → (u a0).memOk = true) (hwx2 : x2.memOk = true) : (repeatUnits u x1 x2).memOk = true := by
  induction x1 generalizing x2 with
  | zero => exact hwx2
  | succ n ih => unfold repeatUnits; split; exacts [hwx2, ih (hwu _ hwx2)]

@[simp] theorem State.units_memOk {s : State} (u : State → State) (hw : s.memOk = true)
    (hwu : ∀ a0, a0.memOk = true → (u a0).memOk = true) : (s.units u).memOk = true := repeatUnits_memOk _ _ hwu hw

@[simp] theorem State.scratchPut_memOk {s : State} (off : ℕ) (bs : List Byte) (hw : s.memOk = true) :
    (s.scratchPut off bs).memOk = true := hw

@[simp] theorem State.unitDone_memOk {s : State} (st : BitVec 4) (bytes : ℕ) (pos : ℕ) (last : Bool)
    (hw : s.memOk = true) : (s.unitDone st bytes pos last).memOk = true := hw

@[simp] theorem State.putLate_memOk {s : State} (ks : List (ℕ × Byte)) (later : List (ℕ × ℕ)) (hw : s.memOk = true) :
    (s.putLate ks later).memOk = true := hw

@[simp] theorem State.latchRun_memOk {s : State} (a : ℕ) (n : ℕ) (hw : s.memOk = true) : (s.latchRun a n).memOk = true := hw

@[simp] theorem State.ldbRow_memOk {s : State} (f : CmdF) (hw : s.memOk = true) : (s.ldbRow f).memOk = true := hw

@[simp] theorem State.goRow_memOk {s : State} (f : CmdF) (hw : s.memOk = true) : (s.goRow f).memOk = true := by
  unfold State.goRow; (try dsimp only); (repeat' split) <;> simp (maxDischargeDepth := 8) [hw]

@[simp] theorem State.drainClear_memOk {s : State} (n : ℕ) (pairs : Bool) (hw : s.memOk = true) :
    (s.drainClear n pairs).memOk = true := hw

@[simp] theorem State.drainBins_memOk {s : State} (n : ℕ) (b : ℕ) (hw : s.memOk = true) : (s.drainBins n b).memOk = true := hw

@[simp] theorem State.drainStep_memOk {s : State} (f : CmdF) (hw : s.memOk = true) : (s.drainStep f).memOk = true := by
  unfold State.drainStep; (try dsimp only); (repeat' split) <;> simp (maxDischargeDepth := 8) [hw]

@[simp] theorem State.setSa_memOk {s : State} (x : SortArr) (hw : s.memOk = true) : (s.setSa x).memOk = true := hw

theorem State.sortRead_memOk {s t : State} {f : CmdF} {k n j : Nat} (hw : s.memOk = true) (e : s.sortRead f k n j = some t) :
    t.memOk = true := by
  simp only [State.sortRead] at e
  split at e <;> cases e
  exact State.latchRun_memOk _ _ hw

@[simp] theorem State.soLdStep_memOk {s : State} (f : CmdF) (hw : s.memOk = true) : (s.soLdStep f).memOk = true := by
  unfold State.soLdStep; dsimp only; split
  · exact hw
  · rename_i e
    have := State.sortRead_memOk hw e
    split <;> simp [this]

@[simp] theorem State.soPhase_memOk {s : State} (desc : Bool) (left : ℕ) (hw : s.memOk = true) :
    (s.soPhase desc left).memOk = true := by
  unfold State.soPhase; (try dsimp only); (repeat' split) <;> simp (maxDischargeDepth := 8) [hw]

@[simp] theorem State.soStStep_memOk {s : State} (f : CmdF) (hw : s.memOk = true) : (s.soStStep f).memOk = true := by
  unfold State.soStStep; (try dsimp only); (repeat' split) <;> simp (maxDischargeDepth := 8) [hw]

@[simp] theorem State.topkEnd_memOk {s : State} (f : CmdF) (n : ℕ) (hw : s.memOk = true) : (s.topkEnd f n).memOk = true := hw

@[simp] theorem State.soTopk_memOk {s : State} (f : CmdF) (hw : s.memOk = true) : (s.soTopk f).memOk = true := by
  unfold State.soTopk; dsimp only; (repeat' split) <;> first
    | simp [hw]; done
    | (rename_i e; simp [State.sortRead_memOk hw e])

@[simp] theorem State.soSaveStep_memOk {s : State} (hw : s.memOk = true) : (s.soSaveStep).memOk = true := by
  unfold State.soSaveStep; (try dsimp only); (repeat' split) <;> simp (maxDischargeDepth := 8) [hw]

@[simp] theorem State.soRestStep_memOk {s : State} (hw : s.memOk = true) : (s.soRestStep).memOk = true := by
  unfold State.soRestStep; (try dsimp only); (repeat' split) <;> simp (maxDischargeDepth := 8) [hw]

@[simp] theorem State.failHand_memOk {s : State} (cause : ℕ) (detail : ℕ) (htaddr : Word) (hw : s.memOk = true) :
    (s.failHand cause detail htaddr).memOk = true := by
  simp [State.failHand, hw]

@[simp] theorem State.holdCopy_memOk {s : State} (a : Word) (n : ℕ) (hw : s.memOk = true) : (s.holdCopy a n).memOk = true := hw

@[simp] theorem State.performWrite_memOk {s : State} (ks : List ℕ) (data : List (Option Byte))
    (add : Option (BitVec 4 × BitVec 4)) (hw : s.memOk = true) : (s.performWrite ks data add).memOk = true := by
  simp [State.performWrite, hw]

@[simp] theorem State.copyWrite_memOk {s : State} (a : Word) (data : List (Option Byte))
    (add : Option (BitVec 4 × BitVec 4)) (hw : s.memOk = true) : (s.copyWrite a data add).1.memOk = true := by
  unfold State.copyWrite; (try dsimp only); (repeat' split) <;> simp (maxDischargeDepth := 8) [hw]

@[simp] theorem State.storePiece_memOk {s : State} (mem : ℕ) (bs : List Byte) (later : List (ℕ × ℕ))
    (hw : s.memOk = true) : (s.storePiece mem bs later).1.memOk = true := by
  unfold State.storePiece; (try dsimp only); (repeat' split) <;> simp (maxDischargeDepth := 8) [hw]

@[simp] theorem State.copyMove_memOk {s : State} (f : CmdF) (dir : ℕ) (scr : ℕ) (mem : Word) (n : ℕ)
    (later : List (ℕ × ℕ)) (hw : s.memOk = true) : (s.copyMove f dir scr mem n later).1.memOk = true := by
  unfold State.copyMove; (repeat' split) <;> simp [hw]

@[simp] theorem State.dropPick_memOk {s : State} (hw : s.memOk = true) : s.dropPick.memOk = true := hw

@[simp] theorem State.movePiece_memOk {s : State} (f : CmdF) (dir : ℕ) (scr : ℕ → ℕ) (mem : ℕ → Word) (p : ℕ × ℕ)
    (more : List (ℕ × ℕ)) (hw : s.memOk = true) : (s.movePiece f dir scr mem p more).1.memOk = true := by
  have h (l) : ((s.dropPick).copyMove f dir (scr p.1) (mem p.1) p.2 l).1.memOk = true :=
    State.copyMove_memOk _ _ _ _ _ _ (State.dropPick_memOk hw)
  unfold State.movePiece; extract_lets left later r
  have hr : r.1.memOk = true := h _
  clear_value r
  split <;> simp [hr]

@[simp] theorem State.unitsLeft_memOk {s : State} (n : ℕ) (picks : List ℕ) (hw : s.memOk = true) :
    (s.unitsLeft n picks).memOk = true := hw

@[simp] theorem State.bytesDone_memOk {s : State} (w : WinOp) (i : ℕ) (n : ℕ) (hw : s.memOk = true) :
    (s.bytesDone w i n).memOk = true := hw

@[simp] theorem State.withDesc_memOk {s : State} (g : BitVec 512 → State → State) (hw : s.memOk = true)
    (hwg : ∀ a0 a1, a1.memOk = true → (g a0 a1).memOk = true) : (s.withDesc g).memOk = true := by
  unfold State.withDesc; (try dsimp only); (repeat' split) <;> simp +contextual (maxDischargeDepth := 8) [*, apply_ite State.memOk]

@[simp] theorem State.dataStep_memOk {s : State} (o : COp) (f : CmdF) (hw : s.memOk = true) : (s.dataStep o f).memOk =
    true := by
  unfold State.dataStep; dsimp only; split
  · refine State.withDesc_memOk _ hw (fun d t ht => ?_); (repeat' split) <;> simp [ht]
  · (repeat' split) <;> simp (maxDischargeDepth := 8) [hw]

@[simp] theorem copyUnits_memOk (u : State → State) (x1 : ℕ) {x2 : State}
    (hwu : ∀ a0, a0.memOk = true → (u a0).memOk = true) (hwx2 : x2.memOk = true) : (copyUnits u x1 x2).memOk = true := by
  induction x1 generalizing x2 with
  | zero => exact hwx2
  | succ n ih =>
    unfold copyUnits; dsimp only; (repeat' split)
    exacts [State.unitsLeft_memOk _ _ hwx2, State.unitsLeft_memOk _ _ (hwu _ hwx2), ih (hwu _ hwx2)]

@[simp] theorem State.copyRun_memOk {s : State} (u : State → State) (hw : s.memOk = true)
    (hwu : ∀ a0, a0.memOk = true → (u a0).memOk = true) : (s.copyRun u).memOk = true := copyUnits_memOk u _ hwu hw

@[simp] theorem State.readList_memOk {s : State} (d : BitVec 512) (hw : s.memOk = true) : (s.readList d).memOk = true := by
  unfold State.readList; (try dsimp only); (repeat' split) <;> simp (maxDischargeDepth := 8) [hw]

@[simp] theorem State.openEntry_memOk {s : State} (dir : ℕ) (w : WinOp) (e : BitVec 256) (hw : s.memOk = true) :
    (s.openEntry dir w e).memOk = true := by
  unfold State.openEntry; split <;> simp [hw]

@[simp] theorem State.listPiece_memOk {s : State} (f : CmdF) (w : WinOp) (es : List (BitVec 256)) (k : ℕ)
    (hw : s.memOk = true) : (s.listPiece f w es k).memOk = true := by
  unfold State.listPiece; dsimp only; (repeat' split) <;> simp [hw]

@[simp] theorem State.listStep_memOk {s : State} (f : CmdF) (hw : s.memOk = true) : (s.listStep f).memOk = true := by
  unfold State.listStep; dsimp only; split
  · refine State.withDesc_memOk _ hw (fun d t ht => ?_); (repeat' split) <;> simp [ht]
  · simp [hw]
  · (repeat' split) <;> simp [hw]

@[simp] theorem State.fillStep_memOk {s : State} (f : CmdF) (hw : s.memOk = true) : (s.fillStep f).memOk = true := by
  unfold State.fillStep; (try dsimp only); (repeat' split) <;> simp (maxDischargeDepth := 8) [hw]

@[simp] theorem State.xfScout_memOk {s : State} (d : BitVec 512) (hw : s.memOk = true) : (s.xfScout d).memOk = true := by
  unfold State.xfScout; (try dsimp only); (repeat' split) <;> simp (maxDischargeDepth := 8) [hw]

@[simp] theorem State.xfFetch_memOk {s : State} (d : BitVec 512) (h : BitVec 256) (hw : s.memOk = true) :
    (s.xfFetch d h).memOk = true := by
  unfold State.xfFetch; (try dsimp only); (repeat' split) <;> simp (maxDischargeDepth := 8) [hw]

@[simp] theorem State.xfChunk_memOk {s : State} (d : BitVec 512) (h : BitVec 256) (rest : List (BitVec 256))
    (hw : s.memOk = true) : (s.xfChunk d h rest).memOk = true := by
  unfold State.xfChunk; (try dsimp only); (repeat' split) <;> simp (maxDischargeDepth := 8) [hw]

@[simp] theorem State.xfCore_memOk {s : State} (d : BitVec 512) (hw : s.memOk = true) : (s.xfCore d).memOk = true := by
  unfold State.xfCore; (try dsimp only); (repeat' split) <;> simp (maxDischargeDepth := 8) [hw]

@[simp] theorem State.xfWrite_memOk {s : State} (w : WinOp) (hw : s.memOk = true) : (s.xfWrite w).memOk = true := by
  unfold State.xfWrite; (try dsimp only); (repeat' split) <;> simp (maxDischargeDepth := 8) [hw]

@[simp] theorem State.xfStep_memOk {s : State} (hw : s.memOk = true) : (s.xfStep).memOk = true := by
  unfold State.xfStep; (try dsimp only); (repeat' split) <;> first
    | simp [hw]; done
    | (refine State.withDesc_memOk _ hw (fun d t ht => ?_); (repeat' split) <;> first
      | simp [ht]; done
      | exact State.setHand_memOk _ ht)

@[simp] theorem State.peerStep_memOk {s : State} (hw : s.memOk = true) : (s.peerStep).memOk = true := by
  unfold State.peerStep; (try dsimp only); (repeat' split) <;> simp +contextual (maxDischargeDepth := 8) [*, apply_ite State.memOk]

@[simp] theorem State.setIndex_memOk {s : State} (i : Fin 64) (x : Option Index) (hw : s.memOk = true) :
    (s.setIndex i x).memOk = true := hw

@[simp] theorem State.sxDo_memOk {s : State} (q : SxReq) (hw : s.memOk = true) : (s.sxDo q).1.memOk = true := by
  unfold State.sxDo; (try dsimp only); (repeat' split) <;> simp (maxDischargeDepth := 8) [hw]

@[simp] theorem State.readsOver_memOk {s : State} (r : Reader) (pages : List ℕ) (hw : s.memOk = true) :
    (s.readsOver r pages).memOk = true := hw

@[simp] theorem State.pageMoved_memOk {s : State} (page : ℕ) (hw : s.memOk = true) : (s.pageMoved page).memOk = true := hw

@[simp] theorem State.retryTrace_memOk {s : State} (h : Fin 640) (c : Cmd) (code : ℕ) (hw : s.memOk = true) :
    (s.retryTrace h c code).memOk = true := by
  simp [State.retryTrace, hw]

@[simp] theorem State.sxTask_memOk {s : State} (op : ℕ) (hw : s.memOk = true) : (s.sxTask op).memOk = true := by
  unfold State.sxTask; (try dsimp only); (repeat' split) <;> simp (maxDischargeDepth := 8) [hw]

@[simp] theorem State.sxWrite_memOk {s : State} (hw : s.memOk = true) : (s.sxWrite).memOk = true := by
  unfold State.sxWrite; (try dsimp only); (repeat' split) <;> simp (maxDischargeDepth := 8) [hw]

@[simp] theorem State.sxStep_memOk {s : State} (op : ℕ) (hw : s.memOk = true) : (s.sxStep op).memOk = true := by
  unfold State.sxStep; split <;> simp [hw]

@[simp] theorem State.sxCmd_memOk {s : State} (op : ℕ) (hw : s.memOk = true) : (s.sxCmd op).memOk = true := by
  unfold State.sxCmd; (try dsimp only); (repeat' split) <;> simp +contextual (maxDischargeDepth := 8) [*, apply_ite State.memOk]

@[simp] theorem State.fetchPlan_memOk {s : State} (hw : s.memOk = true) : (s.fetchPlan).memOk = true := by
  unfold State.fetchPlan; (try dsimp only); (repeat' split) <;> simp (maxDischargeDepth := 8) [hw]

@[simp] theorem State.fetchEnd_memOk {s : State} (status : ℕ) (hw : s.memOk = true) : (s.fetchEnd status).memOk = true := by
  unfold State.fetchEnd; (try dsimp only); (repeat' split) <;> simp (maxDischargeDepth := 8) [hw]

@[simp] theorem State.fetchRead_memOk {s : State} (ahead : Bool) (hw : s.memOk = true) : (s.fetchRead ahead).memOk = true := by
  unfold State.fetchRead; (try dsimp only); (repeat' split) <;> simp (maxDischargeDepth := 8) [hw]

@[simp] theorem State.fetchWrite_memOk {s : State} (a : ℕ) (bs : List Byte) (rest : List (ℕ × List Byte))
    (hw : s.memOk = true) : (s.fetchWrite a bs rest).memOk = true := by
  unfold State.fetchWrite; (try dsimp only); (repeat' split) <;> simp (maxDischargeDepth := 8) [hw]

@[simp] theorem State.fetchStep_memOk {s : State} (hw : s.memOk = true) : (s.fetchStep).memOk = true := by
  unfold State.fetchStep; dsimp only; split
  · refine State.withDesc_memOk _ hw (fun d t ht => ?_); split <;> simp [ht]
  · (repeat' split) <;> simp [hw]

@[simp] theorem State.sxAhead_memOk {s : State} (hw : s.memOk = true) : (s.sxAhead).memOk = true := by
  unfold State.sxAhead; (try dsimp only); (repeat' split) <;> simp (maxDischargeDepth := 8) [hw]

@[simp] theorem State.flAddEffect_memOk {s : State} (h : Fin 640) (c : Cmd) (f : CmdF) (hw : s.memOk = true) :
    (s.flAddEffect h c f).memOk = true := by
  simp [State.flAddEffect, hw]

@[simp] theorem State.flSetEffect_memOk {s : State} (h : Fin 640) (f : CmdF) (hw : s.memOk = true) :
    (s.flSetEffect h f).memOk = true := by
  simp [State.flSetEffect, hw]

@[simp] theorem State.flagEffect_memOk {s : State} (h : Fin 640) (c : Cmd) (hw : s.memOk = true) :
    (s.flagEffect h c).memOk = true := by
  unfold State.flagEffect; split <;> simp [hw]

@[simp] theorem State.takeIrq_memOk {s : State} (l : Loc) (n : ℕ) (hw : s.memOk = true) : (s.takeIrq l n).memOk = true := hw

@[simp] theorem State.arrive_memOk {s : State} (l : Loc) (hw : s.memOk = true) : (s.arrive l).memOk = true := by
  unfold State.arrive; (try dsimp only); (repeat' split) <;> simp (maxDischargeDepth := 8) [hw]

@[simp] theorem State.settle_memOk {s : State} (l : Loc) (hw : s.memOk = true) : (s.settle l).memOk = true := by
  unfold State.settle; (try dsimp only); (repeat' split) <;> simp (maxDischargeDepth := 8) [hw]

@[simp] theorem State.storeHand_memOk {s : State} (h : Fin 640) (hw : s.memOk = true) : (s.storeHand h).memOk = true := hw

@[simp] theorem State.record_memOk {s : State} (t : Turn) (hw : s.memOk = true) : (s.record t).memOk = true := by
  unfold State.record; split <;> simp [hw]

@[simp] theorem State.pass_memOk {s : State} (n : ℕ) (hw : s.memOk = true) : (s.pass n).memOk = true := hw

@[simp] theorem State.placeScalar_memOk {s : State} (w : ℕ) (hw : s.memOk = true) : (s.placeScalar w).memOk = true := hw

@[simp] theorem State.placeCmd_memOk {s : State} (w : ℕ) (hw : s.memOk = true) : (s.placeCmd w).memOk = true := hw

theorem State.loadHand_memOk {s t : State} {h : Fin 640} {seq quota : Nat} {i : Instr} (hw : s.memOk = true)
    (e : s.loadHand h seq quota = some (t, i)) : t.memOk = true := by
  simp only [State.loadHand] at e
  split at e
  · cases e
  · split at e
    · cases e
    · split at e <;> cases e
      exact hw

@[simp] theorem State.startRead_memOk {s : State} (h : Fin 640) (seq : ℕ) (hw : s.memOk = true) :
    (s.startRead h seq).memOk = true := by
  unfold State.startRead; split
  · exact hw
  · rename_i e
    have ht := State.loadHand_memOk hw e
    extract_lets f u
    have hu : u.memOk = true := by simp only [u]; split <;> simp [ht]
    exact hu

@[simp] theorem State.leaveQueue_memOk {s : State} (h : Fin 640) (c : Cmd) (hw : s.memOk = true) :
    (s.leaveQueue h c).memOk = true := by
  unfold State.leaveQueue; (try dsimp only); (repeat' split) <;> simp (maxDischargeDepth := 8) [hw]

@[simp] theorem State.endFlag_memOk {s : State} (h : Fin 640) (seq : ℕ) (hw : s.memOk = true) :
    (s.endFlag h seq).memOk = true := by
  unfold State.endFlag; (try dsimp only); (repeat' split) <;> simp (maxDischargeDepth := 8) [hw]

@[simp] theorem State.startCmd_memOk {s : State} (h : Fin 640) (c : Cmd) (hw : s.memOk = true) :
    (s.startCmd h c).memOk = true := by
  unfold State.startCmd; (try dsimp only); (repeat' split) <;> simp (maxDischargeDepth := 8) [hw]

@[simp] theorem State.startIf_memOk {s : State} (h : Fin 640) (seq : ℕ) (cycle : Bool) (hw : s.memOk = true) :
    (s.startIf h seq cycle).memOk = true := by
  unfold State.startIf; dsimp only; (repeat' split) <;> simp [hw]

@[simp] theorem State.completeSeq_memOk {s : State} (h : Fin 640) (seq : ℕ) (hw : s.memOk = true) :
    (s.completeSeq h seq).memOk = true := by
  unfold State.completeSeq; (try dsimp only); (repeat' split) <;> simp (maxDischargeDepth := 8) [hw]

@[simp] theorem State.dropRef_memOk {s : State} (r : RecRef) (hw : s.memOk = true) : (s.dropRef r).memOk = true := hw

@[simp] theorem State.setRef_memOk {s : State} (r : RecRef) (hw : s.memOk = true) : (s.setRef r).memOk = true := hw

@[simp] theorem State.putRec_memOk {s : State} (r : RecRef) (w : BitVec 512) (hw : s.memOk = true) :
    (s.putRec r w).memOk = true := by
  simp [State.putRec, hw]

@[simp] theorem State.makeReady_memOk {s : State} (r : RecRef) (w : BitVec 512) (hw : s.memOk = true) :
    (s.makeReady r w).memOk = true := by
  simp [State.makeReady, hw]

@[simp] theorem State.qmFlag_memOk {s : State} (h : ℕ) (fl : Fin 256) (v : ℕ) (hw : s.memOk = true) :
    (s.qmFlag h fl v).memOk = true := by
  unfold State.qmFlag; (try dsimp only); (repeat' split) <;> simp (maxDischargeDepth := 8) [hw]

@[simp] theorem State.hostComplete_memOk {s : State} (q : Fin 2048) (caddr : ℕ) (seq : Word) (cstat : ℕ) (nfault : ℕ)
    (ncancel : ℕ) (hw : s.memOk = true) : (s.hostComplete q caddr seq cstat nfault ncancel).memOk = true := by
  unfold State.hostComplete; (try dsimp only); (repeat' split) <;> simp (maxDischargeDepth := 8) [hw]

@[simp] theorem State.dropGraph_memOk {s : State} (id : ℕ) (hw : s.memOk = true) : (s.dropGraph id).memOk = true := hw

@[simp] theorem State.setGraph_memOk {s : State} (g : Graph) (hw : s.memOk = true) : (s.setGraph g).memOk = true := hw

@[simp] theorem State.graphCheck_memOk {s : State} (g : Graph) (hw : s.memOk = true) : (s.graphCheck g).memOk = true := by
  unfold State.graphCheck; split <;> simp [hw]

@[simp] theorem State.nodeDone_memOk {s : State} (wq : Fin 2048) (addr : Word) (q : BitVec 3) (hw : s.memOk = true) :
    (s.nodeDone wq addr q).memOk = true := by
  unfold State.nodeDone; split <;> simp [hw]

@[simp] theorem State.endRec_memOk (x0 : ℕ) {x1 : State} (x2 : RecRef) (x3 : BitVec 3) (hwx1 : x1.memOk = true) :
    (State.endRec x0 x1 x2 x3).memOk = true := by
  induction x0 generalizing x1 x2 x3 with
  | zero => exact hwx1
  | succ n ih =>
    unfold State.endRec; extract_lets w s1 s2 s3 p ag
    have h2 : s2.memOk = true := by
      simp only [s2]; split <;> simp (maxDischargeDepth := 8) [s1, hwx1]
    have h3 : s3.memOk = true := State.nodeDone_memOk _ _ _ h2
    clear_value s3
    (repeat' split) <;> (try dsimp only) <;> (repeat' split) <;> first
      | exact ih _ _ (State.putRec_memOk _ _ h3)
      | simp (maxDischargeDepth := 8) [h3]

@[simp] theorem State.endRecord_memOk {s : State} (r : RecRef) (q : BitVec 3) (hw : s.memOk = true) :
    (s.endRecord r q).memOk = true := by
  simp [State.endRecord, hw]

@[simp] theorem State.finishTask_memOk {s : State} (l : Loc) (hw : s.memOk = true) : (s.finishTask l).memOk = true := by
  unfold State.finishTask; (try dsimp only); (repeat' split) <;> simp (maxDischargeDepth := 8) [hw]

@[simp] theorem State.suspendTask_memOk {s : State} (l : Loc) (image : ℕ) (entry : ℕ) (edit : BitVec 512 → BitVec 512)
    (hw : s.memOk = true) : (s.suspendTask l image entry edit).memOk = true := by
  unfold State.suspendTask; (try dsimp only); (repeat' split) <;> simp (maxDischargeDepth := 8) [hw]

@[simp] theorem State.faultTask_memOk {s : State} (l : Loc) (hw : s.memOk = true) : (s.faultTask l).memOk = true := by
  unfold State.faultTask; (try dsimp only); (repeat' split) <;> simp (maxDischargeDepth := 8) [hw]

@[simp] theorem State.startTrapProc_memOk {s : State} (l : Loc) (entry : ℕ) (hw : s.memOk = true) :
    (s.startTrapProc l entry).memOk = true := hw

@[simp] theorem State.runtimeAct_memOk {s : State} (l : Loc) (hw : s.memOk = true) : (s.runtimeAct l).memOk = true := by
  unfold State.runtimeAct; (try dsimp only); (repeat' split) <;> simp (maxDischargeDepth := 8) [hw]

@[simp] theorem State.serveRuntime_memOk {s : State} (l : Loc) (hw : s.memOk = true) : (s.serveRuntime l).memOk = true := by
  unfold State.serveRuntime; (try dsimp only); (repeat' split) <;> simp (maxDischargeDepth := 8) [hw]

@[simp] theorem State.afterDrain_memOk {s : State} (l : Loc) (d : AfterDrain) (hw : s.memOk = true) :
    (s.afterDrain l d).memOk = true := by
  unfold State.afterDrain; split <;> simp [hw]

@[simp] theorem State.drainThen_memOk {s : State} (d : AfterDrain) (hw : s.memOk = true) : (s.drainThen d).memOk = true := by
  unfold State.drainThen; split <;> simp [hw]

@[simp] theorem State.joinInc_memOk {s : State} (q : Fin 2048) (p : Word) (hw : s.memOk = true) :
    (s.joinInc q p).memOk = true := by
  unfold State.joinInc; (try dsimp only); (repeat' split) <;> simp (maxDischargeDepth := 8) [hw]

@[simp] theorem State.enqueue_memOk {s : State} (g : ℕ) (q : Fin 2048) (a : Word) (hw : s.memOk = true) :
    (s.enqueue g q a).memOk = true := by
  simp [State.enqueue, hw]

@[simp] theorem State.startTask_memOk {s : State} (l : Loc) (r : RecRef) (w : BitVec 512) (hw : s.memOk = true) :
    (s.startTask l r w).memOk = true := by
  simp [State.startTask, hw]

@[simp] theorem State.markSeen_memOk {s : State} (hw : s.memOk = true) : (s.markSeen).memOk = true := hw

@[simp] theorem State.setQueue_memOk {s : State} (q : Fin 2048) (w : WorkQueue) (hw : s.memOk = true) :
    (s.setQueue q w).memOk = true := hw

@[simp] theorem State.submit_memOk {s : State} (q : Fin 2048) (r : BitVec 512) (hw : s.memOk = true) :
    (s.submit q r).memOk = true := by
  unfold State.submit; (try dsimp only); (repeat' split) <;> simp (maxDischargeDepth := 8) [hw]

@[simp] theorem State.readSlots_memOk {s : State} (q : Fin 2048) (x2 : ℕ) (hw : s.memOk = true) :
    (s.readSlots q x2).memOk = true := by
  induction x2 generalizing s with
  | zero => exact hw
  | succ n ih => unfold State.readSlots; dsimp only; split; exacts [hw, ih (by split <;> simp [hw])]

@[simp] theorem State.readQueue_memOk {s : State} (q : Fin 2048) (hw : s.memOk = true) : (s.readQueue q).memOk = true := by
  unfold State.readQueue; (try dsimp only); (repeat' split) <;> simp (maxDischargeDepth := 8) [hw]

@[simp] theorem State.putEntry_memOk {s : State} (owner : Fin 5) (paddr : ℕ) (v : Word) (hw : s.memOk = true) :
    (s.putEntry owner paddr v).memOk = true := by
  simp [State.putEntry, hw]

@[simp] theorem State.setRoot_memOk {s : State} (owner : Fin 5) (asid : Option ℕ) (paddr : Option ℕ)
    (hw : s.memOk = true) : (s.setRoot owner asid paddr).memOk = true := hw

@[simp] theorem State.setRegion_memOk {s : State} (owner : Fin 5) (i : Fin 64) (v : BitVec 128) (hw : s.memOk = true)
    : (s.setRegion owner i v).memOk = true := hw

@[simp] theorem State.applyFix_memOk {s : State} (f : FaultFix) (hw : s.memOk = true) : (s.applyFix f).memOk = true := by
  unfold State.applyFix; split <;> simp [hw]

@[simp] theorem State.refuseCmd_memOk {s : State} (h : Fin 640) (page : ℕ) (c : Cmd) (hw : s.memOk = true) :
    (s.refuseCmd h page c).memOk = true := by
  unfold State.refuseCmd; (try dsimp only); (repeat' split) <;> simp (maxDischargeDepth := 8) [hw]

@[simp] theorem State.refuseCopy_memOk {s : State} (h : Fin 640) (page : ℕ) (hw : s.memOk = true) :
    (s.refuseCopy h page).memOk = true := by
  unfold State.refuseCopy; exact State.memOk_foldl _ (fun _ _ h => by simp [h]) hw

@[simp] theorem State.replayLog_memOk {s : State} (h : Fin 640) (x2 : List SideEntry) (x3 : List SideEntry)
    (hw : s.memOk = true) : (s.replayLog h x2 x3).memOk = true := by
  induction x2 generalizing s x3 with
  | nil => exact State.setHearth_memOk _ _ hw
  | cons e es ih =>
    unfold State.replayLog; split
    · exact ih _ hw
    · split
      · exact ih _ hw
      · exact ih _ (State.performWrite_memOk _ _ _ hw)

@[simp] theorem State.applyHeld_memOk {s : State} (h : Fin 640) (e : Held) (hw : s.memOk = true) :
    (s.applyHeld h e).memOk = true := by
  unfold State.applyHeld; (repeat' split) <;> simp [hw]

@[simp] theorem State.applyHandler_memOk {s : State} (h : Fin 640) (e : Held) (hw : s.memOk = true) :
    (s.applyHandler h e).memOk = true := by
  unfold State.applyHandler; split <;> simp [hw]

@[simp] theorem State.applyLate_memOk {s : State} (h : Fin 640) (hw : s.memOk = true) : (s.applyLate h).memOk = true := by
  unfold State.applyLate; exact State.memOk_foldl _ (fun _ _ h => by simp [h]) hw

@[simp] theorem State.resumeHearth_memOk {s : State} (l : Loc) (step : Option (Fin 4)) (hw : s.memOk = true) :
    (s.resumeHearth l step).memOk = true := by
  unfold State.resumeHearth; dsimp only
  refine State.takeQueued_memOk _ _ (State.applyLate_memOk _ (State.memOk_foldl _ (fun _ _ h => State.applyHandler_memOk _ _ h)
    (State.memOk_foldl _ (fun _ _ h => State.applyHeld_memOk _ _ h) (by simp [hw]))))

@[simp] theorem State.saveHearth_memOk {s : State} (h : Fin 640) (area : ℕ) (hw : s.memOk = true) :
    (s.saveHearth h area).memOk = true := hw

@[simp] theorem State.haltDone_memOk {s : State} (h : Fin 640) (hw : s.memOk = true) : (s.haltDone h).memOk = true := by
  unfold State.haltDone; (try dsimp only); (repeat' split) <;> simp (maxDischargeDepth := 8) [hw]

@[simp] theorem State.renumWire_memOk {s : State} (h : Fin 640) (epoch : ℕ) (f : ℕ → ℕ) (hw : s.memOk = true) :
    (s.renumWire h epoch f).memOk = true := hw

@[simp] theorem State.dropSaved_memOk {s : State} (i : ℕ) (x : Hearth) (hw : s.memOk = true) : (s.dropSaved i x).memOk
    = true := hw

@[simp] theorem State.hobPrint_memOk {s : State} (o : HobOut) (hw : s.memOk = true) : (s.hobPrint o).memOk = true := hw

@[simp] theorem State.setHob_memOk {s : State} (b : Hob) (hw : s.memOk = true) : (s.setHob b).memOk = true := hw

@[simp] theorem State.hobCmd_memOk {s : State} {f : State} (hw : s.memOk = true) (hwf : f.memOk = true) :
    (s.hobCmd f).memOk = true := by
  unfold State.hobCmd; (try dsimp only); (repeat' split) <;> simp +contextual (maxDischargeDepth := 8) [*, apply_ite State.memOk]

@[simp] theorem State.addBrk_memOk {s : State} (b : Brk) (hw : s.memOk = true) : (s.addBrk b).memOk = true := by
  unfold State.addBrk; (try dsimp only); (repeat' split) <;> simp (maxDischargeDepth := 8) [hw]

@[simp] theorem outState_memOk {s : State} {x1 : Out} (hw : s.memOk = true)
    (hwx1 : ∀ t, x1 = .next t → t.memOk = true) : (outState s x1).memOk = true := by
  unfold outState; (try dsimp only); (repeat' split) <;> simp +contextual (maxDischargeDepth := 8) [*, apply_ite State.memOk]

@[simp] theorem State.stopAgain_memOk {s : State} (hw : s.memOk = true) : (s.stopAgain).memOk = true := by
  simp [State.stopAgain, hw]

@[simp] theorem State.setTask_memOk {s : State} (t : Task) (hw : s.memOk = true) : (s.setTask t).memOk = true := hw

@[simp] theorem State.unitPut_memOk {s : State} (ag : Agent) (a : Word) (data : List (Option Byte)) (hw : s.memOk = true) :
    (s.unitPut ag a data).memOk = true := by
  unfold State.unitPut; (repeat' split) <;> simp [hw]

@[simp] theorem State.taskPut_memOk {s : State} (t : Task) (ks : List (ℕ × Byte)) (g : ℕ) (hw : s.memOk = true) :
    (s.taskPut t ks g).1.memOk = true := by
  unfold State.taskPut; dsimp only; split <;> simp [hw]

@[simp] theorem State.flushLate_memOk {s : State} (t : Task) (hw : s.memOk = true) : (s.flushLate t).memOk = true :=
  State.memOk_foldl _ (fun _ _ h => State.unitPut_memOk _ _ _ h) hw

@[simp] theorem State.fetchPart_memOk {s : State} (t : Task) (hw : s.memOk = true) : (s.fetchPart t).1.memOk = true := by
  unfold State.fetchPart; (try dsimp only); (repeat' split) <;> simp (maxDischargeDepth := 8) [hw]

@[simp] theorem State.runFetch_memOk {s : State} (wq : Fin 2048) (addr : Word) (hw : s.memOk = true) :
    (s.runFetch wq addr).memOk = true := by
  unfold State.runFetch; (repeat' split) <;> simp [hw]

@[simp] theorem State.fetchAll_memOk {s : State} (t : Task) (x2 : ℕ) (hw : s.memOk = true) : (s.fetchAll t x2).1.memOk
    = true := by
  induction x2 generalizing s t with
  | zero => exact hw
  | succ n ih => unfold State.fetchAll; split; exacts [hw, ih _ (State.fetchPart_memOk _ hw)]

@[simp] theorem State.runTask_memOk {s : State} (t : Task) (fr : Word) (hw : s.memOk = true) :
    (s.runTask t fr).1.memOk = true := by
  unfold State.runTask; dsimp only
  split
  · exact hw
  · (repeat' split) <;> simp (maxDischargeDepth := 8) [hw]

@[simp] theorem State.retryTask_memOk {s : State} (r : Reader) (page : ℕ) (hw : s.memOk = true) :
    (s.retryTask r page).memOk = true := by
  unfold State.retryTask; (try dsimp only); (repeat' split) <;> simp (maxDischargeDepth := 8) [hw]

@[simp] theorem State.putCall_memOk {s : State} (r : CallReq) (c : CallRec) (hw : s.memOk = true) :
    (s.putCall r c).memOk = true := hw

@[simp] theorem State.endMove_memOk {s : State} (old : State) (caller : ℕ) (seq : Word) (hw : s.memOk = true) :
    (s.endMove old caller seq).memOk = true := by
  unfold State.endMove; split
  · exact hw
  · dsimp only; refine State.memOk_foldl _ (fun t h ht => ?_) hw
    split <;> simp [ht]

@[simp] theorem callImageRegister_memOk (r : CallReq) {s : State} (hw : s.memOk = true) :
    (callImageRegister r s).1.memOk = true := by
  unfold callImageRegister; (repeat' split) <;> simp [hw]

@[simp] theorem callImageUnregister_memOk (r : CallReq) {s : State} (hw : s.memOk = true) :
    (callImageUnregister r s).1.memOk = true := by
  unfold callImageUnregister; (repeat' split) <;> simp [hw]

@[simp] theorem callQueueCreate_memOk (r : CallReq) {s : State} (hw : s.memOk = true) : (callQueueCreate r s).1.memOk
    = true := by
  unfold callQueueCreate; (try dsimp only); (repeat' split) <;> simp (maxDischargeDepth := 8) [hw]

@[simp] theorem State.dropXfers_memOk {s : State} (run : RunRec) (hw : s.memOk = true) : (s.dropXfers run).memOk = true := hw

@[simp] theorem State.discardRun_memOk {s : State} (q : Fin 2048) (addr : Word) (hw : s.memOk = true) :
    (s.discardRun q addr).memOk = true := State.dropXfers_memOk (RunRec.task addr q) hw

@[simp] theorem State.cancelRecs_memOk {s : State} (q : Fin 2048) (sel : RecRef → Bool) (hw : s.memOk = true) :
    (s.cancelRecs q sel).memOk = true := by
  unfold State.cancelRecs; dsimp only
  refine State.memOk_foldl _ (fun t r h => ?_) (by simpa [State.memOk] using hw)
  split <;> simp [h]

@[simp] theorem State.cancelNodes_memOk {s : State} (q : Fin 2048) (sel : Node → Bool) (hw : s.memOk = true) :
    (s.cancelNodes q sel).memOk = true := State.memOk_foldl _ (fun _ _ h => State.graphCheck_memOk _ h) hw

@[simp] theorem State.tearIdle_memOk {s : State} (q : Fin 2048) (hw : s.memOk = true) : (s.tearIdle q).memOk = true := by
  exact State.cancelNodes_memOk _ _ (State.cancelRecs_memOk _ _ (State.setQueue_memOk _ _ hw))

@[simp] theorem State.tearHalt_memOk {s : State} (q : Fin 2048) (hw : s.memOk = true) : (s.tearHalt q).memOk = true := hw

@[simp] theorem State.tearEnd_memOk {s : State} (q : Fin 2048) (hw : s.memOk = true) : (s.tearEnd q).memOk = true := by
  unfold State.tearEnd; dsimp only
  have h1 := State.memOk_foldl (f := fun t r => t.discardRun q r.addr) (s.qm.recs.filter fun r => r.wq == q)
    (fun _ _ h => State.discardRun_memOk _ _ h) hw
  revert h1; generalize (s.qm.recs.filter fun r => r.wq == q).foldl (fun t r => t.discardRun q r.addr) s = s1; intro h1
  refine State.cancelNodes_memOk _ _ (State.cancelRecs_memOk _ _ (State.memOk_foldl _ (fun _ _ h => State.takeQueued_memOk _ _ h) ?_))
  simpa [State.memOk] using h1

@[simp] theorem State.teardown_memOk {s : State} (q : Fin 2048) (hw : s.memOk = true) : (s.teardown q).1.memOk = true := by
  have h := State.tearHalt_memOk q (State.tearIdle_memOk q hw)
  unfold State.teardown; dsimp only; split
  exacts [State.tearEnd_memOk _ h, h]

@[simp] theorem callQueueErrors_memOk (r : CallReq) {s : State} (hw : s.memOk = true) : (callQueueErrors r s).1.memOk
    = true := by
  unfold callQueueErrors; (repeat' split) <;> simp [hw]

@[simp] theorem State.zeroTable_memOk {s : State} (owner : Fin 5) (p : ℕ) (n : ℕ) (hw : s.memOk = true) :
    (s.zeroTable owner p n).memOk = true := State.setMem_memOk (Mem.wf_filter (State.mem_wf hw) _) hw

@[simp] theorem State.setPin_memOk {s : State} (home : ℕ) (holder : ℕ) (leaf : ℕ × Word) (key : ℕ) (bytes : ℕ) (hw : s.memOk = true) :
    (s.setPin home holder leaf key bytes).memOk = true := hw

@[simp] theorem State.leafSlot_memOk (owner : Fin 5) (a : Word) (sh : Nat) (ls : List (Nat × Nat)) {s : State} (table : Nat)
    (tabs : List Nat) {t : State} {x : Nat} (hw : s.memOk = true) (e : s.leafSlot owner a sh table ls tabs = some (t, x)) :
    t.memOk = true := by
  induction ls generalizing s table tabs with
  | nil => simp only [State.leafSlot, Option.some.injEq, Prod.mk.injEq] at e; rw [← e.1]; exact hw
  | cons l ls ih =>
    simp only [State.leafSlot] at e
    split at e
    · exact ih _ _ (State.putEntry_memOk _ _ _ (State.zeroTable_memOk _ _ _ hw)) e
    · split at e
      · cases e
      · exact ih _ _ hw e

@[simp] theorem Mem.wf_copy' {m : Mem} (h : m.wf = true) (src dst n : Nat) : (m.copy src dst n).wf = true :=
  Mem.wf_copy h src dst n

theorem State.attach_memOk {s t : State} {h : Fin 640} {n : Nat} (hw : s.memOk = true) (e : s.attach h n = some t) :
    t.memOk = true := by
  simp only [State.attach] at e
  split at e
  · cases e
  · cases e; simp [hw]

@[simp] theorem callMap_memOk (r : CallReq) {s : State} (hw : s.memOk = true) : (callMap r s).1.memOk = true := by
  unfold callMap; extract_lets a m sz home tgt chip sh
  split
  · exact hw
  · split
    · exact hw
    · split
      · exact hw
      · dsimp only; split
        · exact hw
        · split
          · exact hw
          · rename_i e
            refine State.setPin_memOk _ _ _ _ _ (State.putEntry_memOk _ _ _ (State.leafSlot_memOk _ _ _ _ _ _ ?_ e))
            split <;> simp (maxDischargeDepth := 8) [hw]

@[simp] theorem State.movePin_memOk {s : State} (leaf : ℕ × Word) (new : ℕ) (hw : s.memOk = true) :
    (s.movePin leaf new).memOk = true := hw

@[simp] theorem State.movePage_memOk {s : State} (owner : Fin 5) (leaf : ℕ × Word) (at_ : ℕ) (e : Word) (sh : ℕ) (tgt : ℕ)
    (pa : ℕ) (hw : s.memOk = true) : (s.movePage owner leaf at_ e sh tgt pa).memOk = true := by
  unfold State.movePage; extract_lets e1 old new
  exact State.movePin_memOk _ _ (State.putEntry_memOk _ _ _ (State.setMem_memOk (Mem.wf_copy (State.mem_wf hw) _ _ _) hw))

@[simp] theorem callAgeLimit_memOk (r : CallReq) {s : State} (hw : s.memOk = true) : (callAgeLimit r s).1.memOk = true := by
  unfold callAgeLimit; (repeat' split) <;> simp [hw]

@[simp] theorem callFlashAllocate_memOk (r : CallReq) {s : State} (hw : s.memOk = true) :
    (callFlashAllocate r s).1.memOk = true := by
  unfold callFlashAllocate; (try dsimp only); (repeat' split) <;> simp (maxDischargeDepth := 8) [hw]

@[simp] theorem callFlashWrite_memOk (r : CallReq) {s : State} (hw : s.memOk = true) : (callFlashWrite r s).1.memOk = true := by
  unfold callFlashWrite; (try dsimp only); (repeat' split) <;> simp (maxDischargeDepth := 8) [hw]

@[simp] theorem callFlashFree_memOk (r : CallReq) {s : State} (hw : s.memOk = true) : (callFlashFree r s).1.memOk = true := by
  unfold callFlashFree; (try dsimp only); (repeat' split) <;> simp (maxDischargeDepth := 8) [hw]

@[simp] theorem callIndexCreate_memOk (r : CallReq) {s : State} (hw : s.memOk = true) : (callIndexCreate r s).1.memOk
    = true := by
  unfold callIndexCreate; (try dsimp only); (repeat' split) <;> simp (maxDischargeDepth := 8) [hw]

@[simp] theorem callIndexDestroy_memOk (r : CallReq) {s : State} (hw : s.memOk = true) :
    (callIndexDestroy r s).1.memOk = true := by
  unfold callIndexDestroy; (repeat' split) <;> simp [hw]

@[simp] theorem callMergeStart_memOk (r : CallReq) {s : State} (hw : s.memOk = true) : (callMergeStart r s).1.memOk = true := by
  unfold callMergeStart; (repeat' split) <;> simp [hw]

@[simp] theorem callMediaRepair_memOk (r : CallReq) {s : State} (hw : s.memOk = true) : (callMediaRepair r s).1.memOk
    = true := by
  unfold callMediaRepair; (try dsimp only); (repeat' split) <;> simp (maxDischargeDepth := 8) [hw]

@[simp] theorem callPowerSet_memOk (r : CallReq) {s : State} (hw : s.memOk = true) : (callPowerSet r s).1.memOk = true := by
  unfold callPowerSet; (repeat' split) <;> simp [hw]

@[simp] theorem callPowerQuery_memOk (r : CallReq) {s : State} (hw : s.memOk = true) : (callPowerQuery r s).1.memOk = true := by
  unfold callPowerQuery; (repeat' split) <;> simp [hw]

@[simp] theorem callTraceRing_memOk (r : CallReq) {s : State} (hw : s.memOk = true) : (callTraceRing r s).1.memOk = true := by
  unfold callTraceRing; (repeat' split) <;> simp [hw]

@[simp] theorem callChimney_memOk (r : CallReq) {s : State} (hw : s.memOk = true) : (callChimney r s).1.memOk = true := by
  unfold callChimney; (try dsimp only); (repeat' split) <;> simp (maxDischargeDepth := 8) [hw]

@[simp] theorem callHobAttach_memOk (r : CallReq) {s : State} (hw : s.memOk = true) : (callHobAttach r s).1.memOk = true := by
  unfold callHobAttach; (repeat' split) <;> first
    | exact hw
    | (rename_i e; simpa [State.memOk] using State.attach_memOk hw e)

@[simp] theorem callHobDetach_memOk (r : CallReq) {s : State} (hw : s.memOk = true) : (callHobDetach r s).1.memOk = true := by
  unfold callHobDetach; (repeat' split) <;> simp [hw]

@[simp] theorem State.withHostMem_memOk {s : State} (m : Mem) (hw : s.memOk = true) : (s.withHostMem m).memOk = true :=
  State.setMem_memOk (Mem.wf_writeAll (Mem.wf_filter (State.mem_wf hw) _) _) hw

@[simp] theorem State.closeLog_memOk {s : State} (hw : s.memOk = true) : s.closeLog.memOk = true := by
  unfold State.closeLog; split
  · exact hw
  · exact State.unitWrite_memOk _ _ _ hw

@[simp] theorem callRecordMode_memOk (r : CallReq) {s : State} (hw : s.memOk = true) : (callRecordMode r s).1.memOk = true := by
  unfold callRecordMode; (repeat' split)
  exacts [hw, State.closeLog_memOk hw, State.closeLog_memOk hw, hw]

@[simp] theorem callReplay_memOk (r : CallReq) {s : State} (hw : s.memOk = true) : (callReplay r s).1.memOk = true := by
  unfold callReplay; dsimp only; (repeat' split)
  exacts [hw, hw, State.withHostMem_memOk _ (State.closeLog_memOk hw)]

@[simp] theorem State.replyTo_memOk {s : State} (l : Loc) (st : ℕ) (res : BitVec 256) (hw : s.memOk = true) :
    (s.replyTo l st res).memOk = true := by
  unfold State.replyTo; (try dsimp only); (repeat' split) <;> simp (maxDischargeDepth := 8) [hw]

@[simp] theorem Performed.reply_memOk {p : Performed} (l : Loc) (hwp : p.1.memOk = true) : (Performed.reply p l).memOk
    = true := by
  unfold Performed.reply; (try dsimp only); (repeat' split) <;> simp +contextual (maxDischargeDepth := 8) [*, apply_ite State.memOk]

/-- What a call's body leaves. -/
def CallRes.state : CallRes → State
  | .done o => o.1
  | .wait s => s

theorem callUnmap_memOk {s : State} (r : CallReq) (hw : s.memOk = true) : (callUnmap r s).state.memOk = true := by
  unfold callUnmap; dsimp only; (repeat' split) <;> simp (maxDischargeDepth := 8) [CallRes.state, hw]

theorem callSetHome_memOk {s : State} (r : CallReq) (hw : s.memOk = true) : (callSetHome r s).state.memOk = true := by
  unfold callSetHome; dsimp only; (repeat' split) <;> simp (maxDischargeDepth := 8) [CallRes.state, hw]

theorem callMigrate_memOk {s : State} (r : CallReq) (hw : s.memOk = true) : (callMigrate r s).state.memOk = true := by
  unfold callMigrate; dsimp only; (repeat' split) <;> simp (maxDischargeDepth := 8) [CallRes.state, hw]

theorem callRoutineLoad_memOk {s : State} (r : CallReq) (hw : s.memOk = true) : (callRoutineLoad r s).state.memOk = true := by
  unfold callRoutineLoad; dsimp only; (repeat' split) <;> simp (maxDischargeDepth := 8) [CallRes.state, hw]

theorem callRoutineUnload_memOk {s : State} (r : CallReq) (hw : s.memOk = true) :
    (callRoutineUnload r s).state.memOk = true := by
  unfold callRoutineUnload; dsimp only; (repeat' split) <;> simp (maxDischargeDepth := 8) [CallRes.state, hw]

theorem callQueueTeardown_memOk {s : State} (r : CallReq) (hw : s.memOk = true) :
    (callQueueTeardown r s).state.memOk = true := by
  unfold callQueueTeardown; dsimp only; (repeat' split) <;> simp [CallRes.state, hw]

theorem callQueueReset_memOk {s : State} (r : CallReq) (hw : s.memOk = true) :
    (callQueueReset r s).state.memOk = true := by
  unfold callQueueReset; dsimp only; (repeat' split) <;> simp [CallRes.state, hw]

theorem State.endCall_memOk {s : State} (no : Nat) (r : CallReq) {c : CallRes} (hw : s.memOk = true)
    (hb : c.state.memOk = true) : (s.endCall no r c).1.memOk = true := by
  cases c with
  | wait t => exact State.putCall_memOk _ _ hb
  | done o => exact State.endMove_memOk _ _ _ (State.putCall_memOk _ _ (by split; exacts [hb, hw]))

theorem State.runN_memOk {s : State} (no : Nat) (r : CallReq) {body : State → CallRes} (hw : s.memOk = true)
    (hb : (body s).state.memOk = true) : (s.runN no r body).1.memOk = true := by
  have hd := State.endCall_memOk no r hw hb
  unfold State.runN; (repeat' split) <;> first | exact hw | exact hd

theorem State.runI_memOk {s : State} (r : CallReq) {body : State → CallOut} (hw : s.memOk = true)
    (hb : (body s).1.memOk = true) : (s.runI r body).1.memOk = true := by
  unfold State.runI; split; exacts [hw, hb]

theorem State.perform_memOk {s : State} (no : Nat) (r : CallReq) (bad : Bool) (hw : s.memOk = true) :
    (s.perform no r bad).1.memOk = true := by
  have hN (body : CallReq → State → CallRes) (hb : (body r s).state.memOk = true) :
      (s.runN no r fun t => if bad then .done (callFail t 1) else body r t).1.memOk = true :=
    State.runN_memOk _ _ hw (by split; exacts [hw, hb])
  have hO (body : CallReq → State → CallOut) (hb : (body r s).1.memOk = true) :
      (s.runN no r fun t => if bad then .done (callFail t 1) else .done (body r t)).1.memOk = true :=
    hN (fun r t => .done (body r t)) hb
  have hI (body : CallReq → State → CallOut) (hb : (body r s).1.memOk = true) :
      (s.runI r fun t => if bad then callFail t 1 else body r t).1.memOk = true :=
    State.runI_memOk _ hw (by split; exacts [hw, hb])
  unfold State.perform; extract_lets w n i; split
  · exact hO callImageRegister (callImageRegister_memOk _ hw)
  · exact hO callImageUnregister (callImageUnregister_memOk _ hw)
  · exact hO callQueueCreate (callQueueCreate_memOk _ hw)
  · exact hN callQueueTeardown (callQueueTeardown_memOk _ hw)
  · exact hN callQueueReset (callQueueReset_memOk _ hw)
  · exact hI callQueueErrors (callQueueErrors_memOk _ hw)
  · exact hO callMap (callMap_memOk _ hw)
  · exact hN callUnmap (callUnmap_memOk _ hw)
  · exact hN callSetHome (callSetHome_memOk _ hw)
  · exact hN callMigrate (callMigrate_memOk _ hw)
  · exact hO callAgeLimit (callAgeLimit_memOk _ hw)
  · exact hN callRoutineLoad (callRoutineLoad_memOk _ hw)
  · exact hN callRoutineUnload (callRoutineUnload_memOk _ hw)
  · exact hO callFlashAllocate (callFlashAllocate_memOk _ hw)
  · exact hO callFlashWrite (callFlashWrite_memOk _ hw)
  · exact hO callFlashFree (callFlashFree_memOk _ hw)
  · exact hO callIndexCreate (callIndexCreate_memOk _ hw)
  · exact hO callIndexDestroy (callIndexDestroy_memOk _ hw)
  · exact hO callMergeStart (callMergeStart_memOk _ hw)
  · exact hO callMediaRepair (callMediaRepair_memOk _ hw)
  · exact hO callPowerSet (callPowerSet_memOk _ hw)
  · exact hI callPowerQuery (callPowerQuery_memOk _ hw)
  · exact hO callTraceRing (callTraceRing_memOk _ hw)
  · exact hO callChimney (callChimney_memOk _ hw)
  · exact hO callHobAttach (callHobAttach_memOk _ hw)
  · exact hO callHobDetach (callHobDetach_memOk _ hw)
  · exact hO callRecordMode (callRecordMode_memOk _ hw)
  · exact hO callReplay (callReplay_memOk _ hw)
  · exact hw

@[simp] theorem State.serveSvc_memOk {s : State} (l : Loc) (choice : List ℕ) (hw : s.memOk = true) :
    (s.serveSvc l choice).memOk = true := by
  unfold State.serveSvc; dsimp only; split
  · exact Performed.reply_memOk _ (State.perform_memOk _ _ _ hw)
  · exact hw

@[simp] theorem State.replyHost_memOk {s : State} (a : ℕ) (seq : Word) (st : ℕ) (res : BitVec 256)
    (hw : s.memOk = true) : (s.replyHost a seq st res).memOk = true := by
  unfold State.replyHost; (try dsimp only); (repeat' split) <;> simp (maxDischargeDepth := 8) [hw]

@[simp] theorem State.runMailbox_memOk {s : State} (choice : List ℕ) (hw : s.memOk = true) :
    (s.runMailbox choice).memOk = true := by
  unfold State.runMailbox; split
  · exact hw
  · extract_lets r p
    have hp : p.1.memOk = true := State.perform_memOk _ _ _ hw
    clear_value p
    split <;> simp [hp]

@[simp] theorem State.serveMailbox_memOk {s : State} (choice : List ℕ) (hw : s.memOk = true) :
    (s.serveMailbox choice).memOk = true := by
  unfold State.serveMailbox; split <;> simp [hw]

@[simp] theorem State.redoCall_memOk {s : State} (c : CallRec) (hw : s.memOk = true) : (s.redoCall c).memOk = true :=
  State.perform_memOk _ _ _ hw

@[simp] theorem State.takeQueues_memOk {s : State} (gone : ℕ → Bool) (hw : s.memOk = true) : (s.takeQueues gone).memOk
    = true := hw

@[simp] theorem State.readQueues_memOk {s : State} (hw : s.memOk = true) : (s.readQueues).memOk = true := by
  unfold State.readQueues; exact State.memOk_foldl _ (fun _ _ h => by simp [h]) hw

@[simp] theorem State.bootRoots_memOk {s : State} (r : BootRes) (hw : s.memOk = true) : (s.bootRoots r).memOk = true := hw

@[simp] theorem State.bootCores_memOk {s : State} (r : BootRes) (hw : s.memOk = true) : (s.bootCores r).memOk = true := hw

@[simp] theorem State.answerPeer_memOk {s : State} (x : Xfer) (ok : Bool) (hw : s.memOk = true) :
    (s.answerPeer x ok).memOk = true := by
  unfold State.answerPeer; (try dsimp only); (repeat' split) <;> simp (maxDischargeDepth := 8) [hw]

@[simp] theorem State.arrived_memOk {s : State} (h : Fin 640) (x : Xfer) (hw : s.memOk = true) : (s.arrived h x).memOk
    = true := by
  unfold State.arrived; (try dsimp only); (repeat' split) <;> simp (maxDischargeDepth := 8) [hw]

@[simp] theorem State.letIn_memOk {s : State} (h : Fin 640) (i : Incoming) (gs : List ℕ) (hw : s.memOk = true) :
    (s.letIn h i gs).memOk = true := by
  unfold State.letIn; (try dsimp only); (repeat' split) <;> simp (maxDischargeDepth := 8) [hw]

@[simp] theorem State.carry_memOk {s : State} (p : Option (Fin 8)) (x : Xfer) (hw : s.memOk = true) :
    (s.carry p x).memOk = true := by
  unfold State.carry; split <;> exact hw

@[simp] theorem State.sendAway_memOk {s : State} (x : Xfer) (hw : s.memOk = true) : (s.sendAway x).memOk = true := by
  unfold State.sendAway; dsimp only; split
  exacts [State.answerPeer_memOk _ _ hw, State.answerPeer_memOk _ _ (State.open__memOk (State.carry_memOk _ _ hw))]

@[simp] theorem State.receive_memOk {s : State} (x : Xfer) (gs : List ℕ) (hw : s.memOk = true) :
    (s.receive x gs).memOk = true := by
  unfold State.receive; (try dsimp only); (repeat' split) <;> simp (maxDischargeDepth := 8) [hw]

@[simp] theorem State.setLinks_memOk {s : State} (l : Links) (hw : s.memOk = true) : (s.setLinks l).memOk = true := hw

@[simp] theorem State.killXfer_memOk {s : State} (p : Fin 8) (d : ℕ × ℕ) (hw : s.memOk = true) :
    (s.killXfer p d).memOk = true := by
  unfold State.killXfer; (repeat' split) <;> simp [hw]

@[simp] theorem State.cutXfer_memOk {s : State} (x : Xfer) (hw : s.memOk = true) : (s.cutXfer x).memOk = true := by
  unfold State.cutXfer; (try dsimp only); (repeat' split) <;> simp (maxDischargeDepth := 8) [hw]

theorem State.coreStore_memOk {s t : State} {k x y : SCore} {a : Word} {n v : Nat} (hw : s.memOk = true)
    (e : s.coreStore k a n v x = .ok (t, y)) : t.memOk = true := by
  simp only [State.coreStore] at e
  split at e <;> cases e
  simp [hw]

theorem State.coreLoad_memOk {s t : State} {k y : SCore} {a : Word} {n : Nat} {f : Nat → SCore} (hw : s.memOk = true)
    (e : s.coreLoad k a n f = .ok (t, y)) : t.memOk = true := by
  simp only [State.coreLoad] at e
  split at e <;> cases e
  exact hw

theorem State.coreAmo_memOk {s t : State} {k y : SCore} {a : Amo} {len : Nat} (hw : s.memOk = true)
    (e : s.coreAmo k a len = .ok (t, y)) : t.memOk = true := by
  unfold State.coreAmo at e; extract_lets n w addr x kind at e
  split at e
  · cases e
  · split at e
    · cases e
    · extract_lets line old at e
      split at e
      · cases e; exact hw
      · split at e <;> cases e <;> simp [hw]
      · cases e; simp [hw]

theorem State.coreCsr_memOk {s t : State} {k y : SCore} {hart : Nat} {i : CsrI} {w : W32} (hw : s.memOk = true)
    (e : s.coreCsr k hart i w = .ok (t, y)) : t.memOk = true := by
  unfold State.coreCsr at e; dsimp only at e
  split at e
  · cases e
  · split at e <;> cases e
    exact hw

/-- An instruction of a service core keeps the form: it only stores. -/
theorem State.coreExec_memOk {s t : State} {k y : SCore} {hart len : Nat} {i : CoreInsn} {w : W32} (hw : s.memOk = true)
    (e : s.coreExec k hart i len w = .ok (t, y)) : t.memOk = true := by
  cases i <;> simp only [State.coreExec] at e
  case load => exact State.coreLoad_memOk hw e
  case store => exact State.coreStore_memOk hw e
  case amo => exact State.coreAmo_memOk hw e
  case csr => exact State.coreCsr_memOk hw e
  case fload => split at e <;> first | (cases e; done) | exact State.coreLoad_memOk hw e
  case fstore => split at e <;> first | (cases e; done) | exact State.coreStore_memOk hw e
  all_goals (try split at e) <;> cases e <;> exact hw

@[simp] theorem State.coreStep_memOk {s : State} (k : SCore) (hart : ℕ) (hw : s.memOk = true) :
    (s.coreStep k hart).1.memOk = true := by
  unfold State.coreStep; split
  · exact hw
  · split
    · exact hw
    · split
      · exact hw
      · split
        · rename_i e; exact State.coreExec_memOk hw e
        · exact hw

@[simp] theorem State.runPair_memOk {s : State} (r : Fin 5) (hw : s.memOk = true) : (s.runPair r).memOk = true := by
  unfold State.runPair; dsimp only; split
  · exact hw
  · split
    · exact State.coreStep_memOk _ _ hw
    · refine outState_memOk hw (fun t e => ?_)
      simp only [execLockstepStop, Host.Outcome.next.injEq] at e
      subst e; split
      · exact State.takeQueues_memOk _ hw
      · exact hw

@[simp] theorem State.runSaved_memOk {s : State} (h : Fin 640) (n : ℕ) (seq : ℕ) (hw : s.memOk = true) :
    (s.runSaved h n seq).memOk = true := by
  unfold State.runSaved; (try dsimp only); (repeat' split) <;> simp (maxDischargeDepth := 8) [hw]

@[simp] theorem State.passDue_memOk {s : State} (n : ℕ) (hw : s.memOk = true) : (s.passDue n).memOk = true := hw

@[simp] theorem State.recordTurn_memOk {s : State} (t : Turn) {u : State} (hw : s.memOk = true) (hwu : u.memOk = true)
    : (s.recordTurn t u).memOk = true := by
  unfold State.recordTurn; split; exacts [State.memOk_foldl _ (fun _ _ h => by simp [h]) hwu, hwu]

@[simp] theorem State.setScript_memOk {s : State} (l : List Turn) (hw : s.memOk = true) : (s.setScript l).memOk = true := hw

@[simp] theorem State.nextTurn_memOk {s : State} (hw : s.memOk = true) : (s.nextTurn).2.memOk = true := by
  unfold State.nextTurn; (repeat' split) <;> simp [hw]

@[simp] theorem State.keepScript_memOk {s : State} (t : Turn) {u : State} (hw : s.memOk = true) (hwu : u.memOk = true)
    : (s.keepScript t u).memOk = true := by
  unfold State.keepScript; (try dsimp only); (repeat' split) <;> simp +contextual (maxDischargeDepth := 8) [*, apply_ite State.memOk]

@[simp] theorem State.withFetchWord_memOk {s : State} (nbits : ℕ) (w : ℕ) (hw : s.memOk = true) :
    (s.withFetchWord nbits w).memOk = true := by
  unfold State.withFetchWord; (repeat' split) <;> simp [hw]

@[simp] theorem State.issuexCheck_memOk {s : State} (idx : BitVec 13) (xa xb : XReg) (hw : s.memOk = true) :
    (s.issuexCheck idx xa xb).memOk = true := by
  unfold State.issuexCheck; dsimp only; (repeat' split) <;> simp [hw]

@[simp] theorem State.serviceWrite_memOk {s : State} (r : Fin 5) (hw : s.memOk = true) : (s.serviceWrite r).memOk = true := by
  unfold State.serviceWrite; split <;> exact hw

@[simp] theorem State.grantPeriod_memOk {s : State} (grants : List ℕ) (shares : List (List ℕ)) (hw : s.memOk = true) :
    (s.grantPeriod grants shares).memOk = true := hw

@[simp] theorem State.withdrawIrq_memOk {s : State} (l : Loc) (n : ℕ) (hw : s.memOk = true) :
    (s.withdrawIrq l n).memOk = true := hw

@[simp] theorem State.endOrWait_memOk {s : State} (r : RecRef) (fin : BitVec 3) (hw : s.memOk = true) :
    (s.endOrWait r fin).memOk = true := by
  unfold State.endOrWait; dsimp only; (repeat' split) <;> simp [hw]

@[simp] theorem State.dispatchTo_memOk {s : State} (l : Loc) (r : RecRef) (w : BitVec 512) (hw : s.memOk = true) :
    (s.dispatchTo l r w).memOk = true := by
  unfold State.dispatchTo; split <;> simp [hw]

@[simp] theorem State.takeTask_memOk {s : State} (e : Fin 8) (r : RecRef) (w : BitVec 512) (hw : s.memOk = true) :
    (s.takeTask e r w).memOk = true := by
  unfold State.takeTask; split
  · exact State.setCirrus_memOk (State.flash_wf (State.putRec_memOk _ _ hw)) (State.putRec_memOk _ _ hw)
  · simp [hw]

@[simp] theorem State.notePlace_memOk {s : State} (r : RecRef) (hw : s.memOk = true) : (s.notePlace r).memOk = true := hw

@[simp] theorem State.refuseArriving_memOk {s : State} (h : Fin 640) (hw : s.memOk = true) :
    (s.refuseArriving h).memOk = true := State.memOk_foldl _ (fun _ _ h => State.answerPeer_memOk _ _ h) hw

@[simp] theorem State.coldStart_memOk {s : State} (h : Fin 640) (i : Image) (hw : s.memOk = true) :
    (s.coldStart h i).memOk = true :=
  State.refuseArriving_memOk h (State.memOk_foldl _ (fun _ _ h => State.report_memOk _ h) (State.markSeen_memOk hw))

@[simp] theorem State.coldBegin_memOk {s : State} (h : Fin 640) (hw : s.memOk = true) : (s.coldBegin h).memOk = true := by
  unfold State.coldBegin; split
  exacts [State.refuseArriving_memOk h (State.markSeen_memOk hw), hw]

@[simp] theorem State.placeImage_memOk {s : State} (w : BitVec 512) (i : Image) (hw : s.memOk = true) :
    (s.placeImage w i).memOk = true := by
  unfold State.placeImage; dsimp only; split
  exacts [hw, State.coldStart_memOk _ _ (State.open__memOk hw)]

@[simp] theorem State.lookGran_memOk {s : State} (g : ℕ) (hw : s.memOk = true) : (s.lookGran g).memOk = true := by
  unfold State.lookGran; dsimp only; (repeat' split) <;> simp [hw]

@[simp] theorem State.runLook_memOk {s : State} (h : Fin 640) (seq gran : ℕ) (hw : s.memOk = true) :
    (s.runLook h seq gran).memOk = true := by
  unfold State.runLook; split
  · exact hw
  · rename_i e; exact State.storeHand_memOk _ (State.lookGran_memOk _ (State.loadHand_memOk hw e))

@[simp] theorem State.runDispatch_memOk {s : State} (l : Loc) (wq : Fin 2048) (addr : Word) (hw : s.memOk = true) :
    (s.runDispatch l wq addr).memOk = true := by
  unfold State.runDispatch; (repeat' split) <;> simp [hw]

@[simp] theorem State.runTake_memOk {s : State} (e : Fin 8) (wq : Fin 2048) (addr : Word) (hw : s.memOk = true) :
    (s.runTake e wq addr).memOk = true := by
  unfold State.runTake; (repeat' split) <;> simp [hw]

@[simp] theorem State.beforeTurn_memOk {s : State} (t : Turn) (hw : s.memOk = true) : (s.beforeTurn t).memOk = true := by
  unfold State.beforeTurn; split <;> simp [hw]

/-! ## Operations that may answer nothing -/

theorem State.waitTest_memOk {s t : State} {l : Loc} {cs : List Cond} {all : Bool} {v : Nat} (hw : s.memOk = true)
    (e : s.waitTest l cs all = some (v, t)) : t.memOk = true := by
  simp only [State.waitTest] at e
  (repeat' split at e)
  · cases e; exact State.take_memOk _ _ hw
  · cases e
  · simp only [Option.map_eq_some_iff, Prod.mk.injEq] at e
    obtain ⟨p, -, -, rfl⟩ := e
    exact State.take_memOk _ _ hw

theorem State.takeXfer_memOk {s t : State} {x : Xfer} (hw : s.memOk = true) (e : s.takeXfer x = some t) :
    t.memOk = true := by
  simp only [State.takeXfer] at e
  (repeat' split at e) <;> cases e <;> simp [hw]

end Sys2Proof.Machine
end

