-- ==== Sys2Proof/Laws/PerInstr.lean ====
section
/-! SUPPORT. A fact of every instruction's syntax, one lemma for each constructor: an instruction that is a command carries
its own engine and operation code (R85), is the one that decoding builds from that code and its operands, and has no scalar
encoding besides. -/

namespace Sys2Proof.Laws

/-- If the instruction is a command, its code names it alone and no scalar word stands for it (R79, R85). -/
def CommandCode.Statement (i : Instr) : Prop :=
  ∀ o f, i.toCmd = some (o, f) → copOf o.code.1 o.code.2 = some o ∧ Instr.ofCmd o f = i ∧ encodeRW i = none

/-- A row that is no command says nothing. -/
theorem commandCode_of_none {i : Instr} (h : i.toCmd = none) : CommandCode.Statement i := fun _ _ e => by
  rw [h] at e; cases e

/-- A row that is a command. -/
theorem commandCode_of_some {i : Instr} {o : COp} {f : CmdF} (h : i.toCmd = some (o, f))
    (c : copOf o.code.1 o.code.2 = some o) (b : Instr.ofCmd o f = i) (n : encodeRW i = none) : CommandCode.Statement i := by
  intro o' f' e
  rw [h] at e
  cases e
  exact ⟨c, b, n⟩

theorem CommandCode.kIssue (idx : BitVec 13) : CommandCode.Statement (.kIssue idx) := commandCode_of_none rfl
theorem CommandCode.kIssuex (idx : BitVec 13) (xa : XReg) (xb : XReg) : CommandCode.Statement (.kIssuex idx xa xb) :=
  commandCode_of_none rfl
theorem CommandCode.kTick (rd : XReg) : CommandCode.Statement (.kTick rd) := commandCode_of_none rfl
theorem CommandCode.kTrap (code : BitVec 10) : CommandCode.Statement (.kTrap code) := commandCode_of_none rfl
theorem CommandCode.kFlset (fl : BitVec 8) (xs : XReg) : CommandCode.Statement (.kFlset fl xs) :=
  commandCode_of_none rfl
theorem CommandCode.kFladd (fl : BitVec 8) (xs : XReg) : CommandCode.Statement (.kFladd fl xs) :=
  commandCode_of_none rfl
theorem CommandCode.kFlrd (rd : XReg) (fl : BitVec 8) : CommandCode.Statement (.kFlrd rd fl) :=
  commandCode_of_none rfl
theorem CommandCode.kWin (wn : Fin 32) (xa : XReg) (xb : XReg) : CommandCode.Statement (.kWin wn xa xb) :=
  commandCode_of_none rfl
theorem CommandCode.kWinrd (rd : XReg) (wn : Fin 32) (hi : Bool) : CommandCode.Statement (.kWinrd rd wn hi) :=
  commandCode_of_none rfl
theorem CommandCode.kWait (rd : XReg) (xt : XReg) (off : BitVec 8) (n1 : BitVec 2) (all : Bool) : CommandCode.Statement (.kWait rd xt off n1 all) :=
  commandCode_of_none rfl
theorem CommandCode.kSusp (xs : XReg) : CommandCode.Statement (.kSusp xs) := commandCode_of_none rfl
theorem CommandCode.kSpawn (xa : XReg) (xn : XReg) : CommandCode.Statement (.kSpawn xa xn) := commandCode_of_none rfl
theorem CommandCode.kGrpMake (xa : XReg) (xn : XReg) : CommandCode.Statement (.kGrpMake xa xn) :=
  commandCode_of_none rfl
theorem CommandCode.kGrpJoin (rd : XReg) (xa : XReg) : CommandCode.Statement (.kGrpJoin rd xa) :=
  commandCode_of_none rfl
theorem CommandCode.kGrpLeave (xa : XReg) : CommandCode.Statement (.kGrpLeave xa) := commandCode_of_none rfl
theorem CommandCode.kGrpBar (xa : XReg) : CommandCode.Statement (.kGrpBar xa) := commandCode_of_none rfl
theorem CommandCode.kArm (xs : XReg) : CommandCode.Statement (.kArm xs) := commandCode_of_none rfl
theorem CommandCode.kRgnEnter (id : BitVec 16) : CommandCode.Statement (.kRgnEnter id) := commandCode_of_none rfl
theorem CommandCode.kSpl (rd : XReg) (off : BitVec 12) : CommandCode.Statement (.kSpl rd off) :=
  commandCode_of_none rfl
theorem CommandCode.kSps (xs : XReg) (off : BitVec 12) : CommandCode.Statement (.kSps xs off) :=
  commandCode_of_none rfl
theorem CommandCode.kAmocAdd (a : Amoc) : CommandCode.Statement (.kAmocAdd a) := commandCode_of_none rfl
theorem CommandCode.kAmocSwap (a : Amoc) : CommandCode.Statement (.kAmocSwap a) := commandCode_of_none rfl
theorem CommandCode.kAmocCas (a : Amoc) : CommandCode.Statement (.kAmocCas a) := commandCode_of_none rfl
theorem CommandCode.kAmocOr (a : Amoc) : CommandCode.Statement (.kAmocOr a) := commandCode_of_none rfl
theorem CommandCode.kAmocAnd (a : Amoc) : CommandCode.Statement (.kAmocAnd a) := commandCode_of_none rfl
theorem CommandCode.kAmocMin (a : Amoc) : CommandCode.Statement (.kAmocMin a) := commandCode_of_none rfl
theorem CommandCode.kAmocMax (a : Amoc) : CommandCode.Statement (.kAmocMax a) := commandCode_of_none rfl
theorem CommandCode.fence (fm : BitVec 4) (pred : BitVec 4) (succ : BitVec 4) (rs1 : XReg) (rd : XReg) : CommandCode.Statement (.fence fm pred succ rs1 rd) :=
  commandCode_of_none rfl
theorem CommandCode.fenceI (imm : BitVec 12) (rs1 : XReg) (rd : XReg) : CommandCode.Statement (.fenceI imm rs1 rd) :=
  commandCode_of_none rfl
theorem CommandCode.csrAccess (a : CsrI) : CommandCode.Statement (.csrAccess a) := commandCode_of_none rfl
theorem CommandCode.load (wd : LoadW) (rd : XReg) (rs1 : XReg) (imm : BitVec 12) : CommandCode.Statement (.load wd rd rs1 imm) :=
  commandCode_of_none rfl
theorem CommandCode.store (wd : StoreW) (rs2 : XReg) (rs1 : XReg) (imm : BitVec 12) : CommandCode.Statement (.store wd rs2 rs1 imm) :=
  commandCode_of_none rfl
theorem CommandCode.amo (a : Amo) : CommandCode.Statement (.amo a) := commandCode_of_none rfl
theorem CommandCode.vAdd (f : CmdF) : CommandCode.Statement (.vAdd f) := commandCode_of_some rfl rfl rfl rfl
theorem CommandCode.vSub (f : CmdF) : CommandCode.Statement (.vSub f) := commandCode_of_some rfl rfl rfl rfl
theorem CommandCode.vMul (f : CmdF) : CommandCode.Statement (.vMul f) := commandCode_of_some rfl rfl rfl rfl
theorem CommandCode.vMulh (f : CmdF) : CommandCode.Statement (.vMulh f) := commandCode_of_some rfl rfl rfl rfl
theorem CommandCode.vFma (f : CmdF) : CommandCode.Statement (.vFma f) := commandCode_of_some rfl rfl rfl rfl
theorem CommandCode.vFms (f : CmdF) : CommandCode.Statement (.vFms f) := commandCode_of_some rfl rfl rfl rfl
theorem CommandCode.vFnma (f : CmdF) : CommandCode.Statement (.vFnma f) := commandCode_of_some rfl rfl rfl rfl
theorem CommandCode.vMin (f : CmdF) : CommandCode.Statement (.vMin f) := commandCode_of_some rfl rfl rfl rfl
theorem CommandCode.vMax (f : CmdF) : CommandCode.Statement (.vMax f) := commandCode_of_some rfl rfl rfl rfl
theorem CommandCode.vAbs (f : CmdF) : CommandCode.Statement (.vAbs f) := commandCode_of_some rfl rfl rfl rfl
theorem CommandCode.vNeg (f : CmdF) : CommandCode.Statement (.vNeg f) := commandCode_of_some rfl rfl rfl rfl
theorem CommandCode.vAdiff (f : CmdF) : CommandCode.Statement (.vAdiff f) := commandCode_of_some rfl rfl rfl rfl
theorem CommandCode.vClamp (f : CmdF) : CommandCode.Statement (.vClamp f) := commandCode_of_some rfl rfl rfl rfl
theorem CommandCode.vSgnj (f : CmdF) : CommandCode.Statement (.vSgnj f) := commandCode_of_some rfl rfl rfl rfl
theorem CommandCode.vRint (f : CmdF) : CommandCode.Statement (.vRint f) := commandCode_of_some rfl rfl rfl rfl
theorem CommandCode.vRcp (f : CmdF) : CommandCode.Statement (.vRcp f) := commandCode_of_some rfl rfl rfl rfl
theorem CommandCode.vRsqrt (f : CmdF) : CommandCode.Statement (.vRsqrt f) := commandCode_of_some rfl rfl rfl rfl
theorem CommandCode.vExp2 (f : CmdF) : CommandCode.Statement (.vExp2 f) := commandCode_of_some rfl rfl rfl rfl
theorem CommandCode.vLog2 (f : CmdF) : CommandCode.Statement (.vLog2 f) := commandCode_of_some rfl rfl rfl rfl
theorem CommandCode.vCmpeq (f : CmdF) : CommandCode.Statement (.vCmpeq f) := commandCode_of_some rfl rfl rfl rfl
theorem CommandCode.vCmpne (f : CmdF) : CommandCode.Statement (.vCmpne f) := commandCode_of_some rfl rfl rfl rfl
theorem CommandCode.vCmplt (f : CmdF) : CommandCode.Statement (.vCmplt f) := commandCode_of_some rfl rfl rfl rfl
theorem CommandCode.vCmple (f : CmdF) : CommandCode.Statement (.vCmple f) := commandCode_of_some rfl rfl rfl rfl
theorem CommandCode.vCmpgt (f : CmdF) : CommandCode.Statement (.vCmpgt f) := commandCode_of_some rfl rfl rfl rfl
theorem CommandCode.vCmpge (f : CmdF) : CommandCode.Statement (.vCmpge f) := commandCode_of_some rfl rfl rfl rfl
theorem CommandCode.vCmpun (f : CmdF) : CommandCode.Statement (.vCmpun f) := commandCode_of_some rfl rfl rfl rfl
theorem CommandCode.vSel (f : CmdF) : CommandCode.Statement (.vSel f) := commandCode_of_some rfl rfl rfl rfl
theorem CommandCode.vAnd (f : CmdF) : CommandCode.Statement (.vAnd f) := commandCode_of_some rfl rfl rfl rfl
theorem CommandCode.vOr (f : CmdF) : CommandCode.Statement (.vOr f) := commandCode_of_some rfl rfl rfl rfl
theorem CommandCode.vXor (f : CmdF) : CommandCode.Statement (.vXor f) := commandCode_of_some rfl rfl rfl rfl
theorem CommandCode.vNot (f : CmdF) : CommandCode.Statement (.vNot f) := commandCode_of_some rfl rfl rfl rfl
theorem CommandCode.vAndn (f : CmdF) : CommandCode.Statement (.vAndn f) := commandCode_of_some rfl rfl rfl rfl
theorem CommandCode.vSll (f : CmdF) : CommandCode.Statement (.vSll f) := commandCode_of_some rfl rfl rfl rfl
theorem CommandCode.vSrl (f : CmdF) : CommandCode.Statement (.vSrl f) := commandCode_of_some rfl rfl rfl rfl
theorem CommandCode.vSra (f : CmdF) : CommandCode.Statement (.vSra f) := commandCode_of_some rfl rfl rfl rfl
theorem CommandCode.vRol (f : CmdF) : CommandCode.Statement (.vRol f) := commandCode_of_some rfl rfl rfl rfl
theorem CommandCode.vRor (f : CmdF) : CommandCode.Statement (.vRor f) := commandCode_of_some rfl rfl rfl rfl
theorem CommandCode.vFsl (f : CmdF) : CommandCode.Statement (.vFsl f) := commandCode_of_some rfl rfl rfl rfl
theorem CommandCode.vFsr (f : CmdF) : CommandCode.Statement (.vFsr f) := commandCode_of_some rfl rfl rfl rfl
theorem CommandCode.vClz (f : CmdF) : CommandCode.Statement (.vClz f) := commandCode_of_some rfl rfl rfl rfl
theorem CommandCode.vCtz (f : CmdF) : CommandCode.Statement (.vCtz f) := commandCode_of_some rfl rfl rfl rfl
theorem CommandCode.vFfs (f : CmdF) : CommandCode.Statement (.vFfs f) := commandCode_of_some rfl rfl rfl rfl
theorem CommandCode.vPop (f : CmdF) : CommandCode.Statement (.vPop f) := commandCode_of_some rfl rfl rfl rfl
theorem CommandCode.vBrev (f : CmdF) : CommandCode.Statement (.vBrev f) := commandCode_of_some rfl rfl rfl rfl
theorem CommandCode.vCvt (f : CmdF) : CommandCode.Statement (.vCvt f) := commandCode_of_some rfl rfl rfl rfl
theorem CommandCode.vCvtef (f : CmdF) : CommandCode.Statement (.vCvtef f) := commandCode_of_some rfl rfl rfl rfl
theorem CommandCode.vPbpack (f : CmdF) : CommandCode.Statement (.vPbpack f) := commandCode_of_some rfl rfl rfl rfl
theorem CommandCode.vPbunpk (f : CmdF) : CommandCode.Statement (.vPbunpk f) := commandCode_of_some rfl rfl rfl rfl
theorem CommandCode.vRotr (f : CmdF) : CommandCode.Statement (.vRotr f) := commandCode_of_some rfl rfl rfl rfl
theorem CommandCode.vBcr (f : CmdF) : CommandCode.Statement (.vBcr f) := commandCode_of_some rfl rfl rfl rfl
theorem CommandCode.vSumr (f : CmdF) : CommandCode.Statement (.vSumr f) := commandCode_of_some rfl rfl rfl rfl
theorem CommandCode.vMaxr (f : CmdF) : CommandCode.Statement (.vMaxr f) := commandCode_of_some rfl rfl rfl rfl
theorem CommandCode.vMinr (f : CmdF) : CommandCode.Statement (.vMinr f) := commandCode_of_some rfl rfl rfl rfl
theorem CommandCode.vAndr (f : CmdF) : CommandCode.Statement (.vAndr f) := commandCode_of_some rfl rfl rfl rfl
theorem CommandCode.vOrr (f : CmdF) : CommandCode.Statement (.vOrr f) := commandCode_of_some rfl rfl rfl rfl
theorem CommandCode.vScsumr (f : CmdF) : CommandCode.Statement (.vScsumr f) := commandCode_of_some rfl rfl rfl rfl
theorem CommandCode.vScmaxr (f : CmdF) : CommandCode.Statement (.vScmaxr f) := commandCode_of_some rfl rfl rfl rfl
theorem CommandCode.vScminr (f : CmdF) : CommandCode.Statement (.vScminr f) := commandCode_of_some rfl rfl rfl rfl
theorem CommandCode.vRotc (f : CmdF) : CommandCode.Statement (.vRotc f) := commandCode_of_some rfl rfl rfl rfl
theorem CommandCode.vBcc (f : CmdF) : CommandCode.Statement (.vBcc f) := commandCode_of_some rfl rfl rfl rfl
theorem CommandCode.vSumc (f : CmdF) : CommandCode.Statement (.vSumc f) := commandCode_of_some rfl rfl rfl rfl
theorem CommandCode.vMaxc (f : CmdF) : CommandCode.Statement (.vMaxc f) := commandCode_of_some rfl rfl rfl rfl
theorem CommandCode.vMinc (f : CmdF) : CommandCode.Statement (.vMinc f) := commandCode_of_some rfl rfl rfl rfl
theorem CommandCode.vAndc (f : CmdF) : CommandCode.Statement (.vAndc f) := commandCode_of_some rfl rfl rfl rfl
theorem CommandCode.vOrc (f : CmdF) : CommandCode.Statement (.vOrc f) := commandCode_of_some rfl rfl rfl rfl
theorem CommandCode.vScsumc (f : CmdF) : CommandCode.Statement (.vScsumc f) := commandCode_of_some rfl rfl rfl rfl
theorem CommandCode.vScmaxc (f : CmdF) : CommandCode.Statement (.vScmaxc f) := commandCode_of_some rfl rfl rfl rfl
theorem CommandCode.vScminc (f : CmdF) : CommandCode.Statement (.vScminc f) := commandCode_of_some rfl rfl rfl rfl
theorem CommandCode.vPerm (f : CmdF) : CommandCode.Statement (.vPerm f) := commandCode_of_some rfl rfl rfl rfl
theorem CommandCode.vIota (f : CmdF) : CommandCode.Statement (.vIota f) := commandCode_of_some rfl rfl rfl rfl
theorem CommandCode.vMovi (f : CmdF) : CommandCode.Statement (.vMovi f) := commandCode_of_some rfl rfl rfl rfl
theorem CommandCode.vMov (f : CmdF) : CommandCode.Statement (.vMov f) := commandCode_of_some rfl rfl rfl rfl
theorem CommandCode.vLut8 (f : CmdF) : CommandCode.Statement (.vLut8 f) := commandCode_of_some rfl rfl rfl rfl
theorem CommandCode.vLut16 (f : CmdF) : CommandCode.Statement (.vLut16 f) := commandCode_of_some rfl rfl rfl rfl
theorem CommandCode.vZip (f : CmdF) : CommandCode.Statement (.vZip f) := commandCode_of_some rfl rfl rfl rfl
theorem CommandCode.vUnzip (f : CmdF) : CommandCode.Statement (.vUnzip f) := commandCode_of_some rfl rfl rfl rfl
theorem CommandCode.vLd (f : CmdF) : CommandCode.Statement (.vLd f) := commandCode_of_some rfl rfl rfl rfl
theorem CommandCode.vSt (f : CmdF) : CommandCode.Statement (.vSt f) := commandCode_of_some rfl rfl rfl rfl
theorem CommandCode.vStm (f : CmdF) : CommandCode.Statement (.vStm f) := commandCode_of_some rfl rfl rfl rfl
theorem CommandCode.vGath (f : CmdF) : CommandCode.Statement (.vGath f) := commandCode_of_some rfl rfl rfl rfl
theorem CommandCode.vScat (f : CmdF) : CommandCode.Statement (.vScat f) := commandCode_of_some rfl rfl rfl rfl
theorem CommandCode.vPand (f : CmdF) : CommandCode.Statement (.vPand f) := commandCode_of_some rfl rfl rfl rfl
theorem CommandCode.vPor (f : CmdF) : CommandCode.Statement (.vPor f) := commandCode_of_some rfl rfl rfl rfl
theorem CommandCode.vPxor (f : CmdF) : CommandCode.Statement (.vPxor f) := commandCode_of_some rfl rfl rfl rfl
theorem CommandCode.vPandn (f : CmdF) : CommandCode.Statement (.vPandn f) := commandCode_of_some rfl rfl rfl rfl
theorem CommandCode.vPnot (f : CmdF) : CommandCode.Statement (.vPnot f) := commandCode_of_some rfl rfl rfl rfl
theorem CommandCode.vPset (f : CmdF) : CommandCode.Statement (.vPset f) := commandCode_of_some rfl rfl rfl rfl
theorem CommandCode.vPmov (f : CmdF) : CommandCode.Statement (.vPmov f) := commandCode_of_some rfl rfl rfl rfl
theorem CommandCode.vPcnt (f : CmdF) : CommandCode.Statement (.vPcnt f) := commandCode_of_some rfl rfl rfl rfl
theorem CommandCode.mxCfg (f : CmdF) : CommandCode.Statement (.mxCfg f) := commandCode_of_some rfl rfl rfl rfl
theorem CommandCode.mxLdb (f : CmdF) : CommandCode.Statement (.mxLdb f) := commandCode_of_some rfl rfl rfl rfl
theorem CommandCode.mxGo (f : CmdF) : CommandCode.Statement (.mxGo f) := commandCode_of_some rfl rfl rfl rfl
theorem CommandCode.mxDrain (f : CmdF) : CommandCode.Statement (.mxDrain f) := commandCode_of_some rfl rfl rfl rfl
theorem CommandCode.mxZero (f : CmdF) : CommandCode.Statement (.mxZero f) := commandCode_of_some rfl rfl rfl rfl
theorem CommandCode.mxScale (f : CmdF) : CommandCode.Statement (.mxScale f) := commandCode_of_some rfl rfl rfl rfl
theorem CommandCode.mxRdst (f : CmdF) : CommandCode.Statement (.mxRdst f) := commandCode_of_some rfl rfl rfl rfl
theorem CommandCode.soLd (f : CmdF) : CommandCode.Statement (.soLd f) := commandCode_of_some rfl rfl rfl rfl
theorem CommandCode.soSort (f : CmdF) : CommandCode.Statement (.soSort f) := commandCode_of_some rfl rfl rfl rfl
theorem CommandCode.soStep (f : CmdF) : CommandCode.Statement (.soStep f) := commandCode_of_some rfl rfl rfl rfl
theorem CommandCode.soTopk (f : CmdF) : CommandCode.Statement (.soTopk f) := commandCode_of_some rfl rfl rfl rfl
theorem CommandCode.soMerge (f : CmdF) : CommandCode.Statement (.soMerge f) := commandCode_of_some rfl rfl rfl rfl
theorem CommandCode.soSt (f : CmdF) : CommandCode.Statement (.soSt f) := commandCode_of_some rfl rfl rfl rfl
theorem CommandCode.soSave (f : CmdF) : CommandCode.Statement (.soSave f) := commandCode_of_some rfl rfl rfl rfl
theorem CommandCode.soRest (f : CmdF) : CommandCode.Statement (.soRest f) := commandCode_of_some rfl rfl rfl rfl
theorem CommandCode.soClr (f : CmdF) : CommandCode.Statement (.soClr f) := commandCode_of_some rfl rfl rfl rfl
theorem CommandCode.cpLin (f : CmdF) : CommandCode.Statement (.cpLin f) := commandCode_of_some rfl rfl rfl rfl
theorem CommandCode.cp2d (f : CmdF) : CommandCode.Statement (.cp2d f) := commandCode_of_some rfl rfl rfl rfl
theorem CommandCode.cpList (f : CmdF) : CommandCode.Statement (.cpList f) := commandCode_of_some rfl rfl rfl rfl
theorem CommandCode.cpXf (f : CmdF) : CommandCode.Statement (.cpXf f) := commandCode_of_some rfl rfl rfl rfl
theorem CommandCode.cpPeer (f : CmdF) : CommandCode.Statement (.cpPeer f) := commandCode_of_some rfl rfl rfl rfl
theorem CommandCode.cpFill (f : CmdF) : CommandCode.Statement (.cpFill f) := commandCode_of_some rfl rfl rfl rfl
theorem CommandCode.sxSearch (f : CmdF) : CommandCode.Statement (.sxSearch f) := commandCode_of_some rfl rfl rfl rfl
theorem CommandCode.sxScan (f : CmdF) : CommandCode.Statement (.sxScan f) := commandCode_of_some rfl rfl rfl rfl
theorem CommandCode.sxAppend (f : CmdF) : CommandCode.Statement (.sxAppend f) := commandCode_of_some rfl rfl rfl rfl
theorem CommandCode.sxFetch (f : CmdF) : CommandCode.Statement (.sxFetch f) := commandCode_of_some rfl rfl rfl rfl
theorem CommandCode.sxDel (f : CmdF) : CommandCode.Statement (.sxDel f) := commandCode_of_some rfl rfl rfl rfl
theorem CommandCode.sxStat (f : CmdF) : CommandCode.Statement (.sxStat f) := commandCode_of_some rfl rfl rfl rfl
theorem CommandCode.flNop (f : CmdF) : CommandCode.Statement (.flNop f) := commandCode_of_some rfl rfl rfl rfl
theorem CommandCode.flAdd (f : CmdF) : CommandCode.Statement (.flAdd f) := commandCode_of_some rfl rfl rfl rfl
theorem CommandCode.flSet (f : CmdF) : CommandCode.Statement (.flSet f) := commandCode_of_some rfl rfl rfl rfl
theorem CommandCode.flWait (f : CmdF) : CommandCode.Statement (.flWait f) := commandCode_of_some rfl rfl rfl rfl
theorem CommandCode.commandCompletion (seqs : List Nat) : CommandCode.Statement (.commandCompletion seqs) :=
  commandCode_of_none rfl
theorem CommandCode.peerArrival (x : Xfer) (gs : List Nat) : CommandCode.Statement (.peerArrival x gs) :=
  commandCode_of_none rfl
theorem CommandCode.cirrusTaskDispatch (e : Fin 8) : CommandCode.Statement (.cirrusTaskDispatch e) :=
  commandCode_of_none rfl
theorem CommandCode.recordCompletion (wq : Fin 2048) (addr : Word) (qst : BitVec 3) : CommandCode.Statement (.recordCompletion wq addr qst) :=
  commandCode_of_none rfl
theorem CommandCode.graphNodeCreation (g : Nat) (node : Nat) (addr : Word) : CommandCode.Statement (.graphNodeCreation g node addr) :=
  commandCode_of_none rfl
theorem CommandCode.ageLimitReport (wq : Fin 2048) (addr : Word) : CommandCode.Statement (.ageLimitReport wq addr) :=
  commandCode_of_none rfl
theorem CommandCode.imageColdStart (image : Nat) : CommandCode.Statement (.imageColdStart image) :=
  commandCode_of_none rfl
theorem CommandCode.dbell (q : Fin 2048) (v : Word) : CommandCode.Statement (.dbell q v) := commandCode_of_none rfl
theorem CommandCode.registerWrite (r : BarReg) (v : Word) : CommandCode.Statement (.registerWrite r v) :=
  commandCode_of_none rfl
theorem CommandCode.faultServiced (f : FaultRef) (fixes : List FaultFix) : CommandCode.Statement (.faultServiced f fixes) :=
  commandCode_of_none rfl
theorem CommandCode.faultRefused (f : FaultRef) : CommandCode.Statement (.faultRefused f) := commandCode_of_none rfl
theorem CommandCode.hobAttach (h : Nat) (sess : Nat) : CommandCode.Statement (.hobAttach h sess) :=
  commandCode_of_none rfl
theorem CommandCode.hobBreakPc (off : Nat) (c : Option (Fin 4)) : CommandCode.Statement (.hobBreakPc off c) :=
  commandCode_of_none rfl
theorem CommandCode.hobBreakRgn (id : BitVec 16) (e : Edge) : CommandCode.Statement (.hobBreakRgn id e) :=
  commandCode_of_none rfl
theorem CommandCode.hobDelete (n : Nat) : CommandCode.Statement (.hobDelete n) := commandCode_of_none rfl
theorem CommandCode.hobShowV (n : Fin 16) : CommandCode.Statement (.hobShowV n) := commandCode_of_none rfl
theorem CommandCode.hobShowP (n : Fin 8) : CommandCode.Statement (.hobShowP n) := commandCode_of_none rfl
theorem CommandCode.hobShowW (n : Fin 32) : CommandCode.Statement (.hobShowW n) := commandCode_of_none rfl
theorem CommandCode.hobShowAcc (n : Fin 8) : CommandCode.Statement (.hobShowAcc n) := commandCode_of_none rfl
theorem CommandCode.hobShowSmax (n : Fin 8) : CommandCode.Statement (.hobShowSmax n) := commandCode_of_none rfl
theorem CommandCode.hobDecode (n : Nat) : CommandCode.Statement (.hobDecode n) := commandCode_of_none rfl
theorem CommandCode.hobMem (a : Word) (n : Nat) : CommandCode.Statement (.hobMem a n) := commandCode_of_none rfl
theorem CommandCode.hobTrace (on : Bool) : CommandCode.Statement (.hobTrace on) := commandCode_of_none rfl
theorem CommandCode.hobChimney (k : Nat) : CommandCode.Statement (.hobChimney k) := commandCode_of_none rfl
theorem CommandCode.readRetry (r : RetryEv) : CommandCode.Statement (.readRetry r) := commandCode_of_none rfl
theorem CommandCode.mergePublish (idx : Fin 64) (pages : List Nat) : CommandCode.Statement (.mergePublish idx pages) :=
  commandCode_of_none rfl
theorem CommandCode.logReclaim (idx : Fin 64) : CommandCode.Statement (.logReclaim idx) := commandCode_of_none rfl
theorem CommandCode.linkTraining (e : LinkEv) : CommandCode.Statement (.linkTraining e) := commandCode_of_none rfl
theorem CommandCode.portFailure (p : Fin 8) (dead : List (Nat × Nat)) (cut : List Xfer) : CommandCode.Statement (.portFailure p dead cut) :=
  commandCode_of_none rfl
theorem CommandCode.hostSnoop (addr : Nat) (n : Nat) : CommandCode.Statement (.hostSnoop addr n) :=
  commandCode_of_none rfl
theorem CommandCode.leadershipTakeover (r : Fin 5) : CommandCode.Statement (.leadershipTakeover r) :=
  commandCode_of_none rfl
theorem CommandCode.lockstepStop (r : Fin 5) : CommandCode.Statement (.lockstepStop r) := commandCode_of_none rfl
theorem CommandCode.powerGrantPeriod (grants : List Nat) (shares : List (List Nat)) : CommandCode.Statement (.powerGrantPeriod grants shares) :=
  commandCode_of_none rfl
theorem CommandCode.thermalLimit (w : Nat) : CommandCode.Statement (.thermalLimit w) := commandCode_of_none rfl
theorem CommandCode.boot (r : BootRes) : CommandCode.Statement (.boot r) := commandCode_of_none rfl
theorem CommandCode.imageRegister (r : CallReq) : CommandCode.Statement (.imageRegister r) := commandCode_of_none rfl
theorem CommandCode.imageUnregister (r : CallReq) : CommandCode.Statement (.imageUnregister r) :=
  commandCode_of_none rfl
theorem CommandCode.queueCreate (r : CallReq) : CommandCode.Statement (.queueCreate r) := commandCode_of_none rfl
theorem CommandCode.queueTeardown (r : CallReq) : CommandCode.Statement (.queueTeardown r) := commandCode_of_none rfl
theorem CommandCode.queueReset (r : CallReq) : CommandCode.Statement (.queueReset r) := commandCode_of_none rfl
theorem CommandCode.queueErrors (r : CallReq) : CommandCode.Statement (.queueErrors r) := commandCode_of_none rfl
theorem CommandCode.map (r : CallReq) : CommandCode.Statement (.map r) := commandCode_of_none rfl
theorem CommandCode.unmap (r : CallReq) : CommandCode.Statement (.unmap r) := commandCode_of_none rfl
theorem CommandCode.setHome (r : CallReq) : CommandCode.Statement (.setHome r) := commandCode_of_none rfl
theorem CommandCode.migrate (r : CallReq) : CommandCode.Statement (.migrate r) := commandCode_of_none rfl
theorem CommandCode.ageLimit (r : CallReq) : CommandCode.Statement (.ageLimit r) := commandCode_of_none rfl
theorem CommandCode.routineLoad (r : CallReq) : CommandCode.Statement (.routineLoad r) := commandCode_of_none rfl
theorem CommandCode.routineUnload (r : CallReq) : CommandCode.Statement (.routineUnload r) := commandCode_of_none rfl
theorem CommandCode.flashAllocate (r : CallReq) : CommandCode.Statement (.flashAllocate r) := commandCode_of_none rfl
theorem CommandCode.flashWrite (r : CallReq) : CommandCode.Statement (.flashWrite r) := commandCode_of_none rfl
theorem CommandCode.flashFree (r : CallReq) : CommandCode.Statement (.flashFree r) := commandCode_of_none rfl
theorem CommandCode.indexCreate (r : CallReq) : CommandCode.Statement (.indexCreate r) := commandCode_of_none rfl
theorem CommandCode.indexDestroy (r : CallReq) : CommandCode.Statement (.indexDestroy r) := commandCode_of_none rfl
theorem CommandCode.mergeStart (r : CallReq) : CommandCode.Statement (.mergeStart r) := commandCode_of_none rfl
theorem CommandCode.mediaRepair (r : CallReq) : CommandCode.Statement (.mediaRepair r) := commandCode_of_none rfl
theorem CommandCode.powerSet (r : CallReq) : CommandCode.Statement (.powerSet r) := commandCode_of_none rfl
theorem CommandCode.powerQuery (r : CallReq) : CommandCode.Statement (.powerQuery r) := commandCode_of_none rfl
theorem CommandCode.traceRing (r : CallReq) : CommandCode.Statement (.traceRing r) := commandCode_of_none rfl
theorem CommandCode.chimney (r : CallReq) : CommandCode.Statement (.chimney r) := commandCode_of_none rfl
theorem CommandCode.hobAttachCall (r : CallReq) : CommandCode.Statement (.hobAttachCall r) := commandCode_of_none rfl
theorem CommandCode.hobDetach (r : CallReq) : CommandCode.Statement (.hobDetach r) := commandCode_of_none rfl
theorem CommandCode.recordMode (r : CallReq) : CommandCode.Statement (.recordMode r) := commandCode_of_none rfl
theorem CommandCode.replay (r : CallReq) : CommandCode.Statement (.replay r) := commandCode_of_none rfl
theorem CommandCode.commandStart (seq : Nat) : CommandCode.Statement (.commandStart seq) := commandCode_of_none rfl
theorem CommandCode.branchJump (b : Branch) : CommandCode.Statement (.branchJump b) := commandCode_of_none rfl
theorem CommandCode.integerOp (op : IntOp) : CommandCode.Statement (.integerOp op) := commandCode_of_none rfl
theorem CommandCode.illegalInstruction (w : BitVec 32) : CommandCode.Statement (.illegalInstruction w) :=
  commandCode_of_none rfl
theorem CommandCode.interruptPending (bit : BitVec 6) : CommandCode.Statement (.interruptPending bit) :=
  commandCode_of_none rfl
theorem CommandCode.callgo (v : Word) (choice : List Nat) : CommandCode.Statement (.callgo v choice) :=
  commandCode_of_none rfl
theorem CommandCode.hostMemoryAccess (a : HostAcc) : CommandCode.Statement (.hostMemoryAccess a) :=
  commandCode_of_none rfl
theorem CommandCode.transferForward (p : Fin 8) (x : Xfer) : CommandCode.Statement (.transferForward p x) :=
  commandCode_of_none rfl
theorem CommandCode.servicePairReturn (r : Fin 5) : CommandCode.Statement (.servicePairReturn r) :=
  commandCode_of_none rfl
theorem CommandCode.kDrain : CommandCode.Statement (.kDrain) := commandCode_of_none rfl
theorem CommandCode.kDone : CommandCode.Statement (.kDone) := commandCode_of_none rfl
theorem CommandCode.kYield : CommandCode.Statement (.kYield) := commandCode_of_none rfl
theorem CommandCode.kRgnLeave : CommandCode.Statement (.kRgnLeave) := commandCode_of_none rfl
theorem CommandCode.ecall : CommandCode.Statement (.ecall) := commandCode_of_none rfl
theorem CommandCode.ebreak : CommandCode.Statement (.ebreak) := commandCode_of_none rfl
theorem CommandCode.wfi : CommandCode.Statement (.wfi) := commandCode_of_none rfl
theorem CommandCode.apertureAccess : CommandCode.Statement (.apertureAccess) := commandCode_of_none rfl
theorem CommandCode.commandAcceptance : CommandCode.Statement (.commandAcceptance) := commandCode_of_none rfl
theorem CommandCode.matrixWindowAcceptance : CommandCode.Statement (.matrixWindowAcceptance) :=
  commandCode_of_none rfl
theorem CommandCode.asyncTrap : CommandCode.Statement (.asyncTrap) := commandCode_of_none rfl
theorem CommandCode.waitConditionMet : CommandCode.Statement (.waitConditionMet) := commandCode_of_none rfl
theorem CommandCode.waitDeadlineExpiry : CommandCode.Statement (.waitDeadlineExpiry) := commandCode_of_none rfl
theorem CommandCode.wfiTimeout : CommandCode.Statement (.wfiTimeout) := commandCode_of_none rfl
theorem CommandCode.drainComplete : CommandCode.Statement (.drainComplete) := commandCode_of_none rfl
theorem CommandCode.barrierRelease : CommandCode.Statement (.barrierRelease) := commandCode_of_none rfl
theorem CommandCode.spawnAccepted : CommandCode.Statement (.spawnAccepted) := commandCode_of_none rfl
theorem CommandCode.queuedArrivalStart : CommandCode.Statement (.queuedArrivalStart) := commandCode_of_none rfl
theorem CommandCode.recordDispatch : CommandCode.Statement (.recordDispatch) := commandCode_of_none rfl
theorem CommandCode.preemption (area : Nat) : CommandCode.Statement (.preemption area) := commandCode_of_none rfl
theorem CommandCode.preemptionRestore (n : Nat) : CommandCode.Statement (.preemptionRestore n) :=
  commandCode_of_none rfl
theorem CommandCode.sideLogReplay : CommandCode.Statement (.sideLogReplay) := commandCode_of_none rfl
theorem CommandCode.breakpointHit : CommandCode.Statement (.breakpointHit) := commandCode_of_none rfl
theorem CommandCode.hobList : CommandCode.Statement (.hobList) := commandCode_of_none rfl
theorem CommandCode.hobCont : CommandCode.Statement (.hobCont) := commandCode_of_none rfl
theorem CommandCode.hobStep : CommandCode.Statement (.hobStep) := commandCode_of_none rfl
theorem CommandCode.hobRegs : CommandCode.Statement (.hobRegs) := commandCode_of_none rfl
theorem CommandCode.hobShowFlags : CommandCode.Statement (.hobShowFlags) := commandCode_of_none rfl
theorem CommandCode.hobShowSb : CommandCode.Statement (.hobShowSb) := commandCode_of_none rfl
theorem CommandCode.hobShowQ : CommandCode.Statement (.hobShowQ) := commandCode_of_none rfl
theorem CommandCode.hobShowHeld : CommandCode.Statement (.hobShowHeld) := commandCode_of_none rfl
theorem CommandCode.hobShowSa : CommandCode.Statement (.hobShowSa) := commandCode_of_none rfl
theorem CommandCode.hobShowNest : CommandCode.Statement (.hobShowNest) := commandCode_of_none rfl
theorem CommandCode.chimneyLatch : CommandCode.Statement (.chimneyLatch) := commandCode_of_none rfl
theorem CommandCode.leaseRebase : CommandCode.Statement (.leaseRebase) := commandCode_of_none rfl
theorem CommandCode.heartbeat : CommandCode.Statement (.heartbeat) := commandCode_of_none rfl
theorem CommandCode.mret : CommandCode.Statement (.mret) := commandCode_of_none rfl
theorem CommandCode.coldPlateCooled : CommandCode.Statement (.coldPlateCooled) := commandCode_of_none rfl

end Sys2Proof.Laws
end

