-- ==== Sys2Proof/Tests/Slice0.lean ====
section
/-! SUPPORT. Tests, with their expected results from the spec's tables and examples or worked out from them by hand, and
for every statement with hypotheses a state and operands that meet them. -/

set_option Elab.async false

namespace Sys2Proof.Tests

open Sys2Proof Sys2Proof.Machine

/-! ## Ill-formed terms are refused (R75, R79 to R83) -/

/-- A word shift takes no amount of 32 or more. -/
theorem test_word_shift_amount : Instr.wellFormed (.integerOp (.sh .slliw 1 1 32)) = false := by decide
/-- A branch offset is even. -/
theorem test_branch_offset : Instr.wellFormed (.branchJump (.br .eq 1 2 3)) = false := by decide
/-- A jump offset is even. -/
theorem test_jump_offset : Instr.wellFormed (.branchJump (.jal 1 5)) = false := by decide
/-- LR names no second register. -/
theorem test_lr_source : Instr.wellFormed (.amo ⟨.lr, true, false, false, 1, 2, 3⟩) = false := by decide
/-- A region identifier is not zero (R81). -/
theorem test_region_zero : Instr.wellFormed (.kRgnEnter 0) = false := by decide

/-! ## Words written out from the encodings of the spec -/

/-- RISC-V words by the RISC-V manual's formats (R75). -/
theorem test_decode_integer :
    decodeScalar 0x00C58533#32 = .integerOp (.rr .add 10 11 12) ∧
    decodeScalar 0x40C58533#32 = .integerOp (.rr .sub 10 11 12) ∧
    decodeScalar 0x02C58533#32 = .integerOp (.rr .mul 10 11 12) ∧
    decodeScalar 0x02C5D53B#32 = .integerOp (.rr .divuw 10 11 12) ∧
    decodeScalar 0x20C5A533#32 = .integerOp (.rr .sh1add 10 11 12) ∧
    decodeScalar 0x4055D513#32 = .integerOp (.sh .srai 10 11 5) ∧
    decodeScalar 0x63F5D513#32 = .integerOp (.sh .rori 10 11 63) ∧
    decodeScalar 0x60059513#32 = .integerOp (.un .clz 10 11) ∧
    decodeScalar 0x6B85D513#32 = .integerOp (.un .rev8 10 11) ∧
    decodeScalar 0x0805C53B#32 = .integerOp (.un .zexth 10 11) ∧
    decodeScalar 0x12345537#32 = .integerOp (.lui 10 0x12345) ∧
    decodeScalar 0x12345517#32 = .integerOp (.auipc 10 0x12345) ∧
    decodeScalar 0x00B50863#32 = .branchJump (.br .eq 10 11 16) ∧
    decodeScalar 0x001000EF#32 = .branchJump (.jal 1 2048) ∧
    decodeScalar 0x008500E7#32 = .branchJump (.jalr 1 10 8) := by decide

/-- Memory, CSR, fence and privileged words (R75, R76). -/
theorem test_decode_system :
    decodeScalar 0x0045A503#32 = .load .w 10 11 4 ∧
    decodeScalar 0x00C5B423#32 = .store .d 12 11 8 ∧
    decodeScalar 0x1005A52F#32 = .amo ⟨.lr, false, false, false, 10, 11, 0⟩ ∧
    decodeScalar 0x18C5B52F#32 = .amo ⟨.sc, true, false, false, 10, 11, 12⟩ ∧
    decodeScalar 0x06C5A52F#32 = .amo ⟨.add, false, true, true, 10, 11, 12⟩ ∧
    decodeScalar 0x80059573#32 = .csrAccess ⟨.rw, false, 0x800, 10, 11⟩ ∧
    decodeScalar 0x8002F573#32 = .csrAccess ⟨.rc, true, 0x800, 10, 5⟩ ∧
    decodeScalar 0x0FF0000F#32 = .fence 0 15 15 0 0 ∧
    decodeScalar 0x0000100F#32 = .fenceI 0 0 0 ∧
    decodeScalar 0x00000073#32 = .ecall ∧
    decodeScalar 0x00100073#32 = .ebreak ∧
    decodeScalar 0x30200073#32 = .mret ∧
    decodeScalar 0x10500073#32 = .wfi := by decide

/-- custom0 words (R79). -/
theorem test_decode_custom0 :
    decodeScalar 0x0028000B#32 = .kIssue 5 ∧
    decodeScalar 0xAAC5BE0B#32 = .kIssuex 0x1ABC 11 12 ∧
    decodeScalar 0x0000428B#32 = .kTick 5 ∧
    decodeScalar 0x0200400B#32 = .kDrain ∧
    decodeScalar 0x0552C00B#32 = .kTrap 0x2A5 ∧
    decodeScalar 0x0C83D00B#32 = .kFlset 200 7 ∧
    decodeScalar 0x4C83D00B#32 = .kFladd 200 7 ∧
    decodeScalar 0x8C80550B#32 = .kFlrd 10 200 ∧
    decodeScalar 0x00C5EF0B#32 = .kWin 30 11 12 ∧
    decodeScalar 0xC00F650B#32 = .kWinrd 10 30 true ∧
    decodeScalar 0xD4A3750B#32 = .kWait 10 6 0xA5 2 true := by decide

/-- custom1 words (R81). -/
theorem test_decode_custom1 :
    decodeScalar 0x0000002B#32 = .kDone ∧
    decodeScalar 0x0200002B#32 = .kYield ∧
    decodeScalar 0x0404802B#32 = .kSusp 9 ∧
    decodeScalar 0x06C5802B#32 = .kSpawn 11 12 ∧
    decodeScalar 0x10C5802B#32 = .kGrpMake 11 12 ∧
    decodeScalar 0x1205852B#32 = .kGrpJoin 10 11 ∧
    decodeScalar 0x1405802B#32 = .kGrpLeave 11 ∧
    decodeScalar 0x1605802B#32 = .kGrpBar 11 ∧
    decodeScalar 0x2004802B#32 = .kArm 9 ∧
    decodeScalar 0xABCD102B#32 = .kRgnEnter 0xABCD ∧
    decodeScalar 0x0000202B#32 = .kRgnLeave := by decide

/-- custom2 words (R82). -/
theorem test_decode_custom2 :
    decodeScalar 0xABC0355B#32 = .kSpl 10 0xABC ∧
    decodeScalar 0xAAA07E5B#32 = .kSps 10 0xABC := by decide

/-- custom3 words (R83). -/
theorem test_decode_custom3 :
    decodeScalar 0x00C5A57B#32 = .kAmocAdd ⟨false, false, 10, 11, 12⟩ ∧
    decodeScalar 0x0AC5B57B#32 = .kAmocSwap ⟨true, true, 10, 11, 12⟩ ∧
    decodeScalar 0x2AC5A57B#32 = .kAmocCas ⟨true, false, 10, 11, 12⟩ ∧
    decodeScalar 0x42C5A57B#32 = .kAmocOr ⟨true, false, 10, 11, 12⟩ ∧
    decodeScalar 0x62C5A57B#32 = .kAmocAnd ⟨true, false, 10, 11, 12⟩ ∧
    decodeScalar 0x82C5A57B#32 = .kAmocMin ⟨true, false, 10, 11, 12⟩ ∧
    decodeScalar 0xA0C5B57B#32 = .kAmocMax ⟨false, true, 10, 11, 12⟩ := by decide

/-- Unassigned words are illegal instructions: a scope of 10, a region identifier of 0, the flag pattern 11, a set bit below
`OFF`, LR with a second register, all ones (R79, R81, R83, R84). -/
theorem test_decode_unassigned :
    decodeScalar 0x0400307B#32 = .illegalInstruction 0x0400307B#32 ∧
    decodeScalar 0x0000102B#32 = .illegalInstruction 0x0000102B#32 ∧
    decodeScalar 0xC000500B#32 = .illegalInstruction 0xC000500B#32 ∧
    decodeScalar 0x0010700B#32 = .illegalInstruction 0x0010700B#32 ∧
    decodeScalar 0x1015A52F#32 = .illegalInstruction 0x1015A52F#32 ∧
    decodeScalar 0xFFFFFFFF#32 = .illegalInstruction 0xFFFFFFFF#32 := by decide

/-- The instruction of a command word whose low bits are given and whose other bits are zero. -/
def lowWord (n : Nat) : Option Instr := decodeCmd (BitVec.ofNat 256 n)

/-- The all-zero operands. -/
def noOperands : CmdF := CmdF.ofWord 0

/-- Vector opcodes from 0x00 on, and one that is unassigned behind them (R95). -/
theorem test_decode_arithmetic : (List.range 16).map (fun n => lowWord (0x00 + n)) =
    [.vAdd, .vSub, .vMul, .vMulh, .vFma, .vFms, .vFnma, .vMin, .vMax, .vAbs, .vNeg, .vAdiff, .vClamp, .vSgnj,
     .vRint].map (fun i : CmdF → Instr => some (i noOperands)) ++ [none] := by decide
/-- Vector opcodes from 0x10 on, and one that is unassigned behind them (R95). -/
theorem test_decode_functions : (List.range 5).map (fun n => lowWord (0x10 + n)) =
    [.vRcp, .vRsqrt, .vExp2, .vLog2].map (fun i : CmdF → Instr => some (i noOperands)) ++ [none] := by decide
/-- Vector opcodes from 0x20 on, and one that is unassigned behind them (R95). -/
theorem test_decode_compares : (List.range 9).map (fun n => lowWord (0x20 + n)) =
    [.vCmpeq, .vCmpne, .vCmplt, .vCmple, .vCmpgt, .vCmpge, .vCmpun, .vSel].map (fun i : CmdF → Instr => some (i noOperands)) ++ [none] := by decide
/-- Vector opcodes from 0x30 on, and one that is unassigned behind them (R95). -/
theorem test_decode_logic : (List.range 13).map (fun n => lowWord (0x30 + n)) =
    [.vAnd, .vOr, .vXor, .vNot, .vAndn, .vSll, .vSrl, .vSra, .vRol, .vRor, .vFsl, .vFsr].map (fun i : CmdF → Instr => some (i noOperands)) ++ [none] := by decide
/-- Vector opcodes from 0x40 on, and one that is unassigned behind them (R95). -/
theorem test_decode_bit_counts : (List.range 6).map (fun n => lowWord (0x40 + n)) =
    [.vClz, .vCtz, .vFfs, .vPop, .vBrev].map (fun i : CmdF → Instr => some (i noOperands)) ++ [none] := by decide
/-- Vector opcodes from 0x50 on, and one that is unassigned behind them (R95). -/
theorem test_decode_conversions : (List.range 5).map (fun n => lowWord (0x50 + n)) =
    [.vCvt, .vCvtef, .vPbpack, .vPbunpk].map (fun i : CmdF → Instr => some (i noOperands)) ++ [none] := by decide
/-- Vector opcodes from 0x60 on, and one that is unassigned behind them (R95). -/
theorem test_decode_row_axis : (List.range 11).map (fun n => lowWord (0x60 + n)) =
    [.vRotr, .vBcr, .vSumr, .vMaxr, .vMinr, .vAndr, .vOrr, .vScsumr, .vScmaxr, .vScminr].map (fun i : CmdF → Instr => some (i noOperands)) ++ [none] := by decide
/-- Vector opcodes from 0x70 on, and one that is unassigned behind them (R95). -/
theorem test_decode_column_axis : (List.range 11).map (fun n => lowWord (0x70 + n)) =
    [.vRotc, .vBcc, .vSumc, .vMaxc, .vMinc, .vAndc, .vOrc, .vScsumc, .vScmaxc, .vScminc].map (fun i : CmdF → Instr => some (i noOperands)) ++ [none] := by decide
/-- Vector opcodes from 0x80 on, and one that is unassigned behind them (R95). -/
theorem test_decode_moves : (List.range 9).map (fun n => lowWord (0x80 + n)) =
    [.vPerm, .vIota, .vMovi, .vMov, .vLut8, .vLut16, .vZip, .vUnzip].map (fun i : CmdF → Instr => some (i noOperands)) ++ [none] := by decide
/-- Vector opcodes from 0x90 on, and one that is unassigned behind them (R95). -/
theorem test_decode_scratchpad : (List.range 6).map (fun n => lowWord (0x90 + n)) =
    [.vLd, .vSt, .vStm, .vGath, .vScat].map (fun i : CmdF → Instr => some (i noOperands)) ++ [none] := by decide
/-- Vector opcodes from 0xA0 on, and one that is unassigned behind them (R95). -/
theorem test_decode_predicates : (List.range 9).map (fun n => lowWord (0xA0 + n)) =
    [.vPand, .vPor, .vPxor, .vPandn, .vPnot, .vPset, .vPmov, .vPcnt].map (fun i : CmdF → Instr => some (i noOperands)) ++ [none] := by decide
/-- Opcodes of engine 1, and one that is unassigned behind them (R96). -/
theorem test_decode_matrix : (List.range 8).map (fun n => lowWord (0x100 + n)) =
    [.mxCfg, .mxLdb, .mxGo, .mxDrain, .mxZero, .mxScale, .mxRdst].map (fun i : CmdF → Instr => some (i noOperands)) ++ [none] := by decide
/-- Opcodes of engine 2, and one that is unassigned behind them (R96). -/
theorem test_decode_sort : (List.range 10).map (fun n => lowWord (0x200 + n)) =
    [.soLd, .soSort, .soStep, .soTopk, .soMerge, .soSt, .soSave, .soRest, .soClr].map (fun i : CmdF → Instr => some (i noOperands)) ++ [none] := by decide
/-- Opcodes of engine 3, and one that is unassigned behind them (R96). -/
theorem test_decode_copy : (List.range 7).map (fun n => lowWord (0x300 + n)) =
    [.cpLin, .cp2d, .cpList, .cpXf, .cpPeer, .cpFill].map (fun i : CmdF → Instr => some (i noOperands)) ++ [none] := by decide
/-- Opcodes of engine 4, and one that is unassigned behind them (R96). -/
theorem test_decode_search : (List.range 7).map (fun n => lowWord (0x400 + n)) =
    [.sxSearch, .sxScan, .sxAppend, .sxFetch, .sxDel, .sxStat].map (fun i : CmdF → Instr => some (i noOperands)) ++ [none] := by decide
/-- Opcodes of engine 5, and one that is unassigned behind them (R96). -/
theorem test_decode_flag : (List.range 5).map (fun n => lowWord (0x500 + n)) =
    [.flNop, .flAdd, .flSet, .flWait].map (fun i : CmdF → Instr => some (i noOperands)) ++ [none] := by decide

/-- Every field of a command word stands at its place (R85): `IMM`, `SCHED`, `HINT`, `SIG`, `WAIT`, five operands, guards, `MODE`
and `TYPE`. -/
theorem test_decode_fields :
    decodeCmd (0x89ABCDEF#32 ++ 0x123#12 ++ 0x2A#6 ++ 0xDEADBEEF#32 ++ 0x01234567#32 ++ 0x3ABCDE#22 ++ 0x2BCDEF#22 ++ 0x1CDEF0#22 ++
        0x0DEF01#22 ++ 0x3EF012#22 ++ 0b10#2 ++ 0b10110#5 ++ 0b11001#5 ++ 0b1010#4 ++ 0b0110#4 ++ 5#4 ++ 1#8) =
      some (.flAdd { imm := 0x89ABCDEF, sched := 0x123, hint := 0x2A, sig := 0xDEADBEEF, wait := 0x01234567, opd0 := 0x3EF012,
                     opd1 := 0x0DEF01, opd2 := 0x1CDEF0, opd3 := 0x2BCDEF, opd4 := 0x3ABCDE, gc := 2, gb := 22, ga := 25, mode := 10,
                     ty := 6 }) := by decide

/-- The example word of R96: `fl.nop` with every other field zero. -/
theorem test_decode_nop : decodeTableWord 256 0x500 = some (.flNop noOperands) := by decide

/-- The scalar encoder writes the words above back. -/
theorem test_encode_words :
    (encodeRW (.kIssuex 0x1ABC 11 12)).map RW.toWord = some 0xAAC5BE0B#32 ∧
    (encodeRW (.branchJump (.jal 1 2048))).map RW.toWord = some 0x001000EF#32 ∧
    (encodeRW (.kSps 10 0xABC)).map RW.toWord = some 0xAAA07E5B#32 := by decide

/-! ## Small states -/

/-- A context that runs in U mode, at cold-start values. -/
def uctx : Ctx := { Ctx.reset with st := .running, mode := .user }
/-- The same in M mode. -/
def mctx : Ctx := { Ctx.reset with st := .running }
/-- A context with a1 set. -/
def a1ctx (v : Word) : Ctx := { uctx with xs := uctx.xs.set 11 v }
/-- A context with a1 and a2 set. -/
def a12ctx (v w : Word) : Ctx := { uctx with xs := (uctx.xs.set 11 v).set 12 w }

/-- A hearth under address space 0 whose context 0 is given. -/
def hearthOf (k : Ctx) : Hearth := { Hearth.reset.setCtx 0 k with asid := some 0 }

/-- Hearth 0 is given, the first GiB of owner 0 is mapped for address space 0, and some memory bytes are listed behind the two
tables. -/
def mapped (x : Hearth) (m : Mem) : State :=
  { State.reset.setFh x with roots := [⟨0, some 0, 0x10000⟩], mem := [(0x10000, 1), (0x10002, 2), (0x20000, 0x1F)] ++ m }

/-- The reset state with another focus context, or with another hearth 0. -/
def withCtx (k : Ctx) : State := State.reset.setFc k
def withHearth (x : Hearth) : State := State.reset.setFh x

/-- The state after an instruction; reset where it does not answer one. -/
def after (i : Instr) (s : State) : State :=
  match exec i s with
  | .next t => t
  | _ => State.reset

/-- A command in flight. -/
def cmdAt (seq : Nat) (q : Queue) (st : Stage) (w : CmdWord) : Cmd := { Cmd.empty with seq := seq, q := q, stage := st, word := w }

/-! ## Small tests: one step each -/

/-- 2^64 − 1 plus 1 wraps to 0. -/
theorem test_addi_wraps :
    (after (.integerOp (.ri .addi 10 11 1)) (withCtx (a1ctx (BitVec.allOnes 64)))).fc.get 10 = 0 := by decide
/-- A word addition sign-extends its 32 bits. -/
theorem test_addiw_extends :
    (after (.integerOp (.ri .addiw 10 11 1)) (withCtx (a1ctx 0x7FFFFFFF))).fc.get 10 = 0xFFFFFFFF80000000#64 := by decide
/-- Division by zero, and the overflow of division (R75, RISC-V). -/
theorem test_division_corners :
    ropVal .div 7 0 = BitVec.allOnes 64 ∧ ropVal .rem 7 0 = 7 ∧
    ropVal .div 0x8000000000000000#64 (BitVec.allOnes 64) = 0x8000000000000000#64 := by decide
/-- x0 discards what is written to it. -/
theorem test_x0 : (after (.integerOp (.ri .addi 0 11 1)) (withCtx (a1ctx 5))).fc.get 0 = 0 := by decide
/-- A taken branch back, and a jump to a target that is no multiple of 4 (R76). -/
theorem test_branches :
    (after (.branchJump (.br .eq 0 0 0x1FF0#13)) (withCtx { uctx with pc := 64 })).fc.pc = 48 ∧
    (after (.branchJump (.jal 1 6)) (withCtx { uctx with pc := 64 })).fc.csr.mcause = 0 ∧
    (after (.branchJump (.jal 1 6)) (withCtx { uctx with pc := 64 })).fc.csr.mtval = 70 := by decide
/-- A byte load sign-extends, an unsigned one does not. -/
theorem test_loads :
    (after (.load .b 10 11 0) (mapped (hearthOf (a1ctx 0x100000)) [(0x100000, 0x80)])).fc.get 10 = 0xFFFFFFFFFFFFFF80#64 ∧
    (after (.load .bu 10 11 0) (mapped (hearthOf (a1ctx 0x100000)) [(0x100000, 0x80)])).fc.get 10 = 0x80#64 := by decide
/-- A halfword store is little-endian (R239). -/
theorem test_store_bytes :
    (after (.store .h 12 11 0) (mapped (hearthOf (a12ctx 0x100000 0x12345)) [])).mem.bytes 0x100000 3 = [0x45, 0x23, 0] := by decide
/-- A store to instruction memory holds the context with the store access fault (R76, R325). -/
theorem test_store_imem :
    (after (.store .b 12 11 0) (mapped (hearthOf (a12ctx 0x3FFFF 1)) [])).fc.fault = some ⟨7, 0x3FFFF, false⟩ := by decide
/-- An address that is not canonical traps at once with cause 27 (R316). -/
theorem test_load_not_canonical :
    (after (.load .b 10 11 0) (withCtx (a1ctx 0x0200000000000000))).fc.csr.mcause = 27 := by decide
/-- amoadd.w gives the old value sign-extended and wraps at 32 bits. -/
theorem test_amoadd :
    let t := after (.amo ⟨.add, false, false, false, 10, 11, 12⟩)
      (mapped (hearthOf (a12ctx 0x100000 2)) [(0x100000, 0xFF), (0x100001, 0xFF), (0x100002, 0xFF), (0x100003, 0xFF)])
    t.fc.get 10 = BitVec.allOnes 64 ∧ t.mem.bytes 0x100000 4 = [1, 0, 0, 0] := by decide +kernel
/-- SC without a reservation writes 1 and stores nothing. -/
theorem test_sc_fails :
    let t := after (.amo ⟨.sc, false, false, false, 10, 11, 12⟩) (mapped (hearthOf (a12ctx 0x100000 2)) [])
    t.fc.get 10 = 1 ∧ t.mem.bytes 0x100000 4 = [0, 0, 0, 0] := by decide
/-- `k.tick` counts 100 MHz ticks of 16 cycles (R5, R118). -/
theorem test_tick : (after (.kTick 5) { withCtx uctx with cycle := 47 }).fc.get 5 = 2 := by decide
/-- `k.fladd` clamps at 0 (R104). -/
theorem test_fladd_clamps :
    ((after (.kFladd 3 12) (after (.kFlset 3 11) (withCtx (a12ctx 4 (-5))))).fh.flag 3 = 0) := by decide +kernel
/-- `k.sps` and `k.spl` at the last doubleword of spill memory (R117). -/
theorem test_spill :
    (after (.kSpl 10 4095) (after (.kSps 11 4095) (withCtx (a1ctx 0x1122334455667788)))).fc.get 10 = 0x1122334455667788#64 := by decide
/-- A ninth region raises the region-stack trap with its identifier (R34, R116). -/
theorem test_region_depth :
    (after (.kRgnEnter 9) (withCtx { uctx with rgn := [8, 7, 6, 5, 4, 3, 2, 1] })).fc.csr.mcause = 30 := by decide
/-- `MRET` gives back U mode and the interrupt enable (R75). -/
theorem test_mret :
    let t := after .mret (withCtx { mctx with csr := { mctx.csr with mstatus := 0x80, mepc := 0x103 } })
    t.fc.mode = .user ∧ t.fc.pc = 0x100 ∧ bit t.fc.csr.mstatus 3 = true := by decide
/-- `k.trap 9` is the software trap 31 with its own address to return to (R119, R327). -/
theorem test_ktrap :
    let t := after (.kTrap 9) (withCtx { uctx with pc := 16 })
    t.fc.csr.mcause = 31 ∧ t.fc.csr.mtval = 9 ∧ t.fc.csr.mepc = 16 ∧ t.fc.mode = .machine := by decide
/-- A window register: rows, pitch, length and base (R33). -/
def winReg (rows : BitVec 16) (pitch len : BitVec 22) (base : BitVec 21) : BitVec 128 :=
  0#16 ++ rows ++ 0#10 ++ pitch ++ 0#10 ++ len ++ 0#11 ++ base
/-- A window of 64 bytes at the end of the scratchpad is legal, one byte further is not, nor one without rows (R33, R109). -/
theorem test_window_end :
    winCheck (winReg 1 64 64 2097088) = none ∧ winCheck (winReg 1 64 64 2097089) = some 25 ∧
    winCheck (winReg 0 64 64 0) = some 25 ∧ winCheck (winReg 0 0 0 0) = none := by decide
/-- The operands of a command whose only field is its element type. -/
def ofType (t : BitVec 4) : CmdF := { noOperands with ty := t }

/-- exp2 of −2.5 in bf16, of −3 in fp32, and of −128 in fp32 (the examples of R133 and R70). -/
theorem test_exp2_examples :
    (exp2Elem (ofType 7) 0xC020).1 = 0x3E35 ∧ (exp2Elem (ofType 8) 0xC0400000).1 = 0x3E000000 ∧
    (exp2Elem (ofType 8) 0xC3000000).1 = 0x00400000 := by decide
/-- `v.clz.uint32` of 0x300 is 22 (R139). -/
theorem test_clz_example : clzN 32 0x300 = 22 ∧ clzN 8 0 = 8 := by decide
/-- 448 + 448 in e4m3 saturates to 448 or gives the NaN, 2.0 + 2.0 is 4.0 and 1.0 + 1.0 is 2.0 (R56). -/
theorem test_e4m3_sum :
    (Fmt.e4m3.encode .rne false (FVal.add .rne (Fmt.e4m3.decode 0x40) (Fmt.e4m3.decode 0x40)).1).1 = 0x48 ∧
    (Fmt.e4m3.encode .rne false (FVal.add .rne (Fmt.e4m3.decode 0x38) (Fmt.e4m3.decode 0x38)).1).1 = 0x40 ∧
    (Fmt.e4m3.encode .rne true (FVal.add .rne (Fmt.e4m3.decode 0x7E) (Fmt.e4m3.decode 0x7E)).1).1 = 0x7E ∧
    (Fmt.e4m3.encode .rne false (FVal.add .rne (Fmt.e4m3.decode 0x7E) (Fmt.e4m3.decode 0x7E)).1).1 = 0x7F := by decide
/-- 0.1 in fp32 narrows to 0x3DCD in bf16, with a residual of −13,107 × 2^−27 (the example of R71). -/
theorem test_narrowing_example :
    (narrowEf .fp32 .bf16 .rne false 0x3DCCCCCD).1 = 0x3DCD ∧
    Fmt.fp32.decode (narrowEf .fp32 .bf16 .rne false 0x3DCCCCCD).2.1 = Fmt.fp32.decode 0xB8CCCC00 := by decide
/-- Negative floats order below positive ones, and the order key reads back (R66). -/
theorem test_order_keys :
    orderKey .fp32 0xBF800000 < orderKey .fp32 0x3F800000 ∧ orderUnkey .fp32 (orderKey .fp32 0xBF800000) = 0xBF800000 ∧
    orderKey .int8 0xFF < orderKey .int8 0 := by decide
/-- A sort line comes out in its order. -/
theorem test_sort_line :
    (sortCells false [⟨3, 0⟩, ⟨1, 1⟩, ⟨2, 2⟩]).map (·.key) = [1, 2, 3] := by decide


/-! ## Witnesses: for every statement, and each clause of it, a state and operands that meet its hypotheses

Each theorem names the statement, and states its hypotheses of the state and the operands it chose. -/

/-- The divisions of `IntegerResultsAsExactIntegers`, and the counts of `BitCountsLocateBits`. -/
theorem witness_IntegerResults :
    ((7 : Word) ≠ 0 ∧ ¬ ((7 : Word) = 0x8000000000000000#64 ∧ (7 : Word) = BitVec.allOnes 64)) ∧
    (0x8000000000000000#64 : Word) ≠ 0 ∧ (BitVec.allOnes 64 : Word) ≠ 0 ∧ (0x100000000#64).toNat % 2 ^ 32 = 0 ∧
    (0x100000001#64).toNat % 2 ^ 32 ≠ 0 := by decide

/-- A condition that fails, one that holds, and targets of each form that are a multiple of 4 and that miss it. -/
theorem witness_BranchesGoOrTrap :
    let k := (withCtx (a1ctx 6)).fc
    ¬ (k.get 0 ≠ k.get 0) ∧ k.get 0 = k.get 0 ∧ k.mode = .user ∧
    (BitVec.ofInt 64 (k.pc.toInt + (8#13).toInt)).toNat % 4 = 0 ∧ (BitVec.ofInt 64 (k.pc.toInt + (6#21).toInt)).toNat % 4 ≠ 0 ∧
    ((BitVec.ofInt 64 ((k.get 11).toInt + (3#12).toInt)).toNat / 2 * 2) % 4 = 0 ∧
    ((BitVec.ofInt 64 ((k.get 11).toInt + (1#12).toInt)).toNat / 2 * 2) % 4 ≠ 0 := by decide +kernel

/-- A mapped doubleword at 0x100000, which a1 names. -/
def memS : State := mapped (hearthOf (a12ctx 0x100000 3)) [(0x100000, 7)]
/-- Its byte keys. -/
def keys8 : List Nat := (List.range 8).map (0x100000 + ·)

theorem witness_LoadReadsMemory :
    memS.fc.st = .running ∧ memS.fc.wait = .none ∧
    memS.resolve memS.foc .load (memS.fc.get 11 + (0#12).signExtend 64) (LoadW.d).bytes = .ok (.mem keys8) := by decide +kernel

theorem witness_StoreWritesItsBytes :
    memS.fc.st = .running ∧ memS.fc.wait = .none ∧
    memS.resolve memS.foc .store (memS.fc.get 11 + (0#12).signExtend 64) (StoreW.d).bytes = .ok (.mem keys8) := by decide +kernel

/-- The aperture: the last 8 bytes of the scratchpad, with nothing outstanding, and behind a write of the same granule by a command. -/
def apCtx : Ctx := a12ctx 0x00F00000001FFFF8 3
def apS : State := withHearth (hearthOf apCtx)
def apBusyS : State :=
  withHearth { hearthOf apCtx with nextSeq := 2, cmds := [{ cmdAt 1 .vector .started 0 with entries := [⟨true, 32767, 32767, []⟩] }] }

theorem witness_ApertureAccessesTheScratchpad :
    (apS.fc.st = .running ∧ apS.fc.wait = .none ∧
      apS.resolve apS.foc .load (apS.fc.get 11 + (0#12).signExtend 64) (LoadW.d).bytes = .ok (.aperture 2097144) ∧
      apS.apReady false 2097144 8 = true) ∧
    (apS.resolve apS.foc .store (apS.fc.get 11 + (0#12).signExtend 64) (StoreW.d).bytes = .ok (.aperture 2097144) ∧
      apS.apReady true 2097144 8 = true) ∧
    (apBusyS.fc.st = .running ∧ apBusyS.fc.wait = .none ∧
      apBusyS.resolve apBusyS.foc .store (apBusyS.fc.get 11 + (0#12).signExtend 64) (StoreW.d).bytes = .ok (.aperture 2097144) ∧
      apBusyS.apReady true 2097144 8 = false ∧
      apBusyS.resolve apBusyS.foc .load (apBusyS.fc.get 11 + (0#12).signExtend 64) (LoadW.d).bytes = .ok (.aperture 2097144) ∧
      apBusyS.apReady false 2097144 8 = false) := by decide +kernel

/-- The state of an access that waits in the aperture slot: the word stands in instruction memory at pc 0. -/
def apWaits (w : BitVec 32) : State :=
  withHearth { hearthOf { apCtx with st := .waiting, wait := .aperture 1 true 32767 32767 } with
    nextSeq := 2, imem := Mem.cells 0 (leBytes 4 w.toNat) }

/-- `ld a0, 0(a1)` and `sd a2, 0(a1)`. -/
theorem witness_WaitingApertureAccessPerforms :
    (let s := apWaits 0x0005B503#32
     s.frozen s.foc.h = false ∧ s.fc.st = .waiting ∧ s.fc.wait = .aperture 1 true 32767 32767 ∧
      decodeScalar (s.fetchWord s.foc) = .load .d 10 11 0 ∧
      s.resolve s.foc .load (s.fc.get 11 + (0#12).signExtend 64) 8 = .ok (.aperture 2097144) ∧ s.apReady false 2097144 8 = true) ∧
    (let s := apWaits 0x00C5B023#32
     s.frozen s.foc.h = false ∧ s.fc.st = .waiting ∧ s.fc.wait = .aperture 1 true 32767 32767 ∧
      decodeScalar (s.fetchWord s.foc) = .store .d 12 11 0 ∧
      s.resolve s.foc .store (s.fc.get 11 + (0#12).signExtend 64) 8 = .ok (.aperture 2097144) ∧ s.apReady true 2097144 8 = true) := by
  decide +kernel

/-- The same memory with a reservation on its line. -/
def resvS : State := mapped (hearthOf { a12ctx 0x100000 3 with resv := some (false, 8192) }) [(0x100000, 7)]

theorem witness_AtomicsReadAndWriteOnce :
    (memS.fc.st = .running ∧ memS.fc.wait = .none ∧ (memS.fc.get 11).toNat % 8 = 0 ∧ keys8.length = 8 ∧ keys8.Nodup ∧
      memS.resolve memS.foc .load (memS.fc.get 11) 8 = .ok (.mem keys8) ∧
      memS.resolve memS.foc .store (memS.fc.get 11) 8 = .ok (.mem keys8) ∧
      memS.resolve memS.foc .both (memS.fc.get 11) 8 = .ok (.mem keys8) ∧ memS.fc.resv ≠ some (false, keys8.headD 0 / 128)) ∧
    (resvS.fc.st = .running ∧ resvS.fc.wait = .none ∧ (resvS.fc.get 11).toNat % 8 = 0 ∧
      resvS.resolve resvS.foc .store (resvS.fc.get 11) 8 = .ok (.mem keys8) ∧
      resvS.fc.resv = some (false, keys8.headD 0 / 128)) := by decide +kernel

theorem witness_ClusterAtomicsFollowTheTable :
    memS.fc.st = .running ∧ memS.fc.wait = .none ∧ (memS.fc.get 11).toNat % 8 = 0 ∧ keys8.length = 8 ∧ keys8.Nodup ∧
    memS.amocForeign (memS.fc.get 11) 8 = false ∧ memS.resolve memS.foc .both (memS.fc.get 11) 8 = .ok (.mem keys8) ∧
    memS.amocCache true (memS.fc.get 11) (keys8.headD 0) = some (0, true) ∧ (keys8.headD 0 / 128, (0 : Fin 640)) ∉ memS.owned ∧
    (keys8.headD 0 / 128, (0 : Fin 640)) ∈ ({ memS with owned := [(8192, 0)] } : State).owned ∧
    (memS.setFc { memS.fc with wait := .owner }).fc.wait = .owner ∧ (memS.setFc { memS.fc with wait := .owner }).fc.st = .running := by
  decide +kernel

/-- `NoRecord`, of the states below. -/
theorem witness_NoRecord : State.reset.svc.recording = false ∧ State.reset.svc.replay = none := by decide +kernel

theorem witness_MisalignedAtomicsFault :
    let s := withCtx (a1ctx 0x100004)
    s.fc.mode = .user ∧ canonical (s.fc.get 11) = true ∧ (s.fc.get 11).toNat % 8 ≠ 0 := by decide +kernel

/-- `fpstat` exists and U mode may write it; `mscratch` exists in M mode; U mode may not reach it, and nothing has number 0xFFF
to it; `time` may be read and not written. -/
theorem witness_CsrInstructionsReadThenWrite :
    ((withCtx uctx).fc.st = .running ∧ (withCtx uctx).fc.wait = .none ∧ (withCtx uctx).csrRead (withCtx uctx).foc 0x800 = some 0 ∧
      csrAllowed .user 0x800 true = true ∧ csrAllowed .user 0x800 false = true ∧ nestCsr 0x800 = none) ∧
    (∀ n, n ∈ [0x300, 0x301, 0x304, 0x305, 0x306, 0x30A, 0x320, 0x33F, 0x340, 0x341, 0x342, 0x343, 0x344, 0x7C0, 0x801, 0xB00, 0xB02,
        0xB03, 0xB1F, 0xC00, 0xC01, 0xC02, 0xCC0] → ((withCtx mctx).csrRead (withCtx mctx).foc n).isSome = true ∧
      csrAllowed .machine n (decide (n < 0xC00)) = true ∧ nestCsr n = none ∧ (n ∈ [0x320, 0x33F, 0xB03, 0xB1F] → zeroCsr n = true)) ∧
    ((withCtx uctx).fc.mode = .user ∧ csrAllowed .user 0x340 false = false ∧ csrAllowed .user 0xC01 true = false ∧
      (withCtx uctx).csrRead (withCtx uctx).foc 0xFFF = none) := by decide +kernel

/-- An `mx.cfg` in flight (`ENG` 1, `OPC` 0). -/
def cfgS : State := withHearth { hearthOf uctx with cmds := [cmdAt 1 .matrix .started 0x100] }

theorem witness_NestCsrsWaitForTheTable :
    cfgS.fc.st = .running ∧ cfgS.fc.wait = .none ∧ cfgS.fh.cmds.map (fun d => (d.ctx, d.op)) = [(cfgS.foc.c, some .mxCfg)] ∧
    (withCtx uctx).fh.cmds = [] ∧ (withCtx uctx).fc.st = .running ∧ (withCtx uctx).fc.wait = .none ∧
    (∀ b : Bool, let s := withHearth { hearthOf uctx with cmds := [cmdAt 1 .matrix (if b then .queued else .started) 0x102] }
     s.fh.cmds.map (fun d => (d.ctx, d.op, d.stage)) = [(s.foc.c, some .mxGo, if b then .queued else .started)]) := by decide +kernel

theorem witness_TrapInstructions :
    (withCtx uctx).fc.mode = .user ∧ (withCtx uctx).fh.hob.sess = none ∧ (withCtx mctx).fc.mode = .machine := by decide +kernel

/-- A hearth that a Hob session holds. -/
def hobH (b : Hob) (k : Ctx) : Hearth := { hearthOf k with hob := { b with sess := some 1 } }
def hobS (b : Hob) : State := withHearth (hobH b uctx)

theorem witness_CallsAndStopsUnderPrivilege :
    (withCtx mctx).fc.mode = .machine ∧ (hobS Hob.reset).fh.hob.sess.isSome = true ∧ (hobS Hob.reset).fh.trace.bytes = 0 := by
  decide +kernel

theorem witness_MretRestoresModeAndPc : (withCtx mctx).fc.mode = .machine := by decide +kernel

/-- M-mode contexts with a pending interrupt that is not enabled, with none, in a `WFI` that is over, and in one that is not. -/
theorem witness_WfiEndsAtInterruptOrTimeout :
    (let s := withCtx { mctx with csr := { mctx.csr with mip := 0x800 } }
     s.frozen s.foc.h = false ∧ s.fc.mode = .machine ∧ s.fc.csr.mip ≠ 0) ∧
    (let s := withCtx mctx
     s.frozen s.foc.h = false ∧ s.fc.mode = .machine ∧ s.fc.csr.mip = 0) ∧
    (∀ b : Bool, let d := if b then 0 else 1000
     let s := withCtx { mctx with wait := .wfi d }
     s.frozen s.foc.h = false ∧ s.fc.wait = .wfi d ∧ (b = true → d ≤ s.tick)) ∧
    (3#6).toNat = 3 ∧ 16 ≤ (63#6).toNat := by decide +kernel

theorem witness_AsyncTrapsAreTakenInOrder :
    let s := withCtx { uctx with pend := [⟨29, 5, 0⟩, ⟨26, 6, 0⟩] }
    s.fc.st = .running ∧ s.fc.mode = .user ∧ s.fc.pend = ⟨29, 5, 0⟩ :: [⟨26, 6, 0⟩] ∧ s.frozen s.foc.h = false := by decide +kernel

/-- Flag 200 at 2^32 − 2: an addition of 1 reaches the top, one of −1 does not. -/
def flagS (v : Word) : State :=
  withHearth { hearthOf (a1ctx v) with flags := Vector.ofFn fun i : Fin 256 => if i = 200 then 0xFFFFFFFE#32 else 0 }

theorem witness_ScalarFlagInstructions :
    (let s := flagS (BitVec.allOnes 64)
     ((s.fh.flag 200).toNat : Int) + (s.fc.get 11).toInt < 4294967295 ∧ (s.fc.get 11).toInt ≤ 0) ∧
    (let s := flagS 1
     4294967295 ≤ ((s.fh.flag 200).toNat : Int) + (s.fc.get 11).toInt ∧ 0 < (s.fc.get 11).toInt ∧ s.fc.mode = .user) := by decide +kernel

/-- Windows in a1 and a2: one that ends with the scratchpad, one a byte longer, one without rows, one of length 0, and a reserved
bit. -/
theorem witness_WindowWritesAreChecked :
    let ok (w : BitVec 128) : Bool × Bool × Bool :=
      let a := (a12ctx (w.truncate 64) ((w >>> 64).truncate 64)).get 11
      let b := (a12ctx (w.truncate 64) ((w >>> 64).truncate 64)).get 12
      (decide (bitsN a 21 11 ≠ 0 ∨ bitsN a 54 10 ≠ 0 ∨ bitsN b 22 10 ≠ 0 ∨ bitsN b 48 16 ≠ 0), decide (bitsN a 32 22 = 0),
        decide (1 ≤ bitsN b 32 16 ∧ bitsN a 32 22 ≤ 2097152 ∧ bitsN b 0 22 ≤ 2097152 ∧
          bitsN a 0 21 + (bitsN b 32 16 - 1) * bitsN b 0 22 + bitsN a 32 22 ≤ 2097152))
    ok (winReg 1 64 64 2097088) = (false, false, true) ∧ ok (winReg 1 64 64 2097089) = (false, false, false) ∧
    ok (winReg 0 64 64 0) = (false, false, false) ∧ ok (winReg 0 0 0 0) = (false, true, false) ∧
    (ok (1#16 ++ 1#16 ++ 0#96)).1 = true ∧ (withCtx uctx).fc.mode = .user := by decide +kernel

/-- Region stacks of depth 7, 1, 8 and 0. -/
theorem witness_RegionStackPushesAndPops :
    (withCtx uctx).fh.trace.on = false ∧ (withCtx { uctx with rgn := [7, 6, 5, 4, 3, 2, 1] }).fc.rgn.length < 8 ∧
    (withCtx { uctx with rgn := [1] }).fc.rgn = 1 :: [] ∧
    (8 ≤ (withCtx { uctx with rgn := [8, 7, 6, 5, 4, 3, 2, 1] }).fc.rgn.length ∧
      (withCtx { uctx with rgn := [8, 7, 6, 5, 4, 3, 2, 1] }).fc.mode = .user) ∧
    ((withCtx uctx).fc.rgn = [] ∧ (withCtx uctx).fc.mode = .user) := by decide +kernel

/-- Arm contexts 1 and 2; a mask above bit 7; context 1 in both masks. -/
theorem witness_ArmChangesFreeAndArmedContexts :
    (let s := withCtx (a1ctx 0x06)
     bitsN (s.fc.get 11) 8 56 = 0 ∧ bitsN (s.fc.get 11) 0 4 &&& bitsN (s.fc.get 11) 4 4 = 0 ∧ s.fc.st = .running ∧ s.fh.arrQ = []) ∧
    (let s := withCtx (a1ctx 0x100)
     bitsN (s.fc.get 11) 8 56 ≠ 0 ∧ s.fc.mode = .user) ∧
    (let s := withCtx (a1ctx 0x22)
     bitsN (s.fc.get 11) 0 4 &&& bitsN (s.fc.get 11) 4 4 ≠ 0 ∧ s.fc.mode = .user) := by decide +kernel

/-- A zero element, under no guard, in registers of zeros; types of each width. -/
theorem witness_BitCountsOnZero :
    (let f := ofType 4
     let s := withCtx uctx
     0 < elems f.typ.width ∧ enabled f s.handCtx.ps f.typ.width 0 = true ∧ opnd s f 1 0 = 0) ∧
    (ofType 0).typ.width = 8 ∧ (ofType 2).typ.width = 16 ∧ (ofType 4).typ.width = 32 := by decide +kernel

/-! ### Waits -/

/-- A wait block at spill offset 0: flag 200 at least 5, with a take, and flag 7 equal to 0. -/
def waitCtx : Ctx :=
  { a12ctx 0 9 with spill := Mem.cells 0 (leBytes 16 (5 + 200 * 2 ^ 32 + 2 ^ 60) ++ leBytes 16 (7 * 2 ^ 32 + 2 ^ 61)) }
def waitConds : List Cond := [.flag 1 200 5, .flag 2 7 0]
/-- Two takes of 5 from flag 200. -/
def twiceCtx : Ctx := { waitCtx with spill := Mem.cells 0 (leBytes 16 (5 + 200 * 2 ^ 32 + 2 ^ 60) ++ leBytes 16 (5 + 200 * 2 ^ 32 + 2 ^ 60)) }
def twiceConds : List Cond := [.flag 1 200 5, .flag 1 200 5]
/-- Flags 200 and 7 hold the values given. -/
def waitS (k : Ctx) (u v : W32) : State :=
  withHearth { hearthOf k with flags := Vector.ofFn fun i : Fin 256 => if i = 200 then u else if i = 7 then v else 0 }

/-- A block that sets the second half of a flag condition; mode any with only the second condition; mode all with both, at the threshold;
no condition, one only, and a take above the flag, with and without a time-out. -/
theorem witness_WaitTakesItsConditions :
    (let s := waitS { waitCtx with spill := Mem.cells 8 [1] } 4 0
     let half (i : Nat) : Nat := leNat (s.fc.spill.bytes (64 * (0#8).toNat + 8 * i) 8)
     half 0 / 2 ^ 62 % 2 ^ 2 = 0 ∧ half 1 ≠ 0 ∧ s.fc.mode = .user) ∧
    (let s := waitS waitCtx 4 0
     s.fc.st = .running ∧ s.fc.wait = .none ∧ s.fc.conds (64 * (0#8).toNat) ((1#2).toNat + 1) = some waitConds ∧
      s.condHolds s.foc (.flag 1 200 5) = false ∧ s.condHolds s.foc (.flag 2 7 0) = true) ∧
    (let s := waitS waitCtx 5 0
     s.fc.conds (64 * (0#8).toNat) ((1#2).toNat + 1) = some waitConds ∧
      (∀ c, c ∈ waitConds → s.condHolds s.foc c = true) ∧ ∀ fl, takeSum waitConds fl ≤ (s.fh.flag fl).toNat) ∧
    (let s := waitS waitCtx 4 1
     s.fc.conds (64 * (0#8).toNat) ((1#2).toNat + 1) = some waitConds ∧
      (∀ c, c ∈ waitConds → s.condHolds s.foc c = false) ∧ waitConds ≠ [] ∧ s.fc.get 11 = 0 ∧ s.fc.get 12 ≠ 0 ∧
      s.tick < 2 ^ 64 - 1) ∧
    (let s := waitS twiceCtx 9 0
     s.fc.conds (64 * (0#8).toNat) ((1#2).toNat + 1) = some twiceConds ∧
      (∀ c, c ∈ twiceConds → s.condHolds s.foc c = true) ∧ (s.fh.flag 200).toNat < takeSum twiceConds 200) := by decide +kernel

/-- Such states are blocked: no condition holds, one does not, or the takes do not fit. -/
theorem witness_WaitBlocked :
    WaitBlocked (waitS waitCtx 4 1) false waitConds ∧ WaitBlocked (waitS waitCtx 4 0) true waitConds ∧
    WaitBlocked (waitS twiceCtx 9 0) true twiceConds :=
  ⟨.inl ⟨rfl, by decide +kernel⟩, .inr ⟨rfl, .inl ⟨.flag 1 200 5, by decide +kernel⟩⟩, .inr ⟨rfl, .inr ⟨200, by decide +kernel⟩⟩⟩

/-- The same block, waiting: met in each mode, expired, before its deadline, and without end. -/
theorem witness_WaitsReturnWhenMetOrExpired :
    (∀ all : Bool, let s := waitS { waitCtx with st := .waiting, wait := .kwait 10 0 2 all 0 } 5 0
     s.frozen s.foc.h = false ∧ s.fc.st = .waiting ∧ s.fc.wait = .kwait 10 0 2 all 0 ∧ s.fc.conds 0 2 = some waitConds ∧
      (∀ c, c ∈ waitConds → s.condHolds s.foc c = true) ∧ ∀ fl, takeSum waitConds fl ≤ (s.fh.flag fl).toNat) ∧
    (∀ b : Bool, let s := waitS { waitCtx with st := .waiting, wait := .kwait 10 0 2 false (if b then 1 else 0) } 4 1
     s.fc.conds 0 2 = some waitConds ∧ (∀ c, c ∈ waitConds → s.condHolds s.foc c = false) ∧ decide (s.tick < if b then 1 else 0) = b ∧
      decide ((if b then 1 else 0) ≤ s.tick) = (!b) ∧ (if b then 1 else 0) ≠ 2 ^ 64 - 1) ∧
    (let s := waitS { waitCtx with st := .waiting, wait := .kwait 10 0 2 true (2 ^ 64 - 1) } 4 1
     s.frozen s.foc.h = false ∧ s.fc.wait = .kwait 10 0 2 true (2 ^ 64 - 1) ∧ s.fc.conds 0 2 = some waitConds) := by decide +kernel

/-- A group word at 0x100000, named with the slot of a1, and a limit in a2. -/
def grpS (slot : Word) (g : BitVec 512) : State :=
  mapped (hearthOf (a12ctx (0x100000 + slot) 64)) (Mem.cells 0x100000 (leBytes 64 g.toNat))
def keys64 : List Nat := (List.range 64).map (0x100000 + ·)

/-- Make with limit 64 and with 0, and of a name that is no word; a malformed word; join of a full word and at slot 1; leave and arrive of
the last member and of another one; an arrived slot, whose leave completes no barrier, and one whose leave completes it; a slot that is
no member; a release. -/
theorem witness_GroupInstructionsUpdateTheWord :
    (let s := grpS 0 0
     s.fc.st = .running ∧ s.fc.wait = .none ∧ s.resolve s.foc .both (grpAddr (s.fc.get 11)) 64 = .ok (.mem keys64) ∧
      keys64.Nodup ∧ keys64.length = 64 ∧ s.fc.get 11 = grpAddr (s.fc.get 11) ∧ 1 ≤ (s.fc.get 12).toNat ∧ (s.fc.get 12).toNat ≤ 64 ∧
      (s.fc.get 0).toNat = 0 ∧ s.fc.mode = .user ∧ grpMalformed (ofBytes512 (keys64.map s.mem.read)) = true) ∧
    (let s := grpS 1 0
     s.resolve s.foc .both (grpAddr (s.fc.get 11)) 64 = .ok (.mem keys64) ∧ s.fc.get 11 ≠ grpAddr (s.fc.get 11) ∧
      canonical (s.fc.get 11) = true) ∧
    (let s := grpS 0 (grpWord 3 2 3 1)
     let g := ofBytes512 (keys64.map s.mem.read)
     grpMalformed g = false ∧ popCount 64 (grpMembers g) = grpLimit g ∧
      (grpMembers g).testBit 0 = true ∧ (grpArrived g).testBit 0 = true ∧ grpMembers g - 2 ^ 0 ≠ 0 ∧
      grpArrived g - 2 ^ 0 ≠ grpMembers g - 2 ^ 0 ∧
      s.resolve s.foc .load (grpAddr (s.fc.get 11)) 64 = .ok (.mem keys64) ∧ s.frozen s.foc.h = false ∧ grpGen g ≠ 2) ∧
    (let s := grpS 1 (grpWord 3 4 1 0)
     let g := ofBytes512 (keys64.map s.mem.read)
     grpMalformed g = false ∧ (grpMembers g).testBit 1 = false ∧ (∀ j, j < 1 → (grpMembers g).testBit j = true) ∧
      popCount 64 (grpMembers g) ≠ grpLimit g ∧ (grpMembers g).testBit (grpSlot (s.fc.get 11)) = false) ∧
    (let s := grpS 1 (grpWord 3 2 3 1)
     let g := ofBytes512 (keys64.map s.mem.read)
     grpMalformed g = false ∧ (grpMembers g).testBit (grpSlot (s.fc.get 11)) = true ∧
      (grpArrived g).testBit (grpSlot (s.fc.get 11)) = false ∧ grpArrived g + 2 ^ grpSlot (s.fc.get 11) = grpMembers g ∧
      grpMembers g - 2 ^ grpSlot (s.fc.get 11) = grpArrived g ∧ grpArrived g ≠ 0) ∧
    (let s := grpS 1 (grpWord 3 3 7 1)
     let g := ofBytes512 (keys64.map s.mem.read)
     grpMalformed g = false ∧ (grpMembers g).testBit (grpSlot (s.fc.get 11)) = true ∧
      (grpArrived g).testBit (grpSlot (s.fc.get 11)) = false ∧ grpArrived g + 2 ^ grpSlot (s.fc.get 11) ≠ grpMembers g) := by
  decide +kernel

/-! ### Issue, turns and spawns -/

/-- An image of one code word and one command slot, whose word is given, with its substitution descriptors. -/
def imgOf (w : CmdWord) (ds : List Desc) : Image :=
  { id := 1, wq := 0, sec := false, lmtrap := false, trapOff := none, code := leBytes 4 0x0200400B, cmds := [w], descs := ds,
    grants := [], data := [] }
/-- A hearth that holds it. -/
def imgH (k : Ctx) (w : CmdWord) (ds : List Desc) : Hearth :=
  { hearthOf k with img := some (imgOf w ds), imem := (imgOf w ds).imem }

/-- `fl.add` of 5 to flag 200, and the same with an unused element type set, which is no legal command. -/
def flAddWord : CmdWord := ({ noOperands with opd0 := 0x1C00C8, imm := 5 } : CmdF).toWord 5 1
def badWord : CmdWord := ({ noOperands with opd0 := 0x1C00C8, imm := 5, ty := 1 } : CmdF).toWord 5 1
/-- `fl.add` of an amount that is filled in, and the descriptor of its slot: place 1 is `IMM`, and the second is unused. -/
def flAddOpen : CmdWord := ({ noOperands with opd0 := 0x1C00C8 } : CmdF).toWord 5 1
def immDesc : Desc := ⟨1, 1, 0⟩

/-- Each part of `CanAccept`, as data. -/
def canAccept (s : State) (w : CmdWord) (ws : Vector (Option WinOp) 5) : Bool :=
  decide ((∀ c, c ≠ s.foc.c → (s.fh.ctx c).st ≠ .waiting) ∧ s.fh.hob.stopped = false ∧ s.fh.hob.step = none ∧
    s.fh.halted = false ∧ s.fh.halting = false ∧ s.fh.queueLen (queueOf w) < 32 ∧
    s.fh.usedEntries + (((cmdOp w).map fun o => cmdEntries o (CmdF.ofWord w) ws).getD []).length ≤ 96 ∧
    (CmdF.ofWord w).traced = false)

theorem witness_IssueAppendsTheWord :
    (let s := withHearth (imgH uctx flAddWord [])
     s.fh.slotOk 1 = true ∧ s.fc.st = .running ∧ s.fh.slotWord 1 = flAddWord ∧ s.fh.descOf 1 = none ∧
      checkCmd s.fh s.fc flAddWord = none ∧ canAccept s flAddWord (captureWins s.fc flAddWord) = true) ∧
    (let s := withHearth (imgH (a12ctx 5 0) flAddOpen [immDesc])
     s.fh.slotOk 1 = true ∧ s.fc.st = .running ∧ s.fh.slotWord 1 = flAddOpen ∧ s.fh.descOf 1 = some immDesc ∧ s.fc.mode = .user ∧
      substitute flAddOpen immDesc (s.fc.get 11) (s.fc.get 12) = some flAddWord ∧
      checkCmd s.fh s.fc flAddWord = none ∧ canAccept s flAddWord (captureWins s.fc flAddWord) = true) ∧
    (let s := withHearth { imgH uctx flAddWord [] with cmds := List.replicate 32 (cmdAt 1 (queueOf flAddWord) .queued flAddWord) }
     s.fh.slotOk 1 = true ∧ s.fh.descOf 1 = none ∧ checkCmd s.fh s.fc (s.fh.slotWord 1) = none ∧
      s.fh.queueLen (queueOf (s.fh.slotWord 1)) = 32 ∧ ∀ c, c ≠ s.foc.c → (s.fh.ctx c).st ≠ .waiting) := by decide +kernel

theorem witness_IssueTrapsOnBadWords :
    let s := withHearth (imgH uctx badWord [])
    s.fc.mode = .user ∧ s.fh.slotOk 0 = false ∧ s.fh.slotOk 1 = true ∧ s.fh.descOf 1 = none ∧
    checkCmd s.fh s.fc (s.fh.slotWord 1) = some 24 := by decide +kernel

/-- `v.ld` of bytes through window 0, in a context whose window 0 is given. -/
def vLdWord : CmdWord := ({ noOperands with opd0 := 0x40000, opd1 := 0xC0000 } : CmdF).toWord 0 0x90
def win0Ctx (w : BitVec 128) : Ctx := { uctx with ws := uctx.ws.set 0 w }

/-- A word of an engine that is not assigned; a legal one with its window at the end of the scratchpad, and with an invalid window. -/
theorem witness_IssueChecksFollowTheRules :
    6 ≤ fld 0x600 8 4 ∧
    (let k := win0Ctx (winReg 16 256 256 2093056)
     let f := CmdF.ofWord vLdWord
     let p := winOp k (f.opd 1)
     legalCmd Hearth.reset k vLdWord = true ∧ cmdOp vLdWord = some .vLd ∧ (winReqs .vLd f).map (·.pos) = [1] ∧
      winLen k.ws[0] ≠ 0 ∧ winBase k.ws[0] + (winRows k.ws[0] - 1) * winPitch k.ws[0] + winLen k.ws[0] ≤ 2097152 ∧
      winOffset k (f.opd 1) < 2097152 ∧ p.a0 + (p.rows - 1) * p.pitch + p.len ≤ 2097152) ∧
    (legalCmd Hearth.reset (win0Ctx 0) vLdWord = true ∧ winLen (win0Ctx 0).ws[0] = 0) := by decide +kernel

theorem witness_DrainWaitsForItsCommands :
    (let s := withCtx uctx
     (∀ d, d ∈ s.fh.cmds → d.ctx ≠ s.foc.c) ∧ s.fc.st = .running ∧ s.fc.wait = .none) ∧
    (let s := cfgS
     (s.fh.cmds.any fun d => d.ctx == s.foc.c && !d.ended) = true) ∧
    (let s := withHearth { hearthOf { uctx with st := .waiting, wait := .drain .go } with
       cmds := [{ cmdAt 1 .copy .started 0x300 with ended := true }] }
     (∀ d, d ∈ s.fh.cmds → d.ctx = s.foc.c → d.ended = true) ∧ s.frozen s.foc.h = false ∧ s.fc.st = .waiting ∧ s.fc.wait = .drain .go) := by
  decide +kernel

/-- A record of image 1 that enters at its first instruction, with its kind and its join counter. -/
def recOf (kind join : Nat) : BitVec 512 := BitVec.ofNat 512 (kind * 2 ^ 236 + 2 ^ 304 + join * 2 ^ 352)
/-- Queue 0 has the record at 0x100000 in the queue state given, under image 1, at a hearth that runs context `k`. -/
def recS (k : Ctx) (qst : BitVec 3) (kind join : Nat) : State :=
  { mapped (imgH k flAddWord []) (Mem.cells 0x100000 (bytes512 (recOf kind join))) with
    svc := { State.reset.svc with images := [imgOf flAddWord []] },
    qm := { State.reset.qm with recs := [⟨0x100000, 0, 0, qst, false, 0, 0, false, false, 0⟩] } }
/-- The context that runs it, with entry 0 in a1. -/
def taskCtx : Ctx := { uctx with run := .task 0x100000 0 }

/-- The keys of 64 bytes from a key on. -/
def keysAt (k : Nat) : List Nat := (List.range 64).map (k + ·)

/-- `RecMem` at a key of the first GiB of owner 0, as data. -/
def recMem (s : State) (k : Nat) : Bool :=
  decide (rangeOk (BitVec.ofNat 64 k) 64 = true ∧ ownerOf (BitVec.ofNat 64 k) < 5 ∧ (keysAt k).Nodup ∧
    s.xlatN (s.queueAgent 0) .load (BitVec.ofNat 64 k) 64 = .ok (keysAt k) ∧
    s.xlatN (s.queueAgent 0) .store (BitVec.ofNat 64 k) 64 = .ok (keysAt k))

/-- An ember context; a record with and without children, which completes nothing else; the entry of a1; an entry behind the code; a
context with a command outstanding, which a refusal has ended or not; a page of the record's space that is being migrated; a context that
waits. -/
theorem witness_TurnsEndAsTheTableSays :
    (let s := recS { uctx with run := .ember } 1 0 0
     s.fh.cmds = [] ∧ s.fh.arrQ = [] ∧ s.fc.run = .ember ∧ s.fc.mode = .user ∧ s.fc.st = .running ∧ s.fc.wait = .none) ∧
    (∀ j : Fin 2, let s := recS taskCtx 1 0 j.val
     let w := recBits s (keysAt 0x100000)
     s.fh.cmds = [] ∧ s.fh.arrQ = [] ∧ s.fc.run = .task 0x100000 0 ∧ s.queueMoving 0 = false ∧ s.refOf 0 0x100000 = some ⟨0x100000, 0, 0, 1, false, 0, 0, false, false, 0⟩ ∧
      recMem s 0x100000 = true ∧ recJoin w = j.val ∧ recParent w = 0 ∧ recCfen w = false ∧ s.qm.graphs = [] ∧
      (s.fc.get 11).toNat % 4 = 0 ∧ (s.fc.get 11).toNat < (s.fh.img.map (·.code.length)).getD 0 ∧
      (s.fh.img.map (·.code.length)).getD 0 ≤ 2 ^ 18 ∧ s.fc.pc.toNat + 4 < 2 ^ 18) ∧
    (let s := recS { taskCtx with xs := taskCtx.xs.set 11 4 } 1 0 0
     (s.fh.img.map (·.code.length)).getD 0 ≤ (s.fc.get 11).toNat ∧ s.fc.mode = .user ∧ s.fc.st = .running ∧ s.fc.wait = .none) ∧
    (∀ b : Bool, let c : Cmd := { cmdAt 1 .vector .started 0 with ended := b }
     ((recS taskCtx 1 0 0).setFh { (recS taskCtx 1 0 0).fh with cmds := [c] }).fh.cmds.map (fun d => (d.ctx, d.ended)) = [(0, b)]) ∧
    (let s0 := recS taskCtx 1 0 0
     let s := { s0 with svc := { s0.svc with moving := [⟨0, 9, 0, 2 ^ 30, 0, 0⟩] } }
     s.fc.run = .task 0x100000 0 ∧ s.queueMoving 0 = true) ∧
    (∀ k : Fin 3, let a : AfterDrain := if k = 0 then .done else if k = 1 then .susp 0 else .yield
     let s := recS { taskCtx with st := .waiting, wait := .drain a } 1 0 0
     s.fh.cmds = [] ∧ s.frozen s.foc.h = false ∧ s.fc.st = .waiting ∧ s.fc.wait = .drain a ∧ (s.fc.get 11).truncate 18 = 0#18) := by
  decide +kernel

/-- A child at 0x100000 whose parent is the running record at 0x100040. -/
def spawnS : State :=
  { recS { a12ctx 0x100000 1 with run := .task 0x100040 0 } 0 0 0 with
    mem := (recS uctx 0 0 0).mem ++ Mem.cells 0x100038 (leBytes 8 0x100040)
    qm := { State.reset.qm with recs := [⟨0x100040, 0, 0, 1, false, 0, 0, false, false, 0⟩] } }

/-- No child, 65 children, a child that is not aligned, one legal child, and one that is malformed. -/
theorem witness_SpawnQueuesItsChildren :
    ((withCtx (a12ctx 0 0)).fc.get 12).toNat = 0 ∧
    (64 < ((withCtx (a12ctx 0 65)).fc.get 12).toNat ∧ (withCtx (a12ctx 0 65)).fc.mode = .user) ∧
    (let s := withCtx (a12ctx 0x100001 64)
     0 < (s.fc.get 12).toNat ∧ (s.fc.get 12).toNat ≤ 64 ∧ (s.fc.get 11).toNat % 64 ≠ 0 ∧ s.fc.mode = .user) ∧
    (let s := spawnS
     let c := ofBytes512 ((s.unitRead (s.queueAgent 0) 0x100000 64).getD [])
     (s.fc.get 12).toNat = 1 ∧ (s.fc.get 11).toNat % 64 = 0 ∧ rangeOk (s.fc.get 11) 64 = true ∧
      s.spawnOf s.foc = some (0, 0) ∧ s.spawnFault s.foc 0 (childAddrs 0x100000 1) = none ∧ childAddrs 0x100000 1 = [0x100000#64] ∧
      s.recOk 0 c = true ∧ recParent c = 0x100040 ∧ s.parentMoving 0 0x100040 = false ∧ joinRoom s 0 [0x100040] 0x100040 = true) ∧
    (let s := recS { a12ctx 0x100000 1 with run := .ember } 0 3 0
     s.spawnOf s.foc = some (0, 0) ∧ s.spawnFault s.foc 0 (childAddrs 0x100000 1) = none ∧ s.fc.mode = .user ∧
      s.recOk 0 (ofBytes512 ((s.unitRead (s.queueAgent 0) 0x100000 64).getD [])) = false) ∧
    (let s := withCtx { uctx with st := .waiting, wait := .spawn }
     s.frozen s.foc.h = false ∧ s.fc.st = .waiting ∧ s.fc.wait = .spawn) := by decide +kernel

/-- The tables of `mapped` give the first GiB its leaf, whatever else a memory holds. -/
theorem walk_mapped {m : Mem} {a : Word} (h : ∀ x, x < 0x100000 → m.read x = spawnS.mem.read x) (h1 : bitsN a 39 13 = 0)
    (h2 : bitsN a 30 9 = 0) : walk m 0 a walkLevels 0x10000 = .ok (0x1F, 30) := by
  have e1 : tableEntry m 0 0x10000 = 0x20001 := by
    simp only [tableEntry, physKey, Mem.bytes, Nat.zero_mul, Nat.zero_add]
    rw [h _ (by omega), h _ (by omega), h _ (by omega), h _ (by omega), h _ (by omega), h _ (by omega), h _ (by omega), h _ (by omega)]
    decide +kernel
  have e2 : tableEntry m 0 0x20000 = 0x1F := by
    simp only [tableEntry, physKey, Mem.bytes, Nat.zero_mul, Nat.zero_add]
    rw [h _ (by omega), h _ (by omega), h _ (by omega), h _ (by omega), h _ (by omega), h _ (by omega), h _ (by omega), h _ (by omega)]
    decide +kernel
  have e3 : bitsN (0x20001 : Word) 16 32 * 65536 = 0x20000 := by decide
  rw [walkLevels, walk, h1, Nat.mul_zero, Nat.add_zero, e1, walk, e3, h2, Nat.mul_zero, Nat.add_zero, e2]
  rw [if_neg (by decide), if_neg (by decide), if_neg (by decide), if_neg (by decide), if_neg (by decide), if_neg (by decide),
    if_pos (by decide), if_neg (by decide)]

theorem leaf_of_walk {s : State} {m : Mem} {ag : Agent} {a : Word} {r : Nat} (h : s.rootOf ag a = some r)
    (hw : walk m (ownerOf a) a walkLevels r = walk s.mem (ownerOf a) a walkLevels r) :
    State.leaf { s with mem := m } ag a = s.leaf ag a := by
  have h' : State.rootOf { s with mem := m } ag a = some r := h
  simp only [State.leaf, h, h', hw]

theorem xlat_of_leaf {s : State} {m : Mem} {ag : Agent} {k : AccKind} {a : Word}
    (h : State.leaf { s with mem := m } ag a = s.leaf ag a) : State.xlat { s with mem := m } ag k a = s.xlat ag k a := by
  simp only [State.xlat, h]; rfl

theorem xlatN_of_xlat {s : State} {m : Mem} {ag : Agent} {k : AccKind} (n : Nat) (a : Word)
    (h : ∀ i, i < n → State.xlat { s with mem := m } ag k (a + BitVec.ofNat 64 i) = s.xlat ag k (a + BitVec.ofNat 64 i)) :
    State.xlatN { s with mem := m } ag k a n = s.xlatN ag k a n := by
  induction n generalizing a with
  | zero => rfl
  | succ n ih =>
    have h0 := h 0 (by omega)
    have e : ∀ i, a + BitVec.ofNat 64 (i + 1) = a + 1 + BitVec.ofNat 64 i := fun i => by
      apply BitVec.eq_of_toNat_eq; simp [BitVec.toNat_add]; omega
    have ih' := ih (a + 1) fun i hi => by have := h (i + 1) (by omega); rwa [e] at this
    simp only [BitVec.add_zero] at h0
    simp only [State.xlatN, h0, ih']

/-- Every byte of the child and of its parent lies in the first GiB of owner 0. -/
theorem spawn_bytes : ∀ (k : Fin 2) (i : Fin 64), let a := BitVec.ofNat 64 (0x100000 + 64 * k.val) + BitVec.ofNat 64 i.val
    bitsN a 39 13 = 0 ∧ bitsN a 30 9 = 0 ∧ ownerOf a = 0 ∧ spawnS.rootOf (spawnS.queueAgent 0) a = some 0x10000 := by decide +kernel

theorem spawn_recMem : ∀ k : Fin 2, recMem spawnS (0x100000 + 64 * k.val) = true := by decide +kernel

/-- The 64 bytes at an address translate as in `spawnS` while the tables stand. -/
theorem recMem_stands {m : Mem} (k : Fin 2) (h : ∀ x, x < 0x100000 → m.read x = spawnS.mem.read x) :
    RecMem { spawnS with mem := m } 0 (BitVec.ofNat 64 (0x100000 + 64 * k.val)) (keysAt (0x100000 + 64 * k.val)) := by
  have e : ∀ ac, State.xlatN { spawnS with mem := m } (spawnS.queueAgent 0) ac (BitVec.ofNat 64 (0x100000 + 64 * k.val)) 64 =
      spawnS.xlatN (spawnS.queueAgent 0) ac (BitVec.ofNat 64 (0x100000 + 64 * k.val)) 64 := fun ac =>
    xlatN_of_xlat 64 _ fun i hi => by
      obtain ⟨h1, h2, h3, h4⟩ := spawn_bytes k ⟨i, hi⟩
      refine xlat_of_leaf (leaf_of_walk h4 ?_)
      rw [h3]
      exact (walk_mapped h h1 h2).trans (walk_mapped (fun _ _ => rfl) h1 h2).symm
  have q := spawn_recMem k
  simp only [recMem, decide_eq_true_eq] at q
  exact ⟨q.1, q.2.1, q.2.2.1, (e .load).trans q.2.2.2.1, (e .store).trans q.2.2.2.2⟩

/-- No table of `spawnS` lies in its child or in its parent. -/
theorem witness_RecsStand : RecsStand spawnS 0 ([0x100000] ++ [0x100040]) fun a => keysAt a.toNat := by
  have hin : ∀ b, b ∈ [0x100000#64] ++ [0x100040#64] → ∃ k : Fin 2, b = BitVec.ofNat 64 (0x100000 + 64 * k.val) ∧
      b.toNat = 0x100000 + 64 * k.val := by
    intro b hb
    simp only [List.cons_append, List.nil_append, List.mem_cons, List.not_mem_nil, or_false] at hb
    rcases hb with rfl | rfl
    · exact ⟨0, by decide⟩
    · exact ⟨1, by decide⟩
  refine ⟨fun b hb m hm => ?_, fun b c hb hc hne x hx hx' => ?_⟩
  · obtain ⟨k, e, e'⟩ := hin b hb
    subst e
    suffices hk : ∀ x, x < 0x100000 → m.read x = spawnS.mem.read x by
      have q := recMem_stands k hk
      show RecMem { spawnS with mem := m } 0 _ (keysAt _)
      rw [e']
      exact q
    refine fun x hx => hm x fun c hc => ?_
    obtain ⟨j, -, hj⟩ := hin c hc
    simp only [keysAt, hj, List.mem_map, List.mem_range]
    rintro ⟨i, -, rfl⟩
    omega
  · obtain ⟨k, eb, hb'⟩ := hin b hb
    obtain ⟨l, ec, hc'⟩ := hin c hc
    simp only [keysAt, hb', hc', List.mem_map, List.mem_range] at hx hx'
    obtain ⟨i, hi, rfl⟩ := hx
    obtain ⟨j, hj, e⟩ := hx'
    have : k.val = l.val := by omega
    exact hne (by rw [eb, ec, this])


/-! ### Commands of the engines -/

/-- The last type of the integers, a float type and a shared-block type; moves with their immediates at the ends of their ranges; the
second predicate form; a 32-bit gather. -/
theorem witness_VectorOperands :
    (∀ t : Fin 6, (ofType (BitVec.ofNat 4 t.val)).typ.isFloat = false) ∧
    ((ofType 6).typ.isFloat = true ∧ (ofType 10).typ.isFloat = true) ∧
    ((ofType 11).typ.isPb = true) ∧
    ({ noOperands with opd4 := 1 } : CmdF).v 0 ≠ ({ noOperands with opd4 := 1 } : CmdF).v 4 ∧
    (({ noOperands with opd2 := 0x20000 } : CmdF).imm18 2 = -(131072 : Int) ∧
      ({ noOperands with opd2 := 0x1FFFF } : CmdF).imm18 2 = (131071 : Int) ∧ ({ noOperands with opd3 := 1 } : CmdF).pay 3 < 2) ∧
    (({ noOperands with opd0 := 0x80000 } : CmdF).kind 0 = 2 ∧ ({ noOperands with opd0 := 0x40000 } : CmdF).kind 0 ≠ 2) ∧
    (ofType 4).typ.width = 32 := by decide +kernel

/-- The largest finite fp32 number, the smallest one, and a zero. -/
theorem witness_RepresentableValuesRoundToThemselves :
    ∀ b : Fin 3, let bits := if b = 0 then 0x7F7FFFFF else if b = 1 then 1 else 0x80000000
    bits < 2 ^ Fmt.fp32.width ∧ Fmt.fp32.isNan bits = false ∧ Fmt.fp32.decode bits ≠ .inf false ∧
    Fmt.fp32.decode bits ≠ .inf true := by decide +kernel

/-- A command in the hand with three windows: rows of 2,048 bytes at 4,096, and 64 bytes each at 0 and 16,384. -/
def wk : Cmd :=
  { Cmd.empty with seq := 1, wins := #v[some ⟨4096, 2048, 2048, 128⟩, some ⟨0, 64, 64, 1⟩, some ⟨16384, 64, 64, 1⟩, none, none] }
/-- The engine of a hearth holds it, with the units it may perform and some bytes of the scratchpad. -/
def engH (c : Cmd) (quota : Nat) (sp : Mem) : Hearth := { hearthOf uctx with hand := c, quota := quota, scratch := sp }
def engS (c : Cmd) : State := mapped (engH c 1 []) []
def engM (c : Cmd) (sp : Mem) : State := mapped (engH c 1 sp) []
/-- `OneUnit`, as data. -/
def oneUnit (s : State) : Bool :=
  decide (s.fh.quota = 1 ∧ s.hand.performed = false ∧ s.hand.hold = none ∧ s.fh.earlier s.hand.seq = [])
theorem one_unit_of {s : State} (h : oneUnit s = true) : OneUnit s := by
  simpa [oneUnit, OneUnit] using h

theorem witness_BankLoadCopiesRows :
    let s := withHearth (engH wk 128 [])
    s.hand.performed = false ∧ s.hand.pos = 0 ∧ 128 ≤ s.fh.quota := by decide +kernel

/-- A latched bank, and a row that lies in the window. -/
theorem witness_NestRowAccumulates :
    let s := withHearth { engH wk 1 [] with banks := Vector.replicate 8 { Bank.reset with latch := some .int8 } }
    oneUnit s = true ∧ (s.fh.banks[(0 : Fin 8)]).latch = some .int8 ∧ nestSum s.hand.nest.toList (·.sa) s.hand.pos = 0 ∧
    (4096 : Int) + (rowBytes (ofType 1).typ : Int) - 1 ≤ ((s.hand.win 0).last : Int) ∧ (s.hand.win 0).a0 = 4096 := by decide +kernel

/-- The last row of a clearing drain. -/
theorem witness_DrainRowConvertsOnce :
    let f : CmdF := { ofType 8 with opd3 := 4 }
    let s := engS { wk with pos := 127 }
    oneUnit s = true ∧ s.hand.pos < 128 ∧ f.pay 3 % 4 = 0 ∧ f.typ.isPb = false := by decide +kernel

/-- The last row of a clearing histogram drain, whose bins lie between two rows; the first row of a softmax drain of accumulator 0 with
its output in accumulator 1; the last row of a clearing normalise drain. -/
theorem witness_DrainForms :
    (let f : CmdF := { ofType 8 with opd3 := 5 }
     let s := engS { wk with pos := 127, wins := wk.wins.set 2 (some ⟨5120, 128, 128, 1⟩) }
     oneUnit s = true ∧ s.hand.pos = 127 ∧ f.pay 3 % 4 = 1 ∧ f.typ.isPb = false ∧ s.hand.late = [] ∧
      ∀ r : Fin 128, (s.hand.win 0).a0 + r.val * (s.hand.win 0).pitch + rowBytes f.typ ≤ (s.hand.win 2).a0 ∨
        (s.hand.win 2).a0 + 128 ≤ (s.hand.win 0).a0 + r.val * (s.hand.win 0).pitch) ∧
    (let f : CmdF := { ofType 8 with opd2 := 1, opd3 := 2 }
     oneUnit (engS wk) = true ∧ (engS wk).hand.pos < 128 ∧ f.pay 3 % 4 = 2 ∧ Fin.ofNat 8 (f.pay 1) ≠ Fin.ofNat 8 (f.pay 2)) ∧
    (let f : CmdF := { ofType 8 with opd3 := 7 }
     let s := engS { wk with pos := 127 }
     oneUnit s = true ∧ s.hand.pos < 128 ∧ f.pay 3 % 4 = 3 ∧ f.typ.isFloat = true) := by decide +kernel

/-- Before the first phase, before the last, and behind it. -/
theorem witness_SortPhasesPermuteAndOrder :
    (let s := engS wk
     let f : CmdF := { noOperands with opd1 := 1 }
     s.fh.quota = 1 ∧ s.hand.performed = false ∧ s.fh.sa.phase < 17 ∧ s.hand.pos = 0 ∧ s.hand.pos < f.pay 1) ∧
    (∀ b : Bool, let n := if b then 17 else 16
     let s := withHearth { engH { wk with pos := n } 1 [] with sa := { SortArr.reset with phase := n, smode := .sort } }
     s.fh.quota = 1 ∧ s.hand.performed = false ∧ decide (17 ≤ s.fh.sa.phase) = b ∧ s.fh.sa.smode = .sort ∧ 0 < s.hand.pos ∧
      s.hand.pos < 18 ∧ noOperands.pay 1 ≤ s.hand.pos) := by decide +kernel

/-- `FromStart`, as data. -/
def fromStart (s : State) (n : Nat) : Bool :=
  decide (n ≤ s.fh.quota ∧ s.hand.pos = 0 ∧ s.hand.performed = false ∧ s.hand.latch = [] ∧ s.hand.late = [] ∧
    s.fh.earlier s.hand.seq = [])
theorem from_start_of {s : State} {n : Nat} (h : fromStart s n = true) : FromStart s n := by
  simpa [fromStart, FromStart] using h

/-- A whole load and a whole store, without payloads and with them, and the largest key of a type. -/
theorem witness_SortLoadsAndStoresElements :
    fromStart (mapped (engH wk 32768 []) []) 32768 = true ∧ soCount .soLd noOperands = 16384 ∧ soRow0 noOperands * 128 = 0 ∧
    soCount .soSt noOperands = 16384 ∧ noOperands.isWin 2 = false ∧
    ({ noOperands with opd2 := 0xC0000 } : CmdF).isWin 2 = true ∧ (ofType 8).typ.isPb = false ∧
    0xFFFFFFFF < 2 ^ (ofType 8).typ.width := by decide +kernel

theorem witness_SortArraySavesRestoresAndClears :
    (let s := mapped (engH wk 2049 []) []
     fromStart s 2049 = true ∧ (s.hand.win 1).a0 % 64 = 0) ∧ SortArr.reset.phase ≤ 17 ∧ SortArr.reset.tkcount ≤ 2 ^ 20 ∧
    SortArr.reset.tkk ≤ 1024 ∧ SortArr.reset.tkn ≤ SortArr.reset.tkk ∧ SortArr.reset.tkn ≤ SortArr.reset.tkcount ∧
    SortArr.reset.smode ≠ .topk := by decide +kernel

/-- A new ascending sequence that keeps 1,024; a continuation of one of 1,000 elements, of one that is full, and of none. -/
theorem witness_TopkKeepsTheFirst :
    let f : CmdF := { noOperands with opd0 := 0x40000, opd1 := 0x40001, opd4 := 0x200010 }
    let g : CmdF := { f with imm := 0xC00 }
    let h (x : SortArr) : Hearth := { engH wk 33 [] with sa := x }
    let run (n : Nat) : SortArr := { SortArr.reset with smode := .topk, tkk := 8, tkn := 8, tkcount := n }
    fromStart (mapped (h SortArr.reset) []) 33 = true ∧ f.v 0 ≠ f.v 1 ∧ soCount .soTopk f = 16 ∧
    (bit g.imm 11 = true ∧ bit g.imm 13 = false ∧ soCount .soTopk g = 16 ∧ bitsN g.imm 0 11 ≤ 1024) ∧
    (bit f.imm 11 = false ∧ (mapped (h (run 1000)) []).fh.sa.smode = .topk ∧ (run 1000).tkcount + 16 ≤ 2 ^ 20) ∧
    2 ^ 20 < (run (2 ^ 20)).tkcount + 16 ∧ SortArr.reset.smode ≠ .topk ∧
    (let s := mapped (h SortArr.reset) []
     s.handCtx.st ≠ .free ∧ s.handCtx.st ≠ .armed ∧ s.handCtx.run = s.hand.run) := by decide +kernel

/-- The descriptor of a copy from or to 0x1001F8, and of one in the second GiB, which is not mapped. -/
def copyDesc : BitVec 512 := 0x1001F8
def farDesc : BitVec 512 := 0x400001F8
/-- The keys of the first piece, which ends with its 64-byte granule of memory. -/
def keysPiece : List Nat := (List.range 8).map (0x1001F8 + ·)
def fails (r : Except WalkFault (List Nat)) : Bool :=
  match r with
  | .error _ => true
  | .ok _ => false

/-- `Picked`, as data. -/
def picked (s : State) (q : Nat × Nat) : Bool :=
  decide (s.fh.halting = false ∧ s.hand.left[s.fh.picks.headD 0 % s.hand.left.length]? = some q)
theorem picked_of {s : State} {q : Nat × Nat} (h : picked s q = true) : Picked s q := by simpa [picked, Picked] using h

/-- The descriptor is read; a piece in each direction, where no later one meets its granule of memory and where one does; an element. -/
theorem witness_DataCopiesMovePieces :
    (let s := engM wk (Mem.cells 0 (bytes512 copyDesc))
     oneUnit s = true ∧ s.hand.desc = none ∧ copyDesc = ofBytes512 (s.fh.scratch.bytes (s.hand.win 1).a0 64) ∧ 0 < (s.hand.win 0).len ∧
      dataDescOk .cpLin 0 copyDesc (s.hand.win 0) = true ∧ dataDescOk .cp2d 0 copyDesc (s.hand.win 0) = true ∧
      dataRefusal .cpLin s.copyAgent (dirKind 0) copyDesc (s.hand.win 0) = none ∧
      dataRefusal .cp2d s.copyAgent (dirKind 0) copyDesc (s.hand.win 0) = none) ∧
    (∀ b : Bool, let s := engS { wk with desc := some copyDesc, left := [(0, 8), if b then (0, 8) else (8, 56)] }
     let w := s.hand.win 0
     let r := if b then (0, 8) else (8, 56)
     oneUnit s = true ∧ s.hand.desc = some copyDesc ∧ picked s (0, 8) = true ∧ w.byteAddr 0 = 4096 ∧
      memAddr .cp2d copyDesc w 0 = 0x1001F8 ∧ memAddr .cpLin copyDesc w 0 = 0x1001F8 ∧
      s.xlatHeld s.copyAgent .load 0x1001F8 8 = .ok keysPiece ∧ s.xlatHeld s.copyAgent .store 0x1001F8 8 = .ok keysPiece ∧
      s.hand.left.erase (0, 8) = [r] ∧ decide ((memAddr .cpLin copyDesc w r.1).toNat < 0x100200) = b ∧
      keysPiece.Nodup ∧ s.fh.sideLog = [] ∧ s.hand.late = [] ∧ noOperands.pay 2 = 0 ∧
      ({ noOperands with opd2 := 1 } : CmdF).pay 2 = 1) ∧
    (let s := engS { wk with desc := some copyDesc, left := [(0, 4)] }
     oneUnit s = true ∧ picked s (0, 4) = true ∧ s.xlatHeld s.copyAgent .both 0x1001F8 4 = .ok (keysPiece.take 4) ∧
      (keysPiece.take 4).Nodup ∧ s.fh.sideLog = [] ∧ ({ noOperands with opd2 := 2 } : CmdF).pay 2 = 2 ∧ (ofType 4).typ = .uint32 ∧
      (ofType 8).typ = .fp32) := by decide +kernel

/-- A fault of a load and of a store with an empty side log; a write that overlaps the one entry, of another command; a full log. -/
theorem witness_CopyFaultsHoldOrLog :
    (let s := engS { wk with desc := some farDesc, left := [(0, 8), (8, 56)] }
     let w := s.hand.win 0
     oneUnit s = true ∧ s.hand.desc = some farDesc ∧ s.hand.late = [] ∧ s.fh.sideLog = [] ∧ picked s (0, 8) = true ∧
      memAddr .cpLin farDesc w 0 = 0x400001F8 ∧
      fails (s.xlatHeld s.copyAgent .load 0x400001F8 8) = true ∧ fails (s.xlatHeld s.copyAgent .store 0x400001F8 8) = true ∧
      (0x400001F8#64).toNat % 64 + 8 ≤ 64 ∧ s.hand.left.erase (0, 8) = [(8, 56)] ∧ memAddr .cpLin farDesc w 8 = 0x40000200) ∧
    (let l : SideEntry := ⟨0, 0x1001F8, [some 1], none, ⟨some 0, true, false⟩, 15⟩
     let s := mapped { engH { wk with desc := some copyDesc, left := [(0, 8)] } 1 [] with sideLog := [l] } []
     oneUnit s = true ∧ picked s (0, 8) = true ∧ s.fh.sideLog = [l] ∧ l.overlaps 0x1001F8 (List.replicate 8 (some 0)) = true ∧
      l.seq ≠ s.hand.seq ∧ s.xlatHeld s.copyAgent .store 0x1001F8 8 = .ok keysPiece) ∧
    (let l : SideEntry := ⟨0, 0x50000000, [some 1], none, ⟨some 0, true, false⟩, 15⟩
     let s := mapped { engH { wk with desc := some farDesc, left := [(0, 8)] } 1 [] with sideLog := List.replicate 64 l } []
     oneUnit s = true ∧ picked s (0, 8) = true ∧ 64 ≤ s.fh.sideLog.length ∧ (∀ e, e ∈ s.fh.sideLog → e.seq ≠ s.hand.seq) ∧
      fails (s.xlatHeld s.copyAgent .store 0x400001F8 8) = true) := by decide +kernel

/-- A list entry of `n` bytes from 0x1001F8. -/
def listEnt (n : Nat) : BitVec 256 := BitVec.ofNat 256 (0x1001F8 + n * 2 ^ 96)

/-- A list of two entries at 0x100000, which is kept as it stood at the start; an entry of no bytes, and one of many pieces, that the copy
comes to; a piece of the first entry and one of the last, and an element. -/
theorem witness_ListCopiesAndFills :
    (let d : BitVec 512 := 0x100000 + 2 <<< 128
     let s0 := engS { wk with desc := some d }
     let s := engS { wk with desc := some d, began := some s0.mem }
     oneUnit s = true ∧ s.hand.desc = some d ∧ s.hand.list = [] ∧ s.hand.began = some s0.mem ∧ descCount d = 2 ∧
      s.xlatHeld s.copyAgent .load (descAddr d) (32 * descCount d) = .ok keys64 ∧
      ∀ j, j < 64 → (s.setMem s0.mem).xlat s.copyAgent .load (descAddr d + BitVec.ofNat 64 j) = .ok ((keys64[j]?).getD 0)) ∧
    (∀ b : Bool, let e := listEnt (if b then 0 else 1024)
     let s := engS { wk with desc := some copyDesc, list := [listEnt 8, e], pos := 1 }
     oneUnit s = true ∧ s.hand.list[s.hand.pos]? = some e ∧ s.hand.left = [] ∧
      entryRefusal s.copyAgent 0 (s.hand.win 0) e = if b then some 24 else none) ∧
    (∀ b : Bool, let k := if b then 1 else 0
     let s := engS { wk with desc := some copyDesc, list := [listEnt 1024, listEnt 8], pos := k, left := [(0, 8)] }
     let e := listEnt (if b then 8 else 1024)
     oneUnit s = true ∧ s.hand.desc = some copyDesc ∧ s.hand.list[s.hand.pos]? = some e ∧ picked s (0, 8) = true ∧
      entryRefusal s.copyAgent 1 (s.hand.win 0) (listEnt 8) = none ∧ entSrc e + BitVec.ofNat 64 0 = 0x1001F8 ∧
      s.xlatHeld s.copyAgent .load 0x1001F8 8 = .ok keysPiece ∧ s.fh.sideLog = []) ∧
    (let s := engS { wk with desc := some copyDesc, list := [listEnt 4], left := [(0, 4)] }
     oneUnit s = true ∧ s.hand.list[s.hand.pos]? = some (listEnt 4) ∧ picked s (0, 4) = true ∧
      s.xlatHeld s.copyAgent .both 0x1001F8 4 = .ok (keysPiece.take 4) ∧ (keysPiece.take 4).Nodup ∧ s.fh.sideLog = []) ∧
    0 < ((engS wk).hand.win 0).len ∧ (ofType 0).typ.bytes ≠ 0 := by decide +kernel

/-- The header of a chunk of 8 bytes at the start of the stream, and an end chunk behind it. -/
def hdrOf (kind : Nat) : BitVec 256 := BitVec.ofNat 256 (8 + kind * 2 ^ 62)
def endHdr : BitVec 256 := BitVec.ofNat 256 (2 * 2 ^ 62 + 64 * 2 ^ 64)
def keysHdr : List Nat := (List.range 8).map (0x100200 + ·)

/-- The first header is scouted; a payload is wanted; a chunk of each kind whose payload has come; a running core; bytes to write; the
end of the stream with the block half written and whole; a peer copy that gathers and that sends. -/
theorem witness_TransformsAndPeerCopies :
    (let s := engS { wk with desc := some copyDesc }
     let c := s.hand
     oneUnit s = true ∧ c.desc = some copyDesc ∧ s.fh.xfBusy c.seq = false ∧ c.emitted = [] ∧ c.core.busy = false ∧ c.xend = false ∧
      c.wanted = none ∧ c.list = [] ∧ c.xoff < 1048576 ∧
      s.xlatHeld s.copyAgent .load (descAddr copyDesc + BitVec.ofNat 64 c.xoff) 8 = .ok keysPiece ∧
      rangeRefusal s.copyAgent .load (descAddr copyDesc + BitVec.ofNat 64 c.xoff) 8 = none ∧
      leNat (keysPiece.map s.mem.read) = 0 ∧ c.pos ≠ (c.win 0).total) ∧
    (let s := engS { wk with desc := some copyDesc, list := [hdrOf 1] }
     s.hand.wanted = some (hdrOf 1) ∧ s.hand.payload (hdrOf 1) = [] ∧
      s.xlatHeld s.copyAgent .load (descAddr copyDesc + BitVec.ofNat 64 (hdrOff (hdrOf 1) + 8)) 8 = .ok keysHdr) ∧
    (∀ b : Fin 2, let h := hdrOf b.val
     let s := engS { wk with desc := some copyDesc, list := [h, endHdr], latch := [(0, List.replicate 8 7)] }
     oneUnit s = true ∧ s.fh.xfBusy s.hand.seq = false ∧ s.hand.wanted = none ∧ s.hand.list = h :: [endHdr] ∧
      endHdr ∈ s.hand.list ∧ hdrKind endHdr = 2 ∧ (s.hand.payload h).length = 8 ∧ hdrKind h = b.val) ∧
    (let s := engS { wk with desc := some copyDesc, list := [endHdr] }
     s.hand.list = endHdr :: [] ∧ s.hand.wanted = none) ∧
    (let s := engS { wk with desc := some copyDesc, core := XCore.reset.begin ⟨0, []⟩ 0 0 0 }
     oneUnit s = true ∧ s.hand.emitted = [] ∧ s.hand.core.busy = true) ∧
    (let s := engS { wk with desc := some copyDesc, emitted := [7] }
     s.hand.emitted ≠ [] ∧ 0 < min (min (min ((s.hand.win 0).len - s.hand.pos % (s.hand.win 0).len) (64 - (s.hand.win 0).byteAddr s.hand.pos % 64))
      (512 - s.hand.pos % 512)) s.hand.emitted.length) ∧
    (∀ b : Bool, let s := engS { wk with desc := some copyDesc, xend := true, pos := 2048 * (if b then 127 else 128) }
     oneUnit s = true ∧ s.hand.emitted = [] ∧ s.hand.core.busy = false ∧ s.hand.xend = true ∧
      decide (s.hand.pos < (s.hand.win 0).total) = b ∧ decide (s.hand.pos = (s.hand.win 0).total) = !b) ∧
    (let s := engS { wk with desc := some copyDesc, pos := 2048 * 128 }
     oneUnit s = true ∧ s.hand.xend = false ∧ s.hand.pos = (s.hand.win 0).total) := by decide +kernel

/-- The task that a search command makes of the parameters in the scratchpad. -/
def sxOf (s : State) (op : Nat) : State × SxRes :=
  s.sxDo { op := op, p := ofBytes512 (s.fh.scratch.bytes (s.hand.win 1).a0 64),
           vec := fun n => some (s.fh.scratch.bytes ((s.hand.win 1).a0 + 64) n), pRoom := (s.hand.win 1).len,
           rRoom := (s.hand.win 0).len, sec := s.fh.sec, launch := s.hand.launch }

/-- Index 0: vectors of 8 bytes of queue 0. -/
def idx0 : Index :=
  { wq := 0, sec := false, dim := 8, ety := .int8, metric := .l2, degree := 4, logcap := 1024, mthresh := 256, logpos := 0,
    logbase := 0, entries := [], roots := [], events := 0, merge := none }

/-- A search for one neighbour in index 0, which does not exist, and an append of one vector of 8 bytes to it, where it does. -/
theorem witness_SearchCommandsWriteRecords :
    (let s := mapped (engH wk 65 (Mem.cells 0 (bytes512 (BitVec.ofNat 512 (2 ^ 44 + 2 ^ 55))))) []
     let p := ofBytes512 (s.fh.scratch.bytes (s.hand.win 1).a0 64)
     fromStart s 1 = true ∧ s.hand.xend = false ∧ s.hand.hold = none ∧ s.cirrusRoom (pIndex p % 8) = true ∧ pIndex p = 0 ∧
      s.cirrus.indexes[(0 : Fin 64)] = none ∧ paramOk 0 p = true ∧ 65 + (sxOf s 0).2.data.length ≤ s.fh.quota) ∧
    (let c := { wk with wins := wk.wins.set 1 (some ⟨0, 128, 128, 1⟩), launch := [(0, ⟨0, 0, 0⟩)] }
     let s0 := mapped { engH c 65 (Mem.cells 0 (bytes512 (BitVec.ofNat 512 (2 ^ 80 + 5 * 2 ^ 96)))) with
       img := some (imgOf flAddWord []) } []
     let s := { s0 with cirrus := { s0.cirrus with indexes := s0.cirrus.indexes.set 0 (some idx0), reserved := [(0, 0, 1024)] } }
     fromStart s 1 = true ∧ s.cirrus.indexes[(0 : Fin 64)] = some idx0 ∧ (sxOf s 2).2.status = 0 ∧
      65 + (sxOf s 2).2.data.length ≤ s.fh.quota) := by decide +kernel

/-- 64 bytes of the first page of flash. -/
def flashEnt : BitVec 256 := BitVec.ofNat 256 (64 * 2 ^ 96)
/-- A fetch with its list read and accepted. -/
def fetchCmd : Cmd := { wk with desc := some copyDesc, xend := true, acked := true }

/-- Two entries to read, on a page that can be read and on a lost one; bytes to write; nothing left; and a descriptor of zeros, which
is malformed. -/
theorem witness_FetchCopiesFlash :
    (∀ b : Bool, let s0 := engS { fetchCmd with list := [flashEnt, flashEnt] }
     let s := { s0 with cirrus := { s0.cirrus with lost := if b then [0] else [] } }
     oneUnit s = true ∧ s.hand.desc = some copyDesc ∧ s.hand.xend = true ∧ s.hand.acked = true ∧ s.hand.latch = [] ∧ s.hand.emitted = [] ∧
      s.hand.list = [flashEnt, flashEnt] ∧ (entSrc flashEnt).toNat / 32768 = 0 ∧ s.cirrus.lost = if b then [0] else []) ∧
    (let s := engS { fetchCmd with latch := [(4096, [7])] }
     oneUnit s = true ∧ s.hand.desc = some copyDesc ∧ s.hand.xend = true ∧ s.hand.latch = (4096, [7]) :: []) ∧
    (let s := engS fetchCmd
     oneUnit s = true ∧ s.hand.latch = [] ∧ s.hand.emitted = [] ∧ s.hand.list = [] ∧ s.hand.late = []) ∧
    (let s := engS wk
     oneUnit s = true ∧ s.hand.desc = none ∧ s.hand.late = [] ∧
      s.fetchDescOk (ofBytes512 (s.fh.scratch.bytes (s.hand.win 1).a0 64)) = false) := by decide +kernel

theorem witness_FlagCommandsUpdateOneFlag : (engS wk).fh.hob.stopped = false := by decide +kernel

/-! ### The path of a command -/

/-- The word of a command under its `ENG` and `OPC` with `WAIT` on flag 200 in mode 10 for 5, or without. -/
def waitWord (eng opc : Nat) (wait : Bool) : CmdWord :=
  ({ noOperands with wait := if wait then 0x800005C8 else 0 } : CmdF).toWord eng opc
/-- The command stands alone at a hearth whose flag 200 is 5. -/
def pathS (c : Cmd) : State :=
  withHearth { hearthOf uctx with nextSeq := 2, cmds := [c], flags := Vector.ofFn fun i : Fin 256 => if i = 200 then 5 else 0 }

/-- `v.add` that waits for its flag, `cp.lin`, and `fl.set` with a signal. -/
theorem witness_CommandsStart :
    (let c := cmdAt 1 .vector .queued (waitWord 0 0 true)
     let s := pathS c
     s.fh.cmd? 1 = some c ∧ s.fh.halted = false ∧ s.fh.halting = false ∧ c.stage ≠ .started ∧ s.fh.mayStart c = true ∧
      s.fh.hob.stopped = false ∧ c.isFlag = false ∧ c.hasDesc = false ∧ (c.q == .matrix) = false ∧ condMode c.f.wait = 2) ∧
    (let c := cmdAt 1 .copy .queued (waitWord 3 0 true)
     let s := pathS c
     s.fh.cmd? 1 = some c ∧ s.fh.mayStart c = true ∧ c.isFlag = false ∧ c.hasDesc = true ∧ c.desc = none ∧ c.performed = false ∧
      c.hold = none ∧ c.logWait = false ∧ s.fh.earlier 1 = [] ∧ (c.q == .matrix) = false) ∧
    (let c := cmdAt 1 .vector .queued (({ noOperands with sig := 0x400005C8 } : CmdF).toWord 5 2)
     let s := pathS c
     s.fh.cmd? 1 = some c ∧ s.fh.halted = false ∧ s.fh.halting = false ∧ c.stage ≠ .started ∧ s.fh.mayStart c = true ∧
      s.fh.hob.stopped = false ∧ c.isFlag = true ∧ c.lenmis = false ∧ c.op = some .flSet ∧ condMode c.f.sig = 1) := by decide +kernel

/-- A performed vector command and a performed copy, with a signal in each mode. -/
theorem witness_CommandsCompleteAndSignal :
    ∀ m : Fin 4, let c := { cmdAt 1 (if m = 0 then .copy else .vector) .started
        ((({ noOperands with sig := BitVec.ofNat 32 (m.val * 2 ^ 30 + (if m.val = 0 ∨ m.val = 2 then 0 else 0x5C8)) } : CmdF).toWord
          (if m = 0 then 3 else 0) 0)) with performed := true }
    let s := pathS c
    s.fh.cmd? 1 = some c ∧ s.fh.halted = false ∧ s.fh.mayComplete c = true ∧ s.fh.hob.stopped = false ∧ c.f.traced = false ∧
    c.lenmis = false ∧ condMode c.f.sig = m.val := by decide +kernel

/-- A performed bank load; a transform of another length than it declared, under `LMTRAP`. -/
theorem witness_BanksLatchAndLengthsTrap :
    (let c := { cmdAt 1 .matrix .started (waitWord 1 1 false) with performed := true }
     let s := pathS c
     s.fh.cmd? 1 = some c ∧ s.fh.halted = false ∧ s.fh.mayComplete c = true ∧ s.fh.hob.stopped = false ∧ c.op = some .mxLdb) ∧
    (let c := { cmdAt 1 .copy .started (waitWord 3 3 false) with performed := true, lenmis := true, lmtrap := true }
     let s := pathS c
     s.fh.cmd? 1 = some c ∧ s.fh.mayComplete c = true ∧ c.lenmis = true ∧ c.lmtrap = true ∧ condMode c.f.sig = 0 ∧
      (s.fh.ctx c.ctx).st ≠ .free ∧ (s.fh.ctx c.ctx).st ≠ .armed ∧ (s.fh.ctx c.ctx).run = c.run ∧ c.f.traced = false) := by
  decide +kernel

/-- `mx.go` at the head of its queue, with a `WAIT` in mode 10 and without. -/
theorem witness_MatrixCommandsEnterTheWindow :
    ∀ b : Bool, let c := cmdAt 1 .matrix .queued (waitWord 1 2 b)
    let s := pathS c
    s.fh.queueHead .matrix = some c ∧ c.isFlag = false ∧ s.fh.halted = false ∧ s.fh.halting = false ∧
    waitHolds s.fh c.f.wait = true ∧ s.fh.inWindow < 4 ∧ s.fh.cfgDone c = true ∧ c.op = some .mxGo ∧
    decide (condMode c.f.wait = 2) = b := by decide +kernel


/-! ### Records, graphs and queues -/

/-- A service OS whose pair 0 leads. -/
def ledSvc : Service := { State.reset.svc with gen := 1, started := 1, recovery := false }

/-- A page of address space 0 is being migrated. -/
def recS_moving : State := { State.reset with svc := { ledSvc with moving := [⟨0, 9, 0, 2 ^ 30, 0, 0⟩] } }

/-- The one ready record of `recS`. -/
def ref0 (qst : BitVec 3) : RecRef := ⟨0x100000, 0, 0, qst, false, 0, 0, false, false, 0⟩

/-- Queue 0 has this one record, in the queue state given, at a hearth that runs context `k` under image 1. -/
def recAt (k : Ctx) (qst : BitVec 3) (w : BitVec 512) : State :=
  { mapped (imgH k flAddWord []) (Mem.cells 0x100000 (bytes512 w)) with
    svc := { ledSvc with images := [imgOf flAddWord []] },
    qm := { State.reset.qm with recs := [ref0 qst] } }

/-- What the hypotheses of a dispatch come to when one record is ready. -/
theorem only_candidate {s : State} {r : RecRef} {w : BitVec 512} (hf : s.foc = ⟨0, 0⟩) (hr : s.ready = [(r, w)])
    (h : s.fc.st = .free ∧ s.fh.idle = false ∧ s.fh.arrQ = [] ∧ recKind w = 0 ∧ s.matchesHearth r.wq w s.foc.h = true ∧
      s.barrierHeld r w = false ∧ s.queueMoving r.wq = false) :
    Chooses s s.foc ∧ (∀ l, ChoosesBefore l s.foc → ¬ Chooses s l) ∧ Candidate s s.foc.h (r, w) ∧
      ∀ q, Candidate s s.foc.h q → q ≠ (r, w) → GoesBefore s (r, w) q := by
  obtain ⟨h1, h2, h3, h4, h5, h6⟩ := h
  have hc : Candidate s s.foc.h (r, w) := ⟨by rw [hr]; exact List.mem_singleton.2 rfl, h4, h5, h6⟩
  refine ⟨⟨h1, h2, h3, _, hc⟩, fun l hl => ?_, hc, fun q hq hne => ?_⟩
  · rw [hf] at hl
    rcases hl with hl | ⟨-, hl⟩ <;> exact absurd hl (Fin.not_lt_zero _)
  · have := hq.1
    rw [hr] at this
    exact absurd (List.mem_singleton.1 this) hne

/-- A legal record, and one with a reserved bit set, without children and with one. -/
theorem witness_RecordsAreDispatchedInOrder :
    ∀ b : Fin 3, let v := if b = 0 then recOf 0 0 else recOf 0 (b.val - 1) ||| (1 <<< 224)
    let s := recAt Ctx.reset 0 v
    let w := (ref0 0).over v
    s.foc = ⟨0, 0⟩ ∧ s.ready = [(ref0 0, w)] ∧ s.fc.st = .free ∧ s.fh.idle = false ∧ s.fh.arrQ = [] ∧ recKind w = 0 ∧
    s.matchesHearth 0 w s.foc.h = true ∧ s.barrierHeld (ref0 0) w = false ∧ s.queueMoving 0 = false ∧
    s.recOk 0 w = decide (b = 0) ∧ recJoin w = b.val - 1 := by decide +kernel

/-- A search record; a compute record that is 10,000 ticks old where no hearth holds its image, and one a tick younger. -/
theorem witness_SearchRecordsAndAgedRecords :
    (let s := recAt Ctx.reset 0 (recOf 1 0)
     let w := (ref0 0).over (recOf 1 0)
     s.cirrusLoad (s.taskEngine 0 (recFrame w)).val < 256 ∧ s.ready = [(ref0 0, w)] ∧ recKind w = 1 ∧
      s.barrierHeld (ref0 0) w = false ∧ s.queueMoving 0 = false ∧ s.recOk 0 w = true) ∧
    (let s := { (recAt Ctx.reset 0 (recOf 0 0)).setFh (hearthOf uctx) with cycle := 160000 }
     let w := (ref0 0).over (recOf 0 0)
     s.refOf 0 0x100000 = some (ref0 0) ∧ s.recWord (ref0 0) = w ∧ (ref0 0).failing = false ∧ recKind w = 0 ∧ s.qm.ageLimit ≤ s.tick - 0 ∧
      s.matchesHearth 0 w 0 = false) ∧
    (let s := { recAt Ctx.reset 0 (recOf 0 0) with cycle := 159999 }
     s.refOf 0 0x100000 = some (ref0 0) ∧ s.tick - 0 < s.qm.ageLimit) := by decide +kernel

/-- No other hearth holds an image there. -/
theorem witness_noMatch (h : Fin 640) (hh : h ≠ 0) (w : BitVec 512) :
    State.matchesHearth { (recAt Ctx.reset 0 (recOf 0 0)).setFh (hearthOf uctx) with cycle := 160000 } 0 w h = false := by
  have e : State.hearth { (recAt Ctx.reset 0 (recOf 0 0)).setFh (hearthOf uctx) with cycle := 160000 } h = Hearth.reset := by
    show ((recAt Ctx.reset 0 (recOf 0 0)).setHearth 0 (hearthOf uctx)).hearth h = _
    rw [State.hearth_setHearth_ne _ _ hh]
    show (State.reset.setHearth 0 (imgH Ctx.reset flAddWord [])).hearth h = _
    rw [State.hearth_setHearth_ne _ _ hh]
    simp [State.hearth, State.reset]
  unfold State.matchesHearth
  rw [e]
  simp [Hearth.reset]

/-- Node 1 waits for node 0, which ended in the state given; node 2 has ended in the other. -/
def graphOf (fin last : Option (BitVec 3)) : Graph :=
  { id := 1, wq := 0, seq := 0, caddr := 0,
    nodes := [⟨0, [], some 0x100000, fin, 7⟩, ⟨recOf 0 0, [0], none, none, 0⟩, ⟨recOf 0 0, [1], none, last, 0⟩] }

/-- A predecessor that completed, one that failed with another node still to end, and one that failed where the node is the last to end;
a page of the space that is being migrated; no leader. -/
theorem witness_GraphNodesAreCreatedOrCancelled :
    (∀ b : Fin 3, let gr := graphOf (some (if b = 0 then 4 else 6)) (if b = 2 then some 5 else none)
     let nd : Node := ⟨recOf 0 0, [0], none, none, 0⟩
     let s := { mapped (hearthOf uctx) [] with svc := ledSvc, qm := { State.reset.qm with graphs := [gr] } }
     (s.qm.graphs.find? fun x => x.id == 1) = some gr ∧ gr.nodes[1]? = some nd ∧ gr.readyAt nd = some 7 ∧
      (∀ m, m ∈ gr.nodes.take 1 → m.recAt.isSome = true) ∧
      (∀ p, p ∈ nd.preds → (gr.nodes[p]?).bind (·.fin) = some (if b = 0 then 4 else 6)) ∧ (0x100000#64).toNat % 64 = 0 ∧
      s.refOf 0 0x100000 = none ∧ s.xlatN (s.queueAgent 0) .both 0x100000 64 = .ok keys64 ∧
      (gr.nodes[2]?).map (·.fin) = some (if b = 2 then some 5 else none) ∧ (gr.nodes[0]?).map (·.fin.isSome) = some true ∧
      gr.nodes.length = 3 ∧ gr.caddr % 64 = 0 ∧
      s.leaderLive = true ∧ s.svc.live (s.queues[gr.wq]).pair = true ∧ s.queueMoving gr.wq = false) ∧
    State.reset.leaderLive = false ∧ recS_moving.queueMoving 0 = true := by decide +kernel

/-- A finishing record whose parent, in the queue state given, has the counter given. -/
def childS (pq : BitVec 3) (j : Nat) : State :=
  { mapped (imgH Ctx.reset flAddWord [])
      (Mem.cells 0x100000 (bytes512 (recOf 0 0 ||| BitVec.ofNat 512 (0x100040 * 2 ^ 448))) ++
        Mem.cells 0x100040 (bytes512 (recOf 0 j))) with
    svc := ledSvc
    qm := { State.reset.qm with recs := [ref0 3, ⟨0x100040, 0, 0, pq, false, 0, 0, false, false, 0⟩] } }
/-- A finishing record with a completion flag: 5 to flag 200 of hearth 0. -/
def flagRec : BitVec 512 := recOf 0 0 ||| BitVec.ofNat 512 (2 ^ 223 + 200 * 2 ^ 205 + 5 * 2 ^ 192)

/-- A finishing record with a running parent of counter 0 and 1, a suspended one of 1 and 2, and a finishing one of 1; one with a completion
flag of a hearth that runs, is stopped, and is saved; the task of a search record, whose frame is not legal, without children and with
one; and a record that still waits. -/
theorem witness_RecordsComplete :
    (∀ p : Fin 5, let j : Fin 3 := if p = 0 then 0 else if p = 4 then 2 else 1
     let q : Fin 3 := if p = 0 ∨ p = 1 then 0 else if p = 2 then 2 else 1
     let s := childS (BitVec.ofNat 3 (1 + q.val)) j.val
     let w := s.recWord (ref0 3)
     s.refOf 0 0x100000 = some (ref0 3) ∧ s.qm.graphs = [] ∧ s.cirrus.tasks = [] ∧ recJoin w = 0 ∧ s.queueMoving 0 = false ∧
      recParent w = 0x100040 ∧
      s.refOf 0 0x100040 = some ⟨0x100040, 0, 0, BitVec.ofNat 3 (1 + q.val), false, 0, 0, false, false, 0⟩ ∧
      (let s1 := s.putRec { ref0 3 with qst := 4 } w
       s1.unitRead (s1.queueAgent 0) 0x100040 64 = some (bytes512 (recOf 0 j.val)) ∧
        s1.xlatN (s1.queueAgent 0) .store 0x100040 64 = .ok (keysAt 0x100040)) ∧ (keysAt 0x100040).Nodup) ∧
    (∀ b : Fin 3, let s0 := recAt Ctx.reset 3 flagRec
     let s := if b = 0 then s0 else if b = 1 then s0.setFh { s0.fh with hob := { Hob.reset with stopped := true } }
       else { s0 with saved := [(0, Hearth.reset)] }
     let w := s.recWord (ref0 3)
     s.refOf 0 0x100000 = some (ref0 3) ∧ recParent w = 0 ∧ recJoin w = 0 ∧ recCfen w = true ∧ recCfHearth w = (0 : Fin 640).val ∧
      s.saved.map (·.1) = (if b = 2 then [0] else []) ∧ s.fh.hob.stopped = (b == 1) ∧ s.fh.hob.held = []) ∧
    (∀ j : Fin 2, let tk : Task := ⟨0, 0x100000, 0, [], [], none, [], [], 0⟩
     let s := { recAt Ctx.reset 1 (recOf 1 j.val) with cirrus := { State.reset.cirrus with tasks := [tk] } }
     s.refOf 0 0x100000 = some (ref0 1) ∧ s.qm.graphs = [] ∧ s.queueMoving 0 = false ∧ (s.queues[(0 : Fin 2048)]).torn = false ∧
      (s.cirrus.tasks.find? fun t => t.wq == 0 && t.addr == 0x100000) = some tk ∧ recParent (s.recWord (ref0 1)) = 0 ∧
      (let u := s.runTask tk (recFrame (s.recWord (ref0 1)))
       recJoin (State.recWord { u.1 with cirrus := { u.1.cirrus with tasks := [] } } (ref0 1)) = j.val)) ∧
    (let s := recAt Ctx.reset 1 (recOf 0 0)
     s.refOf 0 0x100000 = some (ref0 1) ∧ s.cirrus.tasks = [] ∧ (ref0 1).qst ≠ 3) := by decide +kernel

/-- Queue 0 with its ring at host address 4,096, whose first slot is given, with a leader or without one. -/
def ringS (led : Bool) (slot : Nat) : State :=
  { State.reset with
    queues := State.reset.queues.set 0 { WorkQueue.reset with live := true, ring := 4096 }
    svc := if led then ledSvc else { State.reset.svc with recovery := false }
    links := { State.reset.links with cxlUp := true }
    mem := Mem.cells (physKey 5 4096) (leBytes 64 slot) }

/-- A queue that is not live; one whose pair does not run; a slot of another number; a slot without an aligned completion address; a
refused slot. -/
theorem witness_DoorbellsReadSlots :
    (State.reset.queues[(0 : Fin 2048)]).live = false ∧
    ∀ b : Fin 4, let s := ringS (b ≠ 3) (if b = 0 then 1 else if b = 1 then 2 ^ 192 else 2 ^ 256)
      let w := s.queues[(0 : Fin 2048)]
      let slot := ofBytes512 (s.hostBytes (w.ring + 64 * (w.head % 2 ^ w.n)) 64)
      s.svc.recovery = false ∧ s.links.cxlUp = true ∧ w.live = true ∧ w.torn = false ∧ w.head = 0 ∧ 1 ≤ w.head + 2 ^ w.n ∧
      w.dbell ≤ 1 ∧ (s.leaderLive && s.svc.live w.pair) = decide (b ≠ 3) ∧ (b = 0 → bitsN slot 0 64 ≠ w.head) ∧
      (b ≠ 0 → bitsN slot 0 64 = w.head) ∧ (b = 1 → bitsN slot 192 64 % 64 ≠ 0) ∧
      (b = 2 → bitsN slot 192 64 % 64 = 0 ∧ bitsN slot 256 256 ≠ 0) := by decide +kernel

/-! ### Arrivals, images and pre-emption -/

/-- Eight bytes for offset 64 of hearth 0, from a command of hearth 1, with or without a handler. -/
def xferOf (hnd : Bool) : Xfer :=
  { schip := 0, shearth := 1, sseq := some 1, ssec := false, dchip := 0, dhearth := 0, roff := 64, data := List.replicate 8 7,
    flagen := !hnd, rflag := 200, rval := 5, hnden := hnd, hoff := 0 }
/-- The receiver's image grants those bytes, with a handler at 0, to any sender. -/
def grantImg : Image := { imgOf flAddWord [] with grants := [⟨none, none, some 0, 64, 64⟩] }
def peerS (x : Xfer) (img : Image) : State :=
  { (withHearth { hearthOf Ctx.reset with img := some img }).setHearth 1
      { hearthOf uctx with cmds := [cmdAt 1 .copy .started (waitWord 3 4 false)] } with
    links := { State.reset.links with wire := [x] } }

/-- The payload of the transfers above lies in one granule. -/
theorem witness_WholeXfer (hnd : Bool) : WholeXfer (xferOf hnd) [1] ∧ ¬ WholeXfer (xferOf hnd) [] := by
  refine ⟨fun a h1 h2 => ?_, fun h => ?_⟩
  · simp only [xferOf, List.length_replicate] at h1 h2
    have : a / 64 = 1 := by omega
    simp [this]
  · exact absurd (h 64 (Nat.le_refl _) (by simp [xferOf])) (List.not_mem_nil)

theorem witness_PeerTransfersArrive :
    (∀ hnd : Bool, let x := xferOf hnd
     let s := peerS x grantImg
     let y := s.hearth 0
     s.links.wire.contains x = true ∧ x.dchip = s.links.chip ∧ x.dhearth = (0 : Fin 640).val ∧ y.arriving = [] ∧ y.idle = false ∧
      s.isSaved 0 = false ∧ y.admits x = true ∧ y.hob.stopped = false ∧ x.hnden = hnd ∧ y.hob.held = [] ∧ x.flagen = (!hnd) ∧
      y.arrQ = [] ∧ x.schip = s.links.chip ∧ x.shearth = (1 : Fin 640).val ∧ (s.hearth 1).epoch = x.sepoch ∧
      ((s.hearth 1).cmd? 1).map (·.op) = some (some .cpPeer)) ∧
    (let y := (peerS (xferOf false) grantImg).hearth 0
     (∀ d, (y.ctx d).st ≠ .armed) ∧ (y.ctx 0).st = .free ∧ ∀ d, d < (0 : Fin 4) → (y.ctx d).st ≠ .free) ∧
    (∀ b : Bool, let x := { xferOf false with sseq := if b then some 1 else none }
     let s := peerS x (imgOf flAddWord [])
     s.links.wire.contains x = true ∧ (s.hearth 0).admits x = false ∧ (s.hearth 1).sideLog = [] ∧
      ((s.hearth 1).ctx 0).st = .running ∧ ((s.hearth 1).ctx 0).run = .none ∧
      ((s.hearth 1).cmd? 1).map (fun c => (c.ctx, c.run)) = some (0, .none)) ∧
    (let s := { peerS (xferOf false) grantImg with saved := [(0, Hearth.reset)] }
     s.links.wire.contains (xferOf false) = true ∧ (s.hearth 0).arriving = [] ∧ s.isSaved 0 = true) := by decide +kernel

/-- A parked arrival at a hearth whose context 1 is armed, another behind it where no further context is free; image 1 at a free
hearth and at one that runs, and at one that a transfer of hearth 1 has begun to reach. -/
theorem witness_ArrivalsAndImagesStart :
    (∀ b : Bool, let a : Arrival := ⟨0, 8, 64, 0, false, 0, 1, 0⟩
     let x : Hearth := if b then (hearthOf uctx).setCtx 1 { Ctx.reset with st := .armed }
       else { hearthOf uctx with ctxs := (Vector.replicate 4 uctx).set 1 { Ctx.reset with st := .armed } }
     let s := withHearth { x with arrQ := if b then [a] else [a, a] }
     s.fh.hob.stopped = false ∧ s.fh.idle = false ∧ s.fh.arrQ = a :: (if b then [] else [a]) ∧ (s.fh.ctx 1).st = .armed ∧
      (∀ d, d < (1 : Fin 4) → (s.fh.ctx d).st ≠ .armed) ∧
      (b = false → ∀ d, d ≠ (1 : Fin 4) → (s.fh.ctx d).st ≠ .armed ∧ (s.fh.ctx d).st ≠ .free)) ∧
    (let svc := { State.reset.svc with images := [imgOf flAddWord []] }
     let s := { State.reset with svc := svc }
     (s.svc.images.find? fun x => x.id == 1) = some (imgOf flAddWord []) ∧ (∀ c, (s.fh.ctx c).st = .free) ∧
      s.fh.hob.stopped = false ∧ s.fh.halting = false ∧ s.fh.arriving = [] ∧ ((withCtx uctx).fh.ctx 0).st ≠ .free) ∧
    (let j : Incoming := ⟨xferOf false, []⟩
     let s0 := peerS (xferOf false) grantImg
     let s := { s0.setFh { s0.fh with arriving := [j] } with svc := { State.reset.svc with images := [imgOf flAddWord []] } }
     (∀ c, (s.fh.ctx c).st = .free) ∧ s.fh.hob.stopped = false ∧ s.fh.halting = false ∧ s.fh.arriving = [j] ∧
      j.x.schip = s.links.chip ∧ j.x.shearth = Fin.val (n := 640) 1 ∧ j.x.sseq = some 1 ∧ (s.hearth 1).epoch = j.x.sepoch ∧
      (s.hearth 1).sideLog = []) := by decide +kernel

/-- A hearth whose one command has performed, and one whose vector command is under way; no leader; a saved state. -/
theorem witness_PreemptionSavesAndRestores :
    (∀ b : Bool, let c := { cmdAt 1 .vector .started (waitWord 0 0 false) with performed := b }
     let s := { withHearth { hearthOf uctx with cmds := if b then [] else [c] } with svc := ledSvc }
     s.fh.halted = false ∧ s.fh.purge = none ∧ s.leaderLive = true ∧
      (let x : Hearth := { s.fh with halting := true, area := 4194304 }
       x.cmds.all x.atStop = b) ∧ (b = false → s.fh.cmds = [c] ∧ c.q = .vector ∧ c.stage = .started ∧ c.performed = false)) ∧
    State.reset.leaderLive = false ∧
    (let s := { State.reset with svc := ledSvc, saved := [(1, Hearth.reset), (0, Hearth.reset)] }
     ((s.savedOf s.foc.h)[0]?).map (fun p => (p.1, p.2.arrQ, p.2.hob.stopped)) = some (1, [], false) ∧ s.leaderLive = true ∧
      (∀ c, (s.fh.ctx c).st = .free) ∧ s.fh.cmds = []) := by decide +kernel

/-- A leader, and none; a held context in U mode, in M mode with a command under way, in M mode while a page of its record's space is being
migrated, and in M mode under a record; a command that waits for page 4,096, one with a logged write there, and one with another write
logged on page 8,192, each live and already ended; a write of 8 bytes in the side log, mapped and not. -/
theorem witness_HeldFaultsAreServicedOrRefused :
    State.reset.leaderLive = false ∧
    (let s := { withCtx { uctx with st := .held, fault := some ⟨13, 64, false⟩ } with svc := ledSvc }
     s.leaderLive = true ∧ s.fc.st = .held ∧ s.fc.fault = some ⟨13, 64, false⟩ ∧ s.fc.mode = .user) ∧
    (let k := { mctx with st := .held, fault := some ⟨13, 64, true⟩, run := .task 0x100000 0 }
     let s := recAt k 1 (recOf 0 0)
     s.leaderLive = true ∧ s.fc.st = .held ∧ s.fc.fault = some ⟨13, 64, true⟩ ∧ s.fh.cmds = [] ∧ s.fh.arrQ = [] ∧
      s.fc.run = .task 0x100000 0 ∧ s.queueMoving 0 = false ∧ s.refOf 0 0x100000 = some (ref0 1) ∧ recJoin (s.recWord (ref0 1)) = 0 ∧
      (s.setFh { s.fh with cmds := [cmdAt 1 .vector .started 0] }).fh.cmds.map (·.ctx) = [s.foc.c] ∧
      ({ s with svc := recS_moving.svc } : State).queueMoving 0 = true) ∧
    (∀ b g : Bool, ∀ n : Fin 3, let c : Cmd := { wk with hold := if b then some 0x10000000 else none, ended := g }
     let e : SideEntry := ⟨1, 0x10000000, List.replicate 8 (some 7), none, ⟨some 0, true, false⟩, 15⟩
     let o : SideEntry := ⟨if n = 2 then 2 else 1, 0x20000000, List.replicate 8 (some 7), none, ⟨some 0, true, false⟩, 15⟩
     let log := (if b then [] else [e]) ++ if n = 0 then [] else [o]
     let s := { withHearth { hearthOf uctx with cmds := [c], sideLog := log } with svc := ledSvc }
     s.leaderLive = true ∧ s.fh.cmds = [c] ∧ c.hold = (if b then some 0x10000000 else none) ∧ (0x10000000#64).toNat / 65536 = 4096 ∧
      s.fh.sideLog.find? (fun e => e.seq == c.seq && e.onPage 4096) = (if b then none else some e) ∧
      s.fh.sideLog.filter (fun e => !(e.seq == c.seq && e.onPage 4096)) = (if n = 0 then [] else [o]) ∧
      decide (o.seq = c.seq) = decide (n ≠ 2) ∧ c.ended = g ∧ (s.fh.ctx c.ctx).st = .running ∧ (s.fh.ctx c.ctx).run = c.run) ∧
    (∀ b : Bool, let e : SideEntry :=
       ⟨1, if b then 0x100000 else 0x40000000, List.replicate 8 (some 7), none, ⟨some 0, true, false⟩, 15⟩
     let s := mapped { hearthOf uctx with sideLog := [e], cmds := [{ wk with failed := true, ended := true }] } []
     s.fh.sideLog = [e] ∧ s.fh.halted = false ∧ e.add = none ∧ fails (s.xlatHeld e.ag .store e.addr e.data.length) = !b) ∧
    (let s := mapped (hearthOf uctx) []
     s.xlatHeld ⟨some 0, true, false⟩ .store 0x100000 8 = .ok keys8 ∧ keys8.Nodup) := by decide +kernel


/-! ### Hob and the trace -/

/-- Hob's firmware runs; no session; a session that runs with one breakpoint less than the most, and one that stopped with a
held update. -/
theorem witness_HobHoldsStopsAndResumes :
    (let s := { State.reset with svc := { State.reset.svc with hobFw := true } }
     s.svc.hobFw = true ∧ (s.hearth 639).hob.sess = none ∧ s.fh.hob.sess = none ∧ s.fh.trace.bytes = 0 ∧ s.fh.arrQ = [] ∧
      s.qm.flagLate = []) ∧ State.reset.svc.hobFw = false ∧
    (hobS Hob.reset).fh.hob.sess = some 1 ∧
    (let s := withHearth (imgH uctx flAddWord [])
     let t := s.setFh { s.fh with hob := { Hob.reset with sess := some 1, brks := List.replicate 15 (.pc 0 none) } }
     t.fh.hob.sess = some 1 ∧ t.fh.hob.brks.length < 16 ∧ 14 < t.fh.hob.brks.length ∧
      0 < (t.fh.img.map (·.code.length)).getD 0 ∧ t.fc.st = .running ∧ t.fh.hob.stopped = false ∧ t.fh.trace.bytes = 0 ∧
      t.fh.arrQ = [] ∧ t.qm.flagLate = [] ∧ (imgOf flAddWord []).hasRgn 5 = false ∧
      ({ imgOf flAddWord [] with code := leBytes 4 0x0005102B } : Image).hasRgn 5 = true) ∧
    (∀ b : Bool, let s := hobS { Hob.reset with stopped := true, held := if b then [.set 200 5] else [] }
     s.fh.hob.sess.isSome = true ∧ s.fh.hob.stopped = true ∧ s.fh.hob.held = (if b then [.set 200 5] else []) ∧
      s.fc.st = .running ∧ s.fc.wait = .none ∧ s.fh.idle = false ∧ s.fh.trace.bytes = 0 ∧ s.fh.arrQ = []) ∧
    (let s := withHearth { hearthOf { uctx with st := .armed } with hob := { Hob.reset with sess := some 1, stopped := true, held := [.set 200 5] } }
     s.fc.st = .armed ∧ s.fh.hob.stopped = true) := by decide +kernel

/-- No other hearth is under a session. -/
theorem witness_oneSession (x : Hearth) (g : Fin 640) (h : g ≠ 0) (n : Nat) : ((withHearth x).hearth g).hob.sess ≠ some n := by
  have e : (withHearth x).hearth g = Hearth.reset := by
    show (State.reset.setHearth 0 x).hearth g = _
    rw [State.hearth_setHearth_ne _ _ h]
    simp [State.hearth, State.reset]
  rw [e]
  simp [Hearth.reset, Hob.reset]

/-- A session with no command in flight; an `mx.go` that runs; a command of a slot with a descriptor; and an entry of a KV-cache table. -/
theorem witness_HobPrintsTheState :
    (let s := withHearth { imgH uctx flAddWord [] with hob := { Hob.reset with sess := some 1 } }
     s.fh.hob.sess.isSome = true ∧ s.fh.cmds = [] ∧ s.fh.slotOk 1 = true ∧ s.fh.descOf 1 = none) ∧
    (let c := cmdAt 1 .matrix .started 0x102
     let s := withHearth { hobH Hob.reset uctx with cmds := [c] }
     s.fh.cmds = [c] ∧ c.op = some .mxGo ∧ c.stage = .started ∧ c.performed = false) ∧
    (let c := { cmdAt 1 .vector .queued flAddWord with slot := 1 }
     let s := withHearth { imgH uctx flAddOpen [immDesc] with hob := { Hob.reset with sess := some 1 }, cmds := [c] }
     s.fh.slotOk 1 = true ∧ s.fh.descOf 1 = some immDesc ∧ s.fh.cmds = [c] ∧ c.slot = 1 ∧ c.ended = false) ∧
    (let v := 2 ^ 152 + 7 * 2 ^ 148 + 2 ^ 146
     let f (lo n : Nat) : Nat := leNat ((withHearth { hobH Hob.reset uctx with scratch := Mem.cells 0 (leBytes 32 v) }).fh.scratch.bytes 0 32) / 2 ^ lo % 2 ^ n
     f 192 64 = 0 ∧ f 160 32 % 128 = 0 ∧ 1 ≤ f 152 8 ∧ f 152 8 ≤ 128 ∧ f 148 4 ∈ [7, 9, 12, 13] ∧ f 128 18 = 0 ∧ f 64 64 % 64 = 0 ∧
      f 146 2 = 1 ∧ f 0 64 % 512 = 0 ∧ f 45 19 = 0) := by decide +kernel

/-- A session; a stream that is off, one between its ticks, one whose tick has had its frame, and one at a tick with and without room. -/
theorem witness_TraceChimneyAndLeases :
    (hobS Hob.reset).fh.hob.sess.isSome = true ∧ State.reset.chim.k = 0 ∧
    (let s := { State.reset with chim := ⟨4, 0, 0, 0, 0, 0⟩, cycle := 16 }
     s.tick % 2 ^ s.chim.k ≠ 0) ∧
    (let s := { State.reset with chim := ⟨4, 0, 0, 0, 0, 1⟩ }
     s.tick < s.chim.last) ∧
    (∀ b : Bool, let s := { State.reset with chim := ⟨24, 0, if b then 56704 else 56703, 0, 0, 0⟩ }
     s.chim.k ≠ 0 ∧ s.tick % 2 ^ s.chim.k = 0 ∧ s.chim.last ≤ s.tick ∧ decide (s.chim.bytes < s.chim.pos + 56704) = !b) := by
  decide +kernel

/-! ### The cirrus engines, links, the host -/

/-- An index with one vector, whose merge runs, with the root of generation 1. -/
def idx1 : Index :=
  { wq := 0, sec := false, dim := 8, ety := .int8, metric := .l2, degree := 4, logcap := 1024, mthresh := 256, logpos := 1,
    logbase := 0, entries := [⟨0, 5, List.replicate 8 1, none, 9⟩], roots := [⟨1, 0, none, []⟩], events := 1, merge := some (1, 1) }
def idxS : State := { State.reset with cirrus := { State.reset.cirrus with indexes := State.reset.cirrus.indexes.set 63 (some idx1) } }

/-- A page that a record's fetch, a merge, a command and a command of a saved hearth have still to read, after no retry and after seven,
with and without a replay; a merge that is published, and one that has lost the page of its entry; an index with a root. -/
theorem witness_RetriesMergesAndReclamation :
    (∀ b : Bool, let n := if b then 7 else 0
     let c := { cmdAt 1 .copy .started (waitWord 4 3 false) with xend := true, acked := true, list := [flashEnt] }
     let x : Hearth := { hearthOf uctx with cmds := [c], epoch := 5 }
     let cirrus (r : Reader) (p : Nat) : Cirrus := { idxS.cirrus with
       tasks := [⟨7, 0, 0, [], [], some [⟨3 * 16384, 64, 0⟩], [], [], 0⟩]
       tries := [(.merge 0, p, 3)] ++ if b then [(r, p, 7)] else [] }
     (let r : Reader := .record 0 0
      let s := { State.reset with cirrus := cirrus r 3, svc := { State.reset.svc with replay := if b then some [] else none } }
      s.readerPages r = [3] ∧ s.cirrus.triesOf r 3 = n ∧ s.svc.replay.isSome = b) ∧
     (let r : Reader := .merge 63
      let s := { State.reset with cirrus := cirrus r 9 }
      s.readerPages r = [9] ∧ s.cirrus.triesOf r 9 = n ∧ s.readerPages (.merge 0) = []) ∧
     (let r : Reader := .cmd 0 5 1
      let s := { withHearth x with cirrus := cirrus r 0 }
      s.readerPages r = [0] ∧ s.cirrus.triesOf r 0 = n ∧ (s.hearth 0).epoch = 5 ∧ (s.hearth 0).cmd? 1 = some c ∧
       (s.hearth 0).trace.bytes = 0) ∧
     (let r : Reader := .cmd 0 5 1
      let s := { State.reset with cirrus := cirrus r 0, saved := [(0, x)] }
      s.readerPages r = [0] ∧ s.cirrus.triesOf r 0 = n ∧ (s.hearth 0).epoch ≠ 5 ∧ x.epoch = 5 ∧ x.cmd? 1 = some c)) ∧
    idxS.cirrus.indexes[(63 : Fin 64)] = some idx1 ∧ idx1.merge = some (1, 1) ∧
    idx1.mergeLost idxS.cirrus.lost 1 = false ∧ ([0] : List Nat).length = (idx1.mergeNodes 1 1).length ∧ idxS.pagesFree [0] = true ∧
    idx1.mergeLost [9] 1 = true ∧ idx1.roots = ⟨1, 0, none, []⟩ :: [] := by decide +kernel

/-- Links over CXL with port 0 up, port 7 as given and a route to chip 9. -/
def linksOf (p : Port) : Links :=
  { State.reset.links with
      cxlUp := true
      ports := (State.reset.links.ports.set 0 ⟨true, false⟩).set 7 p
      routes := [(9, 0)] }

/-- A failed port, one that is up, and two that are up; the host's last byte, and a byte of die 0 that is secure. -/
theorem witness_LinksAndHostAccesses :
    (let s := { State.reset with links := linksOf ⟨false, true⟩ }
     (s.links.ports[(7 : Fin 8)]).failed = true ∧ (s.links.ports[(0 : Fin 8)]).up = true ∧
      (s.links.ports[(0 : Fin 8)]).failed = false ∧ (s.links.ports[(1 : Fin 8)]).up = false ∧ s.links.cxlUp = true ∧
      s.links.route 9 = some 0 ∧ s.links.route 8 = none ∧ s.links.chip = 0 ∧ s.hostReaches (6 * 2 ^ 48 - 1) 1 = true ∧
      s.hostDenied (6 * 2 ^ 48 - 1) 1 = false) ∧
    (let c := cmdAt 1 .copy .started (waitWord 3 4 false)
     let x : Xfer := { xferOf false with schip := 0, shearth := 0, dchip := 9 }
     let s := { withHearth { hearthOf uctx with cmds := [c] } with
       links := { linksOf ⟨false, false⟩ with wire := [x] } }
     s.links.wire = [x] ∧ x.schip = s.links.chip ∧ x.shearth = (0 : Fin 640).val ∧ x.sseq = some 1 ∧ x.sepoch = (s.hearth 0).epoch ∧
      s.links.route x.dchip = some 0 ∧ (s.hearth 0).cmd? 1 = some c ∧ (s.hearth 0).sideLog = []) ∧
    (let s := { State.reset with links := linksOf ⟨true, false⟩ }
     let x : Xfer := { xferOf false with schip := 3, dchip := 9 }
     (s.links.ports[(7 : Fin 8)]).up = true ∧ x.schip ≠ s.links.chip ∧ x.dchip ≠ s.links.chip ∧ s.links.route x.dchip = some 0) ∧
    (let s := { State.reset with links := linksOf ⟨true, false⟩ }
     (s.links.ports[(0 : Fin 8)]).up = true ∧ (s.links.ports[(7 : Fin 8)]).up = true) ∧
    (let s := { State.reset with links := linksOf ⟨true, false⟩, regions := State.reset.regions.set 0 ((Vector.replicate 64 (0 : BitVec 128)).set 63 (1 + 2 ^ 48)) }
     s.hostReaches 0 1 = true ∧ s.hostDenied 0 1 = true) := by decide +kernel

/-! ### The service OS -/

/-- Pairs 0 and 1 run, pair 0 leads under generation 1, and queue 0 is live. -/
def svcS : State :=
  { State.reset with svc := { State.reset.svc with gen := 1, started := 3, hobFw := true },
                     queues := State.reset.queues.set 0 { WorkQueue.reset with live := true } }

theorem witness_LeadershipMovesWithTheHeartbeat :
    svcS.leaderLive = true ∧ State.reset.leaderLive = false ∧ State.reset.svc.gen = 0 ∧
    (let s := { svcS with svc := { svcS.svc with gen := 2, qmGen := 2, gens := svcS.svc.gens.set 0 1 } }
     s.svc.leader = Fin.val (n := 5) 0 ∧ (s.svc.gens[(0 : Fin 5)]).toNat < s.svc.qmGen.toNat) ∧
    (∀ b : Bool, let s := { svcS with cycle := 16 * (if b then 100000 else 99999) }
     decide (s.svc.beat.toNat + 100000 ≤ s.tick) = b) ∧
    (let s := { svcS with cycle := 16 * 300001 }
     s.svc.gen ≠ 0 ∧ s.svc.beat.toNat + 300000 < s.tick ∧ s.svc.successor = some 1 ∧ s.svc.calls = [] ∧ s.svc.busy = false) ∧
    (let s := { svcS with cycle := 16 * 300000 }
     s.tick ≤ s.svc.beat.toNat + 300000) ∧
    svcS.svc.leader ≠ 1 ∧ svcS.svc.started.getLsbD 1 = true := by decide +kernel

/-- No slot of `svcS` is left to read. -/
theorem witness_noSlots (q : Fin 2048) : (svcS.queues[q]).dbell ≤ (svcS.queues[q]).head := by
  have e : svcS.queues = (Vector.replicate 2048 WorkQueue.reset).set 0 { WorkQueue.reset with live := true } := rfl
  rw [e, Fin.getElem_fin, Vector.getElem_set]
  split <;> simp [WorkQueue.reset]

/-- Whatever the pairs' images, one of the cases of a boot holds. -/
theorem witness_BootCases (v : Fin 5 → Bool) : (∀ i, v i = false) ∨ ∃ l, v l = true ∧ ∀ j, j < l → v j = false := by
  cases h0 : v 0
  · cases h1 : v 1
    · cases h2 : v 2
      · cases h3 : v 3
        · cases h4 : v 4
          · exact .inl fun i => by fin_cases i <;> assumption
          · exact .inr ⟨4, h4, fun j hj => by fin_cases j <;> first | assumption | exact absurd hj (by decide)⟩
        · exact .inr ⟨3, h3, fun j hj => by fin_cases j <;> first | assumption | exact absurd hj (by decide)⟩
      · exact .inr ⟨2, h2, fun j hj => by fin_cases j <;> first | assumption | exact absurd hj (by decide)⟩
    · exact .inr ⟨1, h1, fun j hj => by fin_cases j <;> first | assumption | exact absurd hj (by decide)⟩
  · exact .inr ⟨0, h0, fun j hj => absurd hj (Fin.not_lt_zero _)⟩

/-- Ticks 0 and 1; no thermal limit and one; grants and shares of nothing, which keep to every budget, and none at all. -/
theorem witness_PowerBudgetsFollowTheLimits :
    let sh : List (List Nat) := [List.replicate 162 0, List.replicate 162 0, List.replicate 162 0, List.replicate 162 0, []]
    State.reset.tick % 200 = 0 ∧ ({ State.reset with cycle := 16 } : State).tick % 200 ≠ 0 ∧ State.reset.power.thermal = none ∧
    (List.replicate 5 0).length = 5 ∧ sh.map (·.length) = [162, 162, 162, 162, 0] ∧ sh.map List.sum = List.replicate 5 0 ∧
    (List.replicate 5 0).sum ≤ min State.reset.power.request Config.regulatorLimit ∧
    (List.replicate 5 0).sum ≤ min (min 900 (min State.reset.power.request Config.regulatorLimit)) (State.reset.power.request - 1) ∧
    ([] : List Nat).length ≠ 5 ∧ ({ State.reset.power with thermal := some 900 } : Power).thermal.isSome = true ∧
    State.reset.power.request ≠ 0 := by
  refine ⟨by decide, by decide, by decide, by decide, by decide +kernel, by decide +kernel, by simp, by simp, by decide, by decide, by decide⟩

/-- A call block of zeros names no call; one of number 0x50 sets the power budget of its first argument. -/
def blockS : State :=
  { svcS with mem := Mem.cells (physKey 5 0) (leBytes 64 (1 + 0x50 * 2 ^ 64 + 900 * 2 ^ 128)) }

/-- The outcome of a call, without its state. -/
def outcome (x : State × Option (Nat × BitVec 256)) : Option (Nat × BitVec 256) := x.2

/-- A request under number 1 of the host, or of context 0 of hearth 0, with up to three arguments. -/
def hostReq (a b c : Word) (ch : List Nat) : CallReq := ⟨0, 0, 1, #v[a, b, c, 0, 0, 0], ch⟩
def ctxReq (seq a : Word) : CallReq := ⟨1, 0, seq, #v[a, 0, 0, 0, 0, 0], []⟩
/-- A context waits for its call. -/
def waitsS : State := { svcS.setFc { mctx with st := .waiting, wait := .svc } with cycle := 0 }
/-- The first GiB is being migrated. -/
def movingS : State :=
  { mapped (hearthOf uctx) [] with svc := { svcS.svc with moving := [⟨0, 9, 0, 2 ^ 30, 0, 0⟩] }, queues := svcS.queues }

/-- The mailbox has taken the request that stands at its address. -/
def takenS (s : State) : State :=
  { s with svc := { s.svc with
      busy := true
      done := false
      mail := some ⟨s.svc.callAddr.toNat, ofBytes512 (s.hostBytes s.svc.callAddr.toNat 64), []⟩ } }

/-- No leader; a call that ends, one that must wait, and a mailbox that is busy. -/
theorem witness_HostCallsGoThroughTheMailbox :
    State.reset.svc.busy = false ∧ State.reset.leaderLive = false ∧ blockS.svc.busy = false ∧ blockS.leaderLive = true ∧
    (let w := ofBytes512 (blockS.hostBytes blockS.svc.callAddr.toNat 64)
     (bitsN w 80 48 != 0) = false ∧
      outcome ((takenS blockS).perform (bitsN w 64 16)
        ⟨0, 0, field w 0 64, Vector.ofFn fun i : Fin 6 => field w (128 + 64 * i.val) 64, []⟩ (bitsN w 80 48 != 0)) = some (0, 0)) ∧
    (let s := { movingS with mem := movingS.mem ++ Mem.cells (physKey 5 0) (leBytes 64 (1 + 0x21 * 2 ^ 64)) }
     let w := ofBytes512 (s.hostBytes s.svc.callAddr.toNat 64)
     s.svc.busy = false ∧ s.leaderLive = true ∧
      outcome ((takenS s).perform (bitsN w 64 16)
        ⟨0, 0, field w 0 64, Vector.ofFn fun i : Fin 6 => field w (128 + 64 * i.val) 64, []⟩ (bitsN w 80 48 != 0)) = none) := by
  decide +kernel

/-- No leader; a context that waits for a call that ends; a call that must wait; a committed record of the number, and a later one. -/
theorem witness_CallsAreAnsweredOnce :
    State.reset.leaderLive = false ∧
    (waitsS.leaderLive = true ∧ outcome (waitsS.perform 0x50 (ctxReq 1 900) false) = some (0, 0) ∧ waitsS.frozen 0 = false ∧
      waitsS.fc.st = .waiting ∧ waitsS.fc.wait = .svc ∧ (ctxReq 1 900).caller = 1 + (0 : Fin 640).val) ∧
    (movingS.leaderLive = true ∧ outcome (movingS.perform 0x21 (hostReq 0 0 0 []) false) = none ∧ movingS.svc.calls = []) ∧
    (let c : CallRec := ⟨0, 1, 0x50, true, 0, 0, 0, Vector.replicate 6 0, []⟩
     let s := { svcS with svc := { svcS.svc with calls := [c] } }
     s.leaderLive = true ∧ s.svc.callRec 0 1 = some c ∧ c.committed = true) ∧
    (let c : CallRec := ⟨0, 2, 0x50, true, 0, 0, 0, Vector.replicate 6 0, []⟩
     let s := { svcS with svc := { svcS.svc with calls := [c] } }
     s.svc.callRec 0 1 = none ∧ s.svc.calls = [c] ∧ (1#64).toNat ≤ c.seq.toNat) := by decide +kernel

/-- `CallFresh` for the requests of the host under number 1, when no call stands on record. -/
theorem call_fresh_svcS (r : CallReq) (s : State) (h : s.svc = svcS.svc) (hr : r.seq = 1) (hc : r.caller = 0) : CallFresh s r := by
  refine ⟨⟨?_, by rw [hr]; decide, fun l hl => by omega, ?_⟩, ?_, ?_⟩
  · simp only [State.leaderLive, h]; decide
  · rw [h]; intro c hc; cases hc
  · rw [h]; intro c hc; cases hc
  · rw [h]; intro c hc; cases hc

/-- The file of an image of one code word. -/
def imgFile : List Byte := leBytes 64 (1 + 2 ^ 16 + 4 * 2 ^ 32) ++ leBytes 8 0x0200400B
/-- Memory that holds it at 0x100000. -/
def fileS : State := { mapped (hearthOf uctx) (Mem.cells 0x100000 imgFile) with svc := svcS.svc, queues := svcS.queues }

/-- Queue 0 has one record, which runs on context 0 of hearth 0 with the commands given. -/
def runS (cs : List Cmd) : State :=
  let s := recAt taskCtx 1 (recOf 0 0)
  { s.setFh { s.fh with cmds := cs } with svc := { svcS.svc with images := s.svc.images }, queues := svcS.queues }

/-- An image of the service; queues that are free, torn down, served, not served, and whose space has a page under migration; and one whose
record runs, with a vector command under way and without. -/
theorem witness_ImageAndQueueCalls :
    ((hostReq 0x100000 72 0 []).zeroFrom 3 = true ∧ fileS.queueArg (hostReq 0x100000 72 0 []) 0 = .ok 0 ∧
      freeNumber (fileS.svc.images.map (·.id)) none 1 65535 = some 1 ∧
      fileS.unitRead (fileS.queueAgent 0) 0x100000 72 = some imgFile ∧
      (match parseImage imgFile 1 0 false with | .ok i => i.code.length | .error _ => 0) = 4) ∧
    (let s := { svcS with svc := { svcS.svc with images := [imgOf flAddWord []] } }
     (hostReq 1 0 0 []).zeroFrom 1 = true ∧ (s.svc.images.find? fun x => x.id == 1) = some (imgOf flAddWord []) ∧
      (imgOf flAddWord []).sec = false ∧ s.imageUsed (imgOf flAddWord []) = false) ∧
    ((hostReq 2047 64 (BitVec.ofNat 64 (16 + 256 * 63)) []).zeroFrom 3 = true ∧ (svcS.queues[(2047 : Fin 2048)]).live = false ∧
      (let w : WorkQueue := { WorkQueue.reset with live := true, torn := true }
       ({ svcS with queues := svcS.queues.set 5 w } : State).queues[(5 : Fin 2048)] = w ∧ w.torn = true)) ∧
    ((hostReq 0 0 0 []).zeroFrom 1 = true ∧ svcS.queueArg (hostReq 0 0 0 []) 0 = .ok 0 ∧ svcS.qm.recs = [] ∧ svcS.cirrus.tasks = [] ∧
      svcS.queueMoving 0 = false ∧ svcS.leaderLive = true ∧ svcS.svc.live (svcS.queues[(0 : Fin 2048)]).pair = true ∧
      movingS.queueMoving 0 = true ∧ movingS.queueArg (hostReq 0 0 0 []) 0 = .ok 0 ∧
      (let s := { svcS with
         queues := svcS.queues.set 0 { WorkQueue.reset with live := true, pair := 4 }
         qm := { svcS.qm with graphs := [graphOf none none] } }
       s.svc.live (s.queues[(0 : Fin 2048)]).pair = false ∧ s.queueArg (hostReq 0 0 0 []) 0 = .ok 0 ∧ (graphOf none none).wq = 0)) ∧
    (∀ b : Bool, let c := cmdAt 1 .vector .started (waitWord 0 0 false)
     let s := runS (if b then [c] else [])
     s.queueMoving 0 = false ∧ s.qm.graphs = [] ∧ s.cirrus.tasks = [] ∧ s.saved = [] ∧ s.qm.recs = [ref0 1] ∧ (ref0 1).running = true ∧
      s.queueArg (hostReq 0 0 0 []) 0 = .ok 0 ∧ (s.hearth 0).idle = false ∧ ((s.hearth 0).ctx 0).run = .task 0x100000 0 ∧
      (s.hearth 0).cmds = (if b then [c] else []) ∧ (s.hearth 0).arrQ = [] ∧ c.q = .vector ∧ c.stage = .started ∧ c.performed = false ∧
      recMem s 0x100000 = true ∧ recParent (recBits s (keysAt 0x100000)) = 0 ∧ recCfen (recBits s (keysAt 0x100000)) = false) ∧
    ((ctxReq 0 0).zeroFrom 1 = true ∧ waitsS.queueArg (ctxReq 0 0) 0 = .ok 0 ∧ waitsS.leaderLive = true ∧ waitsS.fc.st = .waiting ∧
      waitsS.fc.wait = .svc ∧ waitsS.frozen 0 = false) := by decide +kernel

/-- No other hearth of `svcS` or of `runS` runs anything. -/
theorem witness_othersRest (cs : List Cmd) (h : Fin 640) :
    (svcS.hearth h).runsQueue 0 = false ∧ (h ≠ 0 → (runS cs).hearth h = Hearth.reset) := by
  refine ⟨?_, fun hh => ?_⟩
  · have e : svcS.hearth h = Hearth.reset := by simp [State.hearth, svcS, State.reset]
    rw [e]; decide +kernel
  · show (((State.reset.setHearth 0 (imgH taskCtx flAddWord [])).setHearth 0 _).hearth h) = _
    rw [State.hearth_setHearth_ne _ _ hh, State.hearth_setHearth_ne _ _ hh]
    simp [State.hearth, State.reset]

/-- So no other context of `runS` runs a record, and no hearth has a command in flight where hearth 0 has none. -/
theorem witness_runsAlone (cs : List Cmd) :
    (∀ k : Loc, k ≠ ⟨0, 0⟩ → ((runS cs).ctx k).run.ofQueue 0 = false) ∧
    ∀ h c, c ∈ ((runS []).hearth h).cmds → c.run.ofQueue 0 = false := by
  refine ⟨fun k hk => ?_, fun h c hc => ?_⟩
  · by_cases e : k.h = 0
    · have hc : k.c ≠ 0 := fun e' => hk (by cases k; simp_all)
      have e2 : (runS cs).hearth k.h = { imgH taskCtx flAddWord [] with cmds := cs } := by rw [e]; rfl
      have : ((runS cs).ctx k) = Ctx.reset := by
        show ((runS cs).hearth k.h).ctx k.c = _
        rw [e2]
        show (imgH taskCtx flAddWord []).ctx k.c = _
        revert hc
        generalize k.c = c
        revert c
        decide +kernel
      rw [this]; rfl
    · show (((runS cs).hearth k.h).ctx k.c).run.ofQueue 0 = false
      rw [(witness_othersRest cs k.h).2 e]
      simp [Hearth.reset, Hearth.ctx, Ctx.reset, RunRec.ofQueue]
  · by_cases e : h = 0
    · subst e; cases hc
    · rw [(witness_othersRest [] h).2 e] at hc; cases hc

/-- Address space 1 is free of every other queue. -/
theorem witness_freeSpace (q : Fin 2048) : ¬ ∃ p : Fin 2048, p ≠ q ∧ (svcS.queues[p]).live = true ∧ (svcS.queues[p]).asid = 1 := by
  rintro ⟨p, -, h1, h2⟩
  have e : svcS.queues = (Vector.replicate 2048 WorkQueue.reset).set 0 { WorkQueue.reset with live := true } := rfl
  rw [e, Fin.getElem_fin, Vector.getElem_set] at h1 h2
  split at h1 <;> simp_all [WorkQueue.reset]

/-- The tables of `fileS` map the first GiB by one leaf at 0x20000. -/
def mapReq (a : Vector Word 6) (ch : List Nat) : CallReq := ⟨0, 0, 1, a, ch⟩

theorem witness_MappingCalls :
    (let sz := 2
     (mapReq #v[0, 0, BitVec.ofNat 64 (sz + 64 * 3 + 7 * 2 ^ 20), 0, 0, 0] []).zeroFrom 5 = true ∧ sz < 3 ∧
      mapAddrOk 0 (pageBits sz) = true ∧ fileS.queueArg (mapReq (Vector.replicate 6 0) []) 0 = .ok 0 ∧
      fileS.pinRefused 0 0 0 (0, 0) (physKey 6 0) (2 ^ pageBits sz) = none ∧ fileS.rootOf ⟨some 0, false, true⟩ 0 = some 0x10000 ∧
      (fileS.leafSlot 0 0 (pageBits sz) 0x10000 (levelsTo (pageBits sz)) []).map (·.2) = some 0x20000) ∧
    (mapAddrOk 0 0 = true ∧ fileS.mapping 0 0 = some (0x20000, 0x1F, 30) ∧ fileS.isMoving (pageKey 0 0x1F 30) = false ∧
      fileS.pinRefused 0 0 0 (0, 0) (pageKey 0 0x1F 30) (2 ^ 30) = none ∧ 0 % 2 ^ 30 = 0 ∧ 16 ≤ 30 ∧
      fileS.pinRefused 0 1 640 (0, 0) (pageKey 0 0x1F 30) (2 ^ 30) = some 4) ∧
    (movingS.isMoving (pageKey 0 0x1F 30) = true ∧ movingS.mapping 0 0 = some (0x20000, 0x1F, 30) ∧
      movingS.queueArg (hostReq 0 0 0 []) 0 = .ok 0) ∧
    (let c : CallRec := ⟨0, 1, 0x23, false, 0, 0, 0, Vector.replicate 6 0, []⟩
     let r := hostReq 0 0 2 []
     let s := { movingS with svc := { svcS.svc with calls := [c], moving := [⟨0, 1, pageKey 0 0x1F 30, 2 ^ 30, 0, 0⟩] } }
     s.leaderLive = true ∧ r.seq = 1 ∧ (s.svc.callRec 0 1).map (·.committed) = some false ∧ s.mapping 0 0 = some (0x20000, 0x1F, 30) ∧
      r.zeroFrom 4 = true ∧ r.argN 2 = 2 ∧ r.argN 3 = 0 ∧ s.fh.sideLog = [] ∧ s.fh.asid = some 0) ∧
    (∀ n : Fin 2, let a := if n = 0 then 1000 else 1000000
     (hostReq (BitVec.ofNat 64 a) 0 0 []).zeroFrom 1 = true ∧ 1000 ≤ (hostReq (BitVec.ofNat 64 a) 0 0 []).argN 0 ∧
      (hostReq (BitVec.ofNat 64 a) 0 0 []).argN 0 ≤ 1000000) ∧
    (let k : Ctx := { uctx with st := .held, fault := some ⟨13, 0x100000, false⟩ }
     let s := movingS.setFc k
     s.fc.st = .held ∧ s.fc.fault = some ⟨13, 0x100000, false⟩ ∧ 0 < accessBytes (s.fh.heldInstr s.fc) ∧
      (match s.leaf (s.fh.agent s.fc) (0x100000 + BitVec.ofNat 64 0) with
        | .ok e => e
        | .error _ => (0, 0)) = (0x1F, 30) ∧
      (let p := leafPlace (ownerOf (0x100000 : Word)) 0x1F 30 0x100000
       pageKey 0 0x1F 30 ≤ physKey p.1 p.2 ∧ physKey p.1 p.2 < pageKey 0 0x1F 30 + 2 ^ 30)) := by decide +kernel

/-- No hearth has a side log. -/
theorem witness_noSideLogs (h : Fin 640) : (movingS.hearth h).sideLog = [] := by
  by_cases e : h = 0
  · subst e; rfl
  · have e : movingS.hearth h = Hearth.reset := by
      show (State.reset.setHearth 0 (hearthOf uctx)).hearth h = _
      rw [State.hearth_setHearth_ne _ _ e]
      simp [State.hearth, State.reset]
    rw [e]; rfl

/-- A routine of two bytes, and the file that holds it; the signature is one that the service OS accepts. -/
def routineFile : List Byte := leBytes 64 (1 + 5 * 2 ^ 32 + 2 * 2 ^ 48 + 2 ^ 80) ++ [1, 2] ++ List.replicate 64 0
theorem witness_routine_parses (keys : List Byte)
    (h : signedBy (Config.imageKeys keys) (routineFile.drop 66) (routineFile.take 66) = true) :
    parseRoutine keys routineFile = some ⟨5, 0, 1, [1, 2]⟩ := by
  have h' : (!signedBy (Config.imageKeys keys) (routineFile.drop 66) (routineFile.take 66)) = false := by rw [h]; rfl
  have e : bitsN (BitVec.ofNat 512 (fileN routineFile.toArray 0 64)) 48 16 = 2 := by decide +kernel
  simp only [parseRoutine, e, h', show 64 + 2 = 66 from rfl]
  decide +kernel

/-- No record, hearth or saved hearth of `idxS` names index 63. -/
theorem witness_indexFree : idxS.indexUsed 63 = false := by
  have h : idxS.hearths.any (fun x => x.names 63) = false := by
    rw [show idxS.hearths = Vector.replicate 640 Hearth.reset from rfl, Vector.any_replicate]
    decide
  rw [State.indexUsed, h]
  decide

theorem witness_RoutineFlashAndIndexCalls :
    (let s := { mapped (hearthOf uctx) (Mem.cells 0x100000 routineFile) with svc := svcS.svc }
     (hostReq 0 0x100000 130 []).zeroFrom 3 = true ∧ s.fh.sec = false ∧ s.unitRead ⟨s.fh.asid, false, false⟩ 0x100000 130 = some routineFile ∧
      s.routineUsed 0 5 = false ∧ s.fh.routines = [] ∧ (hostReq 0 5 0 []).zeroFrom 2 = true ∧
      (let c := { cmdAt 1 .copy .started (waitWord 3 3 false) with desc := some (BitVec.ofNat 512 (5 * 2 ^ 192)) }
       (withHearth { hearthOf uctx with cmds := [c], routines := [⟨5, 0, 1, [1, 2]⟩] }).routineUsed 0 (bitsN (descAux (BitVec.ofNat 512 (5 * 2 ^ 192))) 0 16) = true)) ∧
    ((hostReq 0 16384 0 []).zeroFrom 2 = true ∧ svcS.queueArg (hostReq 0 16384 0 []) 0 = .ok 0 ∧ svcS.cirrus.ranges = [] ∧ svcS.cirrus.reserved = [] ∧
      (∀ i : Fin 64, svcS.cirrus.indexes[i] = none) ∧ (hostReq 0 16384 0 [16384 * 9]).pick 0 = some (16384 * 9) ∧
      svcS.flashFreeAt (16384 * 10) 16384 = true) ∧
    (let s := { mapped (hearthOf uctx) [] with cirrus := { State.reset.cirrus with ranges := [⟨0, 0, 32768, false⟩] } }
     (hostReq 0 0x100000 512 []).zeroFrom 3 = true ∧ s.rangeAt 0 512 = some ⟨0, 0, 32768, false⟩ ∧
      (s.unitRead (s.queueAgent 0) 0x100000 512).isSome = true ∧ (hostReq 16384 16384 0 []).zeroFrom 2 = true ∧
      s.rangeAt 16384 16384 = some ⟨0, 0, 32768, false⟩) ∧
    ((mapReq #v[0, BitVec.ofNat 64 (2048 % 2048 + 2 ^ 18 * 48), 1048576, 256, 0, 0] [63, 0]).zeroFrom 4 = true ∧
      svcS.queueArg (hostReq 0 0 0 []) 0 = .ok 0 ∧ svcS.cirrus.indexes[(63 : Fin 64)] = none ∧
      svcS.flashFreeAt 0 (1048576 * 16384) = true) ∧
    ((hostReq 63 0 0 []).zeroFrom 1 = true ∧ idxS.cirrus.indexes[(63 : Fin 64)] = some idx1 ∧ idx1.sec = false ∧
      ({ idx1 with merge := none } : Index).merge = none) ∧
    ((hostReq (9 * 16384) 16384 0 []).zeroFrom 2 = true ∧ idxS.rangeAt (9 * 16384) 16384 = none ∧ idxS.indexHas 63 9 = true) := by
  decide +kernel

/-- Index 63 is the only one of `idxS`. -/
theorem witness_indexWorld (j : Fin 64) (y : Index) (h : idxS.cirrus.indexes[j] = some y) : y.sec = false := by
  have e : idxS.cirrus.indexes = (Vector.replicate 64 none).set 63 (some idx1) := rfl
  rw [e, Fin.getElem_fin, Vector.getElem_set] at h
  split at h
  · cases h; rfl
  · simp at h

/-- A log of one byte that stands in memory of the service OS. -/
def logS : State :=
  { mapped (hearthOf uctx) [(0x100000, 7)] with
    roots := [⟨0, none, 0x10000⟩]
    svc := { svcS.svc with logs := [⟨[7], [.pass 1], [], [], []⟩] }
    queues := svcS.queues }

theorem witness_PowerTraceAndReplayCalls :
    ((hostReq 900 0 0 []).zeroFrom 1 = true ∧ (hostReq 1800 0 0 []).argN 0 = 1800 ∧ svcS.svc.hobFw = true ∧
      (hostReq 639 64 64 []).zeroFrom 3 = true ∧ (hostReq 24 64 64 []).zeroFrom 3 = true ∧ (svcS.hearth 639).hob.sess = none) ∧
    (let s := { svcS.setHearth 639 { Hearth.reset with hob := { Hob.reset with sess := some 3 } } with turns := [.pass 1] }
     (s.hearth 639).hob.sess = some ((hostReq 3 0 0 []).argN 0) ∧ (s.hearth 638).hob.sess ≠ some 3 ∧
      (s.hearth 639).hob.stopped = false ∧ s.svc.recording = false ∧ (hostReq 0 0 0 []).arg 0 = 0 ∧
      ({ s with svc := { s.svc with recording := true } } : State).svc.recording = true ∧ (hostReq 1 0 0 []).arg 0 = 1 ∧
      (hostReq 1 0 0 []).zeroFrom 3 = true) ∧
    ((hostReq 0xFF00000000100000 1 0 []).zeroFrom 2 = true ∧
      (logS.closeLog.logAt 0xFF00000000100000 1).map (·.turns) = some [.pass 1] ∧ logS.closeLog.logAt 0xFF00000000100000 0 = none ∧
      (rangeOk 0xFF00000000100000 1 && decide (ownerOf 0xFF00000000100000 < 5)) = true ∧
      logS.xlatN osAgent .store 0xFF00000000100000 1 = .ok [0x100000] ∧ Mem.wf [] = true) ∧
    (waitsS.leaderLive = true ∧ (ctxReq 0 0).zeroFrom 0 = true ∧ waitsS.fc.st = .waiting ∧ waitsS.fc.wait = .svc) := by decide +kernel

/-- No other hearth is under the session of the hearth that is released. -/
theorem witness_sessions (x : Hearth) (g : Fin 640) (h : g ≠ 639) : ((svcS.setHearth 639 x).hearth g).hob.sess ≠ some 3 := by
  have e : (svcS.setHearth 639 x).hearth g = Hearth.reset := by
    rw [State.hearth_setHearth_ne _ _ h]
    simp [State.hearth, svcS, State.reset]
  rw [e]
  decide


/-! ### Decoding, the step, the invariant -/

theorem witness_DecodeOfEncode :
    (Instr.integerOp (.ri .addi 31 31 0xFFF)).wellFormed = true ∧ (encodeRW (.integerOp (.ri .addi 31 31 0xFFF))).isSome = true ∧
    (encodeCmd (.flAdd noOperands)).isSome = true := by decide

/-- Nothing is due where no context waits, no hearth is being pre-empted, no record waits, no graph is held, no leader beats, no frame is to
be latched and no grant period begins. -/
theorem witness_nothingDue (s : State) (hw : ∀ l, (s.ctx l).wait = .none) (hh : ∀ h, (s.hearth h).halting = false) (hr : s.qm.recs = [])
    (hg : s.qm.graphs = []) (hl : s.leaderLive = false) (hk : s.chim.k = 0) (hp : s.grantDue = false) :
    s.due = none ∧ s.dueDispatch = none := by
  have e0 : allLocs.find? s.waitReady = none := List.find?_eq_none.2 fun l _ => by simp [State.waitReady, hw]
  have e1 : allLocs.find? s.waitOver = none := List.find?_eq_none.2 fun l _ => by simp [State.waitOver, hw]
  have e2 : allLocs.find? s.wfiOver = none := List.find?_eq_none.2 fun l _ => by simp [State.wfiOver, hw]
  have e3 : s.ready = [] := by simp [State.ready, hr]
  have e4 (e : Fin 8) : s.cirrusChoice [] e = none := by
    simp only [State.cirrusChoice]
    split <;> rfl
  have e6 : (List.finRange 640).findSome? s.haltStep = none := List.findSome?_eq_none_iff.2 fun h _ => by simp [State.haltStep, hh]
  have w : s.dueWait = none := by
    unfold State.dueWait
    rw [e0]
    dsimp only
    rw [e1]
    dsimp only
    rw [e2, Option.map_none]
  have t : s.dueTime = none := by
    simp only [State.dueTime, State.latchDue, State.beatDue, hl, hk, hp, bne_self_eq_false, Bool.false_and, Bool.false_eq_true, if_false]
  have r : s.dueRecord = none := by simp [State.dueRecord, hg, hr, e3]
  refine ⟨by simp [State.due, w, t, r, e6], ?_⟩
  simp [State.dueDispatch, State.firstChoice, e3, e4]

/-- A state with one hearth of a context that runs: no hearth and no context of it waits. -/
theorem witness_oneHearth (x : Hearth) (hx : x.halting = false) (hw : ∀ c, (x.ctx c).wait = .none) :
    (withHearth x).due = none ∧ (withHearth x).dueDispatch = none := by
  have e (h : Fin 640) : (withHearth x).hearth h = if h = 0 then x else Hearth.reset := by
    by_cases n : h = 0
    · simp [withHearth, State.setFh, n, State.reset]
    · simp only [withHearth, State.setFh, n, if_false]
      rw [State.hearth_setHearth_ne _ _ (by simpa [State.reset] using n)]
      simp [State.hearth, State.reset]
  refine witness_nothingDue _ (fun l => ?_) (fun h => ?_) rfl rfl rfl rfl
    (show State.grantDue State.reset = false by decide +kernel)
  · simp only [State.ctx, e]
    split
    · exact hw _
    · simp [Hearth.reset, Hearth.ctx, Ctx.reset]
  · rw [e]
    split
    · exact hx
    · rfl

/-- A context that runs the illegal word 0 at pc 0, as a forced turn and as the agenda's, and a started `v.add`. -/
theorem witness_StepExecutesAtThePc :
    ((withHearth { hearthOf uctx with hob := Hob.reset }).due = none ∧
      (withHearth { hearthOf uctx with hob := Hob.reset }).dueDispatch = none) ∧
    (let s := withHearth { hearthOf uctx with hob := Hob.reset }
     s.forced = none ∧ s.svc.recording = false ∧ s.svc.script = [] ∧ s.agenda = [] ∧
     ({ s with forced := some (.run s.foc) } : State).forced = some (.run s.foc) ∧
     s.fc.st = .running ∧ s.fc.wait = .none ∧ s.frozen s.foc.h = false ∧ s.fc.irqs = 0 ∧ s.fc.pend = [] ∧
     s.fh.hob.sess = none ∧ s.fh.hob.passed = [] ∧ (s.hearth s.foc.h).hob.step ≠ some s.foc.c) :=
  ⟨witness_oneHearth _ (by decide +kernel) (by decide +kernel), by decide +kernel⟩

theorem witness_StepPerformsTheDecodedCommand :
    let c := cmdAt 1 .vector .started (waitWord 0 0 false)
    let s := { pathS c with agenda := [.engine 0 1 1 []] }
    ((pathS c).due = none ∧ (pathS c).dueDispatch = none) ∧ s.forced = none ∧ s.svc.recording = false ∧ s.svc.script = [] ∧ s.agenda = .engine 0 1 1 [] :: [] ∧
    ({ s with forced := some (.engine 0 1 1 []) } : State).forced = some (.engine 0 1 1 []) ∧
    (s.hearth 0).cmd? 1 = some c ∧ c.stage = .started ∧ c.performed = false ∧ (s.hearth 0).idle = false ∧
    (s.hearth 0).copyHeld = false ∧ decodeCmd c.word = some (.vAdd noOperands) :=
  ⟨witness_oneHearth _ (by decide +kernel) (by decide +kernel), by decide +kernel⟩

theorem witness_EveryStepKeepsMemoryCanonical : State.reset.memOk = true ∧ memS.memOk = true := by decide +kernel

/-! ## The transform core (R77, R276), by the RISC-V encodings -/

/-- `c.addi sp, -16`, `c.sdsp ra, 8(sp)`, `ret`, `vadd.vv v1, v2, v3`, `vle8.v v8, (a0)`, `vsetvli t0, a1, e8, m8, ta, ma`, and
halfword 0, which is illegal. -/
theorem test_core_decode :
    xDecode 0x1141 = some (.int (.ri .addi 2 2 (-16)), 2) ∧ xDecode 0xE406 = some (.store .d 1 2 8, 2) ∧
    xDecode 0x8082 = some (.br (.jalr 0 1 0), 2) ∧ xDecode 0x022180D7 = some (.varith (.bin .add) ⟨.v, true, 1, 2, 3⟩, 4) ∧
    xDecode 0x02050407 = some (.vmem ⟨false, .unit, 1, 8, true, 8, 10, 0⟩, 4) ∧
    xDecode 0x0C35F2D7 = some (.vset (.vli 5 11 0xC3), 4) ∧ xDecode 0 = none := by decide +kernel

/-- A core with e8, m1 and four elements: v1 is 1, 2, 3, 250 and v2 is 255, 1, 200, 10. -/
def coreS : XCore :=
  { XCore.reset with
    vl := 4
    vtype := 0
    vs := (XCore.reset.vs.set 1 0xFA030201).set 2 0x0AC801FF
    pc := 0x10000 }

/-- `vadd.vv v3, v2, v1` wraps each element: 0, 3, 203, 4. -/
theorem test_core_vadd :
    (match coreS.step ⟨0, leBytes 4 0x022081D7⟩ with
      | .next k => k.vs[3] == 0x04CB0300 && k.pc == 0x10004
      | _ => false) = true := by decide +kernel

/-- `ecall` with 5 in a0 ends the chunk; a load from 1 of eight bytes is misaligned and ends the routine. -/
theorem test_core_ends :
    (coreS.set 10 5).step ⟨0, leBytes 4 0x73⟩ = .chunk { coreS.set 10 5 with busy := false } 5 ∧
    (coreS.set 10 1).step ⟨0, leBytes 4 0x00053783⟩ = .fault := by decide +kernel

/-! ## Printing (R27) and signatures (R98, R272, R382) -/

/-- The second line of R27's table of pairs, from the fields that R27 gives for it. -/
theorem test_verbose :
    verbose (0#32 ++ 0#12 ++ 0#6 ++ 0x40000107#32 ++ 0#32 ++ 0#22 ++ 0#22 ++ 0x40005#22 ++ 0x40004#22 ++ 0x40004#22 ++ 0#2 ++ 0#5 ++
      0b11010#5 ++ 8#4 ++ 1#4 ++ 0#12) none =
    "v.add.int8.rne.sat v4, v4, v5, _, _ guard(!p2,off,and) wait=none sig=add(fl7,1*1) hint=0x00 sched=0x000 imm=0x0000_0000" := by
  decide +kernel

/-- The published digest of "abc" (FIPS 180-4). -/
theorem test_sha512 : sha512 [97, 98, 99] = beBytes 64
    (0xddaf35a193617abacc417349ae20413112e6fa4e89a97ea20a9eeee64b55d39a * 2 ^ 256 +
      0x2192992a274fc1a836ba3c23a3feebbd454d4423643ce80e2a9ac94fa54ca49f) := by decide +kernel

/-- The first published vector of RFC 8032: the signature of the empty message. -/
theorem test_ed25519 : ed25519 (beBytes 32 0xd75a980182b10ab7d54bfed3c964073a0ee172f3daa62325af021a68f707511a)
    (beBytes 64 (0xe5564300c360ac729086e2cc806e828a84877f1eb8e5d974d873e065224901555 * 2 ^ 252 +
      0xfb8821590a33bacc61e39701cf9b46bd25bf5f0595bbe24655141438e7a100b)) [] = true := by decide +kernel

end Sys2Proof.Tests
end

/-! PROOFS. The reset state (O59), the CSR instructions (O7), the links and the host's accesses (O48), and the calls of the host and of
the hearths (O50): first the rules of each operation, then the theorem that settles the statement. -/

namespace Sys2Proof.Machine

/-! ## The reset state -/

@[simp] theorem State.hearth_reset (h : Fin 640) : State.reset.hearth h = Hearth.reset := by
  simp [State.hearth, State.reset]

@[simp] theorem State.ctx_reset (l : Loc) : State.reset.ctx l = Ctx.reset := by
  simp [State.ctx, Hearth.ctx, Hearth.reset]

@[simp] theorem Ctx.get_reset (r : XReg) : Ctx.reset.get r = 0 := by simp [Ctx.get, Ctx.reset]

@[simp] theorem Hearth.flag_reset (fl : Fin 256) : Hearth.reset.flag fl = 0 := by simp [Hearth.flag, Hearth.reset]

/-- Settles O59: the reset state has the same hearth everywhere, and each clause is a field of it. -/
theorem resetState : Obligations.ResetState := by
  unfold Obligations.ResetState
  refine ⟨rfl, rfl, rfl, rfl, fun h fl => ?_, fun l x => ?_, fun h => ?_⟩
  · rw [State.hearth_reset, Hearth.flag_reset]
  · rw [State.ctx_reset]
    exact ⟨Ctx.get_reset x, rfl, rfl⟩
  · rw [State.hearth_reset]
    exact ⟨rfl, rfl, rfl⟩

/-! ## Writing the focus context -/

@[simp] theorem Hearth.setCtx_ctx (x : Hearth) (c : Fin 4) : x.setCtx c (x.ctx c) = x := by
  simp [Hearth.setCtx, Hearth.ctx]

@[simp] theorem Hearth.setCtx_setCtx (x : Hearth) (c : Fin 4) (k k' : Ctx) :
    (x.setCtx c k).setCtx c k' = x.setCtx c k' := by
  simp [Hearth.setCtx]

@[simp] theorem State.setHearth_hearth (s : State) (h : Fin 640) : s.setHearth h (s.hearth h) = s := by
  simp [State.setHearth, State.hearth]

@[simp] theorem State.setHearth_setHearth (s : State) (h : Fin 640) (x y : Hearth) :
    (s.setHearth h x).setHearth h y = s.setHearth h y := by
  simp [State.setHearth]

@[simp] theorem State.setCtx_ctx (s : State) (l : Loc) : s.setCtx l (s.ctx l) = s := by
  simp [State.setCtx, State.ctx]

@[simp] theorem State.setCtx_setCtx (s : State) (l : Loc) (k k' : Ctx) :
    (s.setCtx l k).setCtx l k' = s.setCtx l k' := by
  simp [State.setCtx]

/-- Only the focus context changes when it is written. -/
theorem State.onlyCtx_setFc (s : State) (k : Ctx) : OnlyCtx s.foc s (s.setFc k) := s.onlyCtx_setCtx _ _

/-- A context that runs stands as `resume` would leave it. -/
theorem State.resume_of_runs {s : State} (h : Runs s) : s.resume = s := by
  obtain ⟨hst, hwait⟩ := h
  have e : { s.fc with st := .running, wait := .none } = s.fc := by rw [← hst, ← hwait]
  rw [State.resume, e, State.setFc, ← State.ctx_foc, State.setCtx_ctx]

/-- With record mode and replay off, the result of an instruction that depends on time is its own (R288). -/
theorem State.timed_of_noRecord {s : State} (h : NoRecord s) (v : Word) : s.timed v = (v, s) := by
  obtain ⟨hrec, hrep⟩ := h
  simp [State.timed, State.logRoom, hrec, hrep]

theorem State.retireTimed_of_noRecord {s : State} (h : NoRecord s) (r : XReg) (v : Word) :
    s.retireTimed r v = s.retireWith r v := by
  simp [State.retireTimed, State.timed_of_noRecord h]

/-! ## Bits of words -/

/-- Fields whose bits agree are equal. -/
theorem bitsN_congr {n m : Nat} {x : BitVec n} {y : BitVec m} {lo lo' len : Nat}
    (h : ∀ i, i < len → bit x (lo + i) = bit y (lo' + i)) : bitsN x lo len = bitsN y lo' len := by
  refine Nat.eq_of_testBit_eq fun i => ?_
  rw [testBit_bitsN, testBit_bitsN]
  by_cases hi : i < len
  · simpa [hi, bit] using h i hi
  · simp [hi]

/-- A field is 0 when its bits are. -/
theorem bitsN_eq_zero {n : Nat} {x : BitVec n} {lo len : Nat} (h : ∀ i, i < len → bit x (lo + i) = false) :
    bitsN x lo len = 0 := by
  refine Nat.eq_of_testBit_eq fun i => ?_
  rw [testBit_bitsN, Nat.zero_testBit]
  by_cases hi : i < len
  · simpa [hi, bit] using h i hi
  · simp [hi]

@[simp] theorem bit_and (x y : Word) (i : Nat) : bit (x &&& y) i = (bit x i && bit y i) := BitVec.getLsbD_and
@[simp] theorem bit_or (x y : Word) (i : Nat) : bit (x ||| y) i = (bit x i || bit y i) := BitVec.getLsbD_or
theorem bit_not (x : Word) {i : Nat} (h : i < 64) : bit (~~~ x) i = !bit x i := by simp [bit, h]
theorem bit_of_le (x : Word) {i : Nat} (h : 64 ≤ i) : bit x i = false := BitVec.getLsbD_of_ge x i h

/-! ## Traps from U mode (R327) -/

/-- The status bits that a trap replaces: `MIE`, `MPIE` and `MPP`. -/
theorem bit_trapMask : ∀ i : Nat, i < 64 → bit (0x1888#64) i = decide (i = 3 ∨ i = 7 ∨ i = 11 ∨ i = 12) := by decide

/-- The status of a context after a trap from U mode, bit by bit: `MIE` and `MPP` are 0, `MPIE` holds the old `MIE`. -/
theorem Ctx.bit_enterTrap_mstatus {k : Ctx} (u : k.mode = .user) (c e v a : Word) (i : Nat) :
    bit (k.enterTrap c e v a).csr.mstatus i =
      if i = 3 ∨ i = 11 ∨ i = 12 then false else if i = 7 then bit k.csr.mstatus 3 else bit k.csr.mstatus i := by
  have hms : (k.enterTrap c e v a).csr.mstatus =
      (k.csr.mstatus &&& ~~~ (0x1888#64)) ||| (if bit k.csr.mstatus 3 then 0x80#64 else 0) := by
    simp [Ctx.enterTrap, u]
  have hmpie : bit (if bit k.csr.mstatus 3 then 0x80#64 else 0) i = (bit k.csr.mstatus 3 && decide (i = 7)) := by
    cases bit k.csr.mstatus 3
    · simp [bit]
    · rw [Bool.true_and, if_pos rfl, show (0x80#64) = BitVec.twoPow 64 7 by decide, bit, BitVec.getLsbD_twoPow]
      simp [eq_comm]
  rcases Nat.lt_or_ge i 64 with hi | hi
  · rw [hms, bit_or, hmpie, bit_and, bit_not _ hi, bit_trapMask i hi]
    rcases eq_or_ne i 7 with rfl | h7
    · simp
    · by_cases h : i = 3 ∨ i = 11 ∨ i = 12
      · rw [if_pos h, decide_eq_true (by omega)]; simp [h7]
      · rw [if_neg h, if_neg h7, decide_eq_false (by omega)]; simp [h7]
  · rw [bit_of_le _ hi, bit_of_le _ hi, if_neg (by omega), if_neg (by omega)]

/-- A synchronous trap of a U-mode context is the trap of R327. -/
theorem State.trapsToRuntime_trapHere {s : State} (u : s.fc.mode = .user) (cause : Nat) (tval : Word)
    (hc : bit (BitVec.ofNat 64 cause) 63 = false) :
    TrapsToRuntime s (s.trapHere cause tval) (BitVec.ofNat 64 cause) tval := by
  have e : s.trapHere cause tval = s.setFc (s.fc.enterTrap (BitVec.ofNat 64 cause) s.fc.pc tval 0) := s.trap_user u ..
  have hms := Ctx.bit_enterTrap_mstatus u (BitVec.ofNat 64 cause) s.fc.pc tval 0
  rw [e]
  unfold TrapsToRuntime
  simp only [State.fc_setFc]
  refine ⟨s.onlyCtx_setFc _, rfl, rfl, rfl, rfl, rfl, rfl, ?_, hms 3, hms 7, ?_, ?_, rfl, rfl⟩
  · rw [Ctx.enterTrap_pc, hc, Bool.and_false, if_neg Bool.false_ne_true]
  · exact bitsN_eq_zero fun i hi => by rw [hms, if_pos (by omega)]
  · intro i h3 h7 h11 h12
    rw [hms, if_neg (by omega), if_neg h7]

/-! ## CSR writes (R10, R42, R43, R76, R97, R121) -/

section CsrWrite
variable (s : State) (l : Loc) (v : Word)

@[simp] theorem State.csrWrite_fpstat : s.csrWrite l 0x800 v = s.setCtx l { s.ctx l with fpstat := v &&& 0xF } := rfl
@[simp] theorem State.csrWrite_cpstat : s.csrWrite l 0x801 v = s.setCtx l { s.ctx l with cpstat := v &&& 0x101 } := rfl
@[simp] theorem State.csrWrite_mcycle : s.csrWrite l 0xB00 v =
    s.setCtx l { s.ctx l with csr := { (s.ctx l).csr with cycleOff := v - BitVec.ofNat 64 s.cycle } } := rfl
@[simp] theorem State.csrWrite_minstret : s.csrWrite l 0xB02 v = s.setCtx l { s.ctx l with instret := v.toNat } := rfl
@[simp] theorem State.csrWrite_mstatus : s.csrWrite l 0x300 v =
    s.setCtx l { s.ctx l with csr := { (s.ctx l).csr with mstatus := mstatusWrite (s.ctx l).csr.mstatus v } } := rfl
@[simp] theorem State.csrWrite_mie : s.csrWrite l 0x304 v =
    s.setCtx l { s.ctx l with csr := { (s.ctx l).csr with mie := v &&& irqBits } } := rfl
@[simp] theorem State.csrWrite_mtvec : s.csrWrite l 0x305 v =
    s.setCtx l { s.ctx l with csr := { (s.ctx l).csr with mtvec := v &&& ~~~ (2#64) } } := rfl
@[simp] theorem State.csrWrite_mcounteren : s.csrWrite l 0x306 v =
    s.setCtx l { s.ctx l with csr := { (s.ctx l).csr with mcounteren := v &&& 7 } } := rfl
@[simp] theorem State.csrWrite_menvcfg : s.csrWrite l 0x30A v =
    s.setCtx l { s.ctx l with csr := { (s.ctx l).csr with menvcfg := v &&& 1 } } := rfl
@[simp] theorem State.csrWrite_mscratch : s.csrWrite l 0x340 v =
    s.setCtx l { s.ctx l with csr := { (s.ctx l).csr with mscratch := v } } := rfl
@[simp] theorem State.csrWrite_mepc : s.csrWrite l 0x341 v =
    s.setCtx l { s.ctx l with csr := { (s.ctx l).csr with mepc := v &&& ~~~ (3#64) } } := rfl
@[simp] theorem State.csrWrite_mcause : s.csrWrite l 0x342 v =
    s.setCtx l { s.ctx l with csr := { (s.ctx l).csr with mcause := v } } := rfl
@[simp] theorem State.csrWrite_mtval : s.csrWrite l 0x343 v =
    s.setCtx l { s.ctx l with csr := { (s.ctx l).csr with mtval := v } } := rfl
@[simp] theorem State.csrWrite_mip : s.csrWrite l 0x344 v =
    s.setCtx l { s.ctx l with csr := { (s.ctx l).csr with mip := mipWrite (s.ctx l).csr.mip v } } := rfl
@[simp] theorem State.csrWrite_htaddr : s.csrWrite l 0x7C0 v =
    s.setCtx l { s.ctx l with csr := { (s.ctx l).csr with htaddr := v } } := rfl

/-- `misa` and the counters that read as zero ignore a write (RISC-V, log entry 4). -/
theorem State.csrWrite_ignored {n : Nat} (h : n = 0x301 ∨ zeroCsr n = true) : s.csrWrite l n v = s := by
  have hr : n = 0x301 ∨ n = 0x320 ∨ (0x323 ≤ n ∧ n ≤ 0x33F) ∨ 0xB03 ≤ n ∧ n ≤ 0xB1F := by
    simpa [zeroCsr, or_assoc] using h
  have hn : nestCsr n = none := by unfold nestCsr; rw [dif_neg (by omega)]
  simp only [State.csrWrite, hn]
  split
  case h_16 => rfl
  all_goals omega

/-- A write of the nest table goes to one level of the context's shadow table (R97). -/
theorem State.csrWrite_nest {n : Nat} {lv : Fin 6} {i : Fin 4} (h : nestCsr n = some (lv, i)) : s.csrWrite l n v =
    s.setCtx l { s.ctx l with nest := (s.ctx l).nest.set lv (((s.ctx l).nest[lv]).setCsr i v) } := by
  simp only [State.csrWrite, h]

/-- A write of any other CSR changes its own context alone, and of it the CSRs: the counter and the two status registers that stand
beside the machine-mode registers change only under their own numbers. -/
theorem State.csrWrite_frame {n : Nat} (h : nestCsr n = none) : ∃ i c f p,
    s.csrWrite l n v = s.setCtx l { s.ctx l with instret := i, csr := c, fpstat := f, cpstat := p } ∧
    (n ≠ 0xB02 → i = (s.ctx l).instret) ∧ (n ≠ 0x800 → f = (s.ctx l).fpstat) ∧ (n ≠ 0x801 → p = (s.ctx l).cpstat) := by
  simp only [State.csrWrite, h]
  split
  case h_16 => exact ⟨_, _, _, _, (s.setCtx_ctx l).symm, fun _ => rfl, fun _ => rfl, fun _ => rfl⟩
  all_goals exact ⟨_, _, _, _, rfl, by simp, by simp, by simp⟩

end CsrWrite

/-! ## The bits of a written CSR (R75, R76, RISC-V) -/

/-- The bits of `mstatus` that a write reaches: `MIE`, `MPIE`, `MPP`, `MPRV` and `TW`. -/
theorem bit_mstatusMask : ∀ i, i < 64 → bit (0x221888#64) i = decide (i = 3 ∨ i = 7 ∨ i = 11 ∨ i = 12 ∨ i = 17 ∨ i = 21) := by
  decide

/-- The same bits without `MPP`. -/
theorem bit_mstatusMask_noMpp : ∀ i, i < 64 → bit (0x220088#64) i = decide (i = 3 ∨ i = 7 ∨ i = 17 ∨ i = 21) := by
  decide

/-- `mstatus` after a write, bit by bit: `MPP` keeps its old value where the written one names no mode. -/
theorem bit_mstatusWrite (old v : Word) {i : Nat} (hi : i < 64) : bit (mstatusWrite old v) i =
    if i = 3 ∨ i = 7 ∨ i = 17 ∨ i = 21 then bit v i
    else if i = 11 ∨ i = 12 then (if bitsN v 11 2 = 0 ∨ bitsN v 11 2 = 3 then bit v i else bit old i)
    else false := by
  have e : mstatusWrite old v = if bitsN v 11 2 = 0 ∨ bitsN v 11 2 = 3
      then (v &&& 0x221888#64) ||| (old &&& (0x221888#64 &&& ~~~ 0x221888#64))
      else (v &&& 0x220088#64) ||| (old &&& (0x221888#64 &&& ~~~ 0x220088#64)) := by
    simp only [mstatusWrite, Bool.or_eq_true, decide_eq_true_eq]
    split <;> rfl
  rw [e]
  by_cases hm : bitsN v 11 2 = 0 ∨ bitsN v 11 2 = 3
  · simp only [if_pos hm, bit_or, bit_and, bit_not _ hi, bit_mstatusMask i hi]
    by_cases h1 : i = 3 ∨ i = 7 ∨ i = 17 ∨ i = 21
    · rcases h1 with rfl | rfl | rfl | rfl <;> simp
    · by_cases h2 : i = 11 ∨ i = 12
      · rcases h2 with rfl | rfl <;> simp
      · rw [if_neg h1, if_neg h2, decide_eq_false (by omega)]; simp
  · simp only [if_neg hm, bit_or, bit_and, bit_not _ hi, bit_mstatusMask i hi, bit_mstatusMask_noMpp i hi]
    by_cases h1 : i = 3 ∨ i = 7 ∨ i = 17 ∨ i = 21
    · rcases h1 with rfl | rfl | rfl | rfl <;> simp
    · by_cases h2 : i = 11 ∨ i = 12
      · rcases h2 with rfl | rfl <;> simp
      · rw [if_neg h1, if_neg h2, decide_eq_false h1, decide_eq_false (by omega)]; simp

/-- `MPP` after a write of `mstatus`. -/
theorem mpp_mstatusWrite (old v : Word) : bitsN (mstatusWrite old v) 11 2 =
    if bitsN v 11 2 = 0 ∨ bitsN v 11 2 = 3 then bitsN v 11 2 else bitsN old 11 2 := by
  split
  all_goals
    rename_i hm
    refine bitsN_congr fun i hi => ?_
    rw [bit_mstatusWrite _ _ (by omega), if_neg (by omega), if_pos (by omega)]
    simp [hm]

/-- The interrupts of a core with the modes M and U. -/
theorem bit_irqBits : ∀ i, i < 64 → bit irqBits i = decide (i = 3 ∨ i = 7 ∨ i = 11 ∨ 16 ≤ i) := by decide

theorem bit_irqSources : ∀ i, i < 64 → bit (0x888#64) i = decide (i = 3 ∨ i = 7 ∨ i = 11) := by decide
theorem bit_irqPlatform : ∀ i, i < 64 → bit (0xFFFFFFFFFFFF0000#64) i = decide (16 ≤ i) := by decide

/-- `mip` after a write, bit by bit. -/
theorem bit_mipWrite (old v : Word) {i : Nat} (hi : i < 64) : bit (mipWrite old v) i =
    if 16 ≤ i then bit v i else if i = 3 ∨ i = 7 ∨ i = 11 then bit old i else false := by
  have e : mipWrite old v = (old &&& 0x888#64) ||| (v &&& 0xFFFFFFFFFFFF0000#64) := rfl
  rw [e, bit_or, bit_and, bit_and, bit_irqSources i hi, bit_irqPlatform i hi]
  by_cases h1 : 16 ≤ i
  · rw [if_pos h1, decide_eq_false (by omega : ¬ (i = 3 ∨ i = 7 ∨ i = 11))]; simp [h1]
  · rw [if_neg h1, decide_eq_false h1, Bool.and_false, Bool.or_false, Bool.and_comm]; simp

/-! ## CSR reads (R41, R44, R97) -/

/-- Beyond R41 and R97 the user and hart ranges hold no CSR. -/
theorem State.csrRead_none (s : State) (l : Loc) {n : Nat}
    (h : (0x802 ≤ n ∧ n < 0x810) ∨ (0x828 ≤ n ∧ n < 0x900) ∨ (0xCC1 ≤ n ∧ n < 0xD00)) : s.csrRead l n = none := by
  have hn : nestCsr n = none := by unfold nestCsr; rw [dif_neg (by omega)]
  have hz : ¬ zeroCsr n = true := by simp [zeroCsr]; omega
  simp only [State.csrRead, hn, if_neg hz]
  split
  case h_26 => rfl
  all_goals omega

theorem State.csrRead_fpstat (s : State) (l : Loc) : s.csrRead l 0x800 = some (s.ctx l).fpstat := rfl
theorem State.csrRead_cpstat (s : State) (l : Loc) : s.csrRead l 0x801 = some (s.ctx l).cpstat := rfl
theorem State.csrRead_hloc (s : State) (l : Loc) : s.csrRead l 0xCC0 = some (BitVec.ofNat 64 (l.c.val + 4 * l.h.val)) := rfl
theorem State.csrRead_mcycle (s : State) (l : Loc) :
    s.csrRead l 0xB00 = some (BitVec.ofNat 64 s.cycle + (s.ctx l).csr.cycleOff) := rfl

theorem State.csrRead_nest (s : State) (l : Loc) {n : Nat} {lv : Fin 6} {i : Fin 4} (h : nestCsr n = some (lv, i)) :
    s.csrRead l n = some (((s.ctx l).nest[lv]).csr i) := by
  simp only [State.csrRead, h]

/-- `mcycle` written reads back: its offset makes up for the cycles that have passed. -/
theorem State.csrRead_csrWrite_mcycle (s : State) (l : Loc) (v : Word) : (s.csrWrite l 0xB00 v).csrRead l 0xB00 = some v := by
  rw [State.csrRead_mcycle, State.csrWrite_mcycle, State.ctx_setCtx_self, State.setCtx_cycle, BitVec.add_comm,
    BitVec.sub_add_cancel]

/-! ## CSR instructions -/

/-- The operand of a CSR instruction. -/
def csrOperand (a : CsrI) (k : Ctx) : Word := if a.imm then BitVec.ofNat 64 a.rs1.val else k.get a.rs1

/-- The instruction writes its CSR. -/
def csrWrites (a : CsrI) : Bool := a.op == .rw || a.rs1 != 0

/-- The value that it writes. -/
def csrValue (a : CsrI) (old src : Word) : Word :=
  match a.op with
  | .rw => src
  | .rs => old ||| src
  | .rc => old &&& ~~~ src

/-- A CSR that does not exist, or that the mode may not reach or write, raises the illegal-instruction trap. -/
theorem exec_csrAccess_illegal {a : CsrI} {s : State}
    (h : s.csrRead s.foc a.csr.toNat = none ∨ csrAllowed s.fc.mode a.csr.toNat (csrWrites a) = false) :
    exec (.csrAccess a) s = .next (s.trapHere 2 (wordOf (.csrAccess a))) := by
  show execCsrAccess a s = _
  cases hr : s.csrRead s.foc a.csr.toNat with
  | none => simp only [execCsrAccess, hr]
  | some old =>
    have hal : csrAllowed s.fc.mode a.csr.toNat (csrWrites a) = false := h.resolve_left (by simp [hr])
    rw [csrWrites] at hal
    simp only [execCsrAccess, hr, hal, Bool.not_false, if_true]

/-- A CSR instruction on the nest table waits for the table. -/
theorem exec_csrAccess_waits {a : CsrI} {s : State} {old : Word} (hr : s.csrRead s.foc a.csr.toNat = some old)
    (hal : csrAllowed s.fc.mode a.csr.toNat (csrWrites a) = true) (hn : (nestCsr a.csr.toNat).isSome = true)
    (hw : s.fh.nestReady s.foc.c = false) :
    exec (.csrAccess a) s = .next (s.setFc { s.fc with st := .waiting, wait := .nestCsr }) := by
  show execCsrAccess a s = _
  rw [csrWrites] at hal
  simp [execCsrAccess, hr, hal, hn, hw]

/-- A CSR instruction that may go on gives `rd` the old value, and then writes the new one where it writes at all. -/
theorem exec_csrAccess_goes {a : CsrI} {s : State} {old : Word} (run : Runs s) (hr : s.csrRead s.foc a.csr.toNat = some old)
    (hal : csrAllowed s.fc.mode a.csr.toNat (csrWrites a) = true)
    (hn : nestCsr a.csr.toNat = none ∨ s.fh.nestReady s.foc.c = true)
    (ht : NoRecord s ∨ timedCsr a.csr.toNat = false) :
    exec (.csrAccess a) s = .next (if (csrWrites a) then
      (s.retireWith a.rd old).csrWrite s.foc a.csr.toNat (csrValue a old (csrOperand a s.fc)) else s.retireWith a.rd old) := by
  have h1 : ((nestCsr a.csr.toNat).isSome && !s.fh.nestReady s.foc.c) = false := by
    rcases hn with hn | hn <;> simp [hn]
  have h2 : (if timedCsr a.csr.toNat then s.resume.retireTimed a.rd old else s.resume.retireWith a.rd old) =
      s.retireWith a.rd old := by
    rw [State.resume_of_runs run]
    rcases ht with ht | ht
    · rw [State.retireTimed_of_noRecord ht, ite_self]
    · rw [ht]; rfl
  show execCsrAccess a s = _
  rw [csrWrites] at *
  unfold execCsrAccess
  simp only [hr, hal, h1, h2, Bool.not_true, Bool.false_eq_true, if_false, State.retireWith_foc]
  rfl

theorem Ctx.get_congr {k k' : Ctx} (h : k'.xs = k.xs) (r : XReg) : k'.get r = k.get r := by simp [Ctx.get, h]

/-- A context whose registers are those after a write has `WritesReg`, whatever else of it has changed. -/
theorem Ctx.writesReg_of_xs {k k' : Ctx} {r : XReg} {v : Word} (h : k'.xs = (k.set r v).xs) : WritesReg r v k k' := by
  refine ⟨?_, fun q hq => ?_⟩
  · rw [Ctx.get_congr h, Ctx.get_set, if_pos rfl]
  · rw [Ctx.get_congr h, Ctx.get_set, if_neg hq.symm]

/-- What `retireWith` leaves, written out as an update of the focus context. -/
theorem State.retireWith_eq_setFc (s : State) (r : XReg) (v : Word) : s.retireWith r v =
    s.setFc { s.fc with xs := (s.fc.set r v).xs, pc := s.fc.pc + 4, instret := s.fc.instret + 1 } := by
  simp only [State.retireWith, Ctx.set, Ctx.retire]
  split <;> rfl

/-- What a write of CSR `n` leaves in its own context, by the number: of the machine-mode registers it changes one, and of that one
the bits that are not reserved (R10, R42, R43, RISC-V). -/
theorem State.csrWrite_by_number (s : State) (l : Loc) (n : Nat) (v : Word) :
    let m := (s.ctx l).csr
    let k := (s.csrWrite l n v).ctx l
    (n = 0x800 → k.fpstat = v &&& 0xF ∧ k.csr = m) ∧
    (n = 0x801 → k.cpstat = v &&& 0x101 ∧ k.csr = m) ∧
    (n = 0x300 → { k.csr with mstatus := m.mstatus } = m ∧
      (∀ i, i = 3 ∨ i = 7 ∨ i = 17 ∨ i = 21 → bit k.csr.mstatus i = bit v i) ∧
      bitsN k.csr.mstatus 11 2 = (if bitsN v 11 2 = 0 ∨ bitsN v 11 2 = 3 then bitsN v 11 2 else bitsN m.mstatus 11 2) ∧
      (∀ i, i < 64 → i ≠ 3 → i ≠ 7 → i ≠ 11 → i ≠ 12 → i ≠ 17 → i ≠ 21 → bit k.csr.mstatus i = false)) ∧
    (n = 0x301 ∨ zeroCsr n = true → k.csr = m) ∧
    (n = 0x304 → { k.csr with mie := m.mie } = m ∧
      ∀ i, i < 64 → bit k.csr.mie i = (bit v i && decide (i = 3 ∨ i = 7 ∨ i = 11 ∨ 16 ≤ i))) ∧
    (n = 0x305 → k.csr = { m with mtvec := v &&& ~~~ (2#64) }) ∧
    (n = 0x306 → k.csr = { m with mcounteren := v &&& 7 }) ∧
    (n = 0x30A → k.csr = { m with menvcfg := v &&& 1 }) ∧
    (n = 0x340 → k.csr = { m with mscratch := v }) ∧
    (n = 0x341 → k.csr = { m with mepc := v &&& ~~~ (3#64) }) ∧
    (n = 0x342 → k.csr = { m with mcause := v }) ∧
    (n = 0x343 → k.csr = { m with mtval := v }) ∧
    (n = 0x344 → { k.csr with mip := m.mip } = m ∧
      ∀ i, i < 64 → bit k.csr.mip i =
        if 16 ≤ i then bit v i else if i = 3 ∨ i = 7 ∨ i = 11 then bit m.mip i else false) ∧
    (n = 0x7C0 → k.csr = { m with htaddr := v }) ∧
    (n = 0xB00 → (s.csrWrite l n v).csrRead l 0xB00 = some v ∧ { k.csr with cycleOff := m.cycleOff } = m) ∧
    (n = 0xB02 → k.instret = v.toNat ∧ k.csr = m) := by
  refine ⟨?_, ?_, ?mstatus, fun h => by rw [s.csrWrite_ignored l v h], ?mie, ?_, ?_, ?_, ?_, ?_, ?_, ?_, ?mip, ?_, ?mcycle, ?_⟩
  case mstatus =>
    rintro rfl
    rw [State.csrWrite_mstatus, State.ctx_setCtx_self]
    refine ⟨rfl, fun i hi => ?_, mpp_mstatusWrite _ _, fun i hi _ _ _ _ _ _ => ?_⟩
    · rw [bit_mstatusWrite _ _ (by omega), if_pos hi]
    · rw [bit_mstatusWrite _ _ hi, if_neg (by omega), if_neg (by omega)]
  case mie =>
    rintro rfl
    rw [State.csrWrite_mie, State.ctx_setCtx_self]
    exact ⟨rfl, fun i hi => by rw [bit_and, bit_irqBits i hi]⟩
  case mip =>
    rintro rfl
    rw [State.csrWrite_mip, State.ctx_setCtx_self]
    exact ⟨rfl, fun i hi => bit_mipWrite _ _ hi⟩
  case mcycle =>
    rintro rfl
    refine ⟨s.csrRead_csrWrite_mcycle l v, ?_⟩
    rw [State.csrWrite_mcycle, State.ctx_setCtx_self]
  all_goals
    rintro rfl
    simp

/-- Every CSR but the nest table's: the old value goes to `rd`, and the write changes what its number names. -/
theorem csrInstructionsReadThenWrite : Claims.CsrInstructionsReadThenWrite := by
  intro a s n src wr run
  refine ⟨fun old hr hal hn ht => ?_, fun u h => ?_, fun h => s.csrRead_none _ h, rfl, rfl, rfl⟩
  · intro v m
    have hti : NoRecord s ∨ timedCsr n = false := by
      refine ht.imp_right fun ⟨h0, h1, h2⟩ => ?_
      simp [timedCsr, h0, h1, h2]
    have ex : exec (.csrAccess a) s = .next (if wr then (s.retireWith a.rd old).csrWrite s.foc n v else s.retireWith a.rd old) :=
      exec_csrAccess_goes run hr hal (.inl hn) hti
    rw [State.retireWith_eq_setFc] at ex
    generalize hk1 : { s.fc with xs := (s.fc.set a.rd old).xs, pc := s.fc.pc + 4, instret := s.fc.instret + 1 } = k1 at ex
    refine ⟨_, ex, ?_⟩
    clear_value n v wr
    cases wr with
    | false =>
      rw [if_neg Bool.false_ne_true, State.fc_setFc]
      subst hk1
      exact ⟨Ctx.writesReg_of_xs rfl, rfl, s.onlyCtx_setFc _, rfl, fun _ => rfl, fun _ => rfl, fun _ => rfl, fun _ => rfl,
        fun h => absurd h Bool.false_ne_true⟩
    | true =>
      have hc : (s.setFc k1).ctx s.foc = k1 := s.ctx_setCtx_self _ _
      have hw := (s.setFc k1).csrWrite_by_number s.foc n v
      obtain ⟨i, c, f, p, ht, hi, hf, hp⟩ := (s.setFc k1).csrWrite_frame s.foc v hn
      rw [if_pos rfl]
      generalize (s.setFc k1).csrWrite s.foc n v = t at ht hw ⊢
      rw [hc] at hw hi hf hp ht
      replace ht : t = s.setFc { k1 with instret := i, csr := c, fpstat := f, cpstat := p } := ht.trans (s.setCtx_setCtx ..)
      have hfc : t.ctx s.foc = t.fc := by rw [ht]; rfl
      have hk : t.fc = { k1 with instret := i, csr := c, fpstat := f, cpstat := p } := by rw [ht, State.fc_setFc]
      rw [hfc] at hw
      subst hk1
      refine ⟨?_, ?_, ?_, ?_, ?_, ?_, ?_, fun h => absurd h.symm Bool.false_ne_true, fun _ => hw⟩
      · rw [hk]; exact Ctx.writesReg_of_xs rfl
      · rw [hk]
      · rw [ht]; exact s.onlyCtx_setFc _
      · rw [hk]
      · rw [hk]; exact fun h => hi (h.resolve_left (by simp))
      · rw [hk]; exact fun h => hf (h.resolve_left (by simp))
      · rw [hk]; exact fun h => hp (h.resolve_left (by simp))
  · exact ⟨_, exec_csrAccess_illegal h, s.trapsToRuntime_trapHere u 2 _ rfl⟩


/-! ## The shadow nest table (R97, R121) -/

/-- The number of a nest CSR names its level and its place in the level (R97). -/
theorem nestCsr_number (lv : Fin 6) (i : Fin 4) : nestCsr (0x810 + 4 * lv.val + i.val) = some (lv, i) := by
  have hlv := lv.isLt
  have hi := i.isLt
  unfold nestCsr
  rw [dif_pos ⟨by omega, by omega⟩]
  simp only [Option.some.injEq, Prod.mk.injEq, Fin.ext_iff]
  omega

/-- A part of a level that is written holds the low bits of the value, and the others keep theirs (R97). -/
theorem NestLevel.csr_setCsr_self (x : NestLevel) (i : Fin 4) (v : Word) :
    ((x.setCsr i v).csr i).toNat = v.toNat % 2 ^ (if i = 0 then 16 else 22) := by
  match i with
  | 0 | 1 | 2 | 3 => simp [NestLevel.csr, NestLevel.setCsr]; omega

theorem NestLevel.csr_setCsr_ne (x : NestLevel) {i j : Fin 4} (h : j ≠ i) (v : Word) : (x.setCsr i v).csr j = x.csr j := by
  match i, j with
  | 0, 1 | 0, 2 | 0, 3 | 1, 0 | 1, 2 | 1, 3 | 2, 0 | 2, 1 | 2, 3 | 3, 0 | 3, 1 | 3, 2 => rfl
  | 0, 0 | 1, 1 | 2, 2 | 3, 3 => exact absurd rfl h

/-- What holds a CSR instruction on the nest table back (R121). -/
theorem Hearth.nestReady_eq_false {x : Hearth} {c : Fin 4} : x.nestReady c = false ↔
    ∃ d, d ∈ x.cmds ∧ d.ctx = c ∧ (d.op = some .mxCfg ∨ (d.op = some .mxGo ∧ d.stage = .queued)) := by
  simp [Hearth.nestReady, or_iff_not_imp_left]

/-- The CSRs of the nest table: a wait of their own, and then a write of one part of one level. -/
theorem nestCsrsWaitForTheTable : Claims.NestCsrsWaitForTheTable := by
  intro op imm rd rs1 lv i s a old src v waits run
  have hlv := lv.isLt
  have hi := i.isLt
  have hnum : a.csr.toNat = 0x810 + 4 * lv.val + i.val := by
    simp only [a, BitVec.toNat_ofNat]; omega
  have hn : nestCsr a.csr.toNat = some (lv, i) := by rw [hnum, nestCsr_number]
  have hr : s.csrRead s.foc a.csr.toNat = some old := s.csrRead_nest s.foc hn
  have hal : csrAllowed s.fc.mode a.csr.toNat (csrWrites a) = true := by
    have h1 : a.csr.toNat / 256 % 4 = 0 := by omega
    have h2 : a.csr.toNat / 1024 % 4 = 2 := by omega
    simp [csrAllowed, h1, h2]
  have hwaits : waits ↔ s.fh.nestReady s.foc.c = false := Hearth.nestReady_eq_false.symm
  refine ⟨fun h => ?_, fun h => ?_⟩
  · refine ⟨_, exec_csrAccess_waits hr hal (by rw [hn]; rfl) (hwaits.1 h), ?_⟩
    simp only [State.fc_setFc]
    exact ⟨trivial, trivial, trivial, fun _ => rfl, s.onlyCtx_setFc _⟩
  · have hready : s.fh.nestReady s.foc.c = true := by
      rw [hwaits, Bool.not_eq_false] at h; exact h
    have htm : timedCsr a.csr.toNat = false := by
      simp only [timedCsr, Bool.or_eq_false_iff, beq_eq_false_iff_ne]; omega
    have ex : exec (.csrAccess a) s = .next (if csrWrites a then (s.retireWith rd old).csrWrite s.foc a.csr.toNat v
        else s.retireWith rd old) := exec_csrAccess_goes run hr hal (.inr hready) (.inr htm)
    have hwrites : csrWrites a = true ↔ op = .rw ∨ rs1 ≠ 0 := by simp [csrWrites, a]
    rw [State.retireWith_eq_setFc] at ex
    generalize hk : { s.fc with xs := (s.fc.set rd old).xs, pc := s.fc.pc + 4, instret := s.fc.instret + 1 } = k at ex
    refine ⟨_, ex, ?_⟩
    beta_reduce
    by_cases hw : csrWrites a = true
    · have hset : (s.setFc k).csrWrite s.foc a.csr.toNat v =
          s.setFc { k with nest := k.nest.set lv ((k.nest[lv]).setCsr i v) } := by
        rw [State.csrWrite_nest _ _ _ hn]; simp [State.setFc]
      rw [if_pos hw, hset, State.fc_setFc]
      subst hk
      refine ⟨Ctx.writesReg_of_xs rfl, rfl, s.onlyCtx_setFc _, fun _ => ?_, fun hop h0 => ?_, fun j hj => ?_, fun m hm => ?_, rfl⟩
      · simpa using NestLevel.csr_setCsr_self (s.fc.nest[lv]) i v
      · exact absurd (hwrites.1 hw) (by simp [hop, h0])
      · simpa using NestLevel.csr_setCsr_ne (s.fc.nest[lv]) hj v
      · have hne : lv.val ≠ m.val := fun e => hm (Fin.ext e.symm)
        simp [hne]
    · rw [if_neg hw, State.fc_setFc]
      subst hk
      exact ⟨Ctx.writesReg_of_xs rfl, rfl, s.onlyCtx_setFc _, fun h => absurd (hwrites.2 h) hw, fun _ _ => rfl, fun _ _ => rfl,
        fun _ _ => rfl, rfl⟩

/-- Settles O7: by the number of the CSR, and on the nest table by whether it is ready. -/
theorem csrInstructions : Obligations.CsrInstructions :=
  ⟨csrInstructionsReadThenWrite, nestCsrsWaitForTheTable⟩

/-! ## What a memory write leaves of contexts and cores (R76, R233, R234) -/

/-- A clearing takes at most the reservation of a context. -/
theorem Ctx.clearResv_keeps (k : Ctx) (ap : Bool) (ls : List Nat) : { k.clearResv ap ls with resv := k.resv } = k := by
  unfold Ctx.clearResv
  split
  · split <;> rfl
  · rfl

theorem SCore.clearResv_keeps (k : SCore) (ls : List Nat) : { k.clearResv ls with resv := k.resv } = k := by
  unfold SCore.clearResv
  split <;> rfl

theorem State.hearth_clearResvMem (s : State) (ks : List Nat) (w : Option Loc) (h : Fin 640) :
    (s.clearResvMem ks w).hearth h =
      (s.hearth h).clearResv false ((ks.map (· / 128)).eraseDups) ((w.filter fun l => l.h = h).map (·.c)) := by
  simp [State.clearResvMem, State.hearth]

/-- No context changes but that its reservation may be lost. -/
theorem State.ctx_clearResvMem_keeps (s : State) (ks : List Nat) (w : Option Loc) (l : Loc) :
    { (s.clearResvMem ks w).ctx l with resv := (s.ctx l).resv } = s.ctx l := by
  rw [State.ctx, State.hearth_clearResvMem, Hearth.ctx_clearResv]
  split
  · rfl
  · exact Ctx.clearResv_keeps ..

/-- A write of package memory is what `OnlyMemory` says. -/
theorem State.onlyMemory_setMem_clearResvMem (s : State) (m : Mem) (ks : List Nat) (w : Option Loc) :
    OnlyMemory s ((s.setMem m).clearResvMem ks w) := by
  refine ⟨by cases s; simp only [State.clearResvMem, State.setMem], fun p hp => (List.mem_filter.1 hp).1, fun r c => ?_⟩
  have e : (((s.setMem m).clearResvMem ks w).cores[r])[c] = ((s.cores[r])[c]).clearResv ((ks.map (· / 128)).eraseDups) := by
    simp [State.clearResvMem]
  rw [e]
  exact SCore.clearResv_keeps ..

/-! ## A refused transfer ends at its sender (R199, R208, R355) -/

@[simp] theorem State.asyncTrap_links (s : State) (l : Loc) (run : RunRec) (a : Async) :
    (s.asyncTrap l run a).links = s.links := by
  rcases s.asyncTrap_cases l run a with e | e <;> rw [e] <;> rfl

@[simp] theorem State.asyncTrap_mem (s : State) (l : Loc) (run : RunRec) (a : Async) :
    (s.asyncTrap l run a).mem = s.mem := by
  rcases s.asyncTrap_cases l run a with e | e <;> rw [e] <;> rfl

/-- An asynchronous trap leaves the commands of every hearth. -/
@[simp] theorem State.asyncTrap_cmds (s : State) (l : Loc) (run : RunRec) (a : Async) (h : Fin 640) :
    ((s.asyncTrap l run a).hearth h).cmds = (s.hearth h).cmds := by
  rcases s.asyncTrap_cases l run a with e | e <;> rw [e]
  · rw [State.setCtx, State.hearth_setHearth]
    split
    · subst_vars; rfl
    · rfl
  · rfl

@[simp] theorem State.failCmd_links (s : State) (h : Fin 640) (c : Cmd) (cause detail : Nat) (a : Word) :
    (s.failCmd h c cause detail a).links = s.links := by simp [State.failCmd]

@[simp] theorem State.failCmd_mem (s : State) (h : Fin 640) (c : Cmd) (cause detail : Nat) (a : Word) :
    (s.failCmd h c cause detail a).mem = s.mem := by simp [State.failCmd]

/-- A command that fails leaves its hearth, where the side log holds no write of it (R92, R199). -/
theorem State.cmd?_failCmd (s : State) (h : Fin 640) (c : Cmd) (cause detail : Nat) (a : Word)
    (hlog : ∀ e, e ∈ (s.hearth h).sideLog → e.seq ≠ c.seq) : ((s.failCmd h c cause detail a).hearth h).cmd? c.seq = none := by
  simp only [Hearth.cmd?, State.failCmd, State.asyncTrap_cmds, State.hearth_setHearth_self, Hearth.dropFailed, Hearth.logged]
  rw [List.find?_eq_none]
  intro d hd
  simp only [List.mem_filter, List.mem_map] at hd
  obtain ⟨⟨e, -, rfl⟩, hkeep⟩ := hd
  by_cases he : e.seq = c.seq
  · simp [he] at hkeep
    obtain ⟨y, hy, hs⟩ := hkeep
    exact absurd hs (hlog y hy)
  · simp [he]

/-- The sender of a refused transfer loses its command. -/
theorem State.answerPeer_refused {s : State} {x : Xfer} {h : Fin 640} {q : Nat} {c : Cmd} (own : x.schip = s.links.chip)
    (hh : x.shearth = h.val) (hq : x.sseq = some q) (he : x.sepoch = (s.hearth h).epoch) (hc : (s.hearth h).cmd? q = some c) :
    s.answerPeer x false = (s.failCmd h c 7 3 0).setHearth h { (s.failCmd h c 7 3 0).hearth h with hand := Cmd.empty } := by
  have hown : s.isOwn x = true := by simp [State.isOwn, own, hh]
  have hf : Fin.ofNat 640 x.shearth = h := by rw [hh]; exact Fin.ofNat_val_eq_self h
  simp only [State.answerPeer, hq, hown, hf, he, hc, Bool.not_true, Bool.false_eq_true, if_false, ne_eq, not_true_eq_false]


/-! ## Events of the links and the host (R239, R332, R348, R353, R355, R380) -/

@[simp] theorem State.setLinks_links (s : State) (l : Links) : (s.setLinks l).links = l := rfl

/-- An event that only writes the links. -/
theorem completes_setLinks {i : Instr} {s : State} {l : Links} (h : exec i s = .next (s.setLinks l)) :
    Completes i s fun t => t.links = l ∧ { t with links := s.links } = s := ⟨_, h, rfl, rfl⟩

/-- PCIe trains at the generations and widths of R348. -/
theorem exec_linkTraining_pcie {s : State} {g w : Nat} (hg : g = 60 ∨ g = 50 ∨ g = 40) (hw : w = 16 ∨ w = 8) :
    exec (.linkTraining (.pcie g w)) s = .next (s.setLinks { s.links with pcieGen := g, pcieWidth := w }) := by
  show execLinkTraining (.pcie g w) s = _
  simp [execLinkTraining, hg, hw]

/-- CXL trains at the generations and widths of R348. -/
theorem exec_linkTraining_cxl {s : State} {g w : Nat} (hg : g = 31 ∨ g = 30 ∨ g = 20) (hw : w = 16 ∨ w = 8) :
    exec (.linkTraining (.cxl true g w)) s = .next (s.setLinks { s.links with cxlUp := true, cxlGen := g, cxlWidth := w }) := by
  show execLinkTraining (.cxl true g w) s = _
  simp [execLinkTraining, hg, hw]

/-- A failed port does not train again (R355). -/
theorem exec_linkTraining_failed {s : State} {p : Fin 8} (hp : (s.links.ports[p]).failed = true) {ok : Bool} {chip : Nat}
    {rs : List Nat} : exec (.linkTraining (.selaris p ok chip rs)) s = .next (s.setLinks s.links) := by
  show execLinkTraining (.selaris p ok chip rs) s = _
  simp only [execLinkTraining, hp, Bool.true_or, if_true]
  rfl

/-- A port that finds no partner is down, and the routes through it are gone. -/
theorem exec_linkTraining_down {s : State} {p : Fin 8} {chip : Nat} {rs : List Nat} (hp : (s.links.ports[p]).failed = false)
    (hchip : chip < 1024) : exec (.linkTraining (.selaris p false chip rs)) s = .next (s.setLinks
      { s.links with ports := s.links.ports.set p ⟨false, false⟩, routes := s.links.routes.filter fun q => q.2 != p }) := by
  show execLinkTraining (.selaris p false chip rs) s = _
  simp only [execLinkTraining, hp, Nat.not_le.2 hchip, decide_false, Bool.or_false, Bool.false_eq_true, if_false,
    Bool.not_false, if_true]

/-- A port trains to a chip: the routes that the service OS sets go through it, and none to that chip itself (R348, R353). -/
theorem exec_linkTraining_up {s : State} {p : Fin 8} {chip : Nat} {rs : List Nat} (hp : (s.links.ports[p]).failed = false)
    (hchip : chip < 1024) (hrs : ∀ c, c ∈ rs → c < 1024 ∧ c ≠ chip) :
    exec (.linkTraining (.selaris p true chip rs)) s = .next (s.setLinks
      { s.links with ports := s.links.ports.set p ⟨true, false⟩, chip := chip,
                     routes := (s.links.routes.filter fun q => q.2 != p && !rs.contains q.1 && q.1 != chip) ++
                       rs.map fun c => (c, p) }) := by
  have hnew : (rs.filter fun c => decide (c < 1024) && c != chip) = rs :=
    List.filter_eq_self.2 fun c hc => by simp [hrs c hc]
  show execLinkTraining (.selaris p true chip rs) s = _
  simp only [execLinkTraining, hnew, hp, Nat.not_le.2 hchip, decide_false, Bool.or_false, Bool.false_eq_true, if_false,
    Bool.not_true]

/-- The failure of a port that is down changes nothing. -/
theorem exec_portFailure_down {s : State} {p : Fin 8} (down : (s.links.ports[p]).up = false) (dead : List (Nat × Nat))
    (cut : List Xfer) : exec (.portFailure p dead cut) s = .next s := by
  show execPortFailure p dead cut s = _
  simp only [execPortFailure, down, Bool.not_false, if_true]

/-- A port fails with one outgoing transfer on it. -/
theorem exec_portFailure_dead {s : State} {p : Fin 8} (up : (s.links.ports[p]).up = true) (d : Nat × Nat) :
    exec (.portFailure p [d] []) s = .next ((s.killXfer p d).setLinks { (s.killXfer p d).links with
      ports := (s.killXfer p d).links.ports.set p ⟨false, true⟩,
      routes := (s.killXfer p d).links.routes.filter fun q => q.2 != p }) := by
  show execPortFailure p [d] [] s = _
  simp only [execPortFailure, up, Bool.not_true, Bool.false_eq_true, if_false, List.foldl_nil, List.foldl_cons]

/-- A transfer between other chips leaves through the port of its route, and both ports count its bytes (R287, R353). -/
theorem exec_transferForward {s : State} {p q : Fin 8} {x : Xfer} (up : (s.links.ports[p]).up = true)
    (hs : x.schip ≠ s.links.chip) (hd : x.dchip ≠ s.links.chip) (hr : s.links.route x.dchip = some q) :
    exec (.transferForward p x) s =
      let once := s.links.carried.set p (s.links.carried[p] + x.data.length)
      .next (s.setLinks { s.links with forwarded := s.links.forwarded ++ [(q, x)],
                                       carried := once.set q (once[q] + x.data.length) }) := by
  have hb : ((s.links.ports[p]).up && x.schip != s.links.chip && x.dchip != s.links.chip) = true := by
    simp only [up, bne_iff_ne.2 hs, bne_iff_ne.2 hd, Bool.and_self]
  show execTransferForward p x s = _
  simp only [execTransferForward, hr, hb, if_true]
  rfl

/-- A transfer to a chip that no route reaches stays where it is. -/
theorem exec_transferForward_noRoute {s : State} {p : Fin 8} {x : Xfer} (hr : s.links.route x.dchip = none) :
    exec (.transferForward p x) s = .next s := by
  show execTransferForward p x s = _
  simp only [execTransferForward, hr]

/-- A port that is up fails: its routes are gone (R355). -/
theorem exec_portFailure_quiet {s : State} {p : Fin 8} (up : (s.links.ports[p]).up = true) :
    exec (.portFailure p [] []) s = .next (s.setLinks
      { s.links with ports := s.links.ports.set p ⟨false, true⟩, routes := s.links.routes.filter fun q => q.2 != p }) := by
  show execPortFailure p [] [] s = _
  simp only [execPortFailure, up, Bool.not_true, Bool.false_eq_true, if_false, List.foldl_nil]

/-- The one transfer under way crosses the port that fails: it is off the wire, and its sender's command fails (R355). -/
theorem State.killXfer_only {s : State} {x : Xfer} {h : Fin 640} {q : Nat} {c : Cmd} {p : Fin 8} (hw : s.links.wire = [x])
    (own : x.schip = s.links.chip) (hh : x.shearth = h.val) (hq : x.sseq = some q) (he : x.sepoch = (s.hearth h).epoch)
    (hr : s.links.route x.dchip = some p) (hc : (s.hearth h).cmd? q = some c) :
    let u := (s.setLinks { s.links with wire := [] }).failCmd h c 7 3 0
    s.killXfer p (h.val, q) = u.setHearth h { u.hearth h with hand := Cmd.empty } := by
  have hown : s.isOwn x = true := by simp [State.isOwn, own, hh]
  have hk : s.killXfer p (h.val, q) = (s.setLinks { s.links with wire := [] }).answerPeer x false := by
    simp [State.killXfer, hw, hown, hr, hh, hq]
  rw [hk]
  exact State.answerPeer_refused own hh hq he hc

/-- A snoop is answered with the bytes as they stand (R332). -/
theorem exec_hostSnoop {s : State} (up : s.links.cxlUp = true) (a n : Nat) : exec (.hostSnoop a n) s =
    .next (s.setLinks { s.links with answered := (a, s.hostBytes a n) :: s.links.answered }) := by
  show execHostSnoop a n s = _
  simp only [execHostSnoop, up, if_true]

/-- A host load moves its bytes, and one that reaches a secure byte moves none (R239, R380). -/
theorem exec_hostLoad {s : State} {a n : Nat} (r : s.hostReaches a n = true) (d : s.hostDenied a n = false) :
    exec (.hostMemoryAccess (.load a n)) s =
      .next (s.setLinks { s.links with answered := (a, s.mem.bytes a n) :: s.links.answered }) := by
  show execHostMemoryAccess (.load a n) s = _
  simp only [execHostMemoryAccess, r, d, Bool.not_true, Bool.false_eq_true, if_false]

theorem exec_hostLoad_denied {s : State} {a n : Nat} (r : s.hostReaches a n = true) (d : s.hostDenied a n = true) :
    exec (.hostMemoryAccess (.load a n)) s = .next (s.setLinks { s.links with hostFaults := s.links.hostFaults + 1 }) := by
  show execHostMemoryAccess (.load a n) s = _
  simp only [execHostMemoryAccess, r, d, Bool.not_true, Bool.false_eq_true, if_false, if_true]

/-- A host store writes its bytes, and one that reaches a secure byte writes none (R239, R380). -/
theorem exec_hostStore {s : State} {a : Nat} {bs : List Byte} (r : s.hostReaches a bs.length = true)
    (d : s.hostDenied a bs.length = false) : exec (.hostMemoryAccess (.store a bs)) s =
      .next ((s.setMem (s.mem.store a bs)).clearResvMem ((List.range bs.length).map (a + ·)) none) := by
  show execHostMemoryAccess (.store a bs) s = _
  simp only [execHostMemoryAccess, r, d, Bool.not_true, Bool.false_eq_true, if_false]

theorem exec_hostStore_denied {s : State} {a : Nat} {bs : List Byte} (r : s.hostReaches a bs.length = true)
    (d : s.hostDenied a bs.length = true) : exec (.hostMemoryAccess (.store a bs)) s =
      .next (s.setLinks { s.links with hostFaults := s.links.hostFaults + 1 }) := by
  show execHostMemoryAccess (.store a bs) s = _
  simp only [execHostMemoryAccess, r, d, Bool.not_true, Bool.false_eq_true, if_false, if_true]

theorem leNat_leBytes_word (v : Word) : leNat (leBytes 8 v.toNat) = v.toNat := by
  rw [leNat_leBytes]
  exact Nat.mod_eq_of_lt v.isLt

/-- What a read of each register finds, as a number (R349, R370). -/
theorem State.barRead_toNat (s : State) (b : BarReg) : (s.barRead b).toNat = (match b with
    | .callAddr => s.svc.callAddr.toNat
    | .callStat => (if s.svc.busy = true then 1 else 0) + (if s.svc.done = true then 2 else 0)
    | .bootStat => s.svc.bootStage.toNat + (if s.svc.recovery = true then 16 else 0) + 256 * s.svc.started.toNat
    | .chipNum => s.links.chip % 1024
    | .resv0 _ => 0
    | .head q => (s.queues[q]).head % 2 ^ 64) := by
  cases b with
  | callAddr => rfl
  | callStat => cases hb : s.svc.busy <;> cases hd : s.svc.done <;> simp [State.barRead, hb, hd]
  | bootStat =>
    have h1 := s.svc.bootStage.isLt
    have h2 := s.svc.started.isLt
    simp only [State.barRead, BitVec.toNat_ofNat]
    split <;> omega
  | chipNum => simp only [State.barRead, BitVec.toNat_ofNat]; omega
  | resv0 off => rfl
  | head q => simp [State.barRead]

/-- Settles O48: each event by its own rule. -/
theorem linksAndHostAccesses : Obligations.LinksAndHostAccesses := by
  unfold Obligations.LinksAndHostAccesses
  intro s links
  refine ⟨?pcie, ?cxl, ?cxlDown, ?failed, ?selaris, ?portFailure, ?snoop, ?load, ?store, ?reg, ?forward⟩
  case pcie =>
    exact fun g w hg hw => completes_setLinks (exec_linkTraining_pcie hg hw)
  case cxl => exact fun g w hg hw => completes_setLinks (exec_linkTraining_cxl hg hw)
  case cxlDown => exact fun g w => completes_setLinks rfl
  case failed => exact fun p hp ok chip routes => completes_setLinks (exec_linkTraining_failed hp)
  case selaris =>
    exact fun p chip rs hp hchip => ⟨fun hrs => completes_setLinks (exec_linkTraining_up hp hchip hrs),
      completes_setLinks (exec_linkTraining_down hp hchip)⟩
  case portFailure =>
    refine fun p => ⟨fun down => ⟨s, exec_portFailure_down down .., rfl⟩,
      fun up => ⟨completes_setLinks (exec_portFailure_quiet up), ?_⟩⟩
    intro x h q c hw own hh hq he hr hc hlog
    obtain rfl : c.seq = q := by simpa using List.find?_some hc
    have hgone := (s.setLinks { s.links with wire := [] }).cmd?_failCmd h c 7 3 0 hlog
    refine ⟨_, exec_portFailure_dead up _, ?_⟩
    rw [State.killXfer_only hw own hh hq he hr hc]
    generalize hu : (s.setLinks { s.links with wire := [] }).failCmd h c 7 3 0 = u at hgone
    have hlinks : u.links = { s.links with wire := [] } := by rw [← hu, State.failCmd_links]; rfl
    have hmem : u.mem = s.mem := by rw [← hu, State.failCmd_mem]; rfl
    refine ⟨congrArg Links.wire hlinks, ?_, ?_, hmem⟩
    · rwa [State.setLinks_hearth, State.hearth_setHearth_self]
    · rw [State.setLinks_links, State.setHearth_links, hlinks]
  case snoop => exact fun a n up => completes_setLinks (exec_hostSnoop up a n)
  case load =>
    exact fun a n hr => ⟨fun hd => completes_setLinks (exec_hostLoad hr hd), fun hd => completes_setLinks (exec_hostLoad_denied hr hd)⟩
  case store =>
    refine fun a bs hr => ⟨fun hd => ⟨_, exec_hostStore hr hd, ?_, ?_, s.onlyMemory_setMem_clearResvMem .., fun l => ?_⟩,
      fun hd => completes_setLinks (exec_hostStore_denied hr hd)⟩
    · rw [State.clearResvMem_mem]; exact Mem.bytes_store_self ..
    · intro x hx
      rw [State.clearResvMem_mem]; exact Mem.sameOutside_store _ _ _ hx
    · exact (s.setMem _).ctx_clearResvMem_keeps ..
  case reg =>
    intro b
    exact ⟨leBytes 8 (s.barRead b).toNat, (leNat_leBytes_word _).trans (s.barRead_toNat b), completes_setLinks rfl⟩
  case forward =>
    exact fun p x => ⟨fun q up hs hd hr => completes_setLinks (exec_transferForward up hs hd hr),
      fun hr => ⟨s, exec_transferForward_noRoute hr, rfl⟩⟩

/-! ## Host memory (R255, R256, R352) -/

/-- Host addresses with one key are the same 64-bit address. -/
theorem hostKey_inj {a b : Nat} (h : hostKey a = hostKey b) : a % 2 ^ 64 = b % 2 ^ 64 := by
  simp only [hostKey, physKey] at h
  split at h <;> split at h <;> omega

@[simp] theorem length_hostKeys (a n : Nat) : (hostKeys a n).length = n := by simp [hostKeys]

/-- A run of at most 2^64 host bytes names each byte once. -/
theorem nodup_hostKeys (a : Nat) {n : Nat} (h : n ≤ 2 ^ 64) : (hostKeys a n).Nodup := by
  refine List.Nodup.map_on (fun i hi j hj e => ?_) List.nodup_range
  have := hostKey_inj e
  rw [List.mem_range] at hi hj
  omega

/-- The keys of a run inside a run. -/
theorem hostKeys_sub (a : Nat) {i n m : Nat} (h : i + n ≤ m) : hostKeys (a + i) n = ((hostKeys a m).drop i).take n := by
  refine List.ext_getElem (by simp; omega) fun j h1 h2 => ?_
  simp [hostKeys, Nat.add_assoc]

/-- A run inside the bytes just stored reads its part of them. -/
theorem State.hostBytes_hostStore_sub (s : State) (a : Nat) (bs : List Byte) {i n : Nat} (h : i + n ≤ bs.length)
    (hl : bs.length ≤ 2 ^ 64) : (s.hostStore a bs).hostBytes (a + i) n = (bs.drop i).take n := by
  have hall := s.memBytes_memStore (hostKeys a bs.length) bs none (nodup_hostKeys a hl) (length_hostKeys ..)
  rw [State.memBytes] at hall
  rw [State.hostBytes, State.memBytes, hostKeys_sub a h, List.map_take, List.map_drop]
  exact congrArg (fun l => (l.drop i).take n) hall

/-! ## The reply to a host call (R256, R370) -/

/-- The 64 bytes of a reply. -/
def replyBytes (seq : Word) (st : Nat) (res : BitVec 256) : List Byte :=
  leBytes 1 st ++ leBytes 7 0 ++ leBytes 8 seq.toNat ++ leBytes 16 0 ++ leBytes 32 res.toNat

@[simp] theorem length_replyBytes (seq : Word) (st : Nat) (res : BitVec 256) : (replyBytes seq st res).length = 64 := by
  simp [replyBytes]

/-- The reply leaves memory as a store of its 64 bytes behind the request does. -/
theorem State.replyHost_mem (s : State) (a : Nat) (seq : Word) (st : Nat) (res : BitVec 256) :
    (s.replyHost a seq st res).mem = (s.hostStore (a + 64) (replyBytes seq st res)).mem := by
  simp only [State.replyHost, State.msix_mem]
  rfl

theorem State.hostBytes_replyHost (s : State) (a : Nat) (seq : Word) (st : Nat) (res : BitVec 256) {i n : Nat} (h : i + n ≤ 64) :
    (s.replyHost a seq st res).hostBytes (a + 64 + i) n = ((replyBytes seq st res).drop i).take n := by
  rw [← s.hostBytes_hostStore_sub (a + 64) (replyBytes seq st res) (by simpa using h) (by simp)]
  simp only [State.hostBytes, State.memBytes, State.replyHost_mem]

theorem replyBytes_status (seq : Word) (st : Nat) (res : BitVec 256) :
    leNat (((replyBytes seq st res).drop 0).take 1) = st % 256 := by
  rw [show ((replyBytes seq st res).drop 0).take 1 = leBytes 1 st by simp [replyBytes, leBytes], leNat_leBytes, pow_one]

theorem replyBytes_seq (seq : Word) (st : Nat) (res : BitVec 256) :
    leNat (((replyBytes seq st res).drop 8).take 8) = seq.toNat := by
  rw [show ((replyBytes seq st res).drop 8).take 8 = leBytes 8 seq.toNat by 
      simp [replyBytes, List.drop_append, List.drop_of_length_le], leNat_leBytes_word]

theorem replyBytes_result (seq : Word) (st : Nat) (res : BitVec 256) :
    leNat (((replyBytes seq st res).drop 32).take 32) = res.toNat := by
  rw [show ((replyBytes seq st res).drop 32).take 32 = leBytes 32 res.toNat by 
      simp [replyBytes, List.drop_append, List.drop_of_length_le], leNat_leBytes]
  exact Nat.mod_eq_of_lt res.isLt


/-- What the host finds in the reply: its status, its sequence number and its result. -/
theorem State.replyHost_status (s : State) (a : Nat) (seq : Word) (st : Nat) (res : BitVec 256) :
    leNat ((s.replyHost a seq st res).hostBytes (a + 64) 1) = st % 256 := by
  rw [← replyBytes_status seq, ← s.hostBytes_replyHost a seq st res (i := 0) (n := 1) (by omega), Nat.add_zero]

theorem State.replyHost_seq (s : State) (a : Nat) (seq : Word) (st : Nat) (res : BitVec 256) :
    leNat ((s.replyHost a seq st res).hostBytes (a + 72) 8) = seq.toNat := by
  rw [← replyBytes_seq seq st res, ← s.hostBytes_replyHost a seq st res (by omega)]

theorem State.replyHost_result (s : State) (a : Nat) (seq : Word) (st : Nat) (res : BitVec 256) :
    leNat ((s.replyHost a seq st res).hostBytes (a + 96) 32) = res.toNat := by
  rw [← replyBytes_result seq st res, ← s.hostBytes_replyHost a seq st res (by omega)]

/-- The reply writes its 64 bytes and no byte besides. -/
theorem State.replyHost_read_other (s : State) (a : Nat) (seq : Word) (st : Nat) (res : BitVec 256) {y : Nat}
    (h : y ∉ hostKeys (a + 64) 64) : (s.replyHost a seq st res).mem.read y = s.mem.read y := by
  rw [State.replyHost_mem, State.hostStore, length_replyBytes]
  exact s.memStore_read_other _ _ _ h

/-- Vector 64 is sent with the reply. -/
theorem State.replyHost_msix (s : State) (a : Nat) (seq : Word) (st : Nat) (res : BitVec 256) :
    (s.replyHost a seq st res).links.msix = 64 :: s.links.msix := by
  simp only [State.replyHost, State.hostStore, State.msix, State.memStore_links]

/-! ## The call mailbox (R10, R349, R370) -/

/-- The request that stands in host memory at `CALLADDR`. -/
def State.mailWord (s : State) : BitVec 512 := ofBytes512 (s.hostBytes s.svc.callAddr.toNat 64)

/-- The state in which `CALLGO` has put that request into the mailbox. -/
def State.posted (s : State) (ch : List Nat) : State :=
  { s with svc := { s.svc with busy := true, done := false, mail := some ⟨s.svc.callAddr.toNat, s.mailWord, ch⟩ } }

/-- What the leader performs for the host's request. -/
def State.performPosted (s : State) (ch : List Nat) : Performed :=
  (s.posted ch).perform (bitsN s.mailWord 64 16) (hostReq s.mailWord ch) (bitsN s.mailWord 80 48 != 0)

/-- A value other than 1 is ignored, and so is `CALLGO` while a call runs. -/
theorem exec_callgo_ignored {s : State} {v : Word} {ch : List Nat} (h : v ≠ 1 ∨ s.svc.busy = true) :
    exec (.callgo v ch) s = .next s := by
  have hc : (decide (v ≠ 1) || s.svc.busy) = true := by simpa using h
  show execCallgo v ch s = _
  unfold execCallgo
  rw [if_pos hc]

/-- Without a leader the request stays in the mailbox. -/
theorem exec_callgo_kept {s : State} {ch : List Nat} (hb : s.svc.busy = false) (hl : s.leaderLive = false) :
    exec (.callgo 1 ch) s = .next (s.posted ch) := by
  show execCallgo 1 ch s = _
  simp only [execCallgo, hb, hl, ne_eq, not_true_eq_false, decide_false, Bool.or_false, Bool.false_eq_true, if_false]
  rfl

/-- The leader performs the request, and answers it once it has ended. -/
theorem exec_callgo_served {s : State} {ch : List Nat} (hb : s.svc.busy = false) (hl : s.leaderLive = true) :
    exec (.callgo 1 ch) s = .next (match (s.performPosted ch).2 with
      | none => (s.performPosted ch).1
      | some (st, res) => (s.performPosted ch).1.replyHost s.svc.callAddr.toNat (field s.mailWord 0 64) st res) := by
  show execCallgo 1 ch s = _
  simp only [execCallgo, hb, hl, ne_eq, not_true_eq_false, decide_false, Bool.or_false, Bool.false_eq_true, if_false, if_true]
  rfl

/-- The mailbox: each write of a register, and the call that `CALLGO` makes. -/
theorem hostCallsGoThroughTheMailbox : Claims.HostCallsGoThroughTheMailbox := by
  intro s
  refine ⟨fun v => ⟨_, rfl, ?addr, rfl⟩, fun v b hb => ⟨s, ?other, rfl⟩, fun v ch h => ⟨s, exec_callgo_ignored h, rfl⟩,
    fun ch hb hl => ⟨_, exec_callgo_kept hb hl, rfl, rfl⟩, fun ch u st res hb hl => ?answered, fun ch u hb hl => ?waits⟩
  case addr => simp
  case other =>
    show execRegisterWrite b v s = _
    cases b
    case callAddr => exact absurd rfl hb
    all_goals rfl
  case answered =>
    intro a w s1 hp
    replace hp : s.performPosted ch = (u, some (st, res)) := hp
    have ex := exec_callgo_served (ch := ch) hb hl
    rw [hp] at ex
    exact ⟨_, ex, u.replyHost_status .., (u.replyHost_seq ..).trans (field_toNat ..), u.replyHost_result .., rfl, rfl, rfl,
      u.replyHost_msix .., fun y hy => u.replyHost_read_other _ _ _ _ hy⟩
  case waits =>
    intro a w s1 hp
    replace hp : s.performPosted ch = (u, none) := hp
    have ex := exec_callgo_served (ch := ch) hb hl
    rw [hp] at ex
    exact ⟨u, ex, rfl⟩

/-! ## The call records behind each operation of a teardown (R366, R369, R373) -/

/-- A fold of operations that each leave the call records leaves them. -/
theorem State.foldl_calls {α : Type} {f : State → α → State} (hf : ∀ t a, (f t a).svc.calls = t.svc.calls) (l : List α)
    (s : State) : (l.foldl f s).svc.calls = s.svc.calls := by
  induction l generalizing s with
  | nil => rfl
  | cons a l ih => exact (ih _).trans (hf s a)

@[simp] theorem State.report_calls (s : State) (r : Report) : (s.report r).svc.calls = s.svc.calls := rfl

@[simp] theorem State.asyncTrap_calls (s : State) (l : Loc) (run : RunRec) (a : Async) :
    (s.asyncTrap l run a).svc.calls = s.svc.calls := by
  rcases s.asyncTrap_cases l run a with e | e <;> rw [e] <;> rfl

@[simp] theorem State.unitWrite_svc (s : State) (ag : Agent) (a : Word) (bs : List Byte) : (s.unitWrite ag a bs).svc = s.svc := by
  rcases s.unitWrite_cases ag a bs with e | ⟨ks, -, e⟩ <;> rw [e]
  exact s.memStore_svc ..

@[simp] theorem State.hostStore_svc (s : State) (a : Nat) (bs : List Byte) : (s.hostStore a bs).svc = s.svc := s.memStore_svc ..

@[simp] theorem State.dropRef_svc (s : State) (r : RecRef) : (s.dropRef r).svc = s.svc := rfl
@[simp] theorem State.setRef_svc (s : State) (r : RecRef) : (s.setRef r).svc = s.svc := rfl
@[simp] theorem State.putRec_svc (s : State) (r : RecRef) (w : BitVec 512) : (s.putRec r w).svc = s.svc := by
  rw [State.putRec, State.unitWrite_svc, State.setRef_svc]
@[simp] theorem State.makeReady_svc (s : State) (r : RecRef) (w : BitVec 512) : (s.makeReady r w).svc = s.svc := s.putRec_svc ..

/-- An overflow is told to a context or to the service OS, which the call records do not show. -/
@[simp] theorem State.flagOverflow_calls (s : State) (h : Fin 640) (src : FlagSrc) (fl : Fin 256) :
    (s.flagOverflow h src fl).svc.calls = s.svc.calls := by
  cases src with
  | cmd c seq slot run => exact s.asyncTrap_calls ..
  | peer a => rfl
  | qm => rfl

@[simp] theorem State.flagAddNow_calls (s : State) (h : Fin 640) (src : FlagSrc) (fl : Fin 256) (v : Nat) :
    (s.flagAddNow h src fl v).svc.calls = s.svc.calls := by
  unfold State.flagAddNow
  dsimp only
  split
  · rw [State.flagOverflow_calls, State.setFlag_svc]
  · rfl

/-- An addition without a trace record. -/
@[simp] theorem State.flagAdd_calls (s : State) (h : Fin 640) (src : FlagSrc) (fl : Fin 256) (v : Nat) :
    (s.flagAdd h src fl v none).svc.calls = s.svc.calls := by
  cases hs : (s.hearth h).hob.stopped
  · rw [State.flagAdd_running hs, State.flagAddNow_calls]
  · rw [State.flagAdd_stopped hs, State.pushHeld_svc]

@[simp] theorem State.qmFlag_calls (s : State) (h : Nat) (fl : Fin 256) (v : Nat) :
    (s.qmFlag h fl v).svc.calls = s.svc.calls := by
  unfold State.qmFlag
  split
  · dsimp only
    split
    · split <;> rfl
    · split
      · exact s.flagAdd_calls ..
      · rfl
  · rfl

@[simp] theorem State.hostComplete_calls (s : State) (q : Fin 2048) (caddr : Nat) (seq : Word) (st nf nc : Nat) :
    (s.hostComplete q caddr seq st nf nc).svc.calls = s.svc.calls := by
  unfold State.hostComplete
  extract_lets r s1 src s2
  have h1 : s1.svc.calls = s.svc.calls := by rw [State.msix_svc, State.hostStore_svc]
  have h2 : s2.svc.calls = s.svc.calls := by
    simp only [s2]
    split <;> exact h1
  split
  · exact h2
  · exact h2
  · split <;> exact h2

@[simp] theorem State.graphCheck_calls (s : State) (g : Graph) : (s.graphCheck g).svc.calls = s.svc.calls := by
  unfold State.graphCheck
  split
  · exact (s.dropGraph g.id).hostComplete_calls ..
  · rfl

@[simp] theorem State.nodeDone_calls (s : State) (wq : Fin 2048) (addr : Word) (q : BitVec 3) :
    (s.nodeDone wq addr q).svc.calls = s.svc.calls := by
  unfold State.nodeDone
  split
  · rfl
  · exact s.graphCheck_calls _

/-- A record that ends, and those of its parents that end with it. -/
@[simp] theorem State.endRec_calls (n : Nat) (s : State) (r : RecRef) (q : BitVec 3) :
    (State.endRec n s r q).svc.calls = s.svc.calls := by
  induction n generalizing s r q with
  | zero => rfl
  | succ n ih =>
    unfold State.endRec
    extract_lets w s1 s2 s3 p ag
    have h2 : s2.svc.calls = s.svc.calls := by
      simp only [s2]
      split <;> simp [s1]
    have h3 : s3.svc.calls = s.svc.calls := (s2.nodeDone_calls ..).trans h2
    clear_value s3
    split
    · exact h3
    · split
      case h_1 => exact h3
      case h_2 bs hbs =>
        clear hbs
        extract_lets pw _ failed pw1
        split
        case h_1 => split <;> simp [h3]
        case h_2 pr _ =>
          extract_lets pr1
          (repeat' split) <;> simp [ih, h3]

theorem State.cancelRecs_calls (s : State) (q : Fin 2048) (sel : RecRef → Bool) :
    (s.cancelRecs q sel).svc.calls = s.svc.calls := by
  unfold State.cancelRecs
  refine (State.foldl_calls (fun t r => ?_) _ _).trans rfl
  split
  · rfl
  · exact State.endRec_calls ..

theorem State.cancelNodes_calls (s : State) (q : Fin 2048) (sel : Node → Bool) :
    (s.cancelNodes q sel).svc.calls = s.svc.calls :=
  State.foldl_calls (fun t _ => t.graphCheck_calls _) _ s

@[simp] theorem State.takeQueued_svc (s : State) (h : Fin 640) (n : Nat) : (s.takeQueued h n).svc = s.svc := by
  induction n generalizing s with
  | zero => rfl
  | succ n ih =>
    unfold State.takeQueued
    dsimp only
    split
    · exact ih _
    · rfl

theorem State.discardRun_svc (s : State) (q : Fin 2048) (a : Word) : (s.discardRun q a).svc = s.svc := rfl

theorem State.tearIdle_calls (s : State) (q : Fin 2048) : (s.tearIdle q).svc.calls = s.svc.calls := by
  rw [State.tearIdle, State.cancelNodes_calls, State.cancelRecs_calls, State.setQueue_svc]

theorem State.tearEnd_calls (s : State) (q : Fin 2048) : (s.tearEnd q).svc.calls = s.svc.calls := by
  unfold State.tearEnd
  extract_lets mine hs s1 s2 s3
  clear_value hs
  have h1 : s1.svc.calls = s.svc.calls := State.foldl_calls (fun t r => by rw [State.discardRun_svc]) mine s
  have h3 : s3.svc.calls = s2.svc.calls := State.foldl_calls (fun t h => by rw [State.takeQueued_svc]) hs s2
  rw [State.cancelNodes_calls, State.cancelRecs_calls, h3]
  exact h1

/-- A teardown, as far as it goes, leaves the call records. -/
theorem State.teardown_calls (s : State) (q : Fin 2048) : (s.teardown q).1.svc.calls = s.svc.calls := by
  unfold State.teardown
  dsimp only
  split
  · rw [State.tearEnd_calls]; exact s.tearIdle_calls q
  · exact s.tearIdle_calls q

/-! ## What a call leaves that must wait (R369) -/

/-- A body that waits leaves the call records. -/
def KeepsCalls (body : CallReq → State → CallRes) : Prop := ∀ r s t, body r s = .wait t → t.svc.calls = s.svc.calls

/-- A body that always ends does not wait. -/
theorem keepsCalls_done (b : CallReq → State → CallOut) : KeepsCalls fun q t => .done (b q t) := by
  intro r s t h
  simp only [reduceCtorEq] at h

theorem callQueueTeardown_keepsCalls : KeepsCalls callQueueTeardown := by
  intro r s t h
  unfold callQueueTeardown at h
  dsimp only at h
  (repeat' split at h) <;> cases h
  · rfl
  · exact s.teardown_calls _

theorem callQueueReset_keepsCalls : KeepsCalls callQueueReset := by
  intro r s t h
  unfold callQueueReset at h
  dsimp only at h
  (repeat' split at h) <;> cases h
  · rfl
  · exact s.teardown_calls _

theorem callUnmap_keepsCalls : KeepsCalls callUnmap := by
  intro r s t h
  unfold callUnmap at h
  dsimp only at h
  (repeat' split at h) <;> cases h
  rfl

theorem callSetHome_keepsCalls : KeepsCalls callSetHome := by
  intro r s t h
  unfold callSetHome at h
  dsimp only at h
  (repeat' split at h) <;> cases h
  rfl

theorem callMigrate_keepsCalls : KeepsCalls callMigrate := by
  intro r s t h
  unfold callMigrate at h
  dsimp only at h
  (repeat' split at h) <;> cases h <;> rfl

theorem callRoutineLoad_keepsCalls : KeepsCalls callRoutineLoad := by
  intro r s t h
  unfold callRoutineLoad at h
  dsimp only at h
  (repeat' split at h) <;> cases h
  rfl

theorem callRoutineUnload_keepsCalls : KeepsCalls callRoutineUnload := by
  intro r s t h
  unfold callRoutineUnload at h
  dsimp only at h
  (repeat' split at h) <;> cases h
  rfl

/-! ## The call rows (R369, R371) -/

/-- A call row runs by its sequence number, and its body leaves the call records while it waits. -/
def RunsNumbered (no : Nat) : Prop :=
  ∃ body, KeepsCalls body ∧ ∀ (r : CallReq) (s : State), s.perform no r false = s.runN no r (body r)

/-- A call row that carries no sequence number. -/
def RunsUnnumbered (no : Nat) : Prop :=
  ∃ b : CallReq → State → CallOut, ∀ (r : CallReq) (s : State), s.perform no r false = s.runI r (b r)

/-- Each call row is the call of its number, served. -/
theorem exec_callRow {i : CallReq → Instr} {no : Nat} (h : (i, no) ∈ callRows) (r : CallReq) (s : State) :
    exec (i r) s = s.serveCall no r := by
  fin_cases h <;> rfl

/-- Each call row runs by its sequence number, or is one of the two that carry none. -/
theorem callRow_runs {i : CallReq → Instr} {no : Nat} (h : (i, no) ∈ callRows) :
    (i ∈ readCalls ∧ RunsUnnumbered no) ∨ RunsNumbered no := by
  fin_cases h
  exacts [.inr ⟨_, keepsCalls_done callImageRegister, fun _ _ => rfl⟩, .inr ⟨_, keepsCalls_done callImageUnregister, fun _ _ => rfl⟩,
    .inr ⟨_, keepsCalls_done callQueueCreate, fun _ _ => rfl⟩, .inr ⟨_, callQueueTeardown_keepsCalls, fun _ _ => rfl⟩,
    .inr ⟨_, callQueueReset_keepsCalls, fun _ _ => rfl⟩, .inl ⟨by simp [readCalls], callQueueErrors, fun _ _ => rfl⟩,
    .inr ⟨_, keepsCalls_done callMap, fun _ _ => rfl⟩, .inr ⟨_, callUnmap_keepsCalls, fun _ _ => rfl⟩,
    .inr ⟨_, callSetHome_keepsCalls, fun _ _ => rfl⟩, .inr ⟨_, callMigrate_keepsCalls, fun _ _ => rfl⟩,
    .inr ⟨_, keepsCalls_done callAgeLimit, fun _ _ => rfl⟩, .inr ⟨_, callRoutineLoad_keepsCalls, fun _ _ => rfl⟩,
    .inr ⟨_, callRoutineUnload_keepsCalls, fun _ _ => rfl⟩, .inr ⟨_, keepsCalls_done callFlashAllocate, fun _ _ => rfl⟩,
    .inr ⟨_, keepsCalls_done callFlashWrite, fun _ _ => rfl⟩, .inr ⟨_, keepsCalls_done callFlashFree, fun _ _ => rfl⟩,
    .inr ⟨_, keepsCalls_done callIndexCreate, fun _ _ => rfl⟩, .inr ⟨_, keepsCalls_done callIndexDestroy, fun _ _ => rfl⟩,
    .inr ⟨_, keepsCalls_done callMergeStart, fun _ _ => rfl⟩, .inr ⟨_, keepsCalls_done callMediaRepair, fun _ _ => rfl⟩,
    .inr ⟨_, keepsCalls_done callPowerSet, fun _ _ => rfl⟩, .inl ⟨by simp [readCalls], callPowerQuery, fun _ _ => rfl⟩,
    .inr ⟨_, keepsCalls_done callTraceRing, fun _ _ => rfl⟩, .inr ⟨_, keepsCalls_done callChimney, fun _ _ => rfl⟩,
    .inr ⟨_, keepsCalls_done callHobAttach, fun _ _ => rfl⟩, .inr ⟨_, keepsCalls_done callHobDetach, fun _ _ => rfl⟩,
    .inr ⟨_, keepsCalls_done callRecordMode, fun _ _ => rfl⟩, .inr ⟨_, keepsCalls_done callReplay, fun _ _ => rfl⟩]


/-! ## Records and replies (R365, R368 to R370) -/

/-- The latest record of a caller is kept. -/
theorem keepCalls_append_latest {caller : Nat} {l : List CallRec} {c : CallRec}
    (h : ∀ d, d ∈ l → d.caller = caller → d.seq.toNat ≤ c.seq.toNat) :
    ∃ l', (∀ d, d ∈ l' → d ∈ l) ∧ keepCalls caller (l ++ [c]) = l' ++ [c] := by
  have hlate : ((l ++ [c]).filter fun d => d.caller == caller).filter (fun d => decide (c.seq.toNat < d.seq.toNat)) = [] := by
    refine List.filter_eq_nil_iff.2 fun d hd => ?_
    simp only [List.mem_filter, List.mem_append, List.mem_singleton, beq_iff_eq] at hd
    obtain ⟨hd | rfl, hdc⟩ := hd
    · simpa using h d hd hdc
    · simp
  have hroom : 0 < Config.callRecords := by decide
  have hkeep : keepCalls caller (l ++ [c]) = (l ++ [c]).filter _ := rfl
  rw [hkeep, List.filter_append, List.filter_cons_of_pos (by rw [hlate]; simp [hroom]), List.filter_nil]
  exact ⟨_, fun d hd => (List.mem_filter.1 hd).1, rfl⟩

/-- The record just put is the one that its sequence number names, where no later call of its caller is on record. -/
theorem State.callRec_putCall (s : State) (r : CallReq) {c : CallRec} (hcaller : c.caller = r.caller) (hseq : c.seq = r.seq)
    (h : ∀ d, d ∈ s.svc.calls → d.caller = r.caller → d.seq.toNat ≤ r.seq.toNat) :
    (s.putCall r c).svc.callRec r.caller r.seq = some c := by
  obtain ⟨l, hl, hkeep⟩ := keepCalls_append_latest (caller := r.caller) (c := c)
    (l := s.svc.calls.filter fun d => !(d.caller == r.caller && d.seq == r.seq))
    fun d hd hdc => by rw [hseq]; exact h d (List.mem_filter.1 hd).1 hdc
  simp only [Service.callRec, State.putCall, hkeep]
  refine List.find?_eq_some_iff_append.2 ⟨by simp [hcaller, hseq], l, [], rfl, fun d hd => ?_⟩
  exact (List.mem_filter.1 (hl d hd)).2

/-- A numbered call executes its body, or is answered without a change (R369). -/
theorem State.runN_cases (s : State) (no : Nat) (r : CallReq) (body : State → CallRes) :
    s.runN no r body = s.endCall no r (body s) ∨ ∃ x, s.runN no r body = (s, some x) := by
  unfold State.runN
  split
  · exact .inr ⟨_, rfl⟩
  · split
    · split
      · exact .inr ⟨_, rfl⟩
      · exact .inl rfl
    · split
      · exact .inl rfl
      · exact .inr ⟨_, rfl⟩

/-- A numbered call that waits has left its record started (R369). -/
theorem State.runN_waits {s u : State} {no : Nat} {r : CallReq} {body : CallReq → State → CallRes} (keeps : KeepsCalls body)
    (h : s.runN no r (body r) = (u, none))
    (hseq : ∀ c, c ∈ s.svc.calls → c.caller = r.caller → c.seq.toNat ≤ r.seq.toNat) :
    (u.svc.callRec r.caller r.seq).map (·.committed) = some false := by
  obtain hend | ⟨x, hx⟩ := s.runN_cases no r (body r)
  · rw [h] at hend
    unfold State.endCall at hend
    dsimp only at hend
    split at hend
    case h_1 t hwait =>
      cases hend
      rw [State.callRec_putCall t r rfl rfl (by rw [keeps r s t hwait]; exact hseq)]
      rfl
    case h_2 => cases hend
  · cases h.symm.trans hx

/-- A call without a sequence number does not wait. -/
theorem State.runI_ends {s u : State} {r : CallReq} {b : State → CallOut} : s.runI r b ≠ (u, none) := by
  unfold State.runI
  split <;> simp

/-- A call whose record stands committed is answered from it (R369). -/
theorem State.runN_repeated {s : State} {no : Nat} {r : CallReq} {body : State → CallRes} {c : CallRec} (h0 : r.seq ≠ 0)
    (h : s.svc.callRec r.caller r.seq = some c) (hc : c.committed = true) :
    s.runN no r body = (s, some (c.status, c.result)) := by
  simp only [State.runN, h0, h, hc, if_false, if_true]

/-- A call below one on record is stale (R369). -/
theorem State.runN_stale {s : State} {no : Nat} {r : CallReq} {body : State → CallRes} {c : CallRec} (h0 : r.seq ≠ 0)
    (h : s.svc.callRec r.caller r.seq = none) (hm : c ∈ s.svc.calls) (hcaller : c.caller = r.caller)
    (hle : r.seq.toNat ≤ c.seq.toNat) : s.runN no r body = (s, some (2, 0)) := by
  have hall : ¬ (s.svc.calls.all fun c => c.caller != r.caller || decide (c.seq.toNat < r.seq.toNat)) = true := fun hall => by
    have := List.all_eq_true.1 hall c hm
    simp [hcaller] at this
    omega
  simp only [State.runN, h0, h, if_false, if_neg hall]

/-! ## Serving a call (R281, R365, R370) -/

/-- Without a live leader a call changes nothing. -/
theorem State.serveCall_dead {s : State} (h : s.leaderLive = false) (no : Nat) (r : CallReq) : s.serveCall no r = .next s := by
  simp only [State.serveCall, h, Bool.not_false, if_true]

/-- The host's call has no context to answer. -/
theorem State.serveCall_host {s : State} {r : CallReq} (h : s.leaderLive = true) (hr : r.caller = 0) (no : Nat) :
    s.serveCall no r = .next (s.perform no r false).1 := by
  simp [State.serveCall, h, hr]

/-- The call of a hearth's context is answered there. -/
theorem State.serveCall_ctx {s : State} {r : CallReq} {l : Loc} (h : s.leaderLive = true) (hr : r.caller = 1 + l.h.val)
    (hc : r.ctx = l.c) (hf : s.frozen l.h = false) (no : Nat) : s.serveCall no r = .next ((s.perform no r false).reply l) := by
  obtain ⟨h', c⟩ := l
  have hlt := h'.isLt
  dsimp only at hr hc hf
  subst hc
  have hl : (⟨r.caller - 1, by omega⟩ : Fin 640) = h' := Fin.ext (by simp only; omega)
  unfold State.serveCall
  rw [dif_pos (by omega)]
  simp only [h, hl, hf, Bool.not_true, Bool.false_eq_true, if_false]

/-- A call that waits is not answered. -/
theorem State.serveCall_waits {s u : State} {r : CallReq} {no : Nat} (h : s.leaderLive = true)
    (hf : ∀ l : Loc, r.caller = 1 + l.h.val → s.frozen l.h = false) (hp : s.perform no r false = (u, none)) :
    s.serveCall no r = .next u := by
  by_cases hr : 1 ≤ r.caller ∧ r.caller ≤ 640
  · have hc : r.caller = 1 + (⟨⟨r.caller - 1, by omega⟩, r.ctx⟩ : Loc).h.val := by simp only; omega
    rw [State.serveCall_ctx h hc rfl (hf _ hc), hp]
    rfl
  · simp [State.serveCall, h, hr, hp]

/-- Bits of a result as a word. -/
theorem field_word {n : Nat} (x : BitVec n) (lo : Nat) : field x lo 64 = BitVec.ofNat 64 (x.toNat / 2 ^ lo) := by
  rw [field_eq_ofNat]
  exact BitVec.eq_of_toNat_eq (by simp [bitsN])

/-- The context that a reply leaves (R370). -/
def Ctx.replied (k : Ctx) (st : Nat) (res : BitVec 256) : Ctx :=
  { ((((k.set 10 (BitVec.ofNat 64 st)).set 11 (field res 0 64)).set 12 (field res 64 64)).set 13 (field res 128 64)).set 14
      (field res 192 64) with st := .running, wait := .none }.retire

/-- The reply goes to a context that waits in `ECALL`. -/
theorem State.replyTo_waiting {s : State} {l : Loc} (hst : (s.ctx l).st = .waiting) (hw : (s.ctx l).wait = .svc) (st : Nat)
    (res : BitVec 256) : s.replyTo l st res = s.setCtx l ((s.ctx l).replied st res) := by
  simp only [State.replyTo, hst, hw]
  rfl

/-- The registers a reply leaves: a0 holds the status, a1 to a4 the result. -/
theorem Ctx.get_replied (k : Ctx) (st : Nat) (res : BitVec 256) (x : XReg) : (k.replied st res).get x =
    if x = 14 then field res 192 64 else if x = 13 then field res 128 64 else if x = 12 then field res 64 64
    else if x = 11 then field res 0 64 else if x = 10 then BitVec.ofNat 64 st else k.get x := by
  rw [Ctx.replied, Ctx.get_retire]
  show ((((((k.set 10 (BitVec.ofNat 64 st)).set 11 (field res 0 64)).set 12 (field res 64 64)).set 13 (field res 128 64)).set 14
    (field res 192 64)).get x) = _
  simp only [Ctx.get_set, eq_comm (b := x)]
  rfl


/-- The context goes on behind its `ECALL`. -/
theorem Ctx.replied_pc (k : Ctx) (st : Nat) (res : BitVec 256) : (k.replied st res).pc = k.pc + 4 := by
  simp [Ctx.replied]

/-- Every call row is answered by the state of its call record. -/
theorem callsAreAnsweredOnce : Claims.CallsAreAnsweredOnce := by
  intro i no r s hrow
  simp only [Completes, exec_callRow hrow]
  refine ⟨fun h => ⟨s, State.serveCall_dead h no r, rfl⟩, ?replies, ?waits, ?repeated, ?stale⟩
  case replies =>
    intro u st res l hl hp hr hc hf hst hw
    refine ⟨_, State.serveCall_ctx hl hr hc hf no, ?_⟩
    rw [hp, show Performed.reply (u, some (st, res)) l = u.replyTo l st res from rfl, State.replyTo_waiting hst hw,
      State.ctx_setCtx_self]
    simp only [Ctx.get_replied, ← field_word]
    refine ⟨rfl, ?_, rfl, rfl, rfl, rfl, rfl, Ctx.replied_pc .., fun x hx => ?_, rfl, rfl⟩
    · exact (field_word res 0).trans (by rw [pow_zero, Nat.div_one])
    · have hne : ∀ n : XReg, 10 ≤ n.val → n.val ≤ 14 → x ≠ n := by
        rintro n h1 h2 rfl
        omega
      rw [if_neg (hne 14 (by decide) (by decide)), if_neg (hne 13 (by decide) (by decide)), if_neg (hne 12 (by decide) (by decide)),
        if_neg (hne 11 (by decide) (by decide)), if_neg (hne 10 (by decide) (by decide))]
  case waits =>
    intro u hl hf hp
    refine ⟨u, State.serveCall_waits hl hf hp, rfl, fun hseq => ?_⟩
    rcases callRow_runs hrow with ⟨-, b, hb⟩ | ⟨body, keeps, hb⟩
    · exact absurd ((hb r s).symm.trans hp) State.runI_ends
    · exact State.runN_waits keeps ((hb r s).symm.trans hp) hseq
  case repeated =>
    intro c hl hi hr h0 hrec hc
    obtain ⟨hmem, -⟩ | ⟨body, -, hb⟩ := callRow_runs hrow
    · exact absurd hmem hi
    · have hp : s.perform no r false = (s, some (c.status, c.result)) :=
        (hb r s).trans (State.runN_repeated h0 (by rw [hr]; exact hrec) hc)
      exact ⟨hp, s, by rw [State.serveCall_host hl hr, hp], rfl⟩
  case stale =>
    intro c hl hi hr hrec hm hcaller hle h0
    obtain ⟨hmem, -⟩ | ⟨body, -, hb⟩ := callRow_runs hrow
    · exact absurd hmem hi
    · have hp : s.perform no r false = (s, some (2, 0)) :=
        (hb r s).trans (State.runN_stale h0 (by rw [hr]; exact hrec) hm (by rw [hr]; exact hcaller) hle)
      exact ⟨hp, s, by rw [State.serveCall_host hl hr, hp], rfl⟩

/-- Settles O50: the mailbox by what the leader performs for it, every call by its record. -/
theorem hostCallsAndReplies : Obligations.HostCallsAndReplies :=
  ⟨hostCallsGoThroughTheMailbox, callsAreAnsweredOnce⟩

end Sys2Proof.Machine

/-! PROOFS. What Hob prints, the switch of the trace, and the chimney stream (O46): first the rules of the printing commands and of a
latch, then the theorem that settles the statement. -/

namespace Sys2Proof.Machine

/-! ## Hob's commands (R280) -/

/-- Lines printed one after the other stand in `hobOut` with the latest first, and nothing else changes. -/
theorem State.foldl_hobPrint (s : State) (os : List HobOut) :
    os.foldl State.hobPrint s = { s with hobOut := os.reverse ++ s.hobOut } := by
  induction os generalizing s with
  | nil => rfl
  | cons o os ih => rw [List.foldl_cons, ih]; simp [State.hobPrint]

/-- A command of a session is performed. -/
theorem State.hobCmd_session {s : State} (h : s.fh.hob.sess.isSome = true) (f : State) : s.hobCmd f = f := if_pos h

/-- A session's command that prints lines leaves them in `hobOut`, the latest first, and changes nothing else. -/
theorem completes_hobPrint {i : Instr} {s : State} (h : s.fh.hob.sess.isSome = true) (os : List HobOut)
    (he : exec i s = .next (s.hobCmd (os.foldl State.hobPrint s))) :
    Completes i s fun t => t.hobOut = os.reverse ++ s.hobOut ∧ { t with hobOut := s.hobOut } = s := by
  rw [s.hobCmd_session h, s.foldl_hobPrint] at he
  exact ⟨_, he, rfl, rfl⟩

/-- The active nest table is that of the one `mx.go` that runs (R121, R175). -/
theorem Hearth.activeNest_running {x : Hearth} {c : Cmd} (hc : x.cmds = [c]) (ho : c.op = some .mxGo) (hs : c.stage = .started)
    (hp : c.performed = false) : x.activeNest = some c.nest := by
  simp [Hearth.activeNest, hc, ho, hs, hp]

/-- The word of a slot without placeholders (R27). -/
theorem exec_hobDecode_plain {s : State} {n : Nat} (hn : s.fh.slotOk n = true) (hd : s.fh.descOf n = none) :
    exec (.hobDecode n) s = s.hobShow (.word (verbose (s.fh.slotWord n) none) none) := by
  show execHobDecode n s = _
  simp only [execHobDecode, hn, hd, if_true, Option.isSome_none, Bool.false_eq_true, if_false]

/-- The word of a slot with its placeholders, beside the one command that was issued from it (R27, R103). -/
theorem exec_hobDecode_issued {s : State} {n : Nat} {d : Desc} {c : Cmd} (hn : s.fh.slotOk n = true)
    (hd : s.fh.descOf n = some d) (hc : s.fh.cmds = [c]) (hslot : c.slot = n) (hend : c.ended = false) :
    exec (.hobDecode n) s = s.hobShow (.word (verbose (s.fh.slotWord n) (some d)) (some (verbose c.word none))) := by
  have hfind : ([c].reverse.find? fun c => c.slot == n && !c.ended) = some c := by simp [hslot, hend]
  show execHobDecode n s = _
  simp only [execHobDecode, hn, hd, hc, hfind, if_true, Option.isSome_some, Option.map_some]

/-! ## Bytes of the scratchpad (R230, R280) -/

/-- An address of the aperture, by its fields (R230). -/
theorem aperture_fields {x : Nat} (h : x < 2 ^ 21) (a : Word) (ha : a = BitVec.ofNat 64 (15 * 2 ^ 52 + x)) :
    ownerOf a = 15 ∧ bit a 56 = false ∧ canonical a = true ∧ bitsN a 21 31 = 0 ∧ bitsN a 0 21 = x := by
  have hn : a.toNat = 15 * 2 ^ 52 + x := by rw [ha, BitVec.toNat_ofNat]; omega
  have h56 : bit a 56 = false := by
    rw [bit, BitVec.getLsbD, hn, Nat.testBit_eq_decide_div_mod_eq]
    exact decide_eq_false (by omega)
  refine ⟨?_, h56, ?_, ?_, ?_⟩
  · rw [ownerOf, bitsN, hn]; omega
  · simp only [canonical, h56, bitsN, hn, Bool.false_eq_true, if_false, decide_eq_true_eq]; omega
  · rw [bitsN, hn]; omega
  · rw [bitsN, hn]; omega

/-- Hob reads a byte of the scratchpad through the aperture. -/
theorem State.hobByte_aperture (s : State) {off i : Nat} (h : off + i < 2 ^ 21) :
    s.hobByte (BitVec.ofNat 64 (15 * 2 ^ 52 + off) + BitVec.ofNat 64 i) = some (s.fh.scratch.read (off + i)) := by
  obtain ⟨ho, h56, hc, hi, hlo⟩ := aperture_fields h _
    (show BitVec.ofNat 64 (15 * 2 ^ 52 + off) + BitVec.ofNat 64 i = _ by rw [← BitVec.ofNat_add, Nat.add_assoc])
  simp only [State.hobByte, ho, h56, hc, hi, hlo, decide_true, Bool.not_false, Bool.and_self, if_true]

/-- The bytes of the scratchpad that Hob reads through the aperture. -/
theorem State.hobBytes_aperture (s : State) {off n : Nat} (h : off + n ≤ 2 ^ 21) :
    ((List.range n).map fun i => s.hobByte (BitVec.ofNat 64 (15 * 2 ^ 52 + off) + BitVec.ofNat 64 i)) =
      (s.fh.scratch.bytes off n).map some := by
  refine List.ext_getElem (by simp) fun i h1 h2 => ?_
  have hi : i < n := by simpa using h1
  rw [List.getElem_map, List.getElem_map, List.getElem_range, s.hobByte_aperture (by omega), Mem.getElem_bytes]

/-- The lines of `HOB_MEM` on the scratchpad: the bytes, and the entries of a KV-cache table among them. -/
theorem exec_hobMem_aperture (s : State) {off n : Nat} (h : off + n ≤ 2 ^ 21) :
    exec (.hobMem (BitVec.ofNat 64 (15 * 2 ^ 52 + off)) n) s =
      .next (s.hobCmd ((.mem ((s.fh.scratch.bytes off n).map some) :: (List.range (n / 32)).filterMap fun i =>
        kvEntry (((s.fh.scratch.bytes off n).drop (32 * i)).take 32)).foldl State.hobPrint s)) := by
  show execHobMem _ n s = _
  simp only [execHobMem, s.hobBytes_aperture h, ← List.map_drop, ← List.map_take, List.filterMap_map, Function.comp_def, id_eq,
    List.filterMap_some, List.foldl_cons]

/-- Fewer than 32 bytes hold no entry of a KV-cache table (R262). -/
theorem exec_hobMem_short (s : State) {off n : Nat} (h : off + n ≤ 2 ^ 21) (hn : n < 32) :
    exec (.hobMem (BitVec.ofNat 64 (15 * 2 ^ 52 + off)) n) s =
      .next (s.hobCmd ([.mem ((s.fh.scratch.bytes off n).map some)].foldl State.hobPrint s)) := by
  rw [exec_hobMem_aperture s h, Nat.div_eq_of_lt hn]
  rfl

/-- Thirty-two bytes are one entry, where they have the layout of one (R262). -/
theorem exec_hobMem_entry {s : State} {off : Nat} {o : HobOut} (h : off + 32 ≤ 2 ^ 21)
    (hkv : kvEntry (s.fh.scratch.bytes off 32) = some o) :
    exec (.hobMem (BitVec.ofNat 64 (15 * 2 ^ 52 + off)) 32) s =
      .next (s.hobCmd ([.mem ((s.fh.scratch.bytes off 32).map some), o].foldl State.hobPrint s)) := by
  have htake : (s.fh.scratch.bytes off 32).take 32 = s.fh.scratch.bytes off 32 := List.take_of_length_le (by simp)
  have hentries : (List.range (32 / 32)).filterMap (fun i => kvEntry (((s.fh.scratch.bytes off 32).drop (32 * i)).take 32)) = [o] := by
    simp [List.range_succ, htake, hkv]
  rw [exec_hobMem_aperture s h, hentries]

/-- A field of a number: `n` bits from bit `lo` on. -/
def natField (v lo n : Nat) : Nat := v / 2 ^ lo % 2 ^ n

/-- The high bits of a field, where they are 0, bound it. -/
theorem natField_lt_of_high {v k m : Nat} (h : natField v k m = 0) : natField v 0 (k + m) < 2 ^ k := by
  rw [natField, pow_zero, Nat.div_one, pow_add, Nat.mod_mul, show v / 2 ^ k % 2 ^ m = 0 from h, Nat.mul_zero, Nat.add_zero]
  exact Nat.mod_lt _ (by positivity)

/-- Bytes that keep the layout of R262 are printed as an entry, field by field. -/
theorem kvEntry_layout {bs : List Byte} {v : Nat} (hl : bs.length = 32) (hv : leNat bs = v) (h192 : natField v 192 64 = 0)
    (h160 : natField v 160 32 % 128 = 0) (hlo : 1 ≤ natField v 152 8) (hhi : natField v 152 8 ≤ 128)
    (hty : natField v 148 4 ∈ [7, 9, 12, 13]) (h128 : natField v 128 18 = 0) (h64 : natField v 64 64 % 64 = 0)
    (hpl : natField v 146 2 = 0 ∨ (natField v 146 2 = 1 ∧ natField v 0 64 % 512 = 0 ∧ natField v 45 19 = 0)) :
    kvEntry bs = some (.kv (natField v 160 32) (natField v 152 8) (natField v 148 4) (natField v 146 2) (natField v 64 64)
      (natField v 0 64)) := by
  have htype : [7, 9, 12, 13].contains (natField v 148 4) = true := by simpa using hty
  have hwhere : natField v 146 2 < 2 := by omega
  have hplace : natField v 146 2 = 0 ∨ (natField v 0 64 % 512 = 0 ∧ natField v 0 64 < 2 ^ 45) :=
    hpl.imp_right fun ⟨_, h512, h45⟩ => ⟨h512, natField_lt_of_high h45⟩
  subst hv
  refine if_pos ?_
  simp only [Bool.and_eq_true, Bool.or_eq_true, decide_eq_true_eq]
  exact ⟨⟨⟨⟨⟨⟨⟨⟨⟨hl, h192⟩, h128⟩, h160⟩, hlo⟩, hhi⟩, htype⟩, hwhere⟩, h64⟩, hplace⟩

/-! ## The printing commands (R27, R103, R262, R280) -/

theorem hobPrintsTheState : Claims.HobPrintsTheState := by
  intro s h prints
  refine ⟨completes_hobPrint h [_] rfl, completes_hobPrint h [_, _] rfl, fun n => completes_hobPrint h [_] rfl,
    fun n => completes_hobPrint h [_] rfl, fun n => completes_hobPrint h [_] rfl, completes_hobPrint h [_] rfl,
    completes_hobPrint h [_] rfl, completes_hobPrint h [_] rfl, completes_hobPrint h [_] rfl,
    fun n => ⟨completes_hobPrint h [_] rfl, completes_hobPrint h [_] rfl⟩, completes_hobPrint h [_] rfl,
    ?noNest, ?nest, ?decode, ?mem⟩
  case noNest =>
    intro hc
    have hn : s.fh.activeNest = none := by rw [Hearth.activeNest, hc]; rfl
    rw [← hn]
    exact completes_hobPrint h [_] rfl
  case nest =>
    intro c hc ho hs hp
    rw [← Hearth.activeNest_running hc ho hs hp]
    exact completes_hobPrint h [_] rfl
  case decode =>
    exact fun n hn => ⟨fun hd => completes_hobPrint h [_] (exec_hobDecode_plain hn hd),
      fun d c hd hc hslot hend => completes_hobPrint h [_] (exec_hobDecode_issued hn hd hc hslot hend)⟩
  case mem =>
    intro off n hoff bytes v f read
    refine ⟨fun hn => completes_hobPrint h [_] (exec_hobMem_short s hoff hn), ?_⟩
    rintro rfl h192 h160 hlo hhi hty h128 h64 hpl
    exact completes_hobPrint h [_, _]
      (exec_hobMem_entry hoff (kvEntry_layout (Mem.length_bytes ..) rfl h192 h160 hlo hhi hty h128 h64 hpl))

/-! ## A unit's write (R76, R234, R287) -/

@[simp] theorem State.unitWrite_qm (s : State) (ag : Agent) (a : Word) (bs : List Byte) : (s.unitWrite ag a bs).qm = s.qm := by
  rcases s.unitWrite_cases ag a bs with e | ⟨ks, -, e⟩ <;> rw [e]
  exact s.memStore_qm ..

/-- A unit's write changes no context but that its reservation may be lost. -/
theorem State.ctx_unitWrite_keeps (s : State) (ag : Agent) (a : Word) (bs : List Byte) (l : Loc) :
    { (s.unitWrite ag a bs).ctx l with resv := (s.ctx l).resv } = s.ctx l := by
  rcases s.unitWrite_cases ag a bs with e | ⟨ks, -, e⟩ <;> rw [e]
  exact (s.memWrite ks bs).ctx_clearResvMem_keeps ks none l

/-! ## The chimney stream (R286, R287) -/

/-- A latch is due on a tick that is a multiple of the period and has had no frame. -/
theorem State.latchDue_iff (s : State) :
    s.latchDue = true ↔ s.chim.k ≠ 0 ∧ s.tick % 2 ^ s.chim.k = 0 ∧ s.chim.last ≤ s.tick := by
  simp [State.latchDue, and_assoc]

/-- A frame is the header and the blocks of 885 units, of 64 bytes each. -/
theorem chimFrame_bytes : 64 * (chimUnits.length + 1) = 56704 := by
  simp [chimUnits]

/-- Between its ticks the stream latches nothing. -/
theorem exec_chimneyLatch_idle {s : State} (h : s.latchDue = false) : exec .chimneyLatch s = .next s := by
  show execChimneyLatch s = _
  simp only [execChimneyLatch, h, Bool.not_false, if_true]

/-- Without room in the ring, the frame of a tick is dropped and counted. -/
theorem exec_chimneyLatch_drops {s : State} (h : s.latchDue = true) (hfull : s.chim.bytes < s.chim.pos + 56704) :
    exec .chimneyLatch s = .next { s with chim := { s.chim with dropped := s.chim.dropped + 1, last := s.tick + 1 } } := by
  show execChimneyLatch s = _
  simp only [execChimneyLatch, chimFrame_bytes, h, hfull, Bool.not_true, Bool.false_eq_true, if_false, if_true]

/-- With room in the ring, the frame of a tick is written there, and the count of the dropped frames starts anew. -/
theorem exec_chimneyLatch_writes {s : State} (h : s.latchDue = true) (hroom : s.chim.pos + 56704 ≤ s.chim.bytes) :
    exec .chimneyLatch s = .next
      { s.unitWrite ⟨none, false, true⟩ (s.chim.addr + BitVec.ofNat 64 s.chim.pos) (s.chimHeader ++ chimUnits.flatMap s.chimBlock) with
        chim := { s.chim with pos := s.chim.pos + 56704, dropped := 0, last := s.tick + 1 } } := by
  show execChimneyLatch s = _
  simp only [execChimneyLatch, chimFrame_bytes, h, Nat.not_lt.2 hroom, Bool.not_true, Bool.false_eq_true, if_false]

/-- The trace switch (R284). -/
theorem exec_hobTrace {s : State} (h : s.fh.hob.sess.isSome = true) (on : Bool) :
    exec (.hobTrace on) s = .next (s.setFh { s.fh with trace := { s.fh.trace with on := on } }) :=
  congrArg Host.Outcome.next (s.hobCmd_session h _)

/-- A period of the chimney stream is set, where it is one of R286. -/
theorem exec_hobChimney_set {s : State} (h : s.fh.hob.sess.isSome = true) {k : Nat} (h4 : 4 ≤ k) (h24 : k ≤ 24) :
    exec (.hobChimney k) s = .next { s with chim := { s.chim with k := k } } := by
  show execHobChimney k s = _
  simp only [execHobChimney, s.hobCmd_session h, h4, h24, decide_true, Bool.and_self, if_true]

/-- Any other period is refused. -/
theorem exec_hobChimney_refused {s : State} (h : s.fh.hob.sess.isSome = true) {k : Nat} (hk : k < 4 ∨ 24 < k) :
    exec (.hobChimney k) s = .next (s.hobPrint .refused) := by
  have hbad : ¬(decide (4 ≤ k) && decide (k ≤ 24)) = true := by simp; omega
  show execHobChimney k s = _
  simp only [execHobChimney, s.hobCmd_session h, if_neg hbad]

theorem traceChimneyAndLeases : Claims.TraceChimneyAndLeases := by
  intro s
  refine ⟨fun h => ⟨fun on => ?trace, fun k h4 h24 => ⟨_, exec_hobChimney_set h h4 h24, rfl, rfl⟩,
    fun k hk => ⟨_, exec_hobChimney_refused h hk, rfl, rfl⟩⟩, fun hidle => ?idle, fun hk ht hl => ?latch, ⟨s, rfl, rfl⟩⟩
  case trace =>
    refine ⟨_, exec_hobTrace h on, ?_, ?_, s.onlyHearth_setHearth ..⟩ <;> rw [State.fh_setFh]
  case idle =>
    refine ⟨s, exec_chimneyLatch_idle (Bool.eq_false_iff.2 fun hdue => ?_), rfl⟩
    obtain ⟨hk, ht, hl⟩ := s.latchDue_iff.1 hdue
    rcases hidle with h0 | hbetween | hlatched
    · exact hk h0
    · exact hbetween ht
    · exact Nat.not_lt.2 hl hlatched
  case latch =>
    have hdue : s.latchDue = true := s.latchDue_iff.2 ⟨hk, ht, hl⟩
    exact ⟨fun hfull => ⟨_, exec_chimneyLatch_drops hdue hfull, rfl, rfl⟩,
      fun hroom => ⟨_, exec_chimneyLatch_writes hdue hroom, rfl, s.unitWrite_qm .., s.ctx_unitWrite_keeps _ _ _⟩⟩

/-- Settles O46: each printing command by the lines it adds, the trace and the chimney by what a command and a latch write. -/
theorem hobPrintsAndTraces : Obligations.HobPrintsAndTraces := ⟨hobPrintsTheState, traceChimneyAndLeases⟩

end Sys2Proof.Machine

/-! PROOFS. Spill memory (O12), window registers (O11), the region stack and arming (O13), and the flag commands (O37): first the rules of
each operation, then the theorem that settles the statement. -/

namespace Sys2Proof.Machine

/-- An instruction completes with what holds of the state that it answers. -/
theorem completes_of {i : Instr} {s t : State} {P : State → Prop} (h : exec i s = .next t) (hP : P t) : Completes i s P :=
  ⟨t, h, hP⟩

@[simp] theorem State.hearth_setFc (s : State) (k : Ctx) : (s.setFc k).hearth s.foc.h = s.fh.setCtx s.foc.c k := s.fh_setFc k
@[simp] theorem State.hearth_setFh (s : State) (x : Hearth) : (s.setFh x).hearth s.foc.h = x := s.fh_setFh x

/-! ## Spill memory (R35, R117) -/

/-- Spill memory gives back the number that was stored at an offset. -/
theorem Ctx.spillLoad_spillStore (k : Ctx) (off n v : Nat) : (k.spillStore off n v).spillLoad off n = v % 256 ^ n := by
  have h := Mem.bytes_store_self k.spill off (leBytes n v)
  rw [length_leBytes] at h
  rw [Ctx.spillLoad, Ctx.spillStore, h, leNat_leBytes]

/-- Settles O12: a load reads the doubleword at its offset, and a store is read back and moves nothing else. -/
theorem spillMemoryHoldsDoublewords : Obligations.SpillMemoryHoldsDoublewords := by
  intro s x rd off
  obtain ⟨t, ht, hctx, hnext, hreg⟩ := completes_retireWith (i := .kSpl rd off) (s := s) rfl
  refine ⟨⟨t, ht, hctx, hnext, hreg⟩, completes_of rfl ?_⟩
  rw [State.fc_setFc]
  refine ⟨?_, s.fc.spillStore_outside _ _ _, rfl, fun _ => rfl, s.onlyCtx_setFc _, rfl⟩
  have h := s.fc.spillLoad_spillStore (8 * off.toNat) 8 (s.fc.get x).toNat
  show BitVec.ofNat 64 ((s.fc.spillStore (8 * off.toNat) 8 (s.fc.get x).toNat).spillLoad (8 * off.toNat) 8) = _
  rw [h]
  exact BitVec.eq_of_toNat_eq (by simp; exact (s.fc.get x).isLt)

/-! ## Window registers (R33, R109, R110) -/

/-- A field below the seam of two joined words lies in the low one. -/
theorem bitsN_append_low (b a : Word) {lo len : Nat} (h : lo + len ≤ 64) : bitsN (b ++ a) lo len = bitsN a lo len :=
  bitsN_congr fun i hi => by
    rw [bit, BitVec.getLsbD_append, if_pos (by omega), bit]

/-- A field above the seam lies in the high one. -/
theorem bitsN_append_high (b a : Word) (lo len : Nat) : bitsN (b ++ a) (64 + lo) len = bitsN b lo len :=
  bitsN_congr fun i hi => by
    rw [bit, BitVec.getLsbD_append, if_neg (by omega), bit]
    congr 1; omega

section Win
variable (b a : Word)

theorem winBase_append : winBase (b ++ a) = bitsN a 0 21 := bitsN_append_low b a (by omega)
theorem winLen_append : winLen (b ++ a) = bitsN a 32 22 := bitsN_append_low b a (by omega)
theorem winPitch_append : winPitch (b ++ a) = bitsN b 0 22 := bitsN_append_high b a 0 22
theorem winRows_append : winRows (b ++ a) = bitsN b 32 16 := bitsN_append_high b a 32 16

/-- A window's reserved bits, in the two registers that hold it. -/
theorem winReserved_append : winReserved (b ++ a) = true ↔
    bitsN a 21 11 ≠ 0 ∨ bitsN a 54 10 ≠ 0 ∨ bitsN b 22 10 ≠ 0 ∨ bitsN b 48 16 ≠ 0 := by
  have h1 : bitsN (b ++ a) 21 11 = bitsN a 21 11 := bitsN_append_low b a (by omega)
  have h2 : bitsN (b ++ a) 54 10 = bitsN a 54 10 := bitsN_append_low b a (by omega)
  have h3 : bitsN (b ++ a) 86 10 = bitsN b 22 10 := bitsN_append_high b a 22 10
  have h4 : bitsN (b ++ a) 112 16 = bitsN b 48 16 := bitsN_append_high b a 48 16
  simp only [winReserved, h1, h2, h3, h4, Bool.or_eq_true, bne_iff_ne, ne_eq]
  tauto

end Win

/-- A set reserved bit decides the check of a window. -/
theorem winCheck_reserved {w : BitVec 128} (h : winReserved w = true) : winCheck w = some 2 := by simp [winCheck, h]

/-- A window without reserved bits passes its check exactly when it is invalid, or has rows and ends within the scratchpad. -/
theorem winCheck_plain {w : BitVec 128} (h : winReserved w = false) : winCheck w =
    if winLen w = 0 ∨ (1 ≤ winRows w ∧ winLen w ≤ 2097152 ∧ winPitch w ≤ 2097152 ∧
      winBase w + (winRows w - 1) * winPitch w + winLen w ≤ 2097152) then none else some 25 := by
  simp only [winCheck, h, Bool.false_eq_true, if_false, Bool.or_eq_true, decide_eq_true_eq]
  by_cases hl : winLen w = 0
  · simp [hl]
  · rw [if_neg hl]
    by_cases hr : 1 ≤ winRows w ∧ winLen w ≤ 2097152 ∧ winPitch w ≤ 2097152 ∧
        winBase w + (winRows w - 1) * winPitch w + winLen w ≤ 2097152
    · rw [if_neg (by omega), if_pos (.inr hr)]
    · rw [if_pos (by omega), if_neg (by omega)]

theorem exec_kWin_trap {s : State} {wn : Fin 32} {xa xb : XReg} {c : Nat}
    (h : winCheck (s.fc.get xb ++ s.fc.get xa) = some c) :
    exec (.kWin wn xa xb) s = .next (s.trapHere c (wordOf (.kWin wn xa xb))) := by
  show execKWin wn xa xb s = _
  simp only [execKWin, h]

theorem exec_kWin_writes {s : State} {wn : Fin 32} {xa xb : XReg} (h : winCheck (s.fc.get xb ++ s.fc.get xa) = none) :
    exec (.kWin wn xa xb) s =
      .next (s.setFc { s.fc with ws := s.fc.ws.set wn (s.fc.get xb ++ s.fc.get xa) }.retire) := by
  show execKWin wn xa xb s = _
  simp only [execKWin, h]

theorem windowWritesAreChecked : Claims.WindowWritesAreChecked := by
  intro s wn xa xb a b reserved base len pitch rows inRange
  have hres : winReserved (b ++ a) = true ↔ reserved := winReserved_append b a
  have plain : ¬ reserved → winCheck (b ++ a) = if len = 0 ∨ inRange then none else some 25 := fun hr => by
    rw [winCheck_plain (Bool.eq_false_iff.2 (mt hres.1 hr)), winBase_append, winLen_append, winPitch_append, winRows_append]
  refine ⟨fun hr hok => ?_, fun hr u => ?_, fun hr hl hbad u => ?_⟩
  · refine completes_of (exec_kWin_writes ((plain hr).trans (if_pos hok))) ?_
    rw [State.fc_setFc]
    refine ⟨by simp [Ctx.retire, a, b], fun m hm => ?_, rfl, fun _ => rfl, s.onlyCtx_setFc _, rfl⟩
    have hne : (wn : Nat) ≠ m := fun e => hm (Fin.ext e.symm)
    simp [Ctx.retire, hne]
  · exact ⟨_, exec_kWin_trap (winCheck_reserved (hres.2 hr)), State.trapsToRuntime_trapHere u 2 _ (by decide)⟩
  · exact ⟨_, exec_kWin_trap ((plain hr).trans (if_neg (by tauto))), State.trapsToRuntime_trapHere u 25 _ (by decide)⟩

theorem field_low_word (w : BitVec 128) : field w 0 64 = BitVec.ofNat 64 w.toNat := by
  rw [field_word, pow_zero, Nat.div_one]

theorem windowReadsGiveHalves : Claims.WindowReadsGiveHalves := by
  intro s rd wn
  refine ⟨?_, ?_⟩
  · exact completes_retireWith (congrArg (fun v => Host.Outcome.next (s.retireWith rd v)) (field_low_word _))
  · exact completes_retireWith (congrArg (fun v => Host.Outcome.next (s.retireWith rd v)) (field_word _ _))

/-- Settles O11: `k.win` by the check of the window that its registers join to, `k.winrd` by the half that it names. -/
theorem windowRegisterInstructions : Obligations.WindowRegisterInstructions := ⟨windowWritesAreChecked, windowReadsGiveHalves⟩

/-! ## The region stack and arming (R34, R113, R116) -/

/-- With tracing off, a push is a write of the focus context alone. -/
theorem exec_kRgnEnter_push {s : State} (off : s.fh.trace.on = false) (id : BitVec 16) (h : s.fc.rgn.length < 8) :
    exec (.kRgnEnter id) s = .next (s.setFc { s.fc with rgn := id :: s.fc.rgn }.retire) := by
  show execKRgnEnter id s = _
  simp only [execKRgnEnter, if_neg (Nat.not_le.2 h)]
  rw [State.traceEdge_off (by simpa using off)]

theorem exec_kRgnEnter_full {s : State} (id : BitVec 16) (h : 8 ≤ s.fc.rgn.length) :
    exec (.kRgnEnter id) s = .next (s.trapHere 30 (id.zeroExtend 64)) := by
  show execKRgnEnter id s = _
  simp only [execKRgnEnter, if_pos h]

theorem exec_kRgnLeave_pop {s : State} (off : s.fh.trace.on = false) {top : BitVec 16} {rest : List (BitVec 16)}
    (h : s.fc.rgn = top :: rest) : exec .kRgnLeave s = .next (s.setFc { s.fc with rgn := rest }.retire) := by
  show execKRgnLeave s = _
  simp only [execKRgnLeave, h]
  rw [State.traceEdge_off (by simpa using off)]

theorem exec_kRgnLeave_empty {s : State} (h : s.fc.rgn = []) : exec .kRgnLeave s = .next (s.trapHere 30 0) := by
  show execKRgnLeave s = _
  simp only [execKRgnLeave, h]

theorem regionStackPushesAndPops : Claims.RegionStackPushesAndPops := by
  intro s id off
  refine ⟨fun h => completes_of (exec_kRgnEnter_push off id h) ?_, fun top rest h => completes_of (exec_kRgnLeave_pop off h) ?_,
    fun h u => ⟨_, exec_kRgnEnter_full id h, State.trapsToRuntime_trapHere u 30 _ (by decide)⟩,
    fun h u => ⟨_, exec_kRgnLeave_empty h, State.trapsToRuntime_trapHere u 30 _ (by decide)⟩⟩
  all_goals
    rw [State.fc_setFc]
    exact ⟨rfl, rfl, fun _ => rfl, s.onlyCtx_setFc _⟩

/-- Without queued arrivals, none is taken. -/
theorem State.takeQueued_nil {s : State} {h : Fin 640} (e : (s.hearth h).arrQ = []) (n : Nat) : s.takeQueued h n = s := by
  cases n with
  | zero => rfl
  | succ n =>
    unfold State.takeQueued
    simp only [e]
    split
    · rename_i hb; cases hb
    · rfl

/-- A hearth whose contexts have been armed and disarmed by a mask. -/
def Hearth.armed (x : Hearth) (m : Word) : Hearth := { x with ctxs := Vector.ofFn fun c : Fin 4 => (x.ctx c).arm c m }

theorem Hearth.ctx_armed (x : Hearth) (m : Word) (c : Fin 4) : (x.armed m).ctx c = (x.ctx c).arm c m := by
  simp [Hearth.armed, Hearth.ctx]

/-- Arming changes only whether a context is free or armed. -/
theorem Ctx.arm_keeps (k : Ctx) (c : Fin 4) (m : Word) : { k.arm c m with st := k.st } = k := by
  unfold Ctx.arm
  split
  · rfl
  · split <;> rfl

theorem Ctx.arm_st (k : Ctx) (c : Fin 4) (m : Word) : (k.arm c m).st =
    if bit m c && k.st == .free then CtxSt.armed else if bit m (4 + c) && k.st == .armed then .free else k.st := by
  unfold Ctx.arm
  split
  · rfl
  · split <;> rfl

theorem Ctx.arm_running {k : Ctx} (h : k.st = .running) (c : Fin 4) (m : Word) : k.arm c m = k := by
  simp [Ctx.arm, h]

theorem exec_kArm_arms {s : State} {xs : XReg} (h8 : bitsN (s.fc.get xs) 8 56 = 0)
    (hboth : bitsN (s.fc.get xs) 0 4 &&& bitsN (s.fc.get xs) 4 4 = 0) (run : s.fc.st = .running) (q : s.fh.arrQ = []) :
    exec (.kArm xs) s = .next (s.setFh ((s.fh.armed (s.fc.get xs)).setCtx s.foc.c s.fc.retire)) := by
  have hfc : (s.fh.armed (s.fc.get xs)).ctx s.foc.c = s.fc := by
    rw [Hearth.ctx_armed, State.fh_ctx_foc, Ctx.arm_running run]
  have hret : (s.setFh (s.fh.armed (s.fc.get xs))).retire =
      s.setFh ((s.fh.armed (s.fc.get xs)).setCtx s.foc.c s.fc.retire) := by
    rw [State.retire, State.fc_setFh, hfc, State.setFc, State.setCtx, State.setFh_foc, State.setFh, State.hearth_setHearth_self,
      State.setHearth_setHearth, State.setFh]
  show execKArm xs s = _
  unfold execKArm
  simp only [h8, hboth, ne_eq, not_true_eq_false, decide_false, Bool.or_self, Bool.false_eq_true, if_false]
  change Host.Outcome.next ((s.setFh (s.fh.armed (s.fc.get xs))).retire.takeQueued s.foc.h 4) = _
  rw [hret, State.takeQueued_nil]
  simpa [Hearth.armed] using q

theorem exec_kArm_illegal {s : State} {xs : XReg}
    (h : bitsN (s.fc.get xs) 8 56 ≠ 0 ∨ bitsN (s.fc.get xs) 0 4 &&& bitsN (s.fc.get xs) 4 4 ≠ 0) :
    exec (.kArm xs) s = .next (s.trapHere 2 (wordOf (.kArm xs))) := by
  show execKArm xs s = _
  exact congrArg Host.Outcome.next (if_pos (by simpa using h))

theorem armChangesFreeAndArmedContexts : Claims.ArmChangesFreeAndArmedContexts := by
  intro s xs m
  refine ⟨fun h8 hboth run q => completes_of (exec_kArm_arms h8 hboth run q) ?_,
    fun h u => ⟨_, exec_kArm_illegal h, State.trapsToRuntime_trapHere u 2 _ (by decide)⟩⟩
  simp only [State.fh_setFh, State.fc_setFh, Hearth.ctx_setCtx, Hearth.ctx_armed, if_true]
  refine ⟨fun c => ?_, fun c hc => ?_, ⟨rfl, rfl, rfl⟩, fun _ => rfl, s.onlyHearth_setHearth .., rfl⟩
  · split
    · rename_i hc
      subst hc
      simp [run, State.fh_ctx_foc, Ctx.retire]
    · exact Ctx.arm_st ..
  · rw [if_neg (Ne.symm hc)]
    exact Ctx.arm_keeps ..

/-- Settles O13: the region stack by its two ends, arming context by context. -/
theorem regionStackAndArming : Obligations.RegionStackAndArming :=
  ⟨regionStackPushesAndPops, armChangesFreeAndArmedContexts⟩

/-! ## Flag commands (R38, R212) -/

/-- A flag after a saturating addition. -/
theorem satAdd_toNat (f : W32) (v : Nat) : (satAdd f v).1.toNat = min (2 ^ 32 - 1) (f.toNat + v) := by
  have hf := f.isLt
  rcases eq_or_ne v 0 with rfl | hv
  · simp only [satAdd_zero]; omega
  · rcases Nat.lt_or_ge (f.toNat + v) (2 ^ 32 - 1) with h | h
    · rw [satAdd_exact h, BitVec.toNat_ofNat, Nat.mod_eq_of_lt (by omega)]; omega
    · rw [satAdd_over hv h]; simp; omega

/-- Of a hearth, what flag updates, the traps and the trace records that come with them leave alone. -/
def Hearth.body (x : Hearth) : Hearth :=
  { x with ctxs := Hearth.reset.ctxs, flags := Hearth.reset.flags, trace := TraceRing.reset, hob := Hob.reset }

/-- The focus and the bodies of all hearths agree. -/
def SameBody (s t : State) : Prop := t.foc = s.foc ∧ ∀ g, (t.hearth g).body = (s.hearth g).body

section SameBody
variable {s t u : State}

theorem SameBody.refl (s : State) : SameBody s s := ⟨rfl, fun _ => rfl⟩

theorem SameBody.trans (h : SameBody s t) (h' : SameBody t u) : SameBody s u :=
  ⟨h'.1.trans h.1, fun g => (h'.2 g).trans (h.2 g)⟩

theorem SameBody.foc (h : SameBody s t) : t.foc = s.foc := h.1
theorem SameBody.cmds (h : SameBody s t) (g : Fin 640) : (t.hearth g).cmds = (s.hearth g).cmds :=
  (congrArg Hearth.cmds (h.2 g) :)
theorem SameBody.hand_hearth (h : SameBody s t) (g : Fin 640) : (t.hearth g).hand = (s.hearth g).hand :=
  (congrArg Hearth.hand (h.2 g) :)
theorem SameBody.scratch (h : SameBody s t) (g : Fin 640) : (t.hearth g).scratch = (s.hearth g).scratch :=
  (congrArg Hearth.scratch (h.2 g) :)

theorem SameBody.fh_scratch (h : SameBody s t) : t.fh.scratch = s.fh.scratch := by
  rw [State.fh, h.foc]; exact h.scratch _

end SameBody

/-- An update of a hearth that keeps its body. -/
theorem State.sameBody_setHearth (s : State) (h : Fin 640) (x : Hearth) (e : x.body = (s.hearth h).body) :
    SameBody s (s.setHearth h x) := by
  refine ⟨rfl, fun g => ?_⟩
  rw [State.hearth_setHearth]
  split
  · rename_i hg; rw [e, hg]
  · rfl

theorem State.sameBody_setCtx (s : State) (l : Loc) (k : Ctx) : SameBody s (s.setCtx l k) := s.sameBody_setHearth _ _ rfl
theorem State.sameBody_report (s : State) (r : Report) : SameBody s (s.report r) := ⟨rfl, fun _ => rfl⟩
theorem State.sameBody_setFlag (s : State) (h : Fin 640) (fl : Fin 256) (v : W32) : SameBody s (s.setFlag h fl v) :=
  s.sameBody_setHearth _ _ rfl
theorem State.sameBody_pushHeld (s : State) (h : Fin 640) (e : Held) : SameBody s (s.pushHeld h e) :=
  s.sameBody_setHearth _ _ rfl

theorem State.sameBody_asyncTrap (s : State) (l : Loc) (run : RunRec) (a : Async) : SameBody s (s.asyncTrap l run a) := by
  rcases s.asyncTrap_cases l run a with e | e <;> rw [e]
  · exact s.sameBody_setCtx _ _
  · exact s.sameBody_report _

theorem State.sameBody_flagOverflow (s : State) (h : Fin 640) (src : FlagSrc) (fl : Fin 256) :
    SameBody s (s.flagOverflow h src fl) := by
  cases src with
  | cmd c seq slot run => exact s.sameBody_asyncTrap ..
  | peer a => exact s.sameBody_report _
  | qm => exact s.sameBody_report _

theorem State.sameBody_flagAddNow (s : State) (h : Fin 640) (src : FlagSrc) (fl : Fin 256) (v : Nat) :
    SameBody s (s.flagAddNow h src fl v) := by
  unfold State.flagAddNow
  dsimp only
  split
  · exact (s.sameBody_setFlag ..).trans (State.sameBody_flagOverflow ..)
  · exact s.sameBody_setFlag ..

/-! ### What a flag update leaves of memory and of the other flags -/

@[simp] theorem State.flagOverflow_mem (s : State) (h : Fin 640) (src : FlagSrc) (fl : Fin 256) :
    (s.flagOverflow h src fl).mem = s.mem := by
  cases src with
  | cmd c seq slot run => exact s.asyncTrap_mem ..
  | peer a => rfl
  | qm => rfl

@[simp] theorem State.flagAddNow_mem (s : State) (h : Fin 640) (src : FlagSrc) (fl : Fin 256) (v : Nat) :
    (s.flagAddNow h src fl v).mem = s.mem := by
  unfold State.flagAddNow
  dsimp only
  split
  · rw [State.flagOverflow_mem, State.setFlag_mem]
  · exact s.setFlag_mem ..

@[simp] theorem State.asyncTrap_flags (s : State) (l : Loc) (run : RunRec) (a : Async) (g : Fin 640) :
    ((s.asyncTrap l run a).hearth g).flags = (s.hearth g).flags := by
  rcases s.asyncTrap_cases l run a with e | e <;> rw [e]
  · rw [State.setCtx, State.hearth_setHearth]
    split
    · rename_i hg; rw [Hearth.setCtx_flags, hg]
    · rfl
  · rfl

@[simp] theorem State.flagOverflow_flags (s : State) (h : Fin 640) (src : FlagSrc) (fl : Fin 256) (g : Fin 640) :
    ((s.flagOverflow h src fl).hearth g).flags = (s.hearth g).flags := by
  cases src with
  | cmd c seq slot run => exact s.asyncTrap_flags ..
  | peer a => rfl
  | qm => rfl

/-- An addition writes its own flag, saturating, and no other. -/
theorem State.flag_flagAddNow (s : State) (h : Fin 640) (src : FlagSrc) (fl : Fin 256) (v : Nat) (g : Fin 256) :
    ((s.flagAddNow h src fl v).hearth h).flag g =
      if fl = g then (satAdd ((s.hearth h).flag fl) v).1 else (s.hearth h).flag g := by
  unfold State.flagAddNow
  dsimp only
  rw [← State.flag_setFlag]
  split
  · rw [Hearth.flag, State.flagOverflow_flags]; rfl
  · rfl

/-! ### The commands -/

/-- A command that has performed leaves flags, memory and scratchpad as they stand. -/
theorem State.performedWith_keeps (s : State) (st : BitVec 4) (n : Nat) :
    (s.performedWith st n).hand.performed = true ∧ (s.performedWith st n).fh.flags = s.fh.flags ∧
      (s.performedWith st n).mem = s.mem ∧ (s.performedWith st n).fh.scratch = s.fh.scratch := by
  simp [State.performedWith, State.setHand, State.hand]

theorem exec_flAdd_running {s : State} (run : s.fh.hob.stopped = false) (f : CmdF) : exec (.flAdd f) s =
    .next ((s.flagAddNow s.foc.h s.hand.src (CmdF_flag f) f.imm.toNat).performedWith 0 0) := by
  show execFlAdd f s = _
  rw [execFlAdd, State.flAddEffect, State.flagAdd_running (by simpa using run)]

theorem exec_flSet_running {s : State} (run : s.fh.hob.stopped = false) (f : CmdF) : exec (.flSet f) s =
    .next ((s.setFlag s.foc.h (CmdF_flag f) f.imm).performedWith 0 0) := by
  show execFlSet f s = _
  rw [execFlSet, State.flSetEffect, State.flagSet_running (by simpa using run)]

/-- Settles O37: an addition by the saturating sum of its flag, a store by its value, the other two by what performing leaves. -/
theorem flagCommandsUpdateOneFlag : Obligations.FlagCommandsUpdateOneFlag := by
  intro f s run fl others
  have performs (t : State) (hflag : ∀ g, g ≠ fl → t.fh.flag g = s.fh.flag g) (hmem : t.mem = s.mem)
      (hscr : t.fh.scratch = s.fh.scratch) :
      others (t.performedWith 0 0) ∧ (t.performedWith 0 0).fh.flags = t.fh.flags := by
    obtain ⟨hp, hf, hm, hs⟩ := t.performedWith_keeps 0 0
    exact ⟨⟨fun g hg => by rw [Hearth.flag, hf]; exact hflag g hg, hp, hm.trans hmem, hs.trans hscr⟩, hf⟩
  refine ⟨?add, ?set, ?idle, ?idle⟩
  case add =>
    have body := s.sameBody_flagAddNow s.foc.h s.hand.src fl f.imm.toNat
    have hfl (g : Fin 256) : (s.flagAddNow s.foc.h s.hand.src fl f.imm.toNat).fh.flag g =
        if fl = g then (satAdd (s.fh.flag fl) f.imm.toNat).1 else s.fh.flag g := by
      rw [State.fh, body.foc]; exact s.flag_flagAddNow ..
    obtain ⟨ho, hf⟩ := performs _ (fun g hg => (hfl g).trans (if_neg hg.symm)) (s.flagAddNow_mem ..) body.fh_scratch
    refine completes_of (exec_flAdd_running run f) ⟨?_, ho⟩
    rw [Hearth.flag, hf]
    exact (congrArg BitVec.toNat ((hfl fl).trans (if_pos rfl))).trans (satAdd_toNat ..)
  case set =>
    have hfl (g : Fin 256) : (s.setFlag s.foc.h fl f.imm).fh.flag g = if fl = g then f.imm else s.fh.flag g :=
      s.flag_setFlag ..
    obtain ⟨ho, hf⟩ := performs _ (fun g hg => (hfl g).trans (if_neg hg.symm)) rfl (s.sameBody_setFlag ..).fh_scratch
    refine completes_of (exec_flSet_running run f) ⟨?_, ho⟩
    rw [Hearth.flag, hf]
    exact (hfl fl).trans (if_pos rfl)
  case idle =>
    obtain ⟨ho, hf⟩ := performs s (fun _ _ => rfl) rfl rfl
    exact completes_of rfl ⟨hf, ho⟩

end Sys2Proof.Machine

/-! PROOFS. The cluster-scope atomics and misaligned atomics (O6). -/

namespace Sys2Proof.Machine

/-! ## Misaligned atomics (R76, R120) -/

/-- A misaligned atomic at a canonical address takes its access fault and does nothing else. -/
theorem State.atomic_misaligned {s : State} {a : Word} {n : Nat} (hc : canonical a = true) (hn : a.toNat % n ≠ 0) (k : AccKind)
    (f : State → Place → State) : s.atomic k a n f = s.trapHere k.accessFault a := by
  simp [State.atomic, hc, hn]

/-- An aligned atomic is an ordinary access. -/
theorem State.atomic_aligned (s : State) {a : Word} {n : Nat} (hn : a.toNat % n = 0) (k : AccKind) (f : State → Place → State) :
    s.atomic k a n f = s.access k a n f := by
  simp [State.atomic, hn]

/-- The owner of a misaligned address is not looked at. -/
theorem State.amocForeign_misaligned (s : State) {a : Word} {n : Nat} (hn : a.toNat % n ≠ 0) : s.amocForeign a n = false := by
  simp [State.amocForeign, hn]

theorem exec_amo_misaligned {s : State} {a : Amo} (hc : canonical (s.fc.get a.rs1) = true)
    (hn : (s.fc.get a.rs1).toNat % (if a.dw then 8 else 4) ≠ 0) :
    exec (.amo a) s = .next (s.trapHere (if a.op = .lr then 5 else 7) (s.fc.get a.rs1)) := by
  show execAmo a s = _
  unfold execAmo
  cases hop : a.op <;> simp only [State.atomic_misaligned hc hn] <;> rfl

theorem State.amoc_misaligned {s : State} {a : Amoc} (hc : canonical (s.fc.get a.rs1) = true)
    (hn : (s.fc.get a.rs1).toNat % (if a.dw then 8 else 4) ≠ 0) (op : AmocOp) :
    s.amoc op a = s.trapHere 7 (s.fc.get a.rs1) := by
  simp only [State.amoc, s.amocForeign_misaligned hn, State.atomic_misaligned hc hn, Bool.false_eq_true, if_false]
  rfl

/-- The cluster-scope atomics, each with its operation (R120). -/
def amocRows (a : Amoc) : List (Instr × AmocOp) :=
  [(.kAmocAdd a, .add), (.kAmocSwap a, .swap), (.kAmocCas a, .cas), (.kAmocOr a, .or), (.kAmocAnd a, .and), (.kAmocMin a, .min),
    (.kAmocMax a, .max)]

theorem exec_amocRow {a : Amoc} {i : Instr} {op : AmocOp} (h : (i, op) ∈ amocRows a) (s : State) :
    exec i s = .next (s.amoc op a) := by
  simp only [amocRows, List.mem_cons, Prod.mk.injEq, List.not_mem_nil, or_false] at h
  rcases h with ⟨rfl, rfl⟩ | ⟨rfl, rfl⟩ | ⟨rfl, rfl⟩ | ⟨rfl, rfl⟩ | ⟨rfl, rfl⟩ | ⟨rfl, rfl⟩ | ⟨rfl, rfl⟩ <;> rfl

theorem misalignedAtomicsFault : Claims.MisalignedAtomicsFault := by
  intro s u
  refine ⟨fun a hc hn => ⟨_, exec_amo_misaligned hc hn, ?_⟩, fun a hc hn i hi => ?_⟩
  · have h := State.trapsToRuntime_trapHere u (if a.op = .lr then 5 else 7) (s.fc.get a.rs1) (by split <;> decide)
    rwa [apply_ite (BitVec.ofNat 64)] at h
  · obtain ⟨op, hrow⟩ : ∃ op, (i, op) ∈ amocRows a := by
      obtain ⟨⟨j, op⟩, hmem, rfl⟩ := List.mem_map.1 (show i ∈ (amocRows a).map Prod.fst from hi)
      exact ⟨op, hmem⟩
    exact ⟨_, (exec_amocRow hrow s).trans (by rw [State.amoc_misaligned hc hn]), State.trapsToRuntime_trapHere u 7 _ (by decide)⟩

/-! ## Cluster-scope atomics (R120, R233) -/

section Resume
variable (s : State)

@[simp] theorem State.resume_mem : s.resume.mem = s.mem := rfl
@[simp] theorem State.resume_foc : s.resume.foc = s.foc := rfl
theorem State.resume_fh : s.resume.fh = s.fh.setCtx s.foc.c { s.fc with st := .running, wait := .none } := s.fh_setFc _
theorem State.resume_fc : s.resume.fc = { s.fc with st := .running, wait := .none } := s.fc_setFc _
theorem State.resume_resume : s.resume.resume = s.resume := by
  rw [State.resume, State.resume_fc]
  simp only [State.resume, State.setFc, State.setCtx_setCtx, State.setCtx_foc]

/-- Going on running changes nothing that decides where a cluster-scope atomic executes. -/
theorem State.amocCache_resume (cluster : Bool) (a : Word) (key : Nat) :
    s.resume.amocCache cluster a key = s.amocCache cluster a key := by
  have hag : s.resume.fh.agent s.resume.fc = s.fh.agent s.fc := by rw [State.resume_fh, State.resume_fc]; rfl
  simp only [State.amocCache, hag]
  rfl

end Resume

/-- The state in which a context has read and written memory for a cluster-scope atomic and gone on. -/
def State.amocEnd (s : State) (op : AmocOp) (a : Amoc) (ks : List Nat) (h : Fin 640) (keep : Bool) : State :=
  (s.resume.amocDo op a (.mem ks)).settleLine (ks.headD 0 / 128) h keep

@[simp] theorem State.settleLine_mem (s : State) (line : Nat) (h : Fin 640) (keep : Bool) : (s.settleLine line h keep).mem = s.mem := rfl
@[simp] theorem State.settleLine_ctx (s : State) (line : Nat) (h : Fin 640) (keep : Bool) (l : Loc) :
    (s.settleLine line h keep).ctx l = s.ctx l := rfl
@[simp] theorem State.settleLine_fc (s : State) (line : Nat) (h : Fin 640) (keep : Bool) : (s.settleLine line h keep).fc = s.fc := rfl

theorem State.owns_iff (s : State) (line : Nat) (h : Fin 640) : s.owns line h = true ↔ (line, h) ∈ s.owned := by
  simp [State.owns]

/-- An aligned cluster-scope atomic that its owner and home admit performs once its cache owns the line. -/
theorem State.amoc_performs {s : State} {a : Amoc} {ks : List Nat} {h : Fin 640} {keep : Bool}
    (hal : (s.fc.get a.rs1).toNat % (if a.dw then 8 else 4) = 0)
    (hf : s.amocForeign (s.fc.get a.rs1) (if a.dw then 8 else 4) = false)
    (hr : s.resolve s.foc .both (s.fc.get a.rs1) (if a.dw then 8 else 4) = .ok (.mem ks))
    (hc : s.amocCache a.cluster (s.fc.get a.rs1) (ks.headD 0) = some (h, keep))
    (ho : s.fc.wait = .owner ∨ (ks.headD 0 / 128, h) ∈ s.owned) (op : AmocOp) :
    s.amoc op a = s.amocEnd op a ks h keep := by
  have hown : (s.resume.owns (ks.headD 0 / 128) h || s.fc.wait == .owner) = true := by
    rcases ho with ho | ho
    · simp [ho]
    · rw [(s.resume.owns_iff _ _).2 ho, Bool.true_or]
  simp only [State.amoc, hf, Bool.false_eq_true, if_false, State.atomic_aligned s hal, State.access, hr, State.amocCache_resume, hc,
    Place.line, hown, if_true, State.amocEnd]

/-- Before its cache owns the line, it waits. -/
theorem State.amoc_waits {s : State} {a : Amoc} {ks : List Nat} {h : Fin 640} {keep : Bool}
    (hal : (s.fc.get a.rs1).toNat % (if a.dw then 8 else 4) = 0)
    (hf : s.amocForeign (s.fc.get a.rs1) (if a.dw then 8 else 4) = false)
    (hr : s.resolve s.foc .both (s.fc.get a.rs1) (if a.dw then 8 else 4) = .ok (.mem ks))
    (hc : s.amocCache a.cluster (s.fc.get a.rs1) (ks.headD 0) = some (h, keep))
    (hw : s.fc.wait = .none) (ho : (ks.headD 0 / 128, h) ∉ s.owned) (op : AmocOp) :
    s.amoc op a = s.setFc { s.fc with st := .waiting, wait := .owner } := by
  have hown : (s.resume.owns (ks.headD 0 / 128) h || s.fc.wait == .owner) = false := by
    rw [Bool.eq_false_iff.2 (mt (s.resume.owns_iff _ _).1 ho), hw]; rfl
  simp only [State.amoc, hf, Bool.false_eq_true, if_false, State.atomic_aligned s hal, State.access, hr, State.amocCache_resume, hc,
    Place.line, hown, State.resume_fc]
  simp only [State.resume, State.setFc, State.setCtx_setCtx, State.setCtx_foc]

/-- The value that an operation of the table writes, on numbers (R120). -/
def amocNew (op : AmocOp) (w old x cmp : Nat) : Nat :=
  match op with
  | .add => (old + x) % 2 ^ w
  | .swap => x % 2 ^ w
  | .cas => if old = cmp % 2 ^ w then x % 2 ^ w else old
  | .or => old ||| (x % 2 ^ w)
  | .and => old &&& (x % 2 ^ w)
  | .min => if toSigned w old < toSigned w x then old else x % 2 ^ w
  | .max => if toSigned w old < toSigned w x then x % 2 ^ w else old

/-- Signed order of words is the order of the numbers that they stand for. -/
theorem toInt_ofNat_eq_toSigned (w v : Nat) : (BitVec.ofNat w v).toInt = toSigned w v := by
  rw [BitVec.toInt_eq_toNat_cond, BitVec.toNat_ofNat]
  rfl

theorem amocVal_toNat (op : AmocOp) {w old : Nat} (hold : old < 2 ^ w) (x cmp : Nat) :
    (amocVal op w (BitVec.ofNat w old) (BitVec.ofNat w x) (BitVec.ofNat w cmp)).toNat = amocNew op w old x cmp := by
  have ho : old % 2 ^ w = old := Nat.mod_eq_of_lt hold
  have hlt : (BitVec.ofNat w old).slt (BitVec.ofNat w x) = true ↔ toSigned w old < toSigned w x := by
    rw [BitVec.slt_iff_toInt_lt, toInt_ofNat_eq_toSigned, toInt_ofNat_eq_toSigned]
  have hcmp : BitVec.ofNat w old = BitVec.ofNat w cmp ↔ old = cmp % 2 ^ w := by
    rw [← BitVec.toNat_inj, BitVec.toNat_ofNat, BitVec.toNat_ofNat, ho]
  cases op <;> simp only [amocVal, amocNew, BitVec.toNat_add, BitVec.toNat_ofNat, BitVec.toNat_or, BitVec.toNat_and, hlt, hcmp,
    apply_ite BitVec.toNat, ho, Nat.add_mod_mod]

theorem truncate_eq_ofNat (w : Nat) (x : Word) : x.truncate w = BitVec.ofNat w x.toNat :=
  BitVec.eq_of_toNat_eq (by simp)

/-- The bytes of a list of keys name a number of their width. -/
theorem leNat_map_lt (ks : List Nat) (f : Nat → Byte) : leNat (ks.map f) < 2 ^ (8 * ks.length) := by
  have h := leNat_lt (ks.map f)
  rwa [List.length_map, show (256 : Nat) = 2 ^ 8 from rfl, ← pow_mul] at h

/-- A store by the focus context leaves of every context all but its reservation. -/
theorem State.ctx_memStore_keeps (s : State) (ks : List Nat) (bs : List Byte) (w : Option Loc) (l : Loc) :
    { (s.memStore ks bs w).ctx l with resv := (s.ctx l).resv } = s.ctx l :=
  (s.memWrite ks bs).ctx_clearResvMem_keeps ks w l

/-- What a context keeps whose reservation alone may have changed. -/
theorem Ctx.get_of_keeps {k k' : Ctx} (h : { k' with resv := k.resv } = k) (r : XReg) : k'.get r = k.get r :=
  Ctx.get_congr (congrArg Ctx.xs h :) r

theorem Ctx.pc_of_keeps {k k' : Ctx} (h : { k' with resv := k.resv } = k) : k'.pc = k.pc := (congrArg Ctx.pc h :)

/-- A store, and the next instruction behind it with a register written. -/
theorem State.memStore_retireWith (s : State) (ks : List Nat) (bs : List Byte) (rd : XReg) (v : Word) :
    let t := (s.memStore ks bs (some s.foc)).retireWith rd v
    WritesReg rd v s.fc t.fc ∧ t.fc.pc = s.fc.pc + 4 ∧ OthersKeep s t := by
  intro t
  set u := s.memStore ks bs (some s.foc) with hu
  have hfoc : u.foc = s.foc := s.memStore_foc ..
  have hk : { u.fc with resv := s.fc.resv } = s.fc := by
    rw [State.fc, hfoc]; exact s.ctx_memStore_keeps ks bs _ s.foc
  have ht : t.fc = (u.fc.set rd v).retire := u.fc_setFc _
  have hw : WritesReg rd v u.fc t.fc := by rw [ht]; exact u.fc.writesReg_set rd v
  have hn : NextInstr u.fc t.fc := by rw [ht]; exact u.fc.nextInstr_set rd v
  refine ⟨⟨hw.1, fun r hr => (hw.2 r hr).trans (Ctx.get_of_keeps hk r)⟩, hn.1.trans (by rw [Ctx.pc_of_keeps hk]), fun l hl => ?_⟩
  rw [show t.ctx l = u.ctx l from u.ctx_setCtx_ne _ (by rw [hfoc]; exact hl)]
  exact s.ctx_memStore_keeps ks bs _ l

/-- The bytes at the keys of an atomic that performs, and at every other key. -/
theorem State.amocEnd_spec (s : State) (op : AmocOp) (a : Amoc) {ks : List Nat} (hl : ks.length = if a.dw then 8 else 4)
    (hn : ks.Nodup) (h : Fin 640) (keep : Bool) :
    let old := leNat (ks.map s.mem.read)
    let w := 8 * (if a.dw then 8 else 4)
    let t := s.amocEnd op a ks h keep
    leNat (ks.map t.mem.read) = amocNew op w old (s.fc.get a.rs2).toNat (s.fc.get a.rd).toNat ∧
    (∀ y, y ∉ ks → t.mem.read y = s.mem.read y) ∧
    WritesReg a.rd ((BitVec.ofNat w old).signExtend 64) s.fc t.fc ∧ t.fc.pc = s.fc.pc + 4 ∧ OthersKeep s t := by
  intro old w t
  have hget (r : XReg) : s.resume.fc.get r = s.fc.get r := by rw [State.resume_fc]; rfl
  set new : BitVec w := amocVal op w (BitVec.ofNat w old) ((s.fc.get a.rs2).truncate w) ((s.fc.get a.rd).truncate w) with hnew
  set u := (s.resume.memStore ks (leBytes ks.length new.toNat) (some s.foc)).retireWith a.rd (amoOld w old) with hu
  have ht : t = u.settleLine (ks.headD 0 / 128) h keep := by
    simp only [t, hu, State.amocEnd, State.amocDo, State.readPlace, State.memBytes, State.writePlace, hget, hl, State.resume_mem,
      State.resume_foc, new, old, w]
  have hmem : u.mem = (s.resume.memStore ks (leBytes ks.length new.toNat) (some s.foc)).mem := State.retireWith_mem ..
  have hold : old < 2 ^ w := by
    have := leNat_map_lt ks s.mem.read
    rwa [hl] at this
  obtain ⟨hreg, hpc, hothers⟩ := s.resume.memStore_retireWith ks (leBytes ks.length new.toNat) a.rd (amoOld w old)
  rw [State.resume_fc] at hreg hpc
  rw [ht, State.settleLine_mem, State.settleLine_fc, hmem]
  refine ⟨?_, fun y hy => State.memStore_read_other _ _ _ _ hy, hreg, hpc, fun l hne => ?_⟩
  · change leNat (State.memBytes _ ks) = _
    rw [State.memBytes_memStore _ _ _ _ hn (length_leBytes ..).symm, leNat_leBytes, hl,
      show (256 : Nat) = 2 ^ 8 from rfl, ← pow_mul, Nat.mod_eq_of_lt new.isLt, hnew, truncate_eq_ofNat, truncate_eq_ofNat,
      amocVal_toNat op hold]
  · have hctx := hothers l hne
    rw [State.settleLine_ctx]
    rwa [show s.resume.ctx l = s.ctx l from s.ctx_setCtx_ne _ hne] at hctx

theorem clusterAtomicsFollowTheTable : Claims.ClusterAtomicsFollowTheTable := by
  intro a s ks h keep addr n w old x line does run hal hl hn hf hr hc
  have row {i : Instr} {op : AmocOp} (hrow : (i, op) ∈ amocRows a) :
      does i (amocNew op w old x (s.fc.get a.rd).toNat) := by
    refine ⟨fun ho => completes_of ((exec_amocRow hrow s).trans
      (congrArg _ (State.amoc_performs hal hf hr hc (ho.imp_right And.right) op))) (s.amocEnd_spec op a hl hn h keep),
      fun hw ho => completes_of ((exec_amocRow hrow s).trans (congrArg _ (State.amoc_waits hal hf hr hc hw ho op))) ?_⟩
    rw [State.fc_setFc]
    exact ⟨rfl, rfl, rfl, fun _ => rfl, s.onlyCtx_setFc _⟩
  exact ⟨row (op := .add) (by simp [amocRows]), row (op := .swap) (by simp [amocRows]), row (op := .cas) (by simp [amocRows]),
    row (op := .or) (by simp [amocRows]), row (op := .and) (by simp [amocRows]), row (op := .min) (by simp [amocRows]),
    row (op := .max) (by simp [amocRows])⟩

/-- Settles O6: a cluster-scope atomic by its row of the table, a misaligned atomic by its trap. -/
theorem clusterAtomicsAndMisalignment : Obligations.ClusterAtomicsAndMisalignment :=
  ⟨clusterAtomicsFollowTheTable, misalignedAtomicsFault⟩

end Sys2Proof.Machine

/-! PROOFS. Two statements about commands and saves that a state of the model refutes (R200, R215, R282, R328). -/

namespace Sys2Proof.Machine

/-! ## A held copy engine reads no descriptor (R205, R215) -/

/-- While the copy engine is held, a command of it takes no step, the read of its descriptor at its start among them. -/
theorem State.startRead_of_copyHeld {s : State} {h : Fin 640} {c : Cmd} (hc : (s.hearth h).cmd? c.seq = some c)
    (hcopy : c.isCopy = true) (hheld : (s.hearth h).copyHeld = true) : s.startRead h c.seq = s := by
  have hnone : s.loadHand h c.seq 1 = none := by simp [State.loadHand, hc, hcopy, hheld]
  simp [State.startRead, hnone]

/-- `cp.lin` with no operand, no `WAIT` and no `SIG`, in the vector queue. -/
def strayCopy : Cmd := { Cmd.empty with seq := 1, word := 0x300#256 }

/-- The same command as it has started, its descriptor unread. -/
def strayStarted : Cmd := { strayCopy with stage := .started }

/-- A `cp.lin` that has started and is held on a faulting read. -/
def heldCopy : Cmd := { Cmd.empty with seq := 2, word := 0x300#256, q := .copy, stage := .started, hold := some 0 }

/-- A hearth with one queued command beside the held one, and as it stands once that command has started. -/
def strayHearth : Hearth := { Hearth.reset with cmds := [strayCopy, heldCopy] }
def strayHearthStarted : Hearth := { Hearth.reset with cmds := [strayStarted, heldCopy] }

theorem strayCopy_facts : strayCopy.op = some .cpLin ∧ strayCopy.isFlag = false ∧ strayCopy.hasDesc = true ∧
    strayCopy.hasList = false ∧ bitsN strayCopy.word 8 4 = 3 ∧ condMode strayCopy.f.wait = 0 := by decide

theorem strayCopy_startBits (ps : Vector PReg 8) : strayCopy.startBits ps = strayCopy := by
  rw [Cmd.startBits, strayCopy_facts.1]
  exact ite_self _

theorem strayHearth_mayStart : strayHearth.mayStart strayCopy = true := by decide

section Stray
variable {s : State}

/-- It leaves its queue with nothing taken, marked or launched. -/
theorem State.leaveQueue_stray (hs : s.fh = strayHearth) : s.leaveQueue s.foc.h strayCopy = s.setFh strayHearthStarted := by
  obtain ⟨-, -, -, hlist, heng, hwait⟩ := strayCopy_facts
  have htake : waitTake strayHearth strayCopy.f.wait = strayHearth := by simp [waitTake, hwait]
  rw [State.leaveQueue, show s.hearth s.foc.h = strayHearth from hs, strayCopy_startBits, htake]
  simp only [heng, hlist]
  rfl

/-- The start leaves the command without its descriptor: it leaves its queue, and the held engine reads nothing. -/
theorem exec_commandStart_stray (hs : s.fh = strayHearth) :
    exec (.commandStart strayCopy.seq) s = .next (s.setFh strayHearthStarted) := by
  obtain ⟨-, hflag, hdesc, -⟩ := strayCopy_facts
  have hgo : (!strayHearth.idle && strayCopy.stage != .started && strayHearth.mayStart strayCopy &&
    strayHearth.startRoom strayCopy) = true := by rw [strayHearth_mayStart]; decide
  have hafter : (s.setFh strayHearthStarted).hearth s.foc.h = strayHearthStarted := s.fh_setFh _
  have hread : (s.setFh strayHearthStarted).startRead s.foc.h strayCopy.seq = s.setFh strayHearthStarted :=
    State.startRead_of_copyHeld (c := strayStarted) (by rw [hafter]; rfl) (by decide) (by rw [hafter]; decide)
  show Host.Outcome.next (s.startIf s.foc.h strayCopy.seq false) = _
  rw [State.startIf, show s.hearth s.foc.h = strayHearth from hs, show strayHearth.cmd? strayCopy.seq = some strayCopy from rfl]
  simp only [hgo, if_true, Bool.false_and, Bool.false_eq_true, if_false, State.startCmd, State.leaveQueue_stray hs, hflag, hdesc,
    hread]

end Stray

/-- Refutes O38: nothing ties a command's queue to its word, so a `cp.lin` in the vector queue starts while the copy engine is held, and
stands started with no descriptor read, though no earlier entry keeps its chunk. -/
theorem not_commandsStartEnterAndComplete : ¬ Obligations.CommandsStartEnterAndComplete := by
  rintro ⟨hstart, -, -⟩
  obtain ⟨s, hs⟩ : ∃ s : State, s.fh = strayHearth := ⟨State.reset.setFh strayHearth, State.fh_setFh ..⟩
  obtain ⟨-, hdesc, -⟩ := hstart s strayCopy (by rw [hs]; rfl) (by rw [hs]; rfl) (by rw [hs]; rfl) (by decide)
    (by rw [hs]; exact strayHearth_mayStart) (by rw [hs]; rfl)
  obtain ⟨t, ht, hread, -⟩ := hdesc (by decide) (by decide) rfl rfl rfl rfl
  cases (exec_commandStart_stray hs).symm.trans ht
  rw [State.fh_setFh, show strayHearthStarted.cmd? strayCopy.seq = some strayStarted from rfl] at hread
  obtain hgone | ⟨d, hd, -, -, -, hdone⟩ := hread
  · cases hgone
  · cases hd
    obtain h | h := hdone (by rw [hs]; rfl)
    · cases h
    · cases h

/-! ## A stopped hearth with a full held list (R282, R328) -/

/-- `fl.set` in the vector queue, started and not yet applied. -/
def waitingFlSet : Cmd := { Cmd.empty with seq := 1, word := 0x502#256, stage := .started }

/-- A hearth that Hob has stopped, whose held list is full; and the same hearth as it is being pre-empted. -/
def fullHearth : Hearth :=
  { Hearth.reset with cmds := [waitingFlSet],
                      hob := { Hob.reset with stopped := true, held := List.replicate Config.heldEntries (.set 0 0) } }
def fullHearthHalting : Hearth := { fullHearth with halting := true }

theorem waitingFlSet_facts : waitingFlSet.isFlag = true ∧ waitingFlSet.flagUpdates = 1 ∧ queueOf waitingFlSet.word = .vector := by
  decide

/-- The held list has no slot left. -/
theorem fullHearthHalting_heldRoom : fullHearthHalting.heldRoom 1 = false := by
  simp [Hearth.heldRoom, fullHearthHalting, fullHearth, List.filter_replicate, Held.slot]

/-- A flag command that waits for a slot stands at a stop. -/
theorem fullHearthHalting_atStop : fullHearthHalting.cmds.all fullHearthHalting.atStop = true := by
  obtain ⟨hflag, hupd, -⟩ := waitingFlSet_facts
  have hdue : fullHearthHalting.flagDue waitingFlSet = false := by
    rw [Hearth.flagDue, hupd, fullHearthHalting_heldRoom, Bool.and_false]
  have hdone : fullHearthHalting.mayComplete waitingFlSet = false := rfl
  have hstop : fullHearthHalting.atStop waitingFlSet = true := by
    rw [Hearth.atStop, hdue, hdone, hflag]; rfl
  show (fullHearthHalting.atStop waitingFlSet && true) = true
  rw [hstop, Bool.and_true]

/-- The hearth is saved at once. -/
theorem exec_preemption_full {s : State} (hs : s.fh = fullHearth) (hlive : s.leaderLive = true) :
    ∃ t, exec (.preemption 0) s = .next t ∧ t.fh.halted = true := by
  have hafter : (s.setFh fullHearthHalting).hearth s.foc.h = fullHearthHalting := s.fh_setFh _
  refine ⟨(s.setFh fullHearthHalting).saveHearth s.foc.h 0, ?_, ?_⟩
  · have hsave : (s.setFh fullHearthHalting).haltDone s.foc.h = (s.setFh fullHearthHalting).saveHearth s.foc.h 0 := by
      rw [State.haltDone, hafter, fullHearthHalting_atStop]; rfl
    rw [← hsave]
    show execPreemption 0 s = _
    rw [execPreemption, hs, hlive]
    rfl
  · show ((State.setHearth _ s.foc.h _).hearth s.foc.h).halted = true
    rw [State.hearth_setHearth_self]
    rfl

/-- Refutes O43: a started `fl.set` of the vector queue that finds the held list of a stopped hearth full stands at a stop, so the hearth
is saved before that command has completed. -/
theorem not_preemptionSavesAndRestores : ¬ Obligations.PreemptionSavesAndRestores := by
  rintro ⟨hpre, -, -⟩
  obtain ⟨s, hs, hlive⟩ : ∃ s : State, s.fh = fullHearth ∧ s.leaderLive = true :=
    ⟨{ State.reset with svc := { State.reset.svc with gen := 1, started := 1 } }.setFh fullHearth, State.fh_setFh .., by decide⟩
  obtain ⟨-, hvec⟩ := hpre s 0 (by rw [hs]; rfl) (by rw [hs]; rfl) hlive
  obtain ⟨t, ht, hfh, -⟩ := hvec ⟨waitingFlSet, by rw [hs]; exact List.mem_singleton.2 rfl, rfl, rfl, rfl⟩
  obtain ⟨u, hu, hhalted⟩ := exec_preemption_full hs hlive
  cases ht.symm.trans hu
  rw [hfh, hs] at hhalted
  cases hhalted

end Sys2Proof.Machine

/-! PROOFS. What a write by a unit, a trace record and a flag overflow leave of hearths and contexts, and issue (O16). -/

namespace Sys2Proof.Machine

/-! ## What units' writes and trace records leave alone (R76, R234, R284) -/

/-- No context has changed but that its reservation may be lost. -/
def CtxsKeep (s t : State) : Prop := ∀ l, { t.ctx l with resv := (s.ctx l).resv } = s.ctx l

theorem CtxsKeep.refl (s : State) : CtxsKeep s s := fun _ => rfl

theorem Ctx.keeps_trans {k k' k'' : Ctx} (h : { k' with resv := k.resv } = k) (h' : { k'' with resv := k'.resv } = k') :
    { k'' with resv := k.resv } = k := by
  rw [← h, ← h']

theorem CtxsKeep.trans {s t u : State} (h : CtxsKeep s t) (h' : CtxsKeep t u) : CtxsKeep s u :=
  fun l => Ctx.keeps_trans (h l) (h' l)

theorem State.hearth_memStore (s : State) (ks : List Nat) (bs : List Byte) (w : Option Loc) (g : Fin 640) :
    ∃ cs, (s.memStore ks bs w).hearth g = { s.hearth g with ctxs := cs } :=
  ⟨_, (s.memWrite ks bs).hearth_clearResvMem ks w g⟩

theorem State.hearth_unitWrite (s : State) (ag : Agent) (a : Word) (bs : List Byte) (g : Fin 640) :
    ∃ cs, (s.unitWrite ag a bs).hearth g = { s.hearth g with ctxs := cs } := by
  rcases s.unitWrite_cases ag a bs with e | ⟨ks, -, e⟩ <;> rw [e]
  · exact ⟨_, rfl⟩
  · exact s.hearth_memStore ks bs none g

@[simp] theorem State.unitWrite_foc (s : State) (ag : Agent) (a : Word) (bs : List Byte) :
    (s.unitWrite ag a bs).foc = s.foc := by
  rcases s.unitWrite_cases ag a bs with e | ⟨ks, -, e⟩ <;> rw [e]
  exact s.memStore_foc ..

/-- What a trace record leaves alone: of the hearths, it touches rings and reservations. -/
structure TraceFrame (s t : State) : Prop where
  foc : t.foc = s.foc
  hearth : ∀ g, ∃ cs tr, t.hearth g = { s.hearth g with ctxs := cs, trace := tr }
  ctxs : CtxsKeep s t

theorem TraceFrame.unitWrite {s t : State} (f : TraceFrame s t) (ag : Agent) (a : Word) (bs : List Byte) :
    TraceFrame s (t.unitWrite ag a bs) := by
  refine ⟨(t.unitWrite_foc ag a bs).trans f.foc, fun g => ?_, f.ctxs.trans (t.ctx_unitWrite_keeps ag a bs)⟩
  obtain ⟨cs, e⟩ := t.hearth_unitWrite ag a bs g
  obtain ⟨cs', tr, e'⟩ := f.hearth g
  exact ⟨cs, tr, by rw [e, e']⟩

/-- A ring is set in a hearth as one such state shows it. -/
theorem TraceFrame.setTrace {s t u : State} (f : TraceFrame s t) (f' : TraceFrame s u) (h : Fin 640) (tr : TraceRing) :
    TraceFrame s (t.setHearth h { u.hearth h with trace := tr }) := by
  refine ⟨f.foc, fun g => ?_, fun l => ?_⟩
  · rw [State.hearth_setHearth]
    split
    · next hg =>
      obtain ⟨cs, tr', e⟩ := f'.hearth g
      subst hg; exact ⟨cs, tr, by rw [e]⟩
    · exact f.hearth g
  · rw [State.ctx, State.hearth_setHearth]
    split
    · next hg => subst hg; exact f'.ctxs l
    · exact f.ctxs l

theorem State.traceFrame_traceOut (s : State) (h : Fin 640) (r : BitVec 512) : TraceFrame s (s.traceOut h r) := by
  have base : TraceFrame s s := ⟨rfl, fun g => ⟨_, _, rfl⟩, .refl s⟩
  unfold State.traceOut
  dsimp only
  split
  · exact base
  · split
    · exact base.setTrace base h _
    · have once := base.unitWrite ⟨(s.hearth h).asid, false, (s.hearth h).sec⟩
        ((s.hearth h).trace.addr + BitVec.ofNat 64 (s.hearth h).trace.pos)
      split
      · split
        · exact ((once _).unitWrite _ _ _).setTrace (once _) h _
        · exact (once _).setTrace (once _) h _
      · exact (once _).setTrace (once _) h _

/-! ## What a flag update leaves of contexts (R38, R327) -/

/-- At most a pending trap joins a context. -/
theorem State.ctx_asyncTrap_keeps (s : State) (l m : Loc) (run : RunRec) (a : Async) :
    { (s.asyncTrap l run a).ctx m with pend := (s.ctx m).pend } = s.ctx m := by
  rcases s.asyncTrap_cases l run a with e | e <;> rw [e]
  · by_cases hm : m = l
    · subst hm; rw [State.ctx_setCtx_self]
    · rw [State.ctx_setCtx_ne _ _ hm]
  · rfl

theorem State.ctx_setFlag (s : State) (h : Fin 640) (fl : Fin 256) (v : W32) (l : Loc) : (s.setFlag h fl v).ctx l = s.ctx l := by
  rw [State.setFlag, State.ctx, State.hearth_setHearth]
  split
  · next hg => subst hg; rfl
  · rfl

theorem State.ctx_flagAddNow_keeps (s : State) (h : Fin 640) (src : FlagSrc) (fl : Fin 256) (v : Nat) (l : Loc) :
    { (s.flagAddNow h src fl v).ctx l with pend := (s.ctx l).pend } = s.ctx l := by
  rw [State.flagAddNow]
  dsimp only
  rw [← s.ctx_setFlag h fl (satAdd ((s.hearth h).flag fl) v).1 l]
  generalize s.setFlag h fl (satAdd ((s.hearth h).flag fl) v).1 = u
  split
  · cases src with
    | cmd c seq slot run => exact u.ctx_asyncTrap_keeps ..
    | peer a => rfl
    | qm => rfl
  · rfl

/-! ## Which word a hearth accepts (R216) -/

section Accept
variable {x : Hearth} {c : Fin 4} {n rank : Nat} {w : CmdWord} {ws : Vector (Option WinOp) 5}

/-- The scoreboard entries of a word with its windows. -/
def wordEntries (w : CmdWord) (ws : Vector (Option WinOp) 5) : List SbEntry :=
  ((cmdOp w).map fun o => cmdEntries o (CmdF.ofWord w) ws).getD []

/-- Of the contexts, only one is a candidate. -/
theorem filterMap_only {α : Type} (f : Fin 4 → Option α) {a : α} (hc : f c = some a) (ho : ∀ d, d ≠ c → f d = none) :
    [0, 1, 2, 3].filterMap f = [a] := by
  have h : ∀ d, f d = if d = c then some a else none := fun d => by
    split
    · next e => rw [e, hc]
    · next e => exact ho d e
  revert h
  fin_cases c <;> intro h <;> simp [h]

theorem Hearth.cand_of_not_waiting {d : Fin 4} (h : (x.ctx d).st ≠ .waiting) : x.cand d = none := by
  rw [Hearth.cand]
  split
  · next e _ => exact absurd e h
  · rfl

theorem Hearth.cand_of_waiting (hst : (x.ctx c).st = .waiting) (hw : (x.ctx c).wait = .issue n w ws rank)
    (hstep : x.hob.step = none) :
    x.cand c = if x.queueLen (queueOf w) < 32 then some ⟨c, rank, (wordEntries w ws).length, queueOf w⟩ else none := by
  have hneed : ((cmdOp w).map fun o => (cmdEntries o (CmdF.ofWord w) ws).length).getD 0 = (wordEntries w ws).length := by
    rw [wordEntries]; cases cmdOp w <;> rfl
  rw [Hearth.cand, hst, hw]
  have hroom : (decide (x.queueLen (queueOf w) < Config.queueDepth) && (x.hob.step == none || x.hob.step == some c)) = true ↔
      x.queueLen (queueOf w) < 32 := by
    rw [hstep, Bool.and_eq_true, decide_eq_true_iff]
    exact and_iff_left rfl
  exact if_congr hroom (by rw [hneed]) rfl

/-- The one context that waits with a word that the hearth can take is the one whose word is accepted. -/
theorem Hearth.nextAccept_only (hst : (x.ctx c).st = .waiting) (hw : (x.ctx c).wait = .issue n w ws rank)
    (others : ∀ d, d ≠ c → (x.ctx d).st ≠ .waiting) (hstop : x.hob.stopped = false) (hstep : x.hob.step = none)
    (hidle : x.idle = false) (hq : x.queueLen (queueOf w) < 32) (hsb : x.usedEntries + (wordEntries w ws).length ≤ 96) :
    x.nextAccept = some (c, n, w, ws) := by
  have hcands : x.cands = [⟨c, rank, (wordEntries w ws).length, queueOf w⟩] := by
    rw [Hearth.cands, filterMap_only x.cand ((Hearth.cand_of_waiting hst hw hstep).trans (if_pos hq))
      fun d hd => Hearth.cand_of_not_waiting (others d hd)]
    rfl
  have hfit : (wordEntries w ws).length ≤ Config.sbEntries - x.usedEntries := by
    have : Config.sbEntries = 96 := rfl
    omega
  rw [Hearth.nextAccept, hcands, choose]
  simp [hstop, hidle, hfit, hw]

/-- With its queue full, nothing is accepted. -/
theorem Hearth.nextAccept_full (hst : (x.ctx c).st = .waiting) (hw : (x.ctx c).wait = .issue n w ws rank)
    (others : ∀ d, d ≠ c → (x.ctx d).st ≠ .waiting) (hq : 32 ≤ x.queueLen (queueOf w)) : x.nextAccept = none := by
  have hnone : ∀ d, x.cand d = none := fun d => by
    by_cases hd : d = c
    · subst hd
      rw [Hearth.cand, hst, hw]
      simp [Config.queueDepth, Nat.not_lt.2 hq]
    · exact Hearth.cand_of_not_waiting (others d hd)
  have hcands : x.cands = [] := by simp [Hearth.cands, hnone]
  rw [Hearth.nextAccept, hcands]
  split <;> rfl

end Accept

/-! ## What acceptance does (R92, R102, R173, R215) -/

theorem TraceFrame.refl (s : State) : TraceFrame s s := ⟨rfl, fun _ => ⟨_, _, rfl⟩, .refl s⟩

section AcceptWord
variable (u : State) (l : Loc) (n : Nat) (w : CmdWord) (ws : Vector (Option WinOp) 5)

/-- The hearth as a word enters its queue and the context goes on. -/
def State.acceptedHearth : Hearth :=
  let x := u.hearth l.h
  let b : Fin 8 := Fin.ofNat 8 ((CmdF.ofWord w).pay 0)
  ({ x with nextSeq := x.nextSeq + 1, cmds := x.cmds ++ [x.newCmd l.c n w ws],
            banks := if cmdOp w = some COp.mxLdb then x.banks.set b { x.banks[b] with issue := some (CmdF.ofWord w).typ }
              else x.banks }).setCtx l.c ({ u.ctx l with st := .running, wait := .none }).retire

/-- Acceptance sets the hearth so, and writes at most a trace record. -/
theorem State.traceFrame_acceptWord : TraceFrame (u.setHearth l.h (u.acceptedHearth l n w ws)) (u.acceptWord l n w ws) := by
  show TraceFrame _ (if (CmdF.ofWord w).traced then State.traceOut _ l.h _ else _)
  split
  · exact State.traceFrame_traceOut ..
  · exact .refl _

theorem State.acceptWord_mem (h : (CmdF.ofWord w).traced = false) : (u.acceptWord l n w ws).mem = u.mem := by
  show (if (CmdF.ofWord w).traced then State.traceOut _ l.h _ else State.setHearth u l.h _).mem = _
  rw [h]
  rfl

/-- What an accepted word leaves in its hearth. -/
theorem State.acceptWord_hearth : ∃ cs tr bs, (u.acceptWord l n w ws).hearth l.h =
    { u.hearth l.h with ctxs := cs, trace := tr, banks := bs, nextSeq := (u.hearth l.h).nextSeq + 1,
                        cmds := (u.hearth l.h).cmds ++ [(u.hearth l.h).newCmd l.c n w ws] } := by
  obtain ⟨cs, tr, e⟩ := (u.traceFrame_acceptWord l n w ws).hearth l.h
  rw [State.hearth_setHearth_self] at e
  exact ⟨cs, tr, _, e⟩

theorem State.acceptWord_ctx : { (u.acceptWord l n w ws).ctx l with resv := (u.ctx l).resv } =
    ({ u.ctx l with st := .running, wait := .none }).retire := by
  have h := (u.traceFrame_acceptWord l n w ws).ctxs l
  have e : (u.setHearth l.h (u.acceptedHearth l n w ws)).ctx l = ({ u.ctx l with st := .running, wait := .none }).retire := by
    rw [State.ctx, State.hearth_setHearth_self, State.acceptedHearth, Hearth.ctx_setCtx, if_pos rfl]
  rw [e] at h
  exact h

/-- The signal of an accepted word, on a hearth that runs: its flag gains the threshold in mode 11, and no other flag moves. -/
theorem State.acceptSignal_spec (v : State) (c : Cmd) (run : (v.hearth l.h).hob.stopped = false) :
    SameBody v (v.acceptSignal l.h c) ∧ (v.acceptSignal l.h c).mem = v.mem ∧
    { (v.acceptSignal l.h c).ctx l with pend := (v.ctx l).pend } = v.ctx l ∧
    (condMode c.f.sig ≠ 3 → ((v.acceptSignal l.h c).hearth l.h).flags = (v.hearth l.h).flags) ∧
    (condMode c.f.sig = 3 → (((v.acceptSignal l.h c).hearth l.h).flag (condFlag c.f.sig)).toNat =
      min (2 ^ 32 - 1) (((v.hearth l.h).flag (condFlag c.f.sig)).toNat + condT c.f.sig)) := by
  rw [State.acceptSignal]
  split
  · next h =>
    rw [State.flagAdd_running run]
    refine ⟨v.sameBody_flagAddNow .., v.flagAddNow_mem .., v.ctx_flagAddNow_keeps .., fun h' => absurd h h', fun _ => ?_⟩
    rw [State.flag_flagAddNow, if_pos rfl, satAdd_toNat]
  · next h => exact ⟨.refl v, rfl, rfl, fun _ => rfl, fun h' => absurd h' h⟩

end AcceptWord

/-- A waiting word of the focus context that is accepted. -/
theorem State.accepted_acceptFrom (s : State) (n rank : Nat) (w : CmdWord) (ws : Vector (Option WinOp) 5)
    (run : s.fh.hob.stopped = false) :
    Accepted s ((s.setFc { s.fc with st := .waiting, wait := .issue n w ws rank }).acceptFrom s.foc n w ws) n w ws := by
  set u := s.setFc { s.fc with st := .waiting, wait := .issue n w ws rank } with hu
  have hux : u.hearth s.foc.h = s.fh.setCtx s.foc.c { s.fc with st := .waiting, wait := .issue n w ws rank } := s.fh_setFc _
  have huk : u.ctx s.foc = { s.fc with st := .waiting, wait := .issue n w ws rank } := s.fc_setFc _
  have humem : u.mem = s.mem := rfl
  set v := u.acceptWord s.foc n w ws with hv
  obtain ⟨cs, tr, bs, hx⟩ := u.acceptWord_hearth s.foc n w ws
  have hk := u.acceptWord_ctx s.foc n w ws
  have hfoc : v.foc = s.foc := (u.traceFrame_acceptWord s.foc n w ws).foc
  rw [← hv, hux] at hx
  rw [← hv, huk] at hk
  have hrun : (v.hearth s.foc.h).hob.stopped = false := by rw [hx]; exact run
  set c := (u.hearth s.foc.h).newCmd s.foc.c n w ws with hc
  obtain ⟨hbody, hmem, hpend, hkeep, hgain⟩ := State.acceptSignal_spec s.foc v c hrun
  have ht : u.acceptFrom s.foc n w ws = v.acceptSignal s.foc.h c := rfl
  rw [ht]
  set t := v.acceptSignal s.foc.h c
  have htfoc : t.foc = s.foc := hbody.foc.trans hfoc
  have htx : t.fh = t.hearth s.foc.h := by rw [State.fh, htfoc]
  have htk : t.fc = t.ctx s.foc := by rw [State.fc, htfoc]
  have hflags : (v.hearth s.foc.h).flags = s.fh.flags := by rw [hx]; rfl
  refine ⟨⟨c, ?_, rfl, ?_, rfl, rfl, rfl, rfl, rfl, rfl⟩, ?_, ?_, ?_, ?_, fun r => ?_, fun hm => ?_, fun hm => ?_, fun htr => ?_, ?_⟩
  · rw [htx, hbody.cmds, hx, hc, hux]; rfl
  · rw [hc, hux]; rfl
  · rw [htx, show (t.hearth s.foc.h).nextSeq = (v.hearth s.foc.h).nextSeq from (congrArg Hearth.nextSeq (hbody.2 _) :), hx]; rfl
  · rw [htk, show (t.ctx s.foc).st = (v.ctx s.foc).st from (congrArg Ctx.st hpend :)]; exact (congrArg Ctx.st hk :)
  · rw [htk, show (t.ctx s.foc).wait = (v.ctx s.foc).wait from (congrArg Ctx.wait hpend :)]; exact (congrArg Ctx.wait hk :)
  · rw [htk, show (t.ctx s.foc).pc = (v.ctx s.foc).pc from (congrArg Ctx.pc hpend :)]; exact (congrArg Ctx.pc hk :)
  · rw [htk]
    exact Ctx.get_congr ((congrArg Ctx.xs hpend :).trans (congrArg Ctx.xs hk :)) r
  · rw [htx]; exact (hkeep hm).trans hflags
  · rw [htx]
    refine (hgain hm).trans ?_
    rw [Hearth.flag, hflags]; rfl
  · rw [hmem, hv, State.acceptWord_mem _ _ _ _ _ htr, humem]
  · rw [htx, hbody.scratch, hx]; rfl

/-! ## Issue (R80, R86, R102, R103) -/

section Issue
variable {s : State} {idx : BitVec 13} {xa xb : XReg}

/-- The focus context waits with a word whose checks have passed. -/
def State.issueWaits (s : State) (n : Nat) (w : CmdWord) (ws : Vector (Option WinOp) 5) (rank : Nat) : State :=
  s.setFc { s.fc with st := .waiting, wait := .issue n w ws rank }

section Waits
variable {n rank : Nat} {w : CmdWord} {ws : Vector (Option WinOp) 5}

theorem State.issueWaits_fh : (s.issueWaits n w ws rank).fh =
    s.fh.setCtx s.foc.c { s.fc with st := .waiting, wait := .issue n w ws rank } := s.fh_setFc _

theorem State.issueWaits_fc : (s.issueWaits n w ws rank).fc = { s.fc with st := .waiting, wait := .issue n w ws rank } :=
  s.fc_setFc _

theorem State.issueWaits_others (h : ∀ c, c ≠ s.foc.c → (s.fh.ctx c).st ≠ .waiting) :
    ∀ d, d ≠ s.foc.c → ((s.issueWaits n w ws rank).fh.ctx d).st ≠ .waiting := fun d hd => by
  rw [State.issueWaits_fh, Hearth.ctx_setCtx, if_neg hd.symm]
  exact h d hd

/-- A waiting word that its hearth can take is accepted. -/
theorem State.tryAccept_issueWaits (h : CanAccept s w ws) :
    (s.issueWaits n w ws rank).tryAccept s.foc.h = (s.issueWaits n w ws rank).acceptFrom s.foc n w ws := by
  obtain ⟨others, hstop, hstep, hhalted, hhalting, hq, hsb⟩ := h
  have hidle : s.fh.idle = false := by rw [Hearth.idle, hhalted, hhalting]; rfl
  have hfc : (s.issueWaits n w ws rank).fh.ctx s.foc.c = { s.fc with st := .waiting, wait := .issue n w ws rank } :=
    State.issueWaits_fc
  have hnext : (s.issueWaits n w ws rank).fh.nextAccept = some (s.foc.c, n, w, ws) := by
    refine Hearth.nextAccept_only (rank := rank) (by rw [hfc]) (by rw [hfc]) (State.issueWaits_others others) ?_ ?_ ?_ ?_ ?_ <;>
      rw [State.issueWaits_fh]
    · exact hstop
    · exact hstep
    · exact hidle
    · exact hq
    · exact hsb
  rw [State.tryAccept, show (s.issueWaits n w ws rank).hearth s.foc.h = (s.issueWaits n w ws rank).fh from rfl, hnext]

/-- With its queue full, it goes on waiting. -/
theorem State.tryAccept_issueWaits_full (others : ∀ c, c ≠ s.foc.c → (s.fh.ctx c).st ≠ .waiting)
    (hq : 32 ≤ s.fh.queueLen (queueOf w)) :
    (s.issueWaits n w ws rank).tryAccept s.foc.h = s.issueWaits n w ws rank := by
  have hfc : (s.issueWaits n w ws rank).fh.ctx s.foc.c = { s.fc with st := .waiting, wait := .issue n w ws rank } :=
    State.issueWaits_fc
  have hnext : (s.issueWaits n w ws rank).fh.nextAccept = none := by
    refine Hearth.nextAccept_full (c := s.foc.c) (n := n) (w := w) (ws := ws) (rank := rank) (by rw [hfc]) (by rw [hfc])
      (State.issueWaits_others others) ?_
    rw [State.issueWaits_fh]
    exact hq
  rw [State.tryAccept, show (s.issueWaits n w ws rank).hearth s.foc.h = (s.issueWaits n w ws rank).fh from rfl, hnext]

/-- A word whose checks have passed waits, and is accepted as its hearth can take it. -/
theorem State.candidate_acceptWaiting (hc : checkCmd s.fh s.fc w = none) : (s.candidate n w).acceptWaiting =
    (s.issueWaits n w (captureWins s.fc w) s.cycle).tryAccept s.foc.h := by
  have e : s.candidate n w = s.issueWaits n w (captureWins s.fc w) s.cycle := by
    rw [State.candidate, hc]; rfl
  rw [e, State.acceptWaiting, State.issueWaits_fc]
  exact if_pos rfl

/-- A word that a check refuses traps. -/
theorem State.candidate_refused {c : Nat} (hc : checkCmd s.fh s.fc w = some c) :
    s.candidate n w = s.trapHere c (BitVec.ofNat 64 n) := by
  rw [State.candidate, hc]

end Waits

/-- A context that has trapped waits for nothing. -/
theorem State.acceptWaiting_trapHere (u : s.fc.mode = .user) (cause : Nat) (tval : Word) :
    (s.trapHere cause tval).acceptWaiting = s.trapHere cause tval := by
  have h : (s.trapHere cause tval).fc.st = .running := by
    rw [State.trapHere, State.trap_user u, show (s.setCtx s.foc _).fc = _ from s.fc_setFc _]
    rfl
  rw [State.acceptWaiting, h]
  exact if_neg (by decide)

theorem exec_kIssue_plain (hok : s.fh.slotOk idx.toNat = true) (hd : s.fh.descOf idx.toNat = none) :
    exec (.kIssue idx) s = .next (s.candidate idx.toNat (s.fh.slotWord idx.toNat)).acceptWaiting := by
  show execKIssue idx s = _
  simp [execKIssue, State.issueCheck, hok, hd]

theorem exec_kIssue_described {d : Desc} (hok : s.fh.slotOk idx.toNat = true) (hd : s.fh.descOf idx.toNat = some d) :
    exec (.kIssue idx) s = .next (s.trapHere 24 (BitVec.ofNat 64 idx.toNat)).acceptWaiting := by
  show execKIssue idx s = _
  simp [execKIssue, State.issueCheck, hok, hd]

theorem exec_kIssue_outside (hok : s.fh.slotOk idx.toNat = false) :
    exec (.kIssue idx) s = .next (s.trapHere 2 (wordOf (.kIssue idx))).acceptWaiting := by
  show execKIssue idx s = _
  simp [execKIssue, State.issueCheck, hok]

theorem exec_kIssuex_plain (hok : s.fh.slotOk idx.toNat = true) (hd : s.fh.descOf idx.toNat = none) :
    exec (.kIssuex idx xa xb) s = .next (s.candidate idx.toNat (s.fh.slotWord idx.toNat)).acceptWaiting := by
  show execKIssuex idx xa xb s = _
  simp [execKIssuex, State.issuexCheck, hok, hd]

theorem exec_kIssuex_substituted {d : Desc} {v : CmdWord} (hok : s.fh.slotOk idx.toNat = true)
    (hd : s.fh.descOf idx.toNat = some d)
    (hv : substitute (s.fh.slotWord idx.toNat) d (s.fc.get xa) (s.fc.get xb) = some v) :
    exec (.kIssuex idx xa xb) s = .next (s.candidate idx.toNat v).acceptWaiting := by
  show execKIssuex idx xa xb s = _
  simp [execKIssuex, State.issuexCheck, hok, hd, hv]

theorem exec_kIssuex_outside (hok : s.fh.slotOk idx.toNat = false) :
    exec (.kIssuex idx xa xb) s = .next (s.trapHere 2 (wordOf (.kIssuex idx xa xb))).acceptWaiting := by
  show execKIssuex idx xa xb s = _
  simp [execKIssuex, State.issuexCheck, hok]

end Issue

theorem issueAppendsTheWord : Claims.IssueAppendsTheWord := by
  intro s idx xa xb n w hok run
  have accepts (v : CmdWord) (hc : checkCmd s.fh s.fc v = none) (can : CanAccept s v (captureWins s.fc v)) :
      Accepted s (s.candidate n v).acceptWaiting n v (captureWins s.fc v) := by
    rw [State.candidate_acceptWaiting hc, State.tryAccept_issueWaits can]
    exact s.accepted_acceptFrom n s.cycle v _ can.2.1
  refine ⟨fun hd hc can => ⟨⟨_, exec_kIssue_plain hok hd, accepts w hc can⟩, ⟨_, exec_kIssuex_plain hok hd, accepts w hc can⟩⟩,
    fun d v hd hv hc can => ⟨⟨_, exec_kIssuex_substituted hok hd hv, accepts v hc can⟩, fun u => ?described⟩,
    fun hd hc hq others => ⟨_, exec_kIssue_plain hok hd, ?full⟩, fun ws rank can u hu => ⟨_, rfl, ?later⟩⟩
  case described =>
    refine ⟨_, exec_kIssue_described hok hd, ?_⟩
    rw [State.acceptWaiting_trapHere u]
    exact State.trapsToRuntime_trapHere u 24 _ (by decide)
  case full =>
    rw [State.candidate_acceptWaiting hc, State.tryAccept_issueWaits_full others hq]
    refine ⟨?_, ?_, ?_, fun r => ?_, s.onlyCtx_setFc _⟩
    · rw [State.issueWaits_fc]
    · rw [State.issueWaits_fc]
    · rw [State.issueWaits_fc]
    · rw [State.issueWaits_fc]; rfl
  case later =>
    subst hu
    show Accepted s ((s.issueWaits n w ws rank).tryAccept s.foc.h) n w ws
    rw [State.tryAccept_issueWaits can]
    exact s.accepted_acceptFrom n rank w ws can.2.1

/-- A check raises cause 24 or 25. -/
theorem checkCmd_cause {x : Hearth} {k : Ctx} {w : CmdWord} {c : Nat} (h : checkCmd x k w = some c) : c = 24 ∨ c = 25 := by
  rw [checkCmd] at h
  split at h
  · exact .inl (Option.some.inj h).symm
  · split at h
    · exact .inr (Option.some.inj h).symm
    · cases h

theorem issueTrapsOnBadWords : Claims.IssueTrapsOnBadWords := by
  intro s idx xa xb u
  refine ⟨fun hok => ⟨⟨_, exec_kIssue_outside hok, ?_⟩, ⟨_, exec_kIssuex_outside hok, ?_⟩⟩, fun c hok hd hc => ?_⟩
  · rw [State.acceptWaiting_trapHere u]
    exact State.trapsToRuntime_trapHere u 2 _ (by decide)
  · rw [State.acceptWaiting_trapHere u]
    exact State.trapsToRuntime_trapHere u 2 _ (by decide)
  · have traps : TrapsToRuntime s (s.candidate idx.toNat (s.fh.slotWord idx.toNat)).acceptWaiting (BitVec.ofNat 64 c)
        (BitVec.ofNat 64 idx.toNat) := by
      rw [State.candidate_refused hc, State.acceptWaiting_trapHere u]
      obtain rfl | rfl := checkCmd_cause hc
      · exact State.trapsToRuntime_trapHere u 24 _ (by decide)
      · exact State.trapsToRuntime_trapHere u 25 _ (by decide)
    exact ⟨⟨_, exec_kIssue_plain hok hd, traps⟩, ⟨_, exec_kIssuex_plain hok hd, traps⟩⟩

end Sys2Proof.Machine

/-! PROOFS. The checks of a command word, field by field (O16; R33, R85 to R94). -/

namespace Sys2Proof.Machine

/-! ## The fields of a word (R85) -/

/-- The engine of a named operation is the one that its word gives (R85). -/
def engNamed (e c : Nat) : Bool := match copOf e c with
  | none => true
  | some o => o.code.1 == e

theorem engNamed_all : ∀ e : Fin 16, ∀ c : Fin 256, engNamed e c = true := by decide +kernel

section Word
variable {w : CmdWord}

theorem fld_eq_bitsN (w : CmdWord) (lo n : Nat) : fld w lo n = bitsN w lo n := rfl

/-- A field of a field of a word. -/
theorem bitsN_extract (w : CmdWord) {o m lo n : Nat} (h : lo + n ≤ m) : bitsN (w.extractLsb' o m) lo n = fld w (o + lo) n :=
  bitsN_congr fun i hi => by
    rw [bit, BitVec.getLsbD_extractLsb', decide_eq_true (by omega : lo + i < m), Bool.true_and, bit, Nat.add_assoc]

theorem toNat_extract (w : CmdWord) (o m : Nat) : (w.extractLsb' o m).toNat = fld w o m := by
  rw [BitVec.extractLsb'_toNat, Nat.shiftRight_eq_div_pow, fld]

theorem extract_eq_zero (w : CmdWord) (o m : Nat) : w.extractLsb' o m = 0 ↔ fld w o m = 0 := by
  rw [← BitVec.toNat_inj, toNat_extract]; rfl

theorem bit_extract (w : CmdWord) {o m i : Nat} (h : i < m) : bit (w.extractLsb' o m) i = false ↔ fld w (o + i) 1 = 0 := by
  rw [bit, BitVec.getLsbD_extractLsb', decide_eq_true h, Bool.true_and, BitVec.getLsbD, Nat.testBit_eq_decide_div_mod_eq, fld]
  simp

/-- A field of adjoining fields is zero when they are. -/
theorem fld_eq_zero_iff (w : CmdWord) (lo a b : Nat) : fld w lo (a + b) = 0 ↔ fld w lo a = 0 ∧ fld w (lo + a) b = 0 := by
  have hd : w.toNat / 2 ^ (lo + a) = w.toNat / 2 ^ lo / 2 ^ a := by rw [pow_add, Nat.div_div_eq_div_mul]
  have hm := Nat.mod_mul (x := w.toNat / 2 ^ lo) (a := 2 ^ a) (b := 2 ^ b)
  rw [fld, fld, fld, hd, pow_add, hm]
  have := Nat.two_pow_pos a
  constructor
  · intro h
    have h1 : w.toNat / 2 ^ lo % 2 ^ a = 0 := by omega
    have h2 : 2 ^ a * (w.toNat / 2 ^ lo / 2 ^ a % 2 ^ b) = 0 := by omega
    exact ⟨h1, (Nat.mul_eq_zero.1 h2).resolve_left (by omega)⟩
  · rintro ⟨h1, h2⟩
    rw [h1, h2]
    rfl

theorem kind_ofWord (w : CmdWord) {i : Nat} (h : i < 5) : (CmdF.ofWord w).kind i = fld w (32 + 22 * i + 18) 4 := by
  interval_cases i <;> exact bitsN_extract w (by omega)

theorem pay_ofWord (w : CmdWord) {i : Nat} (h : i < 5) : (CmdF.ofWord w).pay i = fld w (32 + 22 * i) 18 := by
  interval_cases i <;> exact bitsN_extract w (by omega)

/-- The engine code of a named operation. -/
theorem code_of_cmdOp {o : COp} (h : cmdOp w = some o) : o.code.1 = fld w 8 4 := by
  have he := engNamed_all ⟨(w.extractLsb' 8 4).toNat, (w.extractLsb' 8 4).isLt⟩ ⟨(w.extractLsb' 0 8).toNat, (w.extractLsb' 0 8).isLt⟩
  have hn : engNamed (w.extractLsb' 8 4).toNat (w.extractLsb' 0 8).toNat = true := he
  rw [engNamed, show copOf (w.extractLsb' 8 4).toNat (w.extractLsb' 0 8).toNat = some o from h] at hn
  rw [← toNat_extract]
  exact eq_of_beq hn

/-- No operation has an engine code above 5. -/
theorem engCode_lt (o : COp) : o.code.1 < 6 := by cases o <;> decide

end Word

/-! ## Each check in the terms of the rules (R85, R87 to R93) -/

theorem payloadOk_iff (k p : Nat) : payloadOk k p = true ↔ k < 10 ∧ PayloadFits k p := by
  rcases Nat.lt_or_ge k 10 with h | h
  · interval_cases k <;> simp [payloadOk, PayloadFits, or_assoc]
  · obtain ⟨m, rfl⟩ : ∃ m, k = m + 10 := ⟨k - 10, by omega⟩
    have hno : payloadOk (m + 10) p = false := rfl
    simp [hno]

theorem ofCode_rm_isSome (n : Nat) : (Rm.ofCode n).isSome = true ↔ n ≤ 4 := by
  rcases Nat.lt_or_ge n 5 with h | h
  · interval_cases n <;> decide
  · obtain ⟨m, rfl⟩ : ∃ m, n = m + 5 := ⟨n - 5, by omega⟩
    have hno : Rm.ofCode (m + 5) = none := rfl
    simp [hno]

section Fields
variable {w : CmdWord} {o : COp}

theorem operandOk_iff (sp : OpSpec) {i : Nat} (h : i < 5) : operandOk sp (CmdF.ofWord w) i = true ↔
    fld w (32 + 22 * i + 18) 4 ∈ (sp.kinds[i]?).getD [0] ∧ fld w (32 + 22 * i + 18) 4 < 10 ∧
      PayloadFits (fld w (32 + 22 * i + 18) 4) (fld w (32 + 22 * i) 18) := by
  rw [operandOk, kind_ofWord w h, pay_ofWord w h, Bool.and_eq_true, payloadOk_iff, List.contains_iff_mem]

theorem operandsOk_iff (sp : OpSpec) : (List.range 5).all (operandOk sp (CmdF.ofWord w)) = true ↔ ∀ i, i < 5 →
    fld w (32 + 22 * i + 18) 4 ∈ (sp.kinds[i]?).getD [0] ∧ fld w (32 + 22 * i + 18) 4 < 10 ∧
      PayloadFits (fld w (32 + 22 * i + 18) 4) (fld w (32 + 22 * i) 18) := by
  rw [List.all_eq_true]
  exact forall_congr' fun i => by
    rw [List.mem_range]
    exact forall_congr' fun h => operandOk_iff sp h

/-- The check of `TYPE`, and that of `MODE`, as `legalCmd` makes them. -/
def typesOk (ts : Option (List Ty)) (f : CmdF) : Bool := match ts with
  | none => f.ty == 0
  | some us => ((Ty.ofCode f.ty.toNat).map us.contains).getD false

def modeOk (c : MClass) (f : CmdF) : Bool := match c with
  | .n => f.mode == 0
  | _ => (Rm.ofCode (bitsN f.mode 0 3)).isSome

theorem typesOk_iff (ts : Option (List Ty)) : typesOk ts (CmdF.ofWord w) = true ↔
    (ts = none → fld w 12 4 = 0) ∧ ∀ us, ts = some us → ∃ t ∈ us, Ty.ofCode (fld w 12 4) = some t := by
  cases ts with
  | none =>
    rw [typesOk, beq_iff_eq, show (CmdF.ofWord w).ty = w.extractLsb' 12 4 from rfl, extract_eq_zero]
    simp
  | some us =>
    rw [typesOk, show (CmdF.ofWord w).ty.toNat = fld w 12 4 from toNat_extract w 12 4]
    cases Ty.ofCode (fld w 12 4) <;> simp

theorem modeOk_iff (c : MClass) : modeOk c (CmdF.ofWord w) = true ↔
    (c = .n → fld w 16 4 = 0) ∧ (c ≠ .n → fld w 16 3 ≤ 4) := by
  have hm : bitsN (CmdF.ofWord w).mode 0 3 = fld w 16 3 := bitsN_extract w (by omega)
  cases c with
  | n =>
    rw [modeOk, beq_iff_eq, show (CmdF.ofWord w).mode = w.extractLsb' 16 4 from rfl, extract_eq_zero]
    simp
  | f =>
    rw [show modeOk .f (CmdF.ofWord w) = (Rm.ofCode (bitsN (CmdF.ofWord w).mode 0 3)).isSome from rfl, hm, ofCode_rm_isSome]
    simp
  | s =>
    rw [show modeOk .s (CmdF.ofWord w) = (Rm.ofCode (bitsN (CmdF.ofWord w).mode 0 3)).isSome from rfl, hm, ofCode_rm_isSome]
    simp

/-- The three guard fields are zero together. -/
theorem guardFields_zero : ((CmdF.ofWord w).ga == 0 && (CmdF.ofWord w).gb == 0 && (CmdF.ofWord w).gc == 0) = true ↔
    fld w 20 12 = 0 := by
  rw [fld_eq_zero_iff w 20 5 7, fld_eq_zero_iff w 25 5 2, Bool.and_eq_true, Bool.and_eq_true, beq_iff_eq, beq_iff_eq, beq_iff_eq,
    ← extract_eq_zero, ← extract_eq_zero, ← extract_eq_zero, and_assoc]
  rfl

theorem guardLow_zero : ((CmdF.ofWord w).gb == 0 && (CmdF.ofWord w).gc == 0) = true ↔ fld w 25 7 = 0 := by
  rw [fld_eq_zero_iff w 25 5 2, Bool.and_eq_true, beq_iff_eq, beq_iff_eq, ← extract_eq_zero, ← extract_eq_zero]
  rfl

theorem guardOk_iff : guardOk (CmdF.ofWord w) = true ↔
    (fld w 24 1 = 0 → fld w 20 12 = 0) ∧ (fld w 29 1 = 0 → fld w 25 7 = 0) := by
  have ha : bit (CmdF.ofWord w).ga 4 = false ↔ fld w 24 1 = 0 := bit_extract w (by omega)
  have hb : bit (CmdF.ofWord w).gb 4 = false ↔ fld w 29 1 = 0 := bit_extract w (by omega)
  have hsub : fld w 20 12 = 0 → fld w 25 7 = 0 := fun h => ((fld_eq_zero_iff w 20 5 7).1 h).2
  rw [guardOk]
  cases hga : bit (CmdF.ofWord w).ga 4 with
  | false =>
    rw [Bool.not_false, if_pos rfl, guardFields_zero]
    exact ⟨fun h => ⟨fun _ => h, fun _ => hsub h⟩, fun h => h.1 (ha.1 hga)⟩
  | true =>
    have hna : fld w 24 1 ≠ 0 := fun h => by rw [ha.2 h] at hga; cases hga
    rw [if_neg (by decide), Bool.or_eq_true, guardLow_zero]
    cases hgb : bit (CmdF.ofWord w).gb 4 with
    | false => simp [hna, hb.1 hgb]
    | true =>
      have hnb : fld w 29 1 ≠ 0 := fun h => by rw [hb.2 h] at hgb; cases hgb
      simp [hna, hnb]

/-- A threshold of the word, at the field of its condition (R91). -/
theorem condT_extract (lo : Nat) : condT (w.extractLsb' lo 32) = threshold w lo := by
  have hv : bitsN (w.extractLsb' lo 32) 8 20 = fld w (lo + 8) 20 := bitsN_extract w (by omega)
  have hu : bitsN (w.extractLsb' lo 32) 28 2 = fld w (lo + 28) 2 := bitsN_extract w (by omega)
  have hlt : fld w (lo + 28) 2 < 4 := Nat.mod_lt _ (by decide)
  rw [condT, threshold, hv, hu]
  interval_cases fld w (lo + 28) 2 <;> rfl

theorem condMode_extract (lo : Nat) : condMode (w.extractLsb' lo 32) = fld w (lo + 30) 2 := bitsN_extract w (by omega)

/-- Of a condition that is all zero, the threshold is. -/
theorem threshold_of_zero {lo : Nat} (h : fld w lo 32 = 0) : threshold w lo = 0 := by
  have h8 := ((fld_eq_zero_iff w lo 8 24).1 h).2
  have h28 := ((fld_eq_zero_iff w (lo + 8) 20 4).1 h8).1
  rw [threshold, h28, Nat.zero_mul]

theorem waitOk_iff : waitOk (CmdF.ofWord w).wait = true ↔
    (fld w 172 2 = 0 → fld w 142 32 = 0) ∧ fld w 172 2 ≠ 3 ∧ threshold w 142 < 2 ^ 32 := by
  have hm : condMode (CmdF.ofWord w).wait = fld w 172 2 := condMode_extract 142
  have ht : condT (CmdF.ofWord w).wait = threshold w 142 := condT_extract 142
  have hz : (CmdF.ofWord w).wait = 0 ↔ fld w 142 32 = 0 := extract_eq_zero w 142 32
  have hlt : fld w 172 2 < 4 := Nat.mod_lt _ (by decide)
  rw [waitOk, hm, ht]
  interval_cases fld w 172 2
  · show ((CmdF.ofWord w).wait == 0) = true ↔ _
    rw [beq_iff_eq, hz]
    exact ⟨fun h => ⟨fun _ => h, by decide, by rw [threshold_of_zero h]; decide⟩, fun h => h.1 rfl⟩
  · simp
  · simp
  · simp

theorem sigOk_iff : sigOk (CmdF.ofWord w).sig = true ↔
    (fld w 204 2 = 0 → fld w 174 32 = 0) ∧ (fld w 204 2 = 2 → fld w 182 22 = 0) ∧ threshold w 174 < 2 ^ 32 := by
  have hm : condMode (CmdF.ofWord w).sig = fld w 204 2 := condMode_extract 174
  have ht : condT (CmdF.ofWord w).sig = threshold w 174 := condT_extract 174
  have hz : (CmdF.ofWord w).sig = 0 ↔ fld w 174 32 = 0 := extract_eq_zero w 174 32
  have hv : bitsN (CmdF.ofWord w).sig 8 22 = fld w 182 22 := bitsN_extract w (by omega)
  have hv0 : fld w 182 22 = 0 → threshold w 174 = 0 := fun h => by
    rw [threshold, ((fld_eq_zero_iff w 182 20 2).1 h).1, Nat.zero_mul]
  have hlt : fld w 204 2 < 4 := Nat.mod_lt _ (by decide)
  rw [sigOk, hm, ht, hv]
  interval_cases fld w 204 2
  · show ((CmdF.ofWord w).sig == 0) = true ↔ _
    rw [beq_iff_eq, hz]
    exact ⟨fun h => ⟨fun _ => h, by simp, by rw [threshold_of_zero h]; decide⟩, fun h => h.1 rfl⟩
  · simp
  · show (fld w 182 22 == 0) = true ↔ _
    rw [beq_iff_eq]
    exact ⟨fun h => ⟨by simp, fun _ => h, by rw [hv0 h]; decide⟩, fun h => h.2.1 rfl⟩
  · simp

theorem hintOk_iff : hintOk (CmdF.ofWord w).hint = true ↔ fld w 206 2 = 0 ∧ fld w 208 2 ≠ 3 ∧ fld w 210 2 ≠ 3 := by
  have h0 : bitsN (CmdF.ofWord w).hint 0 2 = fld w 206 2 := bitsN_extract w (by omega)
  have h2 : bitsN (CmdF.ofWord w).hint 2 2 = fld w 208 2 := bitsN_extract w (by omega)
  have h4 : bitsN (CmdF.ofWord w).hint 4 2 = fld w 210 2 := bitsN_extract w (by omega)
  rw [hintOk, h0, h2, h4]
  simp [and_assoc]

/-- A check that holds in one of two forms. -/
theorem ite_check {b x y : Bool} : (if b then x else y) = true ↔ (b = false → y = true) ∧ (b = true → x = true) := by
  cases b <;> simp

/-- The guard of a word whose operation takes one or does not. -/
theorem guardField_iff (g : Bool) :
    (if g then guardOk (CmdF.ofWord w) else
      (CmdF.ofWord w).ga == 0 && (CmdF.ofWord w).gb == 0 && (CmdF.ofWord w).gc == 0) = true ↔
    (g = false → fld w 20 12 = 0) ∧ (g = true → (fld w 24 1 = 0 → fld w 20 12 = 0) ∧ (fld w 29 1 = 0 → fld w 25 7 = 0)) := by
  rw [ite_check, guardFields_zero, guardOk_iff]

theorem hintField_iff (g : Bool) : (if g then hintOk (CmdF.ofWord w).hint else (CmdF.ofWord w).hint == 0) = true ↔
    (g = false → fld w 206 6 = 0) ∧ (g = true → fld w 206 2 = 0 ∧ fld w 208 2 ≠ 3 ∧ fld w 210 2 ≠ 3) := by
  rw [ite_check, hintOk_iff, beq_iff_eq, show (CmdF.ofWord w).hint = w.extractLsb' 206 6 from rfl, extract_eq_zero]

/-- The reserved bits of `SCHED`, its queue selection, and an unused `IMM`. -/
theorem schedField_iff : (bitsN (CmdF.ofWord w).sched 0 8 == 0) = true ↔ fld w 212 8 = 0 := by
  rw [beq_iff_eq, show bitsN (CmdF.ofWord w).sched 0 8 = fld w 212 8 from bitsN_extract w (by omega)]

theorem qselField_iff (h : cmdOp w = some o) : (o.code.1 == 5 || (CmdF.ofWord w).qsel == 0) = true ↔
    (fld w 8 4 ≠ 5 → fld w 222 2 = 0) := by
  rw [code_of_cmdOp h, show (CmdF.ofWord w).qsel = fld w 222 2 from bitsN_extract w (by omega)]
  simp [or_iff_not_imp_left]

theorem immField_iff (b : Bool) : (b || (CmdF.ofWord w).imm == 0) = true ↔ (b = false → fld w 224 32 = 0) := by
  rw [Bool.or_eq_true, beq_iff_eq, show (CmdF.ofWord w).imm = w.extractLsb' 224 32 from rfl, extract_eq_zero]
  cases b <;> simp

/-! ## Window operands (R33, R88) -/

/-- Windows stand in the operand positions of a word. -/
theorem winReqs_pos (o : COp) (f : CmdF) : ∀ r ∈ winReqs o f, r.pos < 5 := by
  unfold winReqs
  dsimp only
  split <;> try split
  all_goals simp

section Window
variable (k : Ctx) (f : CmdF) (r : WinReq)

/-- The window register and the offset register that an operand names. -/
theorem opd_window (i : Nat) : (field (f.opd i) 0 5).toFin = Fin.ofNat 32 (f.pay i % 32) := by
  apply Fin.ext
  show (f.opd i).toNat >>> 0 % 2 ^ 5 = (f.opd i).toNat / 2 ^ 0 % 2 ^ 18 % 32 % 32
  rw [Nat.shiftRight_eq_div_pow]
  omega

theorem opd_offset (i : Nat) : (field (f.opd i) 5 5).toFin = Fin.ofNat 32 (f.pay i / 32) := by
  apply Fin.ext
  show (f.opd i).toNat >>> 5 % 2 ^ 5 = (f.opd i).toNat / 2 ^ 0 % 2 ^ 18 / 32 % 32
  rw [Nat.shiftRight_eq_div_pow]
  omega

theorem winAligned_iff : winAligned k f r = true ↔
    (f.kind r.pos = 4 → (k.get (Fin.ofNat 32 (f.pay r.pos / 32))).toNat % r.a4 = 0) ∧
    (winOp k (f.opd r.pos)).a0 % r.a0 = 0 ∧ (winOp k (f.opd r.pos)).pitch % r.pitch = 0 ∧
    (winOp k (f.opd r.pos)).len % r.len = 0 := by
  have hoff : f.kind r.pos = 4 → winOffset k (f.opd r.pos) = (k.get (Fin.ofNat 32 (f.pay r.pos / 32))).toNat := fun h => by
    rw [winOffset, show bitsN (f.opd r.pos) 18 4 = 4 from h, if_pos rfl, opd_offset]
  rw [winAligned]
  by_cases h : f.kind r.pos = 4
  · simp [h, hoff h, and_assoc]
  · simp [h, and_assoc]

/-- What R33 and R88 ask of a window operand, whose window register is `i`. -/
def InExtent (k : Ctx) (f : CmdF) (r : WinReq) (i : Fin 32) : Prop :=
  let g := k.ws[i]
  let p := winOp k (f.opd r.pos)
  winLen g ≠ 0 ∧ winBase g + (winRows g - 1) * winPitch g + winLen g ≤ 2097152 ∧
  winOffset k (f.opd r.pos) < 2097152 ∧ p.a0 + (p.rows - 1) * p.pitch + p.len ≤ 2097152 ∧
  r.minLen ≤ p.len ∧ r.minRows ≤ p.rows ∧ r.count ≤ p.rows * (p.len / r.elemSize)

theorem winExtent_iff : winExtent k f r = true ↔ InExtent k f r (Fin.ofNat 32 (f.pay r.pos % 32)) := by
  rw [← opd_window]
  have hlen : (winOp k (f.opd r.pos)).len = winLen k.ws[(field (f.opd r.pos) 0 5).toFin] := rfl
  have hlast : winLen k.ws[(field (f.opd r.pos) 0 5).toFin] ≠ 0 → ((winOp k (f.opd r.pos)).last < 2097152 ↔
      (winOp k (f.opd r.pos)).a0 + ((winOp k (f.opd r.pos)).rows - 1) * (winOp k (f.opd r.pos)).pitch +
        (winOp k (f.opd r.pos)).len ≤ 2097152) := fun h => by
    rw [WinOp.last]
    omega
  rw [winExtent, winInRange, InExtent]
  simp only [Bool.and_eq_true, decide_eq_true_iff, and_assoc]
  rw [show Config.scratchBytes = 2097152 from rfl]
  exact and_congr_right fun h => by rw [hlast h]

end Window

/-- A legal word, check by check. -/
theorem legalCmd_of_cmdOp (x : Hearth) (k : Ctx) (h : cmdOp w = some o) : legalCmd x k w =
    ((List.range 5).all (operandOk (opSpec o (CmdF.ofWord w)) (CmdF.ofWord w)) &&
      typesOk (opSpec o (CmdF.ofWord w)).types (CmdF.ofWord w) && modeOk (opSpec o (CmdF.ofWord w)).cls (CmdF.ofWord w) &&
      (if (opSpec o (CmdF.ofWord w)).guard then guardOk (CmdF.ofWord w) else
        (CmdF.ofWord w).ga == 0 && (CmdF.ofWord w).gb == 0 && (CmdF.ofWord w).gc == 0) &&
      waitOk (CmdF.ofWord w).wait && sigOk (CmdF.ofWord w).sig &&
      (if (opSpec o (CmdF.ofWord w)).hint then hintOk (CmdF.ofWord w).hint else (CmdF.ofWord w).hint == 0) &&
      bitsN (CmdF.ofWord w).sched 0 8 == 0 && (o.code.1 == 5 || (CmdF.ofWord w).qsel == 0) &&
      (immUsed o (CmdF.ofWord w) || (CmdF.ofWord w).imm == 0) && limitsOk o x (CmdF.ofWord w) &&
      (winReqs o (CmdF.ofWord w)).all (winAligned k (CmdF.ofWord w))) := by
  rw [legalCmd, h]
  rfl

theorem legalCmd_none (x : Hearth) (k : Ctx) (h : cmdOp w = none) : legalCmd x k w = false := by
  rw [legalCmd, h]

/-- An engine code above 5 names nothing (R85). -/
theorem cmdOp_none (h : 6 ≤ fld w 8 4) : cmdOp w = none := by
  cases ho : cmdOp w with
  | none => rfl
  | some o =>
    have := engCode_lt o
    rw [code_of_cmdOp ho] at this
    omega

theorem windowsOk_of_cmdOp (k : Ctx) (h : cmdOp w = some o) :
    windowsOk k w = (winReqs o (CmdF.ofWord w)).all (winExtent k (CmdF.ofWord w)) := by
  rw [windowsOk, h]

theorem checkCmd_illegal {x : Hearth} {k : Ctx} (h : legalCmd x k w = false) : checkCmd x k w = some 24 := by
  rw [checkCmd, h]
  rfl

theorem checkCmd_legal {x : Hearth} {k : Ctx} (h : legalCmd x k w = true) :
    checkCmd x k w = if windowsOk k w then none else some 25 := by
  rw [checkCmd, h]
  cases windowsOk k w <;> rfl

end Fields

theorem issueChecksFollowTheRules : Claims.IssueChecksFollowTheRules := by
  intro x k w f kind pay
  have hkind (o : COp) : ∀ r ∈ winReqs o f, f.kind r.pos = kind r.pos := fun r hr => kind_ofWord w (winReqs_pos o f r hr)
  have hpay (o : COp) : ∀ r ∈ winReqs o f, f.pay r.pos = pay r.pos := fun r hr => pay_ofWord w (winReqs_pos o f r hr)
  have hzero : legalCmd x k 0 = false := by
    rw [legalCmd_of_cmdOp (o := .vAdd) x k rfl, show (List.range 5).all _ = false by decide]
    rfl
  refine ⟨fun h => checkCmd_illegal (legalCmd_none x k (cmdOp_none h)), checkCmd_illegal hzero, ?legal, checkCmd_illegal,
    fun o hl ho => ⟨fun hin => ?inside, fun r hr => ?outside⟩⟩
  case legal =>
    cases ho : cmdOp w with
    | none => simp [legalCmd_none x k ho]
    | some o =>
      have hwin : (∀ r ∈ winReqs o f, winAligned k f r = true) ↔ ∀ r ∈ winReqs o f,
          (kind r.pos = 4 → (k.get (Fin.ofNat 32 (pay r.pos / 32))).toNat % r.a4 = 0) ∧
          (winOp k (f.opd r.pos)).a0 % r.a0 = 0 ∧ (winOp k (f.opd r.pos)).pitch % r.pitch = 0 ∧
          (winOp k (f.opd r.pos)).len % r.len = 0 :=
        forall_congr' fun r => forall_congr' fun hr => by rw [winAligned_iff, hkind o r hr, hpay o r hr]
      rw [legalCmd_of_cmdOp x k ho]
      simp only [Bool.and_eq_true, and_assoc, Option.some.injEq, exists_eq_left']
      rw [operandsOk_iff, typesOk_iff, modeOk_iff, guardField_iff, waitOk_iff, sigOk_iff, hintField_iff, schedField_iff,
        qselField_iff ho, immField_iff, List.all_eq_true, hwin]
      simp only [and_assoc]
      exact Iff.rfl
  case inside =>
    have hok : windowsOk k w = true := by
      rw [windowsOk_of_cmdOp k ho, List.all_eq_true]
      exact fun r hr => (winExtent_iff k f r).2 (by rw [hpay o r hr]; exact hin r hr)
    rw [checkCmd_legal hl, hok]
    rfl
  case outside =>
    intro g p hout
    have hno : ¬ InExtent k f r (Fin.ofNat 32 (f.pay r.pos % 32)) := by
      rw [hpay o r hr]
      rintro ⟨h1, h2, h3, h4, h5, h6, h7⟩
      rcases hout with h | h | h | h | h | h | h
      exacts [h1 h, Nat.not_lt.2 h2 h, Nat.not_lt.2 h h3, Nat.not_lt.2 h4 h, Nat.not_lt.2 h5 h, Nat.not_lt.2 h6 h,
        Nat.not_lt.2 h7 h]
    have hok : windowsOk k w = false := by
      rw [windowsOk_of_cmdOp k ho, List.all_eq_false]
      exact ⟨r, hr, fun h => hno ((winExtent_iff k f r).1 h)⟩
    rw [checkCmd_legal hl, hok]
    rfl

/-- Settles O16: acceptance, traps and checks, each by the branches of issue and the fields of the word. -/
theorem issueAcceptsOrTraps : Obligations.IssueAcceptsOrTraps :=
  ⟨issueAppendsTheWord, issueTrapsOnBadWords, issueChecksFollowTheRules⟩

end Sys2Proof.Machine

/-! PROOFS. What the queue manager's updates of records leave alone (R303 to R305), and dispatch (O39; R309 to R311). -/

namespace Sys2Proof.Machine

/-! ## The list of records (R303) -/

section RefOf
variable {s : State} {r : RecRef} {q : Fin 2048} {a : Word}

theorem State.refOf_some (h : s.refOf q a = some r) : r.wq = q ∧ r.addr = a := by
  simpa using List.find?_some h

/-- The record at an address is looked up in the list of records alone. -/
theorem State.refOf_congr {t : State} (h : t.qm.recs = s.qm.recs) (q : Fin 2048) (a : Word) : t.refOf q a = s.refOf q a := by
  rw [State.refOf, State.refOf, h]

theorem State.refOf_dropRef (s : State) (r : RecRef) (q : Fin 2048) (a : Word) :
    (s.dropRef r).refOf q a = if q = r.wq ∧ a = r.addr then none else s.refOf q a := by
  show (s.qm.recs.filter _).find? _ = _
  rw [List.find?_filter]
  split
  · next h =>
    obtain ⟨rfl, rfl⟩ := h
    refine List.find?_eq_none.2 fun x _ => ?_
    cases hx : x.wq == r.wq && x.addr == r.addr <;> simp
  · next h =>
    refine congrFun (congrArg List.find? (funext fun x => ?_)) _
    cases hx : x.wq == q && x.addr == a with
    | false => simp
    | true =>
      obtain ⟨rfl, rfl⟩ : x.wq = q ∧ x.addr = a := by simpa using hx
      have hne : (x.wq == r.wq && x.addr == r.addr) = false := by
        rw [Bool.eq_false_iff]
        exact fun e => h (by simpa using e)
      simp [hne]

theorem State.refOf_setRef (s : State) (r : RecRef) (q : Fin 2048) (a : Word) :
    (s.setRef r).refOf q a = if q = r.wq ∧ a = r.addr then some r else s.refOf q a := by
  have h : (s.setRef r).refOf q a = ((s.dropRef r).refOf q a).or ([r].find? fun x => x.wq == q && x.addr == a) :=
    List.find?_append
  rw [h, State.refOf_dropRef]
  by_cases hq : q = r.wq ∧ a = r.addr
  · obtain ⟨rfl, rfl⟩ := hq
    simp
  · have hne : (r.wq == q && r.addr == a) = false := by
      rw [Bool.eq_false_iff]
      exact fun e => hq (by obtain ⟨h1, h2⟩ : r.wq = q ∧ r.addr = a := by simpa using e
                            exact ⟨h1.symm, h2.symm⟩)
    rw [if_neg hq, if_neg hq, List.find?_cons, hne]
    cases s.refOf q a <;> rfl

@[simp] theorem State.putRec_qm (s : State) (r : RecRef) (w : BitVec 512) : (s.putRec r w).qm = (s.setRef r).qm :=
  (s.setRef r).unitWrite_qm ..

theorem State.refOf_putRec (s : State) (r : RecRef) (w : BitVec 512) (q : Fin 2048) (a : Word) :
    (s.putRec r w).refOf q a = if q = r.wq ∧ a = r.addr then some r else s.refOf q a := by
  rw [← s.refOf_setRef r q a]
  exact State.refOf_congr (congrArg Qm.recs (s.putRec_qm r w)) q a

end RefOf

/-! ## Contexts under updates of records -/

@[simp] theorem State.setRef_ctx (s : State) (r : RecRef) (l : Loc) : (s.setRef r).ctx l = s.ctx l := rfl
@[simp] theorem State.dropRef_ctx (s : State) (r : RecRef) (l : Loc) : (s.dropRef r).ctx l = s.ctx l := rfl

theorem State.ctxsKeep_unitWrite (s : State) (ag : Agent) (a : Word) (bs : List Byte) : CtxsKeep s (s.unitWrite ag a bs) :=
  s.ctx_unitWrite_keeps ag a bs

theorem State.ctxsKeep_putRec (s : State) (r : RecRef) (w : BitVec 512) : CtxsKeep s (s.putRec r w) :=
  (s.setRef r).ctxsKeep_unitWrite _ _ _

theorem State.hearth_putRec (s : State) (r : RecRef) (w : BitVec 512) (g : Fin 640) :
    ∃ cs, (s.putRec r w).hearth g = { s.hearth g with ctxs := cs } := (s.setRef r).hearth_unitWrite ..

/-- A state in which every context is as before. -/
theorem CtxsKeep.of_eq {s t : State} (h : ∀ l, t.ctx l = s.ctx l) : CtxsKeep s t := fun l => by rw [h l]

theorem State.ctx_setHearth_same (s : State) (h : Fin 640) (x : Hearth) (e : x.ctxs = (s.hearth h).ctxs) (l : Loc) :
    (s.setHearth h x).ctx l = s.ctx l := by
  rw [State.ctx, State.hearth_setHearth]
  split
  · next hg => subst hg; rw [Hearth.ctx, e]; rfl
  · rfl

theorem State.ctxsKeep_qmFlag (s : State) (h : Nat) (fl : Fin 256) (v : Nat) : CtxsKeep s (s.qmFlag h fl v) := by
  unfold State.qmFlag
  split
  · dsimp only
    split
    · split <;> exact .refl s
    · split
      · refine CtxsKeep.of_eq fun l => ?_
        rw [State.flagAdd]
        split
        · refine s.ctx_setHearth_same _ _ ?_ l
          rfl
        · show (s.flagAddNow _ .qm fl v).ctx l = _
          unfold State.flagAddNow
          dsimp only
          split <;> exact s.ctx_setFlag _ _ _ l
      · exact .refl s
  · exact .refl s

theorem State.qmFlag_recs (s : State) (h : Nat) (fl : Fin 256) (v : Nat) : (s.qmFlag h fl v).qm.recs = s.qm.recs := by
  unfold State.qmFlag
  split
  · dsimp only
    split
    · split <;> rfl
    · split
      · rw [State.flagAdd]
        split
        · rfl
        · show (s.flagAddNow _ .qm fl v).qm.recs = _
          unfold State.flagAddNow
          dsimp only
          split <;> rfl
      · rfl
  · rfl

/-- A completion record of the host: memory, an interrupt and the service OS's own books. -/
theorem State.hostComplete_keeps (s : State) (q : Fin 2048) (caddr : Nat) (seq : Word) (st nf nc : Nat) :
    CtxsKeep s (s.hostComplete q caddr seq st nf nc) ∧ (s.hostComplete q caddr seq st nf nc).qm = s.qm := by
  unfold State.hostComplete
  extract_lets r s1 src s2
  clear_value r
  have hstore : CtxsKeep s (s.hostStore caddr (bytes512 r)) := fun l => by
    rw [State.hostStore]; exact s.ctx_memStore_keeps _ _ none l
  have h1 : CtxsKeep s s1 ∧ s1.qm = s.qm := by
    refine ⟨fun l => ?_, by rw [State.msix_qm, State.hostStore, State.memStore_qm]⟩
    rw [show s1.ctx l = (s.hostStore caddr (bytes512 r)).ctx l from State.msix_ctx ..]
    exact hstore l
  clear_value s1
  have h2 : CtxsKeep s s2 ∧ s2.qm = s.qm := by
    simp only [s2]
    split <;> exact h1
  split
  · exact h2
  · exact h2
  · split <;> exact h2

theorem State.nodeDone_keeps (s : State) (wq : Fin 2048) (addr : Word) (q : BitVec 3) :
    CtxsKeep s (s.nodeDone wq addr q) ∧ (s.nodeDone wq addr q).qm.recs = s.qm.recs := by
  unfold State.nodeDone
  split
  · exact ⟨.refl s, rfl⟩
  · next g hg =>
    dsimp only
    generalize { g with nodes := _ } = g'
    unfold State.graphCheck
    split
    · obtain ⟨hc, hq⟩ := (s.dropGraph g'.id).hostComplete_keeps g'.wq g'.caddr g'.seq
        (if (s.queues[g'.wq]).torn then 2 else 0) (g'.count 6) (g'.count 5)
      exact ⟨hc, (congrArg Qm.recs hq).trans rfl⟩
    · exact ⟨.refl s, rfl⟩

/-! ## The end of a record (R303 to R305) -/

/-- An update that changes contexts at most in their reservations, and makes known no record that is unknown at an address. -/
def EndFrame (q : Fin 2048) (a : Word) (s t : State) : Prop := CtxsKeep s t ∧ (s.refOf q a = none → t.refOf q a = none)

theorem EndFrame.refl (q : Fin 2048) (a : Word) (s : State) : EndFrame q a s s := ⟨.refl s, id⟩

theorem EndFrame.trans {q : Fin 2048} {a : Word} {s t u : State} (h : EndFrame q a s t) (h' : EndFrame q a t u) :
    EndFrame q a s u := ⟨h.1.trans h'.1, fun e => h'.2 (h.2 e)⟩

theorem State.endFrame_unitWrite (s : State) (q : Fin 2048) (a : Word) (ag : Agent) (b : Word) (bs : List Byte) :
    EndFrame q a s (s.unitWrite ag b bs) :=
  ⟨s.ctxsKeep_unitWrite ag b bs, fun e => (State.refOf_congr (congrArg Qm.recs (s.unitWrite_qm ag b bs)) q a).trans e⟩

/-- A known record stays known, whatever is written of it. -/
theorem State.endFrame_putRec (s : State) (q : Fin 2048) (a : Word) {r : RecRef} (h : s.refOf r.wq r.addr ≠ none)
    (w : BitVec 512) : EndFrame q a s (s.putRec r w) := by
  refine ⟨s.ctxsKeep_putRec r w, fun e => ?_⟩
  rw [State.refOf_putRec, if_neg]
  · exact e
  · rintro ⟨rfl, rfl⟩; exact h e

theorem State.endRec_frame (q : Fin 2048) (a : Word) (n : Nat) (s : State) (r : RecRef) (fin : BitVec 3) :
    CtxsKeep s (State.endRec n s r fin) ∧
    (s.refOf q a = none ∨ (q = r.wq ∧ a = r.addr ∧ n ≠ 0) → (State.endRec n s r fin).refOf q a = none) := by
  induction n generalizing s r fin with
  | zero => exact ⟨.refl s, fun h => h.elim id fun h => absurd rfl h.2.2⟩
  | succ n ih =>
    unfold State.endRec
    extract_lets w s1 s2 s3 p ag
    have h1 : CtxsKeep s s1 := s.ctxsKeep_putRec { r with qst := fin } w
    have h3 : CtxsKeep s s3 ∧ s3.qm.recs = s1.qm.recs := by
      have h2 : CtxsKeep s1 s2 ∧ s2.qm.recs = s1.qm.recs := by
        simp only [s2]
        split
        · exact ⟨s1.ctxsKeep_qmFlag _ _ _, s1.qmFlag_recs _ _ _⟩
        · exact ⟨.refl s1, rfl⟩
      obtain ⟨hc, hr⟩ := s2.nodeDone_keeps r.wq r.addr fin
      exact ⟨(h1.trans h2.1).trans hc, hr.trans h2.2⟩
    have hnone : s.refOf q a = none ∨ (q = r.wq ∧ a = r.addr ∧ n + 1 ≠ 0) → s3.refOf q a = none := fun h => by
      rw [State.refOf_congr h3.2, State.refOf_dropRef]
      split
      · rfl
      · next hne =>
        obtain h | h := h
        · rw [State.refOf_putRec, if_neg hne]; exact h
        · exact absurd ⟨h.1, h.2.1⟩ hne
    have lift {t : State} (h : EndFrame q a s3 t) : CtxsKeep s t ∧
        (s.refOf q a = none ∨ (q = r.wq ∧ a = r.addr ∧ n + 1 ≠ 0) → t.refOf q a = none) :=
      ⟨h3.1.trans h.1, fun e => h.2 (hnone e)⟩
    have more {t : State} (h : EndFrame q a s3 t) (r' : RecRef) (fin' : BitVec 3) :
        EndFrame q a s3 (State.endRec n t r' fin') :=
      ⟨h.1.trans (ih t r' fin').1, fun e => (ih t r' fin').2 (.inl (h.2 e))⟩
    clear_value s3
    split
    · exact lift (.refl q a s3)
    · split
      · exact lift (.refl q a s3)
      · extract_lets pw j failed pw1
        split
        · split <;> exact lift (s3.endFrame_unitWrite ..)
        · next pr hpr =>
          extract_lets pr1
          obtain ⟨hwq, haddr⟩ := State.refOf_some hpr
          have known {x : RecRef} (hx : x.wq = pr.wq) (ha : x.addr = pr.addr) (v : BitVec 512) :
              EndFrame q a s3 (s3.putRec x v) := by
            refine s3.endFrame_putRec q a ?_ v
            rw [hx, ha, hwq, haddr, hpr]
            exact Option.some_ne_none _
          have same (v : BitVec 512) : EndFrame q a s3 (s3.putRec pr1 v) :=
            known (x := pr1) (by rfl) (by rfl) v
          have ready (v : BitVec 512) : EndFrame q a s3 (s3.makeReady pr1 v) := by
            rw [State.makeReady]; exact known (by rfl) (by rfl) v
          clear_value pr1
          split
          · exact lift (same _)
          · split
            · exact lift (more (same _) _ _)
            · split
              · exact lift (ready _)
              · split
                · exact lift (more (same _) _ _)
                · exact lift (same _)

/-- A record that ends is known no more, and no context changes but in its reservation. -/
theorem State.endRecord_spec (s : State) (r : RecRef) (fin : BitVec 3) :
    CtxsKeep s (s.endRecord r fin) ∧ (s.endRecord r fin).refOf r.wq r.addr = none := by
  obtain ⟨hc, hn⟩ := s.endRec_frame r.wq r.addr (s.qm.recs.length + 1) r fin
  exact ⟨hc, hn (.inr ⟨rfl, rfl, Nat.succ_ne_zero _⟩)⟩

/-! ## The order of candidates (R311) -/

theorem State.bestOf_eq_none {s : State} {l : List (RecRef × BitVec 512)} : s.bestOf l = none ↔ l = [] := by
  cases l with
  | nil => simp [State.bestOf]
  | cons a l =>
    rw [State.bestOf]
    cases s.bestOf l with
    | none => simp
    | some b =>
      dsimp only
      split <;> simp

theorem State.mem_of_bestOf {s : State} {l : List (RecRef × BitVec 512)} {b : RecRef × BitVec 512} (h : s.bestOf l = some b) :
    b ∈ l := by
  induction l generalizing b with
  | nil => cases h
  | cons a l ih =>
    rw [State.bestOf] at h
    cases hc : s.bestOf l with
    | none => rw [hc] at h; cases h; exact List.mem_cons_self
    | some d =>
      rw [hc] at h
      dsimp only at h
      split at h
      · cases h; exact List.mem_cons_self
      · cases h; exact List.mem_cons_of_mem _ (ih hc)

theorem State.goesFirst_of_goesBefore {s : State} {p q : RecRef × BitVec 512} (h : GoesBefore s p q) : s.goesFirst p q = true := by
  rw [State.goesFirst]
  rcases h with h | ⟨he, h | ⟨hr, ha⟩⟩
  · simp [h]
  · simp [he, h]
  · simp [he, hr, Nat.le_of_lt ha]

theorem State.goesFirst_of_goesAfter {s : State} {p q : RecRef × BitVec 512} (h : GoesBefore s p q) : s.goesFirst q p = false := by
  rw [State.goesFirst]
  rcases h with h | ⟨he, h | ⟨hr, ha⟩⟩
  · simp [Nat.le_of_lt h, Nat.ne_of_lt h]
  · simp [he, Nat.le_of_lt h, Nat.ne_of_gt h]
  · simp [he, hr, ha]

theorem State.goesFirst_self (s : State) (p : RecRef × BitVec 512) : s.goesFirst p p = true := by
  simp [State.goesFirst]

/-- The candidate that goes before every other one is the first. -/
theorem State.bestOf_first {s : State} {p : RecRef × BitVec 512} {l : List (RecRef × BitVec 512)} (hp : p ∈ l)
    (first : ∀ q ∈ l, q ≠ p → GoesBefore s p q) : s.bestOf l = some p := by
  induction l with
  | nil => cases hp
  | cons a l ih =>
    have ih' (hpl : p ∈ l) : s.bestOf l = some p := ih hpl fun q hq => first q (List.mem_cons_of_mem _ hq)
    rw [State.bestOf]
    by_cases ha : a = p
    · subst ha
      cases hb : s.bestOf l with
      | none => rfl
      | some b =>
        have hgo : s.goesFirst a b = true := by
          by_cases hal : a ∈ l
          · rw [ih' hal] at hb
            cases hb
            exact s.goesFirst_self a
          · have hbl : b ∈ l := State.mem_of_bestOf hb
            exact State.goesFirst_of_goesBefore (first b (List.mem_cons_of_mem _ hbl) fun e => hal (e ▸ hbl))
        simp [hgo]
    · have hpl : p ∈ l := (List.mem_cons.1 hp).resolve_left fun e => ha e.symm
      have hgo : s.goesFirst a p = false := State.goesFirst_of_goesAfter (first a List.mem_cons_self ha)
      simp [ih' hpl, hgo]

/-- The candidates of a hearth, as a context's choice lists them. -/
theorem State.mem_candidates {s : State} {h : Fin 640} {p : RecRef × BitVec 512} :
    p ∈ (s.ready.filter fun p => recKind p.2 == 0 && s.matchesHearth p.1.wq p.2 h && !s.barrierHeld p.1 p.2 &&
      !s.queueMoving p.1.wq) ↔ Candidate s h p := by
  simp [List.mem_filter, Candidate, and_assoc]

theorem State.choiceOf_first {s : State} {l : Loc} {p : RecRef × BitVec 512} (hl : Chooses s l) (hp : Candidate s l.h p)
    (first : ∀ q, Candidate s l.h q → q ≠ p → GoesBefore s p q) : s.choiceOf s.ready l = some p := by
  obtain ⟨hfree, hidle, harr, -⟩ := hl
  have hst : ((s.hearth l.h).ctx l.c).st = .free := hfree
  rw [State.choiceOf]
  simp only [hst, hidle, harr]
  exact State.bestOf_first (State.mem_candidates.2 hp) fun q hq => first q (State.mem_candidates.1 hq)

theorem State.choiceOf_none {s : State} {l : Loc} (hl : ¬ Chooses s l) : s.choiceOf s.ready l = none := by
  rw [State.choiceOf]
  split
  · rfl
  · next hc =>
    obtain ⟨⟨hfree, hidle⟩, harr⟩ : (((s.hearth l.h).ctx l.c).st = .free ∧ (s.hearth l.h).idle = false) ∧
        (s.hearth l.h).arrQ = [] := by simpa using hc
    rw [State.bestOf_eq_none, List.eq_nil_iff_forall_not_mem]
    exact fun p hp => hl ⟨hfree, hidle, harr, p, State.mem_candidates.1 hp⟩

/-- The contexts stand in the list in the order in which they choose. -/
theorem pairwise_allLocs : allLocs.Pairwise ChoosesBefore := by
  rw [allLocs, List.pairwise_flatMap]
  refine ⟨fun h _ => ?_, ?_⟩
  · rw [List.pairwise_map]
    exact (List.pairwise_lt_finRange 4).imp fun hlt => .inr ⟨rfl, hlt⟩
  · refine (List.pairwise_lt_finRange 640).imp fun hlt l hl m hm => ?_
    obtain ⟨c, -, rfl⟩ := List.mem_map.1 hl
    obtain ⟨d, -, rfl⟩ := List.mem_map.1 hm
    exact .inl hlt

theorem mem_allLocs (l : Loc) : l ∈ allLocs :=
  List.mem_flatMap.2 ⟨l.h, List.mem_finRange _, List.mem_map.2 ⟨l.c, List.mem_finRange _, rfl⟩⟩

/-- The first context that chooses, and what it is given. -/
theorem State.firstChoice_of {s : State} {l : Loc} {p : RecRef × BitVec 512} (hl : Chooses s l)
    (before : ∀ m, ChoosesBefore m l → ¬ Chooses s m) (hp : Candidate s l.h p)
    (first : ∀ q, Candidate s l.h q → q ≠ p → GoesBefore s p q) : s.firstChoice = some (l, p) := by
  have hne : s.ready ≠ [] := List.ne_nil_of_mem hp.1
  have e : s.firstChoice = allLocs.findSome? fun l => (s.choiceOf s.ready l).map fun p => (l, p) := by
    unfold State.firstChoice
    split
    · next h => exact absurd h hne
    · rfl
  obtain ⟨l₁, l₂, hs⟩ := List.append_of_mem (mem_allLocs l)
  have hpw := pairwise_allLocs
  rw [hs] at hpw
  have hbefore : ∀ m ∈ l₁, ChoosesBefore m l := fun m hm => (List.pairwise_append.1 hpw).2.2 m hm l List.mem_cons_self
  rw [e, List.findSome?_eq_some_iff]
  refine ⟨l₁, l, l₂, hs, ?_, fun m hm => ?_⟩
  · rw [State.choiceOf_first hl hp first]; rfl
  · rw [State.choiceOf_none (before m (hbefore m hm))]; rfl

/-! ## Starting a record (R28, R302, R311) -/

theorem State.mem_ready {s : State} {p : RecRef × BitVec 512} (h : p ∈ s.ready) : p.2 = s.recWord p.1 := by
  obtain ⟨r, -, rfl⟩ := List.mem_map.1 h
  rfl

/-- What a starting context holds. -/
theorem Ctx.get_start (k : Ctx) (lmtrap : Bool) (last : Nat × Nat) (run : RunRec) (pc a0 a1 : Word) (rgn : List (BitVec 16))
    (x : XReg) : (k.start lmtrap last run pc a0 a1 rgn).get x = if x = 10 then a0 else if x = 11 then a1 else 0 := by
  rw [Ctx.get]
  split
  · next h => subst h; rfl
  · show (((Vector.replicate 32 (0 : Word)).set 10 a0).set 11 a1)[x] = _
    rw [Fin.getElem_fin, Vector.getElem_set, Vector.getElem_set]
    by_cases h11 : x = 11
    · subst h11; rfl
    · by_cases h10 : x = 10
      · subst h10; rfl
      · have h11' : ¬ (11 : Nat) = x.val := fun e => h11 (Fin.ext e.symm)
        have h10' : ¬ (10 : Nat) = x.val := fun e => h10 (Fin.ext e.symm)
        simp [h10, h11, h10', h11']

/-- The context at the focus starts a record: it alone changes, but for reservations, and its record is active. -/
theorem State.startTask_focus (s : State) (r : RecRef) (w : BitVec 512) : ∃ k last,
    (s.startTask s.foc r w).fc = Ctx.start k ((s.fh.img.map (·.lmtrap)).getD false) last (.task r.addr r.wq)
      (BitVec.ofNat 64 (recEntry w)) (recFrame w) r.addr (if recRgn w = 0 then [] else [recRgn w]) ∧
    (s.startTask s.foc r w).refOf r.wq r.addr = some { r with qst := 1 } ∧
    (∀ l, l ≠ s.foc → { (s.startTask s.foc r w).ctx l with resv := (s.ctx l).resv } = s.ctx l) ∧
    (s.startTask s.foc r w).fh.flags = s.fh.flags ∧ (s.startTask s.foc r w).fh.scratch = s.fh.scratch := by
  set s1 := s.putRec { r with qst := 1 } w with hs1
  obtain ⟨cs, hx⟩ := s.hearth_putRec { r with qst := 1 } w s.foc.h
  rw [← hs1] at hx
  have hfoc : s1.foc = s.foc := (s.setRef { r with qst := 1 }).unitWrite_foc ..
  have hlm : (s1.hearth s.foc.h).lmtrapDefault = (s.fh.img.map (·.lmtrap)).getD false := by rw [hx]; rfl
  generalize hk : Ctx.start ((s1.hearth s.foc.h).ctx s.foc.c) (s1.hearth s.foc.h).lmtrapDefault (s1.hearth s.foc.h).runId
    (.task r.addr r.wq) (BitVec.ofNat 64 (recEntry w)) (recFrame w) r.addr (if recRgn w = 0 then [] else [recRgn w]) = k'
  have ht : s.startTask s.foc r w = s1.setFc k' := by
    rw [← hk, State.setFc, hfoc]; rfl
  rw [hlm] at hk
  rw [ht, State.fc_setFc, State.fh_setFc]
  refine ⟨_, _, hk.symm, ?_, fun l hl => ?_, ?_, ?_⟩
  · exact (s.refOf_putRec { r with qst := 1 } w _ _).trans (if_pos ⟨rfl, rfl⟩)
  · rw [State.setFc, State.ctx_setCtx_ne _ _ (by rw [hfoc]; exact hl)]
    exact s.ctxsKeep_putRec _ _ l
  · rw [State.fh, hfoc]; show (s1.hearth s.foc.h).flags = _; rw [hx]; rfl
  · rw [State.fh, hfoc]; show (s1.hearth s.foc.h).scratch = _; rw [hx]; rfl

/-- A record that is not run ends, or waits for its children. -/
theorem State.endOrWait_faulted (s : State) (r : RecRef) : CtxsKeep s (s.endOrWait r 6) ∧
    (recJoin (s.recWord r) = 0 → (s.endOrWait r 6).refOf r.wq r.addr = none) ∧
    (recJoin (s.recWord r) ≠ 0 → (s.endOrWait r 6).refOf r.wq r.addr = some { r with failing := true }) := by
  rw [State.endOrWait]
  split
  · next h =>
    obtain ⟨hc, hn⟩ := s.endRecord_spec r 6
    exact ⟨hc, fun _ => hn, fun h' => absurd h h'⟩
  · next h =>
    rw [if_neg (by decide)]
    refine ⟨s.ctxsKeep_putRec _ _, fun h' => absurd h' h, fun _ => ?_⟩
    rw [State.refOf_putRec, if_pos ⟨rfl, rfl⟩]

theorem exec_recordDispatch {s : State} {r : RecRef} {w : BitVec 512} (h : s.firstChoice = some (s.foc, r, w)) :
    exec .recordDispatch s = .next (s.dispatchTo s.foc r w) := by
  show execRecordDispatch s = _
  rw [execRecordDispatch, h]
  simp

theorem recordsAreDispatchedInOrder : Claims.RecordsAreDispatchedInOrder := by
  intro s r w hl before hp first
  have hexec := exec_recordDispatch (State.firstChoice_of hl before hp first)
  refine ⟨fun hok => completes_of hexec ?_, fun hbad => completes_of hexec ?_⟩
  · rw [State.dispatchTo, if_pos hok]
    obtain ⟨k, last, hfc, href, hothers, hflags, hscr⟩ := s.startTask_focus r w
    rw [hfc, href]
    exact ⟨rfl, rfl, rfl, rfl, fun x => Ctx.get_start .., fun i => Vector.getElem_replicate .., fun i => Vector.getElem_replicate ..,
      fun i => Vector.getElem_replicate .., rfl, rfl, rfl, rfl, rfl, rfl, hothers, hflags, hscr⟩
  · have hw : w = s.recWord r := State.mem_ready hp.1
    obtain ⟨hc, hend, hwait⟩ := s.endOrWait_faulted r
    rw [State.dispatchTo, hbad, if_neg (by decide), hw]
    exact ⟨hend, hwait, List.mem_append.2 (.inr (List.mem_singleton.2 rfl)), hc⟩

/-! ## Search and fetch records, and the age limit (R309, R344) -/

theorem State.cirrusChoice_first {s : State} {e : Fin 8} {p : RecRef × BitVec 512} (room : s.cirrusLoad e.val < 256)
    (hp : p ∈ s.ready ∧ (recKind p.2 = 1 ∨ recKind p.2 = 2) ∧ s.taskEngine p.1.wq (recFrame p.2) = e ∧
      s.barrierHeld p.1 p.2 = false ∧ s.queueMoving p.1.wq = false)
    (first : ∀ q : RecRef × BitVec 512, q ∈ s.ready ∧ (recKind q.2 = 1 ∨ recKind q.2 = 2) ∧
      s.taskEngine q.1.wq (recFrame q.2) = e ∧ s.barrierHeld q.1 q.2 = false ∧ s.queueMoving q.1.wq = false → q ≠ p →
      GoesBefore s p q) : s.cirrusChoice s.ready e = some p := by
  have hroom : s.cirrusRoom e.val = true := decide_eq_true room
  rw [State.cirrusChoice, hroom]
  refine State.bestOf_first (by simpa [List.mem_filter, and_assoc] using hp) fun q hq => first q ?_
  simpa [List.mem_filter, and_assoc] using hq

/-- What an engine reads at a launch depends on the indexes alone. -/
theorem State.launchNow_congr {s t : State} (h : t.cirrus = s.cirrus) : t.launchNow = s.launchNow := by
  rw [State.launchNow, State.launchNow, h]

@[simp] theorem State.putRec_cirrus (s : State) (r : RecRef) (w : BitVec 512) : (s.putRec r w).cirrus = s.cirrus := by
  rw [State.putRec]
  rcases (s.setRef r).unitWrite_cases (s.queueAgent r.wq) r.addr (bytes512 (r.over w)) with e | ⟨ks, -, e⟩ <;> rw [e]
  · rfl
  · exact (s.setRef r).memStore_cirrus ..

/-- Each engine takes the record that goes first. -/
theorem searchRecordsAreTaken (s : State) (e : Fin 8) (r : RecRef) (w : BitVec 512)
    (hc : s.cirrusChoice s.ready e = some (r, w)) (hok : s.recOk r.wq w = true) :
    Completes (.cirrusTaskDispatch e) s fun t => (t.refOf r.wq r.addr).map (·.qst) = some 1 ∧
      t.cirrus.tasks = s.cirrus.tasks ++ [⟨e, r.addr, r.wq, s.launchNow, [], none, [], [], 0⟩] ∧
      t.cirrus.indexes = s.cirrus.indexes ∧ (∀ l, { t.ctx l with resv := (s.ctx l).resv } = s.ctx l) := by
  have hexec : exec (.cirrusTaskDispatch e) s = .next (s.takeTask e r w) := by
    show execCirrusTaskDispatch e s = _
    rw [execCirrusTaskDispatch, hc]
  set s1 := s.putRec { r with qst := 1 } w with hs1
  have hcirrus : s1.cirrus = s.cirrus := s.putRec_cirrus ..
  have ht : s.takeTask e r w =
      { s1 with cirrus := { s1.cirrus with tasks := s1.cirrus.tasks ++ [⟨e, r.addr, r.wq, s1.launchNow, [], none, [], [], 0⟩] } } := by
    rw [State.takeTask, if_pos hok]
  refine completes_of hexec ?_
  rw [ht]
  refine ⟨?_, ?_, ?_, s.ctxsKeep_putRec _ _⟩
  · have href := s.refOf_putRec { r with qst := 1 } w r.wq r.addr
    rw [if_pos ⟨rfl, rfl⟩] at href
    exact congrArg (Option.map (·.qst)) href
  · rw [← State.launchNow_congr hcirrus, ← hcirrus]
  · rw [← hcirrus]

/-- A record that no hearth matches has no place. -/
theorem State.placed_false {s : State} {q : Fin 2048} {w : BitVec 512} (h : ∀ g, s.matchesHearth q w g = false) :
    s.placed q w = false := by
  rw [State.placed, List.any_eq_false]
  exact fun g _ => by rw [h g]; decide

theorem exec_ageLimitReport_due {s : State} {wq : Fin 2048} {addr : Word} {r : RecRef} (hr : s.refOf wq addr = some r)
    (h : s.unplaced r (s.recWord r) = true) : exec (.ageLimitReport wq addr) s =
      .next ((s.setRef { r with seen := s.tick, reported := true }).report (.placement addr)) := by
  show execAgeLimitReport wq addr s = _
  rw [execAgeLimitReport, hr]
  simp only [h, if_true]

theorem exec_ageLimitReport_young {s : State} {wq : Fin 2048} {addr : Word} {r : RecRef} (hr : s.refOf wq addr = some r)
    (h : s.unplaced r (s.recWord r) = false) : exec (.ageLimitReport wq addr) s = .next s := by
  show execAgeLimitReport wq addr s = _
  rw [execAgeLimitReport, hr]
  simp [h]

theorem searchRecordsAndAgedRecords : Claims.SearchRecordsAndAgedRecords := by
  refine ⟨fun s e r w room hp first hok => searchRecordsAreTaken s e r w (State.cirrusChoice_first room hp first) hok,
    fun s wq addr r hr hq hf hk hage hno => ?_, fun s wq addr r hr hage => ⟨s, exec_ageLimitReport_young hr ?_, rfl⟩⟩
  · obtain ⟨rfl, rfl⟩ := State.refOf_some hr
    have hdue : s.unplaced r (s.recWord r) = true := by
      rw [State.unplaced, hq, hf, hk, State.placed_false hno, decide_eq_true hage]
      rfl
    refine completes_of (exec_ageLimitReport_due hr hdue) ⟨rfl, ?_, fun q a hne => ?_, rfl, rfl⟩
    · exact (s.refOf_setRef { r with seen := s.tick, reported := true } _ _).trans (if_pos ⟨rfl, rfl⟩)
    · refine (s.refOf_setRef { r with seen := s.tick, reported := true } _ _).trans (if_neg ?_)
      rintro ⟨rfl, rfl⟩
      exact hne.elim (fun h => h rfl) fun h => h rfl
  · rw [State.unplaced, decide_eq_false (Nat.not_le.2 hage)]
    simp

/-- Settles O39: the best candidate is the one that goes before every other, and the first context that chooses starts it. -/
theorem recordDispatch : Obligations.RecordDispatch := ⟨recordsAreDispatchedInOrder, searchRecordsAndAgedRecords⟩

end Sys2Proof.Machine

/-! PROOFS. The sort array's loads, stores, saves and restores (O32; R187, R190, R194, R195). -/

namespace Sys2Proof.Machine

/-! ## A sort command at work -/

/-- The units of a command, by an invariant that counts them. -/
theorem State.units_induct {s : State} {u : State → State} (P : Nat → State → Prop) {n : Nat} (quota : n ≤ s.fh.quota)
    (start : P 0 s) (step : ∀ j t, j < n → P j t → t.hand.performed = false ∧ P (j + 1) (u t))
    (last : ∀ t, P n t → t.hand.performed = true) : P n (s.units u) := by
  have run (m : Nat) : ∀ j t, j ≤ n → n - j ≤ m → P j t → P n (repeatUnits u m t) := by
    induction m with
    | zero =>
      intro j t hj hm hp
      obtain rfl : j = n := by omega
      exact hp
    | succ m ih =>
      intro j t hj hm hp
      rw [repeatUnits]
      rcases Nat.lt_or_eq_of_le hj with hlt | rfl
      · obtain ⟨hgo, hnext⟩ := step j t hlt hp
        rw [if_neg (by simp [hgo])]
        exact ih (j + 1) (u t) hlt (by omega) hnext
      · rw [if_pos (last t hp)]
        exact hp
  exact run _ 0 s (Nat.zero_le n) quota start

/-- A state as a sort command leaves it: of the focus hearth only contexts, the scratchpad, the sort array and the hand differ. -/
def State.sorting (s : State) (cs : Vector Ctx 4) (m : Mem) (x : SortArr) (c : Cmd) : State :=
  s.setFh { s.fh with ctxs := cs, scratch := m, sa := x, hand := c }

/-- Contexts that differ from those of the focus hearth at most in their reservations. -/
def CtxsOf (s : State) (cs : Vector Ctx 4) : Prop := ∀ i : Fin 4, { cs[i] with resv := (s.fh.ctx i).resv } = s.fh.ctx i

section Sorting
variable {s : State} {cs : Vector Ctx 4} {m : Mem} {x : SortArr} {c : Cmd}

theorem State.sorting_start (s : State) : s.sorting s.fh.ctxs s.fh.scratch s.fh.sa s.hand = s :=
  s.setHearth_hearth s.foc.h

theorem State.sorting_fh : (s.sorting cs m x c).fh = { s.fh with ctxs := cs, scratch := m, sa := x, hand := c } := s.fh_setFh _
theorem State.sorting_hand : (s.sorting cs m x c).hand = c := by rw [State.hand, State.sorting_fh]
theorem State.sorting_sa : (s.sorting cs m x c).sa = x := by rw [State.sa, State.sorting_fh]
theorem State.sorting_scratch : (s.sorting cs m x c).fh.scratch = m := by rw [State.sorting_fh]

/-- Replacing the focus hearth twice. -/
theorem State.sorting_setFh (y : Hearth) : (s.sorting cs m x c).setFh y = s.setFh y := s.setHearth_setHearth ..

theorem State.sorting_setHand (d : Cmd) : (s.sorting cs m x c).setHand d = s.sorting cs m x d := by
  rw [State.setHand, State.sorting_setFh, State.sorting_fh]; rfl

theorem State.sorting_setSa (y : SortArr) : (s.sorting cs m x c).setSa y = s.sorting cs m y c := by
  rw [State.setSa, State.sorting_setFh, State.sorting_fh]; rfl

theorem State.sorting_unitDone (st : BitVec 4) (bytes pos : Nat) (last : Bool) :
    (s.sorting cs m x c).unitDone st bytes pos last = s.sorting cs m x { c with
      status := c.status ||| st, bytes := c.bytes + bytes, pos := pos, performed := last, logWait := false } := by
  rw [State.unitDone, State.sorting_hand, State.sorting_setHand]

/-- What has performed has the frame of a sort command. -/
theorem State.sortFrame_sorting (h : CtxsOf s cs) (performed : c.performed = true) : SortFrame s (s.sorting cs m x c) := by
  refine ⟨by rw [State.sorting_hand]; exact performed, s.onlyHearth_setHearth _ _, fun i => ?_, ?_⟩
  · rw [State.sorting_fh]; exact h i
  · rw [State.sorting_fh]

theorem CtxsOf.start (s : State) : CtxsOf s s.fh.ctxs := fun _ => rfl

/-- The outstanding entries do not depend on reservations. -/
theorem State.earlier_sorting (h : CtxsOf s cs) (q : Nat) : (s.sorting cs m x c).fh.earlier q = s.fh.earlier q := by
  have hap : cs.toList.filterMap Ctx.apEntry = s.fh.ctxs.toList.filterMap Ctx.apEntry := by
    have hw : cs.map (·.wait) = s.fh.ctxs.map (·.wait) := by
      ext i hi
      have := congrArg Ctx.wait (h ⟨i, hi⟩)
      simpa [Hearth.ctx] using this
    have hl : cs.toList.map (·.wait) = s.fh.ctxs.toList.map (·.wait) := by
      rw [← Vector.toList_map, hw, Vector.toList_map]
    have he : ∀ l : List Ctx, l.filterMap Ctx.apEntry = (l.map (·.wait)).filterMap fun w =>
        match w with
        | .aperture seq write lo hi => some (seq, (⟨write, lo, hi, []⟩ : SbEntry))
        | _ => none := fun l => by rw [List.filterMap_map]; rfl
    rw [he, he, hl]
  rw [State.sorting_fh, Hearth.earlier, Hearth.earlier, hap]

/-- With no earlier entry outstanding, every byte is ready. -/
theorem State.entryReady_sorting (h : CtxsOf s cs) (free : s.fh.earlier c.seq = []) (i first last : Nat) :
    (s.sorting cs m x c).entryReady i first last = true := by
  rw [State.entryReady, State.sorting_hand]
  split
  · rfl
  · next e _ =>
    rw [State.earlier_sorting h, free]
    simp [bytesReady, chunkReady, writeReady]

/-- Clearing reservations keeps the contexts as they were but for these. -/
theorem CtxsOf.clearResv (h : CtxsOf s cs) {y : Hearth} (hy : y.ctxs = cs) (ap : Bool) (lines : List Nat) (but : Option (Fin 4)) :
    CtxsOf s (y.clearResv ap lines but).ctxs := fun i => by
  show { (y.clearResv ap lines but).ctx i with resv := (s.fh.ctx i).resv } = _
  have hyi : { y.ctx i with resv := (s.fh.ctx i).resv } = s.fh.ctx i := by
    rw [Hearth.ctx, hy]; exact h i
  rw [Hearth.ctx_clearResv]
  split
  · exact hyi
  · rw [← hyi]
    exact congrArg (fun k : Ctx => { k with resv := (s.fh.ctx i).resv }) (Ctx.clearResv_keeps (y.ctx i) ap lines)

/-- A store of scratchpad bytes by a sort command. -/
theorem State.sorting_scratchPut (h : CtxsOf s cs) (off : Nat) (bs : List Byte) : ∃ cs', CtxsOf s cs' ∧
    (s.sorting cs m x c).scratchPut off bs = s.sorting cs' (m.store off bs) x c := by
  refine ⟨_, h.clearResv (y := { s.fh with ctxs := cs, scratch := m.store off bs, sa := x, hand := c }) rfl true
    (((List.range bs.length).map fun i => (off + i) / 128).eraseDups) none, ?_⟩
  rw [State.scratchPut, State.sorting_setFh, State.sorting_fh]
  rfl

/-- Scattered scratchpad bytes written by a sort command. -/
theorem State.sorting_scratchWrites (h : CtxsOf s cs) (ks : List (Nat × Byte)) : ∃ cs', CtxsOf s cs' ∧
    (s.sorting cs m x c).setFh ((s.sorting cs m x c).fh.scratchWrites ks) = s.sorting cs' (m.writeAll ks) x c := by
  refine ⟨_, h.clearResv (y := { s.fh with ctxs := cs, scratch := m.writeAll ks, sa := x, hand := c }) rfl true
    ((ks.map fun k : Nat × Byte => k.1 / 128).eraseDups) none, ?_⟩
  rw [State.sorting_setFh, State.sorting_fh]
  rfl

end Sorting

/-! ## Clearing (R195) -/

theorem sortArrayClears (f : CmdF) (s : State) : Completes (.soClr f) s fun t =>
    t.fh.sa = SortArr.reset ∧ t.fh.scratch = s.fh.scratch ∧ SortFrame s t := by
  have hexec : exec (.soClr f) s = .next ((s.setSa SortArr.reset).performedWith 0 0) := rfl
  refine completes_of hexec ?_
  have h := s.sorting_start
  have e : (s.setSa SortArr.reset).performedWith 0 0 = s.sorting s.fh.ctxs s.fh.scratch SortArr.reset
      { s.hand with performed := true, status := s.hand.status ||| 0, bytes := s.hand.bytes + 0 } := by
    conv_lhs => rw [← h]
    rw [State.sorting_setSa, State.performedWith, State.sorting_hand, State.sorting_setHand]
  rw [e]
  exact ⟨by rw [State.sorting_fh], State.sorting_scratch, State.sortFrame_sorting (.start s) rfl⟩

/-! ## Granules that a command has read (R225) -/

/-- A latch holds granules as they stand in the scratchpad. -/
def LatchOk (m : Mem) (l : List (Nat × List Byte)) : Prop := ∀ p ∈ l, p.2 = m.bytes (64 * p.1) 64

/-- It holds the granules of a byte run. -/
def LatchHas (l : List (Nat × List Byte)) (a n : Nat) : Prop := ∀ i, i < n → ∃ p ∈ l, p.1 = (a + i) / 64

theorem Cmd.latched_of {c : Cmd} {m : Mem} {a : Nat} (ok : LatchOk m c.latch) (has : ∃ p ∈ c.latch, p.1 = a / 64) :
    c.latched a = m.read a := by
  rw [Cmd.latched]
  split
  · next hf =>
    obtain ⟨p, hp, he⟩ := has
    exact absurd (List.find?_eq_none.1 hf p hp) (by simp [he])
  · next p hf =>
    have hg : p.1 = a / 64 := by simpa using List.find?_some hf
    have hlt : a % 64 < (m.bytes (64 * p.1) 64).length := by rw [Mem.length_bytes]; omega
    rw [ok p (List.mem_of_find?_eq_some hf), List.getElem?_eq_getElem hlt, Option.getD_some, Mem.getElem_bytes, hg]
    congr 1; omega

theorem Cmd.latchedRun_of {c : Cmd} {m : Mem} {a n : Nat} (ok : LatchOk m c.latch) (has : LatchHas c.latch a n) :
    c.latchedRun a n = m.bytes a n := by
  refine List.ext_getElem (by simp [Cmd.latchedRun]) fun i h1 h2 => ?_
  have hi : i < n := by simpa [Cmd.latchedRun] using h1
  rw [Mem.getElem_bytes]
  simp only [Cmd.latchedRun, List.getElem_map, List.getElem_range]
  exact Cmd.latched_of ok (has i hi)

/-- A read of a run latches its granules. -/
theorem State.sorting_latchRun {s : State} {cs : Vector Ctx 4} {m : Mem} {x : SortArr} {c : Cmd} (ok : LatchOk m c.latch)
    (a n : Nat) : ∃ l, (s.sorting cs m x c).latchRun a n = s.sorting cs m x { c with latch := l } ∧ LatchOk m l ∧
      (∀ b k, LatchHas c.latch b k → LatchHas l b k) ∧ LatchHas l a n := by
  refine ⟨c.latch ++ (((List.range' (a / 64) ((a + n - 1) / 64 - a / 64 + 1)).filter
    fun g => !(c.latch.any fun p => p.1 == g)).map fun g => (g, m.bytes (64 * g) 64)), ?_, ?_, ?_, ?_⟩
  · rw [State.latchRun, State.sorting_hand, State.sorting_setHand]
    simp only [State.scratchGet, State.sorting_scratch]
  · intro p hp
    rcases List.mem_append.1 hp with h | h
    · exact ok p h
    · obtain ⟨g, -, rfl⟩ := List.mem_map.1 h
      rfl
  · intro b k h i hi
    obtain ⟨p, hp, he⟩ := h i hi
    exact ⟨p, List.mem_append_left _ hp, he⟩
  · intro i hi
    by_cases hin : ∃ p ∈ c.latch, p.1 = (a + i) / 64
    · obtain ⟨p, hp, he⟩ := hin
      exact ⟨p, List.mem_append_left _ hp, he⟩
    · have hmem : (a + i) / 64 ∈ List.range' (a / 64) ((a + n - 1) / 64 - a / 64 + 1) := by
        rw [List.mem_range'_1]
        omega
      have hnew : (!(c.latch.any fun p => p.1 == (a + i) / 64)) = true := by
        rw [Bool.not_eq_true', List.any_eq_false]
        exact fun p hp he => hin ⟨p, hp, by simpa using he⟩
      exact ⟨_, List.mem_append_right _ (List.mem_map.2 ⟨_, List.mem_filter.2 ⟨hmem, hnew⟩, rfl⟩), rfl⟩

/-! ## Loads (R187) -/

section Load
variable (s : State) (f : CmdF) (n : Nat)

/-- Where unit `j` of a reading stands, and its size. -/
def State.unitAt (j : Nat) : Nat := s.sortAddr (sortUnit f 1 n j).2.1 (sortUnit f 1 n j).2.2.1 (sortUnit f 1 n j).2.2.2
def unitSize (j : Nat) : Nat := (sortUnit f 1 n j).2.2.1

/-- The cell of element `i`, as the scratchpad gives it. -/
def State.cellAt (i : Nat) : SCell :=
  ⟨BitVec.ofNat 32 (orderKey f.typ (leNat (s.fh.scratch.bytes (s.sortAddr 1 f.typ.bytes i) f.typ.bytes))),
   BitVec.ofNat 32 (if f.isWin 2 then leNat (s.fh.scratch.bytes (s.sortAddr 2 4 i) 4) else sortBase f 2 i)⟩

/-- A load depends on its elements' cells alone. -/
theorem SortArr.load_congr (x : SortArr) (f : CmdF) {first n : Nat} {c d : Nat → SCell} (h : ∀ i, i < n → c i = d i) :
    x.load f first n c = x.load f first n d := by
  have hcells : (Vector.ofFn fun j : Fin 16384 => if first + n ≤ j.val then
        (if f.pay 4 % 2 = 1 && f.kind 4 = 8 then ⟨0, 0xFFFFFFFF#32⟩ else ⟨0xFFFFFFFF#32, 0xFFFFFFFF#32⟩ : SCell)
      else if first ≤ j.val then c (j.val - first) else x.cells[j]) =
      Vector.ofFn fun j : Fin 16384 => if first + n ≤ j.val then
        (if f.pay 4 % 2 = 1 && f.kind 4 = 8 then ⟨0, 0xFFFFFFFF#32⟩ else ⟨0xFFFFFFFF#32, 0xFFFFFFFF#32⟩ : SCell)
      else if first ≤ j.val then d (j.val - first) else x.cells[j] := by
    refine congrArg Vector.ofFn (funext fun j => ?_)
    split
    · rfl
    · split
      · exact h _ (by omega)
      · rfl
  rw [SortArr.load, SortArr.load, hcells]

/-- A command that has read the first `j` units of a load of `n` elements; behind the last, the array is loaded. -/
def State.Loading (j : Nat) (t : State) : Prop := ∃ c : Cmd,
  t = s.sorting s.fh.ctxs s.fh.scratch (if j = sortUnits f 1 n then s.fh.sa.load f (soRow0 f * 128) n (s.cellAt f) else s.fh.sa) c ∧
  c.pos = j ∧ c.performed = decide (j = sortUnits f 1 n) ∧ c.seq = s.hand.seq ∧ c.wins = s.hand.wins ∧
  LatchOk s.fh.scratch c.latch ∧ ∀ i, i < j → LatchHas c.latch (s.unitAt f n i) (unitSize f n i)

variable {s f n}

theorem State.sorting_sortAddr {cs : Vector Ctx 4} {m : Mem} {x : SortArr} {c : Cmd} (hw : c.wins = s.hand.wins)
    (pos size i : Nat) : (s.sorting cs m x c).sortAddr pos size i = s.sortAddr pos size i := by
  rw [State.sortAddr, State.sortAddr, State.sorting_hand, Cmd.win, Cmd.win, hw]

/-- What the command sees of its elements once it has read all of them. -/
theorem State.sortCell_read {c : Cmd} {x : SortArr} (hw : c.wins = s.hand.wins) (ok : LatchOk s.fh.scratch c.latch)
    (all : ∀ i, i < sortUnits f 1 n → LatchHas c.latch (s.unitAt f n i) (unitSize f n i)) {i : Nat} (hi : i < n) :
    (s.sorting s.fh.ctxs s.fh.scratch x c).sortCell f 1 0 i = s.cellAt f i := by
  have hget (pos size : Nat) (h : LatchHas c.latch (s.sortAddr pos size i) size) :
      (s.sorting s.fh.ctxs s.fh.scratch x c).sortGet pos size i = leNat (s.fh.scratch.bytes (s.sortAddr pos size i) size) := by
    rw [State.sortGet, State.sorting_hand, State.sorting_sortAddr hw, Cmd.latchedRun_of ok h]
  have hkey : LatchHas c.latch (s.sortAddr 1 f.typ.bytes i) f.typ.bytes := by
    have h := all i (by rw [sortUnits]; split <;> omega)
    rwa [State.unitAt, unitSize, sortUnit, if_pos hi] at h
  rw [State.sortCell, State.cellAt, hget 1 f.typ.bytes hkey]
  by_cases hwin : f.isWin 2 = true
  · have hpay : LatchHas c.latch (s.sortAddr 2 4 i) 4 := by
      have h := all (n + i) (by rw [sortUnits, if_pos hwin]; omega)
      rwa [State.unitAt, unitSize, sortUnit, if_neg (by omega), Nat.add_sub_cancel_left] at h
    rw [if_pos hwin, if_pos hwin, hget 2 4 hpay]
  · rw [if_neg hwin, if_neg hwin, Nat.zero_add]

theorem State.Loading.step (free : s.fh.earlier s.hand.seq = []) {j : Nat} (hn : n = soCount .soLd f)
    (hj : j < sortUnits f 1 n) {t : State} (h : s.Loading f n j t) :
    t.hand.performed = false ∧ s.Loading f n (j + 1) (t.soLdStep f) := by
  obtain ⟨c, rfl, hpos, hperf, hseq, hw, ok, has⟩ := h
  have hne : j ≠ sortUnits f 1 n := by omega
  rw [if_neg hne]
  refine ⟨by rw [State.sorting_hand, hperf]; simpa using hne, ?_⟩
  obtain ⟨l, hl, ok', mono, here⟩ :=
    State.sorting_latchRun (s := s) (cs := s.fh.ctxs) (x := s.fh.sa) ok (s.unitAt f n j) (unitSize f n j)
  have hread : (s.sorting s.fh.ctxs s.fh.scratch s.fh.sa c).sortRead f 1 n j =
      some (s.sorting s.fh.ctxs s.fh.scratch s.fh.sa { c with latch := l }) := by
    rw [State.sortRead]
    simp only [State.sorting_sortAddr hw]
    rw [State.entryReady_sorting (.start s) (by rw [hseq]; exact free), if_pos rfl]
    exact congrArg some hl
  have has' : ∀ i, i < j + 1 → LatchHas l (s.unitAt f n i) (unitSize f n i) := fun i hi => by
    rcases Nat.lt_succ_iff_lt_or_eq.1 hi with h | rfl
    · exact mono _ _ (has i h)
    · exact here
  rw [State.soLdStep, State.sorting_hand, hpos, ← hn, hread]
  dsimp only
  by_cases hlast : j + 1 = sortUnits f 1 n
  · have hload : s.fh.sa.load f (soRow0 f * 128) n
        ((s.sorting s.fh.ctxs s.fh.scratch s.fh.sa { c with latch := l }).sortCell f 1 0) =
        s.fh.sa.load f (soRow0 f * 128) n (s.cellAt f) :=
      SortArr.load_congr _ _ fun i hi => State.sortCell_read (c := { c with latch := l }) hw ok' (fun i hi' => has' i (by omega)) hi
    rw [beq_iff_eq.2 hlast, if_pos rfl, State.sorting_setSa, State.sorting_sa, hload, State.sorting_unitDone]
    exact ⟨{ c with latch := l, status := c.status ||| 0, bytes := c.bytes + 0, pos := j + 1, performed := true, logWait := false },
      by rw [if_pos hlast], rfl, (decide_eq_true hlast).symm, hseq, hw, ok', has'⟩
  · rw [beq_eq_false_iff_ne.2 hlast, if_neg Bool.false_ne_true, State.sorting_unitDone]
    exact ⟨{ c with latch := l, status := c.status ||| 0, bytes := c.bytes + 0, pos := j + 1, performed := false, logWait := false },
      by rw [if_neg hlast], rfl, (decide_eq_false hlast).symm, hseq, hw, ok', has'⟩

end Load

end Sys2Proof.Machine

/-! PROOFS. The sort array's stores and the order keys read back (O32; R66, R190). -/

namespace Sys2Proof.Machine

/-! ## Writes at listed addresses -/

/-- The last write at an address stands. -/
theorem Mem.read_writeAll_last (ks : List (Nat × Byte)) : ∀ (m : Mem) (x : Nat),
    (m.writeAll ks).read x = ((ks.reverse.find? fun p => p.1 == x).map (·.2)).getD (m.read x) := by
  induction ks with
  | nil => intro m x; rfl
  | cons k ks ih =>
    intro m x
    rw [show m.writeAll (k :: ks) = (m.write k.1 k.2).writeAll ks from rfl, ih, List.reverse_cons, List.find?_append]
    cases ks.reverse.find? fun p => p.1 == x with
    | some p => rfl
    | none =>
      rw [Mem.read_write, Option.none_or, List.find?_singleton]
      by_cases h : k.1 = x
      · simp [h]
      · rw [if_neg (Ne.symm h), if_neg (by simpa using h)]

theorem afterWrites_of {m m' : Mem} {ks : List (Nat × Byte)} (h : ∀ x, m'.read x = (m.writeAll ks).read x) :
    AfterWrites m m' ks := fun x => (h x).trans (Mem.read_writeAll_last ks m x)

theorem Mem.writeAll_append (m : Mem) (ks js : List (Nat × Byte)) : m.writeAll (ks ++ js) = (m.writeAll ks).writeAll js :=
  List.foldl_append ..

/-- At an address only the writes at it count. -/
theorem Mem.read_writeAll_congr {m m' : Mem} {ks js : List (Nat × Byte)} {x : Nat} (hm : m.read x = m'.read x)
    (h : ks.filter (fun p => p.1 == x) = js.filter fun p => p.1 == x) : (m.writeAll ks).read x = (m'.writeAll js).read x := by
  rw [Mem.read_writeAll_last, Mem.read_writeAll_last, hm, ← List.head?_filter, ← List.head?_filter, List.filter_reverse,
    List.filter_reverse, h]

/-- Of writes chosen by address, those at one address are all or none. -/
theorem filter_address (ks : List (Nat × Byte)) (f : Nat → Bool) (x : Nat) :
    (ks.filter fun p => p.1 == x && f p.1) = if f x then ks.filter fun p => p.1 == x else [] := by
  have h : (fun p : Nat × Byte => p.1 == x && f p.1) = fun p => p.1 == x && f x := by
    funext p
    cases hp : p.1 == x with
    | true => rw [beq_iff_eq.1 hp]
    | false => rfl
  rw [h]
  cases f x <;> simp

/-- Writes may be put off by address: those of an address stay in order. -/
theorem Mem.read_writeAll_partition (m : Mem) (ks : List (Nat × Byte)) (late : Nat → Bool) (x : Nat) :
    ((m.writeAll (ks.partition fun k => late k.1).2).writeAll (ks.partition fun k => late k.1).1).read x =
      (m.writeAll ks).read x := by
  rw [← Mem.writeAll_append, List.partition_eq_filter_filter]
  refine Mem.read_writeAll_congr rfl ?_
  rw [List.filter_append, List.filter_filter, List.filter_filter]
  have hnow : (ks.filter fun p => p.1 == x && (not ∘ fun k : Nat × Byte => late k.1) p) = _ :=
    filter_address ks (fun a => !late a) x
  rw [filter_address ks late x, hnow]
  cases late x <;> simp

/-- The bytes of a number, written at successive addresses. -/
theorem bytesAt_leBytes (a n v : Nat) : bytesAt a (leBytes n v) = bytesOf a n v := by
  refine List.ext_getElem (by simp [bytesAt, bytesOf]) fun i h1 h2 => ?_
  simp [bytesAt, bytesOf, getElem_leBytes]

/-! ## Stores (R190) -/

section Store
variable (s : State) (f : CmdF) (n : Nat)

/-- The number that unit `j` of a store writes. -/
def State.unitVal (j : Nat) : Nat :=
  let u := sortUnit f 1 n j
  if u.1 = 0 then orderUnkey f.typ (s.fh.sa.cell u.2.2.2).key.toNat else (s.fh.sa.cell u.2.2.2).pay.toNat

/-- What the first `j` units of a store write. -/
def State.unitWrites (j : Nat) : List (Nat × Byte) :=
  (List.range j).flatMap fun i => bytesOf (s.unitAt f n i) (unitSize f n i) (s.unitVal f n i)

theorem State.unitWrites_succ (j : Nat) :
    s.unitWrites f n (j + 1) = s.unitWrites f n j ++ bytesOf (s.unitAt f n j) (unitSize f n j) (s.unitVal f n j) := by
  rw [unitWrites, List.range_succ, List.flatMap_append, List.flatMap_singleton]; rfl

/-- All units of a store write the keys, and then the payloads. -/
theorem State.unitWrites_all : s.unitWrites f n (sortUnits f 1 n) =
    ((List.range n).flatMap fun i => bytesOf (s.sortAddr 1 f.typ.bytes i) f.typ.bytes
      (orderUnkey f.typ (s.fh.sa.cell i).key.toNat)) ++
    if f.isWin 2 then (List.range n).flatMap fun i => bytesOf (s.sortAddr 2 4 i) 4 (s.fh.sa.cell i).pay.toNat else [] := by
  have hkeys : s.unitWrites f n n = (List.range n).flatMap fun i => bytesOf (s.sortAddr 1 f.typ.bytes i) f.typ.bytes
      (orderUnkey f.typ (s.fh.sa.cell i).key.toNat) := by
    refine List.flatMap_congr fun i hi => ?_
    have hin : i < n := List.mem_range.1 hi
    simp only [State.unitAt, unitSize, State.unitVal, sortUnit, if_pos hin, if_true]
  rw [sortUnits]
  split
  · rw [Nat.two_mul, unitWrites, List.range_add, List.flatMap_append, List.flatMap_map]
    refine congrArg₂ _ hkeys (List.flatMap_congr fun i _ => ?_)
    simp only [State.unitAt, unitSize, State.unitVal, sortUnit, if_neg (show ¬ n + i < n by omega), Nat.add_sub_cancel_left,
      Nat.one_ne_zero, if_false]
  · rw [hkeys, List.append_nil]

/-- A command that has written the first `j` units of a store of `n` cells, but for bytes that wait for later units. -/
def State.Storing (j : Nat) (t : State) : Prop := ∃ cs m c, t = s.sorting cs m s.fh.sa c ∧ CtxsOf s cs ∧
  c.pos = j ∧ c.performed = decide (j = sortUnits f 1 n) ∧ c.seq = s.hand.seq ∧ c.wins = s.hand.wins ∧
  (∀ x, (m.writeAll c.late).read x = (s.fh.scratch.writeAll (s.unitWrites f n j)).read x) ∧
  (j = sortUnits f 1 n → c.late = [])

variable {s f n}

/-- Behind the last unit nothing is left to write. -/
theorem State.soStRest_last (t : State) : t.soStRest f n (sortUnits f 1 n) = [] := by
  rw [State.soStRest, sortUnits]
  by_cases h : f.isWin 2 = true
  · simp only [h, if_true, show ¬ 2 * n < n by omega, show 2 * n - n = n by omega, Nat.lt_irrefl, if_false, List.append_nil]
  · simp [h]

/-- A command's writes, of which those that a later run meets wait. -/
theorem State.sorting_putLate {cs : Vector Ctx 4} {m : Mem} {x : SortArr} {c : Cmd} (h : CtxsOf s cs) (ks : List (Nat × Byte))
    (later : List (Nat × Nat)) : ∃ cs', CtxsOf s cs' ∧ (s.sorting cs m x c).putLate ks later =
      s.sorting cs' (m.writeAll ((c.late ++ ks).partition fun k => ivsGran later (k.1 / 64)).2) x
        { c with late := ((c.late ++ ks).partition fun k => ivsGran later (k.1 / 64)).1 } := by
  obtain ⟨cs', hcs', e⟩ := State.sorting_scratchWrites (x := x) (m := m) (c := c) h
    ((c.late ++ ks).partition fun k => ivsGran later (k.1 / 64)).2
  refine ⟨cs', hcs', ?_⟩
  rw [State.putLate, State.sorting_hand, e, State.sorting_setHand]

theorem State.Storing.step (free : s.fh.earlier s.hand.seq = []) {j : Nat} (hn : n = soCount .soSt f)
    (hj : j < sortUnits f 1 n) {t : State} (h : s.Storing f n j t) :
    t.hand.performed = false ∧ s.Storing f n (j + 1) (t.soStStep f) := by
  obtain ⟨cs, m, c, rfl, hcs, hpos, hperf, hseq, hw, hmem, -⟩ := h
  refine ⟨by rw [State.sorting_hand, hperf]; simp; omega, ?_⟩
  have hready : (s.sorting cs m s.fh.sa c).entryReady (sortUnit f 1 n j).1 (s.unitAt f n j)
      (s.unitAt f n j + unitSize f n j - 1) = true := State.entryReady_sorting hcs (by rw [hseq]; exact free) ..
  have haddr : (s.sorting cs m s.fh.sa c).sortAddr (sortUnit f 1 n j).2.1 (sortUnit f 1 n j).2.2.1 (sortUnit f 1 n j).2.2.2 =
      s.unitAt f n j := State.sorting_sortAddr hw ..
  rw [State.soStStep]
  simp only [State.sorting_hand, hpos, ← hn, haddr, State.sorting_sa]
  rw [show (sortUnit f 1 n j).2.2.1 = unitSize f n j from rfl, hready, if_neg (by simp), bytesAt_leBytes]
  generalize (s.sorting cs m s.fh.sa c).soStRest f n 0 = run
  have hrest : j + 1 = sortUnits f 1 n → (s.sorting cs m s.fh.sa c).soStRest f n (j + 1) = [] := fun h => by
    rw [h]; exact State.soStRest_last _
  generalize (s.sorting cs m s.fh.sa c).soStRest f n (j + 1) = rest at hrest ⊢
  obtain ⟨cs', hcs', e⟩ := State.sorting_putLate (m := m) (x := s.fh.sa) (c := c) hcs
    (bytesOf (s.unitAt f n j) (unitSize f n j) (s.unitVal f n j)) rest
  rw [show (if (sortUnit f 1 n j).1 = 0 then orderUnkey f.typ (s.fh.sa.cell (sortUnit f 1 n j).2.2.2).key.toNat
    else (s.fh.sa.cell (sortUnit f 1 n j).2.2.2).pay.toNat) = s.unitVal f n j from rfl, e, State.sorting_hand,
    State.sorting_setHand, State.sorting_unitDone]
  refine ⟨cs', _, _, rfl, hcs', rfl, rfl, hseq, hw, fun x => ?_, fun h => ?_⟩
  · refine (Mem.read_writeAll_partition m _ (fun a => ivsGran rest (a / 64)) x).trans ?_
    rw [State.unitWrites_succ, Mem.writeAll_append, Mem.writeAll_append]
    exact Mem.read_writeAll_congr (hmem x) rfl
  · refine (congrArg Prod.fst (List.partition_eq_filter_filter ..)).trans (List.filter_eq_nil_iff.2 fun p _ => ?_)
    rw [hrest h]; simp [ivsGran]

/-- What a completed instruction gives, weakened. -/
theorem Completes.imp {i : Instr} {s : State} {P Q : State → Prop} (h : Completes i s P) (hpq : ∀ t, P t → Q t) : Completes i s Q :=
  Exists.imp (fun t ⟨ht, hp⟩ => ⟨ht, hpq t hp⟩) h

/-- `so.st` writes its keys, and then its payloads. -/
theorem sortArrayStores (f : CmdF) (s : State) (start : FromStart s (2 * soCount .soSt f)) (some : 0 < soCount .soSt f) :
    Completes (.soSt f) s fun t => AfterWrites s.fh.scratch t.fh.scratch
      (s.unitWrites f (soCount .soSt f) (sortUnits f 1 (soCount .soSt f))) ∧ t.fh.sa = s.fh.sa ∧ SortFrame s t := by
  obtain ⟨quota, pos, perf, -, late, free⟩ := start
  have hexec : exec (.soSt f) s = .next (s.units fun t => t.soStStep f) := rfl
  refine completes_of hexec ?_
  have hle : sortUnits f 1 (soCount .soSt f) ≤ s.fh.quota := by rw [sortUnits]; split <;> omega
  have hpos : 0 < sortUnits f 1 (soCount .soSt f) := by rw [sortUnits]; split <;> omega
  have run := State.units_induct (u := fun t => t.soStStep f) (s.Storing f (soCount .soSt f)) hle
    ⟨s.fh.ctxs, s.fh.scratch, s.hand, s.sorting_start.symm, .start s, pos, by rw [perf]; exact (decide_eq_false (by omega)).symm,
      rfl, rfl, fun x => by rw [late]; rfl, fun _ => late⟩
    (fun j t hj h => h.step free rfl hj)
    (fun t h => by obtain ⟨_, _, c, rfl, -, -, hp, -⟩ := h; rw [State.sorting_hand, hp]; simp)
  obtain ⟨cs, m, c, e, hcs, -, hperf, -, -, hmem, hlate⟩ := run
  rw [e]
  refine ⟨afterWrites_of fun x => ?_, by rw [State.sorting_fh], State.sortFrame_sorting hcs (by rw [hperf]; simp)⟩
  rw [State.sorting_scratch, ← hmem x, hlate rfl]; rfl

end Store

/-! ## Loads (R187) -/

theorem soLd_base_toNat (f : CmdF) (i : Nat) : (BitVec.ofNat 32 (sortBase f 2 i)).toNat =
    (if f.sat then max 0 (min (f.imm18 2 + (i : Int)) (2 ^ 32 - 1)) else (f.imm18 2 + (i : Int)) % 2 ^ 32).toNat := by
  have h1 : Ty.uint32.minInt = 0 := rfl
  have h2 : Ty.uint32.maxInt = 2 ^ 32 - 1 := rfl
  have h3 : Ty.uint32.width = 32 := rfl
  rw [sortBase, Ty.fit, h1, h2, h3, ofInt, BitVec.toNat_ofNat]
  split <;> omega

/-- `so.ld` loads its elements' cells. -/
theorem sortArrayLoads (f : CmdF) (s : State) (start : FromStart s (2 * soCount .soLd f)) (some : 0 < soCount .soLd f) :
    Completes (.soLd f) s fun t => t.fh.sa = s.fh.sa.load f (soRow0 f * 128) (soCount .soLd f) (s.cellAt f) ∧
      t.fh.scratch = s.fh.scratch ∧ SortFrame s t := by
  obtain ⟨quota, pos, perf, latch, -, free⟩ := start
  have hexec : exec (.soLd f) s = .next (s.units fun t => t.soLdStep f) := rfl
  refine completes_of hexec ?_
  have hle : sortUnits f 1 (soCount .soLd f) ≤ s.fh.quota := by rw [sortUnits]; split <;> omega
  have hpos : 0 ≠ sortUnits f 1 (soCount .soLd f) := by rw [sortUnits]; split <;> omega
  have run := State.units_induct (u := fun t => t.soLdStep f) (s.Loading f (soCount .soLd f)) hle
    ⟨s.hand, by rw [if_neg hpos]; exact s.sorting_start.symm, pos, by rw [perf]; exact (decide_eq_false hpos).symm,
      rfl, rfl, fun p hp => by rw [latch] at hp; exact absurd hp List.not_mem_nil, fun i hi => absurd hi (Nat.not_lt_zero i)⟩
    (fun j t hj h => h.step free rfl hj)
    (fun t h => by obtain ⟨c, rfl, -, hp, -⟩ := h; rw [State.sorting_hand, hp]; simp)
  obtain ⟨c, e, -, hperf, -⟩ := run
  rw [e, if_pos rfl]
  exact ⟨by rw [State.sorting_fh], State.sorting_scratch, State.sortFrame_sorting (.start s) (by rw [hperf]; simp)⟩

/-- The cells after a load: the elements', and behind the last the padding. -/
theorem loaded_cell (f : CmdF) (s : State) (j : Fin 16384) :
    let n := soCount .soLd f
    let first := soRow0 f * 128
    let c := (s.fh.sa.load f first n (s.cellAt f)).cells[j]
    (j.val < first → c = s.fh.sa.cells[j]) ∧
    (first ≤ j.val → j.val < first + n →
      c.key = BitVec.ofNat 32 (orderKey f.typ (leNat (s.fh.scratch.bytes (s.sortAddr 1 f.typ.bytes (j.val - first)) f.typ.bytes))) ∧
      c.pay.toNat = if f.isWin 2 then leNat (s.fh.scratch.bytes (s.sortAddr 2 4 (j.val - first)) 4) else
        (if f.sat then max 0 (min (f.imm18 2 + ((j.val - first : Nat) : Int)) (2 ^ 32 - 1))
          else (f.imm18 2 + ((j.val - first : Nat) : Int)) % 2 ^ 32).toNat) ∧
    (first + n ≤ j.val → c.pay = 0xFFFFFFFF#32 ∧ c.key = if f.kind 4 = 8 ∧ f.pay 4 % 2 = 1 then 0 else 0xFFFFFFFF#32) := by
  intro n first c
  have hc : c = if first + n ≤ j.val then
        (if f.pay 4 % 2 = 1 && f.kind 4 = 8 then ⟨0, 0xFFFFFFFF#32⟩ else ⟨0xFFFFFFFF#32, 0xFFFFFFFF#32⟩ : SCell)
      else if first ≤ j.val then s.cellAt f (j.val - first) else s.fh.sa.cells[j] := Vector.getElem_ofFn ..
  clear_value c
  subst hc
  refine ⟨fun h => ?_, fun h h' => ?_, fun h => ?_⟩
  · rw [if_neg (by omega), if_neg (by omega)]
  · rw [if_neg (by omega), if_pos h]
    refine ⟨rfl, ?_⟩
    rw [State.cellAt]
    by_cases hw : f.isWin 2 = true
    · rw [if_pos hw, if_pos hw, BitVec.toNat_ofNat, Nat.mod_eq_of_lt]
      simpa using leNat_lt (s.fh.scratch.bytes (s.sortAddr 2 4 (j.val - first)) 4)
    · rw [if_neg hw, if_neg hw]
      exact soLd_base_toNat f _
  · rw [if_pos h]
    by_cases hdesc : f.kind 4 = 8 ∧ f.pay 4 % 2 = 1
    · rw [if_pos (by simp [hdesc]), if_pos hdesc]
      exact ⟨rfl, rfl⟩
    · rw [if_neg (by rw [Bool.and_eq_true, decide_eq_true_iff, decide_eq_true_iff]; exact fun h => hdesc h.symm), if_neg hdesc]
      exact ⟨rfl, rfl⟩

/-! ## Order keys (R66) -/

/-- The sign bit of a number of `2h` values, and what lies below it. -/
theorem orderKey_cancels {h bits : Nat} (hb : bits < 2 * h) :
    ((bits + h) % (2 * h) % (2 * h) + h) % (2 * h) = bits ∧
    (bits / h % 2 = 0 → (bits % (2 * h) + h) % (2 * h) / h % 2 = 1 ∧ (bits % (2 * h) + h) % (2 * h) - h = bits) ∧
    (bits / h % 2 ≠ 0 → (2 * h - 1 - bits % (2 * h)) % (2 * h) / h % 2 = 0 ∧
      2 * h - 1 - (2 * h - 1 - bits % (2 * h)) % (2 * h) = bits) := by
  have hpos : 0 < h := by omega
  have hmod : bits % (2 * h) = bits := Nat.mod_eq_of_lt hb
  rcases Nat.lt_or_ge bits h with hlt | hge
  · have h0 : bits / h = 0 := Nat.div_eq_of_lt hlt
    have h1 : (bits + h) % (2 * h) = bits + h := Nat.mod_eq_of_lt (by omega)
    have h2 : (bits + h) / h = 1 := by rw [Nat.add_div_right _ hpos, h0]
    refine ⟨?_, fun _ => ?_, fun hne => absurd (by rw [h0]) hne⟩
    · rw [h1, h1, show bits + h + h = bits + 2 * h by omega, Nat.add_mod_right, hmod]
    · rw [hmod, h1, h2]; omega
  · have h0 : bits / h = 1 := by
      rw [show bits = bits - h + h by omega, Nat.add_div_right _ hpos, Nat.div_eq_of_lt (by omega)]
    refine ⟨?_, fun he => absurd he (by rw [h0]; decide), fun _ => ?_⟩
    · rw [show bits + h = bits - h + 2 * h by omega, Nat.add_mod_right, Nat.mod_mod, Nat.mod_eq_of_lt (a := bits - h) (by omega),
        Nat.sub_add_cancel hge, hmod]
    · rw [hmod, Nat.mod_eq_of_lt (a := 2 * h - 1 - bits) (by omega), Nat.div_eq_of_lt (a := 2 * h - 1 - bits) (by omega)]
      omega

/-- The order key of a key read back is the key. -/
theorem orderUnkey_orderKey (t : Ty) {bits : Nat} (hb : bits < 2 ^ t.width) : orderUnkey t (orderKey t bits) = bits := by
  have hw : 2 ^ t.width = 2 * 2 ^ (t.width - 1) := by
    have : 0 < t.width := by cases t <;> decide
    rw [← Nat.pow_succ', Nat.succ_eq_add_one, Nat.sub_add_cancel this]
  rw [orderUnkey, orderKey]
  rw [hw] at hb ⊢
  obtain ⟨hint, hlow, hhigh⟩ := orderKey_cancels hb
  split
  · rw [Nat.mod_mod, Nat.mod_eq_of_lt hb]
  · split
    · exact hint
    · by_cases hs : bits / 2 ^ (t.width - 1) % 2 = 0
      · rw [if_pos hs, if_pos (hlow hs).1, (hlow hs).2]
      · rw [if_neg hs, if_neg (by rw [(hhigh hs).1]; decide), (hhigh hs).2]

/-- Claim of O32 about loads and stores. -/
theorem sortLoadsAndStoresElements : Claims.SortLoadsAndStoresElements := by
  intro f s
  refine ⟨fun start some _ => (sortArrayLoads f s start some).imp fun t ⟨hsa, hscr, hfr⟩ => ?_,
    fun start some _ => (sortArrayStores f s start some).imp fun t ⟨hmem, hsa, hfr⟩ => ?_,
    fun bits _ hb => orderUnkey_orderKey f.typ hb⟩
  · rw [hsa]
    exact ⟨fun j => loaded_cell f s j, rfl, rfl, rfl, rfl, rfl, hscr, hfr⟩
  · rw [State.unitWrites_all] at hmem
    exact ⟨hmem, hsa, hfr⟩

end Sys2Proof.Machine

/-! PROOFS. The sort array's save and restore (O32; R37, R194), and the obligation from its parts. -/

namespace Sys2Proof.Machine

/-! ## Byte runs and lists of equal parts -/

/-- A part of a byte run. -/
theorem Mem.take_drop_bytes (m : Mem) (a n i k : Nat) (h : i + k ≤ n) : ((m.bytes a n).drop i).take k = m.bytes (a + i) k := by
  refine List.ext_getElem (by simp; omega) fun j h1 h2 => ?_
  rw [List.getElem_take, List.getElem_drop, Mem.getElem_bytes, Mem.getElem_bytes, Nat.add_assoc]

/-- The parts of a concatenation of lists of one length. -/
theorem take_drop_flatMap_range {α : Type} (f : Nat → List α) {k n i : Nat} (hk : ∀ j, (f j).length = k) (hi : i < n) :
    (((List.range n).flatMap f).drop (k * i)).take k = f i := by
  obtain ⟨m, rfl⟩ : ∃ m, n = i + (1 + m) := ⟨n - i - 1, by omega⟩
  have hlen : ((List.range i).flatMap f).length = k * i := by
    simp [List.length_flatMap, hk, Nat.mul_comm]
  rw [List.range_add, List.flatMap_append, List.drop_left' hlen, List.range_add, List.map_append, List.flatMap_append,
    List.take_left' (by simp [hk])]
  simp

/-! ## Saves (R194) -/

section Save

/-- Granule `g` of a saved array. -/
def SortArr.block (x : SortArr) (g : Nat) : List Byte := if g == 2048 then leBytes 64 x.control else x.cellBytes g

theorem SortArr.length_block (x : SortArr) (g : Nat) : (x.block g).length = 64 := by
  rw [SortArr.block, SortArr.cellBytes]
  split <;> simp [List.length_flatMap]

/-- The key and the payload of a cell in its granule. -/
theorem SortArr.cellBytes_part (x : SortArr) (g : Nat) {i : Nat} (hi : i < 8) :
    ((x.cellBytes g).drop (8 * i)).take 8 = leBytes 4 (x.cell (8 * g + i)).key.toNat ++ leBytes 4 (x.cell (8 * g + i)).pay.toNat :=
  take_drop_flatMap_range (fun i => leBytes 4 (x.cell (8 * g + i)).key.toNat ++ leBytes 4 (x.cell (8 * g + i)).pay.toNat)
    (fun _ => by simp) hi

variable (s : State)

/-- A command that has saved the first `j` granules. -/
def State.Saving (j : Nat) (t : State) : Prop := ∃ cs m c, t = s.sorting cs m s.fh.sa c ∧ CtxsOf s cs ∧
  c.pos = j ∧ c.performed = decide (j = 2049) ∧ c.seq = s.hand.seq ∧ c.wins = s.hand.wins ∧
  c.bytes = s.hand.bytes + (if j = 2049 then 131136 else 0) ∧
  (∀ g, g < j → m.bytes ((s.hand.win 1).a0 + 64 * g) 64 = s.fh.sa.block g) ∧
  SameOutside (s.hand.win 1).a0 131136 s.fh.scratch m

variable {s}

theorem State.sorting_win {cs : Vector Ctx 4} {m : Mem} {x : SortArr} {c : Cmd} (hw : c.wins = s.hand.wins) (i : Nat) :
    (s.sorting cs m x c).hand.win i = s.hand.win i := by
  rw [State.sorting_hand, Cmd.win, Cmd.win, hw]

theorem State.Saving.step (free : s.fh.earlier s.hand.seq = []) {j : Nat} (hj : j < 2049) {t : State} (h : s.Saving j t) :
    t.hand.performed = false ∧ s.Saving (j + 1) t.soSaveStep := by
  obtain ⟨cs, m, c, rfl, hcs, hpos, hperf, hseq, hw, hbytes, hblocks, hout⟩ := h
  refine ⟨by rw [State.sorting_hand, hperf]; simp; omega, ?_⟩
  have hlen := s.fh.sa.length_block j
  obtain ⟨cs', hcs', e⟩ := State.sorting_scratchPut (m := m) (x := s.fh.sa) (c := c) hcs ((s.hand.win 1).a0 + 64 * j)
    (s.fh.sa.block j)
  have hlast : (j == 2048) = decide (j + 1 = 2049) := by
    rw [Bool.eq_iff_iff]; simp
  have hstep (d : Cmd) (hd : d.seq = c.seq ∧ d.wins = c.wins ∧ d.bytes = c.bytes) :
      s.Saving (j + 1) ((s.sorting cs' (m.store ((s.hand.win 1).a0 + 64 * j) (s.fh.sa.block j)) s.fh.sa d).unitDone 0
        (if j == 2048 then 131136 else 0) (j + 1) (j == 2048)) := by
    obtain ⟨dseq, dwins, dbytes⟩ := hd
    rw [State.sorting_unitDone]
    refine ⟨cs', _, _, rfl, hcs', rfl, hlast, dseq.trans hseq, dwins.trans hw, ?_, fun g hg => ?_, fun x hx => ?_⟩
    · show d.bytes + _ = _
      rw [dbytes, hbytes, if_neg (by omega), hlast]
      simp
    · rcases Nat.lt_succ_iff_lt_or_eq.1 hg with hlt | rfl
      · rw [Mem.bytes_store_apart _ _ _ (by omega)]; exact hblocks g hlt
      · rw [← hlen]; exact Mem.bytes_store_self ..
    · rw [Mem.sameOutside_store _ _ _ (by omega)]; exact hout x hx
  rw [State.soSaveStep, State.sorting_win hw, State.sorting_hand, hpos,
    State.entryReady_sorting hcs (by rw [hseq]; exact free), if_neg (by simp), State.sorting_sa]
  dsimp only
  rw [show (if (j == 2048) = true then leBytes 64 s.fh.sa.control else s.fh.sa.cellBytes j) = s.fh.sa.block j from rfl, e]
  split
  · rw [State.sorting_hand, State.sorting_setHand]
    exact hstep _ ⟨rfl, rfl, rfl⟩
  · exact hstep c ⟨rfl, rfl, rfl⟩

/-- `so.save` writes the granules of a saved array. -/
theorem sortArraySaves (f : CmdF) (s : State) (start : FromStart s 2049) : Completes (.soSave f) s fun t =>
    (∀ g, g < 2049 → t.fh.scratch.bytes ((s.hand.win 1).a0 + 64 * g) 64 = s.fh.sa.block g) ∧
    SameOutside (s.hand.win 1).a0 131136 s.fh.scratch t.fh.scratch ∧ t.fh.sa = s.fh.sa ∧
    t.hand.bytes = s.hand.bytes + 131136 ∧ SortFrame s t := by
  obtain ⟨quota, pos, perf, -, -, free⟩ := start
  have hexec : exec (.soSave f) s = .next (s.units State.soSaveStep) := rfl
  refine completes_of hexec ?_
  have run := State.units_induct (u := State.soSaveStep) s.Saving quota
    ⟨s.fh.ctxs, s.fh.scratch, s.hand, s.sorting_start.symm, .start s, pos, perf, rfl, rfl, rfl,
      fun g hg => absurd hg (Nat.not_lt_zero g), fun _ _ => rfl⟩
    (fun j t hj h => h.step free hj)
    (fun t h => by obtain ⟨_, _, c, rfl, -, -, hp, -⟩ := h; rw [State.sorting_hand, hp]; rfl)
  obtain ⟨cs, m, c, e, hcs, -, hperf, -, -, hbytes, hblocks, hout⟩ := run
  rw [e, State.sorting_scratch, State.sorting_hand]
  exact ⟨hblocks, hout, by rw [State.sorting_fh], hbytes, State.sortFrame_sorting hcs hperf⟩

/-- The cells as a saved array's bytes give them. -/
theorem saved_cell {m : Mem} {a0 : Nat} {x : SortArr} (h : ∀ g, g < 2049 → m.bytes (a0 + 64 * g) 64 = x.block g) (j : Fin 16384) :
    leNat (m.bytes (a0 + 8 * j.val) 4) = (x.cells[j]).key.toNat ∧ leNat (m.bytes (a0 + 8 * j.val + 4) 4) = (x.cells[j]).pay.toNat := by
  have hj := j.isLt
  have hcell : x.cell (8 * (j.val / 8) + j.val % 8) = x.cells[j] := by
    rw [Nat.div_add_mod]
    exact congrArg (fun i : Fin 16384 => x.cells[i]) (Fin.ext (Nat.mod_eq_of_lt hj))
  have hblock : m.bytes (a0 + 8 * j.val) 8 = leBytes 4 (x.cells[j]).key.toNat ++ leBytes 4 (x.cells[j]).pay.toNat := by
    rw [← hcell, ← x.cellBytes_part (j.val / 8) (Nat.mod_lt _ (by decide)),
      show x.cellBytes (j.val / 8) = x.block (j.val / 8) by rw [SortArr.block, if_neg (by simp; omega)], ← h _ (by omega),
      Mem.take_drop_bytes _ _ _ _ _ (by omega)]
    congr 1; omega
  have key : m.bytes (a0 + 8 * j.val) 4 = leBytes 4 (x.cells[j]).key.toNat := by
    have h := m.take_drop_bytes (a0 + 8 * j.val) 8 0 4 (by decide)
    rw [hblock] at h
    simpa using h.symm
  have pay : m.bytes (a0 + 8 * j.val + 4) 4 = leBytes 4 (x.cells[j]).pay.toNat := by
    have h := m.take_drop_bytes (a0 + 8 * j.val) 8 4 4 (by decide)
    rw [hblock, List.drop_left' (by simp), List.take_of_length_le (by simp)] at h
    exact h.symm
  rw [key, pay, leNat_leBytes, leNat_leBytes]
  exact ⟨Nat.mod_eq_of_lt (x.cells[j]).key.isLt, Nat.mod_eq_of_lt (x.cells[j]).pay.isLt⟩

theorem SMode.code_lt (m : SMode) : m.code < 3 := by cases m <;> decide

theorem SortArr.control_lt (x : SortArr) : x.control < 2 ^ 64 := by
  have := x.smode.code_lt
  rw [SortArr.control]
  omega

/-- The control block's bytes give its number. -/
theorem saved_control {m : Mem} {a : Nat} {x : SortArr} (h : m.bytes a 64 = leBytes 64 x.control) : leNat (m.bytes a 64) = x.control := by
  rw [h, leNat_leBytes]
  exact Nat.mod_eq_of_lt (x.control_lt.trans (by norm_num))

end Save

/-! ## Restores (R194) -/

section Restore

theorem SortArr.restore_cells (x : SortArr) (b : BitVec 512) : (x.restore b).cells = x.cells := by
  rw [SortArr.restore]
  split <;> rfl

variable (s : State)

/-- A command that has restored the first `j` granules. -/
def State.Restoring (j : Nat) (t : State) : Prop := ∃ x c, t = s.sorting s.fh.ctxs s.fh.scratch x c ∧
  c.pos = j ∧ c.performed = decide (j = 2049) ∧ c.seq = s.hand.seq ∧ c.wins = s.hand.wins ∧ c.latch = [] ∧
  (∀ i : Fin 16384, i.val / 8 < j → x.cells[i] =
    ⟨BitVec.ofNat 32 (leNat (s.fh.scratch.bytes ((s.hand.win 1).a0 + 8 * i.val) 4)),
     BitVec.ofNat 32 (leNat (s.fh.scratch.bytes ((s.hand.win 1).a0 + 8 * i.val + 4) 4))⟩) ∧
  (j = 2049 → ∃ y : SortArr, x = y.restore (ofBytes512 (s.fh.scratch.bytes ((s.hand.win 1).a0 + 131072) 64)))

variable {s}

/-- With nothing latched, a command sees the scratchpad as it stands. -/
theorem State.sorting_seenRun {cs : Vector Ctx 4} {m : Mem} {x : SortArr} {c : Cmd} (hl : c.latch = []) (a n : Nat) :
    (s.sorting cs m x c).seenRun a n = m.bytes a n := by
  refine List.ext_getElem (by simp [State.seenRun]) fun i h1 h2 => ?_
  rw [Mem.getElem_bytes]
  simp only [State.seenRun, List.getElem_map, List.getElem_range, State.seenByte, State.sorting_hand, hl, List.find?_nil,
    State.sorting_scratch]

theorem State.Restoring.step (free : s.fh.earlier s.hand.seq = []) {j : Nat} (hj : j < 2049) {t : State} (h : s.Restoring j t) :
    t.hand.performed = false ∧ s.Restoring (j + 1) t.soRestStep := by
  obtain ⟨x, c, rfl, hpos, hperf, hseq, hw, hl, hcells, -⟩ := h
  refine ⟨by rw [State.sorting_hand, hperf]; simp; omega, ?_⟩
  rw [State.soRestStep, State.sorting_win hw, State.sorting_hand, hpos,
    State.entryReady_sorting (.start s) (by rw [hseq]; exact free), if_neg (by simp), State.sorting_sa, State.sorting_seenRun hl]
  dsimp only
  split
  · next h =>
    subst h
    rw [State.sorting_setSa, State.sorting_unitDone]
    refine ⟨_, _, rfl, rfl, rfl, hseq, hw, hl, fun i hi => ?_, fun _ => ⟨x, rfl⟩⟩
    rw [← hcells i (by omega)]
    exact congrArg (fun v : Vector SCell 16384 => v[i]) (SortArr.restore_cells ..)
  · next h =>
    rw [State.sorting_setSa, State.sorting_unitDone]
    refine ⟨_, _, rfl, rfl, (decide_eq_false (by omega)).symm, hseq, hw, hl, fun ⟨i, hlt⟩ hi => ?_, fun h' => absurd h' (by omega)⟩
    refine (Vector.getElem_ofFn ..).trans ?_
    dsimp only at hi ⊢
    split
    · next hi' =>
      rw [Mem.take_drop_bytes _ _ _ _ _ (by omega), Mem.take_drop_bytes _ _ _ _ _ (by omega)]
      congr 4 <;> omega
    · exact hcells ⟨i, hlt⟩ (by dsimp only; omega)

/-- `so.rest` reads the granules of a saved array. -/
theorem sortArrayRestores (f : CmdF) (s : State) (start : FromStart s 2049) : Completes (.soRest f) s fun t =>
    (∀ i : Fin 16384, t.fh.sa.cells[i] =
      ⟨BitVec.ofNat 32 (leNat (s.fh.scratch.bytes ((s.hand.win 1).a0 + 8 * i.val) 4)),
       BitVec.ofNat 32 (leNat (s.fh.scratch.bytes ((s.hand.win 1).a0 + 8 * i.val + 4) 4))⟩) ∧
    (∃ y : SortArr, t.fh.sa = y.restore (ofBytes512 (s.fh.scratch.bytes ((s.hand.win 1).a0 + 131072) 64))) ∧
    t.fh.scratch = s.fh.scratch ∧ SortFrame s t := by
  obtain ⟨quota, pos, perf, latch, -, free⟩ := start
  have hexec : exec (.soRest f) s = .next (s.units State.soRestStep) := rfl
  refine completes_of hexec ?_
  have run := State.units_induct (u := State.soRestStep) s.Restoring quota
    ⟨s.fh.sa, s.hand, s.sorting_start.symm, pos, perf, rfl, rfl, latch, fun i hi => absurd hi (Nat.not_lt_zero _),
      fun h => absurd h (by decide)⟩
    (fun j t hj h => h.step free hj)
    (fun t h => by obtain ⟨_, c, rfl, -, hp, -⟩ := h; rw [State.sorting_hand, hp]; rfl)
  obtain ⟨x, c, e, -, hperf, -, -, -, hcells, hrest⟩ := run
  rw [e, show (s.sorting s.fh.ctxs s.fh.scratch x c).fh.sa = x by rw [State.sorting_fh]]
  exact ⟨fun i => hcells i (by omega), hrest rfl, State.sorting_scratch, State.sortFrame_sorting (.start s) hperf⟩

/-- The bits of a block of 64 bytes. -/
theorem bitsN_ofBytes512 {bs : List Byte} (h : bs.length = 64) (lo n : Nat) :
    bitsN (ofBytes512 bs) lo n = leNat bs / 2 ^ lo % 2 ^ n := by
  have hlt : leNat bs < 2 ^ 512 := by
    have := leNat_lt bs
    rw [h] at this
    rwa [show (256 : Nat) = 2 ^ 8 from rfl, ← Nat.pow_mul] at this
  rw [bitsN, ofBytes512, BitVec.toNat_ofNat, Nat.mod_eq_of_lt hlt]

/-- A control block that is not well-formed (R194). -/
def BadControl (b : BitVec 512) : Prop :=
  bitsN b 7 3 ≠ 0 ∨ bitsN b 21 11 ≠ 0 ∨ bitsN b 64 448 ≠ 0 ∨ 17 < bitsN b 0 5 ∨ bitsN b 5 2 = 3 ∨ 2 ^ 20 < bitsN b 32 21 ∨
    1024 < bitsN b 10 11 ∨ bitsN b 10 11 < bitsN b 53 11 ∨ bitsN b 32 21 < bitsN b 53 11 ∨ (bitsN b 5 2 = 2 ∧ bitsN b 10 11 = 0)

theorem SortArr.restore_eq (x : SortArr) (b : BitVec 512) [Decidable (BadControl b)] :
    x.restore b = if BadControl b then x.fresh .idle else
      { x with phase := bitsN b 0 5, tkk := bitsN b 10 11, tkcount := bitsN b 32 21, tkn := bitsN b 53 11,
               smode := if bitsN b 5 2 = 0 then .idle else if bitsN b 5 2 = 1 then .sort else .topk } := by
  rw [SortArr.restore]
  refine if_congr ?_ rfl rfl
  simp only [BadControl, Bool.or_eq_true, Bool.and_eq_true, decide_eq_true_eq, or_assoc]

/-- A malformed block restores the idle state, another its fields. -/
theorem SortArr.restore_spec (x : SortArr) (b : BitVec 512) :
    (BadControl b → (x.restore b).phase = 0 ∧ (x.restore b).smode = .idle ∧ (x.restore b).tkcount = 0 ∧
      (x.restore b).tkk = 0 ∧ (x.restore b).tkn = 0) ∧
    (¬ BadControl b → (x.restore b).phase = bitsN b 0 5 ∧ (x.restore b).smode.code = bitsN b 5 2 ∧
      (x.restore b).tkk = bitsN b 10 11 ∧ (x.restore b).tkcount = bitsN b 32 21 ∧ (x.restore b).tkn = bitsN b 53 11) := by
  classical
  rw [SortArr.restore_eq]
  refine ⟨fun h => ?_, fun h => ?_⟩
  · rw [if_pos h]; exact ⟨rfl, rfl, rfl, rfl, rfl⟩
  · rw [if_neg h]
    refine ⟨rfl, ?_, rfl, rfl, rfl⟩
    have h3 : bitsN b 5 2 ≠ 3 := fun e => h (by simp [BadControl, e])
    have h4 : bitsN b 5 2 < 4 := bitsN_lt b 5 2
    show SMode.code (if bitsN b 5 2 = 0 then .idle else if bitsN b 5 2 = 1 then .sort else .topk) = bitsN b 5 2
    by_cases h0 : bitsN b 5 2 = 0
    · rw [if_pos h0, h0]; rfl
    · by_cases h1 : bitsN b 5 2 = 1
      · rw [if_neg h0, if_pos h1, h1]; rfl
      · rw [if_neg h0, if_neg h1, SMode.code]; omega

/-- The fields of a control block. -/
theorem bitsN_control (y : SortArr) (phase : y.phase ≤ 17) (tkcount : y.tkcount ≤ 2 ^ 20) (tkk : y.tkk ≤ 1024)
    (tkn : y.tkn ≤ y.tkk) :
    let b := BitVec.ofNat 512 y.control
    bitsN b 7 3 = 0 ∧ bitsN b 21 11 = 0 ∧ bitsN b 64 448 = 0 ∧ bitsN b 0 5 = y.phase ∧ bitsN b 5 2 = y.smode.code ∧
      bitsN b 10 11 = y.tkk ∧ bitsN b 32 21 = y.tkcount ∧ bitsN b 53 11 = y.tkn := by
  intro b
  have hb : b.toNat = y.phase + y.smode.code * 2 ^ 5 + y.tkk * 2 ^ 10 + y.tkcount * 2 ^ 32 + y.tkn * 2 ^ 53 := by
    rw [BitVec.toNat_ofNat, Nat.mod_eq_of_lt (y.control_lt.trans (Nat.pow_lt_pow_right (by decide) (by decide))), SortArr.control]
    omega
  have hc := y.smode.code_lt
  clear_value b
  have h64 : bitsN b 64 448 = 0 := by
    rw [bitsN, Nat.div_eq_of_lt (by omega), Nat.zero_mod]
  refine ⟨?_, ?_, h64, ?_, ?_, ?_, ?_, ?_⟩ <;> rw [bitsN, hb] <;> omega

/-- The control block of an array in order restores it. -/
theorem SortArr.restore_control (y : SortArr) (phase : y.phase ≤ 17) (tkcount : y.tkcount ≤ 2 ^ 20) (tkk : y.tkk ≤ 1024)
    (tkn : y.tkn ≤ y.tkk) (tkn' : y.tkn ≤ y.tkcount) (topk : y.smode = .topk → y.tkk ≠ 0) :
    y.restore (BitVec.ofNat 512 y.control) = y := by
  classical
  have hc := y.smode.code_lt
  obtain ⟨h7, h21, h64, h0, h5, h10, h32, h53⟩ := bitsN_control y phase tkcount tkk tkn
  have hgood : ¬ BadControl (BitVec.ofNat 512 y.control) := by
    rw [BadControl, h7, h21, h64, h0, h5, h10, h32, h53]
    have htop : ¬ (y.smode.code = 2 ∧ y.tkk = 0) := fun ⟨hm, hk⟩ => by
      refine topk ?_ hk
      revert hm
      cases y.smode <;> simp [SMode.code]
    omega
  have hmode : (if y.smode.code = 0 then .idle else if y.smode.code = 1 then .sort else .topk : SMode) = y.smode := by
    cases y.smode <;> rfl
  rw [SortArr.restore_eq, if_neg hgood, h0, h5, h10, h32, h53, hmode]

end Restore

/-! ## The claims -/

/-- Claim of O32 about saving, restoring and clearing. -/
theorem sortArraySavesRestoresAndClears : Claims.SortArraySavesRestoresAndClears := by
  intro f s x a0 mode ctl bits bad
  have hmode (m : SMode) : mode m = m.code := by cases m <;> rfl
  refine ⟨fun start _ => (sortArraySaves f s start).imp fun t ⟨hblocks, hout, hsa, hbytes, hfr⟩ => ?_,
    fun start _ => (sortArrayRestores f s start).imp fun t ⟨hcells, ⟨y, hy⟩, hscr, hfr⟩ => ?_,
    fun y phase tkcount tkk tkn tkn' topk => y.restore_control phase tkcount tkk tkn tkn' topk,
    sortArrayClears f s⟩
  · refine ⟨fun j => saved_cell hblocks j, fun phase tkk tkcount tkn => ?_, hout, hsa, hbytes, hfr⟩
    rw [saved_control (hblocks 2048 (by decide)), SortArr.control, hmode, Nat.mod_eq_of_lt phase, Nat.mod_eq_of_lt tkk,
      Nat.mod_eq_of_lt tkcount, Nat.mod_eq_of_lt tkn]
  · have hbits := bitsN_ofBytes512 (Mem.length_bytes s.fh.scratch (a0 + 131072) 64)
    obtain ⟨hbad, hgood⟩ := y.restore_spec (ofBytes512 (s.fh.scratch.bytes (a0 + 131072) 64))
    rw [← hy] at hbad hgood
    simp only [BadControl, hbits] at hbad hgood
    rw [hmode]
    refine ⟨fun j => ?_, hbad, hgood, hscr, hfr⟩
    rw [hcells j]
    exact ⟨Nat.mod_eq_of_lt (by simpa using leNat_lt (s.fh.scratch.bytes (a0 + 8 * j.val) 4)),
      Nat.mod_eq_of_lt (by simpa using leNat_lt (s.fh.scratch.bytes (a0 + 8 * j.val + 4) 4))⟩

/-- Settles O32: loads and stores by induction on the elements moved, saves and restores by induction on the granules. -/
theorem sortArrayMoves : Obligations.SortArrayMoves := ⟨sortLoadsAndStoresElements, sortArraySavesRestoresAndClears⟩

end Sys2Proof.Machine

/-! PROOFS. A record's fields and its bytes under updates (R301, R303), and the ends of turns (O17; R108, R112). -/

namespace Sys2Proof.Machine

/-! ## Replaced fields of a word -/

theorem bit_putN {n : Nat} (x : BitVec n) {lo len : Nat} (v i : Nat) (h : lo + len ≤ n) :
    bit (putN x lo len v) i = if lo ≤ i ∧ i < lo + len then v.testBit (i - lo) else bit x i := by
  have hx := x.isLt
  obtain ⟨low, hlow⟩ : ∃ k, k = x.toNat % 2 ^ lo := ⟨_, rfl⟩
  obtain ⟨up, hup⟩ : ∃ k, k = x.toNat / 2 ^ lo / 2 ^ len := ⟨_, rfl⟩
  have hlt : low < 2 ^ lo := hlow ▸ Nat.mod_lt _ (by positivity)
  have hsplit : x.toNat = 2 ^ lo * (2 ^ len * up + bitsN x lo len) + low := by
    rw [hlow, hup, bitsN, Nat.div_add_mod, Nat.div_add_mod]
  have hval : x.toNat - bitsN x lo len * 2 ^ lo + v % 2 ^ len * 2 ^ lo = 2 ^ lo * (2 ^ len * up + v % 2 ^ len) + low := by
    have : x.toNat - bitsN x lo len * 2 ^ lo = 2 ^ lo * (2 ^ len * up) + low := by
      rw [hsplit, Nat.mul_add, Nat.mul_comm (bitsN x lo len)]; omega
    rw [this, Nat.mul_add, Nat.mul_comm (v % 2 ^ len)]; omega
  have hfit : 2 ^ lo * (2 ^ len * up + v % 2 ^ len) + low < 2 ^ n := by
    obtain ⟨k, rfl⟩ := Nat.exists_eq_add_of_le h
    have hk : up < 2 ^ k := by
      rw [hup, Nat.div_div_eq_div_mul, ← Nat.pow_add]
      exact Nat.div_lt_of_lt_mul (by rwa [← Nat.pow_add])
    have hm : 2 ^ len * up + v % 2 ^ len < 2 ^ (len + k) := by
      rw [Nat.pow_add]
      have := Nat.mod_lt v (show 2 ^ len > 0 by positivity)
      calc 2 ^ len * up + v % 2 ^ len < 2 ^ len * (up + 1) := by rw [Nat.mul_add]; omega
        _ ≤ 2 ^ len * 2 ^ k := Nat.mul_le_mul_left _ hk
    rw [show lo + len + k = lo + (len + k) by omega, Nat.pow_add 2 lo]
    calc _ < 2 ^ lo * (2 ^ len * up + v % 2 ^ len + 1) := by rw [Nat.mul_add _ _ 1]; omega
      _ ≤ _ := Nat.mul_le_mul_left _ hm
  have hbit : bit (putN x lo len v) i = (2 ^ lo * (2 ^ len * up + v % 2 ^ len) + low).testBit i := by
    rw [bit, BitVec.getLsbD, putN, hval, BitVec.toNat_ofNat, Nat.mod_eq_of_lt hfit]
  rw [hbit, bit, BitVec.getLsbD, Nat.testBit_two_pow_mul_add _ hlt]
  conv_rhs => rw [hsplit, Nat.testBit_two_pow_mul_add _ hlt]
  rw [Nat.testBit_two_pow_mul_add _ (Nat.mod_lt _ (by positivity)), Nat.testBit_two_pow_mul_add _ (bitsN_lt x lo len),
    Nat.testBit_mod_two_pow]
  by_cases h1 : i < lo
  · rw [if_pos h1, if_pos h1, if_neg (by omega)]
  · by_cases h2 : i - lo < len
    · rw [if_neg h1, if_pos h2, if_pos (by omega)]; simp [h2]
    · rw [if_neg h1, if_neg h2, if_neg (by omega), if_neg h1, if_neg h2]

theorem bitsN_putN_same {n : Nat} (x : BitVec n) {lo len : Nat} (v : Nat) (h : lo + len ≤ n) :
    bitsN (putN x lo len v) lo len = v % 2 ^ len := by
  refine Nat.eq_of_testBit_eq fun i => ?_
  rw [testBit_bitsN, Nat.testBit_mod_two_pow]
  by_cases hi : i < len
  · have := bit_putN x v (lo + i) h
    rw [if_pos (by omega), Nat.add_sub_cancel_left] at this
    rw [← this]; rfl
  · simp [hi]

theorem bitsN_putN_apart {n : Nat} (x : BitVec n) {lo len lo' len' : Nat} (v : Nat) (h : lo + len ≤ n)
    (apart : lo' + len' ≤ lo ∨ lo + len ≤ lo') : bitsN (putN x lo len v) lo' len' = bitsN x lo' len' :=
  bitsN_congr fun i hi => by rw [bit_putN x v _ h, if_neg (by omega)]

/-! ## The fields that the queue manager writes (R301) -/

/-- The manager's own bits of a record. -/
def managed (i : Nat) : Prop := (128 ≤ i ∧ i < 192) ∨ i = 225 ∨ (256 ≤ i ∧ i < 270) ∨ (320 ≤ i ∧ i < 352)

theorem RecRef.bit_over (r : RecRef) (w : BitVec 512) {i : Nat} (h : ¬ managed i) : bit (r.over w) i = bit w i := by
  rw [managed] at h
  rw [RecRef.over, bit_putN _ _ _ (by decide), if_neg (by omega), bit_putN _ _ _ (by decide), if_neg (by omega),
    bit_putN _ _ _ (by decide), if_neg (by omega), bit_putN _ _ _ (by decide), if_neg (by omega), bit_putN _ _ _ (by decide),
    if_neg (by omega)]

theorem RecRef.bitsN_over (r : RecRef) (w : BitVec 512) {lo len : Nat} (h : ∀ i, i < len → ¬ managed (lo + i)) :
    bitsN (r.over w) lo len = bitsN w lo len := bitsN_congr fun i hi => r.bit_over w (h i hi)

theorem RecRef.over_fields (r : RecRef) (w : BitVec 512) : bitsN (r.over w) 320 32 = r.graph % 2 ^ 32 ∧
    bitsN (r.over w) 259 11 = r.wq.val ∧ bitsN (r.over w) 256 3 = r.qst.toNat ∧ bitsN (r.over w) 128 64 = r.rtick % 2 ^ 64 := by
  rw [RecRef.over]
  refine ⟨?_, ?_, ?_, bitsN_putN_same _ _ (by decide)⟩
  · rw [bitsN_putN_apart _ _ (by decide) (by decide), bitsN_putN_apart _ _ (by decide) (by decide),
      bitsN_putN_apart _ _ (by decide) (by decide), bitsN_putN_apart _ _ (by decide) (by decide), bitsN_putN_same _ _ (by decide)]
  · rw [bitsN_putN_apart _ _ (by decide) (by decide), bitsN_putN_apart _ _ (by decide) (by decide),
      bitsN_putN_apart _ _ (by decide) (by decide), bitsN_putN_same _ _ (by decide), Nat.mod_eq_of_lt (by have := r.wq.isLt; omega)]
  · rw [bitsN_putN_apart _ _ (by decide) (by decide), bitsN_putN_apart _ _ (by decide) (by decide), bitsN_putN_same _ _ (by decide),
      Nat.mod_eq_of_lt r.qst.isLt]

section Over
variable (r : RecRef) (w : BitVec 512)

theorem recJoin_over : recJoin (r.over w) = recJoin w := r.bitsN_over w fun i hi => by rw [managed]; omega
theorem recEntry_over : recEntry (r.over w) = recEntry w := r.bitsN_over w fun i hi => by rw [managed]; omega
theorem recImage_over : recImage (r.over w) = recImage w := r.bitsN_over w fun i hi => by rw [managed]; omega
theorem recCfen_over : recCfen (r.over w) = recCfen w := r.bit_over w (by rw [managed]; omega)
theorem recParent_over : recParent (r.over w) = recParent w := by
  rw [recParent, recParent, field_eq_ofNat, field_eq_ofNat, r.bitsN_over w fun i hi => by rw [managed]; omega]

end Over

/-! ## Records in memory -/

/-- Where bytes stand depends on memory, the root tables and the secure regions alone. -/
theorem State.xlatN_congr {s t : State} (hm : t.mem = s.mem) (hr : t.roots = s.roots) (hg : t.regions = s.regions) (ag : Agent)
    (k : AccKind) (n : Nat) (a : Word) : t.xlatN ag k a n = s.xlatN ag k a n := by
  have hx (a : Word) : t.xlat ag k a = s.xlat ag k a := by
    simp only [State.xlat, State.leaf, State.rootOf, State.leafAllows, State.secureAt, hm, hr, hg] <;> rfl
  induction n generalizing a with
  | zero => rfl
  | succ n ih => simp only [State.xlatN, hx, ih]

/-- What addresses of records translate by is the same. -/
structure SameMap (s t : State) : Prop where
  roots : t.roots = s.roots
  regions : t.regions = s.regions
  queues : t.queues = s.queues

theorem SameMap.refl (s : State) : SameMap s s := ⟨rfl, rfl, rfl⟩
theorem SameMap.trans {s t u : State} (h : SameMap s t) (h' : SameMap t u) : SameMap s u :=
  ⟨h'.roots.trans h.roots, h'.regions.trans h.regions, h'.queues.trans h.queues⟩

theorem SameMap.queueAgent {s t : State} (h : SameMap s t) (q : Fin 2048) : t.queueAgent q = s.queueAgent q := by
  rw [State.queueAgent, State.queueAgent, h.queues]

theorem State.sameMap_unitWrite (s : State) (ag : Agent) (a : Word) (bs : List Byte) : SameMap s (s.unitWrite ag a bs) := by
  rcases s.unitWrite_cases ag a bs with e | ⟨ks, -, e⟩ <;> rw [e]
  · exact .refl s
  · exact ⟨s.memStore_roots .., s.memStore_regions .., s.memStore_queues ..⟩

theorem recMem_congr {s t : State} {q : Fin 2048} {a : Word} {ks : List Nat} (h : RecMem s q a ks) (map : SameMap s t)
    (mem : t.mem = s.mem) : RecMem t q a ks := by
  obtain ⟨hr, ho, hn, hl, hst⟩ := h
  refine ⟨hr, ho, hn, ?_, ?_⟩ <;> rw [map.queueAgent, State.xlatN_congr mem map.roots map.regions]
  · exact hl
  · exact hst

section RecMem
variable {s : State} {q : Fin 2048} {a : Word} {ks : List Nat}

theorem recMem_unitRead (h : RecMem s q a ks) : s.unitRead (s.queueAgent q) a 64 = some (ks.map s.mem.read) := by
  obtain ⟨hr, ho, -, hl, -⟩ := h
  rw [State.unitRead, hr, decide_eq_false (by omega), if_neg (by simp), hl]
  rfl

theorem recMem_length (h : RecMem s q a ks) : ks.length = 64 := by
  obtain ⟨-, -, -, hl, -⟩ := h
  exact State.xlatN_length hl

theorem recMem_recWord (h : RecMem s q a ks) {r : RecRef} (hq : r.wq = q) (ha : r.addr = a) : s.recWord r = r.over (recBits s ks) := by
  rw [State.recWord, hq, ha, recMem_unitRead h]
  rfl

/-- A write of the record's bytes. -/
theorem recMem_unitWrite (h : RecMem s q a ks) (w : BitVec 512) : recBits (s.unitWrite (s.queueAgent q) a (bytes512 w)) ks = w ∧
    ∀ x, x ∉ ks → (s.unitWrite (s.queueAgent q) a (bytes512 w)).mem.read x = s.mem.read x := by
  obtain ⟨hr, ho, hn, hl, hst⟩ := h
  have hlen : (bytes512 w).length = 64 := length_leBytes ..
  have e : s.unitWrite (s.queueAgent q) a (bytes512 w) = s.memStore ks (bytes512 w) none := by
    rw [State.unitWrite, hlen, hr, decide_eq_false (by omega), if_neg (by simp), hst]
  rw [e]
  refine ⟨?_, fun x hx => s.memStore_read_other ks _ none hx⟩
  have := s.memBytes_memStore ks (bytes512 w) none hn ((State.xlatN_length hl).trans hlen.symm)
  rw [recBits, show ks.map (s.memStore ks (bytes512 w) none).mem.read = bytes512 w from this]
  exact ofNat_leNat_leBytes 64 w rfl

theorem State.sameMap_setRef (s : State) (r : RecRef) : SameMap s (s.setRef r) := ⟨rfl, rfl, rfl⟩
theorem State.sameMap_putRec (s : State) (r : RecRef) (w : BitVec 512) : SameMap s (s.putRec r w) :=
  (s.sameMap_setRef r).trans ((s.setRef r).sameMap_unitWrite ..)

theorem recMem_putRec (h : RecMem s q a ks) {r : RecRef} (hq : r.wq = q) (ha : r.addr = a) (w : BitVec 512) :
    recBits (s.putRec r w) ks = r.over w ∧ ∀ x, x ∉ ks → (s.putRec r w).mem.read x = s.mem.read x := by
  have h' := recMem_unitWrite (recMem_congr h (s.sameMap_setRef r) rfl) (r.over w)
  rw [State.putRec, hq, ha]
  exact h'

end RecMem

end Sys2Proof.Machine

/-! PROOFS. Drains, and the ends of turns (O17; R108, R112). -/

namespace Sys2Proof.Machine

/-! ## A context given up (R28, R112) -/

/-- A context that is free. -/
def Ctx.freed (k : Ctx) : Ctx := { k with st := .free, wait := .none, run := .none, resv := none, pend := [], fault := none }

/-- Late traps are reported to the service OS alone. -/
theorem State.reportPend_eq (s : State) (run : RunRec) (l : List Async) :
    ∃ rs, s.reportPend run l = { s with svc := { s.svc with reports := rs } } := by
  induction l generalizing s with
  | nil => exact ⟨_, rfl⟩
  | cons a l ih =>
    obtain ⟨rs, e⟩ := ih (s.report (.lateTrap run a))
    exact ⟨rs, e⟩

/-- Without queued arrivals, a freed context stays free. -/
theorem State.freeCtx_eq {s : State} {l : Loc} (h : (s.hearth l.h).arrQ = []) :
    ∃ rs, s.freeCtx l = { s.setCtx l (s.ctx l).freed with svc := { s.svc with reports := rs } } := by
  obtain ⟨rs, e⟩ := (s.setCtx l (s.ctx l).freed).reportPend_eq (s.ctx l).run (s.ctx l).pend
  refine ⟨rs, ?_⟩
  have hq : (({ s.setCtx l (s.ctx l).freed with svc := { s.svc with reports := rs } } : State).hearth l.h).arrQ = [] := by
    show ((s.setCtx l (s.ctx l).freed).hearth l.h).arrQ = []
    rw [State.setCtx, State.hearth_setHearth, if_pos rfl]
    exact h
  exact (congrArg (fun t : State => t.takeQueued l.h 1) e).trans (State.takeQueued_nil hq 1)

/-- The focus context is free, and memory and the queue manager are as before. -/
structure Freed (s u : State) : Prop where
  st : u.fc.st = .free
  run : u.fc.run = .none
  foc : u.foc = s.foc
  mem : u.mem = s.mem
  qm : u.qm = s.qm
  cycle : u.cycle = s.cycle
  flags : u.fh.flags = s.fh.flags
  map : SameMap s u

theorem State.freed_freeCtx {s : State} (h : s.fh.arrQ = []) : Freed s (s.freeCtx s.foc) := by
  obtain ⟨rs, e⟩ := State.freeCtx_eq (l := s.foc) h
  have hk : (s.freeCtx s.foc).fc = s.fc.freed := by
    rw [e]; exact s.fc_setFc s.fc.freed
  have hx : (s.freeCtx s.foc).fh = s.fh.setCtx s.foc.c s.fc.freed := by
    rw [e]; exact s.fh_setFc s.fc.freed
  refine ⟨by rw [hk]; rfl, by rw [hk]; rfl, ?_, ?_, ?_, ?_, by rw [hx]; rfl, ?_, ?_, ?_⟩ <;> rw [e] <;> rfl

/-! ## Drains (R108) -/

section Drain
variable {s : State}

theorem Hearth.drained_iff (x : Hearth) (c : Fin 4) : x.drained c = true ↔ ∀ d, d ∈ x.cmds → d.ctx = c → d.ended = true := by
  simp only [Hearth.drained, List.all_eq_true, Bool.or_eq_true, bne_iff_ne]
  exact forall₂_congr fun d _ => by tauto

theorem Hearth.settled_iff (x : Hearth) (c : Fin 4) : x.settled c = true ↔ ∀ d, d ∈ x.cmds → d.ctx ≠ c := by
  simp [Hearth.settled]

theorem State.drainThen_over {d : AfterDrain} (h : s.drainOver s.foc d = true) : s.drainThen d = s.afterDrain s.foc d := by
  rw [State.drainThen, if_pos h]

theorem State.drainThen_waits {d : AfterDrain} (h : s.drainOver s.foc d = false) :
    s.drainThen d = s.setFc { s.fc with st := .waiting, wait := .drain d } := by
  rw [State.drainThen, if_neg (by simp [h])]

theorem exec_drainComplete {d : AfterDrain} (frozen : s.frozen s.foc.h = false) (st : s.fc.st = .waiting) (wait : s.fc.wait = .drain d)
    (h : s.drainOver s.foc d = true) : exec .drainComplete s = .next (s.afterDrain s.foc d) := by
  show execDrainComplete s = _
  rw [execDrainComplete, frozen, st, wait]
  dsimp only
  rw [if_pos h]

/-- The context waits in its drain. -/
theorem completes_drainThen_waits {i : Instr} {d : AfterDrain} (hi : exec i s = .next (s.drainThen d))
    (h : s.drainOver s.foc d = false) : Completes i s fun t => t.fc.st = .waiting ∧ t.fc.wait = .drain d ∧ t.fc.pc = s.fc.pc ∧
      SameRegs s.fc t.fc ∧ OnlyCtx s.foc s t := by
  refine completes_of (hi.trans (congrArg Host.Outcome.next (State.drainThen_waits h))) ?_
  rw [State.fc_setFc]
  exact ⟨rfl, rfl, rfl, fun _ => rfl, s.onlyCtx_setFc _⟩

theorem drainWaitsForItsCommands : Claims.DrainWaitsForItsCommands := by
  intro s
  have hgo (d : ∀ d, d ∈ s.fh.cmds → d.ctx = s.foc.c → d.ended = true) : s.drainOver s.foc .go = true :=
    (s.fh.drained_iff s.foc.c).2 d
  have hexec : exec .kDrain s = .next (s.drainThen .go) := rfl
  refine ⟨fun done ⟨st, wait⟩ => ?_, fun ⟨d, hd, hc, he⟩ => ?_, fun done frozen st wait => ?_⟩
  · refine completes_of (hexec.trans (congrArg Host.Outcome.next (State.drainThen_over (hgo done)))) ?_
    have e : s.afterDrain s.foc .go = s.setFc s.fc.retire := by
      show s.setFc ({ s.fc with st := .running, wait := .none }).retire = _
      rw [← st, ← wait]
    rw [e, State.fc_setFc]
    refine ⟨s.onlyCtx_setFc _, ⟨rfl, rfl, rfl⟩, ?_, fun _ _ => rfl⟩
    rw [if_pos rfl]; rfl
  · refine completes_drainThen_waits hexec ?_
    rw [Bool.eq_false_iff]
    exact fun h => by simp [((s.fh.drained_iff s.foc.c).1 h) d hd hc] at he
  · refine completes_of (exec_drainComplete frozen st wait (hgo done)) ?_
    rw [show s.afterDrain s.foc .go = s.setFc ({ s.fc with st := .running, wait := .none }).retire from rfl, State.fc_setFc]
    exact ⟨rfl, rfl, fun _ => rfl, s.onlyCtx_setFc _⟩

end Drain

/-! ## The ends of turns (R112, R303) -/

section Turn
variable {s u : State} {q : Fin 2048} {a : Word} {r : RecRef} {ks : List Nat}

/-- The turn is over once the record's new bits stand in memory. -/
theorem turnOver_putRec (free : Freed s u) (mem : RecMem s q a ks) (r' : RecRef) (w : BitVec 512) (hq : r'.wq = q) (ha : r'.addr = a)
    (graph : r'.graph = r.graph) (hr : r.wq = q) (rtick : r'.rtick = if r'.qst.toNat = 0 then s.tick else r.rtick) {entry : Option Nat}
    (hasEntry : ∀ e, entry = some e → recEntry w = e ∧ recImage w = s.imageId s.foc % 65536)
    (noEntry : entry = none → recEntry w = recEntry (recBits s ks) ∧ recImage w = recImage (recBits s ks))
    (bits : ∀ i, i < 286 ∨ 352 ≤ i → ¬ managed i → bit w i = bit (recBits s ks) i) :
    TurnOver s (u.putRec r' w) r ks r'.qst.toNat entry ∧ ((u.putRec r' w).refOf q a) = some r' := by
  obtain ⟨hbits, hout⟩ := recMem_putRec (recMem_congr mem free.map free.mem) hq ha w
  have hctx : CtxsKeep u (u.putRec r' w) := u.ctxsKeep_putRec r' w
  have hfoc : (u.putRec r' w).foc = u.foc := (u.setRef r').unitWrite_foc ..
  have hfc : { (u.putRec r' w).fc with resv := u.fc.resv } = u.fc := by
    rw [State.fc, hfoc]; exact hctx u.foc
  obtain ⟨hgraph, hwq, hst, htick⟩ := r'.over_fields w
  refine ⟨⟨(congrArg Ctx.st hfc).trans free.st, (congrArg Ctx.run hfc).trans free.run, ?_⟩, ?_⟩
  · rw [hbits]
    refine ⟨hst, by rw [hgraph, graph], by rw [hwq, hq, hr], fun e he => ?_, fun he => ?_, by rw [htick, rtick], fun i hi h => ?_,
      fun x hx => by rw [hout x hx, free.mem]⟩
    · rw [recEntry_over, recImage_over]; exact hasEntry e he
    · rw [recEntry_over, recImage_over]; exact noEntry he
    · have hm : ¬ managed i := by rw [managed]; omega
      rw [r'.bit_over w hm]
      exact bits i (by omega) hm
  · rw [State.refOf_putRec, if_pos ⟨hq.symm, ha.symm⟩]

/-- The graphs' nodes that have begun no record at an address know nothing of its end. -/
theorem State.nodeDone_none (h : ∀ g, g ∈ s.qm.graphs → g.wq = q → ∀ d, d ∈ g.nodes → d.recAt = some a → d.fin ≠ none)
    (fin : BitVec 3) : s.nodeDone q a fin = s := by
  rw [State.nodeDone]
  split
  · rfl
  · next g hg =>
    have hp := List.find?_some hg
    simp only [Bool.and_eq_true, beq_iff_eq, List.any_eq_true, Option.isNone_iff_eq_none] at hp
    obtain ⟨hwq, d, hd, hat, hfin⟩ := hp
    exact absurd hfin (h g (List.mem_of_find?_eq_some hg) hwq d hd hat)

/-- A record with no parent, no completion flag and no node ends alone. -/
theorem State.endRecord_alone (cfen : recCfen (s.recWord r) = false) (parent : recParent (s.recWord r) = 0)
    (nodes : ∀ g, g ∈ s.qm.graphs → g.wq = r.wq → ∀ d, d ∈ g.nodes → d.recAt = some r.addr → d.fin ≠ none) (fin : BitVec 3) :
    s.endRecord r fin = (s.putRec { r with qst := fin } (s.recWord r)).dropRef r := by
  rw [State.endRecord, State.endRec]
  dsimp only
  rw [if_pos parent, if_neg (by simp [cfen])]
  refine State.nodeDone_none ?_ fin
  show ∀ g, g ∈ (s.putRec { r with qst := fin } (s.recWord r)).qm.graphs → _
  rw [State.putRec_qm]
  exact nodes

theorem State.finishTask_eq (run : s.fc.run = .task a q) (hr : s.refOf q a = some r) : s.finishTask s.foc =
    if recJoin (s.recWord r) = 0 then (s.freeCtx s.foc).endRecord r 4 else (s.freeCtx s.foc).putRec { r with qst := 3 } (s.recWord r) := by
  rw [State.finishTask, show (s.ctx s.foc).run = _ from run]
  dsimp only
  rw [hr]

theorem State.suspendTask_eq (run : s.fc.run = .task a q) (hr : s.refOf q a = some r) (image entry : Nat) :
    s.suspendTask s.foc image entry id =
      let w := putN (putN (s.recWord r) 304 16 image) 286 18 entry
      if recJoin w = 0 then (s.freeCtx s.foc).makeReady r w else (s.freeCtx s.foc).putRec { r with qst := 2 } w := by
  rw [State.suspendTask, show (s.ctx s.foc).run = _ from run]
  dsimp only
  rw [hr]
  rfl

/-- A record with children is left finishing. -/
theorem finishTask_children (run : s.fc.run = .task a q) (hr : s.refOf q a = some r) (arr : s.fh.arrQ = []) (mem : RecMem s q a ks)
    (join : recJoin (recBits s ks) ≠ 0) :
    TurnOver s (s.finishTask s.foc) r ks 3 none ∧ ((s.finishTask s.foc).refOf q a).map (·.qst) = some 3 := by
  obtain ⟨hwq, haddr⟩ := State.refOf_some hr
  have hw := recMem_recWord mem hwq haddr
  rw [State.finishTask_eq run hr, if_neg (by rwa [hw, recJoin_over])]
  obtain ⟨hover, href⟩ := turnOver_putRec (r := r) (entry := none) (State.freed_freeCtx arr) mem { r with qst := 3 } (s.recWord r) hwq
    haddr rfl hwq rfl (fun _ h => nomatch h) (fun _ => by rw [hw, recEntry_over, recImage_over]; exact ⟨rfl, rfl⟩)
    fun i _ hm => by rw [hw]; exact r.bit_over _ hm
  exact ⟨hover, by rw [href]; rfl⟩

/-- A record that waits for no child ends. -/
theorem finishTask_ends (run : s.fc.run = .task a q) (hr : s.refOf q a = some r) (arr : s.fh.arrQ = []) (mem : RecMem s q a ks)
    (join : recJoin (recBits s ks) = 0) (parent : recParent (recBits s ks) = 0) (cfen : recCfen (recBits s ks) = false)
    (nodes : ∀ g, g ∈ s.qm.graphs → g.wq = q → ∀ d, d ∈ g.nodes → d.recAt = some a → d.fin ≠ none) :
    TurnOver s (s.finishTask s.foc) r ks 4 none ∧ (s.finishTask s.foc).refOf q a = none := by
  obtain ⟨hwq, haddr⟩ := State.refOf_some hr
  have free := State.freed_freeCtx arr
  have hw := recMem_recWord mem hwq haddr
  have hu : (s.freeCtx s.foc).recWord r = r.over (recBits s ks) := by
    rw [recMem_recWord (recMem_congr mem free.map free.mem) hwq haddr, recBits, free.mem]; rfl
  rw [State.finishTask_eq run hr, if_pos (by rwa [hw, recJoin_over]), State.endRecord_alone (by rw [hu, recCfen_over, cfen])
    (by rw [hu, recParent_over, parent]) (by rw [free.qm, hwq, haddr]; exact nodes)]
  obtain ⟨hover, -⟩ := turnOver_putRec (r := r) (entry := none) free mem { r with qst := 4 } ((s.freeCtx s.foc).recWord r) hwq
    haddr rfl hwq rfl (fun _ h => nomatch h) (fun _ => by rw [hu, recEntry_over, recImage_over]; exact ⟨rfl, rfl⟩)
    fun i _ hm => by rw [hu]; exact r.bit_over _ hm
  refine ⟨hover, ?_⟩
  rw [State.refOf_dropRef, if_pos ⟨hwq.symm, haddr.symm⟩]

/-- A record that gives its turn up has its new entry, and is ready or suspended. -/
theorem suspendTask_spec (run : s.fc.run = .task a q) (hr : s.refOf q a = some r) (arr : s.fh.arrQ = []) (mem : RecMem s q a ks)
    {entry : Nat} (he : entry < 2 ^ 18) :
    let st := if recJoin (recBits s ks) = 0 then 0 else 2
    TurnOver s (s.suspendTask s.foc (s.imageId s.foc) entry id) r ks st (some entry) ∧
      ((s.suspendTask s.foc (s.imageId s.foc) entry id).refOf q a).map (·.qst.toNat) = some st := by
  intro st
  obtain ⟨hwq, haddr⟩ := State.refOf_some hr
  have free := State.freed_freeCtx arr
  have hw := recMem_recWord mem hwq haddr
  obtain ⟨w, hwdef⟩ : ∃ w, w = putN (putN (s.recWord r) 304 16 (s.imageId s.foc)) 286 18 entry := ⟨_, rfl⟩
  have hjoin : recJoin w = recJoin (recBits s ks) := by
    rw [recJoin, hwdef, bitsN_putN_apart _ _ (by decide) (by decide), bitsN_putN_apart _ _ (by decide) (by decide), hw]
    exact recJoin_over r _
  have hsome : ∀ e, some entry = some e → recEntry w = e ∧ recImage w = s.imageId s.foc % 65536 := fun e h => by
    cases h
    rw [recEntry, recImage, hwdef, bitsN_putN_same _ _ (by decide), bitsN_putN_apart _ _ (by decide) (by decide),
      bitsN_putN_same _ _ (by decide), Nat.mod_eq_of_lt he]
    exact ⟨rfl, rfl⟩
  have hbits : ∀ i, i < 286 ∨ 352 ≤ i → ¬ managed i → bit w i = bit (recBits s ks) i := fun i hi hm => by
    rw [hwdef, bit_putN _ _ _ (by decide), if_neg (by omega), bit_putN _ _ _ (by decide), if_neg (by omega), hw]
    exact r.bit_over _ hm
  have htick : (s.freeCtx s.foc).tick = s.tick := by rw [State.tick, State.tick, free.cycle]
  rw [State.suspendTask_eq run hr]
  dsimp only
  rw [← hwdef, hjoin]
  by_cases hj : recJoin (recBits s ks) = 0
  · obtain ⟨hover, href⟩ := turnOver_putRec (r := r) (entry := some entry) free mem { r with qst := 0, rtick := (s.freeCtx s.foc).tick, seen := (s.freeCtx s.foc).tick, reported := false, last := w } w
      hwq haddr rfl hwq htick hsome (fun h => nomatch h) hbits
    rw [if_pos hj, show st = 0 from if_pos hj]
    exact ⟨hover, by rw [State.makeReady, href]; rfl⟩
  · obtain ⟨hover, href⟩ := turnOver_putRec (r := r) (entry := some entry) free mem { r with qst := 2 } w
      hwq haddr rfl hwq rfl hsome (fun h => nomatch h) hbits
    rw [if_neg hj, show st = 2 from if_neg hj]
    exact ⟨hover, by rw [href]; rfl⟩

/-- Nothing of the context's commands is to come, and no page of its record's address space moves. -/
theorem State.recordGoes_of (settled : ∀ d, d ∈ s.fh.cmds → d.ctx ≠ s.foc.c)
    (still : ∀ b p, s.fc.run = .task b p → s.queueMoving p = false) : s.recordGoes s.foc = true := by
  rw [State.recordGoes, Bool.and_eq_true]
  refine ⟨(Hearth.settled_iff ..).2 settled, ?_⟩
  split
  · next b p h => rw [still b p h]; rfl
  · rfl

theorem State.recordGoes_waits (h : (∃ d, d ∈ s.fh.cmds ∧ d.ctx = s.foc.c) ∨ (s.fc.run = .task a q ∧ s.queueMoving q = true)) :
    s.recordGoes s.foc = false := by
  rw [State.recordGoes, Bool.and_eq_false_iff]
  rcases h with ⟨d, hd, hc⟩ | ⟨run, moving⟩
  · exact .inl (Bool.eq_false_iff.2 fun h => (Hearth.settled_iff ..).1 h d hd hc)
  · refine .inr ?_
    rw [show (s.ctx s.foc).run = _ from run]
    simp [moving]

theorem Ctx.isTask_of {k : Ctx} (h : k.run = .task a q) : k.isTask = true := by rw [Ctx.isTask, h]
theorem Ctx.isTask_ember {k : Ctx} (h : k.run = .ember) : k.isTask = false := by rw [Ctx.isTask, h]

/-- The instruction that `k.susp` names has an entry of the image, of 18 bits. -/
theorem State.suspOk_iff (s : State) (e : Word) : s.suspOk e = true ↔ s.fc.isTask = true ∧ e.toNat % 4 = 0 ∧
    e.toNat < (s.fh.img.map (·.code.length)).getD 0 := by
  simp [State.suspOk, and_assoc]

/-- What an instruction does that the context may not run in its turn. -/
theorem completes_illegal {i : Instr} {w : Word} (hi : exec i s = .next (s.drainThen (.illegal w)))
    (drained : ∀ d, d ∈ s.fh.cmds → d.ctx = s.foc.c → d.ended = true) (user : s.fc.mode = .user) (runs : Runs s) :
    Completes i s fun t => TrapsToRuntime s t 2 w := by
  have isOver : s.drainOver s.foc (.illegal w) = true := (s.fh.drained_iff s.foc.c).2 drained
  obtain ⟨st, wait⟩ := runs
  have e : s.afterDrain s.foc (.illegal w) = s.trapHere 2 w := by
    have hk : s.setCtx s.foc { s.fc with st := .running, wait := .none } = s := by
      rw [← st, ← wait]; exact s.setCtx_ctx s.foc
    exact congrArg (fun t : State => t.trap s.foc 2 s.fc.pc w 0) hk
  exact completes_of (hi.trans (congrArg Host.Outcome.next ((State.drainThen_over isOver).trans e))) (State.trapsToRuntime_trapHere user 2 w (by decide))

end Turn

theorem turnsEndAsTheTableSays : Claims.TurnsEndAsTheTableSays := by
  intro s xs a q r ks w e n goes drained waits
  have hdone : exec .kDone s = .next (s.drainThen .done) := rfl
  have hsusp (ok : s.suspOk e = true) : exec (.kSusp xs) s = .next (s.drainThen (.susp (e.truncate 18))) := by
    show execKSusp xs s = _
    rw [execKSusp, if_pos ok]
  have hsusp' (bad : ¬ s.suspOk e = true) : exec (.kSusp xs) s = .next (s.drainThen (.illegal (wordOf (.kSusp xs)))) := by
    show execKSusp xs s = _
    rw [execKSusp, if_neg bad]
  have hyield (task : s.fc.isTask = true) : exec .kYield s = .next (s.drainThen .yield) := by
    show execKYield s = _
    rw [execKYield, if_pos task]
  have hyield' (task : s.fc.isTask = false) : exec .kYield s = .next (s.drainThen (.illegal (wordOf .kYield))) := by
    show execKYield s = _
    rw [execKYield, if_neg (by simp [task])]
  have suspOk (run : s.fc.run = .task a q) (h4 : e.toNat % 4 = 0) (hn : e.toNat < n) : s.suspOk e = true :=
    (s.suspOk_iff e).2 ⟨Ctx.isTask_of run, h4, hn⟩
  have done {i : Instr} {d : AfterDrain} (hi : exec i s = .next (s.drainThen d)) (hd : s.drainOver s.foc d = true) :
      exec i s = .next (s.afterDrain s.foc d) := hi.trans (congrArg Host.Outcome.next (State.drainThen_over hd))
  have waitsFor {i : Instr} {d : AfterDrain} {P : AfterDrain → Prop} (hi : exec i s = .next (s.drainThen d))
      (hd : s.drainOver s.foc d = false) (hp : P d) : waits i P :=
    (completes_drainThen_waits hi hd).imp fun t ⟨st, wait, rest⟩ => ⟨st, ⟨d, wait, hp⟩, rest⟩
  refine ⟨fun ⟨settled, still⟩ arr => ?_, fun drained user runs => ?_, fun h => ?_, fun ⟨d, hd, hc, he⟩ => ?_,
    fun ⟨settled, still⟩ frozen st => ?_⟩
  · have goes := State.recordGoes_of settled still
    refine ⟨fun ember => ?_, fun run hr mem => ⟨fun join => ?_, fun join parent cfen nodes => ?_, fun h4 hn hlen => ?_, fun hpc => ?_⟩⟩
    · refine completes_of (done hdone goes) ?_
      have free := State.freed_freeCtx arr
      have e : s.afterDrain s.foc .done = s.freeCtx s.foc := by
        show s.finishTask s.foc = _
        rw [State.finishTask, show (s.ctx s.foc).run = _ from ember]
      rw [e]
      exact ⟨free.st, free.qm, free.mem, free.flags⟩
    · exact completes_of (done hdone goes) (finishTask_children run hr arr mem join)
    · exact completes_of (done hdone goes) (finishTask_ends run hr arr mem join parent cfen nodes)
    · refine completes_of (done (hsusp (suspOk run h4 hn)) goes) ?_
      have he : (e.truncate 18).toNat = e.toNat := by
        rw [BitVec.truncate_eq_setWidth, BitVec.toNat_setWidth]
        exact Nat.mod_eq_of_lt (hn.trans_le hlen)
      rw [show s.afterDrain s.foc (.susp (e.truncate 18)) =
        s.suspendTask s.foc (s.imageId s.foc) (e.truncate 18).toNat id from rfl, he]
      exact suspendTask_spec run hr arr mem (hn.trans_le hlen)
    · refine completes_of (done (hyield (Ctx.isTask_of run)) goes) ?_
      have he : (s.fc.pc + 4).toNat = s.fc.pc.toNat + 4 := by
        rw [BitVec.toNat_add]
        exact Nat.mod_eq_of_lt (by simp; omega)
      rw [show s.afterDrain s.foc .yield = s.suspendTask s.foc (s.imageId s.foc) (s.fc.pc + 4).toNat id from rfl, he]
      exact suspendTask_spec run hr arr mem hpc
  · refine ⟨fun ember => ⟨?_, ?_⟩, fun bad => ?_⟩
    · exact completes_illegal (hsusp' fun h => by simpa [Ctx.isTask_ember ember] using ((s.suspOk_iff e).1 h).1) drained user runs
    · exact completes_illegal (hyield' (Ctx.isTask_ember ember)) drained user runs
    · exact completes_illegal (hsusp' fun h => by obtain ⟨-, h4, hn⟩ := (s.suspOk_iff e).1 h; omega) drained user runs
  · have hw := State.recordGoes_waits h
    exact ⟨waitsFor hdone hw rfl, fun run h4 hn => waitsFor (hsusp (suspOk run h4 hn)) hw rfl,
      fun run => waitsFor (hyield (Ctx.isTask_of run)) hw rfl⟩
  · have hw := State.recordGoes_waits (a := a) (q := q) (.inl ⟨d, hd, hc⟩)
    have hnot (w : Word) : s.drainOver s.foc (.illegal w) = false :=
      Bool.eq_false_iff.2 fun h => by simp [(Hearth.drained_iff ..).1 h d hd hc] at he
    refine ⟨?_, ?_⟩
    · by_cases ok : s.suspOk e = true
      · exact waitsFor (hsusp ok) hw trivial
      · exact waitsFor (hsusp' ok) (hnot _) trivial
    · by_cases task : s.fc.isTask = true
      · exact waitsFor (hyield task) hw trivial
      · exact waitsFor (hyield' (by simpa using task)) (hnot _) trivial
  · have goes := State.recordGoes_of settled still
    refine ⟨fun wait => ?_, fun run h4 hn wait => ?_, fun run wait => ?_⟩
    · rw [exec_drainComplete frozen st wait goes, done hdone goes]
    · rw [exec_drainComplete frozen st wait goes, done (hsusp (suspOk run h4 hn)) goes]
    · rw [exec_drainComplete frozen st wait goes, done (hyield (Ctx.isTask_of run)) goes]

end Sys2Proof.Machine

/-! PROOFS. `k.spawn` (O17; R111, R304), and the obligation from its parts. -/

namespace Sys2Proof.Machine

/-! ## What spawning leaves alone -/

/-- An update by the queue manager: contexts keep all but reservations, and time and the maps stand. -/
structure QueueFrame (s t : State) : Prop where
  ctxs : CtxsKeep s t
  foc : t.foc = s.foc
  cycle : t.cycle = s.cycle
  map : SameMap s t

theorem QueueFrame.refl (s : State) : QueueFrame s s := ⟨.refl s, rfl, rfl, .refl s⟩
theorem QueueFrame.trans {s t u : State} (h : QueueFrame s t) (h' : QueueFrame t u) : QueueFrame s u :=
  ⟨h.ctxs.trans h'.ctxs, h'.foc.trans h.foc, h'.cycle.trans h.cycle, h.map.trans h'.map⟩

theorem State.queueFrame_unitWrite (s : State) (ag : Agent) (a : Word) (bs : List Byte) : QueueFrame s (s.unitWrite ag a bs) := by
  refine ⟨s.ctxsKeep_unitWrite ag a bs, s.unitWrite_foc ag a bs, ?_, s.sameMap_unitWrite ag a bs⟩
  rcases s.unitWrite_cases ag a bs with e | ⟨ks, -, e⟩ <;> rw [e]
  exact s.memStore_cycle ..

theorem State.queueFrame_putRec (s : State) (r : RecRef) (w : BitVec 512) : QueueFrame s (s.putRec r w) :=
  ⟨s.ctxsKeep_putRec r w, (s.setRef r).unitWrite_foc .., ((s.setRef r).queueFrame_unitWrite ..).cycle, s.sameMap_putRec r w⟩

/-- A fold of updates, each with the frame. -/
theorem QueueFrame.foldl {α : Type} {f : State → α → State} (h : ∀ t x, QueueFrame t (f t x)) (l : List α) (s : State) :
    QueueFrame s (l.foldl f s) := by
  induction l generalizing s with
  | nil => exact .refl s
  | cons x l ih => exact (h s x).trans (ih (f s x))

section Updates
variable (q : Fin 2048) (g : Nat)

theorem State.joinInc_frame (t : State) (p : Word) : QueueFrame t (t.joinInc q p) := by
  rw [State.joinInc]
  dsimp only
  split
  · exact .refl t
  · exact t.queueFrame_unitWrite ..

theorem State.enqueue_frame (t : State) (a : Word) : QueueFrame t (t.enqueue g q a) := t.queueFrame_putRec ..

theorem State.refOf_enqueue (t : State) (a b : Word) : ∃ last, (t.enqueue g q a).refOf q b =
    if b = a then some ⟨a, q, g, 0, false, t.tick, t.tick, false, false, last⟩ else t.refOf q b := by
  refine ⟨t.recWord (t.newRef a q g 0), (State.refOf_putRec ..).trans ?_⟩
  by_cases h : b = a
  · rw [if_pos ⟨rfl, h⟩, if_pos h]; rfl
  · rw [if_neg fun e => h e.2, if_neg h]

/-- Every child is known, ready. -/
theorem State.refOf_enqueueAll (l : List Word) : ∀ (t : State) (b : Word),
    b ∈ l ∨ (∃ last, t.refOf q b = some ⟨b, q, g, 0, false, t.tick, t.tick, false, false, last⟩) →
    ∃ last, (l.foldl (fun t b => t.enqueue g q b) t).refOf q b = some ⟨b, q, g, 0, false, t.tick, t.tick, false, false, last⟩ := by
  induction l with
  | nil => exact fun t b h => h.resolve_left List.not_mem_nil
  | cons a l ih =>
    intro t b h
    have htick : (t.enqueue g q a).tick = t.tick := by
      rw [State.tick, State.tick, (State.enqueue_frame q g t a).cycle]
    rw [List.foldl_cons, ← htick]
    refine ih (t.enqueue g q a) b ?_
    obtain ⟨last, e⟩ := State.refOf_enqueue q g t a b
    by_cases hb : b = a
    · subst hb
      exact .inr ⟨last, by rw [e, if_pos rfl, htick]⟩
    · rw [htick, e, if_neg hb]
      refine h.imp (fun h => ?_) id
      exact (List.mem_cons.1 h).resolve_left hb

end Updates

/-! ## The parents' join counters and the children's fields (R304) -/

section Stand
variable {s : State} {q : Fin 2048} {as : List Word} {key : Word → List Nat}

/-- A state that the queue manager has reached from `s` by writing the records at these addresses. -/
structure Standing (s : State) (as : List Word) (key : Word → List Nat) (t : State) : Prop where
  map : SameMap s t
  mem : ∀ x, (∀ c, c ∈ as → x ∉ key c) → t.mem.read x = s.mem.read x

theorem Standing.recMem (stand : RecsStand s q as key) {t : State} (h : Standing s as key t) {b : Word} (hb : b ∈ as) :
    RecMem t q b (key b) :=
  recMem_congr (stand.1 b hb t.mem h.mem) (t := t) ⟨h.map.roots, h.map.regions, h.map.queues⟩ rfl

/-- A write of one record leaves the others. -/
theorem Standing.write (stand : RecsStand s q as key) {t u : State} (h : Standing s as key t) {b : Word} (hb : b ∈ as)
    (map : SameMap t u) (mem : ∀ x, x ∉ key b → u.mem.read x = t.mem.read x) :
    Standing s as key u ∧ ∀ c, c ∈ as → c ≠ b → recBits u (key c) = recBits t (key c) := by
  refine ⟨⟨h.map.trans map, fun x hx => (mem x (hx b hb)).trans (h.mem x hx)⟩, fun c hc hne => ?_⟩
  rw [recBits, recBits, List.map_congr_left fun x hx => mem x (stand.2 c b hc hb hne x hx)]

/-- One parent's counter rises, and no other record changes. -/
theorem Standing.joinInc (stand : RecsStand s q as key) {t : State} (h : Standing s as key t) {p : Word} (hp : p ∈ as) :
    Standing s as key (t.joinInc q p) ∧ (∀ c, c ∈ as → c ≠ p → recBits (t.joinInc q p) (key c) = recBits t (key c)) ∧
    recJoin (recBits (t.joinInc q p) (key p)) = (recJoin (recBits t (key p)) + 1) % 2 ^ 32 := by
  have hm := h.recMem stand hp
  have e : t.joinInc q p = t.unitWrite (t.queueAgent q) p
      (bytes512 (putN (recBits t (key p)) 352 32 (recJoin (recBits t (key p)) + 1))) := by
    rw [State.joinInc]
    dsimp only
    rw [recMem_unitRead hm]
    rfl
  obtain ⟨hbits, hout⟩ := recMem_unitWrite hm (putN (recBits t (key p)) 352 32 (recJoin (recBits t (key p)) + 1))
  rw [e]
  obtain ⟨hstand, hothers⟩ := h.write stand hp (t.sameMap_unitWrite _ _ _) hout
  exact ⟨hstand, hothers, by rw [hbits]; exact bitsN_putN_same _ _ (by decide)⟩

/-- The counters rise by how often their records are parents. -/
theorem Standing.joinIncs (stand : RecsStand s q as key) (l : List Word) : ∀ t, Standing s as key t → (∀ p, p ∈ l → p ∈ as) →
    Standing s as key (l.foldl (fun t p => t.joinInc q p) t) ∧
    ∀ p, p ∈ as → recJoin (recBits t (key p)) + l.count p < 2 ^ 32 →
      recJoin (recBits (l.foldl (fun t p => t.joinInc q p) t) (key p)) = recJoin (recBits t (key p)) + l.count p := by
  induction l with
  | nil => exact fun t h _ => ⟨h, fun p _ _ => rfl⟩
  | cons a l ih =>
    intro t h hl
    obtain ⟨h1, hother, hself⟩ := h.joinInc stand (hl a List.mem_cons_self)
    obtain ⟨h2, hjoin⟩ := ih _ h1 fun p hp => hl p (List.mem_cons_of_mem _ hp)
    refine ⟨h2, fun p hp hlt => ?_⟩
    rw [List.foldl_cons]
    by_cases hpa : p = a
    · subst hpa
      rw [List.count_cons_self] at hlt ⊢
      rw [hjoin p hp (by rw [hself, Nat.mod_eq_of_lt (by omega)]; omega), hself, Nat.mod_eq_of_lt (by omega)]
      omega
    · rw [List.count_cons_of_ne (Ne.symm hpa)] at hlt ⊢
      rw [hjoin p hp (by rw [hother p hp hpa]; exact hlt), hother p hp hpa]

/-- A child's record is ready, and no other record changes. -/
theorem Standing.enqueue (stand : RecsStand s q as key) {t : State} (h : Standing s as key t) (g : Nat) {b : Word} (hb : b ∈ as) :
    Standing s as key (t.enqueue g q b) ∧ (∀ c, c ∈ as → c ≠ b → recBits (t.enqueue g q b) (key c) = recBits t (key c)) ∧
    bitsN (recBits (t.enqueue g q b) (key b)) 256 3 = 0 ∧
    bitsN (recBits (t.enqueue g q b) (key b)) 128 64 = t.tick % 2 ^ 64 := by
  obtain ⟨w, hw⟩ : ∃ w, t.enqueue g q b = t.putRec { t.newRef b q g 0 with last := w } w := ⟨_, rfl⟩
  rw [hw]
  obtain ⟨hbits, hout⟩ := recMem_putRec (h.recMem stand hb) (r := { t.newRef b q g 0 with last := w }) rfl rfl w
  obtain ⟨hstand, hothers⟩ := h.write stand hb (t.sameMap_putRec _ _) hout
  obtain ⟨-, -, hst, htick⟩ := RecRef.over_fields { t.newRef b q g 0 with last := w } w
  exact ⟨hstand, hothers, by rw [hbits]; exact hst, by rw [hbits]; exact htick⟩

/-- Queueing the children leaves every other record, and makes each child's ready. -/
theorem Standing.enqueues (stand : RecsStand s q as key) (g : Nat) (l : List Word) : ∀ t, Standing s as key t → (∀ b, b ∈ l → b ∈ as) →
    (∀ c, c ∈ as → c ∉ l → recBits (l.foldl (fun t b => t.enqueue g q b) t) (key c) = recBits t (key c)) ∧
    ∀ b, b ∈ as → b ∈ l ∨ (bitsN (recBits t (key b)) 256 3 = 0 ∧ bitsN (recBits t (key b)) 128 64 = t.tick % 2 ^ 64) →
      bitsN (recBits (l.foldl (fun t b => t.enqueue g q b) t) (key b)) 256 3 = 0 ∧
      bitsN (recBits (l.foldl (fun t b => t.enqueue g q b) t) (key b)) 128 64 = t.tick % 2 ^ 64 := by
  induction l with
  | nil => exact fun t _ _ => ⟨fun _ _ _ => rfl, fun b _ h => h.resolve_left List.not_mem_nil⟩
  | cons a l ih =>
    intro t h hl
    obtain ⟨h1, hother, hself⟩ := h.enqueue stand g (hl a List.mem_cons_self)
    obtain ⟨hrest, hkids⟩ := ih _ h1 fun b hb => hl b (List.mem_cons_of_mem _ hb)
    have htick : (t.enqueue g q a).tick = t.tick := by
      rw [State.tick, State.tick, (State.enqueue_frame q g t a).cycle]
    rw [htick] at hkids
    refine ⟨fun c hc hnot => ?_, fun b hb hor => ?_⟩
    · rw [List.foldl_cons, hrest c hc fun e => hnot (List.mem_cons_of_mem _ e), hother c hc fun e => hnot (e ▸ List.mem_cons_self)]
    · rw [List.foldl_cons]
      refine hkids b hb ?_
      by_cases hba : b = a
      · subst hba; exact .inr hself
      · rw [hother b hb hba]
        exact hor.imp (fun h => (List.mem_cons.1 h).resolve_left hba) id

/-- How the records stand once parents and children have been written. -/
theorem spawned_records {ps : List Word} {l kids : List Word} (stand : RecsStand s q (kids ++ ps) key) (g : Nat)
    (parents : ∀ p, p ∈ l → p ∈ ps) (apart : ∀ p, p ∈ ps → p ∉ kids) :
    let t := kids.foldl (fun t b => t.enqueue g q b) (l.foldl (fun t p => t.joinInc q p) s)
    (∀ p, p ∈ ps → recJoin (recBits s (key p)) + l.count p < 2 ^ 32 →
      recJoin (recBits t (key p)) = recJoin (recBits s (key p)) + l.count p) ∧
    ∀ b, b ∈ kids → bitsN (recBits t (key b)) 256 3 = 0 ∧ bitsN (recBits t (key b)) 128 64 = s.tick % 2 ^ 64 := by
  intro t
  obtain ⟨h1, hjoin⟩ := Standing.joinIncs stand l s ⟨.refl s, fun _ _ => rfl⟩ fun p hp => List.mem_append_right _ (parents p hp)
  obtain ⟨hrest, hkids⟩ := Standing.enqueues stand g kids _ h1 fun b hb => List.mem_append_left _ hb
  have htick : (l.foldl (fun t p => t.joinInc q p) s).tick = s.tick := by
    rw [State.tick, State.tick, (QueueFrame.foldl (State.joinInc_frame q) l s).cycle]
  refine ⟨fun p hp hlt => ?_, fun b hb => ?_⟩
  · rw [hrest p (List.mem_append_right _ hp) (apart p hp), hjoin p (List.mem_append_right _ hp) hlt]
  · rw [← htick]; exact hkids b (List.mem_append_left _ hb) (.inl hb)

/-- A parent's counter has room for its children, as its record stands. -/
theorem joinRoom_iff (mem : RecMem s q a ks) (l : List Word) :
    joinRoom s q l a = true ↔ recJoin (recBits s ks) + l.count a ≤ 2 ^ 32 - 1 := by
  rw [joinRoom, recMem_unitRead mem]
  exact decide_eq_true_iff

end Stand

/-! ## The instruction -/

section Spawn
variable {s : State} {xa xn : XReg}

theorem exec_kSpawn_tooMany (h : 64 < (s.fc.get xn).toNat) :
    exec (.kSpawn xa xn) s = .next (s.trapHere 2 (wordOf (.kSpawn xa xn))) := by
  show execKSpawn xa xn s = _
  rw [execKSpawn]; dsimp only; rw [if_pos h]

theorem exec_kSpawn_none (h : (s.fc.get xn).toNat = 0) : exec (.kSpawn xa xn) s = .next s.retire := by
  show execKSpawn xa xn s = _
  rw [execKSpawn]; dsimp only; rw [if_neg (by omega), if_pos h]

theorem exec_kSpawn_misaligned (h0 : 0 < (s.fc.get xn).toNat) (h64 : (s.fc.get xn).toNat ≤ 64) (h : (s.fc.get xa).toNat % 64 ≠ 0) :
    exec (.kSpawn xa xn) s = .next (s.trapHere 5 (s.fc.get xa)) := by
  show execKSpawn xa xn s = _
  rw [execKSpawn]; dsimp only; rw [if_neg (by omega), if_neg (by omega), if_pos h]

/-- The children's records, as the queue manager reads them. -/
def State.childRec (s : State) (q : Fin 2048) (b : Word) : BitVec 512 :=
  ofBytes512 ((s.unitRead (s.queueAgent q) b 64).getD [])

/-- The parents of some children, each as often as it has one. -/
def State.parentsOf (s : State) (q : Fin 2048) (kids : List Word) : List Word :=
  (kids.map fun b => recParent (s.childRec q b)).filter (· ≠ 0)

theorem State.mem_parentsOf {q : Fin 2048} {kids : List Word} {p : Word} :
    p ∈ s.parentsOf q kids ↔ (∃ b, b ∈ kids ∧ recParent (s.childRec q b) = p) ∧ p ≠ 0 := by
  simp [State.parentsOf]

theorem State.count_parentsOf {q : Fin 2048} {kids : List Word} {p : Word} (hp : p ≠ 0) :
    (s.parentsOf q kids).count p = (kids.filter fun b => recParent (s.childRec q b) = p).length := by
  rw [State.parentsOf, List.count_filter (by simpa using hp), List.count, List.countP_map, List.countP_eq_length_filter]
  congr 1

/-- Children that can be read and written: the checks of all of them decide. -/
theorem exec_kSpawn_checked {g : Nat} {q : Fin 2048} (h0 : 0 < (s.fc.get xn).toNat) (h64 : (s.fc.get xn).toNat ≤ 64)
    (aligned : (s.fc.get xa).toNat % 64 = 0) (range : rangeOk (s.fc.get xa) (64 * (s.fc.get xn).toNat) = true)
    (graph : s.spawnOf s.foc = some (g, q)) :
    let kids := childAddrs (s.fc.get xa) (s.fc.get xn).toNat
    let ps := s.parentsOf q kids
    s.spawnFault s.foc q kids = none →
    ((∃ b, b ∈ kids ∧ s.recOk q (s.childRec q b) = false) →
      exec (.kSpawn xa xn) s = .next (s.trapHere 2 (wordOf (.kSpawn xa xn)))) ∧
    ((∀ b, b ∈ kids → s.recOk q (s.childRec q b) = true) → (∀ p, p ∈ ps → joinRoom s q ps p = true ∧ s.parentMoving q p = false) →
      let t := kids.foldl (fun t b => t.enqueue g q b) (ps.foldl (fun t p => t.joinInc q p) s)
      exec (.kSpawn xa xn) s = .next (t.setFc { t.fc with st := .waiting, wait := .spawn })) := by
  intro kids ps fault
  have hps : (((kids.map fun b => s.childRec q b).map recParent).filter (· ≠ 0)) = ps := by
    rw [List.map_map]; rfl
  have hexec : exec (.kSpawn xa xn) s = execKSpawn xa xn s := rfl
  rw [hexec, execKSpawn]
  dsimp only
  rw [if_neg (by omega), if_neg (by omega), if_neg (by omega), if_neg (by simp [range]), graph]
  dsimp only
  rw [fault]
  dsimp only
  rw [show (childAddrs (s.fc.get xa) (s.fc.get xn).toNat).map (fun b => ofBytes512 ((s.unitRead (s.queueAgent q) b 64).getD [])) =
    kids.map fun b => s.childRec q b from rfl, hps]
  refine ⟨fun ⟨b, hb, bad⟩ => ?_, fun ok room => ?_⟩
  · rw [if_pos]
    have : ((kids.map fun b => s.childRec q b).all (s.recOk q)) = false := by
      rw [List.all_eq_false]
      exact ⟨_, List.mem_map_of_mem hb, by simp [bad]⟩
    simp [this]
  · have h1 : ((kids.map fun b => s.childRec q b).all (s.recOk q)) = true := by
      rw [List.all_map, List.all_eq_true]; exact ok
    have h2 : ps.all (joinRoom s q ps) = true := List.all_eq_true.2 fun p hp => (room p hp).1
    have h3 : ps.find? (s.parentMoving q) = none := List.find?_eq_none.2 fun p hp => by simp [(room p hp).2]
    rw [if_neg (by simp [h1, h2]), h3]

end Spawn

theorem spawnQueuesItsChildren : Claims.SpawnQueuesItsChildren := by
  intro s xa xn a n kids child
  refine ⟨fun h => completes_of (exec_kSpawn_none h) ?_, fun h user => ⟨_, exec_kSpawn_tooMany h, State.trapsToRuntime_trapHere user 2 _ (by decide)⟩,
    fun h0 h64 h user => ⟨_, exec_kSpawn_misaligned h0 h64 h, State.trapsToRuntime_trapHere user 5 _ (by decide)⟩,
    fun g q h0 h64 aligned range graph fault => ?_, fun frozen st wait => ?_⟩
  · rw [State.retire, State.fc_setFc]
    refine ⟨s.onlyCtx_setFc _, ⟨rfl, rfl, rfl⟩, ?_, fun _ _ => rfl⟩
    rw [if_pos rfl]; rfl
  · obtain ⟨hbad, hgood⟩ := exec_kSpawn_checked h0 h64 aligned range graph fault
    refine ⟨fun bad user => ⟨_, hbad bad, State.trapsToRuntime_trapHere user 2 _ (by decide)⟩, fun ok room => ?_⟩
    have hroom : ∀ p, p ∈ s.parentsOf q kids → joinRoom s q (s.parentsOf q kids) p = true ∧ s.parentMoving q p = false := fun p hp => by
      obtain ⟨⟨b, hb, rfl⟩, hne⟩ := State.mem_parentsOf.1 hp
      exact (room b hb hne).symm
    refine completes_of (hgood ok hroom) ?_
    have f := QueueFrame.foldl (State.joinInc_frame q) (s.parentsOf q kids) s
    have f' := f.trans (QueueFrame.foldl (State.enqueue_frame q g) kids _)
    have hrefs := State.refOf_enqueueAll q g kids ((s.parentsOf q kids).foldl (fun t p => t.joinInc q p) s)
    have htick : ((s.parentsOf q kids).foldl (fun t p => t.joinInc q p) s).tick = s.tick := by
      rw [State.tick, State.tick, f.cycle]
    have hrecs (ps : List Word) (key : Word → List Nat) (parents) (apart) (stand : RecsStand s q (kids ++ ps) key) :=
      spawned_records (l := s.parentsOf q kids) stand g parents apart
    generalize kids.foldl (fun t b => t.enqueue g q b) ((s.parentsOf q kids).foldl (fun t p => t.joinInc q p) s) = t at f' hrefs hrecs ⊢
    have hfc : { t.fc with resv := s.fc.resv } = s.fc := by
      rw [State.fc, f'.foc]; exact f'.ctxs s.foc
    rw [State.fc_setFc]
    refine ⟨rfl, rfl, (congrArg Ctx.pc hfc).trans rfl, fun r => Ctx.get_of_keeps hfc r, fun b hb => ?_,
      fun ps key parents apart stand => ?_⟩
    · obtain ⟨last, e⟩ := hrefs b (.inl hb)
      exact ⟨last, by rw [← htick]; exact e⟩
    · obtain ⟨hjoin, hkids⟩ := hrecs ps key (fun p hp => by
        obtain ⟨⟨b, hb, rfl⟩, hne⟩ := State.mem_parentsOf.1 hp
        exact parents b hb hne) apart stand
      refine ⟨fun p hp hne => ?_, hkids⟩
      refine (hjoin p hp ?_).trans (congrArg (recJoin (recBits s (key p)) + ·) (State.count_parentsOf hne))
      by_cases hmem : p ∈ s.parentsOf q kids
      · have := (joinRoom_iff (by simpa using stand.1 p (List.mem_append_right _ hp) s.mem fun _ _ => rfl) _).1 (hroom p hmem).1
        omega
      · rw [List.count_eq_zero_of_not_mem hmem]
        exact bitsN_lt ..
  · have hexec : exec .spawnAccepted s = .next s.resume.retire := by
      show execSpawnAccepted s = _
      rw [execSpawnAccepted, frozen, st, wait]
    have e : s.resume.retire = s.setFc ({ s.fc with st := .running, wait := .none } : Ctx).retire := by
      rw [State.retire, State.resume_fc, State.resume, State.setFc, State.setFc, State.setCtx_foc, State.setCtx_setCtx]
      rfl
    refine completes_of (hexec.trans (congrArg Host.Outcome.next e)) ?_
    rw [State.fc_setFc]
    exact ⟨rfl, rfl, fun _ => rfl, s.onlyCtx_setFc _⟩

/-- Settles O17: drains, the ends of turns by the fields of their records, and spawning by induction on the children. -/
theorem turnsDrainEndAndSpawn : Obligations.TurnsDrainEndAndSpawn :=
  ⟨drainWaitsForItsCommands, turnsEndAsTheTableSays, spawnQueuesItsChildren⟩

end Sys2Proof.Machine

/-! PROOFS. Peer transfers at their receiver and at their sender (O42; R199, R206 to R208, R225, R331). -/

namespace Sys2Proof.Machine

/-! ## The payload in granules (R225) -/

/-- The part of a list between two places. -/
theorem getElem?_drop_take {α : Type} (l : List α) {i j k : Nat} (hi : i + k < j) : ((l.drop i).take (j - i))[k]? = l[i + k]? := by
  rw [List.getElem?_take, if_pos (by omega), List.getElem?_drop]

/-- A granule of a transfer's payload. -/
theorem Hearth.putGranule_read (y : Hearth) (x : Xfer) (g a : Nat) : (y.putGranule x g).scratch.read a =
    if x.roff ≤ a ∧ a < x.roff + x.data.length ∧ a / 64 = g then (x.data[a - x.roff]?).getD 0 else y.scratch.read a := by
  rw [Hearth.putGranule]
  rw [Hearth.scratchStore_read, Mem.read_store, List.length_take, List.length_drop]
  by_cases h : x.roff ≤ a ∧ a < x.roff + x.data.length ∧ a / 64 = g
  · have hlo : max (64 * g) x.roff ≤ a := by omega
    have hhi : a < min (64 * g + 64) (x.roff + x.data.length) := by omega
    rw [if_pos h, if_pos (by omega)]
    refine congrArg (fun o : Option Byte => o.getD 0) ?_
    rw [show min (64 * g + 64) (x.roff + x.data.length) - max (64 * g) x.roff =
      (min (64 * g + 64) (x.roff + x.data.length) - x.roff) - (max (64 * g) x.roff - x.roff) by omega,
      getElem?_drop_take _ (by omega)]
    congr 1; omega
  · rw [if_neg h, if_neg (by omega)]

/-- Granules of a transfer's payload, written one after the other. -/
def Hearth.putGranules (y : Hearth) (x : Xfer) (gs : List Nat) : Hearth := gs.foldl (fun z g => z.putGranule x g) y

/-- They write their bytes, and else only reservations may be lost. -/
theorem Hearth.putGranules_spec (x : Xfer) (gs : List Nat) : ∀ y : Hearth,
    (∃ cs m, y.putGranules x gs = { y with ctxs := cs, scratch := m }) ∧
    (∀ c, ((y.putGranules x gs).ctx c).st = (y.ctx c).st) ∧
    ∀ a, (y.putGranules x gs).scratch.read a =
      if x.roff ≤ a ∧ a < x.roff + x.data.length ∧ a / 64 ∈ gs then (x.data[a - x.roff]?).getD 0 else y.scratch.read a := by
  induction gs with
  | nil => exact fun y => ⟨⟨_, _, rfl⟩, fun _ => rfl, fun a => by rw [if_neg (by simp)]; rfl⟩
  | cons g gs ih =>
    intro y
    obtain ⟨⟨cs, m, e⟩, hst, hread⟩ := ih (y.putGranule x g)
    refine ⟨⟨cs, m, e⟩, fun c => (hst c).trans ?_, fun a => (hread a).trans ?_⟩
    · rw [Hearth.putGranule, Hearth.scratchStore, Hearth.ctx_clearResv, if_neg (by simp)]
      exact (congrArg Ctx.st (Ctx.clearResv_keeps _ true _) :)
    · rw [Hearth.putGranule_read, ← ite_or]
      refine if_congr ?_ rfl rfl
      rw [List.mem_cons]
      tauto

/-- The granules of a transfer are those of its bytes. -/
theorem mem_xferGranules (x : Xfer) (g : Nat) :
    g ∈ xferGranules x ↔ ∃ a, x.roff ≤ a ∧ a < x.roff + x.data.length ∧ a / 64 = g := by
  rw [xferGranules]
  split
  · next h =>
    rw [List.isEmpty_iff] at h
    simp [h]
    omega
  · next h =>
    have hlen : 0 < x.data.length := by
      rw [List.isEmpty_iff] at h
      exact List.length_pos_iff.2 h
    rw [List.mem_range'_1]
    constructor
    · intro hg
      exact ⟨max x.roff (64 * g), by omega, by omega, by omega⟩
    · rintro ⟨a, h1, h2, rfl⟩
      have := Nat.div_le_div_right (c := 64) h1
      have := Nat.div_le_div_right (c := 64) (show a ≤ x.roff + x.data.length - 1 by omega)
      omega

/-- The granules of a transfer that arrive later. -/
def lateGranules (x : Xfer) (gs : List Nat) : List Nat := (xferGranules x).filter fun g => !gs.contains g

theorem lateGranules_eq_nil (x : Xfer) (gs : List Nat) : lateGranules x gs = [] ↔ WholeXfer x gs := by
  rw [lateGranules, List.filter_eq_nil_iff]
  constructor
  · intro h a h1 h2
    simpa using h _ ((mem_xferGranules x _).2 ⟨a, h1, h2, rfl⟩)
  · rintro h g hg
    obtain ⟨a, h1, h2, rfl⟩ := (mem_xferGranules x g).1 hg
    simpa using h a h1 h2

/-- What a hearth is once some granules of a transfer have arrived. -/
def Hearth.took (y : Hearth) (x : Xfer) (gs : List Nat) : Hearth := y.putGranules x ((xferGranules x).filter gs.contains)

theorem Hearth.took_read (y : Hearth) (x : Xfer) (gs : List Nat) (a : Nat) : (y.took x gs).scratch.read a =
    if x.roff ≤ a ∧ a < x.roff + x.data.length ∧ a / 64 ∈ gs then (x.data[a - x.roff]?).getD 0 else y.scratch.read a := by
  obtain ⟨-, -, hread⟩ := Hearth.putGranules_spec x ((xferGranules x).filter gs.contains) y
  refine (hread a).trans (if_congr ?_ rfl rfl)
  rw [List.mem_filter, mem_xferGranules, List.contains_iff_mem]
  exact ⟨fun ⟨h1, h2, _, h3⟩ => ⟨h1, h2, h3⟩, fun ⟨h1, h2, h3⟩ => ⟨h1, h2, ⟨a, h1, h2, rfl⟩, h3⟩⟩

/-- A transfer that has arrived whole stands in the scratchpad, and no other byte has changed. -/
theorem Hearth.took_whole (y : Hearth) {x : Xfer} {gs : List Nat} (whole : WholeXfer x gs) :
    (y.took x gs).scratch.bytes x.roff x.data.length = x.data ∧
      SameOutside x.roff x.data.length y.scratch (y.took x gs).scratch := by
  refine ⟨List.ext_getElem (by simp) fun i h1 h2 => ?_, fun a ha => ?_⟩
  · rw [Mem.getElem_bytes, Hearth.took_read, if_pos ⟨by omega, by omega, whole _ (by omega) (by omega)⟩]
    simp [h2]
  · rw [Hearth.took_read, if_neg (by omega)]

theorem Hearth.took_eq (y : Hearth) (x : Xfer) (gs : List Nat) : ∃ cs m, y.took x gs = { y with ctxs := cs, scratch := m } :=
  (Hearth.putGranules_spec x _ y).1

theorem Hearth.took_st (y : Hearth) (x : Xfer) (gs : List Nat) (c : Fin 4) : ((y.took x gs).ctx c).st = (y.ctx c).st :=
  (Hearth.putGranules_spec x _ y).2.1 c

/-! ## The sender's end (R199, R208) -/

/-- The command that sent a transfer is one of a hearth that runs. -/
def SentBy (s : State) (x : Xfer) (g : Fin 640) (q : Nat) : Prop :=
  x.schip = s.links.chip ∧ x.shearth = g.val ∧ x.sseq = some q ∧ (s.hearth g).epoch = x.sepoch

/-- An acknowledgement changes commands of hearths, and the saved copies. -/
theorem State.answerPeer_true_frame (s : State) (x : Xfer) :
    (s.answerPeer x true).mem = s.mem ∧ (s.answerPeer x true).links = s.links ∧ (s.answerPeer x true).foc = s.foc ∧
    ∀ k, ∃ cmds, (s.answerPeer x true).hearth k = { s.hearth k with cmds := cmds } := by
  have hack (y : Hearth) (q n : Nat) : ∃ cmds, y.ackPeer q n = { y with cmds := cmds } := by
    rw [Hearth.ackPeer]
    split
    · exact ⟨_, rfl⟩
    · split <;> exact ⟨_, rfl⟩
  rw [State.answerPeer]
  split
  · exact ⟨rfl, rfl, rfl, fun k => ⟨_, rfl⟩⟩
  · next q _ =>
    split
    · exact ⟨rfl, rfl, rfl, fun k => ⟨_, rfl⟩⟩
    · dsimp only
      split
      · exact ⟨rfl, rfl, rfl, fun k => ⟨_, rfl⟩⟩
      · rw [if_pos rfl]
        refine ⟨rfl, rfl, rfl, fun k => ?_⟩
        rw [State.hearth_setHearth]
        split
        · next hk => subst hk; exact hack ..
        · exact ⟨_, rfl⟩

/-- What the answer does at a sender that runs: an acknowledgement marks its command, and a refusal without a command changes nothing. -/
theorem State.answerPeer_own {s : State} {x : Xfer} {g : Fin 640} {q : Nat} (sent : SentBy s x g q) :
    s.answerPeer x true = s.setHearth g ((s.hearth g).ackPeer q x.data.length) ∧
    ((s.hearth g).cmd? q = none → s.answerPeer x false = s) := by
  obtain ⟨own, hh, hq, he⟩ := sent
  have hown : s.isOwn x = true := by simp [State.isOwn, own, hh]
  have hf : Fin.ofNat 640 x.shearth = g := by rw [hh]; exact Fin.ofNat_val_eq_self g
  refine ⟨?_, fun hc => ?_⟩
  · simp only [State.answerPeer, hq, hown, hf, he, Bool.not_true, Bool.false_eq_true, if_false, if_true, ne_eq, not_true_eq_false]
  · simp only [State.answerPeer, hq, hown, hf, he, hc, Bool.not_true, Bool.false_eq_true, if_false, ne_eq, not_true_eq_false]

/-- The acknowledged command has performed. -/
theorem State.answerPeer_acked {s : State} {x : Xfer} {g : Fin 640} {q : Nat} {c : Cmd} (sent : SentBy s x g q)
    (hc : (s.hearth g).cmd? q = some c) (op : c.op = some .cpPeer) :
    (((s.answerPeer x true).hearth g).cmd? q).map (fun d => (d.performed, d.acked, d.bytes)) = some (true, true, x.data.length) := by
  have hseq : c.seq = q := by simpa using List.find?_some hc
  rw [(State.answerPeer_own sent).1, State.hearth_setHearth_self, Hearth.ackPeer, hc]
  dsimp only
  rw [if_pos (by simp [op]), Hearth.cmd?, Hearth.setCmd, List.find?_map]
  have hp : ((fun d : Cmd => d.seq == q) ∘ fun d : Cmd =>
      if d.seq = c.seq then { c with performed := true, acked := true, bytes := x.data.length } else d) =
      fun d : Cmd => d.seq == q := by
    funext d
    by_cases h : d.seq = c.seq
    · simp [h, hseq]
    · simp [h]
  rw [hp, show (s.hearth g).cmds.find? (fun d => d.seq == q) = some c from hc]
  simp

/-- What a command that fails leaves of the hearths. -/
theorem State.failCmd_frame (s : State) (g : Fin 640) (c : Cmd) (cause detail : Nat) (a : Word) :
    (s.failCmd g c cause detail a).foc = s.foc ∧
    ∀ k, ((s.failCmd g c cause detail a).hearth k).scratch = (s.hearth k).scratch ∧
      ((s.failCmd g c cause detail a).hearth k).flags = (s.hearth k).flags := by
  rw [State.failCmd]
  generalize hx : Hearth.dropFailed _ = x
  have hscr : x.scratch = (s.hearth g).scratch ∧ x.flags = (s.hearth g).flags := by rw [← hx]; exact ⟨rfl, rfl⟩
  have body := (s.setHearth g x).sameBody_asyncTrap ⟨g, c.ctx⟩ c.run ⟨cause, asyncWord c.seq c.slot detail, a⟩
  refine ⟨body.foc, fun k => ?_⟩
  rw [body.scratch, State.asyncTrap_flags, State.hearth_setHearth]
  split
  · next hk => subst hk; exact hscr
  · exact ⟨rfl, rfl⟩

/-- The context of a command that fails has its trap pending, while it runs that command's record. -/
theorem State.failCmd_pend (s : State) (g : Fin 640) (c : Cmd) (cause detail : Nat) (a : Word)
    (busy : ((s.hearth g).ctx c.ctx).st ≠ .free ∧ ((s.hearth g).ctx c.ctx).st ≠ .armed)
    (run : ((s.hearth g).ctx c.ctx).run = c.run) :
    (((s.failCmd g c cause detail a).hearth g).ctx c.ctx).pend =
      ((s.hearth g).ctx c.ctx).pend ++ [⟨cause, asyncWord c.seq c.slot detail, a⟩] := by
  rw [State.failCmd]
  generalize hx : Hearth.dropFailed _ = x
  have hk : (s.setHearth g x).ctx ⟨g, c.ctx⟩ = (s.hearth g).ctx c.ctx := by
    rw [State.ctx, State.hearth_setHearth_self, ← hx]; rfl
  rw [State.asyncTrap, hk]
  rw [if_pos (by simp [busy, run])]
  exact congrArg Ctx.pend ((s.setHearth g x).ctx_setCtx_self ⟨g, c.ctx⟩ _)

/-- A refusal ends the command, whose context takes the trap, and changes no scratchpad and no flag. -/
theorem State.answerPeer_false_spec {s : State} {x : Xfer} {g : Fin 640} {q : Nat} (sent : SentBy s x g q)
    (log : ∀ e, e ∈ (s.hearth g).sideLog → e.seq ≠ q) :
    ((s.answerPeer x false).hearth g).cmd? q = none ∧ (s.answerPeer x false).mem = s.mem ∧
    (s.answerPeer x false).foc = s.foc ∧
    (∀ k, ((s.answerPeer x false).hearth k).scratch = (s.hearth k).scratch ∧ ((s.answerPeer x false).hearth k).flags = (s.hearth k).flags) ∧
    ∀ c, (s.hearth g).cmd? q = some c → ((s.hearth g).ctx c.ctx).st ≠ .free → ((s.hearth g).ctx c.ctx).st ≠ .armed →
      ((s.hearth g).ctx c.ctx).run = c.run → (((s.answerPeer x false).hearth g).ctx c.ctx).pend =
        ((s.hearth g).ctx c.ctx).pend ++ [⟨7, asyncWord q c.slot 3, 0⟩] := by
  cases hc : (s.hearth g).cmd? q with
  | none =>
    rw [(State.answerPeer_own sent).2 hc]
    exact ⟨hc, rfl, rfl, fun k => ⟨rfl, rfl⟩, fun c h => nomatch h⟩
  | some c =>
    have hseq : c.seq = q := by simpa using List.find?_some hc
    obtain ⟨own, hh, hq, he⟩ := sent
    rw [State.answerPeer_refused own hh hq he.symm hc]
    obtain ⟨hfoc, hkeep⟩ := s.failCmd_frame g c 7 3 0
    refine ⟨?_, s.failCmd_mem .., hfoc, fun k => ?_, fun c' h free armed run => ?_⟩
    · rw [State.hearth_setHearth_self, ← hseq]
      exact s.cmd?_failCmd g c 7 3 0 (by rw [hseq]; exact log)
    · rw [State.hearth_setHearth]
      split
      · next hk => subst hk; exact hkeep g
      · exact hkeep k
    · cases h
      rw [State.hearth_setHearth_self, ← hseq]
      exact s.failCmd_pend g c 7 3 0 ⟨free, armed⟩ run

end Sys2Proof.Machine

/-! PROOFS. What becomes of a transfer that arrives (O42; R206 to R208, R225, R235, R331). -/

namespace Sys2Proof.Machine

/-! ## A transfer taken off the wire -/

/-- The state in which a transfer has left the wire. -/
def State.offWire (s : State) (x : Xfer) : State := s.setLinks { s.links with wire := s.links.wire.erase x }

section Arrival
variable {x : Xfer} {gs : List Nat} {s : State} {h : Fin 640}

theorem exec_peerArrival (wire : OnWire x s h) : exec (.peerArrival x gs) s = .next ((s.offWire x).receive x gs) := by
  obtain ⟨hon, hchip, hdst, hnew⟩ := wire
  have hf : Fin.ofNat 640 x.dhearth = h := by rw [hdst]; exact Fin.ofNat_val_eq_self h
  have hin : s.incoming x = none := by
    rw [State.incoming]
    split
    · rw [Option.map_eq_none_iff, List.find?_eq_none, hf]
      exact fun i hi => by simpa using hnew i hi
    · rfl
  have htake : s.takeXfer x = some (s.offWire x) := by
    rw [State.takeXfer, if_pos hon]; rfl
  show execPeerArrival x gs s = _
  rw [execPeerArrival, hin, htake]
  dsimp only
  rw [if_neg (fun e => e hchip)]

theorem State.receive_eq (hdst : x.dhearth = h.val) : s.receive x gs =
    if (s.hearth h).idle || s.isSaved h then s.setHearth h { s.hearth h with port := (s.hearth h).port ++ [x] }
    else if !(s.hearth h).admits x then s.answerPeer x false
    else if s.portHolds h x then s.setHearth h { s.hearth h with port := (s.hearth h).port ++ [x] }
    else (s.setHearth h { s.hearth h with arriving := (s.hearth h).arriving ++ [⟨x, xferGranules x⟩] }).letIn h
      ⟨x, xferGranules x⟩ gs := by
  have hf : Fin.ofNat 640 x.dhearth = h := by rw [hdst]; exact Fin.ofNat_val_eq_self h
  have hlt : ¬ 640 ≤ x.dhearth := by omega
  rw [State.receive, if_neg hlt]
  simp only [hf]

/-- The granules of an admitted transfer that arrive, and what comes behind the last. -/
theorem State.letIn_new (hnew : ∀ i, i ∈ (s.hearth h).arriving → i.x ≠ x) :
    (s.setHearth h { s.hearth h with arriving := (s.hearth h).arriving ++ [⟨x, xferGranules x⟩] }).letIn h ⟨x, xferGranules x⟩ gs =
    if !(lateGranules x gs).isEmpty then s.setHearth h { (s.hearth h).took x gs with
      arriving := (s.hearth h).arriving ++ [⟨x, lateGranules x gs⟩] }
    else if ((s.hearth h).took x gs).backlog x 0 then
      s.setHearth h { s.hearth h with arriving := (s.hearth h).arriving ++ [⟨x, xferGranules x⟩] }
    else ((s.setHearth h ((s.hearth h).took x gs)).arrived h x).answerPeer x true := by
  have herase : ((s.hearth h).arriving ++ [(⟨x, xferGranules x⟩ : Incoming)]).erase ⟨x, xferGranules x⟩ = (s.hearth h).arriving := by
    rw [List.erase_append_right _ fun hm => hnew _ hm rfl, List.erase_cons_head, List.append_nil]
  rw [State.letIn]
  simp only [State.hearth_setHearth_self, herase, State.setHearth_setHearth]
  rfl

end Arrival

/-! ## Its flag and its handler (R208, R235, R236) -/

/-- Contexts that agree in their states are taken alike. -/
theorem emberTakes_congr {y z : Hearth} (h : ∀ c, (z.ctx c).st = (y.ctx c).st) (c : Fin 4) : EmberTakes z c ↔ EmberTakes y c := by
  simp only [EmberTakes, h]

/-- The first of the four contexts of a kind. -/
theorem find?_contexts {p : Fin 4 → Bool} {c : Fin 4} (hc : p c = true) (low : ∀ d, d < c → p d = false) :
    [(0 : Fin 4), 1, 2, 3].find? p = some c := by
  have at_ : ∀ (i : Nat) (h : i < 4), [(0 : Fin 4), 1, 2, 3][i]'h = ⟨i, h⟩ := by decide
  refine List.find?_eq_some_iff_getElem.2 ⟨hc, c.val, c.isLt, at_ _ _, fun j hj => ?_⟩
  rw [at_ j (hj.trans c.isLt), low _ hj]
  rfl

theorem Hearth.emberCtx_of {x : Hearth} {c : Fin 4} (h : EmberTakes x c) : x.emberCtx = some c := by
  rw [Hearth.emberCtx]
  rcases h with ⟨hc, low⟩ | ⟨none, hc, low⟩
  · rw [find?_contexts (c := c) (p := fun c => (x.ctx c).st == .armed) (by simp [hc]) fun d hd => by simpa using low d hd]
    rfl
  · have harmed : [(0 : Fin 4), 1, 2, 3].find? (fun c => (x.ctx c).st == .armed) = .none :=
      List.find?_eq_none.2 fun d _ => by simpa using none d
    rw [harmed, find?_contexts (c := c) (p := fun c => (x.ctx c).st == .free) (by simp [hc]) fun d hd => by simpa using low d hd]
    rfl

theorem Hearth.emberCtx_none {x : Hearth} (h : ∀ c, (x.ctx c).st ≠ .armed ∧ (x.ctx c).st ≠ .free) : x.emberCtx = none := by
  have harmed : [(0 : Fin 4), 1, 2, 3].find? (fun c => (x.ctx c).st == .armed) = none :=
    List.find?_eq_none.2 fun d _ => by simpa using (h d).1
  have hfree : [(0 : Fin 4), 1, 2, 3].find? (fun c => (x.ctx c).st == .free) = none :=
    List.find?_eq_none.2 fun d _ => by simpa using (h d).2
  rw [Hearth.emberCtx, harmed, hfree]
  rfl

/-- An ember context has started, and nothing else has changed. -/
theorem State.startEmber_spec (s : State) (l : Loc) (a : Arrival) (parked : Bool) :
    StartsHandler ((s.startEmber l a parked).ctx l) a parked ∧ OnlyCtx l s (s.startEmber l a parked) := by
  refine ⟨?_, s.onlyCtx_setCtx l _⟩
  rw [State.startEmber, State.ctx_setCtx_self]
  refine ⟨rfl, rfl, rfl, rfl, fun r => ?_, ?_⟩
  · refine (((s.hearth l.h).ctx l.c).get_start (s.hearth l.h).lmtrapDefault (s.hearth l.h).runId .ember (BitVec.ofNat 64 a.hoff)
      (BitVec.ofNat 64 emberSpill) 0 [] r).trans ?_
    split
    · rfl
    · exact ite_self _
  · generalize a.desc parked = d
    show ofBytes512 ((Mem.store _ emberSpill (bytes512 d)).bytes 32704 64) = d
    generalize hm : Ctx.spill _ = m
    have h := Mem.bytes_store_self m emberSpill (bytes512 d)
    rw [show (bytes512 d).length = 64 from length_leBytes ..] at h
    rw [show (m.store emberSpill (bytes512 d)).bytes 32704 64 = bytes512 d from h]
    exact ofNat_leNat_leBytes 64 d rfl

section Behind
variable {x : Xfer} {s : State} {h : Fin 640}

theorem State.flagAddNow_peer_links (s : State) (h : Fin 640) (a : Arrival) (fl : Fin 256) (v : Nat) :
    (s.flagAddNow h (.peer a) fl v).links = s.links := by
  unfold State.flagAddNow
  dsimp only
  split <;> rfl

/-- Behind a payload without a handler: its flag. -/
theorem State.arrived_flag (stopped : (s.hearth h).hob.stopped = false) (handler : x.hnden = false) :
    SameBody s (s.arrived h x) ∧ (s.arrived h x).mem = s.mem ∧ (s.arrived h x).links = s.links ∧
    ∀ fl, (((s.arrived h x).hearth h).flag fl).toNat =
      if x.flagen = true ∧ fl = x.rflag then min (2 ^ 32 - 1) (((s.hearth h).flag fl).toNat + x.rval)
      else ((s.hearth h).flag fl).toNat := by
  have e : s.arrived h x = if x.flagen then s.flagAddNow h (.peer (s.arrivalOf x)) x.rflag x.rval else s := by
    rw [State.arrived]
    simp only [handler, Bool.not_false, if_true, State.flagAdd, stopped, Bool.false_eq_true, if_false]
  rw [e]
  by_cases hf : x.flagen = true
  · rw [if_pos hf]
    refine ⟨s.sameBody_flagAddNow .., s.flagAddNow_mem .., s.flagAddNow_peer_links .., fun fl => ?_⟩
    rw [State.flag_flagAddNow]
    by_cases hfl : fl = x.rflag
    · subst hfl
      rw [if_pos rfl, if_pos ⟨hf, rfl⟩, satAdd_toNat]
    · rw [if_neg (Ne.symm hfl), if_neg fun e => hfl e.2]
  · rw [if_neg hf]
    exact ⟨.refl s, rfl, rfl, fun fl => by rw [if_neg fun e => hf e.1]⟩

/-- Behind a payload with a handler and no flag: the handler starts. -/
theorem State.arrived_handler {c : Fin 4} (stopped : (s.hearth h).hob.stopped = false) (flag : x.flagen = false)
    (handler : x.hnden = true) (queue : (s.hearth h).arrQ = []) (takes : EmberTakes (s.hearth h) c) :
    s.arrived h x = s.startEmber ⟨h, c⟩ (s.arrivalOf x) false := by
  rw [State.arrived]
  simp only [flag, handler, Bool.not_true, Bool.false_eq_true, if_false, stopped, State.startHandler, Hearth.emberCtx_of takes, queue]

end Behind

/-! ## The claim -/

section Peer
variable {x : Xfer} {gs : List Nat} {s : State} {h : Fin 640}

/-- An admitted transfer is received at once where its flag and its handler find room. -/
theorem exec_peerArrival_admitted (wire : OnWire x s h) (idle : (s.hearth h).idle = false) (saved : s.isSaved h = false)
    (admits : (s.hearth h).admits x = true) (room : (s.hearth h).backlog x (s.hearth h).comingStarts = false)
    (room' : ((s.hearth h).took x gs).backlog x 0 = false) :
    exec (.peerArrival x gs) s = .next (if !(lateGranules x gs).isEmpty then (s.offWire x).setHearth h { (s.hearth h).took x gs with
        arriving := (s.hearth h).arriving ++ [⟨x, lateGranules x gs⟩] }
      else (((s.offWire x).setHearth h ((s.hearth h).took x gs)).arrived h x).answerPeer x true) := by
  rw [exec_peerArrival wire]
  obtain ⟨-, -, hdst, hnew⟩ := wire
  have hy : (s.offWire x).hearth h = s.hearth h := rfl
  have hholds : (s.offWire x).portHolds h x = false := by
    rw [State.portHolds, hy, idle, room, show (s.offWire x).isSaved h = _ from saved]; rfl
  rw [State.receive_eq hdst, hy, if_neg (by simp [idle, show (s.offWire x).isSaved h = _ from saved]), if_neg (by simp [admits]),
    if_neg (by simp [hholds]), ← hy, State.letIn_new (by exact hnew), hy, room', if_neg (c := false = true) (by decide)]

/-- Where no handler is to start, a running hearth has room for a transfer. -/
theorem Hearth.backlog_flag {y : Hearth} (stopped : y.hob.stopped = false) (handler : x.hnden = false) (n : Nat) :
    y.backlog x n = false := by
  simp [Hearth.backlog, handler, Hearth.heldRoom, stopped]

/-- Where none waits and none comes, a running hearth has room for a handler. -/
theorem Hearth.backlog_handler {y : Hearth} (stopped : y.hob.stopped = false) (held : y.hob.held = []) (queue : y.arrQ = []) :
    y.backlog x 0 = false := by
  have hentries : Config.arrivalEntries ≠ 0 := by decide
  simp [Hearth.backlog, Hearth.heldRoom, stopped, Hearth.heldStarts, held, queue, hentries]

/-- A hearth that has taken granules has its commands, and runs the same state. -/
theorem State.took_cmds (s : State) (h : Fin 640) (x : Xfer) (gs : List Nat) (g : Fin 640) :
    ((s.setHearth h ((s.hearth h).took x gs)).hearth g).cmds = (s.hearth g).cmds ∧
    ((s.setHearth h ((s.hearth h).took x gs)).hearth g).epoch = (s.hearth g).epoch := by
  rw [State.hearth_setHearth]
  split
  · next hg =>
    subst hg
    obtain ⟨cs, m, e⟩ := (s.hearth h).took_eq x gs
    rw [e]
    exact ⟨rfl, rfl⟩
  · exact ⟨rfl, rfl⟩

/-- Behind a payload that has arrived whole and its flag, the sender has its acknowledgement. -/
theorem arrived_acked {t : State} {g : Fin 640} {q : Nat} {c : Cmd} (links : t.links.chip = s.links.chip)
    (cmds : (t.hearth g).cmds = (s.hearth g).cmds ∧ (t.hearth g).epoch = (s.hearth g).epoch) (sent : SentBy s x g q)
    (hc : (s.hearth g).cmd? q = some c) (op : c.op = some .cpPeer) :
    (((t.answerPeer x true).hearth g).cmd? q).map (fun d => (d.performed, d.acked, d.bytes)) = some (true, true, x.data.length) := by
  obtain ⟨own, hh, hq, he⟩ := sent
  refine State.answerPeer_acked ⟨own.trans links.symm, hh, hq, cmds.2.trans he⟩ ?_ op
  rw [Hearth.cmd?, cmds.1]
  exact hc

/-- A whole transfer without a handler. -/
theorem peerArrival_whole (wire : OnWire x s h) (idle : (s.hearth h).idle = false) (saved : s.isSaved h = false)
    (admits : (s.hearth h).admits x = true) (stopped : (s.hearth h).hob.stopped = false) (handler : x.hnden = false)
    (whole : WholeXfer x gs) : Completes (.peerArrival x gs) s fun t =>
      ((t.hearth h).scratch.bytes x.roff x.data.length = x.data ∧
        SameOutside x.roff x.data.length (s.hearth h).scratch (t.hearth h).scratch ∧ t.mem = s.mem ∧
        t.links.wire = s.links.wire.erase x) ∧
      (∀ fl, ((t.hearth h).flag fl).toNat = if x.flagen = true ∧ fl = x.rflag
        then min (2 ^ 32 - 1) (((s.hearth h).flag fl).toNat + x.rval) else ((s.hearth h).flag fl).toNat) ∧
      ∀ g q c, SentBy s x g q → (s.hearth g).cmd? q = some c → c.op = some .cpPeer →
        ((t.hearth g).cmd? q).map (fun d => (d.performed, d.acked, d.bytes)) = some (true, true, x.data.length) := by
  obtain ⟨cs, m, htook⟩ := (s.hearth h).took_eq x gs
  have hexec := exec_peerArrival_admitted (gs := gs) wire idle saved admits (Hearth.backlog_flag stopped handler _)
    (Hearth.backlog_flag (by rw [htook]; exact stopped) handler 0)
  rw [(lateGranules_eq_nil x gs).2 whole, if_neg (by simp)] at hexec
  refine completes_of hexec ?_
  have hcmds := (s.offWire x).took_cmds h x gs
  have hv : ((s.offWire x).setHearth h ((s.hearth h).took x gs)).hearth h = (s.hearth h).took x gs := State.hearth_setHearth_self ..
  have hmem : ((s.offWire x).setHearth h ((s.hearth h).took x gs)).mem = s.mem := rfl
  have hlinks : ((s.offWire x).setHearth h ((s.hearth h).took x gs)).links = (s.offWire x).links := rfl
  rw [show (s.offWire x).hearth h = s.hearth h from rfl] at hcmds
  generalize (s.offWire x).setHearth h ((s.hearth h).took x gs) = v at hcmds hv hmem hlinks ⊢
  obtain ⟨body, amem, alinks, aflags⟩ := State.arrived_flag (s := v) (h := h) (x := x) (by rw [hv, htook]; exact stopped) handler
  obtain ⟨umem, ulinks, -, uhearth⟩ := (v.arrived h x).answerPeer_true_frame x
  obtain ⟨cmds, hu⟩ := uhearth h
  obtain ⟨hdata, hout⟩ := (s.hearth h).took_whole whole
  have hscr : (((v.arrived h x).answerPeer x true).hearth h).scratch = ((s.hearth h).took x gs).scratch := by
    rw [hu]; exact (body.scratch h).trans (congrArg Hearth.scratch hv)
  refine ⟨⟨by rw [hscr]; exact hdata, by rw [hscr]; exact hout, by rw [umem, amem, hmem], by rw [ulinks, alinks, hlinks]; rfl⟩,
    fun fl => ?_, fun g q c sent hc op => arrived_acked (s := s) ?_ ⟨?_, ?_⟩ sent hc op⟩
  · have hflag : (((v.arrived h x).answerPeer x true).hearth h).flag fl = ((v.arrived h x).hearth h).flag fl := by rw [hu]; rfl
    have hbefore : (v.hearth h).flag fl = (s.hearth h).flag fl := by rw [hv, htook]; rfl
    rw [hflag, aflags, hbefore]
  · rw [alinks, hlinks]; rfl
  · exact (body.cmds g).trans (hcmds g).1
  · exact (congrArg Hearth.epoch (body.2 g) :).trans (hcmds g).2

/-- A whole transfer with a handler, which starts at once. -/
theorem peerArrival_handler {c : Fin 4} (wire : OnWire x s h) (idle : (s.hearth h).idle = false) (saved : s.isSaved h = false)
    (admits : (s.hearth h).admits x = true) (stopped : (s.hearth h).hob.stopped = false) (held : (s.hearth h).hob.held = [])
    (arriving : (s.hearth h).arriving = []) (handler : x.hnden = true) (flag : x.flagen = false) (queue : (s.hearth h).arrQ = [])
    (takes : EmberTakes (s.hearth h) c) (whole : WholeXfer x gs) : Completes (.peerArrival x gs) s fun t =>
      ((t.hearth h).scratch.bytes x.roff x.data.length = x.data ∧
        SameOutside x.roff x.data.length (s.hearth h).scratch (t.hearth h).scratch ∧ t.mem = s.mem ∧
        t.links.wire = s.links.wire.erase x) ∧
      StartsHandler (t.ctx ⟨h, c⟩) (s.arrivalOf x) false ∧ (t.hearth h).flags = (s.hearth h).flags := by
  obtain ⟨cs, m, htook⟩ := (s.hearth h).took_eq x gs
  have hcoming : (s.hearth h).comingStarts = 0 := by rw [Hearth.comingStarts, arriving]; rfl
  have hexec := exec_peerArrival_admitted (gs := gs) wire idle saved admits
    (by rw [hcoming]; exact Hearth.backlog_handler stopped held queue)
    (Hearth.backlog_handler (by rw [htook]; exact stopped) (by rw [htook]; exact held) (by rw [htook]; exact queue))
  rw [(lateGranules_eq_nil x gs).2 whole, if_neg (by simp)] at hexec
  refine completes_of hexec ?_
  have hv : ((s.offWire x).setHearth h ((s.hearth h).took x gs)).hearth h = (s.hearth h).took x gs := State.hearth_setHearth_self ..
  have hmem : ((s.offWire x).setHearth h ((s.hearth h).took x gs)).mem = s.mem := rfl
  have hlinks : ((s.offWire x).setHearth h ((s.hearth h).took x gs)).links = (s.offWire x).links := rfl
  have harr : ((s.offWire x).setHearth h ((s.hearth h).took x gs)).arrivalOf x = s.arrivalOf x := rfl
  generalize (s.offWire x).setHearth h ((s.hearth h).took x gs) = v at hv hmem hlinks harr ⊢
  rw [State.arrived_handler (c := c) (by rw [hv, htook]; exact stopped) flag handler (by rw [hv, htook]; exact queue)
    (by rw [hv]; exact (emberTakes_congr ((s.hearth h).took_st x gs) c).2 takes), harr]
  obtain ⟨hstart, hworld, -, hrest⟩ := v.startEmber_spec ⟨h, c⟩ (s.arrivalOf x) false
  have amem : (v.startEmber ⟨h, c⟩ (s.arrivalOf x) false).mem = v.mem := rfl
  have alinks : (v.startEmber ⟨h, c⟩ (s.arrivalOf x) false).links = v.links := rfl
  generalize v.startEmber ⟨h, c⟩ (s.arrivalOf x) false = t at hstart hrest amem alinks ⊢
  obtain ⟨umem, ulinks, -, uhearth⟩ := t.answerPeer_true_frame x
  obtain ⟨cmds, hu⟩ := uhearth h
  obtain ⟨hdata, hout⟩ := (s.hearth h).took_whole whole
  have hscr : ((t.answerPeer x true).hearth h).scratch = ((s.hearth h).took x gs).scratch := by
    rw [hu]; exact (congrArg Hearth.scratch hrest :).trans (congrArg Hearth.scratch hv)
  refine ⟨⟨by rw [hscr]; exact hdata, by rw [hscr]; exact hout, by rw [umem, amem, hmem], by rw [ulinks, alinks, hlinks]; rfl⟩, ?_, ?_⟩
  · rw [show (t.answerPeer x true).ctx ⟨h, c⟩ = t.ctx ⟨h, c⟩ by rw [State.ctx, hu]; rfl]
    exact hstart
  · rw [hu]
    refine (congrArg Hearth.flags hrest :).trans ?_
    rw [hv, htook]

/-- A transfer that is not admitted is refused. -/
theorem exec_peerArrival_refused (wire : OnWire x s h) (idle : (s.hearth h).idle = false) (saved : s.isSaved h = false)
    (admits : (s.hearth h).admits x = false) : exec (.peerArrival x gs) s = .next ((s.offWire x).answerPeer x false) := by
  have hy : (s.offWire x).hearth h = s.hearth h := rfl
  rw [exec_peerArrival wire, State.receive_eq wire.2.2.1, hy, if_neg (by simp [idle, show (s.offWire x).isSaved h = _ from saved]),
    if_pos (by simp [admits])]

/-- A transfer for a hearth that is saved or being saved waits at its port. -/
theorem exec_peerArrival_port (wire : OnWire x s h) (busy : (s.hearth h).idle = true ∨ s.isSaved h = true) :
    exec (.peerArrival x gs) s =
      .next ((s.offWire x).setHearth h { s.hearth h with port := (s.hearth h).port ++ [x] }) := by
  have hy : (s.offWire x).hearth h = s.hearth h := rfl
  rw [exec_peerArrival wire, State.receive_eq wire.2.2.1, hy, if_pos]
  rw [show (s.offWire x).isSaved h = s.isSaved h from rfl, Bool.or_eq_true]
  exact busy

theorem peerTransfersArrive : Claims.PeerTransfersArrive := by
  intro x gs s h wire y payload sender
  obtain ⟨cs, m, htook⟩ := y.took_eq x gs
  refine ⟨fun idle saved => ⟨fun admits stopped handler => ⟨fun whole => ?_, fun part => ?_⟩,
    fun c admits stopped held arriving handler flag queue takes whole =>
      peerArrival_handler wire idle saved admits stopped held arriving handler flag queue takes whole,
    fun admits => ⟨fun none => ?_, fun g q c sent log => ?_⟩⟩, fun busy => ?_⟩
  · refine (peerArrival_whole wire idle saved admits stopped handler whole).imp fun t ⟨hpay, hflags, hack⟩ =>
      ⟨hpay, hflags, fun g q c ⟨h1, h2, h3, h4, hc⟩ op => hack g q c ⟨h1, h2, h3, h4⟩ hc op⟩
  · have hexec := exec_peerArrival_admitted (gs := gs) wire idle saved admits (Hearth.backlog_flag stopped handler _)
      (Hearth.backlog_flag (by rw [htook]; exact stopped) handler 0)
    rw [if_pos (by rw [Bool.not_eq_true', List.isEmpty_eq_false_iff]; exact fun e => part ((lateGranules_eq_nil x gs).1 e))] at hexec
    refine completes_of hexec ?_
    rw [State.hearth_setHearth_self]
    refine ⟨y.took_read x gs, ?_, rfl, ⟨_, rfl, rfl⟩, rfl⟩
    show (y.took x gs).flags = y.flags
    rw [htook]
  · have e : (s.offWire x).answerPeer x false = s.offWire x := by rw [State.answerPeer, none]
    refine completes_of ((exec_peerArrival_refused wire idle saved admits).trans (congrArg Host.Outcome.next e)) ⟨rfl, rfl⟩
  · obtain ⟨h1, h2, h3, h4, hc⟩ := sent
    obtain ⟨hgone, hmem, -, hkeep, hpend⟩ := State.answerPeer_false_spec (s := s.offWire x) (x := x) (g := g) (q := q) ⟨h1, h2, h3, h4⟩ log
    exact completes_of (exec_peerArrival_refused wire idle saved admits)
      ⟨hgone, hkeep, hmem, fun free armed run => hpend c hc free armed run⟩
  · refine completes_of (exec_peerArrival_port wire busy) ⟨State.hearth_setHearth_self .., rfl, fun g hg => ?_, rfl⟩
    exact State.hearth_setHearth_ne _ _ hg

end Peer

end Sys2Proof.Machine

/-! PROOFS. Queued arrivals and cold starts (O42; R28, R98, R235, R354), and the obligation from its parts. -/

namespace Sys2Proof.Machine

/-! ## Queued arrivals (R235) -/

section Queue
variable {s : State} {h : Fin 640}

theorem State.takeQueued_step {c : Fin 4} {b : Arrival} {rest : List Arrival} (still : (s.hearth h).still = false)
    (takes : EmberTakes (s.hearth h) c) (queue : (s.hearth h).arrQ = b :: rest) (n : Nat) : s.takeQueued h (n + 1) =
      ((s.setHearth h { s.hearth h with arrQ := rest }).startEmber ⟨h, c⟩ b true).takeQueued h n := by
  rw [State.takeQueued]
  simp only [still, Hearth.emberCtx_of takes, queue]

theorem State.takeQueued_full (none : (s.hearth h).emberCtx = none) (n : Nat) : s.takeQueued h n = s := by
  cases n with
  | zero => rfl
  | succ n =>
    unfold State.takeQueued
    simp only [none]
    split
    · next h _ => exact nomatch h
    · rfl

theorem queuedArrivalStarts (s : State) (a : Arrival) (rest : List Arrival) (c : Fin 4) (stopped : s.fh.hob.stopped = false)
    (idle : s.fh.idle = false) (queue : s.fh.arrQ = a :: rest) (takes : EmberTakes s.fh c)
    (only : rest = [] ∨ ∀ d, d ≠ c → (s.fh.ctx d).st ≠ .armed ∧ (s.fh.ctx d).st ≠ .free) :
    Completes .queuedArrivalStart s fun t => t.fh.arrQ = rest ∧ StartsHandler (t.fh.ctx c) a true ∧
      (∀ d, d ≠ c → t.fh.ctx d = s.fh.ctx d) ∧ OnlyHearth s.foc.h s t ∧ { t.fh with ctxs := s.fh.ctxs, arrQ := s.fh.arrQ } = s.fh := by
  have hstill : s.fh.still = false := by rw [Hearth.still, stopped, idle]; rfl
  have hstep : s.takeQueued s.foc.h 4 =
      ((s.setHearth s.foc.h { s.fh with arrQ := rest }).startEmber ⟨s.foc.h, c⟩ a true).takeQueued s.foc.h 3 :=
    State.takeQueued_step hstill takes queue 3
  obtain ⟨hstart, ⟨hworld, hothers⟩, hctxs, hrest⟩ :=
    (s.setHearth s.foc.h { s.fh with arrQ := rest }).startEmber_spec ⟨s.foc.h, c⟩ a true
  have hfoc : ((s.setHearth s.foc.h { s.fh with arrQ := rest }).startEmber ⟨s.foc.h, c⟩ a true).foc = s.foc := rfl
  rw [State.hearth_setHearth_self] at hctxs hrest
  have hworld' : OnlyHearth s.foc.h s ((s.setHearth s.foc.h { s.fh with arrQ := rest }).startEmber ⟨s.foc.h, c⟩ a true) :=
    ⟨rfl, fun g hg => (hothers g hg).trans (s.hearth_setHearth_ne _ hg)⟩
  generalize (s.setHearth s.foc.h { s.fh with arrQ := rest }).startEmber ⟨s.foc.h, c⟩ a true = t at *
  have hq : (t.hearth s.foc.h).arrQ = rest := (congrArg Hearth.arrQ hrest :)
  have hend : t.takeQueued s.foc.h 3 = t := by
    rcases only with rfl | only
    · exact State.takeQueued_nil hq 3
    · refine State.takeQueued_full (Hearth.emberCtx_none fun d => ?_) 3
      by_cases hd : d = c
      · subst hd
        have hrun : ((t.hearth s.foc.h).ctx d).st = .running := hstart.1
        rw [hrun]
        exact ⟨by decide, by decide⟩
      · rw [hctxs d hd]; exact only d hd
  have hexec : exec .queuedArrivalStart s = .next (s.takeQueued s.foc.h 4) := rfl
  refine completes_of (hexec.trans (congrArg Host.Outcome.next (hstep.trans hend))) ?_
  rw [State.fh, hfoc]
  refine ⟨hq, hstart, hctxs, hworld', ?_⟩
  rw [State.fh] at hrest
  exact (congrArg (fun y : Hearth => { y with ctxs := s.fh.ctxs, arrQ := s.fh.arrQ }) hrest :)

end Queue

/-! ## Cold starts (R28, R98, R237, R354) -/

section Cold
variable {s : State}

theorem Ctx.get_cold (k : Ctx) (x : XReg) : k.cold.get x = 0 := by
  rw [Ctx.get]
  split
  · rfl
  · exact Vector.getElem_replicate ..

/-- Reports, one for each of a list. -/
theorem State.foldl_report {α : Type} (f : α → Report) (l : List α) (s : State) :
    l.foldl (fun t a => t.report (f a)) s = { s with svc := { s.svc with reports := s.svc.reports ++ l.map f } } := by
  induction l generalizing s with
  | nil => simp
  | cons a l ih => rw [List.foldl_cons, ih]; simp [State.report]

theorem Hearth.coldOk_iff (x : Hearth) :
    x.coldOk = true ↔ (∀ c, (x.ctx c).st = .free) ∧ x.hob.stopped = false ∧ x.halting = false := by
  rw [Hearth.coldOk, Bool.and_eq_true, Bool.and_eq_true, Bool.not_eq_true', Bool.not_eq_true', and_assoc, List.all_eq_true]
  refine and_congr_left fun _ => ⟨fun h c => ?_, fun h k hk => ?_⟩
  · simpa using h (x.ctx c) (by simp [Hearth.ctx])
  · obtain ⟨i, hi, rfl⟩ := List.mem_iff_getElem.1 hk
    simpa [Hearth.ctx] using h ⟨i, by simpa using hi⟩

/-- The state in which an image's loader has reported the queued arrivals. -/
def State.discarded (s : State) (h : Fin 640) : State :=
  (s.hearth h).arrQ.foldl (fun t a => t.report (.arrivalDiscarded h a)) s.markSeen

theorem State.discarded_spec (s : State) (h : Fin 640) : (∀ g, (s.discarded h).hearth g = s.hearth g) ∧ (s.discarded h).mem = s.mem ∧
    (s.discarded h).foc = s.foc ∧ (s.discarded h).links = s.links ∧
    (s.discarded h).svc.reports = s.svc.reports ++ (s.hearth h).arrQ.map (.arrivalDiscarded h) := by
  rw [State.discarded, State.foldl_report]
  exact ⟨fun g => rfl, rfl, rfl, rfl, rfl⟩

/-- A hearth at its cold-start values with an image. -/
def Hearth.loaded (x : Hearth) (i : Image) (asid : Nat) : Hearth := { Hearth.reset with
  ctxs := Vector.ofFn fun c : Fin 4 => (x.ctx c).cold, imem := i.imem, scratch := i.scratch, img := some i, asid := some asid,
  sec := i.sec, nextSeq := x.nextSeq, port := x.port, routines := x.routines, hob := x.hob, trace := x.trace, epoch := x.epoch }

theorem Hearth.ctx_loaded (x : Hearth) (i : Image) (asid : Nat) (c : Fin 4) : (x.loaded i asid).ctx c = (x.ctx c).cold := by
  rw [Hearth.ctx, Hearth.loaded]
  exact Vector.getElem_ofFn ..

theorem State.coldStart_eq (s : State) (h : Fin 640) (i : Image) : s.coldStart h i =
    ((s.discarded h).refuseArriving h).setHearth h
      ((((s.discarded h).refuseArriving h).hearth h).loaded i (s.queues[i.wq]).asid) := rfl

theorem exec_imageColdStart {id : Nat} {i : Image} (hi : s.svc.images.find? (fun x => x.id == id) = some i) :
    exec (.imageColdStart id) s = .next (if s.fh.coldOk then s.coldStart s.foc.h i else s.report (.imageRefused s.foc.h 3)) := by
  show execImageColdStart id s = _
  rw [execImageColdStart, hi]

end Cold

theorem arrivalsAndImagesStart : Claims.ArrivalsAndImagesStart := by
  refine ⟨fun s a rest c stopped idle queue takes only => queuedArrivalStarts s a rest c stopped idle queue takes only,
    fun s id i hi => ⟨fun free stopped halting => ?_, fun busy => ?_⟩⟩
  · have hexec := exec_imageColdStart hi
    rw [if_pos (s.fh.coldOk_iff.2 ⟨free, stopped, halting⟩), State.coldStart_eq] at hexec
    obtain ⟨dhearth, dmem, dfoc, dlinks, dreports⟩ := s.discarded_spec s.foc.h
    generalize s.discarded s.foc.h = d at hexec dhearth dmem dfoc dlinks dreports
    have hfh (x : Hearth) : ((d.refuseArriving s.foc.h).setHearth s.foc.h x).foc = s.foc →
        ((d.refuseArriving s.foc.h).setHearth s.foc.h x).fh = x := fun e => by
      rw [State.fh, e, State.hearth_setHearth_self]
    refine ⟨fun arriving => ?_, fun j g q arriving own hh hq he log => ?_⟩
    · have hr : d.refuseArriving s.foc.h = d.setHearth s.foc.h { s.fh with arriving := [] } := by
        rw [State.refuseArriving, dhearth, show (s.hearth s.foc.h).arriving = [] from arriving]; rfl
      refine completes_of hexec ?_
      rw [hfh _ (by rw [hr]; exact dfoc)]
      refine ⟨rfl, rfl, rfl, rfl, rfl, rfl, rfl, rfl, fun fl => Vector.getElem_replicate .., fun n => Vector.getElem_replicate ..,
        fun n => Vector.getElem_replicate .., fun c x => ?_, fun k hk => ?_, ?_, ?_⟩
      · rw [Hearth.ctx_loaded]
        exact ⟨Ctx.get_cold .., rfl⟩
      · rw [State.hearth_setHearth_ne _ _ hk, hr, State.hearth_setHearth_ne _ _ hk, dhearth]
      · rw [hr]; exact dreports
      · rw [hr]; exact dmem
    · have hr : d.refuseArriving s.foc.h = (d.setHearth s.foc.h { s.fh with arriving := [] }).answerPeer j.x false := by
        rw [State.refuseArriving, dhearth, show (s.hearth s.foc.h).arriving = [j] from arriving]; rfl
      have hv (k : Fin 640) : ((d.setHearth s.foc.h { s.fh with arriving := [] }).hearth k).epoch = (s.hearth k).epoch ∧
          ((d.setHearth s.foc.h { s.fh with arriving := [] }).hearth k).sideLog = (s.hearth k).sideLog := by
        rw [State.hearth_setHearth]
        split
        · next hk => subst hk; exact ⟨rfl, rfl⟩
        · rw [dhearth]; exact ⟨rfl, rfl⟩
      obtain ⟨hgone, hmem, hfoc, -⟩ := State.answerPeer_false_spec (s := d.setHearth s.foc.h { s.fh with arriving := [] }) (x := j.x)
        (g := g) (q := q) ⟨own.trans (congrArg Links.chip dlinks).symm, hh, hq, (hv g).1.trans he⟩ (by rw [(hv g).2]; exact log)
      rw [← hr] at hgone hmem hfoc
      refine completes_of hexec ?_
      rw [hfh _ (hfoc.trans dfoc)]
      refine ⟨rfl, rfl, rfl, fun fl => Vector.getElem_replicate .., ?_, hmem.trans dmem⟩
      rw [State.hearth_setHearth]
      split
      · rfl
      · exact hgone
  · have hbad : ¬ s.fh.coldOk = true := fun h => by
      obtain ⟨free, stopped, halting⟩ := s.fh.coldOk_iff.1 h
      rcases busy with ⟨c, hc⟩ | hs | hh
      · exact hc (free c)
      · rw [stopped] at hs; exact absurd hs (by decide)
      · rw [halting] at hh; exact absurd hh (by decide)
    have hexec := exec_imageColdStart hi
    rw [if_neg hbad] at hexec
    exact completes_of hexec ⟨rfl, rfl⟩

/-- Settles O42: transfers granule by granule, queued arrivals by one round, and cold starts by the values that they load. -/
theorem transfersArrivalsAndImages : Obligations.TransfersArrivalsAndImages := ⟨peerTransfersArrive, arrivalsAndImagesStart⟩

end Sys2Proof.Machine

/-! PROOFS. Rounding over the reals (O18 to O20, O24, O25, O29, O30; R46, R48, R50 to R52, R55): what `roundShift`, `roundUnit` and
`Fmt.round` give is the statements' rounding of a real number. -/

namespace Sys2Proof.Machine

/-! ## Rounding to an integer (R50) -/

/-- A rounded magnitude is less than one unit away. -/
theorem rounds_bounds {rm : Rm} {neg : Bool} {x : ℝ} {r : Nat} (h : Rounds rm neg x r) : (r : ℝ) < x + 1 ∧ x < r + 1 := by
  unfold Rounds at h
  have near (d : |x - r| ≤ 1 / 2) : (r : ℝ) < x + 1 ∧ x < r + 1 := by
    obtain ⟨h1, h2⟩ := abs_le.1 d
    exact ⟨by linarith, by linarith⟩
  split at h
  all_goals first | exact near h.1 | exact ⟨by linarith [h.1, h.2], by linarith [h.1, h.2]⟩

/-- A bound on a magnitude by an integer holds of the rounded magnitude. -/
theorem rounds_le_of_le {rm : Rm} {neg : Bool} {x : ℝ} {r a : Nat} (h : Rounds rm neg x r) (ha : (a : ℝ) ≤ x) : a ≤ r := by
  have : (a : ℝ) < r + 1 := lt_of_le_of_lt ha (rounds_bounds h).2
  exact Nat.lt_succ_iff.1 (by exact_mod_cast this)

theorem rounds_le_of_lt {rm : Rm} {neg : Bool} {x : ℝ} {r b : Nat} (h : Rounds rm neg x r) (hb : x < b) : r ≤ b := by
  have : (r : ℝ) < b + 1 := lt_trans (rounds_bounds h).1 (by linarith)
  exact Nat.lt_succ_iff.1 (by exact_mod_cast this)

/-- An integer rounds to itself. -/
theorem rounds_self (rm : Rm) (neg : Bool) (n : Nat) : Rounds rm neg n n := by
  unfold Rounds
  split <;> simp

/-- What an integer rounds to is that integer. -/
theorem rounds_nat {rm : Rm} {neg : Bool} {n r : Nat} (h : Rounds rm neg n r) : r = n :=
  le_antisymm (Nat.lt_succ_iff.1 (by exact_mod_cast (rounds_bounds h).1)) (rounds_le_of_le h le_rfl)

/-- Rounding is a function. -/
theorem rounds_unique {rm : Rm} {neg : Bool} {x : ℝ} {r r' : Nat} (h : Rounds rm neg x r) (h' : Rounds rm neg x r') : r = r' := by
  have hlt : r < r' + 2 := by
    have : (r : ℝ) < r' + 2 := by linarith [(rounds_bounds h).1, (rounds_bounds h').2]
    exact_mod_cast this
  have hlt' : r' < r + 2 := by
    have : (r' : ℝ) < r + 2 := by linarith [(rounds_bounds h').1, (rounds_bounds h).2]
    exact_mod_cast this
  wlog hle : r ≤ r' generalizing r r'
  · exact (this h' h hlt' hlt (by omega)).symm
  by_contra hne
  have hr : (r' : ℝ) = r + 1 := by exact_mod_cast (by omega : r' = r + 1)
  have tie (d : |x - r| ≤ 1 / 2) (d' : |x - r'| ≤ 1 / 2) : x - r = 1 / 2 := by
    have h1 := (abs_le.1 d).2
    have h2 := (abs_le.1 d').1
    linarith
  have ends (t : x - r = 1 / 2) : |x - r| = 1 / 2 ∧ |x - r'| = 1 / 2 := by
    refine ⟨by rw [t]; norm_num, ?_⟩
    rw [show x - r' = -(1 / 2) by linarith]
    norm_num
  unfold Rounds at h h'
  split at h
  · linarith [h.2, h'.1]
  · linarith [h.2, h'.1]
  · linarith [h.2, h'.1]
  · linarith [h.1, h'.2]
  · linarith [h.1, h'.2]
  · obtain ⟨e, e'⟩ := ends (tie h.1 h'.1)
    have := h.2 e
    have := h'.2 e'
    omega
  · have t := tie h.1 h'.1
    linarith [h.2 (ends t).1]

/-- A magnitude rounds by its integer part and the half that its fraction meets. -/
theorem rounds_of_split (rm : Rm) (neg : Bool) (n : Nat) {t : ℝ} (h0 : 0 ≤ t) (h1 : t < 1) {gt eq inexact : Bool}
    (hgt : gt = true ↔ 1 / 2 < t) (heq : eq = true ↔ t = 1 / 2) (hin : inexact = true ↔ t ≠ 0) :
    Rounds rm neg (n + t) (if roundsUp rm neg n gt eq inexact then n + 1 else n) := by
  have low (h : ¬ 1 / 2 < t) : |(n : ℝ) + t - n| ≤ 1 / 2 := by
    rw [add_sub_cancel_left, abs_of_nonneg h0]; linarith
  have high (h : 1 / 2 ≤ t) : |(n : ℝ) + t - (n + 1 : Nat)| ≤ 1 / 2 := by
    rw [abs_le]; push_cast; constructor <;> linarith
  have lowTie (h : |(n : ℝ) + t - n| = 1 / 2) : t = 1 / 2 := by
    rwa [add_sub_cancel_left, abs_of_nonneg h0] at h
  have highTie (h : |(n : ℝ) + t - (n + 1 : Nat)| = 1 / 2) : t = 1 / 2 := by
    rw [abs_of_nonpos (by push_cast; linarith)] at h
    push_cast at h
    linarith
  have down : (n : ℝ) ≤ n + t ∧ (n : ℝ) + t < n + 1 := ⟨by linarith, by linarith⟩
  have still (h : ¬ t ≠ 0) : (n : ℝ) + t ≤ n ∧ (n : ℝ) < n + t + 1 := by
    rw [not_not.1 h]; constructor <;> linarith
  have up (h : t ≠ 0) : (n : ℝ) + t ≤ (n + 1 : Nat) ∧ ((n + 1 : Nat) : ℝ) < n + t + 1 := by
    have : 0 < t := lt_of_le_of_ne h0 (Ne.symm h)
    push_cast
    constructor <;> linarith
  cases rm
  case rtz => exact down
  case rdn =>
    cases neg with
    | false => exact down
    | true =>
      simp only [roundsUp, Bool.true_and, hin]
      split
      · exact up ‹_›
      · exact still ‹_›
  case rup =>
    cases neg with
    | true => exact down
    | false =>
      simp only [roundsUp, Bool.not_false, Bool.true_and, hin]
      split
      · exact up ‹_›
      · exact still ‹_›
  case rne =>
    simp only [roundsUp, Bool.or_eq_true, Bool.and_eq_true, hgt, heq, decide_eq_true_eq]
    split
    next h =>
      refine ⟨high (by rcases h with h | ⟨h, -⟩ <;> linarith), fun e => ?_⟩
      rcases h with h | ⟨-, h⟩
      · linarith [highTie e]
      · omega
    next h =>
      rw [not_or, not_and] at h
      exact ⟨low h.1, fun e => by have := h.2 (lowTie e); omega⟩
  case rmm =>
    simp only [roundsUp, Bool.or_eq_true, hgt, heq]
    split
    next h =>
      refine ⟨high (by rcases h with h | h <;> linarith), fun e => ?_⟩
      rw [highTie e]; push_cast; linarith
    next h =>
      rw [not_or] at h
      exact ⟨low h.1, fun e => absurd (lowTie e) h.2⟩

/-- `x` is the number (m + δ) × 2^e, with 0 < δ < 1 where `sticky` holds and δ = 0 otherwise. -/
def StandsAt (m : Nat) (e : Int) (sticky : Bool) (x : ℝ) : Prop :=
  ∃ δ : ℝ, x = (m + δ) * (2 : ℝ) ^ e ∧ 0 ≤ δ ∧ δ < 1 ∧ (sticky = true ↔ δ ≠ 0)

theorem standsAt_exact (m : Nat) (e : Int) : StandsAt m e false (m * (2 : ℝ) ^ e) := ⟨0, by simp, le_rfl, by simp, by simp⟩

theorem standsAt_sticky {m : Nat} {e : Int} {x : ℝ} (h : m * (2 : ℝ) ^ e < x) (h' : x < (m + 1) * (2 : ℝ) ^ e) : StandsAt m e true x := by
  have hp : (0 : ℝ) < 2 ^ e := by positivity
  have h1 : (m : ℝ) < x / 2 ^ e := (lt_div_iff₀ hp).2 h
  have h2 : x / 2 ^ e < m + 1 := (div_lt_iff₀ hp).2 h'
  refine ⟨x / 2 ^ e - m, ?_, by linarith, by linarith, iff_of_true rfl (by linarith)⟩
  rw [add_sub_cancel, div_mul_cancel₀ _ hp.ne']

theorem roundShift_rounds (rm : Rm) (neg : Bool) {m k : Nat} {sticky : Bool} {δ : ℝ} (h0 : 0 ≤ δ) (h1 : δ < 1)
    (hs : sticky = true ↔ δ ≠ 0) (hk : sticky = true → 0 < k) :
    Rounds rm neg ((m + δ) / 2 ^ k) (roundShift rm neg m k sticky).1 ∧
      ((roundShift rm neg m k sticky).2 = false ↔ ∃ n : Nat, (m + δ) / (2 : ℝ) ^ k = n) := by
  have hp : (0 : ℝ) < 2 ^ k := by positivity
  have hr : m % 2 ^ k < 2 ^ k := Nat.mod_lt _ (by positivity)
  have hlt : ((m % 2 ^ k : Nat) : ℝ) + δ < 2 ^ k := by
    have : ((m % 2 ^ k : Nat) : ℝ) + 1 ≤ 2 ^ k := by exact_mod_cast hr
    linarith
  have hge : (0 : ℝ) ≤ (m % 2 ^ k : Nat) + δ := by positivity
  have hsplit : ((m : ℝ) + δ) / 2 ^ k = (m / 2 ^ k : Nat) + ((m % 2 ^ k : Nat) + δ) / 2 ^ k := by
    have : ((2 ^ k * (m / 2 ^ k) + m % 2 ^ k : Nat) : ℝ) = m := by exact_mod_cast Nat.div_add_mod m (2 ^ k)
    push_cast at this
    rw [← this]
    field_simp
    ring
  have hdelta : sticky = false → δ = 0 := fun h => by
    by_contra hne
    rw [hs.2 hne] at h
    exact Bool.noConfusion h
  -- a fraction that is not whole in units of 1 meets no half, for the unit of 2^k is even
  have heven : sticky = true → 2 ∣ 2 ^ k := fun h => dvd_pow_self 2 (hk h).ne'
  have hin : (decide (m % 2 ^ k ≠ 0) || sticky) = true ↔ ((m % 2 ^ k : Nat) + δ) / (2 : ℝ) ^ k ≠ 0 := by
    rw [Bool.or_eq_true, decide_eq_true_eq, hs, Ne, Ne, Ne, div_eq_zero_iff, or_iff_left hp.ne']
    constructor
    · rintro (h | h)
      · have : (0 : ℝ) < (m % 2 ^ k : Nat) := by exact_mod_cast Nat.pos_of_ne_zero h
        linarith
      · have : 0 < δ := lt_of_le_of_ne h0 (Ne.symm h)
        linarith [(Nat.cast_nonneg (m % 2 ^ k) : (0 : ℝ) ≤ _)]
    · intro h
      by_contra hn
      rw [not_or, not_not, not_not] at hn
      exact h (by rw [hn.1, hn.2]; simp)
  have hgt : (decide (2 * (m % 2 ^ k) > 2 ^ k) || (decide (2 * (m % 2 ^ k) = 2 ^ k) && sticky)) = true ↔
      1 / 2 < ((m % 2 ^ k : Nat) + δ) / (2 : ℝ) ^ k := by
    rw [lt_div_iff₀ hp, Bool.or_eq_true, Bool.and_eq_true, decide_eq_true_eq, decide_eq_true_eq]
    cases hst : sticky with
    | false =>
      rw [hdelta hst]
      have : (2 : ℝ) ^ k < 2 * (m % 2 ^ k : Nat) ↔ 2 ^ k < 2 * (m % 2 ^ k) := by exact_mod_cast Iff.rfl
      constructor
      · rintro (h | ⟨-, h⟩)
        · linarith [this.2 h]
        · cases h
      · exact fun h => .inl (this.1 (by linarith))
    | true =>
      have hd : 0 < δ := lt_of_le_of_ne h0 (Ne.symm (hs.1 hst))
      constructor
      · intro h
        have : 2 ^ k ≤ 2 * (m % 2 ^ k) := by omega
        have : (2 : ℝ) ^ k ≤ 2 * (m % 2 ^ k : Nat) := by exact_mod_cast this
        linarith
      · intro h
        have : (2 : ℝ) ^ k < (2 * (m % 2 ^ k) + 2 : Nat) := by push_cast; linarith
        have : 2 ^ k < 2 * (m % 2 ^ k) + 2 := by exact_mod_cast this
        have := heven hst
        simp only [and_true]
        omega
  have heq : (decide (2 * (m % 2 ^ k) = 2 ^ k) && !sticky) = true ↔ ((m % 2 ^ k : Nat) + δ) / (2 : ℝ) ^ k = 1 / 2 := by
    rw [div_eq_iff hp.ne', Bool.and_eq_true, decide_eq_true_eq, Bool.not_eq_true']
    constructor
    · rintro ⟨h, hst⟩
      have : (2 : ℝ) * (m % 2 ^ k : Nat) = 2 ^ k := by exact_mod_cast h
      rw [hdelta hst]
      linarith
    · intro h
      cases hst : sticky with
      | false =>
        rw [hdelta hst] at h
        have : (2 : ℝ) * (m % 2 ^ k : Nat) = 2 ^ k := by linarith
        exact ⟨by exact_mod_cast this, rfl⟩
      | true =>
        have hd : 0 < δ := lt_of_le_of_ne h0 (Ne.symm (hs.1 hst))
        have g1 : (2 * (m % 2 ^ k) : Nat) < (2 : ℝ) ^ k := by push_cast; linarith
        have g2 : (2 : ℝ) ^ k < (2 * (m % 2 ^ k) + 2 : Nat) := by push_cast; linarith
        have g1' : 2 * (m % 2 ^ k) < 2 ^ k := by exact_mod_cast g1
        have g2' : 2 ^ k < 2 * (m % 2 ^ k) + 2 := by exact_mod_cast g2
        have := heven hst
        omega
  have ht1 : ((m % 2 ^ k : Nat) + δ) / (2 : ℝ) ^ k < 1 := (div_lt_one hp).2 hlt
  have ht0 : 0 ≤ ((m % 2 ^ k : Nat) + δ) / (2 : ℝ) ^ k := div_nonneg hge hp.le
  rw [hsplit]
  refine ⟨rounds_of_split rm neg _ ht0 ht1 hgt heq hin, ?_⟩
  show (decide (m % 2 ^ k ≠ 0) || sticky) = false ↔ _
  rw [← Bool.not_eq_true, hin, not_not]
  constructor
  · intro h
    exact ⟨m / 2 ^ k, by rw [h, add_zero]⟩
  · rintro ⟨n, hn⟩
    have g1 : ((m / 2 ^ k : Nat) : ℝ) ≤ n := by linarith
    have g2 : (n : ℝ) < (m / 2 ^ k : Nat) + 1 := by linarith
    have : n = m / 2 ^ k := by
      have g1' : m / 2 ^ k ≤ n := by exact_mod_cast g1
      have g2' : n < m / 2 ^ k + 1 := by exact_mod_cast g2
      omega
    rw [this] at hn
    linarith

theorem two_zpow_sub_toNat {e q : Int} (h : q ≤ e) : (2 : ℝ) ^ (e - q).toNat * (2 : ℝ) ^ q = (2 : ℝ) ^ e := by
  rw [← zpow_natCast, ← zpow_add₀ (by norm_num), Int.toNat_of_nonneg (by omega)]
  congr 1; omega

/-- What `roundUnit` gives is the number in units of 2^q, rounded, and whether it is no multiple of the unit. -/
theorem roundUnit_rounds (rm : Rm) (neg : Bool) {m : Nat} {e : Int} {sticky : Bool} {x : ℝ} (hx : StandsAt m e sticky x) {q : Int}
    (hq : sticky = true → e < q) : Rounds rm neg (x / (2 : ℝ) ^ q) (roundUnit rm neg m e q sticky).1 ∧
      ((roundUnit rm neg m e q sticky).2 = false ↔ ∃ n : Nat, x = n * (2 : ℝ) ^ q) := by
  have hp : (0 : ℝ) < 2 ^ q := by positivity
  have hmul : (∃ n : Nat, x = n * (2 : ℝ) ^ q) ↔ ∃ n : Nat, x / (2 : ℝ) ^ q = n := by
    simp only [div_eq_iff hp.ne']
  rw [hmul]
  obtain ⟨δ, rfl, h0, h1, hs⟩ := hx
  by_cases hle : q ≤ e
  · have hst : sticky = false := by
      cases sticky with
      | false => rfl
      | true => exact absurd (hq rfl) (by omega)
    have hd : δ = 0 := by
      by_contra hne
      rw [hs.2 hne] at hst
      exact Bool.noConfusion hst
    have hval : ((m : ℝ) + δ) * 2 ^ e / 2 ^ q = (m * 2 ^ (e - q).toNat : Nat) := by
      rw [hd, add_zero, div_eq_iff hp.ne', ← two_zpow_sub_toNat hle]
      push_cast
      ring
    rw [roundUnit, if_pos hle, hval]
    exact ⟨rounds_self .., iff_of_true hst ⟨_, rfl⟩⟩
  · have hval : ((m : ℝ) + δ) * 2 ^ e / 2 ^ q = (m + δ) / 2 ^ (q - e).toNat := by
      rw [← two_zpow_sub_toNat (show e ≤ q by omega)]
      field_simp
    rw [roundUnit, if_neg hle, hval]
    exact roundShift_rounds rm neg h0 h1 hs fun _ => by omega

/-! ## Formats (R48) -/

/-- The magnitude that a pattern without its sign stands for, in units of the smallest subnormal. -/
def Fmt.units (g : Fmt) (b : Nat) : Nat :=
  if b / 2 ^ g.mbits = 0 then b % 2 ^ g.mbits else (2 ^ g.mbits + b % 2 ^ g.mbits) * 2 ^ (b / 2 ^ g.mbits - 1)

/-- What the five formats have in common. -/
structure Fmt.Sound (g : Fmt) : Prop where
  mbits_pos : 0 < g.mbits
  mbits_le : g.mbits ≤ 23
  ebits_pos : 2 ≤ g.ebits
  qmin_nonpos : g.qmin ≤ 0
  maxFin : g.maxFin + 1 = if g.hasInf then g.inf else g.signBit - 1
  nan_lt : g.nan < g.signBit
  isNan_nan : g.isNan g.nan = true
  integers : 2 ^ g.mbits * 2 ^ (-g.qmin).toNat ≤ g.units g.maxFin

theorem Fmt.sound_of_mem {g : Fmt} (h : g ∈ [Fmt.fp32, .bf16, .fp16, .e4m3, .e5m2]) : g.Sound := by
  simp only [List.mem_cons, List.not_mem_nil, or_false] at h
  rcases h with rfl | rfl | rfl | rfl | rfl <;> constructor <;> decide +kernel

theorem Ty.fmt_sound (t : Ty) : t.fmt.Sound := Fmt.sound_of_mem (by cases t <;> simp [Ty.fmt])

theorem Fmt.fp32_sound : Fmt.fp32.Sound := Ty.fmt_sound .fp32

theorem Ty.width_fmt {t : Ty} (h : t.isFloat = true) : t.width = t.fmt.width := by
  cases t <;> first | rfl | exact absurd h (by decide)

end Sys2Proof.Machine

/-! PROOFS. Patterns of a float format and the magnitudes that they stand for (R46, R48, R51). -/

namespace Sys2Proof.Machine

/-! ## Patterns and their magnitudes -/

theorem bitLen_bounds {m : Nat} (h : m ≠ 0) : 0 < bitLen m ∧ 2 ^ (bitLen m - 1) ≤ m ∧ m < 2 ^ bitLen m := by
  rw [bitLen, if_neg h, Nat.add_sub_cancel]
  exact ⟨Nat.succ_pos _, Nat.log2_self_le h, Nat.lt_log2_self⟩

theorem bitLen_eq {m n : Nat} (h : 2 ^ n ≤ m) (h' : m < 2 ^ (n + 1)) : bitLen m = n + 1 := by
  have hm : m ≠ 0 := by have : 0 < 2 ^ n := by positivity
                        omega
  rw [bitLen, if_neg hm, (Nat.log2_eq_iff hm).2 ⟨h, h'⟩]

/-- The pattern of the number r × 2^k units. -/
theorem Fmt.units_pattern (g : Fmt) {k r : Nat} (hr : r ≤ 2 ^ (g.mbits + 1)) (hk : k = 0 ∨ 2 ^ g.mbits ≤ r) :
    g.units (k * 2 ^ g.mbits + r) = r * 2 ^ k := by
  have hp : 0 < 2 ^ g.mbits := by positivity
  have digits {a c : Nat} (hc : c < 2 ^ g.mbits) (e : k * 2 ^ g.mbits + r = a * 2 ^ g.mbits + c) :
      g.units (k * 2 ^ g.mbits + r) = if a = 0 then c else (2 ^ g.mbits + c) * 2 ^ (a - 1) := by
    rw [Fmt.units, e, Nat.add_comm, Nat.add_mul_div_right _ _ hp, Nat.add_mul_mod_self_right, Nat.div_eq_of_lt hc,
      Nat.mod_eq_of_lt hc, Nat.zero_add]
  rw [pow_succ] at hr
  rcases Nat.lt_or_ge r (2 ^ g.mbits) with hlt | hge
  · obtain rfl : k = 0 := by omega
    rw [digits (a := 0) hlt rfl]
    simp
  rcases Nat.lt_or_eq_of_le hr with hlt | heq
  · rw [digits (a := k + 1) (c := r - 2 ^ g.mbits) (by omega) (by rw [Nat.add_mul]; omega), if_neg (by omega),
      Nat.add_sub_cancel]
    congr 1; omega
  · rw [digits (a := k + 2) (c := 0) hp (by rw [Nat.add_mul]; omega), if_neg (by omega), heq]
    show 2 ^ g.mbits * 2 ^ (k + 1) = _
    rw [pow_succ]; ring

theorem Fmt.units_strictMono (g : Fmt) : StrictMono g.units := by
  refine strictMono_nat_of_lt_succ fun b => ?_
  have hp : 0 < 2 ^ g.mbits := by positivity
  have hb := Nat.div_add_mod b (2 ^ g.mbits)
  have hlt := Nat.mod_lt b hp
  have hs := pow_succ 2 g.mbits
  by_cases h0 : b / 2 ^ g.mbits = 0
  · have e1 : g.units b = b % 2 ^ g.mbits * 2 ^ 0 := by
      rw [← g.units_pattern (k := 0) (by omega) (.inl rfl)]
      congr 1
      rw [h0] at hb; omega
    have e2 : g.units (b + 1) = (b % 2 ^ g.mbits + 1) * 2 ^ 0 := by
      rw [← g.units_pattern (k := 0) (by omega) (.inl rfl)]
      congr 1
      rw [h0] at hb; omega
    rw [e1, e2]; omega
  · obtain ⟨k, hk⟩ : ∃ k, b / 2 ^ g.mbits = k + 1 := Nat.exists_eq_succ_of_ne_zero h0
    rw [hk, Nat.mul_succ, Nat.mul_comm] at hb
    have e1 : g.units b = (2 ^ g.mbits + b % 2 ^ g.mbits) * 2 ^ k := by
      rw [← g.units_pattern (k := k) (by omega) (.inr (by omega))]
      congr 1; omega
    have e2 : g.units (b + 1) = (2 ^ g.mbits + b % 2 ^ g.mbits + 1) * 2 ^ k := by
      rw [← g.units_pattern (k := k) (by omega) (.inr (by omega))]
      congr 1; omega
    rw [e1, e2]
    exact Nat.mul_lt_mul_of_pos_right (Nat.lt_succ_self _) (by positivity)

section Sound
variable {g : Fmt}

theorem Fmt.signBit_eq (g : Fmt) : g.signBit = 2 ^ g.ebits * 2 ^ g.mbits := by rw [Fmt.signBit, pow_add]

theorem Fmt.width_eq (g : Fmt) : 2 ^ g.width = 2 * g.signBit := by rw [Fmt.width, Fmt.signBit, Nat.add_assoc, pow_add, pow_one]

/-- The finite patterns begin at the bottom and end at `maxFin`, below the sign. -/
theorem Fmt.Sound.finite_iff (hg : g.Sound) {c : Nat} (hc : c < g.signBit) : c ≤ g.maxFin ↔
    ¬ (c / 2 ^ g.mbits = 2 ^ g.ebits - 1 ∧ (g.hasInf = true ∨ c % 2 ^ g.mbits = 2 ^ g.mbits - 1)) := by
  have hp : 0 < 2 ^ g.mbits := by positivity
  have he : 4 ≤ 2 ^ g.ebits := le_trans (by norm_num) (Nat.pow_le_pow_right (by norm_num) hg.ebits_pos)
  have hdm := Nat.div_add_mod c (2 ^ g.mbits)
  have hlt := Nat.mod_lt c hp
  have hdiv : c / 2 ^ g.mbits ≤ 2 ^ g.ebits - 1 := by
    have := Nat.div_lt_of_lt_mul (m := c) (n := 2 ^ g.mbits) (k := 2 ^ g.ebits) (by rw [Nat.mul_comm, ← g.signBit_eq]; exact hc)
    omega
  have hinf : g.inf = 2 ^ g.mbits * (2 ^ g.ebits - 1) := Nat.mul_comm ..
  have hsb : g.signBit = 2 ^ g.mbits * (2 ^ g.ebits - 1) + 2 ^ g.mbits := by
    rw [g.signBit_eq, ← Nat.mul_succ, Nat.mul_comm]
    congr 1; omega
  have htop : c / 2 ^ g.mbits ≠ 2 ^ g.ebits - 1 → c < 2 ^ g.mbits * (2 ^ g.ebits - 1) := fun h =>
    lt_of_lt_of_le (by rw [Nat.mul_succ]; omega) (Nat.mul_le_mul_left (2 ^ g.mbits) (show c / 2 ^ g.mbits + 1 ≤ 2 ^ g.ebits - 1 by omega))
  have hmax := hg.maxFin
  by_cases h : c / 2 ^ g.mbits = 2 ^ g.ebits - 1
  · rw [h] at hdm
    rw [hinf, hsb] at hmax
    generalize 2 ^ g.mbits * (2 ^ g.ebits - 1) = low at *
    generalize c % 2 ^ g.mbits = r at *
    generalize 2 ^ g.mbits = n at *
    cases hi : g.hasInf
    · rw [hi, if_neg Bool.false_ne_true] at hmax
      simp only [h, true_and, Bool.false_eq_true, false_or]
      omega
    · rw [hi, if_pos rfl] at hmax
      simp only [h, true_and, true_or, not_true_eq_false, iff_false]
      omega
  · have := htop h
    simp only [h, false_and, not_false_iff, iff_true]
    split at hmax <;> omega

/-- Field by field, a pattern is its sign and its pattern below the sign. -/
theorem Fmt.decode_eq (hg : g.Sound) (b : Nat) : g.decode b =
    if b % g.signBit ≤ g.maxFin then
      (if b % g.signBit / 2 ^ g.mbits = 0 then .fin (decide (b / g.signBit % 2 = 1)) (b % g.signBit % 2 ^ g.mbits) g.qmin
       else .fin (decide (b / g.signBit % 2 = 1)) (2 ^ g.mbits + b % g.signBit % 2 ^ g.mbits)
        (g.qmin + (b % g.signBit / 2 ^ g.mbits - 1 : Nat)))
    else if g.hasInf = true ∧ b % g.signBit = g.inf then .inf (decide (b / g.signBit % 2 = 1)) else .nan := by
  have hp : 0 < 2 ^ g.mbits := by positivity
  have hsb : 0 < g.signBit := by rw [Fmt.signBit]; positivity
  have hc := Nat.mod_lt b hsb
  have hex : b / 2 ^ g.mbits % 2 ^ g.ebits = b % g.signBit / 2 ^ g.mbits := by
    rw [g.signBit_eq, Nat.mul_comm, Nat.mod_mul_right_div_self]
  have hfr : b % 2 ^ g.mbits = b % g.signBit % 2 ^ g.mbits := by
    rw [g.signBit_eq, Nat.mod_mul_left_mod]
  have hfin := hg.finite_iff hc
  have hdm := Nat.div_add_mod (b % g.signBit) (2 ^ g.mbits)
  have hinf : g.inf = 2 ^ g.mbits * (2 ^ g.ebits - 1) := Nat.mul_comm ..
  rw [Fmt.decode]
  simp only [hex, hfr]
  by_cases h : b % g.signBit ≤ g.maxFin
  · have hcond := hfin.1 h
    rw [if_pos h, if_neg (by simpa using hcond)]
  · have hcond : b % g.signBit / 2 ^ g.mbits = 2 ^ g.ebits - 1 ∧ (g.hasInf = true ∨ b % g.signBit % 2 ^ g.mbits = 2 ^ g.mbits - 1) := by
      by_contra hn; exact h (hfin.2 hn)
    rw [if_neg h, if_pos (by simpa using hcond)]
    have : (g.hasInf && decide (b % g.signBit % 2 ^ g.mbits = 0)) = true ↔ g.hasInf = true ∧ b % g.signBit = g.inf := by
      rw [Bool.and_eq_true, decide_eq_true_eq, and_congr_right_iff]
      intro _
      rw [hcond.1] at hdm
      omega
    simp only [this]

/-- A finite pattern stands for its units. -/
theorem Fmt.decode_finite (hg : g.Sound) {b : Nat} (h : b % g.signBit ≤ g.maxFin) : ∃ (m : Nat) (e : Int),
    g.decode b = .fin (decide (b / g.signBit % 2 = 1)) m e ∧ m * (2 : ℝ) ^ e = g.units (b % g.signBit) * (2 : ℝ) ^ g.qmin := by
  rw [Fmt.decode_eq hg, if_pos h, Fmt.units]
  split
  · exact ⟨_, _, rfl, rfl⟩
  · refine ⟨_, _, rfl, ?_⟩
    rw [zpow_add₀ (by norm_num), zpow_natCast]
    push_cast
    ring

/-- A pattern that stands for a finite value is a finite pattern. -/
theorem Fmt.finite_of_decode (hg : g.Sound) {b : Nat} {neg : Bool} {m : Nat} {e : Int} (h : g.decode b = .fin neg m e) :
    b % g.signBit ≤ g.maxFin ∧ neg = decide (b / g.signBit % 2 = 1) ∧
      m * (2 : ℝ) ^ e = g.units (b % g.signBit) * (2 : ℝ) ^ g.qmin := by
  by_cases hf : b % g.signBit ≤ g.maxFin
  · obtain ⟨m', e', hd, hv⟩ := Fmt.decode_finite hg hf
    rw [h] at hd
    injection hd with h1 h2 h3
    subst h1 h2 h3
    exact ⟨hf, rfl, hv⟩
  · rw [Fmt.decode_eq hg, if_neg hf] at h
    split at h <;> cases h

theorem Fmt.maxFin_lt (hg : g.Sound) : g.maxFin < g.signBit := by
  have hp : 0 < 2 ^ g.mbits := by positivity
  have hsb : 0 < g.signBit := by rw [Fmt.signBit]; positivity
  have := hg.maxFin
  split at this
  · have h : g.inf ≤ g.signBit := by
      rw [Fmt.inf, g.signBit_eq]; exact Nat.mul_le_mul_right _ (Nat.sub_le _ _)
    omega
  · omega

/-- The largest finite number. -/
theorem Fmt.numberOf_maxFin (hg : g.Sound) : numberOf (g.decode g.maxFin) = g.units g.maxFin * (2 : ℝ) ^ g.qmin := by
  have hlt := Fmt.maxFin_lt hg
  have hmod : g.maxFin % g.signBit = g.maxFin := Nat.mod_eq_of_lt hlt
  obtain ⟨m, e, hd, hv⟩ := Fmt.decode_finite hg (b := g.maxFin) (by rw [hmod])
  rw [hd, Nat.div_eq_of_lt hlt]
  simpa [numberOf, hmod] using hv

/-- The smallest normal number is finite. -/
theorem Fmt.normal_le_maxFin (hg : g.Sound) : 2 ^ g.mbits ≤ g.maxFin := by
  by_contra h
  have h1 := g.units_strictMono (Nat.lt_of_not_le h)
  have h2 := hg.integers
  have h3 : g.units (2 ^ g.mbits) = 2 ^ g.mbits := by
    have := g.units_pattern (k := 0) (r := 2 ^ g.mbits) (Nat.pow_le_pow_right (by norm_num) (Nat.le_succ _)) (.inl rfl)
    simpa using this
  have h4 : 2 ^ g.mbits * 1 ≤ 2 ^ g.mbits * 2 ^ (-g.qmin).toNat := Nat.mul_le_mul_left _ (Nat.one_le_two_pow)
  omega

/-! ## Rounding to a format (R46, R50 to R52, R55) -/

theorem Fmt.overflow_eq (g : Fmt) (rm : Rm) (sat neg : Bool) : g.overflow rm sat neg = overflowOf g rm sat neg := by
  unfold Fmt.overflow overflowOf
  cases hi : g.hasInf <;> cases rm <;> cases neg <;> rfl

/-- The exponent of the unit at which a number m × 2^e has all the bits of a significand. -/
def Fmt.lead (g : Fmt) (m : Nat) (e : Int) : Int := (bitLen m : Int) + e - (g.mbits + 1 : Nat)

/-- Where the number lies between powers of two. -/
theorem Fmt.lead_bounds (g : Fmt) {m : Nat} {e : Int} {sticky : Bool} {x : ℝ} (hx : StandsAt m e sticky x) (hm : m ≠ 0) :
    2 ^ g.mbits * (2 : ℝ) ^ g.lead m e ≤ x ∧ x < 2 ^ (g.mbits + 1) * (2 : ℝ) ^ g.lead m e := by
  obtain ⟨δ, rfl, h0, h1, -⟩ := hx
  obtain ⟨hpos, hlo, hhi⟩ := bitLen_bounds hm
  have hp : (0 : ℝ) < 2 ^ e := by positivity
  have hlo' : (2 : ℝ) ^ (bitLen m - 1) ≤ m + δ := by
    have : (2 : ℝ) ^ (bitLen m - 1) ≤ m := by exact_mod_cast hlo
    linarith
  have hhi' : (m : ℝ) + δ < 2 ^ bitLen m := by
    have : (m : ℝ) + 1 ≤ 2 ^ bitLen m := by exact_mod_cast hhi
    linarith
  have e1 : (2 : ℝ) ^ g.mbits * (2 : ℝ) ^ g.lead m e = 2 ^ (bitLen m - 1) * 2 ^ e := by
    rw [← zpow_natCast, ← zpow_natCast, ← zpow_add₀ (by norm_num), ← zpow_add₀ (by norm_num), Fmt.lead]
    congr 1; omega
  have e2 : (2 : ℝ) ^ (g.mbits + 1) * (2 : ℝ) ^ g.lead m e = 2 ^ bitLen m * 2 ^ e := by
    rw [← zpow_natCast, ← zpow_natCast, ← zpow_add₀ (by norm_num), ← zpow_add₀ (by norm_num), Fmt.lead]
    congr 1; omega
  rw [e1, e2]
  exact ⟨mul_le_mul_of_nonneg_right hlo' hp.le, mul_lt_mul_of_pos_right hhi' hp⟩

/-- A pattern in its binade stands for its significand at its unit. -/
theorem Fmt.units_real (g : Fmt) {q : Int} {r : Nat} (hq : g.qmin ≤ q) (hr : r ≤ 2 ^ (g.mbits + 1)) (hn : q = g.qmin ∨ 2 ^ g.mbits ≤ r) :
    (g.units ((q - g.qmin).toNat * 2 ^ g.mbits + r) : ℝ) * (2 : ℝ) ^ g.qmin = r * (2 : ℝ) ^ q := by
  rw [g.units_pattern hr (by rcases hn with h | h; exacts [.inl (by omega), .inr h]), ← two_zpow_sub_toNat hq]
  push_cast
  ring

end Sound

end Sys2Proof.Machine

/-! PROOFS. `Fmt.round` rounds a real number once, with the status of R55 (R46, R50 to R52, R55). -/

namespace Sys2Proof.Machine

section Round
variable {g : Fmt} {m : Nat} {e : Int} {sticky : Bool} {x : ℝ}

/-- `Fmt.round` by its pattern in the binade. -/
theorem Fmt.round_eq (g : Fmt) (rm : Rm) (sat neg : Bool) (h : ¬ (m = 0 ∧ sticky = false)) : g.round rm sat neg m e sticky =
    let q := max (g.lead m e) g.qmin
    let r := roundUnit rm neg m e q sticky
    let bits := (q - g.qmin).toNat * 2 ^ g.mbits + r.1
    if g.maxFin < bits then (overflowOf g rm sat neg, 5)
    else (g.signed neg bits, (if r.2 then 1 else 0) ||| (if (decide (g.lead m e < g.qmin) &&
      decide ((roundUnit rm neg m e (g.lead m e) sticky).1 < 2 ^ ((g.qmin - g.lead m e).toNat + g.mbits))) && r.2 then 2 else 0)) := by
  rw [Fmt.round, if_neg (by simpa using h), g.overflow_eq]
  rfl

/-- The significand and its rounding at the unit of the number. -/
theorem Fmt.rounds_lead (hx : StandsAt m e sticky x) (hm : m ≠ 0) (hs : sticky = true → g.mbits + 1 < bitLen m) (rm : Rm) (neg : Bool) :
    Rounds rm neg (x / (2 : ℝ) ^ g.lead m e) (roundUnit rm neg m e (g.lead m e) sticky).1 ∧
      2 ^ g.mbits ≤ (roundUnit rm neg m e (g.lead m e) sticky).1 ∧
      (roundUnit rm neg m e (g.lead m e) sticky).1 ≤ 2 ^ (g.mbits + 1) := by
  obtain ⟨hlo, hhi⟩ := g.lead_bounds hx hm
  obtain ⟨hr, -⟩ := roundUnit_rounds rm neg hx (q := g.lead m e) fun h => by have := hs h; rw [Fmt.lead]; omega
  have hp : (0 : ℝ) < 2 ^ g.lead m e := by positivity
  refine ⟨hr, rounds_le_of_le hr ?_, rounds_le_of_lt hr ?_⟩
  · rw [le_div_iff₀ hp]; push_cast; exact hlo
  · rw [div_lt_iff₀ hp]; push_cast; exact hhi

/-- The significand of a number below the normal ones, at the smallest unit. -/
theorem Fmt.rounds_subnormal (hx : StandsAt m e sticky x) (hm : m ≠ 0) (hs : sticky = true → g.mbits + 1 < bitLen m)
    (low : g.lead m e < g.qmin) (rm : Rm) (neg : Bool) : (roundUnit rm neg m e g.qmin sticky).1 ≤ 2 ^ g.mbits ∧
      2 ^ (g.mbits + 1) * (2 : ℝ) ^ g.lead m e ≤ 2 ^ g.mbits * (2 : ℝ) ^ g.qmin := by
  obtain ⟨-, hhi⟩ := g.lead_bounds hx hm
  obtain ⟨hr, -⟩ := roundUnit_rounds rm neg hx (q := g.qmin) fun h => by have := hs h; rw [Fmt.lead] at low; omega
  have hp : (0 : ℝ) < 2 ^ g.qmin := by positivity
  have hle : 2 ^ (g.mbits + 1) * (2 : ℝ) ^ g.lead m e ≤ 2 ^ g.mbits * (2 : ℝ) ^ g.qmin := by
    rw [pow_succ, mul_assoc, ← zpow_one_add₀ (by norm_num)]
    exact mul_le_mul_of_nonneg_left (zpow_le_zpow_right₀ (by norm_num) (by omega)) (by positivity)
  refine ⟨rounds_le_of_lt hr ?_, hle⟩
  rw [div_lt_iff₀ hp]; push_cast; linarith

/-- `Fmt.round` rounds a number once, with the status of R55. -/
theorem Fmt.round_gives (hg : g.Sound) (rm : Rm) (sat neg : Bool) (hx : StandsAt m e sticky x)
    (hs : sticky = true → g.mbits + 1 < bitLen m) : Gives g rm sat (some (.num neg x)) (g.round rm sat neg m e sticky) := by
  by_cases hz : m = 0 ∧ sticky = false
  · obtain ⟨rfl, rfl⟩ := hz
    obtain ⟨δ, rfl, -, -, hδ⟩ := hx
    have hd : δ = 0 := by by_contra h; exact absurd (hδ.2 h) Bool.false_ne_true
    refine ⟨fun _ => by simp [Fmt.round], fun h => absurd (by simp [hd]) h⟩
  have hm : m ≠ 0 := fun h => by
    cases hst : sticky with
    | false => exact hz ⟨h, hst⟩
    | true => have := hs hst; rw [h] at this; simp [bitLen] at this
  obtain ⟨hlo, hhi⟩ := g.lead_bounds hx hm
  obtain ⟨hrl, hrlo, hrhi⟩ := Fmt.rounds_lead hx hm hs rm neg
  have hpos : 0 < x := lt_of_lt_of_le (by positivity) hlo
  have hq : sticky = true → e < max (g.lead m e) g.qmin := fun h => lt_max_of_lt_left (by have := hs h; rw [Fmt.lead]; omega)
  obtain ⟨hr, hexact⟩ := roundUnit_rounds rm neg hx hq
  have hbig := Fmt.numberOf_maxFin hg
  have hmax : (g.units (2 ^ g.mbits) : ℝ) ≤ g.units g.maxFin := by
    exact_mod_cast g.units_strictMono.monotone (Fmt.normal_le_maxFin hg)
  have hpq : (0 : ℝ) < 2 ^ g.qmin := by positivity
  rw [g.round_eq rm sat neg hz]
  refine ⟨fun h => absurd h hpos.ne', fun _ => ⟨⟨max (g.lead m e) g.qmin, _, le_max_right _ _, ?_, ?_, hr, ?_⟩, ?_⟩⟩
  · exact lt_of_lt_of_le hhi (mul_le_mul_of_nonneg_left (zpow_le_zpow_right₀ (by norm_num) (le_max_left _ _)) (by positivity))
  · rcases le_total (g.lead m e) g.qmin with h | h
    · exact .inl (max_eq_right h)
    · exact .inr (by rw [max_eq_left h]; exact hlo)
  · dsimp only
    split
    next h => rw [if_neg (Nat.not_le.2 h)]
    next h => rw [if_pos (Nat.not_lt.1 h)]
  refine ⟨g.lead m e, _, hlo, hhi, hrl, ?_⟩
  rw [hbig]
  dsimp only
  rcases le_or_gt g.qmin (g.lead m e) with high | low
  · rw [max_eq_left high] at hexact ⊢
    generalize hR : roundUnit rm neg m e (g.lead m e) sticky = R at *
    have hval := g.units_real high hrhi (.inr hrlo)
    rw [← hval, mul_lt_mul_iff_left₀ hpq, ← hexact]
    have hiff : ((g.units g.maxFin : ℝ) < g.units ((g.lead m e - g.qmin).toNat * 2 ^ g.mbits + R.1)) ↔
        g.maxFin < (g.lead m e - g.qmin).toNat * 2 ^ g.mbits + R.1 := by
      rw [Nat.cast_lt]; exact g.units_strictMono.lt_iff_lt
    have hnot : ¬ (g.units ((g.lead m e - g.qmin).toNat * 2 ^ g.mbits + R.1) : ℝ) * 2 ^ g.qmin < 2 ^ g.mbits * 2 ^ g.qmin := by
      rw [hval, not_lt]
      refine mul_le_mul (by exact_mod_cast hrlo) (zpow_le_zpow_right₀ (by norm_num) high) hpq.le (Nat.cast_nonneg _)
    rw [hiff]
    have hlow : ¬ g.lead m e < g.qmin := by omega
    by_cases hov : g.maxFin < (g.lead m e - g.qmin).toNat * 2 ^ g.mbits + R.1
    · simp [hov]
    · cases hin : R.2 <;> simp [hov, hnot, hlow]
  · rw [max_eq_right low.le] at hexact hr ⊢
    obtain ⟨hsub, hle⟩ := Fmt.rounds_subnormal hx hm hs low rm neg
    generalize hR : roundUnit rm neg m e g.qmin sticky = R at *
    generalize hL : roundUnit rm neg m e (g.lead m e) sticky = L at *
    have hpl : (0 : ℝ) < 2 ^ g.lead m e := by positivity
    have hunits : g.units (2 ^ g.mbits) = 2 ^ g.mbits := by
      have := g.units_pattern (k := 0) (r := 2 ^ g.mbits) (Nat.pow_le_pow_right (by norm_num) (Nat.le_succ _)) (.inl rfl)
      simpa using this
    have hnbig : ¬ (g.units g.maxFin : ℝ) * 2 ^ g.qmin < L.1 * 2 ^ g.lead m e := by
      rw [not_lt]
      rw [hunits] at hmax
      push_cast at hmax
      calc (L.1 : ℝ) * 2 ^ g.lead m e ≤ 2 ^ (g.mbits + 1) * 2 ^ g.lead m e :=
            mul_le_mul_of_nonneg_right (by exact_mod_cast hrhi) hpl.le
        _ ≤ 2 ^ g.mbits * 2 ^ g.qmin := hle
        _ ≤ _ := mul_le_mul_of_nonneg_right hmax hpq.le
    have hfits : ¬ g.maxFin < (g.qmin - g.qmin).toNat * 2 ^ g.mbits + R.1 := by
      have := Fmt.normal_le_maxFin hg
      rw [sub_self]
      simp only [Int.toNat_zero, Nat.zero_mul, Nat.zero_add]
      omega
    have htiny : (L.1 : ℝ) * 2 ^ g.lead m e < 2 ^ g.mbits * 2 ^ g.qmin ↔ L.1 < 2 ^ ((g.qmin - g.lead m e).toNat + g.mbits) := by
      rw [← two_zpow_sub_toNat low.le, ← mul_assoc, mul_lt_mul_iff_left₀ hpl, ← pow_add, Nat.add_comm]
      exact_mod_cast Iff.rfl
    rw [htiny, ← hexact, if_neg hfits]
    simp only [hnbig, low, decide_true, Bool.true_and]
    by_cases ht : L.1 < 2 ^ ((g.qmin - g.lead m e).toNat + g.mbits)
    · cases hin : R.2 <;> simp [ht]
    · cases hin : R.2 <;> simp [ht]

end Round

end Sys2Proof.Machine

/-! PROOFS. Exact sums and products of float values, and their order (R129, R130, R134). -/

namespace Sys2Proof.Machine

/-! ## Exact values and their one rounding (R129) -/

/-- The exact value of a result of R129; an invalid one has none. -/
noncomputable def exactResult (p : FVal × Bool) : Option Exact := if p.2 then none else some (Exact.of p.1)

section Sound
variable {g : Fmt}

theorem Fmt.encode_gives (hg : g.Sound) (rm : Rm) (sat : Bool) (v : FVal) : Gives g rm sat (some (Exact.of v)) (g.encode rm sat v) := by
  cases v with
  | nan => rfl
  | inf neg => rw [Fmt.encode, g.overflow_eq]; rfl
  | fin neg m e => exact Fmt.round_gives hg rm sat neg (standsAt_exact m e) fun h => absurd h Bool.false_ne_true

theorem Fmt.result_gives (hg : g.Sound) (rm : Rm) (sat : Bool) (p : FVal × Bool) : Gives g rm sat (exactResult p) (g.result rm sat p) := by
  obtain ⟨v, invalid⟩ := p
  cases invalid with
  | false => exact Fmt.encode_gives hg rm sat v
  | true => rfl

end Sound

theorem signedNat_cast (neg : Bool) (m : Nat) : ((signedNat neg m : Int) : ℝ) = if neg then -(m : ℝ) else m := by
  cases neg <;> simp [signedNat]

/-- A number at a lower exponent. -/
theorem signedNat_scaled (neg : Bool) (m : Nat) {e q : Int} (h : q ≤ e) :
    ((signedNat neg (m * 2 ^ (e - q).toNat) : Int) : ℝ) * (2 : ℝ) ^ q = if neg then -(m * (2 : ℝ) ^ e) else m * (2 : ℝ) ^ e := by
  rw [signedNat_cast, ← two_zpow_sub_toNat h]
  push_cast
  split <;> ring

theorem exact_of_signed (z : Bool) {n : Int} (hn : n ≠ 0) (q : Int) :
    Exact.of (.fin (decide (n < 0)) n.natAbs q) = Exact.real z (n * (2 : ℝ) ^ q) := by
  have hp : (0 : ℝ) < 2 ^ q := by positivity
  have hr : (n : ℝ) ≠ 0 := by exact_mod_cast hn
  rw [Exact.real, if_neg (mul_ne_zero hr hp.ne'), Exact.of, Nat.cast_natAbs, Int.cast_abs, abs_mul, abs_of_pos hp]
  congr 1
  rw [decide_eq_decide, ← Int.cast_lt_zero (R := ℝ), ← mul_lt_mul_iff_left₀ hp, zero_mul]

theorem zpow_mul_eq_zero {m : Nat} {e : Int} : (m : ℝ) * (2 : ℝ) ^ e = 0 ↔ m = 0 := by
  rw [mul_eq_zero, or_iff_left (zpow_ne_zero _ (by norm_num)), Nat.cast_eq_zero]

theorem exact_neg (a : FVal) : Exact.of a.neg = (Exact.of a).neg := by cases a <;> rfl

theorem exact_abs (a : FVal) : Exact.of a.abs = (Exact.of a).abs := by cases a <;> rfl

theorem exact_mul (a b : FVal) : exactResult (FVal.mul a b) = (Exact.of a).mul (Exact.of b) := by
  cases a with
  | nan => cases b <;> rfl
  | inf x =>
    cases b with
    | nan => rfl
    | inf y => rfl
    | fin y n k =>
      simp only [FVal.mul, Exact.of, Exact.mul, zpow_mul_eq_zero]
      split <;> rfl
  | fin x m e =>
    cases b with
    | nan => rfl
    | inf y =>
      simp only [FVal.mul, Exact.of, Exact.mul, zpow_mul_eq_zero]
      split <;> rfl
    | fin y n k =>
      simp only [FVal.mul, exactResult, Exact.of, Exact.mul, Bool.false_eq_true, if_false]
      rw [zpow_add₀ (by norm_num)]
      push_cast
      congr 2
      ring

theorem exact_add (rm : Rm) (a b : FVal) : exactResult (FVal.add rm a b) = (Exact.of a).add rm (Exact.of b) := by
  cases a with
  | nan => cases b <;> rfl
  | inf x =>
    cases b with
    | nan => rfl
    | inf y =>
      simp only [FVal.add, Exact.of, Exact.add]
      split <;> rfl
    | fin y n k => rfl
  | fin x m e =>
    cases b with
    | nan => rfl
    | inf y => rfl
    | fin y n k =>
      have hrdn : (rm == Rm.rdn) = decide (rm = Rm.rdn) := by cases rm <;> rfl
      simp only [FVal.add, Exact.of, Exact.add, zpow_mul_eq_zero, hrdn]
      rw [← signedNat_scaled x m (min_le_left e k), ← signedNat_scaled y n (min_le_right e k), ← add_mul]
      by_cases h0 : m = 0 ∧ n = 0
      · obtain ⟨rfl, rfl⟩ := h0
        by_cases hs : x = y <;> simp [exactResult, Exact.of, Exact.real, signedNat_cast, hs]
      · have hz : ¬ (m = 0 ∧ n = 0 ∧ x = y) := fun h => h0 ⟨h.1, h.2.1⟩
        rw [if_neg hz, if_neg (by simpa using h0)]
        generalize ha : signedNat x (m * 2 ^ (e - min e k).toNat) = u
        generalize hb : signedNat y (n * 2 ^ (k - min e k).toNat) = w
        by_cases hsum : u + w = 0
        · have : ((u : ℝ) + w) = 0 := by exact_mod_cast hsum
          simp [hsum, this, exactResult, Exact.of, Exact.real]
        · rw [if_neg hsum]
          have := exact_of_signed (decide (rm = Rm.rdn)) hsum (min e k)
          push_cast at this
          simp only [exactResult, Bool.false_eq_true, if_false, this]

theorem exact_fma (rm : Rm) (a b c : FVal) :
    exactResult (FVal.fma rm a b c) = Exact.fma rm (Exact.of a) (Exact.of b) (Exact.of c) := by
  by_cases hc : c = .nan
  · rw [hc]; rfl
  have hfma : Exact.fma rm (Exact.of a) (Exact.of b) (Exact.of c) = (exactResult (FVal.mul a b)).bind fun p => p.add rm (Exact.of c) := by
    rw [exact_mul]
    cases c with
    | nan => exact absurd rfl hc
    | inf z => rfl
    | fin z l h => rfl
  have hnan : ¬ c.isNan = true := by cases c <;> simp_all [FVal.isNan]
  rw [hfma, FVal.fma, if_neg hnan]
  cases hp : (FVal.mul a b).2 with
  | true => rw [if_pos rfl, exactResult, exactResult, if_pos rfl, if_pos hp]; rfl
  | false =>
    have hmul : exactResult (FVal.mul a b) = some (Exact.of (FVal.mul a b).1) := by rw [exactResult, hp, if_neg Bool.false_ne_true]
    rw [if_neg Bool.false_ne_true, hmul, exact_add]
    rfl

/-! ## The order of float values (R130, R134) -/

theorem numberOf_fin (neg : Bool) (m : Nat) (e : Int) : numberOf (.fin neg m e) = if neg then -(m * (2 : ℝ) ^ e) else m * (2 : ℝ) ^ e := rfl

theorem FVal.lt_fin_iff {x y : Bool} {m n : Nat} {e k : Int} : (FVal.fin x m e).lt (.fin y n k) = true ↔
    numberOf (.fin x m e) < numberOf (.fin y n k) := by
  have hp : (0 : ℝ) < 2 ^ min e k := by positivity
  rw [numberOf_fin, numberOf_fin, ← signedNat_scaled x m (min_le_left e k), ← signedNat_scaled y n (min_le_right e k),
    mul_lt_mul_iff_left₀ hp, Int.cast_lt]
  exact decide_eq_true_iff

end Sys2Proof.Machine

/-! PROOFS. Results within their width, representable values and the order of patterns (R48, R50, R130). -/

namespace Sys2Proof.Machine

/-! ## Patterns within their width -/

section Sound
variable {g : Fmt}

theorem Fmt.signBit_pos (g : Fmt) : 0 < g.signBit := by rw [Fmt.signBit]; positivity

theorem Fmt.signed_lt {c : Nat} (h : c < g.signBit) (neg : Bool) : g.signed neg c < 2 ^ g.width := by
  rw [Fmt.signed, g.width_eq]
  split <;> omega

theorem Fmt.inf_lt (g : Fmt) : g.inf < g.signBit := by
  rw [Fmt.inf, g.signBit_eq]
  refine Nat.mul_lt_mul_of_pos_right (Nat.sub_lt (by positivity) Nat.one_pos) (by positivity)

theorem Fmt.overflow_lt (hg : g.Sound) (rm : Rm) (sat neg : Bool) : overflowOf g rm sat neg < 2 ^ g.width := by
  have hm (n : Bool) := Fmt.signed_lt (Fmt.maxFin_lt hg) n
  have hi (n : Bool) := Fmt.signed_lt g.inf_lt n
  have hn : g.nan < 2 ^ g.width := by rw [g.width_eq]; have := hg.nan_lt; omega
  unfold overflowOf
  split
  · exact hm _
  split
  · exact hn
  split
  all_goals first | exact hm _ | exact hi _

theorem Fmt.round_lt (hg : g.Sound) (rm : Rm) (sat neg : Bool) (m : Nat) (e : Int) (sticky : Bool) :
    (g.round rm sat neg m e sticky).1 < 2 ^ g.width := by
  by_cases hz : m = 0 ∧ sticky = false
  · rw [Fmt.round, if_pos (by simp [hz])]
    exact Fmt.signed_lt g.signBit_pos _
  · rw [g.round_eq rm sat neg hz]
    dsimp only
    split
    · exact Fmt.overflow_lt hg ..
    next h => exact Fmt.signed_lt (lt_of_le_of_lt (Nat.not_lt.1 h) (Fmt.maxFin_lt hg)) _

theorem Fmt.nan_lt (hg : g.Sound) : g.nan < 2 ^ g.width := by rw [g.width_eq]; have := hg.nan_lt; omega

theorem Fmt.encode_lt (hg : g.Sound) (rm : Rm) (sat : Bool) (v : FVal) : (g.encode rm sat v).1 < 2 ^ g.width := by
  cases v with
  | nan => exact Fmt.nan_lt hg
  | inf neg =>
    rw [Fmt.encode, g.overflow_eq]
    split
    · exact Fmt.signed_lt g.inf_lt _
    · exact Fmt.overflow_lt hg ..
  | fin neg m e => exact Fmt.round_lt hg ..

theorem Fmt.result_lt (hg : g.Sound) (rm : Rm) (sat : Bool) (p : FVal × Bool) : (g.result rm sat p).1 < 2 ^ g.width := by
  rw [Fmt.result]
  split
  · exact Fmt.nan_lt hg
  · exact Fmt.encode_lt hg ..

/-! ## Representable values (R48, R50, R55) -/

/-- A number whose significand fits at its unit rounds to its pattern and raises nothing. -/
theorem Fmt.round_whole (rm : Rm) (sat neg : Bool) {m : Nat} {e : Int} (hm : m ≠ 0) (he : max (g.lead m e) g.qmin = e)
    (hfit : (e - g.qmin).toNat * 2 ^ g.mbits + m ≤ g.maxFin) :
    g.round rm sat neg m e false = (g.signed neg ((e - g.qmin).toNat * 2 ^ g.mbits + m), 0) := by
  have hu : roundUnit rm neg m e e false = (m, false) := by rw [roundUnit, if_pos le_rfl, sub_self]; simp
  rw [g.round_eq rm sat neg (by simp [hm]), he]
  dsimp only
  rw [hu, if_neg (Nat.not_lt.2 hfit)]
  simp

/-- A pattern is its sign and its pattern below the sign. -/
theorem Fmt.signed_parts {b : Nat} (hb : b < 2 ^ g.width) : g.signed (decide (b / g.signBit % 2 = 1)) (b % g.signBit) = b := by
  rw [g.width_eq] at hb
  have hdm := Nat.div_add_mod b g.signBit
  have h2 : b / g.signBit < 2 := Nat.div_lt_of_lt_mul (by rwa [Nat.mul_comm])
  rw [Fmt.signed]
  generalize b / g.signBit = top at *
  obtain rfl | rfl : top = 0 ∨ top = 1 := by omega
  · simp; omega
  · simp; omega

theorem Fmt.encode_decode (hg : g.Sound) (rm : Rm) (sat : Bool) {b : Nat} (hb : b < 2 ^ g.width) (hn : g.isNan b = false)
    (hi : ∀ neg, g.decode b ≠ .inf neg) : g.encode rm sat (g.decode b) = (b, 0) := by
  have hp : 0 < 2 ^ g.mbits := by positivity
  have hfin : b % g.signBit ≤ g.maxFin := by
    by_contra h
    have hd := Fmt.decode_eq hg b
    rw [if_neg h] at hd
    split at hd
    · exact hi _ hd
    · rw [Fmt.isNan, hd] at hn; exact absurd hn (by decide)
  have hparts := Fmt.signed_parts hb
  rw [Fmt.decode_eq hg, if_pos hfin]
  generalize decide (b / g.signBit % 2 = 1) = neg at *
  generalize b % g.signBit = c at *
  have hdm := Nat.div_add_mod c (2 ^ g.mbits)
  have hlt := Nat.mod_lt c hp
  split
  next h0 =>
    rw [h0, Nat.mul_zero, Nat.zero_add] at hdm
    rw [hdm] at hlt ⊢
    by_cases hz : c = 0
    · subst hz
      rw [← hparts]
      simp [Fmt.encode, Fmt.round]
    · have hbl : bitLen c ≤ g.mbits := by
        obtain ⟨h1, h2, -⟩ := bitLen_bounds hz
        have := (Nat.pow_lt_pow_iff_right (a := 2) (by norm_num)).1 (lt_of_le_of_lt h2 hlt)
        omega
      rw [Fmt.encode, Fmt.round_whole rm sat neg hz (max_eq_right (by rw [Fmt.lead]; omega)) (by simpa using hfin)]
      simp [hparts]
  next h0 =>
    obtain ⟨k, hk⟩ := Nat.exists_eq_succ_of_ne_zero h0
    have hbl : bitLen (2 ^ g.mbits + c % 2 ^ g.mbits) = g.mbits + 1 :=
      bitLen_eq (Nat.le_add_right _ _) (by rw [pow_succ]; omega)
    have hpat : (g.qmin + (k : Int) - g.qmin).toNat * 2 ^ g.mbits + (2 ^ g.mbits + c % 2 ^ g.mbits) = c := by
      rw [hk, Nat.succ_eq_add_one, Nat.mul_comm, Nat.add_mul] at hdm
      rw [show g.qmin + (k : Int) - g.qmin = k by omega, Int.toNat_natCast]
      omega
    rw [hk, Nat.succ_sub_one, Fmt.encode,
      Fmt.round_whole rm sat neg (by omega) (by rw [Fmt.lead, hbl]; omega) (by rw [hpat]; exact hfin), hpat, hparts]

/-! ## The order of patterns (R130) -/

/-- What a pattern other than a NaN stands for. -/
theorem Fmt.decode_number (hg : g.Sound) {b : Nat} (h : g.isNan b = false) :
    (b % g.signBit ≤ g.maxFin ∧ ∃ m e, g.decode b = .fin (decide (b / g.signBit % 2 = 1)) m e ∧
      m * (2 : ℝ) ^ e = g.units (b % g.signBit) * (2 : ℝ) ^ g.qmin) ∨
    (g.maxFin < b % g.signBit ∧ b % g.signBit = g.inf ∧ g.decode b = .inf (decide (b / g.signBit % 2 = 1))) := by
  by_cases hf : b % g.signBit ≤ g.maxFin
  · exact .inl ⟨hf, Fmt.decode_finite hg hf⟩
  · have hd := Fmt.decode_eq hg b
    rw [if_neg hf] at hd
    split at hd
    next hi => exact .inr ⟨by omega, hi.2, hd⟩
    · rw [Fmt.isNan, hd] at h; exact absurd h (by decide)

theorem place_nonneg {c : Nat} (h : ¬ c / g.signBit % 2 = 1) : place g c = (c % g.signBit : Nat) := by rw [place, if_neg h]

theorem place_neg {c : Nat} (h : c / g.signBit % 2 = 1) : place g c = -((c % g.signBit : Nat) : Int) - 1 := by rw [place, if_pos h]

/-- Patterns within their width differ in their place. -/
theorem place_inj {a b : Nat} (ha : a < 2 ^ g.width) (hb : b < 2 ^ g.width) (h : place g a = place g b) : a = b := by
  have e1 := Fmt.signed_parts ha
  have e2 := Fmt.signed_parts hb
  by_cases sa : a / g.signBit % 2 = 1 <;> by_cases sb : b / g.signBit % 2 = 1
  · rw [place_neg sa, place_neg sb] at h
    rw [← e1, ← e2, show a % g.signBit = b % g.signBit by omega]; simp [sa, sb]
  · rw [place_neg sa, place_nonneg sb] at h; omega
  · rw [place_nonneg sa, place_neg sb] at h; omega
  · rw [place_nonneg sa, place_nonneg sb] at h
    rw [← e1, ← e2, show a % g.signBit = b % g.signBit by omega]; simp [sa, sb]

/-- The order of float values, −0 below +0, is the order of places. -/
theorem fltBelow_iff (hg : g.Sound) {a b : Nat} (ha : g.isNan a = false) (hb : g.isNan b = false) :
    fltBelow g a b = true ↔ place g a < place g b := by
  have hpq : (0 : ℝ) < 2 ^ g.qmin := by positivity
  have hzero {m : Nat} {e : Int} {c : Nat} (h : m * (2 : ℝ) ^ e = g.units c * (2 : ℝ) ^ g.qmin) : m = 0 ↔ g.units c = 0 := by
    rw [← zpow_mul_eq_zero (e := e), h, zpow_mul_eq_zero]
  have hz (neg : Bool) (m : Nat) (e : Int) : (FVal.fin neg m e).isZero = decide (m = 0) := by cases m <;> rfl
  have hmono := g.units_strictMono.lt_iff_lt (a := a % g.signBit) (b := b % g.signBit)
  have hmono' := g.units_strictMono.lt_iff_lt (a := b % g.signBit) (b := a % g.signBit)
  simp only [fltBelow, Bool.or_eq_true, Bool.and_eq_true, decide_eq_true_eq]
  rcases Fmt.decode_number hg ha with ⟨fa, m, e, da, va⟩ | ⟨fa, ia, da⟩ <;>
    rcases Fmt.decode_number hg hb with ⟨fb, n, k, db, vb⟩ | ⟨fb, ib, db⟩ <;> rw [da, db]
  · rw [FVal.lt_fin_iff, numberOf_fin, numberOf_fin, va, vb, hz, hz]
    simp only [decide_eq_true_eq, hzero va, hzero vb]
    by_cases sa : a / g.signBit % 2 = 1 <;> by_cases sb : b / g.signBit % 2 = 1
    · rw [place_neg sa, place_neg sb]
      simp only [sa, sb, if_true, neg_lt_neg_iff, mul_lt_mul_iff_left₀ hpq, Nat.cast_lt, hmono']
      omega
    · rw [place_neg sa, place_nonneg sb]
      simp only [sa, sb, if_true, if_false]
      refine iff_of_true ?_ (by omega)
      by_cases h : g.units (a % g.signBit) = 0 ∧ g.units (b % g.signBit) = 0
      · exact .inr ⟨⟨h, trivial⟩, by omega⟩
      · refine .inl ?_
        have h1 : (0 : ℝ) < (g.units (a % g.signBit) + g.units (b % g.signBit) : Nat) := by
          exact_mod_cast (show 0 < g.units (a % g.signBit) + g.units (b % g.signBit) by omega)
        have h2 := mul_pos h1 hpq
        push_cast at h2
        linarith
    · rw [place_nonneg sa, place_neg sb]
      simp only [sa, sb, if_true, if_false, and_false, false_and, or_false]
      refine iff_of_false ?_ (by omega)
      have h1 : (0 : ℝ) ≤ g.units (a % g.signBit) * 2 ^ g.qmin := by positivity
      have h2 : (0 : ℝ) ≤ g.units (b % g.signBit) * 2 ^ g.qmin := by positivity
      linarith
    · rw [place_nonneg sa, place_nonneg sb]
      simp only [sa, sb, if_false, mul_lt_mul_iff_left₀ hpq, Nat.cast_lt, hmono, and_false, false_and, or_false]
  all_goals
    by_cases sa : a / g.signBit % 2 = 1 <;> by_cases sb : b / g.signBit % 2 = 1 <;>
      simp [FVal.lt, FVal.isZero, sa, sb, place] <;> omega

end Sound

theorem Ty.value_float {t : Ty} (h : t.isFloat = true) (b : Nat) : t.value b = t.fmt.decode b := by rw [Ty.value, h]; rfl

/-- The smaller and the larger of two float elements, as the statements name them. -/
theorem minMax_float {t : Ty} (ht : t.isFloat = true) {a b : Nat} (ha : a < 2 ^ t.fmt.width) (hb : b < 2 ^ t.fmt.width) :
    minMax t false a b = smaller t.fmt a b ∧ minMax t true a b = larger t.fmt a b := by
  simp only [minMax, smaller, larger, ht, if_true, Bool.false_eq_true, if_false]
  cases na : t.fmt.isNan a
  case true => exact ⟨rfl, rfl⟩
  cases nb : t.fmt.isNan b
  case true => exact ⟨rfl, rfl⟩
  have hbelow := fltBelow_iff t.fmt_sound na nb
  simp only [Bool.false_eq_true, if_false]
  rcases lt_trichotomy (place t.fmt a) (place t.fmt b) with h | h | h
  · rw [if_pos (hbelow.2 h), if_pos (hbelow.2 h), if_pos h.le, if_pos h.le]; exact ⟨rfl, rfl⟩
  · rw [place_inj ha hb h]; simp
  · rw [if_neg (mt hbelow.1 h.not_gt), if_neg (mt hbelow.1 h.not_gt), if_neg h.not_ge, if_neg h.not_ge]; exact ⟨rfl, rfl⟩

theorem smaller_lt {g : Fmt} (hg : g.Sound) {a b : Nat} (ha : a < 2 ^ g.width) (hb : b < 2 ^ g.width) : smaller g a b < 2 ^ g.width := by
  have := Fmt.nan_lt hg
  unfold smaller
  split_ifs <;> assumption

theorem larger_lt {g : Fmt} (hg : g.Sound) {a b : Nat} (ha : a < 2 ^ g.width) (hb : b < 2 ^ g.width) : larger g a b < 2 ^ g.width := by
  have := Fmt.nan_lt hg
  unfold larger
  split_ifs <;> assumption

end Sys2Proof.Machine

/-! PROOFS. What a vector command leaves: its frame, its elements and its status (R90, R123, R125). -/

namespace Sys2Proof.Machine

/-! ## Status bits -/

@[simp] theorem bit4_or (x y : BitVec 4) (j : Nat) : bit (x ||| y) j = (bit x j || bit y j) := BitVec.getLsbD_or

theorem bit4_zero (j : Nat) : bit (0 : BitVec 4) j = false := BitVec.getLsbD_zero

/-- A bit of a disjunction over a list. -/
theorem bit_foldl_or {α : Type} (l : List α) (f : α → BitVec 4) (a : BitVec 4) (j : Nat) :
    bit (l.foldl (fun a x => a ||| f x) a) j = true ↔ bit a j = true ∨ ∃ x ∈ l, bit (f x) j = true := by
  induction l generalizing a with
  | nil => simp
  | cons x l ih => rw [List.foldl_cons, ih, bit4_or, Bool.or_eq_true, or_assoc, List.exists_mem_cons_iff]

theorem toList_tab {α : Type} (n : Nat) (g : Nat → α) : (tab n g).toList = (List.range n).map g := by
  rw [tab, Array.toList_ofFn, List.ofFn_eq_map, ← List.map_coe_finRange_eq_range, List.map_map]
  rfl

theorem tab_map {α β : Type} (n : Nat) (g : Nat → α) (h : α → β) : (tab n g).map h = tab n fun i => h (g i) := by
  refine Array.toList_inj.1 ?_
  rw [Array.toList_map, toList_tab, toList_tab, List.map_map]
  rfl

theorem orStatus_eq (t : Array (Option (Nat × BitVec 4))) :
    orStatus t = t.toList.foldl (fun a r => a ||| (r.map (·.2)).getD 0) 0 := by
  rw [orStatus, ← Array.foldl_toList]
  congr 1
  funext a r
  cases r with
  | none => exact BitVec.or_zero.symm
  | some x => rfl

/-- A bit of the status of a table of results. -/
theorem bit_orStatus_tab (n : Nat) (g : Nat → Option (Nat × BitVec 4)) (j : Nat) : bit (orStatus (tab n g)) j = true ↔
    ∃ e, e < n ∧ ∃ x, g e = some x ∧ bit x.2 j = true := by
  rw [orStatus_eq, toList_tab, bit_foldl_or]
  simp only [bit4_zero, Bool.false_eq_true, false_or, List.mem_map, List.mem_range, exists_exists_and_eq_and]
  refine exists_congr fun e => and_congr_right fun _ => ?_
  cases g e with
  | none => simp [bit]
  | some x => simp

theorem anyEnabled_tab {α : Type} (n : Nat) (g : Nat → Option α) : anyEnabled (tab n g) = true ↔ ∃ e, e < n ∧ (g e).isSome = true := by
  rw [anyEnabled, ← Array.any_toList, toList_tab]
  simp

/-! ## What a vector command leaves (R125) -/

/-- The state behind a command in the hand that has given its context these registers and gathered this status. -/
def State.gave (s : State) (vs : Vector VReg 16) (ps : Vector PReg 8) (st : BitVec 4) (n : Nat) : State :=
  s.setFh { s.fh with
    ctxs := s.fh.ctxs.set s.hand.ctx { s.handCtx with vs := vs, ps := ps }
    hand := { s.hand with performed := true, status := s.hand.status ||| st, bytes := s.hand.bytes + n } }

section Gave
variable (s : State) (vs : Vector VReg 16) (ps : Vector PReg 8) (st : BitVec 4) (n : Nat)

theorem State.gave_hand : (s.gave vs ps st n).hand =
    { s.hand with performed := true, status := s.hand.status ||| st, bytes := s.hand.bytes + n } := by
  rw [State.hand, State.gave, State.fh_setFh]

theorem State.gave_ctx (c : Fin 4) : (s.gave vs ps st n).fh.ctx c =
    if s.hand.ctx = c then { s.handCtx with vs := vs, ps := ps } else s.fh.ctx c := by
  rw [State.gave, State.fh_setFh]
  exact s.fh.ctx_setCtx s.hand.ctx c _

theorem State.gave_handCtx : (s.gave vs ps st n).handCtx = { s.handCtx with vs := vs, ps := ps } := by
  rw [State.handCtx, State.gave_hand, State.gave_ctx, if_pos rfl]

@[simp] theorem State.gave_vreg (i : Fin 16) : (s.gave vs ps st n).vreg i = vs[i] := by rw [State.vreg, State.gave_handCtx]
@[simp] theorem State.gave_preg (i : Fin 8) : (s.gave vs ps st n).preg i = ps[i] := by rw [State.preg, State.gave_handCtx]

theorem State.onlyHearth_gave : OnlyHearth s.foc.h s (s.gave vs ps st n) := s.onlyHearth_setHearth _ _

/-- The registers that stay fix the frame of a command. -/
theorem State.vecFrame_gave {d : Option (Fin 16)} {p : Option (Fin 8)} (hv : ∀ i, some i ≠ d → vs[i] = s.vreg i)
    (hp : ∀ i, some i ≠ p → ps[i] = s.preg i) : VecFrame s d p (s.gave vs ps st n) := by
  refine ⟨s.onlyHearth_gave .., fun c hc => ?_, ?_, ?_, fun i hi => ?_, fun i hi => ?_, ?_, ?_⟩
  · rw [State.gave_ctx, if_neg hc.symm]
  · rw [State.gave, State.fh_setFh]
  · rw [State.gave_handCtx]
  · rw [State.gave_vreg]; exact hv i hi
  · rw [State.gave_preg]; exact hp i hi
  · rw [State.gave_hand]
  · rw [State.gave_hand]

theorem State.statusGains_gave {on : Nat → Prop} {z : Nat → BitVec 4} (h : ∀ j, bit st j = true ↔ ∃ e, on e ∧ bit (z e) j = true) :
    StatusGains s (s.gave vs ps st n) on z := fun j => by
  rw [State.gave_hand, bit4_or, Bool.or_eq_true, h]

end Gave

theorem State.setVreg_performedWith (s : State) (i : Fin 16) (v : VReg) (st : BitVec 4) (n : Nat) :
    (s.setVreg i v).performedWith st n = s.gave (s.handCtx.vs.set i v) s.handCtx.ps st n := by
  have hfh : (s.setVreg i v).fh = s.fh.setCtx s.hand.ctx { s.handCtx with vs := s.handCtx.vs.set i v } :=
    s.fh_setFh _
  rw [State.performedWith, State.setHand, State.hand, hfh]
  exact s.setHearth_setHearth s.foc.h _ _

/-! ## Element-wise commands (R123, R125) -/

/-- A command that writes one vector register whole has its frame. -/
theorem State.vecFrame_setVreg (s : State) (i : Fin 16) (v : VReg) (st : BitVec 4) (n : Nat) :
    VecFrame s (some i) none ((s.setVreg i v).performedWith st n) ∧ ((s.setVreg i v).performedWith st n).vreg i = v ∧
      ((s.setVreg i v).performedWith st n).hand.status = s.hand.status ||| st := by
  rw [State.setVreg_performedWith]
  refine ⟨s.vecFrame_gave _ _ _ _ (fun j hj => ?_) (fun _ _ => rfl), ?_, ?_⟩
  · have hne : i.val ≠ j.val := fun h => hj (congrArg some (Fin.ext h.symm))
    exact Vector.getElem_set_ne _ _ hne
  · rw [State.gave_vreg]; exact Vector.getElem_set_self _
  · rw [State.gave_hand]

/-- A table of results written to the enabled elements. -/
theorem vget_vput_tab {w : Nat} (v : VReg) {e : Nat} (h : e < elems w) (r : Nat → Option (Nat × BitVec 4)) :
    vget w (vput w v ((tab (elems w) r).map fun x => x.map (·.1))) e = match r e with
      | some x => x.1 % 2 ^ w
      | none => vget w v e := by
  rw [tab_map, vget_vput _ _ h, tab_getElem? _ h]
  cases r e <;> rfl

section Element
variable {i : CmdF → Instr} {f : CmdF} {s : State} {ops : List Nat} {g val : Nat → Nat × BitVec 4}

theorem vecGives_of (hexec : exec (i f) s = .next (s.vecWrite f (ops.map (s.src f f.typ)) g))
    (hval : ∀ e, e < elems f.typ.width → (g e).1 % 2 ^ f.typ.width = (val e).1 % 2 ^ f.typ.width ∧ (g e).2 = (val e).2) :
    VecGives i f s ops val := by
  refine completes_of hexec ?_
  obtain ⟨hframe, hreg, -⟩ := s.vecFrame_setVreg (f.v 0) (vput f.typ.width (s.vreg (f.v 0))
    ((tab (elems f.typ.width) fun e => if enabled f s.handCtx.ps f.typ.width e then some (g e) else none).map fun r => r.map (·.1)))
    (orStatus (tab (elems f.typ.width) fun e => if enabled f s.handCtx.ps f.typ.width e then some (g e) else none) |||
      immStatus (anyEnabled (tab (elems f.typ.width) fun e => if enabled f s.handCtx.ps f.typ.width e then some (g e) else none))
        (ops.map (s.src f f.typ))) 0
  refine ⟨hframe, fun e he => ?_, ?_⟩
  · refine (congrArg (vget f.typ.width · e) hreg).trans ?_
    rw [vget_vput_tab _ he]
    cases enabled f s.handCtx.ps f.typ.width e with
    | false => rfl
    | true => exact (hval e he).1
  · show StatusGains s (State.performedWith _ _ 0) _ _
    rw [State.setVreg_performedWith]
    refine s.statusGains_gave _ _ _ _ fun j => ?_
    rw [bit4_or, Bool.or_eq_true, bit_orStatus_tab, immStatus]
    constructor
    · rintro (⟨e, he, x, hx, hj⟩ | hj)
      · by_cases hen : enabled f s.handCtx.ps f.typ.width e = true
        · rw [if_pos hen] at hx
          cases hx
          exact ⟨e, ⟨he, hen⟩, by rw [← (hval e he).2, bit4_or, hj, Bool.true_or]⟩
        · rw [if_neg hen] at hx; cases hx
      · split at hj
        next hany =>
          obtain ⟨e, he, hen⟩ := (anyEnabled_tab _ _).1 hany
          have hen' : enabled f s.handCtx.ps f.typ.width e = true := by
            by_contra h; rw [if_neg h] at hen; exact absurd hen (by decide)
          refine ⟨e, ⟨he, hen'⟩, ?_⟩
          rw [List.foldl_map] at hj
          rw [bit4_or, Bool.or_eq_true, List.foldl_map]
          exact .inr hj
        · rw [bit4_zero] at hj; cases hj
    · rintro ⟨e, ⟨he, hen⟩, hj⟩
      rw [bit4_or, Bool.or_eq_true] at hj
      rcases hj with hj | hj
      · exact .inl ⟨e, he, g e, by rw [if_pos hen], by rw [(hval e he).2]; exact hj⟩
      · rw [if_pos ((anyEnabled_tab _ _).2 ⟨e, he, by rw [if_pos hen]; rfl⟩), List.foldl_map]
        rw [List.foldl_map] at hj
        exact .inr hj

/-- A command that gives its results with a status writes them. -/
theorem vecWrites_of_gives {v : Nat → Nat} (h : VecGives i f s ops val)
    (hv : ∀ e, e < elems f.typ.width → (val e).1 % 2 ^ f.typ.width = v e % 2 ^ f.typ.width) : VecWrites i f s v := by
  obtain ⟨t, ht, hframe, hval, -⟩ := h
  refine ⟨t, ht, hframe, fun e he => ?_⟩
  rw [hval e he, hv e he]

end Element

/-- An element of a source is a pattern of its width. -/
theorem opnd_lt (s : State) (f : CmdF) (i e : Nat) : opnd s f i e < 2 ^ f.typ.width := by
  rw [opnd]
  cases s.src f f.typ i with
  | reg v => exact vget_lt ..
  | const x st => exact Nat.mod_lt _ (by positivity)

/-- Commands of one, two and three sources. -/
theorem vec1_gives {i : CmdF → Instr} {f : CmdF} {s : State} {g : Nat → Nat × BitVec 4} (hexec : exec (i f) s = .next (s.vec1 f g)) :
    VecGives i f s [1] fun e => g (opnd s f 1 e) := vecGives_of hexec fun _ _ => ⟨rfl, rfl⟩

theorem vec2_gives {i : CmdF → Instr} {f : CmdF} {s : State} {g : Nat → Nat → Nat × BitVec 4}
    (hexec : exec (i f) s = .next (s.vec2 f g)) : VecGives i f s [1, 2] fun e => g (opnd s f 1 e) (opnd s f 2 e) :=
  vecGives_of hexec fun _ _ => ⟨rfl, rfl⟩

theorem vec3_gives {i : CmdF → Instr} {f : CmdF} {s : State} {g : Nat → Nat → Nat → Nat × BitVec 4}
    (hexec : exec (i f) s = .next (s.vec3 f g)) : VecGives i f s [1, 2, 3] fun e => g (opnd s f 1 e) (opnd s f 2 e) (opnd s f 3 e) :=
  vecGives_of hexec fun _ _ => ⟨rfl, rfl⟩

/-- The same command, with its results named otherwise. -/
theorem vecGives_congr {i : CmdF → Instr} {f : CmdF} {s : State} {ops : List Nat} {g val : Nat → Nat × BitVec 4}
    (h : VecGives i f s ops g) (e : g = val) : VecGives i f s ops val := e ▸ h

end Sys2Proof.Machine

/-! PROOFS. Integer vector arithmetic (O18; R53, R127, R128), and rounding to an integral value (O19; R131). -/

namespace Sys2Proof.Machine

/-! ## Integer elements (R53, R128) -/

theorem ofInt_toSigned (w v : Nat) : ofInt w (toSigned w v) = v % 2 ^ w := by
  have hp : 0 < 2 ^ w := by positivity
  have hlt := Nat.mod_lt v hp
  have hself : ((v % 2 ^ w : Nat) : Int) % ((2 ^ w : Nat) : Int) = (v % 2 ^ w : Nat) :=
    Int.emod_eq_of_lt (Int.natCast_nonneg _) (by exact_mod_cast hlt)
  rw [ofInt, toSigned]
  split
  · rw [hself, Int.toNat_natCast]
  · rw [Int.sub_emod_right, hself, Int.toNat_natCast]

theorem ofInt_toInt (t : Ty) (b : Nat) : ofInt t.width (t.toInt b) = b % 2 ^ t.width := by
  rw [Ty.toInt]
  split
  · exact ofInt_toSigned ..
  · rw [ofInt, ← Int.natCast_emod, Int.toNat_natCast, Nat.mod_mod]

theorem ofInt_lt (w : Nat) (v : Int) : ofInt w v < 2 ^ w := by
  have hp : (0 : Int) < ((2 ^ w : Nat) : Int) := by positivity
  have := Int.emod_lt_of_pos v hp
  have := Int.emod_nonneg v hp.ne'
  rw [ofInt]
  omega

theorem Arith.eval_int {f : CmdF} (hf : f.typ.isFloat = false) (op : Arith) (a b c : Nat) :
    op.eval f a b c = (f.typ.fit f.sat (op.int (f.typ.toInt a) (f.typ.toInt b) (f.typ.toInt c)), 0) := by
  rw [Arith.eval, hf]; rfl

/-- The smaller and the larger of two integer elements. -/
theorem toInt_minMax {t : Ty} (ht : t.isFloat = false) (a b : Nat) :
    t.toInt (minMax t false a b) = min (t.toInt a) (t.toInt b) ∧ t.toInt (minMax t true a b) = max (t.toInt a) (t.toInt b) := by
  simp only [minMax, ht, Bool.false_eq_true, if_false, if_true]
  split
  next h => exact ⟨(min_eq_left h.le).symm, (max_eq_right h.le).symm⟩
  next h => exact ⟨(min_eq_right (not_lt.1 h)).symm, (max_eq_left (not_lt.1 h)).symm⟩

theorem toInt_clampElem {t : Ty} (ht : t.isFloat = false) (a lo hi : Nat) :
    t.toInt (clampElem t a lo hi) = min (max (t.toInt a) (t.toInt lo)) (t.toInt hi) := by
  rw [clampElem, ht, Bool.false_and, if_neg Bool.false_ne_true, (toInt_minMax ht _ _).1, (toInt_minMax ht _ _).2]

/-- Settles O18: each command gives the integer of its table, made to fit. -/
theorem vectorIntegerArithmetic : Obligations.VectorIntegerArithmetic := by
  intro f s hf x fits
  have two (op : Arith) {i : CmdF → Instr} (h : exec (i f) s = .next (s.vec2 f fun a b => op.eval f a b 0)) :
      VecWrites i f s fun e => fits (op.int (x 1 e) (x 2 e) (f.typ.toInt 0)) :=
    vecWrites_of_gives (vec2_gives h) fun e _ => by rw [Arith.eval_int hf]; rfl
  have three (op : Arith) {i : CmdF → Instr} (h : exec (i f) s = .next (s.vec3 f (op.eval f))) :
      VecWrites i f s fun e => fits (op.int (x 1 e) (x 2 e) (x 3 e)) :=
    vecWrites_of_gives (vec3_gives h) fun e _ => by rw [Arith.eval_int hf]; rfl
  have picks {n : Nat} {v : Int} (h : f.typ.toInt n = v) : n % 2 ^ f.typ.width = ofInt f.typ.width v % 2 ^ f.typ.width := by
    rw [← h, ofInt_toInt, Nat.mod_mod]
  refine ⟨two .add rfl, two .sub rfl, two .mul rfl, ?mulh, three .fma rfl, three .fms rfl, three .fnma rfl, two .adiff rfl,
    ?abs, ?neg, ?min, ?max, ?clamp⟩
  case mulh => exact vecWrites_of_gives (vec2_gives (i := .vMulh) rfl) fun e _ => rfl
  case abs => exact vecWrites_of_gives (vec1_gives (i := .vAbs) rfl) fun e _ => by rw [absElem, hf]; rfl
  case neg => exact vecWrites_of_gives (vec1_gives (i := .vNeg) rfl) fun e _ => by rw [negElem, hf]; rfl
  case min => exact vecWrites_of_gives (vec2_gives (i := .vMin) rfl) fun e _ => picks (toInt_minMax hf _ _).1
  case max => exact vecWrites_of_gives (vec2_gives (i := .vMax) rfl) fun e _ => picks (toInt_minMax hf _ _).2
  case clamp => exact vecWrites_of_gives (vec3_gives (i := .vClamp) rfl) fun e _ => picks (toInt_clampElem hf _ _ _)

/-! ## Rounding to an integral value (R131) -/

section Sound
variable {g : Fmt}

/-- A significand has at most the format's bits. -/
theorem Fmt.significand_lt (hg : g.Sound) {b : Nat} {neg : Bool} {m : Nat} {e : Int} (h : g.decode b = .fin neg m e) :
    m < 2 ^ (g.mbits + 1) := by
  have hlt : b % g.signBit % 2 ^ g.mbits < 2 ^ g.mbits := Nat.mod_lt _ (by positivity)
  rw [Fmt.decode_eq hg] at h
  split at h
  · split at h <;> (injection h with _ h2 _; subst h2; rw [pow_succ]; omega)
  · split at h <;> cases h

/-- What a finite pattern with a sign stands for. -/
theorem Fmt.decode_signed (hg : g.Sound) {c : Nat} (hc : c ≤ g.maxFin) (neg : Bool) : g.signed neg c / g.signBit % 2 = (if neg then 1 else 0) ∧
    ∃ m e, g.decode (g.signed neg c) = .fin neg m e ∧ m * (2 : ℝ) ^ e = g.units c * (2 : ℝ) ^ g.qmin := by
  have hlt := lt_of_le_of_lt hc (Fmt.maxFin_lt hg)
  have hmod : g.signed neg c % g.signBit = c := by
    rw [Fmt.signed]; split
    · rw [Nat.add_mod_right, Nat.mod_eq_of_lt hlt]
    · exact Nat.mod_eq_of_lt hlt
  have hdiv : g.signed neg c / g.signBit % 2 = if neg then 1 else 0 := by
    rw [Fmt.signed]; split
    · rw [Nat.add_div_right _ g.signBit_pos, Nat.div_eq_of_lt hlt]
    · rw [Nat.div_eq_of_lt hlt]
  obtain ⟨m, e, hd, hv⟩ := Fmt.decode_finite hg (b := g.signed neg c) (by rw [hmod]; exact hc)
  refine ⟨hdiv, m, e, ?_, by rw [hv, hmod]⟩
  rw [hd, hdiv]
  cases neg <;> rfl

/-- A small integer is a number of the format. -/
theorem Fmt.round_integer (hg : g.Sound) (rm : Rm) (sat neg : Bool) {n : Nat} (hn : n ≤ 2 ^ g.mbits) :
    ∃ c, c ≤ g.maxFin ∧ (g.round rm sat neg n 0 false).1 = g.signed neg c ∧ (g.units c : ℝ) * (2 : ℝ) ^ g.qmin = n := by
  by_cases hz : n = 0
  · subst hz
    refine ⟨0, Nat.zero_le _, by simp [Fmt.round], ?_⟩
    have : g.units 0 = 0 := by simp [Fmt.units]
    rw [this]; simp
  have hx : StandsAt n 0 false (n : ℝ) := by simpa using standsAt_exact n 0
  have hlead : g.lead n 0 ≤ 0 := by
    have hlt := (bitLen_bounds hz).2.1
    have := (Nat.pow_le_pow_iff_right (a := 2) (by norm_num)).1 (hlt.trans hn)
    rw [Fmt.lead]; omega
  have hq : max (g.lead n 0) g.qmin ≤ 0 := max_le hlead hg.qmin_nonpos
  have hu : roundUnit rm neg n 0 (max (g.lead n 0) g.qmin) false = (n * 2 ^ (0 - max (g.lead n 0) g.qmin).toNat, false) := by
    rw [roundUnit, if_pos hq]
  obtain ⟨hrl, hrlo, hrhi⟩ := Fmt.rounds_lead (g := g) hx hz (fun h => absurd h Bool.false_ne_true) rm neg
  have hval : (g.units ((max (g.lead n 0) g.qmin - g.qmin).toNat * 2 ^ g.mbits + n * 2 ^ (0 - max (g.lead n 0) g.qmin).toNat) : ℝ) *
      2 ^ g.qmin = n := by
    have hfin : n * 2 ^ (0 - max (g.lead n 0) g.qmin).toNat ≤ 2 ^ (g.mbits + 1) ∧
        (max (g.lead n 0) g.qmin = g.qmin ∨ 2 ^ g.mbits ≤ n * 2 ^ (0 - max (g.lead n 0) g.qmin).toNat) := by
      rw [show n * 2 ^ (0 - max (g.lead n 0) g.qmin).toNat = (roundUnit rm neg n 0 (max (g.lead n 0) g.qmin) false).1 by rw [hu]]
      rcases le_or_gt g.qmin (g.lead n 0) with high | low
      · rw [max_eq_left high]; exact ⟨hrhi, .inr hrlo⟩
      · rw [max_eq_right low.le]
        have := (Fmt.rounds_subnormal hx hz (fun h => absurd h Bool.false_ne_true) low rm neg).1
        exact ⟨this.trans (Nat.pow_le_pow_right (by norm_num) (Nat.le_succ _)), .inl rfl⟩
    rw [g.units_real (le_max_right _ _) hfin.1 hfin.2]
    push_cast
    rw [mul_assoc, two_zpow_sub_toNat hq, zpow_zero, mul_one]
  have hfit : (max (g.lead n 0) g.qmin - g.qmin).toNat * 2 ^ g.mbits + n * 2 ^ (0 - max (g.lead n 0) g.qmin).toNat ≤ g.maxFin := by
    rw [← g.units_strictMono.le_iff_le, ← Nat.cast_le (α := ℝ), ← mul_le_mul_iff_left₀ (show (0 : ℝ) < 2 ^ g.qmin by positivity), hval]
    calc (n : ℝ) ≤ 2 ^ g.mbits := by exact_mod_cast hn
      _ = (2 ^ g.mbits * 2 ^ (-g.qmin).toNat : Nat) * (2 : ℝ) ^ g.qmin := by
        push_cast
        rw [mul_assoc, ← zero_sub, two_zpow_sub_toNat hg.qmin_nonpos, zpow_zero, mul_one]
      _ ≤ _ := mul_le_mul_of_nonneg_right (by exact_mod_cast hg.integers) (by positivity)
  refine ⟨_, hfit, ?_, hval⟩
  rw [g.round_eq rm sat neg (by simp [hz])]
  dsimp only
  rw [hu, if_neg (Nat.not_lt.2 hfit)]

end Sound

/-- `v.rint` of a number: the number rounded to an integer, of its own sign. -/
theorem rintElem_number {f : CmdF} {a : Nat} {neg : Bool} {m : Nat} {e : Int} (hd : f.typ.fmt.decode a = .fin neg m e) :
    ∃ n, Rounds f.rm neg (m * (2 : ℝ) ^ e) n ∧ (rintElem f a).1 / f.typ.fmt.signBit % 2 = (if neg then 1 else 0) ∧
      Exact.of (f.typ.fmt.decode (rintElem f a).1) = .num neg n ∧ (m * (2 : ℝ) ^ e = n → (rintElem f a).2 = 0) ∧
      (m * (2 : ℝ) ^ e ≠ n → (rintElem f a).2 = 1) := by
  have hg := f.typ.fmt_sound
  obtain ⟨hr, hexact⟩ := roundUnit_rounds f.rm neg (standsAt_exact m e) (q := 0) fun h => absurd h Bool.false_ne_true
  simp only [zpow_zero, mul_one, div_one] at hr hexact
  have hrint : rintElem f a = if (roundUnit f.rm neg m e 0 false).2 then
      ((f.typ.fmt.round f.rm f.sat neg (roundUnit f.rm neg m e 0 false).1 0 false).1, 1) else (a, 0) := by
    rw [rintElem]
    dsimp only
    rw [hd]
    rfl
  refine ⟨_, hr, ?_⟩
  generalize hR : roundUnit f.rm neg m e 0 false = R at *
  rw [hrint]
  cases hin : R.2 with
  | false =>
    obtain ⟨n, hn⟩ := hexact.1 hin
    rw [hn] at hr ⊢
    rw [rounds_nat hr, if_neg Bool.false_ne_true]
    obtain ⟨-, hneg, -⟩ := Fmt.finite_of_decode hg hd
    refine ⟨?_, by rw [hd, Exact.of, hn], fun _ => rfl, fun h => absurd rfl h⟩
    rw [hneg]
    rcases Nat.mod_two_eq_zero_or_one (a / f.typ.fmt.signBit) with h | h <;> simp [h]
  | true =>
    have hne : ¬ ∃ n : Nat, m * (2 : ℝ) ^ e = n := fun h => by rw [hexact.2 h] at hin; exact Bool.false_ne_true hin
    have he : e < 0 := by
      by_contra h
      rw [roundUnit, if_pos (not_lt.1 h)] at hR
      rw [← hR] at hin
      exact Bool.false_ne_true hin
    have hsmall : R.1 ≤ 2 ^ f.typ.fmt.mbits := by
      refine rounds_le_of_lt hr ?_
      have h1 : (m : ℝ) < 2 ^ (f.typ.fmt.mbits + 1) := by exact_mod_cast Fmt.significand_lt hg hd
      have h2 : (2 : ℝ) ^ e ≤ 2 ^ (-1 : Int) := zpow_le_zpow_right₀ (by norm_num) (by omega)
      have h3 : (0 : ℝ) < 2 ^ e := by positivity
      push_cast
      calc (m : ℝ) * 2 ^ e < 2 ^ (f.typ.fmt.mbits + 1) * 2 ^ e := mul_lt_mul_of_pos_right h1 h3
        _ ≤ 2 ^ (f.typ.fmt.mbits + 1) * 2 ^ (-1 : Int) := mul_le_mul_of_nonneg_left h2 (by positivity)
        _ = 2 ^ f.typ.fmt.mbits := by rw [pow_succ, zpow_neg_one]; ring
    obtain ⟨c, hc, hbits, hval⟩ := Fmt.round_integer hg f.rm f.sat neg hsmall
    obtain ⟨hsign, m', e', hdec, hv⟩ := Fmt.decode_signed hg hc neg
    rw [if_pos rfl, hbits]
    exact ⟨hsign, by rw [hdec, Exact.of, hv, hval], fun h => absurd ⟨_, h⟩ hne, fun _ => rfl⟩

end Sys2Proof.Machine

/-! PROOFS. Float vector arithmetic (O19; R46, R55, R64, R65, R129 to R131). -/

namespace Sys2Proof.Machine

/-! ## Float elements (R129 to R131) -/

theorem Arith.eval_float {f : CmdF} (hf : f.typ.isFloat = true) (op : Arith) (a b c : Nat) : op.eval f a b c =
    f.typ.fmt.result f.rm f.sat (op.float f.rm (f.typ.fmt.decode a) (f.typ.fmt.decode b) (f.typ.fmt.decode c)) := by
  rw [Arith.eval]
  simp only [hf, if_true, Ty.value_float hf]

/-- The exact value of an arithmetic command. -/
theorem exact_arith (op : Arith) (rm : Rm) (a b c : FVal) : exactResult (op.float rm a b c) = match op with
    | .add => (Exact.of a).add rm (Exact.of b)
    | .sub => (Exact.of a).add rm (Exact.of b).neg
    | .mul => (Exact.of a).mul (Exact.of b)
    | .fma => Exact.fma rm (Exact.of a) (Exact.of b) (Exact.of c)
    | .fms => Exact.fma rm (Exact.of a) (Exact.of b) (Exact.of c).neg
    | .fnma => Exact.fma rm (Exact.of a).neg (Exact.of b) (Exact.of c)
    | .adiff => ((Exact.of a).add rm (Exact.of b).neg).map Exact.abs := by
  cases op with
  | add => exact exact_add ..
  | sub => rw [Arith.float, exact_add, exact_neg]
  | mul => exact exact_mul ..
  | fma => exact exact_fma ..
  | fms => rw [Arith.float, exact_fma, exact_neg]
  | fnma => rw [Arith.float, exact_fma, exact_neg]
  | adiff =>
    dsimp only
    rw [← exact_neg, ← exact_add, Arith.float, exactResult, exactResult]
    cases (FVal.add rm a b.neg).2 with
    | true => rfl
    | false => exact congrArg some (exact_abs _)

/-- A float command that computes an exact value rounds it once. -/
theorem arith_gives {f : CmdF} (hf : f.typ.isFloat = true) (op : Arith) (a b c : Nat) :
    Gives f.typ.fmt f.rm f.sat (exactResult (op.float f.rm (f.typ.fmt.decode a) (f.typ.fmt.decode b) (f.typ.fmt.decode c)))
      (op.eval f a b c) := by
  rw [Arith.eval_float hf]
  exact Fmt.result_gives f.typ.fmt_sound ..

/-- Only the sign changes; a NaN becomes canonical. -/
theorem signElem_eq (g : Fmt) (a : Nat) (neg : Bool) :
    signElem g a neg = if g.isNan a then g.nan else a % g.signBit + (if neg then g.signBit else 0) := by
  rw [signElem, Fmt.signed]
  cases neg <;> rfl

theorem signElem_flip (g : Fmt) {a : Nat} (ha : a < 2 ^ g.width) : signElem g a (!signOf g a) =
    if g.isNan a then g.nan else (a + g.signBit) % (2 * g.signBit) := by
  rw [g.width_eq] at ha
  rw [signElem_eq, signOf]
  congr 1
  have hdm := Nat.div_add_mod a g.signBit
  have hlt := Nat.mod_lt a g.signBit_pos
  have h2 : a / g.signBit < 2 := Nat.div_lt_of_lt_mul (by rwa [Nat.mul_comm])
  generalize a / g.signBit = top at *
  obtain rfl | rfl : top = 0 ∨ top = 1 := by omega
  · rw [Nat.mod_eq_of_lt (a := a + g.signBit) (by omega)]; simp; omega
  · rw [show a + g.signBit = a % g.signBit + 2 * g.signBit by omega, Nat.add_mod_right, Nat.mod_eq_of_lt (a := a % g.signBit) (by omega)]; simp

theorem signElem_copy (g : Fmt) (a b : Nat) : signElem g a (signOf g b) =
    if g.isNan a then g.nan else a % g.signBit + b / g.signBit % 2 * g.signBit := by
  rw [signElem_eq, signOf]
  congr 1
  rcases Nat.mod_two_eq_zero_or_one (b / g.signBit) with h | h <;> simp [h]

/-! ## Immediate operands (R64, R65, R123) -/

section Operand
variable {f : CmdF} {s : State} {i : Nat}

theorem exact_integer (v : Int) : Exact.of (.fin (decide (v < 0)) v.natAbs 0) = Exact.real false v := by
  by_cases h : v = 0
  · subst h; simp [Exact.of, Exact.real]
  · simpa using exact_of_signed false h 0

theorem opnd_register (h : f.kind i = 1) (e : Nat) :
    (s.src f f.typ i).status = 0 ∧ opnd s f i e = vget f.typ.width (s.vreg (f.v i)) e := by
  rw [opnd, State.src, if_pos h]; exact ⟨rfl, rfl⟩

/-- An immediate is a pattern of the element's width, with the status of its conversion. -/
theorem opnd_const {c : Nat × BitVec 4} (h : s.src f f.typ i = .const c.1 c.2) (hc : c.1 < 2 ^ f.typ.width) (e : Nat) :
    (opnd s f i e, (s.src f f.typ i).status) = c := by
  rw [opnd, h, Src.get, Src.status, Nat.mod_eq_of_lt hc]

theorem opnd_kind8 (hf : f.typ.isFloat = true) (h : f.kind i = 8) (e : Nat) :
    Gives f.typ.fmt f.rm f.sat (some (Exact.real false (f.imm18 i))) (opnd s f i e, (s.src f f.typ i).status) := by
  have hint : f.typ.isInt = false := by rw [Ty.isInt, hf]; rfl
  have hval : kind8Value f.typ f.rm f.sat (f.imm18 i) =
      f.typ.fmt.encode f.rm f.sat (.fin (decide (f.imm18 i < 0)) (f.imm18 i).natAbs 0) := by
    rw [kind8Value, hint]; rfl
  have hsrc : s.src f f.typ i = .const (kind8Value f.typ f.rm f.sat (f.imm18 i)).1 (kind8Value f.typ f.rm f.sat (f.imm18 i)).2 := by
    rw [State.src, if_neg (by omega), if_pos h]
  rw [opnd_const hsrc (by rw [hval, Ty.width_fmt hf]; exact Fmt.encode_lt f.typ.fmt_sound ..), hval, ← exact_integer]
  exact Fmt.encode_gives f.typ.fmt_sound ..

theorem opnd_imm (hf : f.typ.isFloat = true) (h : f.kind i = 0) (e : Nat) :
    Gives f.typ.fmt .rne f.sat (some (Exact.of (Fmt.fp32.decode f.imm.toNat))) (opnd s f i e, (s.src f f.typ i).status) := by
  have hpb : f.typ.isPb = false := by revert hf; cases f.typ <;> decide
  have hval : immValue f.typ f.sat f.imm = f.typ.fmt.encode .rne f.sat (Fmt.fp32.decode f.imm.toNat) := by
    rw [immValue, hpb, hf]; rfl
  have hsrc : s.src f f.typ i = .const (immValue f.typ f.sat f.imm).1 (immValue f.typ f.sat f.imm).2 := by
    rw [State.src, if_neg (by omega), if_neg (by omega)]
  rw [opnd_const hsrc (by rw [hval, Ty.width_fmt hf]; exact Fmt.encode_lt f.typ.fmt_sound ..), hval]
  exact Fmt.encode_gives f.typ.fmt_sound ..

end Operand

/-! ## The obligation -/

theorem floatArithmeticRoundsOnce : Claims.VectorFloatArithmetic := by
  intro f s hf g b x nan once
  have hg : g.Sound := f.typ.fmt_sound
  have hb (i e : Nat) : b i e < 2 ^ g.width := by rw [← Ty.width_fmt hf]; exact opnd_lt ..
  have two (op : Arith) {i : CmdF → Instr} (h : exec (i f) s = .next (s.vec2 f fun a b => op.eval f a b 0)) :
      once i [1, 2] fun e => exactResult (op.float f.rm (g.decode (b 1 e)) (g.decode (b 2 e)) (g.decode 0)) :=
    ⟨_, vec2_gives h, fun e => arith_gives hf ..⟩
  have three (op : Arith) {i : CmdF → Instr} (h : exec (i f) s = .next (s.vec3 f (op.eval f))) :
      once i [1, 2, 3] fun e => exactResult (op.float f.rm (g.decode (b 1 e)) (g.decode (b 2 e)) (g.decode (b 3 e))) :=
    ⟨_, vec3_gives h, fun e => arith_gives hf ..⟩
  simp only [exact_arith] at two three
  refine ⟨two .add rfl, two .sub rfl, two .mul rfl, three .fma rfl, three .fms rfl, three .fnma rfl, two .adiff rfl,
    ?min, ?max, ?clamp, ?abs, ?neg, ?sgnj, ?rint, fun i e => ⟨fun h => opnd_register h e, fun h => opnd_kind8 hf h e,
      fun h => opnd_imm hf h e⟩⟩
  case min =>
    refine vecGives_congr (vec2_gives (i := .vMin) rfl) (funext fun e => ?_)
    rw [(minMax_float hf (hb 1 e) (hb 2 e)).1]
  case max =>
    refine vecGives_congr (vec2_gives (i := .vMax) rfl) (funext fun e => ?_)
    rw [(minMax_float hf (hb 1 e) (hb 2 e)).2]
  case clamp =>
    refine vecGives_congr (vec3_gives (i := .vClamp) rfl) (funext fun e => ?_)
    rw [clampElem, hf, Bool.true_and, (minMax_float hf (hb 1 e) (hb 2 e)).2,
      (minMax_float hf (larger_lt hg (hb 1 e) (hb 2 e)) (hb 3 e)).1]
  case abs =>
    refine vecGives_congr (vec1_gives (i := .vAbs) rfl) (funext fun e => ?_)
    rw [absElem, hf, if_pos rfl, signElem_eq]; rfl
  case neg =>
    refine vecGives_congr (vec1_gives (i := .vNeg) rfl) (funext fun e => ?_)
    rw [negElem, hf, if_pos rfl, signElem_flip _ (hb 1 e)]
  case sgnj =>
    refine vecGives_congr (vec2_gives (i := .vSgnj) rfl) (funext fun e => ?_)
    rw [signElem_copy]
  case rint =>
    refine ⟨_, vec1_gives (i := .vRint) rfl, fun e => ?_⟩
    show (Exact.of (g.decode (b 1 e)) = .nan → rintElem f (b 1 e) = (g.nan, 0)) ∧
      (∀ neg, Exact.of (g.decode (b 1 e)) = .inf neg → rintElem f (b 1 e) = (b 1 e, 0)) ∧
      ∀ neg y, Exact.of (g.decode (b 1 e)) = .num neg y → _
    cases hd : g.decode (b 1 e) with
    | nan => exact ⟨fun _ => by rw [rintElem]; dsimp only; rw [hd], fun _ h => (by cases h), fun _ _ h => by cases h⟩
    | inf neg => exact ⟨fun h => (by cases h), fun _ _ => by rw [rintElem]; dsimp only; rw [hd], fun _ _ h => by cases h⟩
    | fin neg m k =>
      refine ⟨fun h => (by cases h), fun _ h => (by cases h), fun _ _ h => ?_⟩
      cases h
      exact rintElem_number hd

theorem representableValuesRoundToThemselves : Claims.RepresentableValuesRoundToThemselves :=
  fun _ rm sat _ hg hb hn hi => Fmt.encode_decode (Fmt.sound_of_mem hg) rm sat hb hn hi

/-- Settles O19: the exact value by the operations on exact values, its rounding by `Fmt.round_gives`. -/
theorem vectorFloatArithmetic : Obligations.VectorFloatArithmetic :=
  ⟨floatArithmeticRoundsOnce, representableValuesRoundToThemselves⟩

end Sys2Proof.Machine

/-! PROOFS. Reciprocals and reciprocal square roots (O20; R132). -/

namespace Sys2Proof.Machine

theorem lt_bitLen {m n : Nat} (h : 2 ^ n ≤ m) : n < bitLen m := by
  have hm : m ≠ 0 := by have : 0 < 2 ^ n := by positivity
                        omega
  exact (Nat.pow_lt_pow_iff_right (a := 2) (by norm_num)).1 (lt_of_le_of_lt h (bitLen_bounds hm).2.2)

/-! ## Reciprocals -/

/-- The reciprocal of an integer in units of 2^−k, by its integer part. -/
theorem reciprocal_stands {m : Nat} (hm : m ≠ 0) (e : Int) (k : Nat) :
    StandsAt (2 ^ k / m) (-(k : Int) - e) (decide (2 ^ k % m ≠ 0)) (1 / (m * (2 : ℝ) ^ e)) := by
  have hpos : (0 : ℝ) < m := by exact_mod_cast Nat.pos_of_ne_zero hm
  have hdm : (m : ℝ) * (2 ^ k / m : Nat) + (2 ^ k % m : Nat) = 2 ^ k := by exact_mod_cast Nat.div_add_mod (2 ^ k) m
  have hlt : ((2 ^ k % m : Nat) : ℝ) < m := by exact_mod_cast Nat.mod_lt _ (Nat.pos_of_ne_zero hm)
  refine ⟨(2 ^ k % m : Nat) / m, ?_, by positivity, (div_lt_one hpos).2 hlt, ?_⟩
  · have hq : ((2 ^ k / m : Nat) : ℝ) + (2 ^ k % m : Nat) / m = 2 ^ k / m := by
      rw [← hdm]; field_simp
    rw [hq, zpow_sub₀ (by norm_num), zpow_neg, zpow_natCast]
    field_simp
  · rw [decide_eq_true_eq, not_iff_not, div_eq_zero_iff, or_iff_left hpos.ne', Nat.cast_eq_zero]

theorem rcpExact_stands {m : Nat} (hm : m ≠ 0) (e : Int) :
    StandsAt (rcpExact m e).1 (rcpExact m e).2.1 (rcpExact m e).2.2 (1 / (m * (2 : ℝ) ^ e)) := by
  have h := reciprocal_stands hm e (bitLen m + 40)
  simp only [rcpExact]
  exact h

theorem rcpExact_long {m : Nat} (hm : m ≠ 0) (e : Int) : 40 < bitLen (rcpExact m e).1 := by
  refine lt_bitLen ((Nat.le_div_iff_mul_le (Nat.pos_of_ne_zero hm)).2 ?_)
  rw [pow_add, Nat.mul_comm]
  exact Nat.mul_le_mul_right _ (bitLen_bounds hm).2.2.le

/-! ## Square roots -/

theorem isqrtGo_spec (n : Nat) : ∀ k r, r * r ≤ n → n < (r + 2 ^ k) * (r + 2 ^ k) →
    isqrtGo k n r * isqrtGo k n r ≤ n ∧ n < (isqrtGo k n r + 1) * (isqrtGo k n r + 1) := by
  intro k
  induction k with
  | zero => exact fun r lo hi => ⟨lo, hi⟩
  | succ k ih =>
    intro r lo hi
    rw [isqrtGo]
    split
    next h => exact ih _ h (by rwa [Nat.add_assoc, ← Nat.two_mul, ← pow_succ'])
    next h => exact ih _ lo (Nat.lt_of_not_le h)

/-- `isqrt` is the integer part of the square root. -/
theorem isqrt_spec (n : Nat) : isqrt n * isqrt n ≤ n ∧ n < (isqrt n + 1) * (isqrt n + 1) := by
  refine isqrtGo_spec n _ 0 (Nat.zero_le _) ?_
  rcases Nat.eq_zero_or_pos n with rfl | h
  · simp
  · refine lt_of_lt_of_le (bitLen_bounds h.ne').2.2 ?_
    rw [Nat.zero_add, ← pow_add]
    exact Nat.pow_le_pow_right (by norm_num) (by omega)

/-- The reciprocal square root of an integer, as its integer part in units of 2^−k. -/
theorem isqrt_reciprocal {m : Nat} (hm : m ≠ 0) (k : Nat) : (isqrt (2 ^ (2 * k) / m) : ℝ) ≤ 2 ^ k / √m ∧
    2 ^ k / √m < isqrt (2 ^ (2 * k) / m) + 1 ∧
    (2 ^ k / √m = isqrt (2 ^ (2 * k) / m) ↔ isqrt (2 ^ (2 * k) / m) * isqrt (2 ^ (2 * k) / m) * m = 2 ^ (2 * k)) := by
  have hpos : (0 : ℝ) < m := by exact_mod_cast Nat.pos_of_ne_zero hm
  have hsq : √(m : ℝ) * √m = m := Real.mul_self_sqrt hpos.le
  have hs : 0 < √(m : ℝ) := Real.sqrt_pos.2 hpos
  obtain ⟨lo, hi⟩ := isqrt_spec (2 ^ (2 * k) / m)
  generalize isqrt (2 ^ (2 * k) / m) = q at *
  have hp : (2 : ℝ) ^ (2 * k) = 2 ^ k * 2 ^ k := by rw [two_mul, pow_add]
  have lo' : (q * √m : ℝ) * (q * √m) ≤ 2 ^ k * 2 ^ k := by
    rw [← hp, mul_mul_mul_comm, hsq]
    exact_mod_cast (Nat.le_div_iff_mul_le (Nat.pos_of_ne_zero hm)).1 lo
  have hi' : (2 : ℝ) ^ k * 2 ^ k < ((q + 1) * √m) * ((q + 1) * √m) := by
    rw [← hp, mul_mul_mul_comm, hsq]
    exact_mod_cast (Nat.div_lt_iff_lt_mul (Nat.pos_of_ne_zero hm)).1 hi
  refine ⟨?_, ?_, ?_⟩
  · rw [le_div_iff₀ hs]
    exact (mul_self_le_mul_self_iff (by positivity) (by positivity)).2 lo'
  · rw [div_lt_iff₀ hs]
    exact (mul_self_lt_mul_self_iff (by positivity) (by positivity)).2 hi'
  · rw [div_eq_iff hs.ne', ← mul_self_inj (by positivity) (by positivity), ← hp, mul_mul_mul_comm, hsq, eq_comm]
    exact_mod_cast Iff.rfl

theorem rsqrtExact_stands {m : Nat} (hm : m ≠ 0) (e : Int) :
    StandsAt (rsqrtExact m e).1 (rsqrtExact m e).2.1 (rsqrtExact m e).2.2 (1 / √(m * (2 : ℝ) ^ e)) := by
  obtain ⟨m2, h, hm2, hval, hr⟩ : ∃ (m2 : Nat) (h : Int), m2 ≠ 0 ∧ (m : ℝ) * 2 ^ e = m2 * (2 ^ h * 2 ^ h) ∧
      rsqrtExact m e = (isqrt (2 ^ (2 * (bitLen m2 + 40)) / m2), -((bitLen m2 + 40 : Nat) : Int) - h,
        decide (isqrt (2 ^ (2 * (bitLen m2 + 40)) / m2) * isqrt (2 ^ (2 * (bitLen m2 + 40)) / m2) * m2 ≠ 2 ^ (2 * (bitLen m2 + 40)))) := by
    by_cases he : e % 2 = 0
    · refine ⟨m, e / 2, hm, ?_, by simp [rsqrtExact, he]⟩
      rw [← zpow_add₀ (by norm_num)]
      congr 2; omega
    · refine ⟨2 * m, (e - 1) / 2, by omega, ?_, by simp [rsqrtExact, he]⟩
      rw [← zpow_add₀ (by norm_num), show (e - 1) / 2 + (e - 1) / 2 = e - 1 by omega, zpow_sub_one₀ (by norm_num)]
      push_cast
      ring
  obtain ⟨lo, hi, hex⟩ := isqrt_reciprocal hm2 (bitLen m2 + 40)
  have hs : √((m2 : ℝ) * (2 ^ h * 2 ^ h)) = √m2 * 2 ^ h := by
    rw [Real.sqrt_mul (Nat.cast_nonneg _), Real.sqrt_mul_self (by positivity)]
  rw [hr, hval, hs]
  refine ⟨2 ^ (bitLen m2 + 40) / √m2 - isqrt (2 ^ (2 * (bitLen m2 + 40)) / m2), ?_, by linarith, by linarith, ?_⟩
  · have : √(m2 : ℝ) ≠ 0 := (Real.sqrt_pos.2 (by exact_mod_cast Nat.pos_of_ne_zero hm2)).ne'
    dsimp only
    rw [add_sub_cancel, zpow_sub₀ (by norm_num), zpow_neg, zpow_natCast]
    field_simp
  · dsimp only
    rw [decide_eq_true_eq, not_iff_not, sub_eq_zero, hex]

theorem rsqrtExact_long {m : Nat} (hm : m ≠ 0) (e : Int) : 40 < bitLen (rsqrtExact m e).1 := by
  have long {m2 : Nat} (hm2 : m2 ≠ 0) : 40 < bitLen (isqrt (2 ^ (2 * (bitLen m2 + 40)) / m2)) := by
    refine lt_bitLen ?_
    by_contra h
    have hlt := (isqrt_spec (2 ^ (2 * (bitLen m2 + 40)) / m2)).2
    have h1 : isqrt (2 ^ (2 * (bitLen m2 + 40)) / m2) + 1 ≤ 2 ^ 40 := by omega
    have h2 : 2 ^ 40 * 2 ^ 40 ≤ 2 ^ (2 * (bitLen m2 + 40)) / m2 := by
      rw [Nat.le_div_iff_mul_le (Nat.pos_of_ne_zero hm2)]
      calc 2 ^ 40 * 2 ^ 40 * m2 ≤ 2 ^ 40 * 2 ^ 40 * 2 ^ bitLen m2 := Nat.mul_le_mul_left _ (bitLen_bounds hm2).2.2.le
        _ = 2 ^ (bitLen m2 + 80) := by rw [pow_add]; ring
        _ ≤ 2 ^ (2 * (bitLen m2 + 40)) := Nat.pow_le_pow_right (by norm_num) (by omega)
    have h3 := Nat.mul_le_mul h1 h1
    omega
  show 40 < bitLen (isqrt (2 ^ (2 * (bitLen (if e % 2 = 0 then m else 2 * m) + 40)) / if e % 2 = 0 then m else 2 * m))
  exact long (by split <;> omega)

end Sys2Proof.Machine

/-! PROOFS. Logarithms (O20; R132, log entry 8): `log2Go` gives the fraction bits of a logarithm, up to a bound far below its last bit. -/

namespace Sys2Proof.Machine

/-- Where a real number is truncated to an integer above 2^319, its logarithm falls by less than 2^−318. -/
theorem logb_truncated {b : Nat} (hb : 2 ^ 319 ≤ b) {x : ℝ} (lo : (b : ℝ) ≤ x) (hi : x < b + 1) :
    Real.logb 2 b ≤ Real.logb 2 x ∧ Real.logb 2 x < Real.logb 2 b + 1 / 2 ^ 318 := by
  have hb' : (2 : ℝ) ^ 319 ≤ b := by exact_mod_cast hb
  have hp : (0 : ℝ) < 2 ^ 319 := by positivity
  have hpos : (0 : ℝ) < b := hp.trans_le hb'
  have hxpos : 0 < x := hpos.trans_le lo
  refine ⟨Real.logb_le_logb_of_le (by norm_num) hpos lo, ?_⟩
  have hlog2 : (1 / 2 : ℝ) < Real.log 2 := by linarith [Real.log_two_gt_d9]
  have hu : x / b - 1 < 1 / b := by rw [div_sub_one hpos.ne']; exact div_lt_div_of_pos_right (by linarith) hpos
  have hb1 : (1 : ℝ) / b ≤ 1 / 2 ^ 319 := one_div_le_one_div_of_le hp hb'
  rw [← sub_lt_iff_lt_add', ← Real.logb_div hxpos.ne' hpos.ne', Real.logb, div_lt_iff₀ (by linarith)]
  calc Real.log (x / b) ≤ x / b - 1 := Real.log_le_sub_one_of_pos (div_pos hxpos hpos)
    _ < 1 / 2 ^ 319 := hu.trans_le hb1
    _ = 1 / 2 ^ 318 * (1 / 2) := by rw [pow_succ (2 : ℝ) 318]; field_simp
    _ < 1 / 2 ^ 318 * Real.log 2 := mul_lt_mul_of_pos_left hlog2 (by positivity)

/-- One squaring gives one bit of the logarithm, and leaves the logarithm of a number of the same range. -/
theorem log2Go_square {a : Nat} (lo : 2 ^ 319 ≤ a) (hi : a < 2 ^ 320) : ∃ b bit : Nat, bit ≤ 1 ∧ 2 ^ 319 ≤ b ∧ b < 2 ^ 320 ∧
    (∀ k acc, log2Go (k + 1) a acc = log2Go k b (2 * acc + bit)) ∧
    bit + (Real.logb 2 b - 319) ≤ 2 * (Real.logb 2 a - 319) ∧
    2 * (Real.logb 2 a - 319) < bit + (Real.logb 2 b - 319) + 1 / 2 ^ 318 := by
  have hpn : 0 < 2 ^ 319 := by positivity
  have hpr : (0 : ℝ) < 2 ^ 319 := by positivity
  have hapos : (0 : ℝ) < a := by exact_mod_cast hpn.trans_le lo
  have hsq : Real.logb 2 ((a : ℝ) * a / 2 ^ 319) = 2 * Real.logb 2 a - 319 := by
    rw [Real.logb_div (by positivity) hpr.ne', Real.logb_mul hapos.ne' hapos.ne', Real.logb_pow, Real.logb_self_eq_one (by norm_num)]
    push_cast
    ring
  have h1 : ((a * a / 2 ^ 319 : Nat) : ℝ) ≤ (a : ℝ) * a / 2 ^ 319 := by
    rw [le_div_iff₀ hpr]; exact_mod_cast Nat.div_mul_le_self ..
  have h2 : (a : ℝ) * a / 2 ^ 319 < (a * a / 2 ^ 319 : Nat) + 1 := by
    rw [div_lt_iff₀ hpr, mul_comm (_ + 1)]; exact_mod_cast Nat.lt_mul_div_succ (a * a) hpn
  have hge : 2 ^ 319 ≤ a * a / 2 ^ 319 := by
    rw [Nat.le_div_iff_mul_le hpn]; exact Nat.mul_le_mul lo lo
  have hlt : a * a / 2 ^ 319 < 2 * 2 ^ 320 := by
    rw [Nat.div_lt_iff_lt_mul hpn]
    calc a * a < 2 ^ 320 * 2 ^ 320 := Nat.mul_lt_mul'' hi hi
      _ = 2 * 2 ^ 320 * 2 ^ 319 := by rw [pow_succ 2 319]; ring
  have hstep (k acc : Nat) : log2Go (k + 1) a acc = if 2 ^ 320 ≤ a * a / 2 ^ 319 then log2Go k (a * a / 2 ^ 319 / 2) (2 * acc + 1)
      else log2Go k (a * a / 2 ^ 319) (2 * acc) := rfl
  generalize a * a / 2 ^ 319 = sq at *
  by_cases hbig : 2 ^ 320 ≤ sq
  · have h319 : 2 ^ 319 ≤ sq / 2 := by rw [Nat.le_div_iff_mul_le two_pos, ← pow_succ]; exact hbig
    have hdm : ((2 * (sq / 2) + sq % 2 : Nat) : ℝ) = sq := by exact_mod_cast Nat.div_add_mod sq 2
    have hm : ((sq % 2 : Nat) : ℝ) ≤ 1 := by exact_mod_cast Nat.lt_succ_iff.1 (Nat.mod_lt sq two_pos)
    have hm0 : (0 : ℝ) ≤ (sq % 2 : Nat) := Nat.cast_nonneg _
    push_cast at hdm
    obtain ⟨g1, g2⟩ := logb_truncated h319 (x := (a : ℝ) * a / 2 ^ 319 / 2) (by linarith) (by linarith)
    rw [Real.logb_div (by positivity) (by norm_num), hsq, Real.logb_self_eq_one (by norm_num)] at g1 g2
    refine ⟨sq / 2, 1, le_rfl, h319, by rwa [Nat.div_lt_iff_lt_mul two_pos, Nat.mul_comm], fun k acc => by rw [hstep, if_pos hbig], ?_, ?_⟩
    · push_cast; linarith
    · push_cast; linarith
  · obtain ⟨g1, g2⟩ := logb_truncated hge h1 h2
    rw [hsq] at g1 g2
    refine ⟨sq, 0, Nat.zero_le 1, hge, Nat.not_le.1 hbig, fun k acc => by rw [hstep, if_neg hbig]; rfl, ?_, ?_⟩
    · push_cast; linarith
    · push_cast; linarith

/-- The fraction bits of a logarithm: `k` bits, truncated, with an error of less than 2^−318 a bit. -/
theorem log2Go_spec : ∀ (k a acc : Nat), 2 ^ 319 ≤ a → a < 2 ^ 320 → ∃ F, log2Go k a acc = acc * 2 ^ k + F ∧ F < 2 ^ k ∧
    (F : ℝ) ≤ 2 ^ k * (Real.logb 2 a - 319) ∧ 2 ^ k * (Real.logb 2 a - 319) < F + 1 + (2 ^ k - 1) * (1 / 2 ^ 318) := by
  intro k
  induction k with
  | zero =>
    intro a acc lo hi
    have hp : (0 : ℝ) < 2 ^ 319 := by positivity
    have lo' : (2 : ℝ) ^ 319 ≤ a := by exact_mod_cast lo
    have hi' : (a : ℝ) < 2 ^ 320 := by exact_mod_cast hi
    have h1 := Real.logb_le_logb_of_le (b := 2) (by norm_num) hp lo'
    have h2 := Real.logb_lt_logb (b := 2) (by norm_num) (hp.trans_le lo') hi'
    rw [Real.logb_pow, Real.logb_self_eq_one (by norm_num)] at h1 h2
    push_cast at h1 h2
    refine ⟨0, by rw [log2Go]; ring, by norm_num, ?_, ?_⟩
    · push_cast; linarith
    · push_cast; linarith
  | succ k ih =>
    intro a acc lo hi
    obtain ⟨b, bit, hbit, blo, bhi, hgo, g1, g2⟩ := log2Go_square lo hi
    obtain ⟨F, hF, hlt, f1, f2⟩ := ih b (2 * acc + bit) blo bhi
    have hk : (0 : ℝ) < 2 ^ k := by positivity
    have m1 := mul_le_mul_of_nonneg_left g1 hk.le
    have m2 := mul_lt_mul_of_pos_left g2 hk
    generalize (1 : ℝ) / 2 ^ 318 = ε at *
    refine ⟨bit * 2 ^ k + F, by rw [hgo, hF]; ring, ?_, ?_, ?_⟩
    · have := Nat.mul_le_mul_right (2 ^ k) hbit
      rw [pow_succ]; omega
    · push_cast; rw [pow_succ]; linarith
    · push_cast; rw [pow_succ]; linarith

/-- The logarithm of a number between powers of 2 stays away from them. -/
theorem logb_margin {m n : Nat} (lo : 2 ^ n < m) (hi : m < 2 ^ (n + 1)) (hn : n ≤ 23) :
    1 / 2 ^ 24 ≤ Real.logb 2 m - n ∧ Real.logb 2 m - n ≤ 1 - 1 / 2 ^ 24 := by
  have hp : (0 : ℝ) < 2 ^ n := by positivity
  have lo' : (2 : ℝ) ^ n + 1 ≤ m := by exact_mod_cast lo
  have hi' : (m : ℝ) + 1 ≤ 2 * 2 ^ n := by rw [pow_succ'] at hi; exact_mod_cast hi
  have hm : (0 : ℝ) < m := by linarith
  have h23 : (2 : ℝ) ^ n ≤ 2 ^ 23 := pow_le_pow_right₀ (by norm_num) hn
  have hlog2 : 0 < Real.log 2 := Real.log_pos (by norm_num)
  have hlog1 : Real.log 2 < 1 := by linarith [Real.log_two_lt_d9]
  -- log2 r ≥ log r ≥ 1 − 1/r for r ≥ 1
  have bound {r : ℝ} (hr : 1 ≤ r) : 1 - r⁻¹ ≤ Real.logb 2 r := by
    refine (Real.one_sub_inv_le_log_of_pos (by linarith)).trans ?_
    rw [Real.logb, le_div_iff₀ hlog2]
    exact mul_le_of_le_one_right (Real.log_nonneg hr) hlog1.le
  have hlogn : Real.logb 2 (2 ^ n) = n := by rw [Real.logb_pow, Real.logb_self_eq_one (by norm_num), mul_one]
  constructor
  · have h := bound (r := m / 2 ^ n) (by rw [one_le_div hp]; linarith)
    rw [Real.logb_div hm.ne' hp.ne', hlogn, inv_div] at h
    have : 2 ^ n / (m : ℝ) ≤ 1 - 1 / 2 ^ 24 := by
      rw [div_le_iff₀ hm]
      linarith
    linarith
  · have h := bound (r := 2 * 2 ^ n / m) (by rw [one_le_div hm]; linarith)
    rw [Real.logb_div (by positivity) hm.ne', Real.logb_mul (by norm_num) hp.ne', Real.logb_self_eq_one (by norm_num), hlogn, inv_div] at h
    have : (m : ℝ) / (2 * 2 ^ n) ≤ 1 - 1 / 2 ^ 24 := by
      rw [div_le_iff₀ (by positivity)]
      linarith
    linarith

/-- The fraction bits that `log2Exact` takes. -/
theorem log2Go_fraction {m n : Nat} (lo : 2 ^ n < m) (hi : m < 2 ^ (n + 1)) (hn : n ≤ 23) :
    2 ^ 130 ≤ log2Go 160 (m * 2 ^ (319 - n)) 0 ∧ log2Go 160 (m * 2 ^ (319 - n)) 0 + 2 ^ 130 ≤ 2 ^ 160 ∧
    |(log2Go 160 (m * 2 ^ (319 - n)) 0 + 1 / 2) / 2 ^ 160 - (Real.logb 2 m - n)| < 1 / 2 ^ 150 := by
  have hpow : 2 ^ n * 2 ^ (319 - n) = 2 ^ 319 := by rw [← pow_add]; congr 1; omega
  have hpow' : 2 ^ (n + 1) * 2 ^ (319 - n) = 2 ^ 320 := by rw [← pow_add]; congr 1; omega
  have hq : 0 < 2 ^ (319 - n) := by positivity
  obtain ⟨F, hF, -, f1, f2⟩ := log2Go_spec 160 (m * 2 ^ (319 - n)) 0 (by rw [← hpow]; exact Nat.mul_le_mul_right _ lo.le)
    (by rw [← hpow']; exact Nat.mul_lt_mul_of_pos_right hi hq)
  obtain ⟨g1, g2⟩ := logb_margin lo hi hn
  have hm : (m : ℝ) ≠ 0 := by exact_mod_cast (by omega : m ≠ 0)
  have hL : Real.logb 2 ((m * 2 ^ (319 - n) : Nat) : ℝ) - 319 = Real.logb 2 m - n := by
    push_cast
    rw [Real.logb_mul hm (by positivity), Real.logb_pow, Real.logb_self_eq_one (by norm_num), Nat.cast_sub (by omega)]
    push_cast
    ring
  rw [hL] at f1 f2
  rw [hF, Nat.zero_mul, Nat.zero_add]
  generalize Real.logb 2 m - n = L at *
  have herr : ((2 : ℝ) ^ 160 - 1) * (1 / 2 ^ 318) ≤ 1 := by
    rw [show (2 : ℝ) ^ 318 = 2 ^ 160 * 2 ^ 158 by rw [← pow_add], mul_one_div, div_le_one (by positivity)]
    nlinarith [one_le_pow₀ (show (1 : ℝ) ≤ 2 by norm_num) (n := 158), one_le_pow₀ (show (1 : ℝ) ≤ 2 by norm_num) (n := 160)]
  refine ⟨?_, ?_, ?_⟩
  · have : ((2 ^ 130 : Nat) : ℝ) ≤ F := by push_cast; linarith
    exact_mod_cast this
  · have : ((F + 2 ^ 130 : Nat) : ℝ) ≤ (2 ^ 160 : Nat) := by push_cast; linarith
    exact_mod_cast this
  · rw [abs_lt]
    constructor
    · rw [lt_sub_iff_add_lt, lt_div_iff₀ (by positivity)]; linarith
    · rw [sub_lt_iff_lt_add, div_lt_iff₀ (by positivity)]; linarith

/-! ## The functions of R132 -/

section Sound
variable {g : Fmt}

theorem Fmt.rcp_gives (hg : g.Sound) (rm : Rm) (sat : Bool) (v : FVal) : Gives g rm sat (Exact.of v).rcp (g.fn .rcp rm sat v) := by
  cases v with
  | nan => rfl
  | inf neg => simpa [Exact.of, Exact.rcp, Fmt.fn] using Fmt.encode_gives hg rm sat (.fin neg 0 0)
  | fin neg m e =>
    rw [Exact.of, Exact.rcp, Fmt.fn]
    simp only [zpow_mul_eq_zero]
    split
    next => exact Fmt.encode_gives hg rm sat (.inf neg)
    next hm =>
      refine Fmt.round_gives hg rm sat neg (rcpExact_stands hm e) fun _ => ?_
      have := rcpExact_long hm e
      have := hg.mbits_le
      omega

theorem Fmt.rsqrt_gives (hg : g.Sound) (rm : Rm) (sat : Bool) (v : FVal) : Gives g rm sat (Exact.of v).rsqrt (g.fn .rsqrt rm sat v) := by
  cases v with
  | nan => rfl
  | inf neg =>
    cases neg with
    | true => rfl
    | false => simpa [Exact.of, Exact.rsqrt, Fmt.fn] using Fmt.encode_gives hg rm sat (.fin false 0 0)
  | fin neg m e =>
    rw [Exact.of, Exact.rsqrt, Fmt.fn]
    simp only [zpow_mul_eq_zero]
    split
    next => exact Fmt.encode_gives hg rm sat (.inf neg)
    next hm =>
      cases neg with
      | true => rfl
      | false =>
        refine Fmt.round_gives hg rm sat false (rsqrtExact_stands hm e) fun _ => ?_
        have := rsqrtExact_long hm e
        have := hg.mbits_le
        omega

theorem logb_two_zpow (n : Int) : Real.logb 2 ((2 : ℝ) ^ n) = n := by
  rw [← Real.rpow_intCast, Real.logb_rpow (by norm_num) (by norm_num)]

theorem mul_zpow_of_power_two {m : Nat} (h : m = 2 ^ (bitLen m - 1)) (e : Int) : (m : ℝ) * (2 : ℝ) ^ e = 2 ^ ((bitLen m : Int) - 1 + e) := by
  have hm : m ≠ 0 := by rw [h]; positivity
  have hb := (bitLen_bounds hm).1
  have hc : (m : ℝ) = 2 ^ (bitLen m - 1) := by exact_mod_cast h
  rw [hc, ← zpow_natCast, ← zpow_add₀ (by norm_num)]
  congr 2; omega

theorem power_two_of_zpow {m : Nat} {e n : Int} (h : (m : ℝ) * (2 : ℝ) ^ e = 2 ^ n) : m = 2 ^ (bitLen m - 1) := by
  have hm : (m : ℝ) = 2 ^ (n - e) := by
    rw [zpow_sub₀ (by norm_num), eq_div_iff (by positivity), h]
  have hm0 : m ≠ 0 := by
    rintro rfl
    have : (0 : ℝ) < 2 ^ (n - e) := by positivity
    rw [← hm, Nat.cast_zero] at this
    exact lt_irrefl _ this
  have hne : 0 ≤ n - e := by
    by_contra hlt
    have h1 : (2 : ℝ) ^ (n - e) < 2 ^ (0 : Int) := zpow_lt_zpow_right₀ (by norm_num) (by omega)
    rw [← hm, zpow_zero] at h1
    have : m < 1 := by exact_mod_cast h1
    omega
  have hpow : m = 2 ^ (n - e).toNat := by
    rw [← Int.toNat_of_nonneg hne, zpow_natCast] at hm
    exact_mod_cast hm
  have hlen : bitLen m = (n - e).toNat + 1 := bitLen_eq hpow.ge (by rw [hpow]; exact Nat.pow_lt_pow_right (by norm_num) (Nat.lt_succ_self _))
  rw [hlen, Nat.add_sub_cancel]
  exact hpow

/-- What `log2Exact` gives: the exact logarithm of a power of 2, and otherwise a number close to the logarithm, on its side of zero. -/
theorem log2Exact_stands {m : Nat} (hm : m ≠ 0) (h24 : m < 2 ^ 24) (e : Int) : ∃ (y : ℝ) (neg : Bool) (x : ℝ),
    |y - Real.logb 2 (m * (2 : ℝ) ^ e)| < 1 / 2 ^ 150 ∧ (y < 0 ↔ Real.logb 2 (m * (2 : ℝ) ^ e) < 0) ∧
    (∀ n : Int, m * (2 : ℝ) ^ e = 2 ^ n → y = n) ∧ Exact.real false y = .num neg x ∧ (log2Exact m e).1 = neg ∧
    StandsAt (log2Exact m e).2.1 (log2Exact m e).2.2.1 (log2Exact m e).2.2.2 x ∧
    ((log2Exact m e).2.2.2 = true → 24 < bitLen (log2Exact m e).2.1) := by
  by_cases hpow : m = 2 ^ (bitLen m - 1)
  · have hlog : log2Exact m e = (decide ((bitLen m : Int) - 1 + e < 0), ((bitLen m : Int) - 1 + e).natAbs, 0, false) := by
      rw [log2Exact, if_pos hpow]
    have hval := mul_zpow_of_power_two hpow e
    generalize (bitLen m : Int) - 1 + e = X at *
    have hL : Real.logb 2 ((2 : ℝ) ^ X) = X := logb_two_zpow X
    rw [hval, hL, hlog]
    refine ⟨X, decide (X < 0), X.natAbs, by simp, Iff.rfl, fun n hn => ?_, ?_, rfl, by simpa using standsAt_exact X.natAbs 0,
      fun h => absurd h Bool.false_ne_true⟩
    · rw [zpow_right_injective₀ (by norm_num) (by norm_num) hn]
    · rw [← exact_integer]; simp [Exact.of]
  · obtain ⟨hb, blo, bhi⟩ := bitLen_bounds hm
    obtain ⟨n, hn⟩ : ∃ n, bitLen m = n + 1 := ⟨bitLen m - 1, by omega⟩
    rw [hn, Nat.add_sub_cancel] at blo hpow
    rw [hn] at bhi
    have hn23 : n ≤ 23 := by
      have := (Nat.pow_lt_pow_iff_right (a := 2) (by norm_num)).1 (blo.trans_lt h24)
      omega
    have hmargin := logb_margin (lt_of_le_of_ne blo (Ne.symm hpow)) bhi hn23
    obtain ⟨f1, f2, f3⟩ := log2Go_fraction (lt_of_le_of_ne blo (Ne.symm hpow)) bhi hn23
    have hlog : log2Exact m e = if 0 ≤ (n : Int) + e then
          (false, ((n : Int) + e).toNat * 2 ^ 160 + log2Go 160 (m * 2 ^ (319 - n)) 0, -160, true)
        else (true, (-((n : Int) + e)).toNat * 2 ^ 160 - log2Go 160 (m * 2 ^ (319 - n)) 0 - 1, -160, true) := by
      rw [log2Exact, if_neg (by rwa [hn, Nat.add_sub_cancel]), hn, show 320 - (n + 1) = 319 - n by omega]
      push_cast
      rw [add_sub_cancel_right]
    have hL : Real.logb 2 (m * (2 : ℝ) ^ e) = ((n : Int) + e : Int) + (Real.logb 2 m - n) := by
      rw [Real.logb_mul (by exact_mod_cast hm) (by positivity), logb_two_zpow]
      push_cast
      ring
    rw [hL, hlog]
    generalize log2Go 160 (m * 2 ^ (319 - n)) 0 = F at *
    generalize Real.logb 2 m - n = L at *
    generalize hX : (n : Int) + e = X at *
    have hno (k : Int) (hk : m * (2 : ℝ) ^ e = 2 ^ k) {P : Prop} : P := by
      have := power_two_of_zpow hk
      rw [hn, Nat.add_sub_cancel] at this
      exact absurd this hpow
    have hF : ((F : ℝ) + 1 / 2) / 2 ^ 160 < 1 := by
      have : ((F + 2 ^ 130 : Nat) : ℝ) ≤ (2 ^ 160 : Nat) := by exact_mod_cast f2
      push_cast at this
      rw [div_lt_one (by positivity)]
      linarith
    have hF0 : 0 < ((F : ℝ) + 1 / 2) / 2 ^ 160 := by positivity
    have hz : (2 : ℝ) ^ (-160 : Int) = 1 / 2 ^ 160 := by norm_num
    by_cases hpos : 0 ≤ X
    · have hX0 : (0 : ℝ) ≤ X := by exact_mod_cast hpos
      rw [if_pos hpos]
      refine ⟨X + (F + 1 / 2) / 2 ^ 160, false, X + (F + 1 / 2) / 2 ^ 160, by rwa [add_sub_add_left_eq_sub], ?_, fun k hk => hno k hk,
        ?_, rfl, ⟨1 / 2, ?_, by norm_num, by norm_num, by norm_num⟩, fun _ => lt_bitLen (by dsimp only; omega)⟩
      · exact iff_of_false (by linarith) (by linarith [hmargin.1])
      · rw [Exact.real, if_neg (by linarith), abs_of_pos (by linarith), decide_eq_false (by linarith)]
      · have hc : ((X.toNat : Nat) : ℝ) = X := by exact_mod_cast Int.toNat_of_nonneg hpos
        dsimp only
        rw [hz]
        push_cast
        rw [hc]
        ring
    · have hX0 : (X : ℝ) ≤ -1 := by exact_mod_cast (by omega : X ≤ -1)
      rw [if_neg hpos]
      refine ⟨X + (F + 1 / 2) / 2 ^ 160, true, -(X + (F + 1 / 2) / 2 ^ 160), by rwa [add_sub_add_left_eq_sub], ?_, fun k hk => hno k hk,
        ?_, rfl, ⟨1 / 2, ?_, by norm_num, by norm_num, by norm_num⟩, fun _ => lt_bitLen ?_⟩
      · exact iff_of_true (by linarith) (by linarith [hmargin.2])
      · rw [Exact.real, if_neg (by linarith), abs_of_neg (by linarith), decide_eq_true (by linarith)]
      · have hc : (((-X).toNat : Nat) : ℝ) = -X := by exact_mod_cast Int.toNat_of_nonneg (show 0 ≤ -X by omega)
        have hle : F + 1 ≤ (-X).toNat * 2 ^ 160 := by omega
        dsimp only
        rw [hz, Nat.sub_sub, Nat.cast_sub hle]
        push_cast
        rw [hc]
        ring
      · dsimp only
        omega

theorem Fmt.log2_gives (hg : g.Sound) (rm : Rm) (sat : Bool) {v : FVal} (hv : ∀ neg m e, v = .fin neg m e → m < 2 ^ 24) :
    ∃ l, (Exact.of v).IsLog2 l ∧ Gives g rm sat l (g.fn .log2 rm sat v) := by
  cases v with
  | nan => exact ⟨some .nan, rfl, rfl⟩
  | inf neg =>
    cases neg with
    | true => exact ⟨none, rfl, rfl⟩
    | false => exact ⟨some (.inf false), rfl, Fmt.encode_gives hg rm sat (.inf false)⟩
  | fin neg m e =>
    simp only [Exact.of, Exact.IsLog2, Fmt.fn, Ne, zpow_mul_eq_zero]
    by_cases hm : m = 0
    · refine ⟨some (.inf true), ⟨fun _ => rfl, fun h => absurd hm h, fun h => absurd hm h⟩, ?_⟩
      rw [if_pos hm]
      exact Fmt.encode_gives hg rm sat (.inf true)
    · rw [if_neg hm]
      cases neg with
      | true => exact ⟨none, ⟨fun h => absurd h hm, fun _ _ => rfl, fun _ h => by cases h⟩, rfl⟩
      | false =>
        obtain ⟨y, neg, x, hy, hsign, hpow, hreal, hneg, hst, hlong⟩ := log2Exact_stands hm (hv _ _ _ rfl) e
        refine ⟨some (Exact.real false y), ⟨fun h => absurd h hm, fun _ h => (by cases h), fun _ _ => ⟨y, rfl, hy, hsign, hpow⟩⟩, ?_⟩
        rw [hreal, ← hneg]
        refine Fmt.round_gives hg rm sat _ hst fun h => ?_
        have := hlong h
        have := hg.mbits_le
        omega

end Sound

end Sys2Proof.Machine

/-! PROOFS. exp2 (O20, O30; R70): three fused steps, each rounded to nearest, and the scaling. -/

namespace Sys2Proof.Machine

/-! ## A rounded magnitude among the values of its format (R48, R50) -/

theorem rounds_le_of_ge {rm : Rm} {neg : Bool} {x : ℝ} {r b : Nat} (h : Rounds rm neg x r) (hb : x ≤ b) : r ≤ b := by
  have : (r : ℝ) < b + 1 := lt_of_lt_of_le (rounds_bounds h).1 (by linarith)
  exact Nat.lt_succ_iff.1 (by exact_mod_cast this)

/-- A rounded magnitude keeps its side of every value of the format; beyond the largest one it overflows. -/
theorem roundedTo_pattern {g : Fmt} {rm : Rm} {sat neg : Bool} {x : ℝ} {b : Nat} (h : RoundedTo g rm sat neg x b) : ∃ p,
    (∀ c, x ≤ g.units c * (2 : ℝ) ^ g.qmin → p ≤ c) ∧ (∀ c, g.units c * (2 : ℝ) ^ g.qmin ≤ x → c ≤ p) ∧
    b = if p ≤ g.maxFin then g.signed neg p else overflowOf g rm sat neg := by
  obtain ⟨q, r, hq, hhi, hlo, hr, hb⟩ := h
  have hp : (0 : ℝ) < 2 ^ q := by positivity
  have hpq : (0 : ℝ) < 2 ^ g.qmin := by positivity
  have hrhi : r ≤ 2 ^ (g.mbits + 1) := rounds_le_of_lt hr (by rw [div_lt_iff₀ hp]; push_cast; exact hhi)
  have hs : 2 ^ (g.mbits + 1) = 2 * 2 ^ g.mbits := pow_succ' ..
  have hrlo : q = g.qmin ∨ 2 ^ g.mbits ≤ r := hlo.imp_right fun h => rounds_le_of_le hr (by rw [le_div_iff₀ hp]; push_cast; exact h)
  refine ⟨_, fun c hc => ?_, fun c hc => ?_, hb⟩
  · by_contra hlt
    -- the value at `c` lies in the binade of `x`, for it lies between `x` and the rounded number
    obtain ⟨r', hr', hn⟩ : ∃ r', c = (q - g.qmin).toNat * 2 ^ g.mbits + r' ∧ (q = g.qmin ∨ 2 ^ g.mbits ≤ r') := by
      by_cases hge : (q - g.qmin).toNat * 2 ^ g.mbits + 2 ^ g.mbits ≤ c
      · exact ⟨c - (q - g.qmin).toNat * 2 ^ g.mbits, by omega, .inr (by omega)⟩
      · rcases hlo with rfl | hlo
        · exact ⟨c, by simp, .inl rfl⟩
        · exfalso
          have hmono := g.units_strictMono (Nat.lt_of_not_le hge)
          have h1 := mul_lt_mul_of_pos_right (Nat.cast_lt (α := ℝ).2 hmono) hpq
          rw [g.units_real hq (Nat.pow_le_pow_right (by norm_num) (Nat.le_succ _)) (.inr le_rfl)] at h1
          push_cast at h1
          linarith
    have hle : r' ≤ r := by omega
    rw [hr', g.units_real hq (hle.trans hrhi) hn] at hc
    have := rounds_le_of_ge hr ((div_le_iff₀ hp).2 hc)
    omega
  · by_contra hlt
    obtain ⟨r', hr'⟩ : ∃ r', c = (q - g.qmin).toNat * 2 ^ g.mbits + r' := ⟨c - (q - g.qmin).toNat * 2 ^ g.mbits, by omega⟩
    have hle : r ≤ r' := by omega
    have hfit : r' ≤ 2 ^ (g.mbits + 1) := by
      by_contra hbig
      have hmono := g.units_strictMono (show (q - g.qmin).toNat * 2 ^ g.mbits + 2 ^ (g.mbits + 1) < c by omega)
      have h1 := mul_lt_mul_of_pos_right (Nat.cast_lt (α := ℝ).2 hmono) hpq
      rw [g.units_real hq le_rfl (.inr (Nat.pow_le_pow_right (by norm_num) (Nat.le_succ _)))] at h1
      push_cast at h1
      linarith
    rw [hr', g.units_real hq hfit (hrlo.imp_right hle.trans')] at hc
    have := rounds_le_of_le hr ((le_div_iff₀ hp).2 hc)
    omega

/-- A value of the format rounds to itself. -/
theorem roundedTo_exact {g : Fmt} {rm : Rm} {sat neg : Bool} {c b : Nat} (hc : c ≤ g.maxFin)
    (h : RoundedTo g rm sat neg (g.units c * (2 : ℝ) ^ g.qmin) b) : b = g.signed neg c := by
  obtain ⟨p, h1, h2, hb⟩ := roundedTo_pattern h
  obtain rfl := le_antisymm (h1 c le_rfl) (h2 c le_rfl)
  rw [hb, if_pos hc]

/-- A magnitude between two values of the format rounds to one between them. -/
theorem roundedTo_between {g : Fmt} (hg : g.Sound) {rm : Rm} {sat : Bool} {x : ℝ} {b c : Nat} (h : RoundedTo g rm sat false x b)
    (hc : c ≤ g.maxFin) (hx : x ≤ g.units c * (2 : ℝ) ^ g.qmin) : ∃ m e, g.decode b = .fin false m e ∧
      m * (2 : ℝ) ^ e ≤ g.units c * (2 : ℝ) ^ g.qmin ∧ ∀ a, g.units a * (2 : ℝ) ^ g.qmin ≤ x → g.units a * (2 : ℝ) ^ g.qmin ≤ m * (2 : ℝ) ^ e := by
  obtain ⟨p, h1, h2, hb⟩ := roundedTo_pattern h
  have hp := h1 c hx
  have hpq : (0 : ℝ) < 2 ^ g.qmin := by positivity
  have hlt := lt_of_le_of_lt (hp.trans hc) (Fmt.maxFin_lt hg)
  rw [if_pos (hp.trans hc), Fmt.signed, if_neg Bool.false_ne_true] at hb
  rw [hb]
  have hmod : p % g.signBit = p := Nat.mod_eq_of_lt hlt
  obtain ⟨m, e, hd, hv⟩ := Fmt.decode_finite hg (b := p) (by rw [hmod]; exact hp.trans hc)
  rw [hmod] at hv
  rw [Nat.div_eq_of_lt hlt] at hd
  refine ⟨m, e, hd, ?_, fun a ha => ?_⟩ <;> rw [hv]
  · exact mul_le_mul_of_nonneg_right (by exact_mod_cast g.units_strictMono.monotone hp) hpq.le
  · exact mul_le_mul_of_nonneg_right (by exact_mod_cast g.units_strictMono.monotone (h2 a ha)) hpq.le

/-- The fp32 pattern of a power of 2 from 2^−126 on. -/
theorem fp32_units_power {n : Int} (h : -126 ≤ n) : (Fmt.fp32.units ((n + 127).toNat * 2 ^ 23) : ℝ) * (2 : ℝ) ^ Fmt.fp32.qmin = 2 ^ n := by
  have hp := Fmt.fp32.units_pattern (k := (n + 126).toNat) (r := 2 ^ 23) (by decide) (.inr le_rfl)
  have he : (n + 127).toNat * 2 ^ 23 = (n + 126).toNat * 2 ^ Fmt.fp32.mbits + 2 ^ 23 := by
    show (n + 127).toNat * 2 ^ 23 = (n + 126).toNat * 2 ^ 23 + 2 ^ 23
    omega
  rw [he, hp, Nat.cast_mul, Nat.cast_pow, Nat.cast_pow, Nat.cast_ofNat, ← zpow_natCast, ← zpow_natCast, ← zpow_add₀ (by norm_num),
    ← zpow_add₀ (by norm_num)]
  congr 1
  show ((23 : Nat) : Int) + ((n + 126).toNat : Int) + -149 = n
  omega

/-! ## Fused steps (R70) -/

theorem magnitude_of_decode {p m : Nat} {neg : Bool} {e : Int} (h : Fmt.fp32.decode p = .fin neg m e) : magnitude p = m * (2 : ℝ) ^ e := by
  have : (0 : ℝ) ≤ m * (2 : ℝ) ^ e := by positivity
  rw [magnitude, h, numberOf]
  cases neg with
  | true => rw [if_pos rfl, abs_neg, abs_of_nonneg this]
  | false => rw [if_neg Bool.false_ne_true, abs_of_nonneg this]

/-- A fused step of three magnitudes is rounded once, to nearest, and stays between powers of 2 where its exact value does. -/
theorem fma32_nearest {a b c : FVal} {x y z : ℝ} (ha : Exact.of a = .num false x) (hb : Exact.of b = .num false y)
    (hc : Exact.of c = .num false z) (hpos : 0 < x * y + z) {j : Int} (hj : -126 ≤ j ∧ j ≤ 127) (hle : x * y + z ≤ 2 ^ j) :
    ∃ p m e, fma32 a b c = .fin false m e ∧ Nearest32 (x * y + z) p ∧ magnitude p = m * (2 : ℝ) ^ e ∧ magnitude p ≤ 2 ^ j ∧
      (1 ≤ x * y + z → 1 ≤ magnitude p) := by
  have htop := fp32_units_power hj.1
  have hone := fp32_units_power (n := 0) (by norm_num)
  have hres := Fmt.result_gives Fmt.fp32_sound .rne false (FVal.fma .rne a b c)
  have hex : exactResult (FVal.fma .rne a b c) = some (.num false (x * y + z)) := by
    rw [exact_fma, ha, hb, hc]
    simp only [Exact.fma, Exact.mul, Option.bind_some, Exact.add, bne_self_eq_false, Bool.false_eq_true, if_false]
    rw [Exact.real, if_neg hpos.ne', abs_of_pos hpos, decide_eq_false hpos.not_gt]
  rw [hex] at hres
  obtain ⟨hnear, -⟩ := hres.2 hpos.ne'
  have hfit : (j + 127).toNat * 2 ^ 23 ≤ Fmt.fp32.maxFin := by
    show (j + 127).toNat * 2 ^ 23 ≤ 0x7F7FFFFF
    omega
  obtain ⟨m, e, hd, hhi, hlo⟩ := roundedTo_between Fmt.fp32_sound hnear hfit (by rwa [htop])
  rw [htop] at hhi
  refine ⟨_, m, e, hd, hnear, magnitude_of_decode hd, by rwa [magnitude_of_decode hd], fun h => ?_⟩
  have := hlo _ (by rw [hone]; simpa using h)
  rw [hone] at this
  rw [magnitude_of_decode hd]
  simpa using this

/-! ## The steps of exp2 -/

/-- The integer part of s × 2^e, and what is left. -/
def exp2Floor (s e : Int) : Int := if 0 ≤ e then s * (2 ^ e.toNat : Nat) else s / (2 ^ (-e).toNat : Nat)
def exp2Fract (s e : Int) : FVal := if 0 ≤ e then .fin false 0 0 else .fin false (s - exp2Floor s e * (2 ^ (-e).toNat : Nat)).toNat e

/-- The three fused steps. -/
def exp2Poly (x : FVal) : FVal :=
  fma32 x (fma32 x (fma32 x (Fmt.fp32.decode 0x3DA00000) (Fmt.fp32.decode 0x3E680000)) (Fmt.fp32.decode 0x3F320000)) (.fin false 1 0)

/-- exp2 of a number from −127 to below 128. -/
def exp2Number (neg : Bool) (m : Nat) (e : Int) : Nat × BitVec 4 :=
  match exp2Poly (exp2Fract (signedNat neg m) e) with
  | .fin _ pm pe => ((Fmt.fp32.round .rne false false pm (pe + exp2Floor (signedNat neg m) e) false).1, 0)
  | _ => (Fmt.fp32.nan, 0)

theorem exp2F_number (neg : Bool) (m : Nat) (e : Int) : exp2F (.fin neg m e) =
    if 128 ≤ numberOf (.fin neg m e) then (Fmt.fp32.inf, 4)
    else if numberOf (.fin neg m e) < -127 then exp2Number true 127 0 else exp2Number neg m e := by
  have h128 : ((FVal.fin neg m e).lt (.fin false 128 0)) = true ↔ ¬ 128 ≤ numberOf (.fin neg m e) := by
    rw [FVal.lt_fin_iff, not_le]; simp [numberOf]
  have h127 : ((FVal.fin neg m e).lt (.fin true 127 0)) = true ↔ numberOf (.fin neg m e) < -127 := by
    rw [FVal.lt_fin_iff]; simp [numberOf]
  have heq : exp2F (.fin neg m e) = if !((FVal.fin neg m e).lt (.fin false 128 0)) then (Fmt.fp32.inf, 4)
      else if (FVal.fin neg m e).lt (.fin true 127 0) then exp2Number true 127 0 else exp2Number neg m e := rfl
  rw [heq]
  by_cases hbig : 128 ≤ numberOf (.fin neg m e)
  · rw [if_pos hbig, if_pos (by simpa using mt h128.1 (not_not.2 hbig))]
  · rw [if_neg hbig, if_neg (by simp [h128.2 hbig])]
    by_cases hlow : numberOf (.fin neg m e) < -127
    · rw [if_pos hlow, if_pos (h127.2 hlow)]
    · rw [if_neg hlow, if_neg (mt h127.1 hlow)]

theorem exp2F_infinity : exp2F (.inf true) = exp2Number true 127 0 := rfl

/-- The integer part and the fraction, over the reals. -/
theorem exp2_split (neg : Bool) (m : Nat) (e : Int) : exp2Floor (signedNat neg m) e = ⌊numberOf (.fin neg m e)⌋ ∧
    Exact.of (exp2Fract (signedNat neg m) e) = .num false (Int.fract (numberOf (.fin neg m e))) := by
  have hval : numberOf (.fin neg m e) = signedNat neg m * (2 : ℝ) ^ e := by
    rw [numberOf_fin, signedNat_cast]; split <;> ring
  rw [hval]
  generalize signedNat neg m = s
  by_cases he : 0 ≤ e
  · have hint : (s : ℝ) * (2 : ℝ) ^ e = (s * (2 ^ e.toNat : Nat) : Int) := by
      conv_lhs => rw [← Int.toNat_of_nonneg he]
      push_cast
      rw [zpow_natCast]
    rw [hint, Int.floor_intCast, Int.fract_intCast, exp2Floor, exp2Fract, if_pos he, if_pos he]
    exact ⟨rfl, by simp [Exact.of]⟩
  · obtain ⟨d, hd⟩ : ∃ d, d = 2 ^ (-e).toNat := ⟨_, rfl⟩
    have hpos : 0 < d := by rw [hd]; positivity
    have hp : (0 : ℝ) < d := by exact_mod_cast hpos
    have hz : (2 : ℝ) ^ e = 1 / d := by
      rw [hd, one_div, Nat.cast_pow, Nat.cast_ofNat, ← zpow_natCast, ← zpow_neg, Int.toNat_of_nonneg (by omega), neg_neg]
    have h0 := Int.emod_nonneg s (show (d : Int) ≠ 0 by omega)
    have hlt : ((s % (d : Int) : Int) : ℝ) < d := by exact_mod_cast Int.emod_lt_of_pos s (show (0 : Int) < d by omega)
    have h0' : (0 : ℝ) ≤ (s % (d : Int) : Int) := by exact_mod_cast h0
    have hdm : (d : ℝ) * (s / (d : Int) : Int) + (s % (d : Int) : Int) = s := by exact_mod_cast Int.mul_ediv_add_emod s d
    have hrest : s - s / (d : Int) * d = s % (d : Int) := by rw [Int.emod_def, mul_comm]
    have hfloor : ⌊(s : ℝ) * (2 : ℝ) ^ e⌋ = s / (d : Int) := by
      rw [Int.floor_eq_iff, hz, mul_one_div, le_div_iff₀ hp, div_lt_iff₀ hp]
      constructor <;> linarith
    have hfl : exp2Floor s e = s / (d : Int) := by rw [exp2Floor, if_neg he, ← hd]
    refine ⟨by rw [hfl, hfloor], ?_⟩
    rw [exp2Fract, if_neg he, hfl, ← hd, hrest, Exact.of, Int.fract, hfloor]
    have hc : ((s % (d : Int) : Int).toNat : ℝ) = (s % (d : Int) : Int) := by exact_mod_cast Int.toNat_of_nonneg h0
    rw [hc, hz, mul_one_div, mul_one_div, ← hdm, add_div, mul_div_cancel_left₀ _ hp.ne', add_sub_cancel_left]

/-- The steps of R70. -/
theorem exp2Number_steps (neg : Bool) (m : Nat) (e : Int) : ∃ p1 p2 p3,
    Nearest32 (Int.fract (numberOf (.fin neg m e)) * 0.078125 + 0.2265625) p1 ∧
    Nearest32 (Int.fract (numberOf (.fin neg m e)) * magnitude p1 + 0.6953125) p2 ∧
    Nearest32 (Int.fract (numberOf (.fin neg m e)) * magnitude p2 + 1) p3 ∧
    Nearest32 (magnitude p3 * (2 : ℝ) ^ ⌊numberOf (.fin neg m e)⌋) (exp2Number neg m e).1 ∧ (exp2Number neg m e).2 = 0 := by
  obtain ⟨hfloor, hfract⟩ := exp2_split neg m e
  have h0 := Int.fract_nonneg (numberOf (.fin neg m e))
  have h1 := Int.fract_lt_one (numberOf (.fin neg m e))
  rw [exp2Number, exp2Poly, hfloor]
  generalize exp2Fract (signedNat neg m) e = f at *
  generalize Int.fract (numberOf (.fin neg m e)) = x at *
  generalize ⌊numberOf (.fin neg m e)⌋ = n
  have c1 : Exact.of (Fmt.fp32.decode 0x3DA00000) = .num false 0.078125 := by
    rw [show Fmt.fp32.decode 0x3DA00000 = .fin false 10485760 (-27) by decide, Exact.of]; norm_num
  have c2 : Exact.of (Fmt.fp32.decode 0x3E680000) = .num false 0.2265625 := by
    rw [show Fmt.fp32.decode 0x3E680000 = .fin false 15204352 (-26) by decide, Exact.of]; norm_num
  have c3 : Exact.of (Fmt.fp32.decode 0x3F320000) = .num false 0.6953125 := by
    rw [show Fmt.fp32.decode 0x3F320000 = .fin false 11665408 (-24) by decide, Exact.of]; norm_num
  have c4 : Exact.of (.fin false 1 0) = .num false 1 := by simp [Exact.of]
  have below (p : Nat) : 0 ≤ x * magnitude p ∧ x * magnitude p ≤ magnitude p :=
    ⟨mul_nonneg h0 (abs_nonneg _), mul_le_of_le_one_left (abs_nonneg _) h1.le⟩
  have exact_of {v : FVal} {m : Nat} {e : Int} {p : Nat} (hv : v = .fin false m e) (hp : magnitude p = m * (2 : ℝ) ^ e) :
      Exact.of v = .num false (magnitude p) := by rw [hv, hp]; rfl
  obtain ⟨p1, m1, e1, hf1, hn1, hv1, hle1, -⟩ := fma32_nearest hfract c1 c2 (j := 0) (by norm_num; linarith) (by norm_num)
    (by norm_num; linarith)
  obtain ⟨p2, m2, e2, hf2, hn2, hv2, hle2, -⟩ := fma32_nearest hfract (exact_of hf1 hv1) c3 (j := 1) (by linarith [below p1])
    (by norm_num) (by norm_num at hle1 ⊢; linarith [below p1])
  obtain ⟨p3, m3, e3, hf3, hn3, hv3, -, hge3⟩ := fma32_nearest hfract (exact_of hf2 hv2) c4 (j := 2) (by linarith [below p2])
    (by norm_num) (by norm_num at hle2 ⊢; linarith [below p2])
  have hone := hge3 (by linarith [below p2])
  have hval : magnitude p3 * (2 : ℝ) ^ n = m3 * (2 : ℝ) ^ (e3 + n) := by
    rw [hv3, zpow_add₀ (by norm_num), mul_assoc]
  refine ⟨p1, p2, p3, hn1, hn2, hn3, ?_, ?_⟩ <;> rw [hf3]
  have hround := Fmt.round_gives Fmt.fp32_sound .rne false false (standsAt_exact m3 (e3 + n)) fun h => absurd h Bool.false_ne_true
  rw [← hval] at hround
  exact (hround.2 (by positivity)).1

/-- exp2 of an integer is exact. -/
theorem exp2Number_integer {neg : Bool} {m : Nat} {e n : Int} (hn : numberOf (.fin neg m e) = n) {c : Nat} (hc : c ≤ Fmt.fp32.maxFin)
    (hv : (Fmt.fp32.units c : ℝ) * (2 : ℝ) ^ Fmt.fp32.qmin = 2 ^ n) : (exp2Number neg m e).1 = c := by
  obtain ⟨p1, p2, p3, -, -, hp3, hres, -⟩ := exp2Number_steps neg m e
  rw [hn, Int.fract_intCast, zero_mul, zero_add] at hp3
  rw [hn, Int.floor_intCast] at hres
  have hunit := fp32_units_power (n := 0) (by norm_num)
  have hone : magnitude p3 = 1 := by
    rw [← zpow_zero (2 : ℝ), ← hunit] at hp3
    have hp := roundedTo_exact (by decide) hp3
    obtain ⟨m', e', hd, hval⟩ := Fmt.decode_finite Fmt.fp32_sound (b := p3) (by rw [hp]; decide)
    have hmod : p3 % Fmt.fp32.signBit = (0 + 127 : Int).toNat * 2 ^ 23 := by rw [hp]; decide
    rw [magnitude_of_decode hd, hval, hmod, hunit, zpow_zero]
  rw [hone, one_mul, ← hv] at hres
  rw [roundedTo_exact hc hres, Fmt.signed, if_neg Bool.false_ne_true]

/-- exp2 and its status (R70). -/
theorem exp2F_spec (x : FVal) : Exp2Is x (exp2F x).1 ∧ (exp2F x).2 = exp2Status x := by
  have hlow (neg : Bool) (m : Nat) (e : Int) (h : numberOf (.fin neg m e) = -127) : (exp2Number neg m e).1 = 0x400000 := by
    refine exp2Number_integer (n := -127) (by rw [h]; norm_num) (by decide) ?_
    rw [show Fmt.fp32.units 0x400000 = 2 ^ 22 by decide +kernel, show Fmt.fp32.qmin = -149 from rfl]
    norm_num
  have hsmall : numberOf (.fin true 127 0) = -127 := by norm_num [numberOf]
  have hstatus (neg : Bool) (m : Nat) (e : Int) : (exp2Number neg m e).2 = 0 := by
    obtain ⟨-, -, -, -, -, -, -, h⟩ := exp2Number_steps neg m e
    exact h
  cases x with
  | nan =>
    refine ⟨⟨fun _ => rfl, fun h => (by cases h), fun h => (by cases h), fun _ _ _ h => by cases h⟩, ?_⟩
    rw [exp2Status, if_neg (by simp [numberOf])]; rfl
  | inf neg =>
    cases neg with
    | false =>
      refine ⟨⟨fun h => (by cases h), fun _ => rfl, fun h => (by cases h), fun _ _ _ h => by cases h⟩, ?_⟩
      rw [exp2Status, if_pos (.inl rfl)]; rfl
    | true =>
      rw [exp2F_infinity]
      refine ⟨⟨fun h => (by cases h), fun h => (by cases h), fun _ => hlow _ _ _ hsmall, fun _ _ _ h => by cases h⟩, ?_⟩
      rw [exp2Status, if_neg (by simp [numberOf])]
      exact hstatus ..
  | fin neg m e =>
    have hstat : exp2Status (.fin neg m e) = if 128 ≤ numberOf (.fin neg m e) then 4 else 0 := by
      rw [exp2Status]; simp
    rw [exp2F_number, hstat]
    refine ⟨⟨fun h => (by cases h), fun h => (by cases h), fun h => (by cases h), fun neg' m' e' h => ?_⟩, ?_⟩
    · cases h
      intro v
      refine ⟨fun h => by rw [if_pos h]; rfl, fun h => ?_, fun n hn lo hi => ?_, fun lo hi => ?_⟩
      · rw [if_neg (show ¬ 128 ≤ v by linarith)]
        split
        · exact hlow _ _ _ hsmall
        · exact hlow _ _ _ (by linarith)
      · have hi' : v < 128 := by rw [hn]; exact_mod_cast hi
        have lo' : -126 ≤ v := by rw [hn]; exact_mod_cast lo
        rw [if_neg (not_le.2 hi'), if_neg (show ¬ v < -127 by linarith),
          exp2Number_integer hn (c := (n + 127).toNat * 2 ^ 23) (show (n + 127).toNat * 2 ^ 23 ≤ 0x7F7FFFFF by omega) (fp32_units_power lo)]
        omega
      · rw [if_neg (not_le.2 hi), if_neg (not_lt.2 lo)]
        obtain ⟨p1, p2, p3, h1, h2, h3, h4, -⟩ := exp2Number_steps neg m e
        exact ⟨p1, p2, p3, h1, h2, h3, h4⟩
    · split
      · rfl
      · split
        · exact hstatus ..
        · exact hstatus ..

/-! ## The obligation -/

/-- Settles O20: each function's exact value by `Fmt.rcp_gives`, `Fmt.rsqrt_gives` and `Fmt.log2_gives`, and the steps of exp2 by
`exp2F_spec`. -/
theorem vectorFloatFunctions : Obligations.VectorFloatFunctions := by
  intro f s hf g x
  have hg : g.Sound := f.typ.fmt_sound
  have hlog (e : Nat) : ∃ l, (Exact.of (x e)).IsLog2 l ∧ Gives g f.rm f.sat l (fnElem .log2 f (opnd s f 1 e)) :=
    Fmt.log2_gives hg f.rm f.sat fun neg m k h => lt_of_lt_of_le (Fmt.significand_lt hg h)
      (Nat.pow_le_pow_right (by norm_num) (by have := hg.mbits_le; omega))
  choose l hl using hlog
  refine ⟨⟨_, vec1_gives (i := .vRcp) rfl, fun e => Fmt.rcp_gives hg ..⟩, ⟨_, vec1_gives (i := .vRsqrt) rfl, fun e => Fmt.rsqrt_gives hg ..⟩,
    ⟨_, l, vec1_gives (i := .vLog2) rfl, hl⟩, ?_⟩
  refine ⟨_, fun e => g.encode f.rm f.sat (Fmt.fp32.decode (exp2F (x e)).1), fun e => (exp2F (x e)).1,
    vec1_gives (i := .vExp2) rfl, fun e => ?_⟩
  obtain ⟨his, hst⟩ := exp2F_spec (x e)
  have hx : f.typ.fmt.decode (opnd s f 1 e) = x e := rfl
  rw [exp2Elem, hx, ← hst]
  refine ⟨his, fun h => by rw [if_pos h], fun h => ⟨Fmt.encode_gives hg .., by rw [if_neg h]⟩⟩

end Sys2Proof.Machine

/-! PROOFS. Bit counts (O23; R72, R75, R139): the counts and the places of the set bits of a number. -/

namespace Sys2Proof.Machine

/-! ## Counts by the set bits -/

theorem lowestSet_eq (n v i : Nat) : lowestSet n v i = ((List.range n).find? fun j => v.testBit j).map (· + i) := by
  induction n generalizing v i with
  | zero => rfl
  | succ n ih =>
    have hzero : v.testBit 0 = decide (v % 2 = 1) := Nat.testBit_zero v
    rw [lowestSet, List.range_succ_eq_map, List.find?_cons, hzero]
    by_cases h : v % 2 = 1
    · simp [h]
    · rw [if_neg h, ih, decide_eq_false h, List.find?_map]
      simp only [Option.map_map]
      congr 1
      · funext j; simp; omega
      · congr 1; funext j; simp [Nat.testBit_succ]

theorem popCount_eq (n v : Nat) : popCount n v = ((List.range n).filter fun j => v.testBit j).length := by
  induction n generalizing v with
  | zero => rfl
  | succ n ih =>
    have hrest : ((List.range n).map Nat.succ).filter (fun j => v.testBit j) =
        ((List.range n).filter fun j => (v / 2).testBit j).map Nat.succ := by
      rw [List.filter_map]
      congr 2; funext j; simp [Nat.testBit_succ]
    rw [popCount, ih, List.range_succ_eq_map, List.filter_cons, Nat.testBit_zero, hrest]
    rcases Nat.mod_two_eq_zero_or_one v with h | h
    · simp [h]
    · simp [h, Nat.add_comm]

theorem revBits_eq (n v : Nat) : revBits n v = ((List.range n).map fun j => if v.testBit j then 2 ^ (n - 1 - j) else 0).sum := by
  induction n generalizing v with
  | zero => rfl
  | succ n ih =>
    rw [revBits, ih, List.range_succ_eq_map, List.map_cons, List.sum_cons, List.map_map, Nat.testBit_zero]
    congr 1
    · rcases Nat.mod_two_eq_zero_or_one v with h | h <;> simp [h]
    · congr 1
      refine List.map_congr_left fun j _ => ?_
      simp only [Function.comp, Nat.testBit_succ]
      rw [show n + 1 - 1 - (j + 1) = n - 1 - j by omega]

theorem clzN_eq {n v : Nat} (hv : v < 2 ^ n) : clzN n v = if v = 0 then n else n - 1 - Nat.log2 v := by
  rw [clzN, Nat.mod_eq_of_lt hv, bitLen]
  split <;> omega

theorem clzN_mod (n v : Nat) : clzN n (v % 2 ^ n) = clzN n v := by rw [clzN, Nat.mod_mod, clzN]

/-- The number of leading zeros locates the highest set bit. -/
theorem clzN_bounds {n v : Nat} (hv : v < 2 ^ n) (h : v ≠ 0) : 2 ^ (n - 1 - clzN n v) ≤ v ∧ v < 2 ^ (n - clzN n v) ∧ clzN n v < n := by
  have hlog : Nat.log2 v < n := (Nat.log2_lt h).2 hv
  rw [clzN_eq hv, if_neg h, show n - 1 - (n - 1 - Nat.log2 v) = Nat.log2 v by omega, show n - (n - 1 - Nat.log2 v) = Nat.log2 v + 1 by omega]
  exact ⟨Nat.log2_self_le h, Nat.lt_log2_self, by omega⟩

/-- The number of trailing zeros locates the lowest set bit. -/
theorem ctzN_spec {n v : Nat} (h : v % 2 ^ n ≠ 0) : ctzN n v < n ∧ v.testBit (ctzN n v) = true ∧ ∀ j, j < ctzN n v → v.testBit j = false := by
  obtain ⟨i, hi⟩ := Nat.exists_testBit_of_ne_zero h
  rw [Nat.testBit_mod_two_pow, Bool.and_eq_true, decide_eq_true_eq] at hi
  rw [ctzN, lowestSet_eq]
  cases hf : (List.range n).find? fun j => v.testBit j with
  | none =>
    rw [List.find?_eq_none] at hf
    exact absurd hi.2 (hf i (List.mem_range.2 hi.1))
  | some k =>
    rw [List.find?_range_eq_some] at hf
    obtain ⟨hk, hlt, hlow⟩ := hf
    exact ⟨List.mem_range.1 hlt, hk, fun j hj => by simpa using hlow j hj⟩

theorem ctzN_zero {n v : Nat} (h : v % 2 ^ n = 0) : ctzN n v = n := by
  have hnone : (List.range n).find? (fun j => v.testBit j) = none := List.find?_eq_none.2 fun j hj => by
    have := congrArg (·.testBit j) h
    simpa [Nat.testBit_mod_two_pow, List.mem_range.1 hj] using this
  rw [ctzN, lowestSet_eq, hnone]; rfl

theorem popCount_le (n v : Nat) : popCount n v ≤ n := by
  rw [popCount_eq]
  exact (List.length_filter_le ..).trans_eq List.length_range

/-! ## Bytes in reverse order -/

theorem testBit_leNat (bs : List Byte) (j : Nat) : (leNat bs).testBit j = (bs[j / 8]?.getD 0).getLsbD (j % 8) := by
  induction bs generalizing j with
  | nil => simp [leNat]
  | cons b bs ih =>
    have hlt : b.toNat < 2 ^ 8 := b.isLt
    rw [leNat, Nat.add_comm, show 256 = 2 ^ 8 by rfl, Nat.testBit_two_pow_mul_add _ hlt]
    split
    next h => rw [Nat.div_eq_of_lt h, Nat.mod_eq_of_lt h]; rfl
    next h =>
      rw [ih, show j / 8 = (j - 8) / 8 + 1 by omega, List.getElem?_cons_succ, show (j - 8) % 8 = j % 8 by omega]

theorem rev8_getLsbD (a : Word) {j : Nat} (hj : j < 64) : (rev8 a).getLsbD j = a.getLsbD (8 * (7 - j / 8) + j % 8) := by
  have hlen : 7 - j / 8 < (leBytes 8 a.toNat).length := by rw [length_leBytes]; omega
  have hm : j % 8 < 8 := Nat.mod_lt _ (by norm_num)
  rw [rev8, BitVec.getLsbD_ofNat, testBit_leNat, List.getElem?_reverse (by rw [length_leBytes]; omega), length_leBytes,
    show 8 - 1 - j / 8 = 7 - j / 8 by omega, List.getElem?_eq_getElem hlen, getElem_leBytes, Option.getD_some, BitVec.getLsbD_ofNat,
    show 256 = 2 ^ 8 by rfl, ← pow_mul, Nat.testBit_div_two_pow]
  simp only [hj, hm, decide_true, Bool.true_and, BitVec.getLsbD]
  congr 1; omega

/-! ## The obligation -/

theorem bitCountsLocateBits : Claims.BitCountsLocateBits := by
  intro a
  have ha : a.toNat < 2 ^ 64 := a.isLt
  have hmod : a.toNat % 2 ^ 64 = a.toNat := Nat.mod_eq_of_lt ha
  have nat {v : Nat} (h : v ≤ 64) : (BitVec.ofNat 64 v).toNat = v := by
    rw [BitVec.toNat_ofNat, Nat.mod_eq_of_lt (by omega)]
  have h64 (n : Nat) (hn : n ≤ 64) : clzN n a.toNat ≤ 64 := by rw [clzN]; omega
  have clz : (uopVal .clz a).toNat = clzN 64 a.toNat := nat (h64 64 le_rfl)
  have clzw : (uopVal .clzw a).toNat = clzN 32 a.toNat := nat (h64 32 (by norm_num))
  refine ⟨fun h => by rw [h]; decide, fun h => ?_, ?_, fun h => ?_, fun h => ?_, ?_, fun j hj => rev8_getLsbD a hj⟩
  · have hne : a.toNat ≠ 0 := fun h0 => h (BitVec.eq_of_toNat_eq h0)
    obtain ⟨h1, h2, h3⟩ := clzN_bounds ha hne
    obtain ⟨c1, c2, c3⟩ := ctzN_spec (n := 64) (v := a.toNat) (by rwa [hmod])
    have ctz : (uopVal .ctz a).toNat = ctzN 64 a.toNat := nat c1.le
    rw [clz, ctz]
    exact ⟨h1, h2, h3, c2, c3⟩
  · exact (nat (popCount_le 64 _)).trans (popCount_eq ..)
  · constructor
    · show BitVec.ofNat 64 (clzN 32 a.toNat) = 32
      rw [← clzN_mod, h]; decide
    · show BitVec.ofNat 64 (ctzN 32 a.toNat) = 32
      rw [ctzN_zero h]; rfl
  · obtain ⟨h1, h2, h3⟩ := clzN_bounds (Nat.mod_lt a.toNat (by norm_num : 0 < 2 ^ 32)) h
    rw [clzN_mod] at h1 h2 h3
    obtain ⟨c1, c2, c3⟩ := ctzN_spec h
    have ctzw : (uopVal .ctzw a).toNat = ctzN 32 a.toNat := nat (by omega)
    rw [clzw, ctzw]
    exact ⟨h1, h2, h3, c1, c2, c3⟩
  · exact (nat ((popCount_le 32 _).trans (by norm_num))).trans (popCount_eq ..)

section Vector
variable (f : CmdF) (s : State)

theorem vClz_gives : VecGives .vClz f s [1] fun e => (clzN f.typ.width (opnd s f 1 e), 0) :=
  vec1_gives (i := .vClz) (g := fun a => (clzN f.typ.width a, 0)) rfl

theorem vCtz_gives : VecGives .vCtz f s [1] fun e => (ctzN f.typ.width (opnd s f 1 e), 0) :=
  vec1_gives (i := .vCtz) (g := fun a => (ctzN f.typ.width a, 0)) rfl

theorem vFfs_gives : VecGives .vFfs f s [1] fun e => (((lowestSet f.typ.width (opnd s f 1 e) 0).map (· + 1)).getD 0, 0) :=
  vec1_gives (i := .vFfs) (g := fun a => (((lowestSet f.typ.width a 0).map (· + 1)).getD 0, 0)) rfl

theorem vPop_gives : VecGives .vPop f s [1] fun e => (popCount f.typ.width (opnd s f 1 e), 0) :=
  vec1_gives (i := .vPop) (g := fun a => (popCount f.typ.width a, 0)) rfl

theorem vBrev_gives : VecGives .vBrev f s [1] fun e => (revBits f.typ.width (opnd s f 1 e), 0) :=
  vec1_gives (i := .vBrev) (g := fun a => (revBits f.typ.width a, 0)) rfl

end Vector

theorem vectorBitCounts : Claims.VectorBitCounts := by
  intro f s w x
  have writes {i : CmdF → Instr} {g val : Nat → Nat} (h : VecGives i f s [1] fun e => (g e, 0)) (e : g = val) : VecWrites i f s val :=
    e ▸ vecWrites_of_gives h fun _ _ => rfl
  refine ⟨writes (vClz_gives f s) (funext fun e => clzN_eq (opnd_lt ..)), writes (vCtz_gives f s) (funext fun e => ?_),
    writes (vFfs_gives f s) (funext fun e => ?_), writes (vPop_gives f s) (funext fun e => popCount_eq ..),
    writes (vBrev_gives f s) (funext fun e => revBits_eq ..)⟩
  · rw [ctzN, lowestSet_eq]; simp; rfl
  · rw [lowestSet_eq]; simp; rfl

/-- What an enabled element receives. -/
theorem vecGives_at {i : CmdF → Instr} {f : CmdF} {s : State} {ops : List Nat} {g : Nat → Nat × BitVec 4} (h : VecGives i f s ops g)
    {e v : Nat} (he : e < elems f.typ.width) (hen : enabled f s.handCtx.ps f.typ.width e = true) (hv : (g e).1 = v)
    (hlt : v < 2 ^ f.typ.width) : Completes (i f) s fun t => vget f.typ.width (t.vreg (f.v 0)) e = v :=
  h.imp fun t ⟨_, hreg, _⟩ => by rw [hreg e he, if_pos hen, hv, Nat.mod_eq_of_lt hlt]

theorem bitCountsOnZero : Claims.BitCountsOnZero := by
  refine ⟨?_, by decide, by decide, by decide, by decide, by decide, by decide⟩
  intro f s e _ he hen hz gives
  have hwlt : f.typ.width < 2 ^ f.typ.width := Nat.lt_two_pow_self
  have hz0 : (0 : Nat) < 2 ^ f.typ.width := by positivity
  have hnone : lowestSet f.typ.width 0 0 = none := by rw [lowestSet_eq]; simp
  refine ⟨vecGives_at (vClz_gives f s) he hen ?_ hwlt, vecGives_at (vCtz_gives f s) he hen ?_ hwlt,
    vecGives_at (vFfs_gives f s) he hen ?_ hz0, vecGives_at (vPop_gives f s) he hen ?_ hz0⟩ <;> dsimp only <;> rw [hz]
  · rw [clzN_eq (by positivity), if_pos rfl]
  · exact ctzN_zero (Nat.zero_mod _)
  · rw [hnone]; rfl
  · rw [popCount_eq]; simp

/-- Settles O23: each count by the set bits of its number. -/
theorem bitCounts : Obligations.BitCounts := ⟨bitCountsLocateBits, vectorBitCounts, bitCountsOnZero⟩

end Sys2Proof.Machine

/-! PROOFS. Conversion of one element (O24, O30; R53, R54, R71, R141, R142). -/

namespace Sys2Proof.Machine

/-! ## Float to integer (R54) -/

theorem signedNat_eq (neg : Bool) (n : Nat) : signedNat neg n = if neg then -(n : Int) else n := by cases neg <;> rfl

/-- A number whose magnitude `y` is rounded to an integer converts to an integer type. -/
theorem toIntConv_number (t : Ty) {rm : Rm} (sat : Bool) {neg : Bool} {m : Nat} {e : Int} {y : ℝ}
    (h : Rounds rm neg y (roundUnit rm neg m e 0 false).1 ∧ ((roundUnit rm neg m e 0 false).2 = false ↔ ∃ n : Nat, y = n)) :
    IntegerIs t rm sat (some (.num neg y)) (toIntConv t rm sat (.fin neg m e)) := by
  obtain ⟨hr, hexact⟩ := h
  have hconv : toIntConv t rm sat (.fin neg m e) =
      if signedNat neg (roundUnit rm neg m e 0 false).1 < t.minInt ∨ t.maxInt < signedNat neg (roundUnit rm neg m e 0 false).1 then
        (t.fit sat (signedNat neg (roundUnit rm neg m e 0 false).1), 8)
      else (ofInt t.width (signedNat neg (roundUnit rm neg m e 0 false).1), if (roundUnit rm neg m e 0 false).2 then 1 else 0) := by
    rw [toIntConv]
    simp only [Bool.or_eq_true, decide_eq_true_eq]
    rfl
  rw [hconv]
  generalize roundUnit rm neg m e 0 false = R at *
  refine ⟨R.1, hr, ?_⟩
  rw [signedNat_eq]
  dsimp only
  generalize (if neg = true then -(R.1 : Int) else R.1) = v
  refine ⟨fun h => by rw [if_pos h]; rfl, fun h1 h2 => ?_⟩
  rw [if_neg (by omega)]
  refine ⟨fun h => by rw [hexact.2 ⟨_, h.symm⟩, if_neg Bool.false_ne_true], fun h => ?_⟩
  cases hR : R.2 with
  | true => rw [if_pos rfl]
  | false =>
    obtain ⟨n, rfl⟩ := hexact.1 hR
    rw [rounds_nat hr] at h
    exact absurd rfl h

theorem toIntConv_is (t : Ty) (rm : Rm) (sat : Bool) (v : FVal) : IntegerIs t rm sat (some (Exact.of v)) (toIntConv t rm sat v) := by
  cases v with
  | nan => rfl
  | inf neg => rfl
  | fin neg m e =>
    have h := roundUnit_rounds rm neg (standsAt_exact m e) (q := 0) fun h => absurd h Bool.false_ne_true
    simp only [zpow_zero, mul_one, div_one] at h
    exact toIntConv_number t sat h

/-! ## Conversion and narrowing of an element (R71, R141) -/

theorem convertElem_converts (u t : Ty) (rm : Rm) (sat : Bool) (bits : Nat) : ConvertsTo u t rm sat bits (convertElem u t rm sat bits) := by
  rw [convertElem]
  refine ⟨fun h => by rw [if_pos h], fun h ht => ?_, fun h ht hu => ?_, fun h ht hu => ?_⟩
  · rw [if_neg h, ht, if_neg Bool.false_ne_true]
    exact Fmt.encode_gives t.fmt_sound ..
  · rw [if_neg h, ht, if_pos rfl, hu, if_pos rfl]; rfl
  · rw [if_neg h, ht, if_pos rfl, hu, if_neg Bool.false_ne_true]
    exact toIntConv_is ..

/-- The rounded residual of a narrowed number. -/
def residual (neg : Bool) (m : Nat) (e : Int) (h : FVal) : Nat × BitVec 4 :=
  Fmt.fp32.result .rne false (FVal.add .rne (.fin neg m e) h.neg)

theorem narrowEf_number {u t : Ty} {rm : Rm} {sat : Bool} {bits : Nat} {neg : Bool} {m : Nat} {e : Int}
    (hx : u.fmt.decode bits = .fin neg m e) : narrowEf u t rm sat bits =
      match t.fmt.decode (t.fmt.encode rm sat (.fin neg m e)).1 with
      | .fin hn hm he => ((t.fmt.encode rm sat (.fin neg m e)).1, (residual neg m e (.fin hn hm he)).1,
          (t.fmt.encode rm sat (.fin neg m e)).2 ||| ((residual neg m e (.fin hn hm he)).2 &&& 1))
      | _ => ((t.fmt.encode rm sat (.fin neg m e)).1, 0, (t.fmt.encode rm sat (.fin neg m e)).2) := by
  rw [narrowEf]
  dsimp only
  rw [hx]
  rfl

/-- The exact difference of two numbers is rounded once. -/
theorem residual_gives (neg a : Bool) (m n : Nat) (e d : Int) : ∃ v, (Exact.of (.fin neg m e)).add .rne (Exact.of (.fin a n d)).neg = some v ∧
    Gives .fp32 .rne false (some v) (residual neg m e (.fin a n d)) := by
  have h := Fmt.result_gives Fmt.fp32_sound .rne false (FVal.add .rne (.fin neg m e) (FVal.fin a n d).neg)
  rw [exact_add, exact_neg] at h
  exact ⟨_, rfl, h⟩

theorem narrowEf_narrows (u t : Ty) (rm : Rm) (sat : Bool) (bits : Nat) : NarrowsTo u t rm sat bits (narrowEf u t rm sat bits) := by
  rw [NarrowsTo]
  have hgives := Fmt.encode_gives t.fmt_sound rm sat (u.fmt.decode bits)
  cases hx : u.fmt.decode bits with
  | nan =>
    have hn : narrowEf u t rm sat bits = (t.fmt.nan, 0x7FC00000, 0) := by rw [narrowEf]; dsimp only; rw [hx]; rfl
    rw [hn]
    exact ⟨0, rfl, fun _ => rfl, fun _ h => (by cases h), fun _ _ _ h => by cases h⟩
  | inf neg =>
    have hn : narrowEf u t rm sat bits = ((t.fmt.encode rm sat (.inf neg)).1, 0, (t.fmt.encode rm sat (.inf neg)).2) := by
      rw [narrowEf]; dsimp only; rw [hx]
    rw [hx] at hgives
    rw [hn]
    exact ⟨_, hgives, fun h => (by cases h), fun _ _ => rfl, fun _ _ _ h => by cases h⟩
  | fin neg m e =>
    rw [hx] at hgives
    rw [narrowEf_number hx]
    cases hd : t.fmt.decode (t.fmt.encode rm sat (.fin neg m e)).1 with
    | fin hn hm he =>
      refine ⟨_, hgives, fun h => (by cases h), fun _ h => (by cases h), fun _ _ _ h => ⟨fun a n d hf => ?_, fun hno => absurd hd (hno _ _ _)⟩⟩
      cases h
      dsimp only at hf
      rw [hd] at hf
      cases hf
      exact ⟨_, residual_gives .., rfl⟩
    | nan =>
      refine ⟨_, hgives, fun h => (by cases h), fun _ h => (by cases h), fun _ _ _ _ => ⟨fun a n d hf => ?_, fun _ => rfl⟩⟩
      dsimp only at hf
      rw [hd] at hf
      cases hf
    | inf a =>
      refine ⟨_, hgives, fun h => (by cases h), fun _ h => (by cases h), fun _ _ _ _ => ⟨fun a n d hf => ?_, fun _ => rfl⟩⟩
      dsimp only at hf
      rw [hd] at hf
      cases hf

end Sys2Proof.Machine

/-! PROOFS. The encoding of a pb block (O24, O30; R57 to R62). -/

namespace Sys2Proof.Machine

/-! ## Numbers by their digits -/

theorem sum_digits_lt {w n : Nat} {f : Nat → Nat} (hf : ∀ i, i < n → f i < 2 ^ w) : ∑ i ∈ Finset.range n, f i * 2 ^ (i * w) < 2 ^ (n * w) := by
  induction n with
  | zero => simp
  | succ n ih =>
    have h1 := ih fun i hi => hf i (by omega)
    have h2 : (f n + 1) * 2 ^ (n * w) ≤ 2 ^ w * 2 ^ (n * w) := Nat.mul_le_mul_right _ (hf n (by omega))
    rw [Finset.sum_range_succ, Nat.succ_mul, pow_add, Nat.mul_comm (2 ^ (n * w))]
    rw [Nat.add_mul] at h2
    omega

/-- A digit of a number that is given by its digits. -/
theorem sum_digits {w n : Nat} {f : Nat → Nat} (hf : ∀ i, i < n → f i < 2 ^ w) {j : Nat} (hj : j < n) :
    (∑ i ∈ Finset.range n, f i * 2 ^ (i * w)) / 2 ^ (j * w) % 2 ^ w = f j := by
  induction n with
  | zero => omega
  | succ n ih =>
    have hlow := sum_digits_lt fun i (hi : i < n) => hf i (by omega)
    rw [Finset.sum_range_succ]
    rcases Nat.lt_succ_iff_lt_or_eq.1 hj with h | rfl
    · have hsplit : f n * 2 ^ (n * w) = f n * 2 ^ ((n - j - 1) * w) * 2 ^ w * 2 ^ (j * w) := by
        rw [mul_assoc, mul_assoc, ← pow_add, ← pow_add]
        congr 2
        obtain ⟨d, rfl⟩ : ∃ d, n = j + 1 + d := ⟨n - j - 1, by omega⟩
        rw [show j + 1 + d - j - 1 = d by omega]
        ring
      rw [hsplit, Nat.add_mul_div_right _ _ (by positivity), Nat.add_mul_mod_self_right]
      exact ih (fun i hi => hf i (by omega)) h
    · rw [Nat.add_mul_div_right _ _ (by positivity), Nat.div_eq_of_lt hlow, Nat.zero_add, Nat.mod_eq_of_lt (hf _ hj)]

theorem foldl_digits (n : Nat) (f : Nat → Nat) : (List.range n).foldl (fun a i => a + f i * 2 ^ i) 0 = ∑ i ∈ Finset.range n, f i * 2 ^ (i * 1) := by
  induction n with
  | zero => rfl
  | succ n ih => rw [List.range_succ, List.foldl_append, ih, Finset.sum_range_succ, Nat.mul_one]; rfl

/-! ## One element in its unit (R59) -/

/-- A float value stands for an exact value of which a block encodes the magnitude: it rounds as that does in every unit in which it is
small, and lies beyond every magnitude of a block otherwise. -/
def PbStands : FVal → Option Exact → Prop
  | .nan, x => x = none ∨ x = some .nan
  | .inf neg, x => x = some (.inf neg)
  | .fin neg m e, x => ∃ y : ℝ, x = some (.num neg y) ∧ (y = 0 ↔ m = 0) ∧ ∀ (rm : Rm) (q : Int),
      (Rounds rm neg (y / 2 ^ q) (roundUnit rm neg m e q false).1 ∧
        ((roundUnit rm neg m e q false).2 = false ↔ y = (roundUnit rm neg m e q false).1 * (2 : ℝ) ^ q)) ∨
      (128 ≤ (roundUnit rm neg m e q false).1 ∧ 128 ≤ y / 2 ^ q)

theorem pbStands_exact (v : FVal) : PbStands v (some (Exact.of v)) := by
  cases v with
  | nan => exact .inr rfl
  | inf neg => rfl
  | fin neg m e =>
    refine ⟨_, rfl, zpow_mul_eq_zero, fun rm q => .inl ?_⟩
    obtain ⟨hr, hexact⟩ := roundUnit_rounds rm neg (standsAt_exact m e) (q := q) fun h => absurd h Bool.false_ne_true
    refine ⟨hr, hexact.trans ⟨?_, fun h => ⟨_, h⟩⟩⟩
    rintro ⟨n, hn⟩
    rw [hn, mul_div_cancel_right₀ _ (show (2 : ℝ) ^ q ≠ 0 by positivity)] at hr
    rw [hn, ← rounds_nat hr]

/-- The unit of an element, and what the statements say of it: its rounded magnitude, and that it fits. -/
noncomputable def pbUnit (t : Ty) (e mu : Nat) : ℝ := (2 : ℝ) ^ ((e : Int) - 127 - mu - (t.pbMag - 1 : Nat))
def PbMag (t : Ty) (rm : Rm) (x : Option Exact) (e mu n : Nat) : Prop := ∃ neg y, x = some (.num neg y) ∧ Rounds rm neg (y / pbUnit t e mu) n
def PbFit (t : Ty) (rm : Rm) (x : Option Exact) (e mu : Nat) : Prop := ∃ n, n < 2 ^ t.pbMag ∧ PbMag t rm x e mu n

theorem Ty.pbMag_le (t : Ty) : 2 ^ t.pbMag ≤ 128 := by cases t <;> decide

section Element
variable {t : Ty} {rm : Rm} {v : FVal} {x : Option Exact}

theorem pbMag_of_fits (hs : PbStands v x) {e mu : Nat} (hf : pbFits t rm e mu v = true) :
    PbMag t rm x e mu (pbM t rm e mu v).1 ∧ ∀ neg y, x = some (.num neg y) → ((pbM t rm e mu v).2 = false ↔ y = (pbM t rm e mu v).1 * pbUnit t e mu) := by
  have hle := t.pbMag_le
  rw [pbFits, decide_eq_true_eq] at hf
  cases v with
  | nan => exact absurd hf (lt_irrefl _)
  | inf neg => exact absurd hf (lt_irrefl _)
  | fin neg m k =>
    obtain ⟨y, hx, -, hround⟩ := hs
    rcases hround rm ((e : Int) - 127 - mu - (t.pbMag - 1 : Nat)) with ⟨h1, h2⟩ | ⟨h, -⟩
    · refine ⟨⟨neg, y, hx, h1⟩, fun neg' y' hx' => ?_⟩
      rw [hx] at hx'
      cases hx'
      exact h2
    · exact absurd (lt_of_lt_of_le hf hle) (not_lt.2 h)

/-- An element fits where its rounded magnitude does. -/
theorem pbFits_iff (hs : PbStands v x) (e mu : Nat) : pbFits t rm e mu v = true ↔ PbFit t rm x e mu := by
  have hle := t.pbMag_le
  constructor
  · exact fun h => ⟨_, by simpa [pbFits] using h, (pbMag_of_fits hs h).1⟩
  · rintro ⟨n, hn, neg, y, hx, hr⟩
    rw [pbFits, decide_eq_true_eq]
    cases v with
    | nan => rcases hs with h | h <;> rw [h] at hx <;> cases hx
    | inf neg' => rw [PbStands] at hs; rw [hs] at hx; cases hx
    | fin neg' m k =>
      obtain ⟨y', hx', -, hround⟩ := hs
      rw [hx] at hx'
      cases hx'
      rcases hround rm ((e : Int) - 127 - mu - (t.pbMag - 1 : Nat)) with ⟨h1, -⟩ | ⟨-, h⟩
      · rw [pbM, rounds_unique h1 hr]; exact hn
      · have := rounds_le_of_le hr (a := 128) (by exact_mod_cast h)
        omega

/-- A magnitude rounds to zero where its value does. -/
theorem pbM_zero_iff (hs : PbStands v x) (e mu : Nat) : ((pbM t rm e mu v).1 = 0 ∧ v.isInf = false) ↔ PbMag t rm x e mu 0 := by
  have hpos : 0 < 2 ^ t.pbMag := by positivity
  constructor
  · rintro ⟨h0, -⟩
    rw [← h0]
    exact (pbMag_of_fits hs (by rw [pbFits, h0]; exact decide_eq_true hpos)).1
  · intro hm
    have hf := (pbFits_iff hs e mu).2 ⟨0, hpos, hm⟩
    obtain ⟨⟨neg, y, hx, hr⟩, -⟩ := pbMag_of_fits hs hf
    obtain ⟨neg', y', hx', hr'⟩ := hm
    rw [hx] at hx'
    cases hx'
    refine ⟨rounds_unique hr hr', ?_⟩
    cases v with
    | nan => rfl
    | inf a => rw [PbStands] at hs; rw [hs] at hx; cases hx
    | fin a m k => rfl

theorem pbStands_nan (hs : PbStands v x) : v.isNan = true ↔ x = none ∨ x = some .nan := by
  cases v with
  | nan => exact iff_of_true rfl hs
  | inf neg => rw [PbStands] at hs; rw [hs]; exact iff_of_false Bool.false_ne_true (by simp)
  | fin neg m k =>
    obtain ⟨y, hx, -⟩ := hs
    rw [hx]
    exact iff_of_false Bool.false_ne_true (by simp)

theorem pbStands_zero (hs : PbStands v x) {neg : Bool} {y : ℝ} (hx : x = some (.num neg y)) : v.isZero = true ↔ y = 0 := by
  cases v with
  | nan => rcases hs with h | h <;> rw [h] at hx <;> cases hx
  | inf neg' => rw [PbStands] at hs; rw [hs] at hx; cases hx
  | fin neg' m k =>
    obtain ⟨y', hx', h0, -⟩ := hs
    rw [hx] at hx'
    cases hx'
    rw [h0]
    cases m <;> simp [FVal.isZero]

/-- The sign that a block keeps of an element. -/
def pbNeg : FVal → Bool
  | .fin n _ _ => n
  | .inf n => n
  | .nan => false

theorem pbNeg_iff (hs : PbStands v x) : pbNeg v = true ↔ x = some (.inf true) ∨ ∃ y, x = some (.num true y) := by
  cases v with
  | nan => rcases hs with h | h <;> rw [h] <;> exact iff_of_false Bool.false_ne_true (by simp)
  | inf neg => rw [PbStands] at hs; rw [hs]; simp [pbNeg]
  | fin neg m k =>
    obtain ⟨y, hx, -⟩ := hs
    rw [hx]
    simp [pbNeg]

/-- What a block holds of an element: its sign, and its magnitude, or the largest where it does not fit. -/
theorem pbWrite_eq (t : Ty) (rm : Rm) (e mu : Nat) (v : FVal) : pbWrite t rm e mu v =
    if pbFits t rm e mu v then ((if pbNeg v then 2 ^ t.pbMag else 0) + (pbM t rm e mu v).1, if (pbM t rm e mu v).2 then 1 else 0)
    else ((if pbNeg v then 2 ^ t.pbMag else 0) + (2 ^ t.pbMag - 1), 5) := by
  simp only [pbFits, decide_eq_true_eq]
  cases v <;> rfl

theorem pbWrite_parts (t : Ty) (rm : Rm) (e mu : Nat) (v : FVal) :
    (pbWrite t rm e mu v).1 % 2 ^ t.pbMag = (if pbFits t rm e mu v then (pbM t rm e mu v).1 else 2 ^ t.pbMag - 1) ∧
    (pbWrite t rm e mu v).1 / 2 ^ t.pbMag = (if pbNeg v then 1 else 0) ∧ (pbWrite t rm e mu v).1 < 2 ^ (t.pbMag + 1) := by
  have hpos : 0 < 2 ^ t.pbMag := by positivity
  have key {r : Nat} (hr : r < 2 ^ t.pbMag) (neg : Bool) : ((if neg then 2 ^ t.pbMag else 0) + r) % 2 ^ t.pbMag = r ∧
      ((if neg then 2 ^ t.pbMag else 0) + r) / 2 ^ t.pbMag = (if neg then 1 else 0) ∧
      (if neg then 2 ^ t.pbMag else 0) + r < 2 ^ (t.pbMag + 1) := by
    rw [pow_succ]
    cases neg with
    | false => simp [Nat.mod_eq_of_lt hr, Nat.div_eq_of_lt hr]; omega
    | true => simp [Nat.mod_eq_of_lt hr, Nat.div_eq_of_lt hr, Nat.add_div_left _ hpos]; omega
  rw [pbWrite_eq]
  by_cases hf : pbFits t rm e mu v = true
  · rw [if_pos hf, if_pos hf]
    exact key (by simpa [pbFits] using hf) _
  · rw [if_neg hf, if_neg hf]
    exact key (by omega) _

end Element

end Sys2Proof.Machine

/-! PROOFS. A whole pb block (O24, O30; R57 to R62). -/

namespace Sys2Proof.Machine

/-! ## Statuses of a block -/

theorem foldl_or_overflow {l : List Nat} {f : Nat → BitVec 4} (h : ∀ i ∈ l, f i = 0 ∨ f i = 1 ∨ f i = 5) (h5 : ∃ i ∈ l, f i = 5) :
    l.foldl (fun a i => a ||| f i) 0 = 5 := by
  refine BitVec.eq_of_getLsbD_eq fun n hn => Bool.eq_iff_iff.2 ?_
  refine (bit_foldl_or l f 0 n).trans ⟨?_, fun hb => ?_⟩
  · rintro (h0 | ⟨i, hi, hb⟩)
    · rw [bit4_zero] at h0; cases h0
    · rcases h i hi with e | e | e <;> rw [e] at hb <;> clear e <;> revert hb <;> interval_cases n <;> decide
  · obtain ⟨i, hi, h5⟩ := h5
    exact .inr ⟨i, hi, by rw [h5]; exact hb⟩

theorem foldl_or_inexact {l : List Nat} {f : Nat → BitVec 4} {P : Nat → Prop} (h : ∀ i ∈ l, (P i → f i = 1) ∧ (¬ P i → f i = 0)) :
    ((∃ i ∈ l, P i) → l.foldl (fun a i => a ||| f i) 0 = 1) ∧ ((¬ ∃ i ∈ l, P i) → l.foldl (fun a i => a ||| f i) 0 = 0) := by
  constructor
  · rintro ⟨i, hi, hP⟩
    refine BitVec.eq_of_getLsbD_eq fun n hn => Bool.eq_iff_iff.2 ?_
    refine (bit_foldl_or l f 0 n).trans ⟨?_, fun hb => .inr ⟨i, hi, by rw [(h i hi).1 hP]; exact hb⟩⟩
    rintro (h0 | ⟨k, hk, hb⟩)
    · rw [bit4_zero] at h0; cases h0
    · by_cases hPk : P k
      · rw [(h k hk).1 hPk] at hb; exact hb
      · rw [(h k hk).2 hPk, bit4_zero] at hb; cases hb
  · intro hno
    refine BitVec.eq_of_getLsbD_eq fun n hn => Bool.eq_iff_iff.2 ?_
    refine (bit_foldl_or l f 0 n).trans ⟨?_, fun hb => absurd hb (by simp)⟩
    rintro (h0 | ⟨k, hk, hb⟩)
    · rw [bit4_zero] at h0; cases h0
    · rw [(h k hk).2 fun hP => hno ⟨k, hk, hP⟩, bit4_zero] at hb; cases hb

/-! ## The parts of an encoded block -/

/-- The elements of a block, of which the first `k` count. -/
def pbSlots (k : Nat) (v : Nat → FVal) : List (Option FVal) := (List.range 16).map fun j => if j < k then some (v j) else none

theorem mem_pbSlots {k : Nat} (hk : k ≤ 16) (v : Nat → FVal) (y : FVal) : y ∈ (pbSlots k v).filterMap id ↔ ∃ j, j < k ∧ v j = y := by
  simp only [pbSlots, List.mem_filterMap, List.mem_map, List.mem_range, id, exists_eq_right]
  constructor
  · rintro ⟨j, -, h⟩
    split at h
    · exact ⟨j, ‹_›, Option.some.inj h⟩
    · cases h
  · rintro ⟨j, hj, rfl⟩
    exact ⟨j, by omega, if_pos hj⟩

/-- The micro-exponent of a pair of elements. -/
def pbMicro (t : Ty) (rm : Rm) (e : Nat) (xs : List (Option FVal)) (p : Nat) : Nat :=
  let pr := ((xs.drop (2 * p)).take 2).filterMap id
  if !pr.isEmpty && pr.all (pbFits t rm e 1) then 1 else 0

theorem pbMicro_iff (t : Ty) (rm : Rm) (e : Nat) (k : Nat) (v : Nat → FVal) {p : Nat} (hp : p < 8) :
    pbMicro t rm e (pbSlots k v) p = 1 ↔ 2 * p < k ∧ ∀ j, j / 2 = p → j < k → pbFits t rm e 1 (v j) = true := by
  have hpair : ((pbSlots k v).drop (2 * p)).take 2 =
      [if 2 * p < k then some (v (2 * p)) else none, if 2 * p + 1 < k then some (v (2 * p + 1)) else none] := by
    rw [pbSlots, ← List.map_drop, ← List.map_take]
    interval_cases p <;> rfl
  have hjs (P : Nat → Prop) : (∀ j, j / 2 = p → j < k → P j) ↔ (2 * p < k → P (2 * p)) ∧ (2 * p + 1 < k → P (2 * p + 1)) := by
    constructor
    · exact fun h => ⟨h _ (by omega), h _ (by omega)⟩
    · rintro ⟨h0, h1⟩ j hj hlt
      obtain rfl | rfl : j = 2 * p ∨ j = 2 * p + 1 := by omega
      · exact h0 hlt
      · exact h1 hlt
  rw [pbMicro, hpair, hjs fun j => pbFits t rm e 1 (v j) = true]
  by_cases h0 : 2 * p < k
  · by_cases h1 : 2 * p + 1 < k
    · simp [h0, h1]
    · simp [h0, h1]
  · simp [h0, show ¬ 2 * p + 1 < k by omega]

theorem pbMicro_le (t : Ty) (rm : Rm) (e : Nat) (xs : List (Option FVal)) (p : Nat) : pbMicro t rm e xs p < 2 := by
  rw [pbMicro]
  split <;> omega

/-- The exponent of a block: the smallest from 1 to 254 at which every element fits, or 254. -/
theorem pbFirst_spec (t : Ty) (rm : Rm) (vs : List FVal) (n e : Nat) :
    (∀ k, pbFirst t rm vs n e = some k → e ≤ k ∧ k < e + n ∧ vs.all (pbFits t rm k 0) = true ∧ ∀ i, e ≤ i → i < k → vs.all (pbFits t rm i 0) = false) ∧
    (pbFirst t rm vs n e = none → ∀ i, e ≤ i → i < e + n → vs.all (pbFits t rm i 0) = false) := by
  induction n generalizing e with
  | zero => exact ⟨fun k h => (by cases h), fun _ i h1 h2 => by omega⟩
  | succ n ih =>
    rw [pbFirst]
    obtain ⟨ih1, ih2⟩ := ih (e + 1)
    by_cases hf : vs.all (pbFits t rm e 0) = true
    · rw [if_pos hf]
      refine ⟨fun k h => ?_, fun h => by cases h⟩
      cases h
      exact ⟨le_rfl, by omega, hf, fun i h1 h2 => by omega⟩
    · rw [if_neg hf]
      have low (i : Nat) (h1 : e ≤ i) (h2 : ¬ e + 1 ≤ i) : vs.all (pbFits t rm i 0) = false := by
        obtain rfl : i = e := by omega
        simpa using hf
      refine ⟨fun k h => ?_, fun h i h1 h2 => ?_⟩
      · obtain ⟨k1, k2, k3, k4⟩ := ih1 k h
        exact ⟨by omega, by omega, k3, fun i h1 h2 => by
          by_cases h3 : e + 1 ≤ i
          · exact k4 i h3 h2
          · exact low i h1 h3⟩
      · by_cases h3 : e + 1 ≤ i
        · exact ih2 h i h3 (by omega)
        · exact low i h1 h3

def pbExponent (t : Ty) (rm : Rm) (vs : List FVal) : Nat := (pbFirst t rm vs 254 1).getD 254

theorem pbExponent_spec (t : Ty) (rm : Rm) (vs : List FVal) : 1 ≤ pbExponent t rm vs ∧ pbExponent t rm vs ≤ 254 ∧
    (pbExponent t rm vs = 254 ∨ vs.all (pbFits t rm (pbExponent t rm vs) 0) = true) ∧
    ∀ i, 1 ≤ i → i < pbExponent t rm vs → vs.all (pbFits t rm i 0) = false := by
  obtain ⟨h1, h2⟩ := pbFirst_spec t rm vs 254 1
  rw [pbExponent]
  cases hf : pbFirst t rm vs 254 1 with
  | none => exact ⟨by decide, le_rfl, .inl rfl, fun i i1 i2 => h2 hf i i1 (by simp at i2; omega)⟩
  | some k =>
    obtain ⟨k1, k2, k3, k4⟩ := h1 k hf
    exact ⟨k1, by simp; omega, .inr k3, k4⟩

/-- Element `j` of a block and its status; padding gives zeros. -/
def pbSlot (t : Ty) (rm : Rm) (e : Nat) (xs : List (Option FVal)) (j : Nat) (x : Option FVal) : Nat × BitVec 4 :=
  match x with
  | none => (0, 0)
  | some x => pbWrite t rm e (pbMicro t rm e xs (j / 2)) x

/-- The elements of a list written one after the other. -/
theorem foldl_slots {α : Type} (w n : Nat) (F : Nat → α) (g : Nat → α → Nat × BitVec 4) (step : Nat × BitVec 4 → α × Nat → Nat × BitVec 4)
    (hstep : ∀ a x i, step a (x, i) = (a.1 + (g i x).1 * 2 ^ (i * w), a.2 ||| (g i x).2)) :
    ((List.range n).map F).zipIdx.foldl step (0, 0) =
      (∑ i ∈ Finset.range n, (g i (F i)).1 * 2 ^ (i * w), (List.range n).foldl (fun a i => a ||| (g i (F i)).2) 0) := by
  induction n with
  | zero => rfl
  | succ n ih =>
    rw [List.range_succ, List.map_append, List.zipIdx_append, List.foldl_append, ih, List.foldl_append, Finset.sum_range_succ]
    simp [hstep]

/-- One element more of a block under construction. -/
def pbStep (t : Ty) (rm : Rm) (e : Nat) (xs : List (Option FVal)) (a : Nat × BitVec 4) (p : Option FVal × Nat) : Nat × BitVec 4 :=
  match p.1 with
  | none => a
  | some x =>
    let w := pbWrite t rm e (pbMicro t rm e xs (p.2 / 2)) x
    (a.1 + w.1 * 2 ^ (p.2 * (t.pbMag + 1)), a.2 ||| w.2)

/-- A block of exponent `e`. -/
def pbBlock (t : Ty) (rm : Rm) (xs : List (Option FVal)) (e : Nat) : Nat × BitVec 4 :=
  let els := xs.zipIdx.foldl (pbStep t rm e xs) (0, 0)
  (e + 256 * (List.range 8).foldl (fun a p => a + pbMicro t rm e xs p * 2 ^ p) 0 + 65536 * els.1, els.2)

theorem pbEncode_eq (t : Ty) (rm : Rm) (xs : List (Option FVal)) : pbEncode t rm xs =
    if (xs.filterMap id).any FVal.isNan then (255, 8)
    else if (xs.filterMap id).all fun x => (pbM t rm 1 0 x).1 = 0 && !x.isInf then (0, if (xs.filterMap id).any fun x => !x.isZero then 1 else 0)
    else pbBlock t rm xs (pbExponent t rm (xs.filterMap id)) := rfl

/-- Element `j` of a block of which the first `k` elements count. -/
def pbDigit (t : Ty) (rm : Rm) (e k : Nat) (v : Nat → FVal) (j : Nat) : Nat × BitVec 4 :=
  pbSlot t rm e (pbSlots k v) j (if j < k then some (v j) else none)

theorem pbBlock_eq (t : Ty) (rm : Rm) (e k : Nat) (v : Nat → FVal) : pbBlock t rm (pbSlots k v) e =
    (e + 256 * (∑ p ∈ Finset.range 8, pbMicro t rm e (pbSlots k v) p * 2 ^ (p * 1)) +
      65536 * ∑ j ∈ Finset.range 16, (pbDigit t rm e k v j).1 * 2 ^ (j * (t.pbMag + 1)),
      (List.range 16).foldl (fun a j => a ||| (pbDigit t rm e k v j).2) 0) := by
  have hstep (a : Nat × BitVec 4) (x : Option FVal) (i : Nat) : pbStep t rm e (pbSlots k v) a (x, i) =
      (a.1 + (pbSlot t rm e (pbSlots k v) i x).1 * 2 ^ (i * (t.pbMag + 1)), a.2 ||| (pbSlot t rm e (pbSlots k v) i x).2) := by
    cases x <;> simp [pbStep, pbSlot]
  have hfold : (pbSlots k v).zipIdx.foldl (pbStep t rm e (pbSlots k v)) (0, 0) =
      (∑ j ∈ Finset.range 16, (pbDigit t rm e k v j).1 * 2 ^ (j * (t.pbMag + 1)), (List.range 16).foldl (fun a j => a ||| (pbDigit t rm e k v j).2) 0) :=
    foldl_slots (t.pbMag + 1) 16 (fun j => if j < k then some (v j) else none) (pbSlot t rm e (pbSlots k v)) _ hstep
  simp only [pbBlock, hfold, foldl_digits]

end Sys2Proof.Machine

/-! PROOFS. What an encoded pb block is (O24, O30; R57 to R62). -/

namespace Sys2Proof.Machine

/-- The fields of a number of 8 bits, 8 digits of one bit and a rest. -/
theorem block_fields {e a b : Nat} (he : e < 256) (ha : a < 256) : (e + 256 * a + 65536 * b) % 256 = e ∧
    (∀ p, p < 8 → (e + 256 * a + 65536 * b) / 2 ^ (8 + p) % 2 = a / 2 ^ p % 2) ∧
    ∀ i, (e + 256 * a + 65536 * b) / 2 ^ (16 + i) = b / 2 ^ i := by
  refine ⟨by omega, fun p hp => ?_, fun i => ?_⟩
  · rw [pow_add, ← Nat.div_div_eq_div_mul, show (e + 256 * a + 65536 * b) / 2 ^ 8 = a + 256 * b by omega]
    interval_cases p <;> omega
  · rw [pow_add, ← Nat.div_div_eq_div_mul, show (e + 256 * a + 65536 * b) / 2 ^ 16 = b by omega]

/-- An element of a block differs from its value. -/
def PbLost (t : Ty) (x : Option Exact) (e mu el : Nat) : Prop := ∃ neg y, x = some (.num neg y) ∧ y ≠ (el % 2 ^ t.pbMag : Nat) * pbUnit t e mu

section Block
variable {t : Ty} {rm : Rm} {k : Nat} {v : Nat → FVal} {x : Nat → Option Exact}

theorem pbDigit_pad {e j : Nat} (h : k ≤ j) : pbDigit t rm e k v j = (0, 0) := by rw [pbDigit, if_neg (not_lt.2 h)]; rfl

theorem pbDigit_some {e j : Nat} (h : j < k) : pbDigit t rm e k v j = pbWrite t rm e (pbMicro t rm e (pbSlots k v) (j / 2)) (v j) := by
  rw [pbDigit, if_pos h]; rfl

theorem pbDigit_lt (e j : Nat) : (pbDigit t rm e k v j).1 < 2 ^ (t.pbMag + 1) := by
  rcases Nat.lt_or_ge j k with h | h
  · rw [pbDigit_some h]; exact (pbWrite_parts ..).2.2
  · rw [pbDigit_pad h]; positivity

/-- The exponent, the micro-exponents and the elements of a block. -/
theorem pbBlock_fields {e : Nat} (he : e < 256) : (pbBlock t rm (pbSlots k v) e).1 % 256 = e ∧
    (∀ p, p < 8 → (pbBlock t rm (pbSlots k v) e).1 / 2 ^ (8 + p) % 2 = pbMicro t rm e (pbSlots k v) p) ∧
    ∀ j, j < 16 → (pbBlock t rm (pbSlots k v) e).1 / 2 ^ (16 + j * (t.pbMag + 1)) % 2 ^ (t.pbMag + 1) = (pbDigit t rm e k v j).1 := by
  have hmu : ∀ p, p < 8 → pbMicro t rm e (pbSlots k v) p < 2 ^ 1 := fun p _ => pbMicro_le ..
  obtain ⟨h1, h2, h3⟩ := block_fields he (sum_digits_lt hmu) (b := ∑ j ∈ Finset.range 16, (pbDigit t rm e k v j).1 * 2 ^ (j * (t.pbMag + 1)))
  rw [pbBlock_eq]
  refine ⟨h1, fun p hp => ?_, fun j hj => ?_⟩
  · rw [h2 p hp]
    simpa using sum_digits hmu hp
  · rw [h3]
    exact sum_digits (fun i _ => pbDigit_lt e i) hj

variable (hs : ∀ j, j < k → PbStands (v j) (x j))
include hs

/-- The elements of a block of exponent `e`: the rounded magnitude where it fits, and the largest elsewhere, with the sign. -/
theorem pbDigit_element {e j : Nat} (hj : j < k) :
    (PbFit t rm (x j) e (pbMicro t rm e (pbSlots k v) (j / 2)) →
      PbMag t rm (x j) e (pbMicro t rm e (pbSlots k v) (j / 2)) ((pbDigit t rm e k v j).1 % 2 ^ t.pbMag)) ∧
    (¬ PbFit t rm (x j) e (pbMicro t rm e (pbSlots k v) (j / 2)) → (pbDigit t rm e k v j).1 % 2 ^ t.pbMag = 2 ^ t.pbMag - 1) ∧
    ((pbDigit t rm e k v j).1 / 2 ^ t.pbMag = 1 ↔ x j = some (.inf true) ∨ ∃ y, x j = some (.num true y)) := by
  rw [pbDigit_some hj]
  obtain ⟨h1, h2, -⟩ := pbWrite_parts t rm e (pbMicro t rm e (pbSlots k v) (j / 2)) (v j)
  rw [h1, h2, ← pbFits_iff (hs j hj), ← pbNeg_iff (hs j hj)]
  refine ⟨fun h => ?_, fun h => by rw [if_neg h], ?_⟩
  · rw [if_pos h]
    exact (pbMag_of_fits (hs j hj) h).1
  · cases pbNeg (v j) <;> simp

/-- The status of an element: overflow where it fits nowhere, and otherwise inexact where it differs from its value. -/
theorem pbDigit_status {e j : Nat} (hj : j < k) :
    (¬ PbFit t rm (x j) e (pbMicro t rm e (pbSlots k v) (j / 2)) → (pbDigit t rm e k v j).2 = 5) ∧
    (PbFit t rm (x j) e (pbMicro t rm e (pbSlots k v) (j / 2)) →
      (PbLost t (x j) e (pbMicro t rm e (pbSlots k v) (j / 2)) (pbDigit t rm e k v j).1 → (pbDigit t rm e k v j).2 = 1) ∧
      (¬ PbLost t (x j) e (pbMicro t rm e (pbSlots k v) (j / 2)) (pbDigit t rm e k v j).1 → (pbDigit t rm e k v j).2 = 0)) := by
  generalize hmu : pbMicro t rm e (pbSlots k v) (j / 2) = mu
  have hd : (pbDigit t rm e k v j) = pbWrite t rm e mu (v j) := by rw [pbDigit_some hj, hmu]
  rw [← pbFits_iff (hs j hj), hd, PbLost, (pbWrite_parts ..).1, pbWrite_eq]
  refine ⟨fun h => by rw [if_neg h], fun hf => ?_⟩
  obtain ⟨⟨neg, y, hx, -⟩, hex⟩ := pbMag_of_fits (hs j hj) hf
  have hex := hex neg y hx
  rw [if_pos hf, if_pos hf]
  generalize pbM t rm e mu (v j) = r at *
  cases hr : r.2 with
  | false =>
    refine ⟨?_, fun _ => rfl⟩
    rintro ⟨neg', y', hx', hne⟩
    rw [hx] at hx'
    cases hx'
    exact absurd (hex.1 hr) hne
  | true =>
    refine ⟨fun _ => rfl, fun hno => absurd ⟨neg, y, hx, fun h => ?_⟩ hno⟩
    rw [hex.2 h] at hr
    cases hr

variable (hk : k ≤ 16)
include hk

/-- The status of a block is that of its elements. -/
theorem pbBlock_status (e : Nat) :
    ((∃ j, j < k ∧ ¬ PbFit t rm (x j) e (pbMicro t rm e (pbSlots k v) (j / 2))) → (pbBlock t rm (pbSlots k v) e).2 = 5) ∧
    ((∀ j, j < k → PbFit t rm (x j) e (pbMicro t rm e (pbSlots k v) (j / 2))) →
      ((∃ j, j < k ∧ PbLost t (x j) e (pbMicro t rm e (pbSlots k v) (j / 2)) (pbDigit t rm e k v j).1) →
        (pbBlock t rm (pbSlots k v) e).2 = 1) ∧
      ((¬ ∃ j, j < k ∧ PbLost t (x j) e (pbMicro t rm e (pbSlots k v) (j / 2)) (pbDigit t rm e k v j).1) →
        (pbBlock t rm (pbSlots k v) e).2 = 0)) := by
  rw [pbBlock_eq]
  constructor
  · rintro ⟨j, hj, hno⟩
    refine foldl_or_overflow (fun i _ => ?_) ⟨j, List.mem_range.2 (by omega), (pbDigit_status hs hj).1 hno⟩
    rcases Nat.lt_or_ge i k with h | h
    · obtain ⟨h5, h01⟩ := pbDigit_status (t := t) (rm := rm) (e := e) hs h
      by_cases hf : PbFit t rm (x i) e (pbMicro t rm e (pbSlots k v) (i / 2))
      · by_cases hl : PbLost t (x i) e (pbMicro t rm e (pbSlots k v) (i / 2)) (pbDigit t rm e k v i).1
        · exact .inr (.inl ((h01 hf).1 hl))
        · exact .inl ((h01 hf).2 hl)
      · exact .inr (.inr (h5 hf))
    · rw [pbDigit_pad h]; exact .inl rfl
  · intro hall
    obtain ⟨h1, h0⟩ := foldl_or_inexact (l := List.range 16) (f := fun j => (pbDigit t rm e k v j).2)
      (P := fun j => j < k ∧ PbLost t (x j) e (pbMicro t rm e (pbSlots k v) (j / 2)) (pbDigit t rm e k v j).1) fun i _ => by
        refine ⟨fun ⟨h, hl⟩ => ((pbDigit_status hs h).2 (hall i h)).1 hl, fun hno => ?_⟩
        rcases Nat.lt_or_ge i k with h | h
        · exact ((pbDigit_status hs h).2 (hall i h)).2 fun hl => hno ⟨h, hl⟩
        · rw [pbDigit_pad h]
    exact ⟨fun ⟨j, hj, hl⟩ => h1 ⟨j, List.mem_range.2 (by omega), hj, hl⟩, fun hno => h0 fun ⟨j, _, hj, hl⟩ => hno ⟨j, hj, hl⟩⟩

theorem pbSlots_any_nan : ((pbSlots k v).filterMap id).any FVal.isNan = true ↔ ∃ j, j < k ∧ (x j = none ∨ x j = some .nan) := by
  simp only [List.any_eq_true, mem_pbSlots hk]
  constructor
  · rintro ⟨-, ⟨j, hj, rfl⟩, hn⟩
    exact ⟨j, hj, (pbStands_nan (hs j hj)).1 hn⟩
  · rintro ⟨j, hj, hx⟩
    exact ⟨_, ⟨j, hj, rfl⟩, (pbStands_nan (hs j hj)).2 hx⟩

theorem pbSlots_all_fit (e : Nat) : ((pbSlots k v).filterMap id).all (pbFits t rm e 0) = true ↔ ∀ j, j < k → PbFit t rm (x j) e 0 := by
  simp only [List.all_eq_true, mem_pbSlots hk]
  constructor
  · exact fun h j hj => (pbFits_iff (hs j hj) e 0).1 (h _ ⟨j, hj, rfl⟩)
  · rintro h - ⟨j, hj, rfl⟩
    exact (pbFits_iff (hs j hj) e 0).2 (h j hj)

theorem pbSlots_all_small : ((pbSlots k v).filterMap id).all (fun x => (pbM t rm 1 0 x).1 = 0 && !x.isInf) = true ↔
    ∀ j, j < k → PbMag t rm (x j) 1 0 0 := by
  simp only [List.all_eq_true, mem_pbSlots hk, Bool.and_eq_true, decide_eq_true_eq, Bool.not_eq_true']
  constructor
  · exact fun h j hj => (pbM_zero_iff (hs j hj) 1 0).1 (h _ ⟨j, hj, rfl⟩)
  · rintro h - ⟨j, hj, rfl⟩
    exact (pbM_zero_iff (hs j hj) 1 0).2 (h j hj)

/-- A block of numbers that all round to zero. -/
theorem pbSlots_any_nonzero (hsmall : ∀ j, j < k → PbMag t rm (x j) 1 0 0) : ((pbSlots k v).filterMap id).any (fun x => !x.isZero) = true ↔
    ∃ j neg y, j < k ∧ x j = some (.num neg y) ∧ y ≠ 0 := by
  simp only [List.any_eq_true, mem_pbSlots hk, Bool.not_eq_true']
  constructor
  · rintro ⟨-, ⟨j, hj, rfl⟩, hz⟩
    obtain ⟨neg, y, hx, -⟩ := hsmall j hj
    exact ⟨j, neg, y, hj, hx, fun h0 => by rw [(pbStands_zero (hs j hj) hx).2 h0] at hz; cases hz⟩
  · rintro ⟨j, neg, y, hj, hx, hy⟩
    refine ⟨_, ⟨j, hj, rfl⟩, ?_⟩
    rw [← Bool.not_eq_true, pbStands_zero (hs j hj) hx]
    exact hy

/-- An encoded block is what R57 to R62 make of its values. -/
theorem pbEncode_is : PbIs t rm k x (pbEncode t rm (pbSlots k v)) := by
  rw [pbEncode_eq]
  have hodd := pbSlots_any_nan hs hk
  have hsmall := pbSlots_all_small (t := t) (rm := rm) hs hk
  by_cases odd : ∃ j, j < k ∧ (x j = none ∨ x j = some .nan)
  · rw [if_pos (hodd.2 odd)]
    exact ⟨fun _ => rfl, fun h => absurd odd h, fun h => absurd odd h⟩
  rw [if_neg (mt hodd.1 odd)]
  by_cases small : ∀ j, j < k → PbMag t rm (x j) 1 0 0
  · rw [if_pos (hsmall.2 small)]
    have hnz := pbSlots_any_nonzero hs hk small
    refine ⟨fun h => absurd h odd, fun _ _ => ⟨rfl, ?_, ?_⟩, fun _ h => absurd small h⟩
    · dsimp only; split <;> simp
    · rw [← hnz]
      dsimp only
      split
      next h => exact iff_of_true rfl h
      next h => exact iff_of_false (by decide) h
  rw [if_neg (mt hsmall.1 small)]
  refine ⟨fun h => absurd h odd, fun _ h => absurd h small, fun _ _ => ?_⟩
  obtain ⟨e1, e2, e3, e4⟩ := pbExponent_spec t rm ((pbSlots k v).filterMap id)
  simp only [pbSlots_all_fit hs hk, ← Bool.not_eq_true] at e3 e4
  generalize pbExponent t rm ((pbSlots k v).filterMap id) = e at *
  obtain ⟨f1, f2, f3⟩ := pbBlock_fields (t := t) (rm := rm) (k := k) (v := v) (show e < 256 by omega)
  have hmu (j : Nat) (hj : j < 16) : (pbBlock t rm (pbSlots k v) e).1 / 2 ^ (8 + j / 2) % 2 = pbMicro t rm e (pbSlots k v) (j / 2) :=
    f2 _ (by omega)
  obtain ⟨s1, s2⟩ := pbBlock_status (t := t) (rm := rm) hs hk e
  generalize pbBlock t rm (pbSlots k v) e = p at *
  rw [f1]
  have mu_eq {P : Nat → Prop} {j : Nat} (hj : j < k) : P (p.1 / 2 ^ (8 + j / 2) % 2) ↔ P (pbMicro t rm e (pbSlots k v) (j / 2)) := by
    rw [hmu j (by omega)]
  refine ⟨e1, e2, e3, fun i h1 h2 => ?_, fun b hb => ?_, fun j hj hkj => ?_, fun j hj => ?_, ?_, fun hall => ?_⟩
  · obtain ⟨j, hj⟩ := not_forall.1 (e4 i h1 h2)
    exact ⟨j, Classical.not_imp.1 hj⟩
  · show p.1 / 2 ^ (8 + 2 * b / 2) % 2 = 1 ↔ 2 * b < k ∧ ∀ j, j / 2 = b → j < k → PbFit t rm (x j) e 1
    rw [hmu (2 * b) (by omega), Nat.mul_div_cancel_left _ two_pos, pbMicro_iff t rm e k v hb]
    exact and_congr_right fun _ => forall_congr' fun j => forall_congr' fun _ => forall_congr' fun hj => pbFits_iff (hs j hj) e 1
  · exact (f3 j hj).trans (by rw [pbDigit_pad hkj])
  · beta_reduce
    rw [hmu j (by omega), f3 j (by omega)]
    exact pbDigit_element hs hj
  · rintro ⟨j, hj, hno⟩
    exact s1 ⟨j, hj, (mu_eq (P := fun mu => ¬ PbFit t rm (x j) e mu) hj).1 hno⟩
  · obtain ⟨l1, l0⟩ := s2 fun j hj => (mu_eq (P := PbFit t rm (x j) e) hj).1 (hall j hj)
    have lost_eq {j : Nat} (hj : j < k) (neg : Bool) (y : ℝ) :
        y ≠ (p.1 / 2 ^ (16 + j * (t.pbMag + 1)) % 2 ^ (t.pbMag + 1) % 2 ^ t.pbMag : Nat) * pbUnit t e (p.1 / 2 ^ (8 + j / 2) % 2) ↔
        y ≠ ((pbDigit t rm e k v j).1 % 2 ^ t.pbMag : Nat) * pbUnit t e (pbMicro t rm e (pbSlots k v) (j / 2)) := by
      rw [hmu j (by omega), f3 j (by omega)]
    exact ⟨fun ⟨j, neg, y, hj, hx, hne⟩ => l1 ⟨j, hj, neg, y, hx, (lost_eq hj neg y).1 hne⟩,
      fun hno => l0 fun ⟨j, hj, neg, y, hx, hne⟩ => hno ⟨j, neg, y, hj, hx, (lost_eq hj neg y).2 hne⟩⟩

end Block

end Sys2Proof.Machine

/-! PROOFS. Conversion commands (O24; R140 to R144). -/

namespace Sys2Proof.Machine

/-! ## A table of results written to a register -/

/-- A command that writes a table of results to a register, with their status. -/
theorem State.tableWrites (s : State) (i : Fin 16) (w : Nat) {r : Nat → Option (Nat × BitVec 4)} {on : Nat → Prop} [DecidablePred on]
    {p : Nat → Nat × BitVec 4} (hr : ∀ e, r e = if on e then some (p e) else none) :
    let t := (s.setVreg i (vput w (s.vreg i) ((tab (elems w) r).map fun x => x.map (·.1)))).performedWith (orStatus (tab (elems w) r)) 0
    VecFrame s (some i) none t ∧
    (∀ e, e < elems w → vget w (t.vreg i) e = if on e then (p e).1 % 2 ^ w else vget w (s.vreg i) e) ∧
    StatusGains s t (fun e => e < elems w ∧ on e) (fun e => (p e).2) := by
  intro t
  obtain ⟨hframe, hreg, hst⟩ := s.vecFrame_setVreg i (vput w (s.vreg i) ((tab (elems w) r).map fun x => x.map (·.1))) (orStatus (tab (elems w) r)) 0
  refine ⟨hframe, fun e he => (congrArg (vget w · e) hreg).trans ?_, fun j => ?_⟩
  · rw [vget_vput_tab _ he, hr]
    by_cases h : on e
    · rw [if_pos h, if_pos h]
    · rw [if_neg h, if_neg h]
  · show bit (State.performedWith _ _ 0).hand.status j = true ↔ _
    rw [hst, bit4_or, Bool.or_eq_true, bit_orStatus_tab]
    refine or_congr_right (exists_congr fun e => ?_)
    rw [hr, and_assoc]
    refine and_congr_right fun _ => ?_
    by_cases h : on e <;> simp [h]

/-- The results of a conversion: the elements of its destination slice that are enabled. -/
theorem sliceElem_result {α : Type} (f : CmdF) (s : State) (c e : Nat) (g : Nat → α) :
    (if enabled f s.handCtx.ps f.typ.width e then (sliceElem f c e).map g else none) =
      if enabled f s.handCtx.ps f.typ.width e = true ∧ e % f.typ.cols / c = cvtDst f then
        some (g (e / f.typ.cols * (CmdF_src f).cols + cvtSrc f * c + e % f.typ.cols % c)) else none := by
  rw [sliceElem]
  by_cases h1 : enabled f s.handCtx.ps f.typ.width e = true
  · by_cases h2 : e % f.typ.cols / c = cvtDst f <;> simp [h1, h2]
  · simp [h1]

theorem vCvt_converts (f : CmdF) (s : State) :
    let t := f.typ
    let u := CmdF_src f
    let a := s.vreg (f.v 1)
    let c := min t.cols u.cols
    let on (e : Nat) : Prop := e < elems t.width ∧ enabled f s.handCtx.ps t.width e = true
    ∃ p : Nat → Nat × BitVec 4, (∀ e, ConvertsTo u t f.rm f.sat (vget u.width a (e / t.cols * u.cols + cvtSrc f * c + e % t.cols % c)) (p e)) ∧
      Completes (.vCvt f) s fun v =>
        VecFrame s (some (f.v 0)) none v ∧
        (∀ e, e < elems t.width → vget t.width (v.vreg (f.v 0)) e =
          if enabled f s.handCtx.ps t.width e ∧ e % t.cols / c = cvtDst f then (p e).1 % 2 ^ t.width
          else vget t.width (s.vreg (f.v 0)) e) ∧
        StatusGains s v (fun e => on e ∧ e % t.cols / c = cvtDst f) (fun e => (p e).2) := by
  intro t u a c on
  obtain ⟨hframe, hval, hst⟩ := s.tableWrites (f.v 0) t.width fun e => sliceElem_result f s c e fun i => convertElem u t f.rm f.sat (vget u.width a i)
  refine ⟨_, fun e => convertElem_converts .., completes_of rfl ⟨hframe, hval, fun j => (hst j).trans ?_⟩⟩
  simp only [on, and_assoc]
  rfl

/-! ## Two registers (R142) -/

theorem State.setVreg_handCtx (s : State) (i : Fin 16) (v : VReg) : (s.setVreg i v).handCtx = { s.handCtx with vs := s.handCtx.vs.set i v } := by
  have hfh : (s.setVreg i v).fh = s.fh.setCtx s.hand.ctx { s.handCtx with vs := s.handCtx.vs.set i v } := s.fh_setFh _
  show (s.setVreg i v).fh.ctx (s.setVreg i v).fh.hand.ctx = _
  rw [hfh, Hearth.ctx_setCtx]
  exact if_pos rfl

/-- `State.gave` within the hearth. -/
def Hearth.gave (x : Hearth) (vs : Vector VReg 16) (ps : Vector PReg 8) (st : BitVec 4) (n : Nat) : Hearth :=
  { x with
    ctxs := x.ctxs.set x.hand.ctx { x.ctx x.hand.ctx with vs := vs, ps := ps }
    hand := { x.hand with performed := true, status := x.hand.status ||| st, bytes := x.hand.bytes + n } }

theorem State.gave_eq (s : State) (vs : Vector VReg 16) (ps : Vector PReg 8) (st : BitVec 4) (n : Nat) :
    s.gave vs ps st n = s.setFh (s.fh.gave vs ps st n) := rfl

theorem State.setVreg_gave (s : State) (i : Fin 16) (v : VReg) (vs : Vector VReg 16) (ps : Vector PReg 8) (st : BitVec 4) (n : Nat) :
    (s.setVreg i v).gave vs ps st n = s.gave vs ps st n := by
  have hfh : (s.setVreg i v).fh = s.fh.setCtx s.hand.ctx { s.handCtx with vs := s.handCtx.vs.set i v } := s.fh_setFh _
  rw [State.gave_eq, State.gave_eq, hfh]
  refine (s.setHearth_setHearth s.foc.h _ _).trans (congrArg _ ?_)
  simp [Hearth.gave, Hearth.setCtx, Hearth.ctx, State.handCtx, State.hand]

/-- A command that writes two registers. -/
theorem State.setVreg_setVreg_performedWith (s : State) {i k : Fin 16} (hik : i ≠ k) (x y : VReg) (st : BitVec 4) (n : Nat) :
    let t := ((s.setVreg i x).setVreg k y).performedWith st n
    OnlyHearth s.foc.h s t ∧ t.vreg i = x ∧ t.vreg k = y ∧ (∀ j, j ≠ i → j ≠ k → t.vreg j = s.vreg j) ∧
      t.hand.status = s.hand.status ||| st := by
  have ne {a b : Fin 16} (h : a ≠ b) : a.val ≠ b.val := fun h' => h (Fin.ext h')
  intro t
  have ht : t = s.gave ((s.handCtx.vs.set i x).set k y) s.handCtx.ps st n := by
    show State.performedWith _ _ _ = _
    rw [State.setVreg_performedWith, State.setVreg_gave, State.setVreg_handCtx]
  rw [ht]
  refine ⟨s.onlyHearth_gave .., ?_, ?_, fun j hi hk => ?_, by rw [State.gave_hand]⟩
  · rw [State.gave_vreg]
    exact (Vector.getElem_set_ne _ _ (ne hik.symm)).trans (Vector.getElem_set_self _)
  · rw [State.gave_vreg]
    exact Vector.getElem_set_self _
  · rw [State.gave_vreg]
    exact (Vector.getElem_set_ne _ _ (ne hk.symm)).trans (Vector.getElem_set_ne _ _ (ne hi.symm))

end Sys2Proof.Machine

/-! PROOFS. Narrowing with a residual, and packing and unpacking of pb blocks (O24; R142 to R144). -/

namespace Sys2Proof.Machine

/-! ## `v.cvtef` (R142) -/

theorem cols_le_elems (w : Nat) : 16 * (2048 / w) ≤ elems w := by
  rcases Nat.eq_zero_or_pos w with rfl | h
  · simp
  · rw [elems, Nat.le_div_iff_mul_le h]
    have := Nat.div_mul_le_self 2048 w
    linarith

/-- The element that feeds a residual lies in the destination slice. -/
theorem residual_slot {w c r q : Nat} (hc : c * 64 + 64 ≤ 2048 / w) (hr : r < 16) (hq : q < 64) :
    r * (2048 / w) + c * 64 + q < elems w ∧ (r * (2048 / w) + c * 64 + q) % (2048 / w) / 64 = c := by
  have hle := cols_le_elems w
  generalize 2048 / w = n at *
  have h1 : (r + 1) * n ≤ 16 * n := Nat.mul_le_mul_right _ hr
  rw [Nat.succ_mul] at h1
  refine ⟨by omega, ?_⟩
  rw [Nat.add_assoc, Nat.mul_comm, Nat.mul_add_mod, Nat.mod_eq_of_lt (by omega)]
  omega

section Cvtef
variable (f : CmdF) (s : State)

/-- The narrowed value of the source element that feeds an element of the destination slice, its residual and their status. -/
def narrowOf (e : Nat) : Nat × Nat × BitVec 4 := narrowEf (CmdF_src f) f.typ f.rm f.sat
  (vget (CmdF_src f).width (s.vreg (f.v 1)) (e / f.typ.cols * (CmdF_src f).cols + cvtSrc f * 64 + e % f.typ.cols % 64))

def narrowed (e : Nat) : Option (Nat × Nat × BitVec 4) :=
  if enabled f s.handCtx.ps f.typ.width e then
    (sliceElem f 64 e).map fun i => narrowEf (CmdF_src f) f.typ f.rm f.sat (vget (CmdF_src f).width (s.vreg (f.v 1)) i)
  else none

theorem narrowed_eq (e : Nat) : narrowed f s e =
    if enabled f s.handCtx.ps f.typ.width e = true ∧ e % f.typ.cols / 64 = cvtDst f then some (narrowOf f s e) else none :=
  sliceElem_result f s 64 e _

/-- The two registers that the command writes: the narrowed values over `v`, and the residuals over `v`. -/
def narrowedReg (v : VReg) : VReg := vput f.typ.width v ((tab (elems f.typ.width) (narrowed f s)).map fun x => x.map (·.1))
def residualReg (v : VReg) : VReg := vput 32 v (tab 1024 fun i =>
  (((tab (elems f.typ.width) (narrowed f s))[i / 64 * f.typ.cols + cvtDst f * 64 + i % 64]?).getD none).map fun x => x.2.1)

theorem vget_narrowedReg (v : VReg) {e : Nat} (he : e < elems f.typ.width) : vget f.typ.width (narrowedReg f s v) e =
    if enabled f s.handCtx.ps f.typ.width e = true ∧ e % f.typ.cols / 64 = cvtDst f then (narrowOf f s e).1 % 2 ^ f.typ.width
    else vget f.typ.width v e := by
  rw [narrowedReg, vget_vput _ _ he, tab_map, tab_getElem? _ he, narrowed_eq]
  by_cases h : enabled f s.handCtx.ps f.typ.width e = true ∧ e % f.typ.cols / 64 = cvtDst f
  · rw [if_pos h, if_pos h]; rfl
  · rw [if_neg h, if_neg h]; rfl

theorem vget_residualReg (v : VReg) (hc : cvtDst f * 64 + 64 ≤ f.typ.cols) {r q : Nat} (hr : r < 16) (hq : q < 64) :
    vget 32 (residualReg f s v) (r * 64 + q) =
      if enabled f s.handCtx.ps f.typ.width (r * f.typ.cols + cvtDst f * 64 + q) then
        (narrowOf f s (r * f.typ.cols + cvtDst f * 64 + q)).2.1 % 2 ^ 32
      else vget 32 v (r * 64 + q) := by
  have hi : r * 64 + q < 1024 := by omega
  obtain ⟨hlt, hslice⟩ := residual_slot (w := f.typ.width) hc hr hq
  have hlt : r * f.typ.cols + cvtDst f * 64 + q < elems f.typ.width := hlt
  have hslice : (r * f.typ.cols + cvtDst f * 64 + q) % f.typ.cols / 64 = cvtDst f := hslice
  rw [residualReg, vget_vput (w := 32) v _ hi, tab_getElem? _ hi, show (r * 64 + q) / 64 = r by omega,
    show (r * 64 + q) % 64 = q by omega, tab_getElem? _ hlt, Option.getD_some, Option.getD_some, narrowed_eq]
  by_cases h : enabled f s.handCtx.ps f.typ.width (r * f.typ.cols + cvtDst f * 64 + q) = true
  · rw [if_pos h, if_pos ⟨h, hslice⟩]; rfl
  · rw [if_neg h, if_neg fun h' => h h'.1]; rfl

theorem bit_narrowed_status (j : Nat) :
    bit (orStatus ((tab (elems f.typ.width) (narrowed f s)).map fun x => x.map fun y => (y.1, y.2.2))) j = true ↔
      ∃ e, (e < elems f.typ.width ∧ enabled f s.handCtx.ps f.typ.width e = true ∧ e % f.typ.cols / 64 = cvtDst f) ∧
        bit (narrowOf f s e).2.2 j = true := by
  rw [tab_map, bit_orStatus_tab]
  refine exists_congr fun e => ?_
  rw [narrowed_eq, and_assoc]
  refine and_congr_right fun _ => ?_
  by_cases h : enabled f s.handCtx.ps f.typ.width e = true ∧ e % f.typ.cols / 64 = cvtDst f <;> simp [h]

theorem exec_vCvtef (h : f.v 0 ≠ f.v 4) : exec (.vCvtef f) s = .next (((s.setVreg (f.v 0) (narrowedReg f s (s.vreg (f.v 0)))).setVreg (f.v 4)
    (residualReg f s (s.vreg (f.v 4)))).performedWith
    (orStatus ((tab (elems f.typ.width) (narrowed f s)).map fun x => x.map fun y => (y.1, y.2.2))) 0) := by
  have hold : (s.setVreg (f.v 0) (narrowedReg f s (s.vreg (f.v 0)))).vreg (f.v 4) = s.vreg (f.v 4) := by
    rw [State.vreg, State.setVreg_handCtx]
    exact Vector.getElem_set_ne (f.v 0).isLt (f.v 4).isLt fun h' => h (Fin.ext h')
  rw [← hold]
  rfl

end Cvtef

theorem vCvtef_narrows (f : CmdF) (s : State) :
    let t := f.typ
    let u := CmdF_src f
    let a := s.vreg (f.v 1)
    let on (e : Nat) : Prop := e < elems t.width ∧ enabled f s.handCtx.ps t.width e = true
    ∃ p : Nat → Nat × Nat × BitVec 4,
      (∀ e, NarrowsTo u t f.rm f.sat (vget u.width a (e / t.cols * u.cols + cvtSrc f * 64 + e % t.cols % 64)) (p e)) ∧
      (f.v 0 ≠ f.v 4 → cvtDst f * 64 + 64 ≤ t.cols → Completes (.vCvtef f) s fun v =>
        OnlyHearth s.foc.h s v ∧ (∀ i, i ≠ f.v 0 → i ≠ f.v 4 → v.vreg i = s.vreg i) ∧
        (∀ e, e < elems t.width → vget t.width (v.vreg (f.v 0)) e =
          if enabled f s.handCtx.ps t.width e ∧ e % t.cols / 64 = cvtDst f then (p e).1 % 2 ^ t.width
          else vget t.width (s.vreg (f.v 0)) e) ∧
        (∀ r q, r < 16 → q < 64 → vget 32 (v.vreg (f.v 4)) (r * 64 + q) =
          let e := r * t.cols + cvtDst f * 64 + q
          if enabled f s.handCtx.ps t.width e then (p e).2.1 % 2 ^ 32 else vget 32 (s.vreg (f.v 4)) (r * 64 + q)) ∧
        StatusGains s v (fun e => on e ∧ e % t.cols / 64 = cvtDst f) (fun e => (p e).2.2)) := by
  intro t u a on
  refine ⟨narrowOf f s, fun e => narrowEf_narrows .., fun hne hcols => completes_of (exec_vCvtef f s hne) ?_⟩
  obtain ⟨hframe, h0, h4, hother, hst⟩ := s.setVreg_setVreg_performedWith hne (narrowedReg f s (s.vreg (f.v 0)))
    (residualReg f s (s.vreg (f.v 4))) (orStatus ((tab (elems f.typ.width) (narrowed f s)).map fun x => x.map fun y => (y.1, y.2.2))) 0
  refine ⟨hframe, hother, fun e he => ?_, fun r q hr hq => ?_, fun j => ?_⟩
  · exact (congrArg (vget f.typ.width · e) h0).trans (vget_narrowedReg f s _ he)
  · exact (congrArg (vget 32 · (r * 64 + q)) h4).trans (vget_residualReg f s _ hcols hr hq)
  · show bit (State.performedWith _ _ 0).hand.status j = true ↔ _
    rw [hst, bit4_or, Bool.or_eq_true, bit_narrowed_status]
    simp only [on, and_assoc]
    rfl

/-! ## Packing and unpacking (R143, R144) -/

theorem vPbunpk_unpacks (f : CmdF) (s : State) : Completes (.vPbunpk f) s fun v =>
    VecFrame s (some (f.v 0)) none v ∧ v.hand.status = s.hand.status ∧
    ∀ i, i < 1024 → vget 32 (v.vreg (f.v 0)) i =
      (if (i : Int) < f.imm18 2 then
        (Fmt.fp32.encode .rne false (pbElem f.typ (bitsN (s.vreg (f.v 1)) (8 * f.typ.pbBytes * (i / 16)) (8 * f.typ.pbBytes)) (i % 16))).1 % 2 ^ 32
      else 0) := by
  have hexec : exec (.vPbunpk f) s = .next ((s.setVreg (f.v 0) (vput 32 (s.vreg (f.v 0)) (tab 1024 fun i => some (if i < (f.imm18 2).toNat then
      (Fmt.fp32.encode .rne false (pbElem f.typ (bitsN (s.vreg (f.v 1)) (8 * f.typ.pbBytes * (i / 16)) (8 * f.typ.pbBytes)) (i % 16))).1
      else 0)))).performedWith 0 0) := rfl
  refine completes_of hexec ?_
  obtain ⟨hframe, hreg, hst⟩ := s.vecFrame_setVreg (f.v 0) (vput 32 (s.vreg (f.v 0)) (tab 1024 fun i => some (if i < (f.imm18 2).toNat then
      (Fmt.fp32.encode .rne false (pbElem f.typ (bitsN (s.vreg (f.v 1)) (8 * f.typ.pbBytes * (i / 16)) (8 * f.typ.pbBytes)) (i % 16))).1
      else 0))) 0 0
  refine ⟨hframe, hst.trans BitVec.or_zero, fun i hi => (congrArg (vget 32 · i) hreg).trans ?_⟩
  have he : i < elems 32 := hi
  rw [vget_vput _ _ he, tab_getElem? _ hi, Option.getD_some]
  by_cases h : (i : Int) < f.imm18 2
  · rw [if_pos h, if_pos (show i < (f.imm18 2).toNat by omega)]
  · rw [if_neg h, if_neg (show ¬ i < (f.imm18 2).toNat by omega)]; rfl

theorem pbEncode_lt (t : Ty) (rm : Rm) (k : Nat) (v : Nat → FVal) : (pbEncode t rm (pbSlots k v)).1 < 2 ^ (8 * t.pbBytes) := by
  have hlen : 8 * t.pbBytes = 16 + 16 * (t.pbMag + 1) := by rw [Ty.pbBytes]; omega
  have hbig : 2 ^ 16 * 1 ≤ 2 ^ 16 * 2 ^ (16 * (t.pbMag + 1)) := Nat.mul_le_mul_left _ Nat.one_le_two_pow
  rw [hlen, pow_add, pbEncode_eq]
  split
  · dsimp only; omega
  split
  · dsimp only; omega
  · obtain ⟨-, he, -⟩ := pbExponent_spec t rm ((pbSlots k v).filterMap id)
    have hm := sum_digits_lt (w := 1) (n := 8) fun p _ => pbMicro_le t rm (pbExponent t rm ((pbSlots k v).filterMap id)) (pbSlots k v) p
    have hd := sum_digits_lt (n := 16) fun j _ => pbDigit_lt (t := t) (rm := rm) (k := k) (v := v) (pbExponent t rm ((pbSlots k v).filterMap id)) j
    rw [pbBlock_eq]
    dsimp only
    omega

/-- Blocks one after the other. -/
theorem foldr_digits (w n : Nat) (F : Nat → Nat × BitVec 4) :
    ((List.range n).map F).foldr (fun x acc => x.1 + acc * 2 ^ w) 0 = ∑ i ∈ Finset.range n, (F i).1 * 2 ^ (i * w) := by
  induction n generalizing F with
  | zero => rfl
  | succ n ih =>
    rw [List.range_succ_eq_map, List.map_cons, List.foldr_cons, List.map_map, ih, Finset.sum_range_succ', Finset.sum_mul, Nat.add_comm]
    simp only [Nat.zero_mul, pow_zero, Nat.mul_one]
    congr 1
    refine Finset.sum_congr rfl fun i _ => ?_
    show (F (i + 1)).1 * 2 ^ (i * w) * 2 ^ w = (F (i + 1)).1 * 2 ^ ((i + 1) * w)
    rw [mul_assoc, ← pow_add, Nat.succ_mul]

/-- The image of a list of numbers of `w` bits each. -/
theorem bitsN_image {w n N : Nat} {F : Nat → Nat} (hF : ∀ i, i < n → F i < 2 ^ w) (hN : n * w ≤ N) :
    (∀ b, b < n → bitsN (BitVec.ofNat N (∑ i ∈ Finset.range n, F i * 2 ^ (i * w))) (w * b) w = F b) ∧
    ∀ len, bitsN (BitVec.ofNat N (∑ i ∈ Finset.range n, F i * 2 ^ (i * w))) (n * w) len = 0 := by
  have hlt := sum_digits_lt hF
  have hmod : (∑ i ∈ Finset.range n, F i * 2 ^ (i * w)) % 2 ^ N = ∑ i ∈ Finset.range n, F i * 2 ^ (i * w) :=
    Nat.mod_eq_of_lt (hlt.trans_le (Nat.pow_le_pow_right two_pos hN))
  constructor
  · intro b hb
    rw [bitsN, BitVec.toNat_ofNat, hmod, Nat.mul_comm w b, sum_digits hF hb]
  · intro len
    rw [bitsN, BitVec.toNat_ofNat, hmod, Nat.div_eq_of_lt hlt, Nat.zero_mod]

section Pbpack
variable (f : CmdF) (s : State)

/-- A block of the source, of the elements that count. -/
def packedBlock (b : Nat) : Nat × BitVec 4 := pbEncode f.typ f.rm (pbSlots (min 16 ((f.imm18 2).toNat - 16 * b))
  fun j => Fmt.fp32.decode (vget 32 (s.vreg (f.v 1)) (16 * b + j)))

theorem exec_vPbpack : exec (.vPbpack f) s = .next ((s.setVreg (f.v 0) (BitVec.ofNat 32768
    (∑ b ∈ Finset.range 64, (packedBlock f s b).1 * 2 ^ (b * (8 * f.typ.pbBytes))))).performedWith
    ((List.range 64).foldl (fun a b => a ||| (packedBlock f s b).2) 0) 0) := by
  have hslots (b : Nat) : pbEncode f.typ f.rm ((List.range 16).map fun j => if 16 * b + j < (f.imm18 2).toNat then
      some (Fmt.fp32.decode (vget 32 (s.vreg (f.v 1)) (16 * b + j))) else none) = packedBlock f s b := by
    refine congrArg _ (List.map_congr_left fun j hj => ?_)
    have := List.mem_range.1 hj
    congr 1
    exact propext (by omega)
  have hexec : exec (.vPbpack f) s = .next ((s.setVreg (f.v 0) (BitVec.ofNat 32768
      ((tab 64 fun b => pbEncode f.typ f.rm ((List.range 16).map fun j => if 16 * b + j < (f.imm18 2).toNat then
      some (Fmt.fp32.decode (vget 32 (s.vreg (f.v 1)) (16 * b + j))) else none)).foldr (fun x acc => x.1 + acc * 2 ^ (8 * f.typ.pbBytes)) 0))).performedWith
      ((tab 64 fun b => pbEncode f.typ f.rm ((List.range 16).map fun j => if 16 * b + j < (f.imm18 2).toNat then
      some (Fmt.fp32.decode (vget 32 (s.vreg (f.v 1)) (16 * b + j))) else none)).foldl (fun a x => a ||| x.2) 0) 0) := rfl
  simp only [hslots, ← Array.foldr_toList, ← Array.foldl_toList, toList_tab, foldr_digits, List.foldl_map] at hexec
  exact hexec

end Pbpack

theorem vPbpack_packs (f : CmdF) (s : State) : ∃ block : Nat → Nat × BitVec 4,
    (∀ b, b < 64 → PbIs f.typ f.rm (min 16 ((f.imm18 2).toNat - 16 * b))
      (fun j => some (Exact.of (Fmt.fp32.decode (vget 32 (s.vreg (f.v 1)) (16 * b + j))))) (block b)) ∧
    Completes (.vPbpack f) s fun v =>
      VecFrame s (some (f.v 0)) none v ∧
      (∀ b, b < 64 → bitsN (v.vreg (f.v 0)) (8 * f.typ.pbBytes * b) (8 * f.typ.pbBytes) = (block b).1) ∧
      bitsN (v.vreg (f.v 0)) (512 * f.typ.pbBytes) (32768 - 512 * f.typ.pbBytes) = 0 ∧
      StatusGains s v (· < 64) (fun b => (block b).2) := by
  refine ⟨packedBlock f s, fun b _ => pbEncode_is (fun j _ => pbStands_exact _) (min_le_left ..), completes_of (exec_vPbpack f s) ?_⟩
  obtain ⟨hframe, hreg, hst⟩ := s.vecFrame_setVreg (f.v 0) (BitVec.ofNat 32768
    (∑ b ∈ Finset.range 64, (packedBlock f s b).1 * 2 ^ (b * (8 * f.typ.pbBytes)))) ((List.range 64).foldl (fun a b => a ||| (packedBlock f s b).2) 0) 0
  have hbytes : f.typ.pbBytes ≤ 18 := by cases f.typ <;> decide
  obtain ⟨himg, hrest⟩ := bitsN_image (w := 8 * f.typ.pbBytes) (n := 64) (N := 32768) (F := fun b => (packedBlock f s b).1)
    (fun b _ => pbEncode_lt ..) (by omega)
  refine ⟨hframe, fun b hb => (congrArg (bitsN · (8 * f.typ.pbBytes * b) (8 * f.typ.pbBytes)) hreg).trans (himg b hb), ?_, fun j => ?_⟩
  · refine (congrArg (bitsN · (512 * f.typ.pbBytes) (32768 - 512 * f.typ.pbBytes)) hreg).trans ?_
    rw [show 512 * f.typ.pbBytes = 64 * (8 * f.typ.pbBytes) by omega]
    exact hrest _
  · rw [hst, bit4_or, Bool.or_eq_true, bit_foldl_or]
    simp only [bit4_zero, Bool.false_eq_true, false_or, List.mem_range]

/-! ## The obligation -/

/-- Settles O24: one conversion for each element of the slice, and the encoding of a block by `pbEncode_is`. -/
theorem vectorConversions : Obligations.VectorConversions := fun f s =>
  ⟨vCvt_converts f s, fun _ _ => vCvtef_narrows f s, vPbunpk_unpacks f s, fun _ => vPbpack_packs f s⟩

end Sys2Proof.Machine

/-! PROOFS. Reductions and scans (O25; R130, R147, R150 to R152). -/

namespace Sys2Proof.Machine

/-! ## The extreme of a line (R130, R150) -/

/-- Where an element stands among those of its type, and whether it counts: a NaN does not. -/
def lineRank (t : Ty) (x : Nat) : Int := if t.isFloat then place t.fmt x else t.toInt x
def lineCounts (t : Ty) (x : Nat) : Bool := !(t.isFloat && t.fmt.isNan x)

/-- A choice between two values by their order gives one of them, and bounds both. -/
theorem choice_rank (most : Bool) (rank : Nat → Int) {a b : Nat} {P : Prop} [Decidable P] (h : P → rank a ≤ rank b) (h' : ¬ P → rank b ≤ rank a) :
    let r := if P then (if most then b else a) else (if most then a else b)
    (r = a ∨ r = b) ∧ ∀ x, x = a ∨ x = b → if most then rank x ≤ rank r else rank r ≤ rank x := by
  cases most with
  | true =>
    simp only [if_true]
    split_ifs with hP
    · exact ⟨.inr rfl, by rintro x (rfl | rfl); exacts [h hP, le_rfl]⟩
    · exact ⟨.inl rfl, by rintro x (rfl | rfl); exacts [le_rfl, h' hP]⟩
  | false =>
    simp only [Bool.false_eq_true, if_false]
    split_ifs with hP
    · exact ⟨.inl rfl, by rintro x (rfl | rfl); exacts [le_rfl, h hP]⟩
    · exact ⟨.inr rfl, by rintro x (rfl | rfl); exacts [h' hP, le_rfl]⟩

/-- One extreme of two elements: a NaN gives way to the other. -/
theorem minMax_rank {t : Ty} (most : Bool) {a b : Nat} (ha : a < 2 ^ t.width) (hb : b < 2 ^ t.width) :
    (lineCounts t a = true → lineCounts t b = true → (minMax t most a b = a ∨ minMax t most a b = b) ∧
      ∀ x, x = a ∨ x = b → if most then lineRank t x ≤ lineRank t (minMax t most a b) else lineRank t (minMax t most a b) ≤ lineRank t x) ∧
    (lineCounts t a = true → lineCounts t b = false → minMax t most a b = a) ∧
    (lineCounts t a = false → lineCounts t b = true → minMax t most a b = b) ∧
    (lineCounts t a = false → lineCounts t b = false → t.isFloat = true ∧ minMax t most a b = t.fmt.nan) := by
  cases ht : t.isFloat with
  | true =>
    rw [Ty.width_fmt ht] at ha hb
    have hmm : minMax t most a b = if t.fmt.isNan a then (if t.fmt.isNan b then t.fmt.nan else b) else if t.fmt.isNan b then a
        else if place t.fmt a ≤ place t.fmt b then (if most then b else a) else (if most then a else b) := by
      cases most with
      | true => exact (minMax_float ht ha hb).2
      | false => exact (minMax_float ht ha hb).1
    have hrank (x : Nat) : lineRank t x = place t.fmt x := by rw [lineRank, ht, if_pos rfl]
    rw [hmm]
    simp only [lineCounts, hrank, ht, Bool.true_and, Bool.not_eq_true', Bool.not_eq_false']
    cases na : t.fmt.isNan a <;> cases nb : t.fmt.isNan b <;> simp only [Bool.false_eq_true, if_false, if_true, forall_const,
      reduceCtorEq, IsEmpty.forall_iff, and_self, and_true]
    exact choice_rank most (place t.fmt) id fun h => (not_le.1 h).le
  | false =>
    have hmm : minMax t most a b = if t.toInt a < t.toInt b then (if most then b else a) else (if most then a else b) := by
      rw [minMax, ht, if_neg Bool.false_ne_true]
    have hrank (x : Nat) : lineRank t x = t.toInt x := by rw [lineRank, ht, if_neg Bool.false_ne_true]
    rw [hmm]
    simp only [lineCounts, hrank, ht, Bool.false_and, Bool.not_false, forall_const, reduceCtorEq, IsEmpty.forall_iff, and_true]
    exact choice_rank most t.toInt le_of_lt fun h => not_lt.1 h

/-- What is true of one extreme among values that count. -/
def IsExtreme (t : Ty) (most : Bool) (ys : List Nat) (v : Nat) : Prop :=
  v ∈ ys ∧ ∀ y, y ∈ ys → if most then lineRank t y ≤ lineRank t v else lineRank t v ≤ lineRank t y

theorem minMax_lt {t : Ty} (most : Bool) {a b : Nat} (ha : a < 2 ^ t.width) (hb : b < 2 ^ t.width) : minMax t most a b < 2 ^ t.width := by
  obtain ⟨h1, h2, h3, h4⟩ := minMax_rank most ha hb
  cases ca : lineCounts t a <;> cases cb : lineCounts t b
  · obtain ⟨ht, h⟩ := h4 ca cb
    rw [h, Ty.width_fmt ht]
    exact Fmt.nan_lt t.fmt_sound
  · rw [h3 ca cb]; exact hb
  · rw [h2 ca cb]; exact ha
  · rcases (h1 ca cb).1 with h | h <;> rw [h] <;> assumption

/-- The extreme of a list, from a first value. -/
theorem foldl_minMax {t : Ty} (most : Bool) (xs : List Nat) {acc : Nat} (hacc : acc < 2 ^ t.width) (hxs : ∀ x ∈ xs, x < 2 ^ t.width) :
    ((acc :: xs).filter (lineCounts t) = [] → (xs = [] ∧ xs.foldl (minMax t most) acc = acc) ∨ (xs.foldl (minMax t most) acc = t.fmt.nan)) ∧
    ((acc :: xs).filter (lineCounts t) ≠ [] → IsExtreme t most ((acc :: xs).filter (lineCounts t)) (xs.foldl (minMax t most) acc)) := by
  induction xs generalizing acc with
  | nil =>
    refine ⟨fun _ => .inl ⟨rfl, rfl⟩, fun h => ?_⟩
    have hc : lineCounts t acc = true := by
      by_contra hc
      rw [List.filter_cons_of_neg hc] at h
      exact h rfl
    rw [List.filter_cons_of_pos hc]
    refine ⟨List.mem_singleton.2 rfl, fun y hy => ?_⟩
    rw [List.mem_singleton.1 hy]
    split <;> exact le_rfl
  | cons x xs ih =>
    have hx := hxs x (List.mem_cons_self ..)
    obtain ⟨h1, h2, h3, h4⟩ := minMax_rank most hacc hx
    obtain ⟨ih1, ih2⟩ := ih (minMax_lt most hacc hx) fun y hy => hxs y (List.mem_cons_of_mem _ hy)
    rw [List.foldl_cons]
    cases ca : lineCounts t acc <;> cases cb : lineCounts t x
    · obtain ⟨ht, hv⟩ := h4 ca cb
      have hn : lineCounts t t.fmt.nan = false := by rw [lineCounts, ht, t.fmt_sound.isNan_nan]; rfl
      rw [List.filter_cons_of_neg (by simp [ca]), List.filter_cons_of_neg (by simp [cb])]
      rw [hv, List.filter_cons_of_neg (by simp [hn])] at ih1 ih2
      rw [hv]
      exact ⟨fun h => .inr ((ih1 h).elim (fun h => h.2) id), ih2⟩
    · rw [h3 ca cb] at ih1 ih2 ⊢
      rw [List.filter_cons_of_neg (by simp [ca])]
      exact ⟨fun h => absurd h (by rw [List.filter_cons_of_pos cb]; simp), ih2⟩
    · rw [h2 ca cb] at ih1 ih2 ⊢
      have hl : (acc :: x :: xs).filter (lineCounts t) = (acc :: xs).filter (lineCounts t) := by
        rw [List.filter_cons_of_pos ca, List.filter_cons_of_neg (by simp [cb]), List.filter_cons_of_pos ca]
      rw [hl]
      exact ⟨fun h => absurd h (by rw [List.filter_cons_of_pos ca]; simp), ih2⟩
    · obtain ⟨hv, hrank⟩ := h1 ca cb
      have hcv : lineCounts t (minMax t most acc x) = true := by rcases hv with h | h <;> rw [h] <;> assumption
      have hl : (acc :: x :: xs).filter (lineCounts t) = acc :: x :: xs.filter (lineCounts t) := by
        rw [List.filter_cons_of_pos ca, List.filter_cons_of_pos cb]
      rw [List.filter_cons_of_pos hcv] at ih2
      obtain ⟨hmem, hall⟩ := ih2 (List.cons_ne_nil _ _)
      rw [hl]
      refine ⟨fun h => absurd h (List.cons_ne_nil _ _), fun _ => ⟨?_, fun y hy => ?_⟩⟩
      · rcases List.mem_cons.1 hmem with h | h
        · rw [h]
          rcases hv with h | h <;> rw [h] <;> simp
        · exact List.mem_cons_of_mem _ (List.mem_cons_of_mem _ h)
      · have hfirst := hall _ (List.mem_cons_self ..)
        have hstep (h : y = acc ∨ y = x) := hrank y h
        have hrest (h : y ∈ xs.filter (lineCounts t)) := hall y (List.mem_cons_of_mem _ h)
        have hcase : (y = acc ∨ y = x) ∨ y ∈ xs.filter (lineCounts t) := by
          rcases List.mem_cons.1 hy with h | h
          · exact .inl (.inl h)
          · exact (List.mem_cons.1 h).imp_left .inr
        rcases hcase with h | h
        · have := hstep h
          cases most <;> simp only [Bool.false_eq_true, if_false, if_true] at this hfirst ⊢ <;> omega
        · exact hrest h

theorem Ty.toInt_inj {t : Ty} {a b : Nat} (ha : a < 2 ^ t.width) (hb : b < 2 ^ t.width) (h : t.toInt a = t.toInt b) : a = b := by
  have := congrArg (ofInt t.width) h
  rwa [ofInt_toInt, ofInt_toInt, Nat.mod_eq_of_lt ha, Nat.mod_eq_of_lt hb] at this

theorem Ty.toInt_bounds (t : Ty) (x : Nat) : t.minInt ≤ t.toInt x ∧ t.toInt x ≤ t.maxInt := by
  have hlt : x % 2 ^ t.width < 2 ^ t.width := Nat.mod_lt _ (by positivity)
  cases hs : t.isSigned with
  | false =>
    rw [Ty.toInt, Ty.minInt, Ty.maxInt, hs]
    simp only [Bool.false_eq_true, if_false]
    omega
  | true =>
    have hw : 2 ^ t.width = 2 * 2 ^ (t.width - 1) := by
      rw [← pow_succ']
      congr 1
      cases t <;> rfl
    rw [Ty.toInt, Ty.minInt, Ty.maxInt, hs, toSigned]
    simp only [if_true]
    split <;> omega

theorem Ty.toInt_ofInt_ends (t : Ty) : t.toInt (ofInt t.width t.minInt) = t.minInt ∧ t.toInt (ofInt t.width t.maxInt) = t.maxInt := by
  cases t <;> decide

theorem extreme_is (f : CmdF) (most : Bool) (op : Red) (hop : op = if most then .max else .min) {xs : List Nat}
    (hxs : ∀ x ∈ xs, x < 2 ^ f.typ.width) : ExtremeIs f most xs (xs.foldl (minMax f.typ most) (op.identity f.typ)) := by
  cases ht : f.typ.isFloat with
  | true =>
    have hid : op.identity f.typ = f.typ.fmt.nan := by rw [hop]; cases most <;> simp [Red.identity, ht]
    have hn : lineCounts f.typ f.typ.fmt.nan = false := by rw [lineCounts, ht, f.typ.fmt_sound.isNan_nan]; rfl
    have hc : lineCounts f.typ = fun x => !f.typ.fmt.isNan x := funext fun x => by rw [lineCounts, ht, Bool.true_and]
    have hr : lineRank f.typ = place f.typ.fmt := funext fun x => by rw [lineRank, ht, if_pos rfl]
    obtain ⟨h1, h2⟩ := foldl_minMax most xs (show f.typ.fmt.nan < 2 ^ f.typ.width by rw [Ty.width_fmt ht]; exact Fmt.nan_lt f.typ.fmt_sound) hxs
    rw [List.filter_cons_of_neg (by simp [hn]), hc] at h1 h2
    rw [ExtremeIs, hid]
    simp only [ht, if_true]
    refine ⟨fun h => (h1 h).elim (fun h => h.2) id, fun h => ?_⟩
    have := h2 h
    rwa [IsExtreme, hr] at this
  | false =>
    have hid : op.identity f.typ = ofInt f.typ.width (if most then f.typ.minInt else f.typ.maxInt) := by
      rw [hop]; cases most <;> simp [Red.identity, ht]
    have hc : lineCounts f.typ = fun _ => true := funext fun x => by rw [lineCounts, ht]; rfl
    have hr : lineRank f.typ = f.typ.toInt := funext fun x => by rw [lineRank, ht, if_neg Bool.false_ne_true]
    obtain ⟨-, h2⟩ := foldl_minMax most xs (acc := ofInt f.typ.width (if most then f.typ.minInt else f.typ.maxInt)) (ofInt_lt ..) hxs
    rw [hc, List.filter_true] at h2
    obtain ⟨hmem, hall⟩ := h2 (List.cons_ne_nil _ _)
    rw [hr] at hall
    rw [ExtremeIs, hid]
    simp only [ht, Bool.false_eq_true, if_false]
    refine ⟨fun h => by rw [h]; rfl, fun hne => ⟨?_, fun y hy => hall y (List.mem_cons_of_mem _ hy)⟩⟩
    rcases List.mem_cons.1 hmem with hv | hv
    · -- the identity is the extreme: then it equals every element
      obtain ⟨y, hy⟩ := List.exists_mem_of_ne_nil _ hne
      have hb := f.typ.toInt_bounds y
      have hends := f.typ.toInt_ofInt_ends
      have hle := hall y (List.mem_cons_of_mem _ hy)
      rw [hv] at hle ⊢
      have heq : y = ofInt f.typ.width (if most then f.typ.minInt else f.typ.maxInt) := by
        refine Ty.toInt_inj (hxs y hy) (ofInt_lt ..) ?_
        cases most <;> simp only [Bool.false_eq_true, if_false, if_true] at hle ⊢ <;> omega
      rwa [← heq]
    · exact hv

end Sys2Proof.Machine

/-! PROOFS. Exact sums of float lines, and the reduction and scan commands (O25; R150 to R152). -/

namespace Sys2Proof
open Machine

/-- The statements' line of elements, under a name that no other definition bears. -/
def elementLine (s : State) (f : CmdF) (col : Bool) (l n : Nat) : List Nat := lineOf s f col l n

theorem elementLine_eq (s : State) (f : CmdF) (col : Bool) (l n : Nat) : elementLine s f col l n =
    ((List.range n).map fun i => if col then i * f.typ.cols + l else l * f.typ.cols + i).filterMap fun e =>
      if enabled f s.handCtx.ps f.typ.width e then some (vget f.typ.width (s.vreg (f.v 1)) e) else none := rfl

end Sys2Proof

namespace Sys2Proof.Machine

/-! ## Exact sums (R151) -/

theorem sumAt_append (q : Int) (xs : List FVal) (x : FVal) : sumAt q (xs ++ [x]) = match x with
    | .fin neg m e => sumAt q xs + signedNat neg (m * 2 ^ (e - q).toNat)
    | _ => sumAt q xs := by
  rw [sumAt, List.foldl_append]
  cases x <;> rfl

/-- The sum in units of 2^q is the sum of the numbers. -/
theorem sumAt_real {q : Int} {xs : List FVal} (h : ∀ y ∈ xs, ∃ neg m e, y = FVal.fin neg m e ∧ q ≤ e) :
    (sumAt q xs : ℝ) * (2 : ℝ) ^ q = (xs.map numberOf).sum := by
  induction xs using List.reverseRecOn with
  | nil => simp [sumAt]
  | append_singleton xs x ih =>
    obtain ⟨neg, m, e, rfl, he⟩ := h x (List.mem_append_right _ (List.mem_singleton.2 rfl))
    have ih := ih fun y hy => h y (List.mem_append_left _ hy)
    have hstep := signedNat_scaled neg m he
    rw [sumAt_append, List.map_append, List.sum_append, ← ih]
    simp only [List.map_cons, List.map_nil, List.sum_singleton, numberOf_fin]
    rw [← hstep]
    push_cast
    ring

/-- Whether a value is a negative or a positive zero. -/
def isNegZero : FVal → Bool
  | .fin n m _ => n && m == 0
  | _ => false
def isPosZero : FVal → Bool
  | .fin n m _ => !n && m == 0
  | _ => false

/-- The sign of a sum that is zero. -/
def zeroSign (rm : Rm) (xs : List FVal) : Bool := if xs.all isNegZero then true else if xs.all isPosZero then false else rm == .rdn

/-- The exponent at which a sum is exact. -/
def sumUnit (xs : List FVal) : Int := ((xs.filterMap FVal.exp).min?).getD 0

theorem floatSum_eq (rm : Rm) (xs : List FVal) : floatSum rm xs =
    if xs.any FVal.isNan then (.nan, false)
    else if xs.contains (.inf false) && xs.contains (.inf true) then (.nan, true)
    else if xs.contains (.inf false) then (.inf false, false)
    else if xs.contains (.inf true) then (.inf true, false)
    else if sumAt (sumUnit xs) xs = 0 then (.fin (zeroSign rm xs) 0 0, false)
    else (.fin (decide (sumAt (sumUnit xs) xs < 0)) (sumAt (sumUnit xs) xs).natAbs (sumUnit xs), false) := rfl

theorem sumUnit_le {xs : List FVal} {neg : Bool} {m : Nat} {e : Int} (h : FVal.fin neg m e ∈ xs) : sumUnit xs ≤ e := by
  have hmem : e ∈ xs.filterMap FVal.exp := List.mem_filterMap.2 ⟨_, h, rfl⟩
  rw [sumUnit]
  cases hmin : (xs.filterMap FVal.exp).min? with
  | none => rw [List.min?_eq_none_iff] at hmin; rw [hmin] at hmem; cases hmem
  | some q => exact (List.min?_eq_some_iff.1 hmin).2 e hmem

theorem any_isNan_iff (xs : List FVal) : xs.any FVal.isNan = true ↔ FVal.nan ∈ xs := by
  rw [List.any_eq_true]
  constructor
  · rintro ⟨x, hx, hn⟩
    cases x with
    | nan => exact hx
    | inf neg => cases hn
    | fin neg m e => cases hn
  · exact fun h => ⟨_, h, rfl⟩

/-- The exact sum of finite values. -/
theorem floatSum_finite (rm : Rm) {xs : List FVal} (h : ∀ y ∈ xs, ∃ neg m e, y = FVal.fin neg m e) :
    exactResult (floatSum rm xs) = some (Exact.real (zeroSign rm xs) (xs.map numberOf).sum) := by
  have hno {y : FVal} (hy : ∀ neg m e, y ≠ .fin neg m e) : y ∉ xs := fun hm => by
    obtain ⟨neg, m, e, he⟩ := h y hm
    exact hy _ _ _ he
  have hnan : ¬ xs.any FVal.isNan = true := fun hn => hno (by simp) ((any_isNan_iff xs).1 hn)
  have hinf (neg : Bool) : xs.contains (.inf neg) = false := by
    rw [← Bool.not_eq_true, List.contains_iff_mem]
    exact hno (by simp)
  have hsum := sumAt_real (q := sumUnit xs) (xs := xs) fun y hy => by
    obtain ⟨neg, m, e, rfl⟩ := h y hy
    exact ⟨neg, m, e, rfl, sumUnit_le hy⟩
  rw [floatSum_eq, if_neg hnan, hinf, hinf, ← hsum]
  simp only [Bool.and_self, Bool.false_eq_true, if_false]
  generalize sumAt (sumUnit xs) xs = v
  generalize sumUnit xs = q
  by_cases hv : v = 0
  · rw [if_pos hv, hv]
    simp [exactResult, Exact.of, Exact.real]
  · rw [if_neg hv]
    exact congrArg some (exact_of_signed _ hv q)

section Line
variable {f : CmdF} {xs : List Nat}

/-- A zero by its pattern. -/
theorem isZero_pattern {g : Fmt} (hg : g.Sound) {x : Nat} (hx : x < 2 ^ g.width) :
    (isNegZero (g.decode x) = true ↔ x = g.signBit) ∧ (isPosZero (g.decode x) = true ↔ x = 0) := by
  rw [g.width_eq] at hx
  have hdm := Nat.div_add_mod x g.signBit
  have hsb := g.signBit_pos
  have h2 : x / g.signBit < 2 := Nat.div_lt_of_lt_mul (by rwa [Nat.mul_comm])
  have hzero : g.units 0 = 0 := by simp [Fmt.units]
  have hx0 : x = 0 ↔ x / g.signBit % 2 = 0 ∧ x % g.signBit = 0 := by
    refine ⟨fun h => by simp [h], fun ⟨ha, hb⟩ => ?_⟩
    rw [Nat.mod_eq_of_lt h2] at ha
    rw [ha, hb] at hdm
    omega
  have hx1 : x = g.signBit ↔ x / g.signBit % 2 = 1 ∧ x % g.signBit = 0 := by
    refine ⟨fun h => by rw [h, Nat.div_self hsb]; simp, fun ⟨ha, hb⟩ => ?_⟩
    rw [Nat.mod_eq_of_lt h2] at ha
    rw [ha, hb] at hdm
    omega
  rw [hx0, hx1]
  by_cases hfin : x % g.signBit ≤ g.maxFin
  · obtain ⟨m, e, hd, hv⟩ := Fmt.decode_finite hg hfin
    have hm : m = 0 ↔ x % g.signBit = 0 := by
      rw [← zpow_mul_eq_zero (m := m) (e := e), hv, zpow_mul_eq_zero]
      exact ⟨fun h => g.units_strictMono.injective (h.trans hzero.symm), fun h => by rw [h, hzero]⟩
    rw [hd, ← hm]
    rcases Nat.mod_two_eq_zero_or_one (x / g.signBit) with h | h <;> simp [isNegZero, isPosZero, h]
  · have hne : x % g.signBit ≠ 0 := by omega
    rw [Fmt.decode_eq hg, if_neg hfin]
    simp only [hne, and_false, iff_false]
    split <;> exact ⟨Bool.false_ne_true, Bool.false_ne_true⟩

/-- The sign of a zero sum by the patterns of the line. -/
theorem zeroSign_patterns {g : Fmt} (hg : g.Sound) (rm : Rm) {xs : List Nat} (hxs : ∀ x ∈ xs, x < 2 ^ g.width) : zeroSign rm (xs.map g.decode) =
    if xs.all (· == g.signBit) then true else if xs.all (· == 0) then false else decide (rm = .rdn) := by
  have hneg : (xs.map g.decode).all isNegZero = xs.all (· == g.signBit) := by
    rw [List.all_map, Bool.eq_iff_iff, List.all_eq_true, List.all_eq_true]
    refine forall_congr' fun x => forall_congr' fun hx => ?_
    rw [Function.comp, (isZero_pattern hg (hxs x hx)).1, beq_iff_eq]
  have hpos : (xs.map g.decode).all isPosZero = xs.all (· == 0) := by
    rw [List.all_map, Bool.eq_iff_iff, List.all_eq_true, List.all_eq_true]
    refine forall_congr' fun x => forall_congr' fun hx => ?_
    rw [Function.comp, (isZero_pattern hg (hxs x hx)).2, beq_iff_eq]
  rw [zeroSign, hneg, hpos]
  cases rm <;> rfl

/-- A format of which a pattern is an infinity has infinities. -/
theorem hasInf_of_decode {g : Fmt} (hg : g.Sound) {x : Nat} {neg : Bool} (h : g.decode x = .inf neg) : g.hasInf = true := by
  rw [Fmt.decode_eq hg] at h
  split_ifs at h with h1 h2 h3
  exact h3.1

theorem Ty.fit_zero (t : Ty) (sat : Bool) : t.fit sat 0 = 0 := by cases t <;> cases sat <;> decide

theorem sum_int (hf : f.typ.isFloat = false) (xs : List Nat) : Red.reduce .sum f xs = (sumInts f xs, 0) := by
  have hfit : sumInts f xs = f.typ.fit f.sat ((xs.map f.typ.toInt).foldl (· + ·) 0) := by rw [← List.sum_eq_foldl]; rfl
  rw [hfit, Red.reduce]
  simp only [hf, Bool.false_eq_true, if_false]
  split
  next h =>
    rw [List.isEmpty_iff] at h
    rw [h, List.map_nil, List.foldl_nil, Ty.fit_zero]
  next => rfl

/-- A reduction by sum (R150, R151). -/
theorem sum_is (hxs : ∀ x ∈ xs, x < 2 ^ f.typ.width) : SumIs f xs (Red.reduce .sum f xs) := by
  have hg : f.typ.fmt.Sound := f.typ.fmt_sound
  refine ⟨fun hf => sum_int hf xs, fun hf => ?_⟩
  rw [Ty.width_fmt hf] at hxs
  have hred (hne : xs ≠ []) : Red.reduce .sum f xs = f.typ.fmt.result f.rm f.sat (floatSum f.rm (xs.map f.typ.fmt.decode)) := by
    rw [← List.map_congr_left fun x _ => Ty.value_float hf x, Red.reduce, if_neg (by simpa using hne), if_pos hf]
  have hne {y : FVal} (hy : y ∈ xs.map f.typ.fmt.decode) : xs ≠ [] := fun h => by rw [h] at hy; cases hy
  have hnan := any_isNan_iff (xs.map f.typ.fmt.decode)
  refine ⟨fun h => by rw [h]; rfl, fun h => ?_, fun h hinf => ?_, fun neg h hinf hno => ?_, fun h hne => ?_⟩
  · rw [hred (hne h), floatSum_eq, if_pos (hnan.2 h)]; rfl
  · rw [hred (hne (hinf true)), floatSum_eq, if_neg (mt hnan.1 h), List.contains_iff_mem.2 (hinf true), List.contains_iff_mem.2 (hinf false)]
    rfl
  · have hhas : f.typ.fmt.hasInf = true := by
      obtain ⟨x, -, hx⟩ := List.mem_map.1 hinf
      exact hasInf_of_decode hg hx
    have hin : (xs.map f.typ.fmt.decode).contains (.inf neg) = true := List.contains_iff_mem.2 hinf
    have hout : (xs.map f.typ.fmt.decode).contains (.inf !neg) = false := by rw [← Bool.not_eq_true, List.contains_iff_mem]; exact hno
    have hsum : floatSum f.rm (xs.map f.typ.fmt.decode) = (.inf neg, false) := by
      rw [floatSum_eq, if_neg (mt hnan.1 h)]
      cases neg with
      | true => rw [Bool.not_true] at hout; rw [hin, hout]; rfl
      | false => rw [Bool.not_false] at hout; rw [hin, hout]; rfl
    rw [hred (hne hinf), hsum]
    show f.typ.fmt.encode f.rm f.sat (.inf neg) = _
    rw [Fmt.encode, if_pos hhas]
  · have hgives := Fmt.result_gives hg f.rm f.sat (floatSum f.rm (xs.map f.typ.fmt.decode))
    rw [floatSum_finite f.rm h, zeroSign_patterns hg f.rm hxs, ← hred hne] at hgives
    exact hgives

end Line

/-! ## The commands (R147, R150, R152) -/

section Axis
variable (s : State) (f : CmdF)

theorem elementLine_lt (col : Bool) (l n : Nat) : ∀ x ∈ elementLine s f col l n, x < 2 ^ f.typ.width := by
  intro x hx
  obtain ⟨e, -, he⟩ := List.mem_filterMap.1 hx
  split at he
  · rw [← Option.some.inj he]; exact vget_lt ..
  · cases he

/-- The enabled elements of a line, by the model's table of them. -/
theorem lineVals_eq (col : Bool) {l n : Nat} (hl : l < if col then f.typ.cols else 16) (hn : n ≤ if col then 16 else f.typ.cols) :
    lineVals f.typ col (tab (elems f.typ.width) fun e => if enabled f s.handCtx.ps f.typ.width e then some (vget f.typ.width (s.vreg (f.v 1)) e)
      else none) l n = elementLine s f col l n := by
  have hle : 16 * f.typ.cols ≤ elems f.typ.width := cols_le_elems f.typ.width
  rw [lineVals, elementLine_eq, List.filterMap_map]
  refine List.filterMap_congr fun i hi => ?_
  have hi := List.mem_range.1 hi
  have hidx : lineIdx f.typ col l i < elems f.typ.width := by
    refine lt_of_lt_of_le ?_ hle
    cases col with
    | true =>
      have h1 : (i + 1) * f.typ.cols ≤ 16 * f.typ.cols := Nat.mul_le_mul_right _ (by simp at hn; omega)
      rw [Nat.succ_mul] at h1
      simp [lineIdx] at hl ⊢
      omega
    | false =>
      have h1 : (l + 1) * f.typ.cols ≤ 16 * f.typ.cols := Nat.mul_le_mul_right _ (by simp at hl; omega)
      rw [Nat.succ_mul] at h1
      simp [lineIdx] at hn ⊢
      omega
  rw [tab_getElem? _ hidx]
  rfl

/-- The line of an element, and its place there. -/
def lineAt (col : Bool) (e : Nat) : Nat := if col then e % f.typ.cols else e / f.typ.cols
def placeAt (col : Bool) (e : Nat) : Nat := if col then e / f.typ.cols else e % f.typ.cols

theorem cols_eq (t : Ty) : 0 < t.cols ∧ elems t.width = 16 * t.cols := by cases t <;> decide

theorem lineAt_lt (col : Bool) {e : Nat} (he : e < elems f.typ.width) : lineAt f col e < (if col then f.typ.cols else 16) ∧
    placeAt f col e < (if col then 16 else f.typ.cols) := by
  obtain ⟨hpos, hel⟩ := cols_eq f.typ
  have h1 : e / f.typ.cols < 16 := Nat.div_lt_of_lt_mul (by rwa [Nat.mul_comm, ← hel])
  have h2 := Nat.mod_lt e hpos
  cases col with
  | true => exact ⟨h2, h1⟩
  | false => exact ⟨h1, h2⟩

/-- A command along an axis gives each element the reduction of its line, or of its line up to and with itself. -/
theorem axis_gives {i : CmdF → Instr} {op : Red} {col scan : Bool} (hexec : exec (i f) s = .next (s.axis f op col scan)) :
    VecGives i f s [] fun e => op.reduce f (elementLine s f col (lineAt f col e)
      (if scan then placeAt f col e + 1 else if col then 16 else f.typ.cols)) := by
  refine vecGives_of (ops := []) hexec fun e he => ?_
  obtain ⟨hline, hplace⟩ := lineAt_lt f col he
  have hvals (n : Nat) (hn : n ≤ if col then 16 else f.typ.cols) := lineVals_eq s f col hline hn
  cases scan with
  | true =>
    have h := congrArg (op.reduce f) (hvals _ hplace)
    exact ⟨congrArg (·.1 % 2 ^ f.typ.width) h, congrArg Prod.snd h⟩
  | false =>
    have htab := tab_getElem? (fun l => op.reduce f (lineVals f.typ col (tab (elems f.typ.width) fun e =>
      if enabled f s.handCtx.ps f.typ.width e then some (vget f.typ.width (s.vreg (f.v 1)) e) else none) l
      (if col then 16 else f.typ.cols))) hline
    have h := (congrArg (·.getD (0, 0)) htab).trans (congrArg (op.reduce f) (hvals _ le_rfl))
    exact ⟨congrArg (·.1 % 2 ^ f.typ.width) h, congrArg Prod.snd h⟩

end Axis

theorem axis_sum {i : CmdF → Instr} {f : CmdF} {s : State} {col scan : Bool} (hexec : exec (i f) s = .next (s.axis f .sum col scan)) :
    ∃ v, VecGives i f s [] v ∧ ∀ e, SumIs f (elementLine s f col (lineAt f col e) (if scan then placeAt f col e + 1 else if col then 16 else f.typ.cols)) (v e) :=
  ⟨_, axis_gives s f hexec, fun _ => sum_is (elementLine_lt s f _ _ _)⟩

theorem axis_extreme {i : CmdF → Instr} {f : CmdF} {s : State} {col scan : Bool} (most : Bool)
    (hexec : exec (i f) s = .next (s.axis f (if most then .max else .min) col scan)) :
    ∃ v : Nat → Nat, VecGives i f s [] (fun e => (v e, 0)) ∧ ∀ e, ExtremeIs f most
      (elementLine s f col (lineAt f col e) (if scan then placeAt f col e + 1 else if col then 16 else f.typ.cols)) (v e) := by
  refine ⟨_, vecGives_congr (axis_gives s f hexec) (funext fun e => ?_), fun e => extreme_is f most _ rfl (elementLine_lt s f _ _ _)⟩
  cases most <;> rfl

/-- AND and OR do not depend on the end from which they begin. -/
theorem foldl_land (a : Nat) (xs : List Nat) : xs.foldl (fun a x => a &&& x) a = xs.foldr (fun x a => x &&& a) a :=
  have : Std.Commutative fun a x : Nat => a &&& x := ⟨Nat.land_comm⟩
  have : Std.Associative fun a x : Nat => a &&& x := ⟨Nat.land_assoc⟩
  List.foldl_eq_foldr

theorem foldl_lor (a : Nat) (xs : List Nat) : xs.foldl (fun a x => a ||| x) a = xs.foldr (fun x a => x ||| a) a :=
  have : Std.Commutative fun a x : Nat => a ||| x := ⟨Nat.lor_comm⟩
  have : Std.Associative fun a x : Nat => a ||| x := ⟨Nat.lor_assoc⟩
  List.foldl_eq_foldr

/-! ## The obligation -/

theorem vectorReductions : Claims.VectorReductions := by
  intro f s n row col adds extreme
  have and_gives (c : Bool) {i : CmdF → Instr} (h : exec (i f) s = .next (s.axis f .and c false)) : VecGives i f s [] fun e =>
      ((elementLine s f c (lineAt f c e) (if c then 16 else f.typ.cols)).foldr (fun x a => x &&& a) (2 ^ f.typ.width - 1), 0) :=
    vecGives_congr (axis_gives s f h) (funext fun e => congrArg (·, 0) (foldl_land ..))
  have or_gives (c : Bool) {i : CmdF → Instr} (h : exec (i f) s = .next (s.axis f .or c false)) : VecGives i f s [] fun e =>
      ((elementLine s f c (lineAt f c e) (if c then 16 else f.typ.cols)).foldr (fun x a => x ||| a) 0, 0) :=
    vecGives_congr (axis_gives s f h) (funext fun e => congrArg (·, 0) (foldl_lor ..))
  exact ⟨axis_sum (i := .vSumr) (col := false) (scan := false) rfl, axis_sum (i := .vSumc) (col := true) (scan := false) rfl,
    axis_extreme (i := .vMaxr) (col := false) (scan := false) true rfl, axis_extreme (i := .vMaxc) (col := true) (scan := false) true rfl,
    axis_extreme (i := .vMinr) (col := false) (scan := false) false rfl, axis_extreme (i := .vMinc) (col := true) (scan := false) false rfl,
    and_gives false (i := .vAndr) rfl, and_gives true (i := .vAndc) rfl, or_gives false (i := .vOrr) rfl, or_gives true (i := .vOrc) rfl⟩

theorem vectorScans : Claims.VectorScans := by
  intro f s n row col adds extreme
  exact ⟨axis_sum (i := .vScsumr) (col := false) (scan := true) rfl, axis_sum (i := .vScsumc) (col := true) (scan := true) rfl,
    axis_extreme (i := .vScmaxr) (col := false) (scan := true) true rfl, axis_extreme (i := .vScmaxc) (col := true) (scan := true) true rfl,
    axis_extreme (i := .vScminr) (col := false) (scan := true) false rfl, axis_extreme (i := .vScminc) (col := true) (scan := true) false rfl⟩

/-- Settles O25: each element's line, its sum by `sum_is` and its extremes by `extreme_is`. -/
theorem vectorReductionsAndScans : Obligations.VectorReductionsAndScans := ⟨vectorReductions, vectorScans⟩

end Sys2Proof.Machine

/-! PROOFS. The matrix engine at work: what its commands change, and the granules that they have read (O29, O30; R171, R172, R225). -/

namespace Sys2Proof.Machine

/-! ## States of the matrix engine -/

/-- A state as a matrix command leaves it: of the focus hearth only contexts, the scratchpad, banks, accumulators and the hand differ. -/
def State.matrix (s : State) (cs : Vector Ctx 4) (m : Mem) (bk : Vector Bank 8) (ac : Vector Acc 8) (c : Cmd) : State :=
  s.setFh { s.fh with ctxs := cs, scratch := m, banks := bk, accs := ac, hand := c }

/-- A command that has performed, and one that has come to the end of a unit. -/
def Cmd.finish (c : Cmd) (st : BitVec 4) (n : Nat) : Cmd := { c with performed := true, status := c.status ||| st, bytes := c.bytes + n }
def Cmd.unitOver (c : Cmd) (st : BitVec 4) (bytes pos : Nat) (last : Bool) : Cmd :=
  { c with status := c.status ||| st, bytes := c.bytes + bytes, pos := pos, performed := last, logWait := false }

/-- A command that has latched these granules. -/
def Cmd.withLatch (c : Cmd) (l : List (Nat × List Byte)) : Cmd := { c with latch := l }

section Matrix
variable {s : State} {cs : Vector Ctx 4} {m : Mem} {bk : Vector Bank 8} {ac : Vector Acc 8} {c : Cmd}

theorem State.matrix_start (s : State) : s.matrix s.fh.ctxs s.fh.scratch s.fh.banks s.fh.accs s.hand = s := s.setHearth_hearth s.foc.h

theorem State.matrix_fh : (s.matrix cs m bk ac c).fh = { s.fh with ctxs := cs, scratch := m, banks := bk, accs := ac, hand := c } :=
  s.fh_setFh _

theorem State.matrix_hand : (s.matrix cs m bk ac c).hand = c := by rw [State.hand, State.matrix_fh]

theorem State.matrix_scratch : (s.matrix cs m bk ac c).fh.scratch = m := by rw [State.matrix_fh]

theorem State.matrix_setFh (y : Hearth) : (s.matrix cs m bk ac c).setFh y = s.setFh y := s.setHearth_setHearth ..

theorem State.matrix_setHand (d : Cmd) : (s.matrix cs m bk ac c).setHand d = s.matrix cs m bk ac d := by
  rw [State.setHand, State.matrix_setFh, State.matrix_fh]; rfl

theorem State.matrix_setBanks (b : Vector Bank 8) : (s.matrix cs m bk ac c).setFh { (s.matrix cs m bk ac c).fh with banks := b } =
    s.matrix cs m b ac c := by
  rw [State.matrix_setFh, State.matrix_fh]; rfl

theorem State.matrix_setAcc (n : Nat) (a : Acc) : (s.matrix cs m bk ac c).setFh ((s.matrix cs m bk ac c).fh.setAcc n a) =
    s.matrix cs m bk (ac.set (Fin.ofNat 8 n) a) c := by
  rw [State.matrix_setFh, State.matrix_fh]; rfl

theorem State.matrix_unitDone (st : BitVec 4) (bytes pos : Nat) (last : Bool) :
    (s.matrix cs m bk ac c).unitDone st bytes pos last = s.matrix cs m bk ac (c.unitOver st bytes pos last) := by
  rw [State.unitDone, State.matrix_hand, State.matrix_setHand]; rfl

theorem State.matrix_performedWith (st : BitVec 4) (n : Nat) : (s.matrix cs m bk ac c).performedWith st n =
    s.matrix cs m bk ac (c.finish st n) := by
  rw [State.performedWith, State.matrix_hand, State.matrix_setHand]; rfl

theorem State.onlyHearth_matrix : OnlyHearth s.foc.h s (s.matrix cs m bk ac c) := s.onlyHearth_setHearth ..

/-- A write of scratchpad bytes by a matrix command. -/
theorem State.matrix_scratchPut (h : CtxsOf s cs) (off : Nat) (bs : List Byte) : ∃ cs', CtxsOf s cs' ∧
    (s.matrix cs m bk ac c).scratchPut off bs = s.matrix cs' (m.store off bs) bk ac c := by
  refine ⟨_, h.clearResv (y := { s.fh with ctxs := cs, scratch := m.store off bs, banks := bk, accs := ac }) rfl true
    (((List.range bs.length).map fun i => (off + i) / 128).eraseDups) none, ?_⟩
  rw [State.scratchPut, State.matrix_setFh, State.matrix_fh]
  rfl

theorem State.matrix_scratchWrites (h : CtxsOf s cs) (ks : List (Nat × Byte)) : ∃ cs', CtxsOf s cs' ∧
    (s.matrix cs m bk ac c).setFh ((s.matrix cs m bk ac c).fh.scratchWrites ks) = s.matrix cs' (m.writeAll ks) bk ac c := by
  refine ⟨_, h.clearResv (y := { s.fh with ctxs := cs, scratch := m.writeAll ks, banks := bk, accs := ac }) rfl true
    ((ks.map fun k : Nat × Byte => k.1 / 128).eraseDups) none, ?_⟩
  rw [State.matrix_setFh, State.matrix_fh]
  rfl

end Matrix

/-! ## Granules that a command has read (R225) -/

/-- A byte as a command sees it that has latched these granules. -/
def seenAt (l : List (Nat × List Byte)) (m : Mem) (x : Nat) : Byte :=
  match l.find? fun p => p.1 == x / 64 with
  | some p => (p.2[x % 64]?).getD 0
  | none => m.read x

theorem seenByte_eq (s : State) (x : Nat) : seenByte s x = seenAt s.hand.latch s.fh.scratch x := rfl

theorem seenRun_eq (s : State) (a n : Nat) : s.seenRun a n = (List.range n).map fun i => seenByte s (a + i) := rfl

theorem latched_eq_seenAt {c : Cmd} (m : Mem) {x : Nat} (has : ∃ p ∈ c.latch, p.1 = x / 64) : c.latched x = seenAt c.latch m x := by
  obtain ⟨p, hp, he⟩ := has
  rw [Cmd.latched, seenAt]
  cases hf : c.latch.find? fun p => p.1 == x / 64 with
  | none => exact absurd (List.find?_eq_none.1 hf p hp) (by simp [he])
  | some q => rfl

/-- Granules latched later do not change what the command sees. -/
theorem seenAt_append (l : List (Nat × List Byte)) (m : Mem) (gs : List Nat) (x : Nat) :
    seenAt (l ++ gs.map fun g => (g, m.bytes (64 * g) 64)) m x = seenAt l m x := by
  rw [seenAt, List.find?_append]
  cases hf : l.find? fun p => p.1 == x / 64 with
  | some p => rw [seenAt, hf]; rfl
  | none =>
    rw [Option.none_or, seenAt, hf, List.find?_map]
    cases hg : gs.find? ((fun p : Nat × List Byte => p.1 == x / 64) ∘ fun g => (g, m.bytes (64 * g) 64)) with
    | none => rfl
    | some g =>
      have he : g = x / 64 := by simpa using List.find?_some hg
      have hlt : x % 64 < (m.bytes (64 * g) 64).length := by rw [Mem.length_bytes]; omega
      show ((m.bytes (64 * g) 64)[x % 64]?).getD 0 = m.read x
      rw [List.getElem?_eq_getElem hlt, Option.getD_some, Mem.getElem_bytes, he]
      congr 1; omega

/-- A read of a run latches its granules, and the command goes on to see what it saw. -/
theorem State.matrix_latchRun {s : State} {cs : Vector Ctx 4} {m : Mem} {bk : Vector Bank 8} {ac : Vector Acc 8} {c : Cmd} (a n : Nat) :
    ∃ l, (s.matrix cs m bk ac c).latchRun a n = s.matrix cs m bk ac (c.withLatch l) ∧ (∀ x, seenAt l m x = seenAt c.latch m x) ∧
      (c.withLatch l).latchedRun a n = (List.range n).map fun i => seenAt c.latch m (a + i) := by
  refine ⟨c.latch ++ (((List.range' (a / 64) ((a + n - 1) / 64 - a / 64 + 1)).filter
    fun g => !(c.latch.any fun p => p.1 == g)).map fun g => (g, m.bytes (64 * g) 64)), ?_, fun x => seenAt_append .., ?_⟩
  · rw [State.latchRun, State.matrix_hand, State.matrix_setHand]
    simp only [State.scratchGet, State.matrix_scratch]
    rfl
  · refine List.map_congr_left fun i hi => ?_
    have hi := List.mem_range.1 hi
    refine (latched_eq_seenAt m ?_).trans (seenAt_append ..)
    by_cases h : c.latch.any fun p => p.1 == (a + i) / 64
    · obtain ⟨p, hp, he⟩ := List.any_eq_true.1 h
      exact ⟨p, List.mem_append_left _ hp, by simpa using he⟩
    · refine ⟨((a + i) / 64, m.bytes (64 * ((a + i) / 64)) 64), List.mem_append_right _ (List.mem_map.2 ⟨(a + i) / 64, ?_, rfl⟩), rfl⟩
      rw [List.mem_filter, List.mem_range'_1]
      refine ⟨⟨Nat.div_le_div_right (Nat.le_add_right ..), ?_⟩, by rw [Bool.eq_false_iff.2 h]; rfl⟩
      have : (a + i) / 64 ≤ (a + n - 1) / 64 := Nat.div_le_div_right (by omega)
      omega

end Sys2Proof.Machine

/-! PROOFS. Matrix loads and accumulators (O29; R55, R171, R172, R182, R225). -/

namespace Sys2Proof.Machine

/-! ## `mx.cfg` (R171) -/

theorem seenRun_slice (s : State) (a : Nat) {n i k : Nat} (h : i + k ≤ n) :
    ((s.seenRun a n).drop i).take k = (List.range k).map fun b => seenByte s (a + i + b) := by
  refine List.ext_getElem (by simp [seenRun_eq]; omega) fun j h1 h2 => ?_
  simp [seenRun_eq, Nat.add_assoc]

/-- The fields of a nest level, from the bytes of a table as the command sees them. -/
theorem nestOfBytes_csr (s : State) (a : Nat) (l : Fin 6) (i : Fin 4) : (((nestOfBytes (s.seenRun a 192))[l]).csr i).toNat =
    seenNum s (a + 32 * l.val + 8 * i.val) 8 % 2 ^ (if i = 0 then 16 else 22) := by
  have hdw (i : Nat) (hi : i < 4) : leNat (((s.seenRun a 192).drop (32 * l.val + 8 * i)).take 8) = seenNum s (a + 32 * l.val + 8 * i) 8 := by
    have hl := l.isLt
    rw [seenRun_slice s _ (by omega), seenNum, Nat.add_assoc]
  have hnest : (nestOfBytes (s.seenRun a 192))[l] = ⟨(BitVec.ofNat 64 (seenNum s (a + 32 * l.val + 8 * 0) 8)).truncate 16,
      (BitVec.ofNat 64 (seenNum s (a + 32 * l.val + 8 * 1) 8)).truncate 22, (BitVec.ofNat 64 (seenNum s (a + 32 * l.val + 8 * 2) 8)).truncate 22,
      (BitVec.ofNat 64 (seenNum s (a + 32 * l.val + 8 * 3) 8)).truncate 22⟩ := by
    rw [← hdw 0, ← hdw 1, ← hdw 2, ← hdw 3] <;> simp [nestOfBytes]
  rw [hnest]
  fin_cases i <;> simp [NestLevel.csr] <;> omega

/-- A command that has changed its context has performed. -/
theorem State.setHandCtx_performedWith (s : State) (k : Ctx) (st : BitVec 4) (n : Nat) : (s.setHandCtx k).performedWith st n =
    s.matrix (s.fh.ctxs.set s.hand.ctx k) s.fh.scratch s.fh.banks s.fh.accs (s.hand.finish st n) := by
  have hfh : (s.setHandCtx k).fh = s.fh.setCtx s.hand.ctx k := s.fh_setFh _
  rw [State.performedWith, State.setHand, State.hand, hfh]
  exact s.setHearth_setHearth s.foc.h _ _

theorem matrixConfigLoadsTheNest : Claims.MatrixConfigLoadsTheNest := by
  intro f s
  have hexec : exec (.mxCfg f) s = .next ((s.setHandCtx { s.handCtx with nest := nestOfBytes (s.seenRun (s.hand.win 0).a0 192) }).performedWith 0 0) := rfl
  rw [State.setHandCtx_performedWith] at hexec
  refine completes_of hexec ?_
  have hctx (c : Fin 4) (k : Ctx) (d : Cmd) : (s.matrix (s.fh.ctxs.set s.hand.ctx k) s.fh.scratch s.fh.banks s.fh.accs d).fh.ctx c =
      if s.hand.ctx = c then k else s.fh.ctx c := by
    rw [State.matrix_fh]
    exact s.fh.ctx_setCtx s.hand.ctx c k
  have hhand (k : Ctx) : (s.matrix (s.fh.ctxs.set s.hand.ctx k) s.fh.scratch s.fh.banks s.fh.accs (s.hand.finish 0 0)).handCtx = k := by
    rw [State.handCtx, State.matrix_hand, hctx]
    exact if_pos rfl
  refine ⟨fun l i => ?_, by rw [State.matrix_hand]; rfl, State.onlyHearth_matrix, State.matrix_scratch, by rw [State.matrix_fh], ?_, fun c hc => ?_⟩
  · rw [hhand]
    exact nestOfBytes_csr ..
  · rw [hhand]
  · rw [hctx, if_neg hc.symm]

/-! ## `mx.ldb` (R172) -/

/-- The banks with the first `j` rows of bank `b` loaded. -/
def bankAfter (s : State) (f : CmdF) (j : Nat) (bk : Vector Bank 8) : Prop :=
  (∀ k : Fin 128, k.val < j → ((bk[Fin.ofNat 8 (f.pay 0)]).rows[k]).toNat =
    seenNum s ((s.hand.win 1).a0 + k.val * (s.hand.win 1).pitch) (rowBytes f.typ) % 2 ^ 2048) ∧
  ∀ b : Fin 8, b ≠ Fin.ofNat 8 (f.pay 0) → bk[b] = s.fh.banks[b]

/-- The state behind the first `j` rows of a bank load. -/
def LdbAt (s : State) (f : CmdF) (j : Nat) (t : State) : Prop :=
  ∃ bk c, t = s.matrix s.fh.ctxs s.fh.scratch bk s.fh.accs c ∧ c.wins = s.hand.wins ∧ c.pos = j ∧ c.performed = (j == 128) ∧
    (∀ x, seenAt c.latch s.fh.scratch x = seenByte s x) ∧ bankAfter s f j bk

theorem Cmd.win_congr {c d : Cmd} (h : c.wins = d.wins) (i : Nat) : c.win i = d.win i := by rw [Cmd.win, h, Cmd.win]

/-- A bank with one row replaced. -/
def Bank.setRow (b : Bank) (k : Nat) (raw : BitVec 2048) : Bank := { b with rows := b.rows.set (Fin.ofNat 128 k) raw }

theorem Bank.setRow_rows (b : Bank) {k : Nat} (hk : k < 128) (raw : BitVec 2048) (i : Fin 128) :
    (b.setRow k raw).rows[i] = if i.val = k then raw else b.rows[i] := by
  have hv : (Fin.ofNat 128 k).val = k := Nat.mod_eq_of_lt hk
  rw [Bank.setRow]
  show (b.rows.set (Fin.ofNat 128 k) raw)[i.val] = _
  rw [Vector.getElem_set, hv]
  simp only [eq_comm]
  rfl

/-- One row of a bank load, in a state of the matrix engine. -/
theorem ldbRow_matrix {s : State} {bk : Vector Bank 8} {c : Cmd} (f : CmdF) : ∃ l,
    (s.matrix s.fh.ctxs s.fh.scratch bk s.fh.accs c).ldbRow f = s.matrix s.fh.ctxs s.fh.scratch
      (bk.set (Fin.ofNat 8 (f.pay 0)) ((bk[Fin.ofNat 8 (f.pay 0)]).setRow c.pos (BitVec.ofNat 2048 (leNat ((List.range (rowBytes f.typ)).map
        fun i => seenAt c.latch s.fh.scratch ((c.win 1).a0 + c.pos * (c.win 1).pitch + i)))))) s.fh.accs
      ((c.withLatch l).unitOver 0 0 (c.pos + 1) (c.pos + 1 == 128)) ∧
    ∀ x, seenAt l s.fh.scratch x = seenAt c.latch s.fh.scratch x := by
  obtain ⟨l, hlatch, hsame, hrun⟩ := State.matrix_latchRun (s := s) (cs := s.fh.ctxs) (m := s.fh.scratch) (bk := bk) (ac := s.fh.accs) (c := c)
    ((c.win 1).a0 + c.pos * (c.win 1).pitch) (rowBytes f.typ)
  refine ⟨l, ?_, hsame⟩
  have heq (t : State) : t.ldbRow f =
      let u := t.latchRun ((t.hand.win 1).a0 + t.hand.pos * (t.hand.win 1).pitch) (rowBytes f.typ)
      (u.setFh { u.fh with banks := u.fh.banks.set (Fin.ofNat 8 (f.pay 0)) ((t.fh.banks[Fin.ofNat 8 (f.pay 0)]).setRow t.hand.pos
        (BitVec.ofNat 2048 (leNat (u.hand.latchedRun ((t.hand.win 1).a0 + t.hand.pos * (t.hand.win 1).pitch) (rowBytes f.typ)))))}).unitDone 0 0
        (t.hand.pos + 1) (t.hand.pos + 1 == 128) := rfl
  rw [heq, State.matrix_hand, hlatch]
  dsimp only
  rw [State.matrix_hand, hrun, State.matrix_setBanks, State.matrix_unitDone, State.matrix_fh, State.matrix_fh]

theorem ldbRow_step {s t : State} {f : CmdF} {j : Nat} (hj : j < 128) (h : LdbAt s f j t) : LdbAt s f (j + 1) (t.ldbRow f) := by
  obtain ⟨bk, c, rfl, hw, rfl, -, hseen, hrows, hother⟩ := h
  obtain ⟨l, hrow, hsame⟩ := ldbRow_matrix (s := s) (bk := bk) (c := c) f
  refine ⟨_, _, hrow, hw, rfl, rfl, fun x => (hsame x).trans (hseen x), fun k hk => ?_, fun b hb => ?_⟩
  · have hset : (bk.set (Fin.ofNat 8 (f.pay 0)) ((bk[Fin.ofNat 8 (f.pay 0)]).setRow c.pos (BitVec.ofNat 2048 (leNat ((List.range (rowBytes f.typ)).map
        fun i => seenAt c.latch s.fh.scratch ((c.win 1).a0 + c.pos * (c.win 1).pitch + i))))))[Fin.ofNat 8 (f.pay 0)] = _ := Vector.getElem_set_self _
    rw [hset, Bank.setRow_rows _ hj]
    split
    next he =>
      rw [BitVec.toNat_ofNat, he, Cmd.win_congr hw]
      simp only [hseen, seenNum]
    next hne => exact hrows k (by omega)
  · exact (Vector.getElem_set_ne _ b.isLt fun he => hb (Fin.ext he.symm)).trans (hother b hb)

theorem bankLoadCopiesRows : Claims.BankLoadCopiesRows := by
  intro f s hperf hpos hquota
  refine completes_of (t := s.units fun t => t.ldbRow f) rfl ?_
  obtain ⟨bk, c, ht, -, -, hp, -, hrows, hother⟩ := State.units_induct (LdbAt s f) hquota
    ⟨s.fh.banks, s.hand, s.matrix_start.symm, rfl, hpos, hperf, fun x => rfl, fun k hk => by omega, fun b _ => rfl⟩
    (fun j t hj h => ⟨by
      obtain ⟨bk, c, rfl, -, -, hp, -⟩ := h
      rw [State.matrix_hand, hp]
      simpa using by omega, ldbRow_step hj h⟩)
    (fun t ⟨bk, c, ht, _, _, hp, _⟩ => by rw [ht, State.matrix_hand, hp]; rfl)
  rw [ht]
  simp only [State.matrix_hand, State.matrix_fh]
  exact ⟨fun k => hrows k k.isLt, hother, hp, trivial, trivial, trivial, State.onlyHearth_matrix⟩

/-! ## Accumulator commands (R182) -/

theorem State.setAcc_performedWith (s : State) (n : Nat) (a : Acc) (st : BitVec 4) (k : Nat) :
    (s.setFh (s.fh.setAcc n a)).performedWith st k = s.matrix s.fh.ctxs s.fh.scratch s.fh.banks (s.fh.accs.set (Fin.ofNat 8 n) a)
      (s.hand.finish st k) := by
  conv_lhs => rw [← s.matrix_start]
  rw [State.matrix_setAcc, State.matrix_performedWith]

theorem accs_set_ne {ac : Vector Acc 8} {n m : Fin 8} (h : m ≠ n) (a : Acc) : (ac.set n a)[m] = ac[m] :=
  Vector.getElem_set_ne _ m.isLt fun he => h (Fin.ext he.symm)

theorem accs_set_self (ac : Vector Acc 8) (n : Fin 8) (a : Acc) : (ac.set n a)[n] = a := Vector.getElem_set_self _

/-- The products of `mx.scale`. -/
def scaled (f : CmdF) (x : W32) : Nat × BitVec 4 := Fmt.fp32.result f.rm f.sat (FVal.mul (val32 x.toNat) (val32 f.imm.toNat))

theorem scaled_gives (f : CmdF) (x : W32) : Gives .fp32 f.rm f.sat ((real32 x.toNat).mul (real32 f.imm.toNat)) (scaled f x) := by
  have h := Fmt.result_gives Fmt.fp32_sound f.rm f.sat (FVal.mul (val32 x.toNat) (val32 f.imm.toNat))
  rwa [exact_mul] at h

/-- An accumulator with its values scaled. -/
def Acc.scale (a : Acc) (f : CmdF) : Acc := { a with vals := (a.vals.map (scaled f)).map fun y => BitVec.ofNat 32 y.1 }

/-- Value `i` of an accumulator. -/
def Acc.value (a : Acc) (i : Nat) : W32 := (a.vals.toList[i]?).getD 0

theorem Acc.value_eq (a : Acc) (i : Fin 16384) : a.value i = a.vals[i] := by simp [Acc.value]

theorem Acc.toList_map_vals {α : Type} (a : Acc) (g : W32 → α) : (a.vals.map g).toList = (List.range 16384).map fun i => g (a.value i) := by
  refine List.ext_getElem (by simp) fun i h1 h2 => ?_
  have hi : i < 16384 := by simpa using h1
  simp [hi, Acc.value]

theorem exec_mxScale (f : CmdF) (s : State) : exec (.mxScale f) s = .next (s.matrix s.fh.ctxs s.fh.scratch s.fh.banks
    (s.fh.accs.set (Fin.ofNat 8 (f.pay 0)) ((s.fh.accs[Fin.ofNat 8 (f.pay 0)]).scale f))
    (s.hand.finish (((s.fh.accs[Fin.ofNat 8 (f.pay 0)]).vals.map (scaled f)).toList.foldl (fun z y => z ||| y.2) 0) 0)) := by
  have h : exec (.mxScale f) s = .next ((s.setFh (s.fh.setAcc (f.pay 0) ((s.fh.accs[Fin.ofNat 8 (f.pay 0)]).scale f))).performedWith
      (((s.fh.accs[Fin.ofNat 8 (f.pay 0)]).vals.map (scaled f)).toList.foldl (fun z y => z ||| y.2) 0) 0) := rfl
  rw [h, State.setAcc_performedWith]

theorem mxScale_scales (f : CmdF) (s : State) :
    let n : Fin 8 := Fin.ofNat 8 (f.pay 0)
    Completes (.mxScale f) s fun t =>
      (∃ x : Nat → Nat × BitVec 4,
        (∀ i : Fin 16384, Gives .fp32 f.rm f.sat ((real32 ((s.fh.accs[n]).vals[i]).toNat).mul (real32 f.imm.toNat)) (x i) ∧
          ((t.fh.accs[n]).vals[i]).toNat = (x i).1) ∧
        StatusGains s t (· < 16384) (fun i => (x i).2)) ∧
      (t.fh.accs[n]).smax = (s.fh.accs[n]).smax ∧ (∀ m, m ≠ n → t.fh.accs[m] = s.fh.accs[m]) ∧ t.hand.performed = true ∧
      t.fh.banks = s.fh.banks ∧ t.fh.scratch = s.fh.scratch ∧ OnlyHearth s.foc.h s t := by
  intro n
  refine completes_of (exec_mxScale f s) ?_
  rw [State.matrix_hand, State.matrix_fh]
  dsimp only
  rw [accs_set_self]
  refine ⟨⟨fun i => scaled f ((s.fh.accs[n]).value i), fun i => ?_, fun j => ?_⟩, rfl, fun m hm => accs_set_ne hm _, rfl, rfl, rfl,
    State.onlyHearth_matrix⟩
  · beta_reduce
    rw [Acc.value_eq]
    refine ⟨scaled_gives f _, ?_⟩
    have hv : ((s.fh.accs[n]).scale f).vals[i] = BitVec.ofNat 32 (scaled f (s.fh.accs[n]).vals[i]).1 := by simp [Acc.scale]
    refine (congrArg BitVec.toNat hv).trans ?_
    rw [BitVec.toNat_ofNat, Nat.mod_eq_of_lt]
    exact Fmt.result_lt Fmt.fp32_sound ..
  · rw [State.matrix_hand, Cmd.finish, Acc.toList_map_vals, List.foldl_map, bit4_or, Bool.or_eq_true, bit_foldl_or]
    simp only [bit4_zero, Bool.false_eq_true, false_or, List.mem_range]
    rfl

theorem mxZero_clears (f : CmdF) (s : State) :
    let n : Fin 8 := Fin.ofNat 8 (f.pay 0)
    Completes (.mxZero f) s fun t =>
      (t.fh.accs[n]).vals = (if f.pay 1 = 2 then (s.fh.accs[n]).vals else Vector.replicate 16384 0) ∧
      (t.fh.accs[n]).smax = (if f.pay 1 = 1 then (s.fh.accs[n]).smax else Vector.replicate 128 (0xFF800000#32, 0#32)) ∧
      (∀ m, m ≠ n → t.fh.accs[m] = s.fh.accs[m]) ∧ t.hand.performed = true ∧
      t.fh.banks = s.fh.banks ∧ t.fh.scratch = s.fh.scratch ∧ OnlyHearth s.foc.h s t := by
  intro n
  have h : exec (.mxZero f) s = .next ((s.setFh (s.fh.setAcc (f.pay 0) (if f.pay 1 = 1 then (if f.pay 1 = 2 then s.fh.accs[n] else (s.fh.accs[n]).zeroVals)
      else (if f.pay 1 = 2 then s.fh.accs[n] else (s.fh.accs[n]).zeroVals).resetPairs))).performedWith 0 0) := rfl
  rw [State.setAcc_performedWith] at h
  refine completes_of h ?_
  rw [State.matrix_hand, State.matrix_fh]
  dsimp only
  refine ⟨?_, ?_, fun m hm => accs_set_ne hm _, rfl, rfl, rfl, State.onlyHearth_matrix⟩
  · rw [accs_set_self]
    split <;> split <;> rfl
  · rw [accs_set_self]
    split
    next => split <;> rfl
    next => rfl

/-- The bytes of the pairs of an accumulator. -/
def Acc.pairBytes (a : Acc) : List Byte := a.smax.toList.flatMap fun p => leBytes 4 p.1.toNat ++ leBytes 4 p.2.toNat

theorem exec_mxRdst (f : CmdF) (s : State) : ∃ cs c, exec (.mxRdst f) s = .next (s.matrix cs
    (s.fh.scratch.store (s.hand.win 0).a0 (s.fh.accs[Fin.ofNat 8 (f.pay 1)]).pairBytes) s.fh.banks s.fh.accs c) ∧ c.performed = true := by
  have h : exec (.mxRdst f) s = .next (((s.scratchPut (s.hand.win 0).a0 (s.fh.acc (f.pay 1 % 8)).pairBytes).performedWith 0 1024).setHand
      ((((s.scratchPut (s.hand.win 0).a0 (s.fh.acc (f.pay 1 % 8)).pairBytes).performedWith 0 1024)).hand.allDone 0)) := rfl
  have hn : s.fh.acc (f.pay 1 % 8) = s.fh.accs[Fin.ofNat 8 (f.pay 1)] := by
    have : (Fin.ofNat 8 (f.pay 1 % 8)) = Fin.ofNat 8 (f.pay 1) := Fin.ext (Nat.mod_mod _ _)
    exact congrArg (fun i : Fin 8 => s.fh.accs[i]) this
  obtain ⟨cs, -, hput⟩ := State.matrix_scratchPut (CtxsOf.start s) (m := s.fh.scratch) (bk := s.fh.banks) (ac := s.fh.accs) (c := s.hand)
    (s.hand.win 0).a0 (s.fh.accs[Fin.ofNat 8 (f.pay 1)]).pairBytes
  rw [State.matrix_start] at hput
  rw [hn, hput, State.matrix_performedWith, State.matrix_hand, State.matrix_setHand] at h
  exact ⟨cs, _, h, rfl⟩

/-- The parts of a concatenation of lists of one length, at an offset in each. -/
theorem take_drop_flatMap {α β : Type} (f : β → List α) {k : Nat} (hk : ∀ x, (f x).length = k) (l : List β) {i : Nat} (hi : i < l.length)
    {j n : Nat} (hj : j + n ≤ k) : ((l.flatMap f).drop (k * i + j)).take n = ((f l[i]).drop j).take n := by
  induction l generalizing i with
  | nil => cases hi
  | cons x l ih =>
    rw [List.flatMap_cons]
    cases i with
    | zero =>
      rw [Nat.mul_zero, Nat.zero_add, List.drop_append_of_le_length (by rw [hk]; omega), List.take_append_of_le_length (by rw [List.length_drop, hk]; omega)]
      rfl
    | succ i =>
      have hd : k * (i + 1) + j = (f x).length + (k * i + j) := by rw [hk, Nat.mul_succ]; omega
      rw [hd, List.drop_length_add_append]
      exact ih (by simpa using hi)

theorem Acc.pairBytes_slice (a : Acc) (r : Fin 128) : ((a.pairBytes.drop (8 * r.val)).take 4 = leBytes 4 (a.smax[r]).1.toNat) ∧
    (a.pairBytes.drop (8 * r.val + 4)).take 4 = leBytes 4 (a.smax[r]).2.toNat := by
  have hlen (p : W32 × W32) : (leBytes 4 p.1.toNat ++ leBytes 4 p.2.toNat).length = 8 := by simp
  have hr : r.val < a.smax.toList.length := by simp
  have hget : a.smax.toList[r.val] = a.smax[r] := by simp
  have h1 := take_drop_flatMap _ hlen a.smax.toList hr (j := 0) (n := 4) (by omega)
  have h2 := take_drop_flatMap _ hlen a.smax.toList hr (j := 4) (n := 4) (by omega)
  rw [hget] at h1 h2
  exact ⟨h1.trans (by rw [List.drop_zero, List.take_left' (length_leBytes ..)]),
    h2.trans (by rw [List.drop_left' (length_leBytes ..), List.take_of_length_le (length_leBytes ..).le])⟩

theorem Acc.length_pairBytes (a : Acc) : a.pairBytes.length = 1024 := by simp [Acc.pairBytes, List.length_flatMap]

theorem mxRdst_reads (f : CmdF) (s : State) : Completes (.mxRdst f) s fun t =>
    (∀ r : Fin 128,
      let p := (s.fh.accs[Fin.ofNat 8 (f.pay 1)]).smax[r]
      leNat (t.fh.scratch.bytes ((s.hand.win 0).a0 + 8 * r.val) 4) = p.1.toNat ∧
      leNat (t.fh.scratch.bytes ((s.hand.win 0).a0 + 8 * r.val + 4) 4) = p.2.toNat) ∧
    SameOutside (s.hand.win 0).a0 1024 s.fh.scratch t.fh.scratch ∧ t.fh.accs = s.fh.accs ∧ t.hand.performed = true ∧ OnlyHearth s.foc.h s t := by
  obtain ⟨cs, c, hexec, hperf⟩ := exec_mxRdst f s
  refine completes_of hexec ?_
  rw [State.matrix_hand, State.matrix_fh]
  dsimp only
  have hlen := (s.fh.accs[Fin.ofNat 8 (f.pay 1)]).length_pairBytes
  refine ⟨fun r => ?_, fun x hx => Mem.sameOutside_store _ _ _ (by rw [hlen]; exact hx), rfl, hperf, State.onlyHearth_matrix⟩
  obtain ⟨h1, h2⟩ := (s.fh.accs[Fin.ofNat 8 (f.pay 1)]).pairBytes_slice r
  have hr := r.isLt
  have h32 (x : W32) : leNat (leBytes 4 x.toNat) = x.toNat := by rw [leNat_leBytes]; exact Nat.mod_eq_of_lt x.isLt
  rw [Nat.add_assoc, Mem.bytes_store_sub _ _ _ _ _ (by rw [hlen]; omega), Mem.bytes_store_sub _ _ _ _ _ (by rw [hlen]; omega), h1, h2, h32, h32]
  exact ⟨rfl, rfl⟩

/-! ## The obligation -/

theorem accumulatorCommands : Claims.AccumulatorCommands := fun f s => ⟨mxZero_clears f s, mxScale_scales f s, mxRdst_reads f s⟩

/-- Settles O29: the loads by the bytes that their command sees, the accumulator commands by the values that they replace. -/
theorem matrixLoadsAndAccumulators : Obligations.MatrixLoadsAndAccumulators :=
  ⟨matrixConfigLoadsTheNest, bankLoadCopiesRows, accumulatorCommands⟩

end Sys2Proof.Machine

/-! PROOFS. Rows of the running nest (O30; R67 to R69, R173, R175). -/

namespace Sys2Proof.Machine

/-! ## One unit -/

theorem State.units_one {s : State} (h : OneUnit s) (u : State → State) : s.units u = u s := by
  obtain ⟨hquota, hperf, -, -⟩ := h
  rw [State.units, hquota, repeatUnits, hperf, if_neg Bool.false_ne_true, repeatUnits]

/-- A state of the matrix engine has the frame of a unit. -/
theorem State.unitFrame_matrix {s : State} {cs : Vector Ctx 4} {m : Mem} {bk : Vector Bank 8} {ac : Vector Acc 8} {c : Cmd} (h : CtxsOf s cs)
    {pos : Nat} {last : Bool} (hpos : c.pos = pos) (hlast : c.performed = last) : UnitFrame s (s.matrix cs m bk ac c) pos last := by
  obtain ⟨hworld, hother⟩ := State.onlyHearth_matrix (s := s) (cs := cs) (m := m) (bk := bk) (ac := ac) (c := c)
  refine ⟨by rw [State.matrix_hand, hpos], by rw [State.matrix_hand, hlast], hworld, hother, by rw [State.matrix_fh], by rw [State.matrix_fh],
    fun i => ?_⟩
  rw [State.matrix_fh]
  exact h i

/-- With no earlier access outstanding every byte is ready. -/
theorem bytesReady_nil (e : SbEntry) (a b : Nat) : bytesReady [] e a b = true := by
  simp [bytesReady, chunkReady, writeReady]

/-! ## Rows of an accumulator -/

/-- The index of a value of an accumulator. -/
theorem Acc.row_eq (a : Acc) {r j : Nat} (hr : r < 128) (hj : j < 128) : a.row r j = (a.vals[Fin.ofNat 16384 (r * 128 + j)]).toNat := by
  have hv : (Fin.ofNat 16384 (r * 128 + j)).val = r * 128 + j := Nat.mod_eq_of_lt (by omega)
  rw [← a.value_eq, hv]
  rfl

theorem Acc.setRow_vals (a : Acc) (r : Nat) (v : Array Nat) (i : Fin 16384) :
    (a.setRow r v).vals[i] = if i.val / 128 = r then BitVec.ofNat 32 ((v[i.val % 128]?).getD 0) else a.vals[i] := by
  simp [Acc.setRow]

theorem State.setAcc_unitDone (s : State) (n : Nat) (a : Acc) (st : BitVec 4) (bytes pos : Nat) (last : Bool) :
    (s.setFh (s.fh.setAcc n a)).unitDone st bytes pos last = s.matrix s.fh.ctxs s.fh.scratch s.fh.banks (s.fh.accs.set (Fin.ofNat 8 n) a)
      (s.hand.unitOver st bytes pos last) := by
  conv_lhs => rw [← s.matrix_start]
  rw [State.matrix_setAcc, State.matrix_unitDone]

theorem Acc.setRow_smax (a : Acc) (r : Nat) (v : Array Nat) : (a.setRow r v).smax = a.smax := by rw [Acc.setRow]

/-! ## A row of the nest (R175) -/

/-- The row sum of one column. -/
def goSum (x : Option (Nat → FVal)) (bank : Bank) (k : Nat) : Nat × BitVec 4 :=
  match bank.latch with
  | none => (0, 0)
  | some lt =>
    match x with
    | none => (0, 0)
    | some x => rowSum ((List.range 128).map fun i => FVal.mul (x i) (rowElem lt (bank.rows[Fin.ofNat 128 i]).toNat k))

/-- The new value of one column, and its status. -/
def goCell (x : Option (Nat → FVal)) (bank : Bank) (old : Nat → Nat) (k : Nat) : Nat × BitVec 4 :=
  ((accAdd (old k) (goSum x bank k).1).1, (goSum x bank k).2 ||| (accAdd (old k) (goSum x bank k).1).2)

theorem tab_congr {α : Type} {n : Nat} {g h : Nat → α} (e : ∀ k, k < n → g k = h k) : tab n g = tab n h := by
  rw [tab, tab]
  exact congrArg Array.ofFn (funext fun i => e i i.isLt)

theorem goRowVals_eq (x : Option (Nat → FVal)) (bank : Bank) (old : Nat → Nat) :
    goRowVals (x.map (tab 128)) bank old = tab 128 (goCell x bank old) := by
  rw [goRowVals]
  refine tab_congr fun n hn => ?_
  unfold goCell goSum
  cases x with
  | none => cases bank.latch <;> rfl
  | some x =>
    cases bank.latch with
    | none => rfl
    | some lt =>
      have hrows (k : Nat) (hk : k ∈ List.range 128) : FVal.mul (((tab 128 x)[k]?).getD .nan)
          (((((tab 128 fun k => tab 128 fun n => rowElem lt (bank.rows[Fin.ofNat 128 k]).toNat n)[k]?).getD #[])[n]?).getD .nan) =
          FVal.mul (x k) (rowElem lt (bank.rows[Fin.ofNat 128 k]).toNat n) := by
        have hk := List.mem_range.1 hk
        rw [tab_getElem? _ hk, tab_getElem? _ hk, Option.getD_some, Option.getD_some, tab_getElem? _ hn, Option.getD_some]
      have hmap := List.map_congr_left hrows
      dsimp only [Option.map_some]
      rw [hmap]

/-- The address of the activations of the row in hand. -/
def goAddr (s : State) : Int := ((s.hand.win 0).a0 : Int) + nestSum s.hand.nest.toList (·.sa) s.hand.pos
def goBank (s : State) (f : CmdF) : Fin 8 := Fin.ofNat 8 (((f.pay 1 : Int) + nestSum s.hand.nest.toList (·.sb) s.hand.pos) % 8).toNat
def goTarget (s : State) (f : CmdF) : Nat := ((((f.pay 2 * 128 : Nat) : Int) + nestSum s.hand.nest.toList (·.sc) s.hand.pos) % 1024).toNat

/-- The row in hand lies inside the window. -/
def goInside (s : State) (f : CmdF) : Bool :=
  decide (((s.hand.win 0).a0 : Int) ≤ goAddr s) && decide (goAddr s + (rowBytes f.typ : Int) - 1 ≤ ((s.hand.win 0).last : Int))

/-- The activations of the row in hand. -/
def goStream (s : State) (f : CmdF) : Option (Nat → FVal) :=
  if goInside s f then some (rowElem f.typ (seenNum s (goAddr s).toNat (rowBytes f.typ))) else none

/-- The new values of the row in hand. -/
def goNew (s : State) (f : CmdF) : Nat → Nat × BitVec 4 :=
  goCell (goStream s f) s.fh.banks[goBank s f] fun i => (s.fh.acc (goTarget s f / 128)).row (goTarget s f % 128) i

/-- The status of a table of results. -/
theorem bit_foldl_tab {n : Nat} (g : Nat → Nat × BitVec 4) (j : Nat) :
    bit ((tab n g).foldl (fun z y => z ||| y.2) 0) j = true ↔ ∃ e, e < n ∧ bit (g e).2 j = true := by
  rw [← Array.foldl_toList, toList_tab, List.foldl_map, bit_foldl_or]
  simp only [bit4_zero, Bool.false_eq_true, false_or, List.mem_range]

theorem goRow_eq {s : State} (f : CmdF) (free : s.fh.earlier s.hand.seq = []) : ∃ l, s.goRow f =
    s.matrix s.fh.ctxs s.fh.scratch s.fh.banks (s.fh.accs.set (Fin.ofNat 8 (goTarget s f / 128))
      ((s.fh.acc (goTarget s f / 128)).setRow (goTarget s f % 128) ((tab 128 (goNew s f)).map (·.1))))
      ((s.hand.withLatch l).unitOver ((tab 128 (goNew s f)).foldl (fun z y => z ||| y.2) 0) 0 (s.hand.pos + 1)
        (s.hand.pos + 1 == nestRows s.hand.nest.toList)) := by
  have heq : s.goRow f =
      if goInside s f && !bytesReady (s.fh.earlier s.hand.seq) ((s.hand.entries[0]?).getD (sbEntry false 0 0)) (goAddr s).toNat
          ((goAddr s).toNat + rowBytes f.typ - 1) then s
      else
        let t := if goInside s f then s.latchRun (goAddr s).toNat (rowBytes f.typ) else s
        let v := goRowVals (if goInside s f then some (tab 128 (rowElem f.typ
            (if goInside s f then leNat (t.hand.latchedRun (goAddr s).toNat (rowBytes f.typ)) else 0))) else none)
          s.fh.banks[goBank s f] fun i => (s.fh.acc (goTarget s f / 128)).row (goTarget s f % 128) i
        (t.setFh (t.fh.setAcc (goTarget s f / 128) ((s.fh.acc (goTarget s f / 128)).setRow (goTarget s f % 128) (v.map (·.1))))).unitDone
          (v.foldl (fun z y => z ||| y.2) 0) 0 (s.hand.pos + 1) (s.hand.pos + 1 == nestRows s.hand.nest.toList) := rfl
  rw [heq, free, bytesReady_nil, Bool.not_true, Bool.and_false, if_neg Bool.false_ne_true]
  cases hin : goInside s f with
  | false =>
    refine ⟨s.hand.latch, ?_⟩
    have hv := goRowVals_eq none s.fh.banks[goBank s f] fun i => (s.fh.acc (goTarget s f / 128)).row (goTarget s f % 128) i
    have hnew : goNew s f = goCell none s.fh.banks[goBank s f] fun i => (s.fh.acc (goTarget s f / 128)).row (goTarget s f % 128) i := by
      rw [goNew, goStream, hin]; rfl
    rw [← hnew, Option.map_none] at hv
    simp only [Bool.false_eq_true, if_false, hv]
    exact s.setAcc_unitDone ..
  | true =>
    obtain ⟨l, hlatch, -, hrun⟩ := State.matrix_latchRun (s := s) (cs := s.fh.ctxs) (m := s.fh.scratch) (bk := s.fh.banks) (ac := s.fh.accs)
      (c := s.hand) (goAddr s).toNat (rowBytes f.typ)
    refine ⟨l, ?_⟩
    rw [State.matrix_start] at hlatch
    have hv := goRowVals_eq (goStream s f) s.fh.banks[goBank s f] fun i => (s.fh.acc (goTarget s f / 128)).row (goTarget s f % 128) i
    simp only [goStream, hin, if_true, Option.map_some] at hv
    have hraw : leNat ((s.hand.withLatch l).latchedRun (goAddr s).toNat (rowBytes f.typ)) = seenNum s (goAddr s).toNat (rowBytes f.typ) := by
      rw [hrun]; rfl
    simp only [if_true, hlatch, State.matrix_hand, hraw]
    rw [hv]
    simp only [State.matrix_setAcc, State.matrix_unitDone, goNew, goStream, hin, if_true]

theorem nestRowAccumulates : Claims.NestRowAccumulates := by
  intro f s c ls a bank row raw n inside sum old hone
  have hunit := State.units_one hone fun t => t.goRow f
  obtain ⟨-, -, -, free⟩ := hone
  obtain ⟨l, hrow⟩ := goRow_eq f free
  have hexec : exec (.mxGo f) s = .next (s.units fun t => t.goRow f) := rfl
  rw [hunit, hrow] at hexec
  refine completes_of hexec ?_
  have hr : row % 128 < 128 := Nat.mod_lt _ (by decide)
  have hsum (k : Nat) : goSum (goStream s f) bank k = sum k := by
    have hin : goInside s f = true ↔ inside := by rw [goInside, Bool.and_eq_true, decide_eq_true_eq, decide_eq_true_eq]; rfl
    show goSum (goStream s f) bank k = match bank.latch with
      | none => (0, 0)
      | some lt => if inside then rowSum ((List.range 128).map fun i =>
          FVal.mul (rowElem f.typ raw i) (rowElem lt (bank.rows[Fin.ofNat 128 i]).toNat k)) else (0, 0)
    rw [goSum, goStream]
    cases bank.latch with
    | none => rfl
    | some lt =>
      by_cases h : inside
      · rw [if_pos (hin.2 h)]
        exact (if_pos h).symm
      · rw [if_neg fun h' => h (hin.1 h')]
        exact (if_neg h).symm
  have hnew (k : Nat) (hk : k < 128) : goNew s f k = ((accAdd (old k) (sum k).1).1, (sum k).2 ||| (accAdd (old k) (sum k).1).2) := by
    have hold : (s.fh.acc (goTarget s f / 128)).row (goTarget s f % 128) k = old k := Acc.row_eq _ hr hk
    rw [← hsum, ← hold]
    rfl
  have hself : (s.fh.accs.set (Fin.ofNat 8 (goTarget s f / 128))
      ((s.fh.acc (goTarget s f / 128)).setRow (goTarget s f % 128) ((tab 128 (goNew s f)).map (·.1))))[n] = _ := accs_set_self ..
  rw [State.matrix_fh]
  dsimp only
  rw [hself]
  refine ⟨fun i => ?_, fun j => ?_, Acc.setRow_smax .., fun m hm => accs_set_ne hm _, rfl, rfl, State.unitFrame_matrix (CtxsOf.start s) rfl rfl⟩
  · have hk : i.val % 128 < 128 := Nat.mod_lt _ (by decide)
    have hget : ((tab 128 (goNew s f)).map (·.1))[i.val % 128]? = some (goNew s f (i.val % 128)).1 := by
      rw [tab_map]
      exact tab_getElem? (fun k => (goNew s f k).1) hk
    rw [Acc.setRow_vals, hget, Option.getD_some, hnew _ hk]
    rfl
  · rw [State.matrix_hand, Cmd.unitOver, bit4_or, Bool.or_eq_true, bit_foldl_tab]
    refine or_congr Iff.rfl (exists_congr fun k => and_congr_right fun hk => ?_)
    rw [hnew k hk]

end Sys2Proof.Machine

/-! PROOFS. A row of a drain: its encoding and the bytes that it writes (O30; R177, R178, R225). -/

namespace Sys2Proof.Machine

/-! ## The encoding of a row -/

/-- An exact value to convert, an invalid one as a NaN. -/
def plainValue (x : FVal × Bool) : FVal := if x.2 then .nan else x.1

/-- A value of the model stands for an exact one: each conversion of it is that of the exact value. -/
def StandsFor (t : Ty) (rm : Rm) (sat : Bool) (v : FVal × Bool) (x : Option Exact) : Prop :=
  (t.isFloat = true → Gives t.fmt rm sat x (t.fmt.result rm sat v)) ∧
  (t.isInt = true → IntegerIs t rm sat x (toIntConv t rm sat (plainValue v))) ∧ PbStands (plainValue v) x

theorem standsFor_exact (t : Ty) (rm : Rm) (sat : Bool) (v : FVal) : StandsFor t rm sat (v, false) (some (Exact.of v)) :=
  ⟨fun _ => Fmt.result_gives (Ty.fmt_sound t) rm sat (v, false), fun _ => toIntConv_is t rm sat v, pbStands_exact v⟩

/-- The elements or blocks of a row, and their bytes. -/
def rowUnits (t : Ty) : Nat := if t.isPb then 8 else 128
def rowSize (t : Ty) : Nat := if t.isPb then t.pbBytes else t.bytes

/-- An element or block of a row with its status. -/
def rowUnit (t : Ty) (rm : Rm) (sat : Bool) (xs : Nat → FVal × Bool) (j : Nat) : Nat × BitVec 4 :=
  if t.isPb then pbEncode t rm (pbSlots 16 fun i => plainValue (xs (16 * j + i))) else toTy t rm sat (xs j)

theorem rowBytes_eq (t : Ty) : rowBytes t = rowSize t * rowUnits t := by
  unfold rowBytes rowSize rowUnits
  split <;> exact Nat.mul_comm ..

theorem map_range_blocks {α : Type} (g : Nat → α) (k n : Nat) :
    (List.range n).flatMap (fun b => (List.range k).map fun i => g (k * b + i)) = (List.range (k * n)).map g := by
  induction n with
  | zero => simp
  | succ n ih => rw [List.range_succ, List.flatMap_append, ih, Nat.mul_succ, List.range_add, List.map_append]; simp [Function.comp_def]

theorem row_slots (xs : Nat → FVal × Bool) {b : Nat} (hb : b < 8) : ((((List.range 128).map xs).drop (16 * b)).take 16).map
    (fun x => some (plainValue x)) = pbSlots 16 fun i => plainValue (xs (16 * b + i)) := by
  refine List.ext_getElem (by simp [pbSlots]; omega) fun i h1 h2 => ?_
  have hi : i < 16 := by simpa [pbSlots] using h2
  simp [pbSlots, hi]

theorem drainRow_eq (t : Ty) (rm : Rm) (sat : Bool) (xs : Nat → FVal × Bool) : drainRow t rm sat ((List.range 128).map xs) =
    ((List.range (rowUnits t)).flatMap fun j => leBytes (rowSize t) (rowUnit t rm sat xs j).1,
     (List.range 128).map (written t fun j => (rowUnit t rm sat xs j).1),
     (List.range (rowUnits t)).foldl (fun a j => a ||| (rowUnit t rm sat xs j).2) 0) := by
  cases hp : t.isPb with
  | false =>
    have hw : (written t fun j => (rowUnit t rm sat xs j).1) = fun j => t.value (toTy t rm sat (xs j)).1 := by
      funext j; rw [written, hp, if_neg Bool.false_ne_true, rowUnit, hp]; rfl
    rw [hw]
    simp only [drainRow, rowUnits, rowSize, rowUnit, hp, Bool.false_eq_true, if_false, List.map_map, List.flatMap_map, List.foldl_map,
      Function.comp_def]
  | true =>
    have hb : ((List.range 8).map fun b => pbEncode t rm (((((List.range 128).map xs).drop (16 * b)).take 16).map
        fun x => some (if x.2 then .nan else x.1))) = (List.range 8).map (rowUnit t rm sat xs) := by
      refine List.map_congr_left fun b hb => ?_
      rw [rowUnit, hp]
      exact congrArg (pbEncode t rm) (row_slots xs (List.mem_range.1 hb))
    have hw : (List.range 128).map (written t fun j => (rowUnit t rm sat xs j).1) =
        (List.range 8).flatMap fun b => (List.range 16).map (pbElem t (rowUnit t rm sat xs b).1) := by
      refine (map_range_blocks _ 16 8).symm.trans (List.flatMap_congr fun b _ => List.map_congr_left fun i hi => ?_)
      have hi := List.mem_range.1 hi
      rw [written, hp, show (16 * b + i) / 16 = b by omega, show (16 * b + i) % 16 = i by omega]
      rfl
    rw [hw, drainRow, hp, if_pos rfl]
    dsimp only
    rw [hb]
    simp only [rowUnits, rowSize, hp, if_true, List.flatMap_map, List.foldl_map]

theorem getElem_flatMap_range {α : Type} (g : Nat → List α) {k : Nat} (hk : ∀ j, (g j).length = k) {n i : Nat} (hi : i < k * n) :
    ((List.range n).flatMap g)[i]? = (g (i / k))[i % k]? := by
  have hpos : 0 < k := Nat.pos_of_mul_pos_right (Nat.zero_lt_of_lt hi)
  have hj : i / k < (List.range n).length := by rw [List.length_range]; exact Nat.div_lt_of_lt_mul hi
  have h := take_drop_flatMap g hk (List.range n) hj (j := i % k) (n := 1) (Nat.mod_lt _ hpos)
  rw [Nat.div_add_mod, List.getElem_range] at h
  have h0 := congrArg (·[0]?) h
  simpa using h0

/-- The bytes of a row, its elements or blocks, and its status. -/
theorem drainRow_is {t : Ty} {rm : Rm} {sat : Bool} {xs : Nat → FVal × Bool} {x : Nat → Option Exact}
    (h : ∀ j, j < 128 → StandsFor t rm sat (xs j) (x j)) : RowIs t rm sat x (fun j => (rowUnit t rm sat xs j).1)
      (fun i => ((drainRow t rm sat ((List.range 128).map xs)).1[i]?).getD 0) (drainRow t rm sat ((List.range 128).map xs)).2.2 := by
  rw [drainRow_eq]
  refine ⟨fun j => (rowUnit t rm sat xs j).2, fun j hj => ?_, fun i hi => ?_, fun k => ?_⟩
  · cases hp : t.isPb with
    | false =>
      have hj : j < 128 := by simpa [hp] using hj
      obtain ⟨hfloat, hint, -⟩ := h j hj
      have hu : rowUnit t rm sat xs j = toTy t rm sat (xs j) := by rw [rowUnit, hp]; rfl
      refine ⟨fun hf => ?_, fun hi => ?_, fun hpb => absurd hpb Bool.false_ne_true⟩
      · beta_reduce
        rw [hu, toTy, hf]; exact hfloat hf
      · have hf : t.isFloat = false := by
          simp only [Ty.isInt, Bool.and_eq_true, Bool.not_eq_true'] at hi
          exact hi.1
        beta_reduce
        rw [hu, toTy, hf]; exact hint hi
    | true =>
      have hj : j < 8 := by simpa [hp] using hj
      have hu : rowUnit t rm sat xs j = pbEncode t rm (pbSlots 16 fun i => plainValue (xs (16 * j + i))) := by rw [rowUnit, hp]; rfl
      refine ⟨fun hf => ?_, fun hi => ?_, fun _ => ?_⟩
      · cases t <;> simp_all [Ty.isPb, Ty.isFloat]
      · rw [Ty.isInt, hp] at hi; simp at hi
      · beta_reduce
        rw [hu]
        exact pbEncode_is (fun i hi => (h (16 * j + i) (by omega)).2.2) le_rfl
  · rw [rowBytes_eq] at hi
    have hpos : 0 < rowSize t := Nat.pos_of_mul_pos_right (Nat.zero_lt_of_lt hi)
    beta_reduce
    rw [getElem_flatMap_range _ (fun _ => length_leBytes ..) hi]
    rw [List.getElem?_eq_getElem (by rw [length_leBytes]; exact Nat.mod_lt _ hpos), Option.getD_some, getElem_leBytes]
    rfl
  · rw [bit_foldl_or]
    simp only [bit4_zero, Bool.false_eq_true, false_or, List.mem_range]
    rfl

end Sys2Proof.Machine

/-! PROOFS. A step of a drain: its bytes, which may wait for a granule, its bins and the clearing of its accumulator (O30; R177, R178, R225). -/

namespace Sys2Proof.Machine

/-! ## Bytes that wait for their granule (R225) -/

theorem bytesAt_eq_zip (a : Nat) (bs : List Byte) : bytesAt a bs = (List.range' a bs.length).zip bs := by
  refine List.ext_getElem (by simp [bytesAt]) fun i h1 h2 => ?_
  simp [bytesAt]

theorem Mem.read_writeAll_bytesAt (m : Mem) (a : Nat) (bs : List Byte) (x : Nat) : (m.writeAll (bytesAt a bs)).read x =
    if a ≤ x ∧ x < a + bs.length then (bs[x - a]?).getD 0 else m.read x := by
  rw [bytesAt_eq_zip]
  split
  next h =>
    have hmap := Mem.map_read_writeAll m (List.range' a bs.length) bs List.nodup_range' (by simp)
    have hget := congrArg (·[x - a]?) hmap
    have hx : x - a < (List.range' a bs.length).length := by rw [List.length_range']; omega
    rw [List.getElem?_map, List.getElem?_eq_getElem hx] at hget
    rw [← hget]
    simp only [Option.map_some, Option.getD_some, List.getElem_range', Nat.one_mul, Nat.add_sub_cancel' h.1]
  next h => exact Mem.read_writeAll_outside _ _ _ fun hx => h (List.mem_range'_1.1 hx)

theorem lateByte_eq (s : State) (x : Nat) : lateByte s x = (s.fh.scratch.writeAll s.hand.late).read x := (Mem.read_writeAll_last ..).symm

/-- A command that keeps these bytes back. -/
def Cmd.keeps (c : Cmd) (l : List (Nat × Byte)) : Cmd := { c with late := l }

/-- Of bytes to write, those that wait for later runs, and those that do not. -/
def keptBack (ks : List (Nat × Byte)) (later : List (Nat × Nat)) : List (Nat × Byte) := ks.filter fun k => ivsGran later (k.1 / 64)
def writtenNow (ks : List (Nat × Byte)) (later : List (Nat × Nat)) : List (Nat × Byte) := ks.filter fun k => !ivsGran later (k.1 / 64)

theorem Mem.read_writtenNow_keptBack (m : Mem) (ks : List (Nat × Byte)) (later : List (Nat × Nat)) (x : Nat) :
    ((m.writeAll (writtenNow ks later)).writeAll (keptBack ks later)).read x = (m.writeAll ks).read x := by
  have h := Mem.read_writeAll_partition m ks (fun a => ivsGran later (a / 64)) x
  rwa [List.partition_eq_filter_filter] at h

theorem keptBack_nil (ks : List (Nat × Byte)) : keptBack ks [] = [] := List.filter_eq_nil_iff.2 fun _ _ h => Bool.false_ne_true h

theorem writtenNow_nil (ks : List (Nat × Byte)) : writtenNow ks [] = ks := List.filter_eq_self.2 fun _ _ => rfl

theorem State.matrix_putLate {s : State} {cs : Vector Ctx 4} {m : Mem} {bk : Vector Bank 8} {ac : Vector Acc 8} {c : Cmd} (h : CtxsOf s cs)
    (ks : List (Nat × Byte)) (later : List (Nat × Nat)) : ∃ cs', CtxsOf s cs' ∧ (s.matrix cs m bk ac c).putLate ks later =
      s.matrix cs' (m.writeAll (writtenNow (c.late ++ ks) later)) bk ac (c.keeps (keptBack (c.late ++ ks) later)) := by
  obtain ⟨cs', hcs', e⟩ := State.matrix_scratchWrites (m := m) (bk := bk) (ac := ac) (c := c) h (writtenNow (c.late ++ ks) later)
  refine ⟨cs', hcs', ?_⟩
  rw [State.putLate, State.matrix_hand, List.partition_eq_filter_filter]
  refine (congrArg (fun t : State => t.setHand { c with late := keptBack (c.late ++ ks) later }) e).trans ?_
  rw [State.matrix_setHand]
  rfl

/-! ## The end of a drain's row -/

/-- The address of a row of the window of the drain in hand, and the runs of its rows from one on. -/
def drainAddr (s : State) : Nat := (s.hand.win 0).a0 + s.hand.pos * (s.hand.win 0).pitch
def drainRuns (s : State) (f : CmdF) (r : Nat) : List (Nat × Nat) := (s.hand.win 0).rowsFrom 128 (rowBytes f.typ) r

/-- What a row of a drain does behind its encoding. -/
def State.drainFin (s : State) (f : CmdF) (s1 : State) (bs : List Byte) (st : BitVec 4) : State :=
  let s2 := s1.putLate (bytesAt (drainAddr s) bs) (drainRuns s f (s.hand.pos + 1))
  let s3 := if s.hand.pos + 1 == 128 && f.pay 3 % 4 == 1 then s2.drainBins (f.pay 1) (s.hand.win 2).a0 else s2
  let s4 := if s.hand.pos + 1 == 128 && bit (f.opd 3) 2 then s3.drainClear (f.pay 1) (f.pay 3 % 4 == 3) else s3
  let s5 := s4.setHand (s4.hand.runDone 0 (drainAddr s) (rowBytes f.typ) (drainRuns s f (s.hand.pos + 1)))
  s5.unitDone st (if s.hand.pos + 1 == 128 then unionLen (drainRuns s f 0 ++
    (if f.pay 3 % 4 = 1 then [((s.hand.win 2).a0, (s.hand.win 2).a0 + 128)] else [])) else 0) (s.hand.pos + 1) (s.hand.pos + 1 == 128)

/-- The values of an accumulator as a histogram drain counts them. -/
def Acc.counted (a : Acc) : List FVal := (List.range 128).flatMap fun r => (a.rowList r).map val32

/-- All bytes of the drain in hand up to the end of a row. -/
def drainBytes (s : State) (bs : List Byte) : List (Nat × Byte) := s.hand.late ++ bytesAt (drainAddr s) bs

/-- The scratchpad, the accumulators and the command behind a row of a drain. -/
def drainMem (s : State) (f : CmdF) (ac : Vector Acc 8) (bs : List Byte) : Mem :=
  let m := s.fh.scratch.writeAll (writtenNow (drainBytes s bs) (drainRuns s f (s.hand.pos + 1)))
  if s.hand.pos + 1 == 128 && f.pay 3 % 4 == 1 then
    m.store (s.hand.win 2).a0 (addBins (m.bytes (s.hand.win 2).a0 128) (ac[Fin.ofNat 8 (f.pay 1)]).counted)
  else m

def drainAccs (s : State) (f : CmdF) (ac : Vector Acc 8) : Vector Acc 8 :=
  if s.hand.pos + 1 == 128 && bit (f.opd 3) 2 then
    let a := (ac[Fin.ofNat 8 (f.pay 1)]).zeroVals
    ac.set (Fin.ofNat 8 (f.pay 1)) (if f.pay 3 % 4 == 3 then a.resetPairs else a)
  else ac

def drainHand (s : State) (f : CmdF) (bs : List Byte) (st : BitVec 4) : Cmd :=
  ((s.hand.keeps (keptBack (drainBytes s bs) (drainRuns s f (s.hand.pos + 1)))).runDone 0 (drainAddr s)
    (rowBytes f.typ) (drainRuns s f (s.hand.pos + 1))).unitOver st (if s.hand.pos + 1 == 128 then unionLen (drainRuns s f 0 ++
    (if f.pay 3 % 4 = 1 then [((s.hand.win 2).a0, (s.hand.win 2).a0 + 128)] else [])) else 0) (s.hand.pos + 1) (s.hand.pos + 1 == 128)

section
variable {s : State} {cs : Vector Ctx 4} {m : Mem} {bk : Vector Bank 8} {ac : Vector Acc 8} {c : Cmd}

theorem State.matrix_drainBins (h : CtxsOf s cs) (bins : Bool) (n b : Nat) : ∃ cs', CtxsOf s cs' ∧
    (if bins then (s.matrix cs m bk ac c).drainBins n b else s.matrix cs m bk ac c) =
      s.matrix cs' (if bins then m.store b (addBins (m.bytes b 128) (ac[Fin.ofNat 8 n]).counted) else m) bk ac c := by
  cases bins with
  | false => exact ⟨cs, h, rfl⟩
  | true =>
    obtain ⟨cs', hcs', e⟩ := State.matrix_scratchPut (m := m) (bk := bk) (ac := ac) (c := c) h b
      (addBins (m.bytes b 128) (ac[Fin.ofNat 8 n]).counted)
    refine ⟨cs', hcs', Eq.trans ?_ e⟩
    rw [if_pos rfl, State.drainBins, State.scratchGet, State.matrix_fh]
    rfl

theorem State.matrix_drainClear (clear pairs : Bool) (n : Nat) :
    (if clear then (s.matrix cs m bk ac c).drainClear n pairs else s.matrix cs m bk ac c) =
      s.matrix cs m bk (if clear then ac.set (Fin.ofNat 8 n)
        (if pairs then (ac[Fin.ofNat 8 n]).zeroVals.resetPairs else (ac[Fin.ofNat 8 n]).zeroVals) else ac) c := by
  cases clear with
  | false => rfl
  | true =>
    have hacc : (s.matrix cs m bk ac c).fh.acc n = ac[Fin.ofNat 8 n] := by rw [State.matrix_fh]; rfl
    rw [if_pos rfl, if_pos rfl, State.drainClear, hacc]
    exact State.matrix_setAcc ..

end

theorem drainFin_matrix (s : State) (f : CmdF) (ac : Vector Acc 8) (bs : List Byte) (st : BitVec 4) : ∃ cs', CtxsOf s cs' ∧
    s.drainFin f (s.matrix s.fh.ctxs s.fh.scratch s.fh.banks ac s.hand) bs st =
      s.matrix cs' (drainMem s f ac bs) s.fh.banks (drainAccs s f ac) (drainHand s f bs st) := by
  obtain ⟨cs1, h1, late⟩ := State.matrix_putLate (m := s.fh.scratch) (bk := s.fh.banks) (ac := ac) (c := s.hand) (CtxsOf.start s)
    (bytesAt (drainAddr s) bs) (drainRuns s f (s.hand.pos + 1))
  obtain ⟨cs2, h2, bins⟩ := State.matrix_drainBins h1
    (m := s.fh.scratch.writeAll (writtenNow (drainBytes s bs) (drainRuns s f (s.hand.pos + 1)))) (bk := s.fh.banks) (ac := ac)
    (c := s.hand.keeps (keptBack (drainBytes s bs) (drainRuns s f (s.hand.pos + 1))))
    (s.hand.pos + 1 == 128 && f.pay 3 % 4 == 1) (f.pay 1) (s.hand.win 2).a0
  refine ⟨cs2, h2, ?_⟩
  rw [State.drainFin, late]
  rw [← drainBytes, bins, State.matrix_drainClear, State.matrix_hand, State.matrix_setHand, State.matrix_unitDone]
  rfl

theorem drainFin_start (s : State) (f : CmdF) (bs : List Byte) (st : BitVec 4) : ∃ cs', CtxsOf s cs' ∧
    s.drainFin f s bs st = s.matrix cs' (drainMem s f s.fh.accs bs) s.fh.banks (drainAccs s f s.fh.accs) (drainHand s f bs st) := by
  have h := drainFin_matrix s f s.fh.accs bs st
  rwa [State.matrix_start] at h

end Sys2Proof.Machine

/-! PROOFS. The rows of a plain drain (O30; R55, R177, R178, R225). -/

namespace Sys2Proof.Machine

/-! ## What a row of a drain has written -/

theorem drainHand_late (s : State) (f : CmdF) (bs : List Byte) (st : BitVec 4) :
    (drainHand s f bs st).late = keptBack (drainBytes s bs) (drainRuns s f (s.hand.pos + 1)) := rfl

theorem drainHand_status (s : State) (f : CmdF) (bs : List Byte) (st : BitVec 4) : (drainHand s f bs st).status = s.hand.status ||| st := rfl

theorem drainRuns_last {s : State} (f : CmdF) (h : s.hand.pos = 127) : drainRuns s f (s.hand.pos + 1) = [] := by rw [h]; rfl

/-- The bytes of a row behind those that its command kept back. -/
theorem read_drainBytes (s : State) (bs : List Byte) (x : Nat) : (s.fh.scratch.writeAll (drainBytes s bs)).read x =
    if drainAddr s ≤ x ∧ x < drainAddr s + bs.length then (bs[x - drainAddr s]?).getD 0 else lateByte s x := by
  rw [drainBytes, Mem.writeAll_append, Mem.read_writeAll_bytesAt, lateByte_eq]

theorem drainedRow_matrix {s : State} {f : CmdF} {cs : Vector Ctx 4} {bk : Vector Bank 8} {ac ac' : Vector Acc 8} {bs : List Byte}
    {st : BitVec 4} (hlen : bs.length = rowBytes f.typ) (hbins : (s.hand.pos + 1 == 128 && f.pay 3 % 4 == 1) = false) :
    DrainedRow f s (s.matrix cs (drainMem s f ac bs) bk ac' (drainHand s f bs st)) fun i => (bs[i]?).getD 0 := by
  have hread (x : Nat) : lateByte (s.matrix cs (drainMem s f ac bs) bk ac' (drainHand s f bs st)) x =
      if drainAddr s ≤ x ∧ x < drainAddr s + rowBytes f.typ then (bs[x - drainAddr s]?).getD 0 else lateByte s x := by
    rw [lateByte_eq, State.matrix_scratch, State.matrix_hand, drainHand_late, drainMem, hbins, if_neg Bool.false_ne_true,
      Mem.read_writtenNow_keptBack, read_drainBytes, hlen]
  refine ⟨fun i hi => ?_, fun y hy => ?_, fun h => ?_⟩
  · exact (hread (drainAddr s + i)).trans (by rw [if_pos ⟨by omega, by omega⟩, Nat.add_sub_cancel_left])
  · exact (hread y).trans (if_neg fun h => by
      have h1 : drainAddr s = (s.hand.win 0).a0 + s.hand.pos * (s.hand.win 0).pitch := rfl
      omega)
  · rw [State.matrix_hand, drainHand_late, drainRuns_last f h, keptBack_nil]

theorem length_drainRow (t : Ty) (rm : Rm) (sat : Bool) (xs : Nat → FVal × Bool) :
    (drainRow t rm sat ((List.range 128).map xs)).1.length = rowBytes t := by
  rw [drainRow_eq, rowBytes_eq]
  simp [List.length_flatMap, Nat.mul_comm]

/-- The accumulator that a drain's row clears, and the others. -/
theorem drainAccs_ne (s : State) (f : CmdF) (ac : Vector Acc 8) {m : Fin 8} (h : m ≠ Fin.ofNat 8 (f.pay 1)) :
    (drainAccs s f ac)[m] = ac[m] := by
  rw [drainAccs]
  split
  · exact accs_set_ne h _
  · rfl

theorem drainAccs_vals (s : State) (f : CmdF) (ac : Vector Acc 8) : ((drainAccs s f ac)[Fin.ofNat 8 (f.pay 1)]).vals =
    if s.hand.pos = 127 ∧ bit (f.opd 3) 2 = true then Vector.replicate 16384 0 else (ac[Fin.ofNat 8 (f.pay 1)]).vals := by
  have hc : (s.hand.pos + 1 == 128 && bit (f.opd 3) 2) = true ↔ s.hand.pos = 127 ∧ bit (f.opd 3) 2 = true := by simp
  rw [drainAccs]
  by_cases h : s.hand.pos = 127 ∧ bit (f.opd 3) 2 = true
  · rw [if_pos (hc.2 h), if_pos h, accs_set_self]
    split <;> rfl
  · rw [if_neg (mt hc.1 h), if_neg h]

theorem drainAccs_smax (s : State) (f : CmdF) (ac : Vector Acc 8) : ((drainAccs s f ac)[Fin.ofNat 8 (f.pay 1)]).smax =
    if s.hand.pos = 127 ∧ bit (f.opd 3) 2 = true ∧ f.pay 3 % 4 = 3 then Vector.replicate 128 (0xFF800000#32, 0#32)
    else (ac[Fin.ofNat 8 (f.pay 1)]).smax := by
  have hc : (s.hand.pos + 1 == 128 && bit (f.opd 3) 2) = true ↔ s.hand.pos = 127 ∧ bit (f.opd 3) 2 = true := by simp
  rw [drainAccs]
  by_cases h : s.hand.pos = 127 ∧ bit (f.opd 3) 2 = true
  · rw [if_pos (hc.2 h), accs_set_self]
    by_cases h3 : f.pay 3 % 4 = 3
    · rw [if_pos (beq_iff_eq.2 h3), if_pos ⟨h.1, h.2, h3⟩]; rfl
    · rw [if_neg (mt beq_iff_eq.1 h3), if_neg fun h' => h3 h'.2.2]; rfl
  · rw [if_neg (mt hc.1 h), if_neg fun h' => h ⟨h'.1, h'.2.1⟩]

/-! ## The modes of a drain -/

/-- The values of the row in hand of an accumulator. -/
def drainSource (s : State) (f : CmdF) (j : Nat) : Nat := (s.fh.acc (f.pay 1)).row s.hand.pos j

/-- What one row of an online softmax makes of the row of scores, the row of O and its pair. -/
def softmaxStep (s : State) (f : CmdF) : List Nat × (Nat × Nat) × List Byte × BitVec 4 :=
  softmaxRow f.typ f.sat f.imm.toNat ((s.fh.acc (f.pay 1)).rowList s.hand.pos) ((s.fh.acc (f.pay 2)).rowList s.hand.pos)
    ((s.fh.acc (f.pay 2)).pair s.hand.pos).1 ((s.fh.acc (f.pay 2)).pair s.hand.pos).2

theorem drainStep_eq (s : State) (f : CmdF) : s.drainStep f =
    match f.pay 3 % 4 with
    | 2 => s.drainFin f (s.setFh (s.fh.setAcc (f.pay 2) (((s.fh.acc (f.pay 2)).setRow s.hand.pos (softmaxStep s f).1.toArray).setPair
        s.hand.pos (softmaxStep s f).2.1))) (softmaxStep s f).2.2.1 (softmaxStep s f).2.2.2
    | 3 =>
      let x := drainRow f.typ f.rm f.sat (((s.fh.acc (f.pay 1)).rowList s.hand.pos).map fun v =>
        quotient (val32 v) (val32 ((s.fh.acc (f.pay 1)).pair s.hand.pos).2))
      s.drainFin f s x.1 x.2.2
    | _ =>
      let x := drainRow f.typ f.rm f.sat (((s.fh.acc (f.pay 1)).rowList s.hand.pos).map fun v => (val32 v, false))
      s.drainFin f s x.1 x.2.2 := rfl

theorem map_rowList {α : Type} (a : Acc) (r : Nat) (g : Nat → α) : (a.rowList r).map g = (List.range 128).map fun j => g (a.row r j) := by
  rw [Acc.rowList, List.map_map]; rfl

/-! ## The plain drain (R177) -/

/-- A row of a drain that converts its accumulator's values, and has its frame. -/
theorem drainStep_plain {s : State} {f : CmdF} (hmode : f.pay 3 % 4 = 0 ∨ f.pay 3 % 4 = 1) : ∃ cs, CtxsOf s cs ∧
    s.drainStep f =
      let x := drainRow f.typ f.rm f.sat ((List.range 128).map fun j => (val32 (drainSource s f j), false))
      s.matrix cs (drainMem s f s.fh.accs x.1) s.fh.banks (drainAccs s f s.fh.accs) (drainHand s f x.1 x.2.2) := by
  have hstep : s.drainStep f =
      let x := drainRow f.typ f.rm f.sat ((List.range 128).map fun j => (val32 (drainSource s f j), false))
      s.drainFin f s x.1 x.2.2 := by
    rw [drainStep_eq, map_rowList]
    rcases hmode with h | h <;> rw [h] <;> rfl
  obtain ⟨cs, hcs, e⟩ := drainFin_start s f _ _
  exact ⟨cs, hcs, hstep.trans e⟩

theorem drainSource_is {s : State} (f : CmdF) {r : Nat} (pos : s.hand.pos = r) (hr : r < 128) {j : Nat} (hj : j < 128) :
    StandsFor f.typ f.rm f.sat (val32 (drainSource s f j), false)
      (some (real32 ((s.fh.accs[Fin.ofNat 8 (f.pay 1)]).vals[Fin.ofNat 16384 (r * 128 + j)]).toNat)) := by
  subst pos
  have h : drainSource s f j = ((s.fh.accs[Fin.ofNat 8 (f.pay 1)]).vals[Fin.ofNat 16384 (s.hand.pos * 128 + j)]).toNat := Acc.row_eq _ hr hj
  rw [← h]
  exact standsFor_exact ..

theorem drainRowConvertsOnce : Claims.DrainRowConvertsOnce := by
  intro f s r n hone hr hmode
  obtain ⟨cs, hcs, hstep⟩ := drainStep_plain (s := s) (f := f) (hmode.imp_right And.left)
  have hexec : exec (.mxDrain f) s = .next (s.units fun t => t.drainStep f) := rfl
  rw [State.units_one hone, hstep] at hexec
  refine completes_of hexec ?_
  have hbins : (s.hand.pos + 1 == 128 && f.pay 3 % 4 == 1) = false := by
    have hr' : s.hand.pos < 128 := hr
    rcases hmode with h | ⟨h, hlt⟩
    · simp [h]
    · have hlt' : s.hand.pos < 127 := hlt
      simp [h]; omega
  dsimp only
  refine ⟨⟨_, _, _, drainRow_is fun j hj => drainSource_is f rfl hr hj, drainedRow_matrix (length_drainRow ..) hbins, ?_⟩, ?_, ?_,
    fun m hm => ?_, State.unitFrame_matrix hcs rfl rfl⟩
  · rw [State.matrix_hand, drainHand_status]
  · rw [State.matrix_fh]
    exact drainAccs_vals ..
  · rw [State.matrix_fh]
    exact (drainAccs_smax ..).trans (if_neg fun h => by omega)
  · rw [State.matrix_fh]
    exact drainAccs_ne s f _ hm

end Sys2Proof.Machine

/-! PROOFS. The exact quotients of a normalise drain (O30; R177, R180). -/

namespace Sys2Proof.Machine

/-! ## A bit below the lowest one -/

/-- Rounded far above its lowest bit, a number with a bit that stands for a remainder is the number with that remainder. -/
theorem roundShift_jam (rm : Rm) (neg : Bool) (q k : Nat) (s : Bool) :
    roundShift rm neg (2 * q + s.toNat) (k + 2) false = roundShift rm neg q (k + 1) s := by
  have hpow : 2 ^ (k + 2) = 2 * 2 ^ (k + 1) := by rw [pow_succ 2 (k + 1), Nat.mul_comm]
  have hs : s.toNat < 2 := Bool.toNat_lt s
  have hquot : (2 * q + s.toNat) / 2 ^ (k + 2) = q / 2 ^ (k + 1) := by
    rw [hpow, ← Nat.div_div_eq_div_mul, show (2 * q + s.toNat) / 2 = q by omega]
  have hrem : (2 * q + s.toNat) % 2 ^ (k + 2) = 2 * (q % 2 ^ (k + 1)) + s.toNat := by
    rw [hpow, Nat.mod_mul, show (2 * q + s.toNat) / 2 = q by omega, show (2 * q + s.toNat) % 2 = s.toNat by omega, Nat.add_comm]
  have heven : 2 ^ (k + 1) = 2 * 2 ^ k := by rw [pow_succ, Nat.mul_comm]
  simp only [roundShift, hquot, hrem]
  generalize q % 2 ^ (k + 1) = r
  rw [hpow, heven]
  generalize 2 ^ k = p
  have hgt : decide (2 * (2 * r + s.toNat) > 2 * (2 * p)) = (decide (2 * r > 2 * p) || (decide (2 * r = 2 * p) && s)) := by
    rw [Bool.eq_iff_iff]
    cases s
    · simp
    · simp; omega
  have heq : decide (2 * (2 * r + s.toNat) = 2 * (2 * p)) = (decide (2 * r = 2 * p) && !s) := by
    cases s
    · simp
    · simp; omega
  have hne : decide (2 * r + s.toNat ≠ 0) = (decide (r ≠ 0) || s) := by cases s <;> simp
  simp only [hgt, heq, hne, Bool.and_false, Bool.or_false, Bool.not_false, Bool.and_true]

theorem roundUnit_jam (rm : Rm) (neg : Bool) (q : Nat) {e u : Int} (h : e + 1 < u) (s : Bool) :
    roundUnit rm neg (2 * q + s.toNat) e u false = roundUnit rm neg q (e + 1) u s := by
  obtain ⟨k, hk⟩ : ∃ k : Nat, u = e + k + 2 := ⟨(u - e - 2).toNat, by omega⟩
  rw [roundUnit, roundUnit, if_neg (by omega), if_neg (by omega), show (u - e).toNat = k + 2 by omega,
    show (u - (e + 1)).toNat = k + 1 by omega, roundShift_jam]

theorem bitLen_jam {q : Nat} (hq : q ≠ 0) (s : Bool) : bitLen (2 * q + s.toNat) = bitLen q + 1 := by
  obtain ⟨hpos, hlo, hhi⟩ := bitLen_bounds hq
  have hs : s.toNat < 2 := Bool.toNat_lt s
  have h1 : 2 ^ bitLen q = 2 * 2 ^ (bitLen q - 1) := by rw [← pow_succ', Nat.sub_add_cancel hpos]
  have h2 : 2 ^ (bitLen q + 1) = 2 * 2 ^ bitLen q := pow_succ' ..
  exact bitLen_eq (by omega) (by omega)

theorem Fmt.round_jam {g : Fmt} (rm : Rm) (sat neg : Bool) {q : Nat} (e : Int) (long : g.mbits + 1 < bitLen q) (s : Bool) :
    g.round rm sat neg (2 * q + s.toNat) e false = g.round rm sat neg q (e + 1) s := by
  have hq : q ≠ 0 := by rintro rfl; exact absurd long (by simp [bitLen])
  have hlead : g.lead (2 * q + s.toNat) e = g.lead q (e + 1) := by rw [Fmt.lead, Fmt.lead, bitLen_jam hq]; push_cast; ring
  have hunit : e + 1 < g.lead q (e + 1) := by rw [Fmt.lead]; omega
  rw [Fmt.round_eq _ _ _ _ (by omega), Fmt.round_eq _ _ _ _ (by omega), hlead]
  simp only [roundUnit_jam rm neg q (lt_of_lt_of_le hunit (le_max_left _ _)), roundUnit_jam rm neg q hunit]

/-! ## Quotients -/

/-- The quotient of two integers in units of 2^−320, by its integer part. -/
theorem quotient_stands (m : Nat) {n : Nat} (hn : n ≠ 0) (e g : Int) : StandsAt (m * 2 ^ 320 / n) (e - g - 320) (decide (m * 2 ^ 320 % n ≠ 0))
    (m * (2 : ℝ) ^ e / (n * (2 : ℝ) ^ g)) := by
  have hpos : (0 : ℝ) < n := by exact_mod_cast Nat.pos_of_ne_zero hn
  generalize hk : (320 : Nat) = k
  have hki : (320 : Int) = k := by rw [← hk]; rfl
  rw [hki]
  have hdm : (n : ℝ) * (m * 2 ^ k / n : Nat) + (m * 2 ^ k % n : Nat) = m * 2 ^ k := by exact_mod_cast Nat.div_add_mod (m * 2 ^ k) n
  have hlt : ((m * 2 ^ k % n : Nat) : ℝ) < n := by exact_mod_cast Nat.mod_lt _ (Nat.pos_of_ne_zero hn)
  refine ⟨(m * 2 ^ k % n : Nat) / n, ?_, by positivity, (div_lt_one hpos).2 hlt, ?_⟩
  · have hq : ((m * 2 ^ k / n : Nat) : ℝ) + (m * 2 ^ k % n : Nat) / n = m * 2 ^ k / n := by
      rw [← hdm]; field_simp
    rw [hq, zpow_sub₀ (by norm_num), zpow_sub₀ (by norm_num), zpow_natCast]
    field_simp
  · rw [decide_eq_true_eq, not_iff_not, div_eq_zero_iff, or_iff_left hpos.ne', Nat.cast_eq_zero]

/-- The unit of a significand lies within the exponents of its format. -/
theorem Fmt.unit_bounds {g : Fmt} {b : Nat} {neg : Bool} {m : Nat} {e : Int} (h : g.decode b = .fin neg m e) :
    g.qmin ≤ e ∧ e ≤ g.qmin + (2 ^ g.ebits : Nat) := by
  have hex : b / 2 ^ g.mbits % 2 ^ g.ebits < 2 ^ g.ebits := Nat.mod_lt _ (by positivity)
  rw [Fmt.decode] at h
  split at h
  next => split at h <;> cases h
  next =>
    split at h
    next => cases h; omega
    next => cases h; omega

theorem val32_unit {b : Nat} {neg : Bool} {m : Nat} {e : Int} (h : val32 b = .fin neg m e) : -149 ≤ e ∧ e ≤ 107 := by
  have hq : Fmt.fp32.qmin = -149 := by decide
  have hd := Fmt.unit_bounds h
  rw [hq] at hd
  exact hd

/-- A quotient with a remainder, with its bit for the remainder, rounds as the exact quotient does in every unit above it. -/
theorem roundUnit_quotient (rm : Rm) (neg : Bool) {q : Nat} {e : Int} {y : ℝ} (hy : StandsAt q (e + 1) true y) {u : Int} (hu : e + 1 < u) :
    Rounds rm neg (y / (2 : ℝ) ^ u) (roundUnit rm neg (2 * q + 1) e u false).1 ∧
      ((roundUnit rm neg (2 * q + 1) e u false).2 = false ↔ ∃ n : Nat, y = n * (2 : ℝ) ^ u) := by
  have hjam : roundUnit rm neg (2 * q + 1) e u false = roundUnit rm neg q (e + 1) u true := roundUnit_jam rm neg q hu true
  rw [hjam]
  exact roundUnit_rounds rm neg hy fun _ => hu

/-- In a unit no higher than its own, a long quotient lies beyond every magnitude of a block. -/
theorem roundUnit_long (rm : Rm) (neg : Bool) {q : Nat} (hq : 128 ≤ q) {e : Int} {y : ℝ} (hy : StandsAt q (e + 1) true y) {u : Int}
    (hu : u ≤ e + 1) :
    128 ≤ (roundUnit rm neg (2 * q + 1) e u false).1 ∧ 128 ≤ y / (2 : ℝ) ^ u := by
  constructor
  · rcases hu.lt_or_eq with h | rfl
    · rw [roundUnit, if_pos (by omega)]
      have : 0 < 2 ^ (e - u).toNat := by positivity
      nlinarith
    · rw [roundUnit, if_neg (by omega), show (e + 1 - e).toNat = 1 by omega, roundShift, show (2 * q + 1) / 2 ^ 1 = q by omega]
      dsimp only
      split <;> omega
  · obtain ⟨δ, rfl, h0, -, -⟩ := hy
    have hp : (0 : ℝ) < 2 ^ u := by positivity
    have hle : (2 : ℝ) ^ u ≤ 2 ^ (e + 1) := zpow_le_zpow_right₀ (by norm_num) hu
    have hq' : (128 : ℝ) ≤ q := by exact_mod_cast hq
    rw [le_div_iff₀ hp]
    nlinarith

theorem standsFor_invalid (t : Ty) (rm : Rm) (sat : Bool) : StandsFor t rm sat (.nan, true) none := ⟨fun _ => rfl, fun _ => rfl, .inl rfl⟩

/-- A long quotient with a remainder stands for the exact one, whose unit lies below 1. -/
theorem standsFor_remainder (t : Ty) (rm : Rm) (sat neg : Bool) {q : Nat} (hq : 2 ^ 40 ≤ q) {e : Int} (he : e < -1) {y : ℝ}
    (hy : StandsAt q (e + 1) true y) : StandsFor t rm sat (.fin neg (2 * q + 1) e, false) (some (.num neg y)) := by
  refine ⟨fun _ => ?_, fun _ => ?_, y, rfl, ?_, fun rm u => ?_⟩
  · have hlong : t.fmt.mbits + 1 < bitLen q := lt_trans (by cases t <;> decide) (lt_bitLen hq)
    show Gives t.fmt rm sat _ (t.fmt.round rm sat neg (2 * q + 1) e false)
    have hjam : t.fmt.round rm sat neg (2 * q + 1) e false = t.fmt.round rm sat neg q (e + 1) true := Fmt.round_jam rm sat neg e hlong true
    rw [hjam]
    exact Fmt.round_gives (Ty.fmt_sound t) rm sat neg hy fun _ => hlong
  · refine toIntConv_number t sat ?_
    have h := roundUnit_quotient rm neg hy (u := 0) (by omega)
    simpa only [zpow_zero, mul_one, div_one] using h
  · obtain ⟨δ, rfl, h0, -, -⟩ := hy
    have hq' : (0 : ℝ) < q := by exact_mod_cast lt_of_lt_of_le (by positivity) hq
    exact iff_of_false (by positivity) (by omega)
  · rcases le_or_gt u (e + 1) with hu | hu
    · exact .inr (roundUnit_long rm neg (le_trans (by norm_num) hq) hy hu)
    · obtain ⟨hr, hexact⟩ := roundUnit_quotient rm neg hy hu
      refine .inl ⟨hr, hexact.trans ⟨?_, fun h => ⟨_, h⟩⟩⟩
      rintro ⟨n, hn⟩
      rw [hn, mul_div_cancel_right₀ _ (by positivity)] at hr
      rw [hn, rounds_nat hr]

/-- The quotient of two finite values whose divisor is not zero. -/
theorem standsFor_fin (t : Ty) (rm : Rm) (sat neg : Bool) {m n : Nat} (hn : n ≠ 0) (hlt : n < 2 ^ 24) {e g : Int} (he : e - g < 320 - 1) :
    StandsFor t rm sat (.fin neg (2 * (m * 2 ^ 320 / n) + (if m * 2 ^ 320 % n = 0 then 0 else 1)) (e - g - 321), false)
      (some (.num neg (m * (2 : ℝ) ^ e / (n * (2 : ℝ) ^ g)))) := by
  have hy := quotient_stands m hn e g
  have hunit : e - g - 320 = e - g - 321 + 1 := by ring
  by_cases hrem : m * 2 ^ 320 % n = 0
  · obtain ⟨δ, hval, -, -, hδ⟩ := hy
    have h0 : δ = 0 := by by_contra h; simpa [hrem] using hδ.2 h
    have hexact : (m : ℝ) * (2 : ℝ) ^ e / (n * (2 : ℝ) ^ g) = ((2 * (m * 2 ^ 320 / n) + 0 : Nat) : ℝ) * (2 : ℝ) ^ (e - g - 321) := by
      rw [hval, h0, hunit, zpow_add_one₀ (by norm_num)]
      push_cast
      ring
    rw [if_pos hrem, hexact]
    exact standsFor_exact ..
  · rw [decide_eq_true hrem, hunit] at hy
    rw [if_neg hrem]
    refine standsFor_remainder t rm sat neg ((Nat.le_div_iff_mul_le (Nat.pos_of_ne_zero hn)).2 ?_) (by omega) hy
    have hm : 1 ≤ m := Nat.pos_of_ne_zero fun h => hrem (by rw [h, Nat.zero_mul, Nat.zero_mod])
    calc 2 ^ 40 * n ≤ 2 ^ 40 * 2 ^ 24 := Nat.mul_le_mul_left _ hlt.le
      _ = 2 ^ 64 := by norm_num
      _ ≤ 2 ^ 320 := Nat.pow_le_pow_right (by norm_num) (by norm_num)
      _ ≤ m * 2 ^ 320 := Nat.le_mul_of_pos_left _ hm

theorem standsFor_quotient (t : Ty) (rm : Rm) (sat : Bool) (a b : Nat) :
    StandsFor t rm sat (quotient (val32 a) (val32 b)) ((real32 a).div (real32 b)) := by
  have ha (neg : Bool) (m : Nat) (e : Int) (h : val32 a = .fin neg m e) := val32_unit h
  have hb (neg : Bool) (m : Nat) (e : Int) (h : val32 b = .fin neg m e) := val32_unit h
  have hb24 (neg : Bool) (m : Nat) (e : Int) (h : val32 b = .fin neg m e) : m < 2 ^ 24 := Fmt.significand_lt Fmt.fp32_sound h
  show StandsFor t rm sat _ ((Exact.of (val32 a)).div (Exact.of (val32 b)))
  generalize val32 a = o, val32 b = l at *
  cases o with
  | nan => exact standsFor_exact t rm sat .nan
  | inf p =>
    cases l with
    | nan => exact standsFor_exact t rm sat .nan
    | inf r => exact standsFor_invalid ..
    | fin r n g => exact standsFor_exact t rm sat (.inf (p != r))
  | fin p m e =>
    cases l with
    | nan => exact standsFor_exact t rm sat .nan
    | inf r =>
      have h := standsFor_exact t rm sat (.fin (p != r) 0 0)
      rwa [Exact.of, Nat.cast_zero, zero_mul] at h
    | fin r n g =>
      have hz (k : Nat) (d : Int) : (k : ℝ) * (2 : ℝ) ^ d = 0 ↔ k = 0 := zpow_mul_eq_zero
      simp only [quotient, Exact.of, Exact.div, hz]
      by_cases hn : n = 0
      · rw [if_pos hn, if_pos hn]
        by_cases hm : m = 0
        · rw [if_pos hm, if_pos hm]
          exact standsFor_invalid ..
        · rw [if_neg hm, if_neg hm]
          exact standsFor_exact t rm sat (.inf (p != r))
      · rw [if_neg hn, if_neg hn]
        obtain ⟨h1, h2⟩ := ha p m e rfl
        obtain ⟨h3, h4⟩ := hb r n g rfl
        exact standsFor_fin t rm sat (p != r) hn (hb24 r n g rfl) (by omega)

/-! ## The normalise drain (R180) -/

theorem drainStep_normalise {s : State} {f : CmdF} (hmode : f.pay 3 % 4 = 3) : ∃ cs, CtxsOf s cs ∧
    s.drainStep f =
      let x := drainRow f.typ f.rm f.sat ((List.range 128).map fun j =>
        quotient (val32 (drainSource s f j)) (val32 ((s.fh.acc (f.pay 1)).pair s.hand.pos).2))
      s.matrix cs (drainMem s f s.fh.accs x.1) s.fh.banks (drainAccs s f s.fh.accs) (drainHand s f x.1 x.2.2) := by
  have hstep : s.drainStep f =
      let x := drainRow f.typ f.rm f.sat ((List.range 128).map fun j =>
        quotient (val32 (drainSource s f j)) (val32 ((s.fh.acc (f.pay 1)).pair s.hand.pos).2))
      s.drainFin f s x.1 x.2.2 := by
    rw [drainStep_eq, map_rowList, hmode]
    rfl
  obtain ⟨cs, hcs, e⟩ := drainFin_start s f _ _
  exact ⟨cs, hcs, hstep.trans e⟩

theorem Acc.ext_fields {a b : Acc} (hv : a.vals = b.vals) (hs : a.smax = b.smax) : a = b := by
  cases a; cases b; cases hv; cases hs; rfl

theorem normaliseDrainDividesOnce : Claims.NormaliseDrainDividesOnce := by
  intro f s r n o l last hone hr hmode
  obtain ⟨cs, hcs, hstep⟩ := drainStep_normalise (s := s) (f := f) hmode
  have hexec : exec (.mxDrain f) s = .next (s.units fun t => t.drainStep f) := rfl
  rw [State.units_one hone, hstep] at hexec
  refine completes_of hexec ?_
  have hbins : (s.hand.pos + 1 == 128 && f.pay 3 % 4 == 1) = false := by simp [hmode]
  have hsource (j : Nat) (hj : j < 128) : StandsFor f.typ f.rm f.sat
      (quotient (val32 (drainSource s f j)) (val32 ((s.fh.acc (f.pay 1)).pair s.hand.pos).2)) ((o j).div l) := by
    have h : drainSource s f j = ((s.fh.accs[n]).vals[Fin.ofNat 16384 (r * 128 + j)]).toNat := Acc.row_eq _ hr hj
    rw [h]
    exact standsFor_quotient ..
  have hvals := drainAccs_vals s f s.fh.accs
  have hsmax := drainAccs_smax s f s.fh.accs
  dsimp only
  refine ⟨⟨_, _, _, drainRow_is hsource, drainedRow_matrix (length_drainRow ..) hbins, ?_⟩, fun h => ?_, fun h => ?_, fun m hm => ?_,
    State.unitFrame_matrix hcs rfl rfl⟩
  · rw [State.matrix_hand, drainHand_status]
  · rw [State.matrix_fh]
    exact ⟨hvals.trans (if_pos h), hsmax.trans (if_pos ⟨h.1, h.2, hmode⟩)⟩
  · rw [State.matrix_fh]
    exact Acc.ext_fields (hvals.trans (if_neg h)) (hsmax.trans (if_neg fun h' => h ⟨h'.1, h'.2.1⟩))
  · rw [State.matrix_fh]
    exact drainAccs_ne s f _ hm

end Sys2Proof.Machine

/-! PROOFS. The bins of a histogram drain (O30; R73, R178, R213). -/

namespace Sys2Proof.Machine

/-! ## The bin of a value (R73) -/

theorem histBin_lt (v : FVal) : histBin v < 32 := by
  cases v with
  | nan => decide
  | inf neg => exact (by decide : 31 < 32)
  | fin neg m e =>
    simp only [histBin]
    split
    · decide
    · split
      · decide
      · split <;> omega

theorem histBin_zero (neg : Bool) (e : Int) : histBin (.fin neg 0 e) = 0 := rfl

/-- The power of 2 below a number, by the length of its significand. -/
theorem binade_unique {m : Nat} {e k : Int} (hm : 0 < m) (lo : (2 : ℝ) ^ k ≤ m * (2 : ℝ) ^ e) (hi : m * (2 : ℝ) ^ e < (2 : ℝ) ^ (k + 1)) :
    (bitLen m : Int) - 1 + e = k := by
  obtain ⟨hpos, hlo, hhi⟩ := bitLen_bounds hm.ne'
  have hp : (0 : ℝ) < 2 ^ e := by positivity
  have h1 : (2 : ℝ) ^ ((bitLen m : Int) - 1 + e) ≤ m * (2 : ℝ) ^ e := by
    rw [zpow_add₀ (by norm_num), show (bitLen m : Int) - 1 = ((bitLen m - 1 : Nat) : Int) by omega, zpow_natCast]
    exact mul_le_mul_of_nonneg_right (by exact_mod_cast hlo) hp.le
  have h2 : m * (2 : ℝ) ^ e < (2 : ℝ) ^ ((bitLen m : Int) + e) := by
    rw [zpow_add₀ (by norm_num), zpow_natCast]
    exact mul_lt_mul_of_pos_right (by exact_mod_cast hhi) hp
  have h3 := (zpow_lt_zpow_iff_right₀ (by norm_num : (1 : ℝ) < 2)).1 (lo.trans_lt h2)
  have h4 := (zpow_lt_zpow_iff_right₀ (by norm_num : (1 : ℝ) < 2)).1 (h1.trans_lt hi)
  omega

theorem histBin_binade (neg : Bool) (m : Nat) (e k : Int) (hm : 0 < m) (lo : (2 : ℝ) ^ k ≤ m * (2 : ℝ) ^ e)
    (hi : m * (2 : ℝ) ^ e < (2 : ℝ) ^ (k + 1)) :
    (k < -15 → histBin (.fin neg m e) = 0) ∧ (-15 ≤ k → k < 15 → (histBin (.fin neg m e) : Int) = k + 16) ∧
      (15 ≤ k → histBin (.fin neg m e) = 31) := by
  have hbin : histBin (.fin neg m e) = if k < -15 then 0 else if 15 ≤ k then 31 else (k + 16).toNat := by
    rw [← binade_unique hm lo hi, histBin, if_neg hm.ne']
  rw [hbin]
  refine ⟨fun h => if_pos h, fun h1 h2 => ?_, fun h => ?_⟩
  · rw [if_neg (by omega), if_neg (by omega)]; omega
  · rw [if_neg (by omega), if_pos h]

/-! ## The bytes of disjoint intervals (R213) -/

/-- The bytes that intervals cover. -/
def covered (ivs : List (Nat × Nat)) : Finset Nat := ivs.toFinset.biUnion fun iv => Finset.Ico iv.1 iv.2

theorem mem_covered {ivs : List (Nat × Nat)} {x : Nat} : x ∈ covered ivs ↔ ∃ iv ∈ ivs, iv.1 ≤ x ∧ x < iv.2 := by simp [covered]

theorem insertIv_perm (a : Nat × Nat) (l : List (Nat × Nat)) : (insertIv a l).Perm (a :: l) := by
  induction l with
  | nil => exact .refl _
  | cons b l ih =>
    rw [insertIv]
    split
    · exact .refl _
    · exact (ih.cons b).trans (.swap a b l)

theorem insertIv_sorted (a : Nat × Nat) {l : List (Nat × Nat)} (h : l.Pairwise fun p q => p.1 ≤ q.1) :
    (insertIv a l).Pairwise fun p q => p.1 ≤ q.1 := by
  induction l with
  | nil => exact List.pairwise_singleton ..
  | cons b l ih =>
    rw [insertIv]
    obtain ⟨hb, hl⟩ := List.pairwise_cons.1 h
    split
    next hab => exact List.pairwise_cons.2 ⟨fun q hq => by
      rcases List.mem_cons.1 hq with rfl | hq
      · exact hab
      · exact hab.trans (hb q hq), h⟩
    next hab => exact List.pairwise_cons.2 ⟨fun q hq => by
      rcases List.mem_cons.1 ((insertIv_perm a l).mem_iff.1 hq) with rfl | hq
      · omega
      · exact hb q hq, ih hl⟩

theorem sortedIvs (l : List (Nat × Nat)) : (l.foldr insertIv []).Perm l ∧ (l.foldr insertIv []).Pairwise fun p q => p.1 ≤ q.1 := by
  induction l with
  | nil => exact ⟨.refl _, .nil⟩
  | cons a l ih => exact ⟨(insertIv_perm a _).trans (ih.1.cons a), insertIv_sorted a ih.2⟩

/-- Intervals in rising order add what they cover from the end of those before. -/
theorem foldl_ivs {l : List (Nat × Nat)} (h : l.Pairwise fun p q => p.1 ≤ q.1) (m n : Nat) :
    (l.foldl (fun (a : Nat × Nat) iv => (max a.1 iv.2, a.2 + (max a.1 iv.2 - max a.1 iv.1))) (m, n)).2 =
      n + ((covered l).filter (m ≤ ·)).card := by
  induction l generalizing m n with
  | nil => simp [covered]
  | cons iv l ih =>
    obtain ⟨hiv, hl⟩ := List.pairwise_cons.1 h
    have hsplit : (covered (iv :: l)).filter (m ≤ ·) = Finset.Ico (max m iv.1) (max m iv.2) ∪ (covered l).filter (max m iv.2 ≤ ·) := by
      ext x
      simp only [Finset.mem_filter, Finset.mem_union, Finset.mem_Ico, mem_covered, List.exists_mem_cons_iff]
      constructor
      · rintro ⟨h1 | ⟨q, hq, h2⟩, hm⟩
        · exact .inl (by omega)
        · have := hiv q hq
          by_cases hx : x < iv.2
          · exact .inl (by omega)
          · exact .inr ⟨⟨q, hq, h2⟩, by omega⟩
      · rintro (h1 | ⟨h2, hm⟩)
        · exact ⟨.inl (by omega), by omega⟩
        · exact ⟨.inr h2, by omega⟩
    have hdisj : Disjoint (Finset.Ico (max m iv.1) (max m iv.2)) ((covered l).filter (max m iv.2 ≤ ·)) :=
      Finset.disjoint_left.2 fun x h1 h2 => absurd (Finset.mem_Ico.1 h1).2 (not_lt.2 (Finset.mem_filter.1 h2).2)
    rw [List.foldl_cons, ih hl, hsplit, Finset.card_union_of_disjoint hdisj, Nat.card_Ico, Nat.add_assoc]

theorem unionLen_eq_card (l : List (Nat × Nat)) : unionLen l = (covered l).card := by
  obtain ⟨hperm, hsorted⟩ := sortedIvs l
  have hcov : covered (l.foldr insertIv []) = covered l := by
    ext x
    simp only [mem_covered, hperm.mem_iff]
  rw [unionLen, foldl_ivs hsorted, hcov, Nat.zero_add, Finset.filter_true_of_mem fun _ _ => Nat.zero_le _]

/-- An interval apart from the others adds its length. -/
theorem unionLen_append_apart {l : List (Nat × Nat)} {a n : Nat} (h : ∀ iv ∈ l, iv.2 ≤ a ∨ a + n ≤ iv.1) :
    unionLen (l ++ [(a, a + n)]) = unionLen l + n := by
  have hcov : covered (l ++ [(a, a + n)]) = covered l ∪ Finset.Ico a (a + n) := by
    ext x
    simp only [mem_covered, Finset.mem_union, Finset.mem_Ico, List.mem_append, List.mem_singleton, or_and_right, exists_or,
      exists_eq_left]
  have hdisj : Disjoint (covered l) (Finset.Ico a (a + n)) := Finset.disjoint_left.2 fun x h1 h2 => by
    obtain ⟨iv, hiv, hx⟩ := mem_covered.1 h1
    have := h iv hiv
    have := Finset.mem_Ico.1 h2
    omega
  rw [unionLen_eq_card, unionLen_eq_card, hcov, Finset.card_union_of_disjoint hdisj, Nat.card_Ico, Nat.add_sub_cancel_left]

end Sys2Proof.Machine

/-! PROOFS. The last row of a histogram drain (O30; R73, R177, R178). -/

namespace Sys2Proof.Machine

/-! ## The counts -/

theorem Acc.counted_eq (a : Acc) : a.counted = a.vals.toList.map fun v => val32 v.toNat := by
  have hvals := a.toList_map_vals (fun v => val32 v.toNat)
  rw [Vector.toList_map] at hvals
  rw [hvals]
  refine Eq.trans (List.flatMap_congr fun r _ => ?_) (map_range_blocks (fun i => val32 (a.value i).toNat) 128 128)
  rw [map_rowList, Nat.mul_comm]
  rfl

theorem Acc.countP_counted (a : Acc) (i : Nat) : (a.counted.countP fun x => histBin x == i) =
    (a.vals.toList.filter fun v => histBin (Fmt.fp32.decode v.toNat) == i).length := by
  rw [Acc.counted_eq, List.countP_map, List.countP_eq_length_filter]
  rfl

/-- One bin behind the last row. -/
def newBin (old : List Byte) (xs : List FVal) (i : Nat) : Nat :=
  min (leNat ((old.drop (4 * i)).take 4) + xs.countP fun x => histBin x == i) (2 ^ 32 - 1)

theorem addBins_eq (old : List Byte) (xs : List FVal) : addBins old xs = (List.range 32).flatMap fun i => leBytes 4 (newBin old xs i) := rfl

theorem length_addBins (old : List Byte) (xs : List FVal) : (addBins old xs).length = 128 := by simp [addBins_eq, List.length_flatMap]

theorem Mem.bytes_slice (m : Mem) (a : Nat) {i k n : Nat} (h : i + k ≤ n) : ((m.bytes a n).drop i).take k = m.bytes (a + i) k := by
  refine List.ext_getElem (by simp; omega) fun j h1 h2 => ?_
  rw [List.getElem_take, List.getElem_drop, Mem.getElem_bytes, Mem.getElem_bytes, Nat.add_assoc]

/-- The bins of a store of new bins. -/
theorem bins_addBins (m : Mem) (b : Nat) (xs : List FVal) {i : Nat} (hi : i < 32) :
    leNat ((m.store b (addBins (m.bytes b 128) xs)).bytes (b + 4 * i) 4) =
      min (2 ^ 32 - 1) (leNat (m.bytes (b + 4 * i) 4) + xs.countP fun x => histBin x == i) := by
  have hslice := take_drop_flatMap (fun i => leBytes 4 (newBin (m.bytes b 128) xs i)) (fun _ => length_leBytes ..) (List.range 32)
    (i := i) (by rwa [List.length_range]) (j := 0) (n := 4) (by omega)
  rw [Mem.bytes_store_sub _ _ _ _ _ (by rw [length_addBins]; omega), addBins_eq]
  rw [Nat.add_zero, List.getElem_range, List.drop_zero, List.take_of_length_le (length_leBytes ..).le] at hslice
  rw [hslice, leNat_leBytes, newBin, Mem.bytes_slice _ _ (by omega), Nat.min_comm]
  exact Nat.mod_eq_of_lt (lt_of_le_of_lt (Nat.min_le_left ..) (by norm_num))

/-! ## The last row -/

theorem Mem.bytes_congr {m m' : Mem} {a n : Nat} (h : ∀ i, i < n → m'.read (a + i) = m.read (a + i)) : m'.bytes a n = m.bytes a n := by
  refine List.ext_getElem (by simp) fun i h1 h2 => ?_
  rw [Mem.getElem_bytes, Mem.getElem_bytes]
  exact h i (by simpa using h1)

/-- The bin window meets no row of the destination and no byte that was kept back. -/
def BinsApart (s : State) (f : CmdF) : Prop :=
  (∀ p, p ∈ s.hand.late → p.1 < (s.hand.win 2).a0 ∨ (s.hand.win 2).a0 + 128 ≤ p.1) ∧
  ∀ r, r < 128 → (s.hand.win 0).a0 + r * (s.hand.win 0).pitch + rowBytes f.typ ≤ (s.hand.win 2).a0 ∨
    (s.hand.win 2).a0 + 128 ≤ (s.hand.win 0).a0 + r * (s.hand.win 0).pitch

section
variable {s : State} {f : CmdF} (pos : s.hand.pos = 127) (mode : f.pay 3 % 4 = 1) (apart : BinsApart s f)
include pos

include mode in
/-- The scratchpad behind the last row. -/
theorem drainMem_last (ac : Vector Acc 8) (bs : List Byte) :
    let m := s.fh.scratch.writeAll (drainBytes s bs)
    drainMem s f ac bs = m.store (s.hand.win 2).a0 (addBins (m.bytes (s.hand.win 2).a0 128) (ac[Fin.ofNat 8 (f.pay 1)]).counted) := by
  rw [drainMem, drainRuns_last f pos, writtenNow_nil, if_pos (by simp [pos, mode])]

include apart

/-- The bins hold what they held before the row. -/
theorem bins_drainBytes {bs : List Byte} (hlen : bs.length = rowBytes f.typ) {i : Nat} (hi : i < 32) :
    (s.fh.scratch.writeAll (drainBytes s bs)).bytes ((s.hand.win 2).a0 + 4 * i) 4 = s.fh.scratch.bytes ((s.hand.win 2).a0 + 4 * i) 4 := by
  obtain ⟨hlate, hrow⟩ := apart
  refine Mem.bytes_congr fun j hj => ?_
  have hr := hrow 127 (by omega)
  have haddr : drainAddr s = (s.hand.win 0).a0 + 127 * (s.hand.win 0).pitch := by rw [drainAddr, pos]
  rw [read_drainBytes, if_neg (by omega), lateByte_eq]
  exact Mem.read_writeAll_other _ _ fun p hp he => by
    have := hlate p hp
    omega

include mode in
/-- The bytes of the last row stand where the bins do not. -/
theorem read_drainMem_last {ac : Vector Acc 8} {bs : List Byte} (hlen : bs.length = rowBytes f.typ) {i : Nat} (hi : i < rowBytes f.typ) :
    (drainMem s f ac bs).read (drainAddr s + i) = (bs[i]?).getD 0 := by
  have hr := apart.2 127 (by omega)
  have haddr : drainAddr s = (s.hand.win 0).a0 + 127 * (s.hand.win 0).pitch := by rw [drainAddr, pos]
  rw [drainMem_last pos mode, Mem.sameOutside_store _ _ _ (by rw [length_addBins]; omega), read_drainBytes, if_pos (by omega),
    Nat.add_sub_cancel_left]

include mode in
theorem drainHand_bytes (bs : List Byte) (st : BitVec 4) : (drainHand s f bs st).bytes = s.hand.bytes + unionLen ((List.range 128).map fun r =>
    ((s.hand.win 0).a0 + r * (s.hand.win 0).pitch, (s.hand.win 0).a0 + r * (s.hand.win 0).pitch + rowBytes f.typ)) + 128 := by
  have hruns : drainRuns s f 0 = (List.range 128).map fun r =>
      ((s.hand.win 0).a0 + r * (s.hand.win 0).pitch, (s.hand.win 0).a0 + r * (s.hand.win 0).pitch + rowBytes f.typ) := by
    rw [drainRuns, WinOp.rowsFrom, Nat.sub_zero, List.range_eq_range']
  have hbytes : (drainHand s f bs st).bytes = s.hand.bytes + (if s.hand.pos + 1 == 128 then unionLen (drainRuns s f 0 ++
      (if f.pay 3 % 4 = 1 then [((s.hand.win 2).a0, (s.hand.win 2).a0 + 128)] else [])) else 0) := rfl
  rw [hbytes, if_pos (by simp [pos]), if_pos mode, hruns, unionLen_append_apart, Nat.add_assoc]
  intro iv hiv
  obtain ⟨r, hr, rfl⟩ := List.mem_map.1 hiv
  exact apart.2 r (List.mem_range.1 hr)

end

theorem histogramDrain_last {f : CmdF} {s : State} (hone : OneUnit s) (pos : s.hand.pos = 127) (mode : f.pay 3 % 4 = 1)
    (apart : BinsApart s f) :
    let w := s.hand.win 0
    let b := (s.hand.win 2).a0
    let n : Fin 8 := Fin.ofNat 8 (f.pay 1)
    Completes (.mxDrain f) s fun t =>
      (∀ i, i < 32 → leNat (t.fh.scratch.bytes (b + 4 * i) 4) = min (2 ^ 32 - 1)
        (leNat (s.fh.scratch.bytes (b + 4 * i) 4) +
          ((s.fh.accs[n]).vals.toList.filter fun v => histBin (Fmt.fp32.decode v.toNat) == i).length)) ∧
      (∃ e bs st, RowIs f.typ f.rm f.sat
          (fun j => some (real32 ((s.fh.accs[n]).vals[Fin.ofNat 16384 (127 * 128 + j)]).toNat)) e bs st ∧
        (∀ i, i < rowBytes f.typ → t.fh.scratch.read (w.a0 + 127 * w.pitch + i) = bs i) ∧ t.hand.status = s.hand.status ||| st) ∧
      t.hand.bytes = s.hand.bytes + unionLen ((List.range 128).map fun r => (w.a0 + r * w.pitch, w.a0 + r * w.pitch + rowBytes f.typ)) + 128 ∧
      (t.fh.accs[n]).vals = (if bit (f.opd 3) 2 = true then Vector.replicate 16384 0 else (s.fh.accs[n]).vals) ∧
      (t.fh.accs[n]).smax = (s.fh.accs[n]).smax ∧ (∀ m, m ≠ n → t.fh.accs[m] = s.fh.accs[m]) ∧ t.hand.performed = true := by
  intro w b n
  obtain ⟨cs, hcs, hstep⟩ := drainStep_plain (s := s) (f := f) (.inr mode)
  have hexec : exec (.mxDrain f) s = .next (s.units fun t => t.drainStep f) := rfl
  rw [State.units_one hone, hstep] at hexec
  refine completes_of hexec ?_
  have haddr : drainAddr s = (s.hand.win 0).a0 + 127 * (s.hand.win 0).pitch := by rw [drainAddr, pos]
  dsimp only
  refine ⟨fun i hi => ?_, ⟨_, _, _, drainRow_is fun j hj => drainSource_is f pos (by norm_num) hj, fun i hi => ?_, ?_⟩, ?_, ?_, ?_, fun m hm => ?_, ?_⟩
  · rw [State.matrix_scratch, drainMem_last pos mode, bins_addBins _ _ _ hi, bins_drainBytes pos apart (length_drainRow ..) hi,
      Acc.countP_counted]
  · rw [State.matrix_scratch, ← haddr]
    exact read_drainMem_last pos mode apart (length_drainRow ..) hi
  · rw [State.matrix_hand, drainHand_status]
  · rw [State.matrix_hand]
    exact drainHand_bytes pos mode apart ..
  · rw [State.matrix_fh]
    exact (drainAccs_vals ..).trans (by simp only [pos, true_and]; rfl)
  · rw [State.matrix_fh]
    exact (drainAccs_smax ..).trans (if_neg fun h => by omega)
  · rw [State.matrix_fh]
    exact drainAccs_ne s f _ hm
  · rw [State.matrix_hand]
    show (s.hand.pos + 1 == 128) = true
    rw [pos]; rfl

theorem histogramDrainCountsBins : Claims.HistogramDrainCountsBins :=
  ⟨histBin_lt, rfl, fun _ => rfl, histBin_zero, histBin_binade, fun _ _ hone pos mode hlate hrows =>
    histogramDrain_last hone pos mode ⟨hlate, hrows⟩⟩

end Sys2Proof.Machine

/-! PROOFS. The rows of an online softmax (O30; R70, R179). -/

namespace Sys2Proof.Machine

/-! ## The steps of R179 -/

theorem rne32_lt (x : FVal × Bool) : (rne32 x).1 < 2 ^ 32 := Fmt.result_lt Fmt.fp32_sound ..

theorem mul32_gives (a b : Nat) : Gives .fp32 .rne false ((real32 a).mul (real32 b)) (mul32 a b) := by
  have h := Fmt.result_gives Fmt.fp32_sound .rne false (FVal.mul (val32 a) (val32 b))
  rwa [exact_mul] at h

theorem add32_gives (a : Nat) (v : FVal) : Gives .fp32 .rne false ((real32 a).add .rne (Exact.of v)) (rne32 (FVal.add .rne (val32 a) v)) := by
  have h := Fmt.result_gives Fmt.fp32_sound .rne false (FVal.add .rne (val32 a) v)
  rwa [exact_add] at h

theorem sub32_gives (a b : Nat) : Gives .fp32 .rne false ((real32 a).add .rne (real32 b).neg) (sub32 a b) := by
  have h := add32_gives a (val32 b).neg
  rwa [exact_neg] at h

/-- The maximum of the scores of a row and of its pair. -/
def rowMax (m : Nat) (sc : Nat → Nat × BitVec 4) : Nat :=
  minMax .fp32 true m (((List.range 128).map fun j => (sc j).1).foldl (minMax .fp32 true) negInf32)

/-- Whether the maximum rises from a finite one; then the difference of the maxima, the factor of the old sums, and a value rescaled. -/
def maxRises (m mn : Nat) : Bool := (val32 m).lt (val32 mn) && m != negInf32
def maxStep (m mn : Nat) : Nat × BitVec 4 := if maxRises m mn then sub32 m mn else (0, 0)
def rescale (m mn : Nat) : Nat × BitVec 4 := if maxRises m mn then exp2F (val32 (maxStep m mn).1) else (0, 0)
def rescaled (m mn v : Nat) : Nat × BitVec 4 := if maxRises m mn then mul32 v (rescale m mn).1 else (v, 0)

/-- A score below the maximum, and its weight. -/
def belowMax (mn v : Nat) : Nat × BitVec 4 := if mn = negInf32 then (0, 0) else sub32 v mn
def weight (mn v : Nat) : Nat × BitVec 4 := if mn = negInf32 then (0, 0) else exp2F (val32 (belowMax mn v).1)

/-- The sum of the first weights on top of a start. -/
def runningSum (w : Nat → FVal) (l : Nat × BitVec 4) : Nat → Nat × BitVec 4
  | 0 => l
  | j + 1 => rne32 (FVal.add .rne (val32 (runningSum w l j).1) (w j))

theorem foldl_runningSum (w : Nat → FVal) (l : Nat × BitVec 4) (n : Nat) :
    ((List.range n).map w).foldl (fun (a : Nat × St) x =>
      ((rne32 (FVal.add .rne (val32 a.1) x)).1, a.2 ||| (rne32 (FVal.add .rne (val32 a.1) x)).2)) (l.1, 0) =
      ((runningSum w l n).1, (List.range n).foldl (fun a j => a ||| (runningSum w l (j + 1)).2) 0) := by
  induction n with
  | zero => rfl
  | succ n ih => rw [List.range_succ, List.map_append, List.foldl_append, ih, List.foldl_append]; rfl

/-- The weights of a row to write. -/
def weights (mn : Nat) (sc : Nat → Nat × BitVec 4) (j : Nat) : FVal × Bool := (val32 (weight mn (sc j).1).1, false)

/-- The weights of a row as they stand written. -/
def writtenWeights (t : Ty) (sat : Bool) (mn : Nat) (sc : Nat → Nat × BitVec 4) : Nat → FVal :=
  written t fun j => (rowUnit t .rne sat (weights mn sc) j).1

/-- The sums of a row. -/
def rowSums (t : Ty) (sat : Bool) (m l : Nat) (sc : Nat → Nat × BitVec 4) : Nat → Nat × BitVec 4 :=
  let mn := rowMax m sc
  runningSum (writtenWeights t sat mn sc) (rescaled m mn l)

/-- The status of the rescaling. -/
def rescaleStatus (m mn l : Nat) (o : Nat → Nat) : BitVec 4 :=
  if maxRises m mn then (maxStep m mn).2 ||| (rescale m mn).2 ||| (List.range 128).foldl (fun a j => a ||| (rescaled m mn (o j)).2) 0 |||
    (rescaled m mn l).2 else 0

theorem gather_range (g : Nat → Nat × BitVec 4) (n : Nat) : gather ((List.range n).map g) =
    ((List.range n).map fun j => (g j).1, (List.range n).foldl (fun a j => a ||| (g j).2) 0) := by
  rw [gather, List.map_map, List.foldl_map]; rfl

theorem softmaxRow_eq (t : Ty) (sat : Bool) (c : Nat) (x o : Nat → Nat) (m l : Nat) :
    let sc (j : Nat) := mul32 (x j) c
    let mn := rowMax m sc
    let out := drainRow t .rne sat ((List.range 128).map (weights mn sc))
    softmaxRow t sat c ((List.range 128).map x) ((List.range 128).map o) m l =
      ((List.range 128).map fun j => (rescaled m mn (o j)).1, (mn, (rowSums t sat m l sc 128).1), out.1,
        (List.range 128).foldl (fun a j => a ||| (sc j).2) 0 ||| rescaleStatus m mn l o |||
          (List.range 128).foldl (fun a j => a ||| ((belowMax mn (sc j).1).2 ||| (weight mn (sc j).1).2)) 0 ||| out.2.2 |||
          (List.range 128).foldl (fun a j => a ||| (rowSums t sat m l sc (j + 1)).2) 0) := by
  intro sc mn out
  have hmax : minMax .fp32 true m (((List.range 128).map fun j => (mul32 (x j) c).1).foldl (minMax .fp32 true) negInf32) = mn := rfl
  have hrises : ((val32 m).lt (val32 mn) && m != negInf32) = maxRises m mn := rfl
  have hweight (v : Nat) : (if mn = negInf32 then ((0 : Nat), (0 : St)) else ((exp2F (val32 (sub32 v mn).1)).1,
      (sub32 v mn).2 ||| (exp2F (val32 (sub32 v mn).1)).2)) = ((weight mn v).1, (belowMax mn v).2 ||| (weight mn v).2) := by
    rw [weight, belowMax]
    split <;> rfl
  have hout : drainRow t .rne sat ((List.range 128).map fun j => (val32 (weight mn (mul32 (x j) c).1).1, false)) = out := rfl
  have hwritten : out.2.1 = (List.range 128).map (writtenWeights t sat mn sc) := congrArg (fun r => r.2.1) (drainRow_eq ..)
  simp only [softmaxRow, List.map_map, Function.comp_def, gather_range]
  simp only [hmax, hrises, hweight, hout, hwritten]
  have hsum := foldl_runningSum (writtenWeights t sat mn sc) (rescaled m mn l) 128
  have hsums : rowSums t sat m l sc = runningSum (writtenWeights t sat mn sc) (rescaled m mn l) := rfl
  have hsc (j : Nat) : sc j = mul32 (x j) c := rfl
  rw [hsums, rescaleStatus]
  cases hr : maxRises m mn with
  | false =>
    have hl : (rescaled m mn l).1 = l := by rw [rescaled, hr]; rfl
    have ho (j : Nat) : (rescaled m mn (o j)).1 = o j := by rw [rescaled, hr]; rfl
    rw [hl] at hsum
    simp only [Bool.false_eq_true, if_false, ho, hsum, hsc]
  | true =>
    have hstep : maxStep m mn = sub32 m mn := by rw [maxStep, hr]; rfl
    have hfac : rescale m mn = exp2F (val32 (sub32 m mn).1) := by rw [rescale, hr, hstep]; rfl
    have hv (v : Nat) : rescaled m mn v = mul32 v (exp2F (val32 (sub32 m mn).1)).1 := by rw [rescaled, hr, hfac]; rfl
    simp only [hv] at hsum
    simp only [if_true, hstep, hfac, hv, hsum, hsc]

end Sys2Proof.Machine

/-! PROOFS. The online-softmax drain: its accumulators and its status (O30; R179). -/

namespace Sys2Proof.Machine

/-! ## The maximum of a row -/

theorem foldl_minMax32 {l : List Nat} (hl : ∀ x ∈ l, x < 2 ^ 32) {a : Nat} (ha : a < 2 ^ 32) :
    l.foldl (minMax .fp32 true) a = l.foldl (larger .fp32) a ∧ l.foldl (larger .fp32) a < 2 ^ 32 := by
  induction l generalizing a with
  | nil => exact ⟨rfl, ha⟩
  | cons x l ih =>
    obtain ⟨hx, hl⟩ := List.forall_mem_cons.1 hl
    have hstep : minMax .fp32 true a x = larger .fp32 a x := (minMax_float (t := .fp32) rfl ha hx).2
    rw [List.foldl_cons, List.foldl_cons, hstep]
    exact ih hl (larger_lt Fmt.fp32_sound ha hx)

theorem rowMax_eq {m : Nat} (hm : m < 2 ^ 32) {sc : Nat → Nat × BitVec 4} (hsc : ∀ j, (sc j).1 < 2 ^ 32) :
    rowMax m sc = larger .fp32 m (((List.range 128).map fun j => (sc j).1).foldl (larger .fp32) 0xFF800000) ∧ rowMax m sc < 2 ^ 32 := by
  obtain ⟨hfold, hlt⟩ := foldl_minMax32 (l := (List.range 128).map fun j => (sc j).1) (a := negInf32) (fun x hx => by
    obtain ⟨j, -, rfl⟩ := List.mem_map.1 hx
    exact hsc j) (by decide)
  have hmax : rowMax m sc = larger .fp32 m (((List.range 128).map fun j => (sc j).1).foldl (larger .fp32) negInf32) := by
    rw [rowMax, hfold]
    exact (minMax_float (t := .fp32) rfl hm hlt).2
  exact ⟨hmax, hmax ▸ larger_lt Fmt.fp32_sound hm hlt⟩

/-! ## The steps of a row, as exact values -/

theorem maxRises_iff (m mn : Nat) : maxRises m mn = true ↔ (val32 m).lt (val32 mn) = true ∧ m ≠ 0xFF800000 := by
  rw [maxRises, Bool.and_eq_true, bne_iff_ne]; rfl

section
variable {m mn : Nat}

theorem rescale_rises (h : maxRises m mn = true) : Gives .fp32 .rne false ((real32 m).add .rne (real32 mn).neg) (maxStep m mn) ∧
    (Exp2Is (val32 (maxStep m mn).1) (rescale m mn).1 ∧ (rescale m mn).2 = exp2Status (val32 (maxStep m mn).1)) ∧
    ∀ v, Gives .fp32 .rne false ((real32 v).mul (real32 (rescale m mn).1)) (rescaled m mn v) := by
  refine ⟨?_, ?_, fun v => ?_⟩
  · rw [maxStep, if_pos h]; exact sub32_gives ..
  · rw [rescale, if_pos h]; exact exp2F_spec _
  · rw [rescaled, if_pos h]; exact mul32_gives ..

theorem rescale_stays (h : ¬ maxRises m mn = true) : (maxStep m mn).2 = 0 ∧ (rescale m mn).2 = 0 ∧ ∀ v, rescaled m mn v = (v, 0) :=
  ⟨by rw [maxStep, if_neg h], by rw [rescale, if_neg h], fun v => by rw [rescaled, if_neg h]⟩

theorem rescaled_lt {v : Nat} (hv : v < 2 ^ 32) : (rescaled m mn v).1 < 2 ^ 32 := by
  rw [rescaled]
  split
  · exact rne32_lt _
  · exact hv

theorem weight_none (h : mn = negInf32) (v : Nat) : belowMax mn v = (0, 0) ∧ weight mn v = (0, 0) :=
  ⟨by rw [belowMax, if_pos h], by rw [weight, if_pos h]⟩

theorem weight_some (h : mn ≠ negInf32) (v : Nat) : Gives .fp32 .rne false ((real32 v).add .rne (real32 mn).neg) (belowMax mn v) ∧
    Exp2Is (val32 (belowMax mn v).1) (weight mn v).1 ∧ (weight mn v).2 = exp2Status (val32 (belowMax mn v).1) := by
  refine ⟨?_, ?_⟩
  · rw [belowMax, if_neg h]; exact sub32_gives ..
  · rw [weight, if_neg h]; exact exp2F_spec _

theorem runningSum_lt (w : Nat → FVal) {l : Nat × BitVec 4} (hl : l.1 < 2 ^ 32) : ∀ j, (runningSum w l j).1 < 2 ^ 32
  | 0 => hl
  | _ + 1 => rne32_lt _

theorem bit_rescaleStatus (l : Nat) (o : Nat → Nat) (k : Nat) : bit (rescaleStatus m mn l o) k = true ↔
    bit (maxStep m mn).2 k = true ∨ bit (rescale m mn).2 k = true ∨ (∃ j, j < 128 ∧ bit (rescaled m mn (o j)).2 k = true) ∨
      bit (rescaled m mn l).2 k = true := by
  rw [rescaleStatus]
  by_cases h : maxRises m mn = true
  · rw [if_pos h, bit4_or, bit4_or, bit4_or, Bool.or_eq_true, Bool.or_eq_true, Bool.or_eq_true, bit_foldl_or]
    simp only [bit4_zero, Bool.false_eq_true, false_or, List.mem_range, or_assoc]
  · obtain ⟨h1, h2, h3⟩ := rescale_stays h
    rw [if_neg h, h1, h2]
    simp only [h3, bit4_zero, Bool.false_eq_true, and_false, exists_false, or_self]

end

theorem exists_lt_succ_iff {n : Nat} {p : Nat → Prop} : (∃ j, j < n + 1 ∧ p j) ↔ p 0 ∨ ∃ j, j < n ∧ p (j + 1) := by
  constructor
  · rintro ⟨j, hj, h⟩
    cases j with
    | zero => exact .inl h
    | succ j => exact .inr ⟨j, by omega, h⟩
  · rintro (h | ⟨j, hj, h⟩)
    · exact ⟨0, by omega, h⟩
    · exact ⟨j + 1, by omega, h⟩

/-- The status of a row of an online softmax. -/
theorem bit_softmaxRow (t : Ty) (sat : Bool) (c : Nat) (x o : Nat → Nat) (m l k : Nat) :
    let sc (j : Nat) := mul32 (x j) c
    let mn := rowMax m sc
    bit (softmaxRow t sat c ((List.range 128).map x) ((List.range 128).map o) m l).2.2.2 k = true ↔
      bit (drainRow t .rne sat ((List.range 128).map (weights mn sc))).2.2 k = true ∨ bit (maxStep m mn).2 k = true ∨
      bit (rescale m mn).2 k = true ∨
      (∃ j, j < 128 ∧ (bit (sc j).2 k = true ∨ bit (rescaled m mn (o j)).2 k = true ∨ bit (belowMax mn (sc j).1).2 k = true ∨
        bit (weight mn (sc j).1).2 k = true)) ∨
      ∃ j, j < 129 ∧ bit (rowSums t sat m l sc j).2 k = true := by
  intro sc mn
  have hsum : rowSums t sat m l sc 0 = rescaled m mn l := rfl
  rw [softmaxRow_eq]
  simp only [bit4_or, Bool.or_eq_true, bit_foldl_or, bit_rescaleStatus, bit4_zero, Bool.false_eq_true, false_or, List.mem_range,
    exists_lt_succ_iff (n := 128), hsum, and_or_left, exists_or]
  have hscore (j : Nat) : mul32 (x j) c = sc j := rfl
  have hmax : rowMax m sc = mn := rfl
  simp only [hscore, hmax]
  clear_value sc mn
  exact iff_of_eq (by ac_rfl)

end Sys2Proof.Machine

/-! PROOFS. A row of an online-softmax drain, and the obligation (O30; R177 to R179). -/

namespace Sys2Proof.Machine

/-! ## The rows that a softmax replaces -/

/-- Value `j` of row `r` of an accumulator, and the row. -/
def Acc.cell (a : Acc) (r j : Nat) : Nat := (a.vals[Fin.ofNat 16384 (r * 128 + j)]).toNat

theorem Acc.cell_lt (a : Acc) (r j : Nat) : a.cell r j < 2 ^ 32 := BitVec.isLt _

theorem Acc.rowList_eq (a : Acc) {r : Nat} (hr : r < 128) : a.rowList r = (List.range 128).map (a.cell r) :=
  List.map_congr_left fun _ hj => a.row_eq hr (List.mem_range.1 hj)

/-- The accumulator of O with its row and its pair replaced. -/
def Acc.softmax (a : Acc) (r : Nat) (g : Nat → Nat) (p : Nat × Nat) : Acc := (a.setRow r ((List.range 128).map g).toArray).setPair r p

section
variable (a : Acc) {r : Nat} (g : Nat → Nat) (p : Nat × Nat)

theorem Acc.softmax_vals (i : Fin 16384) : (a.softmax r g p).vals[i] =
    if i.val / 128 = r then BitVec.ofNat 32 (g (i.val % 128)) else a.vals[i] := by
  have hk : i.val % 128 < 128 := Nat.mod_lt _ (by decide)
  have hget : (((List.range 128).map g).toArray)[i.val % 128]? = some (g (i.val % 128)) := by
    rw [List.getElem?_toArray, List.getElem?_map, List.getElem?_range hk, Option.map_some]
  have hpair : (a.softmax r g p).vals = (a.setRow r ((List.range 128).map g).toArray).vals := by rw [Acc.softmax, Acc.setPair]
  rw [hpair, Acc.setRow_vals, hget, Option.getD_some]

theorem Acc.softmax_cell (hr : r < 128) (hg : ∀ j, g j < 2 ^ 32) {j : Nat} (hj : j < 128) : (a.softmax r g p).cell r j = g j := by
  have hv : (Fin.ofNat 16384 (r * 128 + j)).val = r * 128 + j := Nat.mod_eq_of_lt (by omega)
  have hcol : (Fin.ofNat 16384 (r * 128 + j)).val % 128 = j := by rw [hv]; omega
  rw [Acc.cell, Acc.softmax_vals, if_pos (by rw [hv]; omega), hcol, BitVec.toNat_ofNat, Nat.mod_eq_of_lt (hg j)]

theorem Acc.softmax_smax (hr : r < 128) (i : Fin 128) : (a.softmax r g p).smax[i] =
    if i.val = r then (BitVec.ofNat 32 p.1, BitVec.ofNat 32 p.2) else a.smax[i] := by
  have hv : (Fin.ofNat 128 r).val = r := Nat.mod_eq_of_lt hr
  have hpair : (a.softmax r g p).smax = a.smax.set (Fin.ofNat 128 r) (BitVec.ofNat 32 p.1, BitVec.ofNat 32 p.2) := by
    rw [Acc.softmax, Acc.setPair, Acc.setRow_smax]
  rw [hpair]
  show (a.smax.set (Fin.ofNat 128 r) (BitVec.ofNat 32 p.1, BitVec.ofNat 32 p.2))[i.val] = _
  rw [Vector.getElem_set, hv]
  simp only [eq_comm]
  rfl

end

/-! ## The softmax drain -/

section
variable (s : State) (f : CmdF)

/-- The scores of the row in hand, the values of its row of O, and its pair. -/
def softScores (j : Nat) : Nat × BitVec 4 := mul32 ((s.fh.accs[Fin.ofNat 8 (f.pay 1)]).cell s.hand.pos j) f.imm.toNat
def softOld (j : Nat) : Nat := (s.fh.accs[Fin.ofNat 8 (f.pay 2)]).cell s.hand.pos j
def softPair : Nat × Nat := (s.fh.accs[Fin.ofNat 8 (f.pay 2)]).pair s.hand.pos

/-- The maximum behind the row, and its sums. -/
def softMax : Nat := rowMax (softPair s f).1 (softScores s f)
def softSums : Nat → Nat × BitVec 4 := rowSums f.typ f.sat (softPair s f).1 (softPair s f).2 (softScores s f)

/-- The output row. -/
def softOut : List Byte × List FVal × BitVec 4 :=
  drainRow f.typ .rne f.sat ((List.range 128).map (weights (softMax s f) (softScores s f)))

/-- The accumulators behind the row. -/
def softAccs : Vector Acc 8 := s.fh.accs.set (Fin.ofNat 8 (f.pay 2)) ((s.fh.accs[Fin.ofNat 8 (f.pay 2)]).softmax s.hand.pos
  (fun j => (rescaled (softPair s f).1 (softMax s f) (softOld s f j)).1) (softMax s f, (softSums s f 128).1))

end

section
variable {s : State} {f : CmdF}

theorem softmaxStep_eq (hr : s.hand.pos < 128) : softmaxStep s f = softmaxRow f.typ f.sat f.imm.toNat
    ((List.range 128).map ((s.fh.accs[Fin.ofNat 8 (f.pay 1)]).cell s.hand.pos)) ((List.range 128).map (softOld s f)) (softPair s f).1
    (softPair s f).2 := by
  have h1 := (s.fh.accs[Fin.ofNat 8 (f.pay 1)]).rowList_eq hr
  have h2 := (s.fh.accs[Fin.ofNat 8 (f.pay 2)]).rowList_eq hr
  rw [softmaxStep, Hearth.acc, Hearth.acc, h1, h2]
  rfl

theorem softmaxStep_values (hr : s.hand.pos < 128) : (softmaxStep s f).1 = (List.range 128).map (fun j =>
      (rescaled (softPair s f).1 (softMax s f) (softOld s f j)).1) ∧
    (softmaxStep s f).2.1 = (softMax s f, (softSums s f 128).1) ∧ (softmaxStep s f).2.2.1 = (softOut s f).1 := by
  rw [softmaxStep_eq hr, softmaxRow_eq]
  exact ⟨rfl, rfl, rfl⟩

/-- The status of the row in hand. -/
theorem bit_softmaxStep (hr : s.hand.pos < 128) (k : Nat) : bit (softmaxStep s f).2.2.2 k = true ↔
    bit (softOut s f).2.2 k = true ∨ bit (maxStep (softPair s f).1 (softMax s f)).2 k = true ∨
    bit (rescale (softPair s f).1 (softMax s f)).2 k = true ∨
    (∃ j, j < 128 ∧ (bit (softScores s f j).2 k = true ∨ bit (rescaled (softPair s f).1 (softMax s f) (softOld s f j)).2 k = true ∨
      bit (belowMax (softMax s f) (softScores s f j).1).2 k = true ∨ bit (weight (softMax s f) (softScores s f j).1).2 k = true)) ∨
    ∃ j, j < 129 ∧ bit (softSums s f j).2 k = true := by
  rw [softmaxStep_eq hr]
  exact bit_softmaxRow ..

theorem State.setAcc_eq (s : State) (n : Nat) (a : Acc) : s.setFh (s.fh.setAcc n a) =
    s.matrix s.fh.ctxs s.fh.scratch s.fh.banks (s.fh.accs.set (Fin.ofNat 8 n) a) s.hand := rfl

theorem drainStep_softmax (hr : s.hand.pos < 128) (mode : f.pay 3 % 4 = 2) : ∃ cs, CtxsOf s cs ∧ s.drainStep f =
    s.matrix cs (drainMem s f (softAccs s f) (softOut s f).1) s.fh.banks (drainAccs s f (softAccs s f))
      (drainHand s f (softOut s f).1 (softmaxStep s f).2.2.2) := by
  obtain ⟨hrow, hpair, hbytes⟩ := softmaxStep_values (f := f) hr
  have hacc : s.setFh (s.fh.setAcc (f.pay 2) (((s.fh.acc (f.pay 2)).setRow s.hand.pos (softmaxStep s f).1.toArray).setPair
      s.hand.pos (softmaxStep s f).2.1)) = s.matrix s.fh.ctxs s.fh.scratch s.fh.banks (softAccs s f) s.hand := by
    rw [hrow, hpair, State.setAcc_eq]
    rfl
  have hstep : s.drainStep f = s.drainFin f (s.matrix s.fh.ctxs s.fh.scratch s.fh.banks (softAccs s f) s.hand) (softOut s f).1
      (softmaxStep s f).2.2.2 := by
    rw [← hacc, ← hbytes, drainStep_eq, mode]
    rfl
  obtain ⟨cs, hcs, e⟩ := drainFin_matrix s f (softAccs s f) (softOut s f).1 (softmaxStep s f).2.2.2
  exact ⟨cs, hcs, hstep.trans e⟩

theorem softMax_eq : softMax s f = larger .fp32 (softPair s f).1 (((List.range 128).map fun j => (softScores s f j).1).foldl (larger .fp32)
    0xFF800000) ∧ softMax s f < 2 ^ 32 := rowMax_eq (BitVec.isLt _) fun _ => rne32_lt _

theorem softSums_lt (j : Nat) : (softSums s f j).1 < 2 ^ 32 := runningSum_lt _ (rescaled_lt (BitVec.isLt _)) j

end

theorem softmaxDrainTakesItsSteps : Claims.SoftmaxDrainTakesItsSteps := by
  intro f s r sn on at_ pair v near exp2 hone hr mode hne
  obtain ⟨cs, hcs, hstep⟩ := drainStep_softmax (s := s) (f := f) hr mode
  have hexec : exec (.mxDrain f) s = .next (s.units fun t => t.drainStep f) := rfl
  rw [State.units_one hone, hstep] at hexec
  refine completes_of hexec ?_
  have hbins : (s.hand.pos + 1 == 128 && f.pay 3 % 4 == 1) = false := by simp [mode]
  refine ⟨softScores s f, fun j => rescaled (softPair s f).1 (softMax s f) (softOld s f j), fun j => belowMax (softMax s f) (softScores s f j).1,
    fun j => weight (softMax s f) (softScores s f j).1, softSums s f, softMax s f, maxStep (softPair s f).1 (softMax s f),
    rescale (softPair s f).1 (softMax s f), fun j => (rowUnit f.typ .rne f.sat (weights (softMax s f) (softScores s f)) j).1,
    fun i => ((softOut s f).1[i]?).getD 0, (softOut s f).2.2, ?_⟩
  intro m rises
  have hrises : rises ↔ maxRises (softPair s f).1 (softMax s f) = true := (maxRises_iff ..).symm
  have hon : (drainAccs s f (softAccs s f))[on] = (s.fh.accs[on]).softmax r
      (fun j => (rescaled (softPair s f).1 (softMax s f) (softOld s f j)).1) (softMax s f, (softSums s f 128).1) :=
    (drainAccs_ne s f _ hne.symm).trans (accs_set_self ..)
  obtain ⟨hmax, hmaxlt⟩ := softMax_eq (s := s) (f := f)
  have hsmax := (s.fh.accs[on]).softmax_smax (fun j => (rescaled (softPair s f).1 (softMax s f) (softOld s f j)).1)
    (softMax s f, (softSums s f 128).1) hr
  have hacc : (s.matrix cs (drainMem s f (softAccs s f) (softOut s f).1) s.fh.banks (drainAccs s f (softAccs s f))
      (drainHand s f (softOut s f).1 (softmaxStep s f).2.2.2)).fh.accs[on] = _ := (congrArg (fun y : Hearth => y.accs[on]) State.matrix_fh).trans hon
  have hrow : (Fin.ofNat 128 r).val = r := Nat.mod_eq_of_lt hr
  rw [State.matrix_fh, State.matrix_hand]
  refine ⟨fun j _ => mul32_gives .., hmax, fun h => ?_, fun h => ?_, fun h j => weight_none h _, fun h j _ => weight_some h _,
    drainRow_is fun j _ => standsFor_exact .., drainedRow_matrix (length_drainRow ..) hbins,
    fun j _ => add32_gives .., fun k => ?_, fun j hj => ?_, ?_, ?_, fun i hi => ?_, fun i hi => ?_, ?_, fun k hsn hon => ?_, State.unitFrame_matrix hcs rfl rfl⟩
  · obtain ⟨hstep, hfac, hold⟩ := rescale_rises (hrises.1 h)
    exact ⟨hstep, hfac, fun j _ => hold _, hold _⟩
  · obtain ⟨hstep, hfac, hold⟩ := rescale_stays (mt hrises.2 h)
    exact ⟨hstep, hfac, fun j => hold _, hold _⟩
  · rw [drainHand_status, bit4_or, Bool.or_eq_true, bit_softmaxStep hr]
  · exact (congrArg (fun a : Acc => a.cell r j) hacc).trans (Acc.softmax_cell _ _ _ hr (fun j => rescaled_lt (Acc.cell_lt ..)) hj)
  · refine (congrArg (fun a : Acc => (a.smax[Fin.ofNat 128 r]).1.toNat) hacc).trans ?_
    rw [hsmax, if_pos hrow, BitVec.toNat_ofNat, Nat.mod_eq_of_lt hmaxlt]
  · refine (congrArg (fun a : Acc => (a.smax[Fin.ofNat 128 r]).2.toNat) hacc).trans ?_
    rw [hsmax, if_pos hrow, BitVec.toNat_ofNat, Nat.mod_eq_of_lt (softSums_lt 128)]
  · rw [hon, Acc.softmax_vals, if_neg hi]
  · rw [hon, hsmax, if_neg hi]
  · refine (drainAccs_vals ..).trans ?_
    rw [show (softAccs s f)[sn] = s.fh.accs[sn] from accs_set_ne hne _]
  · exact (drainAccs_ne s f _ hsn).trans (accs_set_ne hon _)

/-! ## The obligation -/

/-- Settles O30: the row sums of a nest's row by `goRow_eq`, and a drain's row by its encoding (`drainRow_is`) and the bytes that stand or wait
(`drainedRow_matrix`), with the quotients, the bins and the softmax steps of its mode. -/
theorem matrixRowsAndDrains : Obligations.MatrixRowsAndDrains :=
  ⟨nestRowAccumulates, drainRowConvertsOnce, histogramDrainCountsBins, softmaxDrainTakesItsSteps, normaliseDrainDividesOnce⟩

end Sys2Proof.Machine
